-- ==== Sys2Proof/Word.lean ====
section
/-! DEFINITION. The word types of the machine (R1, R2, R3). -/

namespace Sys2Proof

/-- A byte of storage. -/
abbrev Byte := BitVec 8

/-- A 64-bit register value or address. -/
abbrev Word := BitVec 64

/-- A 32-bit operation value. -/
abbrev W32 := BitVec 32

/-- A register field of an instruction: `v0`-`v31` or `c0`-`c31`. -/
abbrev Reg := BitVec 5

end Sys2Proof
end

