-- ==== Sys2Proof/Config.lean ====
section
/-! DEFINITION. What the spec leaves to an implementation or leaves open: constants with no body, so that nothing
proved about the model can rest on a value of them. -/

namespace Sys2Proof.Config

/-- A choice the spec leaves open, fresh for each value of the state's counter. (log 7: DESIGN CHOICE, safe.) -/
opaque freeNat : Nat → Nat

/-- R207: `fsfu` returns the same bits for the same function, argument and modifier word, within the error bound
of the function; the bits themselves are open. -/
opaque sfuBits (code : Nat) (arg : W32) (modifier : Nat) : W32

/-- R60, R368: which of the caller-saved registers `v8` to `v14` the translator makes addresses in, for a module.
(log 139: DESIGN CHOICE, unsafe.) -/
opaque translatorTemp (module : List Byte) : Nat

/-- R369: the Ralwen root public key, whose hash the boot ROM holds, and the Ralwen firmware key that it certifies, as points of
the curve. (log 104: PRESUMED, unsafe.) -/
opaque rootKey : Nat × Nat
opaque firmwareKey : Nat × Nat

/-- R369: the operator's public key in an owner record; the spec gives no place for it. -/
opaque operatorKey : List Byte → Nat × Nat

/-- R369: the module's private identity key. -/
opaque identityKey : Nat

/-- R369: the module part number. -/
opaque partNumber : Nat

/-- R369: what a configuration record sets, as (field, index, value); the spec gives no layout of its body. -/
opaque settings : List Byte → List (Nat × Nat × Nat)

end Sys2Proof.Config
end

