-- ==== Sys2Proof/Syntax.lean ====
section
/-! DEFINITION. The instructions of Sniuc and the events of the module as data: one constructor for each row
of the table of operations and events. The operand structures hold the fields of the formats of R176 to R178,
R181 and R185 that an encoding may set freely; the fields that must be zero do not appear. -/

namespace Sys2Proof

/-- The common fields of an instruction word (R174): `n` the guard's sense, `g` the guard, `s` the stall count. -/
structure Hdr where
  n : Bool
  g : BitVec 4
  s : BitVec 2
  deriving DecidableEq, Repr

/-- Compact format with a source register (R181): `u` makes the source uniform. -/
structure CReg where
  u : Bool
  a : Reg
  d : Reg
  deriving DecidableEq, Repr

/-- Compact format with a five-bit immediate (R181). -/
structure CImm where
  i : Reg
  d : Reg
  deriving DecidableEq, Repr

/-- Format R with both sources (R176): `u` makes `b` uniform. -/
structure R3 where
  h : Hdr
  u : Bool
  b : Reg
  a : Reg
  d : Reg
  deriving DecidableEq, Repr

/-- Format R, unary (R183). -/
structure R1 where
  h : Hdr
  a : Reg
  d : Reg
  deriving DecidableEq, Repr

/-- Format R with a function or conversion code in `b` (R184). -/
structure Rf where
  h : Hdr
  f : Reg
  a : Reg
  d : Reg
  deriving DecidableEq, Repr

/-- The modifier word (R178). -/
structure Modifier where
  au : Bool
  du : Bool
  rnd : BitVec 2
  cu : Bool
  cp : Bool
  c : Reg
  k : BitVec 8
  negd : Bool
  absb : Bool
  absa : Bool
  negb : Bool
  nega : Bool
  sat : BitVec 2
  deriving DecidableEq, Repr

/-- The modifier word of zeros, under which the 64-bit form of an R-format instruction is its 32-bit form. -/
def Modifier.zero : Modifier :=
  { au := false, du := false, rnd := 0, cu := false, cp := false, c := 0, k := 0, negd := false, absb := false,
    absa := false, negb := false, nega := false, sat := 0 }

/-- `R3` with a modifier word. -/
structure R3m where
  r : R3
  m : Modifier
  deriving DecidableEq, Repr

/-- `R1` with a modifier word. -/
structure R1m where
  r : R1
  m : Modifier
  deriving DecidableEq, Repr

/-- `Rf` with a modifier word. -/
structure Rfm where
  r : Rf
  m : Modifier
  deriving DecidableEq, Repr

/-- Format Q (R176): three predicates. -/
structure Ql where
  h : Hdr
  b : BitVec 4
  a : BitVec 4
  d : BitVec 4
  deriving DecidableEq, Repr

/-- Format I, 32-bit form: `imm6`. -/
structure Im where
  h : Hdr
  i : BitVec 6
  a : Reg
  d : Reg
  deriving DecidableEq, Repr

/-- Format I, 64-bit form: `imm32`. -/
structure Im64 where
  h : Hdr
  a : Reg
  d : Reg
  i : BitVec 32
  deriving DecidableEq, Repr

/-- Format K, 32-bit form: `imm11` and a destination. -/
structure Km where
  h : Hdr
  i : BitVec 11
  d : Reg
  deriving DecidableEq, Repr

/-- Format K, 64-bit form: `imm32` and a destination. -/
structure Km64 where
  h : Hdr
  d : Reg
  i : BitVec 32
  deriving DecidableEq, Repr

/-- Format M (R176): `o` acquire, release or no-return; `p` space; `w` width code; `a` base; `d` data. -/
structure Me where
  h : Hdr
  o : Bool
  p : BitVec 2
  w : BitVec 3
  a : Reg
  d : Reg
  deriving DecidableEq, Repr

/-- Format M with a byte displacement in the second word (R177). -/
structure Me64 where
  r : Me
  i : BitVec 32
  deriving DecidableEq, Repr

/-- Format K naming a scope (`fence`, `phase`). -/
structure Sc where
  h : Hdr
  p : BitVec 3
  deriving DecidableEq, Repr

/-- An instruction with no operand of its own. -/
structure H0 where
  h : Hdr
  deriving DecidableEq, Repr

/-- One source register (`cop`, `brx`, `callx`). -/
structure A1 where
  h : Hdr
  a : Reg
  deriving DecidableEq, Repr

/-- `cop` with a byte displacement. -/
structure A1d where
  r : A1
  i : BitVec 32
  deriving DecidableEq, Repr

/-- `brx` or `callx` with a modifier word. -/
structure A1m where
  r : A1
  m : Modifier
  deriving DecidableEq, Repr

/-- Format B with `disp16` in parcels. -/
structure I16 where
  h : Hdr
  i : BitVec 16
  deriving DecidableEq, Repr

/-- Format B with `disp32` in parcels. -/
structure I16l where
  h : Hdr
  i : BitVec 32
  deriving DecidableEq, Repr

/-- Format Lp: body end, the trip register and whether it is uniform. -/
structure Lo where
  h : Hdr
  e : BitVec 10
  u : Bool
  t : Reg
  deriving DecidableEq, Repr

/-- Format Lp with a 32-bit body end. -/
structure Lo64 where
  h : Hdr
  u : Bool
  t : Reg
  e : BitVec 32
  deriving DecidableEq, Repr

/-- `lcfg`: `k` stage count less one, `z` ring size. -/
structure Lc where
  h : Hdr
  k : BitVec 2
  z : Reg
  deriving DecidableEq, Repr

/-- One destination field. -/
structure D1 where
  h : Hdr
  d : Reg
  deriving DecidableEq, Repr

/-- `bar`: barrier number and scope. -/
structure Ba where
  h : Hdr
  i : BitVec 11
  p : BitVec 3
  deriving DecidableEq, Repr

/-- Format K naming a number (`trap`, `sysc`, `bkpt`). -/
structure N11 where
  h : Hdr
  i : BitVec 11
  deriving DecidableEq, Repr

/-- `mapset`: destination layout and the uniform register with the image's address. -/
structure Ms where
  h : Hdr
  b : Reg
  d : Reg
  deriving DecidableEq, Repr

/-- `mapchn`, `mapprt`, `maptrn`: destination, source and the second source. -/
structure M3 where
  h : Hdr
  b : Reg
  a : Reg
  d : Reg
  deriving DecidableEq, Repr

/-- Format T with a handle and a thread register. -/
structure Vh where
  h : Hdr
  v : Reg
  hd : BitVec 4
  deriving DecidableEq, Repr

/-- `Vh` with an operand word. -/
structure Vh64 where
  r : Vh
  i : BitVec 32
  deriving DecidableEq, Repr

/-- Format T with a thread register only. -/
structure V1 where
  h : Hdr
  v : Reg
  deriving DecidableEq, Repr

/-- Format T with a handle only. -/
structure Hh where
  h : Hdr
  hd : BitVec 4
  deriving DecidableEq, Repr

/-- `Hh` with an operand word. -/
structure Hh64 where
  r : Hh
  i : BitVec 32
  deriving DecidableEq, Repr

/-- `balw`: destination-id register and `disp32` in parcels. -/
structure Bw where
  h : Hdr
  a : Reg
  i : BitVec 32
  deriving DecidableEq, Repr

/-- `mapchk`, `bankq`: result, layout, handle, whether no handle is given, engine class code. -/
structure Tq where
  h : Hdr
  x : BitVec 2
  v : Reg
  m : Reg
  hd : BitVec 4
  k : BitVec 3
  deriving DecidableEq, Repr

/-- `tld`, `tst`: coordinate address register, memory-side layout and handle, `reg` handle, register-side layout. -/
structure Tl where
  h : Hdr
  v : Reg
  m : Reg
  hd : BitVec 4
  rh : BitVec 4
  rl : Reg
  deriving DecidableEq, Repr

/-- The secondary space, 32-bit form, of a function that may be uniform (`u` is the field du). -/
structure Ed where
  h : Hdr
  u : Bool
  d : Reg
  deriving DecidableEq, Repr

/-- The secondary space, 64-bit form, with its extension word (R185). -/
structure E64 where
  h : Hdr
  u : Bool
  d : Reg
  i : BitVec 16
  p : BitVec 4
  bu : Bool
  au : Bool
  b : Reg
  a : Reg
  deriving DecidableEq, Repr

/-! ## Messages of the host link -/

/-- The header of a message of the host link (R352); `spare` says that a field that must be zero is not. -/
structure MsgHead where
  ver : Nat
  ring : Nat
  seq : Nat
  ack : Nat
  len : Nat
  ctx : Nat
  credit : Nat
  sack : Nat
  spare : Bool
  deriving DecidableEq, Repr

/-- What an entry of a message asks for: the operands of a command (R355), or what a sequenced message carries (R353). -/
inductive HostOp where
  | launch (addr : Nat)
  | release (graph node : Nat)
  | preempt (die clusters count : Nat) (byPrio : Bool) (sel : Nat)
  | write (addr len : Nat) (data : List Byte) (refused : Bool)
  | read (addr len val : Nat) (refused : Bool)
  | queueControl (unit queue value : Nat)
  | route (dest entry : Nat)
  | ringSetup (ring addr : Nat) (far : List Nat)
  | bindResult (base index state fail target : Nat)
  | trapResume (die core course action : Nat)
  | codeTable (base count : Nat)
  | attest (addr : Nat)
  | ringBind (ring ctx root : Nat)
  | reply (call lo hi : Nat) (vals : List (Nat × Nat))
  | mailbox (core : Nat) (words : List Nat)
  | page (ctx va : Nat) (bytes : List Byte)
  | own (ctx va : Nat) (own : Bool)
  | wantPage (ctx va : Nat)
  deriving DecidableEq, Repr

/-- One entry of a message: its header, the entry's place among the message's, and for a command its tag; `z` is the
opcode of an entry that is malformed, whose opcode is unknown or of whose bits one that must be zero is not (R355). -/
structure HostIn where
  m : MsgHead
  i : Nat
  tag : Nat
  z : Option Nat
  op : HostOp
  deriving DecidableEq, Repr

/-- What a packet of another module asks of its line: its bytes written, an atomic with its operation, width, operand and
comparand, and whether it returns no result, or a `cop` (R261, R334). -/
inductive PacketOp where
  | write
  | atomic (op w data cmp : Nat) (noRet : Bool)
  | cop (op : Nat)
  deriving DecidableEq, Repr

/-- A field of a task's own storage (R411): a register, a uniform register, a thread's predicates, a level of its loop state
or, from 4 on, the rest of it, a guard slot, a handle or a layout. -/
inductive TaskField where
  | reg (slot r : Nat)
  | uni (r : Nat)
  | pred (slot : Nat)
  | loop (slot level : Nat)
  | guard (n : Nat)
  | handle (n : Nat)
  | layout (n : Nat)
  deriving DecidableEq, Repr

/-- The soft error that an event's reads meet (R409): none; one in the 8-byte word at a local physical address or pool
address, or in the tag of the line at one at its slice, or in a field of the chosen course, corrected or not; or a parity error in the
`n`-th entry of a core's lane load cache (unit 4), instruction cache and loop buffer (5) or TLB (6). -/
inductive SoftErr where
  | none
  | word (pa : Nat) (fixed : Bool)
  | tag (pa : Nat) (fixed : Bool)
  | field (f : TaskField) (fixed : Bool)
  | parity (unit n : Nat)
  deriving DecidableEq, Repr

/-- What another destination does with the reads of a running command: it answers them, refuses them (R439), finds an
uncorrectable error (R410), or leaves them unanswered (R335). -/
inductive FarAnswer where
  | given
  | refused
  | bad
  | silent
  deriving DecidableEq, Repr

/-- What the module finds as a packet arrives: the length of its ingress queue (R330), and a damaged keep table (R422). -/
structure Arrival where
  queue : Nat
  damaged : Bool
  err : SoftErr := .none
  deriving DecidableEq, Repr

/-- A chunk that starts: one fired at a task's end rather than a command's, and what the reads of its contribution meet
(R342, R399). -/
structure ChunkFrom where
  bound : Bool
  far : FarAnswer
  err : SoftErr
  deriving DecidableEq, Repr

/-- What the reads of a running command meet (R399, R409). -/
structure EngReads where
  far : FarAnswer
  err : SoftErr
  deriving DecidableEq, Repr

/-- The next chunk of a class of the matrix engine, and what its reads meet. -/
structure ClassTurn where
  cls : Nat
  far : FarAnswer
  err : SoftErr
  deriving DecidableEq, Repr

/-- A core whose matrix engine takes its next step, and the error that its reads of a tile meet (R409). -/
structure TileTurn where
  core : Nat
  err : SoftErr
  deriving DecidableEq, Repr

/-- A course whose walk completes, and the error that the walk meets (R409). -/
structure WalkTurn where
  course : Nat
  err : SoftErr
  deriving DecidableEq, Repr

/-- What comes back of a load: the line that a response brings, and whether another destination found it bad (R330, R410). -/
structure LineBack where
  line : BitVec 512
  bad : Bool
  deriving DecidableEq, Repr

/-- What comes back of an atomic: its old value, and whether another destination found the word bad (R330, R410). -/
structure AtomBack where
  val : BitVec 128
  bad : Bool
  deriving DecidableEq, Repr

/-- A chunk of a collective, and the member of its ring that is lost (R343). -/
structure ChunkPeer where
  index : Nat
  member : Nat
  deriving DecidableEq, Repr

/-- A register with no behaviour of its own (R5): a die's `hodage`, a core's `trapvec`, a ring entry. -/
inductive PlainReg where
  | hodage (die : Nat)
  | trapvec (core : Nat)
  | ring (id : Nat)
  deriving DecidableEq, Repr

/-- Every row of the table of operations and events, the machine's events first and then, in the table's order, the
compact instructions (R181), the instructions of the primary opcode map (R182) in their 32-bit and 64-bit
forms (a name ending in `L` is the 64-bit form), and the functions of the secondary space (R186). -/
inductive Instr where
  /-- ISSUE_GROUP_SELECTION (R22): At each cycle a free lane selects a course and forms the issue group of its ready threads at one program counter. -/
  | issueGroupSelection (core lane : Nat) (err : SoftErr)
  /-- FIXED_LATENCY_RESULT (R25): A lane ALU or transcendental result becomes readable L cycles after its thread passed the lane. -/
  | fixedLatencyResult (core course : Nat)
  /-- CONVERGENCE_RELEASE (R31): When every masked thread waits at the same cnv or is not live, all waiting threads become ready in one cycle. -/
  | convergenceRelease (core course : Nat)
  /-- BARRIER_COMPLETION (R238): At the end of a cycle in which every live participant has arrived, the barrier completes and its waiters perform the acquire and become ready. -/
  | barrierCompletion (scope place group num : Nat)
  /-- BARRIER_TIMEOUT (R395): A barrier instance not completed 2^e cycles after its first arrival is cancelled, and its waiting courses receive 0x30. -/
  | barrierTimeout (scope place group num : Nat)
  /-- CONVERGENCE_TIMEOUT (R395): A convergence wait not ended after 2^e cycles gives its course trap 0x31. -/
  | convergenceTimeout (core course : Nat)
  /-- YIELD_EXPIRY (R228): After 64 cycles a yielding course is again a candidate at its lane. -/
  | yieldExpiry (core course : Nat)
  /-- COURSE_WAKE (R82): A parked course becomes selectable at least 32 cycles after its clearing event reaches the core, and re-executes its instruction. -/
  | courseWake (core course : Nat)
  /-- TRAP_DELIVERY (R379): The trap is delivered: the course stops, waits for its pending results, writes its frame and follows the route of the cause. -/
  | trapDelivery (core course : Nat)
  /-- TASK_DISPATCH (R71): A cluster dispatches a ready task, or a whole gang, to cores with free granules, task slots and courses. -/
  | taskDispatch (cluster : Nat) (pull : Bool)
  /-- DISPATCH_RESERVATION (R72): A head task passed 256 times gets the cores with the most free granules reserved for it. -/
  | dispatchReservation (cluster prio : Nat)
  /-- STEAL_REQUEST (R74): A cluster idle for 256 cycles sends a steal request to the nearest cluster holding unstarted tasks. -/
  | stealRequest (cluster : Nat)
  /-- STEAL_SHIPMENT (R324): A victim cluster taking a steal request ships up to 8 task control blocks from its tail. -/
  | stealShipment (victim : Nat)
  /-- SHIPMENT_ARRIVAL (R324): The thief takes a shipment into its pool, or refuses it whole and the blocks return to the victim. -/
  | shipmentArrival (thief : Nat)
  /-- TASK_END (R77): Once all threads exited, engine work retired and stores were acknowledged, the task frees its resources and writes its end record. -/
  | taskEnd (core slot : Nat)
  /-- OVERFLOW_RECORD (R80): A record of type 0x07 reporting overflow is queued as soon as there is space. -/
  | overflowRecord (cluster : Nat)
  /-- PREEMPT (R84): A pre-emption command chooses cores holding matching tasks, stops dispatch to them and stops their courses. -/
  | preempt (m : MsgHead) (idx tag : Nat) (z : Option Nat) (die clusters count : Nat) (byPrio : Bool) (sel : Nat)
  /-- PREEMPT_SAVE (R84): Once pending results, engines and drains have finished, tasks are saved to context slots and the cores freed. -/
  | preemptSave (core : Nat)
  /-- GUARD_SLOT_HEAD_CHECK (R281): At the start of each cycle, an engine reads the guard slot of a held head command and runs or discards it. -/
  | guardSlotHeadCheck (core cls : Nat)
  /-- K_CHUNK (R104): The matrix engine adds one K-chunk of 16 products into each accumulator row as one indivisible step. -/
  | kChunk (core : Nat) (turn : ClassTurn)
  /-- WRITE_BACK (R292): The matrix engine converts the accumulator tile and writes it to the destination, clearing it if asked. -/
  | writeBack (turn : TileTurn)
  /-- COPY_TRANSFER (R286): The copy engine converts and writes every element of a copy command, then writes its completion flag. -/
  | copyTransfer (core : Nat) (reads : EngReads)
  /-- ACC_EXECUTE (R295): An acc sub-operation is performed on its tile when it is reached in the matrix order. -/
  | accExecute (turn : TileTurn)
  /-- COMMAND_RETIRE (R167): A command whose writes are performed retires in issue order within its class, and its counter falls by one. -/
  | commandRetire (core course cls : Nat)
  /-- HOME_ACCESS_PERFORM (R155): A load, store or atomic is performed at the home of its location. -/
  | homeAccessPerform (id : Nat) (err : SoftErr)
  /-- SECTOR_FILL (R142): A sector fill from HBM completes at its home slice and the waiting requests are served. -/
  | sectorFill (die line : Nat) (err : SoftErr)
  /-- MISS_STATUS_ALLOCATE (R144): A miss waiting for one of the slice's 64 miss-status entries takes a freed entry and starts its fill. -/
  | missStatusAllocate (id : Nat)
  /-- LOAD_RETURN (R157): A load or returning atomic result reaches the core, is written to its register, and an acquire invalidates the lane load cache. -/
  | loadReturn (id : Nat) (back : LineBack)
  /-- HOD_DRAIN (R165): A hod entry drains to its destination as one write packet of its written bytes. -/
  | hodDrain (core entry : Nat)
  /-- HOD_AGE_LIMIT (R328): A hod entry that reaches its age limit of hodage cycles drains. -/
  | hodAgeLimit (core entry : Nat)
  /-- PHASE_COMPLETE (R158): A phase completes once its covered accesses are performed, and invalidates the lane load cache at its scope. -/
  | phaseComplete (core course : Nat)
  /-- FENCE_COMPLETE (R160): A fence's wait ends, later instructions proceed, and the lane load cache is invalidated for wide acquires. -/
  | fenceComplete (core course : Nat)
  /-- RELEASE_STORE_PROCEED (R252): A release store whose earlier accesses are visible at its scope is performed. -/
  | releaseStoreProceed (id : Nat)
  /-- WAITN_COMPLETE (R168): A waitn whose class counter has fallen to n completes as an acquire at scope core. -/
  | waitnComplete (core course : Nat)
  /-- ICINV_COMPLETE (R170): An icinv whose copies and stores are performed invalidates the named instruction-cache lines. -/
  | icinvComplete (core course : Nat)
  /-- FETCHB_COMPLETE (R260): A fetchb whose waits have ended discards its course's prefetched parcels and loop buffer. -/
  | fetchbComplete (core course : Nat)
  /-- CRESIZE_COMPLETE (R146): A die scratch resize ends its write-backs and zeroing, sets the new size and releases waiting requests. -/
  | cresizeComplete (die : Nat)
  /-- MIGRATION_START (R152): A migration fault that gets a free migration entry starts a move and sends a page request. -/
  | migrationStart (die : Nat)
  /-- MIGRATION_DEPARTURE (R152): Once stores to a departing page are performed and drained, its 4 KiB are sent to the host. -/
  | migrationDeparture (die frame : Nat)
  /-- REMOTE_PACKET_ARRIVAL (R334): A remote write or atomic packet is performed once, acknowledged as a duplicate, or held for its predecessor. -/
  | remotePacketArrival (rank die seq : Nat) (pred : Option Nat) (pa : Nat) (bytes : List (Nat × Byte × Byte)) (op : PacketOp) (seen : Arrival)
  /-- ACKNOWLEDGEMENT_ARRIVAL (R330): An acknowledgement lowers O and updates the destination's window, acknowledgement count and hold bit. -/
  | acknowledgementArrival (die dest seq : Nat) (mark : Bool) (back : AtomBack) (tag : BitVec 32)
  /-- CLOSED_VECTOR_UPDATE (R331): A control flit carrying a change of a closed bit is applied to a core's closed vector. -/
  | closedVectorUpdate (core dest : Nat)
  /-- REFUSAL_ARRIVAL (R439): A refusal from the destination counts as the response and gives the issuer the effects of its table. -/
  | refusalArrival (die dest seq id : Nat)
  /-- RESTART_REFUSAL (R422): A restart refusal makes the die declare the destination lost at once. -/
  | restartRefusal (die dest : Nat)
  /-- RETRANSMISSION (R335): A packet unanswered for 50 µs is retransmitted, alternating between ports. -/
  | retransmission (die dest seq id : Nat)
  /-- DESTINATION_LOST (R335): A destination still unanswered 2 ms after a first send is declared lost throughout the module. -/
  | destinationLost (die dest : Nat)
  /-- ALLOWANCE_COLLAPSE (R422): A window held at 1 for 2^24 cycles writes system event code 0x05. -/
  | allowanceCollapse (die dest : Nat)
  /-- EXPRESS_STARVATION_TOKEN (R323): After 8 express flits pass a waiting local flit, the next express flit is held so the local flit goes. -/
  | expressStarvationToken (router out : Nat)
  /-- TIER_STARVATION_GRANT (R327): When a tier's starvation counter reaches 64, its oldest waiting packet is granted. -/
  | tierStarvationGrant (port tier : Nat)
  /-- LINK_TRAINING (R325): A fabric port trains and learns its rate and the quarry node at its far end. -/
  | linkTraining (port dest : Nat) (fast : Bool)
  /-- FLIT_CRC_REPLAY (R421): A flit or beat with a CRC error is discarded and the sender replays from it in order. -/
  | flitCrcReplay (link : Nat) (ok : Bool)
  /-- LINK_RETRAIN (R421): After 16 consecutive failed replays the link retrains, possibly at the lower rate. -/
  | linkRetrain (link : Nat) (ok fast : Bool)
  /-- PORT_UP (R421): A port that comes back up gets its route entries moved back to it, and alt is cleared. -/
  | portUp (port : Nat)
  /-- RING_CHECK (R337): A ring-check message from a neighbour's sequencer is taken and answered. -/
  | ringCheck (rank ring : Nat)
  /-- RING_CHECK_ANSWER (R337): When both neighbours have answered, the new ring entry takes effect with valid set. -/
  | ringCheckAnswer (ring : Nat) (prev : Bool)
  /-- RING_SETUP_TIMEOUT (R424): A ring check not answered within 2 ms leaves the entry invalid and writes code 0x0A. -/
  | ringSetupTimeout (ring : Nat)
  /-- CHUNK_START (R338): A chunk begins at position s once its contribution is ready, unless it is a duplicate or its ring is invalid. -/
  | chunkStart (core : Nat) (how : ChunkFrom) (cid index : Nat)
  /-- PARTIAL_ARRIVAL (R338): A sequencer takes a partial, adds its contribution when ready, and forwards it against a credit. -/
  | partialArrival (ring cid index dtype cop bytes : Nat) (vals ranks : List Nat) (refused : Bool)
  /-- RESULT_ARRIVAL (R338): A member takes the forwarded result, writes its result tile and forwards it. -/
  | resultArrival (ring cid index dtype cop bytes : Nat) (vals ranks : List Nat) (refused : Bool)
  /-- THROTTLE_REQUEST (R344): A frequency-step request from a group member is taken and the lowest requested step is applied. -/
  | throttleRequest (rank die step : Nat)
  /-- THROTTLE_STEP_UP (R344): After a withdrawal, the group climbs one step every 1 ms toward the lowest step still requested. -/
  | throttleStepUp
  /-- HOST_LINK_BRINGUP (R354): The host port is brought up: ring credits reset to their depths and numbering starts from 1. -/
  | hostLinkBringup
  /-- LAUNCH (R355): Host command 0x01 submits a launch record on a command ring. -/
  | launch (m : MsgHead) (idx tag : Nat) (z : Option Nat) (addr : Nat)
  /-- RELEASE (R79): Host command 0x02 decrements the dependence count of one successor node. -/
  | release (m : MsgHead) (idx tag : Nat) (z : Option Nat) (graph node : Nat)
  /-- WRITE_MEMORY (R355): Host command 0x04 writes up to 40 bytes as a release store at scope pod. -/
  | writeMemory (m : MsgHead) (idx tag : Nat) (z : Option Nat) (addr len : Nat) (data : List Byte) (refused : Bool)
  /-- READ_MEMORY (R355): Host command 0x05 reads up to 8 bytes with acquire loads. -/
  | readMemory (m : MsgHead) (idx tag : Nat) (z : Option Nat) (addr len val : Nat) (refused : Bool)
  /-- QUEUE_CONTROL (R76): Host command 0x06 writes a queue's cap and minimum, or is ignored. -/
  | queueControl (m : MsgHead) (idx tag : Nat) (z : Option Nat) (unit queue value : Nat)
  /-- ROUTE_ENTRY (R423): Host command 0x07 writes a route entry; writing state 1 restores a lost destination and restarts its numbering. -/
  | routeEntry (m : MsgHead) (idx tag : Nat) (z : Option Nat) (dest entry : Nat)
  /-- RING_SETUP (R337): Host command 0x08 checks a member list and builds a ring entry, or forwards it to the host in assisted mode. -/
  | ringSetup (m : MsgHead) (idx tag : Nat) (z : Option Nat) (ring addr : Nat) (far : List Nat)
  /-- BIND_RESULT (R365): Host command 0x09 completes an assisted binding with state 2 or 3. -/
  | bindResult (m : MsgHead) (idx tag : Nat) (z : Option Nat) (base index state fail target : Nat)
  /-- TRAP_RESUME (R390): Host command 0x0A resumes a waiting course or ends its task. -/
  | trapResume (m : MsgHead) (idx tag : Nat) (z : Option Nat) (die core course action : Nat)
  /-- CODE_TABLE (R363): Host command 0x0B sets the code table of a translation context. -/
  | codeTable (m : MsgHead) (idx tag : Nat) (z : Option Nat) (base count : Nat)
  /-- ATTEST (R370): Host command 0x0C makes the management controller write a signed attestation report. -/
  | attest (m : MsgHead) (idx tag : Nat) (z : Option Nat) (addr : Nat)
  /-- RING_BIND (R356): Host command 0x0D, on ring 0, binds a command ring to a translation context. -/
  | ringBind (m : MsgHead) (idx tag : Nat) (z : Option Nat) (ring ctx root : Nat)
  /-- SYSCALL_REPLY (R361): A reply message writes v0 and v1 of the named threads and lets the parked course continue. -/
  | syscallReply (m : MsgHead) (call lo hi : Nat) (vals : List (Nat × Nat))
  /-- MAILBOX_MESSAGE (R243): An inbound debug mailbox message of 16 words is taken. -/
  | mailboxMessage (m : MsgHead) (core : Nat) (words : List Nat)
  /-- PAGE_MESSAGE (R152): A page message brings 4 KiB of a migrating page, which is written to the frame. -/
  | pageMessage (m : MsgHead) (ctx va : Nat) (bytes : List Byte)
  /-- OWN_MESSAGE (R153): An own message from the host writes the own bit of a shared page. -/
  | ownMessage (m : MsgHead) (ctx va : Nat) (own : Bool)
  /-- NAK (R357): A nak makes the sender retransmit every unacknowledged message from the named number that sack does not mark. -/
  | nak (m : MsgHead) (first : Nat)
  /-- RESYNC (R359): A resync is answered with a resync reply and retransmission of held messages. -/
  | resync (m : MsgHead) (accepted sent oldest : Nat)
  /-- RESYNC_REPLY (R359): A resync reply sets the requester's expected number, or reports a gap as link loss. -/
  | resyncReply (m : MsgHead) (accepted sent oldest : Nat)
  /-- KEEPALIVE (R354): A keepalive carries ack, sack and one ring's credit. -/
  | keepalive (m : MsgHead)
  /-- HOST_RETRANSMIT (R357): The oldest unacknowledged host link message is sent again after 500 µs without progress. -/
  | hostRetransmit
  /-- HOST_LINK_LOST (R425): After 100 ms without an acknowledgement the host link is declared lost and hlost is set. -/
  | hostLinkLost
  /-- CODE_TABLE_ENTRY_JUMP (R364): An issue group forming at a code-table entry reads its state and jumps, starts a bind, parks or traps 0x40. -/
  | codeTableEntryJump
  /-- HARDWARE_BIND (R365): Firmware of the winning die checks, translates and writes the code, then sets the entry to state 2 or 3. -/
  | hardwareBind (ctx base index : Nat)
  /-- DBGCTL_HALT (R56): Writing dbgctl with halt 1 halts the masked live threads of the target course at their selections. -/
  | dbgctlHalt (core course : Nat)
  /-- DBGCTL_UNHALT (R56): Writing dbgctl with halt 0 releases the masked threads from the halted state. -/
  | dbgctlUnhalt (core course : Nat)
  /-- DBGCTL_STEP (R56): Writing dbgctl with step and halt lets the halted masked threads form one issue group. -/
  | dbgctlStep (core course : Nat)
  /-- ILEN_WRITE (R429): A write to a debug window's ilen invalidates core k's instruction-cache lines and prefetched parcels over the range. -/
  | ilenWrite (core : Nat) (v : Word)
  /-- MAILBOX_SEND (R432): A dbgmb to word 15 sends the 16 mailbox words on ring 67 once credit is present. -/
  | mailboxSend
  /-- DUTY_WRITE (R16): A write to duty changes duty modes for events raised after it completes. -/
  | dutyWrite (die : Nat) (v : Word)
  /-- REGISTER_WRITE (R5): A write to a register with no behaviour of its own sets its fields under the access codes. -/
  | registerWrite (r : PlainReg) (v : Word)
  /-- BOOT (R427): At power-on or reboot, signed records are checked in order and the module boots, or enters recovery. -/
  | boot (cert owner fw fw2 cfg : List Byte)
  /-- SENSOR_SAMPLE (R372): The management controller samples a sensor and raises or withdraws throttle events. -/
  | sensorSample (n : Nat) (x : Int)
  /-- THROTTLE_REPEAT (R373): A junction or power event that still holds requests one step lower every 100 µs or 1 ms. -/
  | throttleRepeat (die event : Nat)
  /-- REFRESH_BAND_EVALUATION (R376): Every 1 ms a vault controller sets its refresh band from the stack temperature and writes type 0x0D on change. -/
  | refreshBandEvaluation (stack : Nat)
  /-- TELEMETRY_RECORD (R375): Every 1 ms the management controller writes a 128-byte telemetry record. -/
  | telemetryRecord
  /-- THERMAL_TRIP (R426): A trip cause stops every clock and removes power from the module. -/
  | thermalTrip (cause : Nat)
  /-- MODULE_REBOOT (R426): After every sensor has been in the envelope for 10 s, the tripped module boots again. -/
  | moduleReboot
  /-- SCRUB (R409): Each vault controller reads every location of its vault once in 24 hours, correcting what it can. -/
  | scrub (die l err : Nat)
  /-- HOST_MIGRATION_REQUEST (R151): A host access to a device-owned shared page arrives as a migration request on the host link and starts a move of the page to the host. -/
  | hostMigrationRequest (m : MsgHead) (ctx va : Nat)
  /-- RESTART_ANNOUNCEMENT (R423): A T0 restart announcement arriving at a destination empties that destination's keep table for the sending die and is acknowledged. -/
  | restartAnnouncement (rank die : Nat)
  /-- PARTIAL_CREDIT_RETURN (R338): A credit returned by the downstream sequencer lets an upstream ring sequencer send a partial that was waiting for a credit. -/
  | partialCreditReturn (ring : Nat)
  /-- WALK_COMPLETE (R147): A page-table walk ends and the translation check of a fetch-suspended course passes or faults. -/
  | walkComplete (core : Nat) (turn : WalkTurn)
  /-- DIVIDE_RESULT (R215): An idiv or irem result is written after its 8 or 16 cycles per thread and its scoreboard wait ends. -/
  | divideResult (id : Nat)
  /-- CHUNK_PEER_LOST_TIMEOUT (R343): A surviving ring member with a chunk in flight completes it with status 1 no later than the peer-lost time-out after its last progress. -/
  | chunkPeerLostTimeout (cid : Nat) (peer : ChunkPeer)
  /-- MOV_C (R181): Compact mov: d := a. -/
  | movC (x : CReg)
  /-- IADD_C (R181): Compact iadd d, d, a. -/
  | iaddC (x : CReg)
  /-- ISUB_C (R181): Compact isub d, d, a. -/
  | isubC (x : CReg)
  /-- IMUL_C (R181): Compact imul d, d, a. -/
  | imulC (x : CReg)
  /-- AND_C (R181): Compact and d, d, a. -/
  | andC (x : CReg)
  /-- OR_C (R181): Compact or d, d, a. -/
  | orC (x : CReg)
  /-- XOR_C (R181): Compact xor d, d, a. -/
  | xorC (x : CReg)
  /-- SHL_C (R181): Compact shl d, d, a. -/
  | shlC (x : CReg)
  /-- SHR_N_C (R181): Compact shr.n d, d, a. -/
  | shrNC (x : CReg)
  /-- SHR_I_C (R181): Compact shr.i d, d, a. -/
  | shrIC (x : CReg)
  /-- FADD_C (R181): Compact fadd.f32 d, d, a with RNE. -/
  | faddC (x : CReg)
  /-- FSUB_C (R181): Compact fsub.f32 d, d, a. -/
  | fsubC (x : CReg)
  /-- FMUL_C (R181): Compact fmul.f32 d, d, a. -/
  | fmulC (x : CReg)
  /-- FMAX_C (R181): Compact fmax.f32 d, d, a. -/
  | fmaxC (x : CReg)
  /-- FMIN_C (R181): Compact fmin.f32 d, d, a. -/
  | fminC (x : CReg)
  /-- IADDI5_C (R181): Compact iaddi d, d, sext(imm5, 5). -/
  | iaddi5C (x : CImm)
  /-- NOP_C (R181): The 16-bit no-operation. -/
  | nopC
  /-- IADD (R197): 32-bit integer add. -/
  | iadd (x : R3)
  /-- IADD_64 (R197): iadd with a modifier word. -/
  | iaddL (x : R3m)
  /-- ISUB (R197): 32-bit integer subtract. -/
  | isub (x : R3)
  /-- ISUB_64 (R197): isub with a modifier word. -/
  | isubL (x : R3m)
  /-- IMUL (R197): 32-bit integer multiply. -/
  | imul (x : R3)
  /-- IMUL_64 (R197): imul with a modifier word. -/
  | imulL (x : R3m)
  /-- IMULH_I (R197): High 32 bits of a signed product. -/
  | imulhI (x : R3)
  /-- IMULH_I_64 (R197): imulh.i with a modifier word. -/
  | imulhIL (x : R3m)
  /-- IMULH_N (R197): High 32 bits of an unsigned product. -/
  | imulhN (x : R3)
  /-- IMULH_N_64 (R197): imulh.n with a modifier word. -/
  | imulhNL (x : R3m)
  /-- IMAC (R197): 32-bit multiply-accumulate x × y + z. -/
  | imac (x : R3)
  /-- IMAC_64 (R197): imac with a modifier word and optional c. -/
  | imacL (x : R3m)
  /-- IMIN_I (R197): Signed minimum. -/
  | iminI (x : R3)
  /-- IMIN_I_64 (R197): imin.i with a modifier word. -/
  | iminIL (x : R3m)
  /-- IMIN_N (R197): Unsigned minimum. -/
  | iminN (x : R3)
  /-- IMIN_N_64 (R197): imin.n with a modifier word. -/
  | iminNL (x : R3m)
  /-- IMAX_I (R197): Signed maximum. -/
  | imaxI (x : R3)
  /-- IMAX_I_64 (R197): imax.i with a modifier word. -/
  | imaxIL (x : R3m)
  /-- IMAX_N (R197): Unsigned maximum. -/
  | imaxN (x : R3)
  /-- IMAX_N_64 (R197): imax.n with a modifier word. -/
  | imaxNL (x : R3m)
  /-- IABSD (R197): Absolute difference. -/
  | iabsd (x : R3)
  /-- IABSD_64 (R197): iabsd with a modifier word. -/
  | iabsdL (x : R3m)
  /-- AND (R198): Bitwise AND. -/
  | and (x : R3)
  /-- AND_64 (R198): and with a modifier word. -/
  | andL (x : R3m)
  /-- OR (R198): Bitwise OR. -/
  | or (x : R3)
  /-- OR_64 (R198): or with a modifier word. -/
  | orL (x : R3m)
  /-- XOR (R198): Bitwise XOR. -/
  | xor (x : R3)
  /-- XOR_64 (R198): xor with a modifier word. -/
  | xorL (x : R3m)
  /-- ANDN (R198): a AND NOT b. -/
  | andn (x : R3)
  /-- ANDN_64 (R198): andn with a modifier word. -/
  | andnL (x : R3m)
  /-- MOV (R198): Copy a[31:0], clearing the upper half. -/
  | mov (x : R1)
  /-- MOV_64 (R198): mov with a modifier word, for example uniform. -/
  | movL (x : R1m)
  /-- SHL (R199): Shift left. -/
  | shl (x : R3)
  /-- SHL_64 (R199): shl with a modifier word. -/
  | shlL (x : R3m)
  /-- SHR_N (R199): Logical shift right. -/
  | shrN (x : R3)
  /-- SHR_N_64 (R199): shr.n with a modifier word. -/
  | shrNL (x : R3m)
  /-- SHR_I (R199): Arithmetic shift right. -/
  | shrI (x : R3)
  /-- SHR_I_64 (R199): shr.i with a modifier word. -/
  | shrIL (x : R3m)
  /-- CLZ (R198): Count leading zeros of a[31:0]. -/
  | clz (x : R1)
  /-- CLZ_64 (R198): clz with a modifier word. -/
  | clzL (x : R1m)
  /-- POPC (R198): Count 1 bits of a[31:0]. -/
  | popc (x : R1)
  /-- POPC_64 (R198): popc with a modifier word. -/
  | popcL (x : R1m)
  /-- BFX_N (R200): Unsigned bit-field extract. -/
  | bfxN (x : R3)
  /-- BFX_N_64 (R200): bfx.n with a modifier word. -/
  | bfxNL (x : R3m)
  /-- BFX_I (R200): Signed bit-field extract. -/
  | bfxI (x : R3)
  /-- BFX_I_64 (R200): bfx.i with a modifier word. -/
  | bfxIL (x : R3m)
  /-- BFI (R200): Bit-field insert into zero. -/
  | bfi (x : R3)
  /-- BFI_64 (R200): bfi with a modifier word and optional base c. -/
  | bfiL (x : R3m)
  /-- PERM (R201): Byte permute. -/
  | perm (x : R3)
  /-- PERM_64 (R201): perm with a modifier word and optional c. -/
  | permL (x : R3m)
  /-- ICMP_EQ (R202): Predicate := a = b, 32-bit. -/
  | icmpEq (x : R3)
  /-- ICMP_EQ_64 (R202): icmp.eq with a modifier word. -/
  | icmpEqL (x : R3m)
  /-- ICMP_NE (R202): Predicate := a ≠ b, 32-bit. -/
  | icmpNe (x : R3)
  /-- ICMP_NE_64 (R202): icmp.ne with a modifier word. -/
  | icmpNeL (x : R3m)
  /-- ICMP_LT_I (R202): Predicate := signed a < b. -/
  | icmpLtI (x : R3)
  /-- ICMP_LT_I_64 (R202): icmp.lt.i with a modifier word. -/
  | icmpLtIL (x : R3m)
  /-- ICMP_LE_I (R202): Predicate := signed a ≤ b. -/
  | icmpLeI (x : R3)
  /-- ICMP_LE_I_64 (R202): icmp.le.i with a modifier word. -/
  | icmpLeIL (x : R3m)
  /-- ICMP_LT_N (R202): Predicate := unsigned a < b. -/
  | icmpLtN (x : R3)
  /-- ICMP_LT_N_64 (R202): icmp.lt.n with a modifier word. -/
  | icmpLtNL (x : R3m)
  /-- ICMP_LE_N (R202): Predicate := unsigned a ≤ b. -/
  | icmpLeN (x : R3)
  /-- ICMP_LE_N_64 (R202): icmp.le.n with a modifier word. -/
  | icmpLeNL (x : R3m)
  /-- QLOP_AND (R203): Predicate AND. -/
  | qlopAnd (x : Ql)
  /-- QLOP_OR (R203): Predicate OR. -/
  | qlopOr (x : Ql)
  /-- QLOP_XOR (R203): Predicate XOR. -/
  | qlopXor (x : Ql)
  /-- QLOP_ANDN (R203): Predicate AND NOT. -/
  | qlopAndn (x : Ql)
  /-- LADD (R197): 64-bit add. -/
  | ladd (x : R3)
  /-- LADD_64 (R197): ladd with a modifier word. -/
  | laddL (x : R3m)
  /-- LSUB (R197): 64-bit subtract. -/
  | lsub (x : R3)
  /-- LSUB_64 (R197): lsub with a modifier word. -/
  | lsubL (x : R3m)
  /-- LMUL (R197): 64-bit multiply. -/
  | lmul (x : R3)
  /-- LMUL_64 (R197): lmul with a modifier word. -/
  | lmulL (x : R3m)
  /-- LMAC (R197): 64-bit multiply-accumulate. -/
  | lmac (x : R3)
  /-- LMAC_64 (R197): lmac with a modifier word and optional c. -/
  | lmacL (x : R3m)
  /-- LSHL (R199): 64-bit shift left. -/
  | lshl (x : R3)
  /-- LSHL_64 (R199): lshl with a modifier word. -/
  | lshlL (x : R3m)
  /-- LSHR_N (R199): 64-bit logical shift right. -/
  | lshrN (x : R3)
  /-- LSHR_N_64 (R199): lshr.n with a modifier word. -/
  | lshrNL (x : R3m)
  /-- LSHR_I (R199): 64-bit arithmetic shift right. -/
  | lshrI (x : R3)
  /-- LSHR_I_64 (R199): lshr.i with a modifier word. -/
  | lshrIL (x : R3m)
  /-- LEXT_I (R198): Sign-extend a[31:0] to 64 bits. -/
  | lextI (x : R1)
  /-- LEXT_I_64 (R198): lext.i with a modifier word. -/
  | lextIL (x : R1m)
  /-- LEXT_N (R198): Zero-extend a[31:0] to 64 bits. -/
  | lextN (x : R1)
  /-- LEXT_N_64 (R198): lext.n with a modifier word. -/
  | lextNL (x : R1m)
  /-- LCMP_EQ (R202): Predicate := 64-bit a = b. -/
  | lcmpEq (x : R3)
  /-- LCMP_EQ_64 (R202): lcmp.eq with a modifier word. -/
  | lcmpEqL (x : R3m)
  /-- LCMP_NE (R202): Predicate := 64-bit a ≠ b. -/
  | lcmpNe (x : R3)
  /-- LCMP_NE_64 (R202): lcmp.ne with a modifier word. -/
  | lcmpNeL (x : R3m)
  /-- LCMP_LT_I (R202): Predicate := signed 64-bit a < b. -/
  | lcmpLtI (x : R3)
  /-- LCMP_LT_I_64 (R202): lcmp.lt.i with a modifier word. -/
  | lcmpLtIL (x : R3m)
  /-- LCMP_LT_N (R202): Predicate := unsigned 64-bit a < b. -/
  | lcmpLtN (x : R3)
  /-- LCMP_LT_N_64 (R202): lcmp.lt.n with a modifier word. -/
  | lcmpLtNL (x : R3m)
  /-- LEA2 (R198): a + b × 4 mod 2^64. -/
  | lea2 (x : R3)
  /-- LEA2_64 (R198): lea2 with a modifier word. -/
  | lea2L (x : R3m)
  /-- LEA3 (R198): a + b × 8 mod 2^64. -/
  | lea3 (x : R3)
  /-- LEA3_64 (R198): lea3 with a modifier word. -/
  | lea3L (x : R3m)
  /-- LEA4 (R198): a + b × 16 mod 2^64. -/
  | lea4 (x : R3)
  /-- LEA4_64 (R198): lea4 with a modifier word. -/
  | lea4L (x : R3m)
  /-- FADD (R204): FP32 add. -/
  | fadd (x : R3)
  /-- FADD_64 (R204): fadd with a modifier word. -/
  | faddL (x : R3m)
  /-- FSUB (R204): FP32 subtract. -/
  | fsub (x : R3)
  /-- FSUB_64 (R204): fsub with a modifier word. -/
  | fsubL (x : R3m)
  /-- FMUL (R204): FP32 multiply. -/
  | fmul (x : R3)
  /-- FMUL_64 (R204): fmul with a modifier word. -/
  | fmulL (x : R3m)
  /-- FFMA (R204): Fused FP32 multiply-add. -/
  | ffma (x : R3)
  /-- FFMA_64 (R204): ffma with a modifier word and optional c. -/
  | ffmaL (x : R3m)
  /-- FMIN (R206): FP32 minimum. -/
  | fmin (x : R3)
  /-- FMIN_64 (R206): fmin with a modifier word. -/
  | fminL (x : R3m)
  /-- FMAX (R206): FP32 maximum. -/
  | fmax (x : R3)
  /-- FMAX_64 (R206): fmax with a modifier word. -/
  | fmaxL (x : R3m)
  /-- FCMP_EQ (R202): Predicate := FP32 equal. -/
  | fcmpEq (x : R3)
  /-- FCMP_EQ_64 (R202): fcmp.eq with a modifier word. -/
  | fcmpEqL (x : R3m)
  /-- FCMP_NE (R202): Predicate := FP32 not equal or unordered. -/
  | fcmpNe (x : R3)
  /-- FCMP_NE_64 (R202): fcmp.ne with a modifier word. -/
  | fcmpNeL (x : R3m)
  /-- FCMP_LT (R202): Predicate := FP32 less. -/
  | fcmpLt (x : R3)
  /-- FCMP_LT_64 (R202): fcmp.lt with a modifier word. -/
  | fcmpLtL (x : R3m)
  /-- FCMP_LE (R202): Predicate := FP32 less or equal. -/
  | fcmpLe (x : R3)
  /-- FCMP_LE_64 (R202): fcmp.le with a modifier word. -/
  | fcmpLeL (x : R3m)
  /-- FSFU (R207): FP32 special function chosen by b. -/
  | fsfu (x : Rf)
  /-- FSFU_64 (R207): fsfu with a modifier word. -/
  | fsfuL (x : Rfm)
  /-- HADD2_F16 (R208): Packed FP16 add. -/
  | hadd2F16 (x : R3)
  /-- HADD2_F16_64 (R208): hadd2.f16 with a modifier word. -/
  | hadd2F16L (x : R3m)
  /-- HMUL2_F16 (R208): Packed FP16 multiply. -/
  | hmul2F16 (x : R3)
  /-- HMUL2_F16_64 (R208): hmul2.f16 with a modifier word. -/
  | hmul2F16L (x : R3m)
  /-- HFMA2_F16 (R208): Packed FP16 fused multiply-add. -/
  | hfma2F16 (x : R3)
  /-- HFMA2_F16_64 (R208): hfma2.f16 with a modifier word. -/
  | hfma2F16L (x : R3m)
  /-- HFMA2_BF16 (R208): Packed BF16 fused multiply-add. -/
  | hfma2Bf16 (x : R3)
  /-- HFMA2_BF16_64 (R208): hfma2.bf16 with a modifier word. -/
  | hfma2Bf16L (x : R3m)
  /-- HADD2_BF16 (R208): Packed BF16 add. -/
  | hadd2Bf16 (x : R3)
  /-- HADD2_BF16_64 (R208): hadd2.bf16 with a modifier word. -/
  | hadd2Bf16L (x : R3m)
  /-- CVT (R210): Conversion chosen by the code in b. -/
  | cvt (x : Rf)
  /-- CVT_64 (R210): cvt with a modifier word. -/
  | cvtL (x : Rfm)
  /-- CVTP (R212): Packed conversion chosen by the code in b. -/
  | cvtp (x : Rf)
  /-- CVTP_64 (R212): cvtp with a modifier word. -/
  | cvtpL (x : Rfm)
  /-- IADDI (R213): Add a sign-extended imm6. -/
  | iaddi (x : Im)
  /-- IADDI_64 (R213): iaddi with imm32. -/
  | iaddiL (x : Im64)
  /-- ANDI (R213): AND with imm6. -/
  | andi (x : Im)
  /-- ANDI_64 (R213): andi with imm32. -/
  | andiL (x : Im64)
  /-- ORI (R213): OR with imm6. -/
  | ori (x : Im)
  /-- ORI_64 (R213): ori with imm32. -/
  | oriL (x : Im64)
  /-- XORI (R213): XOR with imm6. -/
  | xori (x : Im)
  /-- XORI_64 (R213): xori with imm32. -/
  | xoriL (x : Im64)
  /-- SHLI (R213): Shift left by immediate count. -/
  | shli (x : Im)
  /-- SHLI_64 (R213): shli with imm32. -/
  | shliL (x : Im64)
  /-- SHRI_N (R213): Logical shift right by immediate. -/
  | shriN (x : Im)
  /-- SHRI_N_64 (R213): shri.n with imm32. -/
  | shriNL (x : Im64)
  /-- SHRI_I (R213): Arithmetic shift right by immediate. -/
  | shriI (x : Im)
  /-- SHRI_I_64 (R213): shri.i with imm32. -/
  | shriIL (x : Im64)
  /-- MOVI (R213): d := sext(imm11) to 64 bits. -/
  | movi (x : Km)
  /-- MOVI_64 (R213): movi with imm32. -/
  | moviL (x : Km64)
  /-- MOVHI (R213): d[63:32] := immediate, low half kept. -/
  | movhi (x : Km)
  /-- MOVHI_64 (R213): movhi with imm32. -/
  | movhiL (x : Km64)
  /-- ICMPI_EQ (R213): Predicate := a[31:0] = imm6. -/
  | icmpiEq (x : Im)
  /-- ICMPI_EQ_64 (R213): icmpi.eq with imm32. -/
  | icmpiEqL (x : Im64)
  /-- ICMPI_LT_I (R213): Predicate := signed a[31:0] < imm6. -/
  | icmpiLtI (x : Im)
  /-- ICMPI_LT_I_64 (R213): icmpi.lt.i with imm32. -/
  | icmpiLtIL (x : Im64)
  /-- FMOVI (R213): d := FP32 value of the FP16 pattern imm11 × 2^5. -/
  | fmovi (x : Km)
  /-- FMOVI_64 (R213): fmovi with an FP32 pattern in imm32. -/
  | fmoviL (x : Km64)
  /-- LD (R249): Load, or acquire load with o set, at the address in a. -/
  | ld (x : Me)
  /-- LD_64 (R249): ld with a 32-bit displacement. -/
  | ldL (x : Me64)
  /-- ST (R251): Store, or release store with o set. -/
  | st (x : Me)
  /-- ST_64 (R251): st with a 32-bit displacement. -/
  | stL (x : Me64)
  /-- ATOM_ADD (R254): Atomic integer add at the home. -/
  | atomAdd (x : Me)
  /-- ATOM_ADD_64 (R254): atom.add with a displacement. -/
  | atomAddL (x : Me64)
  /-- ATOM_FADD (R255): Atomic floating add. -/
  | atomFadd (x : Me)
  /-- ATOM_FADD_64 (R255): atom.fadd with a displacement. -/
  | atomFaddL (x : Me64)
  /-- ATOM_MIN (R254): Atomic minimum. -/
  | atomMin (x : Me)
  /-- ATOM_MIN_64 (R254): atom.min with a displacement. -/
  | atomMinL (x : Me64)
  /-- ATOM_MAX (R254): Atomic maximum. -/
  | atomMax (x : Me)
  /-- ATOM_MAX_64 (R254): atom.max with a displacement. -/
  | atomMaxL (x : Me64)
  /-- ATOM_AND (R254): Atomic AND. -/
  | atomAnd (x : Me)
  /-- ATOM_AND_64 (R254): atom.and with a displacement. -/
  | atomAndL (x : Me64)
  /-- ATOM_OR (R254): Atomic OR. -/
  | atomOr (x : Me)
  /-- ATOM_OR_64 (R254): atom.or with a displacement. -/
  | atomOrL (x : Me64)
  /-- ATOM_XOR (R254): Atomic XOR. -/
  | atomXor (x : Me)
  /-- ATOM_XOR_64 (R254): atom.xor with a displacement. -/
  | atomXorL (x : Me64)
  /-- ATOM_EXCH (R254): Atomic exchange. -/
  | atomExch (x : Me)
  /-- ATOM_EXCH_64 (R254): atom.exch with a displacement. -/
  | atomExchL (x : Me64)
  /-- ATOM_CAS (R256): Atomic compare-and-swap on an even-odd register pair. -/
  | atomCas (x : Me)
  /-- ATOM_CAS_64 (R256): atom.cas with a displacement. -/
  | atomCasL (x : Me64)
  /-- FENCE_FULL (R160): Full fence at a scope. -/
  | fenceFull (x : Sc)
  /-- FENCE_ACQ (R160): Acquire fence at a scope. -/
  | fenceAcq (x : Sc)
  /-- FENCE_REL (R160): Release fence at a scope. -/
  | fenceRel (x : Sc)
  /-- FENCE_WACK (R160): Wait until every earlier store and atomic is performed and acknowledged. -/
  | fenceWack (x : H0)
  /-- PHASE (R158): Release then acquire at a scope for the whole core. -/
  | phase (x : Sc)
  /-- FETCHB (R260): Wait, then discard the course's prefetched parcels and loop buffer. -/
  | fetchb (x : H0)
  /-- COP_INV (R261): Remove a line from the lane load cache. -/
  | copInv (x : A1)
  /-- COP_INV_64 (R261): cop.inv with a displacement. -/
  | copInvL (x : A1d)
  /-- COP_WB (R261): Write a line's dirty sectors back to HBM at its home. -/
  | copWb (x : A1)
  /-- COP_WB_64 (R261): cop.wb with a displacement. -/
  | copWbL (x : A1d)
  /-- COP_WBI (R261): Write back, then invalidate a line at its home. -/
  | copWbi (x : A1)
  /-- COP_WBI_64 (R261): cop.wbi with a displacement. -/
  | copWbiL (x : A1d)
  /-- BRA (R224): Branch by a 16-bit parcel displacement. -/
  | bra (x : I16)
  /-- BRA_64 (R224): bra with disp32. -/
  | braL (x : I16l)
  /-- BRX (R224): Branch to the address in a. -/
  | brx (x : A1)
  /-- BRX_64 (R224): brx with a modifier word, for a uniform target. -/
  | brxL (x : A1m)
  /-- CALL (R226): Push the return address and branch by displacement. -/
  | call (x : I16)
  /-- CALL_64 (R226): call with disp32. -/
  | callL (x : I16l)
  /-- CALLX (R226): Push the return address and branch to a. -/
  | callx (x : A1)
  /-- CALLX_64 (R226): callx with a modifier word. -/
  | callxL (x : A1m)
  /-- RET (R226): Pop the return stack and jump. -/
  | ret (x : H0)
  /-- EXIT (R228): End the threads with a true guard. -/
  | exit (x : H0)
  /-- LOOP (R229): Open a loop level with a trip count. -/
  | loop (x : Lo)
  /-- LOOP_64 (R229): loop with enddisp32. -/
  | loopL (x : Lo64)
  /-- BRK (R233): Close the innermost loop level and leave it. -/
  | brk (x : H0)
  /-- LCFG (R230): Prefix setting ring size and stage count of the following loop. -/
  | lcfg (x : Lc)
  /-- CNV (R236): Wait for the whole convergence set. -/
  | cnv (x : H0)
  /-- CNV_MASK (R236): Wait for the slots masked in uniform register d. -/
  | cnvMask (x : D1)
  /-- BAR (R238): Release-fence and arrive at a numbered barrier of a scope. -/
  | bar (x : Ba)
  /-- TRAP (R240): Raise trap 0x60 with a number. -/
  | trap (x : N11)
  /-- SYSC (R240): System call to the host, or trap 0x61. -/
  | sysc (x : N11)
  /-- BKPT (R240): Breakpoint trap 0x50 while dbgen is set. -/
  | bkpt (x : N11)
  /-- BALW (R224): Branch where the destination's closed bit is 1. -/
  | balw (x : Bw)
  /-- YIELD (R228): Let the lane's other course be selected first. -/
  | yield (x : H0)
  /-- MAPSET (R269): Load an 80-byte layout image from scratchpad. -/
  | mapset (x : Ms)
  /-- MAPCHN (R121): Compose two layouts. -/
  | mapchn (x : M3)
  /-- MAPPRT (R122): Take the layout of one tile. -/
  | mapprt (x : M3)
  /-- MAPTRN (R123): Reorder a layout's dimensions. -/
  | maptrn (x : M3)
  /-- MAPFLT (R124): Merge a layout's modes. -/
  | mapflt (x : R1)
  /-- MAPCHK (R271): Classify a layout for an engine class and report cost. -/
  | mapchk (x : Tq)
  /-- BANKQ (R272): Compute a layout's bank-conflict degree. -/
  | bankq (x : Tq)
  /-- HSET (R273): Write a handle from a register pair. -/
  | hset (x : Vh)
  /-- TCPY (R276): Issue a copy command from a block in scratchpad. -/
  | tcpy (x : V1)
  /-- TMMA (R276): Issue a matrix command. -/
  | tmma (x : V1)
  /-- TGAT (R276): Issue a gather command. -/
  | tgat (x : V1)
  /-- TCOL (R294): Hand a collective chunk to the ring sequencer. -/
  | tcol (x : V1)
  /-- TLD (R274): Load a register tile through a layout. -/
  | tld (x : Tl)
  /-- TST (R274): Store a register tile through a layout. -/
  | tst (x : Tl)
  /-- ACC_ZERO (R295): Reset an accumulator tile as at dispatch. -/
  | accZero (x : Hh)
  /-- ACC_ZERO_64 (R295): acc.zero with its immediate word. -/
  | accZeroL (x : Hh64)
  /-- ACC_SETEXP (R296): Set row exponents, rescaling mantissas. -/
  | accSetexp (x : Vh)
  /-- ACC_SETEXP_64 (R296): acc.setexp with first row and count. -/
  | accSetexpL (x : Vh64)
  /-- ACC_RDROW (R295): Read a row's state word. -/
  | accRdrow (x : Vh)
  /-- ACC_RDROW_64 (R295): acc.rdrow with a row immediate. -/
  | accRdrowL (x : Vh64)
  /-- ACC_WRROW (R295): Write a row's exponent and clear its sticky bits. -/
  | accWrrow (x : Vh)
  /-- ACC_WRROW_64 (R295): acc.wrrow with a row immediate. -/
  | accWrrowL (x : Vh64)
  /-- ACC_CLRST (R295): Clear every row's sticky bits. -/
  | accClrst (x : Hh)
  /-- ACC_CLRST_64 (R295): acc.clrst with its immediate word. -/
  | accClrstL (x : Hh64)
  /-- NOP (R186): No operation. -/
  | nop (x : H0)
  /-- NOP_64 (R186): nop with an extension word. -/
  | nopL (x : E64)
  /-- IDIV_I (R215): Signed divide. -/
  | idivI (x : Ed)
  /-- IDIV_I_64 (R215): idiv.i with its extension word. -/
  | idivIL (x : E64)
  /-- IDIV_N (R215): Unsigned divide. -/
  | idivN (x : Ed)
  /-- IDIV_N_64 (R215): idiv.n with its extension word. -/
  | idivNL (x : E64)
  /-- IREM_I (R215): Signed remainder. -/
  | iremI (x : Ed)
  /-- IREM_I_64 (R215): irem.i with its extension word. -/
  | iremIL (x : E64)
  /-- IREM_N (R215): Unsigned remainder. -/
  | iremN (x : Ed)
  /-- IREM_N_64 (R215): irem.n with its extension word. -/
  | iremNL (x : E64)
  /-- ROTL (R214): Rotate left. -/
  | rotl (x : Ed)
  /-- ROTL_64 (R214): rotl with its extension word. -/
  | rotlL (x : E64)
  /-- BREV (R214): Reverse bits. -/
  | brev (x : Ed)
  /-- BREV_64 (R214): brev with its extension word. -/
  | brevL (x : E64)
  /-- FCMP_ORD (R214): Predicate := neither operand NaN. -/
  | fcmpOrd (x : D1)
  /-- FCMP_ORD_64 (R214): fcmp.ord with its extension word. -/
  | fcmpOrdL (x : E64)
  /-- FCMP_UNORD (R214): Predicate := an operand is NaN. -/
  | fcmpUnord (x : D1)
  /-- FCMP_UNORD_64 (R214): fcmp.unord with its extension word. -/
  | fcmpUnordL (x : E64)
  /-- FCLASS (R216): Classify an FP32 value into a 10-bit mask. -/
  | fclass (x : Ed)
  /-- FCLASS_64 (R216): fclass with its extension word. -/
  | fclassL (x : E64)
  /-- FRND (R214): Round FP32 to an integral value. -/
  | frnd (x : Ed)
  /-- FRND_64 (R214): frnd with its extension word. -/
  | frndL (x : E64)
  /-- FEXP (R214): a × 2^b in FP32. -/
  | fexp (x : Ed)
  /-- FEXP_64 (R214): fexp with its extension word. -/
  | fexpL (x : E64)
  /-- Q2V (R217): Copy predicates to a register. -/
  | q2v (x : D1)
  /-- Q2V_64 (R217): q2v with its extension word. -/
  | q2vL (x : E64)
  /-- V2Q (R217): Copy a register to predicates. -/
  | v2q (x : H0)
  /-- V2Q_64 (R217): v2q with its extension word. -/
  | v2qL (x : E64)
  /-- QPOP (R219): Count participants with a predicate set. -/
  | qpop (x : Ed)
  /-- QPOP_64 (R219): qpop with its extension word. -/
  | qpopL (x : E64)
  /-- PFIRST (R219): Set a predicate in the lowest participant only. -/
  | pfirst (x : D1)
  /-- PFIRST_64 (R219): pfirst with its extension word. -/
  | pfirstL (x : E64)
  /-- PANY (R219): Predicate := any participant's predicate set. -/
  | pany (x : D1)
  /-- PANY_64 (R219): pany with its extension word. -/
  | panyL (x : E64)
  /-- PALL (R219): Predicate := every participant's predicate set. -/
  | pall (x : D1)
  /-- PALL_64 (R219): pall with its extension word. -/
  | pallL (x : E64)
  /-- PMASK (R220): Mask of participants with a predicate set. -/
  | pmask (x : Ed)
  /-- PMASK_64 (R220): pmask with its extension word. -/
  | pmaskL (x : E64)
  /-- XGET_AT (R219): Read another participant's register at an index. -/
  | xgetAt (x : D1)
  /-- XGET_AT_64 (R219): xget.at with its extension word. -/
  | xgetAtL (x : E64)
  /-- XGET_FLIP (R219): Read the register of slot r XOR b. -/
  | xgetFlip (x : D1)
  /-- XGET_FLIP_64 (R219): xget.flip with its extension word. -/
  | xgetFlipL (x : E64)
  /-- XGET_STEP (R219): Read the register of slot r + b. -/
  | xgetStep (x : D1)
  /-- XGET_STEP_64 (R219): xget.step with its extension word. -/
  | xgetStepL (x : E64)
  /-- XGET_ROT (R219): Read the register of slot (r + b) mod N. -/
  | xgetRot (x : D1)
  /-- XGET_ROT_64 (R219): xget.rot with its extension word. -/
  | xgetRotL (x : E64)
  /-- CNVQ (R236): Converge the live threads whose predicate is set. -/
  | cnvq (x : H0)
  /-- CNVQ_64 (R236): cnvq with its extension word. -/
  | cnvqL (x : E64)
  /-- WAITN (R297): Wait until a class counter is at most n. -/
  | waitn (x : H0)
  /-- WAITN_64 (R297): waitn with class and n in its extension word. -/
  | waitnL (x : E64)
  /-- SETG (R239): Resolve a guard slot from a predicate. -/
  | setg (x : H0)
  /-- SETG_64 (R239): setg with its extension word. -/
  | setgL (x : E64)
  /-- CLRG (R239): Return a guard slot to unresolved. -/
  | clrg (x : H0)
  /-- CLRG_64 (R239): clrg with its extension word. -/
  | clrgL (x : E64)
  /-- ALW (R221): Read a destination's send allowance. -/
  | alw (x : Ed)
  /-- ALW_64 (R221): alw with its extension word. -/
  | alwL (x : E64)
  /-- MAPGET (R269): Read a word of a layout register. -/
  | mapget (x : Ed)
  /-- MAPGET_64 (R269): mapget with its extension word. -/
  | mapgetL (x : E64)
  /-- MAPPUT (R269): Write a word of a layout register without checking. -/
  | mapput (x : H0)
  /-- MAPPUT_64 (R269): mapput with its extension word. -/
  | mapputL (x : E64)
  /-- HGET (R273): Read a handle into a register pair. -/
  | hget (x : D1)
  /-- HGET_64 (R273): hget with its extension word. -/
  | hgetL (x : E64)
  /-- LGET (R234): Read loop-control state. -/
  | lget (x : Ed)
  /-- LGET_64 (R234): lget with its extension word. -/
  | lgetL (x : E64)
  /-- LPUT (R234): Write loop-control state. -/
  | lput (x : H0)
  /-- LPUT_64 (R234): lput with its extension word. -/
  | lputL (x : E64)
  /-- CSRR (R242): Read a control register. -/
  | csrr (x : Ed)
  /-- CSRR_64 (R242): csrr with the register number. -/
  | csrrL (x : E64)
  /-- CSRW (R242): Write a control register. -/
  | csrw (x : H0)
  /-- CSRW_64 (R242): csrw with the register number. -/
  | csrwL (x : E64)
  /-- CSRS (R242): Set control-register bits. -/
  | csrs (x : H0)
  /-- CSRS_64 (R242): csrs with the register number. -/
  | csrsL (x : E64)
  /-- CSRC (R242): Clear control-register bits. -/
  | csrc (x : H0)
  /-- CSRC_64 (R242): csrc with the register number. -/
  | csrcL (x : E64)
  /-- TRET (R391): End a course handler and resume the course from its frame. -/
  | tret (x : H0)
  /-- TRET_64 (R391): tret with an extension word. -/
  | tretL (x : E64)
  /-- HALT (R243): Threads with true guards enter the halted state. -/
  | halt (x : H0)
  /-- HALT_64 (R243): halt with an extension word. -/
  | haltL (x : E64)
  /-- ICINV (R170): Invalidate instruction-cache lines over a range after waiting. -/
  | icinv (x : H0)
  /-- ICINV_64 (R170): icinv with address and length registers. -/
  | icinvL (x : E64)
  /-- TLBINV_PAGE (R264): Invalidate the translations of one virtual address. -/
  | tlbinvPage (x : H0)
  /-- TLBINV_PAGE_64 (R264): tlbinv.page with its extension word. -/
  | tlbinvPageL (x : E64)
  /-- TLBINV_CTX (R264): Invalidate every entry of the issuing context. -/
  | tlbinvCtx (x : E64)
  /-- TLBINV_ALL (R264): Invalidate every entry of every context. -/
  | tlbinvAll (x : E64)
  /-- TLBPROBE (R265): Translate an address without faulting and report the result. -/
  | tlbprobe (x : Ed)
  /-- TLBPROBE_64 (R265): tlbprobe with its extension word. -/
  | tlbprobeL (x : E64)
  /-- CRESIZE (R146): Start setting the die scratch way count. -/
  | cresize (x : H0)
  /-- CRESIZE_64 (R146): cresize with its extension word. -/
  | cresizeL (x : E64)
  /-- MIG_DEV (R263): Ask to move a shared page to the device. -/
  | migDev (x : H0)
  /-- MIG_DEV_64 (R263): mig.dev with its extension word. -/
  | migDevL (x : E64)
  /-- MIG_HOST (R263): Ask to move a shared page to the host. -/
  | migHost (x : E64)
  /-- PF (R262): Prefetch a line into its home slice. -/
  | pf (x : H0)
  /-- PF_64 (R262): pf with its extension word. -/
  | pfL (x : E64)
  /-- TSPAWN (R244): Submit a launch record and return its sequence number or refusal code. -/
  | tspawn (x : D1)
  /-- TSPAWN_64 (R244): tspawn with its extension word. -/
  | tspawnL (x : E64)
  /-- TSIG (R244): Decrement a node's dependence count. -/
  | tsig (x : H0)
  /-- TSIG_64 (R244): tsig with its extension word. -/
  | tsigL (x : E64)
  /-- EVPOST (R244): Post a 32-byte record to the cluster event queue. -/
  | evpost (x : H0)
  /-- EVPOST_64 (R244): evpost with its extension word. -/
  | evpostL (x : E64)
  /-- EVGET (R244): Read a word of the oldest event record; word 3 removes it. -/
  | evget (x : Ed)
  /-- EVGET_64 (R244): evget with its extension word. -/
  | evgetL (x : E64)
  /-- DBGMB (R243): Write an outbound debug mailbox word; word 15 sends the message. -/
  | dbgmb (x : H0)
  /-- DBGMB_64 (R243): dbgmb with word number and source. -/
  | dbgmbL (x : E64)
  /-- DBGRD (R243): Read a debug item of the target thread. -/
  | dbgrd (x : D1)
  /-- DBGRD_64 (R243): dbgrd with item and index. -/
  | dbgrdL (x : E64)
  /-- WPSET (R243): Write a watchpoint register. -/
  | wpset (x : H0)
  /-- WPSET_64 (R243): wpset with source and watchpoint number. -/
  | wpsetL (x : E64)
  deriving DecidableEq, Repr

end Sys2Proof
end

