-- ==== Sys2Proof/WellFormed.lean ====
section
/-! DEFINITION. Which instructions are well formed: the decoding rules of R174, R176, R178, R179, R181 and R183
to R187, and the rules of the instruction chapters that name a decoding fault. -/

namespace Sys2Proof

/-- R174: `G` 12, 13 and 14 are reserved, and so is sense 1 with `G` 15. -/
def Hdr.guardOk (h : Hdr) : Bool :=
  !(h.g == 12 || h.g == 13 || h.g == 14) && !(h.g == 15 && h.n)

/-- A destination predicate in a five-bit field (R176). -/
def isPred (d : Reg) : Bool := decide (d.toNat < 12)

/-- A predicate in a four-bit field (R176, R185). -/
def isQ (q : BitVec 4) : Bool := decide (q.toNat < 12)

/-- The lower register of an even-odd pair (R247, R256). -/
def isEven (d : Reg) : Bool := decide (d.toNat % 2 = 0)

/-- The function codes of `fsfu` (R184). -/
def isSfu (f : Reg) : Bool := decide (f.toNat ≤ 7)

/-- The conversion codes of `cvt` (R184). -/
def isCvt (f : Reg) : Bool := decide (f.toNat ≤ 17 ∨ (24 ≤ f.toNat ∧ f.toNat ≤ 30))

/-- The conversion codes of `cvtp` (R184). -/
def isCvtp (f : Reg) : Bool := decide (f.toNat ≤ 7)

/-- The `cvt` codes whose saturation field is 0 or 1 only (R210). -/
def cvtSatSmall (f : Reg) : Bool := decide ((4 ≤ f.toNat ∧ f.toNat ≤ 7) ∨ 24 ≤ f.toNat)

/-- R179: c fields are permitted only to an instruction with a third source, and are zero when cp is 0. -/
def Modifier.okC3 (m : Modifier) (third : Bool) : Bool :=
  (third || !m.cp) && (m.cp || (m.c == 0 && !m.cu))

/-- Class F: every field is permitted (R179). -/
def Modifier.okF (m : Modifier) (third : Bool) : Bool := m.okC3 third

/-- Class I (R179). -/
def Modifier.okI (m : Modifier) (third : Bool) : Bool :=
  m.okC3 third && m.rnd == 0 && m.k == 0 && m.sat != 3

/-- Class L (R179). -/
def Modifier.okL (m : Modifier) (third : Bool) : Bool :=
  m.okC3 third && m.rnd == 0 && m.k == 0 && m.sat == 0 && !m.negd && !m.absb && !m.absa && !m.negb && !m.nega

/-- Class C (R179): au, and the operand signs on the floating compares. -/
def Modifier.okC (m : Modifier) (floating : Bool) : Bool :=
  m.okC3 false && !m.du && m.rnd == 0 && m.k == 0 && m.sat == 0 && !m.negd &&
    (floating || (!m.absb && !m.absa && !m.negb && !m.nega))

/-- Class X (R179): au alone. -/
def Modifier.okX (m : Modifier) : Bool := m.okC false

/-- Every decoding rule but the guard's (R176, R178, R179, R181, R183 to R187 and the rules that name a decoding fault). -/
def Instr.fieldsOk : Instr → Bool
  | .issueGroupSelection _ _ _ => true
  | .fixedLatencyResult _ _ => true
  | .convergenceRelease _ _ => true
  | .barrierCompletion _ _ _ _ => true
  | .barrierTimeout _ _ _ _ => true
  | .convergenceTimeout _ _ => true
  | .yieldExpiry _ _ => true
  | .courseWake _ _ => true
  | .trapDelivery _ _ => true
  | .taskDispatch _ _ => true
  | .dispatchReservation _ _ => true
  | .stealRequest _ => true
  | .stealShipment _ => true
  | .shipmentArrival _ => true
  | .taskEnd _ _ => true
  | .overflowRecord _ => true
  | .preempt _ _ _ _ _ _ _ _ _ => true
  | .preemptSave _ => true
  | .guardSlotHeadCheck _ _ => true
  | .kChunk _ _ => true
  | .writeBack _ => true
  | .copyTransfer _ _ => true
  | .accExecute _ => true
  | .commandRetire _ _ _ => true
  | .homeAccessPerform _ _ => true
  | .sectorFill _ _ _ => true
  | .missStatusAllocate _ => true
  | .loadReturn _ _ => true
  | .hodDrain _ _ => true
  | .hodAgeLimit _ _ => true
  | .phaseComplete _ _ => true
  | .fenceComplete _ _ => true
  | .releaseStoreProceed _ => true
  | .waitnComplete _ _ => true
  | .icinvComplete _ _ => true
  | .fetchbComplete _ _ => true
  | .cresizeComplete _ => true
  | .migrationStart _ => true
  | .migrationDeparture _ _ => true
  | .remotePacketArrival _ _ _ _ _ _ _ _ => true
  | .acknowledgementArrival _ _ _ _ _ _ => true
  | .closedVectorUpdate _ _ => true
  | .refusalArrival _ _ _ _ => true
  | .restartRefusal _ _ => true
  | .retransmission _ _ _ _ => true
  | .destinationLost _ _ => true
  | .allowanceCollapse _ _ => true
  | .expressStarvationToken _ _ => true
  | .tierStarvationGrant _ _ => true
  | .linkTraining _ _ _ => true
  | .flitCrcReplay _ _ => true
  | .linkRetrain _ _ _ => true
  | .portUp _ => true
  | .ringCheck _ _ => true
  | .ringCheckAnswer _ _ => true
  | .ringSetupTimeout _ => true
  | .chunkStart _ _ _ _ => true
  | .partialArrival _ _ _ _ _ _ _ _ _ => true
  | .resultArrival _ _ _ _ _ _ _ _ _ => true
  | .throttleRequest _ _ _ => true
  | .throttleStepUp => true
  | .hostLinkBringup => true
  | .launch _ _ _ _ _ => true
  | .release _ _ _ _ _ _ => true
  | .writeMemory _ _ _ _ _ _ _ _ => true
  | .readMemory _ _ _ _ _ _ _ _ => true
  | .queueControl _ _ _ _ _ _ _ => true
  | .routeEntry _ _ _ _ _ _ => true
  | .ringSetup _ _ _ _ _ _ _ => true
  | .bindResult _ _ _ _ _ _ _ _ _ => true
  | .trapResume _ _ _ _ _ _ _ _ => true
  | .codeTable _ _ _ _ _ _ => true
  | .attest _ _ _ _ _ => true
  | .ringBind _ _ _ _ _ _ _ => true
  | .syscallReply _ _ _ _ _ => true
  | .mailboxMessage _ _ _ => true
  | .pageMessage _ _ _ _ => true
  | .ownMessage _ _ _ _ => true
  | .nak _ _ => true
  | .resync _ _ _ _ => true
  | .resyncReply _ _ _ _ => true
  | .keepalive _ => true
  | .hostRetransmit => true
  | .hostLinkLost => true
  | .codeTableEntryJump => true
  | .hardwareBind _ _ _ => true
  | .dbgctlHalt _ _ => true
  | .dbgctlUnhalt _ _ => true
  | .dbgctlStep _ _ => true
  | .ilenWrite _ _ => true
  | .mailboxSend => true
  | .dutyWrite _ _ => true
  | .registerWrite _ _ => true
  | .boot _ _ _ _ _ => true
  | .sensorSample _ _ => true
  | .throttleRepeat _ _ => true
  | .refreshBandEvaluation _ => true
  | .telemetryRecord => true
  | .thermalTrip _ => true
  | .moduleReboot => true
  | .scrub _ _ _ => true
  | .movC _ => true
  | .iaddC _ => true
  | .isubC _ => true
  | .imulC _ => true
  | .andC _ => true
  | .orC _ => true
  | .xorC _ => true
  | .shlC _ => true
  | .shrNC _ => true
  | .shrIC _ => true
  | .faddC _ => true
  | .fsubC _ => true
  | .fmulC _ => true
  | .fmaxC _ => true
  | .fminC _ => true
  | .iaddi5C _ => true
  | .nopC => true
  | .iadd _ => true
  | .iaddL x => x.m.okI false
  | .isub _ => true
  | .isubL x => x.m.okI false
  | .imul _ => true
  | .imulL x => x.m.okI false
  | .imulhI _ => true
  | .imulhIL x => x.m.okI false
  | .imulhN _ => true
  | .imulhNL x => x.m.okI false
  | .imac _ => true
  | .imacL x => x.m.okI true
  | .iminI _ => true
  | .iminIL x => x.m.okI false
  | .iminN _ => true
  | .iminNL x => x.m.okI false
  | .imaxI _ => true
  | .imaxIL x => x.m.okI false
  | .imaxN _ => true
  | .imaxNL x => x.m.okI false
  | .iabsd _ => true
  | .iabsdL x => x.m.okI false
  | .and _ => true
  | .andL x => x.m.okL false
  | .or _ => true
  | .orL x => x.m.okL false
  | .xor _ => true
  | .xorL x => x.m.okL false
  | .andn _ => true
  | .andnL x => x.m.okL false
  | .mov _ => true
  | .movL x => x.m.okL false
  | .shl _ => true
  | .shlL x => x.m.okL false
  | .shrN _ => true
  | .shrNL x => x.m.okL false
  | .shrI _ => true
  | .shrIL x => x.m.okL false
  | .clz _ => true
  | .clzL x => x.m.okL false
  | .popc _ => true
  | .popcL x => x.m.okL false
  | .bfxN _ => true
  | .bfxNL x => x.m.okL false
  | .bfxI _ => true
  | .bfxIL x => x.m.okL false
  | .bfi _ => true
  | .bfiL x => x.m.okL true
  | .perm _ => true
  | .permL x => x.m.okL true
  | .icmpEq x => isPred x.d
  | .icmpEqL x => isPred x.r.d && x.m.okC false
  | .icmpNe x => isPred x.d
  | .icmpNeL x => isPred x.r.d && x.m.okC false
  | .icmpLtI x => isPred x.d
  | .icmpLtIL x => isPred x.r.d && x.m.okC false
  | .icmpLeI x => isPred x.d
  | .icmpLeIL x => isPred x.r.d && x.m.okC false
  | .icmpLtN x => isPred x.d
  | .icmpLtNL x => isPred x.r.d && x.m.okC false
  | .icmpLeN x => isPred x.d
  | .icmpLeNL x => isPred x.r.d && x.m.okC false
  | .qlopAnd x => isQ x.b && isQ x.a && isQ x.d
  | .qlopOr x => isQ x.b && isQ x.a && isQ x.d
  | .qlopXor x => isQ x.b && isQ x.a && isQ x.d
  | .qlopAndn x => isQ x.b && isQ x.a && isQ x.d
  | .ladd _ => true
  | .laddL x => x.m.okI false
  | .lsub _ => true
  | .lsubL x => x.m.okI false
  | .lmul _ => true
  | .lmulL x => x.m.okI false
  | .lmac _ => true
  | .lmacL x => x.m.okI true
  | .lshl _ => true
  | .lshlL x => x.m.okL false
  | .lshrN _ => true
  | .lshrNL x => x.m.okL false
  | .lshrI _ => true
  | .lshrIL x => x.m.okL false
  | .lextI _ => true
  | .lextIL x => x.m.okL false
  | .lextN _ => true
  | .lextNL x => x.m.okL false
  | .lcmpEq x => isPred x.d
  | .lcmpEqL x => isPred x.r.d && x.m.okC false
  | .lcmpNe x => isPred x.d
  | .lcmpNeL x => isPred x.r.d && x.m.okC false
  | .lcmpLtI x => isPred x.d
  | .lcmpLtIL x => isPred x.r.d && x.m.okC false
  | .lcmpLtN x => isPred x.d
  | .lcmpLtNL x => isPred x.r.d && x.m.okC false
  | .lea2 _ => true
  | .lea2L x => x.m.okL false
  | .lea3 _ => true
  | .lea3L x => x.m.okL false
  | .lea4 _ => true
  | .lea4L x => x.m.okL false
  | .fadd _ => true
  | .faddL x => x.m.okF false
  | .fsub _ => true
  | .fsubL x => x.m.okF false
  | .fmul _ => true
  | .fmulL x => x.m.okF false
  | .ffma _ => true
  | .ffmaL x => x.m.okF true
  | .fmin _ => true
  | .fminL x => x.m.okF false
  | .fmax _ => true
  | .fmaxL x => x.m.okF false
  | .fcmpEq x => isPred x.d
  | .fcmpEqL x => isPred x.r.d && x.m.okC true
  | .fcmpNe x => isPred x.d
  | .fcmpNeL x => isPred x.r.d && x.m.okC true
  | .fcmpLt x => isPred x.d
  | .fcmpLtL x => isPred x.r.d && x.m.okC true
  | .fcmpLe x => isPred x.d
  | .fcmpLeL x => isPred x.r.d && x.m.okC true
  | .fsfu x => isSfu x.f
  | .fsfuL x => x.m.okF false && isSfu x.r.f && (x.m.rnd == 0 || x.r.f == 2)
  | .hadd2F16 _ => true
  | .hadd2F16L x => x.m.okF false
  | .hmul2F16 _ => true
  | .hmul2F16L x => x.m.okF false
  | .hfma2F16 _ => true
  | .hfma2F16L x => x.m.okF true
  | .hfma2Bf16 _ => true
  | .hfma2Bf16L x => x.m.okF true
  | .hadd2Bf16 _ => true
  | .hadd2Bf16L x => x.m.okF false
  | .cvt x => isCvt x.f
  | .cvtL x => x.m.okF false && isCvt x.r.f && (x.m.sat.toNat < 2 || !cvtSatSmall x.r.f)
  | .cvtp x => isCvtp x.f
  | .cvtpL x => x.m.okF false && isCvtp x.r.f
  | .iaddi _ => true
  | .iaddiL _ => true
  | .andi _ => true
  | .andiL _ => true
  | .ori _ => true
  | .oriL _ => true
  | .xori _ => true
  | .xoriL _ => true
  | .shli _ => true
  | .shliL x => decide (x.i.toNat < 64)
  | .shriN _ => true
  | .shriNL x => decide (x.i.toNat < 64)
  | .shriI _ => true
  | .shriIL x => decide (x.i.toNat < 64)
  | .movi _ => true
  | .moviL _ => true
  | .movhi _ => true
  | .movhiL _ => true
  | .icmpiEq x => isPred x.d
  | .icmpiEqL x => isPred x.d
  | .icmpiLtI x => isPred x.d
  | .icmpiLtIL x => isPred x.d
  | .fmovi _ => true
  | .fmoviL _ => true
  | .ld x => (decide (x.w ≠ 6) || isEven x.d)
  | .ldL x => (decide (x.r.w ≠ 6) || isEven x.r.d)
  | .st x => (decide (x.w ≠ 6) || isEven x.d)
  | .stL x => (decide (x.r.w ≠ 6) || isEven x.r.d)
  | .atomAdd x => decide (x.w.toNat < 6)
  | .atomAddL x => decide (x.r.w.toNat < 6)
  | .atomFadd x => (x.w == 2 || x.w == 3 || x.w == 4)
  | .atomFaddL x => (x.r.w == 2 || x.r.w == 3 || x.r.w == 4)
  | .atomMin x => decide (x.w.toNat < 6)
  | .atomMinL x => decide (x.r.w.toNat < 6)
  | .atomMax x => decide (x.w.toNat < 6)
  | .atomMaxL x => decide (x.r.w.toNat < 6)
  | .atomAnd x => decide (x.w.toNat < 6)
  | .atomAndL x => decide (x.r.w.toNat < 6)
  | .atomOr x => decide (x.w.toNat < 6)
  | .atomOrL x => decide (x.r.w.toNat < 6)
  | .atomXor x => decide (x.w.toNat < 6)
  | .atomXorL x => decide (x.r.w.toNat < 6)
  | .atomExch x => decide (x.w.toNat < 6)
  | .atomExchL x => decide (x.r.w.toNat < 6)
  | .atomCas x => decide (x.w.toNat < 6) && isEven x.d
  | .atomCasL x => decide (x.r.w.toNat < 6) && isEven x.r.d
  | .fenceFull _ => true
  | .fenceAcq _ => true
  | .fenceRel _ => true
  | .fenceWack _ => true
  | .phase _ => true
  | .fetchb _ => true
  | .copInv _ => true
  | .copInvL _ => true
  | .copWb _ => true
  | .copWbL _ => true
  | .copWbi _ => true
  | .copWbiL _ => true
  | .bra _ => true
  | .braL _ => true
  | .brx _ => true
  | .brxL x => x.m.okX
  | .call _ => true
  | .callL _ => true
  | .callx _ => true
  | .callxL x => x.m.okX
  | .ret _ => true
  | .exit _ => true
  | .loop _ => true
  | .loopL _ => true
  | .brk _ => true
  | .lcfg x => decide (x.z.toNat ≠ 1 ∧ x.z.toNat ≤ 16)
  | .cnv _ => true
  | .cnvMask _ => true
  | .bar x => decide (x.p ≠ 0)
  | .trap _ => true
  | .sysc _ => true
  | .bkpt _ => true
  | .balw _ => true
  | .yield _ => true
  | .mapset _ => true
  | .mapchn _ => true
  | .mapprt _ => true
  | .maptrn _ => true
  | .mapflt _ => true
  | .mapchk x => x.x == 0 && x.hd == 0 && decide (x.k.toNat ≤ 5)
  | .bankq x => (x.x == 0 || (x.x == 1 && x.hd == 0)) && decide (x.k.toNat ≤ 5)
  | .hset _ => true
  | .tcpy _ => true
  | .tmma _ => true
  | .tgat _ => true
  | .tcol _ => true
  | .tld _ => true
  | .tst _ => true
  | .accZero _ => true
  | .accZeroL x => x.i == 0
  | .accSetexp _ => true
  | .accSetexpL x => decide (x.i.toNat < 4096 ∧ x.i.toNat % 64 + x.i.toNat / 64 + 1 ≤ 64)
  | .accRdrow _ => true
  | .accRdrowL x => decide (x.i.toNat < 64)
  | .accWrrow _ => true
  | .accWrrowL x => decide (x.i.toNat < 64)
  | .accClrst _ => true
  | .accClrstL x => x.i == 0
  | .nop _ => true
  | .nopL x => x.d == 0 && x.a == 0 && !x.au && x.b == 0 && !x.bu && x.p == 0 && decide (x.i.toNat < 1) && !x.u
  | .idivI _ => true
  | .idivIL x => x.p == 0 && decide (x.i.toNat < 2)
  | .idivN _ => true
  | .idivNL x => x.p == 0 && decide (x.i.toNat < 2)
  | .iremI _ => true
  | .iremIL x => x.p == 0 && decide (x.i.toNat < 2)
  | .iremN _ => true
  | .iremNL x => x.p == 0 && decide (x.i.toNat < 2)
  | .rotl _ => true
  | .rotlL x => x.p == 0 && decide (x.i.toNat < 2)
  | .brev _ => true
  | .brevL x => x.b == 0 && !x.bu && x.p == 0 && decide (x.i.toNat < 2)
  | .fcmpOrd x => isPred x.d
  | .fcmpOrdL x => isPred x.d && x.p == 0 && decide (x.i.toNat < 1) && !x.u
  | .fcmpUnord x => isPred x.d
  | .fcmpUnordL x => isPred x.d && x.p == 0 && decide (x.i.toNat < 1) && !x.u
  | .fclass _ => true
  | .fclassL x => x.b == 0 && !x.bu && x.p == 0 && decide (x.i.toNat < 1)
  | .frnd _ => true
  | .frndL x => x.b == 0 && !x.bu && x.p == 0 && decide (x.i.toNat < 4)
  | .fexp _ => true
  | .fexpL x => x.p == 0 && decide (x.i.toNat < 1)
  | .q2v _ => true
  | .q2vL x => x.a == 0 && !x.au && x.b == 0 && !x.bu && x.p == 0 && decide (x.i.toNat < 1) && !x.u
  | .v2q _ => true
  | .v2qL x => x.d == 0 && x.b == 0 && !x.bu && x.p == 0 && decide (x.i.toNat < 1) && !x.u
  | .qpop _ => true
  | .qpopL x => x.a == 0 && !x.au && x.b == 0 && !x.bu && isQ x.p && decide (x.i.toNat < 1)
  | .pfirst x => isPred x.d
  | .pfirstL x => isPred x.d && x.a == 0 && !x.au && x.b == 0 && !x.bu && x.p == 0 && decide (x.i.toNat < 1) && !x.u
  | .pany x => isPred x.d
  | .panyL x => isPred x.d && x.a == 0 && !x.au && x.b == 0 && !x.bu && isQ x.p && decide (x.i.toNat < 1) && !x.u
  | .pall x => isPred x.d
  | .pallL x => isPred x.d && x.a == 0 && !x.au && x.b == 0 && !x.bu && isQ x.p && decide (x.i.toNat < 1) && !x.u
  | .pmask _ => true
  | .pmaskL x => x.a == 0 && !x.au && x.b == 0 && !x.bu && isQ x.p && decide (x.i.toNat < 1)
  | .xgetAt _ => true
  | .xgetAtL x => x.p == 0 && decide (x.i.toNat < 1) && !x.u
  | .xgetFlip _ => true
  | .xgetFlipL x => x.p == 0 && decide (x.i.toNat < 1) && !x.u
  | .xgetStep _ => true
  | .xgetStepL x => x.p == 0 && decide (x.i.toNat < 1) && !x.u
  | .xgetRot _ => true
  | .xgetRotL x => x.p == 0 && decide (x.i.toNat < 1) && !x.u
  | .cnvq _ => true
  | .cnvqL x => x.d == 0 && x.a == 0 && !x.au && x.b == 0 && !x.bu && isQ x.p && decide (x.i.toNat < 1) && !x.u
  | .waitn _ => true
  | .waitnL x => x.d == 0 && x.a == 0 && !x.au && x.b == 0 && !x.bu && x.p == 0 && decide (x.i.toNat < 256) && !x.u
  | .setg _ => true
  | .setgL x => x.d == 0 && x.a == 0 && !x.au && x.b == 0 && !x.bu && isQ x.p && decide (x.i.toNat < 16) && !x.u
  | .clrg _ => true
  | .clrgL x => x.d == 0 && x.a == 0 && !x.au && x.b == 0 && !x.bu && x.p == 0 && decide (x.i.toNat < 16) && !x.u
  | .alw _ => true
  | .alwL x => x.b == 0 && !x.bu && x.p == 0 && decide (x.i.toNat < 1)
  | .mapget _ => true
  | .mapgetL x => x.a == 0 && !x.au && x.b == 0 && !x.bu && x.p == 0 && decide (x.i.toNat < 512) && decide (x.i.toNat / 32 ≤ 9)
  | .mapput _ => true
  | .mapputL x => x.d == 0 && x.b == 0 && !x.bu && x.p == 0 && decide (x.i.toNat < 512) && decide (x.i.toNat / 32 ≤ 9) && !x.u
  | .hget _ => true
  | .hgetL x => x.a == 0 && !x.au && x.b == 0 && !x.bu && x.p == 0 && decide (x.i.toNat < 16) && !x.u
  | .lget _ => true
  | .lgetL x => x.a == 0 && !x.au && x.b == 0 && !x.bu && x.p == 0 && decide (x.i.toNat < 32) && decide (x.i.toNat ≤ 18)
  | .lput _ => true
  | .lputL x => x.d == 0 && x.b == 0 && !x.bu && x.p == 0 && decide (x.i.toNat < 32) && decide (x.i.toNat ≤ 18) && !x.u
  | .csrr _ => true
  | .csrrL x => x.a == 0 && !x.au && x.b == 0 && !x.bu && x.p == 0 && decide (x.i.toNat < 4096)
  | .csrw _ => true
  | .csrwL x => x.d == 0 && x.b == 0 && !x.bu && x.p == 0 && decide (x.i.toNat < 4096) && !x.u
  | .csrs _ => true
  | .csrsL x => x.d == 0 && x.b == 0 && !x.bu && x.p == 0 && decide (x.i.toNat < 4096) && !x.u
  | .csrc _ => true
  | .csrcL x => x.d == 0 && x.b == 0 && !x.bu && x.p == 0 && decide (x.i.toNat < 4096) && !x.u
  | .tret _ => true
  | .tretL x => x.d == 0 && x.a == 0 && !x.au && x.b == 0 && !x.bu && x.p == 0 && decide (x.i.toNat < 1) && !x.u
  | .halt _ => true
  | .haltL x => x.d == 0 && x.a == 0 && !x.au && x.b == 0 && !x.bu && x.p == 0 && decide (x.i.toNat < 1) && !x.u
  | .icinv _ => true
  | .icinvL x => x.d == 0 && x.p == 0 && decide (x.i.toNat < 1) && !x.u
  | .tlbinvPage _ => true
  | .tlbinvPageL x => x.d == 0 && x.b == 0 && !x.bu && x.p == 0 && decide (x.i.toNat < 1) && !x.u
  | .tlbinvCtx x => x.d == 0 && x.b == 0 && !x.bu && x.p == 0 && x.i == 1 && !x.u
  | .tlbinvAll x => x.d == 0 && x.b == 0 && !x.bu && x.p == 0 && x.i == 2 && !x.u
  | .tlbprobe _ => true
  | .tlbprobeL x => x.b == 0 && !x.bu && x.p == 0 && decide (x.i.toNat < 1)
  | .cresize _ => true
  | .cresizeL x => x.d == 0 && x.b == 0 && !x.bu && x.p == 0 && decide (x.i.toNat < 1) && !x.u
  | .migDev _ => true
  | .migDevL x => x.d == 0 && x.b == 0 && !x.bu && x.p == 0 && decide (x.i.toNat < 1) && !x.u
  | .migHost x => x.d == 0 && x.b == 0 && !x.bu && x.p == 0 && x.i == 1 && !x.u
  | .pf _ => true
  | .pfL x => x.d == 0 && x.b == 0 && !x.bu && x.p == 0 && decide (x.i.toNat < 1) && !x.u
  | .tspawn _ => true
  | .tspawnL x => x.b == 0 && !x.bu && x.p == 0 && decide (x.i.toNat < 1) && !x.u
  | .tsig _ => true
  | .tsigL x => x.d == 0 && x.b == 0 && !x.bu && x.p == 0 && decide (x.i.toNat < 1) && !x.u
  | .evpost _ => true
  | .evpostL x => x.d == 0 && x.b == 0 && !x.bu && x.p == 0 && decide (x.i.toNat < 1) && !x.u
  | .evget _ => true
  | .evgetL x => x.a == 0 && !x.au && x.b == 0 && !x.bu && x.p == 0 && decide (x.i.toNat < 1)
  | .dbgmb _ => true
  | .dbgmbL x => x.d == 0 && x.b == 0 && !x.bu && x.p == 0 && decide (x.i.toNat < 16) && !x.u
  | .dbgrd _ => true
  | .dbgrdL x => x.a == 0 && !x.au && x.b == 0 && !x.bu && x.p == 0 && !x.u
  | .wpset _ => true
  | .wpsetL x => x.d == 0 && x.b == 0 && !x.bu && x.p == 0 && decide (x.i.toNat < 4) && !x.u
  | .hostMigrationRequest _ _ _ => true
  | .restartAnnouncement _ _ => true
  | .partialCreditReturn _ => true
  | .walkComplete _ _ => true
  | .divideResult _ => true
  | .chunkPeerLostTimeout _ _ => true

/-- The common fields of an instruction that has a guard; compact instructions and events have none (R181). -/
def Instr.hdr? : Instr → Option Hdr
  | .issueGroupSelection _ _ _ => none
  | .fixedLatencyResult _ _ => none
  | .convergenceRelease _ _ => none
  | .barrierCompletion _ _ _ _ => none
  | .barrierTimeout _ _ _ _ => none
  | .convergenceTimeout _ _ => none
  | .yieldExpiry _ _ => none
  | .courseWake _ _ => none
  | .trapDelivery _ _ => none
  | .taskDispatch _ _ => none
  | .dispatchReservation _ _ => none
  | .stealRequest _ => none
  | .stealShipment _ => none
  | .shipmentArrival _ => none
  | .taskEnd _ _ => none
  | .overflowRecord _ => none
  | .preempt _ _ _ _ _ _ _ _ _ => none
  | .preemptSave _ => none
  | .guardSlotHeadCheck _ _ => none
  | .kChunk _ _ => none
  | .writeBack _ => none
  | .copyTransfer _ _ => none
  | .accExecute _ => none
  | .commandRetire _ _ _ => none
  | .homeAccessPerform _ _ => none
  | .sectorFill _ _ _ => none
  | .missStatusAllocate _ => none
  | .loadReturn _ _ => none
  | .hodDrain _ _ => none
  | .hodAgeLimit _ _ => none
  | .phaseComplete _ _ => none
  | .fenceComplete _ _ => none
  | .releaseStoreProceed _ => none
  | .waitnComplete _ _ => none
  | .icinvComplete _ _ => none
  | .fetchbComplete _ _ => none
  | .cresizeComplete _ => none
  | .migrationStart _ => none
  | .migrationDeparture _ _ => none
  | .remotePacketArrival _ _ _ _ _ _ _ _ => none
  | .acknowledgementArrival _ _ _ _ _ _ => none
  | .closedVectorUpdate _ _ => none
  | .refusalArrival _ _ _ _ => none
  | .restartRefusal _ _ => none
  | .retransmission _ _ _ _ => none
  | .destinationLost _ _ => none
  | .allowanceCollapse _ _ => none
  | .expressStarvationToken _ _ => none
  | .tierStarvationGrant _ _ => none
  | .linkTraining _ _ _ => none
  | .flitCrcReplay _ _ => none
  | .linkRetrain _ _ _ => none
  | .portUp _ => none
  | .ringCheck _ _ => none
  | .ringCheckAnswer _ _ => none
  | .ringSetupTimeout _ => none
  | .chunkStart _ _ _ _ => none
  | .partialArrival _ _ _ _ _ _ _ _ _ => none
  | .resultArrival _ _ _ _ _ _ _ _ _ => none
  | .throttleRequest _ _ _ => none
  | .throttleStepUp => none
  | .hostLinkBringup => none
  | .launch _ _ _ _ _ => none
  | .release _ _ _ _ _ _ => none
  | .writeMemory _ _ _ _ _ _ _ _ => none
  | .readMemory _ _ _ _ _ _ _ _ => none
  | .queueControl _ _ _ _ _ _ _ => none
  | .routeEntry _ _ _ _ _ _ => none
  | .ringSetup _ _ _ _ _ _ _ => none
  | .bindResult _ _ _ _ _ _ _ _ _ => none
  | .trapResume _ _ _ _ _ _ _ _ => none
  | .codeTable _ _ _ _ _ _ => none
  | .attest _ _ _ _ _ => none
  | .ringBind _ _ _ _ _ _ _ => none
  | .syscallReply _ _ _ _ _ => none
  | .mailboxMessage _ _ _ => none
  | .pageMessage _ _ _ _ => none
  | .ownMessage _ _ _ _ => none
  | .nak _ _ => none
  | .resync _ _ _ _ => none
  | .resyncReply _ _ _ _ => none
  | .keepalive _ => none
  | .hostRetransmit => none
  | .hostLinkLost => none
  | .codeTableEntryJump => none
  | .hardwareBind _ _ _ => none
  | .dbgctlHalt _ _ => none
  | .dbgctlUnhalt _ _ => none
  | .dbgctlStep _ _ => none
  | .ilenWrite _ _ => none
  | .mailboxSend => none
  | .dutyWrite _ _ => none
  | .registerWrite _ _ => none
  | .boot _ _ _ _ _ => none
  | .sensorSample _ _ => none
  | .throttleRepeat _ _ => none
  | .refreshBandEvaluation _ => none
  | .telemetryRecord => none
  | .thermalTrip _ => none
  | .moduleReboot => none
  | .scrub _ _ _ => none
  | .movC _ => none
  | .iaddC _ => none
  | .isubC _ => none
  | .imulC _ => none
  | .andC _ => none
  | .orC _ => none
  | .xorC _ => none
  | .shlC _ => none
  | .shrNC _ => none
  | .shrIC _ => none
  | .faddC _ => none
  | .fsubC _ => none
  | .fmulC _ => none
  | .fmaxC _ => none
  | .fminC _ => none
  | .iaddi5C _ => none
  | .nopC => none
  | .iadd x => some x.h
  | .iaddL x => some x.r.h
  | .isub x => some x.h
  | .isubL x => some x.r.h
  | .imul x => some x.h
  | .imulL x => some x.r.h
  | .imulhI x => some x.h
  | .imulhIL x => some x.r.h
  | .imulhN x => some x.h
  | .imulhNL x => some x.r.h
  | .imac x => some x.h
  | .imacL x => some x.r.h
  | .iminI x => some x.h
  | .iminIL x => some x.r.h
  | .iminN x => some x.h
  | .iminNL x => some x.r.h
  | .imaxI x => some x.h
  | .imaxIL x => some x.r.h
  | .imaxN x => some x.h
  | .imaxNL x => some x.r.h
  | .iabsd x => some x.h
  | .iabsdL x => some x.r.h
  | .and x => some x.h
  | .andL x => some x.r.h
  | .or x => some x.h
  | .orL x => some x.r.h
  | .xor x => some x.h
  | .xorL x => some x.r.h
  | .andn x => some x.h
  | .andnL x => some x.r.h
  | .mov x => some x.h
  | .movL x => some x.r.h
  | .shl x => some x.h
  | .shlL x => some x.r.h
  | .shrN x => some x.h
  | .shrNL x => some x.r.h
  | .shrI x => some x.h
  | .shrIL x => some x.r.h
  | .clz x => some x.h
  | .clzL x => some x.r.h
  | .popc x => some x.h
  | .popcL x => some x.r.h
  | .bfxN x => some x.h
  | .bfxNL x => some x.r.h
  | .bfxI x => some x.h
  | .bfxIL x => some x.r.h
  | .bfi x => some x.h
  | .bfiL x => some x.r.h
  | .perm x => some x.h
  | .permL x => some x.r.h
  | .icmpEq x => some x.h
  | .icmpEqL x => some x.r.h
  | .icmpNe x => some x.h
  | .icmpNeL x => some x.r.h
  | .icmpLtI x => some x.h
  | .icmpLtIL x => some x.r.h
  | .icmpLeI x => some x.h
  | .icmpLeIL x => some x.r.h
  | .icmpLtN x => some x.h
  | .icmpLtNL x => some x.r.h
  | .icmpLeN x => some x.h
  | .icmpLeNL x => some x.r.h
  | .qlopAnd x => some x.h
  | .qlopOr x => some x.h
  | .qlopXor x => some x.h
  | .qlopAndn x => some x.h
  | .ladd x => some x.h
  | .laddL x => some x.r.h
  | .lsub x => some x.h
  | .lsubL x => some x.r.h
  | .lmul x => some x.h
  | .lmulL x => some x.r.h
  | .lmac x => some x.h
  | .lmacL x => some x.r.h
  | .lshl x => some x.h
  | .lshlL x => some x.r.h
  | .lshrN x => some x.h
  | .lshrNL x => some x.r.h
  | .lshrI x => some x.h
  | .lshrIL x => some x.r.h
  | .lextI x => some x.h
  | .lextIL x => some x.r.h
  | .lextN x => some x.h
  | .lextNL x => some x.r.h
  | .lcmpEq x => some x.h
  | .lcmpEqL x => some x.r.h
  | .lcmpNe x => some x.h
  | .lcmpNeL x => some x.r.h
  | .lcmpLtI x => some x.h
  | .lcmpLtIL x => some x.r.h
  | .lcmpLtN x => some x.h
  | .lcmpLtNL x => some x.r.h
  | .lea2 x => some x.h
  | .lea2L x => some x.r.h
  | .lea3 x => some x.h
  | .lea3L x => some x.r.h
  | .lea4 x => some x.h
  | .lea4L x => some x.r.h
  | .fadd x => some x.h
  | .faddL x => some x.r.h
  | .fsub x => some x.h
  | .fsubL x => some x.r.h
  | .fmul x => some x.h
  | .fmulL x => some x.r.h
  | .ffma x => some x.h
  | .ffmaL x => some x.r.h
  | .fmin x => some x.h
  | .fminL x => some x.r.h
  | .fmax x => some x.h
  | .fmaxL x => some x.r.h
  | .fcmpEq x => some x.h
  | .fcmpEqL x => some x.r.h
  | .fcmpNe x => some x.h
  | .fcmpNeL x => some x.r.h
  | .fcmpLt x => some x.h
  | .fcmpLtL x => some x.r.h
  | .fcmpLe x => some x.h
  | .fcmpLeL x => some x.r.h
  | .fsfu x => some x.h
  | .fsfuL x => some x.r.h
  | .hadd2F16 x => some x.h
  | .hadd2F16L x => some x.r.h
  | .hmul2F16 x => some x.h
  | .hmul2F16L x => some x.r.h
  | .hfma2F16 x => some x.h
  | .hfma2F16L x => some x.r.h
  | .hfma2Bf16 x => some x.h
  | .hfma2Bf16L x => some x.r.h
  | .hadd2Bf16 x => some x.h
  | .hadd2Bf16L x => some x.r.h
  | .cvt x => some x.h
  | .cvtL x => some x.r.h
  | .cvtp x => some x.h
  | .cvtpL x => some x.r.h
  | .iaddi x => some x.h
  | .iaddiL x => some x.h
  | .andi x => some x.h
  | .andiL x => some x.h
  | .ori x => some x.h
  | .oriL x => some x.h
  | .xori x => some x.h
  | .xoriL x => some x.h
  | .shli x => some x.h
  | .shliL x => some x.h
  | .shriN x => some x.h
  | .shriNL x => some x.h
  | .shriI x => some x.h
  | .shriIL x => some x.h
  | .movi x => some x.h
  | .moviL x => some x.h
  | .movhi x => some x.h
  | .movhiL x => some x.h
  | .icmpiEq x => some x.h
  | .icmpiEqL x => some x.h
  | .icmpiLtI x => some x.h
  | .icmpiLtIL x => some x.h
  | .fmovi x => some x.h
  | .fmoviL x => some x.h
  | .ld x => some x.h
  | .ldL x => some x.r.h
  | .st x => some x.h
  | .stL x => some x.r.h
  | .atomAdd x => some x.h
  | .atomAddL x => some x.r.h
  | .atomFadd x => some x.h
  | .atomFaddL x => some x.r.h
  | .atomMin x => some x.h
  | .atomMinL x => some x.r.h
  | .atomMax x => some x.h
  | .atomMaxL x => some x.r.h
  | .atomAnd x => some x.h
  | .atomAndL x => some x.r.h
  | .atomOr x => some x.h
  | .atomOrL x => some x.r.h
  | .atomXor x => some x.h
  | .atomXorL x => some x.r.h
  | .atomExch x => some x.h
  | .atomExchL x => some x.r.h
  | .atomCas x => some x.h
  | .atomCasL x => some x.r.h
  | .fenceFull x => some x.h
  | .fenceAcq x => some x.h
  | .fenceRel x => some x.h
  | .fenceWack x => some x.h
  | .phase x => some x.h
  | .fetchb x => some x.h
  | .copInv x => some x.h
  | .copInvL x => some x.r.h
  | .copWb x => some x.h
  | .copWbL x => some x.r.h
  | .copWbi x => some x.h
  | .copWbiL x => some x.r.h
  | .bra x => some x.h
  | .braL x => some x.h
  | .brx x => some x.h
  | .brxL x => some x.r.h
  | .call x => some x.h
  | .callL x => some x.h
  | .callx x => some x.h
  | .callxL x => some x.r.h
  | .ret x => some x.h
  | .exit x => some x.h
  | .loop x => some x.h
  | .loopL x => some x.h
  | .brk x => some x.h
  | .lcfg x => some x.h
  | .cnv x => some x.h
  | .cnvMask x => some x.h
  | .bar x => some x.h
  | .trap x => some x.h
  | .sysc x => some x.h
  | .bkpt x => some x.h
  | .balw x => some x.h
  | .yield x => some x.h
  | .mapset x => some x.h
  | .mapchn x => some x.h
  | .mapprt x => some x.h
  | .maptrn x => some x.h
  | .mapflt x => some x.h
  | .mapchk x => some x.h
  | .bankq x => some x.h
  | .hset x => some x.h
  | .tcpy x => some x.h
  | .tmma x => some x.h
  | .tgat x => some x.h
  | .tcol x => some x.h
  | .tld x => some x.h
  | .tst x => some x.h
  | .accZero x => some x.h
  | .accZeroL x => some x.r.h
  | .accSetexp x => some x.h
  | .accSetexpL x => some x.r.h
  | .accRdrow x => some x.h
  | .accRdrowL x => some x.r.h
  | .accWrrow x => some x.h
  | .accWrrowL x => some x.r.h
  | .accClrst x => some x.h
  | .accClrstL x => some x.r.h
  | .nop x => some x.h
  | .nopL x => some x.h
  | .idivI x => some x.h
  | .idivIL x => some x.h
  | .idivN x => some x.h
  | .idivNL x => some x.h
  | .iremI x => some x.h
  | .iremIL x => some x.h
  | .iremN x => some x.h
  | .iremNL x => some x.h
  | .rotl x => some x.h
  | .rotlL x => some x.h
  | .brev x => some x.h
  | .brevL x => some x.h
  | .fcmpOrd x => some x.h
  | .fcmpOrdL x => some x.h
  | .fcmpUnord x => some x.h
  | .fcmpUnordL x => some x.h
  | .fclass x => some x.h
  | .fclassL x => some x.h
  | .frnd x => some x.h
  | .frndL x => some x.h
  | .fexp x => some x.h
  | .fexpL x => some x.h
  | .q2v x => some x.h
  | .q2vL x => some x.h
  | .v2q x => some x.h
  | .v2qL x => some x.h
  | .qpop x => some x.h
  | .qpopL x => some x.h
  | .pfirst x => some x.h
  | .pfirstL x => some x.h
  | .pany x => some x.h
  | .panyL x => some x.h
  | .pall x => some x.h
  | .pallL x => some x.h
  | .pmask x => some x.h
  | .pmaskL x => some x.h
  | .xgetAt x => some x.h
  | .xgetAtL x => some x.h
  | .xgetFlip x => some x.h
  | .xgetFlipL x => some x.h
  | .xgetStep x => some x.h
  | .xgetStepL x => some x.h
  | .xgetRot x => some x.h
  | .xgetRotL x => some x.h
  | .cnvq x => some x.h
  | .cnvqL x => some x.h
  | .waitn x => some x.h
  | .waitnL x => some x.h
  | .setg x => some x.h
  | .setgL x => some x.h
  | .clrg x => some x.h
  | .clrgL x => some x.h
  | .alw x => some x.h
  | .alwL x => some x.h
  | .mapget x => some x.h
  | .mapgetL x => some x.h
  | .mapput x => some x.h
  | .mapputL x => some x.h
  | .hget x => some x.h
  | .hgetL x => some x.h
  | .lget x => some x.h
  | .lgetL x => some x.h
  | .lput x => some x.h
  | .lputL x => some x.h
  | .csrr x => some x.h
  | .csrrL x => some x.h
  | .csrw x => some x.h
  | .csrwL x => some x.h
  | .csrs x => some x.h
  | .csrsL x => some x.h
  | .csrc x => some x.h
  | .csrcL x => some x.h
  | .tret x => some x.h
  | .tretL x => some x.h
  | .halt x => some x.h
  | .haltL x => some x.h
  | .icinv x => some x.h
  | .icinvL x => some x.h
  | .tlbinvPage x => some x.h
  | .tlbinvPageL x => some x.h
  | .tlbinvCtx x => some x.h
  | .tlbinvAll x => some x.h
  | .tlbprobe x => some x.h
  | .tlbprobeL x => some x.h
  | .cresize x => some x.h
  | .cresizeL x => some x.h
  | .migDev x => some x.h
  | .migDevL x => some x.h
  | .migHost x => some x.h
  | .pf x => some x.h
  | .pfL x => some x.h
  | .tspawn x => some x.h
  | .tspawnL x => some x.h
  | .tsig x => some x.h
  | .tsigL x => some x.h
  | .evpost x => some x.h
  | .evpostL x => some x.h
  | .evget x => some x.h
  | .evgetL x => some x.h
  | .dbgmb x => some x.h
  | .dbgmbL x => some x.h
  | .dbgrd x => some x.h
  | .dbgrdL x => some x.h
  | .wpset x => some x.h
  | .wpsetL x => some x.h
  | .hostMigrationRequest _ _ _ => none
  | .restartAnnouncement _ _ => none
  | .partialCreditReturn _ => none
  | .walkComplete _ _ => none
  | .divideResult _ => none
  | .chunkPeerLostTimeout _ _ => none

/-- The guard is not one that R187 gives trap 0x02. -/
def Instr.guardOk (i : Instr) : Bool := match i.hdr? with
  | some h => h.guardOk
  | none => true

/-- An instruction some encoding stands for: the field rules hold and the guard is not reserved. -/
def Instr.wellFormed (i : Instr) : Bool := i.fieldsOk && i.guardOk

end Sys2Proof
end

