-- ==== Sys2Proof/Decode.lean ====
section
/-! DEFINITION. The decoder and the encoder (R172 to R187). A word is a natural number whose bit 0 is the least
significant bit of its first parcel (R172); `w` is the first word of an instruction and `v` its second. -/

namespace Sys2Proof

/-- The field of width `n` whose low bit is `lo` (R3). -/
def fld (w lo n : Nat) : BitVec n := BitVec.ofNat n (w / 2 ^ lo)

/-- One bit as a truth value. -/
def bitAt (w k : Nat) : Bool := decide (w / 2 ^ k % 2 = 1)

/-- The fields of R174. -/
def unHdr (w : Nat) : Hdr := { n := bitAt w 8, g := fld w 4 4, s := fld w 2 2 }

/-- The first parcel of an instruction word (R174). -/
def enHdr (h : Hdr) (op len : Nat) : Nat :=
  len + 4 * h.s.toNat + 16 * h.g.toNat + 256 * h.n.toNat + 512 * op

/-- The fields of R181. -/
def unCReg (p : Nat) : CReg := { u := bitAt p 15, a := fld p 10 5, d := fld p 5 5 }

/-- A compact parcel (R181). -/
def enCReg (x : CReg) (op : Nat) : Nat := 2 * op + 32 * x.d.toNat + 1024 * x.a.toNat + 32768 * x.u.toNat

/-- The fields of `iaddi5` (R181). -/
def unCImm (p : Nat) : CImm := { i := fld p 10 5, d := fld p 5 5 }

/-- The parcel of `iaddi5` (R181). -/
def enCImm (x : CImm) : Nat := 30 + 32 * x.d.toNat + 1024 * x.i.toNat

/-- The fields of the modifier word (R178). -/
def unModifier (v : Nat) : Modifier :=
  { au := bitAt v 25, du := bitAt v 24, rnd := fld v 22 2, cu := bitAt v 21, cp := bitAt v 20, c := fld v 15 5,
    k := fld v 7 8, negd := bitAt v 6, absb := bitAt v 5, absa := bitAt v 4, negb := bitAt v 3, nega := bitAt v 2,
    sat := fld v 0 2 }

/-- The modifier word (R178). -/
def enModifier (m : Modifier) : Nat :=
  m.sat.toNat + 4 * m.nega.toNat + 8 * m.negb.toNat + 16 * m.absa.toNat + 32 * m.absb.toNat + 64 * m.negd.toNat +
    128 * m.k.toNat + 32768 * m.c.toNat + 1048576 * m.cp.toNat + 2097152 * m.cu.toNat + 4194304 * m.rnd.toNat +
    16777216 * m.du.toNat + 33554432 * m.au.toNat

/-- The extension word (R185). -/
def enExt (x : E64) : Nat :=
  x.a.toNat + 32 * x.b.toNat + 1024 * x.au.toNat + 2048 * x.bu.toNat + 4096 * x.p.toNat + 65536 * x.i.toNat

/-- The fields of format `R3` (R176). -/
def unR3 (w : Nat) : R3 := { h := unHdr w, u := bitAt w 31, b := fld w 26 5, a := fld w 21 5, d := fld w 16 5 }

/-- The first word of format `R3` (R176). -/
def enR3 (x : R3) (op len : Nat) : Nat :=
  enHdr x.h op len + 2147483648 * x.u.toNat + 67108864 * x.b.toNat + 2097152 * x.a.toNat + 65536 * x.d.toNat

/-- The fields of format `R1` (R176). -/
def unR1 (w : Nat) : R1 := { h := unHdr w, a := fld w 21 5, d := fld w 16 5 }

/-- The first word of format `R1` (R176). -/
def enR1 (x : R1) (op len : Nat) : Nat :=
  enHdr x.h op len + 2097152 * x.a.toNat + 65536 * x.d.toNat

/-- The fields of format `Rf` (R176). -/
def unRf (w : Nat) : Rf := { h := unHdr w, f := fld w 26 5, a := fld w 21 5, d := fld w 16 5 }

/-- The first word of format `Rf` (R176). -/
def enRf (x : Rf) (op len : Nat) : Nat :=
  enHdr x.h op len + 67108864 * x.f.toNat + 2097152 * x.a.toNat + 65536 * x.d.toNat

/-- The fields of format `Ql` (R176). -/
def unQl (w : Nat) : Ql := { h := unHdr w, b := fld w 26 4, a := fld w 21 4, d := fld w 16 4 }

/-- The first word of format `Ql` (R176). -/
def enQl (x : Ql) (op len : Nat) : Nat :=
  enHdr x.h op len + 67108864 * x.b.toNat + 2097152 * x.a.toNat + 65536 * x.d.toNat

/-- The fields of format `Im` (R176). -/
def unIm (w : Nat) : Im := { h := unHdr w, i := fld w 26 6, a := fld w 21 5, d := fld w 16 5 }

/-- The first word of format `Im` (R176). -/
def enIm (x : Im) (op len : Nat) : Nat :=
  enHdr x.h op len + 67108864 * x.i.toNat + 2097152 * x.a.toNat + 65536 * x.d.toNat

/-- The fields of format `Km` (R176). -/
def unKm (w : Nat) : Km := { h := unHdr w, i := fld w 21 11, d := fld w 16 5 }

/-- The first word of format `Km` (R176). -/
def enKm (x : Km) (op len : Nat) : Nat :=
  enHdr x.h op len + 2097152 * x.i.toNat + 65536 * x.d.toNat

/-- The fields of format `Me` (R176). -/
def unMe (w : Nat) : Me := { h := unHdr w, o := bitAt w 31, p := fld w 29 2, w := fld w 26 3, a := fld w 21 5, d := fld w 16 5 }

/-- The first word of format `Me` (R176). -/
def enMe (x : Me) (op len : Nat) : Nat :=
  enHdr x.h op len + 2147483648 * x.o.toNat + 536870912 * x.p.toNat + 67108864 * x.w.toNat + 2097152 * x.a.toNat + 65536 * x.d.toNat

/-- The fields of format `Sc` (R176). -/
def unSc (w : Nat) : Sc := { h := unHdr w, p := fld w 21 3 }

/-- The first word of format `Sc` (R176). -/
def enSc (x : Sc) (op len : Nat) : Nat :=
  enHdr x.h op len + 2097152 * x.p.toNat

/-- The fields of format `H0` (R176). -/
def unH0 (w : Nat) : H0 := { h := unHdr w }

/-- The first word of format `H0` (R176). -/
def enH0 (x : H0) (op len : Nat) : Nat :=
  enHdr x.h op len

/-- The fields of format `A1` (R176). -/
def unA1 (w : Nat) : A1 := { h := unHdr w, a := fld w 21 5 }

/-- The first word of format `A1` (R176). -/
def enA1 (x : A1) (op len : Nat) : Nat :=
  enHdr x.h op len + 2097152 * x.a.toNat

/-- The fields of format `I16` (R176). -/
def unI16 (w : Nat) : I16 := { h := unHdr w, i := fld w 16 16 }

/-- The first word of format `I16` (R176). -/
def enI16 (x : I16) (op len : Nat) : Nat :=
  enHdr x.h op len + 65536 * x.i.toNat

/-- The fields of format `Lo` (R176). -/
def unLo (w : Nat) : Lo := { h := unHdr w, e := fld w 22 10, u := bitAt w 21, t := fld w 16 5 }

/-- The first word of format `Lo` (R176). -/
def enLo (x : Lo) (op len : Nat) : Nat :=
  enHdr x.h op len + 4194304 * x.e.toNat + 2097152 * x.u.toNat + 65536 * x.t.toNat

/-- The fields of format `Lc` (R176). -/
def unLc (w : Nat) : Lc := { h := unHdr w, k := fld w 26 2, z := fld w 21 5 }

/-- The first word of format `Lc` (R176). -/
def enLc (x : Lc) (op len : Nat) : Nat :=
  enHdr x.h op len + 67108864 * x.k.toNat + 2097152 * x.z.toNat

/-- The fields of format `D1` (R176). -/
def unD1 (w : Nat) : D1 := { h := unHdr w, d := fld w 16 5 }

/-- The first word of format `D1` (R176). -/
def enD1 (x : D1) (op len : Nat) : Nat :=
  enHdr x.h op len + 65536 * x.d.toNat

/-- The fields of format `Ba` (R176). -/
def unBa (w : Nat) : Ba := { h := unHdr w, i := fld w 21 11, p := fld w 16 3 }

/-- The first word of format `Ba` (R176). -/
def enBa (x : Ba) (op len : Nat) : Nat :=
  enHdr x.h op len + 2097152 * x.i.toNat + 65536 * x.p.toNat

/-- The fields of format `N11` (R176). -/
def unN11 (w : Nat) : N11 := { h := unHdr w, i := fld w 21 11 }

/-- The first word of format `N11` (R176). -/
def enN11 (x : N11) (op len : Nat) : Nat :=
  enHdr x.h op len + 2097152 * x.i.toNat

/-- The fields of format `Ms` (R176). -/
def unMs (w : Nat) : Ms := { h := unHdr w, b := fld w 26 5, d := fld w 16 5 }

/-- The first word of format `Ms` (R176). -/
def enMs (x : Ms) (op len : Nat) : Nat :=
  enHdr x.h op len + 67108864 * x.b.toNat + 65536 * x.d.toNat

/-- The fields of format `M3` (R176). -/
def unM3 (w : Nat) : M3 := { h := unHdr w, b := fld w 26 5, a := fld w 21 5, d := fld w 16 5 }

/-- The first word of format `M3` (R176). -/
def enM3 (x : M3) (op len : Nat) : Nat :=
  enHdr x.h op len + 67108864 * x.b.toNat + 2097152 * x.a.toNat + 65536 * x.d.toNat

/-- The fields of format `Vh` (R176). -/
def unVh (w : Nat) : Vh := { h := unHdr w, v := fld w 25 5, hd := fld w 16 4 }

/-- The first word of format `Vh` (R176). -/
def enVh (x : Vh) (op len : Nat) : Nat :=
  enHdr x.h op len + 33554432 * x.v.toNat + 65536 * x.hd.toNat

/-- The fields of format `V1` (R176). -/
def unV1 (w : Nat) : V1 := { h := unHdr w, v := fld w 25 5 }

/-- The first word of format `V1` (R176). -/
def enV1 (x : V1) (op len : Nat) : Nat :=
  enHdr x.h op len + 33554432 * x.v.toNat

/-- The fields of format `Hh` (R176). -/
def unHh (w : Nat) : Hh := { h := unHdr w, hd := fld w 16 4 }

/-- The first word of format `Hh` (R176). -/
def enHh (x : Hh) (op len : Nat) : Nat :=
  enHdr x.h op len + 65536 * x.hd.toNat

/-- The fields of format `Ed` (R176). -/
def unEd (w : Nat) : Ed := { h := unHdr w, u := bitAt w 31, d := fld w 16 5 }

/-- The first word of format `Ed` (R176). -/
def enEd (x : Ed) (op len : Nat) : Nat :=
  enHdr x.h op len + 2147483648 * x.u.toNat + 65536 * x.d.toNat

/-- The fields of format `Im64` (R176). -/
def unIm64 (w v : Nat) : Im64 := { h := unHdr w, a := fld w 21 5, d := fld w 16 5, i := fld v 0 32 }

/-- The first word of format `Im64` (R176). -/
def enIm64 (x : Im64) (op len : Nat) : Nat :=
  enHdr x.h op len + 2097152 * x.a.toNat + 65536 * x.d.toNat

/-- The fields of format `Km64` (R176). -/
def unKm64 (w v : Nat) : Km64 := { h := unHdr w, d := fld w 16 5, i := fld v 0 32 }

/-- The first word of format `Km64` (R176). -/
def enKm64 (x : Km64) (op len : Nat) : Nat :=
  enHdr x.h op len + 65536 * x.d.toNat

/-- The fields of format `I16l` (R176). -/
def unI16l (w v : Nat) : I16l := { h := unHdr w, i := fld v 0 32 }

/-- The first word of format `I16l` (R176). -/
def enI16l (x : I16l) (op len : Nat) : Nat :=
  enHdr x.h op len

/-- The fields of format `Lo64` (R176). -/
def unLo64 (w v : Nat) : Lo64 := { h := unHdr w, u := bitAt w 21, t := fld w 16 5, e := fld v 0 32 }

/-- The first word of format `Lo64` (R176). -/
def enLo64 (x : Lo64) (op len : Nat) : Nat :=
  enHdr x.h op len + 2097152 * x.u.toNat + 65536 * x.t.toNat

/-- The fields of format `Bw` (R176). -/
def unBw (w v : Nat) : Bw := { h := unHdr w, a := fld w 21 5, i := fld v 0 32 }

/-- The first word of format `Bw` (R176). -/
def enBw (x : Bw) (op len : Nat) : Nat :=
  enHdr x.h op len + 2097152 * x.a.toNat

/-- The fields of format `Tq` (R176). -/
def unTq (w v : Nat) : Tq := { h := unHdr w, x := fld w 30 2, v := fld w 25 5, m := fld w 20 5, hd := fld w 16 4, k := fld v 0 3 }

/-- The first word of format `Tq` (R176). -/
def enTq (x : Tq) (op len : Nat) : Nat :=
  enHdr x.h op len + 1073741824 * x.x.toNat + 33554432 * x.v.toNat + 1048576 * x.m.toNat + 65536 * x.hd.toNat

/-- The fields of format `Tl` (R176). -/
def unTl (w v : Nat) : Tl := { h := unHdr w, v := fld w 25 5, m := fld w 20 5, hd := fld w 16 4, rh := fld v 0 4, rl := fld v 4 5 }

/-- The first word of format `Tl` (R176). -/
def enTl (x : Tl) (op len : Nat) : Nat :=
  enHdr x.h op len + 33554432 * x.v.toNat + 1048576 * x.m.toNat + 65536 * x.hd.toNat

/-- The fields of format `E64` (R176). -/
def unE64 (w v : Nat) : E64 := { h := unHdr w, u := bitAt w 31, d := fld w 16 5, i := fld v 16 16, p := fld v 12 4, bu := bitAt v 11, au := bitAt v 10, b := fld v 5 5, a := fld v 0 5 }

/-- The first word of format `E64` (R176). -/
def enE64 (x : E64) (op len : Nat) : Nat :=
  enHdr x.h op len + 2147483648 * x.u.toNat + 65536 * x.d.toNat

/-- The encodings: one name for each row of the table of operations that has bits. The decoder first finds the
name and then the operands. -/
inductive Op where
  | movC | iaddC | isubC | imulC | andC | orC | xorC | shlC
  | shrNC | shrIC | faddC | fsubC | fmulC | fmaxC | fminC | iaddi5C
  | nopC | iadd | iaddL | isub | isubL | imul | imulL | imulhI
  | imulhIL | imulhN | imulhNL | imac | imacL | iminI | iminIL | iminN
  | iminNL | imaxI | imaxIL | imaxN | imaxNL | iabsd | iabsdL | and
  | andL | or | orL | xor | xorL | andn | andnL | mov
  | movL | shl | shlL | shrN | shrNL | shrI | shrIL | clz
  | clzL | popc | popcL | bfxN | bfxNL | bfxI | bfxIL | bfi
  | bfiL | perm | permL | icmpEq | icmpEqL | icmpNe | icmpNeL | icmpLtI
  | icmpLtIL | icmpLeI | icmpLeIL | icmpLtN | icmpLtNL | icmpLeN | icmpLeNL | qlopAnd
  | qlopOr | qlopXor | qlopAndn | ladd | laddL | lsub | lsubL | lmul
  | lmulL | lmac | lmacL | lshl | lshlL | lshrN | lshrNL | lshrI
  | lshrIL | lextI | lextIL | lextN | lextNL | lcmpEq | lcmpEqL | lcmpNe
  | lcmpNeL | lcmpLtI | lcmpLtIL | lcmpLtN | lcmpLtNL | lea2 | lea2L | lea3
  | lea3L | lea4 | lea4L | fadd | faddL | fsub | fsubL | fmul
  | fmulL | ffma | ffmaL | fmin | fminL | fmax | fmaxL | fcmpEq
  | fcmpEqL | fcmpNe | fcmpNeL | fcmpLt | fcmpLtL | fcmpLe | fcmpLeL | fsfu
  | fsfuL | hadd2F16 | hadd2F16L | hmul2F16 | hmul2F16L | hfma2F16 | hfma2F16L | hfma2Bf16
  | hfma2Bf16L | hadd2Bf16 | hadd2Bf16L | cvt | cvtL | cvtp | cvtpL | iaddi
  | iaddiL | andi | andiL | ori | oriL | xori | xoriL | shli
  | shliL | shriN | shriNL | shriI | shriIL | movi | moviL | movhi
  | movhiL | icmpiEq | icmpiEqL | icmpiLtI | icmpiLtIL | fmovi | fmoviL | ld
  | ldL | st | stL | atomAdd | atomAddL | atomFadd | atomFaddL | atomMin
  | atomMinL | atomMax | atomMaxL | atomAnd | atomAndL | atomOr | atomOrL | atomXor
  | atomXorL | atomExch | atomExchL | atomCas | atomCasL | fenceFull | fenceAcq | fenceRel
  | fenceWack | phase | fetchb | copInv | copInvL | copWb | copWbL | copWbi
  | copWbiL | bra | braL | brx | brxL | call | callL | callx
  | callxL | ret | exit | loop | loopL | brk | lcfg | cnv
  | cnvMask | bar | trap | sysc | bkpt | balw | yield | mapset
  | mapchn | mapprt | maptrn | mapflt | mapchk | bankq | hset | tcpy
  | tmma | tgat | tcol | tld | tst | accZero | accZeroL | accSetexp
  | accSetexpL | accRdrow | accRdrowL | accWrrow | accWrrowL | accClrst | accClrstL | nop
  | nopL | idivI | idivIL | idivN | idivNL | iremI | iremIL | iremN
  | iremNL | rotl | rotlL | brev | brevL | fcmpOrd | fcmpOrdL | fcmpUnord
  | fcmpUnordL | fclass | fclassL | frnd | frndL | fexp | fexpL | q2v
  | q2vL | v2q | v2qL | qpop | qpopL | pfirst | pfirstL | pany
  | panyL | pall | pallL | pmask | pmaskL | xgetAt | xgetAtL | xgetFlip
  | xgetFlipL | xgetStep | xgetStepL | xgetRot | xgetRotL | cnvq | cnvqL | waitn
  | waitnL | setg | setgL | clrg | clrgL | alw | alwL | mapget
  | mapgetL | mapput | mapputL | hget | hgetL | lget | lgetL | lput
  | lputL | csrr | csrrL | csrw | csrwL | csrs | csrsL | csrc
  | csrcL | tret | tretL | halt | haltL | icinv | icinvL | tlbinvPage
  | tlbinvPageL | tlbinvCtx | tlbinvAll | tlbprobe | tlbprobeL | cresize | cresizeL | migDev
  | migDevL | migHost | pf | pfL | tspawn | tspawnL | tsig | tsigL
  | evpost | evpostL | evget | evgetL | dbgmb | dbgmbL | dbgrd | dbgrdL
  | wpset | wpsetL
  deriving DecidableEq, Repr

/-- The compact instruction a parcel stands for (R181). -/
def op16 (p : Nat) : Option Op :=
  if p = 32798 then some .nopC
  else match p / 2 % 16 with
  | 0 => some .movC
  | 1 => some .iaddC
  | 2 => some .isubC
  | 3 => some .imulC
  | 4 => some .andC
  | 5 => some .orC
  | 6 => some .xorC
  | 7 => some .shlC
  | 8 => some .shrNC
  | 9 => some .shrIC
  | 10 => some .faddC
  | 11 => some .fsubC
  | 12 => some .fmulC
  | 13 => some .fmaxC
  | 14 => some .fminC
  | 15 => if p / 32768 = 0 then some .iaddi5C else none
  | _ => none

/-- The 32-bit form of a function of the secondary space (R185, R186). -/
def opExt32 (w : Nat) : Option Op :=
  match w / 2097152 % 1024 with
  | 0 => if w / 2147483648 = 0 ∧ w / 65536 % 32 = 0 then some .nop else none
  | 1 => some .idivI
  | 2 => some .idivN
  | 3 => some .iremI
  | 4 => some .iremN
  | 5 => some .rotl
  | 6 => some .brev
  | 7 => if w / 2147483648 = 0 then some .fcmpOrd else none
  | 8 => if w / 2147483648 = 0 then some .fcmpUnord else none
  | 9 => some .fclass
  | 10 => some .frnd
  | 11 => some .fexp
  | 64 => if w / 2147483648 = 0 then some .q2v else none
  | 65 => if w / 2147483648 = 0 ∧ w / 65536 % 32 = 0 then some .v2q else none
  | 66 => some .qpop
  | 67 => if w / 2147483648 = 0 then some .pfirst else none
  | 68 => if w / 2147483648 = 0 then some .pany else none
  | 69 => if w / 2147483648 = 0 then some .pall else none
  | 70 => some .pmask
  | 71 => if w / 2147483648 = 0 then some .xgetAt else none
  | 72 => if w / 2147483648 = 0 then some .xgetFlip else none
  | 73 => if w / 2147483648 = 0 then some .xgetStep else none
  | 74 => if w / 2147483648 = 0 then some .xgetRot else none
  | 75 => if w / 2147483648 = 0 ∧ w / 65536 % 32 = 0 then some .cnvq else none
  | 128 => if w / 2147483648 = 0 ∧ w / 65536 % 32 = 0 then some .waitn else none
  | 129 => if w / 2147483648 = 0 ∧ w / 65536 % 32 = 0 then some .setg else none
  | 130 => if w / 2147483648 = 0 ∧ w / 65536 % 32 = 0 then some .clrg else none
  | 131 => some .alw
  | 132 => some .mapget
  | 133 => if w / 2147483648 = 0 ∧ w / 65536 % 32 = 0 then some .mapput else none
  | 134 => if w / 2147483648 = 0 then some .hget else none
  | 192 => some .lget
  | 193 => if w / 2147483648 = 0 ∧ w / 65536 % 32 = 0 then some .lput else none
  | 256 => some .csrr
  | 257 => if w / 2147483648 = 0 ∧ w / 65536 % 32 = 0 then some .csrw else none
  | 258 => if w / 2147483648 = 0 ∧ w / 65536 % 32 = 0 then some .csrs else none
  | 259 => if w / 2147483648 = 0 ∧ w / 65536 % 32 = 0 then some .csrc else none
  | 260 => if w / 2147483648 = 0 ∧ w / 65536 % 32 = 0 then some .tret else none
  | 261 => if w / 2147483648 = 0 ∧ w / 65536 % 32 = 0 then some .halt else none
  | 262 => if w / 2147483648 = 0 ∧ w / 65536 % 32 = 0 then some .icinv else none
  | 263 => if w / 2147483648 = 0 ∧ w / 65536 % 32 = 0 then some .tlbinvPage else none
  | 264 => some .tlbprobe
  | 265 => if w / 2147483648 = 0 ∧ w / 65536 % 32 = 0 then some .cresize else none
  | 266 => if w / 2147483648 = 0 ∧ w / 65536 % 32 = 0 then some .migDev else none
  | 267 => if w / 2147483648 = 0 ∧ w / 65536 % 32 = 0 then some .pf else none
  | 320 => if w / 2147483648 = 0 then some .tspawn else none
  | 321 => if w / 2147483648 = 0 ∧ w / 65536 % 32 = 0 then some .tsig else none
  | 322 => if w / 2147483648 = 0 ∧ w / 65536 % 32 = 0 then some .evpost else none
  | 323 => some .evget
  | 384 => if w / 2147483648 = 0 ∧ w / 65536 % 32 = 0 then some .dbgmb else none
  | 385 => if w / 2147483648 = 0 then some .dbgrd else none
  | 386 => if w / 2147483648 = 0 ∧ w / 65536 % 32 = 0 then some .wpset else none
  | _ => none

/-- The 32-bit form of an instruction word: primary opcode, and the fields that must be zero (R176, R177, R182, R183). -/
def op32 (w : Nat) : Option Op :=
  match w / 512 % 128 with
  | 0 => some .iadd
  | 1 => some .isub
  | 2 => some .imul
  | 3 => some .imulhI
  | 4 => some .imulhN
  | 5 => some .imac
  | 6 => some .iminI
  | 7 => some .iminN
  | 8 => some .imaxI
  | 9 => some .imaxN
  | 10 => some .iabsd
  | 11 => some .and
  | 12 => some .or
  | 13 => some .xor
  | 14 => some .andn
  | 15 => if w / 67108864 = 0 then some .mov else none
  | 16 => some .shl
  | 17 => some .shrN
  | 18 => some .shrI
  | 19 => if w / 67108864 = 0 then some .clz else none
  | 20 => if w / 67108864 = 0 then some .popc else none
  | 21 => some .bfxN
  | 22 => some .bfxI
  | 23 => some .bfi
  | 24 => some .perm
  | 25 => some .icmpEq
  | 26 => some .icmpNe
  | 27 => some .icmpLtI
  | 28 => some .icmpLeI
  | 29 => some .icmpLtN
  | 30 => some .icmpLeN
  | 31 => if w / 1048576 % 2 = 0 ∧ w / 33554432 % 2 = 0 ∧ w / 1073741824 = 0 then some .qlopAnd else if w / 1048576 % 2 = 0 ∧ w / 33554432 % 2 = 0 ∧ w / 1073741824 = 1 then some .qlopOr else if w / 1048576 % 2 = 0 ∧ w / 33554432 % 2 = 0 ∧ w / 1073741824 = 2 then some .qlopXor else if w / 1048576 % 2 = 0 ∧ w / 33554432 % 2 = 0 ∧ w / 1073741824 = 3 then some .qlopAndn else none
  | 32 => some .ladd
  | 33 => some .lsub
  | 34 => some .lmul
  | 35 => some .lmac
  | 36 => some .lshl
  | 37 => some .lshrN
  | 38 => some .lshrI
  | 39 => if w / 67108864 = 0 then some .lextI else none
  | 40 => if w / 67108864 = 0 then some .lextN else none
  | 41 => some .lcmpEq
  | 42 => some .lcmpNe
  | 43 => some .lcmpLtI
  | 44 => some .lcmpLtN
  | 45 => some .lea2
  | 46 => some .lea3
  | 47 => some .lea4
  | 48 => some .fadd
  | 49 => some .fsub
  | 50 => some .fmul
  | 51 => some .ffma
  | 52 => some .fmin
  | 53 => some .fmax
  | 54 => some .fcmpEq
  | 55 => some .fcmpNe
  | 56 => some .fcmpLt
  | 57 => some .fcmpLe
  | 58 => if w / 2147483648 = 0 then some .fsfu else none
  | 59 => some .hadd2F16
  | 60 => some .hmul2F16
  | 61 => some .hfma2F16
  | 62 => some .hfma2Bf16
  | 63 => some .hadd2Bf16
  | 64 => if w / 2147483648 = 0 then some .cvt else none
  | 65 => if w / 2147483648 = 0 then some .cvtp else none
  | 66 => some .iaddi
  | 67 => some .andi
  | 68 => some .ori
  | 69 => some .xori
  | 70 => some .shli
  | 71 => some .shriN
  | 72 => some .shriI
  | 73 => some .movi
  | 74 => some .movhi
  | 75 => some .icmpiEq
  | 76 => some .icmpiLtI
  | 77 => some .fmovi
  | 80 => some .ld
  | 81 => some .st
  | 82 => some .atomAdd
  | 83 => some .atomFadd
  | 84 => some .atomMin
  | 85 => some .atomMax
  | 86 => some .atomAnd
  | 87 => some .atomOr
  | 88 => some .atomXor
  | 89 => some .atomExch
  | 90 => some .atomCas
  | 91 => if w / 65536 % 32 = 0 ∧ w / 16777216 = 0 then some .fenceFull else if w / 65536 % 32 = 0 ∧ w / 16777216 = 1 then some .fenceAcq else if w / 65536 % 32 = 0 ∧ w / 16777216 = 2 then some .fenceRel else if w / 65536 = 768 then some .fenceWack else none
  | 92 => if w / 65536 % 32 = 0 ∧ w / 16777216 = 0 then some .phase else none
  | 93 => if w / 65536 = 0 then some .fetchb else none
  | 94 => if w / 65536 % 32 = 0 ∧ w / 67108864 = 0 then some .copInv else if w / 65536 % 32 = 0 ∧ w / 67108864 = 1 then some .copWb else if w / 65536 % 32 = 0 ∧ w / 67108864 = 2 then some .copWbi else none
  | 96 => some .bra
  | 97 => if w / 65536 % 32 = 0 ∧ w / 67108864 = 0 then some .brx else none
  | 98 => some .call
  | 99 => if w / 65536 % 32 = 0 ∧ w / 67108864 = 0 then some .callx else none
  | 100 => if w / 65536 = 0 then some .ret else none
  | 101 => if w / 65536 = 0 then some .exit else none
  | 102 => some .loop
  | 103 => if w / 65536 = 0 then some .brk else none
  | 104 => if w / 65536 % 32 = 0 ∧ w / 268435456 = 0 then some .lcfg else none
  | 105 => if w / 65536 = 0 then some .cnv else if w / 2097152 = 1 then some .cnvMask else none
  | 106 => if w / 524288 % 4 = 0 then some .bar else none
  | 107 => if w / 65536 % 32 = 0 then some .trap else none
  | 108 => if w / 65536 % 32 = 0 then some .sysc else none
  | 109 => if w / 65536 % 32 = 0 then some .bkpt else none
  | 111 => if w / 65536 = 0 then some .yield else none
  | 112 => if w / 2097152 % 32 = 0 ∧ w / 2147483648 = 1 then some .mapset else none
  | 113 => if w / 2147483648 = 0 then some .mapchn else none
  | 114 => if w / 2147483648 = 1 then some .mapprt else none
  | 115 => if w / 2147483648 = 1 then some .maptrn else none
  | 116 => if w / 67108864 = 0 then some .mapflt else none
  | 119 => if w / 1048576 % 32 = 0 ∧ w / 1073741824 = 0 then some .hset else none
  | 120 => if w / 65536 % 512 = 0 ∧ w / 1073741824 = 0 then some .tcpy else none
  | 121 => if w / 65536 % 512 = 0 ∧ w / 1073741824 = 0 then some .tmma else none
  | 122 => if w / 65536 % 512 = 0 ∧ w / 1073741824 = 0 then some .tgat else none
  | 123 => if w / 65536 % 512 = 0 ∧ w / 1073741824 = 0 then some .tcol else none
  | 126 => if w / 1048576 = 0 then some .accZero else if w / 1048576 % 32 = 1 ∧ w / 1073741824 = 0 then some .accSetexp else if w / 1048576 % 32 = 2 ∧ w / 1073741824 = 0 then some .accRdrow else if w / 1048576 % 32 = 3 ∧ w / 1073741824 = 0 then some .accWrrow else if w / 1048576 = 4 then some .accClrst else none
  | 127 => opExt32 w
  | _ => none

/-- The 64-bit form of a function of the secondary space (R185, R186). -/
def opExt64 (w v : Nat) : Option Op :=
  match w / 2097152 % 1024 with
  | 0 => some .nopL
  | 1 => some .idivIL
  | 2 => some .idivNL
  | 3 => some .iremIL
  | 4 => some .iremNL
  | 5 => some .rotlL
  | 6 => some .brevL
  | 7 => some .fcmpOrdL
  | 8 => some .fcmpUnordL
  | 9 => some .fclassL
  | 10 => some .frndL
  | 11 => some .fexpL
  | 64 => some .q2vL
  | 65 => some .v2qL
  | 66 => some .qpopL
  | 67 => some .pfirstL
  | 68 => some .panyL
  | 69 => some .pallL
  | 70 => some .pmaskL
  | 71 => some .xgetAtL
  | 72 => some .xgetFlipL
  | 73 => some .xgetStepL
  | 74 => some .xgetRotL
  | 75 => some .cnvqL
  | 128 => some .waitnL
  | 129 => some .setgL
  | 130 => some .clrgL
  | 131 => some .alwL
  | 132 => some .mapgetL
  | 133 => some .mapputL
  | 134 => some .hgetL
  | 192 => some .lgetL
  | 193 => some .lputL
  | 256 => some .csrrL
  | 257 => some .csrwL
  | 258 => some .csrsL
  | 259 => some .csrcL
  | 260 => some .tretL
  | 261 => some .haltL
  | 262 => some .icinvL
  | 263 => if v / 65536 = 1 then some .tlbinvCtx else if v / 65536 = 2 then some .tlbinvAll else some .tlbinvPageL
  | 264 => some .tlbprobeL
  | 265 => some .cresizeL
  | 266 => if v / 65536 = 1 then some .migHost else some .migDevL
  | 267 => some .pfL
  | 320 => some .tspawnL
  | 321 => some .tsigL
  | 322 => some .evpostL
  | 323 => some .evgetL
  | 384 => some .dbgmbL
  | 385 => some .dbgrdL
  | 386 => some .wpsetL
  | _ => none

/-- The 64-bit form of an instruction word: primary opcode, and the fields that must be zero (R176, R177, R182, R183). -/
def op64 (w v : Nat) : Option Op :=
  match w / 512 % 128 with
  | 0 => if v / 67108864 = 0 then some .iaddL else none
  | 1 => if v / 67108864 = 0 then some .isubL else none
  | 2 => if v / 67108864 = 0 then some .imulL else none
  | 3 => if v / 67108864 = 0 then some .imulhIL else none
  | 4 => if v / 67108864 = 0 then some .imulhNL else none
  | 5 => if v / 67108864 = 0 then some .imacL else none
  | 6 => if v / 67108864 = 0 then some .iminIL else none
  | 7 => if v / 67108864 = 0 then some .iminNL else none
  | 8 => if v / 67108864 = 0 then some .imaxIL else none
  | 9 => if v / 67108864 = 0 then some .imaxNL else none
  | 10 => if v / 67108864 = 0 then some .iabsdL else none
  | 11 => if v / 67108864 = 0 then some .andL else none
  | 12 => if v / 67108864 = 0 then some .orL else none
  | 13 => if v / 67108864 = 0 then some .xorL else none
  | 14 => if v / 67108864 = 0 then some .andnL else none
  | 15 => if w / 67108864 = 0 ∧ v / 67108864 = 0 then some .movL else none
  | 16 => if v / 67108864 = 0 then some .shlL else none
  | 17 => if v / 67108864 = 0 then some .shrNL else none
  | 18 => if v / 67108864 = 0 then some .shrIL else none
  | 19 => if w / 67108864 = 0 ∧ v / 67108864 = 0 then some .clzL else none
  | 20 => if w / 67108864 = 0 ∧ v / 67108864 = 0 then some .popcL else none
  | 21 => if v / 67108864 = 0 then some .bfxNL else none
  | 22 => if v / 67108864 = 0 then some .bfxIL else none
  | 23 => if v / 67108864 = 0 then some .bfiL else none
  | 24 => if v / 67108864 = 0 then some .permL else none
  | 25 => if v / 67108864 = 0 then some .icmpEqL else none
  | 26 => if v / 67108864 = 0 then some .icmpNeL else none
  | 27 => if v / 67108864 = 0 then some .icmpLtIL else none
  | 28 => if v / 67108864 = 0 then some .icmpLeIL else none
  | 29 => if v / 67108864 = 0 then some .icmpLtNL else none
  | 30 => if v / 67108864 = 0 then some .icmpLeNL else none
  | 32 => if v / 67108864 = 0 then some .laddL else none
  | 33 => if v / 67108864 = 0 then some .lsubL else none
  | 34 => if v / 67108864 = 0 then some .lmulL else none
  | 35 => if v / 67108864 = 0 then some .lmacL else none
  | 36 => if v / 67108864 = 0 then some .lshlL else none
  | 37 => if v / 67108864 = 0 then some .lshrNL else none
  | 38 => if v / 67108864 = 0 then some .lshrIL else none
  | 39 => if w / 67108864 = 0 ∧ v / 67108864 = 0 then some .lextIL else none
  | 40 => if w / 67108864 = 0 ∧ v / 67108864 = 0 then some .lextNL else none
  | 41 => if v / 67108864 = 0 then some .lcmpEqL else none
  | 42 => if v / 67108864 = 0 then some .lcmpNeL else none
  | 43 => if v / 67108864 = 0 then some .lcmpLtIL else none
  | 44 => if v / 67108864 = 0 then some .lcmpLtNL else none
  | 45 => if v / 67108864 = 0 then some .lea2L else none
  | 46 => if v / 67108864 = 0 then some .lea3L else none
  | 47 => if v / 67108864 = 0 then some .lea4L else none
  | 48 => if v / 67108864 = 0 then some .faddL else none
  | 49 => if v / 67108864 = 0 then some .fsubL else none
  | 50 => if v / 67108864 = 0 then some .fmulL else none
  | 51 => if v / 67108864 = 0 then some .ffmaL else none
  | 52 => if v / 67108864 = 0 then some .fminL else none
  | 53 => if v / 67108864 = 0 then some .fmaxL else none
  | 54 => if v / 67108864 = 0 then some .fcmpEqL else none
  | 55 => if v / 67108864 = 0 then some .fcmpNeL else none
  | 56 => if v / 67108864 = 0 then some .fcmpLtL else none
  | 57 => if v / 67108864 = 0 then some .fcmpLeL else none
  | 58 => if w / 2147483648 = 0 ∧ v / 67108864 = 0 then some .fsfuL else none
  | 59 => if v / 67108864 = 0 then some .hadd2F16L else none
  | 60 => if v / 67108864 = 0 then some .hmul2F16L else none
  | 61 => if v / 67108864 = 0 then some .hfma2F16L else none
  | 62 => if v / 67108864 = 0 then some .hfma2Bf16L else none
  | 63 => if v / 67108864 = 0 then some .hadd2Bf16L else none
  | 64 => if w / 2147483648 = 0 ∧ v / 67108864 = 0 then some .cvtL else none
  | 65 => if w / 2147483648 = 0 ∧ v / 67108864 = 0 then some .cvtpL else none
  | 66 => if w / 67108864 = 0 then some .iaddiL else none
  | 67 => if w / 67108864 = 0 then some .andiL else none
  | 68 => if w / 67108864 = 0 then some .oriL else none
  | 69 => if w / 67108864 = 0 then some .xoriL else none
  | 70 => if w / 67108864 = 0 then some .shliL else none
  | 71 => if w / 67108864 = 0 then some .shriNL else none
  | 72 => if w / 67108864 = 0 then some .shriIL else none
  | 73 => if w / 2097152 = 0 then some .moviL else none
  | 74 => if w / 2097152 = 0 then some .movhiL else none
  | 75 => if w / 67108864 = 0 then some .icmpiEqL else none
  | 76 => if w / 67108864 = 0 then some .icmpiLtIL else none
  | 77 => if w / 2097152 = 0 then some .fmoviL else none
  | 80 => some .ldL
  | 81 => some .stL
  | 82 => some .atomAddL
  | 83 => some .atomFaddL
  | 84 => some .atomMinL
  | 85 => some .atomMaxL
  | 86 => some .atomAndL
  | 87 => some .atomOrL
  | 88 => some .atomXorL
  | 89 => some .atomExchL
  | 90 => some .atomCasL
  | 94 => if w / 65536 % 32 = 0 ∧ w / 67108864 = 0 then some .copInvL else if w / 65536 % 32 = 0 ∧ w / 67108864 = 1 then some .copWbL else if w / 65536 % 32 = 0 ∧ w / 67108864 = 2 then some .copWbiL else none
  | 96 => if w / 65536 = 0 then some .braL else none
  | 97 => if w / 65536 % 32 = 0 ∧ w / 67108864 = 0 ∧ v / 67108864 = 0 then some .brxL else none
  | 98 => if w / 65536 = 0 then some .callL else none
  | 99 => if w / 65536 % 32 = 0 ∧ w / 67108864 = 0 ∧ v / 67108864 = 0 then some .callxL else none
  | 102 => if w / 4194304 = 0 then some .loopL else none
  | 110 => if w / 67108864 = 0 ∧ w / 65536 % 32 = 0 then some .balw else none
  | 117 => if v / 8 = 0 then some .mapchk else none
  | 118 => if v / 8 = 0 then some .bankq else none
  | 124 => if w / 1073741824 = 0 ∧ v / 512 = 0 then some .tld else none
  | 125 => if w / 1073741824 = 0 ∧ v / 512 = 0 then some .tst else none
  | 126 => if w / 1048576 = 0 then some .accZeroL else if w / 1048576 % 32 = 1 ∧ w / 1073741824 = 0 then some .accSetexpL else if w / 1048576 % 32 = 2 ∧ w / 1073741824 = 0 then some .accRdrowL else if w / 1048576 % 32 = 3 ∧ w / 1073741824 = 0 then some .accWrrowL else if w / 1048576 = 4 then some .accClrstL else none
  | 127 => opExt64 w v
  | _ => none

/-- The instruction of an encoding, its operands read from the words: the compact parcel or first word `w`, the
second word `v`. It has no compiled code: the runtime gives no tag to so many constructors (`runOp` in
Sys2Proof/Machine/Run.lean is its compiled equal, by a theorem). -/
noncomputable def ofOp (o : Op) (w v : Nat) : Instr :=
  match o with
  | .movC => .movC (unCReg w)
  | .iaddC => .iaddC (unCReg w)
  | .isubC => .isubC (unCReg w)
  | .imulC => .imulC (unCReg w)
  | .andC => .andC (unCReg w)
  | .orC => .orC (unCReg w)
  | .xorC => .xorC (unCReg w)
  | .shlC => .shlC (unCReg w)
  | .shrNC => .shrNC (unCReg w)
  | .shrIC => .shrIC (unCReg w)
  | .faddC => .faddC (unCReg w)
  | .fsubC => .fsubC (unCReg w)
  | .fmulC => .fmulC (unCReg w)
  | .fmaxC => .fmaxC (unCReg w)
  | .fminC => .fminC (unCReg w)
  | .iaddi5C => .iaddi5C (unCImm w)
  | .nopC => .nopC
  | .iadd => .iadd (unR3 w)
  | .iaddL => .iaddL ⟨unR3 w, unModifier v⟩
  | .isub => .isub (unR3 w)
  | .isubL => .isubL ⟨unR3 w, unModifier v⟩
  | .imul => .imul (unR3 w)
  | .imulL => .imulL ⟨unR3 w, unModifier v⟩
  | .imulhI => .imulhI (unR3 w)
  | .imulhIL => .imulhIL ⟨unR3 w, unModifier v⟩
  | .imulhN => .imulhN (unR3 w)
  | .imulhNL => .imulhNL ⟨unR3 w, unModifier v⟩
  | .imac => .imac (unR3 w)
  | .imacL => .imacL ⟨unR3 w, unModifier v⟩
  | .iminI => .iminI (unR3 w)
  | .iminIL => .iminIL ⟨unR3 w, unModifier v⟩
  | .iminN => .iminN (unR3 w)
  | .iminNL => .iminNL ⟨unR3 w, unModifier v⟩
  | .imaxI => .imaxI (unR3 w)
  | .imaxIL => .imaxIL ⟨unR3 w, unModifier v⟩
  | .imaxN => .imaxN (unR3 w)
  | .imaxNL => .imaxNL ⟨unR3 w, unModifier v⟩
  | .iabsd => .iabsd (unR3 w)
  | .iabsdL => .iabsdL ⟨unR3 w, unModifier v⟩
  | .and => .and (unR3 w)
  | .andL => .andL ⟨unR3 w, unModifier v⟩
  | .or => .or (unR3 w)
  | .orL => .orL ⟨unR3 w, unModifier v⟩
  | .xor => .xor (unR3 w)
  | .xorL => .xorL ⟨unR3 w, unModifier v⟩
  | .andn => .andn (unR3 w)
  | .andnL => .andnL ⟨unR3 w, unModifier v⟩
  | .mov => .mov (unR1 w)
  | .movL => .movL ⟨unR1 w, unModifier v⟩
  | .shl => .shl (unR3 w)
  | .shlL => .shlL ⟨unR3 w, unModifier v⟩
  | .shrN => .shrN (unR3 w)
  | .shrNL => .shrNL ⟨unR3 w, unModifier v⟩
  | .shrI => .shrI (unR3 w)
  | .shrIL => .shrIL ⟨unR3 w, unModifier v⟩
  | .clz => .clz (unR1 w)
  | .clzL => .clzL ⟨unR1 w, unModifier v⟩
  | .popc => .popc (unR1 w)
  | .popcL => .popcL ⟨unR1 w, unModifier v⟩
  | .bfxN => .bfxN (unR3 w)
  | .bfxNL => .bfxNL ⟨unR3 w, unModifier v⟩
  | .bfxI => .bfxI (unR3 w)
  | .bfxIL => .bfxIL ⟨unR3 w, unModifier v⟩
  | .bfi => .bfi (unR3 w)
  | .bfiL => .bfiL ⟨unR3 w, unModifier v⟩
  | .perm => .perm (unR3 w)
  | .permL => .permL ⟨unR3 w, unModifier v⟩
  | .icmpEq => .icmpEq (unR3 w)
  | .icmpEqL => .icmpEqL ⟨unR3 w, unModifier v⟩
  | .icmpNe => .icmpNe (unR3 w)
  | .icmpNeL => .icmpNeL ⟨unR3 w, unModifier v⟩
  | .icmpLtI => .icmpLtI (unR3 w)
  | .icmpLtIL => .icmpLtIL ⟨unR3 w, unModifier v⟩
  | .icmpLeI => .icmpLeI (unR3 w)
  | .icmpLeIL => .icmpLeIL ⟨unR3 w, unModifier v⟩
  | .icmpLtN => .icmpLtN (unR3 w)
  | .icmpLtNL => .icmpLtNL ⟨unR3 w, unModifier v⟩
  | .icmpLeN => .icmpLeN (unR3 w)
  | .icmpLeNL => .icmpLeNL ⟨unR3 w, unModifier v⟩
  | .qlopAnd => .qlopAnd (unQl w)
  | .qlopOr => .qlopOr (unQl w)
  | .qlopXor => .qlopXor (unQl w)
  | .qlopAndn => .qlopAndn (unQl w)
  | .ladd => .ladd (unR3 w)
  | .laddL => .laddL ⟨unR3 w, unModifier v⟩
  | .lsub => .lsub (unR3 w)
  | .lsubL => .lsubL ⟨unR3 w, unModifier v⟩
  | .lmul => .lmul (unR3 w)
  | .lmulL => .lmulL ⟨unR3 w, unModifier v⟩
  | .lmac => .lmac (unR3 w)
  | .lmacL => .lmacL ⟨unR3 w, unModifier v⟩
  | .lshl => .lshl (unR3 w)
  | .lshlL => .lshlL ⟨unR3 w, unModifier v⟩
  | .lshrN => .lshrN (unR3 w)
  | .lshrNL => .lshrNL ⟨unR3 w, unModifier v⟩
  | .lshrI => .lshrI (unR3 w)
  | .lshrIL => .lshrIL ⟨unR3 w, unModifier v⟩
  | .lextI => .lextI (unR1 w)
  | .lextIL => .lextIL ⟨unR1 w, unModifier v⟩
  | .lextN => .lextN (unR1 w)
  | .lextNL => .lextNL ⟨unR1 w, unModifier v⟩
  | .lcmpEq => .lcmpEq (unR3 w)
  | .lcmpEqL => .lcmpEqL ⟨unR3 w, unModifier v⟩
  | .lcmpNe => .lcmpNe (unR3 w)
  | .lcmpNeL => .lcmpNeL ⟨unR3 w, unModifier v⟩
  | .lcmpLtI => .lcmpLtI (unR3 w)
  | .lcmpLtIL => .lcmpLtIL ⟨unR3 w, unModifier v⟩
  | .lcmpLtN => .lcmpLtN (unR3 w)
  | .lcmpLtNL => .lcmpLtNL ⟨unR3 w, unModifier v⟩
  | .lea2 => .lea2 (unR3 w)
  | .lea2L => .lea2L ⟨unR3 w, unModifier v⟩
  | .lea3 => .lea3 (unR3 w)
  | .lea3L => .lea3L ⟨unR3 w, unModifier v⟩
  | .lea4 => .lea4 (unR3 w)
  | .lea4L => .lea4L ⟨unR3 w, unModifier v⟩
  | .fadd => .fadd (unR3 w)
  | .faddL => .faddL ⟨unR3 w, unModifier v⟩
  | .fsub => .fsub (unR3 w)
  | .fsubL => .fsubL ⟨unR3 w, unModifier v⟩
  | .fmul => .fmul (unR3 w)
  | .fmulL => .fmulL ⟨unR3 w, unModifier v⟩
  | .ffma => .ffma (unR3 w)
  | .ffmaL => .ffmaL ⟨unR3 w, unModifier v⟩
  | .fmin => .fmin (unR3 w)
  | .fminL => .fminL ⟨unR3 w, unModifier v⟩
  | .fmax => .fmax (unR3 w)
  | .fmaxL => .fmaxL ⟨unR3 w, unModifier v⟩
  | .fcmpEq => .fcmpEq (unR3 w)
  | .fcmpEqL => .fcmpEqL ⟨unR3 w, unModifier v⟩
  | .fcmpNe => .fcmpNe (unR3 w)
  | .fcmpNeL => .fcmpNeL ⟨unR3 w, unModifier v⟩
  | .fcmpLt => .fcmpLt (unR3 w)
  | .fcmpLtL => .fcmpLtL ⟨unR3 w, unModifier v⟩
  | .fcmpLe => .fcmpLe (unR3 w)
  | .fcmpLeL => .fcmpLeL ⟨unR3 w, unModifier v⟩
  | .fsfu => .fsfu (unRf w)
  | .fsfuL => .fsfuL ⟨unRf w, unModifier v⟩
  | .hadd2F16 => .hadd2F16 (unR3 w)
  | .hadd2F16L => .hadd2F16L ⟨unR3 w, unModifier v⟩
  | .hmul2F16 => .hmul2F16 (unR3 w)
  | .hmul2F16L => .hmul2F16L ⟨unR3 w, unModifier v⟩
  | .hfma2F16 => .hfma2F16 (unR3 w)
  | .hfma2F16L => .hfma2F16L ⟨unR3 w, unModifier v⟩
  | .hfma2Bf16 => .hfma2Bf16 (unR3 w)
  | .hfma2Bf16L => .hfma2Bf16L ⟨unR3 w, unModifier v⟩
  | .hadd2Bf16 => .hadd2Bf16 (unR3 w)
  | .hadd2Bf16L => .hadd2Bf16L ⟨unR3 w, unModifier v⟩
  | .cvt => .cvt (unRf w)
  | .cvtL => .cvtL ⟨unRf w, unModifier v⟩
  | .cvtp => .cvtp (unRf w)
  | .cvtpL => .cvtpL ⟨unRf w, unModifier v⟩
  | .iaddi => .iaddi (unIm w)
  | .iaddiL => .iaddiL (unIm64 w v)
  | .andi => .andi (unIm w)
  | .andiL => .andiL (unIm64 w v)
  | .ori => .ori (unIm w)
  | .oriL => .oriL (unIm64 w v)
  | .xori => .xori (unIm w)
  | .xoriL => .xoriL (unIm64 w v)
  | .shli => .shli (unIm w)
  | .shliL => .shliL (unIm64 w v)
  | .shriN => .shriN (unIm w)
  | .shriNL => .shriNL (unIm64 w v)
  | .shriI => .shriI (unIm w)
  | .shriIL => .shriIL (unIm64 w v)
  | .movi => .movi (unKm w)
  | .moviL => .moviL (unKm64 w v)
  | .movhi => .movhi (unKm w)
  | .movhiL => .movhiL (unKm64 w v)
  | .icmpiEq => .icmpiEq (unIm w)
  | .icmpiEqL => .icmpiEqL (unIm64 w v)
  | .icmpiLtI => .icmpiLtI (unIm w)
  | .icmpiLtIL => .icmpiLtIL (unIm64 w v)
  | .fmovi => .fmovi (unKm w)
  | .fmoviL => .fmoviL (unKm64 w v)
  | .ld => .ld (unMe w)
  | .ldL => .ldL ⟨unMe w, BitVec.ofNat 32 v⟩
  | .st => .st (unMe w)
  | .stL => .stL ⟨unMe w, BitVec.ofNat 32 v⟩
  | .atomAdd => .atomAdd (unMe w)
  | .atomAddL => .atomAddL ⟨unMe w, BitVec.ofNat 32 v⟩
  | .atomFadd => .atomFadd (unMe w)
  | .atomFaddL => .atomFaddL ⟨unMe w, BitVec.ofNat 32 v⟩
  | .atomMin => .atomMin (unMe w)
  | .atomMinL => .atomMinL ⟨unMe w, BitVec.ofNat 32 v⟩
  | .atomMax => .atomMax (unMe w)
  | .atomMaxL => .atomMaxL ⟨unMe w, BitVec.ofNat 32 v⟩
  | .atomAnd => .atomAnd (unMe w)
  | .atomAndL => .atomAndL ⟨unMe w, BitVec.ofNat 32 v⟩
  | .atomOr => .atomOr (unMe w)
  | .atomOrL => .atomOrL ⟨unMe w, BitVec.ofNat 32 v⟩
  | .atomXor => .atomXor (unMe w)
  | .atomXorL => .atomXorL ⟨unMe w, BitVec.ofNat 32 v⟩
  | .atomExch => .atomExch (unMe w)
  | .atomExchL => .atomExchL ⟨unMe w, BitVec.ofNat 32 v⟩
  | .atomCas => .atomCas (unMe w)
  | .atomCasL => .atomCasL ⟨unMe w, BitVec.ofNat 32 v⟩
  | .fenceFull => .fenceFull (unSc w)
  | .fenceAcq => .fenceAcq (unSc w)
  | .fenceRel => .fenceRel (unSc w)
  | .fenceWack => .fenceWack (unH0 w)
  | .phase => .phase (unSc w)
  | .fetchb => .fetchb (unH0 w)
  | .copInv => .copInv (unA1 w)
  | .copInvL => .copInvL ⟨unA1 w, BitVec.ofNat 32 v⟩
  | .copWb => .copWb (unA1 w)
  | .copWbL => .copWbL ⟨unA1 w, BitVec.ofNat 32 v⟩
  | .copWbi => .copWbi (unA1 w)
  | .copWbiL => .copWbiL ⟨unA1 w, BitVec.ofNat 32 v⟩
  | .bra => .bra (unI16 w)
  | .braL => .braL (unI16l w v)
  | .brx => .brx (unA1 w)
  | .brxL => .brxL ⟨unA1 w, unModifier v⟩
  | .call => .call (unI16 w)
  | .callL => .callL (unI16l w v)
  | .callx => .callx (unA1 w)
  | .callxL => .callxL ⟨unA1 w, unModifier v⟩
  | .ret => .ret (unH0 w)
  | .exit => .exit (unH0 w)
  | .loop => .loop (unLo w)
  | .loopL => .loopL (unLo64 w v)
  | .brk => .brk (unH0 w)
  | .lcfg => .lcfg (unLc w)
  | .cnv => .cnv (unH0 w)
  | .cnvMask => .cnvMask (unD1 w)
  | .bar => .bar (unBa w)
  | .trap => .trap (unN11 w)
  | .sysc => .sysc (unN11 w)
  | .bkpt => .bkpt (unN11 w)
  | .balw => .balw (unBw w v)
  | .yield => .yield (unH0 w)
  | .mapset => .mapset (unMs w)
  | .mapchn => .mapchn (unM3 w)
  | .mapprt => .mapprt (unM3 w)
  | .maptrn => .maptrn (unM3 w)
  | .mapflt => .mapflt (unR1 w)
  | .mapchk => .mapchk (unTq w v)
  | .bankq => .bankq (unTq w v)
  | .hset => .hset (unVh w)
  | .tcpy => .tcpy (unV1 w)
  | .tmma => .tmma (unV1 w)
  | .tgat => .tgat (unV1 w)
  | .tcol => .tcol (unV1 w)
  | .tld => .tld (unTl w v)
  | .tst => .tst (unTl w v)
  | .accZero => .accZero (unHh w)
  | .accZeroL => .accZeroL ⟨unHh w, BitVec.ofNat 32 v⟩
  | .accSetexp => .accSetexp (unVh w)
  | .accSetexpL => .accSetexpL ⟨unVh w, BitVec.ofNat 32 v⟩
  | .accRdrow => .accRdrow (unVh w)
  | .accRdrowL => .accRdrowL ⟨unVh w, BitVec.ofNat 32 v⟩
  | .accWrrow => .accWrrow (unVh w)
  | .accWrrowL => .accWrrowL ⟨unVh w, BitVec.ofNat 32 v⟩
  | .accClrst => .accClrst (unHh w)
  | .accClrstL => .accClrstL ⟨unHh w, BitVec.ofNat 32 v⟩
  | .nop => .nop (unH0 w)
  | .nopL => .nopL (unE64 w v)
  | .idivI => .idivI (unEd w)
  | .idivIL => .idivIL (unE64 w v)
  | .idivN => .idivN (unEd w)
  | .idivNL => .idivNL (unE64 w v)
  | .iremI => .iremI (unEd w)
  | .iremIL => .iremIL (unE64 w v)
  | .iremN => .iremN (unEd w)
  | .iremNL => .iremNL (unE64 w v)
  | .rotl => .rotl (unEd w)
  | .rotlL => .rotlL (unE64 w v)
  | .brev => .brev (unEd w)
  | .brevL => .brevL (unE64 w v)
  | .fcmpOrd => .fcmpOrd (unD1 w)
  | .fcmpOrdL => .fcmpOrdL (unE64 w v)
  | .fcmpUnord => .fcmpUnord (unD1 w)
  | .fcmpUnordL => .fcmpUnordL (unE64 w v)
  | .fclass => .fclass (unEd w)
  | .fclassL => .fclassL (unE64 w v)
  | .frnd => .frnd (unEd w)
  | .frndL => .frndL (unE64 w v)
  | .fexp => .fexp (unEd w)
  | .fexpL => .fexpL (unE64 w v)
  | .q2v => .q2v (unD1 w)
  | .q2vL => .q2vL (unE64 w v)
  | .v2q => .v2q (unH0 w)
  | .v2qL => .v2qL (unE64 w v)
  | .qpop => .qpop (unEd w)
  | .qpopL => .qpopL (unE64 w v)
  | .pfirst => .pfirst (unD1 w)
  | .pfirstL => .pfirstL (unE64 w v)
  | .pany => .pany (unD1 w)
  | .panyL => .panyL (unE64 w v)
  | .pall => .pall (unD1 w)
  | .pallL => .pallL (unE64 w v)
  | .pmask => .pmask (unEd w)
  | .pmaskL => .pmaskL (unE64 w v)
  | .xgetAt => .xgetAt (unD1 w)
  | .xgetAtL => .xgetAtL (unE64 w v)
  | .xgetFlip => .xgetFlip (unD1 w)
  | .xgetFlipL => .xgetFlipL (unE64 w v)
  | .xgetStep => .xgetStep (unD1 w)
  | .xgetStepL => .xgetStepL (unE64 w v)
  | .xgetRot => .xgetRot (unD1 w)
  | .xgetRotL => .xgetRotL (unE64 w v)
  | .cnvq => .cnvq (unH0 w)
  | .cnvqL => .cnvqL (unE64 w v)
  | .waitn => .waitn (unH0 w)
  | .waitnL => .waitnL (unE64 w v)
  | .setg => .setg (unH0 w)
  | .setgL => .setgL (unE64 w v)
  | .clrg => .clrg (unH0 w)
  | .clrgL => .clrgL (unE64 w v)
  | .alw => .alw (unEd w)
  | .alwL => .alwL (unE64 w v)
  | .mapget => .mapget (unEd w)
  | .mapgetL => .mapgetL (unE64 w v)
  | .mapput => .mapput (unH0 w)
  | .mapputL => .mapputL (unE64 w v)
  | .hget => .hget (unD1 w)
  | .hgetL => .hgetL (unE64 w v)
  | .lget => .lget (unEd w)
  | .lgetL => .lgetL (unE64 w v)
  | .lput => .lput (unH0 w)
  | .lputL => .lputL (unE64 w v)
  | .csrr => .csrr (unEd w)
  | .csrrL => .csrrL (unE64 w v)
  | .csrw => .csrw (unH0 w)
  | .csrwL => .csrwL (unE64 w v)
  | .csrs => .csrs (unH0 w)
  | .csrsL => .csrsL (unE64 w v)
  | .csrc => .csrc (unH0 w)
  | .csrcL => .csrcL (unE64 w v)
  | .tret => .tret (unH0 w)
  | .tretL => .tretL (unE64 w v)
  | .halt => .halt (unH0 w)
  | .haltL => .haltL (unE64 w v)
  | .icinv => .icinv (unH0 w)
  | .icinvL => .icinvL (unE64 w v)
  | .tlbinvPage => .tlbinvPage (unH0 w)
  | .tlbinvPageL => .tlbinvPageL (unE64 w v)
  | .tlbinvCtx => .tlbinvCtx (unE64 w v)
  | .tlbinvAll => .tlbinvAll (unE64 w v)
  | .tlbprobe => .tlbprobe (unEd w)
  | .tlbprobeL => .tlbprobeL (unE64 w v)
  | .cresize => .cresize (unH0 w)
  | .cresizeL => .cresizeL (unE64 w v)
  | .migDev => .migDev (unH0 w)
  | .migDevL => .migDevL (unE64 w v)
  | .migHost => .migHost (unE64 w v)
  | .pf => .pf (unH0 w)
  | .pfL => .pfL (unE64 w v)
  | .tspawn => .tspawn (unD1 w)
  | .tspawnL => .tspawnL (unE64 w v)
  | .tsig => .tsig (unH0 w)
  | .tsigL => .tsigL (unE64 w v)
  | .evpost => .evpost (unH0 w)
  | .evpostL => .evpostL (unE64 w v)
  | .evget => .evget (unEd w)
  | .evgetL => .evgetL (unE64 w v)
  | .dbgmb => .dbgmb (unH0 w)
  | .dbgmbL => .dbgmbL (unE64 w v)
  | .dbgrd => .dbgrd (unD1 w)
  | .dbgrdL => .dbgrdL (unE64 w v)
  | .wpset => .wpset (unH0 w)
  | .wpsetL => .wpsetL (unE64 w v)

/-- Why bits are not an instruction (R187). -/
inductive DecodeError where
  /-- Trap 0x01: a reserved encoding, or a field that must be zero. Safe: the trap the spec names is taken. -/
  | illegal
  /-- Trap 0x02: a reserved guard is the only decoding fault. Safe: the trap the spec names is taken. -/
  | reservedGuard
  deriving DecidableEq, Repr

/-- The number of 16-bit parcels of the instruction whose first parcel is `p` (R172). -/
def parcels (p : Nat) : Nat :=
  if p % 4 = 1 then 2 else if p % 4 = 3 then 4 else 1

/-- The encoding at the low end of `x` with its first and second words (R172, R173). -/
def opBits (x : Nat) : Option (Op × Nat × Nat) :=
  match parcels x with
  | 1 => (op16 (x % 65536)).map fun o => (o, x % 65536, 0)
  | 2 => (op32 (x % 4294967296)).map fun o => (o, x % 4294967296, 0)
  | _ => (op64 (x % 4294967296) (x / 4294967296 % 4294967296)).map
      fun o => (o, x % 4294967296, x / 4294967296 % 4294967296)

/-- The decoder, total on any bits: an instruction, or the trap of R187. A reserved guard is reported only when
it is the only decoding fault. -/
noncomputable def decodeBits (x : Nat) : Except DecodeError Instr :=
  match opBits x with
  | none => .error .illegal
  | some (o, w, v) =>
    if !(ofOp o w v).fieldsOk then .error .illegal
    else if !(ofOp o w v).guardOk then .error .reservedGuard
    else .ok (ofOp o w v)

/-- Little-endian bytes as a number (R3). -/
def leNat : List Byte → Nat
  | [] => 0
  | b :: bs => b.toNat + 256 * leNat bs

/-- The decoder on the bytes that stand at an address, and the bytes after the instruction (R172, R3). -/
noncomputable def decodeBytes (bs : List Byte) : Except DecodeError (Instr × List Byte) :=
  match decodeBits (leNat (bs.take 8)) with
  | .ok i => .ok (i, bs.drop (2 * parcels (leNat (bs.take 2))))
  | .error e => .error e

/-- The instruction the decoder reads from bits numbered as the table of operations numbers them. -/
noncomputable def decodeTableWord (nbits w : Nat) : Option Instr :=
  if nbits = 0 then none
  else match decodeBits w with
    | .ok i => some i
    | .error _ => none

/-- The bits of a well-formed instruction, as (number of bits, value), from the same formats; an event has no encoding. -/
def encode : Instr → Nat × Nat
  | .issueGroupSelection _ _ _ => (0, 0)
  | .fixedLatencyResult _ _ => (0, 0)
  | .convergenceRelease _ _ => (0, 0)
  | .barrierCompletion _ _ _ _ => (0, 0)
  | .barrierTimeout _ _ _ _ => (0, 0)
  | .convergenceTimeout _ _ => (0, 0)
  | .yieldExpiry _ _ => (0, 0)
  | .courseWake _ _ => (0, 0)
  | .trapDelivery _ _ => (0, 0)
  | .taskDispatch _ _ => (0, 0)
  | .dispatchReservation _ _ => (0, 0)
  | .stealRequest _ => (0, 0)
  | .stealShipment _ => (0, 0)
  | .shipmentArrival _ => (0, 0)
  | .taskEnd _ _ => (0, 0)
  | .overflowRecord _ => (0, 0)
  | .preempt _ _ _ _ _ _ _ _ _ => (0, 0)
  | .preemptSave _ => (0, 0)
  | .guardSlotHeadCheck _ _ => (0, 0)
  | .kChunk _ _ => (0, 0)
  | .writeBack _ => (0, 0)
  | .copyTransfer _ _ => (0, 0)
  | .accExecute _ => (0, 0)
  | .commandRetire _ _ _ => (0, 0)
  | .homeAccessPerform _ _ => (0, 0)
  | .sectorFill _ _ _ => (0, 0)
  | .missStatusAllocate _ => (0, 0)
  | .loadReturn _ _ => (0, 0)
  | .hodDrain _ _ => (0, 0)
  | .hodAgeLimit _ _ => (0, 0)
  | .phaseComplete _ _ => (0, 0)
  | .fenceComplete _ _ => (0, 0)
  | .releaseStoreProceed _ => (0, 0)
  | .waitnComplete _ _ => (0, 0)
  | .icinvComplete _ _ => (0, 0)
  | .fetchbComplete _ _ => (0, 0)
  | .cresizeComplete _ => (0, 0)
  | .migrationStart _ => (0, 0)
  | .migrationDeparture _ _ => (0, 0)
  | .remotePacketArrival _ _ _ _ _ _ _ _ => (0, 0)
  | .acknowledgementArrival _ _ _ _ _ _ => (0, 0)
  | .closedVectorUpdate _ _ => (0, 0)
  | .refusalArrival _ _ _ _ => (0, 0)
  | .restartRefusal _ _ => (0, 0)
  | .retransmission _ _ _ _ => (0, 0)
  | .destinationLost _ _ => (0, 0)
  | .allowanceCollapse _ _ => (0, 0)
  | .expressStarvationToken _ _ => (0, 0)
  | .tierStarvationGrant _ _ => (0, 0)
  | .linkTraining _ _ _ => (0, 0)
  | .flitCrcReplay _ _ => (0, 0)
  | .linkRetrain _ _ _ => (0, 0)
  | .portUp _ => (0, 0)
  | .ringCheck _ _ => (0, 0)
  | .ringCheckAnswer _ _ => (0, 0)
  | .ringSetupTimeout _ => (0, 0)
  | .chunkStart _ _ _ _ => (0, 0)
  | .partialArrival _ _ _ _ _ _ _ _ _ => (0, 0)
  | .resultArrival _ _ _ _ _ _ _ _ _ => (0, 0)
  | .throttleRequest _ _ _ => (0, 0)
  | .throttleStepUp => (0, 0)
  | .hostLinkBringup => (0, 0)
  | .launch _ _ _ _ _ => (0, 0)
  | .release _ _ _ _ _ _ => (0, 0)
  | .writeMemory _ _ _ _ _ _ _ _ => (0, 0)
  | .readMemory _ _ _ _ _ _ _ _ => (0, 0)
  | .queueControl _ _ _ _ _ _ _ => (0, 0)
  | .routeEntry _ _ _ _ _ _ => (0, 0)
  | .ringSetup _ _ _ _ _ _ _ => (0, 0)
  | .bindResult _ _ _ _ _ _ _ _ _ => (0, 0)
  | .trapResume _ _ _ _ _ _ _ _ => (0, 0)
  | .codeTable _ _ _ _ _ _ => (0, 0)
  | .attest _ _ _ _ _ => (0, 0)
  | .ringBind _ _ _ _ _ _ _ => (0, 0)
  | .syscallReply _ _ _ _ _ => (0, 0)
  | .mailboxMessage _ _ _ => (0, 0)
  | .pageMessage _ _ _ _ => (0, 0)
  | .ownMessage _ _ _ _ => (0, 0)
  | .nak _ _ => (0, 0)
  | .resync _ _ _ _ => (0, 0)
  | .resyncReply _ _ _ _ => (0, 0)
  | .keepalive _ => (0, 0)
  | .hostRetransmit => (0, 0)
  | .hostLinkLost => (0, 0)
  | .codeTableEntryJump => (0, 0)
  | .hardwareBind _ _ _ => (0, 0)
  | .dbgctlHalt _ _ => (0, 0)
  | .dbgctlUnhalt _ _ => (0, 0)
  | .dbgctlStep _ _ => (0, 0)
  | .ilenWrite _ _ => (0, 0)
  | .mailboxSend => (0, 0)
  | .dutyWrite _ _ => (0, 0)
  | .registerWrite _ _ => (0, 0)
  | .boot _ _ _ _ _ => (0, 0)
  | .sensorSample _ _ => (0, 0)
  | .throttleRepeat _ _ => (0, 0)
  | .refreshBandEvaluation _ => (0, 0)
  | .telemetryRecord => (0, 0)
  | .thermalTrip _ => (0, 0)
  | .moduleReboot => (0, 0)
  | .scrub _ _ _ => (0, 0)
  | .movC x => (16, enCReg x 0)
  | .iaddC x => (16, enCReg x 1)
  | .isubC x => (16, enCReg x 2)
  | .imulC x => (16, enCReg x 3)
  | .andC x => (16, enCReg x 4)
  | .orC x => (16, enCReg x 5)
  | .xorC x => (16, enCReg x 6)
  | .shlC x => (16, enCReg x 7)
  | .shrNC x => (16, enCReg x 8)
  | .shrIC x => (16, enCReg x 9)
  | .faddC x => (16, enCReg x 10)
  | .fsubC x => (16, enCReg x 11)
  | .fmulC x => (16, enCReg x 12)
  | .fmaxC x => (16, enCReg x 13)
  | .fminC x => (16, enCReg x 14)
  | .iaddi5C x => (16, enCImm x)
  | .nopC => (16, 32798)
  | .iadd x => (32, enR3 x 0 1)
  | .iaddL x => (64, enR3 x.r 0 3 + 4294967296 * enModifier x.m)
  | .isub x => (32, enR3 x 1 1)
  | .isubL x => (64, enR3 x.r 1 3 + 4294967296 * enModifier x.m)
  | .imul x => (32, enR3 x 2 1)
  | .imulL x => (64, enR3 x.r 2 3 + 4294967296 * enModifier x.m)
  | .imulhI x => (32, enR3 x 3 1)
  | .imulhIL x => (64, enR3 x.r 3 3 + 4294967296 * enModifier x.m)
  | .imulhN x => (32, enR3 x 4 1)
  | .imulhNL x => (64, enR3 x.r 4 3 + 4294967296 * enModifier x.m)
  | .imac x => (32, enR3 x 5 1)
  | .imacL x => (64, enR3 x.r 5 3 + 4294967296 * enModifier x.m)
  | .iminI x => (32, enR3 x 6 1)
  | .iminIL x => (64, enR3 x.r 6 3 + 4294967296 * enModifier x.m)
  | .iminN x => (32, enR3 x 7 1)
  | .iminNL x => (64, enR3 x.r 7 3 + 4294967296 * enModifier x.m)
  | .imaxI x => (32, enR3 x 8 1)
  | .imaxIL x => (64, enR3 x.r 8 3 + 4294967296 * enModifier x.m)
  | .imaxN x => (32, enR3 x 9 1)
  | .imaxNL x => (64, enR3 x.r 9 3 + 4294967296 * enModifier x.m)
  | .iabsd x => (32, enR3 x 10 1)
  | .iabsdL x => (64, enR3 x.r 10 3 + 4294967296 * enModifier x.m)
  | .and x => (32, enR3 x 11 1)
  | .andL x => (64, enR3 x.r 11 3 + 4294967296 * enModifier x.m)
  | .or x => (32, enR3 x 12 1)
  | .orL x => (64, enR3 x.r 12 3 + 4294967296 * enModifier x.m)
  | .xor x => (32, enR3 x 13 1)
  | .xorL x => (64, enR3 x.r 13 3 + 4294967296 * enModifier x.m)
  | .andn x => (32, enR3 x 14 1)
  | .andnL x => (64, enR3 x.r 14 3 + 4294967296 * enModifier x.m)
  | .mov x => (32, enR1 x 15 1)
  | .movL x => (64, enR1 x.r 15 3 + 4294967296 * enModifier x.m)
  | .shl x => (32, enR3 x 16 1)
  | .shlL x => (64, enR3 x.r 16 3 + 4294967296 * enModifier x.m)
  | .shrN x => (32, enR3 x 17 1)
  | .shrNL x => (64, enR3 x.r 17 3 + 4294967296 * enModifier x.m)
  | .shrI x => (32, enR3 x 18 1)
  | .shrIL x => (64, enR3 x.r 18 3 + 4294967296 * enModifier x.m)
  | .clz x => (32, enR1 x 19 1)
  | .clzL x => (64, enR1 x.r 19 3 + 4294967296 * enModifier x.m)
  | .popc x => (32, enR1 x 20 1)
  | .popcL x => (64, enR1 x.r 20 3 + 4294967296 * enModifier x.m)
  | .bfxN x => (32, enR3 x 21 1)
  | .bfxNL x => (64, enR3 x.r 21 3 + 4294967296 * enModifier x.m)
  | .bfxI x => (32, enR3 x 22 1)
  | .bfxIL x => (64, enR3 x.r 22 3 + 4294967296 * enModifier x.m)
  | .bfi x => (32, enR3 x 23 1)
  | .bfiL x => (64, enR3 x.r 23 3 + 4294967296 * enModifier x.m)
  | .perm x => (32, enR3 x 24 1)
  | .permL x => (64, enR3 x.r 24 3 + 4294967296 * enModifier x.m)
  | .icmpEq x => (32, enR3 x 25 1)
  | .icmpEqL x => (64, enR3 x.r 25 3 + 4294967296 * enModifier x.m)
  | .icmpNe x => (32, enR3 x 26 1)
  | .icmpNeL x => (64, enR3 x.r 26 3 + 4294967296 * enModifier x.m)
  | .icmpLtI x => (32, enR3 x 27 1)
  | .icmpLtIL x => (64, enR3 x.r 27 3 + 4294967296 * enModifier x.m)
  | .icmpLeI x => (32, enR3 x 28 1)
  | .icmpLeIL x => (64, enR3 x.r 28 3 + 4294967296 * enModifier x.m)
  | .icmpLtN x => (32, enR3 x 29 1)
  | .icmpLtNL x => (64, enR3 x.r 29 3 + 4294967296 * enModifier x.m)
  | .icmpLeN x => (32, enR3 x 30 1)
  | .icmpLeNL x => (64, enR3 x.r 30 3 + 4294967296 * enModifier x.m)
  | .qlopAnd x => (32, enQl x 31 1)
  | .qlopOr x => (32, enQl x 31 1 + 1073741824)
  | .qlopXor x => (32, enQl x 31 1 + 2147483648)
  | .qlopAndn x => (32, enQl x 31 1 + 3221225472)
  | .ladd x => (32, enR3 x 32 1)
  | .laddL x => (64, enR3 x.r 32 3 + 4294967296 * enModifier x.m)
  | .lsub x => (32, enR3 x 33 1)
  | .lsubL x => (64, enR3 x.r 33 3 + 4294967296 * enModifier x.m)
  | .lmul x => (32, enR3 x 34 1)
  | .lmulL x => (64, enR3 x.r 34 3 + 4294967296 * enModifier x.m)
  | .lmac x => (32, enR3 x 35 1)
  | .lmacL x => (64, enR3 x.r 35 3 + 4294967296 * enModifier x.m)
  | .lshl x => (32, enR3 x 36 1)
  | .lshlL x => (64, enR3 x.r 36 3 + 4294967296 * enModifier x.m)
  | .lshrN x => (32, enR3 x 37 1)
  | .lshrNL x => (64, enR3 x.r 37 3 + 4294967296 * enModifier x.m)
  | .lshrI x => (32, enR3 x 38 1)
  | .lshrIL x => (64, enR3 x.r 38 3 + 4294967296 * enModifier x.m)
  | .lextI x => (32, enR1 x 39 1)
  | .lextIL x => (64, enR1 x.r 39 3 + 4294967296 * enModifier x.m)
  | .lextN x => (32, enR1 x 40 1)
  | .lextNL x => (64, enR1 x.r 40 3 + 4294967296 * enModifier x.m)
  | .lcmpEq x => (32, enR3 x 41 1)
  | .lcmpEqL x => (64, enR3 x.r 41 3 + 4294967296 * enModifier x.m)
  | .lcmpNe x => (32, enR3 x 42 1)
  | .lcmpNeL x => (64, enR3 x.r 42 3 + 4294967296 * enModifier x.m)
  | .lcmpLtI x => (32, enR3 x 43 1)
  | .lcmpLtIL x => (64, enR3 x.r 43 3 + 4294967296 * enModifier x.m)
  | .lcmpLtN x => (32, enR3 x 44 1)
  | .lcmpLtNL x => (64, enR3 x.r 44 3 + 4294967296 * enModifier x.m)
  | .lea2 x => (32, enR3 x 45 1)
  | .lea2L x => (64, enR3 x.r 45 3 + 4294967296 * enModifier x.m)
  | .lea3 x => (32, enR3 x 46 1)
  | .lea3L x => (64, enR3 x.r 46 3 + 4294967296 * enModifier x.m)
  | .lea4 x => (32, enR3 x 47 1)
  | .lea4L x => (64, enR3 x.r 47 3 + 4294967296 * enModifier x.m)
  | .fadd x => (32, enR3 x 48 1)
  | .faddL x => (64, enR3 x.r 48 3 + 4294967296 * enModifier x.m)
  | .fsub x => (32, enR3 x 49 1)
  | .fsubL x => (64, enR3 x.r 49 3 + 4294967296 * enModifier x.m)
  | .fmul x => (32, enR3 x 50 1)
  | .fmulL x => (64, enR3 x.r 50 3 + 4294967296 * enModifier x.m)
  | .ffma x => (32, enR3 x 51 1)
  | .ffmaL x => (64, enR3 x.r 51 3 + 4294967296 * enModifier x.m)
  | .fmin x => (32, enR3 x 52 1)
  | .fminL x => (64, enR3 x.r 52 3 + 4294967296 * enModifier x.m)
  | .fmax x => (32, enR3 x 53 1)
  | .fmaxL x => (64, enR3 x.r 53 3 + 4294967296 * enModifier x.m)
  | .fcmpEq x => (32, enR3 x 54 1)
  | .fcmpEqL x => (64, enR3 x.r 54 3 + 4294967296 * enModifier x.m)
  | .fcmpNe x => (32, enR3 x 55 1)
  | .fcmpNeL x => (64, enR3 x.r 55 3 + 4294967296 * enModifier x.m)
  | .fcmpLt x => (32, enR3 x 56 1)
  | .fcmpLtL x => (64, enR3 x.r 56 3 + 4294967296 * enModifier x.m)
  | .fcmpLe x => (32, enR3 x 57 1)
  | .fcmpLeL x => (64, enR3 x.r 57 3 + 4294967296 * enModifier x.m)
  | .fsfu x => (32, enRf x 58 1)
  | .fsfuL x => (64, enRf x.r 58 3 + 4294967296 * enModifier x.m)
  | .hadd2F16 x => (32, enR3 x 59 1)
  | .hadd2F16L x => (64, enR3 x.r 59 3 + 4294967296 * enModifier x.m)
  | .hmul2F16 x => (32, enR3 x 60 1)
  | .hmul2F16L x => (64, enR3 x.r 60 3 + 4294967296 * enModifier x.m)
  | .hfma2F16 x => (32, enR3 x 61 1)
  | .hfma2F16L x => (64, enR3 x.r 61 3 + 4294967296 * enModifier x.m)
  | .hfma2Bf16 x => (32, enR3 x 62 1)
  | .hfma2Bf16L x => (64, enR3 x.r 62 3 + 4294967296 * enModifier x.m)
  | .hadd2Bf16 x => (32, enR3 x 63 1)
  | .hadd2Bf16L x => (64, enR3 x.r 63 3 + 4294967296 * enModifier x.m)
  | .cvt x => (32, enRf x 64 1)
  | .cvtL x => (64, enRf x.r 64 3 + 4294967296 * enModifier x.m)
  | .cvtp x => (32, enRf x 65 1)
  | .cvtpL x => (64, enRf x.r 65 3 + 4294967296 * enModifier x.m)
  | .iaddi x => (32, enIm x 66 1)
  | .iaddiL x => (64, enIm64 x 66 3 + 4294967296 * x.i.toNat)
  | .andi x => (32, enIm x 67 1)
  | .andiL x => (64, enIm64 x 67 3 + 4294967296 * x.i.toNat)
  | .ori x => (32, enIm x 68 1)
  | .oriL x => (64, enIm64 x 68 3 + 4294967296 * x.i.toNat)
  | .xori x => (32, enIm x 69 1)
  | .xoriL x => (64, enIm64 x 69 3 + 4294967296 * x.i.toNat)
  | .shli x => (32, enIm x 70 1)
  | .shliL x => (64, enIm64 x 70 3 + 4294967296 * x.i.toNat)
  | .shriN x => (32, enIm x 71 1)
  | .shriNL x => (64, enIm64 x 71 3 + 4294967296 * x.i.toNat)
  | .shriI x => (32, enIm x 72 1)
  | .shriIL x => (64, enIm64 x 72 3 + 4294967296 * x.i.toNat)
  | .movi x => (32, enKm x 73 1)
  | .moviL x => (64, enKm64 x 73 3 + 4294967296 * x.i.toNat)
  | .movhi x => (32, enKm x 74 1)
  | .movhiL x => (64, enKm64 x 74 3 + 4294967296 * x.i.toNat)
  | .icmpiEq x => (32, enIm x 75 1)
  | .icmpiEqL x => (64, enIm64 x 75 3 + 4294967296 * x.i.toNat)
  | .icmpiLtI x => (32, enIm x 76 1)
  | .icmpiLtIL x => (64, enIm64 x 76 3 + 4294967296 * x.i.toNat)
  | .fmovi x => (32, enKm x 77 1)
  | .fmoviL x => (64, enKm64 x 77 3 + 4294967296 * x.i.toNat)
  | .ld x => (32, enMe x 80 1)
  | .ldL x => (64, enMe x.r 80 3 + 4294967296 * x.i.toNat)
  | .st x => (32, enMe x 81 1)
  | .stL x => (64, enMe x.r 81 3 + 4294967296 * x.i.toNat)
  | .atomAdd x => (32, enMe x 82 1)
  | .atomAddL x => (64, enMe x.r 82 3 + 4294967296 * x.i.toNat)
  | .atomFadd x => (32, enMe x 83 1)
  | .atomFaddL x => (64, enMe x.r 83 3 + 4294967296 * x.i.toNat)
  | .atomMin x => (32, enMe x 84 1)
  | .atomMinL x => (64, enMe x.r 84 3 + 4294967296 * x.i.toNat)
  | .atomMax x => (32, enMe x 85 1)
  | .atomMaxL x => (64, enMe x.r 85 3 + 4294967296 * x.i.toNat)
  | .atomAnd x => (32, enMe x 86 1)
  | .atomAndL x => (64, enMe x.r 86 3 + 4294967296 * x.i.toNat)
  | .atomOr x => (32, enMe x 87 1)
  | .atomOrL x => (64, enMe x.r 87 3 + 4294967296 * x.i.toNat)
  | .atomXor x => (32, enMe x 88 1)
  | .atomXorL x => (64, enMe x.r 88 3 + 4294967296 * x.i.toNat)
  | .atomExch x => (32, enMe x 89 1)
  | .atomExchL x => (64, enMe x.r 89 3 + 4294967296 * x.i.toNat)
  | .atomCas x => (32, enMe x 90 1)
  | .atomCasL x => (64, enMe x.r 90 3 + 4294967296 * x.i.toNat)
  | .fenceFull x => (32, enSc x 91 1)
  | .fenceAcq x => (32, enSc x 91 1 + 16777216)
  | .fenceRel x => (32, enSc x 91 1 + 33554432)
  | .fenceWack x => (32, enH0 x 91 1 + 50331648)
  | .phase x => (32, enSc x 92 1)
  | .fetchb x => (32, enH0 x 93 1)
  | .copInv x => (32, enA1 x 94 1)
  | .copInvL x => (64, enA1 x.r 94 3 + 4294967296 * x.i.toNat)
  | .copWb x => (32, enA1 x 94 1 + 67108864)
  | .copWbL x => (64, enA1 x.r 94 3 + 67108864 + 4294967296 * x.i.toNat)
  | .copWbi x => (32, enA1 x 94 1 + 134217728)
  | .copWbiL x => (64, enA1 x.r 94 3 + 134217728 + 4294967296 * x.i.toNat)
  | .bra x => (32, enI16 x 96 1)
  | .braL x => (64, enI16l x 96 3 + 4294967296 * x.i.toNat)
  | .brx x => (32, enA1 x 97 1)
  | .brxL x => (64, enA1 x.r 97 3 + 4294967296 * enModifier x.m)
  | .call x => (32, enI16 x 98 1)
  | .callL x => (64, enI16l x 98 3 + 4294967296 * x.i.toNat)
  | .callx x => (32, enA1 x 99 1)
  | .callxL x => (64, enA1 x.r 99 3 + 4294967296 * enModifier x.m)
  | .ret x => (32, enH0 x 100 1)
  | .exit x => (32, enH0 x 101 1)
  | .loop x => (32, enLo x 102 1)
  | .loopL x => (64, enLo64 x 102 3 + 4294967296 * x.e.toNat)
  | .brk x => (32, enH0 x 103 1)
  | .lcfg x => (32, enLc x 104 1)
  | .cnv x => (32, enH0 x 105 1)
  | .cnvMask x => (32, enD1 x 105 1 + 2097152)
  | .bar x => (32, enBa x 106 1)
  | .trap x => (32, enN11 x 107 1)
  | .sysc x => (32, enN11 x 108 1)
  | .bkpt x => (32, enN11 x 109 1)
  | .balw x => (64, enBw x 110 3 + 4294967296 * x.i.toNat)
  | .yield x => (32, enH0 x 111 1)
  | .mapset x => (32, enMs x 112 1 + 2147483648)
  | .mapchn x => (32, enM3 x 113 1)
  | .mapprt x => (32, enM3 x 114 1 + 2147483648)
  | .maptrn x => (32, enM3 x 115 1 + 2147483648)
  | .mapflt x => (32, enR1 x 116 1)
  | .mapchk x => (64, enTq x 117 3 + 4294967296 * x.k.toNat)
  | .bankq x => (64, enTq x 118 3 + 4294967296 * x.k.toNat)
  | .hset x => (32, enVh x 119 1)
  | .tcpy x => (32, enV1 x 120 1)
  | .tmma x => (32, enV1 x 121 1)
  | .tgat x => (32, enV1 x 122 1)
  | .tcol x => (32, enV1 x 123 1)
  | .tld x => (64, enTl x 124 3 + 4294967296 * (x.rh.toNat + 16 * x.rl.toNat))
  | .tst x => (64, enTl x 125 3 + 4294967296 * (x.rh.toNat + 16 * x.rl.toNat))
  | .accZero x => (32, enHh x 126 1)
  | .accZeroL x => (64, enHh x.r 126 3 + 4294967296 * x.i.toNat)
  | .accSetexp x => (32, enVh x 126 1 + 1048576)
  | .accSetexpL x => (64, enVh x.r 126 3 + 1048576 + 4294967296 * x.i.toNat)
  | .accRdrow x => (32, enVh x 126 1 + 2097152)
  | .accRdrowL x => (64, enVh x.r 126 3 + 2097152 + 4294967296 * x.i.toNat)
  | .accWrrow x => (32, enVh x 126 1 + 3145728)
  | .accWrrowL x => (64, enVh x.r 126 3 + 3145728 + 4294967296 * x.i.toNat)
  | .accClrst x => (32, enHh x 126 1 + 4194304)
  | .accClrstL x => (64, enHh x.r 126 3 + 4194304 + 4294967296 * x.i.toNat)
  | .nop x => (32, enH0 x 127 1)
  | .nopL x => (64, enE64 x 127 3 + 4294967296 * enExt x)
  | .idivI x => (32, enEd x 127 1 + 2097152)
  | .idivIL x => (64, enE64 x 127 3 + 2097152 + 4294967296 * enExt x)
  | .idivN x => (32, enEd x 127 1 + 4194304)
  | .idivNL x => (64, enE64 x 127 3 + 4194304 + 4294967296 * enExt x)
  | .iremI x => (32, enEd x 127 1 + 6291456)
  | .iremIL x => (64, enE64 x 127 3 + 6291456 + 4294967296 * enExt x)
  | .iremN x => (32, enEd x 127 1 + 8388608)
  | .iremNL x => (64, enE64 x 127 3 + 8388608 + 4294967296 * enExt x)
  | .rotl x => (32, enEd x 127 1 + 10485760)
  | .rotlL x => (64, enE64 x 127 3 + 10485760 + 4294967296 * enExt x)
  | .brev x => (32, enEd x 127 1 + 12582912)
  | .brevL x => (64, enE64 x 127 3 + 12582912 + 4294967296 * enExt x)
  | .fcmpOrd x => (32, enD1 x 127 1 + 14680064)
  | .fcmpOrdL x => (64, enE64 x 127 3 + 14680064 + 4294967296 * enExt x)
  | .fcmpUnord x => (32, enD1 x 127 1 + 16777216)
  | .fcmpUnordL x => (64, enE64 x 127 3 + 16777216 + 4294967296 * enExt x)
  | .fclass x => (32, enEd x 127 1 + 18874368)
  | .fclassL x => (64, enE64 x 127 3 + 18874368 + 4294967296 * enExt x)
  | .frnd x => (32, enEd x 127 1 + 20971520)
  | .frndL x => (64, enE64 x 127 3 + 20971520 + 4294967296 * enExt x)
  | .fexp x => (32, enEd x 127 1 + 23068672)
  | .fexpL x => (64, enE64 x 127 3 + 23068672 + 4294967296 * enExt x)
  | .q2v x => (32, enD1 x 127 1 + 134217728)
  | .q2vL x => (64, enE64 x 127 3 + 134217728 + 4294967296 * enExt x)
  | .v2q x => (32, enH0 x 127 1 + 136314880)
  | .v2qL x => (64, enE64 x 127 3 + 136314880 + 4294967296 * enExt x)
  | .qpop x => (32, enEd x 127 1 + 138412032)
  | .qpopL x => (64, enE64 x 127 3 + 138412032 + 4294967296 * enExt x)
  | .pfirst x => (32, enD1 x 127 1 + 140509184)
  | .pfirstL x => (64, enE64 x 127 3 + 140509184 + 4294967296 * enExt x)
  | .pany x => (32, enD1 x 127 1 + 142606336)
  | .panyL x => (64, enE64 x 127 3 + 142606336 + 4294967296 * enExt x)
  | .pall x => (32, enD1 x 127 1 + 144703488)
  | .pallL x => (64, enE64 x 127 3 + 144703488 + 4294967296 * enExt x)
  | .pmask x => (32, enEd x 127 1 + 146800640)
  | .pmaskL x => (64, enE64 x 127 3 + 146800640 + 4294967296 * enExt x)
  | .xgetAt x => (32, enD1 x 127 1 + 148897792)
  | .xgetAtL x => (64, enE64 x 127 3 + 148897792 + 4294967296 * enExt x)
  | .xgetFlip x => (32, enD1 x 127 1 + 150994944)
  | .xgetFlipL x => (64, enE64 x 127 3 + 150994944 + 4294967296 * enExt x)
  | .xgetStep x => (32, enD1 x 127 1 + 153092096)
  | .xgetStepL x => (64, enE64 x 127 3 + 153092096 + 4294967296 * enExt x)
  | .xgetRot x => (32, enD1 x 127 1 + 155189248)
  | .xgetRotL x => (64, enE64 x 127 3 + 155189248 + 4294967296 * enExt x)
  | .cnvq x => (32, enH0 x 127 1 + 157286400)
  | .cnvqL x => (64, enE64 x 127 3 + 157286400 + 4294967296 * enExt x)
  | .waitn x => (32, enH0 x 127 1 + 268435456)
  | .waitnL x => (64, enE64 x 127 3 + 268435456 + 4294967296 * enExt x)
  | .setg x => (32, enH0 x 127 1 + 270532608)
  | .setgL x => (64, enE64 x 127 3 + 270532608 + 4294967296 * enExt x)
  | .clrg x => (32, enH0 x 127 1 + 272629760)
  | .clrgL x => (64, enE64 x 127 3 + 272629760 + 4294967296 * enExt x)
  | .alw x => (32, enEd x 127 1 + 274726912)
  | .alwL x => (64, enE64 x 127 3 + 274726912 + 4294967296 * enExt x)
  | .mapget x => (32, enEd x 127 1 + 276824064)
  | .mapgetL x => (64, enE64 x 127 3 + 276824064 + 4294967296 * enExt x)
  | .mapput x => (32, enH0 x 127 1 + 278921216)
  | .mapputL x => (64, enE64 x 127 3 + 278921216 + 4294967296 * enExt x)
  | .hget x => (32, enD1 x 127 1 + 281018368)
  | .hgetL x => (64, enE64 x 127 3 + 281018368 + 4294967296 * enExt x)
  | .lget x => (32, enEd x 127 1 + 402653184)
  | .lgetL x => (64, enE64 x 127 3 + 402653184 + 4294967296 * enExt x)
  | .lput x => (32, enH0 x 127 1 + 404750336)
  | .lputL x => (64, enE64 x 127 3 + 404750336 + 4294967296 * enExt x)
  | .csrr x => (32, enEd x 127 1 + 536870912)
  | .csrrL x => (64, enE64 x 127 3 + 536870912 + 4294967296 * enExt x)
  | .csrw x => (32, enH0 x 127 1 + 538968064)
  | .csrwL x => (64, enE64 x 127 3 + 538968064 + 4294967296 * enExt x)
  | .csrs x => (32, enH0 x 127 1 + 541065216)
  | .csrsL x => (64, enE64 x 127 3 + 541065216 + 4294967296 * enExt x)
  | .csrc x => (32, enH0 x 127 1 + 543162368)
  | .csrcL x => (64, enE64 x 127 3 + 543162368 + 4294967296 * enExt x)
  | .tret x => (32, enH0 x 127 1 + 545259520)
  | .tretL x => (64, enE64 x 127 3 + 545259520 + 4294967296 * enExt x)
  | .halt x => (32, enH0 x 127 1 + 547356672)
  | .haltL x => (64, enE64 x 127 3 + 547356672 + 4294967296 * enExt x)
  | .icinv x => (32, enH0 x 127 1 + 549453824)
  | .icinvL x => (64, enE64 x 127 3 + 549453824 + 4294967296 * enExt x)
  | .tlbinvPage x => (32, enH0 x 127 1 + 551550976)
  | .tlbinvPageL x => (64, enE64 x 127 3 + 551550976 + 4294967296 * enExt x)
  | .tlbinvCtx x => (64, enE64 x 127 3 + 551550976 + 4294967296 * enExt x)
  | .tlbinvAll x => (64, enE64 x 127 3 + 551550976 + 4294967296 * enExt x)
  | .tlbprobe x => (32, enEd x 127 1 + 553648128)
  | .tlbprobeL x => (64, enE64 x 127 3 + 553648128 + 4294967296 * enExt x)
  | .cresize x => (32, enH0 x 127 1 + 555745280)
  | .cresizeL x => (64, enE64 x 127 3 + 555745280 + 4294967296 * enExt x)
  | .migDev x => (32, enH0 x 127 1 + 557842432)
  | .migDevL x => (64, enE64 x 127 3 + 557842432 + 4294967296 * enExt x)
  | .migHost x => (64, enE64 x 127 3 + 557842432 + 4294967296 * enExt x)
  | .pf x => (32, enH0 x 127 1 + 559939584)
  | .pfL x => (64, enE64 x 127 3 + 559939584 + 4294967296 * enExt x)
  | .tspawn x => (32, enD1 x 127 1 + 671088640)
  | .tspawnL x => (64, enE64 x 127 3 + 671088640 + 4294967296 * enExt x)
  | .tsig x => (32, enH0 x 127 1 + 673185792)
  | .tsigL x => (64, enE64 x 127 3 + 673185792 + 4294967296 * enExt x)
  | .evpost x => (32, enH0 x 127 1 + 675282944)
  | .evpostL x => (64, enE64 x 127 3 + 675282944 + 4294967296 * enExt x)
  | .evget x => (32, enEd x 127 1 + 677380096)
  | .evgetL x => (64, enE64 x 127 3 + 677380096 + 4294967296 * enExt x)
  | .dbgmb x => (32, enH0 x 127 1 + 805306368)
  | .dbgmbL x => (64, enE64 x 127 3 + 805306368 + 4294967296 * enExt x)
  | .dbgrd x => (32, enD1 x 127 1 + 807403520)
  | .dbgrdL x => (64, enE64 x 127 3 + 807403520 + 4294967296 * enExt x)
  | .wpset x => (32, enH0 x 127 1 + 809500672)
  | .wpsetL x => (64, enE64 x 127 3 + 809500672 + 4294967296 * enExt x)
  | .hostMigrationRequest _ _ _ => (0, 0)
  | .restartAnnouncement _ _ => (0, 0)
  | .partialCreditReturn _ => (0, 0)
  | .walkComplete _ _ => (0, 0)
  | .divideResult _ => (0, 0)
  | .chunkPeerLostTimeout _ _ => (0, 0)

end Sys2Proof
end

