-- ==== Sys2Proof/Machine/State.lean ====
section
/-! DEFINITION. The state of one module as plain data: every register, memory, queue and table the spec names,
and the state right after reset. -/

namespace Sys2Proof.Machine

/-- A table of numbered things; a number it does not list holds the thing's reset value. -/
abbrev Tab (α : Type) := List (Nat × α)

/-! ## Threads -/

/-- A register of a course by its physical number (R385): a thread register, a predicate or a uniform register. -/
inductive RegRef where
  | v (n : Reg)
  | q (n : BitVec 4)
  | c (n : Reg)
  deriving DecidableEq, Repr

/-- A fixed-latency result: readable from cycle `ready` (R25); `ipc` is the instruction that produced it. -/
structure Pend where
  ready : Nat
  dst : RegRef
  val : Word
  ipc : Word
  deriving DecidableEq, Repr

/-- One loop level (R46). -/
structure Level where
  cnt : BitVec 32 := 0
  idx : BitVec 32 := 0
  str : Word := 0
  lend : Word := 0
  deriving DecidableEq, Repr

/-- A barrier instance: the scope, its place, the gang, task or convergence set it belongs to, and its number (R237). -/
structure BarKey where
  scope : Nat
  place : Nat
  group : Nat
  num : Nat
  deriving DecidableEq, Repr

/-- An access that an ordering operation waits for, and the scope at which it must be visible (R155, R160). -/
structure Await where
  id : Nat
  scope : Nat
  deriving DecidableEq, Repr

/-- The state of a live thread that is not overlaid by halting (R21). Scoreboard wait, parking and fetch suspension
are read from the registers awaited and from the course. -/
inductive Wait where
  | ready
  /-- In barrier wait; `seq` is the completion sequence at arrival, `counted` whether the arrival is counted. -/
  | barrier (key : BarKey) (seq : Nat) (counted : Bool)
  /-- In convergence wait at the thread's own pc, with its mask; `pred` names the predicate of a `cnvq`, `due` is the
  cycle of its time-out. -/
  | conv (mask : Nat) (pred : Option (BitVec 4)) (due : Nat) (len : Nat)
  /-- At a fence or phase since issue `ord`; `inval` the lane load cache is invalidated at completion, `pod` a lost
  destination is recorded then. -/
  | fence (isPhase : Bool) (awaits : List Await) (inval pod : Bool) (ord len : Nat)
  /-- At a `waitn` of a class and count. -/
  | waitn (cls n len : Nat)
  /-- At an `icinv` over a range, or at a `fetchb`. -/
  | icinv (lo size : Nat) (awaits : List Await) (len : Nat)
  | fetchb (awaits : List Await) (len : Nat)
  /-- At a `cresize` of the die, with the count of ways it asks for. -/
  | cresize (ways len : Nat)
  deriving DecidableEq, Repr

/-- One scalar thread (R42, R46, R47). -/
structure Thread where
  tid : Nat := 0
  live : Bool := false
  halted : Bool := false
  sup : Bool := false
  pc : Word := 0
  wait : Wait := .ready
  /-- The issue order of the instruction at which it waits (R378). -/
  waitOrd : Nat := 0
  age : Nat := 0
  v : Vector Word 32 := Vector.replicate 32 0
  q : BitVec 12 := 0
  pend : List Pend := []
  /-- Registers that await a memory or engine result, with the access that will write each (R21). -/
  sb : List (RegRef × Nat) := []
  seqtag : BitVec 32 := 0
  /-- The issue order of the atomic whose stamp `seqtag` holds (R26, R50). -/
  seqOrd : Nat := 0
  lv : Vector Level 4 := Vector.replicate 4 {}
  lopen : Nat := 0
  ring : Nat := 0
  base : Nat := 0
  stages : Nat := 1
  rs : List Word := []
  depth : Nat := 0
  /-- Accesses that must be visible before this thread's later stores and atomics leave the lane (R160). -/
  relAfter : List Await := []
  /-- Acquire loads that hold every later access of this thread (R161). -/
  acqAfter : List Nat := []
  deriving DecidableEq, Repr

/-! ## Courses and traps -/

/-- A guard slot (R45). -/
inductive GSlot where
  | unresolved
  | isFalse
  | isTrue
  deriving DecidableEq, Repr

/-- A trap condition (R378, R385). `ord` is the issue order of the instruction that met it. -/
structure Cause where
  code : Nat := 0
  sub : Nat := 0
  num : Nat := 0
  scope : Nat := 0
  faddr : Word := 0
  ipc : Word := 0
  tmask : Nat := 0
  bseq : Nat := 0
  ord : Nat := 0
  /-- The uniform-divergence check's live count, or the missing threads of a time-out (R394, R395), by slot. -/
  missing : List (Nat × Nat × Nat) := []
  /-- The registers whose results a deferred fault lost (R378), by slot. -/
  lost : List (Nat × RegRef) := []
  /-- The reason and detail of a refused layout or command block (R402, R403). -/
  reason : Nat := 0
  detail : Nat := 0
  deriving DecidableEq, Repr

/-- Where a course stands in a trap (R379, R384). -/
inductive TrapPhase where
  | none
  /-- Stopped, waiting for its pending results (R379 step 2). -/
  | stopping
  /-- The handler thread of route 1 runs in this slot. -/
  | handler (slot : Nat)
  /-- Waiting for a resume under route 2 or 3. -/
  | waiting
  /-- A nested trap on a control core halted the course (R389). -/
  | nestedHalt
  deriving DecidableEq, Repr

/-- A parking condition (R82). -/
inductive Park where
  | closed (dest : Nat)
  | queueFull (cls : Nat)
  | counterFull (cls : Nat)
  | codeEntry (base index : Nat)
  /-- A system call, with the slots of the group that made it. -/
  | sysc (call group len : Nat)
  deriving DecidableEq, Repr

/-- What a fetch-suspended course is waiting for (R21, R147, R151). -/
inductive Suspend where
  | walk (ctx : Nat) (va : Nat) (slot : Nat) (kind : Nat)
  | migration (die : Nat) (frame : Nat) (va : Nat) (slot : Nat) (isFetch : Bool)
  /-- A line of a remote fetch or fill that has not returned: its access. -/
  | line (id : Nat)
  /-- A line of code in what a `cresize` of a die changes (R146). -/
  | ways (die : Nat)
  deriving DecidableEq, Repr

/-- The issue group in a lane: the core, the course, its slots in ascending order, its address, and the cycle at
which it enters the lane (R22, R23). -/
structure Issue where
  core : Nat
  course : Nat
  slots : List Nat
  pc : Word
  t : Nat
  deriving DecidableEq, Repr

/-- A captured loop body (R235): its bounds and its parcels, of which one that could not be read at the capture is taken
when the course first fetches it (log 20). -/
structure LoopBuf where
  lo : Word
  hi : Word
  parcels : List (Option (BitVec 16))
  deriving DecidableEq, Repr

/-- Whether a step of a course is set, and whether its group is in the lane (R56, R433). -/
inductive StepSt where
  | off
  | armed
  | out
  deriving DecidableEq, Repr

/-- A course, or a course pair under its lower course (R19, R37, R42). -/
structure Course where
  task : Nat := 0
  /-- The position of the course among its task's courses. -/
  pos : Nat := 0
  threads : List Thread := []
  c : Vector Word 32 := Vector.replicate 32 0
  cpend : List Pend := []
  csb : List (RegRef × Nat) := []
  g : Vector GSlot 16 := Vector.replicate 16 .unresolved
  /-- The outstanding counters `ocp`, `omx`, `ogx`, `ocl` (R45). -/
  cnt : Vector Nat 4 := Vector.replicate 4 0
  tstat : Word := 0x0300000000000000
  fstat : Word := 0
  /-- Classes of which a retired command wrote `gl`, `pv` or another member's `cl` since the last `waitn` (R168). -/
  farDone : Vector Bool 4 := Vector.replicate 4 false
  /-- Last issue of the course, and of its upper half under `.width 16` (R22, R38). -/
  lastIssue : Option Nat := none
  lastIssueHi : Option Nat := none
  stallUntil : Nat := 0
  stallUntilHi : Nat := 0
  yieldUntil : Option Nat := none
  park : Option Park := none
  wakeAt : Option Nat := none
  susp : Option Suspend := none
  /-- The issue group that is fetch-suspended, its last check still to pass: it has taken its cycles in the lane (R21, R23). -/
  again : Option Issue := none
  trap : TrapPhase := .none
  cause : Cause := {}
  held : Option Cause := none
  heldLost : Bool := false
  nested : Bool := false
  deferred : List Cause := []
  /-- The threads as the trap being serviced left them, with the results that have reached them since (R391). -/
  saved : List Thread := []
  /-- The parking is older than the trap being serviced: it does not hold the handler. -/
  parkUnder : Bool := false
  loopBuf : Option LoopBuf := none
  /-- A body to be captured, by its first and last parcel: its parcels could not be read, or a trap or pre-emption has
  discarded it (R170, R235). -/
  recapture : Option (Word × Word) := none
  /-- The prefetched parcels: a virtual line address and its bytes (R170). -/
  prefetch : Option (Nat × List Byte) := none
  /-- A migration or walk that failed: the access that failed is to trap (R154). -/
  syscall : Nat := 0
  syscApplied : Bool := false
  /-- Lost destinations whose stores of this course were discarded and not yet recorded (R422). -/
  lostDests : List Nat := []
  /-- Stopped at its selection by a pre-emption (R84). -/
  stopped : Bool := false
  /-- Stepping under `dbgctl` (R56, R433). -/
  stepping : StepSt := .off
  /-- Writes of `dbgctl` that target the course and wait for its next selection (R56, R431). -/
  dbg : List Word := []
  deriving DecidableEq, Repr

/-! ## Tasks -/

/-- The state of one accumulator row (R101). -/
structure RowState where
  /-- The exponent, `none` while the row is unset. -/
  exp : Option Int := none
  events : BitVec 32 := 0
  inv : Bool := false
  ovf : Bool := false
  deriving DecidableEq, Repr

/-- A task of a gang named before it runs (R65): graph, node, linear index; `slot` is its context slot once vacated. -/
structure TaskRef where
  die : Nat
  graph : Nat
  node : Nat
  index : Nat
  resumed : Option Nat := none
  /-- The slot number that its `task` register shows once it has run (R52, R59). -/
  num : Nat := 0
  /-- Conditions of its courses, by position, that were held when it was saved (R418). -/
  held : List (Nat × Cause) := []
  /-- Its threads in convergence wait when it was saved: position of the course, slot, predicate and length (R85). -/
  convs : List (Nat × Nat × Option (BitVec 4) × Nat) := []
  /-- Its threads in barrier wait whose arrival was not yet counted: position of the course, and slot (R85). -/
  uncounted : List (Nat × Nat) := []
  /-- The loop bodies to be captured again, by the position of the course (R170). -/
  bodies : List (Nat × Word × Word) := []
  /-- The lost destinations that its courses are still to record, by the position of the course (R55, R422). -/
  marks : List (Nat × List Nat) := []
  deriving DecidableEq, Repr

/-- A node of a launch as its tasks need it (R63, R64). -/
structure Node where
  entry : Word := 0
  prio : Nat := 0
  width : Nat := 0
  gang : Nat := 1
  courses : Nat := 1
  gx : Nat := 1
  gy : Nat := 1
  gz : Nat := 1
  ctl : Bool := false
  deps : Int := 0
  regG : Nat := 0
  spG : Nat := 0
  accG : Nat := 0
  param : Word := 0
  succ : List Nat := []
  pvsz : Nat := 0
  cbix : Nat := 0xFFFF
  handles : List (Nat × BitVec 128) := []
  layouts : List (Nat × BitVec 640) := []
  /-- Tasks not yet ended; the node has ended when it is 0 after it became ready. -/
  left : Nat := 0
  /-- When the node became ready, in the order of readiness, and its gangs placed in each die's pool (R70, R75). -/
  readyAt : Option Nat := none
  placed : Tab Nat := []
  /-- Vacated tasks that the pool of a die could not queue, with the die (R75). -/
  resumed : List (Nat × TaskRef) := []
  ended : Bool := false
  deriving DecidableEq, Repr

/-- One entry of a collective binding table (R341). -/
structure Binding where
  words : List Word := []
  deriving DecidableEq, Repr

/-- A graph: an accepted launch (R62, R70, R78). -/
structure Graph where
  seq : Nat := 0
  die : Nat := 0
  ctx : Nat := 0
  dies : Nat := 0
  taskrec : Bool := false
  noderec : Bool := false
  gflag : Word := 0
  ctxa : Word := 0
  ctxs : Nat := 0
  slotSize : Nat := 0
  /-- Context slots in use (R83). -/
  slots : List Nat := []
  nodes : List Node := []
  binds : Tab Binding := []
  ended : Bool := false
  deriving DecidableEq, Repr

/-- A resident task (R33, R42). -/
structure Task where
  /-- The slot number that the `task` register shows (R52, R59). (log 127: DEDUCED, unsafe.) -/
  num : Nat := 0
  ref : TaskRef := { die := 0, graph := 0, node := 0, index := 0 }
  rank : Nat := 0
  gang : Nat := 1
  x : Nat := 0
  y : Nat := 0
  z : Nat := 0
  width : Nat := 0
  ctl : Bool := false
  ctx : Nat := 0
  prio : Nat := 0
  courses : List Nat := []
  pvBase : Nat := 0
  pvsz : Nat := 0
  h : Vector (BitVec 128) 16 := Vector.replicate 16 0
  m : Vector (BitVec 640) 32 := Vector.replicate 32 0
  astat : Word := 0
  uchk : Bool := false
  sbchk : Bool := false
  rsbase : Word := 0
  /-- Physical granules of the three parts, in the order of task offsets (R68). -/
  regG : List Nat := []
  spG : List Nat := []
  accG : List Nat := []
  /-- Row states by 64 × tile + row. -/
  rows : Tab RowState := []
  /-- Status of the task's end record, and the reason it ends early (R80). -/
  status : Nat := 0
  ending : Bool := false
  deriving DecidableEq, Repr

/-- Counts of one barrier instance (R238, R395): the arrivals as (linear task index, tid). -/
structure Bar where
  key : BarKey
  arrived : List (Nat × Nat) := []
  /-- The cycle of its time-out, from its first arrival on (R395). -/
  due : Option Nat := none
  seq : Nat := 0
  deriving DecidableEq, Repr

/-! ## Engine commands -/

/-- A tile operand as snapshot at issue: descriptor words, handle, layout, evaluated origin and, for a `cl` or own
handle, where its parts live (R276). -/
structure Operand where
  desc : List Nat := []
  handle : BitVec 128 := 0
  layout : BitVec 640 := 0
  origin : List Nat := []
  /-- The core and granules of each member that the handle can reach, as at issue. -/
  homes : List (Nat × List Nat) := []
  /-- Permute cycles of one chunk (R130). -/
  cost : Nat := 0
  deriving DecidableEq, Repr

/-- What a queued command does (R285 to R296). -/
inductive CmdKind where
  | copy
  | mma
  | writeBack
  | gather
  | col
  | accOp (sub : Nat) (imm : Nat) (val : Word) (dst : Option RegRef)
  deriving DecidableEq, Repr

/-- Whether a command has begun, and how it ended. -/
inductive CmdState where
  | queued
  | running
  | performed
  | failed
  deriving DecidableEq, Repr

/-- A command in an engine queue with its snapshots (R276, R278). -/
structure Cmd where
  id : Nat
  kind : CmdKind
  cls : Nat
  course : Nat
  slot : Nat
  task : Nat
  ipc : Word := 0
  blockAt : Nat := 0
  gen : Option Nat := none
  sup : Bool := false
  words : List Nat := []
  ops : List Operand := []
  idx : List Nat := []
  st : CmdState := .queued
  /-- Next K of a multiply-accumulate. -/
  kdone : Nat := 0
  perm : Nat := 0
  saturated : Bool := false
  wroteFar : Bool := false
  writes : List Nat := []
  /-- Lines of other destinations still to be sent, held by the send allowance (R332): destination, line, written bits. -/
  todo : List (Nat × Nat × List (Nat × Byte × Byte)) := []
  discarded : Bool := false
  /-- The accumulator tile, the task's offset in units of 65,536 bytes. -/
  tile : Option Nat := none
  /-- The completion flag's or record's handle and offset (R285, R294). -/
  flag : Option (Operand × Nat) := none
  /-- The stores and atomics of the core that left its lanes before the command (R166). -/
  after : List Nat := []
  /-- The cycle in which it reached its engine, and its lane (R107). -/
  cycle : Nat := 0
  lane : Nat := 0
  ord : Nat := 0
  /-- The fault that the command raises when it has retired (R400). -/
  fault : Option Cause := none
  deriving DecidableEq, Repr

/-! ## Accesses -/

/-- Where a byte lives (R155): a pool, HBM of a die by location, die scratch, or another destination. -/
inductive Loc where
  | pool (core off : Nat)
  | hbm (die l : Nat)
  | scratch (die off : Nat)
  | remote (dest off : Nat)
  deriving DecidableEq, Repr

/-- The atomic operations (R254 to R256). -/
inductive AtomOp where
  | add | fadd | min | max | and | or | xor | exch | cas
  deriving DecidableEq, Repr

/-- What an access does at its home. -/
inductive AccKind where
  | load (acquire : Bool)
  | store (release : Bool)
  | atom (op : AtomOp) (noReturn : Bool)
  | cop (op : Nat)
  deriving DecidableEq, Repr

/-- How far an access has come (R155, R160). -/
inductive AccSt where
  /-- Held behind a fence, a release or an acquire: it has not left the lane. -/
  | held
  /-- It has left the lane and waits to be performed at its home. -/
  | left
  /-- In a hod entry, or sent to another destination and unacknowledged. -/
  | sent
  /-- Performed at its home; a load or returning atomic has its value. -/
  | performed
  deriving DecidableEq, Repr

/-- An access of a lane between issue and completion. -/
structure Access where
  id : Nat
  core : Nat
  course : Nat
  slot : Nat
  ord : Nat
  ipc : Word
  va : Word
  kind : AccKind
  w : BitVec 3
  nib : Bool := false
  size : Nat
  loc : Loc
  data : BitVec 128 := 0
  cmp : Word := 0
  dst : List RegRef := []
  after : List Await := []
  st : AccSt := .left
  val : BitVec 128 := 0
  tag : BitVec 32 := 0
  /-- An uncorrectable word was read: the consumer faults (R410). -/
  bad : Bool := false
  /-- The read of a 16-byte line of code or of a spilled return stack. -/
  code : Bool := false
  /-- An element of a register tile: the bit of the register where it stands, and its bits (R274). -/
  part : Option (Nat × Nat) := none
  /-- The further slots whose access it is, as a mask (R275). -/
  also : Nat := 0
  /-- An acquire load whose implied scope is `quad` or wider: its return invalidates the lane load cache (R161). -/
  inval : Bool := false
  /-- It names its place by a `ds` handle: an access of `tld` or `tst` (R145). -/
  tile : Bool := false
  /-- A fence or a release store has held it back (R160). -/
  wasHeld : Bool := false
  /-- The bits of a remote load that the hod held when it left the lane: offset, mask, values (R165). -/
  hod : List (Nat × Byte × Byte) := []
  /-- The lane load cache does not keep the line that it brings: an acquire has completed, or another load of the line has
  returned, since it left the lane (R157). -/
  stale : Bool := false
  deriving DecidableEq, Repr

/-- A hod entry (R165): destination, line, written bytes, the accesses it carries, and when it was allocated. -/
structure HodEntry where
  id : Nat
  dest : Nat
  line : Nat
  /-- Written bits: the byte's offset in the line, the mask of its written bits, and their values. -/
  bytes : List (Nat × Byte × Byte)
  atom : Option Nat := none
  accs : List Nat := []
  born : Nat := 0
  /-- A full set of entries, a release, a fence, a phase, a task end or a pre-emption asks for its drain (R165). -/
  due : Bool := false
  deriving DecidableEq, Repr

/-- A cached 64-byte line of the lane load cache (R139). -/
structure LcLine where
  loc : Loc
  bytes : List Byte
  deriving DecidableEq, Repr

/-- A translation held in a TLB (R148, R149): context, page base, page size, and the leaf entry. -/
structure TlbEntry where
  ctx : Nat
  page : Nat
  size : Nat
  pte : Word
  deriving DecidableEq, Repr

/-! ## Cores, clusters, dies -/

/-- A compute or control core. -/
structure Core where
  tasks : Tab Task := []
  courses : Tab Course := []
  /-- First free cycle of each lane (R22). -/
  laneFree : Tab Nat := []
  trapvec : Word := 0
  dbgctl : Word := 0
  wp : Vector Word 4 := Vector.replicate 4 0
  mbOut : Vector Word 16 := Vector.replicate 16 0
  mbIn : Vector Word 16 := Vector.replicate 16 0
  iaddr : Word := 0
  ilen : Word := 0
  trapq : Word := 0
  evCursor : Nat := 0
  closed : BitVec 512 := 0
  tlb : List TlbEntry := []
  lcache : List LcLine := []
  icache : List (Nat × List Byte) := []
  hod : List HodEntry := []
  queues : Vector (List Cmd) 4 := Vector.replicate 4 []
  /-- The matrix engine's order: command ids (R107, R276). -/
  morder : List Nat := []
  /-- The sequence counter of each bank (R164). -/
  bankTag : Tab (BitVec 32) := []
  noDispatch : Bool := false
  deriving DecidableEq, Repr

/-- An event record of 32 bytes (R80). -/
structure Event where
  w0 : Word
  w1 : Word
  w2 : Word
  w3 : Word
  deriving DecidableEq, Repr

/-- The control register of a queue (R76). -/
structure QCtl where
  cap : Nat
  min : Nat
  deriving DecidableEq, Repr

/-- A cluster's dispatch unit and event queue (R71 to R80). -/
structure Cluster where
  /-- The dispatch queues of the four priorities. -/
  disp : Vector (List TaskRef) 4 := Vector.replicate 4 []
  inbox : List TaskRef := []
  passed : Vector Nat 4 := Vector.replicate 4 0
  reserved : List (Nat × TaskRef) := []
  idleSince : Option Nat := none
  lastSteal : Option Nat := none
  /-- A steal request on its way here, and shipments on their way here. -/
  stealFrom : List Nat := []
  shipments : List (Nat × List TaskRef) := []
  events : List Event := []
  /-- The entries of the queue that hold records for the host event ring (R354). -/
  hostEv : Nat := 0
  /-- Records that neither the queue nor the ring could take; they stay with their producers (R75). -/
  evWait : List Event := []
  ovBase : Word := 0
  ovSize : Nat := 0
  ovCount : Nat := 0
  ovHead : Nat := 0
  ovPending : Bool := false
  dispCtl : Vector QCtl 5 := Vector.replicate 5 { cap := 512, min := 102 }
  evCtl : QCtl := { cap := 1024, min := 1024 }
  deriving DecidableEq, Repr

/-- The allowance record of a destination (R329). -/
structure Allow where
  w : Nat := 256
  o : Nat := 0
  a : Nat := 0
  h : Bool := false
  /-- When the window last became 1 with every acknowledgement marked (R422). -/
  since : Option Nat := none
  /-- Its collapse has been reported (R422). -/
  told : Bool := false
  deriving DecidableEq, Repr

/-- A packet sent to another destination and not yet acknowledged or answered (R334, R335). -/
structure Packet where
  die : Nat
  dest : Nat
  seq : Nat
  pred : Option Nat
  line : Nat
  isLoad : Bool := false
  atomic : Bool := false
  /-- An atomic that returns a result: its packet is of tier T0 (R327). -/
  returns : Bool := false
  /-- The operation of a `cop` sent to another destination: 1 wb, 2 wbi (R261). -/
  cop : Nat := 0
  accs : List Nat := []
  hod : Option (Nat × Nat) := none
  bytes : List (Nat × Byte × Byte) := []
  /-- The port of its first copy, and of its last one (R326, R335). -/
  port : Nat := 0
  copyPort : Nat := 0
  /-- The loads and returning atomics of the die to its line that left their lanes before it and were still to be sent: it
  goes after them (R156). -/
  after : List Nat := []
  first : Nat := 0
  last : Nat := 0
  tries : Nat := 0
  restart : Bool := false
  deriving DecidableEq, Repr

/-- A packet performed for a sending die and kept to answer duplicates (R334): the slice, the sender's rank and die,
the sequence number, the result and the stamp. -/
structure Kept where
  slice : Nat
  rank : Nat
  die : Nat
  seq : Nat
  result : Nat
  stamp : Nat
  /-- It was not performed, for an uncorrectable word (R410). -/
  bad : Bool := false
  deriving DecidableEq, Repr

/-- A write or atomic packet that arrived from another module's die (R334). -/
structure Remote where
  rank : Nat
  die : Nat
  seq : Nat
  pred : Option Nat
  /-- The physical address of the packet's line in this module. -/
  pa : Nat
  /-- Written bits: the byte's offset from that address, the mask of its written bits, and their values. -/
  bytes : List (Nat × Byte × Byte)
  op : PacketOp := .write
  /-- The module's ingress queue held more than 64 packets as it passed (R330). -/
  mark : Bool := false
  deriving DecidableEq, Repr

/-- A page in migration (R152, R154). -/
structure Migr where
  frame : Nat
  toHost : Bool
  assisted : Bool
  ctx : Nat
  va : Nat
  pte : Nat
  stage : Nat := 0
  awaits : List Await := []
  waiters : List (Nat × Nat) := []
  /-- Running commands that wait for the page: core, number, the operand's code and the address of the access (R298, R398). -/
  cmds : List (Nat × Nat × Nat × Nat) := []
  deriving DecidableEq, Repr

/-- A pre-emption (R84): its clusters and selector, the cores chosen, those vacated, and those whose save failed. -/
structure Preempt where
  clusters : Nat
  count : Nat
  graph : Option Nat
  below : Nat
  cores : List Nat := []
  vacated : List Nat := []
  failed : List Nat := []
  deriving DecidableEq, Repr

/-- A die stack. -/
structure Die where
  duty : Word := 0
  hodage : Word := 2048
  tlb : List TlbEntry := []
  ways : Nat := 0
  /-- A `cresize` in progress: the count of ways it sets (R146). -/
  resize : Option Nat := none
  /-- The release unit and ready pool. -/
  nextLaunch : Nat := 1
  graphs : List Graph := []
  /-- The ready pool by 2 × priority, plus 1 for unstarted tasks (R70). -/
  pool : Vector (List TaskRef) 8 := Vector.replicate 8 []
  poolCtl : Vector QCtl 8 := Vector.replicate 8 { cap := 4096, min := 512 }
  allow : Tab Allow := []
  nextSeq : Tab Nat := []
  /-- The egress of write packets that wait for the 256 cap (R334). -/
  egress : List Packet := []
  migr : List Migr := []
  /-- Migration requests and faults that wait for an entry, in the order they reached the unit (R154). -/
  migrQ : List Migr := []
  preempt : Option Preempt := none
  /-- Requests that wait for the one in progress, in arrival order (R418). -/
  preemptQ : List Preempt := []
  /-- What the die's home slices keep of each sending die (R334), newest first. -/
  kept : List Kept := []
  /-- Arrived packets that wait for their predecessor (R334). -/
  heldPk : List Remote := []
  /-- The applied frequency step (R344). -/
  step : Nat := 32
  deriving DecidableEq, Repr

/-! ## Shared cache, fabric, host link, platform -/

/-- A line of a home slice (R142, R164): its sectors' valid and dirty bits, their word masks, and its sequence tag. (log 65: DESIGN CHOICE, unsafe.) -/
structure LineMeta where
  die : Nat
  line : Nat
  valid : BitVec 4 := 0
  dirty : BitVec 4 := 0
  mask : BitVec 64 := 0
  tag : BitVec 32 := 0
  /-- The way of its set that holds it (R142, R145). -/
  way : Nat := 0
  deriving DecidableEq, Repr

/-- A miss-status entry of a slice (R144): the sectors of a line being filled, and when the fill began. -/
structure Miss where
  die : Nat
  line : Nat
  sectors : BitVec 4
  born : Nat
  /-- It waits at the slice for one of the 64 entries. -/
  waits : Bool := false
  deriving DecidableEq, Repr

/-- A chunk of a collective at this module (R338 to R343): issued by a command, or fired at a bound task's end. -/
structure Chunk where
  id : Nat := 0
  cid : Nat
  index : Nat
  ring : Nat
  dtype : Nat
  cop : Nat
  bytes : Nat
  /-- The core whose translation and die it uses, and the task slot and the command that issued it. -/
  core : Nat := 0
  task : Nat := 0
  cmd : Option Nat := none
  ctx : Nat := 0
  sup : Bool := false
  contrib : Operand := {}
  result : Operand := {}
  ext : List Nat := []
  record : Option (Operand × Nat) := none
  intr : Bool := false
  /-- The ring entry in force when it began, its values then, and the ranks added so far. -/
  entry : Word := 0
  vals : List Nat := []
  started : Bool := false
  ranks : List Nat := []
  /-- The time of its last progress, and the members of its ring (R343). -/
  progress : Nat := 0
  members : List Nat := []
  /-- Its status once it has ended and its record is still to be written; the writes of its result, and then of its record. -/
  status : Option Nat := none
  recorded : Bool := false
  /-- A result that has come and is still to be written. -/
  got : Option (List Nat) := none
  writes : List Nat := []
  todo : List (Nat × Nat × List (Nat × Byte × Byte)) := []
  deriving DecidableEq, Repr

/-- A partial or a result on a ring (R338, R340). -/
structure Partial where
  ring : Nat
  cid : Nat
  index : Nat
  dtype : Nat
  cop : Nat
  bytes : Nat
  vals : List Nat
  ranks : List Nat
  refused : Bool
  /-- It has taken this module's contribution and waits for a credit. -/
  ready : Bool := false
  deriving DecidableEq, Repr

/-- What a home of the module answers to an arrived packet (R334, R422, R439): to which die of which module, for which
packet, whether it is refused, the result and the stamp. -/
structure Answer where
  rank : Nat
  die : Nat
  seq : Nat
  refused : Bool := false
  restart : Bool := false
  result : Nat := 0
  stamp : Nat := 0
  /-- A congestion mark (R330). -/
  mark : Bool := false
  /-- It was not performed, for an uncorrectable word (R410). -/
  bad : Bool := false
  deriving DecidableEq, Repr

/-- A ring being set up in hardware mode (R337, R424). -/
structure RingCheck where
  ring : Nat
  entry : Word
  prevOk : Bool := false
  nextOk : Bool := false
  born : Nat
  deriving DecidableEq, Repr

/-- A fabric port (R325, R327): whether it has trained, the quarry node at its far end, its rate, and the starvation
counters of tiers T1 and T2. -/
structure Port where
  up : Bool := false
  dest : Nat := 0
  fast : Bool := true
  starved : Nat × Nat := (0, 0)
  deriving DecidableEq, Repr

/-- The retry state of a link (R421): consecutive failed replays, the times of its failed retrains, whether it is down. -/
structure Link where
  failed : Nat := 0
  retrains : List Nat := []
  isDown : Bool := false
  deriving DecidableEq, Repr

/-- A request for a frequency step (R344, R373): the requesting die by pod rank and number, the event, and the step. -/
structure StepReq where
  rank : Nat
  die : Nat
  event : Nat
  step : Nat
  /-- When it was last raised. -/
  born : Nat
  deriving DecidableEq, Repr

/-- A ring-buffered message of the host link with its sequence number and payload bytes (R352 to R359). -/
structure Msg where
  ring : Nat
  type : Nat
  seq : Nat
  /-- The type-dependent bytes 32 to 63 of its header, from the first on; the rest are zero. -/
  arg : List Byte := []
  payload : List Byte
  /-- The rest of the header as it was last sent: protocol version, acknowledgement, context, the device's free entries of
  its ring, what the device holds out of order, and the device's nanoseconds since boot. -/
  ver : Nat := 2
  ack : Nat := 0
  ctx : Nat := 0
  credit : Nat := 0
  sack : Nat := 0
  time : Nat := 0
  /-- The cluster in whose event queue a record waits for the host's credit (R354). -/
  home : Option Nat := none
  deriving DecidableEq, Repr

/-- The host link (R352 to R359, R425). -/
structure HostLink where
  up : Bool := false
  lost : Bool := false
  /-- The rate of the Ethernet port in Gb/s, as it came up (R8, R10). -/
  rate : Nat := 1600
  /-- Next sequence number to send, next expected, and messages sent and not acknowledged. -/
  sendSeq : Nat := 1
  expect : Nat := 1
  /-- A message has been accepted, and one sent, since the numbering began: the number before 1 is then 2^32 − 1 (R357). -/
  anyIn : Bool := false
  anyOut : Bool := false
  unacked : List (Nat × Msg) := []
  /-- The entry of the accepted message that comes next, 0 between messages. -/
  next : Nat := 0
  /-- The entries of messages that arrived ahead of the one expected. -/
  heldIn : List HostIn := []
  /-- When the other side last acknowledged something new or all was acknowledged. -/
  lastAck : Nat := 0
  /-- What the device has sent without a sequence number, newest last. (log 98: DESIGN CHOICE, unsafe.) -/
  control : List Msg := []
  /-- Credits by ring (R354). -/
  credits : Tab Nat := []
  /-- Records waiting for a credit, by ring. -/
  waiting : List Msg := []
  resync : Bool := false
  deriving DecidableEq, Repr

/-- A system call whose reply has not come (R360, R361). -/
structure SysCall where
  id : Nat
  die : Nat
  graph : Nat
  node : Nat
  index : Nat
  pos : Nat
  mask : Nat
  /-- The reply has been applied to a context slot (R361). -/
  answered : Bool := false
  deriving DecidableEq, Repr

/-- A code table of a context (R363). -/
structure CodeTable where
  ctx : Nat
  base : Nat
  count : Nat
  deriving DecidableEq, Repr

/-- A binding in progress (R364, R365): the entry, its context, the die and graph of the course that won it, and whether
the host performs it. -/
structure Bind where
  base : Nat
  index : Nat
  ctx : Nat
  die : Nat
  /-- The die that accepted the launch, which numbers the graph. -/
  owner : Nat
  graph : Nat
  assisted : Bool
  deriving DecidableEq, Repr

/-- A divide or remainder on its way to its register (R215). -/
structure DivRes where
  id : Nat
  core : Nat
  course : Nat
  slot : Nat
  dst : RegRef
  val : Word
  ready : Nat
  deriving DecidableEq, Repr

/-- What the module as a whole is doing (R427, R428). -/
inductive Phase where
  | booting
  | running
  | recovery
  | off
  deriving DecidableEq, Repr

/-- The platform (R369, R372 to R376, R412, R426 to R428). -/
structure Platform where
  /-- The records accepted since boot: kind, security version, and signed bytes with their signature. -/
  accepted : List (Nat × Nat × List Byte) := []
  /-- The operator's public key that the owner record names, and the identity certificate (R369). -/
  owner : Option (Nat × Nat) := none
  cert : List Byte := []
  /-- The configuration record as stored, for a boot out of recovery (R428). -/
  cfg : List Byte := []
  minVersion : Nat := 0
  /-- Signed records refused at the last boot, and whether the reset values are in force (R415). -/
  cfgref : Nat := 0
  cfgdef : Bool := false
  /-- The samples of each sensor of R372 with their times, newest first, those of the last 1 ms. -/
  sensors : Tab (List (Nat × Int)) := []
  /-- The refresh band of each stack, and when it was last evaluated (R376). -/
  band : Tab Nat := []
  bandAt : Tab Nat := []
  /-- Since when the coolant flow is too low, the inlet too hot, and every sensor within the envelope (R426). -/
  flowLow : Option Nat := none
  inletHot : Option Nat := none
  okSince : Option Nat := none
  tripped : Bool := false
  /-- The dies and events whose requests last changed, by pod rank and die, and when (R375); when the step last rose, and the
  changes of step since boot. -/
  stepBy : List (Nat × Nat × Nat) := []
  stepAt : Nat := 0
  lastUp : Nat := 0
  stepCount : Nat := 0
  /-- Where the telemetry record goes: context and address. -/
  tele : Option (Nat × Nat) := none
  lastTele : Nat := 0
  errThreshold : Nat := 256
  deriving DecidableEq, Repr

/-! ## The module -/

/-- The state of the module. (log 1: DESIGN CHOICE, unsafe.) -/
structure State where
  phase : Phase := .booting
  /-- Cycles since reset: the `clock` register of every die (R51). -/
  now : Nat := 0
  /-- Time since boot in the model's own ticks, of which every cycle of R344 is a whole number (R10). -/
  time : Nat := 0
  /-- The model's own schedule: the events and inputs to come, each with the cycles that pass before it. -/
  agenda : List (Nat × Instr) := []
  /-- The model's own cursor over the lanes, used when the schedule is empty. -/
  cursor : Nat := 0
  /-- The model's own counter of values the spec leaves open. -/
  freeCtr : Nat := 0
  issue : Option Issue := none
  nextId : Nat := 1
  nextOrd : Nat := 1
  mem : List Host.Cell := []
  pool : List Host.Cell := []
  cores : Tab Core := []
  clusters : Tab Cluster := []
  dies : Tab Die := []
  bars : List Bar := []
  inflight : List Access := []
  /-- The 8-byte words known to hold an uncorrectable error (R410). -/
  badWords : List Loc := []
  /-- The unit kind in which an uncorrectable word was found, where it is not that of its home: data or tag of a slice (R409,
  R412). -/
  badUnit : List (Loc × Nat) := []
  lines : List LineMeta := []
  floors : Tab (BitVec 32) := []
  misses : List Miss := []
  contexts : Tab Nat := []
  /-- Context 0 maps every local physical address to itself (R356). -/
  ident0 : Bool := false
  rank : Nat := 0
  routes : Tab (BitVec 16) := []
  ports : Tab Port := []
  /-- Links by the number of R421, and the starvation counts of the routers' outputs (R323). -/
  links : Tab Link := []
  express : Tab Nat := []
  requests : List StepReq := []
  /-- The frequency-step requests sent to ring members, oldest first: to whom, whose (pod rank and die), and the step (R344). -/
  stepMsgs : List (Nat × Nat × Nat × Nat) := []
  rings : Tab Word := []
  ringChecks : List RingCheck := []
  /-- The last two member lists that the setups of each ring checked, the newest first, and the ring-check messages sent:
  to whom and for which ring, oldest first (R337). -/
  ringLists : Tab (List (List Nat)) := []
  ringSent : List (Nat × Nat) := []
  chunks : List Chunk := []
  partials : List Partial := []
  /-- What the sequencers have put on their links, oldest first: results (true) and partials (false). -/
  wire : List (Bool × Partial) := []
  /-- The sending dies of other modules whose keep tables are held since boot (R422), and the answers sent, oldest first. -/
  senders : List (Nat × Nat) := []
  answers : List Answer := []
  ringCredits : Tab Nat := []
  /-- The credits for held partials that the sequencers have given back upstream, by ring (R338). -/
  creditsBack : Tab Nat := []
  collSeq : Tab Nat := []
  packets : List Packet := []
  host : HostLink := {}
  /-- Divide results on their way to a register (R215). -/
  divs : List DivRes := []
  calls : List SysCall := []
  nextCall : Nat := 1
  codeTables : List CodeTable := []
  /-- The contexts of command rings (R356), and each context's code space: its next free address and its end (R365). -/
  ringCtx : Tab Nat := []
  codeSpace : Tab (Nat × Nat) := []
  /-- Bindings in progress. -/
  binds : List Bind := []
  plat : Platform := {}
  deriving DecidableEq, Repr

/-- Why the machine stops with a fault. -/
inductive Fault where
  /-- The issue group in the lane names a course that is not resident: no run reaches such a state. Raised by every
  instruction in that state. Safe: no step of the hardware is modelled by it. -/
  | brokenIssue
  deriving DecidableEq, Repr

/-- Why the machine refuses an instruction. -/
inductive Refusal where
  /-- The instruction has no meaning yet. Safe: nothing is claimed about it. -/
  | notModelled (mnemonic : String)
  deriving DecidableEq, Repr

/-- The module right after reset: not yet booted, every register and table at its reset value. (log 3: DESIGN CHOICE, unsafe.) (log 5: DESIGN CHOICE, unsafe.) -/
def State.reset : State := {}

end Sys2Proof.Machine
end

