-- ==== Sys2Proof/Machine/Table.lean ====
section
/-! DEFINITION. Reading and writing of numbered tables and of byte memory. -/

namespace Sys2Proof.Machine

/-- The entry numbered `k`, or `d` where the table lists none. -/
def Tab.get {α : Type} : Tab α → Nat → α → α
  | [], _, d => d
  | (j, a) :: r, k, d => if j = k then a else Tab.get r k d

/-- The entry numbered `k`, if the table lists one. -/
def Tab.find {α : Type} : Tab α → Nat → Option α
  | [], _ => none
  | (j, a) :: r, k => if j = k then some a else Tab.find r k

/-- The table with entry `k` set, its numbers kept rising. -/
def Tab.set {α : Type} : Tab α → Nat → α → Tab α
  | [], k, a => [(k, a)]
  | (j, b) :: r, k, a =>
    if k = j then (k, a) :: r else if k < j then (k, a) :: (j, b) :: r else (j, b) :: Tab.set r k a

/-- The table without entry `k`. -/
def Tab.erase {α : Type} (t : Tab α) (k : Nat) : Tab α := t.filter fun p => p.1 ≠ k

/-- The entries that satisfy a test, by number. -/
def Tab.keys {α : Type} (t : Tab α) : List Nat := t.map Prod.fst

/-! ## Byte memory: a list of (address, byte) pairs, addresses strictly rising, no byte zero -/

/-- The byte at an address; an address not listed reads 0 (the model's choice: assumption log, memory contents). (log 6: DESIGN CHOICE, unsafe.) -/
def cellGet : List Host.Cell → Nat → Byte
  | [], _ => 0
  | (j, b) :: r, k => if j = k then b else cellGet r k

/-- The listed cells of a run of bytes from address `a`: the zero bytes are not listed. -/
def cellsOf : Nat → List Byte → List Host.Cell
  | _, [] => []
  | a, b :: bs => if b = 0 then cellsOf (a + 1) bs else (a, b) :: cellsOf (a + 1) bs

/-- Memory after the bytes `bs` are written from address `a` up. -/
def cellsWrite (m : List Host.Cell) (a : Nat) (bs : List Byte) : List Host.Cell :=
  m.filter (fun c => c.1 < a) ++ cellsOf a bs ++ m.filter (fun c => a + bs.length ≤ c.1)

/-- The `n` bytes from address `a` up. -/
def cellsRead (m : List Host.Cell) (a : Nat) : Nat → List Byte
  | 0 => []
  | n + 1 => cellGet m a :: cellsRead m (a + 1) n

/-- The canonical form: addresses strictly rising from `lo` on, and no listed byte is what an unlisted one reads. -/
def cellsWf : Nat → List Host.Cell → Bool
  | _, [] => true
  | lo, (a, b) :: r => decide (lo ≤ a) && decide (b ≠ 0) && cellsWf (a + 1) r

/-- The `n` low bytes of a number, little-endian (R3). -/
def leBytes : Nat → Nat → List Byte
  | 0, _ => []
  | n + 1, x => BitVec.ofNat 8 x :: leBytes n (x / 256)

/-- The first element that satisfies a test, with its position. -/
def findAt {α : Type} (p : α → Bool) : List α → Option α
  | [] => none
  | a :: r => if p a then some a else findAt p r

/-- The first element that satisfies a test, changed. -/
def mapFirst {α : Type} (p : α → Bool) (f : α → α) : List α → List α
  | [] => []
  | a :: r => if p a then f a :: r else a :: mapFirst p f r

/-- An element put before the first one that must not come before it. -/
def insertBy {α : Type} (le : α → α → Bool) (x : α) : List α → List α
  | [] => [x]
  | a :: r => if le x a then x :: a :: r else a :: insertBy le x r

/-- A list in rising order; equals keep their order. -/
def sortBy {α : Type} (le : α → α → Bool) : List α → List α
  | [] => []
  | a :: r => insertBy le a (sortBy le r)

/-- The bits of a mask below `n`, as ascending slots. -/
def maskSlots (mask n : Nat) : List Nat := (List.range n).filter fun i => mask.testBit i

/-- The mask of a list of slots. -/
def slotMask (l : List Nat) : Nat := l.foldl (fun m i => m ||| 2 ^ i) 0

end Sys2Proof.Machine
end

