-- ==== Sys2Proof/Machine/Mem.lean ====
section
/-! DEFINITION. The homes of bytes and memory by physical address: the mapping of R136 and R140, the trap region of
R380, and reads and writes performed at the home. -/

namespace Sys2Proof.Machine

/-- The location of a local HBM physical address within its die (R140). -/
def hbmLoc (vl : Bool) (p : Nat) : Nat :=
  let l := p % 2 ^ 37
  if vl then l
  else
    let hi := l / 2 ^ 32
    let lo := l / 2 ^ 8 % 2 ^ 5
    l - hi * 2 ^ 32 - lo * 2 ^ 8 + lo * 2 ^ 32 + hi * 2 ^ 8

/-- The home slice of a location within its die (R141). -/
def homeSlice (l : Nat) : Nat := 4 * (l / 2 ^ 32 % 32) + ((l / 2 ^ 8 % 4) ^^^ (l / 2 ^ 13 % 4))

/-- The set of a location in its slice (R141). -/
def homeSet (l : Nat) : Nat := (l / 2 ^ 10 % 1024) ^^^ (l / 2 ^ 20 % 1024)

/-- Where a local physical address lives (R136, R145): `none` outside the map or beyond the die scratch. -/
def localHome (ways : Nat → Nat) (vl : Bool) (p : Nat) : Option Loc :=
  if p < 0x8000000000 then some (.hbm (p / 2 ^ 37) (hbmLoc vl p))
  else if 0x10000000000 ≤ p ∧ p < 0x10000000000 + 4 * 0x40000000 then
    let o := (p - 0x10000000000) % 0x40000000
    let d := (p - 0x10000000000) / 0x40000000
    if o < ways d * 0x2000000 then some (.scratch d o) else none
  else none

/-- The key of a byte of the module's HBM or die scratch in the state's memory. -/
def Loc.key : Loc → Nat
  | .hbm d l => d * 2 ^ 37 + l
  | .scratch d o => 2 ^ 40 + d * 2 ^ 30 + o
  | .pool k o => k * 2 ^ 21 + o
  | .remote _ o => o

/-- The location `n` bytes further on within one home. -/
def Loc.plus (x : Loc) (n : Nat) : Loc :=
  match x with
  | .hbm d l => .hbm d (l + n)
  | .scratch d o => .scratch d (o + n)
  | .pool k o => .pool k (o + n)
  | .remote d o => .remote d (o + n)

/-- The bytes at a home; another destination's bytes are not in the module. -/
def State.locRead (s : State) (x : Loc) (n : Nat) : List Byte :=
  match x with
  | .pool _ _ => cellsRead s.pool x.key n
  | .remote _ _ => List.replicate n 0
  | _ => cellsRead s.mem x.key n

/-- The bytes written at a home. -/
def State.locWrite (s : State) (x : Loc) (bs : List Byte) : State :=
  match x with
  | .pool _ _ => { s with pool := cellsWrite s.pool x.key bs }
  | .remote _ _ => s
  | _ => { s with mem := cellsWrite s.mem x.key bs }

/-- The pieces of a run of bytes that end at 256-byte line boundaries, for `fuel` pieces at most. -/
def linePieces : Nat → Nat → List Byte → List (Nat × List Byte)
  | 0, _, _ => []
  | _, _, [] => []
  | fuel + 1, a, bs =>
    let k := 256 - a % 256
    (a, bs.take k) :: linePieces fuel (a + k) (bs.drop k)

/-- Bytes written at local physical addresses; addresses outside the map are not written. -/
def State.physWrite (s : State) (vl : Bool) (a : Nat) (bs : List Byte) : State :=
  (linePieces (bs.length / 256 + 2) a bs).foldl
    (fun s p => match localHome (fun d => (s.dies.get d {}).ways) vl p.1 with
      | some x => s.locWrite x p.2
      | none => s) s

/-- Bytes read at local physical addresses; addresses outside the map read 0. -/
def State.physRead (s : State) (vl : Bool) (a : Nat) (n : Nat) : List Byte :=
  (List.range n).map fun i =>
    match localHome (fun d => (s.dies.get d {}).ways) vl (a + i) with
    | some x => (s.locRead x 1).headD 0
    | none => 0

/-- Little-endian bytes as a number (R3). -/
def bytesNat (bs : List Byte) : Nat := leNat bs

/-- A word of `n` bytes at a local physical address, with the interleaved mapping. -/
def State.physNat (s : State) (a n : Nat) : Nat := bytesNat (s.physRead false a n)

/-- A field of `n` bytes at offset `o` of a byte string. -/
def recNat (bs : List Byte) (o n : Nat) : Nat := leNat ((bs.drop o).take n)

/-- The start of the trap region of a die (R380). -/
def trapBase (d : Nat) : Nat := d * 0x2000000000 + 0x1FDC000000

/-- The frame slot of a course on a core (R380); the core is numbered in the module. -/
def frameSlot (core course : Nat) : Nat :=
  trapBase (core / 132) + 0x10000 + 0x8800 * (128 * (core % 132) + course)

/-- The number of a 16-byte line among the lines of every home. -/
def lineKey (x : Loc) : Nat :=
  match x with
  | .hbm d l => (d * 2 ^ 37 + l) / 16
  | .scratch d o => (2 ^ 40 + d * 2 ^ 30 + o) / 16
  | .pool k o => (2 ^ 50 + k * 2 ^ 21 + o) / 16
  | .remote d o => (2 ^ 57 + d * 2 ^ 47 + o) / 16

end Sys2Proof.Machine
end

