-- ==== Sys2Proof/Machine/Reads.lean ====
section
/-! DEFINITION. The registers an instruction reads, in operand order d, a, b, c (R392), by operand format. -/

namespace Sys2Proof.Machine

/-- An operand that is read: a thread register, a predicate or a uniform register, as the instruction names it. -/
inductive Rd where
  | v (r : Reg)
  | q (p : BitVec 4)
  | c (r : Reg)
  deriving DecidableEq, Repr

/-- A source that is uniform when `u` is set. -/
def src (u : Bool) (r : Reg) : Rd := if u then .c r else .v r

end Sys2Proof.Machine
end

