-- ==== Sys2Proof/Machine/Lanes.lean ====
section
/-! DEFINITION. The named operations over threads, courses, cores and memory. -/

namespace Sys2Proof.Machine

/-! ## Parts of the module -/

/-- The core with module number 132 × die + core; cores 128 to 131 of a die are its control cores (R11). -/
def State.core (s : State) (k : Nat) : Core := s.cores.get k {}
def State.setCore (s : State) (k : Nat) (c : Core) : State := { s with cores := s.cores.set k c }
def State.modCore (s : State) (k : Nat) (f : Core → Core) : State := s.setCore k (f (s.core k))

/-- The die stack `d`. -/
def State.die (s : State) (d : Nat) : Die := s.dies.get d {}
def State.setDie (s : State) (d : Nat) (x : Die) : State := { s with dies := s.dies.set d x }
def State.modDie (s : State) (d : Nat) (f : Die → Die) : State := s.setDie d (f (s.die d))

/-- The cluster with module number 4 × die + cluster. -/
def State.cluster (s : State) (c : Nat) : Cluster := s.clusters.get c {}
def State.setCluster (s : State) (c : Nat) (x : Cluster) : State := { s with clusters := s.clusters.set c x }
def State.modCluster (s : State) (c : Nat) (f : Cluster → Cluster) : State := s.setCluster c (f (s.cluster c))

/-- The die of a core, and its number within the die. -/
def coreDie (k : Nat) : Nat := k / 132
def coreIn (k : Nat) : Nat := k % 132
def isCtl (k : Nat) : Bool := decide (128 ≤ coreIn k)

/-- The cluster of a core within the module (R11). -/
def coreCluster (k : Nat) : Nat :=
  4 * coreDie k + (if isCtl k then coreIn k - 128 else coreIn k / 32)

def State.course? (s : State) (k n : Nat) : Option Course := (s.core k).courses.find n
def State.setCourse (s : State) (k n : Nat) (c : Course) : State :=
  s.modCore k fun x => { x with courses := x.courses.set n c }
def State.modCourse (s : State) (k n : Nat) (f : Course → Course) : State :=
  match s.course? k n with
  | some c => s.setCourse k n (f c)
  | none => s

def State.task? (s : State) (k n : Nat) : Option Task := (s.core k).tasks.find n
def State.setTask (s : State) (k n : Nat) (t : Task) : State :=
  s.modCore k fun x => { x with tasks := x.tasks.set n t }
def State.modTask (s : State) (k n : Nat) (f : Task → Task) : State :=
  match s.task? k n with
  | some t => s.setTask k n (f t)
  | none => s

/-- The thread in a slot; a slot that is not there reads as an exited thread. -/
def Course.thread (c : Course) (i : Nat) : Thread := c.threads.getD i {}
def Course.setThread (c : Course) (i : Nat) (t : Thread) : Course := { c with threads := c.threads.set i t }
def Course.modThread (c : Course) (i : Nat) (f : Thread → Thread) : Course := c.setThread i (f (c.thread i))

/-- The model's next open choice. -/
def State.fresh (s : State) : Nat × State := (Config.freeNat s.freeCtr, { s with freeCtr := s.freeCtr + 1 })

/-- The model's ticks in a nanosecond: so many that a cycle of 640 / 21k ns is a whole number of them at every step k from
16 to 32 (R10, R344); and in a microsecond and a millisecond. -/
def nsTicks : Nat := 21 * 902522205585
def usTicks : Nat := 1000 * nsTicks
def msTicks : Nat := 1000000 * nsTicks

/-- A new number for an access, a command or an entry. -/
def State.newId (s : State) : Nat × State := (s.nextId, { s with nextId := s.nextId + 1 })

/-- Nanoseconds since boot (R80). -/
def State.ns (s : State) : Nat := s.time / nsTicks

/-! ## Registers -/

/-- A register vector read and written by a five-bit number. -/
def regGet (r : Vector Word 32) (i : Reg) : Word := r[i.toNat]'(i.isLt)
def regSet (r : Vector Word 32) (i : Reg) (x : Word) : Vector Word 32 := r.set i.toNat x i.isLt

/-- A predicate. -/
def qGet (q : BitVec 12) (i : BitVec 4) : Bool := q.getLsbD i.toNat
def qSet (q : BitVec 12) (i : BitVec 4) (b : Bool) : BitVec 12 :=
  if b then q ||| (1#12 <<< i.toNat) else q &&& ~~~(1#12 <<< i.toNat)

/-- One as a word for true. -/
def boolWord (b : Bool) : Word := if b then 1 else 0

/-- The innermost open level of a thread. -/
def Thread.level (t : Thread) : Level := t.lv.toList.getD (t.lopen - 1) {}

/-- Whether the program counter lies in the body of the innermost open level (R232). -/
def Thread.inBody (t : Thread) : Bool :=
  decide (0 < t.lopen) && decide (t.level.str.toNat ≤ t.pc.toNat) && decide (t.pc.toNat ≤ t.level.lend.toNat)

/-- Whether the highest open level is pipelined (R232, R234). -/
def Thread.pipelined (t : Thread) : Bool := decide (0 < t.lopen) && (decide (t.ring ≠ 0) || decide (2 ≤ t.stages))

/-- The physical register a thread-register field names (R232). -/
def Thread.phys (t : Thread) (r : Reg) : Reg :=
  if t.inBody && decide (t.ring ≠ 0) && decide (16 ≤ r.toNat) && decide (r.toNat < 16 + t.ring) then
    BitVec.ofNat 5 (16 + ((r.toNat - 16 + t.ring - t.base) % t.ring))
  else r

/-- Whether a predicate is a stage predicate here (R44, R232): a level with one stage has none (R44). (log 134: DEDUCED, unsafe.) -/
def Thread.isStage (t : Thread) (p : BitVec 4) : Bool :=
  t.inBody && decide (2 ≤ t.stages) && decide (8 ≤ p.toNat) && decide (p.toNat < 8 + t.stages)

/-- The value of a stage predicate (R232). -/
def Thread.stageVal (t : Thread) (p : BitVec 4) : Bool :=
  decide (p.toNat - 8 ≤ t.level.idx.toNat) && decide (t.stages ≤ t.level.cnt.toNat + (p.toNat - 8))

/-- What a register reads at a cycle: the youngest result already readable, else the stored value (R25). -/
def pendRead (ps : List Pend) (r : RegRef) (cyc : Nat) (stored : Word) : Word :=
  ps.foldl (fun x p => if p.dst = r ∧ p.ready ≤ cyc then p.val else x) stored

/-- A physical thread register at a cycle. -/
def Thread.readV (t : Thread) (r : Reg) (cyc : Nat) : Word := pendRead t.pend (.v r) cyc (regGet t.v r)

/-- A predicate at a cycle; a stage predicate in a pipelined body (R44). -/
def Thread.readQ (t : Thread) (p : BitVec 4) (cyc : Nat) : Bool :=
  if t.isStage p then t.stageVal p
  else pendRead t.pend (.q p) cyc (boolWord (qGet t.q p)) ≠ 0

/-- A uniform register at a cycle. -/
def Course.readC (c : Course) (r : Reg) (cyc : Nat) : Word := pendRead c.cpend (.c r) cyc (regGet c.c r)

/-- The register an operand names, by its physical number (R385). -/
def Thread.ref (t : Thread) : Rd → RegRef
  | .v r => .v (t.phys r)
  | .q p => .q p
  | .c r => .c r

/-- The value of an operand in a thread at a cycle. -/
def readRd (c : Course) (t : Thread) (cyc : Nat) : Rd → Word
  | .v r => t.readV (t.phys r) cyc
  | .q p => boolWord (t.readQ p cyc)
  | .c r => c.readC r cyc

/-- A guard read in a thread at a cycle (R174). -/
def guardHolds (h : Hdr) (t : Thread) (cyc : Nat) : Bool :=
  if h.g = 15 then true else t.readQ h.g cyc != h.n

/-- Store a value in a register of a thread at once. -/
def Thread.put (t : Thread) (r : RegRef) (x : Word) : Thread :=
  match r with
  | .v n => { t with v := regSet t.v n x }
  | .q p => { t with q := qSet t.q p (x ≠ 0) }
  | .c _ => t

/-- Keep what is not yet readable at a cycle: a younger readable result of the register supersedes an older one. -/
def pendRest : List Pend → Nat → List Pend
  | [], _ => []
  | p :: ps, cyc =>
    if p.ready ≤ cyc ∨ ps.any (fun y => decide (y.dst = p.dst ∧ y.ready ≤ cyc)) then pendRest ps cyc
    else p :: pendRest ps cyc

/-- The thread with every result readable at a cycle stored in its register (R25). -/
def Thread.settle (t : Thread) (cyc : Nat) : Thread :=
  let t' := t.pend.foldl (fun x p => if p.ready ≤ cyc then x.put p.dst p.val else x) t
  { t' with pend := pendRest t.pend cyc }

/-- The course with every readable uniform result stored. -/
def Course.settleC (c : Course) (cyc : Nat) : Course :=
  let r := c.cpend.foldl (fun x p => if p.ready ≤ cyc then (match p.dst with | .c n => regSet x n p.val | _ => x) else x) c.c
  { c with c := r, cpend := pendRest c.cpend cyc }

/-- A fixed-latency result of a thread. A write to a stage predicate is discarded (R44); an older memory result
still awaited for the register is no longer written to it, since effects are in issue order (R26). (log 14: DEDUCED, unsafe.) -/
def Thread.result (t : Thread) (d : RegRef) (x : Word) (ready : Nat) : Thread :=
  match d with
  | .q p => if t.isStage p then t else { t with pend := t.pend ++ [⟨ready, d, x, t.pc⟩] }
  | _ => { t with pend := t.pend ++ [⟨ready, d, x, t.pc⟩], sb := t.sb.filter fun e => e.1 ≠ d }

/-- A uniform fixed-latency result (R25). -/
def Course.resultC (c : Course) (r : Reg) (x : Word) (ready : Nat) (ipc : Word) : Course :=
  { c with cpend := c.cpend ++ [⟨ready, .c r, x, ipc⟩], csb := c.csb.filter fun e => e.1 ≠ .c r }

/-- Store a value in a register at once, over anything pending for it. -/
def Thread.write (t : Thread) (d : RegRef) (x : Word) : Thread :=
  let t' := t.put d x
  { t' with pend := t'.pend.filter fun p => p.dst ≠ d }

/-- The register awaits the result of access `id`. -/
def Thread.awaitReg (t : Thread) (d : RegRef) (id : Nat) : Thread :=
  { t with sb := (t.sb.filter fun e => e.1 ≠ d) ++ [(d, id)], pend := t.pend.filter fun p => p.dst ≠ d }

/-! ## Program counters and loop levels -/

/-- The number of open levels is at most four. -/
def Thread.setLevel (t : Thread) (j : Nat) (l : Level) : Thread :=
  { t with lv := if h : j < 4 then t.lv.set j l else t.lv }

/-- Close the innermost level; the pipelined level takes its ring and stages with it (R231). -/
def Thread.closeLevel (t : Thread) : Thread :=
  if t.pipelined then { t with lopen := t.lopen - 1, ring := 0, base := 0, stages := 1 }
  else { t with lopen := t.lopen - 1 }

/-- The back edge of the innermost open level (R231); `fuel` bounds the levels left at once. -/
def Thread.backEdge : Nat → Thread → Thread
  | 0, t => t
  | fuel + 1, t =>
    if t.lopen = 0 then t
    else
      let l := t.level
      if l.cnt.toNat ≤ 1 then
        let t' := { t.closeLevel with pc := l.lend + 2 }
        if 0 < t'.lopen ∧ t'.pc = t'.level.lend + 2 then Thread.backEdge fuel t' else t'
      else
        let t' := t.setLevel (t.lopen - 1) { l with cnt := l.cnt - 1, idx := l.idx + 1 }
        { t' with pc := l.str, base := if t.ring ≠ 0 then (t.base + 1) % t.ring else t.base }

/-- Whether the last parcel of an instruction of `len` bytes at the thread's program counter ends its innermost open level
(R231). -/
def Thread.atEnd (t : Thread) (len : Nat) : Bool :=
  decide (0 < t.lopen) && decide (t.pc + BitVec.ofNat 64 len = t.level.lend + 2)

/-- The thread completes, without a taken branch, an instruction of `len` bytes at its program counter (R231). -/
def Thread.complete (t : Thread) (len : Nat) : Thread :=
  if t.atEnd len then t.backEdge 4
  else { t with pc := t.pc + BitVec.ofNat 64 len }

/-- Whether an instruction of `len` bytes runs past the end of the innermost body it lies in (R231). -/
def Thread.crosses (t : Thread) (len : Nat) : Bool :=
  t.inBody && decide (t.level.lend.toNat + 2 < t.pc.toNat + len)

/-- Close levels for a taken branch at `p` to `g` (R233). -/
def Thread.leaveLoops : Nat → Thread → Word → Word → Thread
  | 0, t, _, _ => t
  | fuel + 1, t, p, g =>
    let l := t.level
    if 0 < t.lopen ∧ l.str.toNat ≤ p.toNat ∧ p.toNat ≤ l.lend.toNat ∧
        ¬ (l.str.toNat ≤ g.toNat ∧ g.toNat ≤ l.lend.toNat) then
      Thread.leaveLoops fuel t.closeLevel p g
    else t

/-- A taken branch (R224, R233). -/
def Thread.branch (t : Thread) (g : Word) : Thread := { t.leaveLoops 4 t.pc g with pc := g }

/-- A thread ends: it leaves its waits, levels and return stack, and is halted no more (R21, R228). -/
def Thread.exit (t : Thread) : Thread :=
  { t with live := false, halted := false, wait := .ready, lopen := 0, ring := 0, base := 0, stages := 1, rs := [], depth := 0, sb := [] }

/-- Whether an address lies in the body that the course's loop buffer holds. -/
def Course.captured (c : Course) (a : Word) : Bool :=
  match c.loopBuf with
  | some b => decide (b.lo.toNat ≤ a.toNat ∧ a.toNat ≤ b.hi.toNat)
  | none => false

/-- Whether a thread that completes an instruction goes round a body that is not captured, of whichever level (R235). -/
def Course.roundsUncaptured (c : Course) (i len : Nat) : Bool :=
  let t := c.thread i
  let next := (t.complete len).pc
  t.atEnd len && decide (next ≠ t.pc + BitVec.ofNat 64 len) && !c.captured next

/-- A thread's wait at an instruction of `len` bytes ends. -/
def Thread.release (t : Thread) (len : Nat) : Thread := { t with wait := .ready }.complete len

/-- A thread's wait at an instruction of `len` bytes ends now; a back edge it takes then costs its course as at issue
(R231, R235). -/
def Course.endWait (c : Course) (now i len : Nat) : Course :=
  let late := if c.roundsUncaptured i len then now + 2 else 0
  { (c.modThread i fun t => t.release len) with
    stallUntil := max c.stallUntil (if i < 16 then late else 0), stallUntilHi := max c.stallUntilHi (if i < 16 then 0 else late) }

/-! ## Selection units, convergence sets and live counts (R37, R38) -/

/-- The first slot and the size of the selection unit and convergence set of a slot. -/
def Course.unit (c : Course) (w : Nat) (slot : Nat) : Nat × Nat :=
  if w = 1 then (if slot < 16 then (0, 16) else (16, 16)) else (0, c.threads.length)

/-- The slots of a convergence set. -/
def unitSlots (u : Nat × Nat) : List Nat := (List.range u.2).map (· + u.1)

/-- The live threads of a convergence set. -/
def Course.liveSlots (c : Course) (u : Nat × Nat) : List Nat := (unitSlots u).filter fun i => (c.thread i).live

/-- The live thread count with which `uchk` compares (R28). -/
def Course.liveCount (c : Course) (u : Nat × Nat) : Nat := (c.liveSlots u).length

/-- Every live thread of a course. -/
def Course.allLive (c : Course) : List Nat := (List.range c.threads.length).filter fun i => (c.thread i).live

/-! ## The issue group at work -/

/-- The issue group, its course and its task. -/
structure Grp where
  g : Issue
  cs : Course
  tk : Task
  deriving Repr

/-- The group in the lane, if its course and task are resident. -/
def State.grp? (s : State) (g : Issue) : Option Grp :=
  match s.course? g.core g.course with
  | none => none
  | some cs =>
    match s.task? g.core cs.task with
    | none => none
    | some tk => some { g := g, cs := cs, tk := tk }

/-- The instruction as the lane sees it: its length in bytes, its common fields, the operands it reads in the order
d, a, b, c (R392), whether it is uniform (R27) and whether it is a supervisor function (R61). -/
structure LaneI where
  len : Nat
  h : Hdr
  rd : List Rd := []
  uni : Bool := false
  priv : Bool := false
  /-- An exchange or predicate gather, which waits for the pending results of its group (R25, R218). -/
  exch : Bool := false
  /-- Cycles of the lane for each thread (R196). -/
  per : Nat := 1
  /-- A second guard that is read (R230). -/
  more : List Rd := []
  /-- Registers that the thread of a slot reads by their physical numbers: those of a tile (R274). -/
  own : List (Nat × RegRef) := []
  deriving Repr

/-- The common fields of an instruction without any: unguarded, no stall (R181). -/
def openHdr : Hdr := { n := false, g := 15, s := 0 }

/-- The cycle at which the thread of a slot passes the lane (R23, R196). -/
def Grp.cyc (G : Grp) (x : LaneI) (slot : Nat) : Nat :=
  if x.uni then G.g.t else G.g.t + x.per * G.g.slots.findIdx (· = slot)

/-- Whether the instruction waits for the pending results of its group's threads (R25): an exchange, or a uniform
instruction that reads a thread register, a predicate or a guard. -/
def LaneI.waits (x : LaneI) : Bool :=
  x.exch || (x.uni && (decide (x.h.g ≠ 15) || x.rd.any fun r => match r with | .c _ => false | _ => true))

/-- The cycle as of which a thread's own registers are read: an instruction that waits reads what its thread holds
once every pending result is written. -/
def Grp.regCyc (G : Grp) (x : LaneI) (slot : Nat) : Nat :=
  if x.waits then (G.cs.thread slot).pend.foldl (fun m p => max m p.ready) G.g.t else G.cyc x slot

/-- The cycle as of which a uniform register is read: an exchange reads the sources of all participants at once (R218). -/
def Grp.uniCyc (G : Grp) (x : LaneI) (slot : Nat) : Nat := if x.exch then G.g.t else G.cyc x slot

/-- The lowest-numbered thread of the group. -/
def Grp.lowest (G : Grp) : Nat := G.g.slots.headD 0

/-- The threads of the group whose guard is true; for a uniform instruction, the lowest-numbered one if its guard
is true (R27, R195). -/
def Grp.active (G : Grp) (x : LaneI) : List Nat :=
  if x.uni then
    if guardHolds x.h (G.cs.thread G.lowest) (G.regCyc x G.lowest) then [G.lowest] else []
  else G.g.slots.filter fun i => guardHolds x.h (G.cs.thread i) (G.regCyc x i)

/-- The value of an operand in the thread of a slot, at the thread's cycle. -/
def Grp.read (G : Grp) (x : LaneI) (slot : Nat) (r : Rd) : Word :=
  readRd G.cs (G.cs.thread slot) (match r with | .c _ => G.uniCyc x slot | _ => G.regCyc x slot) r

/-- The selection unit of the group. -/
def Grp.unit (G : Grp) : Nat × Nat := G.cs.unit G.tk.width G.lowest

/-- The code of a register in sub of trap 0x03 (R385). -/
def RegRef.code : RegRef → Nat
  | .v n => n.toNat
  | .c n => 0x40 + n.toNat
  | .q n => 0x80 + n.toNat

/-- A pending result that a read at a cycle would miss (R392). -/
def earlyIn (ps : List Pend) (r : RegRef) (cyc : Nat) : Option Pend :=
  match ps.reverse.find? (fun p => decide (p.dst = r)) with
  | some p => if cyc < p.ready then some p else none
  | none => none

/-- The early read of one operand in one thread. -/
def Grp.early (G : Grp) (x : LaneI) (slot : Nat) (r : Rd) : Option (RegRef × Pend) :=
  let t := G.cs.thread slot
  let ref := t.ref r
  match r with
  | .c _ => (earlyIn G.cs.cpend ref (G.uniCyc x slot)).map fun p => (ref, p)
  | .q p => if t.isStage p then none else (earlyIn t.pend ref (G.regCyc x slot)).map fun p => (ref, p)
  | .v _ => (earlyIn t.pend ref (G.regCyc x slot)).map fun p => (ref, p)

/-- The guard as an operand, if the instruction has one (R392). -/
def guardRd (h : Hdr) : List Rd := if h.g = 15 then [] else [.q h.g]

/-- The early read of a register by its physical number. -/
def Grp.earlyRef (G : Grp) (x : LaneI) (slot : Nat) (r : RegRef) : Option (RegRef × Pend) :=
  (earlyIn (G.cs.thread slot).pend r (G.regCyc x slot)).map fun p => (r, p)

/-- The first early read of a thread: its operands in order if its guard is true, then the guard. -/
def Grp.earlyOf (G : Grp) (x : LaneI) (slot : Nat) : Option (RegRef × Pend) :=
  let act := (G.active x).contains slot
  (((if act then x.rd else []).findSome? (G.early x slot)).or
    (((if act then x.own else []).filter fun e => decide (e.1 = slot)).findSome? fun e => G.earlyRef x slot e.2)).or
    ((x.more ++ guardRd x.h).findSome? (G.early x slot))

/-- Steps 2 to 4 of R386: supervisor function in task mode, whatever the guards, uniform divergence, early reads.
(log 138: DEDUCED, unsafe.) -/
def Grp.preCheck (G : Grp) (x : LaneI) : Option Cause :=
  let notSup := G.g.slots.filter fun i => !(G.cs.thread i).sup
  if x.priv && !notSup.isEmpty then
    some { code := 0x11, ipc := G.g.pc, tmask := 2 ^ notSup.headD 0 }
  else if x.uni && G.tk.uchk && decide (G.g.slots.length < G.cs.liveCount G.unit) && !(G.active x).isEmpty then
    some { code := 0x05, sub := G.g.slots.length, ipc := G.g.pc, tmask := slotMask G.g.slots }
  else if G.tk.sbchk then
    (if x.uni then [G.lowest] else G.g.slots).findSome? fun i =>
      (G.earlyOf x i).map fun e =>
        { code := 0x03, sub := e.1.code, faddr := e.2.ipc, ipc := G.g.pc, tmask := 2 ^ i }
  else none

/-- The cycles that the stall count adds (R24). -/
def stallCycles (h : Hdr) : Nat :=
  if h.s = 0 then 0 else if h.s = 1 then 1 else if h.s = 2 then 3 else 11

/-- The lane of a course (R19). -/
def laneOf (core course : Nat) : Nat := if isCtl core then 0 else course % 64

/-- Whether a thread holds a loop body open (R235). -/
def Thread.holdsBody (t : Thread) (lo hi : Word) : Bool :=
  t.live && (t.lv.toList.take t.lopen).any fun l => decide (l.str = lo ∧ l.lend = hi)

/-- The loop buffer is released when no thread holds its body open (R235). -/
def Course.trimLoop (c : Course) : Course :=
  let open_ := fun (lo hi : Word) => c.threads.any fun t => t.holdsBody lo hi
  { c with
    loopBuf := c.loopBuf.filter fun b => open_ b.lo b.hi
    recapture := c.recapture.filter fun b => open_ b.1 b.2 }

/-- A trap or pre-emption discards the loop buffer and the prefetched parcels; the body is captured again (R170). -/
def Course.leaveCode (c : Course) : Course :=
  { c with loopBuf := none, prefetch := none, recapture := (c.loopBuf.map fun b => (b.lo, b.hi)).or c.recapture }

/-- A stepped group that leaves the lane without its instruction's effect leaves the step set (R433). -/
def Course.rearm (c : Course) : Course := { c with stepping := if c.stepping = .out then .armed else c.stepping }

/-- The lane is taken for `occ` cycles, and the course stays out for `extra` more (R23, R24); nothing is in issue. Under
`.width 16` only the half that issued stays out: whether R24 delays the other half too is the model's choice. (log 9: DESIGN CHOICE, unsafe.)
(log 142: DESIGN CHOICE, unsafe.) -/
def State.leaveLane (s : State) (g : Issue) (occ extra : Nat) (c : Course) : State :=
  let hi := decide (16 ≤ g.slots.headD 0)
  let c := c.trimLoop
  let c := if hi then { c with stallUntilHi := g.t + occ + extra } else { c with stallUntil := g.t + occ + extra }
  let s := s.setCourse g.core g.course c
  let s := s.modCore g.core fun x => 
    { x with laneFree := x.laneFree.set (laneOf g.core g.course) (max (x.laneFree.get (laneOf g.core g.course) 0) (g.t + occ)) }
  { s with issue := none, nextOrd := s.nextOrd + 1 }

/-- Cycles a group occupies at one cycle a thread; one for a uniform instruction (R23). -/
def Grp.occ (G : Grp) (x : LaneI) : Nat := if x.uni then 1 else G.g.slots.length

/-- Every thread of the group completes the instruction (R231). -/
def Grp.completeAll (G : Grp) (x : LaneI) (c : Course) : Course :=
  G.g.slots.foldl (fun c i => c.modThread i fun t => t.complete x.len) c

end Sys2Proof.Machine
end

