-- ==== Sys2Proof/Machine/Homes.lean ====
section
/-! DEFINITION. The lines of the home slices and the banks of the pools: places, ways, sectors, stamps, and the writes
that the module's own units perform at homes (R141 to R145, R164). -/

namespace Sys2Proof.Machine

/-! ## Places -/

/-- The line of `n` bytes that holds a home's byte. -/
def Loc.align (x : Loc) (n : Nat) : Loc :=
  match x with
  | .pool k a => .pool k (a / n * n)
  | .hbm d a => .hbm d (a / n * n)
  | .scratch d a => .scratch d (a / n * n)
  | .remote d a => .remote d (a / n * n)

/-- Whether a home is another destination. -/
def Loc.isRemote : Loc → Bool
  | .remote _ _ => true
  | _ => false

/-- The offset within the home. -/
def Loc.off : Loc → Nat
  | .pool _ a => a
  | .hbm _ a => a
  | .scratch _ a => a
  | .remote _ a => a

/-- The number of a line at the home slices of its die; die scratch lines follow the HBM lines. -/
def Loc.lineNo : Loc → Nat
  | .scratch _ o => 2 ^ 30 + o / 256
  | x => x.off / 256

/-- The die of a home in HBM or die scratch. -/
def Loc.dieOf : Loc → Nat
  | .hbm d _ => d
  | .scratch d _ => d
  | _ => 0

/-! ## Lines of the home slices (R141 to R145, R164) -/

/-- The slice and set of a line (R141); a die scratch line lies in slice o[14:8], set i mod 1,024 and way
15 − floor(i / 1,024), where i = o >> 15 (R145). -/
def lineSlice (line : Nat) : Nat :=
  if 2 ^ 30 ≤ line then (line - 2 ^ 30) % 128 else homeSlice (256 * line)
def lineSet (line : Nat) : Nat :=
  if 2 ^ 30 ≤ line then (line - 2 ^ 30) / 128 % 1024 else homeSet (256 * line)
def scratchWay (line : Nat) : Nat := 15 - (line - 2 ^ 30) / 128 / 1024

def State.line? (s : State) (d line : Nat) : Option LineMeta :=
  s.lines.find? fun l => decide (l.die = d ∧ l.line = line)
/-- A line's record is kept, as the most recently used. -/
def State.setLine (s : State) (l : LineMeta) : State :=
  { s with lines := s.lines.filter (fun x => decide (¬ (x.die = l.die ∧ x.line = l.line))) ++ [l] }
def State.floorOf (s : State) (d slice : Nat) : BitVec 32 := s.floors.get (128 * d + slice) 0

/-- A line leaves its slice: the slice's floor rises to its tag (R164). -/
def State.evictLine (s : State) (l : LineMeta) : State :=
  let k := 128 * l.die + lineSlice l.line
  let f := s.floors.get k 0
  { s with lines := s.lines.filter (fun x => decide (¬ (x.die = l.die ∧ x.line = l.line)))
           floors := s.floors.set k (if f.toNat < l.tag.toNat then l.tag else f) }

/-- The ways of a die's scratch that an access may name: while a `cresize` is in progress the larger count, since an access
to what changes waits for it (R146). -/
def State.scratchWays (s : State) (d : Nat) : Nat := max (s.die d).ways ((s.die d).resize.getD 0)

/-- The ways of every slice of a die that take new lines: those a `cresize` in progress takes or gives back are left out
(R145, R146). -/
def State.cacheWays (s : State) (d : Nat) : Nat := 16 - s.scratchWays d

/-- The lines of a line's set. -/
def State.setPeers (s : State) (d line : Nat) : List LineMeta :=
  s.lines.filter fun l => decide (l.die = d ∧ l.line < 2 ^ 30 ∧ lineSlice l.line = lineSlice line ∧ lineSet l.line = lineSet line)

/-- A line has a way of its set, as the most recently used: one that holds none, else one whose line makes room, never the most
recently used of several (R142, R144). (log 66: DESIGN CHOICE, safe.) -/
def State.ensureLine (s : State) (d line : Nat) : State :=
  match s.line? d line with
  | some l => s.setLine l
  | none =>
    let new : LineMeta := { die := d, line := line, tag := s.floorOf d (lineSlice line) }
    if 2 ^ 30 ≤ line then s.setLine { new with way := scratchWay line }
    else
      let peers := s.setPeers d line
      let w := s.cacheWays d
      match (List.range w).find? fun k => !peers.any fun l => decide (l.way = k) with
      | some k => s.setLine { new with way := k }
      | none =>
        let held := peers.filter fun l => decide (l.way < w)
        let old := if held.length = 1 then held else held.dropLast
        match old[s.fresh.1 % old.length]? with
        | some v => (s.fresh.2.evictLine v).setLine { new with way := v.way }
        | none => s.setLine new

/-- The sector of a home's byte, the sectors and the words of a line that an access touches. -/
def sectorOf (x : Loc) : Nat := x.off % 256 / 64
def sectorsOf (x : Loc) (n : Nat) : BitVec 4 :=
  BitVec.ofNat 4 ((2 ^ ((x.off % 64 + n + 63) / 64) - 1) * 2 ^ sectorOf x)
def wordMask (x : Loc) (n : Nat) : BitVec 64 :=
  BitVec.ofNat 64 ((2 ^ ((x.off % 4 + n + 3) / 4) - 1) * 2 ^ (x.off % 256 / 4))

/-- A write or atomic is stamped: the line's tag, or the bank's counter, rises by one (R164). -/
def State.stamp (s : State) (x : Loc) : BitVec 32 × State :=
  match x with
  | .pool k a =>
    let b := a / 8 % 512
    let t := (s.core k).bankTag.get b 0 + 1
    (t, s.modCore k fun c => { c with bankTag := c.bankTag.set b t })
  | .remote _ _ => (0, s)
  | _ =>
    let s := s.ensureLine x.dieOf x.lineNo
    let l := (s.line? x.dieOf x.lineNo).getD { die := x.dieOf, line := x.lineNo }
    (l.tag + 1, s.setLine { l with tag := l.tag + 1 })

/-- A write of several words: one stamp of its line, or one at each bank of a pool that it writes (R164). -/
def State.stampAll (s : State) (x : Loc) (n : Nat) : State :=
  match x with
  | .pool _ a => (List.range ((a % 8 + n + 7) / 8)).foldl (fun s i => (s.stamp ((x.align 8).plus (8 * i))).2) s
  | _ => (s.stamp x).2

/-- Written sectors: their words' mask bits and their dirty bits are set; a word written in part, which the slice did not
hold, has had its sector filled (R142). -/
def State.markWritten (s : State) (x : Loc) (n : Nat) : State :=
  match x with
  | .hbm d _ =>
    match s.line? d x.lineNo with
    | some l =>
      let last := x.plus (n - 1)
      let fill := fun (y : Loc) (part : Bool) => if part && !l.mask.getLsbD (y.off % 256 / 4) then 1#4 <<< sectorOf y else 0#4
      s.setLine { l with
        valid := l.valid ||| fill x (decide (x.off % 4 ≠ 0)) ||| fill last (decide ((x.off + n) % 4 ≠ 0))
        dirty := l.dirty ||| sectorsOf x n, mask := l.mask ||| wordMask x n }
    | none => s
  | _ => s

/-- A byte written in part, in a word that the slice does not hold: its sector has been filled (R142). -/
def State.fillPart (s : State) (x : Loc) : State :=
  match x with
  | .hbm d _ =>
    match s.line? d x.lineNo with
    | some l => if l.mask.getLsbD (x.off % 256 / 4) then s else s.setLine { l with valid := l.valid ||| (1#4 <<< sectorOf x) }
    | none => s
  | _ => s

/-- Sectors that a unit, a fetch, a walk or a packet reads at their home slice are valid there: from the cache, or filled from
HBM; the entry that the fill takes is held within the event alone (R142, R144). (log 160: DESIGN CHOICE, safe.) -/
def State.served (s : State) (x : Loc) (n : Nat) : State :=
  match x with
  | .hbm d _ =>
    let s := s.ensureLine d x.lineNo
    match s.line? d x.lineNo with
    | some l => s.setLine { l with valid := l.valid ||| sectorsOf x n }
    | none => s
  | _ => s

/-- Bytes that a unit of the module writes at local physical addresses, each piece one write of its line: trap frames,
records, counters and status words (R142, R164). -/
def State.physStore (s : State) (a : Nat) (bs : List Byte) : State :=
  (linePieces (bs.length / 256 + 2) a bs).foldl
    (fun s p => match localHome (fun d => (s.dies.get d {}).ways) false p.1 with
      | some x => ((s.locWrite x p.2).stampAll x p.2.length).markWritten x p.2.length
      | none => s) s

end Sys2Proof.Machine
end

