-- ==== Sys2Proof/Machine/Records.lean ====
section
/-! DEFINITION. Event records and the records that go to the host (R80, R81, R354). -/

namespace Sys2Proof.Machine

/-- Word 0 of an event record (R80). -/
def evWord0 (graph node status type : Nat) : Word :=
  BitVec.ofNat 64 (type + 2 ^ 8 * (status % 256) + 2 ^ 16 * (node % 65536) + 2 ^ 32 * (graph % 2 ^ 32))

/-- Word 1 of an event record (R80). -/
def evWord1 (die core index : Nat) : Word :=
  BitVec.ofNat 64 (index % 2 ^ 32 + 2 ^ 32 * (core % 256) + 2 ^ 40 * (die % 4))

/-- An event record made now (R80). (log 113: DEDUCED, unsafe.) -/
def State.event (s : State) (graph node status type die core index : Nat) (detail : Word) : Event :=
  ⟨evWord0 graph node status type, evWord1 die core index, BitVec.ofNat 64 s.ns, detail⟩

/-- The 32 bytes of a record, little-endian (R3). -/
def Event.bytes (e : Event) : List Byte :=
  leBytes 8 e.w0.toNat ++ leBytes 8 e.w1.toNat ++ leBytes 8 e.w2.toNat ++ leBytes 8 e.w3.toNat

/-- Entries that a queue can take now: up to its minimum always, above it from the pool's unreserved entries up to its
cap (R75). -/
def queueRoom (pool : Nat) (qs : List (Nat × QCtl)) (i : Nat) : Nat :=
  match qs[i]? with
  | none => 0
  | some (len, q) =>
    let above := (qs.map fun x => x.1 - x.2.min).foldl (· + ·) 0
    let free := pool - (qs.map fun x => x.2.min).foldl (· + ·) 0 - above
    min (q.cap - len) ((q.min - len) + free)

/-- The room of a cluster's event queue, the one queue of its pool, in entries (R75, R76). -/
def Cluster.evFree (c : Cluster) : Nat := queueRoom 1024 [(c.events.length + c.hostEv, c.evCtl)] 0

/-- Whether it has room for a record. -/
def Cluster.evRoom (c : Cluster) : Bool := decide (0 < c.evFree)

/-- Whether a cluster's overflow ring has room; a cluster without a ring treats it as full (R80). -/
def Cluster.ovRoom (c : Cluster) : Bool := decide (c.ovCount < c.ovSize)

/-- Once the queue of a cluster whose overflow ring has been written has space, a record of type 0x07 enters it with the
count of records in the ring; the ring is then software's to read, and counts from there (R80). (log 90: DESIGN CHOICE, unsafe.) -/
def State.overflowQueued (s : State) (cl : Nat) : State :=
  let c := s.cluster cl
  if c.ovPending && c.evRoom then
    let e := s.event 0 0xFFFF 0 0x07 (cl / 4) 0xFF c.ovCount 0
    s.setCluster cl { c with events := c.events ++ [e], ovPending := false, ovCount := 0
                             ovHead := if c.ovSize = 0 then 0 else (c.ovHead + c.ovCount) % c.ovSize }
  else s

/-- A record goes to a cluster's overflow ring, which has room (R80). -/
def State.toOverflow (s : State) (cl : Nat) (bs : List Byte) : State :=
  let c := s.cluster cl
  (s.physStore (c.ovBase.toNat + 32 * ((c.ovHead + c.ovCount) % c.ovSize)) bs).setCluster cl { c with ovCount := c.ovCount + 1, ovPending := true }

/-- A record that can be taken now: into the queue, behind a record of type 0x07 that is due, else into the overflow ring;
`none` where both are full. -/
def State.takeEvent (s : State) (cl : Nat) (e : Event) : Option State :=
  let s := s.overflowQueued cl
  let c := s.cluster cl
  if c.evRoom then some (s.setCluster cl { c with events := c.events ++ [e] })
  else if c.ovRoom then some (s.toOverflow cl e.bytes)
  else none

/-- A record sent to a cluster's event queue; one that cannot be taken stays with its producer (R75, R80). -/
def State.postEvent (s : State) (cl : Nat) (e : Event) : State :=
  if (s.cluster cl).evWait.isEmpty then
    match s.takeEvent cl e with
    | some s' => s'
    | none => s.modCluster cl fun c => { c with evWait := c.evWait ++ [e] }
  else s.modCluster cl fun c => { c with evWait := c.evWait ++ [e] }

/-- A record of type 0x07 that is due, then the records that wait with their producers, enter a cluster's queue or ring
while they can (R75, R80). -/
def State.drainEvents (s : State) (cl : Nat) : State :=
  let s := s.overflowQueued cl
  (s.cluster cl).evWait.foldl (fun s _ =>
    match (s.cluster cl).evWait with
    | e :: r => match s.takeEvent cl e with
      | some s' => s'.modCluster cl fun c => { c with evWait := r }
      | none => s
    | [] => s) s

/-! ## Messages to the host (R352 to R354, R357) -/

/-- The depth of a ring, which is also each side's first credit for it (R354). -/
def ringDepth (ring : Nat) : Nat :=
  if ring < 64 then 256 else if ring = 66 ∨ ring = 68 then 64 else if ring = 67 then 1 else if ring < 66 then 1024 else 0

/-- The next sequence number: one more modulo 2^32, skipping 0 (R357). -/
def nextSeqNo (n : Nat) : Nat := if (n + 1) % 2 ^ 32 = 0 then 1 else (n + 1) % 2 ^ 32

/-- The number before a sequence number, skipping 0 (R357). -/
def prevSeqNo (n : Nat) : Nat := if n = 1 then 2 ^ 32 - 1 else n - 1

/-- The last number accepted, 0 where the receive state is lost, and the last sent; 0 before the first (R352, R359). -/
def HostLink.accepted (h : HostLink) : Nat := if h.resync || (decide (h.expect = 1) && !h.anyIn) then 0 else prevSeqNo h.expect
def HostLink.sent (h : HostLink) : Nat := if h.sendSeq = 1 ∧ h.anyOut = false then 0 else prevSeqNo h.sendSeq

/-- Bit i where message ack + 2 + i has been received and held (R352). -/
def HostLink.sackBits (h : HostLink) : Nat :=
  ((List.range 32).filter fun i => h.heldIn.any fun x => decide (x.m.seq = (h.accepted + 2 + i) % 2 ^ 32)).foldl (fun b i => b + 2 ^ i) 0

/-- The device's free entries of a ring: those that no held entry takes (R354). (log 135: DESIGN CHOICE, unsafe.) -/
def HostLink.freeOf (h : HostLink) (ring : Nat) : Nat := ringDepth ring - (h.heldIn.filter fun x => decide (x.m.ring = ring)).length

/-- The header of a message as it is sent at a time (R352). (log 135: DESIGN CHOICE, unsafe.) -/
def HostLink.stamp (h : HostLink) (time : Nat) (m : Msg) : Msg :=
  { m with ver := 2, ack := h.accepted, credit := h.freeOf m.ring, sack := h.sackBits, time := time / nsTicks, home := none }

/-- Whether a message of a ring may go out: the link is up, the host's credit for the ring is not used up, and fewer
than 256 messages are unacknowledged. -/
def HostLink.maySend (h : HostLink) (ring : Nat) : Bool :=
  h.up && !h.lost && decide (0 < h.credits.get ring 0) && decide (h.unacked.length < 256)

/-- The waiting messages of a ring go out in order while they may; `fuel` is the number that wait. -/
def HostLink.pump (time ring : Nat) : Nat → HostLink → HostLink
  | 0, h => h
  | fuel + 1, h =>
    match h.waiting.find? fun m => decide (m.ring = ring) with
    | none => h
    | some m =>
      if h.maySend ring then
        HostLink.pump time ring fuel
          { h with
            waiting := h.waiting.erase m
            unacked := h.unacked ++ [(time, h.stamp time { m with seq := h.sendSeq })]
            sendSeq := nextSeqNo h.sendSeq
            anyOut := true
            credits := h.credits.set ring (h.credits.get ring 0 - 1)
            lastAck := if h.unacked.isEmpty then time else h.lastAck }
      else h

/-- The entries of 32 bytes that a record for the host takes in an event queue or an overflow ring. -/
def entriesOf (bs : List Byte) : Nat := (bs.length + 31) / 32

/-- The entries of event queues that hold records for the host are those whose records still wait; records that wait for an
entry then take the others (R80). -/
def State.freeHostEvents (s : State) : State :=
  (List.range 16).foldl (fun s cl =>
    let n := (s.host.waiting.filter fun m => decide (m.home = some cl)).foldl (fun n m => n + entriesOf m.payload) 0
    if n < (s.cluster cl).hostEv then (s.modCluster cl fun c => { c with hostEv := n }).drainEvents cl else s) s

/-- The messages of a ring that may go out do. -/
def State.pumpRing (s : State) (ring : Nat) : State :=
  let s : State := { s with host := s.host.pump s.time ring s.host.waiting.length }
  if 64 ≤ ring ∧ ring ≤ 66 then s.freeHostEvents else s

/-- A message for a device-written ring of the host link; it goes out when the host's credit allows (R354). -/
def State.toHost (s : State) (ring type : Nat) (payload : List Byte) : State :=
  ({ s with host := { s.host with waiting := s.host.waiting ++ [{ ring := ring, type := type, seq := 0, payload := payload }] } } : State).pumpRing ring

/-- A record for the host's event, completion or system-call ring (R354): an event record that has no credit, and any of them
while the link is lost, waits in a cluster's event queue, or goes to its overflow ring (R80, R425). (log 136: DEDUCED, unsafe.) -/
def State.recordTo (s : State) (cl ring type : Nat) (bs : List Byte) : State :=
  let m : Msg := { ring := ring, type := type, seq := 0, payload := bs }
  let n := entriesOf bs
  let wait := fun (s : State) (m : Msg) => ({ s with host := { s.host with waiting := s.host.waiting ++ [m] } } : State)
  if s.host.maySend ring || (decide (ring ≠ 64) && !s.host.lost) then s.toHost ring type bs
  else
    let s := s.overflowQueued cl
    let c := s.cluster cl
    if !c.evWait.isEmpty then wait s m
    else if n ≤ c.evFree then (wait s { m with home := some cl }).modCluster cl fun c => { c with hostEv := c.hostEv + n }
    else if c.ovCount + n ≤ c.ovSize then (List.range n).foldl (fun s i => s.toOverflow cl ((bs.drop (32 * i)).take 32)) s
    else wait s m

/-- A record for the host event ring. -/
def State.hostRecord (s : State) (cl : Nat) (bs : List Byte) : State := s.recordTo cl 64 2 bs

/-- The cluster of the core that a record names, the first of the die where it names none. -/
def Event.cluster (e : Event) : Nat :=
  let core := e.w1.toNat / 2 ^ 32 % 2 ^ 8
  4 * (e.w1.toNat / 2 ^ 40 % 4) + (if core < 128 then core / 32 else if core < 132 then core - 128 else 0)

/-- An event record for the host event ring (R354). -/
def State.hostEvent (s : State) (e : Event) : State := s.hostRecord e.cluster e.bytes

end Sys2Proof.Machine
end

