-- ==== Sys2Proof/Machine/Ops.lean ====
section
/-! DEFINITION. Taking a trap and returning from one (R377 to R391, R396), convergence, and the driver of lane
instructions. -/

namespace Sys2Proof.Machine

/-! ## The trap frame (R381, R382) -/

/-- The bit of a truth value at a position. -/
def bitN (b : Bool) (k : Nat) : Nat := if b then 2 ^ k else 0

/-- Word 0 of the frame header. -/
def frameWord0 (x : Cause) (route : Nat) (held : Option Cause) (lost nested : Bool) : Nat :=
  x.code % 256 + 2 ^ 8 * (x.sub % 256) + 2 ^ 16 * (x.num % 2048) + 2 ^ 27 * (x.scope % 8) + 2 ^ 30 * (route % 4) +
    2 ^ 32 * ((held.map Cause.code).getD 0 % 256) + bitN lost 40 + bitN nested 41

/-- The width code of a task with its task reference, as the header's words 5 and 6 give its place. -/
def frameWord5 (tk : Task) : Nat := 2 ^ 32 * (tk.ref.graph % 2 ^ 32) + 2 ^ 16 * (tk.ref.node % 65536)
def frameWord6 (tk : Task) (core course live : Nat) : Nat :=
  tk.ref.index % 2 ^ 32 + 2 ^ 32 * (course % 128) + 2 ^ 40 * (coreIn core) + 2 ^ 48 * (coreDie core) +
    2 ^ 50 * (tk.width % 4) + 2 ^ 56 * (live % 256)

/-- The place of a missing thread in the header. -/
def missingWord (rank : Nat) (m : Nat × Nat × Nat) : Nat :=
  m.2.2 % 64 + 2 ^ 8 * (m.2.1 % 128) + 2 ^ 16 * coreIn m.1 + 2 ^ 24 * coreDie m.1 + 2 ^ 32 * rank

/-- The 256 bytes of the frame header (R381). -/
def frameHeader (s : State) (core course : Nat) (c : Course) (tk : Task) (x : Cause) (route live : Nat) : List Byte :=
  let miss := x.missing.take 11
  let ws := [frameWord0 x route c.held c.heldLost c.nested, x.faddr.toNat, x.ipc.toNat, 0, x.tmask, frameWord5 tk,
      frameWord6 tk core course live, s.ns, x.missing.length % 2 ^ 32 + x.reason + 2 ^ 32 * (x.bseq + x.detail),
      ((c.held.map fun h => h.faddr.toNat).getD 0)] ++
    miss.flatMap fun m =>
      [((((s.core m.1).courses.get m.2.1 {}).thread m.2.2).pc).toNat, missingWord s.rank m]
  (ws ++ List.replicate (32 - ws.length) 0).flatMap (leBytes 8)

/-- The bit 16 to 31 and age part of a thread record's status word (R381). -/
def recStatus (t : Thread) (raised missing : Bool) (lost : Option RegRef) : Nat :=
  t.q.toNat + bitN t.live 16 +
    bitN (match t.wait with | .conv .. => true | _ => false) 17 +
    bitN (match t.wait with | .barrier .. => true | _ => false) 18 +
    bitN t.halted 19 + bitN t.sup 20 + bitN raised 21 + bitN missing 22 +
    (match lost with | some (.v n) => 2 ^ 23 + 2 ^ 24 * n.toNat | _ => 0) + 2 ^ 32 * min t.age 65535

/-- `lopen` as a mask of open levels (R46). -/
def lopenMask (n : Nat) : Nat := 2 ^ n - 1

/-- The 512 bytes of a thread record (R381). -/
def threadRecord (t : Thread) (raised missing : Bool) (lost : Option RegRef) : List Byte :=
  t.v.toList.flatMap (fun (x : Word) => leBytes 8 x.toNat) ++ leBytes 8 t.pc.toNat ++
  leBytes 8 (recStatus t raised missing lost) ++
  leBytes 8 (match t.wait with | .conv m _ _ _ => m | _ => 0) ++
  leBytes 8 (match t.wait with | .barrier k q _ => k.scope + 2 ^ 8 * k.num + 2 ^ 32 * (q % 65536) | _ => 0) ++
  t.lv.toList.flatMap (fun (l : Level) => leBytes 4 l.cnt.toNat ++ leBytes 4 l.idx.toNat ++ leBytes 8 l.str.toNat ++ leBytes 8 l.lend.toNat) ++
  leBytes 8 (16 * t.ring + t.base + 2 ^ 16 * t.stages + 2 ^ 24 * lopenMask t.lopen + 2 ^ 32 * t.depth) ++
  (t.rs ++ List.replicate (4 - t.rs.length) 0).flatMap (fun (x : Word) => leBytes 8 x.toNat) ++
  leBytes 4 t.seqtag.toNat ++ leBytes 4 0 ++ leBytes 8 0 ++ List.replicate 72 0

/-- The byte of a guard slot in the course state (R382). -/
def gslotByte : GSlot → Nat
  | .unresolved => 0
  | .isFalse => 1
  | .isTrue => 2

/-- The key of a course-scope barrier of a convergence set (R237). -/
def courseBar (core course : Nat) (unit : Nat) (n : Nat) : BarKey :=
  { scope := 1, place := core, group := 2 * course + unit / 16, num := n }

/-- A barrier instance; one never used has no arrivals and sequence 0. -/
def State.bar (s : State) (k : BarKey) : Bar := (findAt (fun b => decide (b.key = k)) s.bars).getD { key := k }
def State.setBar (s : State) (b : Bar) : State :=
  { s with bars := b :: s.bars.filter fun x => decide (x.key ≠ b.key) }

/-- The cycle at which a wait that begins now times out: 2^e cycles on, with e the byte at an offset of the die's trap
control block (R383). -/
def State.dueAt (s : State) (d off : Nat) : Nat :=
  let e := s.physNat (trapBase d + off) 1
  s.now + 2 ^ (if 10 ≤ e ∧ e ≤ 40 then e else 24)

/-- The time-out of a barrier, and of a convergence wait, that begins now (R383, R395). -/
def State.barDue (s : State) (d : Nat) (k : BarKey) : Nat := s.dueAt d (0x200 + 64 * (k.scope - 1) + k.num)
def State.convDue (s : State) (d : Nat) : Nat := s.dueAt d 8

/-- The cluster whose event queue takes a core's records of type 0x06: its own, or the one `trapq` names (R384, R429). -/
def State.trapCluster (s : State) (core : Nat) : Nat :=
  let q := (s.core core).trapq.toNat
  if q.testBit 2 then 4 * coreDie core + q % 4 else coreCluster core

/-- The 512 bytes of the course state (R382). -/
def courseRecord (s : State) (core course : Nat) (c : Course) : List Byte :=
  let bars := (List.range 8).map fun n => s.bar (courseBar core course 0 n)
  c.c.toList.flatMap (fun (x : Word) => leBytes 8 x.toNat) ++ c.g.toList.flatMap (fun g => leBytes 1 (gslotByte g)) ++
  c.cnt.toList.flatMap (leBytes 1) ++ leBytes 4 0 ++ leBytes 8 c.tstat.toNat ++ leBytes 8 c.fstat.toNat ++
  bars.flatMap (fun b => leBytes 2 b.arrived.length) ++ bars.flatMap (fun b => leBytes 2 b.seq) ++
  leBytes 4 c.syscall ++ leBytes 4 (bitN c.syscApplied 0) ++ List.replicate 176 0

/-- The whole frame of a course (R380). (log 112: DESIGN CHOICE, unsafe.) -/
def trapFrame (s : State) (core course : Nat) (c : Course) (tk : Task) (x : Cause) (route : Nat) : List Byte :=
  let live := if x.code = 0x05 then c.liveCount (c.unit tk.width ((maskSlots x.tmask 64).headD 0)) else c.allLive.length
  frameHeader s core course c tk x route live ++ courseRecord s core course c ++
  (List.range c.threads.length).flatMap fun i =>
    threadRecord (c.thread i) (x.tmask.testBit i)
      (x.missing.any fun m => decide (m = (core, course, i)))
      ((x.lost.find? fun p => decide (p.1 = i)).map Prod.snd)

/-! ## Ends of threads and tasks -/

/-- Commands of a course held on an unresolved guard slot are discarded when its last thread exits (R77, R281). -/
def dropHeld (c : Course) (n : Nat) (qs : Vector (List Cmd) 4) : Vector (List Cmd) 4 :=
  qs.map fun q => q.map fun x =>
    if x.course = n && (match x.gen with | some i => decide (c.g.toList.getD i .unresolved = .unresolved) | none => false)
    then { x with discarded := true } else x

/-- Threads of a course exit (R228). -/
def State.exitThreads (s : State) (core course : Nat) (slots : List Nat) : State :=
  match s.course? core course with
  | none => s
  | some c =>
    let c' := slots.foldl (fun c i => c.modThread i Thread.exit) c
    let s := s.setCourse core course c'
    if c'.allLive.isEmpty && !c.allLive.isEmpty then
      s.modCore core fun k => { k with queues := dropHeld c' course k.queues }
    else s

/-- Every live thread of a task exits, and its end record takes a status (R384, R80). -/
def State.endTask (s : State) (core slot status : Nat) : State :=
  match s.task? core slot with
  | none => s
  | some tk =>
    let s := tk.courses.foldl (fun s n =>
      let s := s.exitThreads core n (List.range 64)
      s.modCourse core n fun c =>
        { c with trap := .none, held := none, deferred := [], park := none, susp := none, again := none, stopped := false }) s
    s.setTask core slot { tk with status := status, ending := true }

/-! ## Routes (R383, R384) -/

/-- The detail word of a record of type 0x06 or 0x0A. -/
def trapDetail (x : Cause) (core course : Nat) (nested : Bool) : Word :=
  BitVec.ofNat 64 (x.code % 256 + 2 ^ 8 * (course % 128) + bitN nested 15 + 2 ^ 16 * ((maskSlots x.tmask 64).headD 0) +
    2 ^ 32 * (128 * coreIn core + course))

/-- The route byte of a cause code (R383). -/
def State.routeByte (s : State) (d code : Nat) : Nat := s.physNat (trapBase d + 0x100 + code) 1 % 4

/-- The route a trap takes: 0 fatal, 1 own handler, 2 control core, 3 host (R384, R389). -/
def State.route (s : State) (core : Nat) (nested : Bool) (code : Nat) : Nat :=
  let r := if nested then 0 else if isCtl core then 1 else s.routeByte (coreDie core) code
  if r = 1 ∧ (s.core core).trapvec = 0 then 0 else r

/-- The handler thread of route 1 starts (R388). -/
def startHandler (t : Thread) (vec frame word0 : Word) : Thread :=
  { t with pc := vec, sup := true, wait := .ready, lopen := 0, ring := 0, base := 0, stages := 1, rs := [], depth := 0,
           v := regSet (regSet t.v 0 frame) 1 word0
           sb := t.sb.filter fun e => decide (e.1 ≠ .v 0 ∧ e.1 ≠ .v 1) }

/-! ## What a course has outstanding -/

/-- Every entry that carries one of some accesses is due (R160, R165). -/
def State.dueFor (s : State) (core : Nat) (ids : List Nat) : State :=
  s.modCore core fun c => { c with hod := c.hod.map fun e => if e.accs.any ids.contains then { e with due := true } else e }

/-- Every entry of a core is due (R158, R77, R84). -/
def State.dueAll (s : State) (core : Nat) : State :=
  s.modCore core fun c => { c with hod := c.hod.map fun e => { e with due := true } }

/-- The state of a guard slot of a course. -/
def Course.slotAt (c : Course) (n : Nat) : GSlot := c.g.toList.getD n .unresolved

/-- Whether a command waits on an unresolved guard slot. -/
def State.onSlot (s : State) (core : Nat) (x : Cmd) : Bool :=
  !x.discarded && (match x.gen with
    | some n => decide (((s.course? core x.course).getD {}).slotAt n = .unresolved)
    | none => false)

/-- Whether an access returns a value. -/
def AccKind.returns : AccKind → Bool
  | .load _ => true
  | .atom _ noRet => !noRet
  | _ => false

/-- Whether an access writes, or is a write in every respect (R261). -/
def AccKind.writes : AccKind → Bool
  | .load _ => false
  | _ => true

/-- The loads and returning atomics of a course that have not returned. -/
def State.courseReads (s : State) (core course : Nat) : List Await :=
  (s.inflight.filter fun a => decide (a.core = core ∧ a.course = course) && a.kind.returns).map fun a => { id := a.id, scope := 8 }

/-- The commands of a core that stay held: on an unresolved guard slot, or queued behind one in their class (R83, R377). -/
def State.heldIds (s : State) (core : Nat) : List Nat :=
  (s.core core).queues.toList.flatMap fun q => (q.dropWhile fun x => !s.onSlot core x).map Cmd.id

/-- The stores and atomics of a course that are still on their way. -/
def State.courseStores (s : State) (core course : Nat) : List Nat :=
  (s.inflight.filter fun a => decide (a.core = core ∧ a.course = course) && a.kind.writes).map Access.id

/-- Whether every pending result of a course has been written, but for registers that the fault delivered, or one still to
be delivered, has lost, and those that a held command will write (R378, R379 step 2). -/
def Course.quiet (c : Course) (x : Cause) (now : Nat) (held : List Nat) : Bool :=
  let lost := fun (i : Nat) (r : RegRef) => x.lost.contains (i, r) || c.deferred.any fun y => y.lost.contains (i, r)
  c.cpend.all (fun p => decide (p.ready ≤ now)) && c.csb.all (fun e => held.contains e.2) &&
  (List.range c.threads.length).all fun i =>
    let t := c.thread i
    t.pend.all (fun p => decide (p.ready ≤ now)) && t.sb.all fun e => lost i e.1 || held.contains e.2

/-- Every readable result of a course stored in its registers. -/
def Course.settleAll (c : Course) (now : Nat) : Course :=
  { c.settleC now with threads := c.threads.map fun t => t.settle now }

/-- TAKING A TRAP: steps 2 to 5 of R379. Nothing happens until every pending result of the course is written and its stores
and atomics, which the frame's release awaits, are performed and acknowledged. -/
def State.takeTrap (s : State) (core course : Nat) : State :=
  match s.course? core course with
  | none => s
  | some c0 =>
    match c0.trap, s.task? core c0.task with
    | .stopping, some tk =>
      let x := c0.cause
      if !c0.quiet x s.now (s.heldIds core) then s
      else if !(s.courseStores core course).isEmpty then s.dueFor core (s.courseStores core course)
      else
        let c := (c0.settleAll s.now).leaveCode
        let c := { c with saved := c.threads }
        let route := s.route core c.nested x.code
        let slot := frameSlot core course
        let frame := trapFrame s core course c tk x route
        let s := (s.setCourse core course c).physStore slot frame
        let w0 := BitVec.ofNat 64 (frameWord0 x route c.held c.heldLost c.nested)
        let d := coreDie core
        let ev := fun ty => s.event tk.ref.graph tk.ref.node 0 ty d (coreIn core) tk.ref.index (trapDetail x core course c.nested)
        if c.nested && isCtl core then
          (s.setCourse core course { c with trap := .nestedHalt }).hostEvent (ev 0x0A)
        else if route = 0 then
          (s.endTask core c.task 2).postEvent (s.trapCluster core) (ev 0x06)
        else if route = 1 then
          let h := ((maskSlots x.tmask 64).filter fun i => (c.thread i).live).headD (c.allLive.headD 0)
          let fva := s.physNat (trapBase d) 8
          let c := c.modThread h fun t =>
            startHandler t (s.core core).trapvec (BitVec.ofNat 64 (fva + (slot - trapBase d))) w0
          s.setCourse core course { c with trap := .handler h }
        else if route = 2 then
          let s := s.setCourse core course { c with trap := .waiting }
          if (s.die d).duty.getLsbD 3 then s.hostEvent (ev 0x06) else s.postEvent (s.trapCluster core) (ev 0x06)
        else (s.setCourse core course { c with trap := .waiting }).hostEvent (ev 0x0A)
    | _, _ => s

/-- An exact trap stops the course at the instruction (R377, R379); a trap of the handler thread is nested (R389). A group that
waits for its instruction's last check has had no effect, and the instruction is issued anew after the trap.
It is delivered at once when no result of the course is pending. -/
def State.stopCourse (s : State) (core course : Nat) (x : Cause) : State :=
  let s := s.modCourse core course fun c =>
    { c with trap := .stopping, cause := x, nested := (match c.trap with | .handler _ => true | _ => false), susp := none, again := none }
  s.takeTrap core course

/-- A condition that arises for a course already in a trap is held (R379). -/
def Course.hold (c : Course) (x : Cause) : Course :=
  match c.held with
  | none => { c with held := some x }
  | some h => if h.code = x.code then { c with held := some { h with tmask := h.tmask ||| x.tmask } } else { c with heldLost := true }

/-- What a register holds, pending results apart. -/
def Thread.stored (t : Thread) (r : RegRef) : Word :=
  match r with
  | .v n => regGet t.v n
  | .q p => boolWord (qGet t.q p)
  | .c _ => 0

/-- A thread after a change that may bring results, with the registers that have ceased to await one noted as pending. -/
def Thread.noting (t t' : Thread) : Thread :=
  let came := (t.sb.filter fun e => !t'.sb.contains e).map fun e => e.1
  { t' with pend := t'.pend ++ came.map fun d => ⟨0, d, t'.stored d, 0⟩ }

/-- A result reaches a thread: the thread itself and, in a trap, the thread as the trap left it, which a resume restores
(R379, R391). -/
def Course.modBoth (c : Course) (i : Nat) (f : Thread → Thread) : Course :=
  let c := c.modThread i f
  if c.trap = .none then c
  else { c with saved := c.saved.mapIdx fun j t => if j = i then t.noting (f t) else t }

/-- The same for a result that no register awaits: a system call's. -/
def Course.putBoth (c : Course) (i : Nat) (d : RegRef) (x : Word) : Course :=
  let c := c.modThread i fun t => t.write d x
  if c.trap = .none then c
  else { c with saved := c.saved.mapIdx fun j t => if j = i then { t.write d x with pend := (t.write d x).pend ++ [⟨0, d, x, 0⟩] } else t }

/-- The task of a course ends as under route 0: every live thread exits, its end record takes status 2, and a record of type
0x06 carries the cause (R384, R401). -/
def State.fatal (s : State) (core course slot : Nat) (x : Cause) : State :=
  match s.task? core slot with
  | none => s
  | some tk =>
    (s.endTask core slot 2).postEvent (s.trapCluster core)
      (s.event tk.ref.graph tk.ref.node 0 0x06 (coreDie core) (coreIn core) tk.ref.index (trapDetail x core course false))

/-- Whether a condition is a command's deferred fault (R401). -/
def Cause.ofCommand (x : Cause) : Bool := x.sub.testBit 7 && [0x10, 0x11, 0x12, 0x21, 0x22, 0x70, 0x71, 0x72].contains x.code

/-- A held condition stands in the frame of its course, once that has been written: bits 40 to 32 of word 0, and word 9
(R379, R381). -/
def State.noteHeld (s : State) (core course : Nat) : State :=
  match s.course? core course with
  | none => s
  | some c =>
    let at_ := frameSlot core course
    let put := fun (s : State) => match c.held with
      | none => s
      | some h =>
        ((s.physStore (at_ + 4) (leBytes 1 h.code)).physStore (at_ + 5)
          (leBytes 1 (s.physNat (at_ + 5) 1 / 2 * 2 + bitN c.heldLost 0))).physStore (at_ + 72) (leBytes 8 h.faddr.toNat)
    match c.trap with
    | .none => s
    | .stopping => s
    | _ => put s

/-- A condition of a course outside an issue group: held if the course is in a trap, else deferred to its next
selection (R378, R379). A lost lane result in a trap stays deferred. -/
def State.defer (s : State) (core course : Nat) (x : Cause) : State :=
  (s.modCourse core course fun c =>
    match c.trap with
    | .none => { c with deferred := c.deferred ++ [x] }
    | _ => if x.lost.isEmpty then c.hold x else { c with deferred := c.deferred ++ [x] }).noteHeld core course

/-- The oldest deferred condition with the lowest code, merged with its like, and the conditions that remain (R378). -/
def pickDeferred (l : List Cause) : Option (Cause × List Cause) :=
  match l with
  | [] => none
  | a :: r =>
    let best := r.foldl (fun m x => if x.ord < m.ord ∨ (x.ord = m.ord ∧ x.code < m.code) then x else m) a
    let same := (a :: r).filter fun x => decide (x.ord = best.ord ∧ x.code = best.code)
    let low := same.foldl (fun m x => if (maskSlots x.tmask 64).headD 64 < (maskSlots m.tmask 64).headD 64 then x else m) best
    some ({ low with tmask := same.foldl (fun m x => m ||| x.tmask) 0, lost := same.flatMap Cause.lost },
      (a :: r).filter fun x => !decide (x.ord = best.ord ∧ x.code = best.code))

/-- A deferred fault is delivered before a selection; the other conditions then arise for a course in a trap (R378). An
instruction at which the course parks or waits for a check has had no effect and is issued anew after the trap; a system call
stays open. Where no thread is live any more, a command's fault ends the task and nothing reads what another one lost (R401).
(log 143: DEDUCED, unsafe.) -/
def State.deliverDeferred (s : State) (core course : Nat) : State :=
  match s.course? core course with
  | none => s
  | some c =>
    match pickDeferred c.deferred with
    | none => s
    | some (x, rest) =>
      if c.allLive.isEmpty then
        match c.deferred.find? Cause.ofCommand with
        | some y => s.fatal core course c.task y
        | none => s.setCourse core course { c with deferred := [] }
      else
        let call := match c.park with | some (.sysc ..) => true | _ => false
        let c := { c with
          deferred := rest.filter fun y => !y.lost.isEmpty, yieldUntil := none, susp := none, again := none
          park := if call then c.park else none, wakeAt := if call then c.wakeAt else none, parkUnder := call }
        let c := (rest.filter fun y => y.lost.isEmpty).foldl Course.hold c
        (s.setCourse core course { c with trap := .stopping, cause := x, nested := false }).takeTrap core course

/-! ## Convergence (R31, R236) -/

/-- Whether the wait of a thread in convergence wait is over: every thread it names waits there or is not live. -/
def Course.convDone (c : Course) (u : Nat × Nat) (i : Nat) (now : Nat) : Bool :=
  match (c.thread i).wait with
  | .conv m p _ _ =>
    (unitSlots u).all fun j =>
      let t := c.thread j
      let named := match p with
        | none => m.testBit j
        | some q => m.testBit j && t.readQ q now
      !named || !t.live || (match t.wait with | .conv .. => decide (t.pc = (c.thread i).pc) | _ => false)
  | _ => false

/-- The waiting threads that are released now: those whose wait is over, and those named with them. -/
def Course.convReady (c : Course) (u : Nat × Nat) (now : Nat) : List Nat :=
  let done := (unitSlots u).filter fun i => (c.thread i).live && c.convDone u i now
  (unitSlots u).filter fun j =>
    match (c.thread j).wait with
    | .conv .. =>
      (c.thread j).live && done.any fun i =>
        i = j || (decide ((c.thread i).pc = (c.thread j).pc) &&
          (match (c.thread i).wait with
           | .conv m none _ _ => m.testBit j
           | .conv m (some q) _ _ => m.testBit j && (c.thread j).readQ q now
           | _ => false))
    | _ => false

/-- A thread leaves its convergence wait and completes the `cnv` (R31). -/
def Course.leaveConv (c : Course) (now i : Nat) : Course :=
  match (c.thread i).wait with
  | .conv _ _ _ len => c.endWait now i len
  | _ => c

/-- Release every convergence wait of a course that is over. -/
def Course.converge (c : Course) (w now : Nat) : Course :=
  let us := if w = 1 then [(0, 16), (16, 16)] else [(0, c.threads.length)]
  us.foldl (fun c u => (c.convReady u now).foldl (fun c i => c.leaveConv now i) c) c

/-! ## Return from a trap (R390, R391, R396) -/

/-- The bits of `tstat` that are not RZ (R53). -/
def tstatBits : Word := 0x03FFFFFFC000FFFF
/-- The bits of `astat` that are not RZ (R54). -/
def astatBits : Word := 0x3FFFFFFFF
/-- The bits of `rsbase` that are not RZ (R51). -/
def rsbaseBits : Word := 0xFFFFFFFFFFFFFFF8

/-- `fstat` with its RZ bits zero (R5); it names a destination only while bit 11 says that one was lost (R55). -/
def fstatOf (v : Word) : Word := if v.getLsbD 11 then v &&& 0xDFF else v &&& 0x400

/-- Whether a thread record's loop state is one that `lput` takes (R234, R391). -/
def recordOk (s : State) (slot i : Nat) : Bool :=
  let w := s.physNat (slot + 0x300 + 512 * i + 0x180) 8
  let ring := w / 16 % 32
  let base := w % 16
  let stages := w / 2 ^ 16 % 8
  let lopen := w / 2 ^ 24 % 16
  (decide (ring = 0 ∧ base = 0) || (decide (2 ≤ ring ∧ ring ≤ 16 ∧ base < ring))) &&
    decide (1 ≤ stages ∧ stages ≤ 4) && [0, 1, 3, 7, 15].contains lopen

/-- The number of open levels of a contiguous `lopen`. -/
def lopenCount (m : Nat) : Nat := if m = 0 then 0 else if m = 1 then 1 else if m = 3 then 2 else if m = 7 then 3 else 4

/-- A thread as a 512-byte record gives it (R381); its live bit and its wait are taken up apart. -/
def threadOf (bs : List Byte) (t : Thread) : Thread :=
  let f := fun at_ n : Nat => recNat bs at_ n
  let w := f 0x180 8
  let depth := w / 2 ^ 32 % 65536
  { t with
    v := Vector.ofFn fun j : Fin 32 => BitVec.ofNat 64 (f (8 * j.val) 8)
    q := BitVec.ofNat 12 (f 0x108 8)
    sup := (f 0x108 8).testBit 20
    pc := BitVec.ofNat 64 (f 0x100 8)
    lv := Vector.ofFn fun j : Fin 4 =>
      { cnt := BitVec.ofNat 32 (f (0x120 + 24 * j.val) 4), idx := BitVec.ofNat 32 (f (0x124 + 24 * j.val) 4),
        str := BitVec.ofNat 64 (f (0x128 + 24 * j.val) 8), lend := BitVec.ofNat 64 (f (0x130 + 24 * j.val) 8) }
    lopen := lopenCount (w / 2 ^ 24 % 16), ring := w / 16 % 32, base := w % 16, stages := w / 2 ^ 16 % 8
    depth := depth
    rs := (List.range (min 4 depth)).map fun k => BitVec.ofNat 64 (f (0x188 + 8 * k) 8)
    seqtag := BitVec.ofNat 32 (f 0x1A8 4)
    pend := [], age := 0 }

/-- A thread restored from its record in a frame (R391). -/
def restoreThread (s : State) (slot i : Nat) (t : Thread) : Thread := threadOf (s.physRead false (slot + 0x300 + 512 * i) 512) t

/-- Withdraw a thread's arrival from a barrier instance (R396). -/
def State.withdraw (s : State) (k : BarKey) (who : Nat × Nat) : State :=
  let b := s.bar k
  let l := b.arrived.filter fun x => decide (x ≠ who)
  s.setBar { b with arrived := l, due := if l.isEmpty then none else b.due }

/-- The acquire after a barrier that has completed: the thread waits at its `bar` for its course's reads (R159, R238). -/
def State.acquireWait (s : State) (core course scope : Nat) : Wait :=
  .fence false (s.courseReads core course) (decide (3 ≤ scope)) (decide (scope = 7)) s.nextOrd 4

/-- One thread of a resume: its edits at waits, its live bit and its pending register (R391, R396), and the results that
have reached it since the trap. `old` is the thread as the trap left it with those noted as pending, `now` its wait since: an
arrival may have been counted, and the barrier completed, in the meantime. -/
def resumeThread (s : State) (core course slot i : Nat) (idx : Nat) (old : Thread) (now : Wait) : Thread × State :=
  let st := s.physNat (slot + 0x300 + 512 * i + 0x108) 8
  let t := restoreThread s slot i old
  let t := if st.testBit 23 then
      let r : RegRef := .v (BitVec.ofNat 5 (st / 2 ^ 24))
      { t.write r (BitVec.ofNat 64 (s.physNat (slot + 0x300 + 512 * i + 0x1B0) 8)) with sb := t.sb.filter fun e => decide (e.1 ≠ r) }
    else t
  let t := old.pend.foldl (fun t p => t.write p.dst p.val) t
  if !old.live then ({ t with live := false, wait := .ready }, s)
  else if !st.testBit 16 then
    (t.exit, match old.wait with
      | .barrier k _ _ => s.withdraw k (idx, old.tid)
      | _ => s)
  else
    match old.wait with
    | .conv m p _ len => if t.pc = old.pc then ({ t with wait := .conv m p (s.convDue (coreDie core)) len }, s) else ({ t with wait := .ready }, s)
    | .barrier k q counted =>
      let b := s.bar k
      let w := (match now with | .barrier k' q' c' => if k' = k then some (q', c') else none | _ => none : Option (Nat × Bool))
      let q := match w with | some x => x.1 | none => q
      if t.pc = old.pc then
        match w with
        | some (_, false) => ({ t with wait := now }, s)
        | _ =>
          if w.isNone || decide (b.seq ≠ q) then ({ t with wait := s.acquireWait core course k.scope }, s)
          else if b.arrived.contains (idx, old.tid) then ({ t with wait := now }, s)
          else ({ t with wait := .barrier k b.seq true },
            s.setBar { b with arrived := b.arrived ++ [(idx, old.tid)], due := some (b.due.getD (s.barDue (coreDie core) k)) })
      else ({ t with wait := .ready }, if b.seq = q then s.withdraw k (idx, old.tid) else s)
    | _ => if t.pc = old.pc then (t, s) else ({ t with wait := .ready }, s)

/-- The threads dropped from a convergence wait by a resume leave the masks of the threads that still wait there. -/
def dropFromConv (c : Course) (dropped : List (Nat × Word)) : Course :=
  { c with threads := c.threads.map fun t =>
      match t.wait with
      | .conv m p st len =>
        { t with wait := .conv (dropped.foldl (fun m d => if d.2 = t.pc then m &&& (2 ^ 64 - 1 - 2 ^ d.1) else m) m) p st len }
      | _ => t }

/-- RETURN FROM A TRAP: the course is restored from its frame (R391). `before` holds the threads as the trap left
them: for a course handler, its thread's state is the frame's. The frame is read as an acquire; one that fails a check ends
the task, with 0xFF as the sub of its word 0. (log 133: DEDUCED, unsafe.) -/
def State.resume (s : State) (core course : Nat) : State :=
  match s.course? core course with
  | none => s
  | some c =>
    match s.task? core c.task with
    | none => s
    | some tk =>
      let slot := frameSlot core course
      let n := c.threads.length
      let s := s.modCore core fun k => { k with lcache := [] }
      if !(List.range n).all (recordOk s slot) then
        ((s.physStore (slot + 1) [0xFF]).endTask core c.task 2).postEvent (s.trapCluster core)
          (s.event tk.ref.graph tk.ref.node 0 0x06 (coreDie core) (coreIn core) tk.ref.index
            (trapDetail { c.cause with sub := 0xFF } core course false))
      else
        let r := (List.range n).foldl (fun (a : Course × State × List (Nat × Word)) i =>
            let now := a.1.thread i
            let old := { c.saved.getD i now with live := now.live, relAfter := now.relAfter, acqAfter := now.acqAfter, halted := now.halted }
            let x := resumeThread a.2.1 core course slot i tk.ref.index old (if c.trap = .handler i then old.wait else now.wait)
            let dropped := match old.wait, x.1.wait with
              | .conv .., .conv .. => a.2.2
              | .conv .., _ => a.2.2 ++ [(i, old.pc)]
              | _, _ => a.2.2
            (a.1.setThread i x.1, x.2, dropped)) (c, s, [])
        let c := dropFromConv r.1 r.2.2
        let s := r.2.1
        let b := slot + 0x100
        let c := { c with
          c := Vector.ofFn fun j : Fin 32 => BitVec.ofNat 64 (s.physNat (b + 8 * j.val) 8)
          cpend := [], csb := []
          tstat := BitVec.ofNat 64 (s.physNat (b + 0x118) 8) &&& tstatBits
          fstat := fstatOf (BitVec.ofNat 64 (s.physNat (b + 0x120) 8))
          trap := .none, nested := false, heldLost := false, held := none, parkUnder := false }
        let held := match (s.course? core course).bind Course.held with
          | some h =>
            if h.code = 0x31 ∧ ¬ (maskSlots h.tmask 64).any (fun i =>
                match ((c.converge tk.width s.now).thread i).wait with | .conv .. => true | _ => false)
            then none else some h
          | none => none
        let gone := c.allLive.isEmpty && c.saved.any Thread.live
        let s := s.setCourse core course c
        let s := if gone then s.modCore core fun k => { k with queues := dropHeld c course k.queues } else s
        match held with
        | none => s
        | some h =>
          if c.allLive.isEmpty then (if h.ofCommand then s.fatal core course c.task h else s)
          else s.stopCourse core course h

/-- A waiting course is resumed, or its task ended, by the action of frame word 3 (R390). -/
def State.frameAction (s : State) (core course action : Nat) : State :=
  match s.course? core course with
  | none => s
  | some c =>
    match c.trap with
    | .waiting =>
      if action % 4 = 1 then s.resume core course
      else if action % 4 = 2 then
        match s.task? core c.task with
        | none => s
        | some tk => (s.endTask core c.task 2).postEvent (s.trapCluster core)
            (s.event tk.ref.graph tk.ref.node 0 0x06 (coreDie core) (coreIn core) tk.ref.index
              (trapDetail c.cause core course false))
      else s
    | _ => s

end Sys2Proof.Machine
end

