-- ==== Sys2Proof/Machine/Fp.lean ====
section
/-! DEFINITION. Exact floating-point values, the element formats of R87, and rounding under R88, R89 and R180. -/

namespace Sys2Proof.Machine

/-- An exact value: NaN, an infinity, or (−1)^neg × m × 2^e; a zero keeps its sign. -/
inductive Fp where
  | nan
  | inf (neg : Bool)
  | fin (neg : Bool) (m : Nat) (e : Int)
  deriving DecidableEq, Repr

/-- A floating format (R87): exponent and fraction bits, bias, largest finite magnitude, the magnitude of infinity if
it has one, the canonical NaN if it has one (R88), and whether an exponent of all ones is special. -/
structure FpFmt where
  eb : Nat
  fb : Nat
  bias : Nat
  maxFin : Nat
  inf : Option Nat
  nan : Option Nat
  ieee : Bool
  deriving DecidableEq, Repr

def f32 : FpFmt := ⟨8, 23, 127, 0x7F7FFFFF, some 0x7F800000, some 0x7FC00000, true⟩
def f16 : FpFmt := ⟨5, 10, 15, 0x7BFF, some 0x7C00, some 0x7E00, true⟩
def bf16 : FpFmt := ⟨8, 7, 127, 0x7F7F, some 0x7F80, some 0x7FC0, true⟩
def e4m3 : FpFmt := ⟨4, 3, 7, 0x7E, none, some 0x7F, false⟩
def e5m2 : FpFmt := ⟨5, 2, 15, 0x7B, some 0x7C, some 0x7E, true⟩
def e2m1 : FpFmt := ⟨2, 1, 1, 0x7, none, none, false⟩

/-- The sign bit's weight. -/
def FpFmt.signBit (f : FpFmt) : Nat := 2 ^ (f.eb + f.fb)
/-- The exponent of the smallest subnormal. -/
def FpFmt.emin (f : FpFmt) : Int := 1 - f.bias - f.fb
/-- The pattern of 1.0. -/
def FpFmt.one (f : FpFmt) : Nat := f.bias * 2 ^ f.fb

/-- The number of significant bits of a number (R86). -/
def bitlen (m : Nat) : Nat := if m = 0 then 0 else m.log2 + 1

/-- The value of a pattern (R87). -/
def FpFmt.decode (f : FpFmt) (bits : Nat) : Fp :=
  let mag := bits % f.signBit
  let neg := decide (bits / f.signBit % 2 = 1)
  let ex := mag / 2 ^ f.fb
  let fr := mag % 2 ^ f.fb
  if f.ieee ∧ ex = 2 ^ f.eb - 1 then (if fr = 0 then .inf neg else .nan)
  else if f.nan.isSome ∧ f.ieee = false ∧ mag = f.maxFin + 1 then .nan
  else if ex = 0 then .fin neg fr f.emin
  else .fin neg (fr + 2 ^ f.fb) ((ex : Int) - f.bias - f.fb)

/-- m / 2^n rounded by the mode (0 RNE, 1 RTZ, 2 RDN, 3 RUP) for a value of the given sign. -/
def roundShift (rnd : BitVec 2) (neg : Bool) (m n : Nat) : Nat :=
  let n := min n (bitlen m + 2)
  let q := m / 2 ^ n
  let r := m % 2 ^ n
  let up :=
    if rnd = 0 then decide (2 ^ n < 2 * r) || (decide (2 * r = 2 ^ n) && decide (q % 2 = 1))
    else if rnd = 1 then false
    else if rnd = 2 then neg && decide (r ≠ 0)
    else !neg && decide (r ≠ 0)
  if up then q + 1 else q

/-- The pattern of a sign and a magnitude. -/
def FpFmt.pack (f : FpFmt) (neg : Bool) (mag : Nat) : Nat := if neg then f.signBit + mag else mag

/-- An infinite value delivered to a format (R89). -/
def FpFmt.ofInf (f : FpFmt) (saturating neg : Bool) : Nat :=
  if saturating then f.pack neg f.maxFin
  else match f.inf, f.nan with
    | some i, _ => f.pack neg i
    | none, some n => n
    | none, none => f.pack neg f.maxFin

/-- A finite overflow delivered to a format (R89): a mode that rounds toward zero for the sign gives the largest
finite value. -/
def FpFmt.overflow (f : FpFmt) (rnd : BitVec 2) (saturating neg : Bool) : Nat :=
  if rnd = 1 ∨ (rnd = 2 ∧ neg = false) ∨ (rnd = 3 ∧ neg = true) then f.pack neg f.maxFin else f.ofInf saturating neg

/-- A value rounded once to a format, with what is out of its range (R88, R89). -/
def FpFmt.round (f : FpFmt) (rnd : BitVec 2) (saturating : Bool) : Fp → Nat
  | .nan => f.nan.getD 0
  | .inf neg => f.ofInf saturating neg
  | .fin neg m e =>
    if m = 0 then f.pack neg 0
    else
      let qe := max f.emin (e + bitlen m - (f.fb + 1))
      let r := if qe ≤ e then m * 2 ^ (e - qe).toNat else roundShift rnd neg m (qe - e).toNat
      let mag := (qe - f.emin).toNat * 2 ^ f.fb + r
      if f.maxFin < mag then f.overflow rnd saturating neg else f.pack neg mag

def Fp.neg : Fp → Fp
  | .nan => .nan
  | .inf s => .inf (!s)
  | .fin s m e => .fin (!s) m e

def Fp.abs : Fp → Fp
  | .nan => .nan
  | .inf _ => .inf false
  | .fin _ m e => .fin false m e

def Fp.isNan : Fp → Bool
  | .nan => true
  | _ => false

/-- The value times 2^k. -/
def Fp.scale (k : Int) : Fp → Fp
  | .fin s m e => .fin s m (e + k)
  | x => x

/-- Source modifiers, absolute value first (R180). -/
def Fp.mods (abs neg : Bool) (x : Fp) : Fp :=
  let x := if abs then x.abs else x
  if neg then x.neg else x

/-- The exact product (R205). R103 has no row for infinity by infinity: the sign rule gives its infinity too, without
`inv`. (log 130: DEDUCED, unsafe.) -/
def Fp.mul : Fp → Fp → Fp
  | .nan, _ => .nan
  | _, .nan => .nan
  | .inf s, .inf u => .inf (s != u)
  | .inf s, .fin u m _ => if m = 0 then .nan else .inf (s != u)
  | .fin s m _, .inf u => if m = 0 then .nan else .inf (s != u)
  | .fin s m e, .fin u n k => .fin (s != u) (m * n) (e + k)

/-- The exact sum; an exact zero of operands of opposite sign takes its sign from the rounding mode (R205). -/
def Fp.add (rnd : BitVec 2) : Fp → Fp → Fp
  | .nan, _ => .nan
  | _, .nan => .nan
  | .inf s, .inf u => if s = u then .inf s else .nan
  | .inf s, .fin .. => .inf s
  | .fin .., .inf u => .inf u
  | .fin s m e, .fin u n k =>
    if m = 0 ∧ n = 0 then .fin (if s = u then s else decide (rnd = 2)) 0 e
    else if m = 0 then .fin u n k
    else if n = 0 then .fin s m e
    else
      let low := min e k
      let x : Int := (if s then -1 else 1) * (m * 2 ^ (e - low).toNat)
      let y : Int := (if u then -1 else 1) * (n * 2 ^ (k - low).toNat)
      if x + y = 0 then .fin (decide (rnd = 2)) 0 low else .fin (decide (x + y < 0)) (x + y).natAbs low

/-- A finite value or infinity as an integer multiple of 2^-149, for comparison. -/
def Fp.key : Fp → Int
  | .nan => 0
  | .inf s => if s then -(2 ^ 400) else 2 ^ 400
  | .fin s m e => (if s then -1 else 1) * (m * 2 ^ (e + 149).toNat)

/-- −0 below +0, otherwise by value (R206); both are numbers. -/
def Fp.below (x y : Fp) : Bool :=
  decide (x.key < y.key) ||
    (decide (x.key = y.key) && (match x, y with | .fin true 0 _, .fin false 0 _ => true | _, _ => false))

/-- `fmin` and `fmax` (R206). -/
def Fp.min (x y : Fp) : Fp := if x.isNan then y else if y.isNan then x else if y.below x then y else x
def Fp.max (x y : Fp) : Fp := if x.isNan then y else if y.isNan then x else if x.below y then y else x

/-- The relations of R202. -/
def Fp.eqv (x y : Fp) : Bool := !x.isNan && !y.isNan && decide (x.key = y.key)
def Fp.lt (x y : Fp) : Bool := !x.isNan && !y.isNan && decide (x.key < y.key)
def Fp.le (x y : Fp) : Bool := !x.isNan && !y.isNan && decide (x.key ≤ y.key)

/-- The square root of a number, rounded down, by `n` binary digits from the top. -/
def isqrt : Nat → Nat → Nat → Nat
  | 0, _, r => r
  | n + 1, m, r => isqrt n m (if (r + 2 ^ n) * (r + 2 ^ n) ≤ m then r + 2 ^ n else r)

/-- √x to 64 and more bits with a sticky last bit, enough for one correct rounding in any format here (R207). -/
def Fp.sqrt : Fp → Fp
  | .nan => .nan
  | .inf s => if s then .nan else .inf false
  | .fin s m e =>
    if m = 0 then .fin s 0 e
    else if s then .nan
    else
      let e' := e - (if e % 2 = 0 then 0 else 1)
      let m' := (if e % 2 = 0 then m else 2 * m) * 2 ^ 128
      let r := isqrt 90 m' 0
      .fin false (2 * r + (if r * r = m' then 0 else 1)) (e' / 2 - 64 - 1)

/-- The value rounded to an integer by the mode; an infinity or NaN has none. -/
def Fp.toInteger (rnd : BitVec 2) : Fp → Option Int
  | .fin s m e =>
    let r := if 0 ≤ e then m * 2 ^ e.toNat else roundShift rnd s m (-e).toNat
    some (if s then -(r : Int) else r)
  | _ => none

/-- A value delivered to an integer range (R89): NaN gives 0, what is out of range is clamped. -/
def Fp.clampInt (rnd : BitVec 2) (lo hi : Int) (x : Fp) : Int :=
  match x with
  | .nan => 0
  | .inf s => if s then lo else hi
  | .fin .. => Max.max lo (Min.min hi ((x.toInteger rnd).getD 0))

/-- Saturation to [0, 1] and to [−1, 1] of a rounded pattern (R180). -/
def FpFmt.clampOne (f : FpFmt) (sat : BitVec 2) (bits : Nat) : Nat :=
  if (f.decode bits).isNan then 0
  else
    let mag := Min.min (bits % f.signBit) f.one
    let neg := decide (f.signBit ≤ bits)
    if sat = 2 then (if neg then 0 else mag) else f.pack neg mag

/-- Class F: negation, scale, one rounding and saturation of the exact result (R180). -/
def FpFmt.finish (f : FpFmt) (m : Modifier) (e : Fp) : Nat :=
  let e := if m.negd then e.neg else e
  let r := f.round m.rnd (decide (m.sat = 1)) (e.scale m.k.toInt)
  if m.sat = 2 ∨ m.sat = 3 then f.clampOne m.sat r else r

/-- The low bits of a register as a value of a format. -/
def FpFmt.ofWord (f : FpFmt) (x : Word) : Fp := f.decode (x.toNat % (2 * f.signBit))

/-- A classed value of R216: the bit of its class. -/
def fclass (bits : Nat) : Nat :=
  match f32.decode bits with
  | .nan => if bits.testBit 22 then 9 else 8
  | .inf s => if s then 0 else 7
  | .fin s m _ =>
    if m = 0 then (if s then 3 else 4)
    else if bits % 2 ^ 31 < 2 ^ 23 then (if s then 2 else 5)
    else if s then 1 else 6

/-- `frnd` (R214): an integral value with the sign of its operand. -/
def frnd (rnd : BitVec 2) (x : Fp) : Fp :=
  match x with
  | .fin s _ _ => .fin s ((x.toInteger rnd).getD 0).natAbs 0
  | _ => x

end Sys2Proof.Machine
end

