-- ==== Sys2Proof/Machine/Operands.lean ====
section
/-! DEFINITION. The driver of lane instructions (R26, R27, R29, R386) and every operand form (R176 to R181, R185,
R193, R194). -/

namespace Sys2Proof.Machine

abbrev Outcome := Host.Outcome State Fault Refusal

/-! ## The driver -/

/-- A lane instruction acts on the issue group, which leaves the lane with it; with no group in the lane it has no effect
of any kind (R29). (log 8: DESIGN CHOICE, safe.) (log 10: DESIGN CHOICE, safe.) -/
def State.withGroup (s : State) (f : Grp → State) : Outcome :=
  match s.issue with
  | none => .next s
  | some g =>
    match s.grp? g with
    | none => .fault .brokenIssue
    | some G => .next { f G with issue := none }

/-- An instruction that runs past the end of the innermost body in a thread that executes it: every thread of the group for
a uniform instruction (R231, R393). -/
def Grp.crossing (G : Grp) (x : LaneI) : Option Cause :=
  (if x.uni && !(G.active x).isEmpty then G.g.slots else G.active x).findSome? fun i =>
    if (G.cs.thread i).crosses x.len then some { code := 0x04, sub := 7, ipc := G.g.pc, tmask := 2 ^ i } else none

/-- The checks that precede those of the instruction's family. -/
def Grp.check (G : Grp) (x : LaneI) : Option Cause :=
  match G.preCheck x with
  | some c => some c
  | none => G.crossing x

/-- The group leaves the lane after one cycle and its course stops with a trap at the instruction (R23, R377). -/
def State.trapNow (s : State) (G : Grp) (x : Cause) : State :=
  (s.leaveLane G.g 1 0 G.cs.rearm).stopCourse G.g.core G.g.course { x with ord := s.nextOrd }

/-- The cycles that back edges add: two when a thread goes round a body that is not captured (R235). -/
def Grp.edgeCostOf (G : Grp) (x : LaneI) (slots : List Nat) : Nat :=
  if slots.any fun i => G.cs.roundsUncaptured i x.len then 2 else 0

/-- That cost for the whole group. -/
def Grp.edgeCost (G : Grp) (x : LaneI) : Nat := G.edgeCostOf x G.g.slots

/-- The group leaves the lane with every thread past the instruction; `c` is the course with the instruction's
effect on it. -/
def State.finish (s : State) (G : Grp) (x : LaneI) (c : Course) : State :=
  s.leaveLane G.g (if x.uni then 1 else x.per * G.g.slots.length) (stallCycles x.h + G.edgeCost x) (G.completeAll x c)

/-- A fixed-latency result of one thread, or the one result of a uniform instruction (R25, R196). -/
def Grp.deliver (G : Grp) (x : LaneI) (lat : Nat) (dst : Rd) (i : Nat) (val : Word) (c : Course) : Course :=
  match dst with
  | .c r => c.resultC r val (G.g.t + lat) G.g.pc
  | d => c.modThread i fun t => t.result (t.ref d) val (G.cyc x i + lat)

/-- An instruction that passes its checks: `f` changes the course for each thread whose guard is true, in ascending
slot order (R26); a trap that `f`'s family raises is given by `chk`, which sees the threads whose guard is true. -/
def State.lane (s : State) (x : LaneI) (chk : Grp → Option Cause) (f : Grp → Nat → Course → Course) : Outcome :=
  s.withGroup fun G =>
    match G.check x with
    | some c => s.trapNow G c
    | none =>
      match chk G with
      | some c => s.trapNow G c
      | none => s.finish G x ((G.active x).foldl (fun c i => f G i c) G.cs)

/-- No check of its own. -/
def noCheck (_ : Grp) : Option Cause := none

/-- A computation of one result from the operands of one thread. -/
def State.alu (s : State) (x : LaneI) (lat : Nat) (dst : Rd) (f : (Rd → Word) → Word) : Outcome :=
  s.lane x noCheck fun G i c => G.deliver x lat dst i (f (G.read x i)) c

/-! ## Format R -/

/-- The destination of a format that can be uniform. -/
def dstR (x : R3) (m : Modifier) : Rd := src m.du x.d
def srcA (x : R3) (m : Modifier) : Rd := src m.au x.a
def srcB (x : R3) : Rd := src x.u x.b
/-- The c operand; where it is absent, d for a multiply-accumulate (R179). -/
def srcC (x : R3) (m : Modifier) : Rd := if m.cp then src m.cu m.c else dstR x m

/-- The lane's view of an R-format instruction; `mac` the instruction reads d where c is absent. -/
def laneR (len : Nat) (x : R3) (m : Modifier) (mac : Bool) : LaneI :=
  { len := len, h := x.h, uni := m.du
    rd := (if mac && !m.cp then [dstR x m] else []) ++ [srcA x m, srcB x] ++ (if m.cp then [srcC x m] else []) }

/-- d := f(a, b) under the modifiers. -/
def opR (len : Nat) (x : R3) (m : Modifier) (f : Modifier → Word → Word → Word) (s : State) : Outcome :=
  s.alu (laneR len x m false) 4 (dstR x m) fun rd => f m (rd (srcA x m)) (rd (srcB x))

/-- d := f(a, b, c) with c taken as d where it is absent (R179). -/
def opMac (len : Nat) (x : R3) (m : Modifier) (f : Modifier → Word → Word → Word → Word) (s : State) : Outcome :=
  s.alu (laneR len x m true) 4 (dstR x m) fun rd => f m (rd (srcA x m)) (rd (srcB x)) (rd (srcC x m))

/-- d := f(a, b, c) with c taken as 0 where it is absent (R200, R201). -/
def opIns (len : Nat) (x : R3) (m : Modifier) (f : Word → Word → Word → Word) (s : State) : Outcome :=
  s.alu (laneR len x m false) 4 (dstR x m) fun rd =>
    f (rd (srcA x m)) (rd (srcB x)) (if m.cp then rd (srcC x m) else 0)

/-- A compare: the predicate named by d (R202). -/
def opCmp (len : Nat) (x : R3) (m : Modifier) (f : Modifier → Word → Word → Bool) (s : State) : Outcome :=
  s.alu { laneR len x m false with uni := false } 4 (.q (BitVec.ofNat 4 x.d.toNat)) fun rd =>
    boolWord (f m (rd (srcA x m)) (rd (srcB x)))

/-- d := f(a), unary (R183). -/
def opU (len : Nat) (x : R1) (m : Modifier) (f : Word → Word) (s : State) : Outcome :=
  s.alu { len := len, h := x.h, uni := m.du, rd := [src m.au x.a] } 4 (src m.du x.d) fun rd => f (rd (src m.au x.a))

/-- d := f(code, a), with its cycles per thread and latency (R184, R196). -/
def opF (len per lat : Nat) (x : Rf) (m : Modifier) (f : Nat → Modifier → Word → Word) (s : State) : Outcome :=
  s.alu { len := len, h := x.h, uni := m.du, rd := [src m.au x.a], per := per } lat (src m.du x.d) fun rd =>
    f x.f.toNat m (rd (src m.au x.a))

/-! ## Compact, immediate and secondary formats -/

/-- A compact instruction d := f(d, a) (R181). -/
def opC (x : CReg) (f : Modifier → Word → Word → Word) (s : State) : Outcome :=
  opR 2 { h := openHdr, u := x.u, b := x.a, a := x.d, d := x.d } .zero f s

/-- Format I: d := f(a, n). -/
def opI (len : Nat) (h : Hdr) (a d : Reg) (f : Word → Word) (s : State) : Outcome :=
  s.alu { len := len, h := h, rd := [.v a] } 4 (.v d) fun rd => f (rd (.v a))

/-- Format I, writing a predicate. -/
def opIq (len : Nat) (h : Hdr) (a d : Reg) (f : Word → Bool) (s : State) : Outcome :=
  s.alu { len := len, h := h, rd := [.v a] } 4 (.q (BitVec.ofNat 4 d.toNat)) fun rd => boolWord (f (rd (.v a)))

/-- The 32-bit form of the secondary space as its 64-bit form with an all-zero extension word (R185). -/
def extEd (x : Ed) : E64 :=
  { h := x.h, u := x.u, d := x.d, i := 0, p := 0, bu := false, au := false, b := 0, a := 0 }

/-- The 32-bit form of a function that has a destination or no operand but is never uniform (R185). -/
def extD1 (x : D1) : E64 :=
  { h := x.h, u := false, d := x.d, i := 0, p := 0, bu := false, au := false, b := 0, a := 0 }
def extH0 (x : H0) : E64 :=
  { h := x.h, u := false, d := 0, i := 0, p := 0, bu := false, au := false, b := 0, a := 0 }

def extA (x : E64) : Rd := src x.au x.a
def extB (x : E64) : Rd := src x.bu x.b
def extD (x : E64) : Rd := src x.u x.d

/-- The lane's view of a secondary function that reads the operands listed. -/
def laneE (len : Nat) (x : E64) (rd : List Rd) (exch : Bool := false) (priv : Bool := false) : LaneI :=
  { len := len, h := x.h, rd := rd, uni := x.u, exch := exch, priv := priv }

/-- A secondary function d := f(a). -/
def opE1 (len : Nat) (x : E64) (f : Nat → Word → Word) (s : State) : Outcome :=
  s.alu (laneE len x [extA x]) 4 (extD x) fun rd => f x.i.toNat (rd (extA x))

/-- A secondary function d := f(a, b). -/
def opE2 (len : Nat) (x : E64) (f : Nat → Word → Word → Word) (s : State) : Outcome :=
  s.alu (laneE len x [extA x, extB x]) 4 (extD x) fun rd => f x.i.toNat (rd (extA x)) (rd (extB x))

/-- A secondary function whose destination is a predicate. -/
def opEq (len : Nat) (x : E64) (f : Word → Word → Bool) (s : State) : Outcome :=
  s.alu (laneE len x [extA x, extB x]) 4 (.q (BitVec.ofNat 4 x.d.toNat)) fun rd =>
    boolWord (f (rd (extA x)) (rd (extB x)))

end Sys2Proof.Machine
end

