-- ==== Sys2Proof/Machine/IntArith.lean ====
section
/-! DEFINITION. Integer arithmetic (R197): class I of R180. -/

namespace Sys2Proof.Machine

/-- A register as a signed number of width 32 or 64 (R193). -/
def asInt (w : Nat) (x : Word) : Int := if w = 64 then x.toInt else (x.setWidth 32).toInt

/-- A register as an unsigned number of width 32 or 64. -/
def asNat (w : Nat) (x : Word) : Nat := x.toNat % 2 ^ w

/-- How an operation reads its operands: by the saturation field, signed, or unsigned (R197). -/
inductive Reading where
  | bySat
  | signed
  | unsigned
  deriving DecidableEq, Repr

/-- An operand as the operation reads it. -/
def readInt (k : Reading) (w : Nat) (m : Modifier) (x : Word) : Int :=
  match k with
  | .bySat => if m.sat = 2 then (asNat w x : Int) else asInt w x
  | .signed => asInt w x
  | .unsigned => (asNat w x : Int)

/-- Source modifiers, absolute value first, applied exactly (R180). -/
def modInt (abs neg : Bool) (x : Int) : Int :=
  let x := if abs then (x.natAbs : Int) else x
  if neg then -x else x

/-- The result: negated, clamped to the signed or unsigned range, or wrapped (R180, R43). -/
def finishInt (w : Nat) (m : Modifier) (e : Int) : Word :=
  let e := if m.negd then -e else e
  let r := if m.sat = 1 then max (-(2 ^ (w - 1))) (min (2 ^ (w - 1) - 1) e)
    else if m.sat = 2 then max 0 (min (2 ^ w - 1) e) else e
  BitVec.ofNat 64 (r % 2 ^ w).toNat

/-- A class I operation of two operands by its exact result. -/
def intVal (k : Reading) (w : Nat) (f : Int → Int → Int) (m : Modifier) (a b : Word) : Word :=
  finishInt w m (f (modInt m.absa m.nega (readInt k w m a)) (modInt m.absb m.negb (readInt k w m b)))

/-- A multiply-accumulate of class I; c is read like a, without modifiers of its own (R197). -/
def macVal (w : Nat) (m : Modifier) (a b c : Word) : Word :=
  finishInt w m (modInt m.absa m.nega (readInt .bySat w m a) * modInt m.absb m.negb (readInt .bySat w m b) +
    readInt .bySat w m c)

/-- The high half of an exact product. -/
def highHalf (x y : Int) : Int := (x * y) / 2 ^ 32

/-- The absolute difference. -/
def absDiff (x y : Int) : Int := ((x - y).natAbs : Int)

/-- `iadd` (R197). -/
def execIadd (x : R3) (s : State) : Outcome := opR 4 x .zero (intVal .bySat 32 (· + ·)) s
/-- `iadd`, 64-bit form (R197, R178). -/
def execIaddL (x : R3m) (s : State) : Outcome := opR 8 x.r x.m (intVal .bySat 32 (· + ·)) s

/-- `isub` (R197). -/
def execIsub (x : R3) (s : State) : Outcome := opR 4 x .zero (intVal .bySat 32 (· - ·)) s
/-- `isub`, 64-bit form (R197, R178). -/
def execIsubL (x : R3m) (s : State) : Outcome := opR 8 x.r x.m (intVal .bySat 32 (· - ·)) s

/-- `imul` (R197). -/
def execImul (x : R3) (s : State) : Outcome := opR 4 x .zero (intVal .bySat 32 (· * ·)) s
/-- `imul`, 64-bit form (R197, R178). -/
def execImulL (x : R3m) (s : State) : Outcome := opR 8 x.r x.m (intVal .bySat 32 (· * ·)) s

/-- `imulh.i` (R197). -/
def execImulhI (x : R3) (s : State) : Outcome := opR 4 x .zero (intVal .signed 32 highHalf) s
/-- `imulh.i`, 64-bit form (R197, R178). -/
def execImulhIL (x : R3m) (s : State) : Outcome := opR 8 x.r x.m (intVal .signed 32 highHalf) s

/-- `imulh.n` (R197). -/
def execImulhN (x : R3) (s : State) : Outcome := opR 4 x .zero (intVal .unsigned 32 highHalf) s
/-- `imulh.n`, 64-bit form (R197, R178). -/
def execImulhNL (x : R3m) (s : State) : Outcome := opR 8 x.r x.m (intVal .unsigned 32 highHalf) s

/-- `imac` (R197). -/
def execImac (x : R3) (s : State) : Outcome := opMac 4 x .zero (macVal 32) s
/-- `imac`, 64-bit form (R197, R178). -/
def execImacL (x : R3m) (s : State) : Outcome := opMac 8 x.r x.m (macVal 32) s

/-- `imin.i` (R197). -/
def execIminI (x : R3) (s : State) : Outcome := opR 4 x .zero (intVal .signed 32 min) s
/-- `imin.i`, 64-bit form (R197, R178). -/
def execIminIL (x : R3m) (s : State) : Outcome := opR 8 x.r x.m (intVal .signed 32 min) s

/-- `imin.n` (R197). -/
def execIminN (x : R3) (s : State) : Outcome := opR 4 x .zero (intVal .unsigned 32 min) s
/-- `imin.n`, 64-bit form (R197, R178). -/
def execIminNL (x : R3m) (s : State) : Outcome := opR 8 x.r x.m (intVal .unsigned 32 min) s

/-- `imax.i` (R197). -/
def execImaxI (x : R3) (s : State) : Outcome := opR 4 x .zero (intVal .signed 32 max) s
/-- `imax.i`, 64-bit form (R197, R178). -/
def execImaxIL (x : R3m) (s : State) : Outcome := opR 8 x.r x.m (intVal .signed 32 max) s

/-- `imax.n` (R197). -/
def execImaxN (x : R3) (s : State) : Outcome := opR 4 x .zero (intVal .unsigned 32 max) s
/-- `imax.n`, 64-bit form (R197, R178). -/
def execImaxNL (x : R3m) (s : State) : Outcome := opR 8 x.r x.m (intVal .unsigned 32 max) s

/-- `iabsd` (R197). -/
def execIabsd (x : R3) (s : State) : Outcome := opR 4 x .zero (intVal .bySat 32 absDiff) s
/-- `iabsd`, 64-bit form (R197, R178). -/
def execIabsdL (x : R3m) (s : State) : Outcome := opR 8 x.r x.m (intVal .bySat 32 absDiff) s

/-- `ladd` (R197). -/
def execLadd (x : R3) (s : State) : Outcome := opR 4 x .zero (intVal .bySat 64 (· + ·)) s
/-- `ladd`, 64-bit form (R197, R178). -/
def execLaddL (x : R3m) (s : State) : Outcome := opR 8 x.r x.m (intVal .bySat 64 (· + ·)) s

/-- `lsub` (R197). -/
def execLsub (x : R3) (s : State) : Outcome := opR 4 x .zero (intVal .bySat 64 (· - ·)) s
/-- `lsub`, 64-bit form (R197, R178). -/
def execLsubL (x : R3m) (s : State) : Outcome := opR 8 x.r x.m (intVal .bySat 64 (· - ·)) s

/-- `lmul` (R197). -/
def execLmul (x : R3) (s : State) : Outcome := opR 4 x .zero (intVal .bySat 64 (· * ·)) s
/-- `lmul`, 64-bit form (R197, R178). -/
def execLmulL (x : R3m) (s : State) : Outcome := opR 8 x.r x.m (intVal .bySat 64 (· * ·)) s

/-- `lmac` (R197). -/
def execLmac (x : R3) (s : State) : Outcome := opMac 4 x .zero (macVal 64) s
/-- `lmac`, 64-bit form (R197, R178). -/
def execLmacL (x : R3m) (s : State) : Outcome := opMac 8 x.r x.m (macVal 64) s

end Sys2Proof.Machine
end

