-- ==== Sys2Proof/Machine/Logic.lean ====
section
/-! DEFINITION. Logic, shifts and bit fields (R198 to R201): class L. -/

namespace Sys2Proof.Machine

/-- The low 32 bits of a register, and a 32-bit result under R43. -/
def low32 (x : Word) : W32 := x.setWidth 32
def zext32 (x : W32) : Word := x.setWidth 64

/-- A bitwise operation of width 32; class L takes no modifier of value. -/
def bitVal (f : W32 → W32 → W32) (_ : Modifier) (a b : Word) : Word := zext32 (f (low32 a) (low32 b))

/-- `shl` by a count (R199). -/
def shlBy (w : Nat) (x : Word) (n : Nat) : Word := if n < w then BitVec.ofNat 64 (asNat w x * 2 ^ n % 2 ^ w) else 0

/-- `shr.n` by a count (R199). -/
def shrNBy (w : Nat) (x : Word) (n : Nat) : Word := if n < w then BitVec.ofNat 64 (asNat w x / 2 ^ n) else 0

/-- `shr.i` by a count (R199); a count of the width or more gives the sign in every bit. -/
def shrIBy (w : Nat) (x : Word) (n : Nat) : Word :=
  BitVec.ofNat 64 ((asInt w x / 2 ^ min n (w - 1)) % 2 ^ w).toNat

/-- A shift by a register: the count is its low 32 bits, whatever the width (R199). -/
def shiftVal (f : Word → Nat → Word) (_ : Modifier) (a b : Word) : Word := f a (asNat 32 b)

/-- The position and length of a bit field (R200). -/
def fieldPos (b : Word) : Nat := b.toNat % 32
def fieldLen (b : Word) : Nat := min (b.toNat / 2 ^ 8 % 64) 32

/-- The extracted field, zero-extended (R200): bits beyond bit 31 read 0. -/
def fieldOf (a b : Word) : Nat := asNat 32 a / 2 ^ fieldPos b % 2 ^ fieldLen b

/-- `bfx.n` (R200). -/
def bfxN (_ : Modifier) (a b : Word) : Word := BitVec.ofNat 64 (fieldOf a b)

/-- `bfx.i` (R200). -/
def bfxI (_ : Modifier) (a b : Word) : Word :=
  if fieldLen b = 0 then 0
  else
    let f := fieldOf a b
    BitVec.ofNat 64 (if f.testBit (fieldLen b - 1) then f + 2 ^ 32 - 2 ^ fieldLen b else f)

/-- `bfi` (R200): the low bits of a placed in c at the field; bits beyond bit 31 are dropped. -/
def bfiVal (a b c : Word) : Word :=
  let mask := (2 ^ fieldLen b - 1) * 2 ^ fieldPos b % 2 ^ 32
  let put := asNat 32 a * 2 ^ fieldPos b % 2 ^ 32
  zext32 ((low32 c &&& ~~~(BitVec.ofNat 32 mask)) ||| (BitVec.ofNat 32 put &&& BitVec.ofNat 32 mask))

/-- One byte of `perm`: the byte chosen by a selector, or its top bit repeated (R201). -/
def permByte (a c : Word) (sel : Nat) : Nat :=
  let j := sel % 8
  let byte := (if j < 4 then asNat 32 a / 2 ^ (8 * j) else asNat 32 c / 2 ^ (8 * (j - 4))) % 256
  if sel / 8 % 2 = 0 then byte else if 128 ≤ byte then 255 else 0

/-- `perm` (R201). -/
def permVal (a b c : Word) : Word :=
  BitVec.ofNat 64 ((List.range 4).foldl (fun r i => r + permByte a c (b.toNat / 2 ^ (4 * i)) * 2 ^ (8 * i)) 0)

/-- Leading zeros and 1 bits of the low 32 bits (R198, R86). -/
def clzVal (a : Word) : Word := BitVec.ofNat 64 (if asNat 32 a = 0 then 32 else 31 - (asNat 32 a).log2)
def popcVal (a : Word) : Word := BitVec.ofNat 64 ((List.range 32).filter fun i => a.getLsbD i).length

/-- `lext.i` (R198). -/
def lextIVal (a : Word) : Word := (low32 a).signExtend 64

/-- `lea2` to `lea4`: a plus b scaled (R198). -/
def leaVal (k : Nat) (_ : Modifier) (a b : Word) : Word := a + b * BitVec.ofNat 64 k

/-- `and` (R198). -/
def execAnd (x : R3) (s : State) : Outcome := opR 4 x .zero (bitVal (· &&& ·)) s
/-- `and`, 64-bit form (R198, R178). -/
def execAndL (x : R3m) (s : State) : Outcome := opR 8 x.r x.m (bitVal (· &&& ·)) s

/-- `or` (R198). -/
def execOr (x : R3) (s : State) : Outcome := opR 4 x .zero (bitVal (· ||| ·)) s
/-- `or`, 64-bit form (R198, R178). -/
def execOrL (x : R3m) (s : State) : Outcome := opR 8 x.r x.m (bitVal (· ||| ·)) s

/-- `xor` (R198). -/
def execXor (x : R3) (s : State) : Outcome := opR 4 x .zero (bitVal (· ^^^ ·)) s
/-- `xor`, 64-bit form (R198, R178). -/
def execXorL (x : R3m) (s : State) : Outcome := opR 8 x.r x.m (bitVal (· ^^^ ·)) s

/-- `andn` (R198). -/
def execAndn (x : R3) (s : State) : Outcome := opR 4 x .zero (bitVal fun x y => x &&& ~~~y) s
/-- `andn`, 64-bit form (R198, R178). -/
def execAndnL (x : R3m) (s : State) : Outcome := opR 8 x.r x.m (bitVal fun x y => x &&& ~~~y) s

/-- `mov` (R198). -/
def execMov (x : R1) (s : State) : Outcome := opU 4 x .zero (fun a => zext32 (low32 a)) s
/-- `mov`, 64-bit form (R198, R178). -/
def execMovL (x : R1m) (s : State) : Outcome := opU 8 x.r x.m (fun a => zext32 (low32 a)) s

/-- `shl` (R199). -/
def execShl (x : R3) (s : State) : Outcome := opR 4 x .zero (shiftVal (shlBy 32)) s
/-- `shl`, 64-bit form (R199, R178). -/
def execShlL (x : R3m) (s : State) : Outcome := opR 8 x.r x.m (shiftVal (shlBy 32)) s

/-- `shr.n` (R199). -/
def execShrN (x : R3) (s : State) : Outcome := opR 4 x .zero (shiftVal (shrNBy 32)) s
/-- `shr.n`, 64-bit form (R199, R178). -/
def execShrNL (x : R3m) (s : State) : Outcome := opR 8 x.r x.m (shiftVal (shrNBy 32)) s

/-- `shr.i` (R199). -/
def execShrI (x : R3) (s : State) : Outcome := opR 4 x .zero (shiftVal (shrIBy 32)) s
/-- `shr.i`, 64-bit form (R199, R178). -/
def execShrIL (x : R3m) (s : State) : Outcome := opR 8 x.r x.m (shiftVal (shrIBy 32)) s

/-- `clz` (R198). -/
def execClz (x : R1) (s : State) : Outcome := opU 4 x .zero clzVal s
/-- `clz`, 64-bit form (R198, R178). -/
def execClzL (x : R1m) (s : State) : Outcome := opU 8 x.r x.m clzVal s

/-- `popc` (R198). -/
def execPopc (x : R1) (s : State) : Outcome := opU 4 x .zero popcVal s
/-- `popc`, 64-bit form (R198, R178). -/
def execPopcL (x : R1m) (s : State) : Outcome := opU 8 x.r x.m popcVal s

/-- `bfx.n` (R200). -/
def execBfxN (x : R3) (s : State) : Outcome := opR 4 x .zero bfxN s
/-- `bfx.n`, 64-bit form (R200, R178). -/
def execBfxNL (x : R3m) (s : State) : Outcome := opR 8 x.r x.m bfxN s

/-- `bfx.i` (R200). -/
def execBfxI (x : R3) (s : State) : Outcome := opR 4 x .zero bfxI s
/-- `bfx.i`, 64-bit form (R200, R178). -/
def execBfxIL (x : R3m) (s : State) : Outcome := opR 8 x.r x.m bfxI s

/-- `bfi` (R200). -/
def execBfi (x : R3) (s : State) : Outcome := opIns 4 x .zero bfiVal s
/-- `bfi`, 64-bit form (R200, R178). -/
def execBfiL (x : R3m) (s : State) : Outcome := opIns 8 x.r x.m bfiVal s

/-- `perm` (R201). -/
def execPerm (x : R3) (s : State) : Outcome := opIns 4 x .zero permVal s
/-- `perm`, 64-bit form (R201, R178). -/
def execPermL (x : R3m) (s : State) : Outcome := opIns 8 x.r x.m permVal s

/-- `lshl` (R199). -/
def execLshl (x : R3) (s : State) : Outcome := opR 4 x .zero (shiftVal (shlBy 64)) s
/-- `lshl`, 64-bit form (R199, R178). -/
def execLshlL (x : R3m) (s : State) : Outcome := opR 8 x.r x.m (shiftVal (shlBy 64)) s

/-- `lshr.n` (R199). -/
def execLshrN (x : R3) (s : State) : Outcome := opR 4 x .zero (shiftVal (shrNBy 64)) s
/-- `lshr.n`, 64-bit form (R199, R178). -/
def execLshrNL (x : R3m) (s : State) : Outcome := opR 8 x.r x.m (shiftVal (shrNBy 64)) s

/-- `lshr.i` (R199). -/
def execLshrI (x : R3) (s : State) : Outcome := opR 4 x .zero (shiftVal (shrIBy 64)) s
/-- `lshr.i`, 64-bit form (R199, R178). -/
def execLshrIL (x : R3m) (s : State) : Outcome := opR 8 x.r x.m (shiftVal (shrIBy 64)) s

/-- `lext.i` (R198). -/
def execLextI (x : R1) (s : State) : Outcome := opU 4 x .zero lextIVal s
/-- `lext.i`, 64-bit form (R198, R178). -/
def execLextIL (x : R1m) (s : State) : Outcome := opU 8 x.r x.m lextIVal s

/-- `lext.n` (R198). -/
def execLextN (x : R1) (s : State) : Outcome := opU 4 x .zero (fun a => zext32 (low32 a)) s
/-- `lext.n`, 64-bit form (R198, R178). -/
def execLextNL (x : R1m) (s : State) : Outcome := opU 8 x.r x.m (fun a => zext32 (low32 a)) s

/-- `lea2` (R198). -/
def execLea2 (x : R3) (s : State) : Outcome := opR 4 x .zero (leaVal 4) s
/-- `lea2`, 64-bit form (R198, R178). -/
def execLea2L (x : R3m) (s : State) : Outcome := opR 8 x.r x.m (leaVal 4) s

/-- `lea3` (R198). -/
def execLea3 (x : R3) (s : State) : Outcome := opR 4 x .zero (leaVal 8) s
/-- `lea3`, 64-bit form (R198, R178). -/
def execLea3L (x : R3m) (s : State) : Outcome := opR 8 x.r x.m (leaVal 8) s

/-- `lea4` (R198). -/
def execLea4 (x : R3) (s : State) : Outcome := opR 4 x .zero (leaVal 16) s
/-- `lea4`, 64-bit form (R198, R178). -/
def execLea4L (x : R3m) (s : State) : Outcome := opR 8 x.r x.m (leaVal 16) s

end Sys2Proof.Machine
end

