-- ==== Sys2Proof/Machine/Flags.lean ====
section
/-! DEFINITION. What predicates are computed from: the relations of the compares (R202) and predicate logic (R203). -/

namespace Sys2Proof.Machine

/-- Equality and order at a width, signed and unsigned (R202). -/
def relEq (w : Nat) (_ : Modifier) (a b : Word) : Bool := decide (asNat w a = asNat w b)
def relNe (w : Nat) (_ : Modifier) (a b : Word) : Bool := decide (asNat w a ≠ asNat w b)
def relLtI (w : Nat) (_ : Modifier) (a b : Word) : Bool := decide (asInt w a < asInt w b)
def relLeI (w : Nat) (_ : Modifier) (a b : Word) : Bool := decide (asInt w a ≤ asInt w b)
def relLtN (w : Nat) (_ : Modifier) (a b : Word) : Bool := decide (asNat w a < asNat w b)
def relLeN (w : Nat) (_ : Modifier) (a b : Word) : Bool := decide (asNat w a ≤ asNat w b)

/-- A floating relation on the operands after their modifiers (R202). -/
def relF (f : Fp → Fp → Bool) (m : Modifier) (a b : Word) : Bool :=
  f ((f32.ofWord a).mods m.absa m.nega) ((f32.ofWord b).mods m.absb m.negb)

/-- `fcmp.ne`: not equal, or unordered. -/
def fpNe (x y : Fp) : Bool := !x.eqv y

/-- `fcmp.ord` and `fcmp.unord` (R214). -/
def fpOrd (a b : Word) : Bool := !(f32.ofWord a).isNan && !(f32.ofWord b).isNan
def fpUnord (a b : Word) : Bool := (f32.ofWord a).isNan || (f32.ofWord b).isNan

/-- The predicates of a thread as bits 0 to 11, as they read here (R217). -/
def Thread.predWord (t : Thread) (cyc : Nat) : Word :=
  BitVec.ofNat 64 ((List.range 12).foldl (fun r i => r + bitN (t.readQ (BitVec.ofNat 4 i) cyc) i) 0)

end Sys2Proof.Machine
end

