-- ==== Sys2Proof/Machine/Compare.lean ====
section
/-! DEFINITION. Compares and predicate logic (R202, R203). -/

namespace Sys2Proof.Machine

/-- `icmp.eq` (R202). -/
def execIcmpEq (x : R3) (s : State) : Outcome := opCmp 4 x .zero (relEq 32) s
/-- `icmp.eq`, 64-bit form (R202, R178). -/
def execIcmpEqL (x : R3m) (s : State) : Outcome := opCmp 8 x.r x.m (relEq 32) s

/-- `icmp.ne` (R202). -/
def execIcmpNe (x : R3) (s : State) : Outcome := opCmp 4 x .zero (relNe 32) s
/-- `icmp.ne`, 64-bit form (R202, R178). -/
def execIcmpNeL (x : R3m) (s : State) : Outcome := opCmp 8 x.r x.m (relNe 32) s

/-- `icmp.lt.i` (R202). -/
def execIcmpLtI (x : R3) (s : State) : Outcome := opCmp 4 x .zero (relLtI 32) s
/-- `icmp.lt.i`, 64-bit form (R202, R178). -/
def execIcmpLtIL (x : R3m) (s : State) : Outcome := opCmp 8 x.r x.m (relLtI 32) s

/-- `icmp.le.i` (R202). -/
def execIcmpLeI (x : R3) (s : State) : Outcome := opCmp 4 x .zero (relLeI 32) s
/-- `icmp.le.i`, 64-bit form (R202, R178). -/
def execIcmpLeIL (x : R3m) (s : State) : Outcome := opCmp 8 x.r x.m (relLeI 32) s

/-- `icmp.lt.n` (R202). -/
def execIcmpLtN (x : R3) (s : State) : Outcome := opCmp 4 x .zero (relLtN 32) s
/-- `icmp.lt.n`, 64-bit form (R202, R178). -/
def execIcmpLtNL (x : R3m) (s : State) : Outcome := opCmp 8 x.r x.m (relLtN 32) s

/-- `icmp.le.n` (R202). -/
def execIcmpLeN (x : R3) (s : State) : Outcome := opCmp 4 x .zero (relLeN 32) s
/-- `icmp.le.n`, 64-bit form (R202, R178). -/
def execIcmpLeNL (x : R3m) (s : State) : Outcome := opCmp 8 x.r x.m (relLeN 32) s

/-- `lcmp.eq` (R202). -/
def execLcmpEq (x : R3) (s : State) : Outcome := opCmp 4 x .zero (relEq 64) s
/-- `lcmp.eq`, 64-bit form (R202, R178). -/
def execLcmpEqL (x : R3m) (s : State) : Outcome := opCmp 8 x.r x.m (relEq 64) s

/-- `lcmp.ne` (R202). -/
def execLcmpNe (x : R3) (s : State) : Outcome := opCmp 4 x .zero (relNe 64) s
/-- `lcmp.ne`, 64-bit form (R202, R178). -/
def execLcmpNeL (x : R3m) (s : State) : Outcome := opCmp 8 x.r x.m (relNe 64) s

/-- `lcmp.lt.i` (R202). -/
def execLcmpLtI (x : R3) (s : State) : Outcome := opCmp 4 x .zero (relLtI 64) s
/-- `lcmp.lt.i`, 64-bit form (R202, R178). -/
def execLcmpLtIL (x : R3m) (s : State) : Outcome := opCmp 8 x.r x.m (relLtI 64) s

/-- `lcmp.lt.n` (R202). -/
def execLcmpLtN (x : R3) (s : State) : Outcome := opCmp 4 x .zero (relLtN 64) s
/-- `lcmp.lt.n`, 64-bit form (R202, R178). -/
def execLcmpLtNL (x : R3m) (s : State) : Outcome := opCmp 8 x.r x.m (relLtN 64) s

/-- `fcmp.eq` (R202). -/
def execFcmpEq (x : R3) (s : State) : Outcome := opCmp 4 x .zero (relF Fp.eqv) s
/-- `fcmp.eq`, 64-bit form (R202, R178). -/
def execFcmpEqL (x : R3m) (s : State) : Outcome := opCmp 8 x.r x.m (relF Fp.eqv) s

/-- `fcmp.ne` (R202). -/
def execFcmpNe (x : R3) (s : State) : Outcome := opCmp 4 x .zero (relF fpNe) s
/-- `fcmp.ne`, 64-bit form (R202, R178). -/
def execFcmpNeL (x : R3m) (s : State) : Outcome := opCmp 8 x.r x.m (relF fpNe) s

/-- `fcmp.lt` (R202). -/
def execFcmpLt (x : R3) (s : State) : Outcome := opCmp 4 x .zero (relF Fp.lt) s
/-- `fcmp.lt`, 64-bit form (R202, R178). -/
def execFcmpLtL (x : R3m) (s : State) : Outcome := opCmp 8 x.r x.m (relF Fp.lt) s

/-- `fcmp.le` (R202). -/
def execFcmpLe (x : R3) (s : State) : Outcome := opCmp 4 x .zero (relF Fp.le) s
/-- `fcmp.le`, 64-bit form (R202, R178). -/
def execFcmpLeL (x : R3m) (s : State) : Outcome := opCmp 8 x.r x.m (relF Fp.le) s

/-- q_d := f(q_a, q_b) (R203). -/
def opQ (x : Ql) (f : Bool → Bool → Bool) (s : State) : Outcome :=
  s.alu { len := 4, h := x.h, rd := [.q x.a, .q x.b] } 4 (.q x.d) fun rd =>
    boolWord (f (decide (rd (.q x.a) ≠ 0)) (decide (rd (.q x.b) ≠ 0)))

/-- `qlop.and` (R203). -/
def execQlopAnd (x : Ql) (s : State) : Outcome := opQ x (· && ·) s
/-- `qlop.or` (R203). -/
def execQlopOr (x : Ql) (s : State) : Outcome := opQ x (· || ·) s
/-- `qlop.xor` (R203). -/
def execQlopXor (x : Ql) (s : State) : Outcome := opQ x (· != ·) s
/-- `qlop.andn` (R203). -/
def execQlopAndn (x : Ql) (s : State) : Outcome := opQ x (fun a b => a && !b) s

end Sys2Proof.Machine
end

