-- ==== Sys2Proof/Machine/Sfu.lean ====
section
/-! DEFINITION. The special functions (R207). Where R207 states a value, that value; where it states an error bound,
an open value within the bound, the same for the same function, argument and modifier word. -/

namespace Sys2Proof.Machine

/-! ## Enclosures in fixed point, in units of 2^-256 -/

/-- One in fixed point. -/
def fxOne : Int := 2 ^ 256

/-- A product of fixed-point numbers. -/
def fxMul (a b : Int) : Int := a * b / fxOne

/-- 1/1 + x/1! + x²/2! + …, `n` more terms from term `k` with value `t`. -/
def fxExp : Nat → Nat → Int → Int → Int
  | 0, _, _, t => t
  | n + 1, k, x, t => t + fxExp n (k + 1) x (fxMul t x / (k + 1))

/-- 1/(k) + z/(k + 2) + …, `n` terms of the series of the inverse hyperbolic tangent; `t` the power of z so far. -/
def fxAtanh : Nat → Nat → Int → Int → Int
  | 0, _, _, _ => 0
  | n + 1, k, z2, t => t / k + fxAtanh n (k + 2) z2 (fxMul t z2)

/-- The natural logarithm of a number in [1, 2]. -/
def fxLn (x : Int) : Int :=
  let z := (x - fxOne) * fxOne / (x + fxOne)
  2 * fxAtanh 90 1 (fxMul z z) z

/-- The natural logarithm of 2. -/
def fxLn2 : Int := fxLn (2 * fxOne)

/-- 2^x for x in [0, 1). -/
def fxPow2 (x : Int) : Int := fxExp 64 0 (fxMul x fxLn2) fxOne

/-- The inverse tangent of 1/q in units of 2^-512, `n` terms from term `k`; `t` is 2^512 / q^k. -/
def atanInv : Nat → Nat → Int → Int → Int
  | 0, _, _, _ => 0
  | n + 1, k, q, t => t / k - atanInv n (k + 2) q (t / (q * q))

/-- 2π in units of 2^-512. -/
def twoPi : Int := 2 * (16 * atanInv 120 1 5 (2 ^ 512 / 5) - 4 * atanInv 40 1 239 (2 ^ 512 / 239))

/-- t − t·x²/((k+1)(k+2)) + …: the series of the sine (t = x, k = 1) and the cosine (t = 1, k = 0). -/
def fxTrig : Nat → Nat → Int → Int → Int
  | 0, _, _, _ => 0
  | n + 1, k, x2, t => t - fxTrig n (k + 2) x2 (fxMul t x2 / ((k + 1) * (k + 2)))

/-- A finite value as an integer multiple of 2^-512. -/
def units512 (s : Bool) (m : Nat) (e : Int) : Int := (if s then -1 else 1) * (m * 2 ^ (e + 512).toNat)

/-- An argument of `sin` or `cos` reduced to one turn, in fixed point. -/
def reduceTurn (s : Bool) (m : Nat) (e : Int) : Int := units512 s m e % twoPi / 2 ^ 256

/-- What the enclosures are good to: far inside every bound of R207. -/
def fxSlack : Int := 2 ^ 80

/-- A function value: within `fxSlack` of `v` × 2^(`n` − 256). -/
structure Near where
  v : Int
  n : Int
  deriving Repr

/-- x in fixed point split as integer and fraction: 2^x = 2^n × v. -/
def pow2Near (x : Int) : Near := ⟨fxPow2 (x % fxOne), x / fxOne⟩

/-- The magnitude of tanh x for a positive x in fixed point. -/
def tanhNear (x : Int) : Int :=
  let y := 2 * x * fxOne / fxLn2
  let t := if 300 < y / fxOne then 0 else fxOne * fxOne / fxPow2 (y % fxOne) / 2 ^ (y / fxOne).toNat
  (fxOne - t) * fxOne / (fxOne + t)

/-- The function value of a finite argument that R207 does not state exactly. -/
def sfuNear (code : Nat) (s : Bool) (m : Nat) (e : Int) : Near :=
  let l := bitlen m
  match code with
  | 0 => -- 1/x = (2^l / m) × 2^(−e − l)
    ⟨(if s then -1 else 1) * (2 ^ (256 + l) / m), -e - l⟩
  | 1 => -- with x = q × 2^(2k) and q in [1, 4): 1/√x = (1/√q) × 2^(−k)
    let k := (e + l - 1) / 2
    let q := m * 2 ^ (512 + e - 2 * k).toNat
    ⟨2 * (isqrt 260 (2 ^ 1024 / q) 0 : Nat), -k - 1⟩
  | 3 => pow2Near (units512 s m e / 2 ^ 256)
  | 4 => ⟨(e + l - 1) * fxOne + fxLn (m * 2 ^ 256 / 2 ^ (l - 1)) * fxOne / fxLn2, 0⟩
  | 5 => let x := reduceTurn s m e; ⟨fxTrig 90 1 (fxMul x x) x, 0⟩
  | 6 => let x := reduceTurn s m e; ⟨fxTrig 90 0 (fxMul x x) fxOne, 0⟩
  | _ => ⟨(if s then -1 else 1) * tanhNear (units512 false m e / 2 ^ 256), 0⟩

/-- Whether a bound of R207 is absolute (2^-22) here. -/
def sfuAbsolute (code m : Nat) (e : Int) : Bool :=
  let x := m * 2 ^ (e + 149).toNat
  code = 5 || code = 6 || (code = 4 && decide (2 ^ 148 ≤ x ∧ x ≤ 2 ^ 150)) || (code = 7 && decide (x < 2 ^ 139))

/-- The ulps of the other bounds. -/
def sfuUlps (code : Nat) : Nat := if code ≤ 1 then 1 else 2

/-- An open pattern made a value within the bound: the pattern itself where it is, else the function value rounded.
A normal result is chosen by its significand, so that a scale applies to it exactly; a subnormal one as it is. The ulp of R207
is 2^(k-23) with k the exponent of the computed function value. (log 156: DESIGN CHOICE, unsafe.) -/
def sfuChoose (code : Nat) (abs : Bool) (r : Near) (bits : Nat) : Fp :=
  let k := r.n + bitlen r.v.natAbs - 257          -- the exponent of the function value
  let scaled := !abs && decide (-126 ≤ k)
  let n := if scaled then r.n else 0
  let v := if scaled then r.v else if 0 ≤ r.n then r.v * 2 ^ r.n.toNat else r.v / 2 ^ min (-r.n).toNat 1000
  let ulp := if scaled then k - n - 23 else -149
  let tol : Int := if abs then 2 ^ 234 else sfuUlps code * 2 ^ (256 + ulp).toNat
  let slack : Int := if scaled then fxSlack else fxSlack + 1
  match f32.decode bits with
  | .fin s m e =>
    let c : Int := (if s then -1 else 1) * (m * 2 ^ (e + 256).toNat)
    if (c - v).natAbs ≤ tol + slack then .fin s m (e + n)
    else (f32.decode (f32.round 0 false (.fin (decide (v < 0)) v.natAbs (-256)))).scale n
  | _ => (f32.decode (f32.round 0 false (.fin (decide (v < 0)) v.natAbs (-256)))).scale n

/-! ## The functions -/

/-- The values R207 states exactly; `none` where only a bound is stated. -/
def sfuSpecial (code : Nat) (x : Fp) : Option Fp :=
  match code, x with
  | _, .nan => some .nan
  | 0, .inf s => some (.fin s 0 0)
  | 0, .fin s 0 _ => some (.inf s)
  | 1, .inf s => some (if s then .nan else .fin false 0 0)
  | 1, .fin s 0 _ => some (.inf s)
  | 1, .fin true _ _ => some .nan
  | 2, x => some x.sqrt
  | 3, .inf s => some (if s then .fin false 0 0 else .inf false)
  | 3, .fin _ 0 _ => some (.fin false 1 0)
  | 4, .inf s => some (if s then .nan else .inf false)
  | 4, .fin _ 0 _ => some (.inf true)
  | 4, .fin true _ _ => some .nan
  | 4, .fin false m e => if (m : Int) * 2 ^ (e + 149).toNat = 2 ^ 149 then some (.fin false 0 0) else none
  | 5, .inf _ => some .nan
  | 5, .fin s 0 e => some (.fin s 0 e)
  | 6, .inf _ => some .nan
  | 7, .inf s => some (.fin s 1 0)
  | 7, .fin s 0 e => some (.fin s 0 e)
  | _, _ => none

/-- The function value: exact where R207 states it, otherwise open within the bound of R207. -/
def sfuExact (code : Nat) (m : Modifier) (a : Word) : Fp :=
  let x := (f32.ofWord a).mods m.absa m.nega
  match sfuSpecial code x, x with
  | some y, _ => y
  | none, .fin s mant e =>
    sfuChoose code (sfuAbsolute code mant e) (sfuNear code s mant e)
      (Config.sfuBits code (a.setWidth 32) (enModifier m)).toNat
  | none, y => y

/-- `fsfu` by its code (R207, R180). (log 15: DESIGN CHOICE, safe.) -/
def sfuVal (code : Nat) (m : Modifier) (a : Word) : Word := BitVec.ofNat 64 (f32.finish m (sfuExact code m a))

end Sys2Proof.Machine
end

