-- ==== Sys2Proof/Machine/Float.lean ====
section
/-! DEFINITION. FP32 arithmetic, the special functions and packed half precision (R204 to R208): class F. -/

namespace Sys2Proof.Machine

/-- The exact results of R204 and R208 on modified operands. -/
def fpAdd (m : Modifier) (x y : Fp) : Fp := x.add m.rnd y
def fpSub (m : Modifier) (x y : Fp) : Fp := x.add m.rnd y.neg
def fpMul (_ : Modifier) (x y : Fp) : Fp := x.mul y
def fpMin (_ : Modifier) (x y : Fp) : Fp := x.min y
def fpMax (_ : Modifier) (x y : Fp) : Fp := x.max y

/-- One scalar result of class F in a format, from the patterns of its operands. -/
def fpVal (F : FpFmt) (f : Modifier → Fp → Fp → Fp) (m : Modifier) (a b : Nat) : Nat :=
  F.finish m (f m ((F.decode a).mods m.absa m.nega) ((F.decode b).mods m.absb m.negb))

/-- A fused multiply-add in a format; c has no modifiers of its own. -/
def fmaVal (F : FpFmt) (m : Modifier) (a b c : Nat) : Nat :=
  F.finish m ((((F.decode a).mods m.absa m.nega).mul ((F.decode b).mods m.absb m.negb)).add m.rnd (F.decode c))

/-- FP32 operations. (log 16: DEDUCED, unsafe.) -/
def f32Val (f : Modifier → Fp → Fp → Fp) (m : Modifier) (a b : Word) : Word :=
  BitVec.ofNat 64 (fpVal f32 f m (asNat 32 a) (asNat 32 b))
def f32Fma (m : Modifier) (a b c : Word) : Word :=
  BitVec.ofNat 64 (fmaVal f32 m (asNat 32 a) (asNat 32 b) (asNat 32 c))

/-- Half `i` of a packed operand (R208). -/
def half (x : Word) (i : Nat) : Nat := x.toNat / 2 ^ (16 * i) % 65536

/-- Two halves as a packed result (R208). -/
def packHalves (h0 h1 : Nat) : Word := BitVec.ofNat 64 (h0 + 65536 * h1)

/-- A packed operation, each half on its own (R208). -/
def packVal (F : FpFmt) (f : Modifier → Fp → Fp → Fp) (m : Modifier) (a b : Word) : Word :=
  packHalves (fpVal F f m (half a 0) (half b 0)) (fpVal F f m (half a 1) (half b 1))
def packFma (F : FpFmt) (m : Modifier) (a b c : Word) : Word :=
  packHalves (fmaVal F m (half a 0) (half b 0) (half c 0)) (fmaVal F m (half a 1) (half b 1) (half c 1))

/-- `fadd` (R204, R205). -/
def execFadd (x : R3) (s : State) : Outcome := opR 4 x .zero (f32Val fpAdd) s
/-- `fadd`, 64-bit form (R204, R205, R178). -/
def execFaddL (x : R3m) (s : State) : Outcome := opR 8 x.r x.m (f32Val fpAdd) s

/-- `fsub` (R204, R205). -/
def execFsub (x : R3) (s : State) : Outcome := opR 4 x .zero (f32Val fpSub) s
/-- `fsub`, 64-bit form (R204, R205, R178). -/
def execFsubL (x : R3m) (s : State) : Outcome := opR 8 x.r x.m (f32Val fpSub) s

/-- `fmul` (R204, R205). -/
def execFmul (x : R3) (s : State) : Outcome := opR 4 x .zero (f32Val fpMul) s
/-- `fmul`, 64-bit form (R204, R205, R178). -/
def execFmulL (x : R3m) (s : State) : Outcome := opR 8 x.r x.m (f32Val fpMul) s

/-- `ffma` (R204, R205). -/
def execFfma (x : R3) (s : State) : Outcome := opMac 4 x .zero f32Fma s
/-- `ffma`, 64-bit form (R204, R205, R178). -/
def execFfmaL (x : R3m) (s : State) : Outcome := opMac 8 x.r x.m f32Fma s

/-- `fmin` (R204, R206). -/
def execFmin (x : R3) (s : State) : Outcome := opR 4 x .zero (f32Val fpMin) s
/-- `fmin`, 64-bit form (R204, R206, R178). -/
def execFminL (x : R3m) (s : State) : Outcome := opR 8 x.r x.m (f32Val fpMin) s

/-- `fmax` (R204, R206). -/
def execFmax (x : R3) (s : State) : Outcome := opR 4 x .zero (f32Val fpMax) s
/-- `fmax`, 64-bit form (R204, R206, R178). -/
def execFmaxL (x : R3m) (s : State) : Outcome := opR 8 x.r x.m (f32Val fpMax) s

/-- `fsfu` (R207). -/
def execFsfu (x : Rf) (s : State) : Outcome := opF 4 4 12 x .zero sfuVal s
/-- `fsfu`, 64-bit form (R207, R178). -/
def execFsfuL (x : Rfm) (s : State) : Outcome := opF 8 4 12 x.r x.m sfuVal s

/-- `hadd2.f16` (R208). -/
def execHadd2F16 (x : R3) (s : State) : Outcome := opR 4 x .zero (packVal f16 fpAdd) s
/-- `hadd2.f16`, 64-bit form (R208, R178). -/
def execHadd2F16L (x : R3m) (s : State) : Outcome := opR 8 x.r x.m (packVal f16 fpAdd) s

/-- `hmul2.f16` (R208). -/
def execHmul2F16 (x : R3) (s : State) : Outcome := opR 4 x .zero (packVal f16 fpMul) s
/-- `hmul2.f16`, 64-bit form (R208, R178). -/
def execHmul2F16L (x : R3m) (s : State) : Outcome := opR 8 x.r x.m (packVal f16 fpMul) s

/-- `hfma2.f16` (R208). -/
def execHfma2F16 (x : R3) (s : State) : Outcome := opMac 4 x .zero (packFma f16) s
/-- `hfma2.f16`, 64-bit form (R208, R178). -/
def execHfma2F16L (x : R3m) (s : State) : Outcome := opMac 8 x.r x.m (packFma f16) s

/-- `hfma2.bf16` (R208). -/
def execHfma2Bf16 (x : R3) (s : State) : Outcome := opMac 4 x .zero (packFma bf16) s
/-- `hfma2.bf16`, 64-bit form (R208, R178). -/
def execHfma2Bf16L (x : R3m) (s : State) : Outcome := opMac 8 x.r x.m (packFma bf16) s

/-- `hadd2.bf16` (R208). -/
def execHadd2Bf16 (x : R3) (s : State) : Outcome := opR 4 x .zero (packVal bf16 fpAdd) s
/-- `hadd2.bf16`, 64-bit form (R208, R178). -/
def execHadd2Bf16L (x : R3m) (s : State) : Outcome := opR 8 x.r x.m (packVal bf16 fpAdd) s

end Sys2Proof.Machine
end

