-- ==== Sys2Proof/Machine/Translate.lean ====
section
/-! DEFINITION. Address translation: page tables, TLBs and physical addresses (R136, R137, R147 to R151). -/

namespace Sys2Proof.Machine

/-- A 57-bit address: bits 63 to 57 all equal bit 56 (R133). -/
def isVa57 (a : Word) : Bool := decide (a.toNat / 2 ^ 56 = 0) || decide (a.toNat / 2 ^ 56 = 255)

/-- The 57 bits that are translated. -/
def va57 (a : Word) : Nat := a.toNat % 2 ^ 57

/-! ## Page tables (R147, R148) -/

/-- How a walk ends. -/
inductive WalkEnd where
  | leaf (e : TlbEntry)
  /-- An entry whose v bit is 0 (why 1). -/
  | notValid
  /-- A malformed entry (why 2). -/
  | malformed
  /-- An entry whose word is uncorrectable: it delivers no data (R410). -/
  | bad (w : Loc)
  deriving DecidableEq, Repr

/-- The fields of an entry. -/
def pteBit (e : Nat) (k : Nat) : Bool := e.testBit k
def pteFrame (e : Nat) : Nat := e / 2 ^ 12 % 2 ^ 45 * 2 ^ 12
def pteReserved (e : Nat) : Nat := e / 2 ^ 57 + e / 2 ^ 10 % 4

/-- The page size of a leaf at a level; 0 where no leaf may stand. -/
def leafSize (level : Nat) (c64 : Bool) : Nat :=
  if level = 2 then 2 ^ 30 else if level = 3 then 2 ^ 21 else if level = 4 then (if c64 then 2 ^ 16 else 2 ^ 12) else 0

/-- The physical page of a leaf: a 64 KiB leaf's frame with its low four bits cleared. -/
def leafBase (e : Nat) (size : Nat) : Nat := if size = 2 ^ 16 then pteFrame e / 2 ^ 16 * 2 ^ 16 else pteFrame e

/-- Whether a table may stand at a physical address: local, inside the map, and below the die scratch's size. -/
def State.tableOk (s : State) (pa : Nat) : Bool :=
  decide (pa < 2 ^ 56) && (localHome (fun d => (s.die d).ways) false pa).isSome

/-- An entry with its frame's low four bits cleared. -/
def stripFrame (e : Nat) : Nat := e / 2 ^ 16 * 2 ^ 16 + e % 2 ^ 12

/-- Whether the 16 entries of a 64 KiB group differ in nothing but their frames' low four bits. -/
def State.groupOk (s : State) (first : Nat) (e0 : Nat) : Bool :=
  (List.range 16).all fun i => stripFrame (s.physNat (first + 8 * i) 8) == stripFrame e0

/-- The first uncorrectable word among the entries at a physical address (R410). -/
def State.badEntry (s : State) (a n : Nat) : Option Loc :=
  if s.badWords.isEmpty then none
  else (List.range n).findSome? fun i => (localHome (fun d => (s.die d).ways) false (a + 8 * i)).bind fun x =>
    if s.badWords.contains x then some x else none

/-- A walk from a table at a level; `fuel` counts the levels left. (log 152: DESIGN CHOICE, unsafe.) -/
def State.walkFrom (s : State) (ctx va : Nat) : Nat → Nat → Nat → WalkEnd
  | 0, _, _ => .malformed
  | fuel + 1, level, table =>
    let index := va / 2 ^ (48 - 9 * level) % 512
    let e := s.physNat (table + 8 * index) 8
    let group := pteBit e 0 && pteBit e 1 && pteBit e 6
    if let some w := s.badEntry (if group then table + 8 * (index / 16 * 16) else table + 8 * index) (if group then 16 else 1) then .bad w
    else if !pteBit e 0 then .notValid
    else if pteReserved e ≠ 0 then .malformed
    else if pteBit e 6 && decide (level ≠ 4) then .malformed
    else if pteBit e 1 then
      let size := leafSize level (pteBit e 6)
      if size = 0 then .malformed
      else if pteBit e 9 && decide (size ≠ 2 ^ 12) then .malformed
      else if pteBit e 6 && !s.groupOk (table + 8 * (index / 16 * 16)) e then .malformed
      else if leafBase e size % size ≠ 0 then .malformed
      else .leaf { ctx := ctx, page := va / size * size, size := size, pte := BitVec.ofNat 64 e }
    else if pteBit e 9 then .malformed
    else if !s.tableOk (pteFrame e) then .malformed
    else s.walkFrom ctx va fuel (level + 1) (pteFrame e)

/-- A page of context 0 where no configuration record names its root: the local physical map in 1 GiB pages with s, r and w
(R356). -/
def identityWalk (va : Nat) : WalkEnd :=
  if va < 0x8000000000 ∨ (0x10000000000 ≤ va ∧ va < 0x10100000000) then
    .leaf { ctx := 0, page := va / 2 ^ 30 * 2 ^ 30, size := 2 ^ 30, pte := BitVec.ofNat 64 (va / 2 ^ 30 * 2 ^ 30 + 0x2F) }
  else .notValid

/-- The walk of an address in a context; an unbound context has no table. (log 67: DESIGN CHOICE, unsafe.) -/
def State.walk (s : State) (ctx va : Nat) : WalkEnd :=
  match s.contexts.find ctx with
  | some root => s.walkFrom ctx va 5 0 root
  | none => if ctx = 0 ∧ s.ident0 = true then identityWalk va else .notValid

/-- The entries that a walk reads, by physical address and size: a 64 KiB leaf's group of 16 is read whole. -/
def State.walkReads (s : State) (va : Nat) : Nat → Nat → Nat → List (Nat × Nat)
  | 0, _, _ => []
  | fuel + 1, level, table =>
    let index := va / 2 ^ (48 - 9 * level) % 512
    let e := s.physNat (table + 8 * index) 8
    if pteBit e 0 && pteBit e 1 && pteBit e 6 then [(table + 8 * (index / 16 * 16), 128)]
    else
      (table + 8 * index, 8) ::
        (if pteBit e 0 && !pteBit e 1 && s.tableOk (pteFrame e) then s.walkReads va fuel (level + 1) (pteFrame e) else [])

/-- The walker reads tables through the shared cache (R147): their sectors are valid there. -/
def State.walkServed (s : State) (ctx va : Nat) : State :=
  match s.contexts.find ctx with
  | some root => (s.walkReads va 5 0 root).foldl (fun s r =>
      match localHome (fun d => (s.die d).ways) false r.1 with
      | some x => s.served x r.2
      | none => s) s
  | none => s

/-! ## TLBs (R149, R150) -/

/-- Whether an entry translates an address of a context. -/
def TlbEntry.covers (e : TlbEntry) (ctx va : Nat) : Bool :=
  decide (e.ctx = ctx ∧ e.page ≤ va ∧ va < e.page + e.size)

/-- An entry held for an address: in the core's L1 TLB, else in the die's last-level TLB. -/
def State.tlbFind (s : State) (core ctx va : Nat) : Option TlbEntry :=
  match (s.core core).tlb.find? (fun e => e.covers ctx va) with
  | some e => some e
  | none => (s.die (coreDie core)).tlb.find? fun e => e.covers ctx va

/-- A list with room made for one more among `n`: the one removed is the implementation's choice. -/
def State.makeRoom {α : Type} (s : State) (l : List α) (n : Nat) : List α × State :=
  if l.length < n then (l, s) else (l.eraseIdx (s.fresh.1 % n), s.fresh.2)

/-- Whether two entries translate the same page: the new one takes the place of the old (R150). -/
def TlbEntry.samePage (x e : TlbEntry) : Bool := decide (x.ctx = e.ctx ∧ x.page = e.page ∧ x.size = e.size)

/-- The L1 TLB of a core takes an entry (64 entries, R149); entries of other sizes that a changed table has left stale stay
beside it (R150). (log 66: DESIGN CHOICE, safe.) -/
def State.fillL1 (s : State) (core : Nat) (e : TlbEntry) : State :=
  if (s.core core).tlb.contains e then s
  else
    let r := s.makeRoom ((s.core core).tlb.filter fun x => !x.samePage e) 64
    r.2.modCore core fun c => { c with tlb := r.1 ++ [e] }

/-- The last-level TLB of a die takes an entry: 512 entries for 1 GiB pages and 8,192 for the others (R149). -/
def State.fillLL (s : State) (d : Nat) (e : TlbEntry) : State :=
  if (s.die d).tlb.contains e then s
  else
    let big := fun (x : TlbEntry) => decide (x.size = 2 ^ 30)
    let old := (s.die d).tlb.filter fun x => !x.samePage e
    let same := old.filter fun x => big x == big e
    let rest := old.filter fun x => big x != big e
    let r := s.makeRoom same (if big e then 512 else 8192)
    r.2.modDie d fun x => { x with tlb := rest ++ r.1 ++ [e] }

/-! ## Physical addresses (R136, R137) -/

/-- What an access to a translated address reaches: a home in the module, another destination, or no home. -/
inductive Target where
  | home (x : Loc)
  | remote (dest off : Nat)
  | unmapped
  deriving DecidableEq, Repr

/-- The physical address that an entry gives an address. -/
def TlbEntry.phys (e : TlbEntry) (va : Nat) : Nat := leafBase e.pte.toNat e.size + va % e.size

/-- The target of a physical address; `vl` applies to local HBM frames alone (R137, R148). -/
def State.target (s : State) (vl : Bool) (pa : Nat) : Target :=
  if pa < 2 ^ 56 then
    match localHome s.scratchWays vl pa with
    | some x => .home x
    | none => .unmapped
  else
    let dest := pa / 2 ^ 47 % 512
    let off := pa % 2 ^ 47
    if dest = s.rank then
      match localHome s.scratchWays false off with
      | some x => .home x
      | none => .unmapped
    else .remote dest off

/-- The target of an address under an entry. -/
def State.targetOf (s : State) (e : TlbEntry) (va : Nat) : Target := s.target (pteBit e.pte.toNat 7) (e.phys va)

/-! ## The checks of an access (R148, R151, R248) -/

/-- What an access does at the page: read, write, both, or an instruction fetch. -/
structure Need where
  r : Bool := false
  w : Bool := false
  x : Bool := false
  deriving DecidableEq, Repr

/-- Whether a leaf permits an access in a mode (R148). -/
def TlbEntry.permits (e : TlbEntry) (n : Need) (sup : Bool) : Bool :=
  let p := e.pte.toNat
  (!n.r || pteBit p 2) && (!n.w || pteBit p 3) && (!n.x || pteBit p 4) && (sup || !pteBit p 5)

/-- Whether the host owns the page (R151). -/
def TlbEntry.hostOwned (e : TlbEntry) : Bool := pteBit e.pte.toNat 9 && pteBit e.pte.toNat 8

/-- The route state of a destination (R325); an unrouted one is handled as lost. -/
def State.routed (s : State) (dest : Nat) : Bool := decide ((s.routes.get dest 0).toNat / 2 ^ 14 = 1)

/-- The cause code of a lost destination (R335). -/
def lostCode (dest : Nat) : Nat := if 384 ≤ dest then 0x72 else 0x71

/-- The private area of a thread (R135). -/
def State.pvAddr (_ : State) (tk : Task) (tid : Nat) (off : Nat) : Nat := tk.pvBase + tid * tk.pvsz + off

/-- A virtual address as a fault reports it. -/
def canon57 (va : Nat) : Word := (BitVec.ofNat 57 va).signExtend 64

/-- The leaf of an address without any effect on a TLB: the L1 TLB, the last-level TLB, then the tables (R265). -/
def State.probe (s : State) (core ctx : Nat) (va : Word) : Option WalkEnd :=
  if !isVa57 va then none
  else match s.tlbFind core ctx (va57 va) with
    | some e => some (.leaf e)
    | none => some (s.walk ctx (va57 va))


end Sys2Proof.Machine
end

