-- ==== Sys2Proof/Machine/Window.lean ====
section
/-! DEFINITION. The debug registers of a core and its debug window (R56, R57, R429 to R431). -/

namespace Sys2Proof.Machine

/-- The course a `dbgctl` target names on a core, with the first slot it reaches (R56). -/
def Core.target (k : Core) (n : Nat) : Option (Nat × Nat) :=
  match k.courses.find n with
  | some _ => some (n, 0)
  | none =>
    match k.courses.find (n - 64) with
    | some c => if 64 ≤ n ∧ c.threads.length = 64 then some (n - 64, 32) else none
    | none => none

/-- The target course and the slot mask of a `dbgctl` value. -/
def dbgTarget (v : Word) : Nat := v.toNat / 2 ^ 8 % 128
def dbgMask (v : Word) : Nat := v.toNat / 2 ^ 16 % 2 ^ 32

/-- A write of `dbgctl`: the register holds the value, and the target course meets it at its next selection (R56). -/
def State.writeDbgctl (s : State) (core : Nat) (v : Word) : State :=
  let s := s.modCore core fun k => { k with dbgctl := v }
  match (s.core core).target (dbgTarget v) with
  | some p => s.modCourse core p.1 fun c => { c with dbg := c.dbg ++ [v] }
  | none => s

/-- A write of `wpn`. -/
def State.writeWp (s : State) (core n : Nat) (v : Word) : State :=
  s.modCore core fun k => { k with wp := if h : n < 4 then k.wp.set n v else k.wp }

/-! ## Instruction-cache invalidation (R170, R429) -/

/-- The 16-byte lines of the instruction cache that hold named virtual addresses; a range too long to list names every
line. -/
def State.codeLines (s : State) (core ctx lo size : Nat) : Option (List Nat) :=
  if 65536 < size then none
  else some ((List.range (size / 16 + 2)).filterMap fun i =>
    let va := (lo / 16 + i) * 16
    if lo + size ≤ va then none
    else match s.probe core ctx (canon57 va) with
      | some (.leaf e) =>
        match s.targetOf e (va % 2 ^ 57) with
        | .home x => some (lineKey x)
        | .remote d o => some (lineKey (.remote d o))
        | .unmapped => none
      | _ => none)

/-- The instruction cache lines over a range are invalidated (R170). (log 75: DESIGN CHOICE, unsafe.) -/
def State.invalCode (s : State) (core ctx lo size : Nat) : State :=
  if size = 0 then s
  else match s.codeLines core ctx lo size with
    | none => s.modCore core fun c => { c with icache := [] }
    | some ks => s.modCore core fun c => { c with icache := c.icache.filter fun l => !ks.contains l.1 }

/-- ILEN_WRITE (R429): the instruction-cache lines of a core that hold the bytes from iaddr on, in the context of any of
its tasks, and the prefetched parcels of its courses; its loop buffers stay. (log 34: PRESUMED, unsafe.) -/
def State.writeIlen (s : State) (core : Nat) (v : Word) : State :=
  let k := s.core core
  let ctxs := (k.tasks.map fun t => t.2.ctx).eraseDups
  let s := ctxs.foldl (fun s ctx => s.invalCode core ctx k.iaddr.toNat v.toNat) s
  s.modCore core fun k => { k with ilen := v, courses := k.courses.map fun c => (c.1, { c.2 with prefetch := none }) }

/-! ## The window (R429 to R431) -/

/-- The local physical address of a home, with the interleaved mapping, which is its own inverse (R140). -/
def Loc.phys : Loc → Nat
  | .hbm d l => d * 2 ^ 37 + hbmLoc false l
  | .scratch d o => 0x10000000000 + d * 0x40000000 + o
  | .pool _ a => a
  | .remote _ a => a

/-- The core and offset that a home's byte has in the debug windows of its die. -/
def Loc.window (x : Loc) : Option (Nat × Nat) :=
  match x with
  | .hbm d _ =>
    let base := trapBase d + 0x23200000
    let p := x.phys
    if base ≤ p ∧ p < base + 0x84000 then some (132 * d + (p - base) / 0x1000, (p - base) % 0x1000) else none
  | _ => none

/-- The course word of a course (R430). -/
def State.courseWord (s : State) (core n : Nat) : Word :=
  let k := s.core core
  match k.target n with
  | none => 0xFF
  | some p =>
    let slot := ((k.courses.find p.1).map Course.task).getD 0
    let spg := ((k.tasks.find slot).bind fun t => t.spG.head?).getD 0xFF
    BitVec.ofNat 64 (4096 + 256 * slot + spg)

/-- The register at an offset of a core's window. -/
def State.windowRead (s : State) (core off : Nat) : Word :=
  let k := s.core core
  if off = 0 then k.dbgctl
  else if off < 0x28 then k.wp.toList.getD (off / 8 - 1) 0
  else if off = 0x28 then k.iaddr
  else if off = 0x30 then k.ilen
  else if off = 0x38 then k.trapq
  else if 0x100 ≤ off ∧ off < 0x500 then s.courseWord core ((off - 0x100) / 8)
  else 0

/-- The bits that a register of a window holds; the others of `dbgctl`, `wpn` and trapq are RZ (R56, R57, R429). -/
def windowBits (off : Nat) : Word :=
  if off = 0 then 0x0000FFFFFFFF7F07
  else if off < 0x28 then 0xE000001F001FFFFF
  else if off = 0x38 then 7
  else 0xFFFFFFFFFFFFFFFF

/-- Whether a write at an offset of a window sets an RZ bit, as a `csrw` would (R6, R431). -/
def windowRz (off : Nat) (v : Word) : Bool := (v &&& ~~~windowBits off) != 0

/-- A write at an offset of a core's window. -/
def State.windowWrite (s : State) (core off : Nat) (v : Word) : State :=
  if off = 0 then s.writeDbgctl core v
  else if off < 0x28 then s.writeWp core (off / 8 - 1) v
  else if off = 0x28 then s.modCore core fun k => { k with iaddr := v }
  else if off = 0x30 then s.writeIlen core v
  else if off = 0x38 then s.modCore core fun k => { k with trapq := v }
  else s

end Sys2Proof.Machine
end

