-- ==== Sys2Proof/Machine/Packets.lean ====
section
/-! DEFINITION. Remote writes on their way: the hod, the send allowance, numbering and the egress (R165, R326, R328 to
R334). -/

namespace Sys2Proof.Machine

/-! ## Allowance (R329 to R331) -/

def State.allowOf (s : State) (d dest : Nat) : Allow := (s.die d).allow.get dest {}
def State.setAllow (s : State) (d dest : Nat) (a : Allow) : State :=
  s.modDie d fun x => { x with allow := x.allow.set dest a }

/-- The allowance of a record. -/
def Allow.value (a : Allow) : Nat := min 255 (a.w - a.o)

/-- Whether a destination is closed (R331): its allowance is 0 and its route state is routed. -/
def State.isClosed (s : State) (d dest : Nat) : Bool :=
  decide (dest ≠ s.rank) && s.routed dest && decide ((s.allowOf d dest).value = 0)

/-- One line more, or one less, is outstanding; O never falls below 0 (R329). -/
def State.raiseO (s : State) (d dest : Nat) : State :=
  let a := s.allowOf d dest
  s.setAllow d dest { a with o := a.o + 1 }
def State.lowerO (s : State) (d dest : Nat) : State :=
  let a := s.allowOf d dest
  s.setAllow d dest { a with o := a.o - 1 }

/-- An acknowledgement's effect on the record (R330); `since` follows the time the window has stayed at 1 (R422). -/
def State.ackAllow (s : State) (d dest : Nat) (mark : Bool) : State :=
  let x := s.allowOf d dest
  let x : Allow := { x with o := x.o - 1, a := x.a + 1 }
  let x : Allow :=
    if mark && !x.h then { x with w := max 1 (x.w / 2), a := 0, h := true }
    else if x.w ≤ x.a then { (if x.h then { x with h := false } else { x with w := min 256 (x.w + 1) }) with a := 0 }
    else x
  let x : Allow := if x.w = 1 then { x with since := some (x.since.getD s.now) }
    else if 16 ≤ x.w then { x with since := none, told := false } else { x with since := none }
  s.setAllow d dest x

/-! ## Packets (R326, R334) -/

/-- The unacknowledged write and atomic packets of a die to a destination. -/
def State.unacked (s : State) (d dest : Nat) : List Packet :=
  s.packets.filter fun p => decide (p.die = d ∧ p.dest = dest) && !p.isLoad

/-- Whether a load of the die to a packet's line is unanswered: the die holds a write or atomic to it meanwhile (R326). -/
def State.loadOut (s : State) (p : Packet) : Bool :=
  s.packets.any fun q => q.isLoad && decide (q.die = p.die ∧ q.dest = p.dest ∧ q.line = p.line)

/-- Whether a write or no-return atomic of the die to a line is unacknowledged or waits at the egress: a core holds a load
or returning atomic to the line meanwhile (R326), unless the packet itself goes after that one. -/
def State.writeOut (s : State) (d dest line id : Nat) : Bool :=
  ((s.packets.filter fun p => decide (p.die = d)) ++ ((s.die d).egress)).any fun p =>
    decide (p.dest = dest ∧ p.line = line) && !p.isLoad && !p.returns && !p.restart && !p.after.contains id

/-- The accesses that left a lane before one; they stand in the order in which they did. -/
def State.leftBefore (s : State) (id : Nat) : List Access := s.inflight.takeWhile fun x => decide (x.id ≠ id)

/-- Whether an access names a line of another destination. -/
def Access.onLine (a : Access) (dest line : Nat) : Bool :=
  match a.loc with
  | .remote d o => decide (d = dest ∧ o / 256 = line)
  | _ => false

/-- Whether an access of the core to a line that left its lane before another is still to be sent, waits in the hod as an
atomic, or is an unanswered returning atomic: the core's accesses to one location are performed in the order in which they
left its lanes (R156, R163). -/
def State.atomOut (s : State) (core dest line id : Nat) : Bool :=
  let old := s.leftBefore id
  (old.any fun a => decide (a.core = core ∧ a.st = .left) && a.onLine dest line) ||
    ((s.core core).hod.any fun e => decide (e.dest = dest ∧ e.line = line) && e.atom.isSome && e.accs.any fun k => old.any fun a => decide (a.id = k)) ||
    (s.packets ++ (s.die (coreDie core)).egress).any fun p =>
      p.returns && decide (p.dest = dest ∧ p.line = line) && p.accs.any fun k => old.any fun a => decide (a.id = k ∧ a.core = core)

/-- The loads and returning atomics of a die to a line that have left their lanes and are still to be sent; for an atomic,
those that left before it. -/
def State.unsentReads (s : State) (d dest line : Nat) (atom : Option Nat) : List Nat :=
  let l := match atom with | some id => s.leftBefore id | none => s.inflight
  (l.filter fun a => decide (coreDie a.core = d ∧ a.st = .left) && a.onLine dest line).map Access.id

/-! ## Ports (R325, R326) -/

/-- The primary port of a route entry, whether traffic uses the alternate one, and the port it uses. -/
def routePort (e : BitVec 16) : Nat := e.toNat % 32
def routeAlt (e : BitVec 16) : Bool := e.getLsbD 13
def routeVia (e : BitVec 16) : Nat := if routeAlt e then e.toNat / 2 ^ 8 % 32 else routePort e

/-- The port that a destination's first copies take. -/
def State.portTo (s : State) (dest : Nat) : Nat := routeVia (s.routes.get dest 0)

/-- Whether the die has no packet to a destination outstanding on another port: first copies move to a new port only
then (R326). -/
def State.pathClear (s : State) (d dest : Nat) : Bool :=
  !s.packets.any fun p => decide (p.die = d ∧ p.dest = dest ∧ p.port ≠ s.portTo dest)

/-- The sequence number of the latest earlier unacknowledged packet to a line. -/
def predOf (ps : List Packet) (line : Nat) : Option Nat :=
  (ps.reverse.find? fun p => decide (p.line = line)).map Packet.seq

/-- Whether a packet at the egress may be sent now: fewer than 256 are unacknowledged, no load of its line is
unanswered, what left the lanes before it is sent, no packet is outstanding on another port, and the destination has
acknowledged a restart of the numbering (R156, R326, R334, R423). -/
def State.maySend (s : State) (p : Packet) : Bool :=
  decide ((s.unacked p.die p.dest).length < 256) && !s.loadOut p && s.pathClear p.die p.dest &&
    !(s.inflight.any fun a => decide (a.st = .left) && p.after.contains a.id) &&
    !s.packets.any fun q => decide (q.die = p.die ∧ q.dest = p.dest) && q.restart

/-- The packets of the egress that can be sent, in order, are numbered and sent; a destination's later packets wait
behind its first that cannot (R334). -/
def State.pump (s : State) (d : Nat) : State :=
  go (s.die d).egress [] s
where
  /-- `stuck` holds the destinations whose first packet waits. -/
  go : List Packet → List Nat → State → State
    | [], _, s => s
    | p :: r, stuck, s =>
      if stuck.contains p.dest || !s.maySend p then go r (p.dest :: stuck) s
      else
        let n := (s.die d).nextSeq.get p.dest 1
        let p' := { p with seq := n, pred := predOf (s.unacked d p.dest) p.line, port := s.portTo p.dest, first := s.time, last := s.time }
        let s := s.modDie d fun x =>
          { x with nextSeq := x.nextSeq.set p.dest ((n + 1) % 65536), egress := x.egress.erase p }
        go r stuck { s with packets := s.packets ++ [p'] }

/-- A write or atomic packet reaches the egress; an atomic names its access. -/
def State.sendWrite (s : State) (p : Packet) : State :=
  let p := { p with after := s.unsentReads p.die p.dest p.line (if p.atomic then p.accs.head? else none) }
  (s.modDie p.die fun x => { x with egress := x.egress ++ [p] }).pump p.die

/-- A load packet is sent. -/
def State.sendLoad (s : State) (d dest line acc : Nat) : State :=
  { s with packets := s.packets ++
      [{ die := d, dest := dest, seq := 0, pred := none, line := line, isLoad := true, accs := [acc], port := s.portTo dest, first := s.time, last := s.time }] }

/-! ## The hod (R165, R328) -/

/-- The entry of a destination and line that takes stores, if there is one. -/
def Core.hodFor (c : Core) (dest line : Nat) : Option HodEntry :=
  c.hod.find? fun e => decide (e.dest = dest ∧ e.line = line) && e.atom.isNone

/-- Bytes merged over written bytes: the later write wins. -/
def mergeBytes (old new : List (Nat × Byte)) : List (Nat × Byte) :=
  old.filter (fun o => !new.any fun n => decide (n.1 = o.1)) ++ new

/-- The bits `v` under a mask over old bits. -/
def maskOver (m old v : Byte) : Byte := (old &&& ~~~m) ||| (v &&& m)

/-- Written bits merged over written bits: the store that left the lane later wins (R165). -/
def mergeBits (old new : List (Nat × Byte × Byte)) : List (Nat × Byte × Byte) :=
  new.foldl (fun l n =>
    if l.any fun o => decide (o.1 = n.1) then
      l.map fun o => if o.1 = n.1 then (o.1, o.2.1 ||| n.2.1, maskOver n.2.1 o.2.2 n.2.2) else o
    else l ++ [n]) old

/-- Written bits over the bytes that stand there. -/
def overBits (line : List Byte) (bits : List (Nat × Byte × Byte)) : List Byte :=
  line.zipIdx.map fun p => (bits.filter fun b => decide (b.1 = p.2)).foldl (fun x b => maskOver b.2.1 x b.2.2) p.1

/-- Whole bytes as written bits. -/
def wholeBits (l : List (Nat × Byte)) : List (Nat × Byte × Byte) := l.map fun b => (b.1, 0xFF, b.2)

/-- One entry drains as one write of its written bytes, or as its atomic. -/
def State.drainOne (s : State) (core : Nat) (e : HodEntry) : State :=
  let s := s.modCore core fun c => { c with hod := c.hod.filter fun x => decide (x.id ≠ e.id) }
  s.sendWrite { die := coreDie core, dest := e.dest, seq := 0, pred := none, line := e.line, atomic := e.atom.isSome
                accs := e.accs, hod := some (core, e.id), bytes := e.bytes }

/-- An entry drains, after the older entries of its line: one location's accesses keep their issue order (R156). -/
def State.drain (s : State) (core id : Nat) : State :=
  match (s.core core).hod.find? (fun e => decide (e.id = id)) with
  | none => s
  | some e =>
    (((s.core core).hod.filter fun x => decide (x.dest = e.dest ∧ x.line = e.line ∧ x.id ≤ id))).foldl
      (fun s x => s.drainOne core x) s

/-- Every entry of a line drains, the older first (R163, R261). -/
def State.drainLine (s : State) (core dest line : Nat) : State :=
  ((s.core core).hod.filter fun x => decide (x.dest = dest ∧ x.line = line)).foldl (fun s x => s.drainOne core x) s

/-- A free entry is made where all 32 are in use: the oldest drains. -/
def State.roomInHod (s : State) (core : Nat) : State :=
  if (s.core core).hod.length < 32 then s
  else match (s.core core).hod with
    | e :: _ => s.drain core e.id
    | [] => s

/-- A new entry; it counts in the destination's outstanding lines from its allocation. (log 72: DESIGN CHOICE, safe.) -/
def State.allocHod (s : State) (core dest line : Nat) (bytes : List (Nat × Byte × Byte)) (atom : Option Nat) (acc : List Nat) : State :=
  let s := s.roomInHod core
  let n := s.newId
  (n.2.modCore core fun c => { c with hod := c.hod ++
      [{ id := n.1, dest := dest, line := line, bytes := bytes, atom := atom, accs := acc, born := s.now }] }).raiseO (coreDie core) dest

/-- A store of some bits of the bytes from an offset merges into its line's entry or takes a new one; an entry that fills
its line is due. A control core has no hod: its stores are packets at once (R328). -/
def State.hodStore (s : State) (core dest off : Nat) (bits : List (Byte × Byte)) (acc : List Nat) : State :=
  let line := off / 256
  let new := bits.zipIdx.map fun b => (off % 256 + b.2, b.1)
  if isCtl core then
    (s.raiseO (coreDie core) dest).sendWrite
      { die := coreDie core, dest := dest, seq := 0, pred := none, line := line, accs := acc, bytes := new }
  else
    match (s.core core).hodFor dest line with
    | some e =>
      let b := mergeBits e.bytes new
      let full := decide (b.length = 256) && b.all fun x => decide (x.2.1 = 0xFF)
      s.modCore core fun c => { c with hod := c.hod.map fun x =>
        if x.id = e.id then { x with bytes := b, accs := x.accs ++ acc, due := x.due || full } else x }
    | none => s.allocHod core dest line new none acc

/-- A no-return atomic to a remote line takes an entry of its own; the stores of its line drain first (R163). -/
def State.hodAtom (s : State) (core dest off : Nat) (acc : Nat) : State :=
  let line := off / 256
  if isCtl core then
    (s.raiseO (coreDie core) dest).sendWrite
      { die := coreDie core, dest := dest, seq := 0, pred := none, line := line, atomic := true, accs := [acc] }
  else
    let s := match (s.core core).hodFor dest line with
      | some e => s.drain core e.id
      | none => s
    s.allocHod core dest line [] (some acc) [acc]

/-- The bits of `n` bytes of a remote location that the hod holds, by offset from the first (R165). -/
def Core.hodBits (c : Core) (dest off n : Nat) : List (Nat × Byte × Byte) :=
  match c.hodFor dest (off / 256) with
  | some e => e.bytes.filterMap fun b => if off % 256 ≤ b.1 ∧ b.1 < off % 256 + n then some (b.1 - off % 256, b.2) else none
  | none => []

end Sys2Proof.Machine
end

