-- ==== Sys2Proof/Machine/Access.lean ====
section
/-! DEFINITION. Accesses between the lane and their homes: leaving the lane, the lane load cache, the home slices and
banks, stamps, and results returning (R139, R142 to R145, R155 to R165, R249 to R257, R409 to R413). -/

namespace Sys2Proof.Machine

/-! ## Widths and values (R247, R249, R254) -/

/-- The size of an access in bytes by its width code. -/
def accSize (w : BitVec 3) : Nat := if w = 6 then 16 else if w = 5 then 8 else if w = 4 then 4 else if w = 2 ∨ w = 3 then 2 else 1

/-- What a register receives (R249). -/
def extendAs (w : BitVec 3) (nib : Bool) (raw : Nat) : Word :=
  if w = 0 then BitVec.ofNat 64 (raw % 2 ^ 8)
  else if w = 1 then (BitVec.ofNat 8 raw).signExtend 64
  else if w = 2 then BitVec.ofNat 64 (raw % 2 ^ 16)
  else if w = 3 then (BitVec.ofNat 16 raw).signExtend 64
  else if w = 4 then BitVec.ofNat 64 (raw % 2 ^ 32)
  else if w = 7 then BitVec.ofNat 64 (if nib then raw / 16 % 16 else raw % 16)
  else BitVec.ofNat 64 raw

/-- The format of `atom.fadd` by its width code (R254). -/
def faddFmt (w : BitVec 3) : FpFmt := if w = 4 then f32 else if w = 2 then f16 else bf16

/-- The value an atomic writes, from the old value and its operands at the width (R254 to R256). -/
def atomNew (op : AtomOp) (w : BitVec 3) (old x cmp : Nat) : Nat :=
  let n := 8 * accSize w
  let m := 2 ^ n
  let old := old % m
  let x := x % m
  let signed := w ≠ 0 ∧ w ≠ 2
  let v := fun y : Nat => if signed then (BitVec.ofNat n y).toInt else (y : Int)
  match op with
  | .add => (old + x) % m
  | .fadd => (faddFmt w).round 0 false (((faddFmt w).decode old).add 0 ((faddFmt w).decode x))
  | .min => if v x < v old then x else old
  | .max => if v old < v x then x else old
  | .and => old &&& x
  | .or => old ||| x
  | .xor => old ^^^ x
  | .exch => x
  | .cas => if old = cmp % m then x else old

/-- The bits of each byte that a store writes, as mask and values: a nibble store writes half of its byte (R251). -/
def storeBits (w : BitVec 3) (nib : Bool) (size data : Nat) : List (Byte × Byte) :=
  if w = 7 then
    [if nib then (0xF0, BitVec.ofNat 8 (16 * (data % 16))) else (0x0F, BitVec.ofNat 8 (data % 16))]
  else (leBytes size data).map fun b => (0xFF, b)

/-- The bytes a store leaves where `old` stood: a nibble store keeps the other nibble (R251). -/
def storeBytes (w : BitVec 3) (nib : Bool) (size data : Nat) (old : List Byte) : List Byte :=
  if w = 7 then
    let b := (old.headD 0).toNat
    [BitVec.ofNat 8 (if nib then b % 16 + 16 * (data % 16) else b / 16 * 16 + data % 16)]
  else leBytes size data

/-! ## Places -/

/-- Whether two byte ranges of homes overlap. -/
def Loc.overlaps (x : Loc) (n : Nat) (y : Loc) (m : Nat) : Bool :=
  let r := fun a b : Nat => decide (a < b + m ∧ b < a + n)
  match x, y with
  | .pool k a, .pool j b => decide (k = j) && r a b
  | .hbm d a, .hbm e b => decide (d = e) && r a b
  | .scratch d a, .scratch e b => decide (d = e) && r a b
  | .remote d a, .remote e b => decide (d = e) && r a b
  | _, _ => false

/-! ## The lane load cache (R139) -/

/-- The number of sets of a core's lane load cache, 4 lines each. -/
def lcSets (core : Nat) : Nat := if isCtl core then 32 else 256

/-- The cached line that holds a byte. -/
def Core.lcLine (c : Core) (x : Loc) : Option LcLine := c.lcache.find? fun l => decide (l.loc = x.align 64)

/-- The loads of a core that are on their way to another destination bring no line for the lane load cache (R157). -/
def State.staleLoads (s : State) (core : Nat) (which : Access → Bool) : State :=
  { s with inflight := s.inflight.map fun a => if a.core = core ∧ a.loc.isRemote = true ∧ which a = true then { a with stale := true } else a }

/-- The lane load cache is emptied, and what is on its way to it with it. -/
def State.invalLane (s : State) (core : Nat) : State :=
  (s.staleLoads core fun _ => true).modCore core fun c => { c with lcache := [] }

/-- A line is removed. -/
def State.invalLine (s : State) (core : Nat) (x : Loc) : State :=
  s.modCore core fun c => { c with lcache := c.lcache.filter fun l => decide (l.loc ≠ x.align 64) }

/-- Bytes written over part of a line. -/
def patch (line : List Byte) (at_ : Nat) (bs : List Byte) : List Byte :=
  line.take at_ ++ bs ++ line.drop (at_ + bs.length)

/-- A store of the core updates a matching line (R139). -/
def State.updateLine (s : State) (core : Nat) (x : Loc) (f : List Byte → List Byte) (n : Nat) : State :=
  let g := fun l : LcLine =>
    if l.loc = x.align 64 then { l with bytes := patch l.bytes (x.off % 64) (f ((l.bytes.drop (x.off % 64)).take n)) } else l
  s.modCore core fun c => { c with lcache := c.lcache.map g }

/-- A line read at its home, with the core's own stores that have left the lane and are not yet performed (R157). -/
def State.lineFor (s : State) (core : Nat) (x : Loc) : List Byte :=
  let base := x.align 64
  (s.inflight.filter fun a => decide (a.core = core ∧ a.st = .left)).foldl (fun line a =>
    match a.kind with
    | .store _ =>
      if a.loc.align 64 = base then
        patch line (a.loc.off % 64) (storeBytes a.w a.nib a.size a.data.toNat ((line.drop (a.loc.off % 64)).take a.size))
      else line
    | _ => line) (s.locRead base 64)

/-- Whether an atomic of the core to a line has left the lane and is not yet performed: the line is not cached meanwhile
(R139, R157). -/
def State.atomicLeft (s : State) (core : Nat) (x : Loc) : Bool :=
  s.inflight.any fun a => decide (a.core = core ∧ a.loc.align 64 = x.align 64) &&
    (match a.kind, a.st with | .atom _ _, .left => true | .atom _ _, .sent => true | _, _ => false)

/-- A line is put in the lane load cache with its 64 bytes. (log 71: DESIGN CHOICE, unsafe.) -/
def State.putLine (s : State) (core : Nat) (x : Loc) (bytes : List Byte) : State :=
  let n := lcSets core
  let base := x.align 64
  let line : LcLine := { loc := base, bytes := bytes }
  let all := (s.core core).lcache.filter fun l => decide (l.loc ≠ base)
  let inSet := fun l : LcLine => decide (lineKey l.loc / 4 % n = lineKey base / 4 % n)
  let r := s.makeRoom (all.filter inSet) 4
  r.2.modCore core fun c => { c with lcache := all.filter (fun l => !inSet l) ++ r.1 ++ [line] }

/-- The line of a home of the module is put in the lane load cache; one that holds an uncorrectable word is not (R410). -/
def State.fillLine (s : State) (core : Nat) (x : Loc) : State :=
  if s.badWords.any fun w => decide (w.align 64 = x.align 64) then s else s.putLine core x (s.lineFor core x)

/-! ## Home slices (R141 to R144, R164) -/

/-- Whether the home must fill the sector from HBM first (R142). -/
def State.needsFill (s : State) (a : Access) : Bool :=
  match a.loc with
  | .hbm d _ =>
    let m := (s.line? d a.loc.lineNo).getD { die := d, line := 0 }
    let valid := m.valid.getLsbD (sectorOf a.loc)
    match a.kind with
    | .load _ => !valid
    | .atom _ _ => !valid
    | .store _ => decide (a.size < 4) && !valid && decide (m.mask &&& wordMask a.loc a.size = 0)
    | .cop _ => false
  | _ => false

/-- A miss of a sector that is being filled joins its entry, one of a line whose fill began within the last 16 cycles, or
still waits to begin, joins that; any other takes a free one of the slice's 64 entries, or waits for one (R144). -/
def State.missFor (s : State) (x : Loc) : State :=
  let d := x.dieOf
  let line := x.lineNo
  let bit : BitVec 4 := 1#4 <<< sectorOf x
  let mine := fun m : Miss => decide (m.die = d ∧ m.line = line)
  let young := fun m : Miss => mine m && (m.waits || decide (s.now ≤ m.born + 16))
  if s.misses.any (fun m => mine m && m.sectors.getLsbD (sectorOf x)) then s
  else if s.misses.any young then
    { s with misses := s.misses.map fun m => if young m then { m with sectors := m.sectors ||| bit } else m }
  else
    let used := (s.misses.filter fun m => decide (m.die = d ∧ lineSlice m.line = lineSlice line) && !m.waits).length
    { s with misses := s.misses ++ [{ die := d, line := line, sectors := bit, born := s.now, waits := decide (64 ≤ used) }] }

/-! ## Errors (R409 to R413) -/

/-- The 8-byte words that a range touches. -/
def wordsOf (x : Loc) (n : Nat) : List Loc :=
  (List.range ((x.off % 8 + n + 7) / 8)).map fun i => (x.align 8).plus (8 * i)

/-- The die of a storage. -/
def Loc.storeDie : Loc → Nat
  | .pool k _ => coreDie k
  | x => x.dieOf

/-- The unit kind of a home's own storage (R412): a pool, a slice's data, which holds die scratch, or HBM. -/
def Loc.ownUnit : Loc → Nat
  | .pool _ _ => 0
  | .scratch _ _ => 1
  | _ => 3

/-- The unit kind of the storage from which a read of a word at a home takes it: HBM lines are read at their slice once it
holds their sector, or the word as written (R142). -/
def State.heldUnit (s : State) (x : Loc) : Nat :=
  match x with
  | .hbm d _ => match s.line? d x.lineNo with
    | some l => if l.valid.getLsbD (sectorOf x) || decide (l.mask &&& wordMask x 8 ≠ 0) then 1 else 3
    | none => 3
  | _ => x.ownUnit

/-- Whether HBM holds a word as its slice does: its sector is clean (R409). -/
def State.cleanAt (s : State) (x : Loc) : Bool :=
  match x with
  | .hbm d _ => ((s.line? d x.lineNo).map fun l => !l.dirty.getLsbD (sectorOf x)).getD true
  | _ => false

/-- The unit kind in which an uncorrectable word stands. -/
def State.unitOf (s : State) (x : Loc) : Nat := ((s.badUnit.find? fun p => decide (p.1 = x)).map Prod.snd).getD x.ownUnit

/-- The bank, the slice, or the vault and channel of a word, for its error record (R412). -/
def errorIndex (kind : Nat) (x : Loc) : Nat :=
  if kind = 0 then x.off / 8 % 512
  else if kind = 1 ∨ kind = 2 then lineSlice x.lineNo
  else 2 * (x.off / 2 ^ 32 % 32) + x.off / 2 ^ 31 % 2

/-- A word is found to hold an uncorrectable error, in a unit of some kind. -/
def State.markBad (s : State) (x : Loc) (kind : Nat) : State :=
  if s.badWords.contains x then s
  else
    { s with badWords := s.badWords ++ [x]
             badUnit := (s.badUnit.filter fun p => decide (p.1 ≠ x)) ++ (if kind = x.ownUnit then [] else [(x, kind)]) }

/-- An error counter of a die, one higher, saturating (R413); the count is in the trap control block. -/
def State.countError (s : State) (d kind : Nat) (uncorrectable : Bool) : Nat × State :=
  let at_ := trapBase d + 0x8000 + 16 * kind + (if uncorrectable then 8 else 0)
  let n := min (s.physNat at_ 8 + 1) (2 ^ 64 - 1)
  (n, s.physStore at_ (leBytes 8 n))

/-- An error in a unit of a die is counted and recorded (R412); a corrected error writes a record for the first of its unit and
then at each multiple of the threshold. `who` is the consumer: its core and task. -/
def State.errorRecord (s : State) (d kind index : Nat) (detail : Word) (status : Nat) (who : Option (Nat × Task)) : State :=
  let r := s.countError d kind (decide (status ≠ 0))
  let s := r.2
  if status = 0 ∧ r.1 ≠ 1 ∧ r.1 % s.plat.errThreshold ≠ 0 then s
  else
    let i := kind * 2 ^ 24 + index
    match who with
    | some (k, tk) => s.postEvent (coreCluster k) (s.event tk.ref.graph tk.ref.node status 0x0E d (coreIn k) i detail)
    | none => s.postEvent (4 * d) (s.event 0 0xFFFF status 0x0E d 0xFF i detail)

/-- An error in a word, met in a unit of some kind. (log 79: DESIGN CHOICE, unsafe.) -/
def State.errorAt (s : State) (kind : Nat) (x : Loc) (status : Nat) (who : Option (Nat × Task)) : State :=
  s.errorRecord x.storeDie kind (errorIndex kind x) (BitVec.ofNat 64 x.phys) status who

/-- An error in an uncorrectable word. -/
def State.errorEvent (s : State) (x : Loc) (status : Nat) (who : Option (Nat × Task)) : State := s.errorAt (s.unitOf x) x status who

/-- An error in a unit that the spec gives no numbers or addresses of words: the record's index and detail are open.
(log 147: DESIGN CHOICE, safe.) -/
def State.errorIn (s : State) (d kind status : Nat) (who : Option (Nat × Task)) : State :=
  let n := s.fresh
  let k := n.2.fresh
  k.2.errorRecord d kind (n.1 % 2 ^ 24) (BitVec.ofNat 64 k.1) status who

/-- A read meets a new error in the word at a home (R409): it is corrected and counted, a clean sector of a slice is filled
again from HBM and counted as corrected, and any other word is uncorrectable from then on. -/
def State.wordError (s : State) (x : Loc) (fixed : Bool) (who : Option (Nat × Task)) : State :=
  let k := s.heldUnit x
  if s.badWords.contains x then s
  else if fixed || (decide (k = 1) && s.cleanAt x) then s.errorAt k x 0 who
  else s.markBad x k

/-- An access to a line meets an error in its tag at the slice (R409): corrected, or the whole line is lost, which is filled
again if it is clean, and is uncorrectable on every later access if it is not. (log 148: DESIGN CHOICE, unsafe.) -/
def State.tagError (s : State) (x : Loc) (fixed : Bool) (who : Option (Nat × Task)) : State :=
  let lost := fun s : State => (List.range 32).foldl (fun s i => s.markBad ((x.align 256).plus (8 * i)) 2) s
  match x with
  | .hbm d _ => match s.line? d x.lineNo with
    | some l =>
      if fixed then s.errorAt 2 (x.align 8) 0 who
      else if l.dirty = 0 then (s.evictLine l).errorAt 2 (x.align 8) 0 who
      else lost s
    | none => s
  | .scratch _ _ => if fixed then s.errorAt 2 (x.align 8) 0 who else lost s
  | _ => s

/-- The word among some that stands at a local physical address. -/
def wordAt (ws : List Loc) (pa : Nat) : Option Loc := ws.find? fun x => decide (x.phys = pa)

/-- The first uncorrectable word of a range. -/
def State.badIn (s : State) (x : Loc) (n : Nat) : Option Loc :=
  if s.badWords.isEmpty then none else (wordsOf x n).find? s.badWords.contains

/-- The words of which every byte was written are good again (R410). -/
def State.repair (s : State) (ps : List (Loc × Nat)) : State :=
  { s with badWords := s.badWords.filter fun w => !(List.range 8).all fun i => ps.any fun p => (w.plus i).overlaps 1 p.1 p.2 }

/-- The consumer of an access, while its task is resident. -/
def State.consumer (s : State) (a : Access) : Option (Nat × Task) :=
  ((s.course? a.core a.course).bind fun c => s.task? a.core c.task).map fun t => (a.core, t)

/-! ## Where a store has no effect -/

/-- Whether a physical address lies in a die's error counters or its system status word, to which writes are ignored
(R413, R415, R421). -/
def isCounter (p : Nat) : Bool :=
  (List.range 4).any fun d => decide ((trapBase d + 0x8000 ≤ p ∧ p < trapBase d + 0x8090) ∨ (trapBase d + 0x9000 ≤ p ∧ p < trapBase d + 0x9008))

/-- Bytes written at a home by a store, an engine or the host. -/
def State.homeWrite (s : State) (x : Loc) (bs : List Byte) : State :=
  match x with
  | .hbm _ _ => if isCounter x.phys then s else s.locWrite x bs
  | _ => s.locWrite x bs

/-! ## Waits (R155, R160) -/

/-- Whether an access awaited is visible at a scope, or has returned; scope 8 asks that it has returned or been
acknowledged. -/
def State.visible (s : State) (w : Await) : Bool :=
  match s.inflight.find? (fun a => decide (a.id = w.id)) with
  | none => true
  | some a =>
    match a.kind, a.st with
    | .load _, _ => false
    | _, .held => false
    | .atom _ false, .performed => decide (w.scope < 8)
    | .atom _ false, _ => decide (w.scope ≤ 2) || (a.loc.isRemote && decide (w.scope < 7))
    | _, _ => decide (w.scope ≤ 2) || (a.loc.isRemote && decide (w.scope < 7))

/-- Whether all are. -/
def State.allVisible (s : State) (ws : List Await) : Bool := ws.all s.visible

/-! ## Leaving the lane -/

def State.setAccess (s : State) (a : Access) : State :=
  { s with inflight := s.inflight.map fun x => if x.id = a.id then a else x }
def State.dropAccess (s : State) (id : Nat) : State :=
  { s with inflight := s.inflight.filter fun x => decide (x.id ≠ id) }
def State.access? (s : State) (id : Nat) : Option Access := s.inflight.find? fun x => decide (x.id = id)

/-- A course is marked with a destination that was lost (R422). -/
def Course.markLost (c : Course) (dest : Nat) : Course :=
  if c.lostDests.contains dest then c else { c with lostDests := c.lostDests ++ [dest] }

/-- A lost destination in `fstat`: the first one's id, and whether there was another (R55). -/
def noteLost (f d : Nat) : Nat := if !f.testBit 11 then f ||| 2 ^ 11 ||| d else if f % 2 ^ 9 = d then f else f ||| 2 ^ 10

/-- The lost destinations that a course is marked with are recorded in `fstat` (R55, R422). -/
def Course.recordLost (c : Course) : Course :=
  { c with fstat := BitVec.ofNat 64 (c.lostDests.foldl noteLost c.fstat.toNat), lostDests := [] }

/-- Whether a thread of a course waits for an access in a fence or phase, or with what a release fence or release store of
it still holds back (R160, R161). `waits` tells which awaits are not yet over. -/
def Course.waitsFor (c : Course) (waits : Await → Bool) : Bool :=
  c.threads.any fun t => t.relAfter.any waits || match t.wait with
    | .fence _ ws _ _ _ _ => ws.any waits
    | _ => false

/-- What the loss of an access's destination does to a course of its core: the waits that it ends record it at once, and the
loss of a store or no-return atomic is marked for the next fence or phase of its own course (R162, R422). -/
def Course.lose (c : Course) (own posted : Bool) (waits : Await → Bool) (dest : Nat) : Course :=
  if c.waitsFor waits then { c with fstat := BitVec.ofNat 64 (noteLost c.fstat.toNat dest) }
  else if own && posted then c.markLost dest
  else c

/-- An access to a lost destination is over, and so are the waits for it (R162, R422). -/
def State.discardLost (s : State) (a : Access) (dest : Nat) : State :=
  let waits := fun w : Await => decide (w.id = a.id) && !s.visible w
  (s.modCore a.core fun k =>
    { k with courses := k.courses.map fun p => (p.1, p.2.lose (decide (p.1 = a.course)) (!a.kind.returns) waits dest) }).dropAccess a.id

/-- Whether the lane load cache may serve and keep a load (R139, R275): not the own pool, not a tile through a `ds` handle,
not acquire loads, not code. -/
def Access.cacheable (a : Access) : Bool :=
  match a.kind with
  | .load acq => !acq && !a.code && !a.tile && a.loc.window.isNone && (match a.loc with | .pool k _ => decide (k ≠ a.core) | _ => true)
  | _ => false

/-- Whether an access is the high half of a 128-bit one whose low half has not been performed (R253). -/
def State.lowHalfOut (s : State) (a : Access) : Bool :=
  (s.inflight.takeWhile fun x => decide (x.id ≠ a.id)).any fun x =>
    decide (x.core = a.core ∧ x.course = a.course ∧ x.slot = a.slot ∧ x.ord = a.ord ∧ x.loc.plus 8 = a.loc) &&
      !x.code && decide (x.st = .left ∨ x.st = .sent)

/-- A remote load or returning atomic is sent once no write or no-return atomic of the die to its line is unacknowledged,
and no older atomic of the core to it is on its way (R156, R163, R326). -/
def State.sendRemote (s : State) (a : Access) : State :=
  let die := coreDie a.core
  let wait := fun d o : Nat => s.writeOut die d (o / 256) a.id || s.atomOut a.core d (o / 256) a.id || s.lowHalfOut a
  match a.kind, a.loc with
  | .load _, .remote d o =>
    if wait d o || !s.pathClear die d then s
    else (s.setAccess { a with st := .sent }).sendLoad die d (o / 256) a.id
  | .atom _ false, .remote d o =>
    if wait d o then s
    else (s.setAccess { a with st := .sent }).sendWrite
      { die := die, dest := d, seq := 0, pred := none, line := o / 256, atomic := true, returns := true, accs := [a.id] }
  | _, _ => s

/-- Whether written bits hold every bit that a load reads. -/
def Access.coveredBy (a : Access) (bits : List (Nat × Byte × Byte)) : Bool :=
  let need : Byte := if a.w = 7 then (if a.nib then 0xF0 else 0x0F) else 0xFF
  (List.range a.size).all fun i => bits.any fun b => decide (b.1 = i ∧ b.2.1 &&& need = need)

/-- What a load finds of its bytes in a cached line. -/
def LcLine.get (l : LcLine) (x : Loc) (n : Nat) : List Byte := (l.bytes.drop (x.off % 64)).take n

/-- A load has its value. -/
def State.loadDone (s : State) (a : Access) (bs : List Byte) : State :=
  s.setAccess { a with st := .performed, val := BitVec.ofNat 128 (leNat bs) }

/-- Whether an earlier load of the core to the same bytes has not returned what it reads at its home: a line kept from
before it is no answer to a later load, since reads never go backwards (R157). -/
def State.readOut (s : State) (a : Access) : Bool :=
  (s.leftBefore a.id).any fun x =>
    decide (x.core = a.core) && x.loc.overlaps x.size a.loc a.size &&
      (match x.kind with | .load acq => acq || decide (x.st = .left ∨ x.st = .sent) | _ => false)

/-- A load leaves the lane: the hod serves a plain one, or the lane load cache with the hod's bits over its line; else it goes
to its home (R139, R157, R165, R250). -/
def State.leaveLoad (s : State) (a : Access) : State :=
  let hit := if a.cacheable && !s.readOut a then (s.core a.core).lcLine a.loc else none
  match a.loc with
  | .remote d o =>
    let bits := if a.code then [] else (s.core a.core).hodBits d o a.size
    if a.coveredBy bits && decide (a.kind = .load false) then s.loadDone a (overBits (List.replicate a.size 0) bits)
    else match hit with
      | some l => s.loadDone a (overBits (l.get a.loc a.size) bits)
      | none => (s.setAccess { a with hod := bits }).sendRemote { a with hod := bits }
  | _ =>
    match hit with
    | some l => s.loadDone a (l.get a.loc a.size)
    | none => s

/-- The hod entry of a store or atomic that a fence, a phase or a release already waits for, as they do at scope `pod` alone,
drains at once (R160, R165). -/
def State.drainAwaited (s : State) (a : Access) : State :=
  if (s.core a.core).courses.any fun c => c.2.waitsFor fun w => decide (w.id = a.id) && !s.visible w then s.dueFor a.core [a.id] else s

/-- An access leaves the lane (R155, R165): it is the youngest of its core from then on. (log 70: DEDUCED, unsafe.) -/
def State.leave (s : State) (a0 : Access) : State :=
  let a := { a0 with st := .left }
  let s := (s.dropAccess a.id)
  let s := { s with inflight := s.inflight ++ [a] }
  let old := fun l : List Byte => storeBytes a.w a.nib a.size a.data.toNat l
  match a.kind, a.loc with
  | .store _, .remote d o =>
    let s := s.updateLine a.core a.loc old a.size
    if !s.routed d then s.discardLost a d
    else ((s.setAccess { a with st := .sent }).hodStore a.core d o (storeBits a.w a.nib a.size a.data.toNat) [a.id]).drainAwaited a
  | .store _, .pool k _ => if k = a.core then s else s.updateLine a.core a.loc old a.size
  | .store _, _ => s.updateLine a.core a.loc old a.size
  | .atom _ noRet, .remote d o =>
    let s := s.invalLine a.core a.loc
    if !s.routed d then s.discardLost a d
    else if noRet then ((s.setAccess { a with st := .sent }).hodAtom a.core d o a.id).drainAwaited a
    else ((s.drainLine a.core d (o / 256)).raiseO (coreDie a.core) d).sendRemote a
  | .atom _ _, .pool k _ => if k = a.core then s else s.invalLine a.core a.loc
  | .atom _ _, _ => s.invalLine a.core a.loc
  | .cop op, .remote d o =>
    if !s.routed d then s.discardLost a d
    else
      (((s.drainLine a.core d (o / 256)).setAccess { a with st := .sent }).raiseO (coreDie a.core) d).sendWrite
        { die := coreDie a.core, dest := d, seq := 0, pred := none, line := o / 256, cop := op, accs := [a.id] }
  | .cop _, _ => s
  | .load _, _ => s.leaveLoad a

/-- The held accesses that a new access of the course comes after: those to the same bytes, but for loads of other threads
and groups if it is a load too, and the other half of its own (R26, R156, R253). -/
def State.aheadOf (s : State) (a : Access) : List Await :=
  if a.code then []
  else (s.inflight.filter fun x => decide (x.core = a.core ∧ x.course = a.course ∧ x.st = .held) &&
      (decide (x.ord = a.ord ∧ x.slot = a.slot) ||
        ((decide (x.ord = a.ord ∨ x.slot = a.slot) || x.also.testBit a.slot || x.kind.writes || a.kind.writes) && x.loc.overlaps x.size a.loc a.size))).map
    fun x => { id := x.id, scope := 1 }

/-- A new access of a thread: it leaves the lane, or is held behind what it comes after (R160, R161). -/
def State.issueAccess (s : State) (a : Access) : State :=
  let after := (a.after ++ s.aheadOf a).filter fun w => !s.visible w
  if after.isEmpty then s.leave { a with after := [] }
  else { s with inflight := s.inflight ++ [{ a with st := .held, wasHeld := true, after := after }] }

/-- A held access leaves the lane once all it comes after is visible. -/
def State.releaseHeld (s : State) (id : Nat) : State :=
  match s.access? id with
  | some a => if a.st = .held ∧ s.allVisible a.after = true then s.leave { a with after := [] } else s
  | none => s

/-- Every held access of a course that may leave the lane does, in issue order. -/
def State.releaseCourse (s : State) (core course : Nat) : State :=
  ((s.inflight.filter fun a => decide (a.core = core ∧ a.course = course ∧ a.st = .held)).map Access.id).foldl
    State.releaseHeld s

/-! ## Performing at the home (R155, R156, R163) -/

/-- Whether an earlier access of the core to the same bytes, or the low half of its own, is still to be performed (R156,
R253). -/
def State.behind (s : State) (a : Access) : Bool :=
  s.lowHalfOut a || (s.inflight.takeWhile fun x => decide (x.id ≠ a.id)).any fun x =>
    decide (x.core = a.core ∧ x.st = .left) && x.loc.overlaps x.size a.loc a.size

/-- A write of action 1 or 2 to word 3 of the frame of a waiting course (R390). -/
def State.frameWritten (s : State) (x : Loc) (n : Nat) : State :=
  match x with
  | .hbm d _ =>
    let p := x.phys
    let base := trapBase d + 0x10000
    if base ≤ p ∧ p < base + 0x8800 * 16896 then
      let k := (p - base) / 0x8800
      let o := (p - base) % 0x8800
      if o ≤ 0x18 ∧ 0x18 < o + n then
        s.frameAction (132 * d + k / 128) (k % 128) (s.physNat (base + 0x8800 * k + 0x18) 1)
      else s
    else s
  | _ => s

/-- A posted access is discarded, and a course that still lives receives the fault (R410). -/
def State.discardBad (s : State) (a : Access) : State :=
  let s := s.dropAccess a.id
  match s.course? a.core a.course with
  | some c =>
    if c.allLive.isEmpty then s
    else s.defer a.core a.course { code := 0x70, faddr := a.va, ipc := a.ipc, tmask := 2 ^ a.slot, ord := a.ord }
  | none => s

/-- A read or read-modify-write finds an uncorrectable word: the consumer faults, and a posted access is discarded
(R410). -/
def State.accessBad (s : State) (a : Access) (w : Loc) : State :=
  match a.kind with
  | .load _ => (s.errorEvent w 1 (s.consumer a)).setAccess { a with st := .performed, bad := true }
  | .atom _ false => (s.errorEvent w 1 (s.consumer a)).setAccess { a with st := .performed, bad := true }
  | _ => (s.errorEvent w 3 (s.consumer a)).discardBad a

/-- A `cop` at its home slice (R142, R261): every dirty sector is filled and merged first, then written to HBM, and 2 then
removes the line. It takes no stamp. -/
def State.copAt (s : State) (x : Loc) (op : Nat) : State :=
  match x with
  | .hbm d _ =>
    match s.line? d x.lineNo with
    | some l => if op = 2 then s.evictLine l else s.setLine { l with valid := l.valid ||| l.dirty, dirty := 0 }
    | none => s
  | _ => s

/-- The effect of an access at its home. -/
def State.performAt (s : State) (a : Access) : State :=
  let old := s.locRead a.loc a.size
  match a.kind with
  | .load _ =>
    let s := s.setAccess { a with st := .performed, val := BitVec.ofNat 128 (leNat old) }
    if a.cacheable && !s.atomicLeft a.core a.loc then s.fillLine a.core a.loc else s
  | .store _ =>
    let bs := storeBytes a.w a.nib a.size a.data.toNat old
    let s := ((s.homeWrite a.loc bs).stamp a.loc).2
    let s := { s with badWords := s.badWords.filter fun b => !(decide (8 ≤ a.size) && (wordsOf a.loc a.size).contains b) }
    (((s.markWritten a.loc a.size).dropAccess a.id).frameWritten a.loc a.size)
  | .atom op noRet =>
    let v := atomNew op a.w (leNat old) a.data.toNat a.cmp.toNat
    let writes := !decide (op = .cas ∧ leNat old ≠ a.cmp.toNat % 2 ^ (8 * a.size))
    let s := if writes then s.homeWrite a.loc (leBytes a.size v) else s
    let r := s.stamp a.loc
    let s := (r.2.markWritten a.loc a.size)
    let s := match a.loc with
      | .pool k _ => if k = a.core then s else s.invalLine a.core a.loc
      | _ => s.invalLine a.core a.loc
    let s := if noRet then s.dropAccess a.id
      else s.setAccess { a with st := .performed, val := BitVec.ofNat 128 (leNat old), tag := r.1 }
    if writes then s.frameWritten a.loc a.size else s
  | .cop op => (s.dropAccess a.id).copAt a.loc op

/-- An access to a debug window reads or writes the register (R431); a store that sets an RZ bit leaves the register and
is the storing thread's trap 0x01, as a `csrw` is (R6), deferred as a condition outside an issue group. (log 137: DEDUCED, unsafe.) -/
def State.windowAccess (s : State) (a : Access) (core off : Nat) : State :=
  match a.kind with
  | .load _ => s.setAccess { a with st := .performed, val := (s.windowRead core off).setWidth 128 }
  | .store _ =>
    let v := a.data.setWidth 64
    if windowRz off v then
      (s.dropAccess a.id).defer a.core a.course { code := 0x01, ipc := a.ipc, tmask := 2 ^ a.slot, ord := a.ord }
    else (s.windowWrite core off v).dropAccess a.id
  | _ => s.dropAccess a.id

/-- Whether an access waits for a `cresize` in progress: to die scratch at or above the smaller size, or to a line in one
of the ways that change (R146). -/
def State.resizeWaits (s : State) (x : Loc) : Bool :=
  match (s.die x.dieOf).resize with
  | none => false
  | some w =>
    match x with
    | .scratch d o => decide (min w (s.die d).ways * 0x2000000 ≤ o)
    | .hbm d _ => match s.line? d x.lineNo with
      | some l => decide (s.cacheWays d ≤ l.way)
      | none => false
    | _ => false

/-- An access that a `cresize` left beyond the die scratch faults with 0x10 when it is performed (R145, R146). (log 77: DEDUCED, unsafe.) -/
def State.scratchGone (s : State) (a : Access) : Bool :=
  match a.loc with
  | .scratch d o => decide ((s.die d).ways * 0x2000000 ≤ o)
  | _ => false

/-- Its fault is deferred, 0x14 through a handle and 0x10 otherwise (R145); a result it would have written is lost. -/
def State.scratchFault (s : State) (a : Access) : State :=
  (s.dropAccess a.id).defer a.core a.course
    { code := if a.tile then 0x14 else 0x10, sub := if a.tile then 0 else 5, faddr := a.va, ipc := a.ipc, tmask := 2 ^ a.slot, ord := a.ord, lost := a.dst.map fun d => (a.slot, d) }

/-- Whether an access reads the bytes at its home: a store of less than a word reads and modifies it (R143, R410). -/
def Access.readsHome (a : Access) : Bool :=
  match a.kind with
  | .store _ => decide (a.size < 4)
  | .cop _ => false
  | _ => true

/-- The error that an access meets at its home: in the tag of its line, or in a word that it reads. -/
def State.meetError (s : State) (a : Access) (err : SoftErr) : State :=
  match err with
  | .word pa fixed => match wordAt (if a.readsHome then wordsOf a.loc a.size else []) pa with
    | some x => s.wordError x fixed (s.consumer a)
    | none => s
  | .tag pa fixed => if (a.loc.align 256).phys = pa / 256 * 256 then s.tagError a.loc fixed (s.consumer a) else s
  | _ => s

/-- HOME_ACCESS_PERFORM (R155): an access that has left the lane is performed at its home, once the earlier accesses of
its core to the same bytes are, and once the sector it needs is filled (R142, R144). A remote access is sent on its way. `err` is
the error that it meets at its home (R409, R410). -/
def State.perform (s : State) (id : Nat) (err : SoftErr) : State :=
  match s.access? id with
  | none => s
  | some a =>
    if a.st ≠ .left then s
    else if a.loc.isRemote then s.sendRemote a
    else if s.behind a then s
    else if s.resizeWaits a.loc then s
    else if s.scratchGone a then s.scratchFault a
    else match a.loc.window with
    | some w => s.windowAccess a w.1 w.2
    | none =>
      if s.needsFill a then s.missFor a.loc
      else
        let s := s.meetError a err
        if s.needsFill a then s.missFor a.loc
        else
          let s := match a.loc with | .hbm d _ => s.ensureLine d a.loc.lineNo | _ => s
          match (if a.readsHome then s.badIn a.loc a.size else none) with
          | some w => s.accessBad a w
          | none => s.performAt a

/-! ## Results (R249, R250, R254, R164) -/

/-- The register of a thread that awaits an access takes its result; a younger write to it stands. -/
def Thread.arrive (t : Thread) (d : RegRef) (id : Nat) (x : Word) : Thread :=
  if t.sb.contains (d, id) then { t.write d x with sb := t.sb.filter fun e => decide (e ≠ (d, id)) } else t

/-- The value a register will hold once every pending result of it is written. -/
def Thread.lastV (t : Thread) (r : RegRef) : Word :=
  match r with
  | .v n => t.pend.foldl (fun x p => if p.dst = r then p.val else x) (regGet t.v n)
  | _ => 0

/-- An element of a register tile reaches its place in a register (R274). -/
def Thread.arrivePart (t : Thread) (d : RegRef) (id : Nat) (bit n : Nat) (x : Nat) : Thread :=
  if t.sb.contains (d, id) then
    let old := (t.lastV d).toNat
    let hole := old - old / 2 ^ bit % 2 ^ n * 2 ^ bit
    { t.write d (BitVec.ofNat 64 (hole + x % 2 ^ n * 2 ^ bit)) with sb := t.sb.filter fun e => decide (e ≠ (d, id)) }
  else t

/-- The lane load cache keeps the line that a remote load has brought, unless a write or atomic of the core to the line is on
its way or in its hod, or an acquire or another load of the line came between (R139, R157). A line that stands there, which
another load has brought meanwhile, goes: it may be older than what this load returns. -/
def State.keepRemote (s : State) (a : Access) (line : List Byte) : State :=
  match a.loc with
  | .remote d o =>
    let s' := s.staleLoads a.core fun x => x.onLine d (o / 256)
    if ((s.core a.core).lcLine a.loc).isSome then s'.invalLine a.core a.loc
    else if a.cacheable && !a.stale && !(s.writeOut (coreDie a.core) d (o / 256) a.id || s.atomicLeft a.core a.loc ||
        (s.core a.core).hod.any fun e => decide (e.dest = d ∧ e.line = o / 256)) then s'.putLine a.core a.loc line
    else s'
  | _ => s

/-- LOAD_RETURN (R157): a load or returning atomic reaches the core. For a remote load the response brings `val`, the 64-byte
line of its bytes; the bits that the hod held when the load left the lane stand over it (R165). `bad`: the destination found an
uncorrectable word (R410). (log 149: DESIGN CHOICE, safe.) -/
def State.loadReturn (s : State) (id : Nat) (val : BitVec 512) (bad : Bool) : State :=
  match s.access? id with
  | none => s
  | some a =>
    let isLoad := match a.kind with | .load _ => true | _ => false
    let returns := match a.kind with | .load _ => true | .atom _ false => true | _ => false
    if !returns then s
    else if !(decide (a.st = .performed) || (isLoad && a.loc.isRemote && decide (a.st = .sent))) then s
    else
      let bad := a.bad || (bad && decide (a.st = .sent))
      let s := s.dropAccess id
      let s := { s with packets := s.packets.filter fun p => !(p.isLoad && p.accs.contains id) }
      let s := s.pump (coreDie a.core)
      let line := leBytes 64 val.toNat
      let raw := if a.st = .performed then a.val.toNat
        else leNat (overBits ((line.drop (a.loc.off % 64)).take a.size) a.hod)
      let s := if a.st = .performed || bad then s else s.keepRemote a line
      let s := if a.inval then s.invalLane a.core else s
      if a.code && bad then
        (s.modCourse a.core a.course fun c => { c with susp := none }).stopCourse a.core a.course
          { code := 0x70, faddr := a.va, ipc := a.ipc, tmask := a.also }
      else if a.code then
        let k := lineKey a.loc
        let bs := leBytes 16 raw
        (s.modCore a.core fun c => { c with icache := c.icache.filter (fun l => decide (l.1 ≠ k)) ++ [(k, bs)] }).modCourse
          a.core a.course fun c => if c.susp = some (.line id) then { c with susp := none } else c
      else if bad then
        (s.modCourse a.core a.course fun c => c.modThread a.slot fun t => { t with acqAfter := t.acqAfter.filter (· ≠ id) }).defer
          a.core a.course { code := 0x70, faddr := a.va, ipc := a.ipc, tmask := 2 ^ a.slot, ord := a.ord, lost := a.dst.map fun d => (a.slot, d) }
      else
        s.modCourse a.core a.course fun c => c.modBoth a.slot fun t =>
          let t := a.dst.foldl (fun t d =>
            match a.part with
            | some p => t.arrivePart d id p.1 p.2 (extendAs a.w a.nib raw).toNat
            | none => t.arrive d id (extendAs a.w a.nib raw)) t
          let newest := decide (t.seqOrd ≤ a.ord) && (match a.kind with | .atom _ _ => true | _ => false)
          { t with
            acqAfter := t.acqAfter.filter (· ≠ id)
            seqtag := if newest then a.tag else t.seqtag
            seqOrd := if newest then a.ord else t.seqOrd }

/-- A course waits for the 16-byte line of another destination that holds an offset (R173, R47); `c` is the trap that a
refusal there raises (R439). -/
def State.askLine (s : State) (core course dest off : Nat) (c : Cause) : State :=
  let n := s.newId
  let x : Loc := .remote dest (off / 16 * 16)
  let a : Access :=
    { id := n.1, core := core, course := course, slot := 0, ord := s.nextOrd, ipc := c.ipc, va := c.faddr, kind := .load false
      w := 6, size := 16, loc := x, code := true, also := c.tmask, cmp := BitVec.ofNat 64 c.code, data := BitVec.ofNat 128 c.sub }
  (n.2.issueAccess a).modCourse core course fun c => { c with susp := some (.line n.1) }

end Sys2Proof.Machine
end

