-- ==== Sys2Proof/Machine/MemOps.lean ====
section
/-! DEFINITION. Memory, atomic and cache instructions (R246 to R257, R261 to R266): address forms, the order of checks,
and the accesses they start. -/

namespace Sys2Proof.Machine

/-! ## Addresses (R133 to R135, R247) -/

/-- Where an address stands before translation: a pool offset, or a virtual address. -/
inductive Place where
  | pool (core off : Nat)
  | virt (va : Nat)
  | fixed (x : Loc)
  deriving DecidableEq, Repr

/-- The effective address and, for a nibble, which half of its byte (R247). -/
def effAddr (w : BitVec 3) (a : Word) (disp : BitVec 32) : Word :=
  (if w = 7 then a >>> 1 else a) + disp.signExtend 64

/-- The pool address of a byte of a task's part (R68). -/
def granuleAddr (gs : List Nat) (off : Nat) : Nat := gs.getD (off / 16384) 0 * 16384 + off % 16384

/-- Whether two tasks belong to one gang (R65). -/
def sameGang (x y : Task) : Bool :=
  decide (x.ref.die = y.ref.die ∧ x.ref.graph = y.ref.graph ∧ x.ref.node = y.ref.node ∧
    x.ref.index / max 1 x.gang = y.ref.index / max 1 y.gang)

/-- The resident tasks of the module, with their cores and slots. -/
def State.allTasks (s : State) : List (Nat × Nat × Task) :=
  s.cores.flatMap fun k => k.2.tasks.map fun t => (k.1, t.1, t.2)

/-- The member of a task's gang with a rank, while it is resident. -/
def State.member (s : State) (tk : Task) (rank : Nat) : Option (Nat × Nat × Task) :=
  s.allTasks.find? fun m => sameGang m.2.2 tk && decide (m.2.2.rank = rank)

/-- The place an address names in its space, if its form and range are right (R133 to R135): the range is on the address
alone, and an access that would run past its end is misaligned, since parts and private areas are multiples of 16 bytes.
(log 68: DEDUCED, unsafe.) -/
def State.place (s : State) (core : Nat) (tk : Task) (tid : Nat) (space : BitVec 2) (ea : Word) : Option Place :=
  let a := ea.toNat
  if space = 0 then (if isVa57 ea then some (.virt (va57 ea)) else none)
  else if space = 1 then
    if a < tk.spG.length * 16384 then some (.pool core (granuleAddr tk.spG a)) else none
  else if space = 2 then
    if a / 2 ^ 26 ≠ 0 then none
    else
      let rank := a / 2 ^ 21
      if tk.gang ≤ rank then none
      else if rank = tk.rank then
        (if a % 2 ^ 21 < tk.spG.length * 16384 then some (.pool core (granuleAddr tk.spG (a % 2 ^ 21))) else none)
      else match s.member tk rank with
        | some m =>
          if a % 2 ^ 21 < m.2.2.spG.length * 16384 then some (.pool m.1 (granuleAddr m.2.2.spG (a % 2 ^ 21))) else none
        | none => none
  else if a < tk.pvsz then some (.virt (s.pvAddr tk tid a % 2 ^ 57))
  else none

/-! ## Checks (R248) -/

/-- The watchpoint that an access to the own pool matches (R57): `r` it reads, `w` it writes. -/
def Core.watch (c : Core) (off size : Nat) (n : Need) : Option Nat :=
  if !c.dbgctl.getLsbD 0 then none
  else (List.range 4).find? fun k =>
    let p := (c.wp.toList.getD k 0).toNat
    let len := p / 2 ^ 32 % 32
    let base := p % 2 ^ 21 / 2 ^ len * 2 ^ len
    p.testBit 63 && ((n.r && p.testBit 61) || (n.w && p.testBit 62)) && decide (len ≤ 12) &&
      decide (base < off + size ∧ off < base + 2 ^ len)

/-- How the checks end: a trap, a wait for a walk or a migration, or the home of each thread's access. -/
inductive MemEnd where
  | trap (c : Cause)
  | wait (w : Suspend)
  | ok (l : List (Nat × Word × Loc))
  deriving Repr

/-- The cause of a failed check in a thread. -/
def Grp.fault (G : Grp) (code sub : Nat) (i : Nat) (va : Word) : Cause :=
  { code := code, sub := sub, faddr := va, ipc := G.g.pc, tmask := 2 ^ i }

/-- The die whose migration duty serves a frame (R151): the die whose HBM holds it. A fabric-global frame is placed by its
offset at the destination. -/
def frameDie (pa : Nat) : Nat :=
  let p := if pa < 2 ^ 56 then pa else pa % 2 ^ 47
  if p < 0x8000000000 then p / 2 ^ 37 else p / 2 ^ 30 % 4

/-- Whether an address reaches a debug window that the access may not reach (R431): `win` it is a plain, acquire or release
load or store of 8 bytes. (log 76: DEDUCED, unsafe.) -/
def State.windowBarred (s : State) (core : Nat) (sup win : Bool) (e : TlbEntry) (va : Nat) : Bool :=
  match s.targetOf e va with
  | .home x => match x.window with
    | some w => !win || !sup || decide (coreDie w.1 ≠ coreDie core)
    | none => false
  | _ => false

/-- The checks of R248 from the fifth on, on accesses whose places are known: translation, permission, ownership. -/
def State.homeCheck (s : State) (G : Grp) (n : Need) (win : Bool) (placed : List (Nat × Word × Option Place)) : MemEnd :=
  let core := G.g.core
  let missing := placed.findSome? fun e =>
    match e.2.2 with
    | some (.virt va) =>
      match s.tlbFind core G.tk.ctx va with
      | none => some (MemEnd.wait (.walk G.tk.ctx va e.1 0))
      | some t => if s.targetOf t va = .unmapped then some (.trap (G.fault 0x10 5 e.1 (canon57 va))) else none
    | _ => none
  match missing with
  | some m => m
  | none =>
    let virt := placed.filterMap fun e =>
      match e.2.2 with
      | some (.virt va) => (s.tlbFind core G.tk.ctx va).map fun t => (e.1, va, t)
      | _ => none
    match virt.find? fun e => !e.2.2.permits n (G.cs.thread e.1).sup || s.windowBarred core (G.cs.thread e.1).sup win e.2.2 e.2.1 with
    | some e => .trap (G.fault 0x11 6 e.1 (canon57 e.2.1))
    | none =>
      match virt.find? fun e => e.2.2.hostOwned with
      | some e => .wait (.migration (frameDie (e.2.2.phys e.2.1)) (leafBase e.2.2.pte.toNat e.2.2.size) e.2.1 e.1 false)
      | none =>
        .ok (placed.filterMap fun e =>
          match e.2.2 with
          | some (.pool k o) => some (e.1, e.2.1, Loc.pool k o)
          | some (.virt va) =>
            match (s.tlbFind core G.tk.ctx va).map fun t => s.targetOf t va with
            | some (.home x) => some (e.1, canon57 va, x)
            | some (.remote d o) => some (e.1, canon57 va, Loc.remote d o)
            | _ => none
          | some (.fixed x) => some (e.1, e.2.1, x)
          | none => none)

/-- The checks of R248 from the second on, each for every thread before the next. -/
def State.memCheck (s : State) (G : Grp) (space : BitVec 2) (n : Need) (size align : Nat) (watch : Bool)
    (eas : List (Nat × Word)) : MemEnd :=
  let core := G.g.core
  let placed := eas.map fun e => (e.1, e.2, s.place core G.tk (G.cs.thread e.1).tid space e.2)
  match placed.find? fun e => e.2.2.isNone with
  | some e => .trap (G.fault 0x14 0 e.1 e.2.1)
  | none =>
    match eas.find? fun e => decide (e.2.toNat % align ≠ 0) with
    | some e => .trap (G.fault 0x13 0 e.1 e.2)
    | none =>
      let watched := placed.findSome? fun e =>
        match e.2.2 with
        | some (.pool k o) =>
          if k = core ∧ watch = true then ((s.core core).watch o size n).map fun w => G.fault 0x52 w e.1 (BitVec.ofNat 64 o) else none
        | _ => none
      match watched with
      | some c => .trap c
      | none =>
        s.homeCheck G n (watch && decide (size = 8) && !(n.r && n.w)) placed

/-- The L1 TLB takes the translations that the access used (R149). -/
def State.touchTlb (s : State) (G : Grp) (space : BitVec 2) (eas : List (Nat × Word)) : State :=
  eas.foldl (fun s e =>
    match s.place G.g.core G.tk (G.cs.thread e.1).tid space e.2 with
    | some (.virt va) =>
      match s.tlbFind G.g.core G.tk.ctx va with
      | some t => s.fillL1 G.g.core t
      | none => s
    | _ => s) s

/-- The same for accesses whose places are known. -/
def State.touchVirt (s : State) (G : Grp) (placed : List (Nat × Word × Option Place)) : State :=
  placed.foldl (fun s e =>
    match e.2.2 with
    | some (.virt va) =>
      match s.tlbFind G.g.core G.tk.ctx va with
      | some t => s.fillL1 G.g.core t
      | none => s
    | _ => s) s

/-! ## Stops that are not traps -/

/-- The group has taken its cycles in the lane and waits for its instruction's last check (R21, R23): it is the same group,
in the same cycles, that goes on once that has passed. -/
def State.stayIssued (s : State) (G : Grp) : State :=
  s.leaveLane G.g G.g.slots.length 0 { G.cs with again := some G.g }

/-- The course waits at the instruction with fetch suspended (R21). -/
def State.suspendAt (s : State) (G : Grp) (w : Suspend) : State :=
  (s.stayIssued G).modCourse G.g.core G.g.course fun c => { c with susp := some w }

/-- The course parks at the instruction (R82). -/
def State.parkAt (s : State) (G : Grp) (p : Park) : State :=
  s.leaveLane G.g 1 0 { G.cs.rearm with park := some p, wakeAt := none }

/-- The course is held at issue: the group leaves the lane with no effect and forms again (R160, R251). -/
def State.holdAt (s : State) (G : Grp) : State := s.leaveLane G.g 1 0 G.cs.rearm

/-- A request for the migration unit of a die: it joins a move of the page that is under way or queued in the same
direction, else it queues (R154). -/
def State.askMigration (s : State) (d : Nat) (m0 : Migr) : State :=
  let m := { m0 with assisted := (s.die d).duty.getLsbD 1 }
  let same := fun x : Migr => decide (x.frame = m.frame ∧ x.toHost = m.toHost)
  let join := fun x : Migr => if same x then { x with waiters := x.waiters ++ m.waiters, cmds := x.cmds ++ m.cmds.filter (fun c => !x.cmds.contains c) } else x
  s.modDie d fun x =>
    if x.migr.any same then { x with migr := x.migr.map join }
    else if x.migrQ.any same then { x with migrQ := x.migrQ.map join }
    else { x with migrQ := x.migrQ ++ [m] }

/-- A device access to a host-owned page raises a migration fault: its course waits for the page (R151). -/
def State.waitPage (s : State) (G : Grp) (w : Suspend) : State :=
  match w with
  | .migration d frame va _ _ =>
    (s.suspendAt G w).askMigration d
      { frame := frame, toHost := false, assisted := false, ctx := G.tk.ctx, va := va, pte := 0
        waiters := [(G.g.core, G.g.course)] }
  | _ => s.suspendAt G w

/-- Whether an access of a course that is or was held back keeps reads of its bytes waiting: a store until it has left the
lane, an atomic until it has been performed and, if it returns, has returned (R160). -/
def Access.holdsReads (a : Access) : Bool :=
  match a.kind with
  | .store _ => decide (a.st = .held)
  | .atom _ _ => a.wasHeld
  | _ => false

/-- A read of bytes that a held access of the course writes waits (R160). -/
def State.heldUnder (s : State) (G : Grp) (x : Loc) (size : Nat) : Bool :=
  s.inflight.any fun a =>
    decide (a.core = G.g.core ∧ a.course = G.g.course) && a.holdsReads && a.loc.overlaps a.size x size

/-- Whether a destination's cap of 256 holds new packets at the egress (R334). -/
def State.egressFull (s : State) (d dest : Nat) : Bool :=
  decide (256 ≤ (s.unacked d dest).length + ((s.die d).egress.filter fun p => decide (p.dest = dest)).length)

/-- The stops between the checks and the accesses: a load or returning atomic of a lost destination traps, a write to a
closed destination parks its course, and what must wait is held at issue (R82, R160, R248, R334, R422). -/
def State.gate (s : State) (G : Grp) (reads writes : Bool) (size : Nat) (l : List (Nat × Word × Loc)) : Option State :=
  let lost := l.findSome? fun e =>
    match e.2.2 with
    | .remote d _ => if reads && !s.routed d then some (G.fault (lostCode d) 0 e.1 e.2.1) else none
    | _ => none
  match lost with
  | some c => some (s.trapNow G c)
  | none =>
    let closed := l.findSome? fun e =>
      match e.2.2 with
      | .remote d _ => if writes && (s.core G.g.core).closed.getLsbD d then some d else none
      | _ => none
    match closed with
    | some d => some (s.parkAt G (.closed d))
    | none =>
      if (reads && l.any fun e => s.heldUnder G e.2.2 size) ||
          (writes && l.any fun e => match e.2.2 with
            | .remote d _ => s.routed d && s.egressFull (coreDie G.g.core) d
            | _ => false) then some (s.holdAt G)
      else none

/-! ## Starting accesses -/

/-- The accesses of a thread still outstanding, as what a release waits for: a load or returning atomic until it has
returned, any other write until it is visible at the scope (R252). -/
def State.earlier (s : State) (core course slot scope : Nat) : List Await :=
  (s.inflight.filter fun a => decide (a.core = core ∧ a.course = course) && (decide (a.slot = slot) || a.also.testBit slot)).map fun a =>
    { id := a.id, scope := if a.kind.returns then 8 else scope }

/-- The implied scope of a space (R161). -/
def impliedScope (space : BitVec 2) : Nat := if space = 1 then 2 else if space = 2 then 4 else 7

/-- One access of one thread: it is numbered and started, and its registers await it. -/
def startAccess (G : Grp) (s : State) (c : Course) (i : Nat) (va : Word) (x : Loc) (kind : AccKind) (w : BitVec 3)
    (nib : Bool) (data : BitVec 128) (cmp : Word) (dst : List RegRef) (after : List Await) (inval : Bool := false) : Course × State :=
  let n := s.newId
  let a : Access :=
    { id := n.1, core := G.g.core, course := G.g.course, slot := i, ord := s.nextOrd, ipc := G.g.pc, va := va, kind := kind
      w := w, nib := nib, size := (match kind with | .cop _ => 256 | _ => accSize w), loc := x, data := data, cmp := cmp, dst := dst
      after := after, inval := inval }
  let acq := match kind with | .load q => q | _ => false
  let c := c.modThread i fun t =>
    let t := dst.foldl (fun t d => t.awaitReg d n.1) t
    if acq then { t with acqAfter := t.acqAfter ++ [n.1] } else t
  (c, n.2.issueAccess a)

/-- The registers of an operand or of an even-odd pair, by physical number. -/
def pairRefs (t : Thread) (d : Reg) (pair : Bool) : List RegRef :=
  if pair then [.v (t.phys d), .v (t.phys (d + 1))] else [.v (t.phys d)]

/-- The group's accesses, and the end of the instruction. The marks that the course gets while accesses leave the lane (a
lost destination) are added to what the instruction leaves of the earlier ones. -/
def State.finishMem (s : State) (G : Grp) (x : LaneI) (f : Course → State → Course × State) : State :=
  let r := f G.cs (s.modCourse G.g.core G.g.course fun c => { c with lostDests := [] })
  let marks := ((r.2.course? G.g.core G.g.course).map Course.lostDests).getD []
  r.2.finish G x { r.1 with lostDests := r.1.lostDests ++ marks.filter fun d => !r.1.lostDests.contains d }

/-- The shape of an M-format instruction: the checks, the stops, then one or two accesses for each thread in ascending
slot order. -/
def State.memOp (s : State) (x : LaneI) (space : BitVec 2) (n : Need) (size align : Nat) (watch reads writes : Bool)
    (ea : (Rd → Word) → Word) (f : Grp → Nat → Word → Loc → Course × State → Course × State) : Outcome :=
  s.withGroup fun G =>
    match G.check x with
    | some c => s.trapNow G c
    | none =>
      let eas := (G.active x).map fun i => (i, ea (G.read x i))
      match s.memCheck G space n size align watch eas with
      | .trap c => s.trapNow G c
      | .wait w => s.waitPage G w
      | .ok l =>
        match s.gate G reads writes size l with
        | some s' => s'
        | none =>
          (s.touchTlb G space eas).finishMem G x fun c s => l.foldl (fun r e => f G e.1 e.2.1 e.2.2 r) (c, s)

/-- The alignment of a width: 1 for n4, n8 and i8 (R247). -/
def accAlign (w : BitVec 3) : Nat := accSize w

/-- `ld` (R249, R250): a b128 load is two accesses, low half first (R253). (log 69: DEDUCED, unsafe.) -/
def opLd (len : Nat) (x : Me) (disp : BitVec 32) (s : State) : Outcome :=
  let l : LaneI := { len := len, h := x.h, rd := [.v x.a] }
  s.memOp l x.p { r := true } (accSize x.w) (accAlign x.w) true true false (fun rd => effAddr x.w (rd (.v x.a)) disp)
    fun G i va loc r =>
      let t := G.cs.thread i
      let nib := (G.read l i (.v x.a)).getLsbD 0
      let inval := x.o && decide (3 ≤ impliedScope x.p)
      if x.w = 6 then
        let r := startAccess G r.2 r.1 i va loc (.load x.o) 5 false 0 0 [.v (t.phys x.d)] [] inval
        startAccess G r.2 r.1 i (va + 8) (loc.plus 8) (.load x.o) 5 false 0 0 [.v (t.phys (x.d + 1))] [] inval
      else startAccess G r.2 r.1 i va loc (.load x.o) x.w nib 0 0 [.v (t.phys x.d)] [] inval

/-- What a thread's stores and atomics come after: its release fences, and for a release store its own earlier
accesses (R160, R161, R252). -/
def State.orderAfter (s : State) (G : Grp) (i : Nat) (rel : Bool) (space : BitVec 2) : List Await :=
  (G.cs.thread i).relAfter ++ (if rel then s.earlier G.g.core G.g.course i (impliedScope space) else [])

/-- What a release store leaves with its thread: like a release fence at its scope, confined to the thread's own earlier
accesses, it holds the thread's later stores and atomics (R161); at scope `pod` it records a lost destination (R422). -/
def Course.releasing (c : Course) (i : Nat) (after : List Await) : Course :=
  c.modThread i fun t => { t with relAfter := t.relAfter ++ after.filter fun w => !t.relAfter.contains w }

/-- `st` (R251, R252). -/
def opSt (len : Nat) (x : Me) (disp : BitVec 32) (s : State) : Outcome :=
  let l : LaneI := { len := len, h := x.h, rd := [.v x.d] ++ (if x.w = 6 then [.v (x.d + 1)] else []) ++ [.v x.a] }
  let pod := x.o && decide (impliedScope x.p = 7)
  s.memOp l x.p { w := true } (accSize x.w) (accAlign x.w) true false true (fun rd => effAddr x.w (rd (.v x.a)) disp)
    fun G i va loc r =>
      let nib := (G.read l i (.v x.a)).getLsbD 0
      let after := s.orderAfter G i x.o x.p
      let st := if pod then r.2.dueFor G.g.core (after.map Await.id) else r.2
      let c := if x.o then r.1.releasing i after else r.1
      let d := G.read l i (.v x.d)
      let r := if x.w = 6 then
          let r := startAccess G st c i va loc (.store x.o) 5 false (d.setWidth 128) 0 [] after
          startAccess G r.2 r.1 i (va + 8) (loc.plus 8) (.store x.o) 5 false ((G.read l i (.v (x.d + 1))).setWidth 128) 0 [] after
        else startAccess G st c i va loc (.store x.o) x.w nib (d.setWidth 128) 0 [] after
      (if pod then r.1.recordLost else r.1, r.2)

/-- An atomic (R254 to R257): with o set it returns nothing. `atom.cas` takes its comparand from d and its new value
from d + 1. -/
def opAtom (len : Nat) (x : Me) (disp : BitVec 32) (op : AtomOp) (s : State) : Outcome :=
  let cas := decide (op = .cas)
  let l : LaneI := { len := len, h := x.h, rd := [.v x.d] ++ (if cas then [.v (x.d + 1)] else []) ++ [.v x.a] }
  s.memOp l x.p { r := true, w := true } (accSize x.w) (accAlign x.w) true (!x.o) true
    (fun rd => effAddr x.w (rd (.v x.a)) disp)
    fun G i va loc r =>
      let t := G.cs.thread i
      let d := G.read l i (.v x.d)
      let data := if cas then G.read l i (.v (x.d + 1)) else d
      startAccess G r.2 r.1 i va loc (.atom op x.o) x.w false (data.setWidth 128) d
        (if x.o then [] else [.v (t.phys x.d)]) (s.orderAfter G i false x.p)

/-- `cop` (R261): 0 inv, 1 wb, 2 wbi, on the 256-byte line of the address; on die scratch, wb and wbi complete at once. -/
def opCop (len : Nat) (x : A1) (disp : BitVec 32) (op : Nat) (s : State) : Outcome :=
  let l : LaneI := { len := len, h := x.h, rd := [.v x.a] }
  s.memOp l 0 { r := true } 1 1 false false (decide (op ≠ 0)) (fun rd => rd (.v x.a) + disp.signExtend 64)
    fun G i va loc r =>
      let line := loc.align 256
      if op = 0 then
        (r.1, [0, 64, 128, 192].foldl (fun s k => s.invalLine G.g.core (line.plus k)) r.2)
      else
        match line with
        | .scratch _ _ => r
        | _ => startAccess G r.2 r.1 i va line (.cop op) 0 false 0 0 [] (s.orderAfter G i false 0)

/-! ## Hints and translation maintenance (R262 to R265) -/

/-- `pf` (R262): a fill of the line's four sectors starts; every address it cannot serve has no effect. -/
def opPf (len : Nat) (x : E64) (s : State) : Outcome :=
  let l := laneE len x [extA x]
  s.withGroup fun G =>
    match G.check l with
    | some c => s.trapNow G c
    | none =>
      let s' := (G.active l).foldl (fun s i =>
        let va := G.read l i (extA x)
        match s.probe G.g.core G.tk.ctx va with
        | some (.leaf e) =>
          if !e.permits { r := true } (G.cs.thread i).sup || e.hostOwned || decide (2 ^ 56 ≤ e.phys (va57 va)) then s
          else match s.targetOf e (va57 va) with
            | .home (.hbm d a) => [0, 64, 128, 192].foldl (fun s k => s.missFor (.hbm d (a / 256 * 256 + k))) s
            | _ => s
        | _ => s) s
      s'.finish G l G.cs

/-- `mig` (R263): a request to the migration unit of the frame's die, unless there is nothing to move. -/
def opMig (len : Nat) (x : E64) (toHost : Bool) (s : State) : Outcome :=
  let l := laneE len x [extA x]
  s.withGroup fun G =>
    match G.check l with
    | some c => s.trapNow G c
    | none =>
      let s' := (G.active l).foldl (fun s i =>
        let va := G.read l i (extA x)
        match s.probe G.g.core G.tk.ctx va with
        | some (.leaf e) =>
          let frame := leafBase e.pte.toNat e.size
          let d := frameDie frame
          if !pteBit e.pte.toNat 9 || (pteBit e.pte.toNat 8 == toHost) ||
              (s.die d).migr.any (fun m => decide (m.frame = frame)) then s
          else s.askMigration d
            { frame := frame, toHost := toHost, assisted := false, ctx := G.tk.ctx, va := va57 va, pte := 0 }
        | _ => s) s
      s'.finish G l G.cs

/-- `tlbinv` (R264): entries of the core's L1 TLB and of its die's last-level TLB are removed. -/
def opTlbinv (len : Nat) (x : E64) (hit : Nat → Nat → TlbEntry → Bool) (s : State) : Outcome :=
  let l := laneE len x [extA x] false true
  s.withGroup fun G =>
    match G.check l with
    | some c => s.trapNow G c
    | none =>
      let s' := (G.active l).foldl (fun s i =>
        let va := va57 (G.read l i (extA x))
        let keep := fun es : List TlbEntry => es.filter fun e => !hit G.tk.ctx va e
        (s.modCore G.g.core fun c => { c with tlb := keep c.tlb }).modDie (coreDie G.g.core) fun d => { d with tlb := keep d.tlb }) s
      s'.finish G l G.cs

/-- The size code of a page (R265). -/
def sizeCode (n : Nat) : Nat := if n = 2 ^ 12 then 0 else if n = 2 ^ 16 then 1 else if n = 2 ^ 21 then 2 else 3

/-- The word `tlbprobe` writes (R265). -/
def probeWord (r : Option WalkEnd) (sup : Bool) : Word :=
  match r with
  | some (.leaf e) =>
    let p := e.pte.toNat
    BitVec.ofNat 64 (1 + 2 * (p / 4 % 16) + bitN (pteBit p 9) 5 + bitN (pteBit p 8) 6 + bitN (pteBit p 7) 7 +
      2 ^ 8 * sizeCode e.size + (if sup then leafBase p e.size else 0))
  | some .notValid => 2 ^ 10
  | some .malformed => 2 ^ 11
  | some (.bad _) => 0
  | none => 0

/-- A scoreboarded result that is there at once: written over anything pending for its register. (log 13: DEDUCED, unsafe.) -/
def Grp.writeNow (_ : Grp) (dst : Rd) (i : Nat) (val : Word) (c : Course) : Course :=
  match dst with
  | .c r => { c with c := regSet c.c r val, cpend := c.cpend.filter fun p => decide (p.dst ≠ .c r), csb := c.csb.filter fun e => decide (e.1 ≠ .c r) }
  | d => c.modThread i fun t => { t.write (t.ref d) val with sb := t.sb.filter fun e => decide (e.1 ≠ t.ref d) }

/-- `tlbprobe` (R265). -/
def opTlbprobe (len : Nat) (x : E64) (s : State) : Outcome :=
  let l := laneE len x [extA x]
  s.lane l noCheck fun G i c =>
    G.writeNow (extD x) i (probeWord (s.probe G.g.core G.tk.ctx (G.read l i (extA x))) (G.cs.thread i).sup) c

/-- `ld` and `ld.acq` (R249, R250). -/
def execLd (x : Me) (s : State) : Outcome := opLd 4 x 0 s
/-- `ld`, 64-bit form (R249, R250, R177). -/
def execLdL (x : Me64) (s : State) : Outcome := opLd 8 x.r x.i s

/-- `st` and `st.rel` (R251, R252). -/
def execSt (x : Me) (s : State) : Outcome := opSt 4 x 0 s
/-- `st`, 64-bit form (R251, R252, R177). -/
def execStL (x : Me64) (s : State) : Outcome := opSt 8 x.r x.i s

/-- `atom.add` (R254, R257). -/
def execAtomAdd (x : Me) (s : State) : Outcome := opAtom 4 x 0 .add s
/-- `atom.add`, 64-bit form (R254, R257, R177). -/
def execAtomAddL (x : Me64) (s : State) : Outcome := opAtom 8 x.r x.i .add s

/-- `atom.fadd` (R255, R257). -/
def execAtomFadd (x : Me) (s : State) : Outcome := opAtom 4 x 0 .fadd s
/-- `atom.fadd`, 64-bit form (R255, R257, R177). -/
def execAtomFaddL (x : Me64) (s : State) : Outcome := opAtom 8 x.r x.i .fadd s

/-- `atom.min` (R254, R257). -/
def execAtomMin (x : Me) (s : State) : Outcome := opAtom 4 x 0 .min s
/-- `atom.min`, 64-bit form (R254, R257, R177). -/
def execAtomMinL (x : Me64) (s : State) : Outcome := opAtom 8 x.r x.i .min s

/-- `atom.max` (R254, R257). -/
def execAtomMax (x : Me) (s : State) : Outcome := opAtom 4 x 0 .max s
/-- `atom.max`, 64-bit form (R254, R257, R177). -/
def execAtomMaxL (x : Me64) (s : State) : Outcome := opAtom 8 x.r x.i .max s

/-- `atom.and` (R254, R257). -/
def execAtomAnd (x : Me) (s : State) : Outcome := opAtom 4 x 0 .and s
/-- `atom.and`, 64-bit form (R254, R257, R177). -/
def execAtomAndL (x : Me64) (s : State) : Outcome := opAtom 8 x.r x.i .and s

/-- `atom.or` (R254, R257). -/
def execAtomOr (x : Me) (s : State) : Outcome := opAtom 4 x 0 .or s
/-- `atom.or`, 64-bit form (R254, R257, R177). -/
def execAtomOrL (x : Me64) (s : State) : Outcome := opAtom 8 x.r x.i .or s

/-- `atom.xor` (R254, R257). -/
def execAtomXor (x : Me) (s : State) : Outcome := opAtom 4 x 0 .xor s
/-- `atom.xor`, 64-bit form (R254, R257, R177). -/
def execAtomXorL (x : Me64) (s : State) : Outcome := opAtom 8 x.r x.i .xor s

/-- `atom.exch` (R254, R257). -/
def execAtomExch (x : Me) (s : State) : Outcome := opAtom 4 x 0 .exch s
/-- `atom.exch`, 64-bit form (R254, R257, R177). -/
def execAtomExchL (x : Me64) (s : State) : Outcome := opAtom 8 x.r x.i .exch s

/-- `atom.cas` (R256, R257). -/
def execAtomCas (x : Me) (s : State) : Outcome := opAtom 4 x 0 .cas s
/-- `atom.cas`, 64-bit form (R256, R257, R177). -/
def execAtomCasL (x : Me64) (s : State) : Outcome := opAtom 8 x.r x.i .cas s

/-- `cop.inv` (R261). -/
def execCopInv (x : A1) (s : State) : Outcome := opCop 4 x 0 0 s
/-- `cop.inv`, 64-bit form (R261, R177). -/
def execCopInvL (x : A1d) (s : State) : Outcome := opCop 8 x.r x.i 0 s

/-- `cop.wb` (R261). -/
def execCopWb (x : A1) (s : State) : Outcome := opCop 4 x 0 1 s
/-- `cop.wb`, 64-bit form (R261, R177). -/
def execCopWbL (x : A1d) (s : State) : Outcome := opCop 8 x.r x.i 1 s

/-- `cop.wbi` (R261). -/
def execCopWbi (x : A1) (s : State) : Outcome := opCop 4 x 0 2 s
/-- `cop.wbi`, 64-bit form (R261, R177). -/
def execCopWbiL (x : A1d) (s : State) : Outcome := opCop 8 x.r x.i 2 s

/-- `pf`, 32-bit form: the address is in v0 (R262, R185). -/
def execPf (x : H0) (s : State) : Outcome := opPf 4 (extH0 x) s
/-- `pf` (R262). -/
def execPfL (x : E64) (s : State) : Outcome := opPf 8 x s

/-- `mig.dev`, 32-bit form (R263, R185). -/
def execMigDev (x : H0) (s : State) : Outcome := opMig 4 (extH0 x) false s
/-- `mig.dev` (R263). -/
def execMigDevL (x : E64) (s : State) : Outcome := opMig 8 x false s
/-- `mig.host` (R263). -/
def execMigHost (x : E64) (s : State) : Outcome := opMig 8 x true s

/-- `tlbinv.page`, 32-bit form (R264, R185). -/
def execTlbinvPage (x : H0) (s : State) : Outcome := opTlbinv 4 (extH0 x) (fun ctx va e => e.covers ctx va) s
/-- `tlbinv.page` (R264). -/
def execTlbinvPageL (x : E64) (s : State) : Outcome := opTlbinv 8 x (fun ctx va e => e.covers ctx va) s
/-- `tlbinv.ctx` (R264). -/
def execTlbinvCtx (x : E64) (s : State) : Outcome := opTlbinv 8 x (fun ctx _ e => decide (e.ctx = ctx)) s
/-- `tlbinv.all` (R264). -/
def execTlbinvAll (x : E64) (s : State) : Outcome := opTlbinv 8 x (fun _ _ _ => true) s

/-- `tlbprobe`, 32-bit form (R265, R185). -/
def execTlbprobe (x : Ed) (s : State) : Outcome := opTlbprobe 4 (extEd x) s
/-- `tlbprobe` (R265). -/
def execTlbprobeL (x : E64) (s : State) : Outcome := opTlbprobe 8 x s

end Sys2Proof.Machine
end

