-- ==== Sys2Proof/Machine/Fences.lean ====
section
/-! DEFINITION. Fences, phases, `waitn`, `icinv` and `fetchb` (R158, R160, R162, R168, R170, R258 to R260), and the ends
of their waits. -/

namespace Sys2Proof.Machine

/-! ## What is waited for -/

/-- The stores and atomics of a course that are not yet visible at a scope. -/
def State.courseWrites (s : State) (core course scope : Nat) : List Await :=
  (s.inflight.filter fun a => decide (a.core = core ∧ a.course = course) && a.kind.writes).map fun a => { id := a.id, scope := scope }

/-- The scope a fence or phase has on a core: `quad` acts as `core` on a control core (R36). -/
def scopeOn (core scope : Nat) : Nat := if isCtl core ∧ scope = 3 then 2 else scope

/-! ## Ends of waits -/

/-- The threads of a course that wait at an instruction leave it, one after the other. -/
def State.releaseThreads (s : State) (core course : Nat) (f : State → Thread → Option Nat) : State :=
  s.modCourse core course fun c =>
    (List.range c.threads.length).foldl (fun c i =>
      match f s (c.thread i) with
      | some len => c.endWait s.now i len
      | none => c) c

/-- Whether a thread's fence, or phase, may end now. -/
def State.fenceDone (s : State) (phase : Bool) (t : Thread) : Option Nat :=
  match t.wait with
  | .fence p ws _ _ _ len => if p = phase ∧ t.live = true ∧ s.allVisible ws = true then some len else none
  | _ => none

/-- What ending waits of threads do beyond them: an invalidated lane load cache, a recorded lost destination. -/
def State.fenceEffects (s : State) (core course : Nat) (phase : Bool) : State :=
  match s.course? core course with
  | none => s
  | some c =>
    let done := c.threads.filter fun t => (s.fenceDone phase t).isSome
    let inval := done.any fun t => match t.wait with | .fence _ _ i _ _ _ => i | _ => false
    let pod := done.any fun t => match t.wait with | .fence _ _ _ p _ _ => p | _ => false
    let s := if inval then s.invalLane core else s
    if pod then s.modCourse core course Course.recordLost else s

/-- The oldest phase in progress on a core; a later one completes no earlier (R259). -/
def State.oldestPhase (s : State) (core : Nat) : Option Nat :=
  ((s.core core).courses.flatMap fun c => c.2.threads.filterMap fun t =>
    match t.wait with | .fence true _ _ _ o _ => some o | _ => none).min?

/-- FENCE_COMPLETE (R160): the fences of a course whose waits are over end, the release fences that threads have passed
hold nothing more, and the accesses they held leave the lane. -/
def State.fenceComplete (s : State) (core course : Nat) : State :=
  let s' := (s.fenceEffects core course false).releaseThreads core course fun st t => st.fenceDone false t
  let s' := s'.modCourse core course fun c =>
    { c with threads := c.threads.map fun t => { t with relAfter := t.relAfter.filter fun w => !s.visible w } }
  s'.releaseCourse core course

/-- PHASE_COMPLETE (R158). -/
def State.phaseComplete (s : State) (core course : Nat) : State :=
  let first := s.oldestPhase core
  let done := fun (st : State) (t : Thread) =>
    match t.wait with
    | .fence true _ _ _ o _ => if first = some o then st.fenceDone true t else none
    | _ => none
  match s.course? core course with
  | none => s
  | some c =>
    if c.threads.any fun t => (done s t).isSome then
      (s.fenceEffects core course true).releaseThreads core course done
    else s

/-- Whether a `waitn` may end (R168). -/
def Course.waitnDone (c : Course) (t : Thread) : Option Nat :=
  match t.wait with
  | .waitn k n len => if t.live ∧ c.cnt.toList.getD k 0 ≤ n then some len else none
  | _ => none

/-- The acquire of a `waitn` of a class: the lane load cache is invalidated if a command of the class wrote a location
it may hold (R168). -/
def State.acquireClass (s : State) (core course cls : Nat) : State :=
  match s.course? core course with
  | none => s
  | some c =>
    if c.farDone.toList.getD cls false then
      (s.invalLane core).modCourse core course fun c =>
        { c with farDone := if h : cls < 4 then c.farDone.set cls false else c.farDone }
    else s

/-- WAITN_COMPLETE (R168). -/
def State.waitnComplete (s : State) (core course : Nat) : State :=
  match s.course? core course with
  | none => s
  | some c =>
    let classes := c.threads.filterMap fun t =>
      match t.wait, c.waitnDone t with
      | .waitn k _ _, some _ => some k
      | _, _ => none
    (classes.foldl (fun s k => s.acquireClass core course k) s).releaseThreads core course fun _ t => c.waitnDone t

/-- Whether the wait of an `icinv` or `fetchb` is over: no copy command of the course is outstanding, and its stores and
atomics are performed and acknowledged. -/
def State.codeWaitDone (s : State) (c : Course) (ws : List Await) : Bool :=
  decide (c.cnt.toList.getD 0 0 = 0) && s.allVisible ws

/-- ICINV_COMPLETE (R170). -/
def State.icinvComplete (s : State) (core course : Nat) : State :=
  match s.course? core course with
  | none => s
  | some c =>
    let ctx := ((s.task? core c.task).map Task.ctx).getD 0
    let done := fun t : Thread => match t.wait with
      | .icinv lo size ws len => if t.live ∧ s.codeWaitDone c ws then some (lo, size, len) else none
      | _ => none
    let s' := (c.threads.filterMap done).foldl (fun s r => s.invalCode core ctx r.1 r.2.1) s
    s'.releaseThreads core course fun _ t => (done t).map fun r => r.2.2

/-- The prefetched parcels and the loop buffer of a course are discarded (R170). -/
def Course.dropCode (c : Course) : Course := { c with prefetch := none, loopBuf := none, recapture := none }

/-- FETCHB_COMPLETE (R260). -/
def State.fetchbComplete (s : State) (core course : Nat) : State :=
  match s.course? core course with
  | none => s
  | some c =>
    let done := fun t : Thread => match t.wait with
      | .fetchb ws len => if t.live ∧ s.codeWaitDone c ws then some len else none
      | _ => none
    if c.threads.any fun t => (done t).isSome then
      (s.releaseThreads core course fun _ t => done t).modCourse core course Course.dropCode
    else s

/-! ## The instructions -/

/-- The kinds of fence (R258). -/
inductive FenceKind where
  | full
  | acq
  | rel
  | wack
  deriving DecidableEq, Repr

/-- What a fence waits for. (log 74: DEDUCED, unsafe.) -/
def State.fenceAwaits (s : State) (core course : Nat) (k : FenceKind) (scope : Nat) : List Await :=
  let l := match k with
    | .acq => s.courseReads core course
    | .wack => s.courseWrites core course 7
    | _ => s.courseReads core course ++ s.courseWrites core course scope
  l.filter fun w => !s.visible w

/-- Some threads of a group wait at the instruction, or complete it at once where there is nothing to wait for. -/
def State.waitOrPass (s : State) (G : Grp) (x : LaneI) (slots : List Nat) (w : Option Wait) (c : Course) : State :=
  match w with
  | none => s.finish G x c
  | some w =>
    let pass := G.g.slots.filter fun i => !slots.contains i
    let c := pass.foldl (fun c i => c.modThread i fun t => t.complete x.len) c
    let c := slots.foldl (fun c i => c.modThread i fun t => { t with wait := w }) c
    s.leaveLane G.g G.g.slots.length (stallCycles x.h + G.edgeCostOf x pass) c

/-- A fence (R160): `acq`, `full` and `wack` hold their threads until their accesses are in order; `rel` lets the threads
pass and holds their later stores and atomics in the lane. At scope `thread` a fence has no effect. -/
def opFence (h : Hdr) (k : FenceKind) (scope0 : Nat) (s : State) : Outcome :=
  let x : LaneI := { len := 4, h := h }
  s.withGroup fun G =>
    match G.check x with
    | some c => s.trapNow G c
    | none =>
      let core := G.g.core
      let scope := scopeOn core scope0
      let slots := G.active x
      if (scope = 0 ∧ k ≠ .wack) ∨ slots.isEmpty = true then s.finish G x G.cs
      else
        let ws := s.fenceAwaits core G.g.course k scope
        let pod := decide (scope = 7 ∨ k = .wack)
        let s := if pod && decide (k ≠ .acq) then s.dueFor core (ws.map Await.id) else s
        let inval := decide (3 ≤ scope) && decide (k = .acq ∨ k = .full)
        let now := fun c : Course => if pod then c.recordLost else c
        if k = .rel then
          s.finish G x (slots.foldl (fun c i => c.modThread i fun t => { t with relAfter := t.relAfter ++ ws }) (now G.cs))
        else if ws.isEmpty then (if inval then s.invalLane core else s).finish G x (now G.cs)
        else s.waitOrPass G x slots (some (.fence false ws inval pod s.nextOrd x.len)) G.cs

/-- The accesses a phase covers: the stores and atomics of the core that have left a lane (R158). -/
def State.phaseAwaits (s : State) (core course scope : Nat) : List Await :=
  ((s.inflight.filter fun a =>
      decide (a.core = core) && a.kind.writes && (decide (a.st ≠ .held) || decide (a.course = course))).map
    fun a => ({ id := a.id, scope := scope } : Await)).filter fun w => !s.visible w

/-- `phase` (R158, R259). -/
def opPhase (p : Sc) (s : State) : Outcome :=
  let x : LaneI := { len := 4, h := p.h }
  s.withGroup fun G =>
    match G.check x with
    | some c => s.trapNow G c
    | none =>
      let core := G.g.core
      let scope := scopeOn core p.p.toNat
      let slots := G.active x
      if scope = 0 ∨ slots.isEmpty = true then s.finish G x G.cs
      else
        let ws := s.phaseAwaits core G.g.course scope
        let s := if scope = 7 then s.dueAll core else s
        if ws.isEmpty ∧ (s.oldestPhase core).isNone then
          (if 3 ≤ scope then s.invalLane core else s).finish G x (if scope = 7 then G.cs.recordLost else G.cs)
        else s.waitOrPass G x slots (some (.fence true ws (decide (3 ≤ scope)) (decide (scope = 7)) s.nextOrd x.len)) G.cs

/-- `waitn` (R168): the class is imm16[1:0], n is imm16[7:2]. -/
def opWaitn (len : Nat) (e : E64) (s : State) : Outcome :=
  let x : LaneI := { len := len, h := e.h }
  let cls := e.i.toNat % 4
  let n := e.i.toNat / 4 % 64
  s.withGroup fun G =>
    match G.check x with
    | some c => s.trapNow G c
    | none =>
      let slots := G.active x
      if slots.isEmpty = true ∨ n = 63 then s.finish G x G.cs
      else if G.cs.cnt.toList.getD cls 0 ≤ n then
        let s' := s.acquireClass G.g.core G.g.course cls
        s'.finish G x ((s'.course? G.g.core G.g.course).getD G.cs)
      else s.waitOrPass G x slots (some (.waitn cls n len)) G.cs

/-- `fetchb` (R260). -/
def opFetchb (e : H0) (s : State) : Outcome :=
  let x : LaneI := { len := 4, h := e.h }
  s.withGroup fun G =>
    match G.check x with
    | some c => s.trapNow G c
    | none =>
      let slots := G.active x
      if slots.isEmpty then s.finish G x G.cs
      else
        let ws := (s.courseWrites G.g.core G.g.course 7).filter fun w => !s.visible w
        if s.codeWaitDone G.cs ws then s.finish G x G.cs.dropCode
        else s.waitOrPass G x slots (some (.fetchb ws x.len)) G.cs

/-- `icinv` (R170, R243): each thread names its own range. -/
def opIcinv (len : Nat) (e : E64) (s : State) : Outcome :=
  let x := laneE len e [extA e, extB e]
  s.withGroup fun G =>
    match G.check x with
    | some c => s.trapNow G c
    | none =>
      let slots := G.active x
      let ws := (s.courseWrites G.g.core G.g.course 7).filter fun w => !s.visible w
      let range := fun i => (va57 (G.read x i (extA e)), (G.read x i (extB e)).toNat)
      if slots.isEmpty = true ∨ s.codeWaitDone G.cs ws = true then
        (slots.foldl (fun s i => s.invalCode G.g.core G.tk.ctx (range i).1 (range i).2) s).finish G x G.cs
      else
        let pass := G.g.slots.filter fun i => !slots.contains i
        let c := pass.foldl (fun c i => c.modThread i fun t => t.complete x.len) G.cs
        let c := slots.foldl (fun c i => c.modThread i fun t => { t with wait := .icinv (range i).1 (range i).2 ws x.len }) c
        s.leaveLane G.g G.g.slots.length (stallCycles x.h + G.edgeCostOf x pass) c

/-- `fence.full` (R258, R160). -/
def execFenceFull (x : Sc) (s : State) : Outcome := opFence x.h .full x.p.toNat s
/-- `fence.acq` (R258, R160). -/
def execFenceAcq (x : Sc) (s : State) : Outcome := opFence x.h .acq x.p.toNat s
/-- `fence.rel` (R258, R160). -/
def execFenceRel (x : Sc) (s : State) : Outcome := opFence x.h .rel x.p.toNat s
/-- `fence.wack` (R258, R160). -/
def execFenceWack (x : H0) (s : State) : Outcome := opFence x.h .wack 0 s

/-- `phase` (R259, R158). -/
def execPhase (x : Sc) (s : State) : Outcome := opPhase x s

/-- `fetchb` (R260). -/
def execFetchb (x : H0) (s : State) : Outcome := opFetchb x s

/-- `icinv`, 32-bit form (R243, R185): both operands are v0. -/
def execIcinv (x : H0) (s : State) : Outcome := opIcinv 4 (extH0 x) s
/-- `icinv` (R243, R170). -/
def execIcinvL (x : E64) (s : State) : Outcome := opIcinv 8 x s

/-- `waitn`, 32-bit form: class 0, n 0 (R185). -/
def execWaitn (x : H0) (s : State) : Outcome := opWaitn 4 (extH0 x) s
/-- `waitn` (R168). -/
def execWaitnL (x : E64) (s : State) : Outcome := opWaitn 8 x s

end Sys2Proof.Machine
end

