-- ==== Sys2Proof/Machine/Fetch.lean ====
section
/-! DEFINITION. Instruction fetch (R170, R172, R173): the loop buffer, the prefetched parcels, the instruction cache
and the bytes at the program counter. -/

namespace Sys2Proof.Machine

/-- How the fetch of an instruction ends: its bits, a trap, or a wait of the course for a walk or a remote line. -/
inductive Fetched where
  | bits (x : Nat)
  | trap (c : Cause)
  | wait
  deriving DecidableEq, Repr

/-- The 16-byte line of a home that holds an offset. -/
def Loc.line16 (x : Loc) : Loc :=
  match x with
  | .hbm d l => .hbm d (l / 16 * 16)
  | .scratch d o => .scratch d (o / 16 * 16)
  | .pool k o => .pool k (o / 16 * 16)
  | .remote d o => .remote d (o / 16 * 16)

/-- The fetch trap of a group: the lowest-numbered thread stands (R386), and the parcel that failed is its address and its
instruction's (R397). -/
def fetchTrap (g : Issue) (code sub : Nat) (va : Word) : Cause :=
  { code := code, sub := sub, faddr := va, ipc := va, tmask := 2 ^ g.slots.headD 0 }

/-- A 16-byte line of code: from the course's prefetched parcels, else the instruction cache, else its home. -/
def State.codeLine (s : State) (g : Issue) (va : Nat) (x : Loc) : List Byte × State :=
  match (s.course? g.core g.course).bind Course.prefetch with
  | some p => if p.1 = va / 16 then (p.2, s) else fromCache s
  | none => fromCache s
where
  /-- The line from the instruction cache, filled from its home if it is not there; it becomes the prefetched one. -/
  fromCache (s : State) : List Byte × State :=
    let k := lineKey x
    let bs := match (s.core g.core).icache.find? (fun l => decide (l.1 = k)) with
      | some l => l.2
      | none => s.locRead x.line16 16
    let s := if (s.core g.core).icache.any (fun l => decide (l.1 = k)) then s else s.served x.line16 16
    let s := s.modCore g.core fun c =>
      if c.icache.any (fun l => decide (l.1 = k)) then c else { c with icache := c.icache ++ [(k, bs)] }
    (bs, s.modCourse g.core g.course fun c => { c with prefetch := some (va / 16, bs) })

/-- Whether a parcel's line of code is read at its home: neither the prefetched one nor in the instruction cache. -/
def State.fetchFills (s : State) (g : Issue) (va : Nat) (x : Loc) : Bool :=
  !(((s.course? g.core g.course).bind Course.prefetch).any fun p => decide (p.1 = va / 16)) &&
    !(s.core g.core).icache.any fun l => decide (l.1 = lineKey x)

/-- The task of a group, as the consumer of what it fetches. -/
def State.groupTask (s : State) (g : Issue) : Option (Nat × Task) :=
  ((s.course? g.core g.course).bind fun c => s.task? g.core c.task).map fun t => (g.core, t)

/-- The place of an address in the course's loop buffer and the parcel there, for a thread whose innermost open level has
the captured body (R235). -/
def bufferedParcel (c : Course) (t : Thread) (va : Word) : Option (Nat × Option (BitVec 16)) :=
  match c.loopBuf with
  | some b =>
    if 0 < t.lopen ∧ t.level.str = b.lo ∧ t.level.lend = b.hi ∧ b.lo.toNat ≤ va.toNat ∧ va.toNat ≤ b.hi.toNat then
      (b.parcels[(va.toNat - b.lo.toNat) / 2]?).map fun p => ((va.toNat - b.lo.toNat) / 2, p)
    else none
  | none => none

/-- The loop buffer takes a parcel of its body that it could not read when it captured the body (R235). (log 20: DESIGN CHOICE, unsafe.) -/
def Course.keepParcel (c : Course) (k x : Nat) : Course :=
  { c with loopBuf := c.loopBuf.map fun b => { b with parcels := b.parcels.set k (some (BitVec.ofNat 16 x)) } }

/-- A fetch from a page that the host owns: the course waits for the page (R151). -/
def State.fetchPage (s : State) (g : Issue) (ctx : Nat) (e : TlbEntry) (va : Nat) : State :=
  let d := frameDie (e.phys va)
  let frame := leafBase e.pte.toNat e.size
  (s.modCourse g.core g.course fun c => { c with susp := some (.migration d frame va (g.slots.headD 0) true) }).askMigration d
    { frame := frame, toHost := false, assisted := false, ctx := ctx, va := va, pte := 0, waiters := [(g.core, g.course)] }

/-- One parcel at a virtual address. A line in what a `cresize` in progress changes waits for it (R146), and one with an
uncorrectable word traps (R410). (log 152: DESIGN CHOICE, unsafe.) -/
def State.fetchParcel (s : State) (g : Issue) (ctx : Nat) (sup : Bool) (va : Word) : Fetched × State :=
  if !isVa57 va then (.trap (fetchTrap g 0x10 5 va), s)
  else
    match s.tlbFind g.core ctx (va57 va) with
    | none =>
      (.wait, s.modCourse g.core g.course fun c => { c with susp := some (.walk ctx (va57 va) (g.slots.headD 0) 1) })
    | some e =>
      if !e.permits { x := true } sup then (.trap (fetchTrap g 0x11 6 va), s)
      else if e.hostOwned then (.wait, s.fetchPage g ctx e (va57 va))
      else
        let s := s.fillL1 g.core e
        match s.targetOf e (va57 va) with
        | .unmapped => (.trap (fetchTrap g 0x10 5 va), s)
        | .home x =>
          if s.fetchFills g (va57 va) x && s.resizeWaits x then
            (.wait, s.modCourse g.core g.course fun c => { c with susp := some (.ways x.dieOf) })
          else if s.fetchFills g (va57 va) x && (s.badIn x.line16 16).isSome then (.trap (fetchTrap g 0x70 0 va), s)
          else
            let r := s.codeLine g (va57 va) x
            (.bits (leNat ((r.1.drop (va57 va % 16)).take 2)), r.2)
        | .remote d o =>
          match (s.core g.core).icache.find? (fun l => decide (l.1 = lineKey (.remote d o))) with
          | some l => (.bits (leNat ((l.2.drop (va57 va % 16)).take 2)), s)
          | none =>
            if !s.routed d then (.trap (fetchTrap g (lostCode d) 0 va), s)
            else
              (.wait, s.askLine g.core g.course d o (fetchTrap g 0x10 8 va))

/-- One parcel for the group's lowest thread: from the loop buffer where it holds it, else fetched, and kept there where it
is of the body that the buffer holds. -/
def State.parcelFor (s : State) (g : Issue) (ctx : Nat) (c : Course) (va : Word) : Fetched × State :=
  match bufferedParcel c (c.thread (g.slots.headD 0)) va with
  | some (_, some p) => (.bits p.toNat, s)
  | some (k, none) =>
    match s.fetchParcel g ctx (c.thread (g.slots.headD 0)).sup va with
    | (.bits x, s') => (.bits x, s'.modCourse g.core g.course fun c => c.keepParcel k x)
    | y => y
  | none => s.fetchParcel g ctx (c.thread (g.slots.headD 0)).sup va

/-- The parcels of an instruction from its first on, `n` of them; the first that fails stands (R173). -/
def State.fetchFrom (s : State) (g : Issue) (ctx : Nat) (c : Course) : Nat → Word → Fetched × State
  | 0, _ => (.bits 0, s)
  | n + 1, va =>
    match s.parcelFor g ctx c va with
    | (.bits lo, s1) =>
      match s1.fetchFrom g ctx c n (va + 2) with
      | (.bits hi, s2) => (.bits (lo + 65536 * hi), s2)
      | y => y
    | r => r

/-- The parcels of a body from an address on, `n` of them; `none` stands for one that cannot be read at once (R235). -/
def State.captureFrom (s : State) (g : Issue) (ctx : Nat) (sup : Bool) : Nat → Word → List (Option (BitVec 16)) × State
  | 0, _ => ([], s)
  | n + 1, va =>
    match s.fetchParcel g ctx sup va with
    | (.bits x, s1) =>
      let r := s1.captureFrom g ctx sup n (va + 2)
      (some (BitVec.ofNat 16 x) :: r.1, r.2)
    | _ =>
      let r := s.captureFrom g ctx sup n (va + 2)
      (none :: r.1, r.2)

/-- The body to be captured is: the buffer holds it from now on, with the parcels that can be read (R170, R235).
(log 20: DESIGN CHOICE, unsafe.) -/
def State.captureNow (s : State) (g : Issue) (ctx : Nat) : State :=
  match s.course? g.core g.course with
  | none => s
  | some c =>
    match c.trimLoop.recapture with
    | none => s
    | some (lo, hi) =>
      let r := s.captureFrom g ctx (c.thread (g.slots.headD 0)).sup ((hi.toNat - lo.toNat) / 2 + 1) lo
      r.2.modCourse g.core g.course fun c => { c with loopBuf := some { lo := lo, hi := hi, parcels := r.1 }, recapture := none }

/-- The bits of the instruction at the group's program counter (R172, R173). -/
def State.fetch (s : State) (g : Issue) : Fetched × State :=
  match s.grp? g with
  | none => (.bits 0, s)
  | some G =>
    if g.pc.toNat % 2 = 1 then (.trap (fetchTrap g 0x13 0 g.pc), s)
    else
      let s := s.captureNow g G.tk.ctx
      let c := (s.course? g.core g.course).getD G.cs
      match s.fetchFrom g G.tk.ctx c 1 g.pc with
      | (.bits p, s1) => s1.fetchFrom g G.tk.ctx c (parcels p) g.pc
      | y => y

/-- The uncorrectable word that a fetch met, by its trap. -/
def State.fetchBad (s : State) (g : Issue) (c : Cause) : Option Loc :=
  if c.code ≠ 0x70 then none
  else (s.grp? g).bind fun G => (s.tlbFind g.core G.tk.ctx (va57 c.faddr)).bind fun e =>
    match s.targetOf e (va57 c.faddr) with
    | .home x => s.badIn x.line16 16
    | _ => none

/-- A group takes the trap of its fetch; an uncorrectable word that the fetch met is recorded (R410, R412). -/
def State.fetchTrapped (s : State) (g : Issue) (c : Cause) : Outcome :=
  match s.withGroup fun G => s.trapNow G c with
  | .next t => .next { ((s.fetchBad g c).elim t fun w => t.errorEvent w 1 (s.groupTask g)) with issue := none }
  | o => o

/-- The bits at an address as the selection sees them, with no effect; 0 where they cannot be fetched now. -/
def State.peek (s : State) (core course : Nat) (slot : Nat) (pc : Word) : Nat :=
  match (s.fetch { core := core, course := course, slots := [slot], pc := pc, t := s.now }).1 with
  | .bits x => x
  | _ => 0

end Sys2Proof.Machine
end

