-- ==== Sys2Proof/Machine/Control.lean ====
section
/-! DEFINITION. Control flow: branches, calls, returns, exit, loops, convergence, barriers, guard slots, traps, system
calls and yield (R224 to R240, R244, R245). -/

namespace Sys2Proof.Machine

/-! ## Branches (R224, R225) -/

/-- The group leaves the lane. `f` gives a thread whose guard is true the thread that a taken branch leaves it; every
other thread completes the instruction. A taken branch costs its course two cycles, unless its target is captured. -/
def State.leaveSteered (s : State) (G : Grp) (x : LaneI) (f : Nat → Thread → Option Thread) : State :=
  let taken := (G.active x).filterMap fun i => (f i (G.cs.thread i)).map fun t => (i, t)
  let stay := G.g.slots.filter fun i => taken.all fun p => decide (p.1 ≠ i)
  let c := taken.foldl (fun c p => c.setThread p.1 p.2) G.cs
  let c := stay.foldl (fun c i => c.modThread i fun t => t.complete x.len) c
  let far := taken.any fun p => !G.cs.captured p.2.pc
  s.leaveLane G.g G.g.slots.length (stallCycles x.h + max (if far then 2 else 0) (G.edgeCostOf x stay)) c

/-- A branch by its target in each thread; `none` where its condition does not hold. -/
def opBranch (x : LaneI) (target : Grp → Nat → Option Word) (odd : Bool) (s : State) : Outcome :=
  s.withGroup fun G =>
    match G.check x with
    | some c => s.trapNow G c
    | none =>
      let bad := (G.active x).findSome? fun i =>
        match target G i with
        | some g => if odd && g.getLsbD 0 then some (G.fault 0x13 0 i g) else none
        | none => none
      match bad with
      | some c => s.trapNow G c
      | none => s.leaveSteered G x fun i t => (target G i).map t.branch

/-- The target of a relative branch: own address plus two bytes for each parcel (R224). -/
def relTarget (pc : Word) (disp : Word) : Word := pc + 2 * disp

/-- The view of `brx` and `callx`: a is a uniform register when au is set. -/
def laneA (len : Nat) (x : A1) (au : Bool) : LaneI := { len := len, h := x.h, rd := [src au x.a] }

/-- `brx` (R224). -/
def opBrx (len : Nat) (x : A1) (au : Bool) (s : State) : Outcome :=
  opBranch (laneA len x au) (fun G i => some (G.read (laneA len x au) i (src au x.a))) true s

/-- Whether a core's closed vector has a destination's bit; the own rank reads 0 (R224, R331). -/
def State.seenClosed (s : State) (core dest : Nat) : Bool := (s.core core).closed.getLsbD dest && decide (dest ≠ s.rank)

/-- `bra` (R224). -/
def execBra (x : I16) (s : State) : Outcome :=
  opBranch { len := 4, h := x.h } (fun G _ => some (relTarget G.g.pc (x.i.signExtend 64))) false s
/-- `bra`, 64-bit form (R224). -/
def execBraL (x : I16l) (s : State) : Outcome :=
  opBranch { len := 8, h := x.h } (fun G _ => some (relTarget G.g.pc (x.i.signExtend 64))) false s
/-- `brx` (R224). -/
def execBrx (x : A1) (s : State) : Outcome := opBrx 4 x false s
/-- `brx`, 64-bit form (R224). -/
def execBrxL (x : A1m) (s : State) : Outcome := opBrx 8 x.r x.m.au s
/-- `balw` (R224). -/
def execBalw (x : Bw) (s : State) : Outcome :=
  let l : LaneI := { len := 8, h := x.h, rd := [.v x.a] }
  opBranch l (fun G i =>
    if s.seenClosed G.g.core ((G.read l i (.v x.a)).toNat % 512) then some (relTarget G.g.pc (x.i.signExtend 64)) else none) false s

/-! ## The return stack (R47, R226) -/

/-- Entries on chip, at most four, oldest first, after a push. -/
def Thread.push (t : Thread) (a : Word) : Thread :=
  { t with rs := (if t.rs.length = 4 then t.rs.drop 1 else t.rs) ++ [a], depth := t.depth + 1 }

/-- After a pop; `fill` is the entry that comes back on chip where more than four are held. -/
def Thread.pop (t : Thread) (fill : Option Word) : Thread :=
  { t with rs := fill.toList ++ t.rs.dropLast, depth := t.depth - 1 }

/-- The spill address of a push, and the fill address of a return, where there is one. -/
def spillAt (tk : Task) (t : Thread) : Option Word :=
  if 4 ≤ t.depth then some (tk.rsbase + BitVec.ofNat 64 (8 * (t.depth - 4))) else none
def fillAt (tk : Task) (t : Thread) : Option Word :=
  if 5 ≤ t.depth then some (tk.rsbase + BitVec.ofNat 64 (8 * (t.depth - 5))) else none

/-- A stack fault: trap 0x06 with its sub-cause (R385). -/
def Grp.stackFault (G : Grp) (sub i : Nat) (va : Word) : Cause := G.fault 0x06 sub i va

/-- A spill or fill that faults, for the reason of any memory access, is trap 0x06 at its address. -/
def Grp.asStack (G : Grp) (sub : Nat) (at_ : List (Nat × Word)) (c : Cause) : Cause :=
  let i := (maskSlots c.tmask 64).headD 0
  G.stackFault sub i (((at_.find? fun e => decide (e.1 = i)).map Prod.snd).getD 0)

/-- A wait for a walk, with the kind of access that waits: 0 data, 1 fetch, 2 spill, 3 fill. -/
def Suspend.asKind (w : Suspend) (k : Nat) : Suspend :=
  match w with
  | .walk ctx va slot _ => .walk ctx va slot k
  | x => x

/-- A call: the checks, then a push and a jump in each thread whose guard is true (R226, R227). (log 21: DEDUCED, unsafe.) -/
def opCall (x : LaneI) (target : Grp → Nat → Word) (odd : Bool) (s : State) : Outcome :=
  s.withGroup fun G =>
    let act := G.active x
    let ends := fun i : Nat =>
      let t := G.cs.thread i
      t.atEnd x.len
    let handler := match G.cs.trap with | .handler h => some h | _ => none
    let stack := fun i : Nat =>
      let t := G.cs.thread i
      if t.depth = 65535 then some (G.stackFault 1 i 0)
      else if 4 ≤ t.depth ∧ handler = some i then some (G.stackFault 3 i 0)
      else none
    let first : Option Cause :=
      (G.check x).or ((act.findSome? fun i => if ends i then some { code := 0x04, sub := 8, ipc := G.g.pc, tmask := 2 ^ i } else none).or
        ((act.findSome? fun i => if odd && (target G i).getLsbD 0 then some (G.fault 0x13 0 i (target G i)) else none).or
          (act.findSome? stack)))
    match first with
    | some c => s.trapNow G c
    | none =>
      let spills := act.filterMap fun i => (spillAt G.tk (G.cs.thread i)).map fun a => (i, a)
      match s.memCheck G 3 { w := true } 8 8 false spills with
      | .trap c => s.trapNow G (G.asStack 3 spills c)
      | .wait w => s.waitPage G (w.asKind 2)
      | .ok l =>
        match s.gate G false true 8 l with
        | some s' => s'
        | none =>
          let r := l.foldl (fun r e =>
              let after := s.orderAfter G e.1 false 3
              let val := ((G.cs.thread e.1).rs.headD 0).setWidth 128
              startAccess G r.2 r.1 e.1 e.2.1 e.2.2 (.store false) 5 false val 0 [] after)
            (G.cs, s.touchTlb G 3 spills)
          let s := l.foldl (fun s e =>
            s.modCore G.g.core fun k => { k with icache := k.icache.filter fun y => decide (y.1 ≠ lineKey e.2.2) || !e.2.2.isRemote }) r.2
          let marks := ((s.course? G.g.core G.g.course).map Course.lostDests).getD []
          let G' : Grp := { G with cs := { r.1 with lostDests := marks } }
          s.leaveSteered G' x fun i t =>
            if act.contains i then some { t.push (G.g.pc + BitVec.ofNat 64 x.len) with pc := target G i } else none

/-- The bytes of a fill: those of its home, or of the line that has come from another destination. -/
def State.fillWord (s : State) (core : Nat) (x : Loc) : Word :=
  match x with
  | .remote _ o =>
    match (s.core core).icache.find? (fun l => decide (l.1 = lineKey x)) with
    | some l => BitVec.ofNat 64 (leNat ((l.2.drop (o % 16)).take 8))
    | none => 0
  | _ => BitVec.ofNat 64 (leNat (s.locRead x 8))

/-- `ret` (R226): the newest entry is popped, an older one comes back on chip where more than four are held, and levels
are left as a taken branch leaves them (R233). A word that comes back is read as a load reads it: it waits for a `cresize` (R146),
and an uncorrectable one traps (R410; log 152). -/
def opRet (h : Hdr) (s : State) : Outcome :=
  let x : LaneI := { len := 4, h := h }
  s.withGroup fun G =>
    let act := G.active x
    let first := (G.check x).or (act.findSome? fun i => if (G.cs.thread i).depth = 0 then some (G.stackFault 2 i 0) else none)
    match first with
    | some c => s.trapNow G c
    | none =>
      let fills := act.filterMap fun i => (fillAt G.tk (G.cs.thread i)).map fun a => (i, a)
      match s.memCheck G 3 { r := true } 8 8 false fills with
      | .trap c => s.trapNow G (G.asStack 4 fills c)
      | .wait w => s.waitPage G (w.asKind 3)
      | .ok l =>
        let lost := l.findSome? fun e =>
          match e.2.2 with
          | .remote d _ => if s.routed d then none else some e
          | _ => none
        match lost with
        | some e => s.trapNow G (G.asStack 4 fills (G.fault 0x71 0 e.1 e.2.1))
        | none =>
          let busy := l.any fun e => s.inflight.any fun a =>
            decide (a.core = G.g.core) && a.kind.writes && a.loc.overlaps a.size e.2.2 8
          let absent := l.findSome? fun e =>
            match e.2.2 with
            | .remote d o =>
              if (s.core G.g.core).icache.any (fun y => decide (y.1 = lineKey e.2.2)) then none else some (d, o, G.fault 0x06 4 e.1 e.2.1)
            | _ => none
          let bad := l.findSome? fun e => (s.badIn e.2.2 8).map fun w => (w, e)
          if busy || l.any (fun e => s.resizeWaits e.2.2) then s.holdAt G
          else match absent, bad with
            | none, some b => (s.errorEvent b.1 1 (some (G.g.core, G.tk))).trapNow G (G.asStack 4 fills (G.fault 0x70 0 b.2.1 b.2.2.1))
            | some p, _ => (s.stayIssued G).askLine G.g.core G.g.course p.1 p.2.1 p.2.2
            | none, none =>
              let word := fun i : Nat => (l.find? fun e => decide (e.1 = i)).map fun e => s.fillWord G.g.core e.2.2
              (s.touchTlb G 3 fills).leaveSteered G x fun i t =>
                if act.contains i then some ((t.pop (word i)).branch (t.rs.getLastD 0)) else none

/-- `call` (R226). -/
def execCall (x : I16) (s : State) : Outcome :=
  opCall { len := 4, h := x.h } (fun G _ => relTarget G.g.pc (x.i.signExtend 64)) false s
/-- `call`, 64-bit form (R226). -/
def execCallL (x : I16l) (s : State) : Outcome :=
  opCall { len := 8, h := x.h } (fun G _ => relTarget G.g.pc (x.i.signExtend 64)) false s
/-- `callx` (R226, R227). -/
def execCallx (x : A1) (s : State) : Outcome :=
  opCall (laneA 4 x false) (fun G i => G.read (laneA 4 x false) i (.v x.a)) true s
/-- `callx`, 64-bit form (R226, R227). -/
def execCallxL (x : A1m) (s : State) : Outcome :=
  opCall (laneA 8 x.r x.m.au) (fun G i => G.read (laneA 8 x.r x.m.au) i (src x.m.au x.r.a)) true s
/-- `ret` (R226). -/
def execRet (x : H0) (s : State) : Outcome := opRet x.h s

/-! ## Exit and yield (R228) -/

/-- `exit` (R228): the threads with a true guard end; the others go on. -/
def execExit (x : H0) (s : State) : Outcome :=
  let l : LaneI := { len := 4, h := x.h }
  s.withGroup fun G =>
    match G.check l with
    | some c => s.trapNow G c
    | none =>
      let act := G.active l
      let stay := G.g.slots.filter fun i => !act.contains i
      let c := stay.foldl (fun c i => c.modThread i fun t => t.complete l.len) G.cs
      (s.leaveLane G.g G.g.slots.length (stallCycles x.h + G.edgeCostOf l stay) c).exitThreads G.g.core G.g.course act

/-- `yield` (R228): the course is no candidate until its lane has selected another course, or 64 cycles have passed. -/
def execYield (x : H0) (s : State) : Outcome :=
  let l : LaneI := { len := 4, h := x.h }
  s.withGroup fun G =>
    match G.check l with
    | some c => s.trapNow G c
    | none => s.finish G l (if (G.active l).isEmpty then G.cs else { G.cs with yieldUntil := some (G.g.t + 64) })

/-! ## Loops (R229 to R233) -/

/-- What a `loop` opens: its own address, the body's first and last parcel, and for each thread the trip count, the
ring size and the stage count. -/
structure LoopOp where
  own : Word
  first : Word
  last : Word

/-- The conditions of R229 and R232 that fail in a thread, by their sub-causes (R393). The earliest in the order of R229 that
any thread fails is raised (R386). -/
def Thread.loopFaults (t : Thread) (o : LoopOp) (trips stages : Nat) : List Nat :=
  let l := t.level
  let inside := decide (0 < t.lopen ∧ l.str.toNat ≤ o.own.toNat ∧ o.own.toNat ≤ l.lend.toNat)
  (if t.lopen = 4 then [1] else []) ++ (if o.last.toNat < o.first.toNat then [3] else []) ++
    (if 2 ^ 32 ≤ trips + stages - 1 then [4] else []) ++ (if t.pipelined then [5] else []) ++
    if inside && decide (o.first.toNat < l.str.toNat ∨ l.lend.toNat < o.last.toNat) then [2] else []

/-- A thread opens the level; a trip count of 0 skips the body. `pre` is the ring size and stage count of a prefix. (log 18: DEDUCED, unsafe.) -/
def Thread.openLoop (t : Thread) (o : LoopOp) (trips : Nat) (pre : Option (Nat × Nat)) : Thread :=
  let stages := (pre.map Prod.snd).getD 1
  if trips = 0 then { t with pc := o.last + 2 }
  else
    let t' := t.setLevel t.lopen { cnt := BitVec.ofNat 32 (trips + stages - 1), idx := 0, str := o.first, lend := o.last }
    let t' := { t' with lopen := t.lopen + 1, pc := o.first }
    match pre with
    | some p => { t' with ring := p.1, base := 0, stages := p.2 }
    | none => t'

/-- The loop buffer captures a body of 64 parcels or fewer that a thread has opened, unless it holds one that is open
(R235). A level that `lput` to `lopen` opens starts no capture. (log 159: DESIGN CHOICE, unsafe.) -/
def State.capture (s : State) (g : Issue) (ctx : Nat) (o : LoopOp) : State :=
  match s.course? g.core g.course with
  | none => s
  | some c =>
    let opened := c.threads.any fun t => t.live && decide (0 < t.lopen) && decide (t.level.str = o.first ∧ t.level.lend = o.last)
    if !opened || c.loopBuf.isSome || c.recapture.isSome || decide (64 < (o.last.toNat - o.first.toNat) / 2 + 1) then s
    else State.captureNow (s.modCourse g.core g.course fun c => { c with recapture := some (o.first, o.last) }) g ctx

/-- A `loop`, with the prefix `pre` and its guard where an `lcfg` stands before it (R229, R230). `own` is the address of
the `loop` itself. -/
def opLoop (x : LaneI) (own : Word) (len : Nat) (trip : Rd) (e : Nat) (pre : Option (Hdr × Nat × Nat)) (s : State) : Outcome :=
  s.withGroup fun G =>
    let o : LoopOp := { own := own, first := own + BitVec.ofNat 64 len, last := own + BitVec.ofNat 64 (2 * e) }
    let prefixOf := fun i : Nat =>
      match pre with
      | some p => if guardHolds p.1 (G.cs.thread i) (G.regCyc x i) then some p.2 else none
      | none => none
    let trips := fun i : Nat => (G.read x i trip).toNat % 2 ^ 32
    let faults := fun i : Nat => (G.cs.thread i).loopFaults o (trips i) (((prefixOf i).map Prod.snd).getD 1)
    let bad := [1, 3, 4, 5, 2].findSome? fun sub =>
      ((G.active x).find? fun i => (faults i).contains sub).map fun i =>
        ({ code := 0x04, sub := sub, ipc := G.g.pc, tmask := 2 ^ i } : Cause)
    match (G.check x).or bad with
    | some c => s.trapNow G c
    | none =>
      let act := G.active x
      let stay := G.g.slots.filter fun i => !act.contains i
      let c := act.foldl (fun c i => c.modThread i fun t => t.openLoop o (trips i) (prefixOf i)) G.cs
      let c := stay.foldl (fun c i => c.modThread i fun t => t.complete x.len) c
      let s := s.setCourse G.g.core G.g.course c.trimLoop
      let s := s.capture G.g G.tk.ctx o
      s.leaveLane G.g G.g.slots.length (stallCycles x.h + G.edgeCostOf x stay) ((s.course? G.g.core G.g.course).getD c)

/-- `loop` (R229). -/
def execLoop (x : Lo) (s : State) : Outcome :=
  opLoop { len := 4, h := x.h, rd := [src x.u x.t] } ((s.issue.map Issue.pc).getD 0) 4 (src x.u x.t) x.e.toNat none s
/-- `loop`, 64-bit form (R229). -/
def execLoopL (x : Lo64) (s : State) : Outcome :=
  opLoop { len := 8, h := x.h, rd := [src x.u x.t] } ((s.issue.map Issue.pc).getD 0) 8 (src x.u x.t) x.e.toNat none s

/-- The trap of an `lcfg` that begins no pair, or of a pair whose `loop` has a reserved guard (R187, R230). -/
def State.lcfgTrap (s : State) (code sub : Nat) : Outcome :=
  s.withGroup fun G => s.trapNow G { code := code, sub := sub, ipc := G.g.pc, tmask := 2 ^ G.lowest }

/-- `lcfg` (R230): it issues with the `loop` at the next parcel as one instruction; its own stall count is ignored. (log 19: DEDUCED, unsafe.) -/
def execLcfg (x : Lc) (s : State) : Outcome :=
  match s.issue with
  | none => .next s
  | some g =>
    let at_ := g.pc + 4
    match s.fetch { g with pc := at_ } with
    | (.trap c, s') => s'.fetchTrapped g c
    | (.wait, s') => .next ((s'.grp? g).elim { s' with issue := none } s'.stayIssued)
    | (.bits b, s') =>
      let pair := fun (h : Hdr) (len : Nat) (u : Bool) (t : Reg) (e : Nat) =>
        if !h.guardOk then s'.lcfgTrap 0x02 h.g.toNat
        else opLoop { len := 4 + len, h := h, rd := [src u t], more := guardRd x.h } at_ len (src u t) e
          (some (x.h, x.z.toNat, x.k.toNat + 1)) s'
      match opBits b with
      | some (.loop, w, _) => pair (unLo w).h 4 (unLo w).u (unLo w).t (unLo w).e.toNat
      | some (.loopL, w, v) => pair (unLo64 w v).h 8 (unLo64 w v).u (unLo64 w v).t (unLo64 w v).e.toNat
      | _ => s'.lcfgTrap 0x01 0

/-- A thread closes its innermost level and goes on after its body (R233). -/
def Thread.brk (t : Thread) : Thread :=
  let l := t.level
  let t' : Thread := { t.closeLevel with pc := l.lend + 2 }
  if 0 < t'.lopen ∧ t'.pc = t'.level.lend + 2 then t'.backEdge 4 else t'

/-- `brk` (R233). -/
def execBrk (x : H0) (s : State) : Outcome :=
  let l : LaneI := { len := 4, h := x.h }
  s.withGroup fun G =>
    let bad := (G.active l).findSome? fun i =>
      if (G.cs.thread i).inBody then none else some ({ code := 0x04, sub := 6, ipc := G.g.pc, tmask := 2 ^ i } : Cause)
    match (G.check l).or bad with
    | some c => s.trapNow G c
    | none => s.leaveSteered G l fun i t => if (G.active l).contains i then some t.brk else none

/-! ## Convergence (R31, R236) -/

/-- Threads of the group enter a convergence wait; those of `slots` it holds, unless it is over at once (R31). On a
control core every `cnv` completes at once (R20). -/
def State.enterConv (s : State) (G : Grp) (x : LaneI) (slots : List Nat) (mask : Nat → Nat) (pred : Option (BitVec 4)) : State :=
  if isCtl G.g.core ∨ slots.isEmpty = true then s.finish G x G.cs
  else
    let due := s.convDue (coreDie G.g.core)
    let pass := G.g.slots.filter fun i => !slots.contains i
    let c := pass.foldl (fun c i => c.modThread i fun t => t.complete x.len) G.cs
    let c := slots.foldl (fun c i => c.modThread i fun t => { t with wait := .conv (mask i &&& slotMask (unitSlots (c.unit G.tk.width i))) pred due x.len, waitOrd := s.nextOrd }) c
    s.leaveLane G.g G.g.slots.length (stallCycles x.h + G.edgeCostOf x pass) (c.converge G.tk.width s.now)

/-- `cnv` (R236). -/
def opCnv (x : LaneI) (mask : Grp → Nat → Nat) (s : State) : Outcome :=
  s.withGroup fun G =>
    match G.check x with
    | some c => s.trapNow G c
    | none => s.enterConv G x (G.active x) (mask G) none

/-- `cnvq` (R236). -/
def opCnvq (len : Nat) (h : Hdr) (p : BitVec 4) (s : State) : Outcome :=
  let x : LaneI := { len := len, h := h, rd := [.q p] }
  s.withGroup fun G =>
    match G.check x with
    | some c => s.trapNow G c
    | none => s.enterConv G x ((G.active x).filter fun i => decide (G.read x i (.q p) ≠ 0)) (fun _ => 2 ^ 64 - 1) (some p)

/-- `cnv` with the whole convergence set (R236). -/
def execCnv (x : H0) (s : State) : Outcome := opCnv { len := 4, h := x.h } (fun _ _ => 2 ^ 64 - 1) s
/-- `cnv cN` (R236). -/
def execCnvMask (x : D1) (s : State) : Outcome :=
  let l : LaneI := { len := 4, h := x.h, rd := [.c x.d] }
  opCnv l (fun G i => (G.read l i (.c x.d)).toNat) s
/-- `cnvq`, 32-bit form: predicate 0 (R236, R185). -/
def execCnvq (x : H0) (s : State) : Outcome := opCnvq 4 x.h 0 s
/-- `cnvq` (R236). -/
def execCnvqL (x : E64) (s : State) : Outcome := opCnvq 8 x.h x.p s

/-! ## Barriers (R237, R238) -/

/-- The number of a gang: the launch, the node and the gang within the node. -/
def gangId (tk : Task) : Nat :=
  ((tk.ref.die * 2 ^ 32 + tk.ref.graph) * 2 ^ 16 + tk.ref.node) * 2 ^ 32 + tk.ref.index / max 1 tk.gang

/-- The barrier instance a thread names by scope and number. -/
def barKeyOf (core course slot : Nat) (c : Course) (tk : Task) (scope n : Nat) : BarKey :=
  let scope := scopeOn core scope
  if scope = 1 then courseBar core course (c.unit tk.width slot).1 n
  else if scope = 2 then { scope := 2, place := core, group := c.task, num := n }
  else
    { scope := scope
      place := if scope = 3 then core / 132 * 33 + core % 132 / 4 else if scope = 4 then coreCluster core else if scope = 5 then coreDie core else 0
      group := gangId tk, num := n }

/-- Whether an arrival at an instance finds an entry: it holds one, or fewer than 64 of its scope instance are held
(R238). -/
def State.barRoom (s : State) (k : BarKey) : Bool :=
  decide (k.scope ≤ 2) || !(s.bar k).arrived.isEmpty ||
    decide ((s.bars.filter fun b => decide (b.key.scope = k.scope ∧ b.key.place = k.place) && !b.arrived.isEmpty).length < 64)

/-- The threads of a course in barrier wait whose release is complete arrive (R238): their earlier accesses are visible at
the scope, and the instance has an entry. -/
def State.arriveCourse (s : State) (core course : Nat) : State :=
  match s.course? core course with
  | none => s
  | some c =>
    let idx := ((s.task? core c.task).map fun t => t.ref.index).getD 0
    (List.range c.threads.length).foldl (fun s i =>
      let t := ((s.course? core course).getD c).thread i
      match t.wait with
      | .barrier k q false =>
        if t.live && s.allVisible t.relAfter && s.barRoom k && decide (q ≤ (s.bar k).seq) then
          let b := s.bar k
          let s := s.setBar { b with arrived := b.arrived ++ [(idx, t.tid)], due := some (b.due.getD (s.barDue (coreDie core) k)) }
          s.modCourse core course fun c => c.modThread i fun t => { t with wait := .barrier k b.seq true }
        else s
      | _ => s) s

/-- `bar` (R237, R238): a release at the scope, then the arrival; the thread waits until the barrier completes. (log 27: DEDUCED, safe.) -/
def execBar (x : Ba) (s : State) : Outcome :=
  let l : LaneI := { len := 4, h := x.h }
  let n := x.i.toNat
  let scope0 := x.p.toNat
  s.withGroup fun G =>
    let act := G.active l
    let bad := if (scope0 = 1 ∧ 7 < n) ∨ 63 < n then
        act.head?.map fun i => ({ code := 0x01, ipc := G.g.pc, tmask := 2 ^ i } : Cause)
      else none
    match (G.check l).or bad with
    | some c => s.trapNow G c
    | none =>
      let core := G.g.core
      let scope := scopeOn core scope0
      let ws := s.fenceAwaits core G.g.course .rel scope
      let s := if scope = 7 ∧ act.isEmpty = false then s.dueFor core (ws.map Await.id) else s
      let stay := G.g.slots.filter fun i => !act.contains i
      let c := stay.foldl (fun c i => c.modThread i fun t => t.complete l.len) G.cs
      let c := act.foldl (fun c i =>
        let k := barKeyOf core G.g.course i G.cs G.tk scope0 n
        c.modThread i fun t => { t with relAfter := t.relAfter ++ ws, wait := .barrier k (s.bar k).seq false, waitOrd := s.nextOrd }) c
      (s.leaveLane G.g G.g.slots.length (stallCycles x.h + G.edgeCostOf l stay) c).arriveCourse core G.g.course

/-! ## Guard slots (R239) -/

/-- A guard slot of a course is written. -/
def Course.setSlot (c : Course) (n : Nat) (v : GSlot) : Course :=
  { c with g := if h : n < 16 then c.g.set n v else c.g }

/-- `setg` (R239). -/
def opSetg (len : Nat) (x : E64) (s : State) : Outcome :=
  let l := laneE len x [.q x.p]
  s.lane l noCheck fun G i c =>
    c.setSlot (x.i.toNat % 16) (if G.read l i (.q x.p) ≠ 0 then .isTrue else .isFalse)

/-- `clrg` (R239). -/
def opClrg (len : Nat) (x : E64) (s : State) : Outcome :=
  s.lane (laneE len x []) noCheck fun _ _ c => c.setSlot (x.i.toNat % 16) .unresolved

/-- `setg`, 32-bit form: slot 0, predicate 0 (R239, R185). -/
def execSetg (x : H0) (s : State) : Outcome := opSetg 4 (extH0 x) s
/-- `setg` (R239). -/
def execSetgL (x : E64) (s : State) : Outcome := opSetg 8 x s
/-- `clrg`, 32-bit form: slot 0 (R239, R185). -/
def execClrg (x : H0) (s : State) : Outcome := opClrg 4 (extH0 x) s
/-- `clrg` (R239). -/
def execClrgL (x : E64) (s : State) : Outcome := opClrg 8 x s

/-! ## Traps, breakpoints and system calls (R240) -/

/-- A trap in the lowest-numbered thread whose guard is true, with its number (R240, R386); with no such thread the
instruction has no effect. (log 22: DEDUCED, unsafe.) -/
def State.raise (s : State) (G : Grp) (l : LaneI) (code num : Nat) : State :=
  match (G.active l).head? with
  | some i => s.trapNow G { code := code, num := num, ipc := G.g.pc, tmask := 2 ^ i }
  | none => s.finish G l G.cs

/-- `trap` (R240). -/
def execTrap (x : N11) (s : State) : Outcome :=
  let l : LaneI := { len := 4, h := x.h }
  s.withGroup fun G =>
    match G.check l with
    | some c => s.trapNow G c
    | none => s.raise G l 0x60 x.i.toNat

/-- `bkpt` (R240, R56): no effect while `dbgctl`.dbgen is 0. -/
def execBkpt (x : N11) (s : State) : Outcome :=
  let l : LaneI := { len := 4, h := x.h }
  s.withGroup fun G =>
    match G.check l with
    | some c => s.trapNow G c
    | none => if (s.core G.g.core).dbgctl.getLsbD 0 then s.raise G l 0x50 x.i.toNat else s.finish G l G.cs

/-- The system-call record (R360). (log 26: DEDUCED, unsafe.) -/
def syscRecord (G : Grp) (id n mask : Nat) : List Byte :=
  let slots := maskSlots mask 64
  leBytes 4 id ++ leBytes 4 n ++
  leBytes 8 (2 ^ 32 * (G.tk.ref.graph % 2 ^ 32) + 2 ^ 16 * (G.tk.ref.node % 2 ^ 16) + 2 ^ 8 * coreDie G.g.core + coreIn G.g.core) ++
  leBytes 4 G.g.course ++ leBytes 4 (mask % 2 ^ 32) ++ leBytes 8 G.g.pc.toNat ++ leBytes 4 (mask / 2 ^ 32) ++
  List.replicate 28 0 ++
  slots.flatMap fun i => (List.range 8).flatMap fun j => leBytes 8 ((G.cs.thread i).readV (BitVec.ofNat 5 j) (G.g.t + G.g.slots.findIdx (· = i))).toNat

/-- A system call (R240, R82, R360): its record goes to the host's ring and the course parks. (log 23: DEDUCED, unsafe.) -/
def State.sysCall (s : State) (G : Grp) (mask n : Nat) : State :=
  let id := s.nextCall
  let s := s.recordTo (coreCluster G.g.core) 66 4 (syscRecord G id n mask)
  let call : SysCall := { id := id, die := G.tk.ref.die, graph := G.tk.ref.graph, node := G.tk.ref.node, index := G.tk.ref.index, pos := G.cs.pos, mask := mask }
  let s := { s with nextCall := id % (2 ^ 32 - 1) + 1, calls := s.calls ++ [call] }
  (s.parkAt { G with cs := { G.cs with syscall := id, syscApplied := false } } (.sysc id (slotMask G.g.slots) 4)).modCourse
    G.g.core G.g.course fun c => { c with stepping := G.cs.stepping }

/-- `sysc` (R240): a system call while the route of 0x61 is the host, else trap 0x61. -/
def execSysc (x : N11) (s : State) : Outcome :=
  let l : LaneI := { len := 4, h := x.h }
  s.withGroup fun G =>
    match G.check l with
    | some c => s.trapNow G c
    | none =>
      let act := G.active l
      if act.isEmpty then s.finish G l G.cs
      else if s.route G.g.core false 0x61 = 3 then s.sysCall G (slotMask act) x.i.toNat
      else s.raise G l 0x61 x.i.toNat

end Sys2Proof.Machine
end

