-- ==== Sys2Proof/Machine/Convert.lean ====
section
/-! DEFINITION. Conversions (R209 to R212). -/

namespace Sys2Proof.Machine

/-- An integer source as an exact value; a zero has no sign (R209). -/
def fpOfInt (x : Int) : Fp := .fin (decide (x < 0)) x.natAbs 0

/-- FP32 from an integer (codes 0 to 3): the modifiers act on the exact integer. -/
def cvtFromInt (m : Modifier) (x : Int) : Nat :=
  let x := modInt m.absa m.nega x
  let x := if m.negd then -x else x
  f32.finish { m with negd := false } (fpOfInt x)

/-- The value a conversion rounds: the source under its modifiers, negation and scale (R209). -/
def cvtExact (m : Modifier) (x : Fp) : Fp :=
  let x := x.mods m.absa m.nega
  (if m.negd then x.neg else x).scale m.k.toInt

/-- A conversion between floating formats (R209, R210). -/
def cvtFloat (src dst : FpFmt) (m : Modifier) (bits : Nat) : Nat :=
  dst.finish m ((src.decode bits).mods m.absa m.nega)

/-- An integer from FP32, clamped whatever the saturation field holds (R210, R89). -/
def cvtToInt (m : Modifier) (lo hi : Int) (w : Nat) (bits : Nat) : Nat :=
  (((cvtExact m (f32.decode bits)).clampInt m.rnd lo hi) % 2 ^ w).toNat

/-- A BP code of n bits from FP32 (R211). The sign of an infinite source is taken after `absa`, `nega` and `negd`, as that of
a finite one is (R209). (log 157: DESIGN CHOICE, unsafe.) -/
def cvtToBp (n : Nat) (m : Modifier) (bits : Nat) : Nat :=
  let top : Nat := 2 ^ (n - 1) - 1
  match cvtExact m (f32.decode bits) with
  | .nan => 2 ^ (n - 1)
  | .inf s => (if s then 2 ^ (n - 1) else 0) + top
  | x =>
    let g := (x.toInteger m.rnd).getD 0
    (if g < 0 then 2 ^ (n - 1) else 0) + min g.natAbs top

/-- `cvt` by its code (R210, R211). (log 17: DEDUCED, unsafe.) -/
def cvtVal (code : Nat) (m : Modifier) (a : Word) : Word :=
  let b := asNat 32 a
  BitVec.ofNat 64 <|
    match code with
    | 0 => cvtFromInt m (asInt 32 a)
    | 1 => cvtFromInt m (asNat 32 a)
    | 2 => cvtFromInt m (asInt 64 a)
    | 3 => cvtFromInt m (asNat 64 a)
    | 4 => cvtToInt m (-(2 ^ 31)) (2 ^ 31 - 1) 32 b
    | 5 => cvtToInt m 0 (2 ^ 32 - 1) 32 b
    | 6 => cvtToInt m (-(2 ^ 63)) (2 ^ 63 - 1) 64 b
    | 7 => cvtToInt m 0 (2 ^ 64 - 1) 64 b
    | 8 => cvtFloat f32 f16 m b
    | 9 => cvtFloat f32 bf16 m b
    | 10 => cvtFloat f16 f32 m (b % 2 ^ 16)
    | 11 => cvtFloat bf16 f32 m (b % 2 ^ 16)
    | 12 => cvtFloat f32 e4m3 m b
    | 13 => cvtFloat f32 e5m2 m b
    | 14 => cvtFloat f32 e2m1 m b
    | 15 => cvtFloat e4m3 f32 m (b % 2 ^ 8)
    | 16 => cvtFloat e5m2 f32 m (b % 2 ^ 8)
    | 17 => cvtFloat e2m1 f32 m (b % 2 ^ 4)
    | n => cvtToBp (n - 22) m b

/-- Element `i` of `w` bits of a register. -/
def elem (w : Nat) (x : Word) (i : Nat) : Nat := x.toNat / 2 ^ (w * i) % 2 ^ w

/-- Elements converted one by one from width `ws` to width `wd` (R212). -/
def cvtEach (n ws wd : Nat) (src dst : FpFmt) (m : Modifier) (a : Word) : Word :=
  BitVec.ofNat 64 ((List.range n).foldl (fun r i => r + cvtFloat src dst m (elem ws a i) * 2 ^ (wd * i)) 0)

/-- `cvtp` by its code (R212). -/
def cvtpVal (code : Nat) (m : Modifier) (a : Word) : Word :=
  match code with
  | 0 => cvtEach 2 32 16 f32 f16 m a
  | 1 => cvtEach 2 32 16 f32 bf16 m a
  | 2 => cvtEach 2 16 32 f16 f32 m a
  | 3 => cvtEach 2 16 32 bf16 f32 m a
  | 4 => cvtEach 4 16 8 f16 e4m3 m a
  | 5 => cvtEach 4 16 8 f16 e5m2 m a
  | 6 => cvtEach 4 8 16 e4m3 f16 m a
  | _ => cvtEach 4 8 16 e5m2 f16 m a

/-- `cvt` (R209 to R211). -/
def execCvt (x : Rf) (s : State) : Outcome := opF 4 1 4 x .zero cvtVal s
/-- `cvt`, 64-bit form (R209 to R211, R178). -/
def execCvtL (x : Rfm) (s : State) : Outcome := opF 8 1 4 x.r x.m cvtVal s

/-- `cvtp` (R212). -/
def execCvtp (x : Rf) (s : State) : Outcome := opF 4 1 4 x .zero cvtpVal s
/-- `cvtp`, 64-bit form (R212, R178). -/
def execCvtpL (x : Rfm) (s : State) : Outcome := opF 8 1 4 x.r x.m cvtpVal s

end Sys2Proof.Machine
end

