-- ==== Sys2Proof/Machine/Layout.lean ====
section
/-! DEFINITION. Layout images: their fields, evaluation, the operations that build one from others, acceptance by the
engine classes, and bank-conflict degrees (R113 to R131). -/

namespace Sys2Proof.Machine

/-! ## The image (R113, R114) -/

/-- One mode (R114): kind 0 normal, 1 core index, 2 die index, 3 thread index. -/
structure Mode where
  ext : Nat
  step : Int
  kind : Nat
  deriving DecidableEq, Repr

/-- The fields of an image: word 0, the eight modes, and whether a field that must be zero is not. -/
structure Layout where
  base : Nat
  ps : Nat
  pm : Nat
  pb : Nat
  dieix : Nat
  grp : List Nat
  esize : Nat
  ndims : Nat
  nmodes : Nat
  modes : List Mode
  junk : Bool
  deriving DecidableEq, Repr

/-- Word `i` of an image. -/
def imageWord (m : BitVec 640) (i : Nat) : Nat := m.toNat / 2 ^ (64 * i) % 2 ^ 64

/-- A mode word. -/
def modeOf (w : Nat) : Mode :=
  { ext := w % 65536, step := (BitVec.ofNat 32 (w / 65536)).toInt, kind := w / 2 ^ 48 % 4 }

/-- The fields of an image. -/
def layoutOf (m : BitVec 640) : Layout :=
  let w := imageWord m 0
  let n := w % 16
  let mw := (List.range 8).map fun k => imageWord m (k + 1)
  { base := w / 2 ^ 36, ps := w / 2 ^ 31 % 32, pm := w / 2 ^ 27 % 16, pb := w / 2 ^ 24 % 8, dieix := w / 2 ^ 21 % 8
    grp := [w / 2 ^ 12 % 8, w / 2 ^ 15 % 8, w / 2 ^ 18 % 8], esize := w / 2 ^ 8 % 16, ndims := w / 2 ^ 4 % 16, nmodes := n
    modes := (mw.take n).map modeOf
    junk := decide (imageWord m 9 ≠ 0) || (mw.drop n).any (fun x => decide (x ≠ 0)) || mw.any fun x => decide (2 ^ 50 ≤ x) }

/-- The element size in bits. -/
def Layout.bits (l : Layout) : Nat := if l.esize = 0 then 1 else 2 ^ (l.esize + 1)

/-- The element size in whole bytes. -/
def Layout.bytes (l : Layout) : Nat := (l.bits + 7) / 8

/-- The modes of each dimension (R114). -/
def Layout.dims (l : Layout) : List (List Mode) :=
  let starts := 0 :: l.grp.take (l.ndims - 1)
  let ends := l.grp.take (l.ndims - 1) ++ [l.nmodes]
  (starts.zip ends).map fun p => (l.modes.take p.2).drop p.1

/-- The number of coordinates of a dimension. -/
def dimSize (ms : List Mode) : Nat := ms.foldl (fun n m => n * m.ext) 1

/-- The sizes of the dimensions. -/
def Layout.sizes (l : Layout) : List Nat := l.dims.map dimSize

/-- Whether the numbers rise strictly from above `lo` and stay at most `hi`. -/
def risesTo (hi : Nat) : Nat → List Nat → Bool
  | _, [] => true
  | lo, a :: r => decide (lo < a) && decide (a ≤ hi) && risesTo hi a r

/-- The positions of the modes of a kind. -/
def Layout.ofKind (l : Layout) (k : Nat) : List Nat :=
  (List.range l.modes.length).filter fun i => (l.modes[i]?.map fun m => decide (m.kind = k)).getD false

/-- Whether an image is well-formed (R115). -/
def Layout.ok (l : Layout) : Bool :=
  decide (1 ≤ l.nmodes ∧ l.nmodes ≤ 8 ∧ 1 ≤ l.ndims ∧ l.ndims ≤ 4 ∧ l.ndims ≤ l.nmodes ∧ l.esize ≤ 6) &&
    risesTo (l.nmodes - 1) 0 (l.grp.take (l.ndims - 1)) && (l.grp.drop (l.ndims - 1)).all (fun g => decide (g = 0)) &&
    !l.junk && l.modes.all (fun m => decide (1 ≤ m.ext)) && l.sizes.all (fun n => decide (n < 2 ^ 31)) &&
    [1, 2, 3].all (fun k => decide ((l.ofKind k).length ≤ 1)) &&
    (match (l.ofKind 2).head? with
      | some k => decide (l.dieix = k + 1 ∧ k ≠ 7)
      | none => decide (l.dieix = 0)) &&
    l.modes.all (fun m => decide (m.kind = 1 ∨ m.kind = 3 → 0 ≤ m.step)) &&
    l.modes.all (fun m => decide ((m.kind = 1 → m.ext ≤ 32) ∧ (m.kind = 3 → m.ext ≤ 64))) &&
    (decide (l.pb = 0) || decide (l.pb ≤ l.ps ∧ l.pm + l.ps + l.pb ≤ 40 ∧ l.bits ≤ 2 ^ l.pm * 8))

/-- Whether a layout register's image is well-formed. -/
def imageOk (m : BitVec 640) : Bool := (layoutOf m).ok

/-! ## Evaluation (R116) -/

/-- What a coordinate adds: offset in elements, core selector, thread selector, die selector. -/
structure Point where
  off : Int := 0
  csel : Int := 0
  tsel : Int := 0
  dsel : Nat := 0
  deriving DecidableEq, Repr

/-- Index `i` of a mode added to a point. -/
def Point.plus (p : Point) (m : Mode) (i : Nat) : Point :=
  if m.kind = 0 then { p with off := p.off + i * m.step }
  else if m.kind = 1 then { p with csel := p.csel + i * m.step }
  else if m.kind = 2 then { p with off := p.off + i * m.step, dsel := i }
  else { p with tsel := p.tsel + i * m.step }

/-- A coordinate split over the modes of its dimension; `bounded` the last extent limits it. -/
def splitOver (bounded : Bool) : List Mode → Nat → Point → Option Point
  | [], _, p => some p
  | [m], r, p => if bounded && decide (m.ext ≤ r) then none else some (p.plus m r)
  | m :: n :: ms, r, p => splitOver bounded (n :: ms) (r / m.ext) (p.plus m (r % m.ext))

/-- All coordinates; a coordinate not given is 0. -/
def pointOver : List (List Mode) → List Nat → Point → Option Point
  | [], _, p => some p
  | ms :: r, xs, p => (splitOver true ms (xs.headD 0) p).bind fun p => pointOver r (xs.drop 1) p

/-- The point of a layout at coordinates before the permute; `none` outside the domain or below offset 0 (trap 0x14). -/
def Layout.point (l : Layout) (xs : List Nat) : Option Point :=
  match pointOver l.dims xs { off := l.base } with
  | some p => if p.off < 0 then none else some p
  | none => none

/-- The permute of a byte offset (R116, R118). -/
def Layout.permute (l : Layout) (a : Nat) : Nat :=
  if l.pb = 0 then a
  else
    let f := a / 2 ^ l.pm % 2 ^ l.pb
    let g := a / 2 ^ (l.pm + l.ps) % 2 ^ l.pb
    a - f * 2 ^ l.pm + (f ^^^ g) * 2 ^ l.pm

/-- Where an element lies: byte offset, bit within the byte, selectors. -/
structure Spot where
  a : Nat
  sub : Nat
  csel : Nat
  dsel : Nat
  tsel : Nat
  deriving DecidableEq, Repr

/-- Evaluation at coordinates (R116). -/
def Layout.eval (l : Layout) (xs : List Nat) : Option Spot :=
  (l.point xs).map fun p =>
    let bits := p.off.toNat * l.bits
    { a := l.permute (bits / 8), sub := bits % 8, csel := p.csel.toNat, dsel := p.dsel, tsel := p.tsel.toNat }

/-! ## Building images (R120 to R124) -/

/-- A word of an image from its fields. -/
def modeWord (m : Mode) : Nat := m.ext + 65536 * (BitVec.ofInt 32 m.step).toNat + 2 ^ 48 * m.kind

/-- The grouping fields of dimensions with the given numbers of modes. -/
def groupStarts : Nat → List Nat → List Nat
  | _, [] => []
  | k, n :: r => (k + n) :: groupStarts (k + n) r

/-- The image of a base, the permute fields, an element size and the modes by dimension, if it is within the limits and
well-formed (R120). -/
def buildImage (base : Int) (ps pm pb esize : Nat) (dims : List (List Mode)) : Option (BitVec 640) :=
  let ms := dims.flatten
  let starts := (groupStarts 0 (dims.map List.length)).take (dims.length - 1)
  let die := ((List.range ms.length).find? fun i => (ms[i]?.map fun m => decide (m.kind = 2)).getD false).map (· + 1)
  if 8 < ms.length ∨ base < 0 ∨ 2 ^ 28 ≤ base ∨ ms.any (fun m => decide (m.step < -2 ^ 31 ∨ 2 ^ 31 ≤ m.step)) = true ∨
      ms.any (fun m => decide (65536 ≤ m.ext)) = true ∨ 7 < die.getD 0 then none
  else
    let w0 := ms.length + 2 ^ 4 * dims.length + 2 ^ 8 * esize + 2 ^ 12 * starts.getD 0 0 + 2 ^ 15 * starts.getD 1 0 +
      2 ^ 18 * starts.getD 2 0 + 2 ^ 21 * die.getD 0 + 2 ^ 24 * pb + 2 ^ 27 * pm + 2 ^ 31 * ps + 2 ^ 36 * base.toNat
    let n := (w0 :: ms.map modeWord).zipIdx.foldl (fun n p => n + p.1 * 2 ^ (64 * p.2)) 0
    let m := BitVec.ofNat 640 n
    if imageOk m then some m else none

/-- Skip `t` flat positions (R121); an extent of `none` is unbounded. -/
def skipModes : List (Option Nat × Int × Nat) → Nat → Option (List (Option Nat × Int × Nat))
  | [], t => if t ≤ 1 then some [] else none
  | (e, s, k) :: r, t =>
    if t ≤ 1 then some ((e, s, k) :: r)
    else match e with
      | none => some ((none, s * t, k) :: r)
      | some ea =>
        if ea ≤ t then (if t % ea ≠ 0 then none else skipModes r (t / ea))
        else if ea % t ≠ 0 then none else some ((some (ea / t), s * t, k) :: r)

/-- Take `n` flat positions (R121). -/
def takeModes : List (Option Nat × Int × Nat) → Nat → Option (List Mode)
  | [], n => if n ≤ 1 then some [] else none
  | (e, s, k) :: r, n =>
    if n ≤ 1 then some []
    else match e with
      | none => some [⟨n, s, k⟩]
      | some ea =>
        if ea ≤ n then (if n % ea ≠ 0 then none else (takeModes r (n / ea)).map fun l => ⟨ea, s, k⟩ :: l)
        else if ea % n ≠ 0 then none else some [⟨n, s, k⟩]

/-- The modes emitted for a take of `n`: a take of one position is one mode of extent 1. -/
def takeFrom (w : List (Option Nat × Int × Nat)) (n : Nat) : Option (List Mode) :=
  if n = 1 then some [⟨1, 0, 0⟩] else takeModes w n

/-- A mode list for skip and take; `open_` the last mode is unbounded. -/
def modeRun (open_ : Bool) (ms : List Mode) : List (Option Nat × Int × Nat) :=
  let l := ms.map fun m => (some m.ext, m.step, m.kind)
  if open_ then l.dropLast ++ (ms.getLast?.map fun m => ((none : Option Nat), m.step, m.kind)).toList else l

/-- The modes that one mode of mb becomes. -/
def chainMode (run : List (Option Nat × Int × Nat)) (m : Mode) : Option (List Mode) :=
  if m.step = 0 then some [⟨m.ext, 0, 0⟩]
  else (skipModes run m.step.toNat).bind fun w => takeFrom w m.ext

/-- `mapchn` (R121): ma after mb. -/
def chainLayouts (ma mb : BitVec 640) : Option (BitVec 640) :=
  let a := layoutOf ma
  let b := layoutOf mb
  if !a.ok || !b.ok || b.modes.any (fun m => decide (m.kind ≠ 0 ∨ m.step < 0)) || decide (b.pb ≠ 0) ||
      !(decide (b.esize = a.esize) || decide (b.esize = 0)) then none
  else
    match splitOver false a.modes b.base { off := a.base },
        b.dims.mapM fun ms => (ms.mapM (chainMode (modeRun true a.modes))).map List.flatten with
    | some p, some dims => if p.csel ≠ 0 ∨ p.tsel ≠ 0 then none else buildImage p.off a.ps a.pm a.pb a.esize dims
    | _, _ => none

/-- `mapprt` (R122): the tile of the shape `ts` at the index `js`. -/
def tileLayout (m : BitVec 640) (ts js : List Nat) : Option (BitVec 640) :=
  let l := layoutOf m
  if !l.ok then none
  else
    let per := (l.dims.zip (ts.zip js)).mapM fun (ms, t, j) =>
      if t = 0 ∨ dimSize ms < (j + 1) * t then none else takeFrom (modeRun false ms) t
    match per, pointOver l.dims ((ts.zip js).map fun p => p.1 * p.2) { off := l.base } with
    | some dims, some p => if p.csel ≠ 0 ∨ p.tsel ≠ 0 then none else buildImage p.off l.ps l.pm l.pb l.esize dims
    | _, _ => none

/-- `maptrn` (R123): dimension d becomes dimension π(d). -/
def turnLayout (m : BitVec 640) (perm : List Nat) : Option (BitVec 640) :=
  let l := layoutOf m
  let p := perm.take l.ndims
  if !l.ok || !(List.range l.ndims).all (fun d => p.contains d) then none
  else buildImage l.base l.ps l.pm l.pb l.esize (p.map fun d => l.dims.getD d [])

/-- Drop the lowest mode of extent 1 that is not the only mode of its dimension (R124). -/
def dropOne : List Mode → Option (List Mode)
  | [] => none
  | m :: r => if m.ext = 1 then some r else (dropOne r).map fun l => m :: l

/-- Merge the lowest adjacent pair of normal modes that are one mode (R124). -/
def mergePair : List Mode → Option (List Mode)
  | m :: n :: r =>
    if m.kind = 0 ∧ n.kind = 0 ∧ n.step = m.step * m.ext ∧ m.ext * n.ext ≤ 65535 then some (⟨m.ext * n.ext, m.step, 0⟩ :: r)
    else (mergePair (n :: r)).map fun l => m :: l
  | _ => none

/-- The two steps of R124 on one dimension until neither applies; `fuel` is the number of modes. -/
def flattenDim : Nat → List Mode → List Mode
  | 0, ms => ms
  | fuel + 1, ms =>
    match (if 1 < ms.length then dropOne ms else none).or (mergePair ms) with
    | some l => flattenDim fuel l
    | none => ms

/-- `mapflt` (R124). -/
def flatLayout (m : BitVec 640) : Option (BitVec 640) :=
  let l := layoutOf m
  if !l.ok then none
  else buildImage l.base l.ps l.pm l.pb l.esize (l.dims.map fun ms => flattenDim ms.length ms)

/-! ## Coordinates (R125) -/

/-- How a coordinate word fails: a shift of 24 to 31, or a value of 2^31 or more. -/
inductive CoordErr where
  | shift
  | large
  deriving DecidableEq, Repr

/-- A coordinate word evaluated with the indices of the loop levels. -/
def coordOf (lidx : Nat → Nat) (w : Nat) : Except CoordErr Nat :=
  if w.testBit 31 then
    if 24 ≤ w / 2 ^ 24 % 32 then .error .shift
    else
      let v := lidx (w / 2 ^ 29 % 4) * 2 ^ (w / 2 ^ 24 % 32) + w % 2 ^ 24
      if 2 ^ 31 ≤ v then .error .large else .ok v
  else .ok (w % 2 ^ 31)

/-! ## Acceptance (R126 to R130) -/

/-- A row of the acceptance table (R127): dimensions, handle kinds, element sizes in bits, the unit dimension, the
chunk along dimensions 0 and 1 and whether convert applies. The copy class's chunk is its group width along
dimension 0. -/
structure EngClass where
  lo : Nat
  hi : Nat
  kinds : List Nat
  sizes : List Nat
  u : Nat
  chunk : Nat × Nat
  convert : Bool
  deriving DecidableEq, Repr

/-- The acceptance table. -/
def engClass (k : Nat) : EngClass :=
  if k = 0 then ⟨1, 4, [2, 3, 4, 5], [1, 4, 8, 16, 32, 64, 128], 0, (512, 16), true⟩
  else if k = 1 then ⟨2, 2, [2, 3], [4, 8, 16], 1, (64, 16), true⟩
  else if k = 2 then ⟨2, 2, [2, 3], [4, 8, 16], 1, (16, 128), true⟩
  else if k = 3 then ⟨2, 2, [2, 3, 4, 5], [16, 32], 1, (64, 128), true⟩
  else if k = 4 then ⟨2, 2, [2, 3], [4, 8, 16], 1, (64, 16), false⟩
  else ⟨1, 4, [2, 3, 4, 5], [4, 8, 16, 32, 64, 128], 0, (32, 16), true⟩

/-- The group width of a class for an element size (R127), not clipped. -/
def groupWidth (k bits : Nat) : Nat := if k = 0 then 512 / bits else if k = 5 then 32 else 16

/-- The chunk extents of a class for an element size. -/
def chunkOf (k bits : Nat) : Nat × Nat := if k = 0 then (512 / bits, 16) else (engClass k).chunk

/-- The test of R126 along a dimension for a width already clipped to it. -/
def Layout.contiguous (l : Layout) (d n : Nat) (origin : Nat) : Bool :=
  match (l.dims.getD d []).head? with
  | some m => decide (m.kind = 0 ∧ m.step = 1) && (decide (m.ext % n = 0) || decide (m.ext = l.sizes.getD d 0)) && decide (origin % n = 0)
  | none => false

/-- How a class takes a layout: conform, convert at a cost, or reject for a reason (R402). -/
inductive Accept where
  | conform
  | convert (cost : Nat)
  | reject (reason : Nat)
  deriving DecidableEq, Repr

/-- Whether a core-index mode can give a selector other than 0 (R117). -/
def Layout.coreMode (l : Layout) : Bool := l.modes.any fun m => decide (m.kind = 1 ∧ 1 < m.ext ∧ m.step ≠ 0)

/-- Whether there is a thread-index mode. -/
def Layout.threadMode (l : Layout) : Bool := l.modes.any fun m => decide (m.kind = 3)

/-- Whether there is a die-index mode of extent above 1. -/
def Layout.dieMode (l : Layout) : Bool := l.modes.any fun m => decide (m.kind = 2 ∧ 1 < m.ext)

/-- The kind of a handle, and whether a `cl` handle takes its core from the layout (R48). -/
def hKind (h : BitVec 128) : Nat := h.toNat / 2 ^ 124
def hMode (h : BitVec 128) : Bool := h.getLsbD 123

/-- Whether a layout's selectors are used with a handle that R117 does not allow. -/
def Layout.badSelectors (l : Layout) (h : BitVec 128) : Bool :=
  (l.coreMode && !(decide (hKind h = 3) && hMode h)) || (l.threadMode != decide (hKind h = 1))

/-- The first reason of a list of conditions that holds. -/
def firstReason : List (Bool × Nat) → Option Nat
  | [] => none
  | (b, n) :: r => if b then some n else firstReason r

/-- The conversion cost of one chunk (R130). -/
def Layout.convertCost (l : Layout) (k : Nat) : Nat :=
  let b := if l.bits ≤ 16 then 16 else 8
  let c := chunkOf k l.bits
  let c0 := min c.1 (l.sizes.getD 0 1)
  let c1 := min c.2 (l.sizes.getD 1 1)
  4 * ((c0 + b - 1) / b) * ((c1 + b - 1) / b)

/-- The contiguity part of R126, for a layout that passed the checks of its class. (log 47: DEDUCED, unsafe.) -/
def Layout.acceptShape (l : Layout) (k : Nat) (origin : List Nat) : Accept :=
  let u := (engClass k).u
  let o := 1 - u
  let n := min (groupWidth k l.bits) (l.sizes.getD u 1)
  let b := if l.bits ≤ 16 then 16 else 8
  let so := l.sizes.getD o 1
  let turned := l.contiguous o (min b so) (origin.getD o 0) && (decide (b ≤ so) || decide (origin.getD o 0 = 0))
  if l.contiguous u n (origin.getD u 0) then .conform
  else if (engClass k).convert && decide (2 ≤ l.ndims) && decide (8 ≤ l.bits ∧ l.bits ≤ 32) && turned then .convert (l.convertCost k)
  else if (k = 0 ∨ k = 5) ∧ 8 ≤ l.bits then .conform
  else .reject 6

/-- The plate rule (R129). -/
def Layout.acceptPlates (l : Layout) : Accept :=
  if l.base % 4 = 0 ∧ l.modes.all (fun m => decide (m.kind = 0 → m.step % 4 = 0)) = true then .conform else .reject 0x0A

/-- What a command says of an operand: the element bits its format asks for where it asks for any, whether its format
is plates, and its handle. `mapchk` says none of it (R271). -/
structure Asked where
  bits : Option Nat
  plate : Bool
  handle : Option (BitVec 128)
  deriving DecidableEq, Repr

/-- Classification of a layout for a class (R126 to R129); the lowest reason stands (R402). -/
def classify (m : BitVec 640) (k : Nat) (q : Asked) (origin : List Nat) : Accept :=
  let l := layoutOf m
  let c := engClass k
  if !l.ok then .reject 1
  else
    let sizeBad := if q.plate then decide (¬ (k = 1 ∨ k = 2 ∨ k = 3) ∨ l.esize ≠ 6)
      else !c.sizes.contains l.bits || (match q.bits with | some n => decide (n ≠ l.bits) | none => false)
    let why := firstReason
      [ ((q.handle.map fun h => !c.kinds.contains (hKind h)).getD false, 2),
        (sizeBad, 3),
        (decide (l.ndims < c.lo ∨ c.hi < l.ndims), 4),
        (decide (k ≠ 0) && l.dieMode, 5),
        (!q.plate && decide (l.acceptShape k origin = .reject 6), 6),
        ((q.handle.map fun h => l.badSelectors h).getD false, 7) ]
    match why with
    | some r => .reject r
    | none => if q.plate then l.acceptPlates else l.acceptShape k origin

/-- What `mapchk` asks: for the matrix classes, 128-bit elements select the plate rule (R271). -/
def askedByChk (m : BitVec 640) (k : Nat) : Asked :=
  { bits := none, plate := decide (1 ≤ k ∧ k ≤ 3 ∧ (layoutOf m).esize = 6), handle := none }

/-- The accumulator operand (R128): 64-bit elements, two dimensions, no permute, and at the origin one whole tile. -/
def classifyAcc (m : BitVec 640) (h : BitVec 128) (origin : List Nat) : Accept :=
  let l := layoutOf m
  if !l.ok then .reject 1
  else
    let at_ := fun i j : Nat => (l.point [origin.getD 0 0 + i, origin.getD 1 0 + j]).map fun p => 8 * p.off.toNat
    let tile := match at_ 0 0 with
      | none => false
      | some u => decide (u % 65536 = 0) &&
          (List.range 64).all (fun i => decide (at_ i 0 = some (u + 1024 * i))) &&
          (List.range 128).all (fun j => decide (at_ 0 j = some (u + 8 * j)))
    let shape := decide (l.esize = 5 ∧ l.ndims = 2 ∧ l.pb = 0 ∧ hKind h = 6 ∧ origin.getD 0 0 = 0 ∧ origin.getD 1 0 % 128 = 0)
    match firstReason [(l.dieMode, 5), (l.badSelectors h, 7), (!(shape && tile), 8)] with
    | some r => .reject r
    | none => .conform

/-- The register side of `tld` and `tst` beside its memory side (R128, R117). -/
def classifyRegs (m mem : BitVec 640) (h : BitVec 128) : Accept :=
  let l := layoutOf m
  let x := layoutOf mem
  if !l.ok then .reject 1
  else match firstReason
      [ (l.coreMode || (l.threadMode && decide (hKind h ≠ 1)), 7),
        (decide (hKind h ≠ 1) || !l.threadMode || decide (l.ndims ≠ x.ndims ∨ l.esize ≠ x.esize ∨ l.sizes ≠ x.sizes), 9) ] with
    | some r => .reject r
    | none => .conform

/-! ## Bank-conflict degree (R131, R272) -/

/-- The pool of an element among the members', and the word of its address, for the bank degree. -/
def Layout.bankWord (l : Layout) (pools : Bool) (base : Nat) (xs : List Nat) : Option (Nat × Nat) :=
  (l.eval (xs.take l.ndims)).map fun p => (if pools then p.csel else 0, (base + p.a) / 8)

/-- The largest number of distinct words that one bank of one pool supplies. -/
def bankLoad (ws : List (Nat × Nat)) : Nat :=
  let ds := ws.eraseDups
  ds.foldl (fun n w => max n (ds.filter fun y => decide (y.1 = w.1 ∧ y.2 % 512 = w.2 % 512)).length) 0

/-- The degree of a layout for a class over the groups of one chunk at origin 0 (R131): a group runs along the class's unit
dimension, which a layout of fewer dimensions has with one coordinate. `pools`: banks are counted in each member's pool
separately (R272). -/
def bankDegree (m : BitVec 640) (k : Nat) (pools : Bool) (base : Nat) : Nat :=
  let l := layoutOf m
  if !l.ok then 0
  else
    let u := (engClass k).u
    let size := fun d : Nat => l.sizes.getD d 1
    let c := chunkOf k l.bits
    let n := max 1 (min (groupWidth k l.bits) (size u))
    let cu := min (if u = 0 then c.1 else c.2) (size u)
    let co := min (if u = 0 then c.2 else c.1) (size (1 - u))
    (List.range co).foldl (fun d y =>
      (List.range ((cu + n - 1) / n)).foldl (fun d g =>
        let xs := ((List.range n).map (· + g * n)).filter (· < cu)
        max d (bankLoad (xs.filterMap fun x => l.bankWord pools base (if u = 0 then [x, y] else [y, x])))) d) 0

end Sys2Proof.Machine
end

