-- ==== Sys2Proof/Machine/Handles.lean ====
section
/-! DEFINITION. Handles, layout registers and their instructions, and the register tiles of the lane load unit (R48, R49,
R113 to R131, R268 to R275). -/

namespace Sys2Proof.Machine

/-! ## Handles (R48, R49) -/

def hBase (h : BitVec 128) : Nat := h.toNat % 2 ^ 64
def hBound (h : BitVec 128) : Nat := h.toNat / 2 ^ 64 % 2 ^ 40
def hCidx (h : BitVec 128) : Nat := h.toNat / 2 ^ 118 % 32
def hWr (h : BitVec 128) : Bool := h.getLsbD 117
def hRd (h : BitVec 128) : Bool := h.getLsbD 116

/-- A handle register and a layout register of a task. -/
def Task.handle (t : Task) (n : Nat) : BitVec 128 := t.h.toList.getD n 0
def Task.layout (t : Task) (n : Nat) : BitVec 640 := t.m.toList.getD n 0
def Task.setHandle (t : Task) (n : Nat) (x : BitVec 128) : Task := { t with h := if h : n < 16 then t.h.set n x else t.h }
def Task.setLayout (t : Task) (n : Nat) (x : BitVec 640) : Task := { t with m := if h : n < 32 then t.m.set n x else t.m }

/-- The core and task whose granules a handle names; a gang member that is not resident has none (R73). -/
def State.handleOwner (s : State) (core : Nat) (tk : Task) (h : BitVec 128) (csel : Nat) : Option (Nat × Task) :=
  if hKind h ≠ 3 then some (core, tk)
  else
    let rank := if hMode h then csel else hCidx h
    if tk.gang ≤ rank then none
    else if rank = tk.rank then some (core, tk)
    else (s.member tk rank).map fun m => (m.1, m.2.2)

/-- The granules of the part that a handle's kind names. -/
def partOf (h : BitVec 128) (tk : Task) : List Nat := if hKind h = 6 then tk.accG else tk.spG

/-- Whether a handle and a range of bytes within it pass the checks of R49 that raise trap 0x14. (log 39: DEDUCED, unsafe.) -/
def State.handleOk (s : State) (core : Nat) (tk : Task) (h : BitVec 128) (a size csel : Nat) : Bool :=
  let k := hKind h
  let base := hBase h
  let bound := hBound h
  let form := decide (1 ≤ k ∧ k ≤ 6 ∧ h.toNat / 2 ^ 104 % 2 ^ 12 = 0) && (decide (k = 3) || (!hMode h && decide (hCidx h = 0)))
  let aligned :=
    if k = 1 then decide (base < 32 ∧ bound % 8 = 0 ∧ base + bound / 8 ≤ 32)
    else if k = 4 then isVa57 (BitVec.ofNat 64 base) && decide (base % 16 = 0 ∧ bound % 16 = 0)
    else
      let n := if k = 5 then 64 else if k = 6 then 65536 else 8
      decide (base % n = 0 ∧ bound % n = 0)
  let owned :=
    if k = 2 ∨ k = 3 ∨ k = 6 then
      match s.handleOwner core tk h csel with
      | some m => decide (base + a + size ≤ (partOf h m.2).length * 16384)
      | none => false
    else if k = 5 then decide (base + a + size ≤ s.scratchWays (coreDie core) * 0x2000000)
    else true
  form && decide (a + size ≤ bound) && aligned && owned

/-- Where a byte of a handle lies. -/
def State.handlePlace (s : State) (core : Nat) (tk : Task) (h : BitVec 128) (a csel : Nat) : Place :=
  let o := hBase h + a
  if hKind h = 4 then .virt (o % 2 ^ 57)
  else if hKind h = 5 then .fixed (.scratch (coreDie core) o)
  else match s.handleOwner core tk h csel with
    | some m => .pool m.1 (granuleAddr (partOf h m.2) o)
    | none => .pool core o

/-- The address that a fault of a byte of a handle reports: the virtual address, the pool offset, or the offset within the
handle (R401). -/
def State.handleAddr (s : State) (core : Nat) (tk : Task) (h : BitVec 128) (a csel : Nat) : Word :=
  if hKind h = 4 then BitVec.ofNat 64 (hBase h + a)
  else if hKind h = 1 ∨ hKind h = 5 then BitVec.ofNat 64 a
  else match s.handlePlace core tk h a csel with
    | .pool _ o => BitVec.ofNat 64 o
    | _ => BitVec.ofNat 64 a

/-- The checks of R49 on one range: the code and address of the trap. -/
def State.handleFault (s : State) (core : Nat) (tk : Task) (h : BitVec 128) (a size csel : Nat) (n : Need) : Option (Nat × Word) :=
  if !s.handleOk core tk h a size csel then some (0x14, BitVec.ofNat 64 a)
  else if (n.r && !hRd h) || (n.w && !hWr h) then some (0x11, s.handleAddr core tk h a csel)
  else none

/-- Whether a write to bytes of the core's own pool is still on its way, a held one of the course or one of any course that
has left its lane: a read at issue waits for it (R156, R160). (log 36: DEDUCED, unsafe.) -/
def State.poolBusy (s : State) (core course : Nat) (x : Loc) (size : Nat) : Bool :=
  s.inflight.any fun a =>
    decide (a.core = core) && (decide (a.course = course) || decide (a.st ≠ .held)) && a.kind.writes && a.loc.overlaps a.size x size

/-- The pool bytes of a task's scratchpad from an offset. -/
def State.spBytes (s : State) (core : Nat) (tk : Task) (off n : Nat) : List Byte :=
  (List.range n).map fun i => (s.locRead (.pool core (granuleAddr tk.spG (off + i))) 1).headD 0

/-- The checks on the read at issue of a record of the scratchpad in each of some threads, from the second of R248 on: the
range test is on the whole record. -/
def State.recordCheck (s : State) (G : Grp) (size align : Nat) (watch : Bool) (eas : List (Nat × Word)) : MemEnd :=
  match eas.find? fun e => decide (G.tk.spG.length * 16384 < e.2.toNat + size) with
  | some e => .trap (G.fault 0x14 0 e.1 e.2)
  | none => s.memCheck G 1 { r := true } size align watch eas

/-- Whether a byte of a record of the scratchpad must be waited for. -/
def State.recordBusy (s : State) (core course : Nat) (tk : Task) (off n : Nat) : Bool :=
  (List.range n).any fun i => s.poolBusy core course (.pool core (granuleAddr tk.spG (off + i))) 1

/-- The index of a loop level, open or not, as `lget` reads it (R125). -/
def Thread.lidx (t : Thread) (j : Nat) : Nat := (t.lv.toList.getD j {}).idx.toNat

/-- The group leaves the lane with the task changed. -/
def State.finishTask (s : State) (G : Grp) (x : LaneI) (tk : Task) : State :=
  (s.setTask G.g.core G.cs.task tk).finish G x G.cs

/-! ## Layout operations (R119 to R124, R268 to R270) -/

/-- A layout operation: in each thread whose guard is true, in ascending slot order, `f` makes the new image of layout
`md` from the record and the task, or refuses for a reason. On any trap the layout is unchanged (R120). (log 35: DEDUCED, unsafe.) -/
def State.layoutOp (s : State) (x : LaneI) (md : Reg) (rec_ : Option (Reg × Nat))
    (f : Thread → List Byte → Task → Except Nat (BitVec 640)) : Outcome :=
  s.withGroup fun G =>
    match G.check x with
    | some c => s.trapNow G c
    | none =>
      let act := G.active x
      let core := G.g.core
      let off := match rec_ with | some r => G.read x G.lowest (.c r.1) | none => 0
      let size := (rec_.map Prod.snd).getD 0
      let eas := if rec_.isSome then act.map fun i => (i, off) else []
      match s.recordCheck G size 8 true eas with
      | .trap c => s.trapNow G c
      | .wait w => s.waitPage G w
      | .ok _ =>
        if eas.any fun e => s.recordBusy core G.g.course G.tk e.2.toNat size then s.holdAt G
        else
          let bs := s.spBytes core G.tk off.toNat (if eas.isEmpty then 0 else size)
          let one := fun (r : Except Cause Task) (i : Nat) =>
            match r with
            | .error c => .error c
            | .ok tk =>
              match f (G.cs.thread i) bs tk with
              | .ok m => .ok (tk.setLayout md.toNat m)
              | .error why => .error { code := 0x20, sub := 0x0F, reason := why, ipc := G.g.pc, tmask := 2 ^ i }
          match act.foldl one (Except.ok G.tk) with
          | .error c => s.trapNow G c
          | .ok tk => s.finishTask G x tk

/-- A result, or the refusal of reason 1. -/
def orRefuse (m : Option (BitVec 640)) : Except Nat (BitVec 640) :=
  match m with
  | some m => .ok m
  | none => .error 1

/-- `mapset` (R269). -/
def execMapset (x : Ms) (s : State) : Outcome :=
  s.layoutOp { len := 4, h := x.h, rd := [.c x.b] } x.d (some (x.b, 80)) fun _ bs _ =>
    let m := BitVec.ofNat 640 (leNat bs)
    if imageOk m then .ok m else .error 1

/-- `mapchn` (R121). -/
def execMapchn (x : M3) (s : State) : Outcome :=
  s.layoutOp { len := 4, h := x.h } x.d none fun _ _ tk =>
    orRefuse (chainLayouts (tk.layout x.a.toNat) (tk.layout x.b.toNat))

/-- The tile of `mapprt` from its record (R270): the reason is 0x0B where nothing but the shift of a tile index is
wrong (R402). (log 37: DEDUCED, unsafe.) -/
def tileOf (t : Thread) (bs : List Byte) (m : BitVec 640) : Except Nat (BitVec 640) :=
  let nd := (layoutOf m).ndims
  let four := [0, 1, 2, 3]
  let ts := four.map fun d => recNat bs (4 * d) 4
  let ws := four.map fun d => recNat bs (16 + 4 * d) 4
  let js := (ws.take nd).map (coordOf t.lidx)
  let large := js.any fun j => match j with | .error .large => true | _ => false
  let shift := js.any fun j => match j with | .error .shift => true | _ => false
  let beyond := (ts.drop nd ++ ws.drop nd).any fun x => decide (x ≠ 0)
  match tileLayout m (ts.take nd) (js.map fun j => match j with | .ok v => v | _ => 0) with
  | some r => if large || beyond then .error 1 else if shift then .error 0x0B else .ok r
  | none => .error 1

/-- `mapprt` (R122, R270). -/
def execMapprt (x : M3) (s : State) : Outcome :=
  s.layoutOp { len := 4, h := x.h, rd := [.c x.b] } x.d (some (x.b, 32)) fun t bs tk => tileOf t bs (tk.layout x.a.toNat)

/-- `maptrn` (R123, R270). -/
def execMaptrn (x : M3) (s : State) : Outcome :=
  s.layoutOp { len := 4, h := x.h, rd := [.c x.b] } x.d (some (x.b, 8)) fun _ bs tk =>
    let m := tk.layout x.a.toNat
    let p := bs.map BitVec.toNat
    if (p.drop (layoutOf m).ndims).any fun y => decide (y ≠ 0) then .error 1 else orRefuse (turnLayout m p)

/-- `mapflt` (R124). -/
def execMapflt (x : R1) (s : State) : Outcome :=
  s.layoutOp { len := 4, h := x.h } x.d none fun _ _ tk => orRefuse (flatLayout (tk.layout x.a.toNat))

/-! ## Words of layouts (R269) -/

/-- A word of an image replaced: reserved bits, and word 9, are written as zero (R6). (log 32: DESIGN CHOICE, unsafe.) -/
def putWord (m : BitVec 640) (w : Nat) (v : Nat) : BitVec 640 :=
  let v := if w = 0 then v else if w ≤ 8 then v % 2 ^ 50 else 0
  BitVec.ofNat 640 (m.toNat - imageWord m w * 2 ^ (64 * w) + v * 2 ^ (64 * w))

/-- `mapget` (R269). -/
def opMapget (len : Nat) (x : E64) (s : State) : Outcome :=
  let l := laneE len x []
  s.lane l noCheck fun G i c =>
    G.deliver l 4 (extD x) i (BitVec.ofNat 64 (imageWord (G.tk.layout (x.i.toNat % 32)) (x.i.toNat / 32 % 16))) c

/-- A write of a task's registers by each thread whose guard is true, in ascending slot order (R26). -/
def State.taskWrites (s : State) (l : LaneI) (chk : Grp → Option Cause) (f : Grp → Nat → Task → Task) : Outcome :=
  s.withGroup fun G =>
    match (G.check l).or (chk G) with
    | some c => s.trapNow G c
    | none => s.finishTask G l ((G.active l).foldl (fun tk i => f G i tk) G.tk)

/-- `mapput` (R269). -/
def opMapput (len : Nat) (x : E64) (s : State) : Outcome :=
  let l := laneE len x [extA x]
  let n := x.i.toNat % 32
  s.taskWrites l noCheck fun G i tk => tk.setLayout n (putWord (tk.layout n) (x.i.toNat / 32 % 16) (G.read l i (extA x)).toNat)

/-- `mapget`, 32-bit form: word 0 of layout 0 (R269, R185). -/
def execMapget (x : Ed) (s : State) : Outcome := opMapget 4 (extEd x) s
/-- `mapget` (R269). -/
def execMapgetL (x : E64) (s : State) : Outcome := opMapget 8 x s
/-- `mapput`, 32-bit form (R269, R185). -/
def execMapput (x : H0) (s : State) : Outcome := opMapput 4 (extH0 x) s
/-- `mapput` (R269). -/
def execMapputL (x : E64) (s : State) : Outcome := opMapput 8 x s

/-! ## Handle registers (R273) -/

/-- The trap of an odd register of a pair: in the lowest-numbered thread whose guard is true. -/
def oddPair (l : LaneI) (r : Reg) (G : Grp) : Option Cause :=
  if r.getLsbD 0 then (G.active l).head?.map fun i => { code := 0x01, ipc := G.g.pc, tmask := 2 ^ i } else none

/-- `hset` (R273): reserved bits are written as zero (R6). -/
def execHset (x : Vh) (s : State) : Outcome :=
  let l : LaneI := { len := 4, h := x.h, rd := [.v x.v, .v (x.v + 1)] }
  s.taskWrites l (oddPair l x.v) fun G i tk =>
    tk.setHandle x.hd.toNat
      (((G.read l i (.v (x.v + 1))).setWidth 128 <<< 64 ||| (G.read l i (.v x.v)).setWidth 128) &&& ~~~(0xFFF#128 <<< 104))

/-- `hget` (R273). -/
def opHget (len : Nat) (h : Hdr) (d : Reg) (n : Nat) (s : State) : Outcome :=
  let l : LaneI := { len := len, h := h }
  s.lane l (oddPair l d) fun G i c =>
    let x := G.tk.handle n
    G.deliver l 4 (.v (d + 1)) i ((x >>> 64).setWidth 64) (G.deliver l 4 (.v d) i (x.setWidth 64) c)

/-- `hget`, 32-bit form: handle 0 (R273, R185). -/
def execHget (x : D1) (s : State) : Outcome := opHget 4 x.h x.d 0 s
/-- `hget` (R273). -/
def execHgetL (x : E64) (s : State) : Outcome := opHget 8 x.h x.d (x.i.toNat % 16) s

/-! ## Inspection (R271, R272, R53) -/

/-- A field of `n` bits at `lo` of a word replaced. -/
def putField (w : Word) (lo n v : Nat) : Word :=
  BitVec.ofNat 64 (w.toNat - w.toNat / 2 ^ lo % 2 ^ n * 2 ^ lo + v % 2 ^ n * 2 ^ lo)

/-- The class and cost of a layout that `mapchk` reports. -/
def chkResult (m : BitVec 640) (k : Nat) : Nat × Nat :=
  match classify m k (askedByChk m k) [] with
  | .conform => (0, 0)
  | .convert c => (1, c)
  | .reject _ => (2, 0)

/-- `mapchk` (R271). -/
def execMapchk (x : Tq) (s : State) : Outcome :=
  let l : LaneI := { len := 8, h := x.h }
  s.lane l noCheck fun G i c =>
    let r := chkResult (G.tk.layout x.m.toNat) x.k.toNat
    let c := { c with tstat := putField (putField c.tstat 56 2 r.1) 40 16 r.2 }
    G.deliver l 4 (.v x.v) i (BitVec.ofNat 64 (2 ^ 16 * r.1 + r.2 % 2 ^ 16)) c

/-- The degree that `bankq` reports: 0 for a handle whose storage has no pool banks (R131). (log 38: DEDUCED, unsafe.) -/
def bankResult (m : BitVec 640) (k : Nat) (h : Option (BitVec 128)) : Nat :=
  match h with
  | none => bankDegree m k false 0
  | some h => if hKind h = 2 ∨ hKind h = 3 then bankDegree m k (decide (hKind h = 3) && hMode h) (hBase h) else 0

/-- `bankq` (R272): a null or reserved handle kind is trap 0x14. -/
def execBankq (x : Tq) (s : State) : Outcome :=
  let l : LaneI := { len := 8, h := x.h }
  let hd := fun G : Grp => if x.x = 1 then none else some (G.tk.handle x.hd.toNat)
  s.lane l (fun G =>
      match hd G with
      | some h => if 1 ≤ hKind h ∧ hKind h ≤ 6 then none else (G.active l).head?.map fun i => G.fault 0x14 0 i 0
      | none => none)
    fun G i c =>
      let d := bankResult (G.tk.layout x.m.toNat) x.k.toNat (hd G)
      G.writeNow (.v x.v) i (BitVec.ofNat 64 d) { c with tstat := putField c.tstat 30 10 d }

/-! ## Register tiles (R274, R275) -/

/-- Every coordinate of a domain, dimension 0 fastest. -/
def domain : List Nat → List (List Nat)
  | [] => [[]]
  | n :: r => (domain r).flatMap fun ys => (List.range n).map fun x => x :: ys

/-- An element of a register tile: its thread, its place within the memory handle if the layout has one there, and the
bit of its first register at which it stands. -/
structure TileElem where
  slot : Nat
  spot : Option Spot
  reg : Option Spot
  deriving DecidableEq, Repr

/-- The elements of a tile whose slot is a participant, in loop order (R274). -/
def tileElems (mem regs : Layout) (origin : List Nat) (parts : List Nat) : List TileElem :=
  (domain regs.sizes).filterMap fun y =>
    match pointOver regs.dims y { off := regs.base } with
    | none => none
    | some p =>
      if parts.contains p.tsel.toNat then
        some { slot := p.tsel.toNat, spot := mem.eval (List.zipWith (· + ·) (origin ++ List.replicate 4 0) y), reg := regs.eval y }
      else none

/-- The first check of R275 on one element: the handles' checks of R49. -/
def State.tileFault (s : State) (core : Nat) (tk : Task) (hm hr : BitVec 128) (bits : Nat) (st : Bool) (e : TileElem) :
    Option (Nat × Word) :=
  match e.spot, e.reg with
  | some a, some r =>
    (s.handleFault core tk hm a.a ((a.sub + bits + 7) / 8) a.csel (if st then { w := true } else { r := true })).or
      (s.handleFault core tk hr r.a ((r.sub + bits + 7) / 8) 0 (if st then { r := true } else { w := true }))
  | _, _ => some (0x14, 0)

/-- The width code of an element of a number of bits, for one access. -/
def elemWidth (bits : Nat) : BitVec 3 :=
  if bits = 4 then 7 else if bits = 8 then 0 else if bits = 16 then 2 else if bits = 32 then 4 else 5

/-- The accesses of an element: one, or for 128 bits two of 8 bytes (R253), as byte and bit displacements. -/
def elemPieces (bits : Nat) : List Nat := if bits = 128 then [0, 8] else [0]

/-- The registers that the threads of some slots read for a `tst`, by physical number: those of the register side where it
is accepted (R128, R274). -/
def tileRegs (mem regs : BitVec 640) (hr : BitVec 128) (parts : List Nat) : List (Nat × RegRef) :=
  match classifyRegs regs mem hr with
  | .reject _ => []
  | _ =>
    let l := layoutOf regs
    ((domain l.sizes).flatMap fun y =>
      match pointOver l.dims y { off := l.base }, l.eval y with
      | some p, some q =>
        if parts.contains p.tsel.toNat then
          (elemPieces l.bits).map fun k => (p.tsel.toNat, RegRef.v (BitVec.ofNat 5 (hBase hr + (q.a + k) / 8)))
        else []
      | _, _ => []).eraseDups

/-- The view of `tld` and `tst`: v is read from the lowest-numbered participant, and `tst` reads every participant's
registers of the tile (R274). -/
def tileLane (x : Tl) (st : Bool) (G : Grp) : LaneI :=
  let l : LaneI := { len := 8, h := x.h }
  let parts := G.active l
  { l with own := (parts.take 1).map (fun i => (i, (G.cs.thread i).ref (.v x.v))) ++
      if st then tileRegs (G.tk.layout x.m.toNat) (G.tk.layout x.rl.toNat) (G.tk.handle x.rh.toNat) parts else [] }

/-- One access of a tile element: a thread's registers are read at its own cycle (R23, R25). -/
def tileAccess (G : Grp) (l : LaneI) (ds : Bool) (also : Nat) (after : List Await) (bits : Nat) (st : Bool) (e : TileElem) (va : Word) (x : Loc) (k : Nat)
    (r : Course × State) : Course × State :=
  match e.spot, e.reg with
  | some a, some q =>
    let pos := 8 * (q.a + k) + q.sub
    let ref : RegRef := .v (BitVec.ofNat 5 (pos / 64))
    let n := r.2.newId
    let t := G.cs.thread e.slot
    let data := (t.readV (BitVec.ofNat 5 (pos / 64)) (G.cyc l e.slot)).toNat / 2 ^ (pos % 64)
    let acc : Access :=
      { id := n.1, core := G.g.core, course := G.g.course, slot := e.slot, ord := r.2.nextOrd, ipc := G.g.pc
        va := va + BitVec.ofNat 64 k, kind := (if st then .store false else .load false), w := elemWidth bits
        nib := decide (a.sub ≠ 0), size := accSize (elemWidth bits), loc := x.plus k
        data := (if st then BitVec.ofNat 128 data else 0), dst := (if st then [] else [ref]), after := after
        part := (if st then none else some (pos % 64, min bits 64)), also := also, tile := ds }
    let c := if st then r.1 else r.1.modThread e.slot fun t => { t with sb := t.sb ++ [(ref, n.1)] }
    (c, n.2.issueAccess acc)
  | _, _ => r

/-- The refusal of a tile's layouts (R275, R402): the lowest reason, and the operand it stands for (R401). -/
def tileRefusal (mem regs : BitVec 640) (hm hr : BitVec 128) (origin : List Nat) (st : Bool) : Option (Nat × Nat) :=
  let known := if 1 ≤ hKind hm ∧ hKind hm ≤ 6 then some hm else none
  let mo := if st then 1 else 0
  match classify mem 5 { bits := none, plate := false, handle := known } origin, classifyRegs regs mem hr with
  | .reject a, .reject b => some (if a < b ∨ (a = b ∧ st = false) then (a, mo) else (b, 1 - mo))
  | .reject a, _ => some (a, mo)
  | _, .reject b => some (b, 1 - mo)
  | _, _ => none

/-- The trap of a tile whose layout or coordinate word is refused (R401). -/
def Grp.tileTrap (G : Grp) (i reason operand : Nat) : Cause :=
  { code := 0x20, sub := 5 + 16 * operand, reason := reason, ipc := G.g.pc, tmask := 2 ^ i }

/-- The coordinate words of a tile (R274): the traps of their own read, or a wait for it. -/
def State.tileWords (s : State) (G : Grp) (l : LaneI) (x : Tl) (st : Bool) (i : Nat) : Except (Option Cause) (List (Except CoordErr Nat)) :=
  let m := layoutOf (G.tk.layout x.m.toNat)
  if !m.ok then .error (some (G.tileTrap i 1 (if st then 1 else 0)))
  else
    let off := G.read l i (.v x.v)
    match s.recordCheck G (4 * m.ndims) 4 false [(i, off)] with
    | .trap c => .error (some c)
    | .wait _ => .error none
    | .ok _ =>
      if s.recordBusy G.g.core G.g.course G.tk off.toNat (4 * m.ndims) then .error none
      else
        let bs := s.spBytes G.g.core G.tk off.toNat (4 * m.ndims)
        .ok ((List.range m.ndims).map fun d => coordOf (G.cs.thread i).lidx (recNat bs (4 * d) 4))

/-- The origin of a tile whose layouts are accepted (R275): the lowest reason of the layouts and words stands (R402), and
then a value of 2^31 or more. A word that is refused counts as 0 for the layouts, as in R440. (log 42: DEDUCED, unsafe.) -/
def State.tileOrigin (s : State) (G : Grp) (l : LaneI) (x : Tl) (st : Bool) (i : Nat) : Except (Option Cause) (List Nat) :=
  match s.tileWords G l x st i with
  | .error e => .error e
  | .ok ws =>
    let origin := ws.map fun w => match w with | .ok v => v | _ => 0
    match tileRefusal (G.tk.layout x.m.toNat) (G.tk.layout x.rl.toNat) (G.tk.handle x.hd.toNat) (G.tk.handle x.rh.toNat) origin st with
    | some (reason, operand) => .error (some (G.tileTrap i reason operand))
    | none =>
      if ws.any fun w => match w with | .error .shift => true | _ => false then .error (some (G.tileTrap i 0x0B (if st then 1 else 0)))
      else if ws.any fun w => match w with | .error .large => true | _ => false then .error (some (G.fault 0x14 0 i 0))
      else .ok origin

/-- `tld` and `tst` (R274, R275). -/
def opTile (x : Tl) (st : Bool) (s : State) : Outcome :=
  s.withGroup fun G =>
    let l := tileLane x st G
    match G.check l with
    | some c => s.trapNow G c
    | none =>
      match (G.active l).head? with
      | none => s.finish G l G.cs
      | some i =>
        let core := G.g.core
        let mem := G.tk.layout x.m.toNat
        let regs := G.tk.layout x.rl.toNat
        let hm := G.tk.handle x.hd.toNat
        let hr := G.tk.handle x.rh.toNat
        if isCtl core then s.trapNow G { code := 0x01, ipc := G.g.pc, tmask := 2 ^ i }
        else match s.tileOrigin G l x st i with
        | .error (some c) => s.trapNow G c
        | .error none => s.holdAt G
        | .ok origin =>
          let bits := (layoutOf mem).bits
          let parts := G.active l
          let els := tileElems (layoutOf mem) (layoutOf regs) origin parts
          let addr := fun e : TileElem => (e.spot.map fun a => hBase hm + a.a).getD 0
          let need : Need := if st then { w := true } else { r := true }
          let bad := (els.findSome? fun e => (s.tileFault core G.tk hm hr bits st e).map fun f => G.fault f.1 0 e.slot f.2).or
            (els.findSome? fun e =>
              if 8 ≤ bits ∧ addr e % (bits / 8) ≠ 0 then some (G.fault 0x13 0 e.slot (BitVec.ofNat 64 (addr e))) else none)
          match bad with
          | some c => s.trapNow G c
          | none =>
            let placed := els.map fun e =>
              (e.slot, BitVec.ofNat 64 (addr e), e.spot.map fun a => s.handlePlace core G.tk hm a.a a.csel)
            let watched := placed.findSome? fun e =>
              match e.2.2 with
              | some (.pool k o) =>
                if k = core then ((s.core core).watch o ((bits + 7) / 8) need).map fun w => G.fault 0x52 w e.1 (BitVec.ofNat 64 o) else none
              | _ => none
            match watched with
            | some c => s.trapNow G c
            | none =>
              match s.homeCheck G need false placed with
              | .trap c => s.trapNow G c
              | .wait w => s.waitPage G w
              | .ok ls =>
                let first := hBase hr
                let awaited := els.any fun e =>
                  match e.reg with
                  | some q => (G.cs.thread e.slot).sb.any fun p =>
                      (elemPieces bits).any fun k => decide (p.1 = .v (BitVec.ofNat 5 (first + (q.a + k) / 8)))
                  | none => false
                if awaited then s.holdAt G
                else match s.gate G (!st) st ((bits + 7) / 8) ls with
                  | some s' => s'
                  | none =>
                    let after := parts.flatMap fun i => (G.cs.thread i).relAfter
                    let also := slotMask parts
                    let shift := fun e : TileElem => { e with reg := e.reg.map fun q => { q with a := q.a + 8 * first } }
                    (s.touchVirt G placed).finishMem G l fun c s =>
                      (els.zip ls).foldl (fun r p =>
                        (elemPieces bits).foldl (fun r k =>
                          tileAccess G l (decide (hKind hm = 5)) also (if st then after else []) bits st (shift p.1) p.2.2.1 p.2.2.2 k r) r) (c, s)

/-- `tld` (R274). -/
def execTld (x : Tl) (s : State) : Outcome := opTile x false s
/-- `tst` (R274). -/
def execTst (x : Tl) (s : State) : Outcome := opTile x true s

end Sys2Proof.Machine
end

