-- ==== Sys2Proof/Machine/Blocks.lean ====
section
/-! DEFINITION. Command blocks of the engines: header, fields, operands and the checks made at issue (R276 to R295,
R401 to R403, R440). -/

namespace Sys2Proof.Machine

/-! ## The parts of a block -/

/-- Word `k` of a block. -/
def blkWord (ws : List Nat) (k : Nat) : Nat := ws.getD k 0

/-- Bits `hi` down to `lo` of word `k`. -/
def blkBits (ws : List Nat) (k hi lo : Nat) : Nat := blkWord ws k / 2 ^ lo % 2 ^ (hi + 1 - lo)

/-- An operand descriptor (R282). -/
structure Desc where
  planes : Nat
  rscale : Nat
  fmt : Nat
  lay : Nat
  hnd : Nat
  xs : List Nat
  deriving DecidableEq, Repr

/-- The descriptor from its words. -/
def descOf (ds : List Nat) : Desc :=
  let w := ds.getD 0 0
  { planes := w / 2 ^ 32 % 8, rscale := w / 2 ^ 24 % 256, fmt := w / 2 ^ 16 % 32, lay := w / 16 % 32, hnd := w % 16
    xs := [ds.getD 1 0 % 2 ^ 32, ds.getD 1 0 / 2 ^ 32, ds.getD 2 0 % 2 ^ 32, ds.getD 2 0 / 2 ^ 32] }

/-- The words of the descriptor at word `w` of a block. -/
def descWords (ws : List Nat) (w : Nat) : List Nat := (ws.drop w).take 4

/-- Element bits of a format (R283); `none` for raw bits, which take the layout's. -/
def fmtBits (f : Nat) : Option Nat :=
  if f ≤ 2 then some 8 else if f = 3 then some 4 else if f = 4 ∨ f = 5 then some 16 else if f = 6 ∨ f = 8 then some 32 else none

/-- Whether a format is one of plate groups (R283). -/
def fmtPlate (f : Nat) : Bool := decide (0x10 ≤ f ∧ f ≤ 0x1C)

/-- The floating format of a code (R283). -/
def fmtFloat (f : Nat) : Option FpFmt :=
  if f = 1 then some e4m3 else if f = 2 then some e5m2 else if f = 3 then some e2m1 else if f = 4 then some f16
  else if f = 5 then some bf16 else if f = 6 then some f32 else none

/-- The extents of a copy or collective (R285). -/
def blkExts (ws : List Nat) : List Nat := [0, 16, 32, 48].map fun k => blkWord ws 10 / 2 ^ k % 65536

/-! ## Engine classes (R277 to R279) -/

/-- The units of a class and version that are known; 0 for none (R279). The class is its index 0 to 3. -/
def knownUnits (cls ver : Nat) : Nat :=
  if ver = 0 ∨ 3 < ver then 0
  else if cls = 0 then 7
  else if cls = 1 then (if ver = 1 then 7 else 8)
  else if cls = 2 then (if ver = 1 then 8 else 9)
  else if ver = 3 then 6 else 0

/-- The depth of a class's queue (R277). -/
def queueDepth (cls : Nat) : Nat := if cls ≤ 1 then 64 else if cls = 2 then 32 else 16

/-- The must-understand bits of R280 that are defined for a class, version and operation. -/
def knownMu (cls ver op : Nat) : Nat :=
  if op ≠ 0 ∨ ver < 2 then 0
  else
    let trap := if ver = 3 then 2 ^ 18 else 0
    if cls = 1 then 2 ^ 16 + 2 ^ 17 + trap else if cls = 2 then 2 ^ 17 + trap else 0

/-- The sub of a trap for the block itself, and for its flag, record or index list (R401). -/
def blockSub (cls : Nat) : Nat := 8 + cls + 16 * 4
def recordSub (cls : Nat) : Nat := 8 + cls + 16 * 3

/-! ## Fields (R282, R285, R287, R293, R294) -/

/-- The byte of the lowest bit of word `k` set outside `mask`. -/
def reservedAt (ws : List Nat) (k mask : Nat) : Option Nat :=
  ((List.range 64).find? fun b => (blkWord ws k).testBit b && !mask.testBit b).map fun b => 8 * k + b / 8

/-- A field at a byte that holds a value outside its range. -/
def outAt (bad : Bool) (at_ : Nat) : Option Nat := if bad then some at_ else none

/-- Every bit of a word. -/
def anyWord : Nat := 2 ^ 64 - 1

/-- The violations within a descriptor at word `w`; `nd` the dimensions of its layout if that is well-formed. -/
def descFaults (ws : List Nat) (w : Nat) (nd : Option Nat) : List (Option Nat) :=
  let d := descOf (descWords ws w)
  [reservedAt ws w 0x7FF1F01FF, outAt (decide (d.planes = 1)) (8 * w + 4), reservedAt ws (w + 3) 0] ++
    (List.range 4).map fun k => outAt (match nd with | some n => decide (n ≤ k ∧ d.xs.getD k 0 ≠ 0) | none => false) (8 * w + 8 + 4 * k)

/-- The dimensions of an operand's layout, if it is well-formed. -/
def descDims (tk : Task) (ws : List Nat) (w : Nat) : Option Nat :=
  let l := layoutOf (tk.layout (descOf (descWords ws w)).lay)
  if l.ok then some l.ndims else none

/-- The violations of the extents. -/
def extFaults (tk : Task) (ws : List Nat) : List (Option Nat) :=
  match descDims tk ws 2 with
  | some n => (blkExts ws).zipIdx.map fun e => outAt (decide (e.2 < n) != decide (e.1 ≠ 0)) (80 + 2 * e.2)
  | none => []

/-- The violations of the multicast word at word `k`. -/
def castFaults (ws : List Nat) (k mask : Nat) (flag : Bool) : List (Option Nat) :=
  [reservedAt ws k mask, outAt (!flag && decide (blkWord ws k ≠ 0)) (8 * k), outAt (flag && decide (blkWord ws k % 16 = 0)) (8 * k),
   reservedAt ws (k + 1) 0]

/-- The violations of word 1 of a matrix or gather block. (log 51: DEDUCED, unsafe.) -/
def mxWord1 (ws : List Nat) (gather : Bool) : List (Option Nat) :=
  let w := blkWord ws 1
  let op := w / 2 ^ 16 % 16
  let k := w % 2 ^ 13
  [reservedAt ws 1 0x7FFFFF, outAt (decide (1 < op) || (gather && decide (op ≠ 0))) 10] ++
    if op = 0 then
      [outAt (decide (k < 16 ∨ 4096 < k ∨ k % 16 ≠ 0)) 8, outAt (decide (w / 2 ^ 13 % 4 = 3)) 9, outAt (decide (w / 2 ^ 20 % 8 ≠ 0)) 10]
    else if op = 1 ∧ gather = false then [outAt (decide (k ≠ 0)) 8, outAt (decide (w / 2 ^ 13 % 8 ≠ 0)) 9]
    else []

/-- Reason 0x06: the byte of the first reserved bit set or field out of its range. -/
def fieldFault (tk : Task) (cls : Nat) (ws : List Nat) : Option Nat :=
  let h := blkWord ws 0
  let ver := h % 256
  let d := fun w => descFaults ws w (descDims tk ws w)
  let l := [outAt (decide (h / 2 ^ 52 % 8 ≠ 0)) 6] ++
    if cls = 0 then
      [reservedAt ws 1 3] ++ d 2 ++ d 6 ++ extFaults tk ws ++ [reservedAt ws 11 0xFFFFFFFF0000000F, reservedAt ws 13 0] ++
        [2, 6].map fun w => let x := descOf (descWords ws w); outAt (decide (x.fmt = 7 ∧ x.rscale ≠ 0)) (8 * w + 3)
    else if cls = 3 then
      [outAt (decide (3 < blkBits ws 1 23 20 ∨ 2 < blkBits ws 1 19 16)) 10] ++ d 2 ++ d 6 ++ extFaults tk ws ++
        [reservedAt ws 11 0xFFFFFFFF0000001F]
    else
      let acc := descOf (descWords ws 10)
      let op := blkBits ws 1 19 16
      mxWord1 ws (decide (cls = 2)) ++ d 2 ++ d 10 ++
        [outAt (decide (acc.fmt ≠ 0)) 82, outAt (decide (acc.rscale ≠ 0)) 83, outAt (decide (acc.planes ≠ 0)) 84] ++
        (if cls = 1 ∧ op = 1 then [6, 7, 8, 9].map fun k => reservedAt ws k 0 else d 6) ++
        (if cls = 2 then [reservedAt ws 14 0x1FFFF0, reservedAt ws 15 0] else []) ++
        (if ver = 1 then [] else
          castFaults ws (if cls = 1 then 14 else 16) (if cls = 1 then 0x3F else 0x2F) (h.testBit 17))
  (l.filterMap id).min?

/-- Step 2 of R440: the reason and detail of a refused header or field (R403), in the order of R279. (log 41: DEDUCED, unsafe.) -/
def headerFault (tk : Task) (cls : Nat) (ws : List Nat) : Option (Nat × Nat) :=
  let h := blkWord ws 0
  let ver := h % 256
  let size := h / 256 % 256
  let mu := h / 2 ^ 16 % 65536
  let ign := h / 2 ^ 32 % 65536
  let known := knownUnits cls ver
  let op := if cls = 1 then blkBits ws 1 19 16 else 0
  if h / 2 ^ 56 ≠ cls + 1 then some (1, h / 2 ^ 56)
  else if known = 0 then some (2, ver)
  else if size < known then some (3, known)
  else if (mu * 2 ^ 16) &&& knownMu cls ver op ≠ mu * 2 ^ 16 then some (4, mu)
  else if ign % 2 ^ known ≠ 0 then some (5, ign)
  else match fieldFault tk cls (ws.take (2 * known)) with
    | some b => some (6, b)
    | none =>
      ((List.range size).find? fun u =>
        decide (known ≤ u) && !(decide (u < 16) && ign.testBit u) && decide (blkWord ws (2 * u) ≠ 0 ∨ blkWord ws (2 * u + 1) ≠ 0)).map
        fun u => (7, u)

/-! ## Operands (R283, R284, R286, R288, R292 to R294) -/

/-- What a command asks of an operand: the descriptor's word, its class and operand code (R401), the formats it may
have, its extents, the rights it needs, the group shape of plates, whether it is the accumulator, and the rows that a
gather names. -/
structure Wants where
  w : Nat
  cls : Nat
  op : Nat
  fmts : List Nat
  shape : List Nat
  need : Need
  group : Option (Nat × Nat) := none
  acc : Bool := false
  rows : Option (List Nat) := none

/-- The elementwise formats that a path allows for A, and for B (R288). -/
def pathA (p : Nat) : List Nat := if p = 0 then [0] else if p = 1 then [1, 2, 3] else [4, 5]
def pathB (p : Nat) : List Nat := if p = 0 then [] else pathA p

/-- Every plate format. -/
def plateFmts : List Nat := (List.range 13).map (· + 0x10)

/-- The accumulator operand at word 10. -/
def accWants (write : Bool) : Wants :=
  { w := 10, cls := 3, op := 2, fmts := [0], shape := [64, 128], need := { r := true, w := write }, acc := true }

/-- The operands of a block, in its order. -/
def wantsOf (cls : Nat) (ws : List Nat) (rows : List Nat) : List Wants :=
  let k := blkBits ws 1 12 0
  let path := blkBits ws 1 14 13
  let b : Wants := { w := 6, cls := 2, op := 1, fmts := pathB path ++ plateFmts, shape := [k, 128], need := { r := true }, group := some (16, 128) }
  let all := List.range 9
  if cls = 0 then
    [{ w := 2, cls := 0, op := 0, fmts := all, shape := blkExts ws, need := { r := true } },
     { w := 6, cls := 0, op := 1, fmts := all, shape := blkExts ws, need := { w := true } }]
  else if cls = 1 then
    if blkBits ws 1 19 16 = 0 then
      [{ w := 2, cls := 1, op := 0, fmts := pathA path ++ plateFmts, shape := [64, k], need := { r := true }, group := some (64, 32) },
       b, accWants true]
    else
      [{ w := 2, cls := 3, op := 1, fmts := [4, 5, 6] ++ (plateFmts.drop 1).take 7, shape := [64, 128], need := { w := true }
         group := some (16, 128) },
       accWants ((blkWord ws 1).testBit 22)]
  else if cls = 2 then
    [{ w := 2, cls := 4, op := 0, fmts := pathA path, shape := [64, k], need := { r := true }, rows := some rows }, b, accWants true]
  else
    let f := [6, 5, 4, 8].getD (blkBits ws 1 23 20) 8
    [{ w := 2, cls := 0, op := 0, fmts := [f], shape := blkExts ws, need := { r := true } },
     { w := 6, cls := 0, op := 1, fmts := [f], shape := blkExts ws, need := { w := true } }]

/-- An operand with its descriptor, handle and layout, and its coordinate words evaluated. -/
structure Opnd where
  q : Wants
  d : Desc
  h : BitVec 128
  m : BitVec 640
  xs : List (Except CoordErr Nat)

/-- The operand as the issuing thread sees it. (log 40: DEDUCED, unsafe.) -/
def opndOf (tk : Task) (t : Thread) (ws : List Nat) (q : Wants) : Opnd :=
  let d := descOf (descWords ws q.w)
  let m := tk.layout d.lay
  { q := q, d := d, h := tk.handle d.hnd, m := m, xs := (d.xs.take (layoutOf m).ndims).map (coordOf t.lidx) }

/-- Its origin; a coordinate word that step 5 refuses counts as 0 before that step. -/
def Opnd.origin (o : Opnd) : List Nat := o.xs.map fun x => match x with | .ok v => v | _ => 0

/-- Its extents over the dimensions of its layout. -/
def Opnd.shape (o : Opnd) : List Nat := o.q.shape.take (layoutOf o.m).ndims

/-- Its handle where that has a kind of R48; another kind is left to the handle checks of step 7. -/
def Opnd.known (o : Opnd) : Option (BitVec 128) := if 1 ≤ hKind o.h ∧ hKind o.h ≤ 6 then some o.h else none

/-- Its acceptance (step 4). -/
def Opnd.accept (o : Opnd) : Accept :=
  if o.q.acc then classifyAcc o.m (o.known.getD (BitVec.ofNat 128 (6 * 2 ^ 124))) o.origin
  else classify o.m o.q.cls { bits := fmtBits o.d.fmt, plate := fmtPlate o.d.fmt, handle := o.known } o.origin

/-- The group shape that applies: to a plate format only. -/
def Opnd.group (o : Opnd) : Option (Nat × Nat) := if fmtPlate o.d.fmt then o.q.group else none

/-- The dimension in which the origin is not a multiple of its group shape (R284); A's k may be any multiple of 16. -/
def Opnd.badOrigin (o : Opnd) : Option Nat :=
  match o.group with
  | none => none
  | some g =>
    let k := if g = (64, 32) then 16 else g.2
    if o.origin.getD 0 0 % g.1 ≠ 0 then some 0 else if o.origin.getD 1 0 % k ≠ 0 then some 1 else none

/-- The coordinates at which the layout is evaluated, in order. -/
def Opnd.coords (o : Opnd) : List (List Nat) :=
  let org := o.origin
  match o.q.rows with
  | some rows =>
    let n := (layoutOf o.m).sizes.getD 0 0
    (List.range (o.q.shape.getD 1 0)).flatMap fun k =>
      (rows.filter fun r => decide (r ≠ 0xFFFFFFFF ∧ org.getD 0 0 + r < n)).map fun r => [org.getD 0 0 + r, org.getD 1 0 + k]
  | none =>
    match o.group with
    | some g =>
      let part := fun x n G : Nat => (x % G + n + G - 1) / G
      (domain [part (org.getD 0 0) (o.q.shape.getD 0 0) g.1, part (org.getD 1 0) (o.q.shape.getD 1 0) g.2]).map fun y =>
        [org.getD 0 0 / g.1 + y.getD 0 0, org.getD 1 0 / g.2 + y.getD 1 0]
    | none => (domain o.shape).map fun y => List.zipWith (· + ·) org y

/-- The bytes of a plate body of BPn (R94). -/
def bpBytes (n : Nat) : Nat := 16 * n

/-- The bytes that an element or plate group takes: a group to be written takes all its bodies (R292), one to be read
its header (R95). (log 43: DEDUCED, unsafe.) -/
def Opnd.unitBytes (o : Opnd) (sub : Nat) : Nat :=
  match o.group with
  | some _ => if o.q.need.w then 64 + 16 * bpBytes (o.d.fmt - 0x0F) else 64
  | none => (sub + (layoutOf o.m).bits + 7) / 8

/-- Step 7 on one operand: the first element that fails the checks of its domain and handle. -/
def State.opndFault (s : State) (core : Nat) (tk : Task) (o : Opnd) : Option (Nat × Word) :=
  let l := layoutOf o.m
  o.coords.findSome? fun y =>
    match l.eval y with
    | none => some (0x14, 0)
    | some p => s.handleFault core tk o.h p.a (o.unitBytes p.sub) p.csel o.q.need

/-- A flag or record of `size` bytes at an offset through a handle (R286, R294). -/
def State.recordFault (s : State) (core : Nat) (tk : Task) (h : BitVec 128) (off size align : Nat) : Option (Nat × Word) :=
  if off % align ≠ 0 ∨ ¬ (2 ≤ hKind h ∧ hKind h ≤ 5) then some (0x14, BitVec.ofNat 64 off)
  else s.handleFault core tk h off size 0 { w := true }

/-- What is refused: code, sub, reason, detail, address. -/
structure Refused where
  code : Nat
  sub : Nat
  reason : Nat := 0
  detail : Nat := 0
  faddr : Word := 0

/-- A refusal of an operand. -/
def Opnd.refuse (o : Opnd) (code reason detail : Nat) : Refused :=
  { code := code, sub := o.q.cls + 16 * o.q.op, reason := reason, detail := detail }

/-- Step 3: formats, pairs, scales and the size of a collective (R283, R286, R288, R292, R294). -/
def formatFault (cls : Nat) (ws : List Nat) (os : List Opnd) : Option Refused :=
  let listed := os.findSome? fun o => if o.q.fmts.contains o.d.fmt then none else some (o.refuse 0x21 8 o.d.fmt)
  let pair : Option Refused :=
    match cls, os with
    | 0, [a, b] =>
      if (a.d.fmt ≠ b.d.fmt ∧ ¬ ((fmtFloat a.d.fmt).isSome ∧ (fmtFloat b.d.fmt).isSome)) ∨
          (a.d.fmt = b.d.fmt ∧ (a.d.fmt = 0 ∨ a.d.fmt = 8) ∧ a.d.rscale ≠ b.d.rscale) then some (b.refuse 0x21 8 b.d.fmt) else none
    | 1, a :: _ =>
      if blkBits ws 1 19 16 = 1 ∧ a.d.fmt < 0x10 ∧ a.d.rscale ≠ 0 then some (a.refuse 0x21 8 a.d.fmt) else none
    | 3, a :: _ =>
      let l := layoutOf a.m
      let n := a.shape.foldl (· * ·) 1 * ((fmtBits a.d.fmt).getD 0) / 8
      if l.ok ∧ ¬ (4096 ≤ n ∧ n ≤ 65536) then some (a.refuse 0x21 8 a.d.fmt) else none
    | _, _ => none
  listed.or pair

/-- Step 4: each layout; for a copy or collective, both have the same dimensions, and raw bits the same size. (log 45: DEDUCED, unsafe.) -/
def layoutFault (cls : Nat) (os : List Opnd) : Option Refused :=
  let both := match os with
    | [a, b] =>
      let la := layoutOf a.m
      let lb := layoutOf b.m
      if (cls = 0 ∨ cls = 3) ∧ la.ok ∧ lb.ok then
        (if a.d.fmt = 7 ∧ la.esize ≠ lb.esize then some 3 else if la.ndims ≠ lb.ndims then some 4 else none)
      else none
    | _ => none
  os.findSome? fun o =>
    let own := match o.accept with | .reject r => some r | _ => none
    let why := if (cls = 0 ∨ cls = 3) ∧ o.q.op = 1 then (own.toList ++ both.toList).min? else own
    why.map fun r => o.refuse 0x20 r 0

/-- Step 5: coordinate words. -/
def coordFault (os : List Opnd) : Option Refused :=
  os.findSome? fun o => o.xs.findSome? fun x =>
    match x with
    | .error .shift => some (o.refuse 0x20 0x0B 0)
    | .error .large => some (o.refuse 0x14 0 0)
    | .ok _ => none

/-- The flag or record of a block: its descriptor's handle, offset, size and alignment, where it asks for one. -/
def flagOf (cls : Nat) (ws : List Nat) : Option (Nat × Nat × Nat × Nat) :=
  let w := blkWord ws 11
  if cls = 0 ∧ (blkWord ws 1).testBit 1 then some (w % 16, w / 2 ^ 32, 8, 8)
  else if cls = 3 ∧ w.testBit 4 then some (w % 16, w / 2 ^ 32, 32, 32)
  else none

/-- The index list's offset of a gather (R293). -/
def ixOffset (ws : List Nat) : Nat := blkWord ws 14 % 2 ^ 21

/-- The indices of a gather, where its list lies within the scratchpad part. -/
def State.indexList (s : State) (core : Nat) (tk : Task) (ws : List Nat) : Option (List Nat) :=
  if tk.spG.length * 16384 < ixOffset ws + 256 then none
  else
    let bs := s.spBytes core tk (ixOffset ws) 256
    some ((List.range 64).map fun i => recNat bs (4 * i) 4)

/-- Steps 3 to 9 of R440 for a block whose header and fields are accepted. (log 46: DEDUCED, unsafe.) -/
def State.blockFault (s : State) (core : Nat) (tk : Task) (t : Thread) (cls : Nat) (ws : List Nat) : Option Refused :=
  let idx := if cls = 2 then s.indexList core tk ws else none
  let os := (wantsOf cls ws (idx.getD [])).map (opndOf tk t ws)
  let first3 := (formatFault cls ws os).or ((layoutFault cls os).or (coordFault os))
  let origins := os.findSome? fun o => o.badOrigin.map fun d => o.refuse 0x21 9 d
  let elems := os.findSome? fun o =>
    (s.opndFault core tk o).map fun f => { o.refuse f.1 0 0 with faddr := f.2 }
  let flag := (flagOf cls ws).bind fun f =>
    (s.recordFault core tk (tk.handle f.1) f.2.1 f.2.2.1 f.2.2.2).map fun x =>
      ({ code := x.1, sub := recordSub cls, faddr := x.2 } : Refused)
  let indices : Option Refused :=
    if cls ≠ 2 then none
    else match idx, os with
      | none, _ => some { code := 0x14, sub := recordSub cls, faddr := BitVec.ofNat 64 (ixOffset ws) }
      | some l, o :: _ =>
        l.zipIdx.findSome? fun x =>
          if x.1 ≠ 0xFFFFFFFF ∧ (layoutOf o.m).sizes.getD 0 0 ≤ o.origin.getD 0 0 + x.1 then
            some { code := 0x14, sub := recordSub cls, faddr := BitVec.ofNat 64 (ixOffset ws + 4 * x.2) }
          else none
      | _, _ => none
  first3.or (origins.or (elems.or (flag.or indices)))

/-- The block that a thread names, or the refusal of steps 1 and 2 (R440): its offset and words. -/
def State.readBlock (s : State) (core : Nat) (tk : Task) (cls : Nat) (addr : Word) : Except Refused (Nat × List Nat) :=
  let off := addr.toNat
  let part := tk.spG.length * 16384
  let out : Refused := { code := 0x14, sub := blockSub cls, faddr := addr }
  if off % 16 ≠ 0 then .error { code := 0x13, sub := blockSub cls, faddr := addr }
  else if part < off + 16 then .error out
  else
    let size := recNat (s.spBytes core tk off 8) 1 1
    if part < off + 16 * size then .error out
    else
      let bs := s.spBytes core tk off (16 * max size 1)
      let ws := (List.range (2 * max size 1)).map fun k => recNat bs (8 * k) 8
      match headerFault tk cls ws with
      | some (r, d) => .error { code := 0x21, sub := blockSub cls, reason := r, detail := d }
      | none => .ok (off, ws)

end Sys2Proof.Machine
end

