-- ==== Sys2Proof/Machine/Engines.lean ====
section
/-! DEFINITION. Issuing engine commands (R276, R277, R405), the `acc` sub-operations (R295), guard slots at queue heads
(R281) and retirement (R167). -/

namespace Sys2Proof.Machine

/-! ## Queues -/

/-- The queue of a class on a core: 0 copy, 1 matrix, 2 gather, 3 collective. -/
def Core.queue (k : Core) (cls : Nat) : List Cmd := k.queues.toList.getD cls []
def Core.setQueue (k : Core) (cls : Nat) (q : List Cmd) : Core :=
  { k with queues := if h : cls < 4 then k.queues.set cls q else k.queues }

/-- A counter of a course (R45). -/
def Course.count (c : Course) (cls : Nat) : Nat := c.cnt.toList.getD cls 0
def Course.setCount (c : Course) (cls n : Nat) : Course := { c with cnt := if h : cls < 4 then c.cnt.set cls n else c.cnt }

/-- Whether a command has ended and only its retirement is left. -/
def Cmd.ended (x : Cmd) : Bool := x.discarded || decide (x.st = .performed ∨ x.st = .failed)

/-- The oldest command of a class that has not ended. -/
def Core.headCmd (k : Core) (cls : Nat) : Option Cmd := (k.queue cls).find? fun x => !x.ended

/-- A command of a core replaced by its number. -/
def State.setCmd (s : State) (core : Nat) (x : Cmd) : State :=
  s.modCore core fun k => k.setQueue x.cls ((k.queue x.cls).map fun y => if y.id = x.id then x else y)

/-- Whether the head of a class's queue is held on an unresolved guard slot of a course, and which slot (R405). -/
def State.selfBlock (s : State) (core course cls : Nat) : Option Nat :=
  match (s.core core).headCmd cls with
  | some x =>
    match x.gen with
    | some n => if x.course = course ∧ ((s.course? core course).getD {}).slotAt n = .unresolved then some n else none
    | none => none
  | none => none

/-! ## Issue (R276) -/

/-- The trap of a refusal in a thread (R401): codes 0x20 to 0x22 give the block's offset. -/
def Refused.cause (r : Refused) (G : Grp) (i : Nat) (block : Word) : Cause :=
  { code := r.code, sub := r.sub, reason := r.reason, detail := r.detail
    faddr := if 0x20 ≤ r.code ∧ r.code ≤ 0x22 then block else r.faddr, ipc := G.g.pc, tmask := 2 ^ i }

/-- The cores and granules that a handle reaches, by gang rank for a `cl` handle. -/
def State.handleHomes (s : State) (core : Nat) (tk : Task) (h : BitVec 128) : List (Nat × List Nat) :=
  if hKind h = 3 then
    (List.range tk.gang).map fun r =>
      if r = tk.rank then (core, tk.spG) else ((s.member tk r).map fun m => (m.1, m.2.2.spG)).getD (core, [])
  else [(core, partOf h tk)]

/-- The snapshot of an operand (R276). -/
def State.snapshot (s : State) (core : Nat) (tk : Task) (ws : List Nat) (o : Opnd) : Operand :=
  { desc := descWords ws o.q.w, handle := o.h, layout := o.m, origin := o.origin, homes := s.handleHomes core tk o.h
    cost := match o.accept with | .convert c => c | _ => 0 }

/-- The stores and atomics of a core that have left its lanes and are on their way: a command reads as a lane access of the
core would, after them (R156, R166). -/
def State.writesOf (s : State) (core : Nat) : List Nat :=
  (s.inflight.filter fun a => decide (a.core = core ∧ a.st ≠ .held) && a.kind.writes).map Access.id

/-- Whether a command of a course must wait at issue: a store or atomic of the course is held back, or a write to the core's
own pool, from which the block and the index list are read, is not yet performed, or is an atomic of the course that was held
back and has not returned (R160, R166). -/
def State.issueBusy (s : State) (core course : Nat) : Bool :=
  s.inflight.any fun a => a.kind.writes && decide (a.core = core) &&
    (decide (a.course = course ∧ a.st = .held) ||
      ((match a.loc with | .pool k _ => decide (k = core) | _ => false) &&
        (decide (a.st = .left) || (decide (a.course = course) && a.holdsReads))))

/-- The chunks of a copy of an extent (R127); one that the extent fills in part is charged whole. (log 155: DESIGN CHOICE, unsafe.) -/
def copyChunks (bits : Nat) (ext : List Nat) : Nat :=
  let up := fun e n : Nat => (e + n - 1) / n
  up (ext.getD 0 1) (max 1 (512 / bits)) * up (ext.getD 1 1) 16 * ext.getD 2 1 * ext.getD 3 1

/-- The permute cycles of one chunk of a command's operands that move as a copy's do, and its chunks (R130); the source's
element size gives the chunks of both operands. (log 155: DESIGN CHOICE, unsafe.) -/
def Cmd.copyCost (x : Cmd) : Nat × Nat :=
  let l := layoutOf (x.ops.headD {}).layout
  (x.ops.foldl (fun n o => max n o.cost) 0, copyChunks l.bits ((blkExts x.words).take l.ndims))

/-- The accumulator tile of an operand: the task's offset in tiles. -/
def accTile (o : Operand) : Nat :=
  match (layoutOf o.layout).eval o.origin with
  | some p => (hBase o.handle + p.a) / 65536
  | none => 0

/-- The command of one thread: its snapshots, in class order. -/
def State.makeCmd (s : State) (G : Grp) (cls i : Nat) (off : Nat) (ws : List Nat) : Cmd :=
  let core := G.g.core
  let t := G.cs.thread i
  let idx := if cls = 2 then (s.indexList core G.tk ws).getD [] else []
  let ops := ((wantsOf cls ws idx).map (opndOf G.tk t ws)).map (s.snapshot core G.tk ws)
  let h := blkWord ws 0
  { id := s.nextId
    kind := if cls = 0 then .copy else if cls = 1 then (if blkBits ws 1 19 16 = 0 then .mma else .writeBack) else if cls = 2 then .gather else .col
    cls := cls, course := G.g.course, slot := i, task := G.cs.task, ipc := G.g.pc, blockAt := off
    gen := if h.testBit 55 then some (h / 2 ^ 48 % 16) else none
    sup := t.sup, words := ws, ops := ops, idx := idx, ord := s.nextOrd, after := s.writesOf core
    cycle := G.g.t, lane := laneOf core G.g.course
    tile := if cls = 1 ∨ cls = 2 then ops.getLast?.map accTile else none
    flag := (flagOf cls ws).map fun f =>
      let hd := G.tk.handle f.1
      ({ handle := hd, homes := s.handleHomes core G.tk hd }, f.2.1) }

/-- Whether a command that has not begun goes behind a new one: both reached the engine in one cycle, and its lane has the
higher number (R107). -/
def Cmd.yields (y x : Cmd) : Bool := decide (y.cycle = x.cycle ∧ x.lane < y.lane ∧ y.st = .queued)

/-- A list with an element put before the first that satisfies a test, else at the end. -/
def insertAt {α : Type} (p : α → Bool) (x : α) : List α → List α
  | [] => [x]
  | a :: r => if p a then x :: a :: r else a :: insertAt p x r

/-- A command enters its queue, and the matrix engine's order where it has one (R107, R276). -/
def State.enqueue (s : State) (core : Nat) (x : Cmd) : State :=
  let s := { s with nextId := s.nextId + 1 }
  let s := s.modCore core fun k =>
    let behind := fun id : Nat => ((k.queues.toList.flatten.find? fun y => decide (y.id = id)).map fun y => y.yields x).getD false
    let q := if x.cls = 1 ∨ x.cls = 2 then insertAt (fun y => y.yields x) { x with id := s.nextId - 1 } (k.queue x.cls)
      else k.queue x.cls ++ [{ x with id := s.nextId - 1 }]
    let m := if x.cls = 1 ∨ x.cls = 2 then insertAt behind (s.nextId - 1) k.morder else k.morder
    { k.setQueue x.cls q with morder := m }
  s.modCourse core x.course fun c => c.setCount x.cls (c.count x.cls + 1)

/-- The commands of a group: refused for their number, parked for want of room, or queued (R276, R405). -/
def State.queueAll (s : State) (G : Grp) (l : LaneI) (cls sub : Nat) (block : Word) (cmds : List Cmd) : State :=
  let k := cmds.length
  let core := G.g.core
  let i := ((cmds.head?).map Cmd.slot).getD 0
  let full := decide (queueDepth cls < ((s.core core).queue cls).length + k)
  let counted := decide (63 < G.cs.count cls + k)
  if 63 < k ∨ queueDepth cls < k then
    s.trapNow G (({ code := 0x21, sub := sub, reason := 0x0A, detail := k } : Refused).cause G i block)
  else if full || counted then
    match s.selfBlock core G.g.course cls with
    | some n => s.trapNow G (({ code := 0x21, sub := sub, reason := 0x0C, detail := n } : Refused).cause G i block)
    | none => s.parkAt G (if counted then .counterFull cls else .queueFull cls)
  else
    let s := cmds.foldl (fun s x => s.enqueue core x) s
    s.finish G l ((s.course? core G.g.course).getD G.cs)

/-- `tcpy`, `tmma`, `tgat` and `tcol` (R276): each thread whose guard is true issues one command; the first thread
whose block fails a check traps, and nothing is queued. -/
def opIssue (x : V1) (cls : Nat) (s : State) : Outcome :=
  let l : LaneI := { len := 4, h := x.h, rd := [.v x.v] }
  s.withGroup fun G =>
    match G.check l with
    | some c => s.trapNow G c
    | none =>
      let act := G.active l
      let core := G.g.core
      match act.head? with
      | none => s.finish G l G.cs
      | some i0 =>
        if isCtl core then s.trapNow G { code := 0x01, ipc := G.g.pc, tmask := 2 ^ i0 }
        else
          if s.issueBusy core G.g.course then s.holdAt G
          else
            let one := fun i : Nat =>
              let addr := G.read l i (.v x.v)
              match s.readBlock core G.tk cls addr with
              | .error r => Except.error (r.cause G i addr)
              | .ok (off, ws) =>
                match s.blockFault core G.tk (G.cs.thread i) cls ws with
                | some r => .error (r.cause G i addr)
                | none => .ok (s.makeCmd G cls i off ws)
            match act.mapM one with
            | .error c => s.trapNow G c
            | .ok cmds => s.queueAll G l cls (blockSub cls) (G.read l i0 (.v x.v)) cmds

/-- `tcpy` (R276, R285, R286). -/
def execTcpy (x : V1) (s : State) : Outcome := opIssue x 0 s
/-- `tmma` (R276, R287 to R292). -/
def execTmma (x : V1) (s : State) : Outcome := opIssue x 1 s
/-- `tgat` (R276, R293). -/
def execTgat (x : V1) (s : State) : Outcome := opIssue x 2 s
/-- `tcol` (R276, R294). -/
def execTcol (x : V1) (s : State) : Outcome := opIssue x 3 s

/-! ## `acc` (R295) -/

/-- An `acc` sub-operation of each thread whose guard is true: the handle's checks, then a command in the matrix queue.
`rdrow` alone reads, and its register awaits the command. (log 44: DEDUCED, unsafe.) -/
def opAcc (len : Nat) (h : Hdr) (hd : BitVec 4) (v : Reg) (sub imm : Nat) (s : State) : Outcome :=
  let takes := decide (sub = 1 ∨ sub = 3)
  let l : LaneI := { len := len, h := h, rd := if takes then [.v v] else [] }
  s.withGroup fun G =>
    match G.check l with
    | some c => s.trapNow G c
    | none =>
      let act := G.active l
      let core := G.g.core
      match act.head? with
      | none => s.finish G l G.cs
      | some i0 =>
        let hv := G.tk.handle hd.toNat
        let need : Need := if sub = 2 then { r := true } else { w := true }
        let bad : Option Refused :=
          if hKind hv ≠ 6 then some { code := 0x14, sub := 12 }
          else (s.handleFault core G.tk hv 0 65536 0 need).map fun f => { code := f.1, sub := 12, faddr := f.2 }
        if isCtl core then s.trapNow G { code := 0x01, ipc := G.g.pc, tmask := 2 ^ i0 }
        else match bad with
          | some r => s.trapNow G (r.cause G i0 0)
          | none =>
            let cmds := act.map fun i =>
              let t := G.cs.thread i
              ({ id := 0
                 kind := .accOp sub imm (if takes then G.read l i (.v v) else 0) (if sub = 2 then some (.v (t.phys v)) else none)
                 cls := 1, course := G.g.course, slot := i, task := G.cs.task, ipc := G.g.pc, sup := t.sup, ord := s.nextOrd
                 cycle := G.g.t, lane := laneOf core G.g.course
                 ops := [{ handle := hv, homes := s.handleHomes core G.tk hv }], tile := some (hBase hv / 65536) } : Cmd)
            let s' := s.queueAll G l 1 (12 + 16 * 4) 0 cmds
            if sub = 2 then
              cmds.zipIdx.foldl (fun s' p =>
                if ((s'.core core).queue 1).any (fun y => decide (y.id = s.nextId + p.2)) then
                  s'.modCourse core G.g.course fun c => c.modThread p.1.slot fun t => t.awaitReg (.v ((G.cs.thread p.1.slot).phys v)) (s.nextId + p.2)
                else s') s'
            else s'

/-- `acc.zero`, 32-bit form (R295). -/
def execAccZero (x : Hh) (s : State) : Outcome := opAcc 4 x.h x.hd 0 0 0 s
/-- `acc.zero` (R295). -/
def execAccZeroL (x : Hh64) (s : State) : Outcome := opAcc 8 x.r.h x.r.hd 0 0 0 s
/-- `acc.setexp`, 32-bit form: row 0 (R295, R296). -/
def execAccSetexp (x : Vh) (s : State) : Outcome := opAcc 4 x.h x.hd x.v 1 0 s
/-- `acc.setexp` (R295, R296). -/
def execAccSetexpL (x : Vh64) (s : State) : Outcome := opAcc 8 x.r.h x.r.hd x.r.v 1 x.i.toNat s
/-- `acc.rdrow`, 32-bit form: row 0 (R295). -/
def execAccRdrow (x : Vh) (s : State) : Outcome := opAcc 4 x.h x.hd x.v 2 0 s
/-- `acc.rdrow` (R295). -/
def execAccRdrowL (x : Vh64) (s : State) : Outcome := opAcc 8 x.r.h x.r.hd x.r.v 2 x.i.toNat s
/-- `acc.wrrow`, 32-bit form: row 0 (R295, R296). -/
def execAccWrrow (x : Vh) (s : State) : Outcome := opAcc 4 x.h x.hd x.v 3 0 s
/-- `acc.wrrow` (R295, R296). -/
def execAccWrrowL (x : Vh64) (s : State) : Outcome := opAcc 8 x.r.h x.r.hd x.r.v 3 x.i.toNat s
/-- `acc.clrst`, 32-bit form (R295). -/
def execAccClrst (x : Hh) (s : State) : Outcome := opAcc 4 x.h x.hd 0 4 0 s
/-- `acc.clrst` (R295). -/
def execAccClrstL (x : Hh64) (s : State) : Outcome := opAcc 8 x.r.h x.r.hd 0 4 0 s

/-! ## Guard slots and retirement -/

/-- GUARD_SLOT_HEAD_CHECK (R281): the head command of a class reads its guard slot; true frees it to run, false discards
it. -/
def State.headCheck (s : State) (core cls : Nat) : State :=
  match (s.core core).headCmd cls with
  | none => s
  | some x =>
    match x.gen with
    | none => s
    | some n =>
      match ((s.course? core x.course).getD {}).slotAt n with
      | .unresolved => s
      | .isTrue => s.setCmd core { x with gen := none }
      | .isFalse => s.setCmd core { x with discarded := true }

/-- Whether a command comes after nothing more of its course (R166): its local stores are performed, its remote ones have
left the lane. -/
def State.cmdReady (s : State) (x : Cmd) : Bool :=
  x.after.all fun id =>
    match s.access? id with
    | none => true
    | some a => a.loc.isRemote && decide (a.st ≠ .held)

/-- Whether the course of a command is resident with a live thread (R401). -/
def State.courseLive (s : State) (core course : Nat) : Bool :=
  match s.course? core course with
  | some c => !c.allLive.isEmpty
  | none => false

/-- A deferred fault of a command whose course has no live thread: no frame is written and the task ends as route 0
does (R401). -/
def State.orphanFault (s : State) (core : Nat) (x : Cmd) (c : Cause) : State :=
  s.fatal core x.course x.task c

/-- Courses parked on a class's queue, or on their own counter of it, are woken at least 32 cycles on (R82). -/
def State.wakeParked (s : State) (core course cls : Nat) : State :=
  let wake := fun (n : Nat) (c : Course) =>
    match c.park with
    | some (.queueFull k) => if k = cls then { c with wakeAt := some (c.wakeAt.getD (s.now + 32)) } else c
    | some (.counterFull k) => if k = cls ∧ n = course then { c with wakeAt := some (c.wakeAt.getD (s.now + 32)) } else c
    | _ => c
  s.modCore core fun k => { k with courses := k.courses.map fun p => (p.1, wake p.1 p.2) }

/-- COMMAND_RETIRE (R167): the oldest command of a course and class retires once it has ended and its writes are
performed and acknowledged, and no earlier one of the class that is held keeps it; its counter falls by one, and its fault is deferred
to the course (R400, R407). -/
def State.retire (s : State) (core course cls : Nat) : State :=
  let k := s.core core
  match (k.queue cls).find? fun x => decide (x.course = course) with
  | none => s
  | some x =>
    if !x.ended || !x.writes.isEmpty || !x.todo.isEmpty then s
    else
      let s := s.setCore core
        { k with queues := (k.setQueue cls ((k.queue cls).filter fun y => decide (y.id ≠ x.id))).queues, morder := k.morder.filter (· ≠ x.id) }
      let s := s.modCourse core course fun c =>
        { (c.setCount cls (c.count cls - 1)) with
          tstat := putField c.tstat 0 16 (min (if x.discarded then 0 else x.perm) 0xFFFF)
          farDone := if h : cls < 4 then (if x.wroteFar then c.farDone.set cls true else c.farDone) else c.farDone }
      let s := s.wakeParked core course cls
      match x.fault with
      | none => s
      | some c => if s.courseLive core course then s.defer core course c else s.orphanFault core x c

end Sys2Proof.Machine
end

