-- ==== Sys2Proof/Machine/Crypto.lean ====
section
/-! DEFINITION. SHA-512, and ECDSA over P-521 with it, by which records and reports are signed (R369, R370): the functions
and the curve are those of the standards that the spec names. (log 104: PRESUMED, unsafe.) -/

namespace Sys2Proof.Machine

/-! ## SHA-512 -/

/-- The value of bytes, the first the most significant, and the `n` bytes of a value. -/
def beNat (bs : List Byte) : Nat := bs.foldl (fun x b => 256 * x + b.toNat) 0
def beBytes (n x : Nat) : List Byte := (leBytes n x).reverse

/-- The largest number of `bits` bits whose `k`th power is at most `x`. -/
def rootOf (k bits x : Nat) : Nat := (List.range bits).foldr (fun i r => if (r + 2 ^ i) ^ k ≤ x then r + 2 ^ i else r) 0

/-- The first `n` primes, of the numbers below 410. -/
def primesTo (n : Nat) : List Nat := ((List.range 410).filter fun p => 2 ≤ p ∧ (List.range 21).all fun d => d < 2 ∨ p ≤ d ∨ p % d ≠ 0).take n

/-- The initial hash and the round constants: the first 64 bits of the fractions of the primes' square and cube roots. -/
def shaInit : List Word := (primesTo 8).map fun p => BitVec.ofNat 64 (rootOf 2 72 (p * 2 ^ 128))
def shaRounds : List Word := (primesTo 80).map fun p => BitVec.ofNat 64 (rootOf 3 72 (p * 2 ^ 192))

/-- The padded message. -/
def shaPad (bs : List Byte) : List Byte := bs ++ [0x80] ++ List.replicate ((239 - bs.length % 128) % 128) 0 ++ beBytes 16 (8 * bs.length)

/-- The 80 words of a block of 16. -/
def shaWords (w : List Word) : List Word :=
  (List.range 64).foldl (fun w i =>
    let at_ := fun k : Nat => w.getD (i + k) 0
    let s0 := (at_ 1).rotateRight 1 ^^^ (at_ 1).rotateRight 8 ^^^ (at_ 1 >>> 7)
    let s1 := (at_ 14).rotateRight 19 ^^^ (at_ 14).rotateRight 61 ^^^ (at_ 14 >>> 6)
    w ++ [at_ 0 + s0 + at_ 9 + s1]) w

/-- One round on the eight working words. -/
def shaRound (v : List Word) (kw : Word × Word) : List Word :=
  match v with
  | [a, b, c, d, e, f, g, h] =>
    let t1 := h + (e.rotateRight 14 ^^^ e.rotateRight 18 ^^^ e.rotateRight 41) + ((e &&& f) ^^^ (~~~e &&& g)) + kw.1 + kw.2
    let t2 := (a.rotateRight 28 ^^^ a.rotateRight 34 ^^^ a.rotateRight 39) + ((a &&& b) ^^^ (a &&& c) ^^^ (b &&& c))
    [t1 + t2, a, b, c, d + t1, e, f, g]
  | _ => v

/-- The hash of a message: 64 bytes. -/
def sha512 (bs : List Byte) : List Byte :=
  let m := shaPad bs
  let block := fun (h : List Word) (i : Nat) =>
    let w := (List.range 16).map fun j => BitVec.ofNat 64 (beNat ((m.drop (128 * i + 8 * j)).take 8))
    List.zipWith (· + ·) h ((List.zip shaRounds (shaWords w)).foldl shaRound h)
  ((List.range (m.length / 128)).foldl block shaInit).flatMap fun x => beBytes 8 x.toNat

/-! ## P-521 -/

/-- The field's prime, the curve's constant, its base point and the order of that point. -/
def curveP : Nat := 2 ^ 521 - 1
def curveB : Nat :=
  0x51953EB9618E1C9A1F929A21A0B68540EEA2DA725B99B315F3B8B489918EF109E156193951EC7E937B1652C0BD3BB1BF073573DF883D2C34F1EF451FD46B503F00
def curveG : Nat × Nat :=
  (0xC6858E06B70404E9CD9E3ECB662395B4429C648139053FB521F828AF606B4D3DBAA14B5E77EFE75928FE1DC127A2FFA8DE3348B3C1856A429BF97E7E31C2E5BD66,
   0x11839296A789A3BC0045C8A5FB42C7D1BD998F54449579B446817AFBD17273E662C97EE72995EF42640C550B9013FAD0761353C7086A272C24088BE94769FD16650)
def curveN : Nat := 2 ^ 521 - 0x5AE79787C40D069948033FEB708F65A2FC44A36477663B851449048E16EC79BF7

/-- A power modulo `m`, and the inverse modulo a prime. -/
def powMod (m b e : Nat) : Nat := (List.range 521).foldr (fun i r => let q := r * r % m; if e.testBit i then q * b % m else q) 1
def invMod (m a : Nat) : Nat := powMod m a (m - 2)

/-- The sum of two points; `none` is the point at infinity. -/
def pointAdd (a b : Option (Nat × Nat)) : Option (Nat × Nat) :=
  match a, b with
  | none, q => q
  | q, none => q
  | some (x, y), some (u, v) =>
    let p := curveP
    let neg := fun n : Nat => p - n % p
    if x = u ∧ (y + v) % p = 0 then none
    else
      let l := if x = u then (3 * x * x + neg 3) * invMod p (2 * y) % p else (v + neg y) * invMod p ((u + neg x) % p) % p
      let z := (l * l + neg x + neg u) % p
      some (z, (l * (x + neg z) + neg y) % p)

/-- A multiple of a point. -/
def pointMul (k : Nat) (q : Nat × Nat) : Option (Nat × Nat) :=
  (List.range 521).foldr (fun i r => let d := pointAdd r r; if k.testBit i then pointAdd d (some q) else d) none

/-- Whether a pair is a point of the curve. -/
def onCurve (q : Nat × Nat) : Bool :=
  decide (q.1 < curveP ∧ q.2 < curveP ∧ q.2 * q.2 % curveP = (q.1 ^ 3 + (curveP - 3) * q.1 + curveB) % curveP)

/-! ## Signatures (R369) -/

/-- A signature, r and s in 66 bytes each, most significant first, of the bytes under a public key. -/
def verifies (q : Nat × Nat) (bs sig : List Byte) : Bool :=
  let r := beNat (sig.take 66)
  let s := beNat ((sig.drop 66).take 66)
  let e := beNat (sha512 bs)
  let w := invMod curveN s
  onCurve q && decide (sig.length = 132 ∧ 0 < r ∧ r < curveN ∧ 0 < s ∧ s < curveN) &&
    (match pointAdd (pointMul (e * w % curveN) curveG) (pointMul (r * w % curveN) q) with
     | some x => decide (x.1 % curveN = r)
     | none => false)

/-- The signature of bytes under a private key with a secret number `k`. -/
def ecdsaSign (d k : Nat) (bs : List Byte) : List Byte :=
  let r := ((pointMul k curveG).getD (0, 0)).1 % curveN
  beBytes 66 r ++ beBytes 66 (invMod curveN k * (beNat (sha512 bs) + r * d) % curveN)

end Sys2Proof.Machine
end

