-- ==== Sys2Proof/Machine/Fields.lean ====
section
/-! DEFINITION. The decoding rules of an encoding on its words, without building the instruction (R187). -/

namespace Sys2Proof.Machine

/-- The decoding rules of an encoding on its words. -/
def fieldsOkOp (o : Op) (w v : Nat) : Bool :=
  match o with
  | .movC => true
  | .iaddC => true
  | .isubC => true
  | .imulC => true
  | .andC => true
  | .orC => true
  | .xorC => true
  | .shlC => true
  | .shrNC => true
  | .shrIC => true
  | .faddC => true
  | .fsubC => true
  | .fmulC => true
  | .fmaxC => true
  | .fminC => true
  | .iaddi5C => true
  | .nopC => true
  | .iadd => true
  | .iaddL => (fun x : R3m => x.m.okI false) ⟨unR3 w, unModifier v⟩
  | .isub => true
  | .isubL => (fun x : R3m => x.m.okI false) ⟨unR3 w, unModifier v⟩
  | .imul => true
  | .imulL => (fun x : R3m => x.m.okI false) ⟨unR3 w, unModifier v⟩
  | .imulhI => true
  | .imulhIL => (fun x : R3m => x.m.okI false) ⟨unR3 w, unModifier v⟩
  | .imulhN => true
  | .imulhNL => (fun x : R3m => x.m.okI false) ⟨unR3 w, unModifier v⟩
  | .imac => true
  | .imacL => (fun x : R3m => x.m.okI true) ⟨unR3 w, unModifier v⟩
  | .iminI => true
  | .iminIL => (fun x : R3m => x.m.okI false) ⟨unR3 w, unModifier v⟩
  | .iminN => true
  | .iminNL => (fun x : R3m => x.m.okI false) ⟨unR3 w, unModifier v⟩
  | .imaxI => true
  | .imaxIL => (fun x : R3m => x.m.okI false) ⟨unR3 w, unModifier v⟩
  | .imaxN => true
  | .imaxNL => (fun x : R3m => x.m.okI false) ⟨unR3 w, unModifier v⟩
  | .iabsd => true
  | .iabsdL => (fun x : R3m => x.m.okI false) ⟨unR3 w, unModifier v⟩
  | .and => true
  | .andL => (fun x : R3m => x.m.okL false) ⟨unR3 w, unModifier v⟩
  | .or => true
  | .orL => (fun x : R3m => x.m.okL false) ⟨unR3 w, unModifier v⟩
  | .xor => true
  | .xorL => (fun x : R3m => x.m.okL false) ⟨unR3 w, unModifier v⟩
  | .andn => true
  | .andnL => (fun x : R3m => x.m.okL false) ⟨unR3 w, unModifier v⟩
  | .mov => true
  | .movL => (fun x : R1m => x.m.okL false) ⟨unR1 w, unModifier v⟩
  | .shl => true
  | .shlL => (fun x : R3m => x.m.okL false) ⟨unR3 w, unModifier v⟩
  | .shrN => true
  | .shrNL => (fun x : R3m => x.m.okL false) ⟨unR3 w, unModifier v⟩
  | .shrI => true
  | .shrIL => (fun x : R3m => x.m.okL false) ⟨unR3 w, unModifier v⟩
  | .clz => true
  | .clzL => (fun x : R1m => x.m.okL false) ⟨unR1 w, unModifier v⟩
  | .popc => true
  | .popcL => (fun x : R1m => x.m.okL false) ⟨unR1 w, unModifier v⟩
  | .bfxN => true
  | .bfxNL => (fun x : R3m => x.m.okL false) ⟨unR3 w, unModifier v⟩
  | .bfxI => true
  | .bfxIL => (fun x : R3m => x.m.okL false) ⟨unR3 w, unModifier v⟩
  | .bfi => true
  | .bfiL => (fun x : R3m => x.m.okL true) ⟨unR3 w, unModifier v⟩
  | .perm => true
  | .permL => (fun x : R3m => x.m.okL true) ⟨unR3 w, unModifier v⟩
  | .icmpEq => (fun x : R3 => isPred x.d) (unR3 w)
  | .icmpEqL => (fun x : R3m => isPred x.r.d && x.m.okC false) ⟨unR3 w, unModifier v⟩
  | .icmpNe => (fun x : R3 => isPred x.d) (unR3 w)
  | .icmpNeL => (fun x : R3m => isPred x.r.d && x.m.okC false) ⟨unR3 w, unModifier v⟩
  | .icmpLtI => (fun x : R3 => isPred x.d) (unR3 w)
  | .icmpLtIL => (fun x : R3m => isPred x.r.d && x.m.okC false) ⟨unR3 w, unModifier v⟩
  | .icmpLeI => (fun x : R3 => isPred x.d) (unR3 w)
  | .icmpLeIL => (fun x : R3m => isPred x.r.d && x.m.okC false) ⟨unR3 w, unModifier v⟩
  | .icmpLtN => (fun x : R3 => isPred x.d) (unR3 w)
  | .icmpLtNL => (fun x : R3m => isPred x.r.d && x.m.okC false) ⟨unR3 w, unModifier v⟩
  | .icmpLeN => (fun x : R3 => isPred x.d) (unR3 w)
  | .icmpLeNL => (fun x : R3m => isPred x.r.d && x.m.okC false) ⟨unR3 w, unModifier v⟩
  | .qlopAnd => (fun x : Ql => isQ x.b && isQ x.a && isQ x.d) (unQl w)
  | .qlopOr => (fun x : Ql => isQ x.b && isQ x.a && isQ x.d) (unQl w)
  | .qlopXor => (fun x : Ql => isQ x.b && isQ x.a && isQ x.d) (unQl w)
  | .qlopAndn => (fun x : Ql => isQ x.b && isQ x.a && isQ x.d) (unQl w)
  | .ladd => true
  | .laddL => (fun x : R3m => x.m.okI false) ⟨unR3 w, unModifier v⟩
  | .lsub => true
  | .lsubL => (fun x : R3m => x.m.okI false) ⟨unR3 w, unModifier v⟩
  | .lmul => true
  | .lmulL => (fun x : R3m => x.m.okI false) ⟨unR3 w, unModifier v⟩
  | .lmac => true
  | .lmacL => (fun x : R3m => x.m.okI true) ⟨unR3 w, unModifier v⟩
  | .lshl => true
  | .lshlL => (fun x : R3m => x.m.okL false) ⟨unR3 w, unModifier v⟩
  | .lshrN => true
  | .lshrNL => (fun x : R3m => x.m.okL false) ⟨unR3 w, unModifier v⟩
  | .lshrI => true
  | .lshrIL => (fun x : R3m => x.m.okL false) ⟨unR3 w, unModifier v⟩
  | .lextI => true
  | .lextIL => (fun x : R1m => x.m.okL false) ⟨unR1 w, unModifier v⟩
  | .lextN => true
  | .lextNL => (fun x : R1m => x.m.okL false) ⟨unR1 w, unModifier v⟩
  | .lcmpEq => (fun x : R3 => isPred x.d) (unR3 w)
  | .lcmpEqL => (fun x : R3m => isPred x.r.d && x.m.okC false) ⟨unR3 w, unModifier v⟩
  | .lcmpNe => (fun x : R3 => isPred x.d) (unR3 w)
  | .lcmpNeL => (fun x : R3m => isPred x.r.d && x.m.okC false) ⟨unR3 w, unModifier v⟩
  | .lcmpLtI => (fun x : R3 => isPred x.d) (unR3 w)
  | .lcmpLtIL => (fun x : R3m => isPred x.r.d && x.m.okC false) ⟨unR3 w, unModifier v⟩
  | .lcmpLtN => (fun x : R3 => isPred x.d) (unR3 w)
  | .lcmpLtNL => (fun x : R3m => isPred x.r.d && x.m.okC false) ⟨unR3 w, unModifier v⟩
  | .lea2 => true
  | .lea2L => (fun x : R3m => x.m.okL false) ⟨unR3 w, unModifier v⟩
  | .lea3 => true
  | .lea3L => (fun x : R3m => x.m.okL false) ⟨unR3 w, unModifier v⟩
  | .lea4 => true
  | .lea4L => (fun x : R3m => x.m.okL false) ⟨unR3 w, unModifier v⟩
  | .fadd => true
  | .faddL => (fun x : R3m => x.m.okF false) ⟨unR3 w, unModifier v⟩
  | .fsub => true
  | .fsubL => (fun x : R3m => x.m.okF false) ⟨unR3 w, unModifier v⟩
  | .fmul => true
  | .fmulL => (fun x : R3m => x.m.okF false) ⟨unR3 w, unModifier v⟩
  | .ffma => true
  | .ffmaL => (fun x : R3m => x.m.okF true) ⟨unR3 w, unModifier v⟩
  | .fmin => true
  | .fminL => (fun x : R3m => x.m.okF false) ⟨unR3 w, unModifier v⟩
  | .fmax => true
  | .fmaxL => (fun x : R3m => x.m.okF false) ⟨unR3 w, unModifier v⟩
  | .fcmpEq => (fun x : R3 => isPred x.d) (unR3 w)
  | .fcmpEqL => (fun x : R3m => isPred x.r.d && x.m.okC true) ⟨unR3 w, unModifier v⟩
  | .fcmpNe => (fun x : R3 => isPred x.d) (unR3 w)
  | .fcmpNeL => (fun x : R3m => isPred x.r.d && x.m.okC true) ⟨unR3 w, unModifier v⟩
  | .fcmpLt => (fun x : R3 => isPred x.d) (unR3 w)
  | .fcmpLtL => (fun x : R3m => isPred x.r.d && x.m.okC true) ⟨unR3 w, unModifier v⟩
  | .fcmpLe => (fun x : R3 => isPred x.d) (unR3 w)
  | .fcmpLeL => (fun x : R3m => isPred x.r.d && x.m.okC true) ⟨unR3 w, unModifier v⟩
  | .fsfu => (fun x : Rf => isSfu x.f) (unRf w)
  | .fsfuL => (fun x : Rfm => x.m.okF false && isSfu x.r.f && (x.m.rnd == 0 || x.r.f == 2)) ⟨unRf w, unModifier v⟩
  | .hadd2F16 => true
  | .hadd2F16L => (fun x : R3m => x.m.okF false) ⟨unR3 w, unModifier v⟩
  | .hmul2F16 => true
  | .hmul2F16L => (fun x : R3m => x.m.okF false) ⟨unR3 w, unModifier v⟩
  | .hfma2F16 => true
  | .hfma2F16L => (fun x : R3m => x.m.okF true) ⟨unR3 w, unModifier v⟩
  | .hfma2Bf16 => true
  | .hfma2Bf16L => (fun x : R3m => x.m.okF true) ⟨unR3 w, unModifier v⟩
  | .hadd2Bf16 => true
  | .hadd2Bf16L => (fun x : R3m => x.m.okF false) ⟨unR3 w, unModifier v⟩
  | .cvt => (fun x : Rf => isCvt x.f) (unRf w)
  | .cvtL => (fun x : Rfm => x.m.okF false && isCvt x.r.f && (x.m.sat.toNat < 2 || !cvtSatSmall x.r.f)) ⟨unRf w, unModifier v⟩
  | .cvtp => (fun x : Rf => isCvtp x.f) (unRf w)
  | .cvtpL => (fun x : Rfm => x.m.okF false && isCvtp x.r.f) ⟨unRf w, unModifier v⟩
  | .iaddi => true
  | .iaddiL => true
  | .andi => true
  | .andiL => true
  | .ori => true
  | .oriL => true
  | .xori => true
  | .xoriL => true
  | .shli => true
  | .shliL => (fun x : Im64 => decide (x.i.toNat < 64)) (unIm64 w v)
  | .shriN => true
  | .shriNL => (fun x : Im64 => decide (x.i.toNat < 64)) (unIm64 w v)
  | .shriI => true
  | .shriIL => (fun x : Im64 => decide (x.i.toNat < 64)) (unIm64 w v)
  | .movi => true
  | .moviL => true
  | .movhi => true
  | .movhiL => true
  | .icmpiEq => (fun x : Im => isPred x.d) (unIm w)
  | .icmpiEqL => (fun x : Im64 => isPred x.d) (unIm64 w v)
  | .icmpiLtI => (fun x : Im => isPred x.d) (unIm w)
  | .icmpiLtIL => (fun x : Im64 => isPred x.d) (unIm64 w v)
  | .fmovi => true
  | .fmoviL => true
  | .ld => (fun x : Me => (decide (x.w ≠ 6) || isEven x.d)) (unMe w)
  | .ldL => (fun x : Me64 => (decide (x.r.w ≠ 6) || isEven x.r.d)) ⟨unMe w, BitVec.ofNat 32 v⟩
  | .st => (fun x : Me => (decide (x.w ≠ 6) || isEven x.d)) (unMe w)
  | .stL => (fun x : Me64 => (decide (x.r.w ≠ 6) || isEven x.r.d)) ⟨unMe w, BitVec.ofNat 32 v⟩
  | .atomAdd => (fun x : Me => decide (x.w.toNat < 6)) (unMe w)
  | .atomAddL => (fun x : Me64 => decide (x.r.w.toNat < 6)) ⟨unMe w, BitVec.ofNat 32 v⟩
  | .atomFadd => (fun x : Me => (x.w == 2 || x.w == 3 || x.w == 4)) (unMe w)
  | .atomFaddL => (fun x : Me64 => (x.r.w == 2 || x.r.w == 3 || x.r.w == 4)) ⟨unMe w, BitVec.ofNat 32 v⟩
  | .atomMin => (fun x : Me => decide (x.w.toNat < 6)) (unMe w)
  | .atomMinL => (fun x : Me64 => decide (x.r.w.toNat < 6)) ⟨unMe w, BitVec.ofNat 32 v⟩
  | .atomMax => (fun x : Me => decide (x.w.toNat < 6)) (unMe w)
  | .atomMaxL => (fun x : Me64 => decide (x.r.w.toNat < 6)) ⟨unMe w, BitVec.ofNat 32 v⟩
  | .atomAnd => (fun x : Me => decide (x.w.toNat < 6)) (unMe w)
  | .atomAndL => (fun x : Me64 => decide (x.r.w.toNat < 6)) ⟨unMe w, BitVec.ofNat 32 v⟩
  | .atomOr => (fun x : Me => decide (x.w.toNat < 6)) (unMe w)
  | .atomOrL => (fun x : Me64 => decide (x.r.w.toNat < 6)) ⟨unMe w, BitVec.ofNat 32 v⟩
  | .atomXor => (fun x : Me => decide (x.w.toNat < 6)) (unMe w)
  | .atomXorL => (fun x : Me64 => decide (x.r.w.toNat < 6)) ⟨unMe w, BitVec.ofNat 32 v⟩
  | .atomExch => (fun x : Me => decide (x.w.toNat < 6)) (unMe w)
  | .atomExchL => (fun x : Me64 => decide (x.r.w.toNat < 6)) ⟨unMe w, BitVec.ofNat 32 v⟩
  | .atomCas => (fun x : Me => decide (x.w.toNat < 6) && isEven x.d) (unMe w)
  | .atomCasL => (fun x : Me64 => decide (x.r.w.toNat < 6) && isEven x.r.d) ⟨unMe w, BitVec.ofNat 32 v⟩
  | .fenceFull => true
  | .fenceAcq => true
  | .fenceRel => true
  | .fenceWack => true
  | .phase => true
  | .fetchb => true
  | .copInv => true
  | .copInvL => true
  | .copWb => true
  | .copWbL => true
  | .copWbi => true
  | .copWbiL => true
  | .bra => true
  | .braL => true
  | .brx => true
  | .brxL => (fun x : A1m => x.m.okX) ⟨unA1 w, unModifier v⟩
  | .call => true
  | .callL => true
  | .callx => true
  | .callxL => (fun x : A1m => x.m.okX) ⟨unA1 w, unModifier v⟩
  | .ret => true
  | .exit => true
  | .loop => true
  | .loopL => true
  | .brk => true
  | .lcfg => (fun x : Lc => decide (x.z.toNat ≠ 1 ∧ x.z.toNat ≤ 16)) (unLc w)
  | .cnv => true
  | .cnvMask => true
  | .bar => (fun x : Ba => decide (x.p ≠ 0)) (unBa w)
  | .trap => true
  | .sysc => true
  | .bkpt => true
  | .balw => true
  | .yield => true
  | .mapset => true
  | .mapchn => true
  | .mapprt => true
  | .maptrn => true
  | .mapflt => true
  | .mapchk => (fun x : Tq => x.x == 0 && x.hd == 0 && decide (x.k.toNat ≤ 5)) (unTq w v)
  | .bankq => (fun x : Tq => (x.x == 0 || (x.x == 1 && x.hd == 0)) && decide (x.k.toNat ≤ 5)) (unTq w v)
  | .hset => true
  | .tcpy => true
  | .tmma => true
  | .tgat => true
  | .tcol => true
  | .tld => true
  | .tst => true
  | .accZero => true
  | .accZeroL => (fun x : Hh64 => x.i == 0) ⟨unHh w, BitVec.ofNat 32 v⟩
  | .accSetexp => true
  | .accSetexpL => (fun x : Vh64 => decide (x.i.toNat < 4096 ∧ x.i.toNat % 64 + x.i.toNat / 64 + 1 ≤ 64)) ⟨unVh w, BitVec.ofNat 32 v⟩
  | .accRdrow => true
  | .accRdrowL => (fun x : Vh64 => decide (x.i.toNat < 64)) ⟨unVh w, BitVec.ofNat 32 v⟩
  | .accWrrow => true
  | .accWrrowL => (fun x : Vh64 => decide (x.i.toNat < 64)) ⟨unVh w, BitVec.ofNat 32 v⟩
  | .accClrst => true
  | .accClrstL => (fun x : Hh64 => x.i == 0) ⟨unHh w, BitVec.ofNat 32 v⟩
  | .nop => true
  | .nopL => (fun x : E64 => x.d == 0 && x.a == 0 && !x.au && x.b == 0 && !x.bu && x.p == 0 && decide (x.i.toNat < 1) && !x.u) (unE64 w v)
  | .idivI => true
  | .idivIL => (fun x : E64 => x.p == 0 && decide (x.i.toNat < 2)) (unE64 w v)
  | .idivN => true
  | .idivNL => (fun x : E64 => x.p == 0 && decide (x.i.toNat < 2)) (unE64 w v)
  | .iremI => true
  | .iremIL => (fun x : E64 => x.p == 0 && decide (x.i.toNat < 2)) (unE64 w v)
  | .iremN => true
  | .iremNL => (fun x : E64 => x.p == 0 && decide (x.i.toNat < 2)) (unE64 w v)
  | .rotl => true
  | .rotlL => (fun x : E64 => x.p == 0 && decide (x.i.toNat < 2)) (unE64 w v)
  | .brev => true
  | .brevL => (fun x : E64 => x.b == 0 && !x.bu && x.p == 0 && decide (x.i.toNat < 2)) (unE64 w v)
  | .fcmpOrd => (fun x : D1 => isPred x.d) (unD1 w)
  | .fcmpOrdL => (fun x : E64 => isPred x.d && x.p == 0 && decide (x.i.toNat < 1) && !x.u) (unE64 w v)
  | .fcmpUnord => (fun x : D1 => isPred x.d) (unD1 w)
  | .fcmpUnordL => (fun x : E64 => isPred x.d && x.p == 0 && decide (x.i.toNat < 1) && !x.u) (unE64 w v)
  | .fclass => true
  | .fclassL => (fun x : E64 => x.b == 0 && !x.bu && x.p == 0 && decide (x.i.toNat < 1)) (unE64 w v)
  | .frnd => true
  | .frndL => (fun x : E64 => x.b == 0 && !x.bu && x.p == 0 && decide (x.i.toNat < 4)) (unE64 w v)
  | .fexp => true
  | .fexpL => (fun x : E64 => x.p == 0 && decide (x.i.toNat < 1)) (unE64 w v)
  | .q2v => true
  | .q2vL => (fun x : E64 => x.a == 0 && !x.au && x.b == 0 && !x.bu && x.p == 0 && decide (x.i.toNat < 1) && !x.u) (unE64 w v)
  | .v2q => true
  | .v2qL => (fun x : E64 => x.d == 0 && x.b == 0 && !x.bu && x.p == 0 && decide (x.i.toNat < 1) && !x.u) (unE64 w v)
  | .qpop => true
  | .qpopL => (fun x : E64 => x.a == 0 && !x.au && x.b == 0 && !x.bu && isQ x.p && decide (x.i.toNat < 1)) (unE64 w v)
  | .pfirst => (fun x : D1 => isPred x.d) (unD1 w)
  | .pfirstL => (fun x : E64 => isPred x.d && x.a == 0 && !x.au && x.b == 0 && !x.bu && x.p == 0 && decide (x.i.toNat < 1) && !x.u) (unE64 w v)
  | .pany => (fun x : D1 => isPred x.d) (unD1 w)
  | .panyL => (fun x : E64 => isPred x.d && x.a == 0 && !x.au && x.b == 0 && !x.bu && isQ x.p && decide (x.i.toNat < 1) && !x.u) (unE64 w v)
  | .pall => (fun x : D1 => isPred x.d) (unD1 w)
  | .pallL => (fun x : E64 => isPred x.d && x.a == 0 && !x.au && x.b == 0 && !x.bu && isQ x.p && decide (x.i.toNat < 1) && !x.u) (unE64 w v)
  | .pmask => true
  | .pmaskL => (fun x : E64 => x.a == 0 && !x.au && x.b == 0 && !x.bu && isQ x.p && decide (x.i.toNat < 1)) (unE64 w v)
  | .xgetAt => true
  | .xgetAtL => (fun x : E64 => x.p == 0 && decide (x.i.toNat < 1) && !x.u) (unE64 w v)
  | .xgetFlip => true
  | .xgetFlipL => (fun x : E64 => x.p == 0 && decide (x.i.toNat < 1) && !x.u) (unE64 w v)
  | .xgetStep => true
  | .xgetStepL => (fun x : E64 => x.p == 0 && decide (x.i.toNat < 1) && !x.u) (unE64 w v)
  | .xgetRot => true
  | .xgetRotL => (fun x : E64 => x.p == 0 && decide (x.i.toNat < 1) && !x.u) (unE64 w v)
  | .cnvq => true
  | .cnvqL => (fun x : E64 => x.d == 0 && x.a == 0 && !x.au && x.b == 0 && !x.bu && isQ x.p && decide (x.i.toNat < 1) && !x.u) (unE64 w v)
  | .waitn => true
  | .waitnL => (fun x : E64 => x.d == 0 && x.a == 0 && !x.au && x.b == 0 && !x.bu && x.p == 0 && decide (x.i.toNat < 256) && !x.u) (unE64 w v)
  | .setg => true
  | .setgL => (fun x : E64 => x.d == 0 && x.a == 0 && !x.au && x.b == 0 && !x.bu && isQ x.p && decide (x.i.toNat < 16) && !x.u) (unE64 w v)
  | .clrg => true
  | .clrgL => (fun x : E64 => x.d == 0 && x.a == 0 && !x.au && x.b == 0 && !x.bu && x.p == 0 && decide (x.i.toNat < 16) && !x.u) (unE64 w v)
  | .alw => true
  | .alwL => (fun x : E64 => x.b == 0 && !x.bu && x.p == 0 && decide (x.i.toNat < 1)) (unE64 w v)
  | .mapget => true
  | .mapgetL => (fun x : E64 => x.a == 0 && !x.au && x.b == 0 && !x.bu && x.p == 0 && decide (x.i.toNat < 512) && decide (x.i.toNat / 32 ≤ 9)) (unE64 w v)
  | .mapput => true
  | .mapputL => (fun x : E64 => x.d == 0 && x.b == 0 && !x.bu && x.p == 0 && decide (x.i.toNat < 512) && decide (x.i.toNat / 32 ≤ 9) && !x.u) (unE64 w v)
  | .hget => true
  | .hgetL => (fun x : E64 => x.a == 0 && !x.au && x.b == 0 && !x.bu && x.p == 0 && decide (x.i.toNat < 16) && !x.u) (unE64 w v)
  | .lget => true
  | .lgetL => (fun x : E64 => x.a == 0 && !x.au && x.b == 0 && !x.bu && x.p == 0 && decide (x.i.toNat < 32) && decide (x.i.toNat ≤ 18)) (unE64 w v)
  | .lput => true
  | .lputL => (fun x : E64 => x.d == 0 && x.b == 0 && !x.bu && x.p == 0 && decide (x.i.toNat < 32) && decide (x.i.toNat ≤ 18) && !x.u) (unE64 w v)
  | .csrr => true
  | .csrrL => (fun x : E64 => x.a == 0 && !x.au && x.b == 0 && !x.bu && x.p == 0 && decide (x.i.toNat < 4096)) (unE64 w v)
  | .csrw => true
  | .csrwL => (fun x : E64 => x.d == 0 && x.b == 0 && !x.bu && x.p == 0 && decide (x.i.toNat < 4096) && !x.u) (unE64 w v)
  | .csrs => true
  | .csrsL => (fun x : E64 => x.d == 0 && x.b == 0 && !x.bu && x.p == 0 && decide (x.i.toNat < 4096) && !x.u) (unE64 w v)
  | .csrc => true
  | .csrcL => (fun x : E64 => x.d == 0 && x.b == 0 && !x.bu && x.p == 0 && decide (x.i.toNat < 4096) && !x.u) (unE64 w v)
  | .tret => true
  | .tretL => (fun x : E64 => x.d == 0 && x.a == 0 && !x.au && x.b == 0 && !x.bu && x.p == 0 && decide (x.i.toNat < 1) && !x.u) (unE64 w v)
  | .halt => true
  | .haltL => (fun x : E64 => x.d == 0 && x.a == 0 && !x.au && x.b == 0 && !x.bu && x.p == 0 && decide (x.i.toNat < 1) && !x.u) (unE64 w v)
  | .icinv => true
  | .icinvL => (fun x : E64 => x.d == 0 && x.p == 0 && decide (x.i.toNat < 1) && !x.u) (unE64 w v)
  | .tlbinvPage => true
  | .tlbinvPageL => (fun x : E64 => x.d == 0 && x.b == 0 && !x.bu && x.p == 0 && decide (x.i.toNat < 1) && !x.u) (unE64 w v)
  | .tlbinvCtx => (fun x : E64 => x.d == 0 && x.b == 0 && !x.bu && x.p == 0 && x.i == 1 && !x.u) (unE64 w v)
  | .tlbinvAll => (fun x : E64 => x.d == 0 && x.b == 0 && !x.bu && x.p == 0 && x.i == 2 && !x.u) (unE64 w v)
  | .tlbprobe => true
  | .tlbprobeL => (fun x : E64 => x.b == 0 && !x.bu && x.p == 0 && decide (x.i.toNat < 1)) (unE64 w v)
  | .cresize => true
  | .cresizeL => (fun x : E64 => x.d == 0 && x.b == 0 && !x.bu && x.p == 0 && decide (x.i.toNat < 1) && !x.u) (unE64 w v)
  | .migDev => true
  | .migDevL => (fun x : E64 => x.d == 0 && x.b == 0 && !x.bu && x.p == 0 && decide (x.i.toNat < 1) && !x.u) (unE64 w v)
  | .migHost => (fun x : E64 => x.d == 0 && x.b == 0 && !x.bu && x.p == 0 && x.i == 1 && !x.u) (unE64 w v)
  | .pf => true
  | .pfL => (fun x : E64 => x.d == 0 && x.b == 0 && !x.bu && x.p == 0 && decide (x.i.toNat < 1) && !x.u) (unE64 w v)
  | .tspawn => true
  | .tspawnL => (fun x : E64 => x.b == 0 && !x.bu && x.p == 0 && decide (x.i.toNat < 1) && !x.u) (unE64 w v)
  | .tsig => true
  | .tsigL => (fun x : E64 => x.d == 0 && x.b == 0 && !x.bu && x.p == 0 && decide (x.i.toNat < 1) && !x.u) (unE64 w v)
  | .evpost => true
  | .evpostL => (fun x : E64 => x.d == 0 && x.b == 0 && !x.bu && x.p == 0 && decide (x.i.toNat < 1) && !x.u) (unE64 w v)
  | .evget => true
  | .evgetL => (fun x : E64 => x.a == 0 && !x.au && x.b == 0 && !x.bu && x.p == 0 && decide (x.i.toNat < 1)) (unE64 w v)
  | .dbgmb => true
  | .dbgmbL => (fun x : E64 => x.d == 0 && x.b == 0 && !x.bu && x.p == 0 && decide (x.i.toNat < 16) && !x.u) (unE64 w v)
  | .dbgrd => true
  | .dbgrdL => (fun x : E64 => x.a == 0 && !x.au && x.b == 0 && !x.bu && x.p == 0 && !x.u) (unE64 w v)
  | .wpset => true
  | .wpsetL => (fun x : E64 => x.d == 0 && x.b == 0 && !x.bu && x.p == 0 && decide (x.i.toNat < 4) && !x.u) (unE64 w v)

/-- Whether an encoding has a guard. -/
def isCompact (o : Op) : Bool :=
  match o with
  | .movC | .iaddC | .isubC | .imulC | .andC | .orC | .xorC | .shlC | .shrNC | .shrIC | .faddC | .fsubC | .fmulC | .fmaxC | .fminC | .iaddi5C | .nopC => true
  | _ => false

/-- Whether bits are an instruction (R187). -/
def isInstr (x : Nat) : Bool :=
  match opBits x with
  | none => false
  | some (o, w, v) => fieldsOkOp o w v && (isCompact o || (unHdr w).guardOk)

end Sys2Proof.Machine
end

