-- ==== Sys2Proof/Machine/Matrix.lean ====
section
/-! DEFINITION. What a running engine command reads and writes (R166, R399, R400), plates (R91 to R99), the accumulator
tile (R100 to R109), K_CHUNK, WRITE_BACK and ACC_EXECUTE (R111, R112, R288 to R296). -/

namespace Sys2Proof.Machine

/-! ## Storage as a running command meets it (R399) -/

/-- What stops a read or write of a running command: a fault with its address and, for a data error, its home; an
ill-formed plate in the group at an offset; a page that the host owns; or a place at which it waits, because a `cresize`
in progress changes it (R146) or an earlier write of the core to it is not yet performed (R156, R166); or a line of another
destination that is still unanswered (R335). -/
inductive EngStop where
  | fail (code : Nat) (addr : Word) (home : Option Loc)
  | ill (at_ : Nat)
  | page (die frame va : Nat)
  | wait
  | far (dest off : Nat)
  deriving DecidableEq, Repr

/-- A command's own view of translation: its core, context and mode; whether it is an engine command, which waits where an
access of the core would; what another destination does with its reads; and, for a plan of writes, the uncorrectable words that
none of them reads and modifies (R410). -/
structure EngView where
  core : Nat
  ctx : Nat
  sup : Bool
  waits : Bool := false
  far : FarAnswer := .given
  spared : Option (List Loc) := none
  deriving DecidableEq, Repr

/-- The core and granules that an operand's handle reaches for a selector. -/
def Operand.home (o : Operand) (csel : Nat) : Nat × List Nat :=
  if hKind o.handle = 3 then o.homes.getD (if hMode o.handle then csel else hCidx o.handle) (0, []) else o.homes.headD (0, [])

/-- A translation as the engine finds it: in a TLB, or by a walk. -/
def State.engWalk (s : State) (v : EngView) (va : Nat) : WalkEnd :=
  match s.tlbFind v.core v.ctx va with
  | some e => .leaf e
  | none => s.walk v.ctx va
def State.engTlb (s : State) (v : EngView) (va : Nat) : Option TlbEntry :=
  match s.engWalk v va with
  | .leaf e => some e
  | _ => none

/-- Where a byte of a virtual address lies for a running command (R399). -/
def State.engVirt (s : State) (v : EngView) (p : Nat) (n : Need) : Except EngStop Loc :=
  let addr := BitVec.ofNat 64 p
  let fail := fun c : Nat => Except.error (EngStop.fail c addr none)
  if !isVa57 addr then fail 0x10
  else match s.engWalk v (va57 addr) with
    | .bad w => .error (.fail 0x70 addr (some w))
    | .notValid | .malformed => fail 0x10
    | .leaf e =>
      if !e.permits n v.sup then fail 0x11
      else if e.hostOwned then .error (.page (frameDie (e.phys (va57 addr))) (leafBase e.pte.toNat e.size) (va57 addr))
      else match s.targetOf e (va57 addr) with
        | .unmapped => fail 0x10
        | .home x => if x.window.isSome then fail 0x11 else .ok x
        | .remote d o => if s.routed d then .ok (.remote d o) else fail (lostCode d)

/-- Where a byte at an offset of an operand's handle lies; a `cresize` may have left it beyond the die scratch since issue (R145;
log 77). (log 53: DESIGN CHOICE, safe.) -/
def State.engLoc (s : State) (v : EngView) (o : Operand) (a csel : Nat) (n : Need) : Except EngStop Loc :=
  let p := hBase o.handle + a
  let at_ : Except EngStop Loc :=
    if hKind o.handle = 4 then s.engVirt v p n
    else if hKind o.handle = 5 then
      (if p < s.scratchWays (coreDie v.core) * 0x2000000 then .ok (.scratch (coreDie v.core) p) else .error (.fail 0x14 (BitVec.ofNat 64 p) none))
    else
      let g := o.home csel
      .ok (.pool g.1 (granuleAddr g.2 p))
  at_.bind fun x => if v.waits && s.resizeWaits x then .error .wait else .ok x

/-- Whether a write to some bytes has left a lane of the core and is not yet performed: a command of the core reads them
after it (R156, R166). -/
def State.coreWriting (s : State) (core : Nat) (x : Loc) (n : Nat) : Bool :=
  s.inflight.any fun a => decide (a.core = core ∧ a.st = .left) && a.kind.writes && a.loc.overlaps a.size x n

/-- The pieces of a range that end at 256-byte boundaries, each within one home. -/
def rangePieces : Nat → Nat → Nat → List (Nat × Nat)
  | 0, _, _ => []
  | fuel + 1, a, n =>
    if n = 0 then []
    else
      let k := min n (256 - a % 256)
      (a, k) :: rangePieces fuel (a + k) (n - k)

/-- Bytes of another destination as the engine receives them: not in the module, so open. (log 59: DESIGN CHOICE, safe.) -/
def farBytes (ctr n : Nat) : List Byte := (List.range n).map fun i => BitVec.ofNat 8 (Config.freeNat (ctr + i))

/-- Free values that reads of other destinations may have taken are not taken again. -/
def State.pastFar (s : State) : State := { s with freeCtr := s.freeCtr + 2 ^ 64 }

/-- The state whose next free values start `n` further on. -/
def State.freeFrom (s : State) (n : Nat) : State := { s with freeCtr := s.freeCtr + n }

/-- The address by which a fault of a running command names a place (R401). -/
def Operand.faddr (o : Operand) (p : Nat) (x : Loc) : Word := BitVec.ofNat 64 (if hKind o.handle = 4 then p else x.off)

/-- Bytes of an operand, from an offset of its handle. An uncorrectable word stops the read (R410). -/
def State.engRead (s : State) (v : EngView) (o : Operand) (a n csel : Nat) : Except EngStop (List Byte) :=
  let b := hBase o.handle
  (rangePieces (n / 256 + 2) (b + a) n).foldlM (fun bs p => do
    let x ← s.engLoc v o (p.1 - b) csel { r := true }
    match x with
    | .remote d off =>
      if v.waits && s.writeOut (coreDie v.core) d (off / 256) 0 then .error .wait
      else match v.far with
        | .refused => .error (.fail 0x10 (BitVec.ofNat 64 p.1) none)
        | .bad => .error (.fail 0x70 (BitVec.ofNat 64 p.1) none)
        | .silent => .error (.far d off)
        | .given => .ok (bs ++ farBytes (s.freeCtr + (p.1 - b - a)) p.2)
    | _ =>
      if v.waits && s.coreWriting v.core x p.2 then .error .wait
      else match s.badIn x p.2 with
        | some w => .error (.fail 0x70 (o.faddr p.1 x) (some w))
        | none => .ok (bs ++ s.locRead x p.2)) []

/-- The sectors that a read of an operand touches at the module's home slices are valid there from then on (R142). -/
def State.engServed (s : State) (v : EngView) (o : Operand) (a n csel : Nat) : State :=
  let b := hBase o.handle
  (rangePieces (n / 256 + 2) (b + a) n).foldl (fun s p =>
    match s.engLoc v o (p.1 - b) csel { r := true } with
    | .ok x => s.served x p.2
    | .error _ => s) s

/-- Bytes written by an engine at a home of the module: one write of their line, or of each bank (R142, R164). -/
def State.engStore (s : State) (x : Loc) (bs : List Byte) : State :=
  let s := (s.homeWrite x bs).stampAll x bs.length
  (s.markWritten x bs.length).frameWritten x bs.length

/-- Lines of other destinations that a command writes: destination, line, written bits by offset in the line. -/
abbrev FarLines := List (Nat × Nat × List (Nat × Byte × Byte))

/-- Written bits, as masks and values, added to the lines of a destination; bytes that run past a line continue in the
next. -/
def FarLines.add (t : FarLines) (d o : Nat) (bs : List (Byte × Byte)) : FarLines :=
  (rangePieces (bs.length / 256 + 2) o bs.length).foldl (fun t p =>
    let new := (List.range p.2).map fun i => (p.1 % 256 + i, bs.getD (p.1 - o + i) (0, 0))
    if t.any fun l => decide (l.1 = d ∧ l.2.1 = p.1 / 256) then
      t.map fun l => if l.1 = d ∧ l.2.1 = p.1 / 256 then (l.1, l.2.1, mergeBits l.2.2 new) else l
    else t ++ [(d, p.1 / 256, new)]) t

/-- One piece of a write performed at its home, or added to the lines to be sent (R286). -/
def State.engWriteAt (r : State × FarLines) (p : Loc × List Byte) : State × FarLines :=
  match p.1 with
  | .remote d o => (r.1, r.2.add d o (p.2.map fun b => (0xFF, b)))
  | x => (r.1.engStore x p.2, r.2)

/-- The bits of one piece under masks, performed or added: no other bit changes. -/
def State.engBitsAt (r : State × FarLines) (p : (Loc × List Byte) × List Byte) : State × FarLines :=
  let bits := p.2.zip p.1.2
  match p.1.1 with
  | .remote d o => (r.1, r.2.add d o bits)
  | x => (r.1.engStore x (((r.1.locRead x bits.length).zip bits).map fun b => maskOver b.2.1 b.1 b.2.2), r.2)

/-- One write of a running command: the homes of its pieces and their bytes. -/
abbrev EngWrite := List (Loc × List Byte)

/-- The pieces of a write at an offset of an operand's handle, or what stops it. -/
def State.engPieces (s : State) (v : EngView) (o : Operand) (a csel : Nat) (bs : List Byte) : Except EngStop EngWrite :=
  let b := hBase o.handle
  (rangePieces (bs.length / 256 + 2) (b + a) bs.length).mapM fun p => do
    let x ← s.engLoc v o (p.1 - b) csel { w := true }
    match v.spared.bind fun l => (wordsOf x p.2).find? fun w => s.badWords.contains w && !l.contains w with
    | some w => .error (.fail 0x70 (o.faddr p.1 x) (some w))
    | none => .ok (x, (bs.drop (p.1 - b - a)).take p.2)

/-- The uncorrectable words of which some writes together cover each half whole or not at all: none of them reads and modifies
such a word (R143, R410). -/
def State.sparedBy (s : State) (ws : List (Loc × Nat)) : List Loc :=
  s.badWords.filter fun w => [0, 4].all fun h =>
    let on := fun i : Nat => ws.any fun p => (w.plus (h + i)).overlaps 1 p.1 p.2
    (List.range 4).all on || !(List.range 4).any on

/-- A plan of writes in which those that would read and modify an uncorrectable word are stopped (R410). (log 58: DESIGN CHOICE, unsafe.) -/
def State.sparePlan (s : State) (v : EngView) (plan : EngView → List (Except EngStop EngWrite)) : List (Except EngStop EngWrite) :=
  if s.badWords.isEmpty then plan v
  else
    let ws := (plan v).flatMap fun w => match w with | .ok l => l.map fun p => (p.1, p.2.length) | .error _ => []
    plan { v with spared := some (s.sparedBy ws) }

/-- Writes performed in order, and the lines for other destinations. -/
def State.engWrites (s : State) (ws : List EngWrite) : State × FarLines :=
  let r := ws.flatten.foldl State.engWriteAt (s, [])
  (r.1.repair (ws.flatten.map fun p => (p.1, p.2.length)), r.2)

/-- The lines of a command go out while their destinations' allowance lasts (R332); the packets' numbers are awaited. -/
def State.sendLines (s : State) (core : Nat) (x : Cmd) : State × Cmd :=
  x.todo.foldl (fun r l =>
    if (r.1.allowOf (coreDie core) l.1).value = 0 then r
    else
      let n := r.1.newId
      ((n.2.raiseO (coreDie core) l.1).sendWrite
        { die := coreDie core, dest := l.1, seq := 0, pred := none, line := l.2.1, accs := [n.1], bytes := l.2.2 },
       { r.2 with writes := r.2.writes ++ [n.1], todo := r.2.todo.erase l })) (s, x)

/-- A command with lines to send is stored once those that may go have gone. -/
def State.setSending (s : State) (core : Nat) (x : Cmd) : State :=
  let r := s.sendLines core x
  r.1.setCmd core r.2

/-- The cause that a running command raises once it has retired (R400, R401). -/
def Cmd.cause (x : Cmd) (code sub : Nat) (addr : Word) (reason detail : Nat) : Cause :=
  { code := code, sub := sub + 0x80, faddr := if 0x20 ≤ code ∧ code ≤ 0x22 then BitVec.ofNat 64 x.blockAt else addr
    ipc := x.ipc, tmask := 2 ^ x.slot, ord := x.ord, reason := reason, detail := detail }

/-- A load packet goes for a line of another destination that a command or chunk reads, unless one is on its way: no write of
its die to the line may be (R326). -/
def State.askFar (s : State) (die id dest off : Nat) : State :=
  if s.packets.any (fun p => p.isLoad && p.accs.contains id) || s.writeOut die dest (off / 256) id || !s.pathClear die dest then s
  else s.sendLoad die dest (off / 256) id

/-- What another destination has sent a command or chunk is no longer outstanding. -/
def State.farGiven (s : State) (die id : Nat) : State :=
  if s.packets.any fun p => p.isLoad && p.accs.contains id then
    ({ s with packets := s.packets.filter fun p => !(p.isLoad && p.accs.contains id) } : State).pump die
  else s

/-- A running command meets what stops it: a fault ends it (R400), a page of the host makes it wait (R298), and so does a
place that it may not touch yet, or a line of another destination that has not come (R335). -/
def State.engStopped (s : State) (core : Nat) (x : Cmd) (sub : Nat) (e : EngStop) : State :=
  match e with
  | .page d frame va =>
    s.askMigration d { frame := frame, toHost := false, assisted := false, ctx := ((s.task? core x.task).getD {}).ctx, va := va, pte := 0, cmds := [(core, x.id, sub, va)] }
  | .wait => s
  | .far d o => s.askFar (coreDie core) x.id d o
  | .ill a => (s.farGiven (coreDie core) x.id).setCmd core { x with st := .failed, fault := some (x.cause 0x21 sub 0 0x0B a) }
  | .fail code addr home =>
    let s := s.farGiven (coreDie core) x.id
    let s := match home with
      | some h => s.errorEvent h 1 ((s.task? core x.task).map fun t => (core, t))
      | none => s
    s.setCmd core { x with st := .failed, fault := some (x.cause code sub addr 0 0) }

/-! ## Operand values (R91 to R99, R103) -/

/-- An operand element: its exact value, whether it is a reserved code or under a NaN scale, and whether there is an
element at all. -/
structure Elt where
  x : Fp := .fin false 0 0
  inv : Bool := false
  held : Bool := true
  deriving DecidableEq, Repr

/-- What a dead vector, an element that a sparse plate does not hold, and a zero row give: a product of 0 (R103). (log 115: DEDUCED, unsafe.) -/
def Elt.none : Elt := { held := false }

/-- A value under an E8M0 scale (R96). (log 50: DEDUCED, unsafe.) -/
def Elt.scaled (x : Fp) (scale : Nat) : Elt :=
  if scale = 255 then { x := .nan, inv := true } else { x := x.scale (scale - 127 : Int) }

/-- A BPn value of which `m` planes are read (R91 to R93): its sign and the magnitude of those planes. -/
def bpElt (n m : Nat) (neg : Bool) (g scale : Nat) : Elt :=
  if m = n ∧ neg = true ∧ g = 0 then { x := .nan, inv := true }
  else Elt.scaled (.fin neg (g * 2 ^ (n - m)) 0) scale

/-- An INT8 value (R90). -/
def int8Fp (b : Nat) : Fp := if b < 128 then .fin false b 0 else .fin true (256 - b) 0

/-- A product and whether it sets the row's invalid sticky bit (R103). -/
def Elt.times (a b : Elt) : Fp × Bool :=
  if !a.held || !b.held then (.fin false 0 0, false)
  else
    let p := a.x.mul b.x
    (p, a.inv || b.inv || (p.isNan && !a.x.isNan && !b.x.isNan))

/-- An elementwise value of a format code (R283). -/
def fmtElt (fmt scale bits : Nat) : Elt :=
  match fmtFloat fmt with
  | some f => Elt.scaled (f.decode bits) scale
  | none => Elt.scaled (int8Fp (bits % 256)) scale

/-! ## Plates (R94 to R99, R283, R284) -/

/-- The size of a plate's body by its format byte; `ns` is the plane count of a sparse plate, 0 where none is named. -/
def plateSize (f ns : Nat) : Option Nat :=
  if 1 ≤ f ∧ f ≤ 7 then some (16 * (f + 1))
  else if f = 8 ∨ f = 9 ∨ f = 0x0B then some 128
  else if f = 0x0A then some 64
  else if f = 0x0C ∧ ns ≠ 0 then some ((16 + 8 * ns + 15) / 16 * 16)
  else none

/-- What a header says of a plate, and where its body begins in the group. -/
structure PlateHead where
  f : Nat
  scale : Nat
  live : Nat
  off : Nat
  size : Nat
  deriving DecidableEq, Repr

/-- The plates of a group in order, up to the first whose body's size is unknown (R95, R99). (log 117: DEDUCED, unsafe.) -/
def plateHeads (hdr : List Byte) (fmt rscale ns : Nat) : Nat → Nat → Nat → List PlateHead
  | 0, _, _ => []
  | fuel + 1, k, off =>
    let b := recNat hdr (2 * k) 1
    let f := if b = 0 then fmt - 0x10 else b
    match plateSize f ns with
    | none => []
    | some n =>
      { f := f, scale := if b = 0 then rscale else recNat hdr (2 * k + 1) 1, live := recNat hdr (32 + 2 * k) 2, off := off, size := n } ::
        plateHeads hdr fmt rscale ns fuel (k + 1) (off + n)

/-- The plate formats of a path for A, and for B (R288). -/
def platesOn (path : Nat) (isA : Bool) : List Nat :=
  if path = 0 then [1, 2, 3, 4, 5, 6, 7] ++ (if isA then [0x0B, 0x0C] else []) else if path = 1 then [8, 9, 0x0A] else []

/-- The first planes of a value stored in planes `step` bytes apart from byte `base`: sign and magnitude. -/
def planeCode (body : List Byte) (base step e m : Nat) : Bool × Nat :=
  let bit := fun j => (body.getD (base + step * j + e / 8) 0).toNat / 2 ^ (e % 8) % 2
  (decide (bit 0 = 1), (List.range (m - 1)).foldl (fun g j => 2 * g + bit (j + 1)) 0)

/-- The slot of a vector's sparse index byte that holds a position. -/
def sparseSlot (ix pos : Nat) : Option Nat :=
  [0, 1].findSome? fun i =>
    let slot := 2 * (pos / 4) + i
    if ix / 2 ^ (2 * slot) % 4 = pos % 4 then some slot else none

/-- Whether a vector's sparse indices rise within each group. -/
def sparseOk (ix : Nat) : Bool := decide (ix % 4 < ix / 4 % 4 ∧ ix / 16 % 4 < ix / 64 % 4)

/-- The planes read of `n`: as many as the descriptor's field `planes` asks for (R92). -/
def planesRead (planes n : Nat) : Nat := if planes = 0 then n else min planes n

/-- Element `e` of a plate (R94, R97, R98): `planes` is the descriptor's field. -/
def plateElt (p : PlateHead) (ns planes : Nat) (body : List Byte) (e : Nat) : Elt :=
  let m := planesRead planes
  if !p.live.testBit (e / 8) then Elt.none
  else if p.f ≤ 7 then
    let c := planeCode body 0 16 e (m (p.f + 1))
    bpElt (p.f + 1) (m (p.f + 1)) c.1 c.2 p.scale
  else if p.f = 0x0C then
    match sparseSlot (body.getD (e / 8) 0).toNat (e % 8) with
    | none => Elt.none
    | some slot =>
      let c := planeCode body 16 8 (4 * (e / 8) + slot) (m ns)
      bpElt ns (m ns) c.1 c.2 p.scale
  else if p.f = 0x0A then fmtElt 3 p.scale ((body.getD (e / 2) 0).toNat / 2 ^ (4 * (e % 2)) % 16)
  else fmtElt (if p.f = 8 then 1 else if p.f = 9 then 2 else 0) p.scale (body.getD e 0).toNat

/-- The bytes of a plate's body that a reader fetches: of the planes read, or of the elements, those of its live vectors
(R92, R94, R97, R98). -/
def plateNeeds (p : PlateHead) (ns planes : Nat) : List Nat :=
  let vs := (List.range 16).filter p.live.testBit
  let rows := fun (m step base width : Nat) => (List.range m).flatMap fun j => vs.map fun v => base + step * j + v * width / 2
  if p.f ≤ 7 then rows (planesRead planes (p.f + 1)) 16 0 2
  else if p.f = 0x0C then vs ++ rows (planesRead planes ns) 8 16 1
  else if p.f = 0x0A then vs.flatMap fun v => (List.range 4).map (4 * v + ·)
  else vs.flatMap fun v => (List.range 8).map (8 * v + ·)

/-- Bytes of an operand in the 8-byte words that hold some of them; the others read as 0 and are not fetched. -/
def State.engWords (s : State) (v : EngView) (o : Operand) (a n csel : Nat) (need : List Nat) : Except EngStop (List Byte) :=
  (List.range ((n + 7) / 8)).foldlM (fun bs k =>
    if need.any fun i => decide (i / 8 = k) then do
      let w ← (s.freeFrom (8 * k)).engRead v o (a + 8 * k) 8 csel
      .ok (bs ++ w)
    else .ok (bs ++ List.replicate 8 0)) []

/-- Whether a body lies in what the handle's owner has (R99). -/
def State.bodyOwned (s : State) (v : EngView) (o : Operand) (a size csel : Nat) : Bool :=
  decide (a + size ≤ hBound o.handle) &&
    (if hKind o.handle = 5 then decide (hBase o.handle + a + size ≤ s.scratchWays (coreDie v.core) * 0x2000000)
     else if hKind o.handle = 4 then true
     else decide (hBase o.handle + a + size ≤ (o.home csel).2.length * 16384))

/-- The plates of a group that a chunk reads, each with its body. (log 48: DEDUCED, unsafe.) -/
def State.readPlates (s : State) (v : EngView) (o : Operand) (x : Spot) (isA : Bool) (path : Nat) (sparse : Bool) (need : List Nat) :
    Except EngStop (List (Nat × PlateHead × List Byte)) := do
  let d := descOf o.desc
  let ns := if isA && decide (0x11 ≤ d.fmt ∧ d.fmt ≤ 0x17) then d.fmt - 0x0F else 0
  let hdr ← s.engRead v o x.a 64 x.csel
  let heads := plateHeads hdr d.fmt d.rscale ns 16 0 64
  need.mapM fun k =>
    match heads[k]? with
    | none => .error (.ill x.a)
    | some p =>
      if !(platesOn path isA).contains p.f || (decide (p.f = 0x0C) && !sparse) || !s.bodyOwned v o (x.a + p.off) p.size x.csel then
        .error (.ill x.a)
      else do
        let body ← (s.freeFrom (2 ^ 12 * (k + 1))).engWords v o (x.a + p.off) p.size x.csel (plateNeeds p ns d.planes)
        if p.f = 0x0C ∧ (List.range 16).any (fun i => p.live.testBit i && !sparseOk (body.getD i 0).toNat) = true then .error (.ill x.a)
        else .ok (k, p, body)

/-- An element of plates already read. -/
def plateAt (o : Operand) (isA : Bool) (ps : List (Nat × PlateHead × List Byte)) (k e : Nat) : Elt :=
  let d := descOf o.desc
  let ns := if isA && decide (0x11 ≤ d.fmt ∧ d.fmt ≤ 0x17) then d.fmt - 0x0F else 0
  match ps.find? fun p => decide (p.1 = k) with
  | some p => plateElt p.2.1 ns d.planes p.2.2 e
  | none => Elt.none

/-! ## The operands of a chunk (R288, R293) -/

/-- An elementwise element of an operand at a coordinate; `n` numbers it for open bytes of other destinations. -/
def State.engElt (s : State) (v : EngView) (o : Operand) (n : Nat) (ys : List Nat) : Except EngStop Elt :=
  let l := layoutOf o.layout
  let d := descOf o.desc
  match l.eval ys with
  | none => .ok Elt.none
  | some p => do
    let bs ← (s.freeFrom (16 * n)).engRead v o p.a ((p.sub + l.bits + 7) / 8) p.csel
    .ok (fmtElt d.fmt d.rscale (leNat bs / 2 ^ p.sub % 2 ^ l.bits))

/-- The plates of a group of 16 that A's chunk at `k` reads. -/
def platesA (k : Nat) : List Nat := [0, 1].flatMap fun i => (List.range 4).map fun j => 4 * (k % 32 / 8 + i) + j

/-- The row of A, or of a gather's table, that row `i` of the chunk reads; none where the gather's index gives none. -/
def Cmd.rowA (x : Cmd) (i : Nat) : Option Nat :=
  if x.cls = 2 then (if x.idx.getD i 0xFFFFFFFF = 0xFFFFFFFF then none else some (x.idx.getD i 0)) else some i

/-- The 64 rows of 16 values that A, or a gather's table, brings to the chunk at `k0`. -/
def State.chunkA (s : State) (v : EngView) (x : Cmd) (o : Operand) (k0 : Nat) : Except EngStop (List (List Elt)) :=
  let d := descOf o.desc
  let row := o.origin.getD 0 0
  let k := o.origin.getD 1 0 + k0
  let path := blkBits x.words 1 14 13
  if fmtPlate d.fmt then
    match (layoutOf o.layout).eval [row / 64, k / 32] with
    | none => .ok (List.replicate 64 (List.replicate 16 Elt.none))
    | some p => do
      let q := k % 32 / 8
      let ps ← s.readPlates v o p true path ((blkWord x.words 0).testBit 16) (platesA k)
      .ok ((List.range 64).map fun i => (List.range 16).map fun j =>
        plateAt o true ps (4 * (q + j / 8) + i / 16) (8 * (i % 16) + j % 8))
  else
    (List.range 64).mapM fun i =>
      match x.rowA i with
      | none => .ok (List.replicate 16 Elt.none)
      | some at_ => (List.range 16).mapM fun j => s.engElt v o (16 * i + j) [row + at_, k + j]

/-- The 16 rows of 128 values that B brings to the chunk at `k0`. -/
def State.chunkB (s : State) (v : EngView) (x : Cmd) (o : Operand) (k0 : Nat) : Except EngStop (List (List Elt)) :=
  let d := descOf o.desc
  let k := o.origin.getD 0 0 + k0
  let col := o.origin.getD 1 0
  let s := s.freeFrom (2 ^ 20)
  if fmtPlate d.fmt then
    match (layoutOf o.layout).eval [k / 16, col / 128] with
    | none => .ok (List.replicate 16 (List.replicate 128 Elt.none))
    | some p => do
      let ps ← s.readPlates v o p false (blkBits x.words 1 14 13) false (List.range 16)
      .ok ((List.range 16).map fun i => (List.range 128).map fun j => plateAt o false ps (j / 8) (8 * i + j % 8))
  else
    (List.range 16).mapM fun i => (List.range 128).mapM fun j => s.engElt v o (128 * i + j) [k + i, col + j]

/-- The ranges that a chunk reads of a plate group at a spot, as offset, bytes and selector: the headers, and the words of
the bodies of the plates that it needs. -/
def State.plateRanges (s : State) (v : EngView) (o : Operand) (x : Spot) (isA : Bool) (need : List Nat) : List (Nat × Nat × Nat) :=
  let d := descOf o.desc
  let ns := if isA && decide (0x11 ≤ d.fmt ∧ d.fmt ≤ 0x17) then d.fmt - 0x0F else 0
  match s.engRead v o x.a 64 x.csel with
  | .error _ => []
  | .ok hdr =>
    let heads := plateHeads hdr d.fmt d.rscale ns 16 0 64
    (x.a, 64, x.csel) :: need.flatMap fun k =>
      match heads[k]? with
      | none => []
      | some p =>
        let some_ := plateNeeds p ns d.planes
        ((List.range ((p.size + 7) / 8)).filter fun w => some_.any fun i => decide (i / 8 = w)).map fun w => (x.a + p.off + 8 * w, 8, x.csel)

/-- The sectors that the chunk at `k0` reads of an operand at the module's home slices are valid there (R142). -/
def State.operandServed (s : State) (v : EngView) (x : Cmd) (o : Operand) (isA : Bool) (k0 : Nat) : State :=
  let l := layoutOf o.layout
  let r := o.origin.getD 0 0
  let c := o.origin.getD 1 0
  let ranges :=
    if hKind o.handle ≠ 4 then []
    else if fmtPlate (descOf o.desc).fmt then
      match l.eval (if isA then [r / 64, (c + k0) / 32] else [(r + k0) / 16, c / 128]) with
      | some p => s.plateRanges v o p isA (if isA then platesA (c + k0) else List.range 16)
      | none => []
    else
      let ys := if isA then ((List.range 64).filterMap x.rowA).flatMap fun i => (List.range 16).map fun j => [r + i, c + k0 + j]
        else (List.range 16).flatMap fun i => (List.range 128).map fun j => [r + k0 + i, c + j]
      (ys.filterMap l.eval).map fun p => (p.a, (p.sub + l.bits + 7) / 8, p.csel)
  ranges.foldl (fun s p => s.engServed v o p.1 p.2.1 p.2.2) s

/-! ## The accumulator row (R100 to R109) -/

/-- An accumulator element: its class and mantissa. (log 49: DEDUCED, unsafe.) -/
structure AccElt where
  cls : Nat
  mant : Int
  deriving DecidableEq, Repr

/-- The element of a word, and the word of an element (R100). -/
def accElt (w : Nat) : AccElt :=
  let c := w / 2 ^ 48 % 4
  { cls := c, mant := if c = 0 then (BitVec.ofNat 48 w).toInt else 0 }
def AccElt.word (e : AccElt) : Nat := e.cls * 2 ^ 48 + (if e.cls = 0 then (BitVec.ofInt 48 e.mant).toNat else 0)

/-- The largest magnitude of a mantissa. -/
def mantMax : Int := 2 ^ 47 - 1

/-- A sum brought into the range of a mantissa, and whether it lay outside. -/
def clampMant (s : Int) : Int × Bool :=
  if mantMax < s then (mantMax, true) else if s < -mantMax then (-mantMax, true) else (s, false)

/-- `rne` (R86). -/
def rneShift (x k : Int) : Int :=
  if k ≤ 0 then x * 2 ^ (-k).toNat
  else
    let r : Int := roundShift 0 (decide (x < 0)) x.natAbs k.toNat
    if x < 0 then -r else r

/-- floor(p / 2^E) of a finite product. -/
def floorAt (neg : Bool) (m : Nat) (e E : Int) : Int :=
  let x : Int := if neg then -m else m
  if E ≤ e then x * 2 ^ (e - E).toNat else x / 2 ^ (E - e).toNat

/-- floor(log2 |p|) + 1 of a finite non-zero product. -/
def topBit : Fp → Option Int
  | .fin _ m e => if m = 0 then none else some (e + bitlen m)
  | _ => none

/-- The largest of some optional integers. -/
def topOf (l : List (Option Int)) : Option Int :=
  l.foldl (fun a b => match a, b with | some x, some y => some (max x y) | none, y => y | x, none => x) none

/-- The largest bitlen of the finite mantissas of a row (R102). -/
def rowBits (els : List AccElt) : Int :=
  els.foldl (fun a e => if e.cls = 0 then max a (bitlen e.mant.natAbs) else a) (0 : Int)

/-- The classes of an element and its products combined (R104), and whether infinities of both signs met. -/
def combine (c : Nat) (ps : List Fp) : Nat × Bool :=
  let nan := decide (c = 3) || ps.any Fp.isNan
  let pos := decide (c = 1) || ps.any fun p => decide (p = .inf false)
  let neg := decide (c = 2) || ps.any fun p => decide (p = .inf true)
  if nan then (3, false) else if pos && neg then (3, true) else if pos then (1, false) else if neg then (2, false) else (0, false)

/-- What a chunk does to a row: its new state and elements, whether an event occurred and whether a sum saturated. -/
structure RowStep where
  st : RowState
  els : List AccElt
  event : Bool := false
  inv : Bool := false
  ovf : Bool := false
  deriving DecidableEq, Repr

/-- The exponent of a row for a chunk, with its elements renormalised where an event occurs (R104, R105, R109). -/
def rowExponent (fixed : Bool) (st : RowState) (els : List AccElt) (top : Option Int) : RowStep :=
  if fixed then { st := { st with exp := some (st.exp.getD 0) }, els := els }
  else match top, st.exp with
    | none, _ => { st := st, els := els }
    | some t, none => { st := { st with exp := some (max (-2047) (min 2047 (t - 1 - 25))) }, els := els }
    | some t, some E =>
      let b := max 0 (t - E)
      let bound := max (rowBits els) (b + 4) + 1
      let k := min (bound - 31) (2047 - E)
      if 47 < bound ∧ 1 ≤ k then
        { st := { st with exp := some (E + k), events := if st.events = BitVec.allOnes 32 then st.events else st.events + 1 }
          els := els.map (fun e => if e.cls = 0 then { e with mant := rneShift e.mant k } else e), event := true }
      else { st := st, els := els }

/-- One K-chunk into one row (R104, R109): `ps` holds the 16 products of each column. -/
def rowChunk (fixed : Bool) (st : RowState) (els : List AccElt) (ps : List (List (Fp × Bool))) : RowStep :=
  let r := rowExponent fixed st els (topOf (ps.flatMap fun c => c.map fun p => topBit p.1))
  let E := r.st.exp.getD 0
  let cols := (r.els.zip ps).map fun c =>
    let k := combine c.1.cls (c.2.map Prod.fst)
    if k.1 = 0 then
      let s := clampMant (c.2.foldl (fun s p => match p.1 with | .fin n m e => s + floorAt n m e E | _ => s) c.1.mant)
      (({ cls := 0, mant := s.1 } : AccElt), k.2, s.2)
    else (({ cls := k.1, mant := 0 } : AccElt), k.2, false)
  let inv := cols.any (fun c => c.2.1) || ps.any fun c => c.any Prod.snd
  let ovf := cols.any fun c => c.2.2
  { r with st := { r.st with inv := r.st.inv || inv, ovf := r.st.ovf || ovf }, els := cols.map Prod.fst, inv := inv, ovf := ovf }

/-! ## Tiles in a task's pool (R100, R101) -/

/-- The pool offset of a row of an accumulator tile. -/
def accRowAt (gs : List Nat) (tile i : Nat) : Nat := granuleAddr gs (65536 * tile + 1024 * i)

/-- A row's elements, and a row's elements written. -/
def State.accRow (s : State) (core : Nat) (gs : List Nat) (tile i : Nat) : List AccElt :=
  let bs := s.locRead (.pool core (accRowAt gs tile i)) 1024
  (List.range 128).map fun j => accElt (recNat bs (8 * j) 8)
def State.setAccRow (s : State) (core : Nat) (gs : List Nat) (tile i : Nat) (els : List AccElt) : State :=
  s.locWrite (.pool core (accRowAt gs tile i)) (els.flatMap fun e => leBytes 8 e.word)

/-- The first uncorrectable word of a tile, if it has one. -/
def State.accBad (s : State) (core : Nat) (gs : List Nat) (tile : Nat) : Option Loc :=
  (List.range 64).findSome? fun i => s.badIn (.pool core (accRowAt gs tile i)) 1024

/-- A row's state; a row not listed is unset. -/
def Task.row (t : Task) (tile i : Nat) : RowState := t.rows.get (64 * tile + i) {}
def Task.setRow (t : Task) (tile i : Nat) (r : RowState) : Task :=
  { t with rows := if r = {} then t.rows.erase (64 * tile + i) else t.rows.set (64 * tile + i) r }

/-- Sticky bits and events of rows set and counted in `astat` (R54, R101). -/
def astatAdd (a : Word) (events : Nat) (inv ovf : Bool) : Word :=
  BitVec.ofNat 64 (min (a.toNat % 2 ^ 32 + events) (2 ^ 32 - 1)) ||| (a &&& (3#64 <<< 32)) |||
    (if ovf then 1#64 <<< 32 else 0) ||| (if inv then 1#64 <<< 33 else 0)

/-- A row after a step is stored with its state, and `astat` follows. -/
def State.putRow (s : State) (core slot tile i : Nat) (r : RowStep) : State :=
  match s.task? core slot with
  | none => s
  | some tk =>
    (s.setTask core slot { tk.setRow tile i r.st with astat := astatAdd tk.astat (if r.event then 1 else 0) r.inv r.ovf }).setAccRow
      core tk.accG tile i r.els

/-- A tile as at dispatch (R68): its words are written whole (R410). -/
def State.resetTile (s : State) (core slot tile : Nat) : State :=
  match s.task? core slot with
  | none => s
  | some tk =>
    let s := s.setTask core slot ((List.range 64).foldl (fun t i => t.setRow tile i {}) tk)
    let rows := (List.range 64).map fun i => Loc.pool core (accRowAt tk.accG tile i)
    (rows.foldl (fun s x => s.locWrite x (List.replicate 1024 0)) s).repair (rows.map fun x => (x, 1024))

/-! ## The engine's order (R107, R166, R276) -/

/-- Every command of a core by number. -/
def Core.cmd? (k : Core) (id : Nat) : Option Cmd := k.queues.toList.flatten.find? fun x => decide (x.id = id)

/-- Whether an earlier command of the matrix order names the same tile and has not ended. -/
def Core.tileBusy (k : Core) (x : Cmd) : Bool :=
  (k.morder.takeWhile (· ≠ x.id)).any fun id =>
    match k.cmd? id with
    | some y => !y.ended && decide (y.task = x.task ∧ y.tile = x.tile)
    | none => false

/-- The head of a queue, where it may run: its guard slot is resolved, the earlier stores of its course are performed or
have left, earlier commands on its tile have ended, and no command of the matrix engine's other queue is under way. The matrix
engine takes a command once the cycle of its arrival is over, since one of a lower lane may come in that cycle (R107). (log 54: DESIGN CHOICE, unsafe.) -/
def State.runnable (s : State) (core cls : Nat) : Option Cmd :=
  match (s.core core).headCmd cls with
  | none => none
  | some x =>
    let other := if cls = 1 then 2 else 1
    let busy := (cls = 1 ∨ cls = 2) ∧ (s.now ≤ x.cycle ∨ ((s.core core).headCmd other).map Cmd.st = some .running ∨ (s.core core).tileBusy x = true)
    if x.gen.isSome ∨ !s.cmdReady x ∨ busy then none else some x

/-- The view of a command. -/
def State.viewOf (s : State) (core : Nat) (x : Cmd) : EngView :=
  { core := core, ctx := ((s.task? core x.task).getD {}).ctx, sup := x.sup, waits := true }

/-! ## K_CHUNK (R104, R288, R293, R399, R400, R407) -/

/-- The rows of a tile after a chunk. -/
def State.chunkRows (s : State) (core : Nat) (x : Cmd) (tile : Nat) (fixed : Bool) (a b : List (List Elt)) : State × Bool :=
  a.zipIdx.foldl (fun r row =>
    let tk := (r.1.task? core x.task).getD {}
    let els := r.1.accRow core tk.accG tile row.2
    let ps := (List.range 128).map fun c => (row.1.zip b).map fun p => p.1.times (p.2.getD c Elt.none)
    let y := rowChunk fixed (tk.row tile row.2) els ps
    (r.1.putRow core x.task tile row.2 y, r.2 || y.ovf)) (s, false)

/-- Every bank of a pool counts the words of a tile's write (R164). (log 52: DESIGN CHOICE, unsafe.) -/
def State.stampTile (s : State) (core : Nat) : State :=
  s.modCore core fun c => { c with bankTag := (List.range 512).foldl (fun t b => t.set b (t.get b 0 + 16)) c.bankTag }

/-- A multiply-accumulate is over: in fixed mode with ovtrap, a saturation raises 0x22 once it has retired (R407). -/
def Cmd.finishMma (x : Cmd) : Cmd :=
  let trap := (blkWord x.words 0).testBit 18 && (blkWord x.words 1).testBit 15 && x.saturated
  { x with st := .performed, fault := if trap then some (x.cause 0x22 0x23 0 0 0) else none }

/-- What the chunk of a command at `kdone` reads: the rows of A and of B; or the code of the operand on which it is stopped, and
what stops it (R399, R401). -/
def State.chunkReads (s : State) (v : EngView) (x : Cmd) (oa ob : Operand) (tile : Nat) :
    Except (Nat × EngStop) (List (List Elt) × List (List Elt)) :=
  match s.chunkA v x oa x.kdone, s.chunkB v x ob x.kdone, s.accBad v.core ((s.task? v.core x.task).getD {}).accG tile with
  | .error e, _, _ => .error (if x.cls = 2 then 4 else 1, e)
  | _, .error e, _ => .error (2 + 16, e)
  | _, _, some w => .error (3 + 32, .fail 0x70 (BitVec.ofNat 64 w.off) (some w))
  | .ok a, .ok b, none => .ok (a, b)

/-- The words at a pool address or local physical address that reads of some operands may reach. -/
def State.opWords (s : State) (core : Nat) (ops : List Operand) (pa : Nat) : List Loc :=
  (localHome s.scratchWays false pa).toList ++ ((core :: (ops.flatMap fun o => o.homes.map Prod.fst)).eraseDups).map fun k => Loc.pool k pa

/-- Reads of operands meet a new error in a word, or in the tag of its line (R399, R409): `stops` tells what would stop them, so
that only a word that they reach is met. -/
def State.readError (s : State) (core : Nat) (ops : List Operand) (who : Option (Nat × Task)) (err : SoftErr)
    (stops : State → Option EngStop) : State :=
  let met := fun pa : Nat => (s.opWords core ops (pa / 8 * 8)).find? fun w => match stops (s.markBad w (s.heldUnit w)) with
    | some (.fail 0x70 _ (some h)) => decide (h = w)
    | _ => false
  match err with
  | .word pa fixed => ((met pa).map fun w => s.wordError w fixed who).getD s
  | .tag pa fixed => ((met pa).map fun w => s.tagError w fixed who).getD s
  | _ => s

/-- The reads of a running command meet one. -/
def State.engError (s : State) (core : Nat) (x : Cmd) (err : SoftErr) (stops : State → Option EngStop) : State :=
  s.readError core x.ops ((s.task? core x.task).map fun t => (core, t)) err stops

/-- K_CHUNK: the running multiply-accumulate of a class adds its next chunk of 16 products into each row, or stops. A chunk that is
stopped counts no permute cycles (log 150: DESIGN CHOICE, unsafe). -/
def State.kChunk (s : State) (core cls : Nat) (far : FarAnswer) (err : SoftErr) : State :=
  match s.runnable core cls with
  | none => s
  | some x =>
    match x.kind, x.tile, x.ops with
    | .writeBack, _, _ | .accOp _ _ _ _, _, _ | .copy, _, _ | .col, _, _ => s
    | _, some tile, [oa, ob, oc] =>
      let v := { s.viewOf core x with far := far }
      let s := s.engError core x err fun s => match s.chunkReads v x oa ob tile with | .error e => some e.2 | .ok _ => none
      match s.chunkReads v x oa ob tile with
      | .error e => s.pastFar.engStopped core x e.1 e.2
      | .ok (a, b) =>
        let fixed := (blkWord x.words 1).testBit 15
        let s := (((s.operandServed v x oa true x.kdone).operandServed v x ob false x.kdone).pastFar).farGiven (coreDie core) x.id
        let r := (s.stampTile core).chunkRows core x tile fixed a b
        let y := { x with st := .running, kdone := x.kdone + 16, perm := x.perm + oa.cost + ob.cost + oc.cost
                          saturated := x.saturated || (fixed && r.2) }
        r.1.setCmd core (if blkBits x.words 1 12 0 ≤ y.kdone then y.finishMma else y)
    | _, _, _ => s

/-! ## WRITE_BACK (R111, R112, R292) -/

/-- An element as an exact value (R111). -/
def AccElt.value (e : AccElt) (st : RowState) : Fp :=
  if e.cls = 3 then .nan
  else if e.cls = 1 then .inf false
  else if e.cls = 2 then .inf true
  else match st.exp with
    | some E => if e.mant = 0 then .fin false 0 0 else .fin (decide (e.mant < 0)) e.mant.natAbs E
    | none => .fin false 0 0

/-- A finite element's code in BPn (R112): sign, magnitude and whether it was clamped. -/
def bpCode (n scale : Nat) (e : AccElt) (st : RowState) : Bool × Nat × Bool :=
  let top := 2 ^ (n - 1) - 1
  if e.cls = 3 then (true, 0, false)
  else if e.cls = 1 then (false, top, false)
  else if e.cls = 2 then (true, top, false)
  else match st.exp with
    | none => (false, 0, false)
    | some E =>
      let g := rneShift e.mant ((scale : Int) - 127 - E)
      if top < g.natAbs then (decide (g < 0), top, true) else (decide (g < 0), g.natAbs, false)

/-- Whether |m| × 2^E ≤ g × 2^(e − 127). -/
def fitsScale (m : Nat) (E : Int) (g e : Nat) : Bool :=
  let k := E - ((e : Int) - 127)
  if 0 ≤ k then decide (m * 2 ^ k.toNat ≤ g) else decide (m ≤ g * 2 ^ (-k).toNat)

/-- The scale byte chosen for a plate (R112). -/
def autoScale (n : Nat) (els : List (AccElt × RowState)) : Nat :=
  let fin := els.filterMap fun p => match p.1.cls, p.2.exp with
    | 0, some E => if p.1.mant = 0 then none else some (p.1.mant.natAbs, E)
    | _, _ => none
  if fin.isEmpty then 127
  else ((List.range 255).find? fun e => fin.all fun p => fitsScale p.1 p.2 (2 ^ (n - 1) - 1) e).getD 254

/-- The bytes of a plate of BPn from its 128 codes (R91, R94). -/
def bpBody (n : Nat) (codes : List (Bool × Nat × Bool)) : List Byte :=
  (List.range n).flatMap fun j => (List.range 16).map fun v =>
    BitVec.ofNat 8 ((List.range 8).foldl (fun b i =>
      let c := codes.getD (8 * v + i) (false, 0, false)
      let bit := if j = 0 then c.1 else c.2.1.testBit (n - 1 - j)
      b + (if bit then 2 ^ i else 0)) 0)

/-- A plate's liveness bits (R292). -/
def bpLive (codes : List (Bool × Nat × Bool)) : Nat :=
  slotMask ((List.range 16).filter fun v => ((codes.drop (8 * v)).take 8).any fun c => c.1 || decide (c.2.1 ≠ 0))

/-- The bytes of a plate group of 16 rows and 128 columns, and the rows in which an element was clamped. -/
def bpGroup (n rscale : Nat) (auto : Bool) (rows : List (List AccElt × RowState)) : List Byte × List Bool :=
  let plates := (List.range 16).map fun p =>
    let els := rows.flatMap fun r => ((r.1.drop (8 * p)).take 8).map fun e => (e, r.2)
    let scale := if auto then autoScale n els else rscale
    (scale, els.map fun e => bpCode n scale e.1 e.2)
  let bytes := (plates.flatMap fun p => [BitVec.ofNat 8 (n - 1), BitVec.ofNat 8 p.1]) ++
    (plates.flatMap fun p => leBytes 2 (bpLive p.2)) ++ plates.flatMap fun p => bpBody n p.2
  (bytes, (List.range rows.length).map fun i => plates.any fun p => ((p.2.drop (8 * i)).take 8).any fun c => c.2.2)

/-- The writes of a write-back: each elementwise destination or plate group, or what stops it; and the rows clamped. -/
def State.writeBackPlan (s : State) (v : EngView) (x : Cmd) (o : Operand) (rows : List (List AccElt × RowState)) :
    List (Except EngStop EngWrite) × List Bool :=
  let d := descOf o.desc
  let l := layoutOf o.layout
  let at_ := fun (ys : List Nat) (bs : List Byte) => (l.eval ys).map fun p => (p, bs)
  let plan := fun ps : List (Option (Spot × List Byte)) => s.sparePlan v fun v => ps.map fun p => match p with
    | some p => s.engPieces v o p.1.a p.1.csel p.2
    | none => .ok []
  let r0 := o.origin.getD 0 0
  let c0 := o.origin.getD 1 0
  match fmtFloat d.fmt with
  | some f =>
    let sat := (blkWord x.words 1).testBit 20
    (plan (rows.zipIdx.flatMap fun r => r.1.1.zipIdx.map fun e =>
      at_ [r0 + r.2, c0 + e.2] (leBytes (l.bits / 8) (f.round 0 (sat && decide (e.1.cls = 0)) (e.1.value r.1.2)))), [])
  | none =>
    let gs := (List.range 4).map fun g =>
      bpGroup (d.fmt - 0x0F) d.rscale ((blkWord x.words 1).testBit 21) ((rows.drop (16 * g)).take 16)
    (plan (gs.zipIdx.map fun g => at_ [r0 / 16 + g.2, c0 / 128] g.1.1), gs.flatMap Prod.snd)

/-- A permutation of a list in an order the spec leaves open, and the state after the choice. -/
def State.shuffle {α : Type} (s : State) (l : List α) : List α × State :=
  ((sortBy (fun a b => decide (Config.freeNat (s.freeCtr + a.2) ≤ Config.freeNat (s.freeCtr + b.2))) l.zipIdx).map Prod.fst,
    { s with freeCtr := s.freeCtr + l.length })

/-- The first stop of some writes. -/
def firstStop {α : Type} (l : List (Except EngStop α)) : Option EngStop :=
  l.findSome? fun w => match w with | .error e => some e | .ok _ => none

/-- The writes that a command performs: all of them in an open order; where one is stopped, an open part of the others
(R286, R400). (log 55: DESIGN CHOICE, safe.) -/
def State.chooseWrites {α : Type} (s : State) (plan : List (Except EngStop α)) : List α × State :=
  let r := s.shuffle (plan.filterMap fun w => match w with | .ok y => some y | .error _ => none)
  if (firstStop plan).isSome then (r.1.take (r.2.fresh.1 % (r.1.length + 1)), r.2.fresh.2) else r

/-- Whether a stop is one that passes: the command then waits with nothing done. -/
def EngStop.waits : EngStop → Bool
  | .page .. => true
  | .wait => true
  | .far .. => true
  | _ => false

/-- Whether an operand's writes go to a `gl` location, die scratch among them (R155), to `pv` or to another member's `cl`
(R168). -/
def Operand.far (o : Operand) (rank : Nat) : Bool :=
  decide (hKind o.handle = 4 ∨ hKind o.handle = 5) || (decide (hKind o.handle = 3) && (hMode o.handle || decide (hCidx o.handle ≠ rank)))

/-- Rows clamped by a write-back have ovf set (R112). -/
def State.clampRows (s : State) (core slot tile : Nat) (rows : List Bool) : State :=
  rows.zipIdx.foldl (fun s r =>
    if !r.1 then s
    else match s.task? core slot with
      | none => s
      | some tk =>
        s.setTask core slot { tk.setRow tile r.2 { tk.row tile r.2 with ovf := true } with astat := astatAdd tk.astat 0 false true }) s

/-- A command meets a new error in a word of its tile (R409). -/
def State.accError (s : State) (core : Nat) (x : Cmd) (tk : Task) (tile : Nat) (err : SoftErr) : State :=
  s.engError core x err fun s => (s.accBad core tk.accG tile).map fun w => .fail 0x70 (BitVec.ofNat 64 w.off) (some w)

/-- WRITE_BACK: the tile is converted and written, and reset if asked; one that is stopped has written an open part, sets no
ovf and resets nothing (R400), and counts no permute cycles (log 150). (log 116: DESIGN CHOICE, unsafe.) -/
def State.writeBack (s : State) (core : Nat) (err : SoftErr) : State :=
  match s.runnable core 1 with
  | none => s
  | some x =>
    match x.kind, x.tile, x.ops with
    | .writeBack, some tile, [o, _] =>
      let v := s.viewOf core x
      let tk := (s.task? core x.task).getD {}
      let s := s.accError core x tk tile err
      match s.accBad core tk.accG tile with
      | some w => s.engStopped core x (3 + 32) (.fail 0x70 (BitVec.ofNat 64 w.off) (some w))
      | none =>
        let rows := (List.range 64).map fun i => (s.accRow core tk.accG tile i, tk.row tile i)
        let plan := s.writeBackPlan v x o rows
        match firstStop plan.1 with
        | some e =>
          if e.waits then s.engStopped core x (3 + 16) e
          else
            let c := s.chooseWrites plan.1
            let r := c.2.engWrites c.1
            let q := r.1.sendLines core { x with todo := r.2, wroteFar := x.wroteFar || (o.far tk.rank && !c.1.isEmpty) }
            q.1.engStopped core q.2 (3 + 16) e
        | none =>
          let c := s.chooseWrites plan.1
          let r := c.2.engWrites c.1
          let s := r.1.clampRows core x.task tile plan.2
          let s := if (blkWord x.words 1).testBit 22 then (s.resetTile core x.task tile).stampTile core else s
          s.setSending core { x with st := .performed, todo := r.2, perm := x.perm + o.cost, wroteFar := x.wroteFar || o.far tk.rank }
    | _, _, _ => s

/-! ## ACC_EXECUTE (R295, R296) -/

/-- `setexp` on a row (R296). -/
def setExp (E : Int) (st : RowState) (els : List AccElt) : RowStep :=
  if E = -2048 then { st := { st with exp := none }, els := els.map fun _ => { cls := 0, mant := 0 } }
  else match st.exp with
    | none => { st := { st with exp := some E }, els := els }
    | some old =>
      let r := els.map fun e => if e.cls = 0 then ((({ e with mant := (clampMant (rneShift e.mant (E - old))).1 } : AccElt)),
        (clampMant (rneShift e.mant (E - old))).2) else (e, false)
      let ovf := r.any Prod.snd
      { st := { st with exp := some E, ovf := st.ovf || ovf }, els := r.map Prod.fst, ovf := ovf }

/-- `wrrow` on a row (R295). -/
def wrRow (v : Word) (st : RowState) (els : List AccElt) : RowStep :=
  let E := (v.setWidth 12).toInt
  let st := { st with exp := (if E = -2048 then none else some E), inv := st.inv && !v.getLsbD 19, ovf := st.ovf && !v.getLsbD 18 }
  { st := st, els := if E = -2048 then els.map fun _ => { cls := 0, mant := 0 } else els }

/-- Word 0 of a row's state (R101, R102). -/
def rowWord (st : RowState) (els : List AccElt) : Word :=
  BitVec.ofNat 64 ((BitVec.ofInt 12 (st.exp.getD (-2048))).toNat + 2 ^ 12 * (47 - rowBits els).toNat +
    bitN st.ovf 18 + bitN st.inv 19 + 2 ^ 32 * st.events.toNat)

/-- ACC_EXECUTE: the `acc` at the head of the matrix queue is performed on its tile. -/
def State.accExecute (s : State) (core : Nat) (err : SoftErr) : State :=
  match s.runnable core 1 with
  | none => s
  | some x =>
    match x.kind, x.tile with
    | .accOp sub imm val dst, some tile =>
      match s.task? core x.task with
      | none => s
      | some tk =>
        let done := fun s : State => s.setCmd core { x with st := .performed }
        let reads := decide (sub = 1 ∨ sub = 2 ∨ sub = 3)
        let s := if reads then s.accError core x tk tile err else s
        let row := fun i => s.accRow core tk.accG tile i
        let bad := reads && (s.accBad core tk.accG tile).isSome
        if bad then
          match s.accBad core tk.accG tile with
          | some w =>
            let c := { x.cause 0x70 12 (BitVec.ofNat 64 w.off) 0 0 with lost := dst.toList.map fun d => (x.slot, d) }
            (s.errorEvent w 1 (some (core, tk))).setCmd core { x with st := .failed, fault := some c }
          | none => s
        else if sub = 0 then done ((s.resetTile core x.task tile).stampTile core)
        else if sub = 1 then
          let E := (val.setWidth 12).toInt
          done (((List.range (imm / 64 % 64 + 1)).map (· + imm % 64)).foldl (fun s i =>
            s.putRow core x.task tile i (setExp E (((s.task? core x.task).getD {}).row tile i) (s.accRow core tk.accG tile i))) s)
        else if sub = 2 then
          let w := rowWord (tk.row tile (imm % 64)) (row (imm % 64))
          done (s.modCourse core x.course fun c => c.modBoth x.slot fun t =>
            match dst with | some d => t.arrive d x.id w | none => t)
        else if sub = 3 then done (s.putRow core x.task tile (imm % 64) (wrRow val (tk.row tile (imm % 64)) (row (imm % 64))))
        else done (s.setTask core x.task ((List.range 64).foldl (fun t i => t.setRow tile i { t.row tile i with inv := false, ovf := false }) tk))
    | _, _ => s

end Sys2Proof.Machine
end

