-- ==== Sys2Proof/Machine/Copy.lean ====
section
/-! DEFINITION. The copy engine (R285, R286, R169, R332): COPY_TRANSFER. -/

namespace Sys2Proof.Machine

/-- The bits of a destination element (R286): unchanged where format and rscale are equal, else the value rounded once. -/
def copyBits (sat : Bool) (a b : Desc) (bits : Nat) : Nat :=
  if a.fmt = b.fmt ∧ a.rscale = b.rscale then bits
  else match fmtFloat a.fmt, fmtFloat b.fmt with
    | some f, some g => if a.rscale = 255 then g.round 0 sat .nan else g.round 0 sat ((f.decode bits).scale ((a.rscale : Int) - b.rscale))
    | _, _ => bits

/-- One element of a copy: where its source and destination stand in their handles. -/
structure CopyElem where
  src : Spot
  dst : Spot
  deriving DecidableEq, Repr

/-- The elements of a copy: every coordinate within the extents. -/
def copyElems (x : Cmd) (a b : Operand) : List CopyElem :=
  let la := layoutOf a.layout
  let lb := layoutOf b.layout
  (domain ((blkExts x.words).take la.ndims)).filterMap fun y =>
    match la.eval (List.zipWith (· + ·) a.origin y), lb.eval (List.zipWith (· + ·) b.origin y) with
    | some p, some q => some { src := p, dst := q }
    | _, _ => none

/-- The bytes that an element at a spot touches. -/
def spotBytes (p : Spot) (bits : Nat) : Nat := (p.sub + bits + 7) / 8

/-- What stops an element, and on which operand: its source read, refused where the element is another destination's
and that answers with a refusal (R439), or the place of its destination. (log 60: DESIGN CHOICE, safe.) -/
def State.copyStop (s : State) (v : EngView) (a b : Operand) (ba bb : Nat) (e : CopyElem) : Option (Nat × EngStop) :=
  match s.engRead v a e.src.a (spotBytes e.src ba) e.src.csel with
  | .error f => some (0, f)
  | .ok _ =>
    match s.engPieces v b e.dst.a e.dst.csel (List.replicate (spotBytes e.dst bb) 0) with
    | .error f => some (16, f)
    | .ok _ => none

/-- The view in which a copy writes: of the uncorrectable words, those that it writes in whole halves are spared (R410). -/
def State.copyView (s : State) (v : EngView) (b : Operand) (es : List CopyElem) : EngView :=
  if s.badWords.isEmpty then v
  else
    let bits := (layoutOf b.layout).bits
    { v with spared := some (s.sparedBy (es.flatMap fun e =>
        match s.engPieces v b e.dst.a e.dst.csel (List.replicate (spotBytes e.dst bits) 0) with
        | .ok l => l.map fun p => (p.1, p.2.length)
        | .error _ => [])) }

/-- One element copied: its source is read as it stood at the start of the command, or as it stands now, which the spec
leaves open; `j` numbers the element for open bytes of other destinations. -/
def State.copyElem (s0 : State) (v : EngView) (x : Cmd) (a b : Operand) (r : State × FarLines) (e : CopyElem × Nat) : State × FarLines :=
  let ba := (layoutOf a.layout).bits
  let bb := (layoutOf b.layout).bits
  let pick := r.1.fresh
  let s := pick.2
  let from_ : State := ({ (if pick.1 % 2 = 0 then s0 else s) with freeCtr := s.freeCtr } : State).freeFrom (2 ^ 64 + 16 * e.2)
  match from_.engRead v a e.1.src.a (spotBytes e.1.src ba) e.1.src.csel with
  | .error _ => (s, r.2)
  | .ok bs =>
    let val := copyBits ((blkWord x.words 1).testBit 0) (descOf a.desc) (descOf b.desc) (leNat bs / 2 ^ e.1.src.sub % 2 ^ ba)
    let n := spotBytes e.1.dst bb
    let s := s.engServed v a e.1.src.a (spotBytes e.1.src ba) e.1.src.csel
    match s.engPieces v b e.1.dst.a e.1.dst.csel (leBytes n (val % 2 ^ bb * 2 ^ e.1.dst.sub)),
        s.engPieces v b e.1.dst.a e.1.dst.csel (leBytes n ((2 ^ bb - 1) * 2 ^ e.1.dst.sub)) with
    | .ok vs, .ok ms => (vs.zip (ms.map Prod.snd)).foldl State.engBitsAt (s, r.2)
    | _, _ => (s, r.2)

/-- Elements copied in an open order. (log 56: DESIGN CHOICE, safe.) -/
def State.copyAll (s : State) (v : EngView) (x : Cmd) (a b : Operand) (es : List CopyElem) : State × FarLines :=
  let r := es.zipIdx.foldl (s.copyElem v x a b) (s, [])
  let bits := (layoutOf b.layout).bits
  let done := es.filterMap fun e => match s.engLoc v b e.dst.a e.dst.csel { w := true } with
    | .ok y => some (y, spotBytes e.dst bits)
    | .error _ => none
  let r1 := r.1.repair (if r.1.badWords.isEmpty then [] else done)
  (r1.freeFrom (2 ^ 65 + 16 * es.length), r.2)

/-- Whether a copy that has begun only waits: for acknowledgements, or for destinations that are closed (R332). -/
def State.copyWaits (s : State) (core : Nat) (x : Cmd) : Bool :=
  decide (x.st = .running) &&
    (if x.todo.isEmpty then !x.writes.isEmpty else x.todo.all fun l => decide ((s.allowOf (coreDie core) l.1).value = 0))

/-- The copy that moves next: the oldest that has not ended and does not only wait, since a closed destination holds back the
command that writes to it and no other (R332); one held on its guard slot, or that its course's stores precede, holds the later
ones. -/
def State.nextCopy (s : State) (core : Nat) : Option Cmd :=
  match ((s.core core).queue 0).find? fun x => !x.ended && !s.copyWaits core x with
  | some x => if x.gen.isSome || !s.cmdReady x then none else some x
  | none => none

/-- A copy whose data has been written writes its flag, as a release, once that data is visible, and is performed (R169,
R286). (log 57: DEDUCED, unsafe.) -/
def State.copyFlag (s : State) (core : Nat) (x : Cmd) : State :=
  match x.flag with
  | none => s.setCmd core { x with st := .performed }
  | some f =>
    if !x.writes.isEmpty || !x.todo.isEmpty then s.setCmd core { x with st := .running }
    else
      let rank := ((s.task? core x.task).getD {}).rank
      match s.engPieces (s.viewOf core x) f.1 f.2 (if hMode f.1.handle then 0 else hCidx f.1.handle) (leBytes 8 (blkWord x.words 12)) with
      | .error e => s.engStopped core { x with st := .running } (8 + 16 * 3) e
      | .ok ps =>
        let r := s.engWrites [ps]
        r.1.setSending core { x with st := .performed, todo := r.2, wroteFar := x.wroteFar || f.1.far rank }

/-- COPY_TRANSFER: the next copy of a core converts and writes every element, or sends more of its lines, and then writes
its flag. A copy that an element stops has written an open part of the others, in an open part of its chunks (R130, R400).
`far` and `err` are what its reads meet (R399). (log 118: DEDUCED, unsafe.) -/
def State.copyTransfer (s : State) (core : Nat) (far : FarAnswer) (err : SoftErr) : State :=
  match s.nextCopy core with
  | none => s
  | some x =>
    match x.ops with
    | [a, b] =>
      if x.st = .running then
        let r := s.sendLines core x
        r.1.copyFlag core r.2
      else
        let v0 := { s.viewOf core x with far := far }
        let es := copyElems x a b
        let rank := ((s.task? core x.task).getD {}).rank
        let far := b.far rank
        let cost := x.copyCost
        let stopsIn := fun (s : State) (v : EngView) => es.map (s.copyStop v a b (layoutOf a.layout).bits (layoutOf b.layout).bits)
        let s := s.engError core x err fun s => ((stopsIn s v0).findSome? id).map Prod.snd
        let v := s.copyView v0 b es
        let stops := stopsIn s v
        let bad := stops.filterMap id
        match bad[s.fresh.1 % max bad.length 1]? with
        | some f =>
          match bad.find? fun g => g.2.waits with
          | some g => s.engStopped core x g.1 g.2
          | none =>
            let good := (es.zip stops).filterMap fun p => if p.2.isNone then some p.1 else none
            let o := s.fresh.2.shuffle good
            let n := o.2.fresh
            let part := o.1.take (n.1 % (o.1.length + 1))
            let r := n.2.copyAll v x a b part
            let k := r.1.fresh
            let q := k.2.sendLines core
              { x with todo := r.2, perm := cost.1 * (k.1 % (cost.2 + 1)), wroteFar := x.wroteFar || (far && !part.isEmpty) }
            q.1.engStopped core q.2 f.1 f.2
        | none =>
          let o := (s.farGiven (coreDie core) x.id).shuffle es
          let r := o.2.copyAll v x a b o.1
          let q := r.1.sendLines core { x with todo := r.2, perm := cost.1 * cost.2, wroteFar := x.wroteFar || far }
          q.1.copyFlag core q.2
    | _ => s

end Sys2Proof.Machine
end

