-- ==== Sys2Proof/Machine/Collective.lean ====
section
/-! DEFINITION. Collectives around a ring (R336, R338 to R343): CHUNK_START, PARTIAL_ARRIVAL, RESULT_ARRIVAL,
PARTIAL_CREDIT_RETURN and CHUNK_PEER_LOST_TIMEOUT. -/

namespace Sys2Proof.Machine

/-! ## Ring entries (R336) -/

def ringValid (e : Word) : Bool := e.getLsbD 46
def ringN (e : Word) : Nat := e.toNat % 512
def ringPos (e : Word) : Nat := e.toNat / 2 ^ 9 % 512
def ringNext (e : Word) : Nat := e.toNat / 2 ^ 18 % 512
def ringPrev (e : Word) : Nat := e.toNat / 2 ^ 27 % 512

/-! ## Values (R339) -/

/-- The floating format of a data type: FP32, BF16 or FP16; `none` for i32. -/
def collFmt (dtype : Nat) : Option FpFmt := if dtype = 0 then some f32 else if dtype = 1 then some bf16 else if dtype = 2 then some f16 else none

/-- The format code that a data type asks of a descriptor (R294), and the bytes of an element. -/
def collCode (dtype : Nat) : Nat := [6, 5, 4, 8].getD dtype 8
def collBytes (dtype : Nat) : Nat := if dtype = 1 ∨ dtype = 2 then 2 else 4

/-- A contribution's element as a partial carries it: FP32 for a floating type. -/
def carried (dtype bits : Nat) : Nat :=
  match collFmt dtype with
  | some f => if dtype = 0 then bits else f32.round 0 false (f.decode bits)
  | none => bits % 2 ^ 32

/-- A partial's element as the result holds it. -/
def delivered (dtype bits : Nat) : Nat :=
  match collFmt dtype with
  | some f => if dtype = 0 then bits else f.round 0 false (f32.decode bits)
  | none => bits % 2 ^ 32

/-- max and min of floating values: NaN if either is. -/
def fpPick (cop : Nat) (x y : Fp) : Fp :=
  if x.isNan || y.isNan then .nan else if cop = 1 then (if x.below y then y else x) else if y.below x then y else x

/-- One step of ⊕ on carried values: the partial is the first operand. -/
def collStep (dtype cop p c : Nat) : Nat :=
  if dtype = 3 then
    let v := fun x : Nat => (BitVec.ofNat 32 x).toInt
    if cop = 0 then (p + c) % 2 ^ 32 else if cop = 1 then (if v p < v c then c else p) else if v c < v p then c else p
  else
    let x := f32.decode p
    let y := f32.decode c
    f32.round 0 false (if cop = 0 then Fp.add 0 x y else fpPick cop x y)

/-- CRC-64/XZ of some bytes (R343). -/
def crc64 (bs : List Byte) : Nat :=
  let step := fun c : Nat => if c % 2 = 1 then (c / 2) ^^^ 0xC96C5795D7870F42 else c / 2
  let byte := fun (c : Nat) (b : Byte) => (List.range 8).foldl (fun c _ => step c) (c ^^^ b.toNat)
  (bs.foldl byte 0xFFFFFFFFFFFFFFFF) ^^^ 0xFFFFFFFFFFFFFFFF

/-- The order signature of some ranks. -/
def signature (ranks : List Nat) : Nat := crc64 (ranks.flatMap (leBytes 2))

/-! ## Elements of a chunk's tiles -/

/-- The places of a tile's elements, dimension 0 fastest. -/
def tileSpots (o : Operand) (ext : List Nat) : List Spot :=
  let l := layoutOf o.layout
  (domain (ext.take l.ndims)).filterMap fun y => l.eval (List.zipWith (· + ·) o.origin y)

/-- The view of translation that a chunk uses. -/
def Chunk.view (c : Chunk) : EngView := { core := c.core, ctx := c.ctx, sup := c.sup, waits := true }

/-- The contribution as the partials carry it; `far`: what another destination does with its reads. Its values are as they stand:
`rscale` scales neither them nor the result. (log 151: DESIGN CHOICE, unsafe.) -/
def State.readChunk (s : State) (c : Chunk) (far : FarAnswer) : Except EngStop (List Nat) :=
  (tileSpots c.contrib c.ext).zipIdx.mapM fun p => do
    let bs ← (s.freeFrom (16 * p.2)).engRead { c.view with far := far } c.contrib p.1.a (collBytes c.dtype) p.1.csel
    .ok (carried c.dtype (leNat bs))

/-- A contribution has been read: its sectors are valid at their homes. -/
def State.chunkServed (s : State) (c : Chunk) : State :=
  let l := tileSpots c.contrib c.ext
  let s := l.foldl (fun s p => s.engServed c.view c.contrib p.a (collBytes c.dtype) p.csel) s
  { s with freeCtr := s.freeCtr + 16 * l.length }

/-- The writes of a result. -/
def State.resultPlan (s : State) (c : Chunk) (vals : List Nat) : List (Except EngStop EngWrite) :=
  s.sparePlan c.view fun v => ((tileSpots c.result c.ext).zip vals).map fun p =>
    s.engPieces v c.result p.1.a p.1.csel (leBytes (collBytes c.dtype) (delivered c.dtype p.2))

/-! ## Chunks -/

def Chunk.same (c d : Chunk) : Bool := decide (c.id = d.id)

/-- The chunk in flight of a collective and index: begun, and its record not yet written. -/
def State.chunkOfId (s : State) (cid index : Nat) : Option Chunk :=
  s.chunks.find? fun c => decide (c.cid = cid ∧ c.index = index) && c.started

def State.setChunk (s : State) (c : Chunk) : State := { s with chunks := s.chunks.map fun d => if d.same c then c else d }
def State.dropChunk (s : State) (c : Chunk) : State := { s with chunks := s.chunks.filter fun d => !d.same c }

/-- The permute cycles of a chunk's tile: those of each of the tile's engine chunks (R127, R130). -/
def Chunk.cost (c : Chunk) (o : Operand) : Nat := o.cost * copyChunks (layoutOf o.layout).bits c.ext

/-- Whether a ring entry stands for a member list (R336). -/
def entryNames (rank : Nat) (e : Word) (l : List Nat) : Bool :=
  let n := ringN e
  decide (l.length = n ∧ n ≠ 0 ∧ l.getD (ringPos e) n = rank ∧ l.getD ((ringPos e + 1) % n) n = ringNext e ∧
    l.getD ((ringPos e + n - 1) % n) n = ringPrev e)

/-- The members of a ring: the list for which its entry stands, else as far as the entry names them (R336, R337). -/
def State.membersOf (s : State) (ring : Nat) (e : Word) : List Nat :=
  ((s.ringLists.get ring []).find? (entryNames s.rank e)).getD [ringPrev e, ringNext e]

/-- The entry by which a partial or a result goes on: that of its own ring (R340). -/
def State.entryFor (s : State) (c : Chunk) (p : Partial) : Word := if p.ring = c.ring then c.entry else s.rings.get p.ring 0

/-- The command of a chunk. -/
def State.chunkCmd (s : State) (c : Chunk) : Option Cmd := c.cmd.bind fun id => (s.core c.core).cmd? id

/-- A chunk's read or write is stopped: its command is (R400), or a bound chunk ends with status 2. -/
def State.chunkStopped (s : State) (c : Chunk) (sub : Nat) (e : EngStop) : State :=
  match s.chunkCmd c with
  | some x => if e.waits then s.engStopped c.core x sub e else (s.engStopped c.core x sub e).dropChunk c
  | none => match e with
    | .page d frame va =>
      s.askMigration d { frame := frame, toHost := false, assisted := false, ctx := c.ctx, va := va, pte := 0 }
    | .wait => s
    | .far d o => s.askFar (coreDie c.core) c.id d o
    | .fail _ _ (some w) => ((s.farGiven (coreDie c.core) c.id).errorEvent w 1 none).setChunk { c with status := some 2, got := none }
    | _ => (s.farGiven (coreDie c.core) c.id).setChunk { c with status := some 2, got := none }

/-- The record of a chunk (R343). -/
def State.chunkRecord (s : State) (c : Chunk) (status : Nat) : List Byte :=
  leBytes 8 (status + 2 ^ 8 * (16 * c.dtype + c.cop) + 2 ^ 16 * (c.cid % 65536) + 2 ^ 32 * ((s.collSeq.get c.cid 0 + 1) % 2 ^ 32)) ++
    leBytes 8 (signature c.ranks) ++ leBytes 8 s.ns ++ leBytes 8 (c.index % 2 ^ 32 + 2 ^ 32 * c.bytes)

/-- The lines of a chunk go out while allowance lasts (R332). -/
def State.sendChunk (s : State) (c : Chunk) : State × Chunk :=
  c.todo.foldl (fun r l =>
    if (r.1.allowOf (coreDie c.core) l.1).value = 0 then r
    else
      let n := r.1.newId
      ((n.2.raiseO (coreDie c.core) l.1).sendWrite
        { die := coreDie c.core, dest := l.1, seq := 0, pred := none, line := l.2.1, accs := [n.1], bytes := l.2.2 },
       { r.2 with writes := r.2.writes ++ [n.1], todo := r.2.todo.erase l })) (s, c)

/-- A chunk whose record has been written is over once its lines have gone. -/
def State.closeChunk (s : State) (c : Chunk) : State :=
  let r := s.sendChunk c
  if r.2.todo.isEmpty then r.1.dropChunk c else r.1.setChunk r.2

/-- The record of a chunk is posted to the host where it is asked for (R341, R343). -/
def State.postChunk (s : State) (c : Chunk) (bs : List Byte) : State :=
  let s := { s with collSeq := s.collSeq.set c.cid (s.collSeq.get c.cid 0 + 1) }
  if c.intr then s.hostRecord (coreCluster c.core) bs else s

/-- A chunk that has ended writes its record, and its command is performed (R167, R343): `far` says that its result was
written to storage of others. (log 62: DEDUCED, unsafe.) -/
def State.endChunk (s : State) (c : Chunk) (status : Nat) : State :=
  let rank := ((s.task? c.core c.task).getD {}).rank
  let perform := fun (s : State) (t : FarLines) (far : Bool) => match s.chunkCmd c with
    | some x => (s.dropChunk c).setSending c.core
        { x with st := .performed, todo := x.todo ++ t, wroteFar := x.wroteFar || far }
    | none => s.closeChunk { c with status := some status, recorded := true, todo := t }
  let bs := s.chunkRecord c status
  match c.record with
  | none => perform (if c.intr then s.postChunk c bs else s) [] false
  | some f =>
    match s.engPieces c.view f.1 f.2 (if hMode f.1.handle then 0 else hCidx f.1.handle) bs with
    | .error e => if c.cmd.isSome || e.waits then s.chunkStopped c (11 + 16 * 3) e else s.dropChunk c
    | .ok ps =>
      let r := (s.postChunk c bs).engWrites [ps]
      perform r.1 r.2 (f.1.far rank)

/-- The result of a chunk is written to its tile, or waits; one that is stopped has been written in an open part (R343,
R400). -/
def State.writeResult (s : State) (c : Chunk) (vals : List Nat) : State :=
  let c := { c with got := some vals }
  let plan := s.resultPlan c vals
  match firstStop plan with
  | none =>
    let o := s.chooseWrites plan
    let r := o.2.engWrites o.1
    let s := r.1.setChunk { c with got := none, todo := r.2, status := some 0 }
    match s.chunkCmd c with
    | some x => s.setCmd c.core { x with perm := x.perm + c.cost c.result, wroteFar := x.wroteFar || c.result.far ((s.task? c.core c.task).getD {}).rank }
    | none => s
  | some e =>
    if e.waits then (s.setChunk c).chunkStopped c 16 e
    else
      let o := s.chooseWrites plan
      let r := o.2.engWrites o.1
      match r.1.chunkCmd c with
      | some x =>
        let k := r.1.fresh
        let far := c.result.far ((s.task? c.core c.task).getD {}).rank && !o.1.isEmpty
        let x := { x with todo := x.todo ++ r.2, wroteFar := x.wroteFar || far, perm := x.perm + k.1 % (c.cost c.result + 1) }
        ((k.2.setSending c.core x).chunkStopped c 16 e)
      | none => r.1.chunkStopped { c with todo := r.2 } 16 e

/-- A chunk goes on: its waiting result is written, its lines are sent, and once its writes are acknowledged its record is
written; one whose command a fault has ended is over. -/
def State.settleChunk (s : State) (c : Chunk) : State :=
  let s := match c.got, c.status with
    | some vals, none => s.writeResult c vals
    | _, _ => s
  match s.chunks.find? c.same with
  | none => s
  | some c =>
    match c.status with
    | none => s
    | some st =>
      if c.cmd.isSome && ((s.chunkCmd c).map Cmd.ended).getD true then s.dropChunk c
      else if c.recorded then s.closeChunk c
      else
        let r := s.sendChunk c
        if r.2.writes.isEmpty && r.2.todo.isEmpty then r.1.endChunk r.2 st else r.1.setChunk r.2

/-- Every chunk that can go on does. -/
def State.settleChunks (s : State) : State := s.chunks.foldl State.settleChunk s

/-- A chunk ends with a status; no result is written any more. -/
def State.completeChunk (s : State) (c : Chunk) (status : Nat) : State :=
  (s.setChunk { c with status := some status, got := none }).settleChunks

/-- A result reaches a chunk (R338, R343). -/
def State.takeResult (s : State) (c : Chunk) (vals ranks : List Nat) : State :=
  (s.setChunk { c with ranks := ranks, got := some vals }).settleChunks

/-! ## Partials -/

/-- A partial goes to the next member against a credit, or is kept for one; each ring has 32 (R338). -/
def State.sendPartial (s : State) (p : Partial) : State :=
  let k := s.ringCredits.get p.ring 32
  if k = 0 then { s with partials := s.partials ++ [{ p with ready := true }] }
  else { s with ringCredits := s.ringCredits.set p.ring (k - 1), wire := s.wire ++ [(false, { p with ready := false })] }

/-- A result goes to the next member. -/
def State.sendResult (s : State) (p : Partial) : State := { s with wire := s.wire ++ [(true, { p with ready := false })] }

/-- The sequencer takes a partial that its upstream neighbour held a credit for, and gives the credit back (R338). -/
def State.creditBack (s : State) (ring : Nat) : State := { s with creditsBack := s.creditsBack.set ring (s.creditsBack.get ring 0 + 1) }

/-- A partial meets the contribution of a chunk (R338, R340). -/
def State.addPartial (s : State) (c : Chunk) (p : Partial) : State :=
  let e := s.entryFor c p
  let n := ringN e
  let last := decide (ringPos e = (c.index % n + n - 1) % n)
  let differs := decide (p.ring ≠ c.ring ∨ p.dtype ≠ c.dtype ∨ p.cop ≠ c.cop ∨ p.bytes ≠ c.bytes)
  if p.refused || differs then
    let q := { p with refused := true }
    let s := if last then s.sendResult q else s.sendPartial q
    s.completeChunk { c with ranks := p.ranks } 2
  else
    let q := { p with vals := List.zipWith (collStep c.dtype c.cop) p.vals c.vals, ranks := p.ranks ++ [s.rank] }
    let c := { c with ranks := q.ranks, progress := s.time }
    if last then (s.sendResult q).takeResult c q.vals q.ranks
    else (s.setChunk c).sendPartial q

/-- A kept partial of the collective and index meets the contribution, if there is one. -/
def State.takeKept (s : State) (c : Chunk) (p : Partial → Bool) : State :=
  match s.partials.find? fun q => decide (q.cid = c.cid ∧ q.index = c.index) && !q.ready && p q with
  | some q => (({ s with partials := s.partials.erase q } : State).creditBack q.ring).addPartial c q
  | none => s

/-- A chunk that has begun: at position s its contribution is the first partial; elsewhere a partial kept for it is
taken (R338). One that another ring has brought to position s meets it too (R340). -/
def State.beginChunk (s : State) (c : Chunk) : State :=
  let n := ringN c.entry
  let s := { s with chunks := s.chunks ++ [c] }
  if ringPos c.entry = c.index % n then
    let c' := { c with ranks := [s.rank] }
    let s := (s.setChunk c').sendPartial
      { ring := c.ring, cid := c.cid, index := c.index, dtype := c.dtype, cop := c.cop, bytes := c.bytes, vals := c.vals
        ranks := [s.rank], refused := false }
    s.takeKept c' fun p => decide (p.ring ≠ c.ring)
  else s.takeKept c fun _ => true

/-- A chunk reaches the sequencer (R337, R338, R342): a duplicate ends with status 3, a ring that is not valid with
status 4; else its contribution is read and it begins, or waits for a place that it may not read yet. -/
def State.startChunk (s : State) (c : Chunk) (far : FarAnswer) : State :=
  let e := s.rings.get c.ring 0
  let ended := fun st : Nat => { s with chunks := s.chunks ++ [{ c with started := false, status := some st }] }.settleChunks
  if (s.chunkOfId c.cid c.index).isSome then ended 3
  else if !ringValid e then ended 4
  else match s.readChunk c far with
    | .error f => ({ s with chunks := s.chunks ++ [c] }.chunkStopped c 0 f).settleChunks
    | .ok vals => ((s.chunkServed c).farGiven (coreDie c.core) (c.cmd.getD c.id)).beginChunk
        { c with started := true, entry := e, members := s.membersOf c.ring e, vals := vals, progress := s.time }

/-- The chunk of a `tcol` (R294). -/
def State.cmdChunk (s : State) (core : Nat) (x : Cmd) : Chunk :=
  let o := x.ops.headD {}
  let dtype := blkBits x.words 1 23 20
  let ext := (blkExts x.words).take (layoutOf o.layout).ndims
  { id := s.nextId, cid := blkBits x.words 1 15 0, index := blkBits x.words 1 63 32, ring := blkBits x.words 1 31 24, dtype := dtype
    cop := blkBits x.words 1 19 16, bytes := ext.foldl (· * ·) 1 * collBytes dtype, core := core, task := x.task, cmd := some x.id
    ctx := ((s.task? core x.task).getD {}).ctx, sup := x.sup, contrib := o, result := x.ops.getD 1 {}, ext := ext, record := x.flag }

/-- CHUNK_START: the chunk of the next collective command of a core, or the first chunk of a number fired at a task's end
that still waits at the sequencer. -/
def State.chunkStart (s : State) (core : Nat) (how : ChunkFrom) (cid index : Nat) : State :=
  let s := s.settleChunks
  if how.bound then
    match s.chunks.find? fun c => decide (c.cid = cid ∧ c.index = index ∧ c.cmd = none) && !c.started && c.status.isNone with
    | some c =>
      let s := s.readError c.core [c.contrib] none how.err fun s => match s.readChunk c how.far with | .error e => some e | .ok _ => none
      ({ s with chunks := s.chunks.erase c } : State).startChunk c how.far
    | none => s
  else
    match ((s.core core).queue 3).find? fun x => !x.ended && decide (x.st = .queued) with
    | some x =>
      if x.gen.isSome || !s.cmdReady x then s
      else
        let c := s.cmdChunk core x
        let s := s.newId.2.engError core x how.err fun s => match s.readChunk c how.far with | .error e => some e | .ok _ => none
        match s.readChunk c how.far, ringValid (s.rings.get c.ring 0), (s.chunkOfId c.cid c.index).isSome with
        | .error e, true, false =>
          let k := s.fresh
          k.2.engStopped core (if e.waits then x else { x with perm := k.1 % (c.cost c.contrib + 1) }) 0 e
        | .ok _, true, false => (s.setCmd core { x with st := .running, perm := c.cost c.contrib }).startChunk c how.far
        | _, _, _ => (s.setCmd core { x with st := .running }).startChunk c how.far
    | none => s

/-- PARTIAL_ARRIVAL: a partial from the previous member is added to, or kept until the contribution is ready, for which the
ring has 32 places; one for a chunk that has its contribution already is a rerun's, and is kept for it (R342); a neighbour without a credit sends none (R338). -/
def State.partialArrival (s : State) (p : Partial) : State :=
  let keep : State :=
    if (s.partials.filter fun q => decide (q.ring = p.ring) && !q.ready).length < 32 then { s with partials := s.partials ++ [p] } else s
  match s.chunkOfId p.cid p.index with
  | some c => if c.status.isSome || (decide (p.ring = c.ring) && c.ranks.contains s.rank) then keep else (s.creditBack p.ring).addPartial c p
  | none => keep

/-- RESULT_ARRIVAL: the member takes the result, or its refusal, and forwards it unless the next member has it
(R338, R340). -/
def State.resultArrival (s : State) (p : Partial) : State :=
  match s.chunkOfId p.cid p.index with
  | none => s
  | some c =>
    if c.status.isSome || c.got.isSome then s
    else
      let e := s.entryFor c p
      let n := ringN e
      let s := if ringPos e = (p.index % n + n - 2) % n then s else s.sendResult p
      if p.refused then s.completeChunk { c with ranks := p.ranks } 2 else s.takeResult c p.vals p.ranks

/-- PARTIAL_CREDIT_RETURN: a credit comes back, and a partial that waits for one is sent. -/
def State.partialCredit (s : State) (ring : Nat) : State :=
  let k := min 32 (s.ringCredits.get ring 32 + 1)
  let s := { s with ringCredits := s.ringCredits.set ring k }
  match s.partials.find? fun p => decide (p.ring = ring) && p.ready with
  | some p => { s with partials := s.partials.erase p }.sendPartial p
  | none => s

/-- Whether a destination's route state is lost (R325). -/
def State.isLost (s : State) (dest : Nat) : Bool := decide ((s.routes.get dest 0).toNat / 2 ^ 14 = 2)

/-- CHUNK_PEER_LOST_TIMEOUT (R335, R343): a chunk in flight ends with status 1 because a member of its ring is lost: at once
where this module has it so, and 2 ms after the chunk's last progress where another member has declared it lost. A chunk whose
members are all there waits without a time-out (R424). (log 119: DEDUCED, safe.) -/
def State.chunkLost (s : State) (cid index member : Nat) : State :=
  match s.chunkOfId cid index with
  | some c =>
    let due := s.isLost member || decide (c.progress + 2 * msTicks ≤ s.time)
    if c.status.isSome || !(c.members.contains member && decide (member ≠ s.rank) && due) then s else s.completeChunk c 1
  | none => s

/-- Every chunk in flight on a ring with a lost member ends (R343, R335). -/
def State.chunksLost (s : State) (dest : Nat) : State :=
  (s.chunks.filter fun c => c.started && c.status.isNone && c.members.contains dest).foldl (fun s c => s.completeChunk c 1) s

end Sys2Proof.Machine
end

