-- ==== Sys2Proof/Machine/Resize.lean ====
section
/-! DEFINITION. Die scratch changing its size (R146). -/

namespace Sys2Proof.Machine

/-- The threads of a die at a `cresize`, in order of core, course and slot, with the ways each asks for. -/
def State.resizers (s : State) (d : Nat) : List (Nat × Nat × Nat × Nat × Nat) :=
  (s.cores.filter fun k => decide (coreDie k.1 = d)).flatMap fun k => k.2.courses.flatMap fun c =>
    (List.range c.2.threads.length).filterMap fun i =>
      match (c.2.thread i).wait with
      | .cresize w len => if (c.2.thread i).live then some (k.1, c.1, i, w, len) else none
      | _ => none

/-- The next `cresize` of a die begins; those to the current value complete at once with no effect. -/
def State.startResize (s : State) (d : Nat) : State :=
  go s (s.resizers d)
where
  /-- The threads that wait, in order. -/
  go (s : State) : List (Nat × Nat × Nat × Nat × Nat) → State
    | [] => s
    | (k, n, i, w, len) :: r =>
      if (s.die d).resize.isSome then s
      else if w = (s.die d).ways then go (s.modCourse k n fun c => c.endWait s.now i len) r
      else s.modDie d fun x => { x with resize := some w }

/-- The HBM lines of a die in its ways from a number up are written back and leave their slices. -/
def State.dropWays (s : State) (d from_ : Nat) : State :=
  (s.lines.filter fun l => decide (l.die = d ∧ l.line < 2 ^ 30 ∧ from_ ≤ l.way)).foldl State.evictLine s

/-- The die scratch lines of a die from a count of ways up leave their slices. -/
def State.dropScratch (s : State) (d ways : Nat) : State :=
  (s.lines.filter fun l => decide (l.die = d ∧ 2 ^ 30 + ways * 0x20000 ≤ l.line)).foldl State.evictLine s

/-- CRESIZE_COMPLETE (R146): the write-backs and the zeroing are done, the new size holds, the instruction completes. -/
def State.cresizeDone (s : State) (d : Nat) : State :=
  match (s.die d).resize with
  | none => s
  | some w' =>
    let w := (s.die d).ways
    let s := if w < w' then s.dropWays d (16 - w') else s
    let s := s.dropScratch d (min w w')
    let lo := 2 ^ 40 + d * 2 ^ 30 + min w w' * 0x2000000
    let hi := 2 ^ 40 + d * 2 ^ 30 + max w w' * 0x2000000
    let s := { s with mem := s.mem.filter fun c => decide (c.1 < lo ∨ hi ≤ c.1) }
    let s := s.modDie d fun x => { x with ways := w', resize := none }
    let wake := fun c : Course => if c.susp = some (.ways d) then { c with susp := none } else c
    let s : State := { s with cores := s.cores.map fun k => (k.1, { k.2 with courses := k.2.courses.map fun c => (c.1, wake c.2) }) }
    match (s.resizers d).find? fun r => decide (r.2.2.2.1 = w') with
    | some (k, n, i, _, len) => (s.modCourse k n fun c => c.endWait s.now i len).startResize d
    | none => s.startResize d

/-- An access of the host or of another module to what a `cresize` in progress changes comes after it (R146). (log 77: DEDUCED, unsafe.) -/
def State.settleResize (s : State) (x : Loc) : State := if s.resizeWaits x then s.cresizeDone x.dieOf else s

end Sys2Proof.Machine
end

