-- ==== Sys2Proof/Machine/Launch.lean ====
section
/-! DEFINITION. Launch records and their checks (R62 to R67, R341), the ready pools (R70, R75), node and graph ends
(R78, R79), and the task-event instructions (R244). -/

namespace Sys2Proof.Machine

/-! ## Reading a launch (R66) -/

/-- A `gl` range as an operand, for reads and writes that a unit makes at virtual addresses. -/
def glAt (va : Nat) : Operand := { handle := BitVec.ofNat 128 (va + 2 ^ 64 * (2 ^ 40 - 1) + 2 ^ 116 * 3 + 2 ^ 124 * 4) }

/-- Bytes at a virtual address; `none` where they cannot be read. Those of another destination are free values, which go
by their addresses, so that one check reads the same bytes alike. (log 131: DESIGN CHOICE, safe.) -/
def State.glBytes (s : State) (v : EngView) (va n : Nat) : Option (List Byte) :=
  if va < 2 ^ 64 then
    (match (s.freeFrom va).engRead v (glAt va) 0 n 0 with | .ok bs => some bs | .error _ => none)
  else none

/-- The `cresize`s in progress come before an access that a unit makes beside the lanes (R146). (log 77: DEDUCED, unsafe.) -/
def State.resizesFirst (s : State) : State :=
  [0, 1, 2, 3].foldl (fun s d => (List.range ((s.resizers d).length + 1)).foldl (fun s _ => s.cresizeDone d) s) s

/-- Words of a record. -/
def wordsIn (bs : List Byte) : List Nat := (List.range (bs.length / 8)).map fun k => recNat bs (8 * k) 8

/-- The code of a failed test. -/
def refuse (bad : Bool) (code : Nat) : List Nat := if bad then [code] else []

/-- The head of a launch record (R62). -/
structure LaunchHead where
  ver : Nat
  nodes : Nat
  dies : Nat
  taskrec : Bool
  noderec : Bool
  ntab : Nat
  ctxa : Nat
  ctxs : Nat
  gflag : Nat
  cbind : Nat
  deriving DecidableEq, Repr

/-- The size of the context slot that a node asks for (R83). -/
def slotOf (n : Node) : Nat := 256 + 3072 + n.courses * 16896 + (n.spG + n.accG) * 16384 + n.accG / 4 * 1024 + 65536

/-- The handles or layouts of an image, in ascending number. -/
def imageItems (mask count size : Nat) (bs : List Byte) : List (Nat × Nat) :=
  (maskSlots mask count).zipIdx.map fun p => (p.1, recNat bs (size * p.2) size)

/-- A node's entry-state image (R64): its handles and layouts, and the codes it fails with. Reserved bits read as `hset`
and `mapput` would write them. -/
def State.readImage (s : State) (v : EngView) (entry init : Nat) : List (Nat × BitVec 128) × List (Nat × BitVec 640) × List Nat :=
  if init = 0 then ([], [], [])
  else
    let at_ := entry / 64 * 64
    if at_ < 64 * init then ([], [], [0x0A])
    else match s.glBytes v (at_ - 64 * init) 64 with
      | none => ([], [], [0x0A])
      | some hd =>
        let hm := recNat hd 0 2
        let lm := recNat hd 2 4
        let nh := (maskSlots hm 16).length
        let zero := refuse (recNat hd 6 58 ≠ 0) 0x0B
        match s.glBytes v (at_ - 64 * init + 64) (16 * nh + 80 * (maskSlots lm 32).length) with
        | none => ([], [], 0x0A :: zero)
        | some bs =>
          ((imageItems hm 16 16 bs).map fun p => (p.1, BitVec.ofNat 128 p.2 &&& ~~~(0xFFF#128 <<< 104)),
           (imageItems lm 32 80 (bs.drop (16 * nh))).map fun p =>
            (p.1, (List.range 10).foldl (fun m w => putWord m w (imageWord (BitVec.ofNat 640 p.2) w)) 0), zero)

/-- The codes that a collective binding entry fails with (R341). -/
def bindCodes (w : List Nat) : List Nat :=
  let b := w.getD 0 0
  refuse (decide (3 < b / 2 ^ 28 % 16 ∨ 2 < b / 2 ^ 24 % 16 ∨ b / 2 ^ 34 % 2 ^ 14 ≠ 0) ||
    (reservedAt w 2 0x7FF1F01FF).isSome || decide (w.getD 5 0 ≠ 0)) 0x0B

/-- One node of the table, the binding entry it names, and the codes it fails with. -/
def State.readNode (s : State) (v : EngView) (task : Bool) (h : LaunchHead) (i : Nat) : Node × Option (Nat × Binding) × List Nat :=
  match s.glBytes v (h.ntab + 64 * i) 64 with
  | none => ({}, none, [0x0A])
  | some bs =>
    let w := wordsIn bs
    let f := fun k lo n => w.getD k 0 / 2 ^ lo % 2 ^ n
    let ctl := decide (f 2 48 1 = 1)
    let courses := f 1 48 6
    let want := if ctl then 1 else (courses + 1) / 2
    let img := s.readImage v (f 0 0 64) (f 4 16 48)
    let nsucc := f 4 0 16
    let succ := if nsucc = 0 then some [] else if f 5 0 64 % 8 ≠ 0 then none else s.glBytes v (f 5 0 64) (2 * nsucc)
    let list := (List.range nsucc).map fun j => recNat (succ.getD []) (2 * j) 2
    let cbix := f 7 0 16
    let bad := decide (cbix ≠ 0xFFFF ∧ (h.cbind = 0 ∨ h.ver < 3))
    let entry := if cbix = 0xFFFF ∨ bad = true then some [] else (s.glBytes v (h.cbind + 64 * cbix) 64).map wordsIn
    let n : Node :=
      { entry := BitVec.ofNat 64 (f 0 0 64), prio := f 1 62 2, width := f 1 60 2, gang := f 1 54 6, courses := courses
        gx := f 1 0 16, gy := f 1 16 16, gz := f 1 32 16, ctl := ctl, deps := f 2 32 16, regG := want, spG := f 2 8 8, accG := f 2 16 8
        param := BitVec.ofNat 64 (f 3 0 64), succ := list, pvsz := f 6 0 32, cbix := cbix, handles := img.1, layouts := img.2.1
        left := f 1 0 16 * f 1 16 16 * f 1 32 16 }
    (n, if cbix = 0xFFFF then none else some (cbix, { words := (entry.getD []).map (BitVec.ofNat 64) }),
      refuse (decide (n.width = 3 ∨ (n.width = 2 ∧ courses % 2 = 1))) 3 ++
      refuse (decide (courses = 0 ∨ (if ctl then 16 else 32) < courses)) 4 ++
      refuse (decide ((f 2 0 8 ≠ 0 ∧ f 2 0 8 ≠ want) ∨ n.accG % 4 ≠ 0 ∨ (ctl = true ∧ n.accG ≠ 0) ∨
        (if ctl then 16 else 128) < want + n.spG + n.accG)) 5 ++
      refuse (decide (n.gang = 0 ∨ 32 < n.gang ∨ n.left % n.gang ≠ 0 ∨ (ctl = true ∧ 1 < n.gang))) 6 ++
      refuse (decide (n.left = 0)) 7 ++ refuse (list.any fun j => decide (h.nodes ≤ j)) 8 ++
      refuse (decide (h.ctxs ≠ 0 ∧ h.ctxs < (slotOf n + 4095) / 4096 * 4096)) 9 ++ refuse succ.isNone 0x0A ++ refuse entry.isNone 0x0A ++
      refuse (decide (f 0 0 1 = 1 ∨ f 2 49 15 ≠ 0 ∨ f 2 24 8 ≠ 0 ∨ f 6 32 32 ≠ 0 ∨ f 7 16 48 ≠ 0 ∨ n.pvsz % 16 ≠ 0) || bad ||
        (ctl && task)) 0x0B ++ bindCodes ((entry.getD [])) ++ img.2.2)

/-- The record's head, or the codes with which the launch is refused at once; the codes it fails with otherwise. (log 80: DEDUCED, unsafe.) -/
def State.readHead (s : State) (v : EngView) (va align : Nat) : Except Nat (LaunchHead × List Nat) :=
  if va % align ≠ 0 then .error 0x0A
  else match s.glBytes v va 64 with
    | none => .error 0x0A
    | some bs =>
      let w := wordsIn bs
      let h := w.getD 0 0
      let size := h / 256 % 256
      let ign := h / 2 ^ 32 % 65536
      let ver := h % 256
      let ext := s.glBytes v (va + 64) (16 * (size - 4))
      let unknown : Nat → Bool := fun u => decide (recNat (ext.getD []) (16 * u) 16 ≠ 0) && !(decide (u + 4 < 16) && ign.testBit (u + 4))
      let bad : Bool := decide (h / 2 ^ 56 ≠ 8 ∨ ver = 0 ∨ 3 < ver ∨ size < 4 ∨ h / 2 ^ 48 % 256 ≠ 0 ∨ h / 2 ^ 16 % 65536 ≠ 0 ∨ ign % 16 ≠ 0)
      if bad || (List.range (size - 4)).any unknown then .error 1
      else
        let w1 := w.getD 1 0
        let x : LaunchHead :=
          { ver := ver, nodes := w1 % 65536, dies := w1 / 65536 % 16, taskrec := w1.testBit 21, noderec := w1.testBit 20
            ntab := w.getD 2 0, ctxa := w.getD 3 0, ctxs := w.getD 4 0, gflag := w.getD 5 0, cbind := w.getD 6 0 }
        if x.nodes = 0 ∨ 4096 < x.nodes ∨ x.dies = 0 then .error 2
        else .ok (x,
          refuse (decide (w1 / 2 ^ 22 ≠ 0 ∨ w.getD 7 0 ≠ 0 ∨ (ver < 3 ∧ x.cbind ≠ 0))) 0x0B ++ refuse ext.isNone 0x0A ++
          refuse (decide (x.ctxa % 4096 ≠ 0 ∨ x.gflag % 8 ≠ 0 ∨ x.cbind % 64 ≠ 0 ∨ x.ntab % 64 ≠ 0)) 0x0A)

/-- LAUNCH_CHECK (R66): the graph of a launch, or the lowest code of the checks that fail. `task` says whether a `tspawn`
executed in task mode submits it. -/
def State.checkLaunch (s : State) (v : EngView) (task : Bool) (va align : Nat) : Except Nat Graph :=
  match s.readHead v va align with
  | .error c => .error c
  | .ok (h, codes) =>
    let ns := if h.ntab % 64 = 0 then (List.range h.nodes).map (s.readNode v task h) else []
    match (codes ++ ns.flatMap fun n => n.2.2).min? with
    | some c => .error c
    | none =>
      let slot := (ns.foldl (fun m n => max m (slotOf n.1)) 0 + 4095) / 4096 * 4096
      .ok { ctx := v.ctx, dies := h.dies, taskrec := h.taskrec, noderec := h.noderec, gflag := BitVec.ofNat 64 h.gflag
            ctxa := BitVec.ofNat 64 h.ctxa, ctxs := h.ctxs, slotSize := slot, nodes := ns.map Prod.fst
            binds := ns.foldl (fun t n => match n.2.1 with | some b => t.set b.1 b.2 | none => t) [] }

/-! ## Graphs and ready pools (R70, R75, R76) -/

def State.graph? (s : State) (d seq : Nat) : Option Graph := (s.die d).graphs.find? fun g => decide (g.seq = seq)
def State.modGraph (s : State) (d seq : Nat) (f : Graph → Graph) : State :=
  s.modDie d fun x => { x with graphs := x.graphs.map fun g => if g.seq = seq then f g else g }
def State.modNode (s : State) (d seq n : Nat) (f : Node → Node) : State :=
  s.modGraph d seq fun g => { g with nodes := g.nodes.modify n f }
def State.node? (s : State) (d seq n : Nat) : Option Node := (s.graph? d seq).bind fun g => g.nodes[n]?

/-- The gangs of a node that its dealing gives to the die at a position of the mask, and the tasks of one of them. -/
def gangCount (n : Node) : Nat := n.gx * n.gy * n.gz / max 1 n.gang
def gangTasks (d seq node : Nat) (n : Node) (k : Nat) : List TaskRef :=
  (List.range n.gang).map fun i => { die := d, graph := seq, node := node, index := k * n.gang + i }

/-- The dies of a mask, in order. -/
def dieList (mask : Nat) : List Nat := maskSlots mask 4

/-- The next gang of a node for a die's pool, if one is left. -/
def Node.nextGang (n : Node) (mask die : Nat) : Option Nat :=
  let ds := dieList mask
  if ds.contains die ∧ n.readyAt.isSome then
    let k := ds.idxOf die + ds.length * n.placed.get die 0
    if k < gangCount n then some k else none
  else none

/-- Ready nodes with gangs left for a die, in the order they became ready. -/
def State.readyNodes (s : State) (die : Nat) : List (Nat × Nat × Nat) :=
  let all := s.dies.flatMap fun d => d.2.graphs.flatMap fun g => g.nodes.zipIdx.filterMap fun n =>
    if (n.1.nextGang g.dies die).isSome then n.1.readyAt.map fun r => (r, d.1, g.seq, n.2) else none
  (sortBy (fun a b => decide (a.1 ≤ b.1)) all).map Prod.snd

/-- One node's next gang enters the die's pool, if its queue has room for the whole gang. -/
def State.placeGang (s : State) (die : Nat) (r : Nat × Nat × Nat) : Option State :=
  match s.graph? r.1 r.2.1, s.node? r.1 r.2.1 r.2.2 with
  | some g, some n =>
    match n.nextGang g.dies die with
    | none => none
    | some k =>
      let x := s.die die
      let q := 2 * n.prio + 1
      let qs := x.pool.toList.zip x.poolCtl.toList |>.map fun p => (p.1.length, p.2)
      if queueRoom 4096 qs q < n.gang then none
      else
        let s := s.modDie die fun x =>
          { x with pool := if h : q < 8 then x.pool.set q (x.pool.toList.getD q [] ++ gangTasks r.1 r.2.1 r.2.2 n k) else x.pool }
        some (s.modNode r.1 r.2.1 r.2.2 fun n => { n with placed := n.placed.set die (n.placed.get die 0 + 1) })
  | _, _ => none

/-- When a task's node became ready (R70). -/
def State.readyOf (s : State) (r : TaskRef) : Nat := ((s.node? r.die r.graph r.node).bind Node.readyAt).getD 0

/-- A vacated task enters the die's pool at its node's place in the order of readiness (R70). -/
def State.insertResumed (s : State) (die prio : Nat) (r : TaskRef) : State :=
  s.modDie die fun x =>
    let q := x.pool.toList.getD (2 * prio) []
    let k := s.readyOf r
    let at_ := fun y : TaskRef => decide (s.readyOf y ≤ k)
    { x with pool := if h : 2 * prio < 8 then x.pool.set (2 * prio) (q.filter at_ ++ [r] ++ q.filter fun y => !at_ y) else x.pool }

/-- The vacated tasks that wait for the pool of a die: their nodes, in the order of readiness. -/
def State.resumedNodes (s : State) (die : Nat) : List (Nat × Nat × Nat) :=
  let all := s.dies.flatMap fun d => d.2.graphs.flatMap fun g => g.nodes.zipIdx.filterMap fun n =>
    if n.1.resumed.any fun r => decide (r.1 = die) then some (n.1.readyAt.getD 0, d.1, g.seq, n.2) else none
  (sortBy (fun a b => decide (a.1 ≤ b.1)) all).map Prod.snd

/-- The first gang of a node that waits for the die's pool enters it, if its queue has room for the whole gang. -/
def State.placeResumed (s : State) (die : Nat) (r : Nat × Nat × Nat) : Option State :=
  match s.node? r.1 r.2.1 r.2.2 with
  | none => none
  | some n =>
    let ms := (n.resumed.filter fun x => decide (x.1 = die)).take (max 1 n.gang)
    let x := s.die die
    let qs := x.pool.toList.zip x.poolCtl.toList |>.map fun p => (p.1.length, p.2)
    if ms.isEmpty || decide (queueRoom 4096 qs (2 * n.prio) < ms.length) then none
    else
      let s := s.modNode r.1 r.2.1 r.2.2 fun n => { n with resumed := n.resumed.filter fun x => !ms.contains x }
      some (ms.foldl (fun s m => s.insertResumed die n.prio m.2) s)

/-- The nodes that come first at their priority: no later one of it is served before them (R70). -/
def State.firstOfPrio (s : State) (l : List (Nat × Nat × Nat)) : List (Nat × Nat × Nat) :=
  let prio := fun r : Nat × Nat × Nat => ((s.node? r.1 r.2.1 r.2.2).map Node.prio).getD 0
  [3, 2, 1, 0].filterMap fun p => l.find? fun r => decide (prio r = p)

/-- A die's pool fills from the vacated tasks that wait for it and from the ready nodes; `fuel` bounds the gangs placed. -/
def State.refill (s : State) (die : Nat) : Nat → State
  | 0 => s
  | fuel + 1 =>
    match ((s.firstOfPrio (s.resumedNodes die)).findSome? (s.placeResumed die)).or
        ((s.firstOfPrio (s.readyNodes die)).findSome? (s.placeGang die)) with
    | some s' => s'.refill die fuel
    | none => s

/-- NODE_READY (R70): a node whose dependence count is 0 is dealt to the dies of its launch. -/
def State.nodeReady (s : State) (d seq n : Nat) : State :=
  let k := s.newId
  let s := k.2.modNode d seq n fun x => { x with readyAt := some k.1 }
  [0, 1, 2, 3].foldl (fun s die => s.refill die 4096) s

/-- Every node whose count is 0 and that is not yet ready becomes ready, in index order. -/
def State.startReady (s : State) (d seq : Nat) : State :=
  match s.graph? d seq with
  | none => s
  | some g =>
    g.nodes.zipIdx.foldl (fun s n => if n.1.deps = 0 ∧ n.1.readyAt.isNone then s.nodeReady d seq n.2 else s) s

/-- The ranges that a check of a launch reads: the record, its table, lists and images (R62 to R64, R341). -/
def State.launchRanges (s : State) (v : EngView) (va : Nat) (g : Graph) : List (Nat × Nat) :=
  let w := fun a k : Nat => recNat ((s.glBytes v a 64).getD []) (8 * k) 8
  let ntab := w va 2
  [(va, 16 * (w va 0 / 256 % 256)), (ntab, 64 * g.nodes.length)] ++
  (List.range g.nodes.length).flatMap fun i =>
    let n := ntab + 64 * i
    let init := w n 4 / 2 ^ 16
    (if w n 4 % 2 ^ 16 = 0 then [] else [(w n 5, 2 * (w n 4 % 2 ^ 16))]) ++
    (if init = 0 then []
     else
      let at_ := w n 0 / 64 * 64 - 64 * init
      let m := w at_ 0
      [(at_, 64 + 16 * (maskSlots (m % 2 ^ 16) 16).length + 80 * (maskSlots (m / 2 ^ 16 % 2 ^ 32) 32).length)]) ++
    (if w n 7 % 2 ^ 16 = 0xFFFF then [] else [(w va 6 + 64 * (w n 7 % 2 ^ 16), 64)])

/-- A launch submitted to a die: its sequence number, or its refusal (R62, R66). The sectors it reads are served by their
slices (R142). -/
def State.submit (s : State) (d : Nat) (v : EngView) (task : Bool) (va align : Nat) : Except Nat Nat × State :=
  let s := s.resizesFirst
  match s.checkLaunch v task va align with
  | .error c => (.error c, s.pastFar)
  | .ok g =>
    let s := ((s.launchRanges v va g).foldl (fun s r => s.engServed v (glAt r.1) 0 r.2 0) s).pastFar
    let seq := (s.die d).nextLaunch
    let s := s.modDie d fun x => { x with nextLaunch := (seq + 1) % 2 ^ 32, graphs := x.graphs ++ [{ g with seq := seq, die := d }] }
    (.ok seq, s.startReady d seq)

/-! ## Releases (R78, R79) -/

/-- A release error of R79, recorded at the cluster that R80 names. -/
def State.releaseError (s : State) (d seq node code : Nat) : State :=
  s.postEvent (4 * d) (s.event seq node code 0x04 d 0xFF 0 0)

/-- One decrement of a node's dependence count: a count that reaches 0 makes the node ready, one that would fall below 0
is ignored and, where `report`, recorded. -/
def State.decrement (s : State) (d seq n : Nat) (report : Bool) : State :=
  match s.node? d seq n with
  | none => s
  | some x =>
    if x.deps ≤ 0 then (if report then s.releaseError d seq n 0x81 else s)
    else
      let s := s.modNode d seq n fun y => { y with deps := y.deps - 1 }
      if x.deps = 1 then s.nodeReady d seq n else s

/-- A release of one node by the host or by `tsig`, received by a die (R79). Launch numbers count from 1 on each die; a
graph is looked for on the receiving die, then on dies 0 to 3, and one that has ended is still known. (log 126: DESIGN CHOICE, unsafe.) -/
def State.releaseNode (s : State) (d seq n : Nat) : State :=
  match ([d, 0, 1, 2, 3].find? fun e => (s.graph? e seq).isSome) with
  | none => s.releaseError d seq n 0x82
  | some e => if (s.node? e seq n).isSome then s.decrement e seq n true else s.releaseError e seq n 0x82

/-- A release store at scope `pod` by a unit of a die, in supervisor mode: of a flag or record. One that cannot be made
is dropped. (log 81: DEDUCED, unsafe.) -/
def State.unitStore (s : State) (core ctx va : Nat) (bs : List Byte) : State :=
  let s := s.resizesFirst
  match s.engPieces { core := core, ctx := ctx, sup := true } (glAt va) 0 0 bs with
  | .error _ => s
  | .ok ps =>
    let r := s.engWrites [ps]
    r.2.foldl (fun s l =>
      (s.raiseO (coreDie core) l.1).sendWrite
        { die := coreDie core, dest := l.1, seq := 0, pred := none, line := l.2.1, accs := [], bytes := l.2.2 }) r.1

/-- GRAPH_END (R78). -/
def State.graphEnd (s : State) (d seq : Nat) : State :=
  match s.graph? d seq with
  | none => s
  | some g =>
    if g.ended || !g.nodes.all Node.ended then s
    else
      let s := s.modGraph d seq fun g => { g with ended := true }
      let s := if g.gflag = 0 then s else s.unitStore (132 * d + 128) g.ctx g.gflag.toNat (leBytes 8 seq)
      s.postEvent (4 * d) (s.event seq 0xFFFF 0 0x03 d 0xFF 0 0)

/-- NODE_END (R78, R79): the successors are released by the hardware, or the end goes to the host. -/
def State.nodeEnd (s : State) (d seq n : Nat) : State :=
  match s.graph? d seq, s.node? d seq n with
  | some g, some x =>
    let s := s.modNode d seq n fun y => { y with ended := true }
    let e := s.event seq n 0 0x02 d 0xFF 0 0
    let s := if g.noderec then s.postEvent (4 * d) e else s
    let s := if (s.die d).duty.getLsbD 0 then s.hostEvent e else x.succ.foldl (fun s j => s.decrement d seq j false) s
    s.graphEnd d seq
  | _, _ => s

/-- A task of a node has ended (R78). -/
def State.taskCounted (s : State) (r : TaskRef) : State :=
  let s := s.modNode r.die r.graph r.node fun x => { x with left := x.left - 1 }
  match s.node? r.die r.graph r.node with
  | some x => if x.left = 0 ∧ !x.ended then s.nodeEnd r.die r.graph r.node else s
  | none => s

/-! ## Task-event instructions (R244) -/

/-- The release of a task-event function: none left to wait for, or the state with what it waits for asked for. -/
def State.releaseWait (s : State) (core course scope : Nat) : Option State :=
  let ws := s.fenceAwaits core course .rel scope
  if s.allVisible ws then none else some (if scope = 7 then s.dueFor core (ws.map Await.id) else s)

/-- The driver of the task-event functions: each thread whose guard is true performs `f` in ascending slot order. -/
def State.eachThread (s : State) (l : LaneI) (chk : Grp → Option Cause) (scope : Option Nat) (f : Grp → State → Nat → State) : Outcome :=
  s.withGroup fun G =>
    match (G.check l).or (chk G) with
    | some c => s.trapNow G c
    | none =>
      let act := G.active l
      let wait := if act.isEmpty then none else scope.bind fun k => s.releaseWait G.g.core G.g.course k
      match wait with
      | some s' => s'.holdAt G
      | none =>
        let s' := act.foldl (f G) s
        s'.finish G l ((s'.course? G.g.core G.g.course).getD G.cs)

/-- `tspawn` (R244); whether another destination refuses the reads of its check is open (R66, R439; log 131). (log 82: DEDUCED, unsafe.) -/
def opTspawn (len : Nat) (x : E64) (s : State) : Outcome :=
  let l := laneE len x [extA x]
  s.eachThread l noCheck (some 7) fun G s i =>
    let t := G.cs.thread i
    let d := coreDie G.g.core
    let n := s.fresh
    let r := n.2.submit d { core := G.g.core, ctx := G.tk.ctx, sup := t.sup, far := if n.1 % 2 = 1 then .refused else .given } (!t.sup) (G.read l i (extA x)).toNat 64
    let v : Word := match r.1 with
      | .ok seq => BitVec.ofNat 64 seq
      | .error c => BitVec.ofNat 64 (0xFFFFFFFF00000000 + c)
    r.2.modCourse G.g.core G.g.course fun c => G.writeNow (extD x) i v c

/-- `tsig` (R244). -/
def opTsig (len : Nat) (x : E64) (s : State) : Outcome :=
  let l := laneE len x [extA x] false true
  s.eachThread l noCheck none fun G s i =>
    let a := (G.read l i (extA x)).toNat
    s.releaseNode (coreDie G.g.core) (a / 2 ^ 32) (a % 2 ^ 16)

/-- `evpost` (R244): the record's place is checked, then its type in task mode; a full queue and ring hold it. -/
def opEvpost (len : Nat) (x : E64) (s : State) : Outcome :=
  let l := laneE len x [extA x]
  s.withGroup fun G =>
    match G.check l with
    | some c => s.trapNow G c
    | none =>
      let core := G.g.core
      let eas := (G.active l).map fun i => (i, G.read l i (extA x))
      match s.recordCheck G 32 8 false eas with
      | .trap c => s.trapNow G c
      | .wait w => s.waitPage G w
      | .ok _ =>
        let recs := eas.map fun e => (e.1, s.spBytes core G.tk e.2.toNat 32)
        if eas.any fun e => s.recordBusy core G.g.course G.tk e.2.toNat 32 then s.holdAt G
        else match recs.find? fun r => !(G.cs.thread r.1).sup && decide (recNat r.2 0 1 < 0x80) with
          | some r => s.trapNow G (G.fault 0x11 6 r.1 0)
          | none =>
            match (if eas.isEmpty then none else s.releaseWait core G.g.course 4) with
            | some s' => s'.holdAt G
            | none =>
              let cl := coreCluster core
              let word := fun bs k => BitVec.ofNat 64 (recNat bs (8 * k) 8)
              let one := fun (r : Option State) (e : Nat × List Byte) => r.bind fun s =>
                if (s.cluster cl).evWait.isEmpty then s.takeEvent cl ⟨word e.2 0, word e.2 1, word e.2 2, word e.2 3⟩ else none
              match recs.foldl one (some s) with
              | none => s.holdAt G
              | some s' => s'.finish G l G.cs

/-- One read of the event queue by a core (R244): the record is acquired, so that what its writer released before it, as a trap
frame, is seen (R384, R435). (log 153: DEDUCED, safe.) -/
def State.readEvent (s : State) (core : Nat) : Word × State :=
  let cl := coreCluster core
  match (s.cluster cl).events with
  | [] => (0, s)
  | e :: r =>
    let w := (s.core core).evCursor
    let s := s.invalLane core
    let v := if w = 0 then e.w0 else if w = 1 then e.w1 else if w = 2 then e.w2 else e.w3
    if w = 3 then
      (v, ((s.modCluster cl fun c => { c with events := r }).modCore core fun k => { k with evCursor := 0 }).drainEvents cl)
    else (v, s.modCore core fun k => { k with evCursor := w + 1 })

/-- `evget` (R244). -/
def opEvget (len : Nat) (x : E64) (s : State) : Outcome :=
  let l := laneE len x [] false true
  s.eachThread l noCheck none fun G s i =>
    let r := s.readEvent G.g.core
    r.2.modCourse G.g.core G.g.course fun c => G.deliver l 4 (extD x) i r.1 c

/-- `tspawn`, 32-bit form (R244, R185). -/
def execTspawn (x : D1) (s : State) : Outcome := opTspawn 4 (extD1 x) s
/-- `tspawn` (R244). -/
def execTspawnL (x : E64) (s : State) : Outcome := opTspawn 8 x s
/-- `tsig`, 32-bit form (R244, R185). -/
def execTsig (x : H0) (s : State) : Outcome := opTsig 4 (extH0 x) s
/-- `tsig` (R244). -/
def execTsigL (x : E64) (s : State) : Outcome := opTsig 8 x s
/-- `evpost`, 32-bit form (R244, R185). -/
def execEvpost (x : H0) (s : State) : Outcome := opEvpost 4 (extH0 x) s
/-- `evpost` (R244). -/
def execEvpostL (x : E64) (s : State) : Outcome := opEvpost 8 x s
/-- `evget`, 32-bit form (R244, R185). -/
def execEvget (x : Ed) (s : State) : Outcome := opEvget 4 (extEd x) s
/-- `evget` (R244). -/
def execEvgetL (x : E64) (s : State) : Outcome := opEvget 8 x s

end Sys2Proof.Machine
end

