-- ==== Sys2Proof/Machine/Moves.lean ====
section
/-! DEFINITION. Sector fills and held stores (R142, R144, R252), and the migration of shared pages (R151 to R154, R171,
R263, R398). -/

namespace Sys2Proof.Machine

/-! ## The shared cache -/

/-- The oldest miss that waits at a slice takes an entry, and its fill begins (R144). -/
def startMiss (now die slice : Nat) (l : List Miss) : List Miss :=
  mapFirst (fun m => m.waits && decide (m.die = die ∧ lineSlice m.line = slice)) (fun m => { m with waits := false, born := now }) l

/-- SECTOR_FILL (R142): the sectors of a miss-status entry become valid, and the oldest miss that waits at the slice takes the
freed entry (R144). `err` is the error that the read of HBM meets in a word of those sectors (R409, R410). -/
def State.sectorFill (s : State) (die line : Nat) (err : SoftErr) : State :=
  match findAt (fun m => decide (m.die = die ∧ m.line = line) && !m.waits) s.misses with
  | none => s
  | some m =>
    let home : Loc := .hbm die (256 * line)
    let words := ((wordsOf home 256).filter fun w => m.sectors.getLsbD (sectorOf w))
    let s := match err with
      | .word pa fixed => match wordAt words pa with
        | some w => if fixed then s.errorAt 3 w 0 none else s.markBad w 3
        | none => s
      | _ => s
    let s := s.ensureLine die line
    let s := match s.line? die line with
      | some l => s.setLine { l with valid := l.valid ||| m.sectors }
      | none => s
    { s with misses := startMiss s.now die (lineSlice line) (s.misses.erase m) }

/-- MISS_STATUS_ALLOCATE (R144): a request at its home whose sector is not valid joins or takes an entry. -/
def State.missAllocate (s : State) (id : Nat) : State :=
  match s.access? id with
  | some a => if a.st = .left ∧ s.behind a = false ∧ s.needsFill a = true then s.missFor a.loc else s
  | none => s

/-- RELEASE_STORE_PROCEED (R252). -/
def State.releaseProceed (s : State) (id : Nat) : State := s.releaseHeld id

/-! ## The page of a migration -/

/-- The physical address of the leaf entry of an address. -/
def State.leafAt (s : State) (va : Nat) : Nat → Nat → Nat → Option Nat
  | 0, _, _ => none
  | fuel + 1, level, table =>
    let at_ := table + 8 * (va / 2 ^ (48 - 9 * level) % 512)
    let e := s.physNat at_ 8
    if !pteBit e 0 then none
    else if pteBit e 1 then some at_
    else s.leafAt va fuel (level + 1) (pteFrame e)

/-- The shared page of an address in a context: its leaf entry, and where the entry stands. -/
def State.sharedPage (s : State) (ctx va : Nat) : Option (TlbEntry × Nat) :=
  match s.walk ctx va, (s.contexts.find ctx).bind fun root => s.leafAt va 5 0 root with
  | .leaf e, some p => if pteBit e.pte.toNat 9 then some (e, p) else none
  | _, _ => none

/-- The own bit of a shared page's entry is written (R152). -/
def State.setOwn (s : State) (at_ : Nat) (own : Bool) : State :=
  let e := s.physNat at_ 8
  let e := e - e / 2 ^ 8 % 2 * 2 ^ 8 + bitN own 8
  match localHome s.scratchWays false at_ with
  | some x => s.engStore x (leBytes 8 e)
  | none => s

/-- Every translation of a page leaves every TLB of the module. -/
def State.dropPage (s : State) (frame ctx va : Nat) : State :=
  let keep := fun (e : TlbEntry) => !(decide (e.size = 2 ^ 12 ∧ leafBase e.pte.toNat e.size = frame) || e.covers ctx va)
  { s with cores := s.cores.map fun k => (k.1, { k.2 with tlb := k.2.tlb.filter keep })
           dies := s.dies.map fun d => (d.1, { d.2 with tlb := d.2.tlb.filter keep }) }

/-- The homes of the sixteen 256-byte lines of a page. -/
def State.pageLines (s : State) (e : TlbEntry) (va : Nat) : List Loc :=
  (List.range 16).filterMap fun k => match s.targetOf e (va / 4096 * 4096 + 256 * k) with | .home x => some x | _ => none

/-- The page's lines leave every lane load cache and instruction cache (R171). -/
def State.dropLines (s : State) (ls : List Loc) : State :=
  let codes := ls.map fun x => lineKey x / 16
  { s with cores := s.cores.map fun k =>
      (k.1, { k.2 with
        lcache := k.2.lcache.filter fun c => !ls.contains (c.loc.align 256)
        icache := k.2.icache.filter fun c => !codes.contains (c.1 / 16) }) }

/-- A page arrives at the device: an acquire at scope `pod`. Its lines leave every cache, and with them every other line that
a lane load cache of the module holds (R153, R157, R171). -/
def State.pageArrives (s : State) (ls : List Loc) : State :=
  let s := s.dropLines ls
  { s with cores := s.cores.map fun k => (k.1, { k.2 with lcache := [] }) }

/-- The stores and atomics to a page that are not yet performed. -/
def State.pageWrites (s : State) (ls : List Loc) : List Await :=
  (s.inflight.filter fun a => a.kind.writes && ls.any fun x => x.overlaps 256 a.loc a.size).map fun a => { id := a.id, scope := 7 }

/-! ## Ends of moves -/

/-- A move leaves its die's entries. -/
def State.freeMove (s : State) (d frame : Nat) : State :=
  s.modDie d fun x => { x with migr := x.migr.filter fun m => decide (m.frame ≠ frame) }

/-- Whether a course waits for a page. -/
def Course.awaits (c : Course) (d frame : Nat) : Option (Nat × Nat × Bool) :=
  match c.susp with
  | some (.migration e f va slot isFetch) => if e = d ∧ f = frame then some (va, slot, isFetch) else none
  | _ => none

/-- The page is the device's: the waiting courses run their instruction again (R151, R171). -/
def State.wakeMove (s : State) (d : Nat) (m : Migr) : State :=
  m.waiters.foldl (fun s w => s.modCourse w.1 w.2 fun c => if (c.awaits d m.frame).isSome then { c with susp := none } else c) s

/-- A migration fails: every waiting course traps with 0x12, and a waiting command is stopped (R154, R398). -/
def State.failMove (s : State) (d : Nat) (m : Migr) : State :=
  let s := s.freeMove d m.frame
  let s := m.waiters.foldl (fun s w =>
    match s.course? w.1 w.2 with
    | none => s
    | some c =>
      match c.awaits d m.frame with
      | none => s
      | some (va, slot, isFetch) =>
        (s.setCourse w.1 w.2 { c with susp := none }).stopCourse w.1 w.2
          { code := 0x12, faddr := canon57 va, ipc := if isFetch then canon57 va else (c.thread slot).pc, tmask := 2 ^ slot, ord := s.nextOrd }) s
  m.cmds.foldl (fun s c =>
    match (s.core c.1).cmd? c.2.1 with
    | none => s
    | some x => if x.ended then s else s.setCmd c.1 { x with st := .failed, fault := some (x.cause 0x12 c.2.2.1 (canon57 c.2.2.2) 0 0) }) s

/-- Every move that needs the host fails (R425). -/
def State.failMoves (s : State) : State :=
  s.dies.keys.foldl (fun s d => ((s.die d).migr ++ (s.die d).migrQ).foldl (fun s m => s.failMove d m) (s.modDie d fun x => { x with migrQ := [] })) s

/-! ## Starts and messages -/

/-- The record of type 0x09 for a move (R81). (log 78: DEDUCED, unsafe.) -/
def State.moveRecord (s : State) (d : Nat) (m : Migr) : Event :=
  let who := (m.waiters.head?.orElse fun _ => m.cmds.head?.map fun c => (c.1, ((s.core c.1).cmd? c.2.1).elim 0 Cmd.course)).bind fun w =>
    ((s.course? w.1 w.2).bind fun c => s.task? w.1 c.task).map fun t => (w.1, t)
  let status := bitN m.toHost 0
  let va := canon57 (m.va / 4096 * 4096)
  match who with
  | some (k, t) => s.event t.ref.graph t.ref.node status 0x09 d (coreIn k) m.ctx va
  | none => s.event 0 0xFFFF status 0x09 d 0xFF m.ctx va

/-- MIGRATION_START (R152, R153): the oldest request of a die whose page is not already moving takes one of 64 entries; a
departure that the host has begun (stage 2) goes on there. A request for a page that is already on the side asked for, or is shared no more, ends at once. -/
def State.migrationStart (s : State) (d : Nat) : State :=
  let x := s.die d
  if 64 ≤ x.migr.length then s
  else match x.migrQ.find? fun m => !x.migr.any fun y => decide (y.frame = m.frame) with
    | none => s
    | some m =>
      let s := s.modDie d fun x => { x with migrQ := x.migrQ.erase m }
      if m.stage = 2 then s.modDie d fun x => { x with migr := x.migr ++ [m] }
      else match s.sharedPage m.ctx m.va with
      | none => s.wakeMove d m
      | some (e, at_) =>
        if leafBase e.pte.toNat e.size ≠ m.frame ∨ pteBit e.pte.toNat 8 = m.toHost then s.wakeMove d m
        else if s.host.lost then s.failMove d m
        else
          let m := { m with pte := at_, stage := 1 }
          let s := if m.assisted ∨ m.toHost = false then s.hostEvent (s.moveRecord d m) else s
          if m.toHost ∧ m.assisted = false then
            let s := (s.setOwn at_ true).dropPage m.frame m.ctx m.va
            s.modDie d fun x => { x with migr := x.migr ++ [{ m with awaits := s.pageWrites (s.pageLines e m.va) }] }
          else s.modDie d fun x => { x with migr := x.migr ++ [m] }

/-- The 4 KiB of a page. -/
def State.pageBytes (s : State) (ls : List Loc) : List Byte := ls.flatMap fun x => s.locRead x 256

/-- MIGRATION_DEPARTURE (R152, R171): once every store and atomic to the page is performed, the page goes to the host; in
assisted mode the host, which has written the own bit, fetches it itself, and the move ends (R153). -/
def State.migrationDeparture (s : State) (d frame : Nat) : State :=
  match findAt (fun m => decide (m.frame = frame) && m.toHost && (!m.assisted || decide (m.stage = 2))) (s.die d).migr with
  | none => s
  | some m =>
    if !s.allVisible m.awaits then s
    else if m.assisted then s.freeMove d frame
    else match s.walk m.ctx m.va with
      | .leaf e =>
        let bytes := s.pageBytes (s.pageLines e m.va)
        let msg : Msg := { ring := 68, type := 7, seq := 0, arg := leBytes 8 (m.va / 4096 * 4096) ++ leBytes 2 m.ctx ++ List.replicate 22 0, payload := bytes }
        ({ s with host := { s.host with waiting := s.host.waiting ++ [msg] } }.pumpRing 68).freeMove d frame
      | _ => s.freeMove d frame

/-- The entry of a die for a page that moves to the device. -/
def State.inbound (s : State) (frame : Nat) : Option (Nat × Migr) :=
  let d := frameDie frame
  (findAt (fun m => decide (m.frame = frame) && !m.toHost) (s.die d).migr).map fun m => (d, m)

/-- Whether the moves of a die are the host's (`duty`.migr, R16, R153). -/
def State.migrAssisted (s : State) (d : Nat) : Bool := (s.die d).duty.getLsbD 1

/-- The contents of a page written to its frame. -/
def State.fillPage (s : State) (ls : List Loc) (bytes : List Byte) : State :=
  ls.zipIdx.foldl (fun s p => s.engStore p.1 ((List.range 256).map fun i => bytes.getD (256 * p.2 + i) 0)) s

/-- PAGE_MESSAGE (R152, R153): the contents of a page that moves to the device are written to its frame. In hardware mode the
page is then the device's: own becomes 0, its translations and cached lines go, and its courses run on. In assisted mode the
host writes a frame by itself, asked or not. -/
def State.pageMessage (s : State) (ctx va : Nat) (bytes : List Byte) : State :=
  match s.sharedPage ctx va with
  | none => s
  | some (e, at_) =>
    let ls := s.pageLines e va
    let frame := leafBase e.pte.toNat e.size
    match s.inbound frame with
    | none => if s.migrAssisted (frameDie frame) then s.fillPage ls bytes else s
    | some (d, m) =>
      let s := s.fillPage ls bytes
      if m.assisted then s
      else
        let s := ((s.setOwn at_ false).dropPage m.frame ctx va).pageArrives ls
        (s.freeMove d m.frame).wakeMove d m

/-- A page departs in assisted mode: its move ends once every store and atomic to it is performed (R153, R171). It waits where 64
pages are in migration (R154). -/
def State.departs (s : State) (d : Nat) (m : Migr) (ls : List Loc) : State :=
  let s := s.freeMove d m.frame
  let ws := s.pageWrites ls
  let m := { m with stage := 2, awaits := ws }
  if ws.isEmpty then s
  else s.modDie d fun x => if 64 ≤ x.migr.length then { x with migrQ := x.migrQ ++ [m] } else { x with migr := x.migr ++ [m] }

/-- OWN_MESSAGE (R153): the own bit is written and the page's translations go. A move that this completes ends; value 1 for a
page on its way to the device is the host's refusal (R398). -/
def State.ownMessage (s : State) (ctx va : Nat) (own : Bool) : State :=
  match s.sharedPage ctx va with
  | none => s
  | some (e, at_) =>
    let frame := leafBase e.pte.toNat e.size
    let d := frameDie frame
    let ls := s.pageLines e va
    let s := (s.setOwn at_ own).dropPage frame ctx va
    match findAt (fun m => decide (m.frame = frame)) (s.die d).migr with
    | none =>
      if own then s.departs d { frame := frame, toHost := true, assisted := true, ctx := ctx, va := va, pte := at_ } ls
      else s.pageArrives ls
    | some m =>
      if m.toHost then (if own then (if m.assisted then s.departs d m ls else s) else s.pageArrives ls)
      else if own then s.failMove d m
      else if m.assisted then ((s.pageArrives ls).freeMove d frame).wakeMove d m
      else s

/-- HOST_MIGRATION_REQUEST (R151): the host wants a page that the device owns. -/
def State.hostWants (s : State) (ctx va : Nat) : State :=
  match s.sharedPage ctx va with
  | none => s
  | some (e, _) =>
    let frame := leafBase e.pte.toNat e.size
    s.askMigration (frameDie frame) { frame := frame, toHost := true, assisted := false, ctx := ctx, va := va, pte := 0 }

end Sys2Proof.Machine
end

