-- ==== Sys2Proof/Machine/Translator.lean ====
section
/-! DEFINITION. The segments of an Isully module (R367) and the translator that turns them into Sniuc code (R368). -/

namespace Sys2Proof.Machine

/-- A segment entry of a module (R367). -/
structure Seg where
  start : Nat
  len : Nat
  kind : Nat
  loop : Bool
  q : Nat
  v : Nat
  s0 : Nat
  s1 : Nat
  deriving DecidableEq, Repr

/-- The fields of a 16-byte segment entry. -/
def segOf (bs : List Byte) : Seg :=
  let f := recNat bs 6 1
  let g := recNat bs 7 1
  { start := recNat bs 0 4, len := recNat bs 4 2, kind := f % 8, loop := f.testBit 3, q := g % 16
    v := g / 16 + 16 * (f / 16 % 2), s0 := recNat bs 8 4, s1 := recNat bs 12 4 }

/-- The bits of the instruction that begins at the head of a list of parcels, and its parcels. -/
def headInstr (ps : List Nat) : Nat × Nat :=
  let n := parcels (ps.headD 0)
  ((ps.take n).zipIdx.foldl (fun x q => x + q.1 * 65536 ^ q.2) 0, n)

/-- The bytes of a 64-bit instruction: its first word and its second (R172). -/
def longBytes (x y : Nat) : List Byte := leBytes 8 (x + 2 ^ 32 * y)

/-- The parcel `nop.c` (R181). -/
def nopBytes : List Byte := leBytes 2 0x801E

/-- A header without a guard whose stall count covers every latency of a group of one thread (R24, R368). -/
def slowHdr : Hdr := { openHdr with s := 3 }

/-- A body in translated code: each instruction with stall count 0b11, each compact one with three `nop.c` behind it, so that
every result can be read by the next instruction of a group of one (R24, R25, R368). `fuel` bounds their number. -/
def bodyBytes : Nat → List Nat → List Byte
  | 0, _ => []
  | _, [] => []
  | fuel + 1, p :: r =>
    let x := headInstr (p :: r)
    (if x.2 = 1 then leBytes 2 x.1 ++ (List.replicate 3 nopBytes).flatten else leBytes (2 * x.2) (x.1 + 12)) ++
      bodyBytes fuel (r.drop (x.2 - 1))

/-- The displacement field, in parcels, of an instruction at one address to another (R224). -/
def dispTo (own target : Nat) : Nat := ((((target : Int) - own) / 2) % 2 ^ 32).toNat

/-- A jump to an address, with a guard's header. -/
def braBytes (h : Hdr) (own target : Nat) : List Byte := longBytes (enI16l { h := h, i := 0 } 0x60 3) (dispTo own target)

/-- A 64-bit constant in a register. -/
def constBytes (t : Reg) (a : Nat) : List Byte :=
  longBytes (enKm64 { h := slowHdr, d := t, i := 0 } 0x49 3) (a % 2 ^ 32) ++
    longBytes (enKm64 { h := slowHdr, d := t, i := 0 } 0x4A 3) (a / 2 ^ 32 % 2 ^ 32)

/-- Where translated code stands and what it reaches: its code table, whether `call` reaches the table from it, and the
caller-saved register that addresses are made in (R60). -/
structure TransEnv where
  table : Nat
  near : Bool
  temp : Nat

/-- The register for addresses: one of `v8` to `v14` (R60) other than the segment's own. -/
def TransEnv.reg (e : TransEnv) (x : Seg) : Reg :=
  BitVec.ofNat 5 (if 8 + e.temp % 7 = x.v then 8 + (e.temp + 1) % 7 else 8 + e.temp % 7)

/-- The end of a segment at an address, where `at_` places the module's segments: `bra` for the kinds 0 and 1, `brx` to
base + 64 × v for 2, `exit`, `call` of the entry's address and then `bra`, and `ret` (R367, R368). -/
def Seg.tailBytes (x : Seg) (e : TransEnv) (at_ : Nat → Nat) (own : Nat) : List Byte :=
  let t := e.reg x
  match x.kind with
  | 0 => braBytes openHdr own (at_ x.s0)
  | 1 => braBytes { openHdr with g := BitVec.ofNat 4 x.q } own (at_ x.s0) ++ braBytes openHdr (own + 8) (at_ x.s1)
  | 2 =>
    constBytes t e.table ++
      (List.replicate 4 (leBytes 4 (enR3 { h := slowHdr, u := false, b := BitVec.ofNat 5 x.v, a := t, d := t } 0x2F 1))).flatten ++
      leBytes 4 (enA1 { h := openHdr, a := t } 0x61 1)
  | 3 => leBytes 4 (enH0 { h := openHdr } 0x65 1)
  | 4 =>
    let callee := e.table + 64 * x.s1
    let jump := if e.near then longBytes (enI16l { h := openHdr, i := 0 } 0x62 3) (dispTo own callee)
      else constBytes t callee ++ leBytes 4 (enA1 { h := openHdr, a := t } 0x63 1)
    jump ++ braBytes openHdr (own + jump.length) (at_ x.s0)
  | _ => leBytes 4 (enH0 { h := openHdr } 0x64 1)

/-- A segment's code at an address: its body, behind a `loop` where it is a counted one that is not empty, and its end. -/
def Seg.bytes (x : Seg) (code : List Nat) (e : TransEnv) (at_ : Nat → Nat) (own : Nat) : List Byte :=
  let body := bodyBytes x.len ((code.drop x.start).take x.len)
  let head := if x.loop && decide (body ≠ []) then
      longBytes (enLo64 { h := openHdr, u := false, t := BitVec.ofNat 5 x.v, e := 0 } 0x66 3) (body.length / 2 + 3)
    else []
  head ++ body ++ x.tailBytes e at_ (own + head.length + body.length)

/-- The address of each segment, in the order in which they are laid out. -/
def segPlaces (code : List Nat) (e : TransEnv) : Nat → List (Nat × Seg) → List (Nat × Nat)
  | _, [] => []
  | a, (i, x) :: r => (i, a) :: segPlaces code e (a + (x.bytes code e (fun _ => 0) 0).length) r

/-- The translation of a module whose bytes are well-formed (R367, R368): the segments one after another from `next` on, the
wanted one first. The same module and context give the same code. (log 139: DESIGN CHOICE, unsafe.) -/
def translate (m : List Byte) (seg table next : Nat) : List Byte :=
  let segs := recNat m 8 4
  let code := (List.range (recNat m 12 4)).map fun i => recNat m (64 + 16 * segs + 2 * i) 2
  let order := (seg :: (List.range segs).filter (· ≠ seg)).map fun i => (i, segOf ((m.drop (64 + 16 * i)).take 16))
  let e : TransEnv := { table := table, near := decide (table < next + 2 ^ 31 ∧ next < table + 2 ^ 31), temp := Config.translatorTemp m }
  let places := segPlaces code e next order
  let at_ := fun i => ((places.find? fun p => decide (p.1 = i)).map Prod.snd).getD next
  order.flatMap fun p => p.2.bytes code e at_ (at_ p.1)

end Sys2Proof.Machine
end

