-- ==== Sys2Proof/Machine/Codes.lean ====
section
/-! DEFINITION. Code tables, jumps into their entries and the binding of portable code (R363 to R368, R420). -/

namespace Sys2Proof.Machine

/-! ## Entries (R363) -/

/-- The entry of a context's code table at or around an address: the table, its index and the offset within the entry. -/
def State.codeEntry (s : State) (ctx va : Nat) : Option (CodeTable × Nat × Nat) :=
  (findAt (fun t => decide (t.ctx = ctx ∧ t.base ≤ va ∧ va < t.base + 64 * t.count)) s.codeTables).map fun t =>
    (t, (va - t.base) / 64, (va - t.base) % 64)

/-- A unit of a die as it reads and writes memory in a context, in supervisor mode. -/
def unitView (d ctx : Nat) : EngView := { core := 132 * d + 128, ctx := ctx, sup := true }

/-- A word of an entry, as the bind duty of a die reads it. -/
def State.entryWord (s : State) (d ctx base index k : Nat) : Option Nat :=
  (s.glBytes (unitView d ctx) (base + 64 * index + 8 * k) 8).map leNat

/-- The courses parked on an entry that is now bound or has failed wake at least 32 cycles on (R82, R364). -/
def State.wakeEntry (s : State) (ctx base index : Nat) : State :=
  let wake := fun (tasks : Tab Task) (c : Course) =>
    if c.park = some (.codeEntry base index) ∧ ((tasks.find c.task).map Task.ctx) = some ctx then
      { c with wakeAt := some (c.wakeAt.getD (s.now + 32)) } else c
  { s with cores := s.cores.map fun k => (k.1, { k.2 with courses := k.2.courses.map fun c => (c.1, wake k.2.tasks c.2) }) }

/-- The state word of an entry is written, as a release store at scope `pod`, and the courses parked on it wake. -/
def State.writeEntry (s : State) (d ctx base index : Nat) (w0 : Nat) : State :=
  (s.unitStore (132 * d + 128) ctx (base + 64 * index) (leBytes 8 w0)).wakeEntry ctx base index

/-- A binding in progress is over. -/
def State.endBind (s : State) (ctx base index : Nat) : State :=
  { s with binds := s.binds.filter fun b => !decide (b.ctx = ctx ∧ b.base = base ∧ b.index = index) }

/-- A binding fails with a code: the entry enters state 3 (R365, R420). -/
def State.bindFails (s : State) (d ctx base index fail : Nat) : State :=
  (s.writeEntry d ctx base index (3 + 2 ^ 8 * (fail % 256))).endBind ctx base index

/-- A binding succeeds: every core of the module drops its cached lines of the range written, of `len` bytes, the target is
written and then state 2. Without a range, which a bind result does not name, every line is dropped. (log 106: DEDUCED, unsafe.) -/
def State.bindDone (s : State) (d ctx base index target : Nat) (len : Option Nat) : State :=
  let s := s.cores.foldl (fun s k => match len with
    | some n => s.invalCode k.1 ctx target n
    | none => s.modCore k.1 fun c => { c with icache := [] }) s
  ((s.unitStore (132 * d + 128) ctx (base + 64 * index + 8) (leBytes 8 target)).writeEntry d ctx base index 2).endBind ctx base index

/-! ## Jumps into an entry (R364) -/

/-- The group whose program counter lies in its context's code table. -/
def State.entryGroup (s : State) : Option (Grp × CodeTable × Nat × Nat) :=
  match s.issue with
  | none => none
  | some g =>
    match s.grp? g with
    | none => none
    | some G => (s.codeEntry G.tk.ctx g.pc.toNat).map fun e => (G, e)

/-- The course that won an entry: its bind event goes to its cluster's queue, or to the host in assisted mode (R81, R365). -/
def State.raiseBind (s : State) (G : Grp) (t : CodeTable) (index : Nat) : State :=
  let d := coreDie G.g.core
  let assisted := (s.die d).duty.getLsbD 2
  let e := s.event G.tk.ref.graph G.tk.ref.node 0 0x08 d (coreIn G.g.core) (2 ^ 16 * G.tk.ctx + index) (BitVec.ofNat 64 t.base)
  let s : State := { s with binds := s.binds ++ [{ base := t.base, index := index, ctx := G.tk.ctx, die := d, owner := G.tk.ref.die, graph := G.tk.ref.graph, assisted := assisted }] }
  if assisted && s.host.lost then s.bindFails d G.tk.ctx t.base index 6
  else if assisted then s.hostEvent e
  else s.postEvent (coreCluster G.g.core) e

/-- The group acts on the state word and target of an entry (R364): `cas` performs the compare-and-swap of 0 to 1, for
which the page must be writable, and `won` says whether it succeeds. (log 107: DEDUCED, unsafe.) -/
def State.actOnEntry (s : State) (G : Grp) (t : CodeTable) (index w0 target : Nat) (writable : Bool) (cas : State → State) (won : Bool) : State :=
  let state := w0 % 4
  if state = 2 then s.leaveSteered G { len := 0, h := openHdr } fun _ th => some (th.branch (BitVec.ofNat 64 target))
  else if state = 3 then
    s.trapNow G { code := 0x40, sub := w0 / 2 ^ 8 % 256, faddr := BitVec.ofNat 64 (t.base + 64 * index), ipc := G.g.pc, tmask := slotMask G.g.slots }
  else if state = 1 then s.parkAt G (.codeEntry t.base index)
  else if !writable then s.trapNow G { code := 0x11, sub := 6, faddr := G.g.pc, ipc := G.g.pc, tmask := 2 ^ G.lowest }
  else
    let s := (cas s).parkAt G (.codeEntry t.base index)
    if won then s.raiseBind G t index else s

/-- The compare-and-swap of an entry of another destination: an atomic packet to its line. -/
def State.farCas (s : State) (core d o : Nat) : State :=
  (s.raiseO (coreDie core) d).sendWrite
    { die := coreDie core, dest := d, seq := 0, pred := none, line := o / 256, atomic := true, returns := true, accs := [] }

/-- CODE_TABLE_ENTRY_JUMP (R364): the group acts on the entry's state word, read as an acquire at scope `pod`. An entry of
another destination is read there: its words, a refusal and the end of the compare are free values (R137, R439). One that a
`cresize` in progress changes is waited for (R146), and an uncorrectable one traps (R410; log 152). -/
def State.entryJump (s : State) : State :=
  match s.entryGroup with
  | none => s
  | some (G, t, index, off) =>
    let core := G.g.core
    let va := va57 G.g.pc
    let trap := fun code sub : Nat => s.trapNow G { code := code, sub := sub, faddr := G.g.pc, ipc := G.g.pc, tmask := 2 ^ G.lowest }
    if off ≠ 0 then trap 0x13 0
    else match s.tlbFind core G.tk.ctx va with
      | none => s.suspendAt G (.walk G.tk.ctx va G.lowest 1)
      | some e =>
        let sup := (G.cs.thread G.lowest).sup
        let writable := e.permits { r := true, w := true } sup
        if !e.permits { r := true } sup then trap 0x11 6
        else match s.targetOf e va with
          | .unmapped => trap 0x10 5
          | x =>
            if e.hostOwned then s.waitPage G (.migration (frameDie (e.phys va)) (leafBase e.pte.toNat e.size) va G.lowest true)
            else match x with
            | .remote d o =>
              if !s.routed d then trap (lostCode d) 0
              else if Config.freeNat (s.freeCtr + 16) % 2 = 1 then
                { s with freeCtr := s.freeCtr + 18 }.trapNow G { code := 0x10, sub := 8, faddr := G.g.pc, ipc := G.g.pc, tmask := 2 ^ G.lowest }
              else
                let w := fun k : Nat => leNat (farBytes (s.freeCtr + k) 8)
                (State.invalLane { s with freeCtr := s.freeCtr + 18 } core).actOnEntry G t index (w 0) (w 8) writable
                  (fun s => s.farCas core d o) (decide (Config.freeNat (s.freeCtr + 17) % 2 = 1))
            | .home x =>
              if s.resizeWaits x then s.suspendAt G (.ways x.dieOf)
              else if let some w := s.badIn x 16 then (trap 0x70 0).errorEvent w 1 (some (core, G.tk))
              else
              let s := (s.invalLane core).served x 16
              let w0 := leNat (s.locRead x 8)
              s.actOnEntry G t index w0 (leNat (s.locRead (x.plus 8) 8)) writable (fun s => s.engStore x (leBytes 8 (w0 + 1))) true
            | .unmapped => trap 0x10 5

/-! ## The check of a module (R366, R367) -/

/-- Whether a body may hold an instruction: no stall count, and no opcode of the excluded ranges. -/
def bodyOp (version w : Nat) (len : Nat) : Bool :=
  let op := w / 2 ^ 9 % 128
  len = 1 || (decide (w / 4 % 4 = 0) && !decide ((0x60 ≤ op ∧ op ≤ 0x68) ∨ op = 0x6E) && !decide (version = 1 ∧ 0x70 ≤ op ∧ op ≤ 0x7E))

/-- Whether the parcels of a body are whole instructions (R187) that it may hold; `fuel` bounds their number. -/
def bodyOk (version : Nat) : Nat → List Nat → Bool
  | _, [] => true
  | 0, _ => false
  | fuel + 1, p :: r =>
    let x := headInstr (p :: r)
    decide (x.2 - 1 ≤ r.length) && isInstr x.1 && bodyOp version (x.1 % 2 ^ 32) x.2 && bodyOk version fuel (r.drop (x.2 - 1))

/-- Whether a segment entry is well-formed: its fields, its successors and its body. -/
def segOk (version segs table : Nat) (code : List Nat) (bs : List Byte) : Bool :=
  let x := segOf bs
  decide (x.kind ≤ 5 ∧ x.len ≤ 4096 ∧ x.start + x.len ≤ code.length ∧ recNat bs 6 1 / 32 = 0) &&
    (!x.loop || (decide (version = 2) && decide (x.kind = 0 ∨ x.kind = 3))) &&
    (!decide (x.kind = 0 ∨ x.kind = 1 ∨ x.kind = 4) || decide (x.s0 < segs)) &&
    (if x.kind = 1 then decide (x.s1 < segs) else if x.kind = 4 then decide (x.s1 < table) else true) &&
    (if x.kind = 1 then decide (x.q < 12) else decide (x.q = 0)) && (decide (x.kind = 2) || x.loop || decide (x.v = 0)) &&
    bodyOk version (x.len + 1) ((code.drop x.start).take x.len)

/-- The fail code of a module for an entry, if there is one, and the module's bytes. What a module declares by `.isa` is its
version byte. The node is looked for on the die that accepted the launch. -/
def State.moduleFault (s : State) (b : Bind) (src seg node : Nat) : Except Nat (List Byte) :=
  let v := unitView b.die b.ctx
  match s.glBytes v src 64 with
  | none => .error 7
  | some h =>
    let version := recNat h 0 1
    let segs := recNat h 8 4
    let parcelsN := recNat h 12 4
    if version ≠ 1 ∧ version ≠ 2 then .error 1
    else match s.node? b.owner b.graph node with
      | none => .error 3
      | some n =>
        if recNat h 1 1 ≠ n.width then .error 2
        else if recNat h 2 2 ≠ n.courses ∨ (recNat h 4 1 ≠ 0 ∧ recNat h 4 1 ≠ n.regG) ∨ recNat h 5 1 ≠ n.spG ∨ recNat h 6 1 ≠ n.accG ∨ recNat h 7 1 ≠ n.gang then .error 3
        else match s.glBytes v (src + 64) (16 * segs + 2 * parcelsN) with
          | none => .error 7
          | some bs =>
            let code := (List.range parcelsN).map fun i => recNat bs (16 * segs + 2 * i) 2
            let table := ((findAt (fun t => decide (t.ctx = b.ctx ∧ t.base = b.base)) s.codeTables).map CodeTable.count).getD 0
            if segs ≤ seg ∨ (h.drop 16).any (· ≠ 0) = true ∨ ((List.range segs).all fun i => segOk version segs table code ((bs.drop (16 * i)).take 16)) = false
            then .error 4
            else .ok (h ++ bs)

/-! ## Binding (R365) -/

/-- HARDWARE_BIND (R365): the control-core firmware checks the module, translates it into the context's code space and binds the entry, or
writes the fail code. -/
def State.hardwareBind (s : State) (ctx base index : Nat) : State :=
  match findAt (fun b => decide (b.ctx = ctx ∧ b.base = base ∧ b.index = index) && !b.assisted) s.binds with
  | none => s
  | some b =>
    let fail := fun n : Nat => s.bindFails b.die ctx base index n
    match s.entryWord b.die ctx base index 2, s.entryWord b.die ctx base index 3 with
    | some src, some w3 =>
      let seg := w3 % 2 ^ 32
      match s.moduleFault b src seg (w3 / 2 ^ 32) with
      | .error n => fail n
      | .ok m =>
        match s.codeSpace.find ctx with
        | none => fail 5
        | some (next, last) =>
          let code := translate m seg base next
          if last < next + code.length then fail 5
          else match s.engPieces (unitView b.die ctx) (glAt next) 0 0 code with
            | .error _ => fail 7
            | .ok _ =>
              let s := s.unitStore (132 * b.die + 128) ctx next code
              ({ s with codeSpace := s.codeSpace.set ctx (next + code.length, last) } : State).bindDone b.die ctx base index next
                (some code.length)
    | _, _ => fail 7

/-- A bind result of the host (R365): the status of the command, with the entry bound or failed; an entry that is not in
state 1 is left as it is. The state alone decides, so that a result also ends a binding that was raised in hardware mode.
(log 132: DESIGN CHOICE, unsafe.) -/
def State.bindResult (s : State) (ctx base index state fail target : Nat) : State × Nat :=
  let b := (findAt (fun b => decide (b.ctx = ctx ∧ b.base = base ∧ b.index = index)) s.binds)
  let d := (b.map Bind.die).getD 0
  match s.entryWord d ctx base index 0 with
  | none => (s, 1)
  | some w0 =>
    if w0 % 4 ≠ 1 ∨ (state ≠ 2 ∧ state ≠ 3) then (s, 1)
    else if state = 2 then (s.bindDone d ctx base index target none, 0)
    else (s.bindFails d ctx base index fail, 0)

/-- The host link is lost: bindings that the host performs fail with code 0x06 (R420, R425). -/
def State.failBinds (s : State) : State :=
  (s.binds.filter Bind.assisted).foldl (fun s b => s.bindFails b.die b.ctx b.base b.index 6) s

/-- A course parked on an entry whose state word has become 2 or 3 by any write starts to wake (R364). -/
def State.testEntry (s : State) (core course : Nat) : State :=
  match s.course? core course with
  | none => s
  | some c =>
    match c.park, c.wakeAt, (s.task? core c.task).map Task.ctx with
    | some (.codeEntry base index), none, some ctx =>
      match s.entryWord (coreDie core) ctx base index 0 with
      | some w0 => if 2 ≤ w0 % 4 then s.pastFar.setCourse core course { c with wakeAt := some (s.now + 32) } else s.pastFar
      | none => s.pastFar
    | _, _, _ => s

end Sys2Proof.Machine
end

