-- ==== Sys2Proof/Machine/Fabric.lean ====
section
/-! DEFINITION. Packets between modules as this module sends and receives them: drains, acknowledgements, refusals,
retransmission and loss (R162, R165, R326 to R335, R422, R423, R439), and arrivals at its home slices (R334). -/

namespace Sys2Proof.Machine

/-! ## System events and status (R414, R415) -/

/-- A record of type 0x0F (R414): to cluster 0 of the die, and to the host event ring while the link is up. -/
def State.sysEvent (s : State) (d code index detail : Nat) : State :=
  let e := s.event 0 0xFFFF code 0x0F d 0xFF index (BitVec.ofNat 64 detail)
  let s := s.postEvent (4 * d) e
  if s.host.up && !s.host.lost then s.hostEvent e else s

/-- The destinations now lost. -/
def State.lostCount (s : State) : Nat := (s.routes.filter fun r => decide (r.2.toNat / 2 ^ 14 = 2)).length

/-- The system status word of each die is brought up to date (R415); `last` is a destination just declared lost. -/
def State.writeStatus (s : State) (last : Option Nat) : State :=
  [0, 1, 2, 3].foldl (fun s d =>
    let at_ := trapBase d + 0x9000
    let old := s.physNat (at_ + 4) 2
    let down := (List.range 8).any fun i => (s.links.get (8 * d + i) {}).isDown
    let lo := bitN s.host.lost 0 + bitN s.plat.cfgdef 1 + bitN down 2 + 2 ^ 8 * (s.plat.cfgref % 256) + 2 ^ 16 * s.lostCount
    s.physStore at_ (leBytes 4 lo ++ leBytes 4 (last.getD old % 512))) s

/-! ## The hod and the closed vector (R165, R328, R331) -/

/-- HOD_DRAIN (R165): an entry that is due drains. -/
def State.hodDrain (s : State) (core entry : Nat) : State :=
  match (s.core core).hod.find? fun e => decide (e.id = entry) with
  | some e => if e.due then s.drain core entry else s
  | none => s

/-- HOD_AGE_LIMIT (R328): an entry drains once it is as old as the die's limit; a limit below 64 acts as 64. -/
def State.hodAge (s : State) (core entry : Nat) : State :=
  match (s.core core).hod.find? fun e => decide (e.id = entry) with
  | some e => if e.born + max 64 ((s.die (coreDie core)).hodage.toNat % 65536) ≤ s.now then s.drain core entry else s
  | none => s

/-- CLOSED_VECTOR_UPDATE (R331): a core's bit of a destination takes its die's state; a course parked on a destination that
is no longer closed wakes at least 32 cycles on (R82). -/
def State.closedUpdate (s : State) (core dest : Nat) : State :=
  let b := s.isClosed (coreDie core) dest
  let wake := fun c : Course =>
    match c.park with
    | some (.closed d) => if d = dest ∧ b = false then { c with wakeAt := some (c.wakeAt.getD (s.now + 32)) } else c
    | _ => c
  s.modCore core fun k =>
    { k with closed := if b then k.closed ||| (1#512 <<< dest) else k.closed &&& ~~~(1#512 <<< dest)
             courses := k.courses.map fun c => (c.1, wake c.2) }

/-! ## Acknowledgements (R329, R330) -/

/-- Some numbered writes are acknowledged: their accesses are over, and commands and chunks no longer wait for them. -/
def State.ackIds (s : State) (ids : List Nat) : State :=
  let clean := fun x : Cmd => { x with writes := x.writes.filter fun i => !ids.contains i }
  { s with
    inflight := s.inflight.filter fun a => !(ids.contains a.id && (match a.kind with | .load _ => false | .atom _ nr => nr | _ => true))
    cores := s.cores.map fun k => (k.1, { k.2 with queues := k.2.queues.map fun q => q.map clean })
    chunks := s.chunks.map fun c => { c with writes := c.writes.filter fun i => !ids.contains i } }

/-- Commands of a die with lines held back by the send allowance send what they may (R332). -/
def State.resumeSends (s : State) (d : Nat) : State :=
  s.cores.foldl (fun s k =>
    if coreDie k.1 = d then
      (k.2.queues.toList.flatten.filter fun x => !x.todo.isEmpty).foldl (fun s x => s.setSending k.1 x) s
    else s) s

/-- A packet of a die is answered: it is no longer outstanding, and what waited for it goes on. -/
def State.answered (s : State) (p : Packet) : State :=
  let s := { s with packets := s.packets.filter fun q => decide (q ≠ p) }
  (((s.ackIds p.accs).resumeSends p.die).settleChunks).pump p.die

/-- The outstanding write or atomic packet of a number, under the die's current numbering. -/
def State.packet? (s : State) (d dest seq : Nat) : Option Packet :=
  s.packets.find? fun p => decide (p.die = d ∧ p.dest = dest ∧ p.seq = seq) && !p.isLoad && !p.restart

/-- ACKNOWLEDGEMENT_ARRIVAL (R330): it lowers O, updates the window and ends the packet; a returning atomic has its result
and its stamp. One that names no outstanding packet is discarded (R329). `bad`: the destination found an uncorrectable word
(R410; log 149). -/
def State.ackArrival (s : State) (d dest seq : Nat) (mark : Bool) (val : BitVec 128) (tag : BitVec 32) (bad : Bool) : State :=
  match s.packets.find? fun p => decide (p.die = d ∧ p.dest = dest) && p.restart with
  | some p => if seq = 0 then ({ s with packets := s.packets.filter fun q => decide (q ≠ p) } : State).pump d else s
  | none =>
    match s.packet? d dest seq with
    | none => s
    | some p =>
      let s := s.ackAllow d dest mark
      let s := p.accs.foldl (fun s id => match s.access? id with
        | some a => (match a.kind with
          | .atom _ false => s.setAccess { a with st := .performed, val := val, tag := tag, bad := bad }
          | _ => if bad && a.readsHome then s.discardBad a else s)
        | none => s) s
      s.answered p

/-! ## Refusals (R439) -/

/-- An access refused at its destination: its consumer's deferred 0x10, or the trap of a fetch. -/
def State.refuseAccess (s : State) (a : Access) : State :=
  if a.code then
    ((s.dropAccess a.id).modCourse a.core a.course fun c => { c with susp := none }).stopCourse a.core a.course
      { code := a.cmp.toNat, sub := a.data.toNat, faddr := a.va, ipc := a.ipc, tmask := a.also }
  else
    let c : Cause := { code := 0x10, sub := 8, faddr := a.va, ipc := a.ipc, tmask := 2 ^ a.slot, ord := a.ord
                       lost := a.dst.map fun r => (a.slot, r) }
    let s := s.dropAccess a.id
    let s := s.modCourse a.core a.course fun k => k.modThread a.slot fun t => { t with acqAfter := t.acqAfter.filter (· ≠ a.id) }
    match s.course? a.core a.course with
    | none => s
    | some k => if k.allLive.isEmpty then s.modTask a.core k.task fun t => { t with status := 2 } else s.defer a.core a.course c

/-- The bytes that a command writes through its destination, as offsets of the handle and counts (R285, R292, R294). -/
def Cmd.spans (x : Cmd) : Option Operand × List (Nat × Nat) :=
  let spots := fun (o : Operand) (ext : List Nat) (n : Spot → Nat) => (tileSpots o ext).map fun p => (p.a, n p)
  match x.kind, x.ops with
  | .copy, [_, o] | .col, [_, o] => (some o, spots o (blkExts x.words) fun p => spotBytes p (layoutOf o.layout).bits)
  | .writeBack, o :: _ =>
    if fmtPlate (descOf o.desc).fmt then
      (some o, (List.range 4).filterMap fun g =>
        ((layoutOf o.layout).eval [o.origin.getD 0 0 / 16 + g, o.origin.getD 1 0 / 128]).map fun p => (p.a, 64 + 256 * ((descOf o.desc).fmt - 0x0F)))
    else (some o, spots o [64, 128] fun p => spotBytes p (layoutOf o.layout).bits)
  | _, _ => (none, [])

/-- What a command's lost or refused write names (R401): its flag or record where that is what it writes, else the first
byte of its destination that lies in a line of the destination module or quarry node. -/
def State.writeCause (s : State) (core : Nat) (x : Cmd) (code : Nat) (hit : Nat → Nat → Bool) : Cause :=
  match x.st, x.flag with
  | .performed, some f => x.cause code (recordSub x.cls) (BitVec.ofNat 64 (hBase f.1.handle + f.2)) 0 0
  | _, _ =>
    let sub := if x.cls = 1 then 3 + 16 else 16
    let v := s.viewOf core x
    let far := fun p : Nat => match s.engTlb v p with
      | some e => (match s.targetOf e p with | .remote d o => hit d (o / 256) | _ => false)
      | none => false
    match x.spans with
    | (some o, l) =>
      let at_ := (l.flatMap fun p => rangePieces (p.2 / 256 + 2) (hBase o.handle + p.1) p.2).find? fun p => far p.1
      x.cause code sub (BitVec.ofNat 64 ((at_.map Prod.fst).getD 0)) 0 0
    | _ => x.cause code sub 0 0 0

/-- Commands with writes that are refused or lost, or with lines left for a lost destination, are stopped (R400), and their
chunks with them; a chunk fired at a task's end ends with a status. -/
def State.stopWriters (s : State) (ps : List Packet) (dest : Option Nat) (code status : Nat) : State :=
  let ids := ps.flatMap Packet.accs
  let wrote := fun l : List Nat => l.any ids.contains
  let unsent := fun t : FarLines => t.any fun l => dest = some l.1
  let rest := fun l : List Nat => l.filter fun i => !ids.contains i
  let hit := fun d line : Nat => (dest = some d) || ps.any fun p => decide (p.dest = d ∧ p.line = line)
  let lost := fun c : Chunk => wrote c.writes || unsent c.todo
  let stop := fun (core : Nat) (x : Cmd) =>
    let x' := { x with writes := rest x.writes }
    if wrote x.writes || unsent x.todo || s.chunks.any (fun c => decide (c.cmd = some x.id) && lost c) then
      { x' with st := .failed, todo := [], fault := some (s.writeCause core x code hit) }
    else x'
  ({ s with
    cores := s.cores.map fun k => (k.1, { k.2 with queues := k.2.queues.map fun q => q.map (stop k.1) })
    chunks := s.chunks.map fun c =>
      if lost c then { c with status := if c.recorded then c.status else some status, got := none, todo := [], writes := rest c.writes } else c } :
    State).settleChunks

/-- REFUSAL_ARRIVAL (R439): it counts as the acknowledgement or the response, and its issuers see its effects. A load is
named by its access `id`, any other packet by its sequence number. -/
def State.refusalArrival (s : State) (d dest seq id : Nat) : State :=
  if id ≠ 0 then
    match s.access? id with
    | some a =>
      (match a.kind, a.loc with
       | .load _, .remote e _ =>
         if e = dest ∧ coreDie a.core = d ∧ a.st = .sent then
           (({ s with packets := s.packets.filter fun p => !(p.isLoad && p.accs.contains id) } : State).refuseAccess a).pump d
         else s
       | _, _ => s)
    | none => s
  else match s.packet? d dest seq with
    | none => s
    | some p =>
      let s := s.ackAllow d dest false
      let s := s.stopWriters [p] none 0x10 2
      let s := (p.accs.filterMap s.access?).foldl State.refuseAccess s
      s.answered p

/-! ## Retransmission and loss (R335, R422) -/

/-- RETRANSMISSION (R335): a packet unanswered for 50 µs is sent again, at most 8 times, with its predecessor field as it
stands now; the odd copies take the route's alternate port, the even ones its primary. A load is named by its access `id`. -/
def State.retransmit (s : State) (d dest seq id : Nat) : State :=
  let hit := fun p : Packet => decide (p.die = d ∧ p.dest = dest) &&
    (if id ≠ 0 then p.isLoad && p.accs.contains id else !p.isLoad && decide (p.seq = seq)) &&
    decide (p.last + 50 * usTicks ≤ s.time ∧ p.tries < 8)
  let before := fun p : Packet => (s.packets.takeWhile fun q => decide (q ≠ p)).filter fun q =>
    decide (q.die = d ∧ q.dest = dest) && !q.isLoad
  let e := s.routes.get dest 0
  { s with packets := s.packets.map fun p =>
      if hit p then
        { p with last := s.time, tries := p.tries + 1, copyPort := if p.tries % 2 = 0 then e.toNat / 2 ^ 8 % 32 else routePort e
                 pred := if p.isLoad then none else predOf (before p) p.line }
      else p }

/-- What one die does when a destination is lost (R335, R422): queued stores and hod entries are discarded, its commands
stop, and loads and returning atomics in flight fault. -/
def State.loseAt (s : State) (d dest : Nat) : State :=
  let mine := fun a : Access => decide (coreDie a.core = d) && (match a.loc with | .remote e _ => decide (e = dest) | _ => false)
  let lines := (s.packets.filter fun p => decide (p.die = d ∧ p.dest = dest) && !p.isLoad) ++
    ((s.die d).egress.filter fun p => decide (p.dest = dest))
  let entries := s.cores.foldl (fun n k => if coreDie k.1 = d then n + (k.2.hod.filter fun e => decide (e.dest = dest)).length else n) 0
  let unhod := fun k : Nat × Core =>
    if coreDie k.1 = d then (k.1, { k.2 with hod := k.2.hod.filter fun e => decide (e.dest ≠ dest) }) else k
  let s := { s with packets := s.packets.filter fun p => !decide (p.die = d ∧ p.dest = dest), cores := s.cores.map unhod }
  let s := s.modDie d fun x => { x with egress := x.egress.filter fun p => decide (p.dest ≠ dest) }
  let a := s.allowOf d dest
  let s := s.setAllow d dest { a with o := a.o - (lines.length + entries) }
  let code := lostCode dest
  let s := s.stopWriters lines (some dest) code 1
  (s.inflight.filter mine).foldl (fun s a =>
    match a.kind with
    | .load _ => lostRead code s a
    | .atom _ false => lostRead code s a
    | _ => s.discardLost a dest) s
where
  /-- A load or returning atomic in flight to the lost destination. -/
  lostRead (code : Nat) (s : State) (a : Access) : State :=
    let dest := match a.loc with | .remote d _ => d | _ => 0
    if a.code then
      ((s.dropAccess a.id).modCourse a.core a.course fun c => { c with susp := none })
    else
      ((s.discardLost a dest).modCourse a.core a.course fun k =>
          k.modThread a.slot fun t => { t with acqAfter := t.acqAfter.filter (· ≠ a.id) }).defer a.core a.course
        { code := code, faddr := a.va, ipc := a.ipc, tmask := 2 ^ a.slot, ord := a.ord, lost := a.dst.map fun r => (a.slot, r) }

/-- The steps that a lost module requested are withdrawn (R424); the records of the rise that follows name them (R375). -/
def State.withdrawSteps (s : State) (dest : Nat) : State :=
  let gone := s.requests.filter fun q => decide (q.rank = dest)
  if gone.isEmpty then s
  else
    { s with
      requests := s.requests.filter fun q => decide (q.rank ≠ dest)
      plat := { s.plat with stepBy := (if s.plat.stepAt = s.time then s.plat.stepBy else []) ++ gone.map fun q => (q.rank, q.die, q.event)
                            stepAt := s.time, lastUp := s.time } }

/-- A destination's route state is lost: every die acts on it at once (R335, R422). -/
def State.lostEverywhere (s : State) (dest : Nat) : State :=
  (([0, 1, 2, 3].foldl (fun s e => s.loseAt e dest) (s.withdrawSteps dest)).chunksLost dest).writeStatus (some dest)

/-- A destination is declared lost by a die: the route state is the module's; only the declaring die writes the record
(R335). -/
def State.declareLost (s : State) (d dest : Nat) : State :=
  if !s.routed dest then s
  else
    let oldest := (s.packets.filter fun p => decide (p.die = d ∧ p.dest = dest)).head?.map Packet.seq
    let r := s.routes.get dest 0
    (({ s with routes := s.routes.set dest ((r &&& 0x3FFF) ||| 0x8000) } : State).lostEverywhere dest).sysEvent d 0x03 dest (oldest.getD 0)

/-- DESTINATION_LOST (R335): a packet to the destination is unanswered 2 ms after its first send. -/
def State.destinationLost (s : State) (d dest : Nat) : State :=
  if s.packets.any fun p => decide (p.die = d ∧ p.dest = dest ∧ p.first + 2 * msTicks ≤ s.time) then s.declareLost d dest else s

/-- RESTART_REFUSAL (R422): the destination has restarted, and is lost at once. -/
def State.restartRefusal (s : State) (d dest : Nat) : State :=
  if s.packets.any fun p => decide (p.die = d ∧ p.dest = dest) && !p.isLoad then s.declareLost d dest else s

/-- ALLOWANCE_COLLAPSE (R422): a window that has stayed at 1 for 2^24 cycles is reported once. -/
def State.collapse (s : State) (d dest : Nat) : State :=
  let a := s.allowOf d dest
  match a.since with
  | some t =>
    if t + 2 ^ 24 ≤ s.now ∧ a.told = false then (s.setAllow d dest { a with told := true }).sysEvent d 0x05 dest (s.now - t) else s
  | none => s

/-- A destination's route entry is written with state 1 (R423): every die resets its allowance record and announces a new
numbering from 1; die 0 writes code 0x04. -/
def State.restore (s : State) (dest : Nat) (record : Bool) : State :=
  let s := [0, 1, 2, 3].foldl (fun s d =>
    let s := s.setAllow d dest {}
    let s := s.modDie d fun x => { x with nextSeq := x.nextSeq.set dest 1 }
    { s with packets := s.packets ++
        [{ die := d, dest := dest, seq := 0, pred := none, line := 0, restart := true, port := s.portTo dest, first := s.time, last := s.time }] }) s
  if record then s.sysEvent 0 0x04 dest 0 else s

/-! ## Arrivals (R334, R422, R423, R439) -/

/-- The home slice of a place in HBM or die scratch, numbered in the module (R141, R145). -/
def Loc.slice (x : Loc) : Nat := 128 * x.dieOf + lineSlice x.lineNo

/-- Numbered things as runs of neighbours, in rising order. -/
def runsOf {α : Type} : List (Nat × α) → List (Nat × List α)
  | [] => []
  | (o, b) :: r =>
    match runsOf r with
    | (p, bs) :: q => if p = o + 1 then (o, b :: bs) :: q else (o, [b]) :: (p, bs) :: q
    | [] => [(o, [b])]

/-- The atomic operation of a code. -/
def atomOf (n : Nat) : AtomOp := [.add, .fadd, .min, .max, .and, .or, .xor, .exch].getD n .cas

/-- The uncorrectable word that a packet at its home reads, or reads and modifies (R143, R410). -/
def State.packetBad (s : State) (x : Loc) (r : Remote) : Option Loc :=
  match r.op with
  | .cop _ => none
  | .atomic _ w _ _ _ => s.badIn x (accSize (BitVec.ofNat 3 w))
  | .write =>
    let ws := r.bytes.map fun b => (x.plus b.1, 1)
    s.badWords.find? fun w => (ws.any fun p => w.overlaps 8 p.1 1) &&
      (!(s.sparedBy ws).contains w || r.bytes.any fun b => decide (b.2.1 ≠ 0xFF) && w.overlaps 8 (x.plus b.1) 1)

/-- A packet performed at its home: one stamp for all of its bytes (R164); its result and stamp. -/
def State.performPacket (s : State) (x : Loc) (r : Remote) : State × Nat × Nat :=
  match r.op with
  | .cop op => (s.copAt x op, 0, 0)
  | .atomic op w data cmp _ =>
    let w3 := BitVec.ofNat 3 w
    let n := accSize w3
    let old := leNat (s.locRead x n)
    let v := atomNew (atomOf op) w3 old data cmp
    let s := s.served x n
    let s := if atomOf op = .cas ∧ old ≠ cmp % 2 ^ (8 * n) then s else s.homeWrite x (leBytes n v)
    let t := s.stamp x
    ((t.2.markWritten x n).frameWritten x n, old, t.1.toNat)
  | .write =>
    let runs := runsOf (sortBy (fun a b => decide (a.1 ≤ b.1)) r.bytes)
    let s := runs.foldl (fun s p =>
      let y := x.plus p.1
      s.homeWrite y (((s.locRead y p.2.length).zip p.2).map fun b => maskOver b.2.1 b.1 b.2.2)) s
    let t := s.stamp x
    let s := (r.bytes.filter fun b => decide (b.2.1 ≠ 0xFF)).foldl (fun s b => s.fillPart (x.plus b.1)) t.2
    let s := runs.foldl (fun s p => s.markWritten (x.plus p.1) p.2.length) s
    let s := s.repair ((runs.filter fun p => p.2.all fun b => decide (b.1 = 0xFF)).map fun p => (x.plus p.1, p.2.length))
    (runs.foldl (fun s p => s.frameWritten (x.plus p.1) p.2.length) s, 0, t.1.toNat)

/-- What a home slice keeps of a sending die: the last 256 packets (R334). -/
def State.keepOf (s : State) (slice rank die : Nat) : List Kept :=
  (s.die (slice / 128)).kept.filter fun k => decide (k.slice = slice ∧ k.rank = rank ∧ k.die = die)

/-- A packet is kept, the oldest dropped. -/
def State.keep (s : State) (k : Kept) : State :=
  s.modDie (k.slice / 128) fun d =>
    let mine := fun x : Kept => decide (x.slice = k.slice ∧ x.rank = k.rank ∧ x.die = k.die)
    { d with kept := ((k :: d.kept.filter mine).take 256) ++ d.kept.filter fun x => !mine x }

def State.answer (s : State) (a : Answer) : State := { s with answers := s.answers ++ [a] }

/-- A new error that a packet meets at its home (R409). -/
def State.packetError (s : State) (x : Loc) (r : Remote) (err : SoftErr) : State :=
  match err with
  | .word pa fixed => match wordAt (wordsOf (x.align 256) 256) pa with
    | some w => if ((s.markBad w (s.heldUnit w)).packetBad x r) = some w then s.wordError w fixed none else s
    | none => s
  | .tag pa fixed => if (x.align 256).phys = pa / 256 * 256 then s.tagError x fixed none else s
  | _ => s

/-- A packet at its home: a duplicate is acknowledged with what is kept, one whose predecessor is not kept is held, any
other is performed and kept (R334). -/
def State.takePacket (s : State) (x : Loc) (r : Remote) : State × Bool :=
  let slice := x.slice
  let kept := s.keepOf slice r.rank r.die
  match kept.find? fun k => decide (k.seq = r.seq) with
  | some k => (s.answer { rank := r.rank, die := r.die, seq := r.seq, result := k.result, stamp := k.stamp, mark := r.mark, bad := k.bad }, true)
  | none =>
    if (match r.pred with | some p => !kept.any fun k => decide (k.seq = p) | none => false) then (s, false)
    else if let some w := s.packetBad x r then
      let s := (s.errorEvent w (match r.op with | .atomic _ _ _ _ false => 1 | _ => 3) none).keep { slice := slice, rank := r.rank, die := r.die, seq := r.seq, result := 0, stamp := 0, bad := true }
      (s.answer { rank := r.rank, die := r.die, seq := r.seq, mark := r.mark, bad := true }, true)
    else
      let y := s.performPacket x r
      let s := y.1.keep { slice := slice, rank := r.rank, die := r.die, seq := r.seq, result := y.2.1, stamp := y.2.2 }
      (s.answer { rank := r.rank, die := r.die, seq := r.seq, result := y.2.1, stamp := y.2.2, mark := r.mark }, true)

/-- Where an arrived packet is homed; one for what a `cresize` in progress changes comes after it (R146). -/
def State.homeOf (s : State) (r : Remote) : Option Loc := localHome (fun d => (s.die d).ways) false r.pa
def State.settleFor (s : State) (pa : Nat) : State :=
  match localHome s.scratchWays false pa with
  | some x => s.settleResize x
  | none => s

/-- HELD_PACKET_RETEST: held packets of a sending die are tested again, as long as one of them is performed. -/
def State.retest (s : State) (d rank die : Nat) : Nat → State
  | 0 => s
  | fuel + 1 =>
    let ready := fun r : Remote => decide (r.rank = rank ∧ r.die = die) && (match s.homeOf r with
      | some x =>
        let kept := s.keepOf x.slice rank die
        kept.any (fun k => decide (k.seq = r.seq)) || (match r.pred with | some p => kept.any fun k => decide (k.seq = p) | none => true)
      | none => true)
    match (s.die d).heldPk.find? ready with
    | none => s
    | some r =>
      let s := s.modDie d fun x => { x with heldPk := x.heldPk.erase r }
      match s.homeOf r with
      | some x => (s.takePacket x r).1.retest d rank die fuel
      | none => (s.answer { rank := rank, die := die, seq := r.seq, refused := true }).retest d rank die fuel

/-- REMOTE_PACKET_ARRIVAL (R334): a packet of a die that the module has no record of is answered with a restart refusal
(R422), and one outside the local map with a refusal (R439). A damaged keep table counts as a restart (R422). (log 92: DEDUCED, unsafe.) -/
def State.remoteArrival (s : State) (r : Remote) (seen : Arrival) : State :=
  let s := s.settleFor r.pa
  let s := if seen.damaged then { s with senders := s.senders.filter fun x => decide (x ≠ (r.rank, r.die)) } else s
  if !s.senders.contains (r.rank, r.die) then s.answer { rank := r.rank, die := r.die, seq := r.seq, restart := true }
  else match s.homeOf r with
    | none => s.answer { rank := r.rank, die := r.die, seq := r.seq, refused := true }
    | some x =>
      let y := (s.packetError x r seen.err).takePacket x r
      if y.2 then y.1.retest x.dieOf r.rank r.die (y.1.die x.dieOf).heldPk.length
      else y.1.modDie x.dieOf fun d => { d with heldPk := d.heldPk ++ [r] }

/-- RESTART_ANNOUNCEMENT (R423): what the module keeps of a sending die is emptied, and the announcement is acknowledged. -/
def State.restartAnnounced (s : State) (rank die : Nat) : State :=
  let drop := fun d : Die =>
    { d with kept := d.kept.filter fun k => !decide (k.rank = rank ∧ k.die = die), heldPk := d.heldPk.filter fun k => !decide (k.rank = rank ∧ k.die = die) }
  ({ s with dies := s.dies.map fun d => (d.1, drop d.2), senders := if s.senders.contains (rank, die) then s.senders else s.senders ++ [(rank, die)] } :
    State).answer { rank := rank, die := die, seq := 0 }

end Sys2Proof.Machine
end

