-- ==== Sys2Proof/Machine/Links.lean ====
section
/-! DEFINITION. Links and ports (R320 to R327, R421), ring setup (R337, R424), throttle groups, sensors, refresh and
telemetry (R344, R371 to R376), and the scrub (R409). -/

namespace Sys2Proof.Machine

/-! ## Routers and ports (R323, R327) -/

/-- EXPRESS_STARVATION_TOKEN (R323): one more express flit passes a router's output while a local flit waits for it; the
eighth gives the router a token, with which the next express flit is held and the local flit goes. (log 91: DESIGN CHOICE, unsafe.) -/
def State.expressToken (s : State) (router out : Nat) : State :=
  let k := 8 * router + out
  let n := s.express.get k 0
  { s with express := s.express.set k (if 8 ≤ n then 0 else n + 1) }

/-- The tier of a packet (R327); the module's own packets are none of tier T2. -/
def Packet.tier (p : Packet) : Nat := if p.isLoad || p.returns || p.restart then 0 else 1

/-- Whether a packet of a tier takes a port: it may still wait at the port's output. The module's sequencers send partials and
results in tier 1, its answers and its ring-check and throttle messages are of tier 0, and it sends nothing in tier 2. -/
def State.tierWaits (s : State) (port tier : Nat) : Bool :=
  s.packets.any (fun p => decide (p.tier = tier ∧ (if p.tries = 0 then p.port else p.copyPort) = port)) ||
    (decide (tier = 1) && s.wire.any fun p => decide ((s.rings.get p.2.ring 0).toNat / 2 ^ 36 % 32 = port)) ||
    (decide (tier = 0) && (s.answers.map Answer.rank ++ s.ringSent.map Prod.fst ++ s.stepMsgs.map Prod.fst).any fun d => decide (s.portTo d = port))

/-- TIER_STARVATION_GRANT (R327): a packet of a higher tier is granted while tier 1 or 2 has one waiting; at 64 that tier's
oldest packet is granted and its counter returns to 0. (log 120: DESIGN CHOICE, safe.) -/
def State.tierGrant (s : State) (port tier : Nat) : State :=
  let p := s.ports.get port {}
  let n := if tier = 1 then p.starved.1 else p.starved.2
  let higher := (List.range tier).any (s.tierWaits port)
  if !(decide (tier = 1 ∨ tier = 2) && s.tierWaits port tier && (decide (64 ≤ n) || higher)) then s
  else
    let n' := if 64 ≤ n then 0 else n + 1
    { s with ports := s.ports.set port { p with starved := if tier = 1 then (n', p.starved.2) else (p.starved.1, n') } }

/-- LINK_TRAINING (R325, R9): a port trains at a rate and learns the quarry node at its far end. -/
def State.linkTrained (s : State) (port dest : Nat) (fast : Bool) : State :=
  let p := s.ports.get port {}
  { s with ports := s.ports.set port { p with up := true, dest := dest, fast := fast } }

/-- The die of a link by its number (R421), and the error counter it counts in (R413). -/
def linkDie (n : Nat) : Nat :=
  if n < 64 then n / 8 % 4
  else
    let r := (n - 64) / 3
    r / 8 % 16 / 8 + 2 * (r % 8 / 4)
def linkKind (n : Nat) : Nat := if n < 64 then 8 else 7

/-- FLIT_CRC_REPLAY (R421): a flit or beat with a CRC error is discarded and replayed; a replay that succeeds counts one
corrected event, one that fails counts towards a retrain. -/
def State.crcReplay (s : State) (n : Nat) (ok : Bool) : State :=
  let l := s.links.get n {}
  if ok then
    let s := (s.countError (linkDie n) (linkKind n) false).2
    { s with links := s.links.set n { l with failed := 0 } }
  else { s with links := s.links.set n { l with failed := l.failed + 1 } }

/-- A port goes down: every entry with it as primary port sets alt, and the destinations that were not unrouted move to their
alternate port (R421). -/
def State.portDown (s : State) (p : Nat) : State :=
  let moves := fun e : BitVec 16 => decide (routePort e = p) && !routeAlt e
  let n := (s.routes.filter fun r => moves r.2 && decide (r.2.toNat / 2 ^ 14 ≠ 0)).length
  let port := s.ports.get p {}
  let s := { s with routes := (List.range 512).foldl (fun t d => if moves (t.get d 0) then t.set d (t.get d 0 ||| 0x2000) else t) s.routes, ports := s.ports.set p { port with up := false } }
  (s.writeStatus none).sysEvent (p / 8) 0x02 p n

/-- LINK_RETRAIN (R421): after 16 consecutive failed replays a link retrains, a port perhaps at the lower rate; one that
fails three times within a second is down. -/
def State.linkRetrain (s : State) (n : Nat) (ok fast : Bool) : State :=
  let l := s.links.get n {}
  if l.failed < 16 ∨ l.isDown = true then s
  else
    let s := (s.countError (linkDie n) (linkKind n) true).2
    if ok then
      let rate := if n < 64 then (if fast then 212500 else 106250) else s.fresh.1
      let s := if n < 64 then s else s.fresh.2
      let port := s.ports.get n {}
      let s := { s with links := s.links.set n { l with failed := 0 }, ports := if n < 64 then s.ports.set n { port with fast := fast } else s.ports }
      s.sysEvent (linkDie n) 0x01 n rate
    else
      let times := s.time :: l.retrains.filter fun t => decide (s.time ≤ t + 1000 * msTicks)
      let down := decide (3 ≤ times.length)
      let s := { s with links := s.links.set n { l with retrains := times, isDown := down } }
      if down && decide (n < 64) then s.portDown n else s

/-- PORT_UP (R421): a port that comes back takes its route entries back. -/
def State.portUp (s : State) (p : Nat) : State :=
  let port := s.ports.get p {}
  let s := { s with
    ports := s.ports.set p { port with up := true }
    links := s.links.set p {}
    routes := s.routes.map fun (r : Nat × BitVec 16) => (r.1, if routePort r.2 = p then r.2 &&& 0xDFFF else r.2) }
  s.writeStatus none

/-! ## Ring setup (R336, R337, R424) -/

/-- The ring entry that hardware builds for a member list, without valid. -/
def State.ringEntry (s : State) (members : List Nat) : Word :=
  let n := members.length
  let pos := members.idxOf s.rank
  let at_ := fun i : Nat => members.getD (i % n) 0
  let next := at_ (pos + 1)
  let prev := at_ (pos + n - 1)
  let port := fun d : Nat => routePort (s.routes.get d 0)
  BitVec.ofNat 64 (n % 512 + 2 ^ 9 * pos + 2 ^ 18 * next + 2 ^ 27 * prev + 2 ^ 36 * port next + 2 ^ 41 * port prev)

/-- Whether a member list passes (R337). -/
def State.membersOk (s : State) (members : List Nat) : Bool :=
  decide (2 ≤ members.length ∧ members.length ≤ 384) && members.all (fun r => decide (r < 384)) && decide members.Nodup && members.contains s.rank

/-- A checked member list is kept with the one before it (R337). -/
def State.listRing (s : State) (ring : Nat) (members : List Nat) : State :=
  { s with ringLists := s.ringLists.set ring ((members :: s.ringLists.get ring []).take 2) }

/-- A setup in hardware mode begins: both neighbours are asked (R337). (log 63: DESIGN CHOICE, unsafe.) -/
def State.ringSetup (s : State) (ring : Nat) (members : List Nat) : State :=
  let e := s.ringEntry members
  { s with ringChecks := s.ringChecks.filter (fun c => decide (c.ring ≠ ring)) ++ [{ ring := ring, entry := e, born := s.time }]
           ringSent := s.ringSent ++ [(ringPrev e, ring), (ringNext e, ring)] }

/-- RING_CHECK (R337): a neighbour's ring-check message is taken and answered. -/
def State.ringChecked (s : State) (rank ring : Nat) : State := s.answer { rank := rank, die := 0, seq := ring }

/-- RING_CHECK_ANSWER (R337): a neighbour has answered; once both have, the new entry takes effect. -/
def State.ringAnswered (s : State) (ring : Nat) (prev : Bool) : State :=
  match s.ringChecks.find? fun c => decide (c.ring = ring) with
  | none => s
  | some c =>
    let c := if prev then { c with prevOk := true } else { c with nextOk := true }
    if c.prevOk && c.nextOk then
      ({ s with ringChecks := s.ringChecks.filter (fun c => decide (c.ring ≠ ring)), rings := s.rings.set ring (c.entry ||| 0x400000000000) } : State).sysEvent
        0 0x0B ring (ringN c.entry)
    else { s with ringChecks := s.ringChecks.map fun d => if d.ring = ring then c else d }

/-- RING_SETUP_TIMEOUT (R424): a neighbour has not answered within 2 ms; the entry is left invalid. (log 64: DESIGN CHOICE, unsafe.) -/
def State.ringTimeout (s : State) (ring : Nat) : State :=
  match s.ringChecks.find? fun c => decide (c.ring = ring) with
  | none => s
  | some c =>
    if s.time < c.born + 2 * msTicks then s
    else
      ({ s with ringChecks := s.ringChecks.filter (fun c => decide (c.ring ≠ ring))
                rings := s.rings.set ring (s.rings.get ring 0 &&& ~~~0x400000000000#64) } : State).sysEvent
        0 0x0A ring (if c.prevOk then ringNext c.entry else ringPrev c.entry)

/-! ## Throttle groups (R344, R373, R375) -/

/-- The lowest step requested of the module's dies. -/
def State.lowestStep (s : State) : Nat := s.requests.foldl (fun m r => min m r.step) 32

/-- A die's events that apply, as the detail bits of R375. -/
def State.eventBits (s : State) (d : Nat) : Nat :=
  (s.requests.filter fun r => decide (r.rank = s.rank ∧ r.die = d)).foldl (fun b r => b ||| 2 ^ r.event) 0

/-- What a die's record of a change to step k names (R375): the die's own events where it asked for the step or for what the
group rises from, else bit 5; and the requesting die. (log 94: DEDUCED, unsafe.) -/
def State.stepDetail (s : State) (k d : Nat) : Nat :=
  let by_ := fun l : List (Nat × Nat × Nat) =>
    match l.filter fun b => decide (b.1 = s.rank ∧ b.2.1 = d), l with
    | [], [] => 0
    | [], b :: _ => 2 ^ 5 + 2 ^ 48 * ((4 * b.1 + b.2.1) % 65536)
    | own, _ => (own.foldl (fun m b => m ||| 2 ^ b.2.2) (s.eventBits d)) + 2 ^ 48 * ((4 * s.rank + d) % 65536)
  if k < (s.die 0).step then by_ ((s.requests.filter fun r => decide (r.step ≤ k)).map fun r => (r.rank, r.die, r.event)) else by_ s.plat.stepBy

/-- Every die applies a step, and writes its record of type 0x0C (R375). -/
def State.applyStep (s : State) (k : Nat) : State :=
  let ds := (List.range 4).map fun d => (d, s.stepDetail k d)
  let s := { s with plat := { s.plat with stepCount := s.plat.stepCount + 1 } }
  ds.foldl (fun s d =>
    (s.modDie d.1 fun x => { x with step := k }).postEvent (4 * d.1) (s.event 0 0xFFFF 0 0x0C d.1 0xFF k (BitVec.ofNat 64 d.2))) s

/-- A lower request is applied at once; a withdrawn one lets THROTTLE_STEP_UP raise the step (R344). -/
def State.settleStep (s : State) : State :=
  if s.lowestStep < (s.die 0).step then s.applyStep s.lowestStep else s

/-- The requests with one die's request for an event taken out. -/
def State.otherRequests (s : State) (rank die event : Nat) : List StepReq :=
  s.requests.filter fun r => !decide (r.rank = rank ∧ r.die = die ∧ r.event = event)

/-- The other members of the module's valid rings but those with a member `but`, each once (R344); a lost one has left every
group (R424). -/
def State.stepGroup (s : State) (but : Option Nat) : List Nat :=
  let rings := (s.rings.filter fun r => ringValid r.2).map fun r => s.membersOf r.1 r.2
  let rings := match but with | some m => rings.filter (fun (l : List Nat) => !l.contains m) | none => rings
  (rings.flatten.filter fun m => decide (m ≠ s.rank) && !s.isLost m).eraseDups

/-- A die's request goes to the members of the module's rings (R344). -/
def State.sendStep (s : State) (but : Option Nat) (rank die step : Nat) : State :=
  { s with stepMsgs := s.stepMsgs ++ (s.stepGroup but).map fun m => (m, rank, die, step) }

/-- A request is raised, or withdrawn at step 32. -/
def State.putRequest (s : State) (rank die event step : Nat) : State :=
  let rest := s.otherRequests rank die event
  { s with
    requests := if 32 ≤ step then rest else rest ++ [{ rank := rank, die := die, event := event, step := max 16 step, born := s.time }]
    plat := { s.plat with stepBy := (if s.plat.stepAt = s.time then s.plat.stepBy else []) ++ [(rank, die, event)], stepAt := s.time, lastUp := s.time } }

/-- The step that a die of the module requests: the lowest of its events', 32 where none applies (R373). -/
def State.stepOf (s : State) (d : Nat) : Nat :=
  (s.requests.filter fun r => decide (r.rank = s.rank ∧ r.die = d)).foldl (fun m r => min m r.step) 32

/-- A die's own request for an event changes, and the die sends what it now requests (R344). -/
def State.ownRequest (s : State) (die event step : Nat) : State :=
  let s := s.putRequest s.rank die event step
  s.sendStep none s.rank die (s.stepOf die)

/-- THROTTLE_REQUEST (R344): a request from a die of a group of the module, with its step, or its withdrawal; a module that
is in no ring has none. What changes the module's step, or ends what did, is passed on to its other groups.
(log 121: DEDUCED, unsafe.) -/
def State.throttleRequest (s : State) (rank die step : Nat) : State :=
  if rank = s.rank ∨ s.isLost rank = true ∨ s.stepGroup none = [] then s
  else
    let old := (s.otherRequests rank die 5).length < s.requests.length
    let s' := (s.putRequest rank die 5 step).settleStep
    if (s'.die 0).step ≠ (s.die 0).step ∨ (32 ≤ step ∧ old) then s'.sendStep (some rank) rank die step else s'

/-- THROTTLE_STEP_UP (R344): 1 ms after the last withdrawal or rise, every die climbs one step towards the lowest still
requested. -/
def State.stepUp (s : State) : State :=
  let k := (s.die 0).step
  if k < s.lowestStep ∧ s.plat.lastUp + msTicks ≤ s.time then
    { s.applyStep (k + 1) with plat := { (s.applyStep (k + 1)).plat with lastUp := s.time } }
  else s

/-! ## Sensors (R372, R373, R376) -/

/-- The last sample of a sensor: 0–3 compute and 4–7 cache junctions, 8–15 stacks, 16 inlet, 17 outlet, 18 flow, 19–22
compute-die, 23–26 cache-die, 27 HBM4E and 28 SerDes and host-port power, each in sixteenths of its unit. -/
def State.sensor (s : State) (n : Nat) : Option Int := (s.plat.sensors.get n []).head?.map Prod.snd

/-- Whether the last sample of one of some sensors satisfies a test. -/
def State.anySensor (s : State) (l : List Nat) (p : Int → Bool) : Bool := l.any fun n => match s.sensor n with | some x => p x | none => false

/-- Fifty times the average of a power sensor over the samples of the last 1 ms. -/
def State.avg50 (s : State) (n : Nat) : Int :=
  let l := s.plat.sensors.get n []
  if l.isEmpty then 0 else l.foldl (fun a x => a + x.2) 0 * 50 / (l.length : Int)

/-- The averaged power of a die's stack, and of the module, in units of 1/800 W; a die has a quarter of the HBM4E sensor, and
the module's power is the sum of the ten sensors, without what no sensor of R372 measures. (log 122: DESIGN CHOICE, unsafe.) -/
def State.diePower (s : State) (d : Nat) : Int := s.avg50 (19 + d) + s.avg50 (23 + d) + s.avg50 27 / 4
def State.modulePower (s : State) : Int := (List.range 10).foldl (fun n i => n + s.avg50 (19 + i)) 0

/-- The junctions and the stacks of a die. -/
def junctions (d : Nat) : List Nat := [d, 4 + d]
def stacksOf (d : Nat) : List Nat := [8 + 2 * d, 9 + 2 * d]

/-- Whether an event of R373 is raised on a die, and whether it is withdrawn: at 110 °C and 115 °C it is a trip, and no
longer an event (R374). -/
def State.raised (s : State) (d event : Nat) : Bool :=
  if event = 0 then s.anySensor (junctions d) fun x => decide (1600 < x ∧ x < 1760)
  else if event = 1 then decide (660 * 800 < s.diePower d)
  else if event = 2 then decide (2800 * 800 < s.modulePower)
  else if event = 3 then s.anySensor [16] (fun x => decide (57 * 16 < x)) || s.anySensor [18] fun x => decide (x * 10 < 36 * 16)
  else s.anySensor (stacksOf d) fun x => decide (105 * 16 < x ∧ x < 115 * 16)
def State.withdrawn (s : State) (d event : Nat) : Bool :=
  if event = 0 then !s.anySensor (junctions d) fun x => decide (97 * 16 < x)
  else if event = 1 then decide (s.diePower d ≤ 640 * 800)
  else if event = 2 then decide (s.modulePower ≤ 2740 * 800)
  else if event = 3 then !(s.anySensor [16] (fun x => decide (55 * 16 < x)) || s.anySensor [18] fun x => decide (x < 4 * 16))
  else !s.anySensor (stacksOf d) fun x => decide (103 * 16 < x)

/-- A die's request for an event. -/
def State.request? (s : State) (d event : Nat) : Option StepReq :=
  s.requests.find? fun r => decide (r.rank = s.rank ∧ r.die = d ∧ r.event = event)

/-- THROTTLE_EVENT (R373): an event on a die raises or withdraws its request. -/
def State.throttleEvent (s : State) (d event : Nat) : State :=
  match s.request? d event with
  | some _ => if s.withdrawn d event then s.ownRequest d event 32 else s
  | none =>
    if s.raised d event then s.ownRequest d event (if event = 3 then 28 else if event = 4 then 24 else (s.die 0).step - 1) else s

/-- Whether every sensor is within the envelope of R371. -/
def State.inEnvelope (s : State) : Bool :=
  let ok := fun (n : Nat) (p : Int → Bool) => match s.sensor n with | some x => p x | none => false
  (List.range 8).all (fun n => ok n fun x => decide (x ≤ 1600)) && ok 16 (fun x => decide (x ≤ 55 * 16)) && ok 18 fun x => decide (4 * 16 ≤ x)

/-- Since when a condition holds. -/
def since (now : Nat) (holds : Bool) (old : Option Nat) : Option Nat := if holds then some (old.getD now) else none

/-- The sample period of a sensor (R372). -/
def samplePeriod (n : Nat) : Nat := if 8 ≤ n ∧ n ≤ 15 then msTicks else if 16 ≤ n ∧ n ≤ 18 then 10 * msTicks else 20 * usTicks

/-- SENSOR_SAMPLE (R372): once its period is over, the management controller takes a sample of a sensor, and throttle events
follow it. (log 123: DEDUCED, unsafe.) -/
def State.sample (s : State) (n : Nat) (x : Int) : State :=
  let old := s.plat.sensors.get n []
  if 29 ≤ n ∨ ((old.head?.map fun y => decide (s.time < y.1 + samplePeriod n)).getD false) = true then s
  else
    let p := { s.plat with sensors := s.plat.sensors.set n ((s.time, x) :: old.filter fun y => decide (s.time < y.1 + msTicks)) }
    let s := { s with plat := p }
    let s := { s with plat := { p with
      flowLow := since s.time (s.anySensor [18] fun x => decide (x < 2 * 16)) p.flowLow
      inletHot := since s.time (s.anySensor [16] fun x => decide (65 * 16 < x)) p.inletHot
      okSince := since s.time s.inEnvelope p.okSince } }
    if s.phase == Phase.off then s
    else ([0, 1, 2, 3].foldl (fun s d => [0, 1, 2, 3, 4].foldl (fun s e => s.throttleEvent d e) s) s).settleStep

/-- THROTTLE_REPEAT (R373): a junction event that still holds requests one step lower every 100 µs, a power event every
1 ms, down to 16; the module's power is every die's event. -/
def State.throttleRepeat (s : State) (d event : Nat) : State :=
  let wait := if event = 0 then 100 * usTicks else msTicks
  let k := max 16 ((s.die 0).step - 1)
  ((if event = 2 then [0, 1, 2, 3] else [d]).foldl (fun s d =>
    match s.request? d event with
    | some r => if event ≤ 2 ∧ r.born + wait ≤ s.time ∧ s.raised d event = true then s.ownRequest d event (min r.step k) else s
    | none => s) s).settleStep

/-- The upper limit of a refresh band in sixteenths of a degree (R376). -/
def bandLimit (b : Nat) : Int := if b = 0 then 85 * 16 else if b = 1 then 95 * 16 else 105 * 16

/-- The band of a temperature, from the band before. -/
def nextBand (b : Nat) (t : Int) : Nat :=
  let up := (List.range 3).foldl (fun b i => if b = i ∧ bandLimit i < t then i + 1 else b) b
  if up ≠ b then up
  else [2, 1, 0].foldl (fun b i => if b = i + 1 ∧ t ≤ bandLimit i - 32 then i else b) b

/-- REFRESH_BAND_EVALUATION (R376): every 1 ms a stack's band follows its temperature, and a change writes a record of type
0x0D. -/
def State.refreshBand (s : State) (stack : Nat) : State :=
  match s.sensor (8 + stack) with
  | none => s
  | some t =>
    if 8 ≤ stack ∨ (((s.plat.bandAt.find stack).map fun y => decide (s.time < y + msTicks)).getD false) = true then s
    else
      let b := s.plat.band.get stack 0
      let n := nextBand b t
      let s : State := { s with plat := { s.plat with bandAt := s.plat.bandAt.set stack s.time } }
      if n = b then s
      else
        let d := stack / 2
        ({ s with plat := { s.plat with band := s.plat.band.set stack n } } : State).postEvent (4 * d)
          (s.event 0 0xFFFF 0 0x0D d 0xFF (stack % 2 + 16 * n) (BitVec.ofInt 64 t))

/-- The 128 bytes of a telemetry record (R375): 16-bit words of the sensors, steps and bands, then the count of step changes
and the time in its last two words. (log 95: DESIGN CHOICE, unsafe.) -/
def State.telemetryBytes (s : State) : List Byte :=
  let w := fun x : Int => leBytes 2 (BitVec.ofInt 16 x).toNat
  let head := (List.range 29).flatMap (fun n => w ((s.sensor n).getD 0)) ++
    [0, 1, 2, 3].flatMap (fun d => leBytes 2 (s.die d).step) ++ (List.range 8).flatMap fun k => leBytes 2 (s.plat.band.get k 0)
  head ++ List.replicate (112 - head.length) 0 ++ leBytes 8 s.plat.stepCount ++ leBytes 8 s.ns

/-- SCRUB (R409): a vault controller reads an 8-byte word of its vault; `err` is what it finds: 1 a correctable error, 2 an
uncorrectable one, which is left as it is. -/
def State.scrub (s : State) (die l err : Nat) : State :=
  let x : Loc := .hbm die (l / 8 * 8)
  if err = 1 then s.errorAt 3 x 0 none
  else if err = 2 then (s.markBad x 3).errorAt 3 x 2 none
  else s

end Sys2Proof.Machine
end

