-- ==== Sys2Proof/Machine/Tasks.lean ====
section
/-! DEFINITION. Dispatch of tasks and gangs to cores (R33 to R35, R42, R50, R64, R67 to R73), work donation (R74), and the
end of a task (R77, R78, R342). -/

namespace Sys2Proof.Machine

/-! ## Free resources (R67, R71) -/

/-- The cores of a cluster that run tasks of a kind. -/
def coresOf (cl : Nat) (ctl : Bool) : List Nat :=
  if ctl then [132 * (cl / 4) + 128 + cl % 4] else (List.range 32).map fun j => 132 * (cl / 4) + 32 * (cl % 4) + j

/-- The granules of a core's pool (R67). -/
def poolSize (core : Nat) : Nat := if isCtl core then 16 else 128

/-- The granules, task slot and courses that are free. -/
def Core.freeGranules (k : Core) (core : Nat) : List Nat :=
  let used := k.tasks.flatMap fun t => t.2.regG ++ t.2.spG ++ t.2.accG
  (List.range (poolSize core)).filter fun g => !used.contains g
def Core.freeSlot (k : Core) : Option Nat := (List.range 16).find? fun i => (k.tasks.find i).isNone
def Task.allCourses (t : Task) : List Nat := if t.width = 2 then t.courses ++ t.courses.map (· + 64) else t.courses
def Core.usedCourses (k : Core) : List Nat := k.tasks.flatMap fun t => t.2.allCourses

/-- `n` courses of a core, on the lanes with the fewest occupied courses and then the lowest numbers; pairs take whole
free lanes (R37, R71). -/
def pickCourses (core width : Nat) : Nat → List Nat → Option (List Nat)
  | 0, _ => some []
  | n + 1, used =>
    let all := if isCtl core then List.range 16 else if width = 2 then List.range 64 else List.range 128
    let load := fun c : Nat => (used.filter fun x => decide (laneOf core x = laneOf core c)).length
    let free := all.filter fun c => !used.contains c && (width ≠ 2 || load c = 0)
    match free.foldl (fun m c => match m with | none => some c | some b => if load c < load b then some c else some b) none with
    | none => none
    | some c => (pickCourses core width n (c :: used)).map (c :: ·)

/-- A core's slot and courses for a task of a node. -/
structure Seat where
  core : Nat
  slot : Nat
  courses : List Nat
  room : Nat
  deriving DecidableEq, Repr

/-- Where a task of a node fits on a core (R69, R71). -/
def State.seat (s : State) (n : Node) (core : Nat) : Option Seat :=
  let k := s.core core
  let room := (k.freeGranules core).length
  if k.noDispatch ∨ room < n.regG + n.spG + n.accG then none
  else match k.freeSlot, pickCourses core n.width (if n.width = 2 then n.courses / 2 else n.courses) k.usedCourses with
    | some i, some cs => some { core := core, slot := i, courses := sortBy (fun a b => decide (a ≤ b)) cs, room := room }
    | _, _ => none

/-! ## A task enters a core (R42, R50, R64, R68) -/

/-- A thread at task entry. -/
def entryThread (n : Node) (tid : Nat) : Thread :=
  { tid := tid, live := true, sup := n.ctl, pc := n.entry
    v := regSet (regSet (Vector.replicate 32 0) 0 (BitVec.ofNat 64 tid)) 15 (BitVec.ofNat 64 n.pvsz) }

/-- A course at task entry: the `i`th of its task; a control core's course holds one thread (R11). -/
def entryCourse (n : Node) (slot i x y z : Nat) : Course :=
  let w := if n.ctl then 1 else if n.width = 2 then 64 else 32
  let first := if n.width = 2 then 64 * i else 32 * i
  let c := [(28, x), (29, y), (30, z)].foldl (fun (r : Vector Word 32) p => regSet r (BitVec.ofNat 5 p.1) (BitVec.ofNat 64 p.2))
    (Vector.replicate 32 0)
  { task := slot, pos := i, threads := (List.range w).map fun j => entryThread n (first + j), c := regSet c 31 n.param }

/-- The registers of a node's image (R64). -/
def imageVec {α : Type} (n : Nat) (zero : α) (l : List (Nat × α)) : Vector α n :=
  Vector.ofFn fun i : Fin n => Tab.get l i.val zero

/-- The task that a reference names, as it is at entry on a core whose granules are given. -/
def entryTask (g : Graph) (n : Node) (r : TaskRef) (q : Seat) (grans : List Nat) : Task :=
  { num := if r.resumed.isSome then r.num else q.slot
    ref := { r with resumed := none, num := 0, held := [], convs := [], uncounted := [], bodies := [], marks := [] }, rank := r.index % max 1 n.gang, gang := max 1 n.gang
    x := r.index % max 1 n.gx, y := r.index / max 1 n.gx % max 1 n.gy, z := r.index / (max 1 n.gx * max 1 n.gy)
    width := n.width, ctl := n.ctl, ctx := g.ctx, prio := n.prio, courses := q.courses
    pvBase := g.ctxa.toNat + (g.ctxs + 4095) / 4096 * 4096 + r.index * 32 * n.courses * n.pvsz, pvsz := n.pvsz
    h := imageVec 16 0 n.handles, m := imageVec 32 0 n.layouts
    regG := grans.take n.regG, spG := (grans.drop n.regG).take n.spG, accG := (grans.drop (n.regG + n.spG)).take n.accG }

/-- Granules of a pool are zeroed: the words in them are good again (R68, R410). -/
def State.zeroGranules (s : State) (core : Nat) (gs : List Nat) : State :=
  { s with
    pool := s.pool.filter fun c => !(decide (c.1 / 2 ^ 21 = core) && gs.contains (c.1 % 2 ^ 21 / 16384))
    badWords := s.badWords.filter fun b => match b with | .pool k o => !(decide (k = core) && gs.contains (o / 16384)) | _ => true }

/-- The barrier instances of a task slot and its courses begin anew. -/
def State.clearBars (s : State) (core slot : Nat) (courses : List Nat) : State :=
  { s with bars := s.bars.filter fun b =>
      !(decide (b.key.place = core) &&
        ((decide (b.key.scope = 1) && courses.contains (b.key.group / 2)) || decide (b.key.scope = 2 ∧ b.key.group = slot))) }

/-- A task starts at its node's entry: its start is an acquire at scope `pod` (R42, R50, R64, R68, R78). Which free
granules it takes is open. -/
def State.enterTask (s : State) (g : Graph) (n : Node) (r : TaskRef) (q : Seat) : State :=
  let o := s.shuffle ((s.core q.core).freeGranules q.core)
  let tk := entryTask g n r q o.1
  let s := ((o.2.zeroGranules q.core (tk.regG ++ tk.spG ++ tk.accG)).clearBars q.core q.slot q.courses).invalLane q.core
  s.modCore q.core fun k =>
    { k with
      tasks := k.tasks.set q.slot tk
      courses := q.courses.zipIdx.foldl (fun t c => t.set c.1 (entryCourse n q.slot c.2 tk.x tk.y tk.z)) k.courses }

/-! ## The end of a task (R77, R78, R342) -/

/-- The chunk that a bound task fires, from its registers as they stand at its end (R341, R342). -/
def State.boundChunk (s : State) (core : Nat) (tk : Task) (b : Binding) : Chunk :=
  let w := b.words.map BitVec.toNat
  let f := fun k lo n : Nat => w.getD k 0 / 2 ^ lo % 2 ^ n
  let index := (f 1 0 32 + f 1 32 16 * tk.x + f 1 48 16 * tk.y + f 0 48 16 * tk.z) % 2 ^ 32
  let desc := descWords w 2
  let block := [0, f 0 0 16 + 2 ^ 16 * f 0 24 4 + 2 ^ 20 * f 0 28 4 + 2 ^ 24 * f 0 16 8 + 2 ^ 32 * index] ++ desc ++ desc ++ [f 6 0 64, 0]
  let os := (wantsOf 3 block []).map (opndOf tk {} block)
  let kind := hKind (os.headD { q := accWants false, d := descOf desc, h := 0, m := 0, xs := [] }).h
  let bad := !(kind == 4 || kind == 5) || (formatFault 3 block os).isSome || (layoutFault 3 os).isSome || (coordFault os).isSome ||
    (os.any fun o => (s.opndFault core tk o).isSome)
  let o := (os.map (s.snapshot core tk block)).headD {}
  let ext := (blkExts block).take (layoutOf o.layout).ndims
  let dtype := f 0 28 4
  { cid := f 0 0 16, index := index, ring := f 0 16 8, dtype := dtype, cop := f 0 24 4
    bytes := ext.foldl (· * ·) 1 * collBytes dtype, core := core, ctx := tk.ctx, sup := false, contrib := o, result := o, ext := ext
    record := if f 0 32 1 = 1 then some (glAt (f 7 0 64), 32 * index) else none, intr := decide (f 0 33 1 = 1)
    id := s.nextId, status := if bad then some 2 else none }

/-- A bound task's chunk fires: it reaches the sequencer as a CHUNK_START, and one that is refused ends at once. (log 61: DEDUCED, unsafe.) -/
def State.fireChunk (s : State) (core : Nat) (tk : Task) : State :=
  match s.graph? tk.ref.die tk.ref.graph, s.node? tk.ref.die tk.ref.graph tk.ref.node with
  | some g, some n =>
    if n.cbix = 0xFFFF then s
    else
      let c := s.boundChunk core tk (g.binds.get n.cbix {})
      ({ s with chunks := s.chunks ++ [c], nextId := s.nextId + 1 } : State).settleChunks
  | _, _ => s

/-- Whether a cluster can take one more record now (R75, R80). -/
def State.recordRoom (s : State) (cl : Nat) : Bool :=
  (s.cluster cl).evWait.isEmpty && ((s.cluster cl).evRoom || (s.cluster cl).ovRoom)

/-- The accesses of a task's courses that are still on their way. -/
def State.taskAccesses (s : State) (core : Nat) (tk : Task) : List Nat :=
  (s.inflight.filter fun a => decide (a.core = core) && tk.courses.contains a.course).map Access.id

/-- Whether a task's commands have all retired. -/
def Core.taskCmds (k : Core) (slot : Nat) : List Cmd := k.queues.toList.flatten.filter fun x => decide (x.task = slot)

/-- A task's resources become free (R77). -/
def State.freeTask (s : State) (core slot : Nat) (tk : Task) : State :=
  (s.modCore core fun k =>
    { k with tasks := k.tasks.erase slot, courses := k.courses.filter fun c => !tk.courses.contains c.1 }).clearBars core slot tk.courses

/-- The status of a task's end record: 2 where a trap ended it, 1 where a destination was lost (R77, R80). -/
def State.endStatus (s : State) (core : Nat) (tk : Task) : Nat :=
  if tk.status = 2 then 2
  else if tk.courses.any fun n => !((s.course? core n).getD {}).lostDests.isEmpty then 1 else 0

/-- TASK_END (R77): nothing happens until every thread has exited, every command has retired, every store is acknowledged
and the record, if one is asked for, has room. -/
def State.taskEnd (s : State) (core slot : Nat) : State :=
  match s.task? core slot with
  | none => s
  | some tk =>
    let out := s.taskAccesses core tk
    if !tk.courses.all (fun n => ((s.course? core n).getD {}).allLive.isEmpty) || !((s.core core).taskCmds slot).isEmpty then s
    else if !out.isEmpty then s.dueFor core out
    else
      let rec_ := ((s.graph? tk.ref.die tk.ref.graph).map Graph.taskrec).getD false
      if rec_ && !s.recordRoom (4 * tk.ref.die) then s
      else
        let e := s.event tk.ref.graph tk.ref.node (s.endStatus core tk) 0x01 (coreDie core) (coreIn core) tk.ref.index 0
        let s' := s.freeTask core slot tk
        let s' := if rec_ then s'.postEvent (4 * tk.ref.die) e else s'
        (s'.taskCounted tk.ref).fireChunk core tk

/-- OVERFLOW_RECORD (R80). -/
def State.overflowRecord (s : State) (cl : Nat) : State :=
  let c := s.cluster cl
  if c.ovPending && c.evRoom then s.drainEvents cl else s

end Sys2Proof.Machine
end

