-- ==== Sys2Proof/Machine/Waits.lean ====
section
/-! DEFINITION. The ends of waits that no instruction brings about: fixed-latency results, convergence and barriers with
their time-outs, yields, parking, walks, divides and the delivery of traps (R25, R31, R82, R147, R215, R228, R238, R379, R395). -/

namespace Sys2Proof.Machine

/-! ## Results -/

/-- FIXED_LATENCY_RESULT (R25): what is readable by now is in its register. A group that is fetch-suspended reads its
registers as of its cycles in the lane, so its course keeps its results apart until it goes on. -/
def State.latencyResult (s : State) (core course : Nat) : State :=
  s.modCourse core course fun c => if c.again.isSome then c else c.settleAll s.now

/-- DIVIDE_RESULT (R215): a quotient or remainder reaches its register. -/
def State.divideResult (s : State) (id : Nat) : State :=
  match findAt (fun d => decide (d.id = id ∧ d.ready ≤ s.now)) s.divs with
  | none => s
  | some d =>
    let s := { s with divs := s.divs.filter fun x => decide (x.id ≠ id) }
    match d.dst with
    | .c r => s.modCourse d.core d.course fun c =>
        if c.csb.contains (d.dst, id) then
          { (c.resultC r d.val s.now 0) with csb := c.csb.filter fun e => decide (e ≠ (d.dst, id)) }
        else c
    | _ => s.modCourse d.core d.course fun c => c.modBoth d.slot fun t => t.arrive d.dst id d.val

/-! ## Convergence (R31, R236, R395) -/

/-- CONVERGENCE_RELEASE (R31). -/
def State.convergenceRelease (s : State) (core course : Nat) : State :=
  match (s.course? core course).map Course.task with
  | none => s
  | some k => s.modCourse core course fun c => c.converge (((s.task? core k).map Task.width).getD 0) s.now

/-- The first thread whose convergence wait has lasted too long. -/
def Course.convLate (c : Course) (w now : Nat) : Option Nat :=
  c.allLive.find? fun i =>
    match (c.thread i).wait with
    | .conv _ _ due _ => decide (due ≠ 0 ∧ due ≤ now) && !c.convDone (c.unit w i) i now
    | _ => false

/-- The live threads that a thread's convergence wait names. -/
def Course.convNamed (c : Course) (w now i : Nat) : List Nat :=
  (c.liveSlots (c.unit w i)).filter fun j =>
    match (c.thread i).wait with
    | .conv m none _ _ => m.testBit j
    | .conv m (some q) _ _ => m.testBit j && (c.thread j).readQ q now
    | _ => false

/-- Whether a thread waits at the `cnv` at an address. -/
def Thread.convAt (t : Thread) (pc : Word) : Bool :=
  match t.wait with
  | .conv .. => t.live && decide (t.pc = pc)
  | _ => false

/-- CONVERGENCE_TIMEOUT (R395): the course receives 0x31; the timers of the waits at that `cnv` run no more. -/
def State.convergenceTimeout (s : State) (core course : Nat) : State :=
  match s.course? core course with
  | none => s
  | some c =>
    let w := ((s.task? core c.task).map Task.width).getD 0
    match c.convLate w s.now with
    | none => s
    | some i =>
      let t := c.thread i
      let at_ := (c.liveSlots (c.unit w i)).filter fun j => (c.thread j).convAt t.pc
      let gone := (c.convNamed w s.now i).filter fun j => !at_.contains j
      let still := fun t : Thread => match t.wait with | .conv m p _ len => { t with wait := .conv m p 0 len } | _ => t
      let x : Cause :=
        { code := 0x31, ipc := t.pc, tmask := slotMask at_, ord := t.waitOrd, missing := gone.map fun j => (core, course, j) }
      (s.modCourse core course fun c => at_.foldl (fun c j => c.modThread j still) c).defer core course x

/-! ## Barriers (R238, R395) -/

/-- Whether a thread waits at a barrier instance with its arrival counted. -/
def Thread.waitsAt (t : Thread) (k : BarKey) : Bool :=
  match t.wait with
  | .barrier k' _ true => t.live && decide (k' = k)
  | _ => false

/-- A participant of a barrier instance: core, course and slot, and the task index and `tid` under which it arrives. -/
structure Member where
  core : Nat
  course : Nat
  slot : Nat
  who : Nat × Nat
  deriving DecidableEq, Repr

/-- The live threads that take part in a barrier instance (R237). -/
def State.participants (s : State) (k : BarKey) : List Member :=
  s.cores.flatMap fun kc => kc.2.courses.flatMap fun cc =>
    match kc.2.tasks.find cc.2.task with
    | none => []
    | some tk =>
      (cc.2.allLive.filter fun i => decide (barKeyOf kc.1 cc.1 i cc.2 tk k.scope k.num = k)).map fun i =>
        { core := kc.1, course := cc.1, slot := i, who := (tk.ref.index, (cc.2.thread i).tid) }

/-- The courses with a thread at an instance. -/
def memberCourses (l : List Member) : List (Nat × Nat) := (l.map fun m => (m.core, m.course)).eraseDups

/-- A thread released by a barrier performs the acquire of its scope (R238). -/
def State.acquireAfter (s : State) (core course : Nat) (k : BarKey) (t : Thread) : Thread :=
  if t.waitsAt k then
    { t with wait := .fence false (s.fenceAwaits core course .acq k.scope) (decide (3 ≤ k.scope)) (decide (k.scope = 7)) s.nextOrd 4 }
  else t

/-- BARRIER_COMPLETION (R238): when every live participant has arrived, the count returns to zero and every waiting one
acquires and goes on. (log 29: DEDUCED, unsafe.) -/
def State.barrierCompletion (s : State) (k : BarKey) : State :=
  let s := (memberCourses (s.participants k)).foldl (fun s p => s.arriveCourse p.1 p.2) s
  let ps := s.participants k
  let b := s.bar k
  if b.arrived.isEmpty || ps.isEmpty || !ps.all (fun m => b.arrived.contains m.who) then s
  else
    let s := s.setBar { b with seq := (b.seq + 1) % 65536, arrived := [], due := none }
    (memberCourses ps).foldl (fun s p =>
      (s.modCourse p.1 p.2 fun c => { c with threads := c.threads.map fun t => s.acquireAfter p.1 p.2 k t }).fenceComplete p.1 p.2) s

/-- Pod order of the missing threads of a time-out (R381). -/
def missingOrder (a b : Nat × Nat × Nat) : Bool :=
  decide (a.1 < b.1 ∨ (a.1 = b.1 ∧ (a.2.1 < b.2.1 ∨ (a.2.1 = b.2.1 ∧ a.2.2 ≤ b.2.2))))

/-- BARRIER_TIMEOUT (R395): the instance is cancelled and every course with a waiting thread receives 0x30. (log 28: DEDUCED, unsafe.) -/
def State.barrierTimeout (s : State) (k : BarKey) : State :=
  let b := s.bar k
  let ps := s.participants k
  match b.due with
  | none => s
  | some d =>
    if s.now < d ∨ ps.all (fun m => b.arrived.contains m.who) = true then s
    else
      let gone := sortBy missingOrder ((ps.filter fun m => !b.arrived.contains m.who).map fun m => (m.core, m.course, m.slot))
      let s := s.setBar { b with arrived := [], due := none }
      (memberCourses (ps.filter fun m => b.arrived.contains m.who)).foldl (fun s p =>
        match s.course? p.1 p.2 with
        | none => s
        | some c =>
          let at_ := c.allLive.filter fun i => (c.thread i).waitsAt k
          match at_.head? with
          | none => s
          | some i =>
            s.defer p.1 p.2
              { code := 0x30, num := k.num, scope := k.scope, ipc := (c.thread i).pc, tmask := slotMask at_, bseq := b.seq,
                ord := at_.foldl (fun m j => min m (c.thread j).waitOrd) (c.thread i).waitOrd, missing := gone }) s

/-! ## Yields, parking, walks and traps -/

/-- YIELD_EXPIRY (R228). -/
def State.yieldExpiry (s : State) (core course : Nat) : State :=
  s.modCourse core course fun c =>
    match c.yieldUntil with
    | some t => if t ≤ s.now then { c with yieldUntil := none } else c
    | none => c

/-- A course leaves its parking; a system call continues after `sysc` (R82). -/
def Course.wake (c : Course) : Course :=
  let c := match c.park with
    | some (.sysc _ group len) =>
      { ((maskSlots group 64).foldl (fun (c : Course) i => if (c.thread i).live then c.endWait (c.wakeAt.getD 0) i len else c) c) with syscall := 0 }
    | _ => c
  { c with park := none, wakeAt := none }

/-- COURSE_WAKE (R82): at least 32 cycles after the clearing event reached the core. -/
def State.courseWake (s : State) (core course : Nat) : State :=
  s.modCourse core course fun c =>
    match c.park, c.wakeAt with
    | some _, some t => if t ≤ s.now then c.wake else c
    | _, _ => c

/-- The trap of a walk that fails, by the access that waited for it: data, fetch, spill or fill (R148, R385);
a fetch that fails stands at its parcel (R397). -/
def walkCause (kind slot va : Nat) (pc : Word) : Cause :=
  if kind = 2 then { code := 0x06, sub := 3, faddr := canon57 va, ipc := pc, tmask := 2 ^ slot }
  else if kind = 3 then { code := 0x06, sub := 4, faddr := canon57 va, ipc := pc, tmask := 2 ^ slot }
  else { code := 0x10, sub := 5, faddr := canon57 va, ipc := if kind = 1 then canon57 va else pc, tmask := 2 ^ slot }

/-- A walk meets a new error in the word of an entry that it reads (R409). -/
def State.walkError (s : State) (core ctx va : Nat) (err : SoftErr) (who : Option (Nat × Task)) : State :=
  let met := fun pa : Nat => (localHome (fun d => (s.die d).ways) false (pa / 8 * 8)).bind fun w =>
    if (s.markBad w (s.heldUnit w)).walk ctx va = .bad w then some w else none
  match err with
  | .word pa fixed => ((met pa).map fun w => s.wordError w fixed who).getD s
  | .tag pa fixed => ((met pa).map fun w => s.tagError w fixed who).getD s
  | _ => s

/-- WALK_COMPLETE (R147): the translation enters the TLBs and the instruction runs again, or the course traps. `err` is the error
that the walk meets in an entry. -/
def State.walkComplete (s : State) (core course : Nat) (err : SoftErr) : State :=
  match s.course? core course with
  | none => s
  | some c =>
    match c.susp with
    | some (.walk ctx va slot kind) =>
      let who := (s.task? core c.task).map fun t => (core, t)
      let s := ((s.walkError core ctx va err who).modCourse core course fun c => { c with susp := none }).walkServed ctx va
      match s.walk ctx va with
      | .leaf e => (s.fillLL (coreDie core) e).fillL1 core e
      | .bad w => (s.errorEvent w 1 who).stopCourse core course
          { code := 0x70, faddr := canon57 va, ipc := if kind = 1 then canon57 va else (c.thread slot).pc, tmask := 2 ^ slot, ord := s.nextOrd }
      | _ => s.stopCourse core course { walkCause kind slot va (c.thread slot).pc with ord := s.nextOrd }
    | _ => s

/-- TRAP_DELIVERY (R379). -/
def State.trapDelivery (s : State) (core course : Nat) : State := s.takeTrap core course

end Sys2Proof.Machine
end

