-- ==== Sys2Proof/Machine/Vacate.lean ====
section
/-! DEFINITION. Context slots (R83): the bytes of a vacated task, its save by a pre-emption (R84, R417, R418) and its
restoration (R85, R419). -/

namespace Sys2Proof.Machine

/-! ## The bytes of a slot (R83) -/

/-- Bytes cut or filled with zeros to a length. -/
def padTo (n : Nat) (bs : List Byte) : List Byte := (bs ++ List.replicate (n - bs.length) 0).take n

/-- Fields of eight bytes. -/
def wordsBytes (l : List Nat) : List Byte := l.flatMap (leBytes 8)

/-- The code of a command's kind in a saved command. -/
def CmdKind.code : CmdKind → Nat
  | .copy => 0
  | .mma => 1
  | .writeBack => 2
  | .gather => 3
  | .col => 4
  | .accOp .. => 5

/-- The register that a saved `rdrow` writes, plus one. -/
def CmdKind.dstCode : CmdKind → Nat
  | .accOp _ _ _ (some r) => r.code + 1
  | _ => 0

/-- A held command's 1,024 bytes: the block, to the 9 units of the longest kind (R279), with its handle and layout
snapshots, in the model's own order. -/
def cmdBytes (pos : Nat) (x : Cmd) : List Byte :=
  let acc : Nat × Nat × Nat := match x.kind with | .accOp sub imm v _ => (sub, imm, v.toNat) | _ => (0, 0, 0)
  let op := fun o : Operand => padTo 128 (leBytes 16 o.handle.toNat ++ leBytes 80 o.layout.toNat ++
    (List.range 4).flatMap (fun k => leBytes 4 (o.origin.getD k 0)) ++ leBytes 8 o.cost ++ leBytes 8 o.origin.length)
  padTo 1024 (
    padTo 64 (wordsBytes [x.kind.code + 2 ^ 8 * x.cls + 2 ^ 16 * pos + 2 ^ 24 * x.slot + 2 ^ 32 * x.kind.dstCode,
      (match x.gen with | some g => g + 1 | none => 0) + 2 ^ 8 * bitN x.sup 0 + 2 ^ 16 * x.ops.length + 2 ^ 32 * x.idx.length,
      acc.1 + 2 ^ 32 * acc.2.1, acc.2.2, x.perm, x.ipc.toNat, x.blockAt, bitN x.flag.isSome 0 + 2 ^ 8 * min 18 x.words.length]) ++
    padTo 144 (wordsBytes x.words) ++ padTo 384 (x.ops.flatMap op) ++ padTo 256 (x.idx.flatMap (leBytes 4)) ++
    (match x.flag with | some f => leBytes 16 f.1.handle.toNat ++ leBytes 8 f.2 | none => []))

/-- A row's 16 bytes: its state as R101 lays it out, then zeros. -/
def rowBytes (r : RowState) (els : List AccElt) : List Byte := leBytes 8 (rowWord r els).toNat ++ leBytes 8 0
def rowOf (bs : List Byte) : RowState :=
  let w := BitVec.ofNat 64 (recNat bs 0 8)
  let e := (w.setWidth 12).toInt
  { exp := if e = -2048 then none else some e, events := w.extractLsb' 32 32, inv := w.getLsbD 19, ovf := w.getLsbD 18 }

/-- The core-scope barrier of a task. -/
def coreBar (core slot n : Nat) : BarKey := { scope := 2, place := core, group := slot, num := n }

/-- The bytes of one course, with those of its upper course for a pair (R37, R83). -/
def State.courseBytes (s : State) (core n : Nat) (c : Course) : List Byte :=
  let recs := fun first => padTo 16384 (((c.threads.drop first).take 32).flatMap fun t => threadRecord t false false none)
  courseRecord s core n c ++ recs 0 ++ (if c.threads.length = 64 then List.replicate 512 0 ++ recs 32 else [])

/-- The held commands of a task in queue order, those of the matrix engine's two classes in its order (R83, R107). (log 129: DESIGN CHOICE, unsafe.) -/
def Core.heldOf (k : Core) (slot : Nat) : List Cmd :=
  let place := fun x : Cmd => if x.cls = 0 then 0 else if x.cls = 3 then k.morder.length + 2 else 1 + k.morder.idxOf x.id
  sortBy (fun a b => decide (place a ≤ place b)) ((k.taskCmds slot).filter fun x => !x.ended)

/-- The whole of a task's slot. -/
def State.slotBytes (s : State) (core slot : Nat) (tk : Task) : List Byte :=
  let k := s.core core
  let bars := (List.range 64).map fun n => s.bar (coreBar core slot n)
  let held := k.heldOf slot
  let pos := fun n => ((s.course? core n).getD {}).pos
  padTo 64 (wordsBytes [tk.ref.graph, tk.ref.node, tk.ref.index, tk.rank, tk.regG.length + 2 ^ 8 * tk.spG.length + 2 ^ 16 * tk.accG.length,
    tk.allCourses.length, held.length]) ++
  bars.flatMap (fun b => leBytes 2 b.arrived.length) ++ List.replicate 64 0 ++
  padTo 3072 (tk.h.toList.flatMap (fun (x : BitVec 128) => leBytes 16 x.toNat) ++ tk.m.toList.flatMap (fun (x : BitVec 640) => leBytes 80 x.toNat) ++
    wordsBytes [tk.astat.toNat, bitN tk.uchk 0, bitN tk.sbchk 0, tk.rsbase.toNat] ++ bars.flatMap fun b => leBytes 2 b.seq) ++
  tk.courses.flatMap (fun n => s.courseBytes core n ((s.course? core n).getD {})) ++
  (tk.spG ++ tk.accG).flatMap (fun g => cellsRead s.pool (core * 2 ^ 21 + g * 16384) 16384) ++
  (List.range (16 * tk.accG.length)).flatMap (fun i => rowBytes (tk.rows.get i {}) (s.accRow core tk.accG (i / 64) (i % 64))) ++
  padTo 65536 ((held.take 64).flatMap fun x => cmdBytes (pos x.course) x)

/-! ## Saving (R84, R417, R418) -/

/-- The cores that hold members of a task's gang. -/
def State.gangCores (s : State) (tk : Task) : List Nat :=
  if tk.gang ≤ 1 then [] else ((List.range tk.gang).filterMap (s.member tk)).map Prod.fst

/-- A set of cores with the cores of every gang that has a member there; `fuel` bounds the rounds. -/
def State.closure (s : State) : Nat → List Nat → List Nat
  | 0, ks => ks
  | fuel + 1, ks =>
    let more := ((ks.flatMap fun k => (s.core k).tasks.flatMap fun t => s.gangCores t.2).filter fun k => !ks.contains k).eraseDups
    if more.isEmpty then ks else s.closure fuel (ks ++ more)

/-- Whether every command of a core that is not held has retired (R83, R84). -/
def State.onlyHeld (s : State) (core : Nat) : Bool :=
  (s.core core).queues.toList.all fun q => match q with
    | [] => true
    | x :: _ => s.onSlot core x

/-- Whether a course of a core is still in a trap, and whether it only waits for its delivery. -/
def Course.trapped (c : Course) : Bool := c.trap != .none
def Course.delivering (c : Course) : Bool := c.trap == .stopping

/-- The commands of a task on an unresolved guard slot or queued behind one, so that they would be saved (R83). -/
def State.heldNow (s : State) (core slot : Nat) : List Cmd :=
  (s.core core).queues.toList.flatMap fun q => (q.dropWhile fun x => !s.onSlot core x).filter fun x => decide (x.task = slot)

/-- Whether a register's result was lost to a deferred fault that is still to be delivered (R378). -/
def Course.lostReg (c : Course) (i : Nat) (r : RegRef) : Bool := c.deferred.any fun x => x.lost.contains (i, r)

/-- Whether a course awaits nothing but the results of held commands and of accesses whose fault is saved with it (R418), and
no thread still performs a fence. -/
def Course.still (c : Course) (now : Nat) (held : List Nat) : Bool :=
  c.cpend.all (fun p => decide (p.ready ≤ now)) && c.csb.all (fun e => held.contains e.2) && c.susp.isNone && c.again.isNone &&
  c.threads.zipIdx.all fun p =>
    let t := p.1
    t.pend.all (fun p => decide (p.ready ≤ now)) && t.sb.all (fun e => held.contains e.2 || c.lostReg p.2 e.1) && (match t.wait with | .fence .. => false | _ => true)

/-- Whether a core's tasks can be saved now (R84 step 5). -/
def State.coreQuiet (s : State) (core : Nat) : Bool :=
  let k := s.core core
  let held := k.queues.toList.flatten.map Cmd.id
  s.onlyHeld core && !(s.inflight.any fun a => decide (a.core = core)) && !(s.divs.any fun r => decide (r.core = core)) &&
    k.courses.all fun c => c.2.still s.now held

/-- The lowest free context slot of a graph (R83). -/
def Graph.freeSlot (g : Graph) : Option Nat :=
  (List.range (if g.slotSize = 0 then 0 else g.ctxs / g.slotSize)).find? fun i => !g.slots.contains i

/-- Whether a word of a task's granules holds an uncorrectable error, which its save meets (R417). -/
def State.granulesBad (s : State) (core : Nat) (tk : Task) : Bool :=
  s.badWords.any fun w => match w with
    | .pool k o => decide (k = core) && (tk.spG ++ tk.accG).contains (o / 16384)
    | _ => false

/-- A task's bytes written to its slot as supervisor writes in its graph's context, or `none` where a write, or the read of a granule, fails (R417). (log 86: DESIGN CHOICE, unsafe.) -/
def State.saveTask (s : State) (core slot : Nat) (tk : Task) : Option (State × TaskRef) :=
  match s.graph? tk.ref.die tk.ref.graph with
  | none => none
  | some g =>
    match (if s.granulesBad core tk then none else g.freeSlot) with
    | none => none
    | some i =>
      let s := s.resizesFirst
      match s.engPieces { core := core, ctx := g.ctx, sup := true } (glAt (g.ctxa.toNat + i * g.slotSize)) 0 0 (s.slotBytes core slot tk) with
      | .error _ => none
      | .ok ps =>
        let r := s.engWrites [ps]
        let s := r.2.foldl (fun s l =>
          (s.raiseO (coreDie core) l.1).sendWrite
            { die := coreDie core, dest := l.1, seq := 0, pred := none, line := l.2.1, accs := [], bytes := l.2.2 }) r.1
        let held := tk.courses.flatMap fun n =>
          let c := (s.course? core n).getD {}
          c.deferred.map fun x => (c.pos, x)
        let convs := tk.courses.flatMap fun n =>
          let c := (s.course? core n).getD {}
          (List.range c.threads.length).filterMap fun j =>
            match (c.thread j).wait with | .conv _ p _ len => some (c.pos, j, p, len) | _ => none
        let uncounted := tk.courses.flatMap fun n =>
          let c := (s.course? core n).getD {}
          (List.range c.threads.length).filterMap fun j =>
            match (c.thread j).wait with | .barrier _ _ false => some (c.pos, j) | _ => none
        some (s.modGraph tk.ref.die tk.ref.graph fun g => { g with slots := g.slots ++ [i] },
          { tk.ref with resumed := some i, num := tk.num, held := held, convs := convs, uncounted := uncounted
                        bodies := tk.courses.filterMap fun n =>
                          let c := (s.course? core n).getD {}
                          c.recapture.map fun b => (c.pos, b)
                        marks := tk.courses.map fun n => (((s.course? core n).getD {}).pos, ((s.course? core n).getD {}).lostDests) })

/-- The page of the context area, among the `k` slots that come next, that a save must wait for (R151, R417). -/
def State.savePage (s : State) (core k : Nat) (tk : Task) : Option (Nat × Nat × Nat) :=
  (s.graph? tk.ref.die tk.ref.graph).bind fun g =>
    let count := if g.slotSize = 0 then 0 else g.ctxs / g.slotSize
    (((List.range count).filter fun i => !g.slots.contains i).take k).findSome? fun i =>
      match s.engPieces { core := core, ctx := g.ctx, sup := true } (glAt (g.ctxa.toNat + i * g.slotSize)) 0 0 (List.replicate g.slotSize 0) with
      | .error (.page d f va) => some (d, f, va)
      | _ => none

/-- A page that a unit waits for, outside any course, moves to the device (R151). -/
def State.askPage (s : State) (ctx : Nat) (p : Nat × Nat × Nat) : State :=
  s.askMigration p.1 { frame := p.2.1, toHost := false, assisted := false, ctx := ctx, va := p.2.2, pte := 0 }

/-- Settle what is readable in every course of a core; a course whose system call has been answered goes on after it. -/
def State.settleCore (s : State) (core : Nat) : State :=
  s.modCore core fun k => { k with courses := k.courses.map fun c =>
    let x := c.2.settleAll s.now
    (c.1, match x.park with | some (.sysc ..) => (if x.wakeAt.isSome then x.wake else x) | _ => x) }

/-- What the threads of a core's courses were about to do at a barrier is done: arrivals whose release is complete, and
the acquires after barriers that have completed (R159). -/
def State.arriveCore (s : State) (core : Nat) : State :=
  (s.core core).courses.foldl (fun s c => (s.arriveCourse core c.1).fenceComplete core c.1) s

/-- A vacated task leaves its core for the ready pool, as resumed and at its priority (R84 steps 6, 7): that of its core's
die (log 125: DESIGN CHOICE, safe). It stays with its node's state while the pool has no entry for it (R75). -/
def State.vacateTask (s : State) (core slot : Nat) (tk : Task) (r : TaskRef) : State :=
  let s := s.modCore core fun k =>
    { k with queues := k.queues.map fun q => q.filter fun x => decide (x.task ≠ slot)
             morder := k.morder.filter fun id => !((k.taskCmds slot).any fun x => decide (x.id = id)) }
  (s.freeTask core slot tk).modNode r.die r.graph r.node fun n => { n with resumed := n.resumed ++ [(coreDie core, r)] }

/-- The tasks of some cores, in order. -/
def State.tasksOn (s : State) (ks : List Nat) : List (Nat × Nat × Task) :=
  ks.flatMap fun k => (s.core k).tasks.map fun t => (k, t.1, t.2)

/-- Gang members placed side by side, in rank order, so that a gang stays whole in its queue. -/
def byGang (l : List (Nat × Nat × Task)) : List (Nat × Nat × Task) :=
  let key := fun t : Task => (gangId t, t.rank)
  sortBy (fun a b => decide ((key a.2.2).1 < (key b.2.2).1 ∨ ((key a.2.2).1 = (key b.2.2).1 ∧ (key a.2.2).2 ≤ (key b.2.2).2))) l

/-- The gangs whose every member's save succeeds are vacated; a save that fails keeps its whole gang resident (R417). -/
def State.saveAll (s : State) (ts : List (Nat × Nat × Task)) : State × List Nat :=
  let saved := ts.foldl (fun (r : State × List (Nat × Nat × Task × TaskRef)) t =>
    match r.1.saveTask t.1 t.2.1 t.2.2 with
    | some x => (x.1, r.2 ++ [(t.1, t.2.1, t.2.2, x.2)])
    | none => r) (s, [])
  let failed := ts.filter fun t => !saved.2.any fun x => decide (x.1 = t.1 ∧ x.2.1 = t.2.1)
  let broken := failed.map fun t => gangId t.2.2
  let s := saved.2.foldl (fun s x =>
    if broken.contains (gangId x.2.2.1) then
      s.modGraph x.2.2.1.ref.die x.2.2.1.ref.graph fun g => { g with slots := g.slots.filter fun i => decide (x.2.2.2.resumed ≠ some i) }
    else s.vacateTask x.1 x.2.1 x.2.2.1 x.2.2.2) saved.1
  ([0, 1, 2, 3].foldl (fun s d => s.refill d 4096) s, (ts.filter fun t => broken.contains (gangId t.2.2)).map Prod.fst)

/-- Cores go back to dispatch, and what is still on them goes on (R84, R417, R418). -/
def State.freeCores (s : State) (ks : List Nat) : State :=
  ks.foldl (fun s k => s.modCore k fun c =>
    { c with noDispatch := false, courses := c.courses.map fun p => (p.1, { p.2 with stopped := false }) }) s

/-! ## Choice of cores (R84 steps 1 to 4) -/

/-- Whether a task matches a pre-emption's selector; 'every graph below a given priority' takes each task at its node's
priority, since a graph has none. (log 124: DEDUCED, unsafe.) -/
def Preempt.matches_ (p : Preempt) (tk : Task) : Bool :=
  match p.graph with
  | some g => decide (tk.ref.graph = g)
  | none => decide (tk.prio < p.below)

/-- Whether the cores of a closure may be chosen: no course in a trap, no task of another graph, few enough held commands,
and room in each graph's slots beside the tasks of the cores chosen so far. -/
def State.mayVacate (s : State) (p : Preempt) (chosen ks : List Nat) : Bool :=
  let ts := s.tasksOn ks
  ts.all (fun t =>
    p.matches_ t.2.2 && decide ((s.heldNow t.1 t.2.1).length ≤ 64) &&
      t.2.2.courses.all (fun n => !((s.course? t.1 n).getD {}).trapped) &&
      (match s.graph? t.2.2.ref.die t.2.2.ref.graph with
       | some g =>
         let slots := if g.slotSize = 0 then 0 else g.ctxs / g.slotSize
         decide (((s.tasksOn (chosen ++ ks)).filter fun u => decide (u.2.2.ref.die = t.2.2.ref.die ∧ u.2.2.ref.graph = t.2.2.ref.graph)).length +
           g.slots.length ≤ slots)
       | none => false))

/-- The courses of a core that match. -/
def State.matching (s : State) (p : Preempt) (core : Nat) : Nat :=
  ((s.core core).tasks.filter fun t => p.matches_ t.2).foldl (fun n t => n + t.2.allCourses.length) 0

/-- The cores that a pre-emption takes. -/
def State.chooseCores (s : State) (d : Nat) (p : Preempt) : List Nat :=
  let all := (maskSlots p.clusters 4).flatMap fun c => coresOf (4 * d + c) false
  let cand := sortBy (fun a b => decide (s.matching p a ≤ s.matching p b)) (all.filter fun k => decide (0 < s.matching p k))
  cand.foldl (fun chosen k =>
    if chosen.contains k || decide (p.count ≤ chosen.length) then chosen
    else
      let ks := (s.closure 128 [k]).filter fun x => !chosen.contains x
      if s.mayVacate p chosen ks then chosen ++ ks else chosen) []

/-- A pre-emption that is over writes its records (R84 step 7, R417), and the next one of the die begins. -/
def State.preemptOver (s : State) (d : Nat) (p : Preempt) : State :=
  (maskSlots p.clusters 4).foldl (fun s c =>
    let mine := p.vacated.filter fun k => decide (coreCluster k = 4 * d + c)
    let bad := p.failed.any fun k => decide (coreCluster k = 4 * d + c)
    s.postEvent (4 * d + c)
      (s.event (p.graph.getD 0) 0xFFFF (if bad then 3 else 0) 0x05 d 0xFF mine.length
        (BitVec.ofNat 64 (slotMask (mine.map fun k => coreIn k % 32))))) s

/-- PREEMPT starts: cores are chosen, dispatch to them stops, and their courses stop at their next
selection, without their loop buffers and prefetched parcels (R170). -/
def State.preemptStart (s : State) (d : Nat) (p : Preempt) : State :=
  let ks := s.chooseCores d p
  let s := ks.foldl (fun s k => s.modCore k fun c =>
    { c with noDispatch := true, courses := c.courses.map fun q => (q.1, { q.2.leaveCode with stopped := true }) }) s
  let p := { p with cores := ks }
  if ks.isEmpty then s.preemptOver d p else s.modDie d fun x => { x with preempt := some p }

/-- The requests that wait for the one in progress begin, in arrival order, until one has cores to wait for. -/
def State.nextPreempt (s : State) (d : Nat) : Nat → State
  | 0 => s
  | fuel + 1 =>
    match (s.die d).preempt, (s.die d).preemptQ with
    | none, p :: r => ((s.modDie d fun x => { x with preemptQ := r }).preemptStart d p).nextPreempt d fuel
    | _, _ => s

/-- PREEMPT: a request reaches a die's scheduler (R84, R418). -/
def State.requestPreempt (s : State) (d : Nat) (p : Preempt) : State :=
  let s := s.modDie d fun x => { x with preemptQ := x.preemptQ ++ [p] }
  s.nextPreempt d (s.die d).preemptQ.length

/-- Cores of a pre-emption are done with. (log 88: DEDUCED, unsafe.) -/
def State.preemptDone (s : State) (d : Nat) (p : Preempt) (ks vacated failed : List Nat) : State :=
  let s := s.freeCores ks
  let p := { p with cores := p.cores.filter fun k => !ks.contains k, vacated := p.vacated ++ vacated, failed := p.failed ++ failed }
  if p.cores.isEmpty then
    let s := (s.modDie d fun x => { x with preempt := none }).preemptOver d p
    s.nextPreempt d (s.die d).preemptQ.length
  else s.modDie d fun x => { x with preempt := some p }

/-- PREEMPT_SAVE (R84 steps 5 to 7): the cores of one core's gangs are saved together, once nothing that they wait for is
outstanding; a course that has taken a trap meanwhile keeps them resident (R418). -/
def State.preemptSave (s : State) (core : Nat) : State :=
  let d := coreDie core
  match (s.die d).preempt with
  | none => s
  | some p =>
    if !p.cores.contains core then s
    else
      let ks := (s.closure 128 [core]).filter p.cores.contains
      let cs := ks.flatMap fun k => (s.core k).courses.map Prod.snd
      if cs.any Course.delivering then s
      else if cs.any Course.trapped then s.preemptDone d p ks [] []
      else
        let s := ks.foldl State.arriveCore s
        if !ks.all s.coreQuiet then ks.foldl State.dueAll s
        else
        let ts := s.tasksOn ks
        match ts.findSome? fun t => (s.savePage t.1 ts.length t.2.2).map fun p => ((s.graph? t.2.2.ref.die t.2.2.ref.graph).elim 0 Graph.ctx, p) with
        | some q => s.askPage q.1 q.2
        | none =>
        let s := ks.foldl State.settleCore s
        let r := s.saveAll (byGang (s.tasksOn ks))
        let failed := ks.filter r.2.contains
        r.1.preemptDone d p ks (ks.filter fun k => !failed.contains k) failed

/-! ## Restoring (R85, R419) -/

/-- A register by its code. -/
def regOfCode (n : Nat) : RegRef :=
  if n < 0x40 then .v (BitVec.ofNat 5 n) else if n < 0x80 then .c (BitVec.ofNat 5 n) else .q (BitVec.ofNat 4 n)

/-- A command as its 1,024 bytes give it; its course is numbered by position. -/
def cmdOf (bs : List Byte) (courses : List Nat) (slot : Nat) : Cmd :=
  let w := fun k => recNat bs (8 * k) 8
  let f := fun k lo n : Nat => w k / 2 ^ lo % 2 ^ n
  let kind := f 0 0 8
  let dst := f 0 32 16
  let op := fun i : Nat =>
    let at_ := 208 + 128 * i
    ({ handle := BitVec.ofNat 128 (recNat bs at_ 16), layout := BitVec.ofNat 640 (recNat bs (at_ + 16) 80)
       origin := (List.range (recNat bs (at_ + 120) 8)).map fun k => recNat bs (at_ + 96 + 4 * k) 4
       cost := recNat bs (at_ + 112) 8 } : Operand)
  let words := (List.range (f 7 8 8)).map fun k => recNat bs (64 + 8 * k) 8
  let ops := (List.range (f 1 16 8)).map op
  { id := 0, cls := f 0 8 8, course := courses.getD (f 0 16 8) 0, slot := f 0 24 8, task := slot
    kind := if kind = 0 then .copy else if kind = 1 then .mma else if kind = 2 then .writeBack else if kind = 3 then .gather
      else if kind = 4 then .col
      else .accOp (f 2 0 32) (f 2 32 32) (BitVec.ofNat 64 (w 3)) (if dst = 0 then none else some (regOfCode (dst - 1)))
    gen := if f 1 0 8 = 0 then none else some (f 1 0 8 - 1), sup := (w 1).testBit 8, words := words, ops := ops
    idx := (List.range (f 1 32 16)).map fun k => recNat bs (592 + 4 * k) 4
    perm := w 4, ipc := BitVec.ofNat 64 (w 5), blockAt := w 6
    tile := if kind = 5 then some (hBase (ops.headD {}).handle / 65536) else if kind = 1 ∨ kind = 2 ∨ kind = 3 then ops.getLast?.map accTile else none
    flag := if (w 7).testBit 0 then some ({ handle := BitVec.ofNat 128 (recNat bs 848 16) }, recNat bs 864 8) else none }

/-- The descriptor and reach of each operand, as they stand where the task now is (R73). -/
def State.rehome (s : State) (core : Nat) (tk : Task) (x : Cmd) : Cmd :=
  let want := (wantsOf x.cls x.words x.idx).map Wants.w
  let put := fun o : Operand => { o with homes := s.handleHomes core tk o.handle }
  { x with
    ops := x.ops.zipIdx.map fun p => { put p.1 with desc := (want[p.2]?.map (descWords x.words)).getD [] }
    flag := x.flag.map fun f => (put f.1, f.2), ord := s.nextOrd }

/-- A thread as its record gives it: one in convergence wait re-enters it (R85), with the predicate and length of its `cnv`
and a time-out that begins now; any other is ready again at its instruction, but for a barrier. -/
def savedThread (due : Nat) (conv : Option (Option (BitVec 4) × Nat)) (t : Thread) (bs : List Byte) : Thread × Option (Nat × Nat × Nat) :=
  let st := recNat bs 0x108 8
  let b := recNat bs 0x118 8
  let w : Wait := match conv with
    | some c => if st.testBit 17 then .conv (recNat bs 0x110 8) c.1 due c.2 else .ready
    | none => .ready
  ({ threadOf bs t with live := st.testBit 16, halted := st.testBit 19, wait := w }, if st.testBit 18 then some (b % 256, b / 2 ^ 8 % 2 ^ 24, b / 2 ^ 32) else none)

/-- A thread that was saved in barrier wait (R85): at scope `core` or `course` it arrives with the saved count; at a wider
scope it has stayed counted, under the place where it was, or the barrier has completed meanwhile; one not yet counted (R238)
is still to arrive. -/
def State.rejoin (s : State) (core n i : Nat) (tk : Task) (counted : Bool) (scope num seq : Nat) : State :=
  match s.course? core n with
  | none => s
  | some c =>
    let key := barKeyOf core n i c tk scope num
    let who := (tk.ref.index, (c.thread i).tid)
    let wait := fun (s : State) (q : Nat) => s.modCourse core n fun c => c.modThread i fun t => { t with wait := .barrier key q true }
    let join := fun (s : State) =>
      let b := s.bar key
      (s.setBar { b with arrived := b.arrived ++ [who], due := some (b.due.getD (s.barDue (coreDie core) key)) })
    if !counted then s.modCourse core n fun c => c.modThread i fun t => { t with wait := .barrier key (s.bar key).seq false }
    else if scope ≤ 2 then
      let s := s.setBar { s.bar key with seq := seq }
      wait (join s) seq
    else match s.bars.find? fun b => decide (b.key.scope = scope ∧ b.key.num = num ∧ b.key.group = gangId tk) && b.arrived.contains who with
      | some b =>
        if b.key = key then wait s b.seq
        else
          let s := join (s.setBar { b with arrived := b.arrived.filter fun x => decide (x ≠ who) })
          wait s (s.bar key).seq
      | none => s.modCourse core n fun c => c.modThread i fun t => t.complete 4

/-- One course restored from its bytes. -/
def State.restoreCourse (s : State) (core n : Nat) (tk : Task) (r : TaskRef) (bs : List Byte) : State :=
  match s.course? core n with
  | none => s
  | some c0 =>
    let rec_ := fun i : Nat => (bs.drop (if i < 32 then 512 + 512 * i else 17408 + 512 * (i - 32))).take 512
    let conv := fun i : Nat => (r.convs.find? fun x => decide (x.1 = c0.pos ∧ x.2.1 = i)).map fun x => x.2.2
    let ts := c0.threads.zipIdx.map fun t => savedThread (s.convDue (coreDie core)) (conv t.2) t.1 (rec_ t.2)
    let g : Vector GSlot 16 := Vector.ofFn fun j : Fin 16 =>
      let b := recNat bs (0x100 + j.val) 1
      if b = 2 then .isTrue else if b = 1 then .isFalse else .unresolved
    let sys := recNat bs 0x148 4
    let done := (recNat bs 0x14C 4).testBit 0
    let call := s.calls.find? fun x => decide (x.id = sys ∧ sys ≠ 0)
    let mask := (call.map SysCall.mask).getD 0
    let lost := (r.held.filter fun x => decide (x.1 = c0.pos)).flatMap fun x => x.2.lost
    let ts' := ts.zipIdx.map fun t =>
      let u := if done ∧ sys ≠ 0 ∧ mask.testBit t.2 then t.1.1.complete 4 else t.1.1
      { u with sb := (lost.filter fun e => decide (e.1 = t.2)).map fun e => (e.2, 0) }
    let c : Course := { c0 with
      threads := ts', g := g
      c := Vector.ofFn fun j : Fin 32 => BitVec.ofNat 64 (recNat bs (8 * j.val) 8)
      cnt := Vector.ofFn fun j : Fin 4 => recNat bs (0x110 + j.val) 1
      tstat := BitVec.ofNat 64 (recNat bs 0x118 8) &&& tstatBits, fstat := fstatOf (BitVec.ofNat 64 (recNat bs 0x120 8))
      recapture := (r.bodies.find? fun x => decide (x.1 = c0.pos)).map Prod.snd
      lostDests := ((r.marks.find? fun x => decide (x.1 = c0.pos)).map Prod.snd).getD []
      deferred := (r.held.filter fun x => decide (x.1 = c0.pos)).map Prod.snd
      syscall := if done then 0 else sys
      park := if sys ≠ 0 ∧ done = false then some (.sysc sys mask 4) else none }
    let s := if done then { s with calls := s.calls.filter fun x => decide (x.id ≠ sys) } else s
    let s := s.setCourse core n c
    let s := (List.range 8).foldl (fun s k =>
      let q := recNat bs (0x138 + 2 * k) 2
      if q = 0 then s else s.setBar { s.bar (courseBar core n 0 k) with seq := q }) s
    ts.zipIdx.foldl (fun s t => match t.1.2 with
      | some b => s.rejoin core n t.2 tk (!r.uncounted.contains (c0.pos, t.2)) b.1 b.2.1 b.2.2
      | none => s) s

/-- A held command re-enters its queue with its old count; its register, if it has one, awaits it again (R85). It does so
whether or not the queue has room beside other tasks' commands. (log 154: DESIGN CHOICE, unsafe.) -/
def State.requeue (s : State) (core : Nat) (tk : Task) (x : Cmd) : State :=
  let k := s.newId
  let x : Cmd := { k.2.rehome core tk x with id := k.1 }
  let s := k.2.modCore core fun c =>
    let c := c.setQueue x.cls (c.queue x.cls ++ [x])
    if x.cls = 1 ∨ x.cls = 2 then { c with morder := c.morder ++ [x.id] } else c
  match x.kind with
  | .accOp _ _ _ (some d) => s.modCourse core x.course fun c => c.modThread x.slot fun t => t.awaitReg d x.id
  | _ => s

/-- The bytes of a task's slot, or `none` where one cannot be read (R419). (log 87: DESIGN CHOICE, safe.) -/
def State.slotRead (s : State) (core : Nat) (g : Graph) (n : Node) (i : Nat) : Option (List Byte) :=
  s.glBytes { core := core, ctx := g.ctx, sup := true } (g.ctxa.toNat + i * g.slotSize) (slotOf n)

/-- How the read of a task's slot fails: the cause code of an error, or the page that the host owns, which is waited for
(R151, R419). -/
def State.slotFail (s : State) (core : Nat) (g : Graph) (n : Node) (i : Nat) : Option (Nat ⊕ (Nat × Nat × Nat)) :=
  let at_ := g.ctxa.toNat + i * g.slotSize
  match (s.freeFrom at_).engRead { core := core, ctx := g.ctx, sup := true } (glAt at_) 0 (slotOf n) 0 with
  | .error (.page d f va) => some (.inr (d, f, va))
  | .error (.fail code _ _) => some (.inl code)
  | _ => none

/-- The page that the members of a gang wait for before they can be restored. -/
def State.slotPage (s : State) (g : Graph) (n : Node) (ms : List (TaskRef × Seat)) : Option (Nat × Nat × Nat) :=
  ms.findSome? fun m => m.1.resumed.bind fun i => match s.slotFail m.2.core g n i with
    | some (.inr p) => some p
    | _ => none

/-- The cause that the records of a gang carry where a slot cannot be read (R419). -/
def State.slotCause (s : State) (g : Graph) (n : Node) (ms : List (TaskRef × Seat)) : Cause :=
  { code := (ms.findSome? fun m => m.1.resumed.bind fun i => match s.slotFail m.2.core g n i with
      | some (.inl c) => some c
      | _ => none).getD 0x10
    tmask := 1 }

/-- A task restored on a core from its slot's bytes (R59, R85): its registers, granules, rows and courses. -/
def State.restoreTask (s : State) (g : Graph) (n : Node) (r : TaskRef) (q : Seat) (bs : List Byte) : State :=
  let s := s.enterTask g n r q
  match s.task? q.core q.slot with
  | none => s
  | some tk0 =>
    let t := bs.drop 256
    let x := 3328 + 16896 * n.courses
    let grans := tk0.spG ++ tk0.accG
    let rows := x + 16384 * grans.length
    let tk : Task := { tk0 with
      h := Vector.ofFn fun j : Fin 16 => BitVec.ofNat 128 (recNat t (16 * j.val) 16)
      m := Vector.ofFn fun j : Fin 32 => BitVec.ofNat 640 (recNat t (256 + 80 * j.val) 80)
      astat := BitVec.ofNat 64 (recNat t 2816 8) &&& astatBits, uchk := (recNat t 2824 1).testBit 0, sbchk := (recNat t 2832 1).testBit 0
      rsbase := BitVec.ofNat 64 (recNat t 2840 8) &&& rsbaseBits
      rows := (List.range (16 * tk0.accG.length)).filterMap fun i =>
        let w := rowOf ((bs.drop (rows + 16 * i)).take 16)
        if w = {} then none else some (i, w) }
    let s := s.setTask q.core q.slot tk
    let s := grans.zipIdx.foldl (fun s p => s.locWrite (.pool q.core (p.1 * 16384)) ((bs.drop (x + 16384 * p.2)).take 16384)) s
    let s := (List.range 64).foldl (fun s k =>
      let v := recNat t (2848 + 2 * k) 2
      if v = 0 then s else s.setBar { s.bar (coreBar q.core q.slot k) with seq := v }) s
    let per := if n.width = 2 then 2 * 16896 else 16896
    q.courses.zipIdx.foldl (fun s c => s.restoreCourse q.core c.1 tk r ((bs.drop (3328 + per * c.2)).take per)) s

/-- The held commands of a restored task re-enter their queues in their saved order. -/
def State.restoreCmds (s : State) (n : Node) (q : Seat) (bs : List Byte) : State :=
  match s.task? q.core q.slot with
  | none => s
  | some tk =>
    let at_ := 3328 + 16896 * n.courses + 16384 * (tk.spG.length + tk.accG.length) + 256 * tk.accG.length
    (List.range (min 64 (recNat bs 48 8))).foldl (fun s i => s.requeue q.core tk (cmdOf ((bs.drop (at_ + 1024 * i)).take 1024) q.courses q.slot)) s

/-- The members of a gang enter their cores together: unstarted ones at their entry, vacated ones from their slots, whose
numbers become free. Where a slot cannot be read, every member ends as under route 0 (R419). (log 145: DESIGN CHOICE, unsafe.) -/
def State.placeMembers (s : State) (g : Graph) (n : Node) (ms : List (TaskRef × Seat)) : State :=
  let read := ms.map fun m => m.1.resumed.map fun i => s.slotRead m.2.core g n i
  let cause := s.slotCause g n ms
  let s := s.modGraph g.die g.seq fun g => { g with slots := g.slots.filter fun i => !(ms.any fun m => decide (m.1.resumed = some i)) }
  if read.any fun x => x == some none then
    ms.foldl (fun s m => (s.enterTask g n m.1 m.2).fatal m.2.core (m.2.courses.headD 0) m.2.slot cause) s
  else
    let s := (ms.zip read).foldl (fun s m => match m.2 with
      | some (some bs) => s.restoreTask g n m.1.1 m.1.2 bs
      | _ => s.enterTask g n m.1.1 m.1.2) s
    (ms.zip read).foldl (fun s m => match m.2 with
      | some (some bs) => s.restoreCmds n m.1.2 bs
      | _ => s) s

end Sys2Proof.Machine
end

