-- ==== Sys2Proof/Machine/Schedule.lean ====
section
/-! DEFINITION. The clusters' dispatch queues: pulling from the ready pool (R70, R75), dispatch (R71), reservation (R72) and
work donation (R74). -/

namespace Sys2Proof.Machine

/-! ## Dispatch queues -/

/-- The node of a task reference, with its graph. -/
def State.refNode (s : State) (r : TaskRef) : Option (Graph × Node) :=
  (s.graph? r.die r.graph).bind fun g => (g.nodes[r.node]?).map fun n => (g, n)

/-- The size of the gang that a reference leads. -/
def State.gangSize (s : State) (r : TaskRef) : Nat := max 1 (((s.refNode r).map fun p => p.2.gang).getD 1)

/-- The gangs of a queue, each whole, in order; `fuel` is the length of the queue. -/
def State.gangs (s : State) : Nat → List TaskRef → List (List TaskRef)
  | 0, _ => []
  | _, [] => []
  | fuel + 1, r :: q => (r :: q).take (s.gangSize r) :: s.gangs fuel ((r :: q).drop (s.gangSize r))

/-- The queues of a cluster's dispatch unit with their control: the four priorities and the steal inbox (R75). -/
def Cluster.queues (c : Cluster) : List (Nat × QCtl) :=
  ((c.disp.toList.map List.length) ++ [c.inbox.length]).zip c.dispCtl.toList

/-- A dispatch queue of a cluster, by priority. -/
def Cluster.prioQ (c : Cluster) (p : Nat) : List TaskRef := c.disp.toList.getD p []
def Cluster.setQ (c : Cluster) (p : Nat) (q : List TaskRef) : Cluster :=
  { c with disp := if h : p < 4 then c.disp.set p q else c.disp }
def Cluster.passedAt (c : Cluster) (p : Nat) : Nat := c.passed.toList.getD p 0
def Cluster.setPassed (c : Cluster) (p n : Nat) : Cluster := { c with passed := if h : p < 4 then c.passed.set p n else c.passed }

/-- Whether every dispatch queue of a cluster is empty. -/
def Cluster.idle (c : Cluster) : Bool := c.disp.toList.all List.isEmpty && c.inbox.isEmpty

/-- The cycle since which a cluster's share has been empty (R74). -/
def State.noteIdle (s : State) (cl : Nat) : State :=
  s.modCluster cl fun c => if c.idle then { c with idleSince := some (c.idleSince.getD s.now) } else { c with idleSince := none }

/-- The first gang that a cluster may take from its die's pool: the highest priority that holds a task, resumed before
unstarted (R70). -/
def State.poolHead (s : State) (d : Nat) : Option (Nat × List TaskRef) :=
  [6, 7, 4, 5, 2, 3, 0, 1].findSome? fun i =>
    match (s.die d).pool.toList.getD i [] with
    | [] => none
    | r :: q => some (i, (r :: q).take (s.gangSize r))

/-- A gang moves from the die's pool to the tail of the cluster's queue of its priority, if that has room (R70, R75). Which
cluster of the die takes it, and when, is the model's schedule; it may wait there while a core of another one is free. (log
146: DESIGN CHOICE, unsafe.) -/
def State.pullGang (s : State) (cl : Nat) : State :=
  let d := cl / 4
  match s.poolHead d with
  | none => s
  | some (i, ms) =>
    let c := s.cluster cl
    if queueRoom 512 c.queues (i / 2) < ms.length then s
    else
      let s := s.modDie d fun x => { x with pool := if h : i < 8 then x.pool.set i ((x.pool.toList.getD i []).drop ms.length) else x.pool }
      ((s.setCluster cl (c.setQ (i / 2) (c.prioQ (i / 2) ++ ms))).refill d 4096).noteIdle cl

/-- Shipped gangs join the tail of their priority as far as there is room (R74). -/
def State.takeInbox (s : State) (cl : Nat) : State :=
  match (s.cluster cl).inbox with
  | [] => s
  | r :: q =>
    let k := s.gangSize r
    let p := ((s.refNode r).map fun x => x.2.prio).getD 0
    let c := s.cluster cl
    if queueRoom 512 c.queues p < k then s
    else s.setCluster cl { c.setQ p (c.prioQ p ++ (r :: q).take k) with inbox := (r :: q).drop k }

/-! ## Dispatch (R71, R72) -/

/-- The seats of a gang: the cores that fit it with the most free granules, then the lowest numbers, one for each member.
A reserved core takes only the heads it is reserved for (R72). -/
def State.gangSeats (s : State) (cl : Nat) (n : Node) (ms : List TaskRef) : Option (List (TaskRef × Seat)) :=
  let held := fun k : Nat =>
    let for_ := (s.cluster cl).reserved.filter fun r => decide (r.1 = k)
    !for_.isEmpty && !for_.any fun r => ms.contains r.2
  let seats := ((coresOf cl n.ctl).filter fun k => !held k).filterMap (s.seat n)
  let best := sortBy (fun a b => decide (b.room < a.room ∨ (a.room = b.room ∧ a.core ≤ b.core))) seats
  if best.length < ms.length then none else some (ms.zip best)

/-- The gangs of a cluster in the order in which it tries them: by priority, then by place in the queue. -/
def State.gangOrder (s : State) (cl : Nat) : List (Nat × Nat × List TaskRef) :=
  [3, 2, 1, 0].flatMap fun p =>
    let q := (s.cluster cl).prioQ p
    (s.gangs q.length q).zipIdx.map fun g => (p, g.2, g.1)

/-- The first gang of a cluster that fits, with its seats. (log 84: DEDUCED, unsafe.) -/
def State.nextDispatch (s : State) (cl : Nat) : Option (Nat × Nat × List TaskRef × List (TaskRef × Seat)) :=
  (s.gangOrder cl).findSome? fun x =>
    match x.2.2.head?.bind s.refNode with
    | some gn => (s.gangSeats cl gn.2 x.2.2).map fun q => (x.1, x.2.1, x.2.2, q)
    | none => none

/-- TASK_DISPATCH (R71): the first gang that fits leaves its queue for its cores. The heads that it passes count it; the
head that goes frees the cores reserved for it (R72). A gang whose context slots lie on a page of the host waits for it (log 145:
DESIGN CHOICE, unsafe). With `pull`, a gang comes from the die's pool instead. -/
def State.dispatch (s : State) (cl : Nat) (pull : Bool) : State :=
  if pull then s.pullGang cl
  else
    let s := s.takeInbox cl
    match s.nextDispatch cl with
    | none => s
    | some (p, at_, ms, seats) =>
      match ms.head?.bind s.refNode with
      | none => s
      | some (g, n) =>
        match s.slotPage g n seats with
        | some q => s.askPage g.ctx q
        | none =>
        let c := s.cluster cl
        let c := c.setQ p ((c.prioQ p).filter fun r => !ms.contains r)
        let ahead := [3, 2, 1, 0].filter fun q => decide (p < q ∨ (q = p ∧ at_ ≠ 0)) && !(c.prioQ q).isEmpty
        let c := ahead.foldl (fun c q => c.setPassed q (c.passedAt q + 1)) c
        let c := if at_ = 0 then { c.setPassed p 0 with reserved := c.reserved.filter fun r => !ms.contains r.2 } else c
        ((s.setCluster cl c).placeMembers g n seats).noteIdle cl

/-- The cores that a cluster reserves for a gang: those with the most free granules, then the lowest numbers (R72). -/
def State.reserveCores (s : State) (cl : Nat) (r : TaskRef) : List Nat :=
  let ctl := ((s.refNode r).map fun x => x.2.ctl).getD false
  let free := fun k : Nat => ((s.core k).freeGranules k).length
  (sortBy (fun a b => decide (free b < free a ∨ (free a = free b ∧ a ≤ b))) (coresOf cl ctl)).take (s.gangSize r)

/-- DISPATCH_RESERVATION (R72): the head gang of a priority that has been passed 256 times has the cores with the most free
granules reserved for it, whether or not another head has one of them too. (log 128: DEDUCED, unsafe.) -/
def State.reserve (s : State) (cl p : Nat) : State :=
  let c := s.cluster cl
  match c.prioQ p with
  | [] => s
  | r :: _ =>
    if c.passedAt p < 256 ∨ c.reserved.any (fun x => decide (x.2 = r)) = true then s
    else
      s.setCluster cl { c with reserved := c.reserved ++ (s.reserveCores cl r).map fun k => (k, r) }

/-! ## Work donation (R74) -/

/-- Router hops between two clusters: eight columns for each die, four rows for each cluster (R318, R319). -/
def clusterHops (a b : Nat) : Nat :=
  let x := fun c : Nat => 8 * (c / 4 % 2)
  let y := fun c : Nat => 4 * (c / 8) + c % 4
  (x a - x b) + (x b - x a) + (y a - y b) + (y b - y a)

/-- Whether a reference may be shipped to a die: unstarted, not for a control core, and of a launch that permits it. -/
def State.mayShip (s : State) (die : Nat) (r : TaskRef) : Bool :=
  r.resumed.isNone && (match s.refNode r with
    | some (g, n) => !n.ctl && g.dies.testBit die
    | none => false)

/-- Whether a cluster is idle, has room for shipped tasks, and may ask again. -/
def State.mayAsk (s : State) (cl : Nat) : Bool :=
  let c := s.cluster cl
  c.idle && decide (c.idleSince.getD 0 + 256 ≤ s.now) && decide (8 ≤ queueRoom 512 c.queues 4) &&
    (match c.lastSteal with | some t => decide (t + 1024 ≤ s.now) | none => true) &&
    (coresOf cl false).any fun k => decide (16 ≤ ((s.core k).freeGranules k).length)

/-- Whether a reference is an unstarted task of a launch whose dies include a die. -/
def State.unstartedFor (s : State) (die : Nat) (r : TaskRef) : Bool :=
  r.resumed.isNone && (match s.refNode r with | some (g, _) => g.dies.testBit die | none => false)

/-- The cluster that an idle cluster asks: the nearest, by router hops and then by number, with queued unstarted tasks of a
launch whose dies include its own, control tasks among them. -/
def State.stealVictim (s : State) (cl : Nat) : Option Nat :=
  let victims := (List.range 16).filter fun v => decide (v ≠ cl) && (s.cluster v).disp.toList.any fun q => q.any (s.unstartedFor (cl / 4))
  (sortBy (fun a b => decide (clusterHops cl a < clusterHops cl b ∨ (clusterHops cl a = clusterHops cl b ∧ a ≤ b))) victims).head?

/-- STEAL_REQUEST: an idle cluster asks the nearest cluster with unstarted tasks of a launch that may run there. -/
def State.stealRequest (s : State) (cl : Nat) : State :=
  if !s.mayAsk cl then s
  else
    match s.stealVictim cl with
    | none => s
    | some v =>
      (s.modCluster cl fun c => { c with lastSteal := some s.now }).modCluster v fun c => { c with stealFrom := c.stealFrom ++ [cl] }

/-- Whole gangs from the tail of a queue, at most 8 tasks, in queue order. (log 85: DESIGN CHOICE, unsafe.) -/
def shipFrom (ok : List TaskRef → Bool) : Nat → List (List TaskRef) → List TaskRef → List TaskRef
  | 0, _, acc => acc
  | _, [], acc => acc
  | fuel + 1, g :: r, acc => if ok g && decide (g.length + acc.length ≤ 8) then shipFrom ok fuel r (g ++ acc) else shipFrom ok fuel r acc

/-- The highest non-empty priority of a cluster. -/
def Cluster.topPrio (c : Cluster) : Nat := ([3, 2, 1, 0].find? fun p => !(c.prioQ p).isEmpty).getD 0

/-- What a cluster ships to a die: from the tail of its highest non-empty priority, in queue order (R74). -/
def State.shipment (s : State) (v die : Nat) : List TaskRef :=
  let c := s.cluster v
  let gs := (s.gangs (c.prioQ c.topPrio).length (c.prioQ c.topPrio)).reverse
  shipFrom (fun g => g.all (s.mayShip die)) gs.length gs []

/-- STEAL_SHIPMENT: the victim ships from the tail of its highest non-empty priority. -/
def State.stealShipment (s : State) (v : Nat) : State :=
  match (s.cluster v).stealFrom with
  | [] => s
  | thief :: rest =>
    let c := s.cluster v
    let p := c.topPrio
    let ship := s.shipment v (thief / 4)
    let c := { c.setQ p ((c.prioQ p).filter fun r => !ship.contains r) with
               stealFrom := rest, reserved := c.reserved.filter fun r => !ship.contains r.2 }
    let c := if ((s.cluster v).prioQ p).head?.any ship.contains then c.setPassed p 0 else c
    let s := (s.setCluster v c).noteIdle v
    if ship.isEmpty then s else s.modCluster thief fun x => { x with shipments := x.shipments ++ [(v, ship)] }

/-- SHIPMENT_ARRIVAL: the thief takes the shipment into its steal inbox; without room there it refuses the whole of it, and the
tasks return to the tail of the victim's queue (R324), or, without room there either, stay where they are (R75). (log 161:
DEDUCED, unsafe.) -/
def State.shipmentArrival (s : State) (thief : Nat) : State :=
  match (s.cluster thief).shipments with
  | [] => s
  | (v, rs) :: rest =>
    let c := { s.cluster thief with shipments := rest }
    let p := (rs.head?.bind s.refNode).elim 0 fun x => x.2.prio
    if rs.length ≤ queueRoom 512 c.queues 4 then
      ((s.setCluster thief { c with inbox := c.inbox ++ rs }).takeInbox thief).noteIdle thief
    else if rs.length ≤ queueRoom 512 (s.cluster v).queues p then
      ((s.setCluster thief c).modCluster v fun x => x.setQ p (x.prioQ p ++ rs)).noteIdle v
    else s

end Sys2Proof.Machine
end

