-- ==== Sys2Proof/Machine/HostLink.lean ====
section
/-! DEFINITION. The host link: sequence numbers, credits, loss and resynchronisation (R352 to R359, R425), and the
sequenced messages that are not commands (R243, R361). -/

namespace Sys2Proof.Machine

/-! ## Rings, credits and what the device sends (R354, R357) -/

/-- The device-written rings. -/
def deviceRings : List Nat := [64, 65, 66, 67, 68]

/-- Entries of a ring that the host has not acknowledged. -/
def HostLink.inFlight (h : HostLink) (ring : Nat) : Nat := (h.unacked.filter fun m => decide (m.2.ring = ring)).length

/-- The credit that is left of `n` free entries at the host. -/
def HostLink.setCredit (h : HostLink) (ring n : Nat) : HostLink := { h with credits := h.credits.set ring (n - h.inFlight ring) }

/-- Every ring sends what it may. -/
def State.pumpAll (s : State) : State := deviceRings.foldl State.pumpRing s

/-- A message without a sequence number goes out (R353): its seq is the next number to be sent. -/
def State.control (s : State) (type ring : Nat) (arg : List Byte) : State :=
  { s with host := { s.host with control := s.host.control ++ [s.host.stamp s.time { ring := ring, type := type, seq := s.host.sendSeq, arg := arg, payload := [] }] } }

/-- `nak`, naming the first number missing, and `keepalive`, which may name a ring whose free entries it advertises (R354,
R357). -/
def State.sendNak (s : State) : State := s.control 0x09 0xFFFF (leBytes 4 s.host.expect)
def State.sendKeepalive (s : State) (ring : Nat) : State := s.control 0x0C ring []

/-- The oldest sequenced message still held, or one past the last sent (R359). -/
def HostLink.oldest (h : HostLink) : Nat := match h.unacked with | (_, m) :: _ => m.seq | [] => h.sendSeq

/-- The arg of `resync` and of its reply: last accepted, last sent, oldest held (R359). -/
def HostLink.resyncArg (h : HostLink) : List Byte := leBytes 4 h.accepted ++ leBytes 4 h.sent ++ leBytes 4 h.oldest

/-- Messages that are sent again: those for which `p` holds, with their header as of now (R358). -/
def State.sendAgain (s : State) (p : Msg → Bool) : State :=
  { s with host := { s.host with
      unacked := s.host.unacked.map fun m => if p m.2 then (s.time, s.host.stamp s.time m.2) else m } }

/-! ## Loss and recovery (R425) -/

/-- The host link is declared lost: `hlost` is set, code 0x06 is written, moves of pages fail, and so do assisted bindings. -/
def State.hostLoss (s : State) : State :=
  if s.host.lost then s
  else
    let s : State := { s with host := { s.host with lost := true } }
    (((s.sysEvent 0 0x06 s.host.accepted s.host.sent).writeStatus none).failMoves).failBinds

/-- HOST_LINK_LOST (R357, R425): 100 ms without an acknowledgement of what the device has sent. (log 99: DESIGN CHOICE, unsafe.) -/
def State.hostLinkLost (s : State) : State :=
  if s.host.up && !s.host.unacked.isEmpty && decide (s.host.lastAck + 100 * msTicks ≤ s.time) then s.hostLoss else s

/-- The first message accepted after a loss clears it and writes code 0x07 (R425). -/
def State.hostRecovered (s : State) : State :=
  if s.host.lost then
    let s : State := { s with host := { s.host with lost := false, lastAck := s.time } }
    ((s.writeStatus none).sysEvent 0 0x07 s.host.accepted s.host.sent).pumpAll
  else s

/-- HOST_RETRANSMIT (R357): the oldest unacknowledged message goes out again after 500 µs without progress, counted from its own
last sending. -/
def State.hostRetransmit (s : State) : State :=
  match s.host.unacked with
  | (sent, m) :: _ =>
    if max s.host.lastAck sent + 500 * usTicks ≤ s.time then s.sendAgain fun x => decide (x.seq = m.seq) else s
  | [] => s

/-- The rates of the host port in Gb/s; recovery mode has the lowest (R8, R428). -/
def hostRates (p : Phase) : List Nat := if p == Phase.recovery then [400] else [400, 800, 1600]

/-- HOST_LINK_BRINGUP (R8, R354, R357): the port comes up at one of its rates, which one is open (log 141); credits are the rings' depths and numbering starts from
1. A module that has lost its receive state asks for resynchronisation (R359, R426). -/
def State.hostBringup (s : State) : State :=
  if s.host.up then s
  else
    let rates := hostRates s.phase
    let rate := rates.getD (s.fresh.1 % rates.length) 400
    let s := s.fresh.2
    let h := s.host
    let credits := deviceRings.foldl (fun (t : Tab Nat) r => t.set r (ringDepth r)) []
    let s : State := { s with host := { h with up := true, lost := false, rate := rate, sendSeq := 1, expect := 1, anyIn := false, anyOut := false, next := 0, unacked := [], heldIn := []
                                               credits := credits, lastAck := s.time } }
    (if h.resync then s.control 0x0A 0xFFFF s.host.resyncArg else s).pumpAll

/-! ## Headers (R352, R354, R357) -/

/-- A message that is dropped with a nak. -/
def headBad (m : MsgHead) : Bool := !(m.ver == 1 || m.ver == 2) || decide (8192 < m.len) || m.spare || (m.ver == 1 && m.sack != 0)

/-- Whether an acknowledgement of `ack` covers a number. -/
def ackCovers (ack seq : Nat) : Bool := decide ((ack + 2 ^ 32 - seq) % 2 ^ 32 < 2 ^ 31)

/-- The acknowledgement and the credit of a header are taken. -/
def State.takeHead (s : State) (m : MsgHead) : State :=
  let h := s.host
  let rest := h.unacked.filter fun x => !ackCovers m.ack x.2.seq
  let h := { h with unacked := rest, lastAck := if rest.length < h.unacked.length ∨ rest = [] then s.time else h.lastAck }
  let h := if deviceRings.contains m.ring then h.setCredit m.ring m.credit else h
  ({ s with host := h } : State).pumpAll

/-- Whether the module takes messages from the host. -/
def State.hears (s : State) : Bool := s.host.up && (s.phase == Phase.running || s.phase == Phase.recovery)

/-! ## Control messages (R357, R359) -/

/-- A message that takes no sequence number: dropped with a nak where it is malformed, else its header and effect. -/
def State.controlIn (s : State) (m : MsgHead) (f : State → State) : State :=
  if !s.hears then s
  else if headBad m then s.sendNak
  else f (s.takeHead m)

/-- NAK (R357): every message from `first` on that sack does not mark goes out again. -/
def State.nakIn (s : State) (m : MsgHead) (first : Nat) : State :=
  s.controlIn m fun s => s.sendAgain fun x =>
    ackCovers x.seq first && !m.sack.testBit ((x.seq + 2 ^ 32 - (m.ack + 2) % 2 ^ 32) % 2 ^ 32)

/-- RESYNC (R359): answered with a reply, and every message still held after the host's last accepted goes out again. -/
def State.resyncIn (s : State) (m : MsgHead) (accepted : Nat) : State :=
  s.controlIn m fun s =>
    let gap := accepted ≠ 0 ∧ !ackCovers (nextSeqNo accepted) s.host.oldest
    let s := (s.control 0x0B 0xFFFF s.host.resyncArg).sendAgain fun x => decide (accepted = 0) || !ackCovers accepted x.seq
    let s : State := { s with host := deviceRings.foldl (fun h r => h.setCredit r (ringDepth r)) s.host }
    if gap then s.hostLoss else s.pumpAll

/-- RESYNC_REPLY (R359): a module that has lost its receive state expects the oldest number that the host still holds; one
that has not keeps its own, and a gap is link loss. -/
def State.resyncReplyIn (s : State) (m : MsgHead) (oldest : Nat) : State :=
  s.controlIn m fun s =>
    let lostState := s.host.resync
    let gap := !lostState && !ackCovers s.host.expect oldest
    let s : State := { s with host := { s.host with
      resync := false, expect := if lostState then oldest else s.host.expect, next := if lostState then 0 else s.host.next } }
    let s : State := { s with host := deviceRings.foldl (fun h r => h.setCredit r (ringDepth r)) s.host }
    if gap then s.hostLoss else s.pumpAll

/-- KEEPALIVE (R354). -/
def State.keepaliveIn (s : State) (m : MsgHead) : State := s.controlIn m id

/-! ## System-call replies (R361) -/

/-- The values of a reply by slot. -/
def replyVals (lo hi : Nat) (vals : List (Nat × Nat)) : List (Nat × Nat × Nat) :=
  (maskSlots (lo % 2 ^ 32 + 2 ^ 32 * (hi % 2 ^ 32)) 64).zip vals

/-- Where the course of a call is resident: its core and number. -/
def State.callCourse (s : State) (c : SysCall) : Option (Nat × Nat) :=
  s.cores.findSome? fun k =>
    (k.2.tasks.find? fun (t : Nat × Task) => decide (t.2.ref.die = c.die ∧ t.2.ref.graph = c.graph ∧ t.2.ref.node = c.node ∧ t.2.ref.index = c.index)).bind fun t =>
      (t.2.courses.find? fun n => match s.course? k.1 n with | some q => decide (q.pos = c.pos) | none => false).map fun n => (k.1, n)

/-- Every task that waits in a pool or for one, in a queue or on its way between them. -/
def State.waitingTasks (s : State) : List TaskRef :=
  (s.dies.flatMap fun d => d.2.pool.toList.flatten ++ d.2.graphs.flatMap fun g => g.nodes.flatMap fun n => n.resumed.map Prod.snd) ++
  s.clusters.flatMap fun c => c.2.disp.toList.flatten ++ c.2.inbox ++ (c.2.reserved.map Prod.snd) ++ c.2.shipments.flatMap Prod.snd

/-- The call of a vacated course is answered in its context slot. -/
def State.replyToSlot (s : State) (c : SysCall) (vals : List (Nat × Nat × Nat)) : State :=
  match s.waitingTasks.find? fun r => decide (r.die = c.die ∧ r.graph = c.graph ∧ r.node = c.node ∧ r.index = c.index) && r.resumed.isSome with
  | none => s
  | some r =>
    match s.refNode r with
    | none => s
    | some (g, n) =>
      let unit := 132 * r.die + 128
      let per := if n.width = 2 then 2 * 16896 else 16896
      let at_ := g.ctxa.toNat + (r.resumed.getD 0) * g.slotSize + 3328 + per * c.pos
      let s := vals.foldl (fun s v =>
        if c.mask.testBit v.1 then
          s.unitStore unit g.ctx (at_ + (if v.1 < 32 then 512 + 512 * v.1 else 17408 + 512 * (v.1 - 32))) (leBytes 8 v.2.1 ++ leBytes 8 v.2.2)
        else s) s
      let s := s.unitStore unit g.ctx (at_ + 0x14C) (leBytes 4 1)
      { s with calls := s.calls.map fun x => if x.id = c.id then { x with answered := true } else x }

/-- SYSCALL_REPLY (R361): v0 and v1 of the threads in the reply's and the record's masks are written, once, and the course
continues; a reply for no open call is discarded. (log 101: DEDUCED, unsafe.) -/
def State.syscallReply (s : State) (call lo hi : Nat) (vals : List (Nat × Nat)) : State :=
  match s.calls.find? fun c => decide (c.id = call) && !c.answered with
  | none => s
  | some c =>
    let vs := replyVals lo hi vals
    match s.callCourse c with
    | some (core, n) =>
      let put := fun (q : Course) (v : Nat × Nat × Nat) =>
        if c.mask.testBit v.1 then (q.putBoth v.1 (.v 0) (BitVec.ofNat 64 v.2.1)).putBoth v.1 (.v 1) (BitVec.ofNat 64 v.2.2) else q
      let s := s.modCourse core n fun q => { vs.foldl put q with wakeAt := some (s.now + 32) }
      { s with calls := s.calls.filter fun x => decide (x.id ≠ call) }
    | none => s.replyToSlot c vs

/-- MAILBOX_MESSAGE (R243): the 16 words of an inbound message are a control core's inbound mailbox. -/
def State.mailboxIn (s : State) (core : Nat) (words : List Nat) : State :=
  if isCtl core then s.modCore core fun k => { k with mbIn := Vector.ofFn fun i : Fin 16 => BitVec.ofNat 64 (words.getD i.val 0) } else s

end Sys2Proof.Machine
end

