-- ==== Sys2Proof/Machine/HostCmd.lean ====
section
/-! DEFINITION. Host commands (R355, R356) and the entry of sequenced messages in order (R357). -/

namespace Sys2Proof.Machine

/-- The opcode of a command (R355). -/
def opcodeOf : HostOp → Nat
  | .launch .. => 0x01
  | .release _ _ => 0x02
  | .preempt .. => 0x03
  | .write .. => 0x04
  | .read .. => 0x05
  | .queueControl .. => 0x06
  | .route .. => 0x07
  | .ringSetup .. => 0x08
  | .bindResult .. => 0x09
  | .trapResume .. => 0x0A
  | .codeTable .. => 0x0B
  | .attest _ => 0x0C
  | .ringBind .. => 0x0D
  | _ => 0

/-- Whether an entry is a command. -/
def isCommand (o : HostOp) : Bool := opcodeOf o != 0

/-- A completion record of 32 bytes (R355). -/
def completion (op status tag value : Nat) : List Byte :=
  leBytes 8 (op + 2 ^ 8 * status + 2 ^ 32 * (tag % 2 ^ 32)) ++ leBytes 8 value ++ List.replicate 16 0

/-- The next state, the status and the value of a command. -/
abbrev CmdDone := State × Nat × Nat

/-- Host accesses run in supervisor mode through die 0; `refused` says whether another destination refuses them (R439). -/
def hostView (ctx : Nat) (refused : Bool) : EngView := { core := 128, ctx := ctx, sup := true, far := if refused then .refused else .given }

/-! ## Memory (R355, R428) -/

/-- Command 0x04: a release store of up to 40 bytes. Where another destination refuses its bytes, those for the module's own
homes are written (R439). (log 102: DESIGN CHOICE, unsafe.) -/
def State.hostWrite (s : State) (ctx addr : Nat) (bs : List Byte) (refused : Bool) : CmdDone :=
  let s := s.resizesFirst
  match s.engPieces (hostView ctx refused) (glAt addr) 0 0 bs with
  | .error _ => (s, 1, 0)
  | .ok ps =>
    if refused && ps.any (fun p => p.1.isRemote) then ((s.engWrites [ps.filter fun p => !p.1.isRemote]).1, 1, 0)
    else (s.unitStore 128 ctx addr bs, 0, 0)

/-- Whether a range that the host reads touches another destination. -/
def State.readsFar (s : State) (ctx addr n : Nat) : Bool :=
  (rangePieces (n / 256 + 2) addr n).any fun p => match s.engLoc (hostView ctx false) (glAt addr) (p.1 - addr) 0 { r := true } with
    | .ok x => x.isRemote
    | .error _ => false

/-- Command 0x05: acquire loads of up to 8 bytes; `val` is what another destination answers. -/
def State.hostRead (s : State) (ctx addr n val : Nat) (refused : Bool) : CmdDone :=
  let s := s.resizesFirst
  let v := hostView ctx refused
  match s.engRead v (glAt addr) 0 n 0 with
  | .error _ => (s, 1, 0)
  | .ok bs => (s.engServed v (glAt addr) 0 n 0, 0, if s.readsFar ctx addr n then val % 2 ^ (8 * n) else leNat bs)

/-- The staging window of recovery mode (R428). -/
def inStaging (addr n : Nat) : Bool := decide (addr + n ≤ 0x10000000)

/-! ## Queues, routes, rings (R76, R325, R337, R356, R423) -/

/-- A queue's control register after a write, whose reserved bits are left (R6), or none where the write is ignored: cap below min, or minimums that exceed
the pool (R76). (log 83: DESIGN CHOICE, unsafe.) -/
def queueWrite (pool : Nat) (qs : List QCtl) (i value : Nat) : Option QCtl :=
  let q : QCtl := { cap := value / 2 ^ 16 % 2 ^ 16, min := value % 2 ^ 16 }
  let mins := (qs.zipIdx.map fun x => if x.2 = i then q.min else x.1.min).foldl (· + ·) 0
  if q.cap < q.min ∨ pool < mins ∨ qs.length ≤ i then none else some q

/-- A write of a queue control register, and whether it took effect: units 0 to 3 are the dies' ready pools, 4 to 19 the
clusters' dispatch queues, 20 to 35 their event queues. -/
def State.setQueueCtl (s : State) (unit queue value : Nat) : State × Bool :=
  if unit < 4 then
    match queueWrite 4096 (s.die unit).poolCtl.toList queue value with
    | some q => ((s.modDie unit fun x => { x with poolCtl := if h : queue < 8 then x.poolCtl.set queue q else x.poolCtl }).refill unit 4096, true)
    | none => (s, false)
  else if unit < 20 then
    let cl := unit - 4
    match queueWrite 512 (s.cluster cl).dispCtl.toList queue value with
    | some q => (s.modCluster cl fun c => { c with dispCtl := if h : queue < 5 then c.dispCtl.set queue q else c.dispCtl }, true)
    | none => (s, false)
  else if unit < 36 then
    let cl := unit - 20
    match queueWrite 1024 [(s.cluster cl).evCtl] queue value with
    | some q => ((s.modCluster cl fun c => { c with evCtl := q }).drainEvents cl, true)
    | none => (s, false)
  else (s, false)

/-- A route entry as written: alt is that of its primary port, and the reserved bits stay 0 (R325, R421); a lost destination
stays lost until state 1 is written (R423). (log 111: DEDUCED, unsafe.) -/
def State.routeWord (s : State) (old : BitVec 16) (entry : Nat) : BitVec 16 :=
  let alt : BitVec 16 := if (s.links.get (entry % 32) {}).isDown then 0x2000 else 0
  let e := (BitVec.ofNat 16 entry &&& 0xDF1F) ||| alt
  if old.toNat / 2 ^ 14 = 2 ∧ entry / 2 ^ 14 ≠ 1 then (e &&& 0x3FFF) ||| 0x8000 else e

/-- A route entry is written (R423): state 1 over another state restores the destination, with a record where it was lost, and
state 2 over another has the effects of its loss on every die, without a record. (log 111: DEDUCED, unsafe.) -/
def State.writeRoute (s : State) (dest entry : Nat) : State :=
  let old := s.routes.get dest 0
  let state := old.toNat / 2 ^ 14
  let s : State := { s with routes := s.routes.set dest (s.routeWord old entry) }
  if entry / 2 ^ 14 = 1 ∧ state ≠ 1 then (s.restore dest (state = 2)).writeStatus none
  else if entry / 2 ^ 14 = 2 ∧ state ≠ 2 then s.lostEverywhere dest
  else s.writeStatus none

/-- Command 0x0D: a ring from 1 to 63 is bound to a context (R356). -/
def State.bindRing (s : State) (on ring ctx root : Nat) : CmdDone :=
  let used := s.ringCtx.any fun x => decide (x.2 = ctx)
  if on ≠ 0 ∨ ring = 0 ∨ 63 < ring ∨ ctx = 0 ∨ 65535 < ctx ∨ root % 4096 ≠ 0 ∨ (used = true ∧ s.contexts.get ctx 0 ≠ root) then (s, 1, 0)
  else ({ s with ringCtx := s.ringCtx.set ring ctx, contexts := s.contexts.set ctx root }, 0, 0)

/-- The member list at an address: a 16-bit count and the ranks in 16 bits each; `far` are the ranks of a list that another
destination holds, as it answers. (log 63: DESIGN CHOICE, unsafe.) -/
def State.memberList (s : State) (ctx addr : Nat) (far : List Nat) : Option (List Nat) :=
  let v := hostView ctx false
  (s.glBytes v addr 2).bind fun h =>
    let n := if s.readsFar ctx addr 2 then far.length else recNat h 0 2
    if 384 < n then none
    else (s.glBytes v (addr + 2) (2 * n)).map fun bs =>
      let away := s.readsFar ctx addr (2 + 2 * n)
      (List.range n).map fun i => if away then far.getD i 0 % 65536 else recNat bs (2 * i) 2

/-- Command 0x08: the checked list is set up by the hardware or goes to the host (R337). -/
def State.setupRing (s : State) (ctx ring addr : Nat) (far : List Nat) : CmdDone :=
  let s := s.resizesFirst
  match s.memberList ctx addr far with
  | none => (s, 1, 0)
  | some members =>
    let s := (s.engServed (hostView ctx false) (glAt addr) 0 (2 + 2 * members.length) 0).pastFar
    if 256 ≤ ring ∨ s.membersOk members = false then (s, 1, 0)
    else
      let s := s.listRing ring members
      if (s.die 0).duty.getLsbD 4 then
        (s.hostEvent (s.event 0 0xFFFF 0 0x0B 0 0xFF (ring + 2 ^ 16 * ctx) (BitVec.ofNat 64 addr)), 0, 0)
      else (s.ringSetup ring members, 0, 0)

/-! ## Attestation (R370) -/

/-- The signed bytes of a record (R369). (log 108: DEDUCED, unsafe.) -/
def recordBody (bs : List Byte) : List Byte := bs.take (recNat bs 24 4)

/-- What a report says: nonce, certificate, hashes of the accepted records, duties and time. (log 103: DESIGN CHOICE, unsafe.) -/
def State.reportBody (s : State) (nonce : List Byte) : List Byte :=
  nonce ++ s.plat.cert ++
  s.plat.accepted.flatMap (fun r => leBytes 4 r.1 ++ leBytes 4 r.2.1 ++ sha512 (recordBody r.2.2)) ++
  [0, 1, 2, 3].flatMap (fun d => leBytes 8 (s.die d).duty.toNat) ++ leBytes 8 s.ns

/-- The report and the identity key's signature over all of its bytes; the secret number of a signature is free. -/
def State.report (s : State) (nonce : List Byte) : List Byte :=
  let body := s.reportBody nonce
  body ++ ecdsaSign Config.identityKey (1 + s.fresh.1 % (curveN - 1)) body

/-- Command 0x0C. -/
def State.attestTo (s : State) (ctx addr : Nat) : CmdDone :=
  if s.plat.cert = [] then (s, 1, 0)
  else
    let s := s.resizesFirst
    match s.glBytes (hostView ctx false) addr 64 with
    | none => (s, 1, 0)
    | some nonce =>
      let s := (s.engServed (hostView ctx false) (glAt addr) 0 64 0).pastFar
      let r := s.fresh.2.hostWrite ctx addr (s.report nonce) false
      if r.2.1 = 0 then (r.1, 0, addr) else (s, 1, 0)

/-! ## Commands -/

/-- Command 0x0A (R390): the action is written to word 3 of the course's frame slot, and a course that waits follows it. -/
def State.trapResumeCmd (s : State) (die core course action : Nat) : CmdDone :=
  if 4 ≤ die ∨ 132 ≤ core ∨ 128 ≤ course ∨ 1 < action then (s, 1, 0)
  else
    let k := 132 * die + core
    ((s.physStore (frameSlot k course + 0x18) (leBytes 8 (action + 1))).frameAction k course (action + 1), 0, 0)

/-- A command of a bound ring while the module runs. Whether another destination refuses the reads of a launch is open
(log 131). The reserved bits of a queue control value or a route entry stay zero, and
the other fields take the written values (R6). (log 96: DEDUCED, unsafe.) -/
def State.runCommand (s : State) (ring ctx : Nat) (o : HostOp) : CmdDone :=
  match o with
  | .launch addr =>
    match s.fresh.2.submit 0 (hostView ctx (decide (s.fresh.1 % 2 = 1))) false addr 1 with
    | (.ok seq, s) => (s, 0, seq)
    | (.error c, s) => (s.postEvent 0 (s.event 0 0xFFFF c 0x04 0 0xFF 0 0), 1, c)
  | .release graph node => (s.releaseNode 0 graph node, 0, 0)
  | .preempt die clusters count byPrio sel =>
    if 4 ≤ die ∨ 16 ≤ clusters ∨ clusters = 0 ∨ count = 0 then (s, 1, 0)
    else (s.requestPreempt die
      { clusters := clusters, count := count, graph := if byPrio then none else some sel, below := if byPrio then sel else 0 }, 0, 0)
  | .write addr len data refused => if len = 0 ∨ 40 < len then (s, 1, 0) else s.hostWrite ctx addr (padTo len data) refused
  | .read addr len val refused => if len = 0 ∨ 8 < len then (s, 1, 0) else s.hostRead ctx addr len val refused
  | .queueControl unit queue value =>
    match s.setQueueCtl unit queue value with
    | (s, true) => (s, 0, 0)
    | (s, false) => (s, 0, 1)
  | .route dest entry =>
    if 512 ≤ dest ∨ entry / 2 ^ 14 % 4 = 3 then (s, 1, 0)
    else (s.writeRoute dest (entry % 2 ^ 16), 0, 0)
  | .ringSetup r addr far => s.setupRing ctx r addr far
  | .bindResult base index state fail target =>
    let r := s.bindResult ctx base index state fail target
    (r.1, r.2, 0)
  | .trapResume die core course action => s.trapResumeCmd die core course action
  | .codeTable base count =>
    if base % 4096 ≠ 0 ∨ 65536 < count then (s, 1, 0)
    else ({ s with codeTables := s.codeTables.filter (fun t => decide (t.ctx ≠ ctx)) ++ [{ ctx := ctx, base := base, count := count }] }, 0, 0)
  | .attest addr => s.attestTo ctx addr
  | .ringBind r c root => s.bindRing ring r c root
  | _ => (s, 2, 0)

end Sys2Proof.Machine
end

