-- ==== Sys2Proof/Machine/Boot.lean ====
section
/-! DEFINITION. Boot, recovery and the management controller (R5, R16, R369, R375, R426 to R428), and the intake of the
host's sequenced messages (R357). -/

namespace Sys2Proof.Machine

/-! ## Signed records (R369, R427) -/

/-- Whether a record's signature, which stands after its signed bytes, is one of some keys' (R369). -/
def recordSigned (keys : List (Nat × Nat)) (bs : List Byte) : Bool :=
  keys.any fun q => verifies q (recordBody bs) ((bs.drop (recNat bs 24 4)).take 132)

/-- Why a record is refused where one of a kind is expected: 4 length, 1 signature, 2 version, 3 part number; 0 where it is
accepted. A record of another kind has no signature for this one. (log 108: DEDUCED, unsafe.) -/
def recordReason (minVersion kind : Nat) (signed : Bool) (bs : List Byte) : Nat :=
  if bs.length < max 64 (recNat bs 24 4) then 4
  else if !signed || recNat bs 0 1 != kind then 1
  else if recNat bs 4 4 < minVersion then 2
  else if recNat bs 8 16 ≠ Config.partNumber then 3
  else 0

/-- A record is checked: an accepted one is kept and may raise the minimum version, a refused one is counted and reported
with code 0x09. An empty image holds no record. (log 108: DEDUCED, unsafe.) -/
def State.checkRecord (s : State) (kind : Nat) (signed : Bool) (bs : List Byte) : State × Bool :=
  if bs = [] then (s, false)
  else
    let r := recordReason s.plat.minVersion kind signed bs
    if r = 0 then
      let p := s.plat
      let ver := recNat bs 4 4
      ({ s with plat := { p with
          accepted := p.accepted ++ [(kind, ver, bs.take (recNat bs 24 4 + 132))]
          minVersion := if (recNat bs 1 1).testBit 0 then ver else p.minVersion } }, true)
    else (({ s with plat := { s.plat with cfgref := s.plat.cfgref + 1 } } : State).sysEvent 0 0x09 kind r, false)

/-- One setting of a configuration record: 0 `duty`, 1 a queue control (16 × unit + queue), 2 `hodage`, 3 die scratch ways,
4 a route entry, 5 and 6 an overflow ring's base and size, 7 and 8 a context's code space and its end, 9 the root of context 0,
10 the error threshold, 11 where telemetry goes, 12 `trapvec`. The reserved bits of a value are left (R6).
(logs 105 and 110: DESIGN CHOICE, unsafe.) -/
def State.applySetting (s : State) (x : Nat × Nat × Nat) : State :=
  let i := x.2.1
  let v := x.2.2
  match x.1 with
  | 0 => if i < 4 then s.modDie i fun d => { d with duty := BitVec.ofNat 64 (v % 32) } else s
  | 1 => (s.setQueueCtl (i / 16) (i % 16) (v % 2 ^ 32)).1
  | 2 => if i < 4 then s.modDie i fun d => { d with hodage := BitVec.ofNat 64 (v % 2 ^ 16) } else s
  | 3 => if i < 4 then s.modDie i fun d => { d with ways := v % 16 } else s
  | 4 => if i < 512 ∧ v / 2 ^ 14 % 4 ≠ 3 then s.writeRoute i (v % 2 ^ 16) else s
  | 5 => s.modCluster i fun c => { c with ovBase := BitVec.ofNat 64 v }
  | 6 => s.modCluster i fun c => { c with ovSize := v }
  | 7 => { s with codeSpace := s.codeSpace.set i (v, (s.codeSpace.get i (0, 0)).2) }
  | 8 => { s with codeSpace := s.codeSpace.set i ((s.codeSpace.get i (0, 0)).1, v) }
  | 9 => { s with contexts := s.contexts.set 0 v }
  | 10 => { s with plat := { s.plat with errThreshold := v } }
  | 11 => { s with plat := { s.plat with tele := some (i, v) } }
  | 12 => if i < 528 then s.modCore i fun k => { k with trapvec := BitVec.ofNat 64 v &&& ~~~1#64 } else s
  | _ => s

/-- The keys that may sign a configuration record: the operator's that the owner record names, and Ralwen's (R369, R427). -/
def State.configKeys (s : State) : List (Nat × Nat) := s.plat.owner.toList ++ [Config.rootKey, Config.firmwareKey]

/-- The configuration record is checked and applied; without one the reset values stand and context 0 maps every physical
address to itself (R356, R427). -/
def State.configure (s : State) (cfg : List Byte) : State :=
  let r := s.checkRecord 3 (recordSigned s.configKeys cfg) cfg
  let s := r.1
  let s : State := if r.2 then (Config.settings cfg).foldl State.applySetting s else { s with ident0 := true }
  ({ s with phase := .running, ringCtx := s.ringCtx.set 0 0, plat := { s.plat with cfgdef := !r.2, cfg := cfg } } : State).writeStatus none

/-- BOOT (R427): identity certificate, owner record, firmware image and configuration record, in this order. When both
firmware images are refused the module enters recovery mode (R428). -/
def State.boot (s : State) (cert owner fw fw2 cfg : List Byte) : State :=
  if s.phase != Phase.booting then s
  else
    let r := s.checkRecord 4 (recordSigned [Config.rootKey] cert) cert
    let s := if r.2 then { r.1 with plat := { r.1.plat with cert := cert } } else r.1
    let r := s.checkRecord 2 (recordSigned [Config.rootKey] owner) owner
    let s := if r.2 then { r.1 with plat := { r.1.plat with owner := some (Config.operatorKey owner) } } else r.1
    let r := s.checkRecord 1 (recordSigned [Config.firmwareKey] fw) fw
    let r := if r.2 then r else r.1.checkRecord 1 (recordSigned [Config.firmwareKey] fw2) fw2
    if r.2 then r.1.configure cfg
    else
      ({ r.1 with phase := .recovery, ident0 := true, ringCtx := r.1.ringCtx.set 0 0
                  host := { r.1.host with rate := if r.1.host.up then 400 else r.1.host.rate }
                  plat := { r.1.plat with cfg := cfg } } : State).writeStatus none

/-- The firmware image in the staging window is checked, and the module boots from it (R428). -/
def State.recoveryCheck (s : State) : State × Bool :=
  let len := s.physNat 24 4
  let bs := s.physRead false 0 (min (max 64 len + 132) 0x0FFFFFF8)
  let r := s.checkRecord 1 (recordSigned [Config.firmwareKey] bs) bs
  if r.2 then (r.1.configure r.1.plat.cfg, true) else (r.1.writeStatus none, false)

/-- A command in recovery mode (R428). -/
def State.recoveryCommand (s : State) (ctx : Nat) (o : HostOp) : CmdDone :=
  match o with
  | .write addr len data _ =>
    if ctx ≠ 0 ∨ len = 0 ∨ 40 < len ∨ !inStaging addr len then (s, 1, 0)
    else
      let s := s.physStore addr (padTo len data)
      if addr ≤ 0x0FFFFFF8 ∧ addr + len = 0x10000000 then
        let r := s.recoveryCheck
        (r.1, bitN (!r.2) 0, 0)
      else (s, 0, 0)
  | .read addr len _ _ =>
    if ctx ≠ 0 ∨ len = 0 ∨ 8 < len ∨ !inStaging addr len then (s, 1, 0) else (s, 0, s.physNat addr len)
  | _ => (s, 1, 0)

/-! ## The management controller (R375, R426) -/

/-- TELEMETRY_RECORD (R375). -/
def State.telemetryRecord (s : State) : State :=
  match s.plat.tele with
  | some (ctx, addr) =>
    if s.plat.lastTele + msTicks ≤ s.time then
      ({ s with plat := { s.plat with lastTele := s.time } } : State).unitStore 128 ctx addr s.telemetryBytes
    else s
  | none => s

/-- The sensor value with which a trip cause of R426 holds. -/
def State.tripValue (s : State) (cause : Nat) : Option Int :=
  let hot := fun (l : List Nat) (x : Int) => l.findSome? fun n => (s.sensor n).filter fun v => decide (x ≤ v)
  let held := fun (t : Option Nat) (n : Nat) => match t with | some t => if t + 1000 * msTicks ≤ s.time then s.sensor n else none | none => none
  match cause with
  | 1 => hot (List.range 8) 1760
  | 2 => hot ((List.range 8).map (8 + ·)) 1840
  | 3 => held s.plat.flowLow 18
  | 4 => held s.plat.inletHot 16
  | 5 => if s.links.any (fun l => decide (64 ≤ l.1) && l.2.isDown) then some 0 else none
  | _ => none

/-- THERMAL_TRIP (R426): code 0x08 goes to the host event ring, and the module's clocks and power go. Nothing that the module
stored remains; the management controller and the last messages to the host do. (log 109: DEDUCED, unsafe.) -/
def State.thermalTrip (s : State) (cause : Nat) : State :=
  if s.phase == Phase.off then s
  else match s.tripValue cause with
    | none => s
    | some v =>
      let e := s.event 0 0xFFFF 0x08 0x0F 0 0xFF cause (BitVec.ofInt 64 v)
      let t := if s.host.up && !s.host.lost then s.hostEvent e else s
      { phase := .off, now := t.now, time := t.time, agenda := t.agenda, freeCtr := t.freeCtr, rank := t.rank
        host := { t.host with up := false }
        plat := { minVersion := t.plat.minVersion, sensors := t.plat.sensors, tripped := true } }

/-- MODULE_REBOOT (R426): after 10 s with every sensor in the envelope the module boots again, and its clock with it: the last
samples count as of the boot. -/
def State.moduleReboot (s : State) : State :=
  match s.plat.okSince with
  | some t =>
    if s.phase == Phase.off && decide (t + 10000 * msTicks ≤ s.time) then
      { agenda := s.agenda, freeCtr := s.freeCtr, rank := s.rank, host := { resync := true }
        plat := { minVersion := s.plat.minVersion, sensors := s.plat.sensors.map fun x => (x.1, (x.2.take 1).map fun y => (0, y.2)) } }
    else s
  | none => s

/-! ## Registers without behaviour (R5, R16) -/

/-- DUTY_WRITE (R15, R16): events raised from now on follow the new modes; the reserved bits 63:5 of the value are left.
(log 110: DESIGN CHOICE, unsafe.) -/
def State.writeDuty (s : State) (d : Nat) (v : Word) : State :=
  if d < 4 then s.modDie d fun x => { x with duty := v &&& 0x1F } else s

/-- REGISTER_WRITE (R5, R6): the fields take the written values, and the reserved bits stay zero. -/
def State.writePlain (s : State) (r : PlainReg) (v : Word) : State :=
  match r with
  | .hodage d => if d < 4 then s.modDie d fun x => { x with hodage := v &&& 0xFFFF } else s
  | .trapvec k => if k < 528 then s.modCore k fun c => { c with trapvec := v &&& ~~~1#64 } else s
  | .ring i => if i < 256 then { s with rings := s.rings.set i (v &&& 0x7FFFFFFFFFFF) } else s

/-! ## The host's sequenced messages (R355, R357) -/

/-- The opcode that an entry holds: the one given with it where it is malformed. -/
def entryOpcode (x : HostIn) : Nat := (x.z.map fun n => n % 256).getD (opcodeOf x.op)

/-- The status of a malformed entry: 2, but in recovery mode 1 for every command but the two that it accepts (R355, R428). -/
def State.badStatus (s : State) (x : HostIn) : Nat :=
  if s.phase == Phase.running || entryOpcode x == 4 || entryOpcode x == 5 then 2 else 1

/-- One command entry: its effect and its completion record. -/
def State.command (s : State) (x : HostIn) : State :=
  let r : CmdDone :=
    if x.z.isSome then (s, s.badStatus x, 0)
    else match s.ringCtx.find x.m.ring with
      | none => (s, 1, 0)
      | some ctx => if s.phase == Phase.running then s.runCommand x.m.ring ctx x.op else s.recoveryCommand ctx x.op
  r.1.recordTo 0 65 3 (completion (entryOpcode x) r.2.1 x.tag r.2.2)

/-- The effect of one entry of an accepted message. -/
def State.entryEffect (s : State) (x : HostIn) : State :=
  if isCommand x.op then s.command x
  else if s.phase != Phase.running then s
  else match x.op with
    | .reply call lo hi vals => s.syscallReply call lo hi vals
    | .mailbox core words => s.mailboxIn core words
    | .page ctx va bytes => s.pageMessage ctx va bytes
    | .own ctx va own => s.ownMessage ctx va own
    | .wantPage ctx va => s.hostWants ctx va
    | _ => s

/-- The number of entries of the message that an entry belongs to. -/
def entryCount (x : HostIn) : Nat := if isCommand x.op then max 1 (x.m.len / 64) else 1

/-- A command message is refused whole where its context is not its ring's (R356), or its entries exceed the credit of its
ring, which the entries of other messages that are held have taken (R354). (log 135: DESIGN CHOICE, unsafe.) -/
def State.refusedWhole (s : State) (x : HostIn) : Bool :=
  isCommand x.op &&
    ((match s.ringCtx.find x.m.ring with | some c => c != x.m.ctx | none => false) ||
     decide (ringDepth x.m.ring < (s.host.heldIn.filter fun y => decide (y.m.ring = x.m.ring ∧ y.m.seq ≠ x.m.seq)).length + entryCount x))

/-- Once the last entry of a message has been processed, the free entries of its ring are advertised (R354). (log 135: DESIGN
CHOICE, unsafe.) -/
def State.entryDone (s : State) (x : HostIn) : State := if x.i + 1 < entryCount x then s else s.sendKeepalive x.m.ring

/-- The next entry is accepted: the first of a message advances the number expected. -/
def State.acceptEntry (s : State) (x : HostIn) : State :=
  let s := if x.i = 0 then ({ s with host := { s.host with expect := nextSeqNo s.host.expect, anyIn := true } } : State).hostRecovered else s
  (({ s with host := { s.host with next := if x.i + 1 < entryCount x then x.i + 1 else 0 } } : State).entryEffect x).entryDone x

/-- The number of the message whose entry comes next. -/
def HostLink.current (h : HostLink) : Nat := if h.next = 0 then h.expect else prevSeqNo h.expect

/-- Entries that were held are accepted while they come next; `fuel` is the number held. -/
def State.acceptHeld : Nat → State → State
  | 0, s => s
  | fuel + 1, s =>
    match s.host.heldIn.find? fun x => decide (x.m.seq = s.host.current ∧ x.i = s.host.next) with
    | none => s
    | some x =>
      let rest := s.host.heldIn.erase x
      if x.i = 0 ∧ s.refusedWhole x = true then
        ({ s with host := { s.host with heldIn := rest.filter fun y => decide (y.m.seq ≠ x.m.seq) } } : State).sendNak
      else acceptHeld fuel (({ s with host := { s.host with heldIn := rest } } : State).acceptEntry x)

/-- An entry of a sequenced message arrives (R357): accepted in order, held when it is ahead, dropped as a duplicate. (log 97: DESIGN CHOICE, unsafe.) -/
def State.hostIn (s : State) (x : HostIn) : State :=
  if !s.hears then s
  else if headBad x.m then (if x.i = 0 then s.sendNak else s)
  else
    let s := s.takeHead x.m
    let h := s.host
    let ahead := (x.m.seq + 2 ^ 32 - h.expect) % 2 ^ 32
    if x.m.seq = h.current ∧ x.i = h.next then
      if x.i = 0 ∧ s.refusedWhole x = true then s.sendNak
      else
        let s := s.acceptEntry x
        s.acceptHeld s.host.heldIn.length
    else if ahead ≤ 255 ∧ (ahead ≠ 0 ∨ h.next ≠ 0) then
      let held := fun i : Nat => h.heldIn.any fun y => decide (y.m.seq = x.m.seq ∧ y.i = i)
      let barred := if x.i = 0 then s.refusedWhole x else !held 0 && decide (x.m.seq ≠ h.current)
      let s : State := if held x.i || barred then s else { s with host := { h with heldIn := h.heldIn ++ [x] } }
      if x.i = 0 then s.sendNak else s
    else if x.i = 0 then s.sendKeepalive 0xFFFF
    else s

end Sys2Proof.Machine
end

