-- ==== Sys2Proof/Machine/Scoreboard.lean ====
section
/-! DEFINITION. The operands that the next instruction of a thread reads, from its bits (R21, R22). -/

namespace Sys2Proof.Machine

/-- Every predicate. -/
def allPreds : List Rd := (List.range 12).map fun i => .q (BitVec.ofNat 4 i)

/-- The sources of an R-format instruction (R176, R179). -/
def readR (x : R3) (m : Modifier) (mac : Bool) : List Rd := (laneR 4 x m mac).rd

/-- The sources of a load (0), a store (1), a compare and swap (2) or another atomic (3). -/
def readM (x : Me) (k : Nat) : List Rd :=
  (if k = 0 then [] else [.v x.d]) ++ (if k = 2 ∨ (k = 1 ∧ x.w = 6) then [.v (x.d + 1)] else []) ++ [.v x.a]

/-- The sources of an instruction whose words are `w` and `v`. -/
def opReads (o : Op) (w v : Nat) : List Rd :=
  match o with
  | .movC => let x := unCReg w; [src x.u x.a]
  | .iaddC | .isubC | .imulC | .andC | .orC | .xorC | .shlC | .shrNC
  | .shrIC | .faddC | .fsubC | .fmulC | .fmaxC | .fminC => let x := unCReg w; [.v x.d, src x.u x.a]
  | .iaddi5C => [.v (unCImm w).d]
  | .nopC | .movi | .moviL | .fmovi | .fmoviL | .fenceFull | .fenceAcq | .fenceRel
  | .fenceWack | .phase | .fetchb | .bra | .braL | .call | .callL | .ret
  | .exit | .brk | .lcfg | .cnv | .bar | .trap | .bkpt | .yield
  | .mapchn | .mapflt | .mapchk | .bankq | .accZero | .accZeroL | .accRdrow | .accRdrowL
  | .accClrst | .accClrstL | .nop | .nopL | .pfirst | .pfirstL | .waitn | .waitnL
  | .clrg | .clrgL | .mapget | .mapgetL | .hget | .hgetL | .lget | .lgetL
  | .csrr | .csrrL | .tret | .tretL | .halt | .haltL | .tlbinvCtx | .tlbinvAll
  | .evget | .evgetL | .dbgrd | .dbgrdL => []
  | .iadd | .isub | .imul | .imulhI | .imulhN | .iminI | .iminN | .imaxI
  | .imaxN | .iabsd | .and | .or | .xor | .andn | .shl | .shrN
  | .shrI | .bfxN | .bfxI | .bfi | .perm | .icmpEq | .icmpNe | .icmpLtI
  | .icmpLeI | .icmpLtN | .icmpLeN | .ladd | .lsub | .lmul | .lshl | .lshrN
  | .lshrI | .lcmpEq | .lcmpNe | .lcmpLtI | .lcmpLtN | .lea2 | .lea3 | .lea4
  | .fadd | .fsub | .fmul | .fmin | .fmax | .fcmpEq | .fcmpNe | .fcmpLt
  | .fcmpLe | .hadd2F16 | .hmul2F16 | .hadd2Bf16 => readR (unR3 w) .zero false
  | .iaddL | .isubL | .imulL | .imulhIL | .imulhNL | .iminIL | .iminNL | .imaxIL
  | .imaxNL | .iabsdL | .andL | .orL | .xorL | .andnL | .shlL | .shrNL
  | .shrIL | .bfxNL | .bfxIL | .bfiL | .permL | .icmpEqL | .icmpNeL | .icmpLtIL
  | .icmpLeIL | .icmpLtNL | .icmpLeNL | .laddL | .lsubL | .lmulL | .lshlL | .lshrNL
  | .lshrIL | .lcmpEqL | .lcmpNeL | .lcmpLtIL | .lcmpLtNL | .lea2L | .lea3L | .lea4L
  | .faddL | .fsubL | .fmulL | .fminL | .fmaxL | .fcmpEqL | .fcmpNeL | .fcmpLtL
  | .fcmpLeL | .hadd2F16L | .hmul2F16L | .hadd2Bf16L => readR (unR3 w) (unModifier v) false
  | .imac | .lmac | .ffma | .hfma2F16 | .hfma2Bf16 => readR (unR3 w) .zero true
  | .imacL | .lmacL | .ffmaL | .hfma2F16L | .hfma2Bf16L => readR (unR3 w) (unModifier v) true
  | .mov | .clz | .popc | .lextI | .lextN => [.v (unR1 w).a]
  | .movL | .clzL | .popcL | .lextIL | .lextNL => [src (unModifier v).au (unR1 w).a]
  | .qlopAnd | .qlopOr | .qlopXor | .qlopAndn => [.q (unQl w).a, .q (unQl w).b]
  | .fsfu | .cvt | .cvtp => [.v (unRf w).a]
  | .fsfuL | .cvtL | .cvtpL => [src (unModifier v).au (unRf w).a]
  | .iaddi | .andi | .ori | .xori | .shli | .shriN | .shriI | .icmpiEq
  | .icmpiLtI => [.v (unIm w).a]
  | .iaddiL | .andiL | .oriL | .xoriL | .shliL | .shriNL | .shriIL | .icmpiEqL
  | .icmpiLtIL => [.v (unIm64 w v).a]
  | .movhi | .movhiL => [.v (unKm w).d]
  | .ld | .ldL => readM (unMe w) 0
  | .st | .stL => readM (unMe w) 1
  | .atomAdd | .atomAddL | .atomFadd | .atomFaddL | .atomMin | .atomMinL | .atomMax | .atomMaxL
  | .atomAnd | .atomAndL | .atomOr | .atomOrL | .atomXor | .atomXorL | .atomExch | .atomExchL => readM (unMe w) 3
  | .atomCas | .atomCasL => readM (unMe w) 2
  | .copInv | .copInvL | .copWb | .copWbL | .copWbi | .copWbiL | .brx | .callx => [.v (unA1 w).a]
  | .brxL | .callxL => [src (unModifier v).au (unA1 w).a]
  | .loop | .loopL => [src (unLo w).u (unLo w).t]
  | .cnvMask => [.c (unD1 w).d]
  | .sysc => (List.range 8).map fun i => .v (BitVec.ofNat 5 i)
  | .balw => [.v (unBw w v).a]
  | .mapset => [.c (unMs w).b]
  | .mapprt | .maptrn => [.c (unM3 w).b]
  | .hset => [.v (unVh w).v, .v ((unVh w).v + 1)]
  | .tcpy | .tmma | .tgat | .tcol => [.v (unV1 w).v]
  | .tld | .tst => [.v (unTl w v).v]
  | .accSetexp | .accSetexpL | .accWrrow | .accWrrowL => [.v (unVh w).v]
  | .idivI | .idivN | .iremI | .iremN | .rotl | .fexp => [extA (extEd (unEd w)), extB (extEd (unEd w))]
  | .idivIL | .idivNL | .iremIL | .iremNL | .rotlL | .fcmpOrdL | .fcmpUnordL | .fexpL
  | .xgetAtL | .xgetFlipL | .xgetStepL | .xgetRotL | .icinvL => [extA (unE64 w v), extB (unE64 w v)]
  | .brev | .fclass | .frnd | .alw | .tlbprobe => [extA (extEd (unEd w))]
  | .brevL | .fclassL | .frndL | .v2qL | .alwL | .mapputL | .lputL | .csrwL
  | .csrsL | .csrcL | .tlbinvPageL | .tlbprobeL | .cresizeL | .migDevL | .migHost | .pfL
  | .tspawnL | .tsigL | .evpostL | .dbgmbL | .wpsetL => [extA (unE64 w v)]
  | .fcmpOrd | .fcmpUnord | .xgetAt | .xgetFlip | .xgetStep | .xgetRot => [extA (extD1 (unD1 w)), extB (extD1 (unD1 w))]
  | .q2v | .q2vL => allPreds
  | .v2q | .mapput | .lput | .csrw | .csrs | .csrc | .tlbinvPage | .cresize
  | .migDev | .pf | .tsig | .evpost | .dbgmb | .wpset => [extA (extH0 (unH0 w))]
  | .qpop | .pmask => [.q (extEd (unEd w)).p]
  | .qpopL | .panyL | .pallL | .pmaskL | .cnvqL | .setgL => [.q (unE64 w v).p]
  | .pany | .pall => [.q (extD1 (unD1 w)).p]
  | .cnvq | .setg => [.q (extH0 (unH0 w)).p]
  | .icinv => [extA (extH0 (unH0 w)), extB (extH0 (unH0 w))]
  | .tspawn => [extA (extD1 (unD1 w))]

/-- The operands that the instruction at the low end of `x` reads, its guard last; a compact one has no guard (R181). -/
def bitReads (x : Nat) : List Rd :=
  match opBits x with
  | none => []
  | some (o, w, v) => opReads o w v ++ (if parcels x = 1 then [] else guardRd (unHdr w))

/-- The operands of the next instruction of a thread; for `lcfg`, those of the loop after it too (R230). -/
def State.nextReads (s : State) (core course slot : Nat) (pc : Word) : List Rd :=
  let x := s.peek core course slot pc
  match opBits x with
  | some (.lcfg, _, _) => bitReads x ++ bitReads (s.peek core course slot (pc + 4))
  | _ => bitReads x

/-- Whether an instruction is an exchange operation, which waits for the pending results of its group (R25, R218). -/
def opExch : Op → Bool
  | .qpop | .qpopL | .pfirst | .pfirstL | .pany | .panyL | .pall | .pallL
  | .pmask | .pmaskL | .xgetAt | .xgetAtL | .xgetFlip | .xgetFlipL | .xgetStep | .xgetStepL
  | .xgetRot | .xgetRotL => true
  | _ => false

/-- Whether an instruction is uniform (R27). -/
def opUni (o : Op) (w v : Nat) : Bool :=
  match o with
  | .iaddL | .isubL | .imulL | .imulhIL | .imulhNL | .imacL | .iminIL | .iminNL
  | .imaxIL | .imaxNL | .iabsdL | .andL | .orL | .xorL | .andnL | .movL
  | .shlL | .shrNL | .shrIL | .clzL | .popcL | .bfxNL | .bfxIL | .bfiL
  | .permL | .laddL | .lsubL | .lmulL | .lmacL | .lshlL | .lshrNL | .lshrIL
  | .lextIL | .lextNL | .lea2L | .lea3L | .lea4L | .faddL | .fsubL | .fmulL
  | .ffmaL | .fminL | .fmaxL | .fsfuL | .hadd2F16L | .hmul2F16L | .hfma2F16L | .hfma2Bf16L
  | .hadd2Bf16L | .cvtL | .cvtpL => (unModifier v).du
  | .idivI | .idivN | .iremI | .iremN | .rotl | .brev | .fclass | .frnd
  | .fexp | .alw | .mapget | .lget | .csrr | .tlbprobe | .evget => (unEd w).u
  | .nopL | .idivIL | .idivNL | .iremIL | .iremNL | .rotlL | .brevL | .fcmpOrdL
  | .fcmpUnordL | .fclassL | .frndL | .fexpL | .q2vL | .v2qL | .cnvqL | .waitnL
  | .setgL | .clrgL | .alwL | .mapgetL | .mapputL | .hgetL | .lgetL | .lputL
  | .csrrL | .csrwL | .csrsL | .csrcL | .tretL | .haltL | .icinvL | .tlbinvPageL
  | .tlbinvCtx | .tlbinvAll | .tlbprobeL | .cresizeL | .migDevL | .migHost | .pfL | .tspawnL
  | .tsigL | .evpostL | .evgetL | .dbgmbL | .dbgrdL | .wpsetL => (unE64 w v).u
  | _ => false

/-- Whether the instruction at the low end of `x` waits for the pending results of its group's threads (R25). -/
def bitWaits (x : Nat) : Bool :=
  match opBits x with
  | none => false
  | some (o, w, v) => opExch o || (opUni o w v && (bitReads x).any fun r => match r with | .c _ => false | _ => true)

end Sys2Proof.Machine
end

