-- ==== Sys2Proof/Machine/Select.lean ====
section
/-! DEFINITION. The selection of an issue group by a lane, halting and stepping (R22 to R25, R28, R37, R38, R56, R378,
R411, R431, R433). -/

namespace Sys2Proof.Machine

/-! ## Halting and stepping (R56, R433) -/

/-- The slots that a `dbgctl` value affects in the course of a target. -/
def dbgSlots (v : Word) (first : Nat) : List Nat := (maskSlots (dbgMask v) 32).map (· + first)

/-- A write of `dbgctl` takes effect on its target course: the live threads in mask become halted or cease to be, and a
step is set or not. -/
def Course.applyDbg (c : Course) (v : Word) (first : Nat) : Course :=
  let halt := v.getLsbD 1
  let set := fun (c : Course) (i : Nat) => c.modThread i fun t => if t.live then { t with halted := halt } else t
  { ((dbgSlots v first).foldl set c) with stepping := if halt && v.getLsbD 2 && v.getLsbD 0 then .armed else .off }

/-- The first slot of the half that a target names in a course. -/
def targetFirst (course n : Nat) : Nat := if n = course then 0 else 32

/-- A course meets the oldest write of `dbgctl` that waits for it. (log 30: DEDUCED, unsafe.) -/
def State.meetDbg (s : State) (core course : Nat) : State :=
  s.modCourse core course fun c =>
    match c.trap, c.dbg with
    | .none, v :: r => { (c.applyDbg v (targetFirst course (dbgTarget v))) with dbg := r }
    | _, _ => c

/-- The course meets them all, at its selection (R431). -/
def State.meetAllDbg (s : State) (core course : Nat) : State :=
  s.modCourse core course fun c =>
    match c.trap with
    | .none => { (c.dbg.foldl (fun (c : Course) v => c.applyDbg v (targetFirst course (dbgTarget v))) c) with dbg := [] }
    | _ => c

/-- Whether the lane of a course is free now. -/
def State.laneIdle (s : State) (core lane : Nat) : Bool := decide ((s.core core).laneFree.get lane 0 ≤ s.now)

/-- The oldest waiting write of `dbgctl` takes effect between issue groups if it is of a kind: halt, release or step. -/
def State.dbgEvent (s : State) (core course : Nat) (p : Word → Bool) : State :=
  match (s.course? core course).bind fun c => c.dbg.head? with
  | some v => if s.issue.isNone && s.laneIdle core (laneOf core course) && p v then s.meetDbg core course else s
  | none => s

/-- DBGCTL_HALT (R56). -/
def State.dbgHalt (s : State) (core course : Nat) : State := s.dbgEvent core course fun v => v.getLsbD 1 && !(v.getLsbD 2 && v.getLsbD 0)
/-- DBGCTL_UNHALT (R56). -/
def State.dbgUnhalt (s : State) (core course : Nat) : State := s.dbgEvent core course fun v => !v.getLsbD 1
/-- DBGCTL_STEP (R56). -/
def State.dbgStep (s : State) (core course : Nat) : State := s.dbgEvent core course fun v => v.getLsbD 1 && v.getLsbD 2 && v.getLsbD 0

/-! ## Readiness (R21) -/

/-- The registers that a thread's next instruction reads by their physical numbers: those of a `tst` (R274). -/
def State.ownReads (s : State) (core course slot : Nat) (c : Course) : List RegRef :=
  match opBits (s.peek core course slot (c.thread slot).pc), s.task? core c.task with
  | some (.tst, w, v), some tk =>
    let x := unTl w v
    (tileRegs (tk.layout x.m.toNat) (tk.layout x.rl.toNat) (tk.handle x.rh.toNat) [slot]).map Prod.snd
  | _, _ => []

/-- Whether a thread's next instruction reads a register that awaits a result. -/
def State.scoreboarded (s : State) (core course slot : Nat) (c : Course) : Bool :=
  let t := c.thread slot
  if t.sb.isEmpty && c.csb.isEmpty then false
  else ((s.ownReads core course slot c).any fun r => t.sb.any fun e => decide (e.1 = r)) || (s.nextReads core course slot t.pc).any fun r =>
    t.sb.any (fun e => decide (e.1 = t.ref r)) || c.csb.any fun e => decide (e.1 = t.ref r)

/-- Whether a thread is ready, its halting apart. -/
def State.couldIssue (s : State) (core course slot : Nat) (c : Course) : Bool :=
  let t := c.thread slot
  t.live && decide (t.wait = .ready) && t.acqAfter.isEmpty && !s.scoreboarded core course slot c

/-- The slots of a stepped half: those that `dbgctl` of the core names in its target course. -/
def Core.stepSlots (k : Core) (course : Nat) : List Nat :=
  match k.target (dbgTarget k.dbgctl) with
  | some p => if p.1 = course then dbgSlots k.dbgctl p.2 else []
  | none => []

/-- The ready threads of a selection unit: where a step is set, the halted threads in mask, taken as ready. -/
def State.readySlots (s : State) (core course : Nat) (c : Course) (u : Nat × Nat) : List Nat :=
  let can := (unitSlots u).filter fun i => s.couldIssue core course i c
  let mine := match c.trap with
    | .handler h => can.filter (· = h)
    | _ => can
  let stepped := if c.stepping = .armed then mine.filter fun i => (c.thread i).halted && ((s.core core).stepSlots course).contains i else []
  if stepped.isEmpty then mine.filter fun i => !(c.thread i).halted else stepped

/-! ## The group (R22) -/

/-- A selection unit that may be chosen: its ready threads, none where only a deferred fault waits for its selection. -/
structure Cand where
  course : Nat
  unit : Nat × Nat
  slots : List Nat
  last : Option Nat
  deriving Repr

/-- The threads that form the group: those at the lowest program counter, or at that of the oldest thread past 1,024. -/
def groupOf (c : Course) (ready : List Nat) : List Nat :=
  let old := ready.filter fun i => decide (1024 ≤ (c.thread i).age)
  let pc := match old with
    | [] => ready.foldl (fun m i => min m (c.thread i).pc.toNat) (2 ^ 64)
    | i :: r => (c.thread (r.foldl (fun m j => if (c.thread m).age < (c.thread j).age then j else m) i)).pc.toNat
  ready.filter fun i => decide ((c.thread i).pc.toNat = pc)

/-- Whether a group waits for the pending results of its threads (R25). (log 12: DEDUCED, unsafe.) -/
def State.groupWaits (s : State) (core course : Nat) (c : Course) (group : List Nat) : Bool :=
  let i := group.headD 0
  (group.any fun j => (c.thread j).pend.any fun p => decide (s.now < p.ready)) && bitWaits (s.peek core course i (c.thread i).pc)

/-- Whether a course may be selected at all. -/
def State.selectable (s : State) (c : Course) : Bool :=
  (match c.trap with | .none => true | .handler _ => true | _ => false) &&
    (match c.park with | none => true | some _ => c.parkUnder || (c.wakeAt.map fun t => decide (t ≤ s.now)).getD false) &&
    c.susp.isNone && c.again.isNone && !c.stopped &&
    (match c.yieldUntil with | some t => decide (t ≤ s.now) | none => true)

/-- Whether a course has a fault to deliver at this selection of its lane: a command's makes it a candidate at the first free
cycle, whatever it waits for (R401). -/
def State.mustDeliver (s : State) (c : Course) : Bool :=
  decide (c.trap = .none) && !c.stopped && c.deferred.any Cause.ofCommand

/-- A selection unit as a candidate. (log 11: DEDUCED, unsafe.) -/
def State.candidate (s : State) (core course : Nat) (c : Course) (w : Nat) (u : Nat × Nat) : Option Cand :=
  let half := decide (w = 1 ∧ u.1 = 16)
  let stall := if w = 1 then (if half then c.stallUntilHi else c.stallUntil) else max c.stallUntil c.stallUntilHi
  let last := if half then c.lastIssueHi else c.lastIssue
  if s.mustDeliver c then some { course := course, unit := u, slots := [], last := last }
  else if !s.selectable c || decide (s.now < stall) then none
  else if c.trap = .none ∧ c.deferred ≠ [] then some { course := course, unit := u, slots := [], last := last }
  else
    let c := if c.park.isSome && !c.parkUnder then c.wake else c
    let ready := s.readySlots core course c u
    if ready.isEmpty || s.groupWaits core course c (groupOf c ready) then none
    else some { course := course, unit := u, slots := ready, last := last }

/-- The selection units of a lane. -/
def State.units (s : State) (core lane : Nat) : List (Nat × Course × Nat × (Nat × Nat)) :=
  ((s.core core).courses.filter fun c => decide (laneOf core c.1 = lane)).flatMap fun c =>
    let w := ((s.task? core c.2.task).map Task.width).getD 0
    (if w = 1 then [(0, 16), (16, 16)] else [(0, c.2.threads.length)]).map fun u => (c.1, c.2, w, u)

/-- Whether a candidate comes before another: the earlier last issue, then the lower course and half. -/
def Cand.before (a b : Cand) : Bool :=
  let x := (a.last.map (· + 1)).getD 0
  let y := (b.last.map (· + 1)).getD 0
  decide (x < y ∨ (x = y ∧ (a.course < b.course ∨ (a.course = b.course ∧ a.unit.1 ≤ b.unit.1))))

/-- The candidate a lane chooses. -/
def State.choose (s : State) (core lane : Nat) : Option Cand :=
  (sortBy Cand.before ((s.units core lane).filterMap fun x => s.candidate core x.1 x.2.1 x.2.2.1 x.2.2.2)).head?

/-- A course with an unreadable field at zero, as its frame shows it (R411); handles and layouts have no place in a frame. -/
def Course.unread (c : Course) (f : TaskField) : Course :=
  match f with
  | .reg i r => c.modThread i fun t => t.write (.v (BitVec.ofNat 5 r)) 0
  | .uni r => { c with c := if h : r < 32 then c.c.set r 0 else c.c }
  | .pred i => c.modThread i fun t => { t with q := 0 }
  | .loop i l => c.modThread i fun t =>
    if h : l < 4 then { t with lv := t.lv.set l {} } else { t with ring := 0, base := 0, stages := 0, lopen := 0, depth := 0 }
  | .guard n => { c with g := if h : n < 16 then c.g.set n .unresolved else c.g }
  | .handle _ => c
  | .layout _ => c

/-- The slot of the thread whose field it is, the lowest for a field of the course or task. -/
def fieldSlot : TaskField → Nat
  | .reg i _ => i
  | .pred i => i
  | .loop i _ => i
  | _ => 0

/-- An error in a field of a task's own storage, which the selection of a course reads (R409, R411): it is corrected, or ends the
task as route 0 does, with the field unreadable and 0 in its frame. (log 147: DESIGN CHOICE, safe.) -/
def State.storageError (s : State) (core course : Nat) (f : TaskField) (fixed : Bool) : State :=
  match s.course? core course with
  | none => s
  | some c =>
    match s.task? core c.task with
    | none => s
    | some tk =>
      let s := s.errorIn (coreDie core) 0 (if fixed then 0 else 1) (some (core, tk))
      if fixed then s
      else
        let i := fieldSlot f
        let c := (c.settleAll s.now).unread f
        let x : Cause := { code := 0x70, ipc := (c.thread i).pc, tmask := 2 ^ i }
        let s := s.physStore (frameSlot core course) (trapFrame s core course c tk x 0)
        (s.endTask core c.task 2).postEvent (s.trapCluster core)
          (s.event tk.ref.graph tk.ref.node 0 0x06 (coreDie core) (coreIn core) tk.ref.index (trapDetail x core course false))

/-- A parity error in an entry that a core reads (R409): the line or entry is gone, to be fetched again, and it counts as
corrected. After the lines of the instruction cache comes the loop buffer of the chosen course. (log 147: DESIGN CHOICE, safe.) -/
def State.parityError (s : State) (core course unit n : Nat) : State :=
  let k := s.core core
  let who := ((s.course? core course).bind fun c => s.task? core c.task).map fun t => (core, t)
  let gone := fun s : State => s.errorIn (coreDie core) unit 0 who
  if unit = 4 ∧ n < k.lcache.length then gone (s.modCore core fun k => { k with lcache := k.lcache.eraseIdx n })
  else if unit = 5 ∧ n < k.icache.length then gone (s.modCore core fun k => { k with icache := k.icache.eraseIdx n })
  else if unit = 5 then
    match (s.course? core course).bind Course.loopBuf with
    | some b => gone (s.modCourse core course fun c => { c with loopBuf := none, recapture := some (b.lo, b.hi) })
    | none => s
  else if unit = 6 ∧ n < k.tlb.length then gone (s.modCore core fun k => { k with tlb := k.tlb.eraseIdx n })
  else if unit = 6 ∧ n - k.tlb.length < (s.die (coreDie core)).tlb.length then
    gone (s.modDie (coreDie core) fun d => { d with tlb := d.tlb.eraseIdx (n - k.tlb.length) })
  else s

/-- A new error in the word of a line of code that the chosen course's fetch reads at its home (R409). -/
def State.fetchError (s : State) (g : Issue) (err : SoftErr) : State :=
  let met := fun pa : Nat => (localHome s.scratchWays false (pa / 8 * 8)).bind fun w =>
    match ((s.markBad w (s.heldUnit w)).fetch g).1 with
    | .trap c => if c.code = 0x70 then some w else none
    | _ => none
  match err with
  | .word pa fixed => ((met pa).map fun w => s.wordError w fixed (s.groupTask g)).getD s
  | .tag pa fixed => ((met pa).map fun w => s.tagError w fixed (s.groupTask g)).getD s
  | _ => s

/-- The chosen threads of a course as an issue group at the cycle of the selection. -/
def State.groupFor (s : State) (core : Nat) (p : Cand) (c : Course) : Issue :=
  let group := groupOf c p.slots
  { core := core, course := p.course, slots := group, pc := (c.thread (group.headD 0)).pc, t := s.now }

/-- The fetch of a group that forms: where the instruction cannot be had yet, the state in which its course waits for it
(R21, R29). -/
def State.fetchWaits (s : State) (g : Issue) : Option State :=
  if ({ s with issue := some g } : State).entryGroup.isSome then none
  else match s.fetch g with
    | (.wait, s') => some s'
    | _ => none

/-- The chosen threads enter the lane as the issue group; the ages of the ready threads are kept (R22). A group whose
instruction cannot be had yet does not form: its course waits with fetch suspended. (log 144: DEDUCED, unsafe.) -/
def State.form (s : State) (core lane : Nat) (p : Cand) : State :=
  match s.course? core p.course, (s.course? core p.course).bind fun c => s.task? core c.task with
  | some c, some _ =>
    let group := groupOf c p.slots
    let i := group.headD 0
    let g := s.groupFor core p c
    match s.fetchWaits g with
    | some s' => { s' with issue := none }
    | none =>
      let age := fun (c : Course) (i : Nat) =>
        c.modThread i fun t => { t with age := if group.contains i then 0 else min (t.age + 1) 65535 }
      let c := p.slots.foldl age c
      let c := if decide (p.unit.1 = 16) then { c with lastIssueHi := some s.now } else { c with lastIssue := some s.now }
      let c := if c.stepping = .armed ∧ (c.thread i).halted = true then { c with stepping := .out } else c
      let others := fun (q : Nat × Course) =>
        if laneOf core q.1 = lane ∧ q.1 ≠ p.course then (q.1, { q.2 with yieldUntil := none }) else q
      let s := (s.setCourse core p.course c).modCore core fun k => { k with courses := k.courses.map others }
      { s with issue := some g }
  | _, _ => { s with issue := none }

/-- The error that the issue of the chosen threads meets and that does not end their task (R409). -/
def State.issueError (s : State) (core : Nat) (p : Cand) (err : SoftErr) : State :=
  match err with
  | .field f true => s.storageError core p.course f true
  | .parity unit n => s.parityError core p.course unit n
  | .none | .field _ false => s
  | e => match s.course? core p.course with
    | some c => s.fetchError (s.groupFor core p c) e
    | none => s

/-- A group of a lane that was fetch-suspended and whose check has passed. -/
def State.toReissue (s : State) (core lane : Nat) : Option Issue :=
  (s.units core lane).findSome? fun x =>
    if x.2.1.susp.isNone && (match x.2.1.trap with | .none => true | .handler _ => true | _ => false) then x.2.1.again else none

/-- That group goes on with its instruction, in the cycles it has had (R23). -/
def State.reissue (s : State) (g : Issue) : State :=
  match s.grp? g with
  | some G => { s.setCourse g.core g.course { G.cs with again := none } with issue := some g }
  | none => { s with issue := none }

/-- ISSUE_GROUP_SELECTION (R22): a group of the lane whose check has passed goes on; else a free lane makes its selection. A course with a deferred fault takes its trap there
(R378); `err` is the error that is met in the storage of the chosen course or in what its issue reads (R409, R411). -/
def State.select (s : State) (core lane : Nat) (err : SoftErr) : State :=
  if s.issue.isSome || decide (s.phase ≠ .running) then s
  else if let some g := s.toReissue core lane then s.reissue g
  else if !s.laneIdle core lane then s
  else
    let s := { ((s.units core lane).map fun x => x.1).foldl (fun s n => s.meetAllDbg core n) s with issue := none }
    match s.choose core lane with
    | none => s
    | some p =>
      if let .field f false := err then { s.storageError core p.course f false with issue := none }
      else if p.slots.isEmpty then { s.deliverDeferred core p.course with issue := none }
      else
        let s := s.modCourse core p.course fun c => if c.park.isSome && !c.parkUnder then c.wake else c
        (s.issueError core p err).form core lane p

/-- After the stepped group has taken its instruction, trap 0x51 is raised and hardware clears step (R56, R433). -/
def State.afterIssue (s : State) (g : Issue) : State :=
  match s.course? g.core g.course with
  | none => s
  | some c =>
    if c.stepping ≠ .out ∨ c.again.isSome = true then s
    else
      match c.trap with
      | .none =>
        let c := g.slots.foldl (fun (c : Course) i => c.modThread i fun t => if t.live then { t with halted := true } else t) c
        let s := (s.setCourse g.core g.course { c with stepping := .off }).modCore g.core fun k => { k with dbgctl := k.dbgctl &&& ~~~4#64 }
        s.stopCourse g.core g.course { code := 0x51, ipc := g.pc, tmask := slotMask g.slots, ord := s.nextOrd }
      | _ => s.modCourse g.core g.course fun c => { c with stepping := .armed }

end Sys2Proof.Machine
end

