-- ==== Sys2Proof/Machine/Special.lean ====
section
/-! DEFINITION. Control and status registers, loop-control state, supervisor and debug functions (R15, R46, R51 to R58,
R146, R221, R234, R241 to R243, R432). -/

namespace Sys2Proof.Machine

/-! ## Loop-control state (R46, R234) -/

/-- The loop-control state at a selector. -/
def Thread.loopGet (t : Thread) (sel : Nat) : Word :=
  let l := t.lv.toList.getD (sel / 4) {}
  if sel < 16 then
    (if sel % 4 = 0 then l.cnt.setWidth 64 else if sel % 4 = 1 then l.idx.setWidth 64 else if sel % 4 = 2 then l.str else l.lend)
  else if sel = 16 then BitVec.ofNat 64 (16 * t.ring + t.base)
  else if sel = 17 then BitVec.ofNat 64 t.stages
  else BitVec.ofNat 64 (lopenMask t.lopen)

/-- The loop-control state written at a selector. -/
def Thread.loopPut (t : Thread) (sel : Nat) (a : Word) : Thread :=
  let j := sel / 4
  let l := t.lv.toList.getD j {}
  if sel < 16 then
    t.setLevel j (if sel % 4 = 0 then { l with cnt := a.setWidth 32 } else if sel % 4 = 1 then { l with idx := a.setWidth 32 }
      else if sel % 4 = 2 then { l with str := a } else { l with lend := a })
  else if sel = 16 then { t with ring := a.toNat / 16 % 32, base := a.toNat % 16 }
  else if sel = 17 then { t with stages := a.toNat % 8 }
  else { t with lopen := lopenCount (a.toNat % 16) }

/-- The trap of a value that may not be written at a selector: its code and sub-cause (R234). Bits above the selector's width
are dropped. (log 158: DESIGN CHOICE, unsafe.) -/
def loopPutFault (sel : Nat) (a : Word) : Option (Nat × Nat) :=
  let ring := a.toNat / 16 % 32
  let base := a.toNat % 16
  let stages := a.toNat % 8
  if sel = 16 then
    (if (ring = 0 ∧ base = 0) ∨ (2 ≤ ring ∧ ring ≤ 16 ∧ base < ring) then none else some (0x01, 0))
  else if sel = 17 then (if 1 ≤ stages ∧ stages ≤ 4 then none else some (0x01, 0))
  else if sel = 18 then (if [0, 1, 3, 7, 15].contains (a.toNat % 16) then none else some (0x04, 9))
  else none

/-- `lget` (R234). -/
def opLget (len : Nat) (x : E64) (s : State) : Outcome :=
  let l := laneE len x []
  s.lane l noCheck fun G i c => G.deliver l 4 (extD x) i ((G.cs.thread i).loopGet (x.i.toNat % 32)) c

/-- `lput` (R234): the new state holds from the next issue on. -/
def opLput (len : Nat) (x : E64) (s : State) : Outcome :=
  let l := laneE len x [extA x]
  let sel := x.i.toNat % 32
  s.lane l (fun G => (G.active l).findSome? fun i =>
      (loopPutFault sel (G.read l i (extA x))).map fun f => { code := f.1, sub := f.2, ipc := G.g.pc, tmask := 2 ^ i })
    fun G i c => c.modThread i fun t => t.loopPut sel (G.read l i (extA x))

/-- `lget`, 32-bit form: selector 0 (R234, R185). -/
def execLget (x : Ed) (s : State) : Outcome := opLget 4 (extEd x) s
/-- `lget` (R234). -/
def execLgetL (x : E64) (s : State) : Outcome := opLget 8 x s
/-- `lput`, 32-bit form: v0 to selector 0 (R234, R185). -/
def execLput (x : H0) (s : State) : Outcome := opLput 4 (extH0 x) s
/-- `lput` (R234). -/
def execLputL (x : E64) (s : State) : Outcome := opLput 8 x s

/-! ## Control and status registers (R51 to R58, R242) -/

/-- The fields of a register as masks: what is written, what a 1 clears, what is read only. Every other bit is RZ. -/
structure CsrFields where
  rw : Word
  w1c : Word
  ro : Word

/-- The registers that software writes (R51, R53 to R57, R15). -/
def csrFields (n : Nat) : Option CsrFields :=
  if n = 0x020 then some ⟨tstatBits, 0, 0⟩
  else if n = 0x021 then some ⟨0xFFFFFFFF, 0x300000000, 0⟩
  else if n = 0x022 then some ⟨0, 0xC00, 0x1FF⟩
  else if n = 0x030 ∨ n = 0x031 then some ⟨1, 0, 0⟩
  else if n = 0x038 then some ⟨rsbaseBits, 0, 0⟩
  else if n = 0x040 then some ⟨0x0000FFFFFFFF7F07, 0, 0⟩
  else if 0x048 ≤ n ∧ n ≤ 0x04B then some ⟨0xE000001F001FFFFF, 0, 0⟩
  else if n = 0x0F0 then some ⟨0x1F, 0, 0⟩
  else if n = 0x0F1 then some ⟨0xFFFFFFFFFFFFFFFE, 0, 0⟩
  else none

/-- The register numbers that are assigned (R51). -/
def csrAssigned (n : Nat) : Bool :=
  decide (n ≤ 0x006) || (decide (0x008 ≤ n) && decide (n ≤ 0x00C)) || decide (n = 0x010) ||
    (decide (0x020 ≤ n) && decide (n ≤ 0x023)) || (csrFields n).isSome

/-- The registers marked S (R51). -/
def csrSup (n : Nat) : Bool := decide (n = 0x040 ∨ (0x048 ≤ n ∧ n ≤ 0x04B) ∨ n = 0x0F0 ∨ n = 0x0F1)

/-- The quad of a core as `quad` reads it (R11). -/
def quadOf (core : Nat) : Nat := if isCtl core then 0xFFFF else coreIn core / 4

/-- What a register reads in a thread at a cycle (R51, R52). -/
def State.csrRead (s : State) (core course slot cyc : Nat) (c : Course) (tk : Task) (n : Nat) : Word :=
  let t := c.thread slot
  let nat := fun x : Nat => BitVec.ofNat 64 x
  if n = 0x000 then nat t.tid
  else if n = 0x001 then nat (laneOf core course)
  else if n = 0x002 then nat (if tk.width = 2 ∧ 32 ≤ slot then course + 64 else course)
  else if n = 0x003 then nat (2 ^ 32 * (tk.ref.graph % 2 ^ 32) + 2 ^ 16 * (tk.ref.node % 2 ^ 16) + tk.num % 16)
  else if n = 0x004 then nat tk.x
  else if n = 0x005 then nat tk.y
  else if n = 0x006 then nat tk.z
  else if n = 0x008 then nat (coreIn core)
  else if n = 0x009 then nat (quadOf core)
  else if n = 0x00A then nat (coreCluster core % 4)
  else if n = 0x00B then nat (coreDie core)
  else if n = 0x00C then nat s.rank
  else if n = 0x010 then nat cyc
  else if n = 0x020 then c.tstat
  else if n = 0x021 then tk.astat
  else if n = 0x022 then c.fstat
  else if n = 0x023 then t.seqtag.setWidth 64
  else if n = 0x030 then boolWord tk.uchk
  else if n = 0x031 then boolWord tk.sbchk
  else if n = 0x038 then tk.rsbase
  else if n = 0x040 then (s.core core).dbgctl
  else if 0x048 ≤ n ∧ n ≤ 0x04B then (s.core core).wp.toList.getD (n - 0x048) 0
  else if n = 0x0F0 then (s.die (coreDie core)).duty
  else if n = 0x0F1 then (s.core core).trapvec
  else 0

/-- A register takes a value. -/
def State.csrStore (s : State) (core course : Nat) (n : Nat) (v : Word) : State :=
  let task := fun f : Task → Task =>
    match s.course? core course with
    | some c => s.modTask core c.task f
    | none => s
  if n = 0x020 then s.modCourse core course fun c => { c with tstat := v }
  else if n = 0x021 then task fun t => { t with astat := v }
  else if n = 0x022 then s.modCourse core course fun c => { c with fstat := if v.getLsbD 11 then v else v &&& ~~~0x1FF#64 }
  else if n = 0x030 then task fun t => { t with uchk := v.getLsbD 0 }
  else if n = 0x031 then task fun t => { t with sbchk := v.getLsbD 0 }
  else if n = 0x038 then task fun t => { t with rsbase := v }
  else if n = 0x040 then s.writeDbgctl core v
  else if n = 0x0F0 then s.modDie (coreDie core) fun d => { d with duty := v }
  else if n = 0x0F1 then s.modCore core fun k => { k with trapvec := v }
  else s.writeWp core (n - 0x048) v

/-- The ways of writing a register. -/
inductive CsrHow where
  | write
  | set
  | clear
  deriving DecidableEq, Repr

/-- The value a register takes, field by field (R5, R58). (log 31: DEDUCED, unsafe.) -/
def csrNew (f : CsrFields) (how : CsrHow) (old a : Word) : Word :=
  match how with
  | .clear => old &&& ~~~(a &&& f.rw)
  | .set => (old ||| (a &&& f.rw)) &&& ~~~(a &&& f.w1c)
  | .write => ((old &&& ~~~f.rw) ||| (a &&& f.rw)) &&& ~~~(a &&& f.w1c)

/-- Whether a write sets an RZ bit (R6). -/
def csrRz (f : CsrFields) (how : CsrHow) (a : Word) : Bool :=
  how != .clear && (a &&& ~~~(f.rw ||| f.w1c ||| f.ro)) != 0

/-- `csrr` (R242): an unassigned number is trap 0x01 (R51). -/
def opCsrr (len : Nat) (x : E64) (s : State) : Outcome :=
  let n := x.i.toNat
  let l := laneE len x [] false (csrSup n)
  s.lane l (fun G => if csrAssigned n then none else
      (G.active l).head?.map fun i => { code := 0x01, ipc := G.g.pc, tmask := 2 ^ i })
    fun G i c => G.deliver l 4 (extD x) i (s.csrRead G.g.core G.g.course i (G.cyc l i) G.cs G.tk n) c

/-- The writes of a group, in ascending slot order (R58), and the end of the instruction. -/
def State.finishWrites (s : State) (G : Grp) (l : LaneI) (f : State → Nat → State) : State :=
  let s := (G.active l).foldl f s
  s.finish G l ((s.course? G.g.core G.g.course).getD G.cs)

/-- `csrw`, `csrs`, `csrc` (R242): a write that sets an RZ bit is trap 0x01 and leaves the register (R6); a read-only
register is left (R51). -/
def opCsr (len : Nat) (n : Nat) (how : CsrHow) (x : E64) (s : State) : Outcome :=
  let l := laneE len x [extA x] false (csrSup n)
  s.withGroup fun G =>
    let bad := (G.active l).findSome? fun i =>
      let fault := some ({ code := 0x01, ipc := G.g.pc, tmask := 2 ^ i } : Cause)
      if !csrAssigned n then fault
      else match csrFields n with
        | some f => if csrRz f how (G.read l i (extA x)) then fault else none
        | none => none
    match (G.check l).or bad with
    | some c => s.trapNow G c
    | none =>
      match csrFields n with
      | none => s.finish G l G.cs
      | some f => s.finishWrites G l fun s i =>
          match s.course? G.g.core G.g.course, s.task? G.g.core G.cs.task with
          | some c, some tk =>
            let old := s.csrRead G.g.core G.g.course i (G.cyc l i) c tk n
            s.csrStore G.g.core G.g.course n (csrNew f how old (G.read l i (extA x)))
          | _, _ => s

/-- `csrr`, 32-bit form: register 0 (R242, R185). -/
def execCsrr (x : Ed) (s : State) : Outcome := opCsrr 4 (extEd x) s
/-- `csrr` (R242). -/
def execCsrrL (x : E64) (s : State) : Outcome := opCsrr 8 x s
/-- `csrw`, 32-bit form: v0 to register 0 (R242, R185). -/
def execCsrw (x : H0) (s : State) : Outcome := opCsr 4 0 .write (extH0 x) s
/-- `csrw` (R242). -/
def execCsrwL (x : E64) (s : State) : Outcome := opCsr 8 x.i.toNat .write x s
/-- `csrs`, 32-bit form (R242, R185). -/
def execCsrs (x : H0) (s : State) : Outcome := opCsr 4 0 .set (extH0 x) s
/-- `csrs` (R242). -/
def execCsrsL (x : E64) (s : State) : Outcome := opCsr 8 x.i.toNat .set x s
/-- `csrc`, 32-bit form (R242, R185). -/
def execCsrc (x : H0) (s : State) : Outcome := opCsr 4 0 .clear (extH0 x) s
/-- `csrc` (R242). -/
def execCsrcL (x : E64) (s : State) : Outcome := opCsr 8 x.i.toNat .clear x s
/-- `wpset`, 32-bit form: v0 to `wp0` (R243, R185). -/
def execWpset (x : H0) (s : State) : Outcome := opCsr 4 0x048 .write (extH0 x) s
/-- `wpset` (R243): as `csrw` to `wpn`. -/
def execWpsetL (x : E64) (s : State) : Outcome := opCsr 8 (0x048 + x.i.toNat % 4) .write x s

/-- `alw` (R221): the allowance of a destination; 255 for the own rank, 0 for one that is not routed (R331). -/
def State.allowance (s : State) (d dest : Nat) : Nat :=
  if dest = s.rank then 255 else if s.routed dest then (s.allowOf d dest).value else 0

/-- `alw` (R221). -/
def opAlw (len : Nat) (x : E64) (s : State) : Outcome :=
  let l := laneE len x [extA x]
  s.lane l noCheck fun G i c =>
    G.writeNow (extD x) i (BitVec.ofNat 64 (s.allowance (coreDie G.g.core) ((G.read l i (extA x)).toNat % 512))) c

/-- `alw`, 32-bit form (R221, R185). -/
def execAlw (x : Ed) (s : State) : Outcome := opAlw 4 (extEd x) s
/-- `alw` (R221). -/
def execAlwL (x : E64) (s : State) : Outcome := opAlw 8 x s

/-! ## Supervisor functions (R241, R243, R391) -/

/-- A store or atomic of a course to local memory that is not yet performed. -/
def State.writesPending (s : State) (core course : Nat) : Bool :=
  s.inflight.any fun a => decide (a.core = core ∧ a.course = course) && a.kind.writes && !a.loc.isRemote

/-- `tret` (R241, R391): it ends a course handler. The handler's own stores are performed before the frame is read. (log 25: DEDUCED, unsafe.)
(log 24: DESIGN CHOICE, safe.) -/
def opTret (len : Nat) (h : Hdr) (s : State) : Outcome :=
  let l : LaneI := { len := len, h := h, priv := true }
  s.withGroup fun G =>
    let act := G.active l
    let inHandler := match G.cs.trap with | .handler _ => true | _ => false
    let bad := if inHandler then none else act.head?.map fun i => ({ code := 0x01, ipc := G.g.pc, tmask := 2 ^ i } : Cause)
    match (G.check l).or bad with
    | some c => s.trapNow G c
    | none =>
      let core := G.g.core
      if act.isEmpty then s.finish G l G.cs
      else if s.writesPending core G.g.course then s.holdAt G
      else
        let action := s.physNat (frameSlot core G.g.course + 0x18) 8 % 4
        let s := s.leaveLane G.g 1 0 G.cs
        let s := if action = 3 then s.fresh.2 else s
        let ends := decide (action = 2) || (decide (action = 3) && decide (Config.freeNat (s.freeCtr - 1) % 2 = 1))
        if ends then
          (s.endTask core G.cs.task 2).postEvent (s.trapCluster core)
            (s.event G.tk.ref.graph G.tk.ref.node 0 0x06 (coreDie core) (coreIn core) G.tk.ref.index
              (trapDetail G.cs.cause core G.g.course false))
        else s.resume core G.g.course

/-- `tret`, 32-bit form (R241). -/
def execTret (x : H0) (s : State) : Outcome := opTret 4 x.h s
/-- `tret` (R241). -/
def execTretL (x : E64) (s : State) : Outcome := opTret 8 x.h s

/-- `halt` (R243). -/
def opHalt (len : Nat) (h : Hdr) (s : State) : Outcome :=
  let l : LaneI := { len := len, h := h, priv := true }
  s.lane l noCheck fun _ i c => c.modThread i fun t => { t with halted := true }

/-- `halt`, 32-bit form (R243). -/
def execHalt (x : H0) (s : State) : Outcome := opHalt 4 x.h s
/-- `halt` (R243). -/
def execHaltL (x : E64) (s : State) : Outcome := opHalt 8 x.h s

/-! ## Die scratch (R146) -/

/-- `cresize` (R146, R243). -/
def opCresize (len : Nat) (x : E64) (s : State) : Outcome :=
  let l := laneE len x [extA x] false true
  s.withGroup fun G =>
    let act := G.active l
    let bad := act.findSome? fun i =>
      if 15 < (G.read l i (extA x)).toNat then some ({ code := 0x01, ipc := G.g.pc, tmask := 2 ^ i } : Cause) else none
    match (G.check l).or bad with
    | some c => s.trapNow G c
    | none =>
      let d := coreDie G.g.core
      let stay := G.g.slots.filter fun i => !act.contains i
      let c := stay.foldl (fun c i => c.modThread i fun t => t.complete l.len) G.cs
      let c := act.foldl (fun c i => c.modThread i fun t => { t with wait := .cresize (G.read l i (extA x)).toNat l.len }) c
      (s.leaveLane G.g G.g.slots.length (stallCycles x.h + G.edgeCostOf l stay) c).startResize d

/-- `cresize`, 32-bit form: the count is in v0 (R243, R185). -/
def execCresize (x : H0) (s : State) : Outcome := opCresize 4 (extH0 x) s
/-- `cresize` (R243). -/
def execCresizeL (x : E64) (s : State) : Outcome := opCresize 8 x s

/-! ## Debug functions (R243, R432) -/

/-- `dbgmb` (R243, R432): the last word sends the message; the thread is held at issue while the ring has no credit. (log 33: DESIGN CHOICE, unsafe.) -/
def opDbgmb (len : Nat) (x : E64) (s : State) : Outcome :=
  let l := laneE len x [extA x] false true
  let n := x.i.toNat % 16
  s.withGroup fun G =>
    match G.check l with
    | some c => s.trapNow G c
    | none =>
      let ready := s.host.maySend 67 && s.host.waiting.all fun m => decide (m.ring ≠ 67)
      if n = 15 ∧ (G.active l).isEmpty = false ∧ ready = false then s.holdAt G
      else s.finishWrites G l fun s i =>
        let s := s.modCore G.g.core fun k =>
          { k with mbOut := if h : n < 16 then k.mbOut.set n (G.read l i (extA x)) else k.mbOut }
        if n = 15 then
          let bytes := (s.core G.g.core).mbOut.toList.flatMap fun (w : Word) => leBytes 8 w.toNat
          { s with host := { s.host with waiting := s.host.waiting ++ [{ ring := 67, type := 6, seq := 0, payload := bytes }] } }
        else s

/-- `dbgmb`, 32-bit form: v0 to word 0 (R243, R185). -/
def execDbgmb (x : H0) (s : State) : Outcome := opDbgmb 4 (extH0 x) s
/-- `dbgmb` (R243). -/
def execDbgmbL (x : E64) (s : State) : Outcome := opDbgmb 8 x s

/-- The target course of `dbgctl` and the target thread: the lowest slot set in mask (R243). -/
def Core.debugged (k : Core) : Option (Course × Option Thread) :=
  match k.target (dbgTarget k.dbgctl) with
  | none => none
  | some p =>
    (k.courses.find p.1).map fun c =>
      (c, ((maskSlots (dbgMask k.dbgctl) 32).head?).bind fun j => c.threads[p.2 + j]?)

/-- The item `dbgrd` reads (R243). -/
def Core.item (k : Core) (item i now : Nat) : Word :=
  let halted := (k.debugged.bind Prod.snd).filter fun t => t.halted
  let slots := fun p : Thread → Bool =>
    BitVec.ofNat 64 (match k.debugged with
      | some (c, _) => slotMask ((List.range c.threads.length).filter fun j => p (c.thread j))
      | none => 0)
  if item = 0 then k.mbIn.toList.getD (i % 16) 0
  else if item = 1 then (halted.map fun t => t.readV (BitVec.ofNat 5 i) now).getD 0
  else if item = 2 then (halted.map fun t => t.predWord now).getD 0
  else if item = 3 then (halted.map Thread.pc).getD 0
  else if item = 4 then slots fun t => t.live
  else if item = 5 then slots fun t => t.live && t.halted
  else (halted.map fun t => t.loopGet (i % 32)).getD 0

/-- `dbgrd` (R243): imm16[15:12] is the item, imm16[11:0] the index. -/
def opDbgrd (len : Nat) (x : E64) (s : State) : Outcome :=
  let l := laneE len x [] false true
  let k := x.i.toNat / 4096
  let i := x.i.toNat % 4096
  s.lane l (fun G => if 7 ≤ k ∨ (k = 6 ∧ 18 < i % 32) then
      (G.active l).head?.map fun j => { code := 0x01, ipc := G.g.pc, tmask := 2 ^ j } else none)
    fun G j c => G.deliver l 4 (.v x.d) j ((s.core G.g.core).item k i (G.cyc l j)) c

/-- `dbgrd`, 32-bit form: word 0 of the inbound mailbox (R243, R185). -/
def execDbgrd (x : D1) (s : State) : Outcome := opDbgrd 4 (extD1 x) s
/-- `dbgrd` (R243). -/
def execDbgrdL (x : E64) (s : State) : Outcome := opDbgrd 8 x s

end Sys2Proof.Machine
end

