-- ==== Sys2Proof/Machine/Events.lean ====
section
/-! DEFINITION. The meanings of the module's events, one for each event row of the table. An event whose condition does
not hold has no effect. -/

namespace Sys2Proof.Machine

/-- An event beside a selection neither puts a group into a lane nor takes one out of it (R22). -/
def State.beside (s : State) (f : State → State) : Outcome := .next { f s with issue := s.issue }

/-- An event of a module that runs (R427, R428); a module that is booting, in recovery or off has none of them. -/
def State.whileRunning (s : State) (f : State → State) : Outcome := s.beside fun s => if s.phase == Phase.running then f s else s

/-- An event of the host port, the links, the memory or the management controller, which a module in recovery has too: it only
runs no task code (R428). -/
def State.whileHosted (s : State) (f : State → State) : Outcome :=
  s.beside fun s => if s.phase == Phase.running || s.phase == Phase.recovery then f s else s

/-- ISSUE_GROUP_SELECTION (R22). -/
def execIssueGroupSelection (core lane : Nat) (err : SoftErr) (s : State) : Outcome := .next (s.select core lane err)

/-- FIXED_LATENCY_RESULT (R25). -/
def execFixedLatencyResult (core course : Nat) (s : State) : Outcome := s.whileRunning fun s => s.latencyResult core course

/-- CONVERGENCE_RELEASE (R31). -/
def execConvergenceRelease (core course : Nat) (s : State) : Outcome := s.whileRunning fun s => s.convergenceRelease core course

/-- BARRIER_COMPLETION (R238). -/
def execBarrierCompletion (scope place group num : Nat) (s : State) : Outcome := s.whileRunning fun s => s.barrierCompletion { scope := scope, place := place, group := group, num := num }

/-- BARRIER_TIMEOUT (R395). -/
def execBarrierTimeout (scope place group num : Nat) (s : State) : Outcome := s.whileRunning fun s => s.barrierTimeout { scope := scope, place := place, group := group, num := num }

/-- CONVERGENCE_TIMEOUT (R395). -/
def execConvergenceTimeout (core course : Nat) (s : State) : Outcome := s.whileRunning fun s => s.convergenceTimeout core course

/-- YIELD_EXPIRY (R228). -/
def execYieldExpiry (core course : Nat) (s : State) : Outcome := s.whileRunning fun s => s.yieldExpiry core course

/-- COURSE_WAKE (R82). -/
def execCourseWake (core course : Nat) (s : State) : Outcome := s.whileRunning fun s => (s.testEntry core course).courseWake core course

/-- TRAP_DELIVERY (R379). -/
def execTrapDelivery (core course : Nat) (s : State) : Outcome := s.whileRunning fun s => s.trapDelivery core course

/-- TASK_DISPATCH (R71). -/
def execTaskDispatch (cluster : Nat) (pull : Bool) (s : State) : Outcome := s.whileRunning fun s => s.dispatch cluster pull

/-- DISPATCH_RESERVATION (R72). -/
def execDispatchReservation (cluster prio : Nat) (s : State) : Outcome := s.whileRunning fun s => s.reserve cluster prio

/-- STEAL_REQUEST (R74). -/
def execStealRequest (cluster : Nat) (s : State) : Outcome := s.whileRunning fun s => s.stealRequest cluster

/-- STEAL_SHIPMENT (R324). -/
def execStealShipment (victim : Nat) (s : State) : Outcome := s.whileRunning fun s => s.stealShipment victim

/-- SHIPMENT_ARRIVAL (R324). -/
def execShipmentArrival (thief : Nat) (s : State) : Outcome := s.whileRunning fun s => s.shipmentArrival thief

/-- TASK_END (R77). -/
def execTaskEnd (core slot : Nat) (s : State) : Outcome := s.whileRunning fun s => s.taskEnd core slot

/-- OVERFLOW_RECORD (R80). -/
def execOverflowRecord (cluster : Nat) (s : State) : Outcome := s.whileRunning fun s => s.overflowRecord cluster

/-- PREEMPT (R84). (log 89: DESIGN CHOICE, unsafe.) -/
def execPreempt (m : MsgHead) (i tag : Nat) (z : Option Nat) (die clusters count : Nat) (byPrio : Bool) (sel : Nat) (s : State) : Outcome := s.beside fun s => s.hostIn ⟨m, i, tag, z, .preempt die clusters count byPrio sel⟩

/-- PREEMPT_SAVE (R84). -/
def execPreemptSave (core : Nat) (s : State) : Outcome := s.whileRunning fun s => s.preemptSave core

/-- GUARD_SLOT_HEAD_CHECK (R281). -/
def execGuardSlotHeadCheck (core cls : Nat) (s : State) : Outcome := s.whileRunning fun s => s.headCheck core cls

/-- K_CHUNK (R104). -/
def execKChunk (core : Nat) (turn : ClassTurn) (s : State) : Outcome :=
  s.whileRunning fun s => s.kChunk core turn.cls turn.far turn.err

/-- WRITE_BACK (R292). -/
def execWriteBack (turn : TileTurn) (s : State) : Outcome := s.whileRunning fun s => s.writeBack turn.core turn.err

/-- COPY_TRANSFER (R286). -/
def execCopyTransfer (core : Nat) (reads : EngReads) (s : State) : Outcome :=
  s.whileRunning fun s => s.copyTransfer core reads.far reads.err

/-- ACC_EXECUTE (R295). -/
def execAccExecute (turn : TileTurn) (s : State) : Outcome := s.whileRunning fun s => s.accExecute turn.core turn.err

/-- COMMAND_RETIRE (R167). -/
def execCommandRetire (core course cls : Nat) (s : State) : Outcome := s.whileRunning fun s => s.retire core course cls

/-- HOME_ACCESS_PERFORM (R155). -/
def execHomeAccessPerform (id : Nat) (err : SoftErr) (s : State) : Outcome := s.whileRunning fun s => s.perform id err

/-- SECTOR_FILL (R142). -/
def execSectorFill (die line : Nat) (err : SoftErr) (s : State) : Outcome := s.whileRunning fun s => s.sectorFill die line err

/-- MISS_STATUS_ALLOCATE (R144). -/
def execMissStatusAllocate (id : Nat) (s : State) : Outcome := s.whileRunning fun s => s.missAllocate id

/-- LOAD_RETURN (R157). (log 73: DESIGN CHOICE, safe.) -/
def execLoadReturn (id : Nat) (back : LineBack) (s : State) : Outcome := s.whileRunning fun s => s.loadReturn id back.line back.bad

/-- HOD_DRAIN (R165). -/
def execHodDrain (core entry : Nat) (s : State) : Outcome := s.whileRunning fun s => s.hodDrain core entry

/-- HOD_AGE_LIMIT (R328). -/
def execHodAgeLimit (core entry : Nat) (s : State) : Outcome := s.whileRunning fun s => s.hodAge core entry

/-- PHASE_COMPLETE (R158). -/
def execPhaseComplete (core course : Nat) (s : State) : Outcome := s.whileRunning fun s => s.phaseComplete core course

/-- FENCE_COMPLETE (R160). -/
def execFenceComplete (core course : Nat) (s : State) : Outcome := s.whileRunning fun s => s.fenceComplete core course

/-- RELEASE_STORE_PROCEED (R252). -/
def execReleaseStoreProceed (id : Nat) (s : State) : Outcome := s.whileRunning fun s => s.releaseProceed id

/-- WAITN_COMPLETE (R168). -/
def execWaitnComplete (core course : Nat) (s : State) : Outcome := s.whileRunning fun s => s.waitnComplete core course

/-- ICINV_COMPLETE (R170). -/
def execIcinvComplete (core course : Nat) (s : State) : Outcome := s.whileRunning fun s => s.icinvComplete core course

/-- FETCHB_COMPLETE (R260). -/
def execFetchbComplete (core course : Nat) (s : State) : Outcome := s.whileRunning fun s => s.fetchbComplete core course

/-- CRESIZE_COMPLETE (R146). -/
def execCresizeComplete (die : Nat) (s : State) : Outcome := s.whileRunning fun s => s.cresizeDone die

/-- MIGRATION_START (R152). -/
def execMigrationStart (die : Nat) (s : State) : Outcome := s.whileRunning fun s => s.migrationStart die

/-- MIGRATION_DEPARTURE (R152). -/
def execMigrationDeparture (die frame : Nat) (s : State) : Outcome := s.whileRunning fun s => s.migrationDeparture die frame

/-- REMOTE_PACKET_ARRIVAL (R334). -/
def execRemotePacketArrival (rank die seq : Nat) (pred : Option Nat) (pa : Nat) (bytes : List (Nat × Byte × Byte)) (op : PacketOp) (seen : Arrival) (s : State) : Outcome := s.whileRunning fun s => s.remoteArrival { rank := rank, die := die, seq := seq, pred := pred, pa := pa, bytes := bytes, op := op, mark := decide (64 < seen.queue) } seen

/-- ACKNOWLEDGEMENT_ARRIVAL (R330). -/
def execAcknowledgementArrival (die dest seq : Nat) (mark : Bool) (back : AtomBack) (tag : BitVec 32) (s : State) : Outcome :=
  s.whileRunning fun s => s.ackArrival die dest seq mark back.val tag back.bad

/-- CLOSED_VECTOR_UPDATE (R331). -/
def execClosedVectorUpdate (core dest : Nat) (s : State) : Outcome := s.whileRunning fun s => s.closedUpdate core dest

/-- REFUSAL_ARRIVAL (R439). -/
def execRefusalArrival (die dest seq id : Nat) (s : State) : Outcome := s.whileRunning fun s => s.refusalArrival die dest seq id

/-- RESTART_REFUSAL (R422). -/
def execRestartRefusal (die dest : Nat) (s : State) : Outcome := s.whileRunning fun s => s.restartRefusal die dest

/-- RETRANSMISSION (R335). -/
def execRetransmission (die dest seq id : Nat) (s : State) : Outcome := s.whileRunning fun s => s.retransmit die dest seq id

/-- DESTINATION_LOST (R335). -/
def execDestinationLost (die dest : Nat) (s : State) : Outcome := s.whileRunning fun s => s.destinationLost die dest

/-- ALLOWANCE_COLLAPSE (R422). -/
def execAllowanceCollapse (die dest : Nat) (s : State) : Outcome := s.whileRunning fun s => s.collapse die dest

/-- EXPRESS_STARVATION_TOKEN (R323). -/
def execExpressStarvationToken (router out : Nat) (s : State) : Outcome := s.whileRunning fun s => s.expressToken router out

/-- TIER_STARVATION_GRANT (R327). -/
def execTierStarvationGrant (port tier : Nat) (s : State) : Outcome := s.whileRunning fun s => s.tierGrant port tier

/-- LINK_TRAINING (R325). -/
def execLinkTraining (port dest : Nat) (fast : Bool) (s : State) : Outcome := s.whileHosted fun s => s.linkTrained port dest fast

/-- FLIT_CRC_REPLAY (R421). -/
def execFlitCrcReplay (link : Nat) (ok : Bool) (s : State) : Outcome := s.whileHosted fun s => s.crcReplay link ok

/-- LINK_RETRAIN (R421). (log 93: DESIGN CHOICE, safe.) -/
def execLinkRetrain (link : Nat) (ok fast : Bool) (s : State) : Outcome := s.whileHosted fun s => s.linkRetrain link ok fast

/-- PORT_UP (R421). -/
def execPortUp (port : Nat) (s : State) : Outcome := s.whileHosted fun s => s.portUp port

/-- RING_CHECK (R337). -/
def execRingCheck (rank ring : Nat) (s : State) : Outcome := s.whileRunning fun s => s.ringChecked rank ring

/-- RING_CHECK_ANSWER (R337). -/
def execRingCheckAnswer (ring : Nat) (prev : Bool) (s : State) : Outcome := s.whileRunning fun s => s.ringAnswered ring prev

/-- RING_SETUP_TIMEOUT (R424). -/
def execRingSetupTimeout (ring : Nat) (s : State) : Outcome := s.whileRunning fun s => s.ringTimeout ring

/-- CHUNK_START (R338). -/
def execChunkStart (core : Nat) (how : ChunkFrom) (cid index : Nat) (s : State) : Outcome := s.whileRunning fun s => s.chunkStart core how cid index

/-- PARTIAL_ARRIVAL (R338). -/
def execPartialArrival (ring cid index dtype cop bytes : Nat) (vals ranks : List Nat) (refused : Bool) (s : State) : Outcome := s.whileRunning fun s => s.partialArrival { ring := ring, cid := cid, index := index, dtype := dtype, cop := cop, bytes := bytes, vals := vals, ranks := ranks, refused := refused }

/-- RESULT_ARRIVAL (R338). -/
def execResultArrival (ring cid index dtype cop bytes : Nat) (vals ranks : List Nat) (refused : Bool) (s : State) : Outcome := s.whileRunning fun s => s.resultArrival { ring := ring, cid := cid, index := index, dtype := dtype, cop := cop, bytes := bytes, vals := vals, ranks := ranks, refused := refused }

/-- THROTTLE_REQUEST (R344). -/
def execThrottleRequest (rank die step : Nat) (s : State) : Outcome := s.whileHosted fun s => s.throttleRequest rank die step

/-- THROTTLE_STEP_UP (R344). -/
def execThrottleStepUp (s : State) : Outcome := s.whileHosted fun s => s.stepUp

/-- HOST_LINK_BRINGUP (R354). -/
def execHostLinkBringup (s : State) : Outcome := s.whileHosted State.hostBringup

/-- LAUNCH (R355). -/
def execLaunch (m : MsgHead) (i tag : Nat) (z : Option Nat) (addr : Nat) (s : State) : Outcome := s.beside fun s => s.hostIn ⟨m, i, tag, z, .launch addr⟩

/-- RELEASE (R79). -/
def execRelease (m : MsgHead) (i tag : Nat) (z : Option Nat) (graph node : Nat) (s : State) : Outcome := s.beside fun s => s.hostIn ⟨m, i, tag, z, .release graph node⟩

/-- WRITE_MEMORY (R355). -/
def execWriteMemory (m : MsgHead) (i tag : Nat) (z : Option Nat) (addr len : Nat) (data : List Byte) (refused : Bool) (s : State) : Outcome := s.beside fun s => s.hostIn ⟨m, i, tag, z, .write addr len data refused⟩

/-- READ_MEMORY (R355). -/
def execReadMemory (m : MsgHead) (i tag : Nat) (z : Option Nat) (addr len val : Nat) (refused : Bool) (s : State) : Outcome := s.beside fun s => s.hostIn ⟨m, i, tag, z, .read addr len val refused⟩

/-- QUEUE_CONTROL (R76). -/
def execQueueControl (m : MsgHead) (i tag : Nat) (z : Option Nat) (unit queue value : Nat) (s : State) : Outcome := s.beside fun s => s.hostIn ⟨m, i, tag, z, .queueControl unit queue value⟩

/-- ROUTE_ENTRY (R423). -/
def execRouteEntry (m : MsgHead) (i tag : Nat) (z : Option Nat) (dest entry : Nat) (s : State) : Outcome := s.beside fun s => s.hostIn ⟨m, i, tag, z, .route dest entry⟩

/-- RING_SETUP (R337). -/
def execRingSetup (m : MsgHead) (i tag : Nat) (z : Option Nat) (ring addr : Nat) (far : List Nat) (s : State) : Outcome := s.beside fun s => s.hostIn ⟨m, i, tag, z, .ringSetup ring addr far⟩

/-- BIND_RESULT (R365). -/
def execBindResult (m : MsgHead) (i tag : Nat) (z : Option Nat) (base index state fail target : Nat) (s : State) : Outcome := s.beside fun s => s.hostIn ⟨m, i, tag, z, .bindResult base index state fail target⟩

/-- TRAP_RESUME (R390). -/
def execTrapResume (m : MsgHead) (i tag : Nat) (z : Option Nat) (die core course action : Nat) (s : State) : Outcome := s.beside fun s => s.hostIn ⟨m, i, tag, z, .trapResume die core course action⟩

/-- CODE_TABLE (R363). -/
def execCodeTable (m : MsgHead) (i tag : Nat) (z : Option Nat) (base count : Nat) (s : State) : Outcome := s.beside fun s => s.hostIn ⟨m, i, tag, z, .codeTable base count⟩

/-- ATTEST (R370). -/
def execAttest (m : MsgHead) (i tag : Nat) (z : Option Nat) (addr : Nat) (s : State) : Outcome := s.beside fun s => s.hostIn ⟨m, i, tag, z, .attest addr⟩

/-- RING_BIND (R356). -/
def execRingBind (m : MsgHead) (i tag : Nat) (z : Option Nat) (ring ctx root : Nat) (s : State) : Outcome := s.beside fun s => s.hostIn ⟨m, i, tag, z, .ringBind ring ctx root⟩

/-- SYSCALL_REPLY (R361). -/
def execSyscallReply (m : MsgHead) (call lo hi : Nat) (vals : List (Nat × Nat)) (s : State) : Outcome := s.beside fun s => s.hostIn ⟨m, 0, 0, none, .reply call lo hi vals⟩

/-- MAILBOX_MESSAGE (R243). (log 100: DEDUCED, unsafe.) -/
def execMailboxMessage (m : MsgHead) (core : Nat) (words : List Nat) (s : State) : Outcome := s.beside fun s => s.hostIn ⟨m, 0, 0, none, .mailbox core words⟩

/-- PAGE_MESSAGE (R152). -/
def execPageMessage (m : MsgHead) (ctx va : Nat) (bytes : List Byte) (s : State) : Outcome := s.beside fun s => s.hostIn ⟨m, 0, 0, none, .page ctx va bytes⟩

/-- OWN_MESSAGE (R153). -/
def execOwnMessage (m : MsgHead) (ctx va : Nat) (own : Bool) (s : State) : Outcome := s.beside fun s => s.hostIn ⟨m, 0, 0, none, .own ctx va own⟩

/-- NAK (R357). -/
def execNak (m : MsgHead) (first : Nat) (s : State) : Outcome := s.beside fun s => s.nakIn m first

/-- RESYNC (R359). -/
def execResync (m : MsgHead) (accepted _sent _oldest : Nat) (s : State) : Outcome := s.beside fun s => s.resyncIn m accepted

/-- RESYNC_REPLY (R359). -/
def execResyncReply (m : MsgHead) (_accepted _sent oldest : Nat) (s : State) : Outcome := s.beside fun s => s.resyncReplyIn m oldest

/-- KEEPALIVE (R354). -/
def execKeepalive (m : MsgHead) (s : State) : Outcome := s.beside fun s => s.keepaliveIn m

/-- HOST_RETRANSMIT (R357). -/
def execHostRetransmit (s : State) : Outcome := s.whileHosted fun s => s.hostRetransmit

/-- HOST_LINK_LOST (R425). -/
def execHostLinkLost (s : State) : Outcome := s.whileHosted fun s => s.hostLinkLost

/-- CODE_TABLE_ENTRY_JUMP (R364). -/
def execCodeTableEntryJump (s : State) : Outcome := .next (if s.phase == Phase.running then s.entryJump else s)

/-- HARDWARE_BIND (R365). -/
def execHardwareBind (ctx base index : Nat) (s : State) : Outcome := s.whileRunning fun s => s.hardwareBind ctx base index

/-- DBGCTL_HALT (R56). -/
def execDbgctlHalt (core course : Nat) (s : State) : Outcome := s.whileRunning fun s => s.dbgHalt core course

/-- DBGCTL_UNHALT (R56). -/
def execDbgctlUnhalt (core course : Nat) (s : State) : Outcome := s.whileRunning fun s => s.dbgUnhalt core course

/-- DBGCTL_STEP (R56). -/
def execDbgctlStep (core course : Nat) (s : State) : Outcome := s.whileRunning fun s => s.dbgStep core course

/-- ILEN_WRITE (R429). -/
def execIlenWrite (core : Nat) (v : Word) (s : State) : Outcome := s.whileRunning fun s => s.writeIlen core v

/-- MAILBOX_SEND (R432). -/
def execMailboxSend (s : State) : Outcome := s.whileRunning fun s => s.pumpRing 67

/-- DUTY_WRITE (R16). -/
def execDutyWrite (die : Nat) (v : Word) (s : State) : Outcome := s.whileRunning fun s => s.writeDuty die v

/-- REGISTER_WRITE (R5). (log 110: DESIGN CHOICE, unsafe.) -/
def execRegisterWrite (r : PlainReg) (v : Word) (s : State) : Outcome := s.whileRunning fun s => s.writePlain r v

/-- BOOT (R427). -/
def execBoot (cert owner fw fw2 cfg : List Byte) (s : State) : Outcome := .next { s.boot cert owner fw fw2 cfg with issue := none }

/-- SENSOR_SAMPLE (R372). -/
def execSensorSample (n : Nat) (x : Int) (s : State) : Outcome := s.beside fun s => s.sample n x

/-- THROTTLE_REPEAT (R373). -/
def execThrottleRepeat (die event : Nat) (s : State) : Outcome := s.whileHosted fun s => s.throttleRepeat die event

/-- REFRESH_BAND_EVALUATION (R376). -/
def execRefreshBandEvaluation (stack : Nat) (s : State) : Outcome := s.whileHosted fun s => s.refreshBand stack

/-- TELEMETRY_RECORD (R375). -/
def execTelemetryRecord (s : State) : Outcome := s.whileHosted fun s => s.telemetryRecord

/-- THERMAL_TRIP (R426). -/
def execThermalTrip (cause : Nat) (s : State) : Outcome := .next { s.thermalTrip cause with issue := none }

/-- MODULE_REBOOT (R426). -/
def execModuleReboot (s : State) : Outcome := .next { s.moduleReboot with issue := none }

/-- SCRUB (R409). -/
def execScrub (die l err : Nat) (s : State) : Outcome := s.whileHosted fun s => s.scrub die l err

/-- HOST_MIGRATION_REQUEST (R151). -/
def execHostMigrationRequest (m : MsgHead) (ctx va : Nat) (s : State) : Outcome := s.beside fun s => s.hostIn ⟨m, 0, 0, none, .wantPage ctx va⟩

/-- RESTART_ANNOUNCEMENT (R423). -/
def execRestartAnnouncement (rank die : Nat) (s : State) : Outcome := s.whileRunning fun s => s.restartAnnounced rank die

/-- PARTIAL_CREDIT_RETURN (R338). -/
def execPartialCreditReturn (ring : Nat) (s : State) : Outcome := s.whileRunning fun s => s.partialCredit ring

/-- WALK_COMPLETE (R147). -/
def execWalkComplete (core : Nat) (turn : WalkTurn) (s : State) : Outcome := s.whileRunning fun s => s.walkComplete core turn.course turn.err

/-- DIVIDE_RESULT (R215). -/
def execDivideResult (id : Nat) (s : State) : Outcome := s.whileRunning fun s => s.divideResult id

/-- CHUNK_PEER_LOST_TIMEOUT (R343). -/
def execChunkPeerLostTimeout (cid : Nat) (peer : ChunkPeer) (s : State) : Outcome := s.whileRunning fun s => s.chunkLost cid peer.index peer.member

end Sys2Proof.Machine
end

