-- ==== Sys2Proof/Machine/Secondary.lean ====
section
/-! DEFINITION. The secondary integer and floating functions (R214 to R216). -/

namespace Sys2Proof.Machine

/-- The width of a function with a width bit (R214). -/
def extWidth (i : Nat) : Nat := if i % 2 = 1 then 64 else 32

/-- A rotation to the left (R214). -/
def rotlVal (i : Nat) (a b : Word) : Word :=
  let w := extWidth i
  let n := asNat 32 b % w
  BitVec.ofNat 64 (asNat w a * 2 ^ n % 2 ^ w + asNat w a / 2 ^ (w - n))

/-- The bits in reverse order (R214). -/
def brevVal (i : Nat) (a : Word) : Word :=
  let w := extWidth i
  BitVec.ofNat 64 ((List.range w).foldl (fun r j => r + bitN (a.getLsbD j) (w - 1 - j)) 0)

/-- `fclass` (R216). -/
def fclassVal (_ : Nat) (a : Word) : Word := BitVec.ofNat 64 (2 ^ fclass (asNat 32 a))

/-- `frnd` by the mode in the immediate (R214). -/
def frndVal (i : Nat) (a : Word) : Word :=
  BitVec.ofNat 64 (f32.round 0 false (frnd (BitVec.ofNat 2 i) (f32.ofWord a)))

/-- `fexp` (R214). -/
def fexpVal (_ : Nat) (a b : Word) : Word := BitVec.ofNat 64 (f32.round 0 false ((f32.ofWord a).scale (asInt 32 b)))

/-! ## Division (R215) -/

/-- The quotient and remainder of R215, as numbers of the width. -/
def divI (w : Nat) (a b : Word) : Word :=
  if asInt w b = 0 then BitVec.ofNat 64 (2 ^ w - 1)
  else BitVec.ofNat 64 ((asInt w a).tdiv (asInt w b) % 2 ^ w).toNat
def divN (w : Nat) (a b : Word) : Word :=
  if asNat w b = 0 then BitVec.ofNat 64 (2 ^ w - 1) else BitVec.ofNat 64 (asNat w a / asNat w b)
def remI (w : Nat) (a b : Word) : Word :=
  if asInt w b = 0 then BitVec.ofNat 64 (asNat w a)
  else BitVec.ofNat 64 ((asInt w a).tmod (asInt w b) % 2 ^ w).toNat
def remN (w : Nat) (a b : Word) : Word :=
  if asNat w b = 0 then BitVec.ofNat 64 (asNat w a) else BitVec.ofNat 64 (asNat w a % asNat w b)

/-- The register that will take a scoreboarded result, in a thread or for the course. -/
def Grp.awaitDst (G : Grp) (dst : Rd) (i id : Nat) (c : Course) : Course :=
  match dst with
  | .c r => { c with csb := (c.csb.filter fun e => decide (e.1 ≠ .c r)) ++ [(.c r, id)], cpend := c.cpend.filter fun p => decide (p.dst ≠ .c r) }
  | d => c.modThread i fun t => t.awaitReg (t.ref d) id

/-- A divide or remainder: 8 or 16 cycles a thread; the results are scoreboarded and arrive when each thread's
cycles have passed (R196, R215). -/
def opDiv (len : Nat) (x : E64) (f : Nat → Word → Word → Word) (s : State) : Outcome :=
  let w := extWidth x.i.toNat
  let l : LaneI := { laneE len x [extA x, extB x] with per := w / 4 }
  s.withGroup fun G =>
    match G.check l with
    | some c => s.trapNow G c
    | none =>
      let r := (G.active l).foldl (fun (a : Course × State) i =>
          let id := a.2.nextId
          let t := G.cs.thread i
          (G.awaitDst (extD x) i id a.1,
            { a.2 with
              nextId := id + 1
              divs := a.2.divs ++ [{ id := id, core := G.g.core, course := G.g.course, slot := i, dst := t.ref (extD x)
                                     val := f w (G.read l i (extA x)) (G.read l i (extB x))
                                     ready := G.cyc l i + w / 4 }] })) (G.cs, s)
      r.2.finish G l r.1

/-- `idiv.i`, 32-bit form (R215). -/
def execIdivI (x : Ed) (s : State) : Outcome := opDiv 4 (extEd x) divI s
/-- `idiv.i` (R215). -/
def execIdivIL (x : E64) (s : State) : Outcome := opDiv 8 x divI s

/-- `idiv.n`, 32-bit form (R215). -/
def execIdivN (x : Ed) (s : State) : Outcome := opDiv 4 (extEd x) divN s
/-- `idiv.n` (R215). -/
def execIdivNL (x : E64) (s : State) : Outcome := opDiv 8 x divN s

/-- `irem.i`, 32-bit form (R215). -/
def execIremI (x : Ed) (s : State) : Outcome := opDiv 4 (extEd x) remI s
/-- `irem.i` (R215). -/
def execIremIL (x : E64) (s : State) : Outcome := opDiv 8 x remI s

/-- `irem.n`, 32-bit form (R215). -/
def execIremN (x : Ed) (s : State) : Outcome := opDiv 4 (extEd x) remN s
/-- `irem.n` (R215). -/
def execIremNL (x : E64) (s : State) : Outcome := opDiv 8 x remN s

/-- `rotl`, 32-bit form (R214). -/
def execRotl (x : Ed) (s : State) : Outcome := opE2 4 (extEd x) rotlVal s
/-- `rotl` (R214). -/
def execRotlL (x : E64) (s : State) : Outcome := opE2 8 x rotlVal s

/-- `brev`, 32-bit form (R214). -/
def execBrev (x : Ed) (s : State) : Outcome := opE1 4 (extEd x) brevVal s
/-- `brev` (R214). -/
def execBrevL (x : E64) (s : State) : Outcome := opE1 8 x brevVal s

/-- `fcmp.ord`, 32-bit form (R214). -/
def execFcmpOrd (x : D1) (s : State) : Outcome := opEq 4 (extD1 x) fpOrd s
/-- `fcmp.ord` (R214). -/
def execFcmpOrdL (x : E64) (s : State) : Outcome := opEq 8 x fpOrd s

/-- `fcmp.unord`, 32-bit form (R214). -/
def execFcmpUnord (x : D1) (s : State) : Outcome := opEq 4 (extD1 x) fpUnord s
/-- `fcmp.unord` (R214). -/
def execFcmpUnordL (x : E64) (s : State) : Outcome := opEq 8 x fpUnord s

/-- `fclass`, 32-bit form (R216). -/
def execFclass (x : Ed) (s : State) : Outcome := opE1 4 (extEd x) fclassVal s
/-- `fclass` (R216). -/
def execFclassL (x : E64) (s : State) : Outcome := opE1 8 x fclassVal s

/-- `frnd`, 32-bit form (R214). -/
def execFrnd (x : Ed) (s : State) : Outcome := opE1 4 (extEd x) frndVal s
/-- `frnd` (R214). -/
def execFrndL (x : E64) (s : State) : Outcome := opE1 8 x frndVal s

/-- `fexp`, 32-bit form (R214). -/
def execFexp (x : Ed) (s : State) : Outcome := opE2 4 (extEd x) fexpVal s
/-- `fexp` (R214). -/
def execFexpL (x : E64) (s : State) : Outcome := opE2 8 x fexpVal s

/-- `nop` (R387): it changes no register and takes its cycles. -/
def execNop (x : H0) (s : State) : Outcome := s.lane { len := 4, h := x.h } noCheck fun _ _ c => c
/-- `nop`, 64-bit form (R387). -/
def execNopL (x : E64) (s : State) : Outcome := s.lane { len := 8, h := x.h } noCheck fun _ _ c => c

end Sys2Proof.Machine
end

