-- ==== Sys2Proof/Machine/Exchange.lean ====
section
/-! DEFINITION. Predicates to registers, and exchange within the issue group (R217 to R220). -/

namespace Sys2Proof.Machine

/-- The first slot and the size of the exchange set of a slot (R218): that of the convergence set. -/
def Grp.exchSet (G : Grp) (i : Nat) : Nat × Nat := G.cs.unit G.tk.width i

/-- A result of each participant from what it and the other participants hold (R218); on a control core a thread is
the only participant it sees (R20). -/
def opX (x : LaneI) (dst : Rd) (f : Grp → List Nat → Nat → Word) (s : State) : Outcome :=
  s.lane x noCheck fun G i c =>
    let parts := if isCtl G.g.core then [i] else if x.uni then G.g.slots else G.active x
    G.deliver x 4 dst i (f G parts i) c

/-- The register exchanges: `j` gives the source index from r, b and N (R219). -/
def opXget (len : Nat) (x : E64) (j : Nat → Word → Nat → Int) (s : State) : Outcome :=
  let l := laneE len x [extA x, extB x] true
  opX l (.v x.d) (fun G parts i =>
    let u := G.exchSet i
    let k := j (i - u.1) (G.read l i (extB x)) u.2
    if 0 ≤ k ∧ k < u.2 ∧ parts.contains (u.1 + k.toNat) ∧ !isCtl G.g.core then G.read l (u.1 + k.toNat) (extA x)
    else G.read l i (extA x)) s

/-- The participants of a thread's exchange set whose predicate is 1 (R219). -/
def Grp.withPred (G : Grp) (l : LaneI) (p : BitVec 4) (parts : List Nat) : List Nat :=
  parts.filter fun j => decide (G.read l j (.q p) ≠ 0)

/-- The predicate gathers (R219). -/
def opGather (len : Nat) (x : E64) (dst : Rd) (f : List Nat → List Nat → Word) (s : State) : Outcome :=
  let l := laneE len x [.q x.p] true
  opX l dst (fun G parts _ => f parts (G.withPred l x.p parts)) s

/-- The predicate destination of a secondary function. -/
def extQ (x : E64) : Rd := .q (BitVec.ofNat 4 x.d.toNat)

/-- `q2v` (R217): stage predicates as they read here (R44). -/
def opQ2v (len : Nat) (x : E64) (s : State) : Outcome :=
  let l := laneE len x ((List.range 12).map fun i => .q (BitVec.ofNat 4 i))
  s.lane l noCheck fun G i c => G.deliver l 4 (.v x.d) i ((G.cs.thread i).predWord (G.cyc l i)) c

/-- `v2q` (R217): writes to stage predicates are discarded (R44). -/
def opV2q (len : Nat) (x : E64) (s : State) : Outcome :=
  let l := laneE len x [extA x]
  s.lane l noCheck fun G i c =>
    (List.range 12).foldl (fun c j => G.deliver l 4 (.q (BitVec.ofNat 4 j)) i (boolWord ((G.read l i (extA x)).getLsbD j)) c) c

/-- `q2v`, 32-bit form (R217). -/
def execQ2v (x : D1) (s : State) : Outcome := opQ2v 4 (extD1 x) s
/-- `q2v` (R217). -/
def execQ2vL (x : E64) (s : State) : Outcome := opQ2v 8 x s

/-- `v2q`, 32-bit form (R217). -/
def execV2q (x : H0) (s : State) : Outcome := opV2q 4 (extH0 x) s
/-- `v2q` (R217). -/
def execV2qL (x : E64) (s : State) : Outcome := opV2q 8 x s

/-- `qpop`, 32-bit form (R219). -/
def execQpop (x : Ed) (s : State) : Outcome := opGather 4 (extEd x) (extD (extEd x)) (fun _ on => BitVec.ofNat 64 on.length) s
/-- `qpop` (R219). -/
def execQpopL (x : E64) (s : State) : Outcome := opGather 8 x (extD x) (fun _ on => BitVec.ofNat 64 on.length) s

/-- `pfirst`, 32-bit form (R219). -/
def execPfirst (x : D1) (s : State) : Outcome := opX (laneE 4 (extD1 x) [] true) (extQ (extD1 x)) (fun _ parts i => boolWord (decide (parts.headD i = i))) s
/-- `pfirst` (R219). -/
def execPfirstL (x : E64) (s : State) : Outcome := opX (laneE 8 x [] true) (extQ x) (fun _ parts i => boolWord (decide (parts.headD i = i))) s

/-- `pany`, 32-bit form (R219). -/
def execPany (x : D1) (s : State) : Outcome := opGather 4 (extD1 x) (extQ (extD1 x)) (fun _ on => boolWord !on.isEmpty) s
/-- `pany` (R219). -/
def execPanyL (x : E64) (s : State) : Outcome := opGather 8 x (extQ x) (fun _ on => boolWord !on.isEmpty) s

/-- `pall`, 32-bit form (R219). -/
def execPall (x : D1) (s : State) : Outcome := opGather 4 (extD1 x) (extQ (extD1 x)) (fun parts on => boolWord (decide (on.length = parts.length))) s
/-- `pall` (R219). -/
def execPallL (x : E64) (s : State) : Outcome := opGather 8 x (extQ x) (fun parts on => boolWord (decide (on.length = parts.length))) s

/-- `pmask`, 32-bit form (R220). -/
def execPmask (x : Ed) (s : State) : Outcome := opGather 4 (extEd x) (extD (extEd x)) (fun _ on => BitVec.ofNat 64 (slotMask on)) s
/-- `pmask` (R220). -/
def execPmaskL (x : E64) (s : State) : Outcome := opGather 8 x (extD x) (fun _ on => BitVec.ofNat 64 (slotMask on)) s

/-- `xget.at`, 32-bit form (R219). -/
def execXgetAt (x : D1) (s : State) : Outcome := opXget 4 (extD1 x) (fun _ b _ => asNat 32 b) s
/-- `xget.at` (R219). -/
def execXgetAtL (x : E64) (s : State) : Outcome := opXget 8 x (fun _ b _ => asNat 32 b) s

/-- `xget.flip`, 32-bit form (R219). -/
def execXgetFlip (x : D1) (s : State) : Outcome := opXget 4 (extD1 x) (fun r b _ => ((r ^^^ asNat 32 b : Nat) : Int)) s
/-- `xget.flip` (R219). -/
def execXgetFlipL (x : E64) (s : State) : Outcome := opXget 8 x (fun r b _ => ((r ^^^ asNat 32 b : Nat) : Int)) s

/-- `xget.step`, 32-bit form (R219). -/
def execXgetStep (x : D1) (s : State) : Outcome := opXget 4 (extD1 x) (fun r b _ => r + asInt 32 b) s
/-- `xget.step` (R219). -/
def execXgetStepL (x : E64) (s : State) : Outcome := opXget 8 x (fun r b _ => r + asInt 32 b) s

/-- `xget.rot`, 32-bit form (R219). -/
def execXgetRot (x : D1) (s : State) : Outcome := opXget 4 (extD1 x) (fun r b n => (((r + asNat 32 b) % n : Nat) : Int)) s
/-- `xget.rot` (R219). -/
def execXgetRotL (x : E64) (s : State) : Outcome := opXget 8 x (fun r b n => (((r + asNat 32 b) % n : Nat) : Int)) s

end Sys2Proof.Machine
end

