-- ==== Sys2Proof/Machine/Immediate.lean ====
section
/-! DEFINITION. The immediate instructions (R213) and the compact instructions (R181). -/

namespace Sys2Proof.Machine

/-- The sign-extended constants of the short and long forms (R213). -/
def imm6 (i : BitVec 6) : Word := i.signExtend 64
def imm32 (i : BitVec 32) : Word := i.signExtend 64
def imm11 (i : BitVec 11) : Word := i.signExtend 64

/-- `fmovi`, 32-bit form: the FP16 pattern imm11 × 2^5 as FP32 (R213). -/
def fmoviShort (i : BitVec 11) : Word := BitVec.ofNat 64 (f32.round 0 false (f16.decode (32 * i.toNat)))

/-- Format K: d := f(old d). -/
def opK (len : Nat) (h : Hdr) (d : Reg) (reads : Bool) (f : Word → Word) (s : State) : Outcome :=
  s.alu { len := len, h := h, rd := if reads then [.v d] else [] } 4 (.v d) fun rd => f (rd (.v d))

/-- `movhi` keeps the low half (R213). -/
def setHigh (n old : Word) : Word := BitVec.ofNat 64 (old.toNat % 2 ^ 32 + n.toNat % 2 ^ 32 * 2 ^ 32)

/-- `iaddi` (R213). -/
def execIaddi (x : Im) (s : State) : Outcome := opI 4 x.h x.a x.d (fun a => intVal .bySat 32 (· + ·) .zero a (imm6 x.i)) s
/-- `iaddi`, 64-bit form (R213). -/
def execIaddiL (x : Im64) (s : State) : Outcome := opI 8 x.h x.a x.d (fun a => intVal .bySat 32 (· + ·) .zero a (imm32 x.i)) s

/-- `andi` (R213). -/
def execAndi (x : Im) (s : State) : Outcome := opI 4 x.h x.a x.d (fun a => bitVal (· &&& ·) .zero a (imm6 x.i)) s
/-- `andi`, 64-bit form (R213). -/
def execAndiL (x : Im64) (s : State) : Outcome := opI 8 x.h x.a x.d (fun a => bitVal (· &&& ·) .zero a (imm32 x.i)) s

/-- `ori` (R213). -/
def execOri (x : Im) (s : State) : Outcome := opI 4 x.h x.a x.d (fun a => bitVal (· ||| ·) .zero a (imm6 x.i)) s
/-- `ori`, 64-bit form (R213). -/
def execOriL (x : Im64) (s : State) : Outcome := opI 8 x.h x.a x.d (fun a => bitVal (· ||| ·) .zero a (imm32 x.i)) s

/-- `xori` (R213). -/
def execXori (x : Im) (s : State) : Outcome := opI 4 x.h x.a x.d (fun a => bitVal (· ^^^ ·) .zero a (imm6 x.i)) s
/-- `xori`, 64-bit form (R213). -/
def execXoriL (x : Im64) (s : State) : Outcome := opI 8 x.h x.a x.d (fun a => bitVal (· ^^^ ·) .zero a (imm32 x.i)) s

/-- `shli` (R213, R199). -/
def execShli (x : Im) (s : State) : Outcome := opI 4 x.h x.a x.d (fun a => shlBy 32 a x.i.toNat) s
/-- `shli`, 64-bit form (R213, R199). -/
def execShliL (x : Im64) (s : State) : Outcome :=
  opI 8 x.h x.a x.d (fun a => shlBy 32 a (x.i.toNat % 64)) s

/-- `shri.n` (R213, R199). -/
def execShriN (x : Im) (s : State) : Outcome := opI 4 x.h x.a x.d (fun a => shrNBy 32 a x.i.toNat) s
/-- `shri.n`, 64-bit form (R213, R199). -/
def execShriNL (x : Im64) (s : State) : Outcome :=
  opI 8 x.h x.a x.d (fun a => shrNBy 32 a (x.i.toNat % 64)) s

/-- `shri.i` (R213, R199). -/
def execShriI (x : Im) (s : State) : Outcome := opI 4 x.h x.a x.d (fun a => shrIBy 32 a x.i.toNat) s
/-- `shri.i`, 64-bit form (R213, R199). -/
def execShriIL (x : Im64) (s : State) : Outcome :=
  opI 8 x.h x.a x.d (fun a => shrIBy 32 a (x.i.toNat % 64)) s

/-- `movi` (R213): all 64 bits. -/
def execMovi (x : Km) (s : State) : Outcome := opK 4 x.h x.d false (fun _ => imm11 x.i) s
/-- `movi`, 64-bit form (R213). -/
def execMoviL (x : Km64) (s : State) : Outcome := opK 8 x.h x.d false (fun _ => imm32 x.i) s

/-- `movhi` (R213). -/
def execMovhi (x : Km) (s : State) : Outcome := opK 4 x.h x.d true (setHigh (imm11 x.i)) s
/-- `movhi`, 64-bit form (R213). -/
def execMovhiL (x : Km64) (s : State) : Outcome := opK 8 x.h x.d true (setHigh (imm32 x.i)) s

/-- `icmpi.eq` (R213). -/
def execIcmpiEq (x : Im) (s : State) : Outcome := opIq 4 x.h x.a x.d (fun a => relEq 32 .zero a (imm6 x.i)) s
/-- `icmpi.eq`, 64-bit form (R213). -/
def execIcmpiEqL (x : Im64) (s : State) : Outcome := opIq 8 x.h x.a x.d (fun a => relEq 32 .zero a (imm32 x.i)) s

/-- `icmpi.lt.i` (R213). -/
def execIcmpiLtI (x : Im) (s : State) : Outcome := opIq 4 x.h x.a x.d (fun a => relLtI 32 .zero a (imm6 x.i)) s
/-- `icmpi.lt.i`, 64-bit form (R213). -/
def execIcmpiLtIL (x : Im64) (s : State) : Outcome := opIq 8 x.h x.a x.d (fun a => relLtI 32 .zero a (imm32 x.i)) s

/-- `fmovi` (R213). -/
def execFmovi (x : Km) (s : State) : Outcome := opK 4 x.h x.d false (fun _ => fmoviShort x.i) s
/-- `fmovi`, 64-bit form (R213). -/
def execFmoviL (x : Km64) (s : State) : Outcome := opK 8 x.h x.d false (fun _ => x.i.setWidth 64) s

/-! ## Compact -/

/-- `mov.c` (R181). -/
def execMovC (x : CReg) (s : State) : Outcome := 
  opU 2 { h := openHdr, a := x.a, d := x.d } { Modifier.zero with au := x.u } (fun a => zext32 (low32 a)) s
/-- `iadd.c` (R181). -/
def execIaddC (x : CReg) (s : State) : Outcome := opC x (intVal .bySat 32 (· + ·)) s
/-- `isub.c` (R181). -/
def execIsubC (x : CReg) (s : State) : Outcome := opC x (intVal .bySat 32 (· - ·)) s
/-- `imul.c` (R181). -/
def execImulC (x : CReg) (s : State) : Outcome := opC x (intVal .bySat 32 (· * ·)) s
/-- `and.c` (R181). -/
def execAndC (x : CReg) (s : State) : Outcome := opC x (bitVal (· &&& ·)) s
/-- `or.c` (R181). -/
def execOrC (x : CReg) (s : State) : Outcome := opC x (bitVal (· ||| ·)) s
/-- `xor.c` (R181). -/
def execXorC (x : CReg) (s : State) : Outcome := opC x (bitVal (· ^^^ ·)) s
/-- `shl.c` (R181). -/
def execShlC (x : CReg) (s : State) : Outcome := opC x (shiftVal (shlBy 32)) s
/-- `shr.n.c` (R181). -/
def execShrNC (x : CReg) (s : State) : Outcome := opC x (shiftVal (shrNBy 32)) s
/-- `shr.i.c` (R181). -/
def execShrIC (x : CReg) (s : State) : Outcome := opC x (shiftVal (shrIBy 32)) s
/-- `fadd.c` (R181). -/
def execFaddC (x : CReg) (s : State) : Outcome := opC x (f32Val fpAdd) s
/-- `fsub.c` (R181). -/
def execFsubC (x : CReg) (s : State) : Outcome := opC x (f32Val fpSub) s
/-- `fmul.c` (R181). -/
def execFmulC (x : CReg) (s : State) : Outcome := opC x (f32Val fpMul) s
/-- `fmax.c` (R181). -/
def execFmaxC (x : CReg) (s : State) : Outcome := opC x (f32Val fpMax) s
/-- `fmin.c` (R181). -/
def execFminC (x : CReg) (s : State) : Outcome := opC x (f32Val fpMin) s
/-- `iaddi5.c` (R181). -/
def execIaddi5C (x : CImm) (s : State) : Outcome :=
  opI 2 openHdr x.d x.d (fun a => intVal .bySat 32 (· + ·) .zero a (x.i.signExtend 64)) s
/-- `nop.c` (R181, R387): it changes no register and takes its cycles. -/
def execNopC (s : State) : Outcome := s.lane { len := 2, h := openHdr } noCheck fun _ _ c => c

end Sys2Proof.Machine
end

