-- ==== Sys2Proof/Machine/Dispatch.lean ====
section
/-! DEFINITION. The dispatch: one arm for each row of the table of operations and events. -/

namespace Sys2Proof.Machine

def exec (i : Instr) (s : State) : Host.Outcome State Fault Refusal :=
  match i with
  | .issueGroupSelection core lane err => Sys2Proof.Machine.execIssueGroupSelection core lane err s
  | .fixedLatencyResult core course => Sys2Proof.Machine.execFixedLatencyResult core course s
  | .convergenceRelease core course => Sys2Proof.Machine.execConvergenceRelease core course s
  | .barrierCompletion scope place group num => Sys2Proof.Machine.execBarrierCompletion scope place group num s
  | .barrierTimeout scope place group num => Sys2Proof.Machine.execBarrierTimeout scope place group num s
  | .convergenceTimeout core course => Sys2Proof.Machine.execConvergenceTimeout core course s
  | .yieldExpiry core course => Sys2Proof.Machine.execYieldExpiry core course s
  | .courseWake core course => Sys2Proof.Machine.execCourseWake core course s
  | .trapDelivery core course => Sys2Proof.Machine.execTrapDelivery core course s
  | .taskDispatch cluster pull => Sys2Proof.Machine.execTaskDispatch cluster pull s
  | .dispatchReservation cluster prio => Sys2Proof.Machine.execDispatchReservation cluster prio s
  | .stealRequest cluster => Sys2Proof.Machine.execStealRequest cluster s
  | .stealShipment victim => Sys2Proof.Machine.execStealShipment victim s
  | .shipmentArrival thief => Sys2Proof.Machine.execShipmentArrival thief s
  | .taskEnd core slot => Sys2Proof.Machine.execTaskEnd core slot s
  | .overflowRecord cluster => Sys2Proof.Machine.execOverflowRecord cluster s
  | .preempt m idx tag z die clusters count byPrio sel => Sys2Proof.Machine.execPreempt m idx tag z die clusters count byPrio sel s
  | .preemptSave core => Sys2Proof.Machine.execPreemptSave core s
  | .guardSlotHeadCheck core cls => Sys2Proof.Machine.execGuardSlotHeadCheck core cls s
  | .kChunk core turn => Sys2Proof.Machine.execKChunk core turn s
  | .writeBack turn => Sys2Proof.Machine.execWriteBack turn s
  | .copyTransfer core reads => Sys2Proof.Machine.execCopyTransfer core reads s
  | .accExecute turn => Sys2Proof.Machine.execAccExecute turn s
  | .commandRetire core course cls => Sys2Proof.Machine.execCommandRetire core course cls s
  | .homeAccessPerform id err => Sys2Proof.Machine.execHomeAccessPerform id err s
  | .sectorFill die line err => Sys2Proof.Machine.execSectorFill die line err s
  | .missStatusAllocate id => Sys2Proof.Machine.execMissStatusAllocate id s
  | .loadReturn id back => Sys2Proof.Machine.execLoadReturn id back s
  | .hodDrain core entry => Sys2Proof.Machine.execHodDrain core entry s
  | .hodAgeLimit core entry => Sys2Proof.Machine.execHodAgeLimit core entry s
  | .phaseComplete core course => Sys2Proof.Machine.execPhaseComplete core course s
  | .fenceComplete core course => Sys2Proof.Machine.execFenceComplete core course s
  | .releaseStoreProceed id => Sys2Proof.Machine.execReleaseStoreProceed id s
  | .waitnComplete core course => Sys2Proof.Machine.execWaitnComplete core course s
  | .icinvComplete core course => Sys2Proof.Machine.execIcinvComplete core course s
  | .fetchbComplete core course => Sys2Proof.Machine.execFetchbComplete core course s
  | .cresizeComplete die => Sys2Proof.Machine.execCresizeComplete die s
  | .migrationStart die => Sys2Proof.Machine.execMigrationStart die s
  | .migrationDeparture die frame => Sys2Proof.Machine.execMigrationDeparture die frame s
  | .remotePacketArrival rank die seq pred pa bytes op seen => Sys2Proof.Machine.execRemotePacketArrival rank die seq pred pa bytes op seen s
  | .acknowledgementArrival die dest seq mark back tag => Sys2Proof.Machine.execAcknowledgementArrival die dest seq mark back tag s
  | .closedVectorUpdate core dest => Sys2Proof.Machine.execClosedVectorUpdate core dest s
  | .refusalArrival die dest seq id => Sys2Proof.Machine.execRefusalArrival die dest seq id s
  | .restartRefusal die dest => Sys2Proof.Machine.execRestartRefusal die dest s
  | .retransmission die dest seq id => Sys2Proof.Machine.execRetransmission die dest seq id s
  | .destinationLost die dest => Sys2Proof.Machine.execDestinationLost die dest s
  | .allowanceCollapse die dest => Sys2Proof.Machine.execAllowanceCollapse die dest s
  | .expressStarvationToken router out => Sys2Proof.Machine.execExpressStarvationToken router out s
  | .tierStarvationGrant port tier => Sys2Proof.Machine.execTierStarvationGrant port tier s
  | .linkTraining port dest fast => Sys2Proof.Machine.execLinkTraining port dest fast s
  | .flitCrcReplay link ok => Sys2Proof.Machine.execFlitCrcReplay link ok s
  | .linkRetrain link ok fast => Sys2Proof.Machine.execLinkRetrain link ok fast s
  | .portUp port => Sys2Proof.Machine.execPortUp port s
  | .ringCheck rank ring => Sys2Proof.Machine.execRingCheck rank ring s
  | .ringCheckAnswer ring prev => Sys2Proof.Machine.execRingCheckAnswer ring prev s
  | .ringSetupTimeout ring => Sys2Proof.Machine.execRingSetupTimeout ring s
  | .chunkStart core how cid index => Sys2Proof.Machine.execChunkStart core how cid index s
  | .partialArrival ring cid index dtype cop bytes vals ranks refused => Sys2Proof.Machine.execPartialArrival ring cid index dtype cop bytes vals ranks refused s
  | .resultArrival ring cid index dtype cop bytes vals ranks refused => Sys2Proof.Machine.execResultArrival ring cid index dtype cop bytes vals ranks refused s
  | .throttleRequest rank die step => Sys2Proof.Machine.execThrottleRequest rank die step s
  | .throttleStepUp => Sys2Proof.Machine.execThrottleStepUp s
  | .hostLinkBringup => Sys2Proof.Machine.execHostLinkBringup s
  | .launch m idx tag z addr => Sys2Proof.Machine.execLaunch m idx tag z addr s
  | .release m idx tag z graph node => Sys2Proof.Machine.execRelease m idx tag z graph node s
  | .writeMemory m idx tag z addr len data refused => Sys2Proof.Machine.execWriteMemory m idx tag z addr len data refused s
  | .readMemory m idx tag z addr len val refused => Sys2Proof.Machine.execReadMemory m idx tag z addr len val refused s
  | .queueControl m idx tag z unit queue value => Sys2Proof.Machine.execQueueControl m idx tag z unit queue value s
  | .routeEntry m idx tag z dest entry => Sys2Proof.Machine.execRouteEntry m idx tag z dest entry s
  | .ringSetup m idx tag z ring addr far => Sys2Proof.Machine.execRingSetup m idx tag z ring addr far s
  | .bindResult m idx tag z base index state fail target => Sys2Proof.Machine.execBindResult m idx tag z base index state fail target s
  | .trapResume m idx tag z die core course action => Sys2Proof.Machine.execTrapResume m idx tag z die core course action s
  | .codeTable m idx tag z base count => Sys2Proof.Machine.execCodeTable m idx tag z base count s
  | .attest m idx tag z addr => Sys2Proof.Machine.execAttest m idx tag z addr s
  | .ringBind m idx tag z ring ctx root => Sys2Proof.Machine.execRingBind m idx tag z ring ctx root s
  | .syscallReply m call lo hi vals => Sys2Proof.Machine.execSyscallReply m call lo hi vals s
  | .mailboxMessage m core words => Sys2Proof.Machine.execMailboxMessage m core words s
  | .pageMessage m ctx va bytes => Sys2Proof.Machine.execPageMessage m ctx va bytes s
  | .ownMessage m ctx va own => Sys2Proof.Machine.execOwnMessage m ctx va own s
  | .nak m first => Sys2Proof.Machine.execNak m first s
  | .resync m accepted sent oldest => Sys2Proof.Machine.execResync m accepted sent oldest s
  | .resyncReply m accepted sent oldest => Sys2Proof.Machine.execResyncReply m accepted sent oldest s
  | .keepalive m => Sys2Proof.Machine.execKeepalive m s
  | .hostRetransmit => Sys2Proof.Machine.execHostRetransmit s
  | .hostLinkLost => Sys2Proof.Machine.execHostLinkLost s
  | .codeTableEntryJump => Sys2Proof.Machine.execCodeTableEntryJump s
  | .hardwareBind ctx base index => Sys2Proof.Machine.execHardwareBind ctx base index s
  | .dbgctlHalt core course => Sys2Proof.Machine.execDbgctlHalt core course s
  | .dbgctlUnhalt core course => Sys2Proof.Machine.execDbgctlUnhalt core course s
  | .dbgctlStep core course => Sys2Proof.Machine.execDbgctlStep core course s
  | .ilenWrite core v => Sys2Proof.Machine.execIlenWrite core v s
  | .mailboxSend => Sys2Proof.Machine.execMailboxSend s
  | .dutyWrite die v => Sys2Proof.Machine.execDutyWrite die v s
  | .registerWrite r v => Sys2Proof.Machine.execRegisterWrite r v s
  | .boot cert owner fw fw2 cfg => Sys2Proof.Machine.execBoot cert owner fw fw2 cfg s
  | .sensorSample n x => Sys2Proof.Machine.execSensorSample n x s
  | .throttleRepeat die event => Sys2Proof.Machine.execThrottleRepeat die event s
  | .refreshBandEvaluation stack => Sys2Proof.Machine.execRefreshBandEvaluation stack s
  | .telemetryRecord => Sys2Proof.Machine.execTelemetryRecord s
  | .thermalTrip cause => Sys2Proof.Machine.execThermalTrip cause s
  | .moduleReboot => Sys2Proof.Machine.execModuleReboot s
  | .scrub die l err => Sys2Proof.Machine.execScrub die l err s
  | .movC x => Sys2Proof.Machine.execMovC x s
  | .iaddC x => Sys2Proof.Machine.execIaddC x s
  | .isubC x => Sys2Proof.Machine.execIsubC x s
  | .imulC x => Sys2Proof.Machine.execImulC x s
  | .andC x => Sys2Proof.Machine.execAndC x s
  | .orC x => Sys2Proof.Machine.execOrC x s
  | .xorC x => Sys2Proof.Machine.execXorC x s
  | .shlC x => Sys2Proof.Machine.execShlC x s
  | .shrNC x => Sys2Proof.Machine.execShrNC x s
  | .shrIC x => Sys2Proof.Machine.execShrIC x s
  | .faddC x => Sys2Proof.Machine.execFaddC x s
  | .fsubC x => Sys2Proof.Machine.execFsubC x s
  | .fmulC x => Sys2Proof.Machine.execFmulC x s
  | .fmaxC x => Sys2Proof.Machine.execFmaxC x s
  | .fminC x => Sys2Proof.Machine.execFminC x s
  | .iaddi5C x => Sys2Proof.Machine.execIaddi5C x s
  | .nopC => Sys2Proof.Machine.execNopC s
  | .iadd x => Sys2Proof.Machine.execIadd x s
  | .iaddL x => Sys2Proof.Machine.execIaddL x s
  | .isub x => Sys2Proof.Machine.execIsub x s
  | .isubL x => Sys2Proof.Machine.execIsubL x s
  | .imul x => Sys2Proof.Machine.execImul x s
  | .imulL x => Sys2Proof.Machine.execImulL x s
  | .imulhI x => Sys2Proof.Machine.execImulhI x s
  | .imulhIL x => Sys2Proof.Machine.execImulhIL x s
  | .imulhN x => Sys2Proof.Machine.execImulhN x s
  | .imulhNL x => Sys2Proof.Machine.execImulhNL x s
  | .imac x => Sys2Proof.Machine.execImac x s
  | .imacL x => Sys2Proof.Machine.execImacL x s
  | .iminI x => Sys2Proof.Machine.execIminI x s
  | .iminIL x => Sys2Proof.Machine.execIminIL x s
  | .iminN x => Sys2Proof.Machine.execIminN x s
  | .iminNL x => Sys2Proof.Machine.execIminNL x s
  | .imaxI x => Sys2Proof.Machine.execImaxI x s
  | .imaxIL x => Sys2Proof.Machine.execImaxIL x s
  | .imaxN x => Sys2Proof.Machine.execImaxN x s
  | .imaxNL x => Sys2Proof.Machine.execImaxNL x s
  | .iabsd x => Sys2Proof.Machine.execIabsd x s
  | .iabsdL x => Sys2Proof.Machine.execIabsdL x s
  | .and x => Sys2Proof.Machine.execAnd x s
  | .andL x => Sys2Proof.Machine.execAndL x s
  | .or x => Sys2Proof.Machine.execOr x s
  | .orL x => Sys2Proof.Machine.execOrL x s
  | .xor x => Sys2Proof.Machine.execXor x s
  | .xorL x => Sys2Proof.Machine.execXorL x s
  | .andn x => Sys2Proof.Machine.execAndn x s
  | .andnL x => Sys2Proof.Machine.execAndnL x s
  | .mov x => Sys2Proof.Machine.execMov x s
  | .movL x => Sys2Proof.Machine.execMovL x s
  | .shl x => Sys2Proof.Machine.execShl x s
  | .shlL x => Sys2Proof.Machine.execShlL x s
  | .shrN x => Sys2Proof.Machine.execShrN x s
  | .shrNL x => Sys2Proof.Machine.execShrNL x s
  | .shrI x => Sys2Proof.Machine.execShrI x s
  | .shrIL x => Sys2Proof.Machine.execShrIL x s
  | .clz x => Sys2Proof.Machine.execClz x s
  | .clzL x => Sys2Proof.Machine.execClzL x s
  | .popc x => Sys2Proof.Machine.execPopc x s
  | .popcL x => Sys2Proof.Machine.execPopcL x s
  | .bfxN x => Sys2Proof.Machine.execBfxN x s
  | .bfxNL x => Sys2Proof.Machine.execBfxNL x s
  | .bfxI x => Sys2Proof.Machine.execBfxI x s
  | .bfxIL x => Sys2Proof.Machine.execBfxIL x s
  | .bfi x => Sys2Proof.Machine.execBfi x s
  | .bfiL x => Sys2Proof.Machine.execBfiL x s
  | .perm x => Sys2Proof.Machine.execPerm x s
  | .permL x => Sys2Proof.Machine.execPermL x s
  | .icmpEq x => Sys2Proof.Machine.execIcmpEq x s
  | .icmpEqL x => Sys2Proof.Machine.execIcmpEqL x s
  | .icmpNe x => Sys2Proof.Machine.execIcmpNe x s
  | .icmpNeL x => Sys2Proof.Machine.execIcmpNeL x s
  | .icmpLtI x => Sys2Proof.Machine.execIcmpLtI x s
  | .icmpLtIL x => Sys2Proof.Machine.execIcmpLtIL x s
  | .icmpLeI x => Sys2Proof.Machine.execIcmpLeI x s
  | .icmpLeIL x => Sys2Proof.Machine.execIcmpLeIL x s
  | .icmpLtN x => Sys2Proof.Machine.execIcmpLtN x s
  | .icmpLtNL x => Sys2Proof.Machine.execIcmpLtNL x s
  | .icmpLeN x => Sys2Proof.Machine.execIcmpLeN x s
  | .icmpLeNL x => Sys2Proof.Machine.execIcmpLeNL x s
  | .qlopAnd x => Sys2Proof.Machine.execQlopAnd x s
  | .qlopOr x => Sys2Proof.Machine.execQlopOr x s
  | .qlopXor x => Sys2Proof.Machine.execQlopXor x s
  | .qlopAndn x => Sys2Proof.Machine.execQlopAndn x s
  | .ladd x => Sys2Proof.Machine.execLadd x s
  | .laddL x => Sys2Proof.Machine.execLaddL x s
  | .lsub x => Sys2Proof.Machine.execLsub x s
  | .lsubL x => Sys2Proof.Machine.execLsubL x s
  | .lmul x => Sys2Proof.Machine.execLmul x s
  | .lmulL x => Sys2Proof.Machine.execLmulL x s
  | .lmac x => Sys2Proof.Machine.execLmac x s
  | .lmacL x => Sys2Proof.Machine.execLmacL x s
  | .lshl x => Sys2Proof.Machine.execLshl x s
  | .lshlL x => Sys2Proof.Machine.execLshlL x s
  | .lshrN x => Sys2Proof.Machine.execLshrN x s
  | .lshrNL x => Sys2Proof.Machine.execLshrNL x s
  | .lshrI x => Sys2Proof.Machine.execLshrI x s
  | .lshrIL x => Sys2Proof.Machine.execLshrIL x s
  | .lextI x => Sys2Proof.Machine.execLextI x s
  | .lextIL x => Sys2Proof.Machine.execLextIL x s
  | .lextN x => Sys2Proof.Machine.execLextN x s
  | .lextNL x => Sys2Proof.Machine.execLextNL x s
  | .lcmpEq x => Sys2Proof.Machine.execLcmpEq x s
  | .lcmpEqL x => Sys2Proof.Machine.execLcmpEqL x s
  | .lcmpNe x => Sys2Proof.Machine.execLcmpNe x s
  | .lcmpNeL x => Sys2Proof.Machine.execLcmpNeL x s
  | .lcmpLtI x => Sys2Proof.Machine.execLcmpLtI x s
  | .lcmpLtIL x => Sys2Proof.Machine.execLcmpLtIL x s
  | .lcmpLtN x => Sys2Proof.Machine.execLcmpLtN x s
  | .lcmpLtNL x => Sys2Proof.Machine.execLcmpLtNL x s
  | .lea2 x => Sys2Proof.Machine.execLea2 x s
  | .lea2L x => Sys2Proof.Machine.execLea2L x s
  | .lea3 x => Sys2Proof.Machine.execLea3 x s
  | .lea3L x => Sys2Proof.Machine.execLea3L x s
  | .lea4 x => Sys2Proof.Machine.execLea4 x s
  | .lea4L x => Sys2Proof.Machine.execLea4L x s
  | .fadd x => Sys2Proof.Machine.execFadd x s
  | .faddL x => Sys2Proof.Machine.execFaddL x s
  | .fsub x => Sys2Proof.Machine.execFsub x s
  | .fsubL x => Sys2Proof.Machine.execFsubL x s
  | .fmul x => Sys2Proof.Machine.execFmul x s
  | .fmulL x => Sys2Proof.Machine.execFmulL x s
  | .ffma x => Sys2Proof.Machine.execFfma x s
  | .ffmaL x => Sys2Proof.Machine.execFfmaL x s
  | .fmin x => Sys2Proof.Machine.execFmin x s
  | .fminL x => Sys2Proof.Machine.execFminL x s
  | .fmax x => Sys2Proof.Machine.execFmax x s
  | .fmaxL x => Sys2Proof.Machine.execFmaxL x s
  | .fcmpEq x => Sys2Proof.Machine.execFcmpEq x s
  | .fcmpEqL x => Sys2Proof.Machine.execFcmpEqL x s
  | .fcmpNe x => Sys2Proof.Machine.execFcmpNe x s
  | .fcmpNeL x => Sys2Proof.Machine.execFcmpNeL x s
  | .fcmpLt x => Sys2Proof.Machine.execFcmpLt x s
  | .fcmpLtL x => Sys2Proof.Machine.execFcmpLtL x s
  | .fcmpLe x => Sys2Proof.Machine.execFcmpLe x s
  | .fcmpLeL x => Sys2Proof.Machine.execFcmpLeL x s
  | .fsfu x => Sys2Proof.Machine.execFsfu x s
  | .fsfuL x => Sys2Proof.Machine.execFsfuL x s
  | .hadd2F16 x => Sys2Proof.Machine.execHadd2F16 x s
  | .hadd2F16L x => Sys2Proof.Machine.execHadd2F16L x s
  | .hmul2F16 x => Sys2Proof.Machine.execHmul2F16 x s
  | .hmul2F16L x => Sys2Proof.Machine.execHmul2F16L x s
  | .hfma2F16 x => Sys2Proof.Machine.execHfma2F16 x s
  | .hfma2F16L x => Sys2Proof.Machine.execHfma2F16L x s
  | .hfma2Bf16 x => Sys2Proof.Machine.execHfma2Bf16 x s
  | .hfma2Bf16L x => Sys2Proof.Machine.execHfma2Bf16L x s
  | .hadd2Bf16 x => Sys2Proof.Machine.execHadd2Bf16 x s
  | .hadd2Bf16L x => Sys2Proof.Machine.execHadd2Bf16L x s
  | .cvt x => Sys2Proof.Machine.execCvt x s
  | .cvtL x => Sys2Proof.Machine.execCvtL x s
  | .cvtp x => Sys2Proof.Machine.execCvtp x s
  | .cvtpL x => Sys2Proof.Machine.execCvtpL x s
  | .iaddi x => Sys2Proof.Machine.execIaddi x s
  | .iaddiL x => Sys2Proof.Machine.execIaddiL x s
  | .andi x => Sys2Proof.Machine.execAndi x s
  | .andiL x => Sys2Proof.Machine.execAndiL x s
  | .ori x => Sys2Proof.Machine.execOri x s
  | .oriL x => Sys2Proof.Machine.execOriL x s
  | .xori x => Sys2Proof.Machine.execXori x s
  | .xoriL x => Sys2Proof.Machine.execXoriL x s
  | .shli x => Sys2Proof.Machine.execShli x s
  | .shliL x => Sys2Proof.Machine.execShliL x s
  | .shriN x => Sys2Proof.Machine.execShriN x s
  | .shriNL x => Sys2Proof.Machine.execShriNL x s
  | .shriI x => Sys2Proof.Machine.execShriI x s
  | .shriIL x => Sys2Proof.Machine.execShriIL x s
  | .movi x => Sys2Proof.Machine.execMovi x s
  | .moviL x => Sys2Proof.Machine.execMoviL x s
  | .movhi x => Sys2Proof.Machine.execMovhi x s
  | .movhiL x => Sys2Proof.Machine.execMovhiL x s
  | .icmpiEq x => Sys2Proof.Machine.execIcmpiEq x s
  | .icmpiEqL x => Sys2Proof.Machine.execIcmpiEqL x s
  | .icmpiLtI x => Sys2Proof.Machine.execIcmpiLtI x s
  | .icmpiLtIL x => Sys2Proof.Machine.execIcmpiLtIL x s
  | .fmovi x => Sys2Proof.Machine.execFmovi x s
  | .fmoviL x => Sys2Proof.Machine.execFmoviL x s
  | .ld x => Sys2Proof.Machine.execLd x s
  | .ldL x => Sys2Proof.Machine.execLdL x s
  | .st x => Sys2Proof.Machine.execSt x s
  | .stL x => Sys2Proof.Machine.execStL x s
  | .atomAdd x => Sys2Proof.Machine.execAtomAdd x s
  | .atomAddL x => Sys2Proof.Machine.execAtomAddL x s
  | .atomFadd x => Sys2Proof.Machine.execAtomFadd x s
  | .atomFaddL x => Sys2Proof.Machine.execAtomFaddL x s
  | .atomMin x => Sys2Proof.Machine.execAtomMin x s
  | .atomMinL x => Sys2Proof.Machine.execAtomMinL x s
  | .atomMax x => Sys2Proof.Machine.execAtomMax x s
  | .atomMaxL x => Sys2Proof.Machine.execAtomMaxL x s
  | .atomAnd x => Sys2Proof.Machine.execAtomAnd x s
  | .atomAndL x => Sys2Proof.Machine.execAtomAndL x s
  | .atomOr x => Sys2Proof.Machine.execAtomOr x s
  | .atomOrL x => Sys2Proof.Machine.execAtomOrL x s
  | .atomXor x => Sys2Proof.Machine.execAtomXor x s
  | .atomXorL x => Sys2Proof.Machine.execAtomXorL x s
  | .atomExch x => Sys2Proof.Machine.execAtomExch x s
  | .atomExchL x => Sys2Proof.Machine.execAtomExchL x s
  | .atomCas x => Sys2Proof.Machine.execAtomCas x s
  | .atomCasL x => Sys2Proof.Machine.execAtomCasL x s
  | .fenceFull x => Sys2Proof.Machine.execFenceFull x s
  | .fenceAcq x => Sys2Proof.Machine.execFenceAcq x s
  | .fenceRel x => Sys2Proof.Machine.execFenceRel x s
  | .fenceWack x => Sys2Proof.Machine.execFenceWack x s
  | .phase x => Sys2Proof.Machine.execPhase x s
  | .fetchb x => Sys2Proof.Machine.execFetchb x s
  | .copInv x => Sys2Proof.Machine.execCopInv x s
  | .copInvL x => Sys2Proof.Machine.execCopInvL x s
  | .copWb x => Sys2Proof.Machine.execCopWb x s
  | .copWbL x => Sys2Proof.Machine.execCopWbL x s
  | .copWbi x => Sys2Proof.Machine.execCopWbi x s
  | .copWbiL x => Sys2Proof.Machine.execCopWbiL x s
  | .bra x => Sys2Proof.Machine.execBra x s
  | .braL x => Sys2Proof.Machine.execBraL x s
  | .brx x => Sys2Proof.Machine.execBrx x s
  | .brxL x => Sys2Proof.Machine.execBrxL x s
  | .call x => Sys2Proof.Machine.execCall x s
  | .callL x => Sys2Proof.Machine.execCallL x s
  | .callx x => Sys2Proof.Machine.execCallx x s
  | .callxL x => Sys2Proof.Machine.execCallxL x s
  | .ret x => Sys2Proof.Machine.execRet x s
  | .exit x => Sys2Proof.Machine.execExit x s
  | .loop x => Sys2Proof.Machine.execLoop x s
  | .loopL x => Sys2Proof.Machine.execLoopL x s
  | .brk x => Sys2Proof.Machine.execBrk x s
  | .lcfg x => Sys2Proof.Machine.execLcfg x s
  | .cnv x => Sys2Proof.Machine.execCnv x s
  | .cnvMask x => Sys2Proof.Machine.execCnvMask x s
  | .bar x => Sys2Proof.Machine.execBar x s
  | .trap x => Sys2Proof.Machine.execTrap x s
  | .sysc x => Sys2Proof.Machine.execSysc x s
  | .bkpt x => Sys2Proof.Machine.execBkpt x s
  | .balw x => Sys2Proof.Machine.execBalw x s
  | .yield x => Sys2Proof.Machine.execYield x s
  | .mapset x => Sys2Proof.Machine.execMapset x s
  | .mapchn x => Sys2Proof.Machine.execMapchn x s
  | .mapprt x => Sys2Proof.Machine.execMapprt x s
  | .maptrn x => Sys2Proof.Machine.execMaptrn x s
  | .mapflt x => Sys2Proof.Machine.execMapflt x s
  | .mapchk x => Sys2Proof.Machine.execMapchk x s
  | .bankq x => Sys2Proof.Machine.execBankq x s
  | .hset x => Sys2Proof.Machine.execHset x s
  | .tcpy x => Sys2Proof.Machine.execTcpy x s
  | .tmma x => Sys2Proof.Machine.execTmma x s
  | .tgat x => Sys2Proof.Machine.execTgat x s
  | .tcol x => Sys2Proof.Machine.execTcol x s
  | .tld x => Sys2Proof.Machine.execTld x s
  | .tst x => Sys2Proof.Machine.execTst x s
  | .accZero x => Sys2Proof.Machine.execAccZero x s
  | .accZeroL x => Sys2Proof.Machine.execAccZeroL x s
  | .accSetexp x => Sys2Proof.Machine.execAccSetexp x s
  | .accSetexpL x => Sys2Proof.Machine.execAccSetexpL x s
  | .accRdrow x => Sys2Proof.Machine.execAccRdrow x s
  | .accRdrowL x => Sys2Proof.Machine.execAccRdrowL x s
  | .accWrrow x => Sys2Proof.Machine.execAccWrrow x s
  | .accWrrowL x => Sys2Proof.Machine.execAccWrrowL x s
  | .accClrst x => Sys2Proof.Machine.execAccClrst x s
  | .accClrstL x => Sys2Proof.Machine.execAccClrstL x s
  | .nop x => Sys2Proof.Machine.execNop x s
  | .nopL x => Sys2Proof.Machine.execNopL x s
  | .idivI x => Sys2Proof.Machine.execIdivI x s
  | .idivIL x => Sys2Proof.Machine.execIdivIL x s
  | .idivN x => Sys2Proof.Machine.execIdivN x s
  | .idivNL x => Sys2Proof.Machine.execIdivNL x s
  | .iremI x => Sys2Proof.Machine.execIremI x s
  | .iremIL x => Sys2Proof.Machine.execIremIL x s
  | .iremN x => Sys2Proof.Machine.execIremN x s
  | .iremNL x => Sys2Proof.Machine.execIremNL x s
  | .rotl x => Sys2Proof.Machine.execRotl x s
  | .rotlL x => Sys2Proof.Machine.execRotlL x s
  | .brev x => Sys2Proof.Machine.execBrev x s
  | .brevL x => Sys2Proof.Machine.execBrevL x s
  | .fcmpOrd x => Sys2Proof.Machine.execFcmpOrd x s
  | .fcmpOrdL x => Sys2Proof.Machine.execFcmpOrdL x s
  | .fcmpUnord x => Sys2Proof.Machine.execFcmpUnord x s
  | .fcmpUnordL x => Sys2Proof.Machine.execFcmpUnordL x s
  | .fclass x => Sys2Proof.Machine.execFclass x s
  | .fclassL x => Sys2Proof.Machine.execFclassL x s
  | .frnd x => Sys2Proof.Machine.execFrnd x s
  | .frndL x => Sys2Proof.Machine.execFrndL x s
  | .fexp x => Sys2Proof.Machine.execFexp x s
  | .fexpL x => Sys2Proof.Machine.execFexpL x s
  | .q2v x => Sys2Proof.Machine.execQ2v x s
  | .q2vL x => Sys2Proof.Machine.execQ2vL x s
  | .v2q x => Sys2Proof.Machine.execV2q x s
  | .v2qL x => Sys2Proof.Machine.execV2qL x s
  | .qpop x => Sys2Proof.Machine.execQpop x s
  | .qpopL x => Sys2Proof.Machine.execQpopL x s
  | .pfirst x => Sys2Proof.Machine.execPfirst x s
  | .pfirstL x => Sys2Proof.Machine.execPfirstL x s
  | .pany x => Sys2Proof.Machine.execPany x s
  | .panyL x => Sys2Proof.Machine.execPanyL x s
  | .pall x => Sys2Proof.Machine.execPall x s
  | .pallL x => Sys2Proof.Machine.execPallL x s
  | .pmask x => Sys2Proof.Machine.execPmask x s
  | .pmaskL x => Sys2Proof.Machine.execPmaskL x s
  | .xgetAt x => Sys2Proof.Machine.execXgetAt x s
  | .xgetAtL x => Sys2Proof.Machine.execXgetAtL x s
  | .xgetFlip x => Sys2Proof.Machine.execXgetFlip x s
  | .xgetFlipL x => Sys2Proof.Machine.execXgetFlipL x s
  | .xgetStep x => Sys2Proof.Machine.execXgetStep x s
  | .xgetStepL x => Sys2Proof.Machine.execXgetStepL x s
  | .xgetRot x => Sys2Proof.Machine.execXgetRot x s
  | .xgetRotL x => Sys2Proof.Machine.execXgetRotL x s
  | .cnvq x => Sys2Proof.Machine.execCnvq x s
  | .cnvqL x => Sys2Proof.Machine.execCnvqL x s
  | .waitn x => Sys2Proof.Machine.execWaitn x s
  | .waitnL x => Sys2Proof.Machine.execWaitnL x s
  | .setg x => Sys2Proof.Machine.execSetg x s
  | .setgL x => Sys2Proof.Machine.execSetgL x s
  | .clrg x => Sys2Proof.Machine.execClrg x s
  | .clrgL x => Sys2Proof.Machine.execClrgL x s
  | .alw x => Sys2Proof.Machine.execAlw x s
  | .alwL x => Sys2Proof.Machine.execAlwL x s
  | .mapget x => Sys2Proof.Machine.execMapget x s
  | .mapgetL x => Sys2Proof.Machine.execMapgetL x s
  | .mapput x => Sys2Proof.Machine.execMapput x s
  | .mapputL x => Sys2Proof.Machine.execMapputL x s
  | .hget x => Sys2Proof.Machine.execHget x s
  | .hgetL x => Sys2Proof.Machine.execHgetL x s
  | .lget x => Sys2Proof.Machine.execLget x s
  | .lgetL x => Sys2Proof.Machine.execLgetL x s
  | .lput x => Sys2Proof.Machine.execLput x s
  | .lputL x => Sys2Proof.Machine.execLputL x s
  | .csrr x => Sys2Proof.Machine.execCsrr x s
  | .csrrL x => Sys2Proof.Machine.execCsrrL x s
  | .csrw x => Sys2Proof.Machine.execCsrw x s
  | .csrwL x => Sys2Proof.Machine.execCsrwL x s
  | .csrs x => Sys2Proof.Machine.execCsrs x s
  | .csrsL x => Sys2Proof.Machine.execCsrsL x s
  | .csrc x => Sys2Proof.Machine.execCsrc x s
  | .csrcL x => Sys2Proof.Machine.execCsrcL x s
  | .tret x => Sys2Proof.Machine.execTret x s
  | .tretL x => Sys2Proof.Machine.execTretL x s
  | .halt x => Sys2Proof.Machine.execHalt x s
  | .haltL x => Sys2Proof.Machine.execHaltL x s
  | .icinv x => Sys2Proof.Machine.execIcinv x s
  | .icinvL x => Sys2Proof.Machine.execIcinvL x s
  | .tlbinvPage x => Sys2Proof.Machine.execTlbinvPage x s
  | .tlbinvPageL x => Sys2Proof.Machine.execTlbinvPageL x s
  | .tlbinvCtx x => Sys2Proof.Machine.execTlbinvCtx x s
  | .tlbinvAll x => Sys2Proof.Machine.execTlbinvAll x s
  | .tlbprobe x => Sys2Proof.Machine.execTlbprobe x s
  | .tlbprobeL x => Sys2Proof.Machine.execTlbprobeL x s
  | .cresize x => Sys2Proof.Machine.execCresize x s
  | .cresizeL x => Sys2Proof.Machine.execCresizeL x s
  | .migDev x => Sys2Proof.Machine.execMigDev x s
  | .migDevL x => Sys2Proof.Machine.execMigDevL x s
  | .migHost x => Sys2Proof.Machine.execMigHost x s
  | .pf x => Sys2Proof.Machine.execPf x s
  | .pfL x => Sys2Proof.Machine.execPfL x s
  | .tspawn x => Sys2Proof.Machine.execTspawn x s
  | .tspawnL x => Sys2Proof.Machine.execTspawnL x s
  | .tsig x => Sys2Proof.Machine.execTsig x s
  | .tsigL x => Sys2Proof.Machine.execTsigL x s
  | .evpost x => Sys2Proof.Machine.execEvpost x s
  | .evpostL x => Sys2Proof.Machine.execEvpostL x s
  | .evget x => Sys2Proof.Machine.execEvget x s
  | .evgetL x => Sys2Proof.Machine.execEvgetL x s
  | .dbgmb x => Sys2Proof.Machine.execDbgmb x s
  | .dbgmbL x => Sys2Proof.Machine.execDbgmbL x s
  | .dbgrd x => Sys2Proof.Machine.execDbgrd x s
  | .dbgrdL x => Sys2Proof.Machine.execDbgrdL x s
  | .wpset x => Sys2Proof.Machine.execWpset x s
  | .wpsetL x => Sys2Proof.Machine.execWpsetL x s
  | .hostMigrationRequest m ctx va => Sys2Proof.Machine.execHostMigrationRequest m ctx va s
  | .restartAnnouncement rank die => Sys2Proof.Machine.execRestartAnnouncement rank die s
  | .partialCreditReturn ring => Sys2Proof.Machine.execPartialCreditReturn ring s
  | .walkComplete core turn => Sys2Proof.Machine.execWalkComplete core turn s
  | .divideResult id => Sys2Proof.Machine.execDivideResult id s
  | .chunkPeerLostTimeout cid peer => Sys2Proof.Machine.execChunkPeerLostTimeout cid peer s

end Sys2Proof.Machine
end

