-- ==== Sys2Proof/Machine/Run.lean ====
section
/-! DEFINITION. Running the bits at the program counter: the decoder, then the dispatch. The runtime gives no tag to
so many constructors, so the compiled form `runFast` goes from the encoding to the meaning without building the
instruction; `run_eq_fast` proves the two equal. -/

namespace Sys2Proof.Machine

/-- A decoding trap: raised whatever the guards, in the lowest-numbered thread (R187, R386); a selector of 19 to 31 of `lget` or
`lput` is one. (log 140: DEDUCED, unsafe.) -/
def decodeTrap (e : DecodeError) (w : Nat) (s : State) : Outcome :=
  s.withGroup fun G =>
    s.trapNow G
      { code := (match e with | .illegal => 0x01 | .reservedGuard => 0x02)
        sub := (match e with | .illegal => 0 | .reservedGuard => w / 16 % 16)
        ipc := G.g.pc, tmask := 2 ^ G.lowest }

/-- The meaning of bits: the instruction they decode to, or the trap of R187. -/
noncomputable def run (x : Nat) (s : State) : Outcome :=
  match decodeBits x with
  | .ok i => exec i s
  | .error e => decodeTrap e x s

/-- The meaning of an encoding on its words. -/
def runOp (o : Op) (w v : Nat) (s : State) : Outcome :=
  match o with
  | .movC => execMovC (unCReg w) s
  | .iaddC => execIaddC (unCReg w) s
  | .isubC => execIsubC (unCReg w) s
  | .imulC => execImulC (unCReg w) s
  | .andC => execAndC (unCReg w) s
  | .orC => execOrC (unCReg w) s
  | .xorC => execXorC (unCReg w) s
  | .shlC => execShlC (unCReg w) s
  | .shrNC => execShrNC (unCReg w) s
  | .shrIC => execShrIC (unCReg w) s
  | .faddC => execFaddC (unCReg w) s
  | .fsubC => execFsubC (unCReg w) s
  | .fmulC => execFmulC (unCReg w) s
  | .fmaxC => execFmaxC (unCReg w) s
  | .fminC => execFminC (unCReg w) s
  | .iaddi5C => execIaddi5C (unCImm w) s
  | .nopC => execNopC s
  | .iadd => execIadd (unR3 w) s
  | .iaddL => execIaddL ⟨unR3 w, unModifier v⟩ s
  | .isub => execIsub (unR3 w) s
  | .isubL => execIsubL ⟨unR3 w, unModifier v⟩ s
  | .imul => execImul (unR3 w) s
  | .imulL => execImulL ⟨unR3 w, unModifier v⟩ s
  | .imulhI => execImulhI (unR3 w) s
  | .imulhIL => execImulhIL ⟨unR3 w, unModifier v⟩ s
  | .imulhN => execImulhN (unR3 w) s
  | .imulhNL => execImulhNL ⟨unR3 w, unModifier v⟩ s
  | .imac => execImac (unR3 w) s
  | .imacL => execImacL ⟨unR3 w, unModifier v⟩ s
  | .iminI => execIminI (unR3 w) s
  | .iminIL => execIminIL ⟨unR3 w, unModifier v⟩ s
  | .iminN => execIminN (unR3 w) s
  | .iminNL => execIminNL ⟨unR3 w, unModifier v⟩ s
  | .imaxI => execImaxI (unR3 w) s
  | .imaxIL => execImaxIL ⟨unR3 w, unModifier v⟩ s
  | .imaxN => execImaxN (unR3 w) s
  | .imaxNL => execImaxNL ⟨unR3 w, unModifier v⟩ s
  | .iabsd => execIabsd (unR3 w) s
  | .iabsdL => execIabsdL ⟨unR3 w, unModifier v⟩ s
  | .and => execAnd (unR3 w) s
  | .andL => execAndL ⟨unR3 w, unModifier v⟩ s
  | .or => execOr (unR3 w) s
  | .orL => execOrL ⟨unR3 w, unModifier v⟩ s
  | .xor => execXor (unR3 w) s
  | .xorL => execXorL ⟨unR3 w, unModifier v⟩ s
  | .andn => execAndn (unR3 w) s
  | .andnL => execAndnL ⟨unR3 w, unModifier v⟩ s
  | .mov => execMov (unR1 w) s
  | .movL => execMovL ⟨unR1 w, unModifier v⟩ s
  | .shl => execShl (unR3 w) s
  | .shlL => execShlL ⟨unR3 w, unModifier v⟩ s
  | .shrN => execShrN (unR3 w) s
  | .shrNL => execShrNL ⟨unR3 w, unModifier v⟩ s
  | .shrI => execShrI (unR3 w) s
  | .shrIL => execShrIL ⟨unR3 w, unModifier v⟩ s
  | .clz => execClz (unR1 w) s
  | .clzL => execClzL ⟨unR1 w, unModifier v⟩ s
  | .popc => execPopc (unR1 w) s
  | .popcL => execPopcL ⟨unR1 w, unModifier v⟩ s
  | .bfxN => execBfxN (unR3 w) s
  | .bfxNL => execBfxNL ⟨unR3 w, unModifier v⟩ s
  | .bfxI => execBfxI (unR3 w) s
  | .bfxIL => execBfxIL ⟨unR3 w, unModifier v⟩ s
  | .bfi => execBfi (unR3 w) s
  | .bfiL => execBfiL ⟨unR3 w, unModifier v⟩ s
  | .perm => execPerm (unR3 w) s
  | .permL => execPermL ⟨unR3 w, unModifier v⟩ s
  | .icmpEq => execIcmpEq (unR3 w) s
  | .icmpEqL => execIcmpEqL ⟨unR3 w, unModifier v⟩ s
  | .icmpNe => execIcmpNe (unR3 w) s
  | .icmpNeL => execIcmpNeL ⟨unR3 w, unModifier v⟩ s
  | .icmpLtI => execIcmpLtI (unR3 w) s
  | .icmpLtIL => execIcmpLtIL ⟨unR3 w, unModifier v⟩ s
  | .icmpLeI => execIcmpLeI (unR3 w) s
  | .icmpLeIL => execIcmpLeIL ⟨unR3 w, unModifier v⟩ s
  | .icmpLtN => execIcmpLtN (unR3 w) s
  | .icmpLtNL => execIcmpLtNL ⟨unR3 w, unModifier v⟩ s
  | .icmpLeN => execIcmpLeN (unR3 w) s
  | .icmpLeNL => execIcmpLeNL ⟨unR3 w, unModifier v⟩ s
  | .qlopAnd => execQlopAnd (unQl w) s
  | .qlopOr => execQlopOr (unQl w) s
  | .qlopXor => execQlopXor (unQl w) s
  | .qlopAndn => execQlopAndn (unQl w) s
  | .ladd => execLadd (unR3 w) s
  | .laddL => execLaddL ⟨unR3 w, unModifier v⟩ s
  | .lsub => execLsub (unR3 w) s
  | .lsubL => execLsubL ⟨unR3 w, unModifier v⟩ s
  | .lmul => execLmul (unR3 w) s
  | .lmulL => execLmulL ⟨unR3 w, unModifier v⟩ s
  | .lmac => execLmac (unR3 w) s
  | .lmacL => execLmacL ⟨unR3 w, unModifier v⟩ s
  | .lshl => execLshl (unR3 w) s
  | .lshlL => execLshlL ⟨unR3 w, unModifier v⟩ s
  | .lshrN => execLshrN (unR3 w) s
  | .lshrNL => execLshrNL ⟨unR3 w, unModifier v⟩ s
  | .lshrI => execLshrI (unR3 w) s
  | .lshrIL => execLshrIL ⟨unR3 w, unModifier v⟩ s
  | .lextI => execLextI (unR1 w) s
  | .lextIL => execLextIL ⟨unR1 w, unModifier v⟩ s
  | .lextN => execLextN (unR1 w) s
  | .lextNL => execLextNL ⟨unR1 w, unModifier v⟩ s
  | .lcmpEq => execLcmpEq (unR3 w) s
  | .lcmpEqL => execLcmpEqL ⟨unR3 w, unModifier v⟩ s
  | .lcmpNe => execLcmpNe (unR3 w) s
  | .lcmpNeL => execLcmpNeL ⟨unR3 w, unModifier v⟩ s
  | .lcmpLtI => execLcmpLtI (unR3 w) s
  | .lcmpLtIL => execLcmpLtIL ⟨unR3 w, unModifier v⟩ s
  | .lcmpLtN => execLcmpLtN (unR3 w) s
  | .lcmpLtNL => execLcmpLtNL ⟨unR3 w, unModifier v⟩ s
  | .lea2 => execLea2 (unR3 w) s
  | .lea2L => execLea2L ⟨unR3 w, unModifier v⟩ s
  | .lea3 => execLea3 (unR3 w) s
  | .lea3L => execLea3L ⟨unR3 w, unModifier v⟩ s
  | .lea4 => execLea4 (unR3 w) s
  | .lea4L => execLea4L ⟨unR3 w, unModifier v⟩ s
  | .fadd => execFadd (unR3 w) s
  | .faddL => execFaddL ⟨unR3 w, unModifier v⟩ s
  | .fsub => execFsub (unR3 w) s
  | .fsubL => execFsubL ⟨unR3 w, unModifier v⟩ s
  | .fmul => execFmul (unR3 w) s
  | .fmulL => execFmulL ⟨unR3 w, unModifier v⟩ s
  | .ffma => execFfma (unR3 w) s
  | .ffmaL => execFfmaL ⟨unR3 w, unModifier v⟩ s
  | .fmin => execFmin (unR3 w) s
  | .fminL => execFminL ⟨unR3 w, unModifier v⟩ s
  | .fmax => execFmax (unR3 w) s
  | .fmaxL => execFmaxL ⟨unR3 w, unModifier v⟩ s
  | .fcmpEq => execFcmpEq (unR3 w) s
  | .fcmpEqL => execFcmpEqL ⟨unR3 w, unModifier v⟩ s
  | .fcmpNe => execFcmpNe (unR3 w) s
  | .fcmpNeL => execFcmpNeL ⟨unR3 w, unModifier v⟩ s
  | .fcmpLt => execFcmpLt (unR3 w) s
  | .fcmpLtL => execFcmpLtL ⟨unR3 w, unModifier v⟩ s
  | .fcmpLe => execFcmpLe (unR3 w) s
  | .fcmpLeL => execFcmpLeL ⟨unR3 w, unModifier v⟩ s
  | .fsfu => execFsfu (unRf w) s
  | .fsfuL => execFsfuL ⟨unRf w, unModifier v⟩ s
  | .hadd2F16 => execHadd2F16 (unR3 w) s
  | .hadd2F16L => execHadd2F16L ⟨unR3 w, unModifier v⟩ s
  | .hmul2F16 => execHmul2F16 (unR3 w) s
  | .hmul2F16L => execHmul2F16L ⟨unR3 w, unModifier v⟩ s
  | .hfma2F16 => execHfma2F16 (unR3 w) s
  | .hfma2F16L => execHfma2F16L ⟨unR3 w, unModifier v⟩ s
  | .hfma2Bf16 => execHfma2Bf16 (unR3 w) s
  | .hfma2Bf16L => execHfma2Bf16L ⟨unR3 w, unModifier v⟩ s
  | .hadd2Bf16 => execHadd2Bf16 (unR3 w) s
  | .hadd2Bf16L => execHadd2Bf16L ⟨unR3 w, unModifier v⟩ s
  | .cvt => execCvt (unRf w) s
  | .cvtL => execCvtL ⟨unRf w, unModifier v⟩ s
  | .cvtp => execCvtp (unRf w) s
  | .cvtpL => execCvtpL ⟨unRf w, unModifier v⟩ s
  | .iaddi => execIaddi (unIm w) s
  | .iaddiL => execIaddiL (unIm64 w v) s
  | .andi => execAndi (unIm w) s
  | .andiL => execAndiL (unIm64 w v) s
  | .ori => execOri (unIm w) s
  | .oriL => execOriL (unIm64 w v) s
  | .xori => execXori (unIm w) s
  | .xoriL => execXoriL (unIm64 w v) s
  | .shli => execShli (unIm w) s
  | .shliL => execShliL (unIm64 w v) s
  | .shriN => execShriN (unIm w) s
  | .shriNL => execShriNL (unIm64 w v) s
  | .shriI => execShriI (unIm w) s
  | .shriIL => execShriIL (unIm64 w v) s
  | .movi => execMovi (unKm w) s
  | .moviL => execMoviL (unKm64 w v) s
  | .movhi => execMovhi (unKm w) s
  | .movhiL => execMovhiL (unKm64 w v) s
  | .icmpiEq => execIcmpiEq (unIm w) s
  | .icmpiEqL => execIcmpiEqL (unIm64 w v) s
  | .icmpiLtI => execIcmpiLtI (unIm w) s
  | .icmpiLtIL => execIcmpiLtIL (unIm64 w v) s
  | .fmovi => execFmovi (unKm w) s
  | .fmoviL => execFmoviL (unKm64 w v) s
  | .ld => execLd (unMe w) s
  | .ldL => execLdL ⟨unMe w, BitVec.ofNat 32 v⟩ s
  | .st => execSt (unMe w) s
  | .stL => execStL ⟨unMe w, BitVec.ofNat 32 v⟩ s
  | .atomAdd => execAtomAdd (unMe w) s
  | .atomAddL => execAtomAddL ⟨unMe w, BitVec.ofNat 32 v⟩ s
  | .atomFadd => execAtomFadd (unMe w) s
  | .atomFaddL => execAtomFaddL ⟨unMe w, BitVec.ofNat 32 v⟩ s
  | .atomMin => execAtomMin (unMe w) s
  | .atomMinL => execAtomMinL ⟨unMe w, BitVec.ofNat 32 v⟩ s
  | .atomMax => execAtomMax (unMe w) s
  | .atomMaxL => execAtomMaxL ⟨unMe w, BitVec.ofNat 32 v⟩ s
  | .atomAnd => execAtomAnd (unMe w) s
  | .atomAndL => execAtomAndL ⟨unMe w, BitVec.ofNat 32 v⟩ s
  | .atomOr => execAtomOr (unMe w) s
  | .atomOrL => execAtomOrL ⟨unMe w, BitVec.ofNat 32 v⟩ s
  | .atomXor => execAtomXor (unMe w) s
  | .atomXorL => execAtomXorL ⟨unMe w, BitVec.ofNat 32 v⟩ s
  | .atomExch => execAtomExch (unMe w) s
  | .atomExchL => execAtomExchL ⟨unMe w, BitVec.ofNat 32 v⟩ s
  | .atomCas => execAtomCas (unMe w) s
  | .atomCasL => execAtomCasL ⟨unMe w, BitVec.ofNat 32 v⟩ s
  | .fenceFull => execFenceFull (unSc w) s
  | .fenceAcq => execFenceAcq (unSc w) s
  | .fenceRel => execFenceRel (unSc w) s
  | .fenceWack => execFenceWack (unH0 w) s
  | .phase => execPhase (unSc w) s
  | .fetchb => execFetchb (unH0 w) s
  | .copInv => execCopInv (unA1 w) s
  | .copInvL => execCopInvL ⟨unA1 w, BitVec.ofNat 32 v⟩ s
  | .copWb => execCopWb (unA1 w) s
  | .copWbL => execCopWbL ⟨unA1 w, BitVec.ofNat 32 v⟩ s
  | .copWbi => execCopWbi (unA1 w) s
  | .copWbiL => execCopWbiL ⟨unA1 w, BitVec.ofNat 32 v⟩ s
  | .bra => execBra (unI16 w) s
  | .braL => execBraL (unI16l w v) s
  | .brx => execBrx (unA1 w) s
  | .brxL => execBrxL ⟨unA1 w, unModifier v⟩ s
  | .call => execCall (unI16 w) s
  | .callL => execCallL (unI16l w v) s
  | .callx => execCallx (unA1 w) s
  | .callxL => execCallxL ⟨unA1 w, unModifier v⟩ s
  | .ret => execRet (unH0 w) s
  | .exit => execExit (unH0 w) s
  | .loop => execLoop (unLo w) s
  | .loopL => execLoopL (unLo64 w v) s
  | .brk => execBrk (unH0 w) s
  | .lcfg => execLcfg (unLc w) s
  | .cnv => execCnv (unH0 w) s
  | .cnvMask => execCnvMask (unD1 w) s
  | .bar => execBar (unBa w) s
  | .trap => execTrap (unN11 w) s
  | .sysc => execSysc (unN11 w) s
  | .bkpt => execBkpt (unN11 w) s
  | .balw => execBalw (unBw w v) s
  | .yield => execYield (unH0 w) s
  | .mapset => execMapset (unMs w) s
  | .mapchn => execMapchn (unM3 w) s
  | .mapprt => execMapprt (unM3 w) s
  | .maptrn => execMaptrn (unM3 w) s
  | .mapflt => execMapflt (unR1 w) s
  | .mapchk => execMapchk (unTq w v) s
  | .bankq => execBankq (unTq w v) s
  | .hset => execHset (unVh w) s
  | .tcpy => execTcpy (unV1 w) s
  | .tmma => execTmma (unV1 w) s
  | .tgat => execTgat (unV1 w) s
  | .tcol => execTcol (unV1 w) s
  | .tld => execTld (unTl w v) s
  | .tst => execTst (unTl w v) s
  | .accZero => execAccZero (unHh w) s
  | .accZeroL => execAccZeroL ⟨unHh w, BitVec.ofNat 32 v⟩ s
  | .accSetexp => execAccSetexp (unVh w) s
  | .accSetexpL => execAccSetexpL ⟨unVh w, BitVec.ofNat 32 v⟩ s
  | .accRdrow => execAccRdrow (unVh w) s
  | .accRdrowL => execAccRdrowL ⟨unVh w, BitVec.ofNat 32 v⟩ s
  | .accWrrow => execAccWrrow (unVh w) s
  | .accWrrowL => execAccWrrowL ⟨unVh w, BitVec.ofNat 32 v⟩ s
  | .accClrst => execAccClrst (unHh w) s
  | .accClrstL => execAccClrstL ⟨unHh w, BitVec.ofNat 32 v⟩ s
  | .nop => execNop (unH0 w) s
  | .nopL => execNopL (unE64 w v) s
  | .idivI => execIdivI (unEd w) s
  | .idivIL => execIdivIL (unE64 w v) s
  | .idivN => execIdivN (unEd w) s
  | .idivNL => execIdivNL (unE64 w v) s
  | .iremI => execIremI (unEd w) s
  | .iremIL => execIremIL (unE64 w v) s
  | .iremN => execIremN (unEd w) s
  | .iremNL => execIremNL (unE64 w v) s
  | .rotl => execRotl (unEd w) s
  | .rotlL => execRotlL (unE64 w v) s
  | .brev => execBrev (unEd w) s
  | .brevL => execBrevL (unE64 w v) s
  | .fcmpOrd => execFcmpOrd (unD1 w) s
  | .fcmpOrdL => execFcmpOrdL (unE64 w v) s
  | .fcmpUnord => execFcmpUnord (unD1 w) s
  | .fcmpUnordL => execFcmpUnordL (unE64 w v) s
  | .fclass => execFclass (unEd w) s
  | .fclassL => execFclassL (unE64 w v) s
  | .frnd => execFrnd (unEd w) s
  | .frndL => execFrndL (unE64 w v) s
  | .fexp => execFexp (unEd w) s
  | .fexpL => execFexpL (unE64 w v) s
  | .q2v => execQ2v (unD1 w) s
  | .q2vL => execQ2vL (unE64 w v) s
  | .v2q => execV2q (unH0 w) s
  | .v2qL => execV2qL (unE64 w v) s
  | .qpop => execQpop (unEd w) s
  | .qpopL => execQpopL (unE64 w v) s
  | .pfirst => execPfirst (unD1 w) s
  | .pfirstL => execPfirstL (unE64 w v) s
  | .pany => execPany (unD1 w) s
  | .panyL => execPanyL (unE64 w v) s
  | .pall => execPall (unD1 w) s
  | .pallL => execPallL (unE64 w v) s
  | .pmask => execPmask (unEd w) s
  | .pmaskL => execPmaskL (unE64 w v) s
  | .xgetAt => execXgetAt (unD1 w) s
  | .xgetAtL => execXgetAtL (unE64 w v) s
  | .xgetFlip => execXgetFlip (unD1 w) s
  | .xgetFlipL => execXgetFlipL (unE64 w v) s
  | .xgetStep => execXgetStep (unD1 w) s
  | .xgetStepL => execXgetStepL (unE64 w v) s
  | .xgetRot => execXgetRot (unD1 w) s
  | .xgetRotL => execXgetRotL (unE64 w v) s
  | .cnvq => execCnvq (unH0 w) s
  | .cnvqL => execCnvqL (unE64 w v) s
  | .waitn => execWaitn (unH0 w) s
  | .waitnL => execWaitnL (unE64 w v) s
  | .setg => execSetg (unH0 w) s
  | .setgL => execSetgL (unE64 w v) s
  | .clrg => execClrg (unH0 w) s
  | .clrgL => execClrgL (unE64 w v) s
  | .alw => execAlw (unEd w) s
  | .alwL => execAlwL (unE64 w v) s
  | .mapget => execMapget (unEd w) s
  | .mapgetL => execMapgetL (unE64 w v) s
  | .mapput => execMapput (unH0 w) s
  | .mapputL => execMapputL (unE64 w v) s
  | .hget => execHget (unD1 w) s
  | .hgetL => execHgetL (unE64 w v) s
  | .lget => execLget (unEd w) s
  | .lgetL => execLgetL (unE64 w v) s
  | .lput => execLput (unH0 w) s
  | .lputL => execLputL (unE64 w v) s
  | .csrr => execCsrr (unEd w) s
  | .csrrL => execCsrrL (unE64 w v) s
  | .csrw => execCsrw (unH0 w) s
  | .csrwL => execCsrwL (unE64 w v) s
  | .csrs => execCsrs (unH0 w) s
  | .csrsL => execCsrsL (unE64 w v) s
  | .csrc => execCsrc (unH0 w) s
  | .csrcL => execCsrcL (unE64 w v) s
  | .tret => execTret (unH0 w) s
  | .tretL => execTretL (unE64 w v) s
  | .halt => execHalt (unH0 w) s
  | .haltL => execHaltL (unE64 w v) s
  | .icinv => execIcinv (unH0 w) s
  | .icinvL => execIcinvL (unE64 w v) s
  | .tlbinvPage => execTlbinvPage (unH0 w) s
  | .tlbinvPageL => execTlbinvPageL (unE64 w v) s
  | .tlbinvCtx => execTlbinvCtx (unE64 w v) s
  | .tlbinvAll => execTlbinvAll (unE64 w v) s
  | .tlbprobe => execTlbprobe (unEd w) s
  | .tlbprobeL => execTlbprobeL (unE64 w v) s
  | .cresize => execCresize (unH0 w) s
  | .cresizeL => execCresizeL (unE64 w v) s
  | .migDev => execMigDev (unH0 w) s
  | .migDevL => execMigDevL (unE64 w v) s
  | .migHost => execMigHost (unE64 w v) s
  | .pf => execPf (unH0 w) s
  | .pfL => execPfL (unE64 w v) s
  | .tspawn => execTspawn (unD1 w) s
  | .tspawnL => execTspawnL (unE64 w v) s
  | .tsig => execTsig (unH0 w) s
  | .tsigL => execTsigL (unE64 w v) s
  | .evpost => execEvpost (unH0 w) s
  | .evpostL => execEvpostL (unE64 w v) s
  | .evget => execEvget (unEd w) s
  | .evgetL => execEvgetL (unE64 w v) s
  | .dbgmb => execDbgmb (unH0 w) s
  | .dbgmbL => execDbgmbL (unE64 w v) s
  | .dbgrd => execDbgrd (unD1 w) s
  | .dbgrdL => execDbgrdL (unE64 w v) s
  | .wpset => execWpset (unH0 w) s
  | .wpsetL => execWpsetL (unE64 w v) s

/-- `run` without the instruction. -/
def runFast (x : Nat) (s : State) : Outcome :=
  match opBits x with
  | none => decodeTrap .illegal x s
  | some (o, w, v) =>
    if !fieldsOkOp o w v then decodeTrap .illegal x s
    else if !(isCompact o || (unHdr w).guardOk) then decodeTrap .reservedGuard x s
    else runOp o w v s

theorem fieldsOkOp_eq (o : Op) (w v : Nat) : (ofOp o w v).fieldsOk = fieldsOkOp o w v := by cases o <;> rfl

theorem guardOk_eq (o : Op) (w v : Nat) : (ofOp o w v).guardOk = (isCompact o || (unHdr w).guardOk) := by
  cases o <;> rfl

theorem runOp_eq (o : Op) (w v : Nat) (s : State) : exec (ofOp o w v) s = runOp o w v s := by cases o <;> rfl

@[csimp] theorem run_eq_fast : @run = @runFast := by
  funext x s
  unfold run decodeBits runFast
  cases opBits x with
  | none => rfl
  | some p =>
    obtain ⟨o, w, v⟩ := p
    simp only [fieldsOkOp_eq, guardOk_eq]
    by_cases h1 : fieldsOkOp o w v = true
    · by_cases h2 : (isCompact o || (unHdr w).guardOk) = true
      · simp only [h1, h2, Bool.not_true, Bool.false_eq_true, if_false]
        exact runOp_eq o w v s
      · simp [h1, h2]
    · simp [h1]

end Sys2Proof.Machine
end

