-- ==== Sys2Proof/Machine/Sched.lean ====
section
/-! DEFINITION. Time, and the model's own order of what the module's agents do when the schedule of the state is empty. -/

namespace Sys2Proof.Machine

/-- The ticks of a core cycle at a frequency step of 16 to 32 thirty-seconds of 1.05 GHz (R10, R344): 640 / 21k ns. -/
def cycleTicks (step : Nat) : Nat := 640 * 902522205585 / max step 1

/-- `n` cycles pass. A module that is off counts no cycles (R426). (log 4: DESIGN CHOICE, unsafe.) (log 114: DESIGN CHOICE, safe.) -/
def State.advance (s : State) (n : Nat) : State :=
  { s with now := if s.phase == Phase.off then s.now else s.now + n, time := s.time + n * cycleTicks (s.die 0).step }

/-- What an access may do next. -/
def Access.events (a : Access) : List Instr :=
  match a.st with
  | .held => [.releaseStoreProceed a.id]
  | .left => [.homeAccessPerform a.id .none]
  | .sent => []
  | .performed => [.loadReturn a.id ⟨0, false⟩]

/-- What a course may do next beside being selected. -/
def Course.events (c : Course) (core n : Nat) : List Instr :=
  let waits := c.threads.filterMap fun t =>
    if !t.live then none
    else match t.wait with
      | .barrier k .. => some (Instr.barrierCompletion k.scope k.place k.group k.num)
      | .conv .. => some (.convergenceRelease core n)
      | .fence isPhase .. => some (if isPhase then .phaseComplete core n else .fenceComplete core n)
      | .waitn .. => some (.waitnComplete core n)
      | .icinv .. => some (.icinvComplete core n)
      | .fetchb .. => some (.fetchbComplete core n)
      | .cresize .. => some (.cresizeComplete (coreDie core))
      | _ => none
  waits.eraseDups ++ (if c.trap == TrapPhase.stopping then [Instr.trapDelivery core n] else []) ++
  (if c.park.isSome then [Instr.courseWake core n] else []) ++ (if c.yieldUntil.isSome then [Instr.yieldExpiry core n] else []) ++
  match c.susp with
  | some (.walk ..) => [Instr.walkComplete core ⟨n, .none⟩]
  | _ => []

/-- What a core may do next: its courses, engines, tasks and drains, and then the selections of its lanes. -/
def Core.events (k : Core) (core : Nat) : List Instr :=
  (k.courses.flatMap fun c => c.2.events core c.1) ++
  (k.queues.toList.flatten.flatMap fun x =>
    (if x.ended then [Instr.commandRetire core x.course x.cls]
     else
       [Instr.guardSlotHeadCheck core x.cls] ++
       (match x.kind with
        | .copy => [Instr.copyTransfer core ⟨.given, .none⟩]
        | .mma | .gather => [Instr.kChunk core ⟨x.cls, .given, .none⟩]
        | .writeBack => [Instr.writeBack ⟨core, .none⟩]
        | .accOp .. => [Instr.accExecute ⟨core, .none⟩]
        | .col => [Instr.chunkStart core ⟨false, .given, .none⟩ (x.words.getD 0 0) 0]))) ++
  (k.tasks.map fun t => Instr.taskEnd core t.1) ++
  ((k.hod.filter HodEntry.due).map fun e => Instr.hodDrain core e.id) ++
  (if k.courses.isEmpty then [] else ((k.courses.map fun c => laneOf core c.1).eraseDups).map fun l => Instr.issueGroupSelection core l .none)

/-- What the module may do next of its own accord; what arrives from outside comes from the schedule alone. -/
def State.ownEvents (s : State) : List Instr :=
  (s.inflight.flatMap Access.events) ++ (s.divs.map fun d => Instr.divideResult d.id) ++
  (s.misses.map fun m => Instr.sectorFill m.die m.line .none) ++
  (s.cores.flatMap fun k => k.2.events k.1) ++ 
  ((s.dies.filter fun d => d.2.pool.toList.any fun q => !q.isEmpty).flatMap fun d => (List.range 4).map fun c => Instr.taskDispatch (4 * d.1 + c) true) ++
  ((s.clusters.filter fun c => !c.2.inbox.isEmpty || c.2.disp.toList.any fun q => !q.isEmpty).map fun c => Instr.taskDispatch c.1 false)

/-- What comes about when its time is up, and what the module's units send. -/
def State.timedEvents (s : State) : List Instr :=
  let due : Option Nat → Bool := fun t => match t with | some t => decide (t ≤ s.now) | none => false
  ((s.bars.filter fun b => due b.due).map fun b => Instr.barrierTimeout b.key.scope b.key.place b.key.group b.key.num) ++
  (s.cores.flatMap fun k =>
    (k.2.courses.filter fun c => c.2.threads.any fun t => match t.wait with | .conv _ _ d _ => decide (d ≤ s.now) | _ => false).map
      fun c => Instr.convergenceTimeout k.1 c.1) ++
  (s.cores.flatMap fun k => (k.2.hod.map fun e => Instr.hodAgeLimit k.1 e.id) ++ (if k.2.noDispatch then [Instr.preemptSave k.1] else [])) ++
  (s.clusters.flatMap fun c =>
    [Instr.overflowRecord c.1] ++ (if c.2.stealFrom.isEmpty then [] else [Instr.stealShipment c.1]) ++
    (if c.2.shipments.isEmpty then [] else [Instr.shipmentArrival c.1])) ++
  (((List.range 16).filter s.mayAsk).map fun c => Instr.stealRequest c) ++
  (s.clusters.flatMap fun c => ((List.range 4).filter fun p => decide (256 ≤ c.2.passedAt p)).map fun p => Instr.dispatchReservation c.1 p) ++
  (s.dies.flatMap fun d =>
    (if d.2.migrQ.isEmpty then [] else [Instr.migrationStart d.1]) ++ d.2.migr.map fun m => Instr.migrationDeparture d.1 m.frame) ++
  (s.binds.map fun b => Instr.hardwareBind b.ctx b.base b.index) ++ (s.chunks.map fun c => Instr.chunkStart c.core ⟨c.cmd.isNone, .given, .none⟩ c.cid c.index) ++
  (if s.host.unacked.isEmpty then [] else [Instr.hostRetransmit, Instr.hostLinkLost]) ++
  (if s.host.waiting.any fun m => decide (m.ring = 67) then [Instr.mailboxSend] else [])

/-- The event that comes next when the schedule is empty: each of the module's own in turn. (log 2: DESIGN CHOICE, unsafe.) -/
def State.nextEvent (s : State) : Instr :=
  let l := s.ownEvents ++ s.timedEvents
  l.getD (s.cursor % max 1 l.length) (.issueGroupSelection 0 0 .none)

end Sys2Proof.Machine
end

