-- ==== Sys2Proof/Machine/Step.lean ====
section
/-! DEFINITION. One step of the module: the issue group in a lane runs the instruction at its program counter, or the
next event of the schedule comes about. -/

namespace Sys2Proof.Machine

/-- What follows once the group's instruction has run: the lane is empty (R56, R433). -/
def afterGroup (g : Issue) : Outcome → Outcome
  | .next t => .next { t.afterIssue g with issue := none }
  | o => o

/-- The issue group fetches, decodes and runs one instruction (R29, R173), or acts on the entry of a code table where it
stands (R364). A fetch that must wait takes no effect. -/
def runIssue (g : Issue) (s : State) : Outcome :=
  match s.entryGroup with
  | some _ => afterGroup g (exec .codeTableEntryJump s)
  | none =>
    match s.fetch g with
    | (.bits x, s') => afterGroup g (run x s')
    | (.trap c, s') => afterGroup g (s'.fetchTrapped g c)
    | (.wait, s') => .next (({ s' with issue := none } : State).modCourse g.core g.course Course.rearm)

/-- One step. -/
def step (s : State) : Host.Outcome State Fault Refusal :=
  match s.issue with
  | some g => runIssue g s
  | none =>
    match s.agenda with
    | (n, e) :: rest => exec e (({ s with agenda := rest } : State).advance n)
    | [] => exec s.nextEvent (({ s with cursor := s.cursor + 1 } : State).advance 1)

/-! ## Placing an instruction -/

/-- The bytes of an instruction in memory order: each parcel little-endian, the first at the lowest address (R3, R172). -/
def wordBytes (nbits w : Nat) : List Byte := leBytes 16 (w % 2 ^ nbits)

/-- The virtual and physical address at which `withFetchWord` places an instruction. -/
def placeAddr : Nat := 0x10000

/-- The translation under which it is fetched: 1 GiB from address 0 in context 0, readable, writable, executable. -/
def placeEntry : TlbEntry := { ctx := 0, page := 0, size := 2 ^ 30, pte := 0x1F }

/-- The thread that runs it. -/
def placeThread (t : Thread) : Thread :=
  { t with live := true, halted := false, pc := BitVec.ofNat 64 placeAddr, wait := .ready, pend := [], sb := [],
           lopen := 0, ring := 0, base := 0, stages := 1, acqAfter := [] }

/-- The state with an instruction placed where the next step fetches: core 0 of die 0 runs, with task 0 and course 0
resident, thread 0 at the instruction and in the lane. -/
def State.withFetchWord (s : State) (nbits w : Nat) : State :=
  let c := (s.course? 0 0).getD { threads := [{}] }
  let t := (s.task? 0 0).getD { courses := [0] }
  let s := { s with phase := .running }
  let s := s.physWrite false placeAddr (wordBytes nbits w)
  let s := s.modCore 0 fun k => { k with tlb := placeEntry :: k.tlb, icache := [] }
  let s := s.setTask 0 0 { t with ctx := 0 }
  let s := s.setCourse 0 0
    { c with
      task := 0, trap := .none, park := none, susp := none, loopBuf := none, recapture := none, prefetch := none
      threads := placeThread (c.thread 0) :: c.threads.drop 1 }
  { s with issue := some { core := 0, course := 0, slots := [0], pc := BitVec.ofNat 64 placeAddr, t := s.now } }

end Sys2Proof.Machine
end

