-- ==== Sys2Proof/Laws/Decode.lean ====
section
/-! SUPPORT. Every format read back from its words, and decoding from the encoding that a word stands for. -/

namespace Sys2Proof

theorem fld_eq {w lo n : Nat} {x : BitVec n} (h : w / 2 ^ lo % 2 ^ n = x.toNat) : fld w lo n = x :=
  BitVec.eq_of_toNat_eq (by simpa [fld] using h)

theorem bitAt_eq {w k : Nat} {u : Bool} (h : w / 2 ^ k % 2 = u.toNat) : bitAt w k = u := by
  cases u <;> simp_all [bitAt]

theorem mk2 {α β γ : Type} (f : α → β → γ) {a a' : α} {b b' : β} (h : a = a') (k : b = b') : f a b = f a' b' := by rw [h, k]

theorem ofNat_toNat32 (i : BitVec 32) : BitVec.ofNat 32 i.toNat = i := by simp

theorem decode16 {e : Nat} {o : Op} {i : Instr} (he : e < 65536) (h1 : e % 4 ≠ 1) (h3 : e % 4 ≠ 3) (ho : op16 e = some o)
    (hi : ofOp o e 0 = i)
    (hp : encode i = (16, e)) (wf : i.wellFormed = true) (r : Nat) : decodeBits ((encode i).2 + 2 ^ (encode i).1 * r) = .ok i := by
  rw [hp]
  show decodeBits (e + 65536 * r) = .ok i
  have p : parcels (e + 65536 * r) = 1 := by unfold parcels; rw [if_neg (by omega), if_neg (by omega)]
  have q : (e + 65536 * r) % 65536 = e := by omega
  have b : opBits (e + 65536 * r) = some (o, e, 0) := by simp only [opBits, p, q, ho, Option.map_some]
  simp only [Instr.wellFormed, Bool.and_eq_true] at wf
  simp [decodeBits, b, hi, wf.1, wf.2]

theorem decode32 {e : Nat} {o : Op} {i : Instr} (he : e < 4294967296) (h1 : e % 4 = 1) (ho : op32 e = some o)
    (hi : ofOp o e 0 = i)
    (hp : encode i = (32, e)) (wf : i.wellFormed = true) (r : Nat) : decodeBits ((encode i).2 + 2 ^ (encode i).1 * r) = .ok i := by
  rw [hp]
  show decodeBits (e + 4294967296 * r) = .ok i
  have p : parcels (e + 4294967296 * r) = 2 := by unfold parcels; rw [if_pos (by omega)]
  have q : (e + 4294967296 * r) % 4294967296 = e := by omega
  have b : opBits (e + 4294967296 * r) = some (o, e, 0) := by simp only [opBits, p, q, ho, Option.map_some]
  simp only [Instr.wellFormed, Bool.and_eq_true] at wf
  simp [decodeBits, b, hi, wf.1, wf.2]

theorem decode64 {e v : Nat} {o : Op} {i : Instr} (he : e < 4294967296) (hv : v < 4294967296) (h3 : e % 4 = 3)
    (ho : op64 e v = some o) (hi : ofOp o e v = i)
    (hp : encode i = (64, e + 4294967296 * v)) (wf : i.wellFormed = true) (r : Nat) : decodeBits ((encode i).2 + 2 ^ (encode i).1 * r) = .ok i := by
  rw [hp]
  show decodeBits (e + 4294967296 * v + 18446744073709551616 * r) = .ok i
  have p : parcels (e + 4294967296 * v + 18446744073709551616 * r) = 4 := by
    unfold parcels; rw [if_neg (by omega), if_pos (by omega)]
  have q : (e + 4294967296 * v + 18446744073709551616 * r) % 4294967296 = e := by omega
  have q' : (e + 4294967296 * v + 18446744073709551616 * r) / 4294967296 % 4294967296 = v := by omega
  have b : opBits (e + 4294967296 * v + 18446744073709551616 * r) = some (o, e, v) := by
    simp only [opBits, p, q, q', ho, Option.map_some]
  simp only [Instr.wellFormed, Bool.and_eq_true] at wf
  simp [decodeBits, b, hi, wf.1, wf.2]

theorem un_CReg (x : CReg) (op : Nat) {w : Nat} (ho : op < 16) (hw : w = enCReg x op) : unCReg w = x := by
  have := Bool.toNat_le x.u; have := x.a.isLt; have := x.d.isLt; 
  simp only [enCReg] at hw
  have f_u : _ = x.u := bitAt_eq (w := w) (k := 15) (by omega)
  have f_a : _ = x.a := fld_eq (w := w) (lo := 10) (n := 5) (by omega)
  have f_d : _ = x.d := fld_eq (w := w) (lo := 5) (n := 5) (by omega)
  simp only [unCReg, f_u, f_a, f_d]

/-- What tells a compact parcel of registers apart. -/
theorem ops_CReg (x : CReg) (op : Nat) {w : Nat} (ho : op < 15) (hw : w = enCReg x op) :
    w < 65536 ∧ w % 4 ≠ 1 ∧ w % 4 ≠ 3 ∧ w ≠ 32798 ∧ w / 2 % 16 = op := by
  have := Bool.toNat_le x.u; have := x.a.isLt; have := x.d.isLt
  simp only [enCReg] at hw
  omega

theorem un_CImm (x : CImm)  {w : Nat} (hw : w = enCImm x) : unCImm w = x := by
  have := x.i.isLt; have := x.d.isLt; 
  simp only [enCImm] at hw
  have f_i : _ = x.i := fld_eq (w := w) (lo := 10) (n := 5) (by omega)
  have f_d : _ = x.d := fld_eq (w := w) (lo := 5) (n := 5) (by omega)
  simp only [unCImm, f_i, f_d]

/-- A first parcel has 16 bits. -/
theorem hdr_lt (h : Hdr) {op len : Nat} (ho : op < 128) (hl : len < 4) : enHdr h op len < 65536 := by
  have := Bool.toNat_le h.n; have := h.g.isLt; have := h.s.isLt
  simp only [enHdr]
  omega

/-- The header read back from a word, whatever stands above its first parcel. -/
theorem un_Hdr {w r : Nat} {h : Hdr} {op len : Nat} (_ho : op < 128) (hl : len < 4) (hw : w = enHdr h op len + 65536 * r) : unHdr w = h := by
  have := Bool.toNat_le h.n; have := h.g.isLt; have := h.s.isLt
  simp only [enHdr] at hw
  have h_n : _ = h.n := bitAt_eq (w := w) (k := 8) (by omega)
  have h_g : _ = h.g := fld_eq (w := w) (lo := 4) (n := 4) (by omega)
  have h_s : _ = h.s := fld_eq (w := w) (lo := 2) (n := 2) (by omega)
  simp only [unHdr, h_n, h_g, h_s]

/-- The length bits and the operation of a word, from its header. -/
theorem ops_Hdr {w r : Nat} {h : Hdr} {op len : Nat} (ho : op < 128) (hl : len < 4) (hr : r < 65536) (hw : w = enHdr h op len + 65536 * r) :
    w < 4294967296 ∧ w % 4 = len ∧ w / 512 % 128 = op := by
  have := Bool.toNat_le h.n; have := h.g.isLt; have := h.s.isLt
  simp only [enHdr] at hw
  omega

theorem un_R3 (x : R3) (op len : Nat) {w : Nat} (ho : op < 128) (hl : len < 4) (hw : w = enR3 x op len) : unR3 w = x := by
  have := hdr_lt x.h ho hl; have := Bool.toNat_le x.u; have := x.b.isLt; have := x.a.isLt; have := x.d.isLt
  simp only [enR3] at hw
  have h_h := un_Hdr (h := x.h) (r := 32768 * x.u.toNat + 1024 * x.b.toNat + 32 * x.a.toNat + x.d.toNat) ho hl (hw.trans (by omega))
  have f_u : _ = x.u := bitAt_eq (w := w) (k := 31) (by omega)
  have f_b : _ = x.b := fld_eq (w := w) (lo := 26) (n := 5) (by omega)
  have f_a : _ = x.a := fld_eq (w := w) (lo := 21) (n := 5) (by omega)
  have f_d : _ = x.d := fld_eq (w := w) (lo := 16) (n := 5) (by omega)
  simp only [unR3, h_h, f_u, f_b, f_a, f_d]

theorem ops_R3 (x : R3) (op len : Nat) {w : Nat} (ho : op < 128) (hl : len < 4) (hw : w = enR3 x op len) :
    w < 4294967296 ∧ w % 4 = len ∧ w / 512 % 128 = op := by
  have := hdr_lt x.h ho hl; have := Bool.toNat_le x.u; have := x.b.isLt; have := x.a.isLt; have := x.d.isLt
  simp only [enR3] at hw
  exact ops_Hdr (h := x.h) (r := 32768 * x.u.toNat + 1024 * x.b.toNat + 32 * x.a.toNat + x.d.toNat) ho hl (by omega) (hw.trans (by omega))

theorem un_R1 (x : R1) (op len : Nat) {w : Nat} (ho : op < 128) (hl : len < 4) (hw : w = enR1 x op len) : unR1 w = x := by
  have := hdr_lt x.h ho hl; have := x.a.isLt; have := x.d.isLt
  simp only [enR1] at hw
  have h_h := un_Hdr (h := x.h) (r := 32 * x.a.toNat + x.d.toNat) ho hl (hw.trans (by omega))
  have f_a : _ = x.a := fld_eq (w := w) (lo := 21) (n := 5) (by omega)
  have f_d : _ = x.d := fld_eq (w := w) (lo := 16) (n := 5) (by omega)
  simp only [unR1, h_h, f_a, f_d]

theorem ops_R1 (x : R1) (op len : Nat) {w : Nat} (ho : op < 128) (hl : len < 4) (hw : w = enR1 x op len) :
    w < 4294967296 ∧ w % 4 = len ∧ w / 512 % 128 = op := by
  have := hdr_lt x.h ho hl; have := x.a.isLt; have := x.d.isLt
  simp only [enR1] at hw
  exact ops_Hdr (h := x.h) (r := 32 * x.a.toNat + x.d.toNat) ho hl (by omega) (hw.trans (by omega))

theorem un_Rf (x : Rf) (op len : Nat) {w : Nat} (ho : op < 128) (hl : len < 4) (hw : w = enRf x op len) : unRf w = x := by
  have := hdr_lt x.h ho hl; have := x.f.isLt; have := x.a.isLt; have := x.d.isLt
  simp only [enRf] at hw
  have h_h := un_Hdr (h := x.h) (r := 1024 * x.f.toNat + 32 * x.a.toNat + x.d.toNat) ho hl (hw.trans (by omega))
  have f_f : _ = x.f := fld_eq (w := w) (lo := 26) (n := 5) (by omega)
  have f_a : _ = x.a := fld_eq (w := w) (lo := 21) (n := 5) (by omega)
  have f_d : _ = x.d := fld_eq (w := w) (lo := 16) (n := 5) (by omega)
  simp only [unRf, h_h, f_f, f_a, f_d]

theorem ops_Rf (x : Rf) (op len : Nat) {w : Nat} (ho : op < 128) (hl : len < 4) (hw : w = enRf x op len) :
    w < 4294967296 ∧ w % 4 = len ∧ w / 512 % 128 = op := by
  have := hdr_lt x.h ho hl; have := x.f.isLt; have := x.a.isLt; have := x.d.isLt
  simp only [enRf] at hw
  exact ops_Hdr (h := x.h) (r := 1024 * x.f.toNat + 32 * x.a.toNat + x.d.toNat) ho hl (by omega) (hw.trans (by omega))

theorem un_Ql (x : Ql) (op len e : Nat) {w : Nat} (ho : op < 128) (hl : len < 4) (_he : e < 4) (hw : w = enQl x op len + 1073741824 * e) : unQl w = x := by
  have := hdr_lt x.h ho hl; have := x.b.isLt; have := x.a.isLt; have := x.d.isLt
  simp only [enQl] at hw
  have h_h := un_Hdr (h := x.h) (r := 1024 * x.b.toNat + 32 * x.a.toNat + x.d.toNat + 16384 * e) ho hl (hw.trans (by omega))
  have f_b : _ = x.b := fld_eq (w := w) (lo := 26) (n := 4) (by omega)
  have f_a : _ = x.a := fld_eq (w := w) (lo := 21) (n := 4) (by omega)
  have f_d : _ = x.d := fld_eq (w := w) (lo := 16) (n := 4) (by omega)
  simp only [unQl, h_h, f_b, f_a, f_d]

theorem ops_Ql (x : Ql) (op len e : Nat) {w : Nat} (ho : op < 128) (hl : len < 4) (he : e < 4) (hw : w = enQl x op len + 1073741824 * e) :
    w < 4294967296 ∧ w % 4 = len ∧ w / 512 % 128 = op := by
  have := hdr_lt x.h ho hl; have := x.b.isLt; have := x.a.isLt; have := x.d.isLt
  simp only [enQl] at hw
  exact ops_Hdr (h := x.h) (r := 1024 * x.b.toNat + 32 * x.a.toNat + x.d.toNat + 16384 * e) ho hl (by omega) (hw.trans (by omega))

theorem un_Im (x : Im) (op len : Nat) {w : Nat} (ho : op < 128) (hl : len < 4) (hw : w = enIm x op len) : unIm w = x := by
  have := hdr_lt x.h ho hl; have := x.i.isLt; have := x.a.isLt; have := x.d.isLt
  simp only [enIm] at hw
  have h_h := un_Hdr (h := x.h) (r := 1024 * x.i.toNat + 32 * x.a.toNat + x.d.toNat) ho hl (hw.trans (by omega))
  have f_i : _ = x.i := fld_eq (w := w) (lo := 26) (n := 6) (by omega)
  have f_a : _ = x.a := fld_eq (w := w) (lo := 21) (n := 5) (by omega)
  have f_d : _ = x.d := fld_eq (w := w) (lo := 16) (n := 5) (by omega)
  simp only [unIm, h_h, f_i, f_a, f_d]

theorem ops_Im (x : Im) (op len : Nat) {w : Nat} (ho : op < 128) (hl : len < 4) (hw : w = enIm x op len) :
    w < 4294967296 ∧ w % 4 = len ∧ w / 512 % 128 = op := by
  have := hdr_lt x.h ho hl; have := x.i.isLt; have := x.a.isLt; have := x.d.isLt
  simp only [enIm] at hw
  exact ops_Hdr (h := x.h) (r := 1024 * x.i.toNat + 32 * x.a.toNat + x.d.toNat) ho hl (by omega) (hw.trans (by omega))

theorem un_Im64 (x : Im64) (op len : Nat) {w : Nat} {v : Nat} (hv : v = x.i.toNat) (ho : op < 128) (hl : len < 4) (hw : w = enIm64 x op len) : unIm64 w v = x := by
  have := hdr_lt x.h ho hl; have := x.a.isLt; have := x.d.isLt; have := x.i.isLt
  simp only [enIm64] at hw hv
  have h_h := un_Hdr (h := x.h) (r := 32 * x.a.toNat + x.d.toNat) ho hl (hw.trans (by omega))
  have f_a : _ = x.a := fld_eq (w := w) (lo := 21) (n := 5) (by omega)
  have f_d : _ = x.d := fld_eq (w := w) (lo := 16) (n := 5) (by omega)
  have f_i : _ = x.i := fld_eq (w := v) (lo := 0) (n := 32) (by omega)
  simp only [unIm64, h_h, f_a, f_d, f_i]

theorem ops_Im64 (x : Im64) (op len : Nat) {w : Nat} (ho : op < 128) (hl : len < 4) (hw : w = enIm64 x op len) :
    w < 4294967296 ∧ w % 4 = len ∧ w / 512 % 128 = op := by
  have := hdr_lt x.h ho hl; have := x.a.isLt; have := x.d.isLt; have := x.i.isLt
  simp only [enIm64] at hw
  exact ops_Hdr (h := x.h) (r := 32 * x.a.toNat + x.d.toNat) ho hl (by omega) (hw.trans (by omega))

theorem un_Km (x : Km) (op len : Nat) {w : Nat} (ho : op < 128) (hl : len < 4) (hw : w = enKm x op len) : unKm w = x := by
  have := hdr_lt x.h ho hl; have := x.i.isLt; have := x.d.isLt
  simp only [enKm] at hw
  have h_h := un_Hdr (h := x.h) (r := 32 * x.i.toNat + x.d.toNat) ho hl (hw.trans (by omega))
  have f_i : _ = x.i := fld_eq (w := w) (lo := 21) (n := 11) (by omega)
  have f_d : _ = x.d := fld_eq (w := w) (lo := 16) (n := 5) (by omega)
  simp only [unKm, h_h, f_i, f_d]

theorem ops_Km (x : Km) (op len : Nat) {w : Nat} (ho : op < 128) (hl : len < 4) (hw : w = enKm x op len) :
    w < 4294967296 ∧ w % 4 = len ∧ w / 512 % 128 = op := by
  have := hdr_lt x.h ho hl; have := x.i.isLt; have := x.d.isLt
  simp only [enKm] at hw
  exact ops_Hdr (h := x.h) (r := 32 * x.i.toNat + x.d.toNat) ho hl (by omega) (hw.trans (by omega))

theorem un_Km64 (x : Km64) (op len : Nat) {w : Nat} {v : Nat} (hv : v = x.i.toNat) (ho : op < 128) (hl : len < 4) (hw : w = enKm64 x op len) : unKm64 w v = x := by
  have := hdr_lt x.h ho hl; have := x.d.isLt; have := x.i.isLt
  simp only [enKm64] at hw hv
  have h_h := un_Hdr (h := x.h) (r := x.d.toNat) ho hl (hw.trans (by omega))
  have f_d : _ = x.d := fld_eq (w := w) (lo := 16) (n := 5) (by omega)
  have f_i : _ = x.i := fld_eq (w := v) (lo := 0) (n := 32) (by omega)
  simp only [unKm64, h_h, f_d, f_i]

theorem ops_Km64 (x : Km64) (op len : Nat) {w : Nat} (ho : op < 128) (hl : len < 4) (hw : w = enKm64 x op len) :
    w < 4294967296 ∧ w % 4 = len ∧ w / 512 % 128 = op := by
  have := hdr_lt x.h ho hl; have := x.d.isLt; have := x.i.isLt
  simp only [enKm64] at hw
  exact ops_Hdr (h := x.h) (r := x.d.toNat) ho hl (by omega) (hw.trans (by omega))

theorem un_Me (x : Me) (op len : Nat) {w : Nat} (ho : op < 128) (hl : len < 4) (hw : w = enMe x op len) : unMe w = x := by
  have := hdr_lt x.h ho hl; have := Bool.toNat_le x.o; have := x.p.isLt; have := x.w.isLt; have := x.a.isLt; have := x.d.isLt
  simp only [enMe] at hw
  have h_h := un_Hdr (h := x.h) (r := 32768 * x.o.toNat + 8192 * x.p.toNat + 1024 * x.w.toNat + 32 * x.a.toNat + x.d.toNat) ho hl (hw.trans (by omega))
  have f_o : _ = x.o := bitAt_eq (w := w) (k := 31) (by omega)
  have f_p : _ = x.p := fld_eq (w := w) (lo := 29) (n := 2) (by omega)
  have f_w : _ = x.w := fld_eq (w := w) (lo := 26) (n := 3) (by omega)
  have f_a : _ = x.a := fld_eq (w := w) (lo := 21) (n := 5) (by omega)
  have f_d : _ = x.d := fld_eq (w := w) (lo := 16) (n := 5) (by omega)
  simp only [unMe, h_h, f_o, f_p, f_w, f_a, f_d]

theorem ops_Me (x : Me) (op len : Nat) {w : Nat} (ho : op < 128) (hl : len < 4) (hw : w = enMe x op len) :
    w < 4294967296 ∧ w % 4 = len ∧ w / 512 % 128 = op := by
  have := hdr_lt x.h ho hl; have := Bool.toNat_le x.o; have := x.p.isLt; have := x.w.isLt; have := x.a.isLt; have := x.d.isLt
  simp only [enMe] at hw
  exact ops_Hdr (h := x.h) (r := 32768 * x.o.toNat + 8192 * x.p.toNat + 1024 * x.w.toNat + 32 * x.a.toNat + x.d.toNat) ho hl (by omega) (hw.trans (by omega))

theorem un_Sc (x : Sc) (op len e : Nat) {w : Nat} (ho : op < 128) (hl : len < 4) (_he : e < 256) (hw : w = enSc x op len + 16777216 * e) : unSc w = x := by
  have := hdr_lt x.h ho hl; have := x.p.isLt
  simp only [enSc] at hw
  have h_h := un_Hdr (h := x.h) (r := 32 * x.p.toNat + 256 * e) ho hl (hw.trans (by omega))
  have f_p : _ = x.p := fld_eq (w := w) (lo := 21) (n := 3) (by omega)
  simp only [unSc, h_h, f_p]

theorem ops_Sc (x : Sc) (op len e : Nat) {w : Nat} (ho : op < 128) (hl : len < 4) (he : e < 256) (hw : w = enSc x op len + 16777216 * e) :
    w < 4294967296 ∧ w % 4 = len ∧ w / 512 % 128 = op := by
  have := hdr_lt x.h ho hl; have := x.p.isLt
  simp only [enSc] at hw
  exact ops_Hdr (h := x.h) (r := 32 * x.p.toNat + 256 * e) ho hl (by omega) (hw.trans (by omega))

theorem un_H0 (x : H0) (op len e : Nat) {w : Nat} (ho : op < 128) (hl : len < 4) (_he : e < 2048) (hw : w = enH0 x op len + 2097152 * e) : unH0 w = x := by
  have := hdr_lt x.h ho hl
  simp only [enH0] at hw
  have h_h := un_Hdr (h := x.h) (r := 32 * e) ho hl (hw.trans (by omega))
  simp only [unH0, h_h]

theorem ops_H0 (x : H0) (op len e : Nat) {w : Nat} (ho : op < 128) (hl : len < 4) (he : e < 2048) (hw : w = enH0 x op len + 2097152 * e) :
    w < 4294967296 ∧ w % 4 = len ∧ w / 512 % 128 = op := by
  have := hdr_lt x.h ho hl
  simp only [enH0] at hw
  exact ops_Hdr (h := x.h) (r := 32 * e) ho hl (by omega) (hw.trans (by omega))

/-- The extension number of a word of format `H0`. -/
theorem ext_H0 (x : H0) (op len e : Nat) {w : Nat} (ho : op < 128) (hl : len < 4) (he : e < 1024) (hw : w = enH0 x op len + 2097152 * e) :
    w / 2097152 % 1024 = e := by
  have := hdr_lt x.h ho hl
  simp only [enH0] at hw
  omega

/-- The bits that format `H0` leaves zero. -/
theorem zero_H0 (x : H0) (op len e : Nat) {w : Nat} (ho : op < 128) (hl : len < 4) (he : e < 1024) (hw : w = enH0 x op len + 2097152 * e) :
    w / 2147483648 = 0 ∧ w / 65536 % 32 = 0 := by
  have := hdr_lt x.h ho hl
  simp only [enH0] at hw
  omega

theorem un_A1 (x : A1) (op len e : Nat) {w : Nat} (ho : op < 128) (hl : len < 4) (_he : e < 64) (hw : w = enA1 x op len + 67108864 * e) : unA1 w = x := by
  have := hdr_lt x.h ho hl; have := x.a.isLt
  simp only [enA1] at hw
  have h_h := un_Hdr (h := x.h) (r := 32 * x.a.toNat + 1024 * e) ho hl (hw.trans (by omega))
  have f_a : _ = x.a := fld_eq (w := w) (lo := 21) (n := 5) (by omega)
  simp only [unA1, h_h, f_a]

theorem ops_A1 (x : A1) (op len e : Nat) {w : Nat} (ho : op < 128) (hl : len < 4) (he : e < 64) (hw : w = enA1 x op len + 67108864 * e) :
    w < 4294967296 ∧ w % 4 = len ∧ w / 512 % 128 = op := by
  have := hdr_lt x.h ho hl; have := x.a.isLt
  simp only [enA1] at hw
  exact ops_Hdr (h := x.h) (r := 32 * x.a.toNat + 1024 * e) ho hl (by omega) (hw.trans (by omega))

theorem un_I16 (x : I16) (op len : Nat) {w : Nat} (ho : op < 128) (hl : len < 4) (hw : w = enI16 x op len) : unI16 w = x := by
  have := hdr_lt x.h ho hl; have := x.i.isLt
  simp only [enI16] at hw
  have h_h := un_Hdr (h := x.h) (r := x.i.toNat) ho hl (hw.trans (by omega))
  have f_i : _ = x.i := fld_eq (w := w) (lo := 16) (n := 16) (by omega)
  simp only [unI16, h_h, f_i]

theorem ops_I16 (x : I16) (op len : Nat) {w : Nat} (ho : op < 128) (hl : len < 4) (hw : w = enI16 x op len) :
    w < 4294967296 ∧ w % 4 = len ∧ w / 512 % 128 = op := by
  have := hdr_lt x.h ho hl; have := x.i.isLt
  simp only [enI16] at hw
  exact ops_Hdr (h := x.h) (r := x.i.toNat) ho hl (by omega) (hw.trans (by omega))

theorem un_I16l (x : I16l) (op len : Nat) {w : Nat} {v : Nat} (hv : v = x.i.toNat) (ho : op < 128) (hl : len < 4) (hw : w = enI16l x op len) : unI16l w v = x := by
  have := hdr_lt x.h ho hl; have := x.i.isLt
  simp only [enI16l] at hw hv
  have h_h := un_Hdr (h := x.h) (r := 0) ho hl (hw.trans (by omega))
  have f_i : _ = x.i := fld_eq (w := v) (lo := 0) (n := 32) (by omega)
  simp only [unI16l, h_h, f_i]

theorem ops_I16l (x : I16l) (op len : Nat) {w : Nat} (ho : op < 128) (hl : len < 4) (hw : w = enI16l x op len) :
    w < 4294967296 ∧ w % 4 = len ∧ w / 512 % 128 = op := by
  have := hdr_lt x.h ho hl; have := x.i.isLt
  simp only [enI16l] at hw
  exact ops_Hdr (h := x.h) (r := 0) ho hl (by omega) (hw.trans (by omega))

theorem un_Lo (x : Lo) (op len : Nat) {w : Nat} (ho : op < 128) (hl : len < 4) (hw : w = enLo x op len) : unLo w = x := by
  have := hdr_lt x.h ho hl; have := x.e.isLt; have := Bool.toNat_le x.u; have := x.t.isLt
  simp only [enLo] at hw
  have h_h := un_Hdr (h := x.h) (r := 64 * x.e.toNat + 32 * x.u.toNat + x.t.toNat) ho hl (hw.trans (by omega))
  have f_e : _ = x.e := fld_eq (w := w) (lo := 22) (n := 10) (by omega)
  have f_u : _ = x.u := bitAt_eq (w := w) (k := 21) (by omega)
  have f_t : _ = x.t := fld_eq (w := w) (lo := 16) (n := 5) (by omega)
  simp only [unLo, h_h, f_e, f_u, f_t]

theorem ops_Lo (x : Lo) (op len : Nat) {w : Nat} (ho : op < 128) (hl : len < 4) (hw : w = enLo x op len) :
    w < 4294967296 ∧ w % 4 = len ∧ w / 512 % 128 = op := by
  have := hdr_lt x.h ho hl; have := x.e.isLt; have := Bool.toNat_le x.u; have := x.t.isLt
  simp only [enLo] at hw
  exact ops_Hdr (h := x.h) (r := 64 * x.e.toNat + 32 * x.u.toNat + x.t.toNat) ho hl (by omega) (hw.trans (by omega))

theorem un_Lo64 (x : Lo64) (op len : Nat) {w : Nat} {v : Nat} (hv : v = x.e.toNat) (ho : op < 128) (hl : len < 4) (hw : w = enLo64 x op len) : unLo64 w v = x := by
  have := hdr_lt x.h ho hl; have := Bool.toNat_le x.u; have := x.t.isLt; have := x.e.isLt
  simp only [enLo64] at hw hv
  have h_h := un_Hdr (h := x.h) (r := 32 * x.u.toNat + x.t.toNat) ho hl (hw.trans (by omega))
  have f_u : _ = x.u := bitAt_eq (w := w) (k := 21) (by omega)
  have f_t : _ = x.t := fld_eq (w := w) (lo := 16) (n := 5) (by omega)
  have f_e : _ = x.e := fld_eq (w := v) (lo := 0) (n := 32) (by omega)
  simp only [unLo64, h_h, f_u, f_t, f_e]

theorem ops_Lo64 (x : Lo64) (op len : Nat) {w : Nat} (ho : op < 128) (hl : len < 4) (hw : w = enLo64 x op len) :
    w < 4294967296 ∧ w % 4 = len ∧ w / 512 % 128 = op := by
  have := hdr_lt x.h ho hl; have := Bool.toNat_le x.u; have := x.t.isLt; have := x.e.isLt
  simp only [enLo64] at hw
  exact ops_Hdr (h := x.h) (r := 32 * x.u.toNat + x.t.toNat) ho hl (by omega) (hw.trans (by omega))

theorem un_Lc (x : Lc) (op len : Nat) {w : Nat} (ho : op < 128) (hl : len < 4) (hw : w = enLc x op len) : unLc w = x := by
  have := hdr_lt x.h ho hl; have := x.k.isLt; have := x.z.isLt
  simp only [enLc] at hw
  have h_h := un_Hdr (h := x.h) (r := 1024 * x.k.toNat + 32 * x.z.toNat) ho hl (hw.trans (by omega))
  have f_k : _ = x.k := fld_eq (w := w) (lo := 26) (n := 2) (by omega)
  have f_z : _ = x.z := fld_eq (w := w) (lo := 21) (n := 5) (by omega)
  simp only [unLc, h_h, f_k, f_z]

theorem ops_Lc (x : Lc) (op len : Nat) {w : Nat} (ho : op < 128) (hl : len < 4) (hw : w = enLc x op len) :
    w < 4294967296 ∧ w % 4 = len ∧ w / 512 % 128 = op := by
  have := hdr_lt x.h ho hl; have := x.k.isLt; have := x.z.isLt
  simp only [enLc] at hw
  exact ops_Hdr (h := x.h) (r := 1024 * x.k.toNat + 32 * x.z.toNat) ho hl (by omega) (hw.trans (by omega))

theorem un_D1 (x : D1) (op len e : Nat) {w : Nat} (ho : op < 128) (hl : len < 4) (_he : e < 2048) (hw : w = enD1 x op len + 2097152 * e) : unD1 w = x := by
  have := hdr_lt x.h ho hl; have := x.d.isLt
  simp only [enD1] at hw
  have h_h := un_Hdr (h := x.h) (r := x.d.toNat + 32 * e) ho hl (hw.trans (by omega))
  have f_d : _ = x.d := fld_eq (w := w) (lo := 16) (n := 5) (by omega)
  simp only [unD1, h_h, f_d]

theorem ops_D1 (x : D1) (op len e : Nat) {w : Nat} (ho : op < 128) (hl : len < 4) (he : e < 2048) (hw : w = enD1 x op len + 2097152 * e) :
    w < 4294967296 ∧ w % 4 = len ∧ w / 512 % 128 = op := by
  have := hdr_lt x.h ho hl; have := x.d.isLt
  simp only [enD1] at hw
  exact ops_Hdr (h := x.h) (r := x.d.toNat + 32 * e) ho hl (by omega) (hw.trans (by omega))

/-- The extension number of a word of format `D1`. -/
theorem ext_D1 (x : D1) (op len e : Nat) {w : Nat} (ho : op < 128) (hl : len < 4) (he : e < 1024) (hw : w = enD1 x op len + 2097152 * e) :
    w / 2097152 % 1024 = e := by
  have := hdr_lt x.h ho hl; have := x.d.isLt
  simp only [enD1] at hw
  omega

/-- The bit that format `D1` leaves zero. -/
theorem zero_D1 (x : D1) (op len e : Nat) {w : Nat} (ho : op < 128) (hl : len < 4) (he : e < 1024) (hw : w = enD1 x op len + 2097152 * e) :
    w / 2147483648 = 0 := by
  have := hdr_lt x.h ho hl; have := x.d.isLt
  simp only [enD1] at hw
  omega

theorem un_Ba (x : Ba) (op len : Nat) {w : Nat} (ho : op < 128) (hl : len < 4) (hw : w = enBa x op len) : unBa w = x := by
  have := hdr_lt x.h ho hl; have := x.i.isLt; have := x.p.isLt
  simp only [enBa] at hw
  have h_h := un_Hdr (h := x.h) (r := 32 * x.i.toNat + x.p.toNat) ho hl (hw.trans (by omega))
  have f_i : _ = x.i := fld_eq (w := w) (lo := 21) (n := 11) (by omega)
  have f_p : _ = x.p := fld_eq (w := w) (lo := 16) (n := 3) (by omega)
  simp only [unBa, h_h, f_i, f_p]

theorem ops_Ba (x : Ba) (op len : Nat) {w : Nat} (ho : op < 128) (hl : len < 4) (hw : w = enBa x op len) :
    w < 4294967296 ∧ w % 4 = len ∧ w / 512 % 128 = op := by
  have := hdr_lt x.h ho hl; have := x.i.isLt; have := x.p.isLt
  simp only [enBa] at hw
  exact ops_Hdr (h := x.h) (r := 32 * x.i.toNat + x.p.toNat) ho hl (by omega) (hw.trans (by omega))

theorem un_N11 (x : N11) (op len : Nat) {w : Nat} (ho : op < 128) (hl : len < 4) (hw : w = enN11 x op len) : unN11 w = x := by
  have := hdr_lt x.h ho hl; have := x.i.isLt
  simp only [enN11] at hw
  have h_h := un_Hdr (h := x.h) (r := 32 * x.i.toNat) ho hl (hw.trans (by omega))
  have f_i : _ = x.i := fld_eq (w := w) (lo := 21) (n := 11) (by omega)
  simp only [unN11, h_h, f_i]

theorem ops_N11 (x : N11) (op len : Nat) {w : Nat} (ho : op < 128) (hl : len < 4) (hw : w = enN11 x op len) :
    w < 4294967296 ∧ w % 4 = len ∧ w / 512 % 128 = op := by
  have := hdr_lt x.h ho hl; have := x.i.isLt
  simp only [enN11] at hw
  exact ops_Hdr (h := x.h) (r := 32 * x.i.toNat) ho hl (by omega) (hw.trans (by omega))

theorem un_Ms (x : Ms) (op len e : Nat) {w : Nat} (ho : op < 128) (hl : len < 4) (_he : e < 2) (hw : w = enMs x op len + 2147483648 * e) : unMs w = x := by
  have := hdr_lt x.h ho hl; have := x.b.isLt; have := x.d.isLt
  simp only [enMs] at hw
  have h_h := un_Hdr (h := x.h) (r := 1024 * x.b.toNat + x.d.toNat + 32768 * e) ho hl (hw.trans (by omega))
  have f_b : _ = x.b := fld_eq (w := w) (lo := 26) (n := 5) (by omega)
  have f_d : _ = x.d := fld_eq (w := w) (lo := 16) (n := 5) (by omega)
  simp only [unMs, h_h, f_b, f_d]

theorem ops_Ms (x : Ms) (op len e : Nat) {w : Nat} (ho : op < 128) (hl : len < 4) (he : e < 2) (hw : w = enMs x op len + 2147483648 * e) :
    w < 4294967296 ∧ w % 4 = len ∧ w / 512 % 128 = op := by
  have := hdr_lt x.h ho hl; have := x.b.isLt; have := x.d.isLt
  simp only [enMs] at hw
  exact ops_Hdr (h := x.h) (r := 1024 * x.b.toNat + x.d.toNat + 32768 * e) ho hl (by omega) (hw.trans (by omega))

theorem un_M3 (x : M3) (op len e : Nat) {w : Nat} (ho : op < 128) (hl : len < 4) (_he : e < 2) (hw : w = enM3 x op len + 2147483648 * e) : unM3 w = x := by
  have := hdr_lt x.h ho hl; have := x.b.isLt; have := x.a.isLt; have := x.d.isLt
  simp only [enM3] at hw
  have h_h := un_Hdr (h := x.h) (r := 1024 * x.b.toNat + 32 * x.a.toNat + x.d.toNat + 32768 * e) ho hl (hw.trans (by omega))
  have f_b : _ = x.b := fld_eq (w := w) (lo := 26) (n := 5) (by omega)
  have f_a : _ = x.a := fld_eq (w := w) (lo := 21) (n := 5) (by omega)
  have f_d : _ = x.d := fld_eq (w := w) (lo := 16) (n := 5) (by omega)
  simp only [unM3, h_h, f_b, f_a, f_d]

theorem ops_M3 (x : M3) (op len e : Nat) {w : Nat} (ho : op < 128) (hl : len < 4) (he : e < 2) (hw : w = enM3 x op len + 2147483648 * e) :
    w < 4294967296 ∧ w % 4 = len ∧ w / 512 % 128 = op := by
  have := hdr_lt x.h ho hl; have := x.b.isLt; have := x.a.isLt; have := x.d.isLt
  simp only [enM3] at hw
  exact ops_Hdr (h := x.h) (r := 1024 * x.b.toNat + 32 * x.a.toNat + x.d.toNat + 32768 * e) ho hl (by omega) (hw.trans (by omega))

theorem un_Vh (x : Vh) (op len e : Nat) {w : Nat} (ho : op < 128) (hl : len < 4) (he : e < 32) (hw : w = enVh x op len + 1048576 * e) : unVh w = x := by
  have := hdr_lt x.h ho hl; have := x.v.isLt; have := x.hd.isLt
  simp only [enVh] at hw
  have h_h := un_Hdr (h := x.h) (r := 512 * x.v.toNat + x.hd.toNat + 16 * e) ho hl (hw.trans (by omega))
  have f_v : _ = x.v := fld_eq (w := w) (lo := 25) (n := 5) (by omega)
  have f_hd : _ = x.hd := fld_eq (w := w) (lo := 16) (n := 4) (by omega)
  simp only [unVh, h_h, f_v, f_hd]

theorem ops_Vh (x : Vh) (op len e : Nat) {w : Nat} (ho : op < 128) (hl : len < 4) (he : e < 32) (hw : w = enVh x op len + 1048576 * e) :
    w < 4294967296 ∧ w % 4 = len ∧ w / 512 % 128 = op := by
  have := hdr_lt x.h ho hl; have := x.v.isLt; have := x.hd.isLt
  simp only [enVh] at hw
  exact ops_Hdr (h := x.h) (r := 512 * x.v.toNat + x.hd.toNat + 16 * e) ho hl (by omega) (hw.trans (by omega))

theorem un_V1 (x : V1) (op len e : Nat) {w : Nat} (ho : op < 128) (hl : len < 4) (he : e < 512) (hw : w = enV1 x op len + 65536 * e) : unV1 w = x := by
  have := hdr_lt x.h ho hl; have := x.v.isLt
  simp only [enV1] at hw
  have h_h := un_Hdr (h := x.h) (r := 512 * x.v.toNat + e) ho hl (hw.trans (by omega))
  have f_v : _ = x.v := fld_eq (w := w) (lo := 25) (n := 5) (by omega)
  simp only [unV1, h_h, f_v]

theorem ops_V1 (x : V1) (op len e : Nat) {w : Nat} (ho : op < 128) (hl : len < 4) (he : e < 512) (hw : w = enV1 x op len + 65536 * e) :
    w < 4294967296 ∧ w % 4 = len ∧ w / 512 % 128 = op := by
  have := hdr_lt x.h ho hl; have := x.v.isLt
  simp only [enV1] at hw
  exact ops_Hdr (h := x.h) (r := 512 * x.v.toNat + e) ho hl (by omega) (hw.trans (by omega))

theorem un_Hh (x : Hh) (op len e : Nat) {w : Nat} (ho : op < 128) (hl : len < 4) (_he : e < 4096) (hw : w = enHh x op len + 1048576 * e) : unHh w = x := by
  have := hdr_lt x.h ho hl; have := x.hd.isLt
  simp only [enHh] at hw
  have h_h := un_Hdr (h := x.h) (r := x.hd.toNat + 16 * e) ho hl (hw.trans (by omega))
  have f_hd : _ = x.hd := fld_eq (w := w) (lo := 16) (n := 4) (by omega)
  simp only [unHh, h_h, f_hd]

theorem ops_Hh (x : Hh) (op len e : Nat) {w : Nat} (ho : op < 128) (hl : len < 4) (he : e < 4096) (hw : w = enHh x op len + 1048576 * e) :
    w < 4294967296 ∧ w % 4 = len ∧ w / 512 % 128 = op := by
  have := hdr_lt x.h ho hl; have := x.hd.isLt
  simp only [enHh] at hw
  exact ops_Hdr (h := x.h) (r := x.hd.toNat + 16 * e) ho hl (by omega) (hw.trans (by omega))

theorem un_Bw (x : Bw) (op len : Nat) {w : Nat} {v : Nat} (hv : v = x.i.toNat) (ho : op < 128) (hl : len < 4) (hw : w = enBw x op len) : unBw w v = x := by
  have := hdr_lt x.h ho hl; have := x.a.isLt; have := x.i.isLt
  simp only [enBw] at hw hv
  have h_h := un_Hdr (h := x.h) (r := 32 * x.a.toNat) ho hl (hw.trans (by omega))
  have f_a : _ = x.a := fld_eq (w := w) (lo := 21) (n := 5) (by omega)
  have f_i : _ = x.i := fld_eq (w := v) (lo := 0) (n := 32) (by omega)
  simp only [unBw, h_h, f_a, f_i]

theorem ops_Bw (x : Bw) (op len : Nat) {w : Nat} (ho : op < 128) (hl : len < 4) (hw : w = enBw x op len) :
    w < 4294967296 ∧ w % 4 = len ∧ w / 512 % 128 = op := by
  have := hdr_lt x.h ho hl; have := x.a.isLt; have := x.i.isLt
  simp only [enBw] at hw
  exact ops_Hdr (h := x.h) (r := 32 * x.a.toNat) ho hl (by omega) (hw.trans (by omega))

theorem un_Tq (x : Tq) (op len : Nat) {w : Nat} {v : Nat} (hv : v = x.k.toNat) (ho : op < 128) (hl : len < 4) (hw : w = enTq x op len) : unTq w v = x := by
  have := hdr_lt x.h ho hl; have := x.x.isLt; have := x.v.isLt; have := x.m.isLt; have := x.hd.isLt; have := x.k.isLt
  simp only [enTq] at hw hv
  have h_h := un_Hdr (h := x.h) (r := 16384 * x.x.toNat + 512 * x.v.toNat + 16 * x.m.toNat + x.hd.toNat) ho hl (hw.trans (by omega))
  have f_x : _ = x.x := fld_eq (w := w) (lo := 30) (n := 2) (by omega)
  have f_v : _ = x.v := fld_eq (w := w) (lo := 25) (n := 5) (by omega)
  have f_m : _ = x.m := fld_eq (w := w) (lo := 20) (n := 5) (by omega)
  have f_hd : _ = x.hd := fld_eq (w := w) (lo := 16) (n := 4) (by omega)
  have f_k : _ = x.k := fld_eq (w := v) (lo := 0) (n := 3) (by omega)
  simp only [unTq, h_h, f_x, f_v, f_m, f_hd, f_k]

theorem ops_Tq (x : Tq) (op len : Nat) {w : Nat} (ho : op < 128) (hl : len < 4) (hw : w = enTq x op len) :
    w < 4294967296 ∧ w % 4 = len ∧ w / 512 % 128 = op := by
  have := hdr_lt x.h ho hl; have := x.x.isLt; have := x.v.isLt; have := x.m.isLt; have := x.hd.isLt; have := x.k.isLt
  simp only [enTq] at hw
  exact ops_Hdr (h := x.h) (r := 16384 * x.x.toNat + 512 * x.v.toNat + 16 * x.m.toNat + x.hd.toNat) ho hl (by omega) (hw.trans (by omega))

theorem un_Tl (x : Tl) (op len : Nat) {w : Nat} {v : Nat} (hv : v = (x.rh.toNat + 16 * x.rl.toNat)) (ho : op < 128) (hl : len < 4) (hw : w = enTl x op len) : unTl w v = x := by
  have := hdr_lt x.h ho hl; have := x.v.isLt; have := x.m.isLt; have := x.hd.isLt; have := x.rh.isLt; have := x.rl.isLt
  simp only [enTl] at hw hv
  have h_h := un_Hdr (h := x.h) (r := 512 * x.v.toNat + 16 * x.m.toNat + x.hd.toNat) ho hl (hw.trans (by omega))
  have f_v : _ = x.v := fld_eq (w := w) (lo := 25) (n := 5) (by omega)
  have f_m : _ = x.m := fld_eq (w := w) (lo := 20) (n := 5) (by omega)
  have f_hd : _ = x.hd := fld_eq (w := w) (lo := 16) (n := 4) (by omega)
  have f_rh : _ = x.rh := fld_eq (w := v) (lo := 0) (n := 4) (by omega)
  have f_rl : _ = x.rl := fld_eq (w := v) (lo := 4) (n := 5) (by omega)
  simp only [unTl, h_h, f_v, f_m, f_hd, f_rh, f_rl]

theorem ops_Tl (x : Tl) (op len : Nat) {w : Nat} (ho : op < 128) (hl : len < 4) (hw : w = enTl x op len) :
    w < 4294967296 ∧ w % 4 = len ∧ w / 512 % 128 = op := by
  have := hdr_lt x.h ho hl; have := x.v.isLt; have := x.m.isLt; have := x.hd.isLt; have := x.rh.isLt; have := x.rl.isLt
  simp only [enTl] at hw
  exact ops_Hdr (h := x.h) (r := 512 * x.v.toNat + 16 * x.m.toNat + x.hd.toNat) ho hl (by omega) (hw.trans (by omega))

theorem un_Ed (x : Ed) (op len e : Nat) {w : Nat} (ho : op < 128) (hl : len < 4) (he : e < 1024) (hw : w = enEd x op len + 2097152 * e) : unEd w = x := by
  have := hdr_lt x.h ho hl; have := Bool.toNat_le x.u; have := x.d.isLt
  simp only [enEd] at hw
  have h_h := un_Hdr (h := x.h) (r := 32768 * x.u.toNat + x.d.toNat + 32 * e) ho hl (hw.trans (by omega))
  have f_u : _ = x.u := bitAt_eq (w := w) (k := 31) (by omega)
  have f_d : _ = x.d := fld_eq (w := w) (lo := 16) (n := 5) (by omega)
  simp only [unEd, h_h, f_u, f_d]

theorem ops_Ed (x : Ed) (op len e : Nat) {w : Nat} (ho : op < 128) (hl : len < 4) (he : e < 1024) (hw : w = enEd x op len + 2097152 * e) :
    w < 4294967296 ∧ w % 4 = len ∧ w / 512 % 128 = op := by
  have := hdr_lt x.h ho hl; have := Bool.toNat_le x.u; have := x.d.isLt
  simp only [enEd] at hw
  exact ops_Hdr (h := x.h) (r := 32768 * x.u.toNat + x.d.toNat + 32 * e) ho hl (by omega) (hw.trans (by omega))

/-- The extension number of a word of format `Ed`. -/
theorem ext_Ed (x : Ed) (op len e : Nat) {w : Nat} (ho : op < 128) (hl : len < 4) (he : e < 1024) (hw : w = enEd x op len + 2097152 * e) :
    w / 2097152 % 1024 = e := by
  have := hdr_lt x.h ho hl; have := Bool.toNat_le x.u; have := x.d.isLt
  simp only [enEd] at hw
  omega

theorem un_E64 (x : E64) (op len e : Nat) {w : Nat} {v : Nat} (hv : v = enExt x) (ho : op < 128) (hl : len < 4) (he : e < 1024) (hw : w = enE64 x op len + 2097152 * e) : unE64 w v = x := by
  have := hdr_lt x.h ho hl; have := Bool.toNat_le x.u; have := x.d.isLt; have := x.i.isLt; have := x.p.isLt; have := Bool.toNat_le x.bu; have := Bool.toNat_le x.au; have := x.b.isLt; have := x.a.isLt
  simp only [enE64, enExt] at hw hv
  have h_h := un_Hdr (h := x.h) (r := 32768 * x.u.toNat + x.d.toNat + 32 * e) ho hl (hw.trans (by omega))
  have f_u : _ = x.u := bitAt_eq (w := w) (k := 31) (by omega)
  have f_d : _ = x.d := fld_eq (w := w) (lo := 16) (n := 5) (by omega)
  have f_i : _ = x.i := fld_eq (w := v) (lo := 16) (n := 16) (by omega)
  have f_p : _ = x.p := fld_eq (w := v) (lo := 12) (n := 4) (by omega)
  have f_bu : _ = x.bu := bitAt_eq (w := v) (k := 11) (by omega)
  have f_au : _ = x.au := bitAt_eq (w := v) (k := 10) (by omega)
  have f_b : _ = x.b := fld_eq (w := v) (lo := 5) (n := 5) (by omega)
  have f_a : _ = x.a := fld_eq (w := v) (lo := 0) (n := 5) (by omega)
  simp only [unE64, h_h, f_u, f_d, f_i, f_p, f_bu, f_au, f_b, f_a]

theorem ops_E64 (x : E64) (op len e : Nat) {w : Nat} (ho : op < 128) (hl : len < 4) (he : e < 1024) (hw : w = enE64 x op len + 2097152 * e) :
    w < 4294967296 ∧ w % 4 = len ∧ w / 512 % 128 = op := by
  have := hdr_lt x.h ho hl; have := Bool.toNat_le x.u; have := x.d.isLt; have := x.i.isLt; have := x.p.isLt; have := Bool.toNat_le x.bu; have := Bool.toNat_le x.au; have := x.b.isLt; have := x.a.isLt
  simp only [enE64] at hw
  exact ops_Hdr (h := x.h) (r := 32768 * x.u.toNat + x.d.toNat + 32 * e) ho hl (by omega) (hw.trans (by omega))

/-- The extension number of a word of format `E64`. -/
theorem ext_E64 (x : E64) (op len e : Nat) {w : Nat} (ho : op < 128) (hl : len < 4) (he : e < 1024) (hw : w = enE64 x op len + 2097152 * e) :
    w / 2097152 % 1024 = e := by
  have := hdr_lt x.h ho hl; have := Bool.toNat_le x.u; have := x.d.isLt
  simp only [enE64] at hw
  omega

theorem un_Modifier (m : Modifier) {v : Nat} (hv : v = enModifier m) : unModifier v = m := by
  have := Bool.toNat_le m.au; have := Bool.toNat_le m.du; have := m.rnd.isLt; have := Bool.toNat_le m.cu; have := Bool.toNat_le m.cp; have := m.c.isLt; have := m.k.isLt; have := Bool.toNat_le m.negd; have := Bool.toNat_le m.absb; have := Bool.toNat_le m.absa; have := Bool.toNat_le m.negb; have := Bool.toNat_le m.nega; have := m.sat.isLt; 
  simp only [enModifier] at hv
  have f_au : _ = m.au := bitAt_eq (w := v) (k := 25) (by omega)
  have f_du : _ = m.du := bitAt_eq (w := v) (k := 24) (by omega)
  have f_rnd : _ = m.rnd := fld_eq (w := v) (lo := 22) (n := 2) (by omega)
  have f_cu : _ = m.cu := bitAt_eq (w := v) (k := 21) (by omega)
  have f_cp : _ = m.cp := bitAt_eq (w := v) (k := 20) (by omega)
  have f_c : _ = m.c := fld_eq (w := v) (lo := 15) (n := 5) (by omega)
  have f_k : _ = m.k := fld_eq (w := v) (lo := 7) (n := 8) (by omega)
  have f_negd : _ = m.negd := bitAt_eq (w := v) (k := 6) (by omega)
  have f_absb : _ = m.absb := bitAt_eq (w := v) (k := 5) (by omega)
  have f_absa : _ = m.absa := bitAt_eq (w := v) (k := 4) (by omega)
  have f_negb : _ = m.negb := bitAt_eq (w := v) (k := 3) (by omega)
  have f_nega : _ = m.nega := bitAt_eq (w := v) (k := 2) (by omega)
  have f_sat : _ = m.sat := fld_eq (w := v) (lo := 0) (n := 2) (by omega)
  simp only [unModifier, f_au, f_du, f_rnd, f_cu, f_cp, f_c, f_k, f_negd, f_absb, f_absa, f_negb, f_nega, f_sat]

theorem lt_Modifier (m : Modifier) : enModifier m < 67108864 := by
  have := Bool.toNat_le m.au; have := Bool.toNat_le m.du; have := m.rnd.isLt; have := Bool.toNat_le m.cu; have := Bool.toNat_le m.cp; have := m.c.isLt; have := m.k.isLt; have := Bool.toNat_le m.negd; have := Bool.toNat_le m.absb; have := Bool.toNat_le m.absa; have := Bool.toNat_le m.negb; have := Bool.toNat_le m.nega; have := m.sat.isLt; 
  simp only [enModifier]; omega

/-- The modifier word leaves its top bits zero. -/
theorem zero_Modifier (m : Modifier) : enModifier m / 67108864 = 0 := Nat.div_eq_of_lt (lt_Modifier m)

theorem lt32_Modifier (m : Modifier) : enModifier m < 4294967296 := Nat.lt_trans (lt_Modifier m) (by decide)

theorem lt_Ext (x : E64) : enExt x < 4294967296 := by
  have := Bool.toNat_le x.h.n; have := x.h.g.isLt; have := x.h.s.isLt; have := Bool.toNat_le x.u; have := x.d.isLt; have := x.i.isLt; have := x.p.isLt; have := Bool.toNat_le x.bu; have := Bool.toNat_le x.au; have := x.b.isLt; have := x.a.isLt; 
  simp only [enExt]; omega

/-- The immediate of an extension word. -/
theorem imm_Ext (x : E64) : enExt x / 65536 = x.i.toNat := by
  have := x.p.isLt; have := Bool.toNat_le x.bu; have := Bool.toNat_le x.au; have := x.b.isLt; have := x.a.isLt
  simp only [enExt]; omega

theorem op32_0 {w : Nat} (h : w / 512 % 128 = 0) : op32 w = some .iadd := by
  unfold op32; rw [h]; rfl
theorem op32_1 {w : Nat} (h : w / 512 % 128 = 1) : op32 w = some .isub := by
  unfold op32; rw [h]; rfl
theorem op32_2 {w : Nat} (h : w / 512 % 128 = 2) : op32 w = some .imul := by
  unfold op32; rw [h]; rfl
theorem op32_3 {w : Nat} (h : w / 512 % 128 = 3) : op32 w = some .imulhI := by
  unfold op32; rw [h]; rfl
theorem op32_4 {w : Nat} (h : w / 512 % 128 = 4) : op32 w = some .imulhN := by
  unfold op32; rw [h]; rfl
theorem op32_5 {w : Nat} (h : w / 512 % 128 = 5) : op32 w = some .imac := by
  unfold op32; rw [h]; rfl
theorem op32_6 {w : Nat} (h : w / 512 % 128 = 6) : op32 w = some .iminI := by
  unfold op32; rw [h]; rfl
theorem op32_7 {w : Nat} (h : w / 512 % 128 = 7) : op32 w = some .iminN := by
  unfold op32; rw [h]; rfl
theorem op32_8 {w : Nat} (h : w / 512 % 128 = 8) : op32 w = some .imaxI := by
  unfold op32; rw [h]; rfl
theorem op32_9 {w : Nat} (h : w / 512 % 128 = 9) : op32 w = some .imaxN := by
  unfold op32; rw [h]; rfl
theorem op32_10 {w : Nat} (h : w / 512 % 128 = 10) : op32 w = some .iabsd := by
  unfold op32; rw [h]; rfl
theorem op32_11 {w : Nat} (h : w / 512 % 128 = 11) : op32 w = some .and := by
  unfold op32; rw [h]; rfl
theorem op32_12 {w : Nat} (h : w / 512 % 128 = 12) : op32 w = some .or := by
  unfold op32; rw [h]; rfl
theorem op32_13 {w : Nat} (h : w / 512 % 128 = 13) : op32 w = some .xor := by
  unfold op32; rw [h]; rfl
theorem op32_14 {w : Nat} (h : w / 512 % 128 = 14) : op32 w = some .andn := by
  unfold op32; rw [h]; rfl
theorem op32_15 {w : Nat} (h : w / 512 % 128 = 15) : op32 w = if w / 67108864 = 0 then some .mov else none := by
  unfold op32; rw [h]; rfl
theorem op32_16 {w : Nat} (h : w / 512 % 128 = 16) : op32 w = some .shl := by
  unfold op32; rw [h]; rfl
theorem op32_17 {w : Nat} (h : w / 512 % 128 = 17) : op32 w = some .shrN := by
  unfold op32; rw [h]; rfl
theorem op32_18 {w : Nat} (h : w / 512 % 128 = 18) : op32 w = some .shrI := by
  unfold op32; rw [h]; rfl
theorem op32_19 {w : Nat} (h : w / 512 % 128 = 19) : op32 w = if w / 67108864 = 0 then some .clz else none := by
  unfold op32; rw [h]; rfl
theorem op32_20 {w : Nat} (h : w / 512 % 128 = 20) : op32 w = if w / 67108864 = 0 then some .popc else none := by
  unfold op32; rw [h]; rfl
theorem op32_21 {w : Nat} (h : w / 512 % 128 = 21) : op32 w = some .bfxN := by
  unfold op32; rw [h]; rfl
theorem op32_22 {w : Nat} (h : w / 512 % 128 = 22) : op32 w = some .bfxI := by
  unfold op32; rw [h]; rfl
theorem op32_23 {w : Nat} (h : w / 512 % 128 = 23) : op32 w = some .bfi := by
  unfold op32; rw [h]; rfl
theorem op32_24 {w : Nat} (h : w / 512 % 128 = 24) : op32 w = some .perm := by
  unfold op32; rw [h]; rfl
theorem op32_25 {w : Nat} (h : w / 512 % 128 = 25) : op32 w = some .icmpEq := by
  unfold op32; rw [h]; rfl
theorem op32_26 {w : Nat} (h : w / 512 % 128 = 26) : op32 w = some .icmpNe := by
  unfold op32; rw [h]; rfl
theorem op32_27 {w : Nat} (h : w / 512 % 128 = 27) : op32 w = some .icmpLtI := by
  unfold op32; rw [h]; rfl
theorem op32_28 {w : Nat} (h : w / 512 % 128 = 28) : op32 w = some .icmpLeI := by
  unfold op32; rw [h]; rfl
theorem op32_29 {w : Nat} (h : w / 512 % 128 = 29) : op32 w = some .icmpLtN := by
  unfold op32; rw [h]; rfl
theorem op32_30 {w : Nat} (h : w / 512 % 128 = 30) : op32 w = some .icmpLeN := by
  unfold op32; rw [h]; rfl
theorem op32_31 {w : Nat} (h : w / 512 % 128 = 31) : op32 w = if w / 1048576 % 2 = 0 ∧ w / 33554432 % 2 = 0 ∧ w / 1073741824 = 0 then some .qlopAnd else if w / 1048576 % 2 = 0 ∧ w / 33554432 % 2 = 0 ∧ w / 1073741824 = 1 then some .qlopOr else if w / 1048576 % 2 = 0 ∧ w / 33554432 % 2 = 0 ∧ w / 1073741824 = 2 then some .qlopXor else if w / 1048576 % 2 = 0 ∧ w / 33554432 % 2 = 0 ∧ w / 1073741824 = 3 then some .qlopAndn else none := by
  unfold op32; rw [h]; rfl
theorem op32_32 {w : Nat} (h : w / 512 % 128 = 32) : op32 w = some .ladd := by
  unfold op32; rw [h]; rfl
theorem op32_33 {w : Nat} (h : w / 512 % 128 = 33) : op32 w = some .lsub := by
  unfold op32; rw [h]; rfl
theorem op32_34 {w : Nat} (h : w / 512 % 128 = 34) : op32 w = some .lmul := by
  unfold op32; rw [h]; rfl
theorem op32_35 {w : Nat} (h : w / 512 % 128 = 35) : op32 w = some .lmac := by
  unfold op32; rw [h]; rfl
theorem op32_36 {w : Nat} (h : w / 512 % 128 = 36) : op32 w = some .lshl := by
  unfold op32; rw [h]; rfl
theorem op32_37 {w : Nat} (h : w / 512 % 128 = 37) : op32 w = some .lshrN := by
  unfold op32; rw [h]; rfl
theorem op32_38 {w : Nat} (h : w / 512 % 128 = 38) : op32 w = some .lshrI := by
  unfold op32; rw [h]; rfl
theorem op32_39 {w : Nat} (h : w / 512 % 128 = 39) : op32 w = if w / 67108864 = 0 then some .lextI else none := by
  unfold op32; rw [h]; rfl
theorem op32_40 {w : Nat} (h : w / 512 % 128 = 40) : op32 w = if w / 67108864 = 0 then some .lextN else none := by
  unfold op32; rw [h]; rfl
theorem op32_41 {w : Nat} (h : w / 512 % 128 = 41) : op32 w = some .lcmpEq := by
  unfold op32; rw [h]; rfl
theorem op32_42 {w : Nat} (h : w / 512 % 128 = 42) : op32 w = some .lcmpNe := by
  unfold op32; rw [h]; rfl
theorem op32_43 {w : Nat} (h : w / 512 % 128 = 43) : op32 w = some .lcmpLtI := by
  unfold op32; rw [h]; rfl
theorem op32_44 {w : Nat} (h : w / 512 % 128 = 44) : op32 w = some .lcmpLtN := by
  unfold op32; rw [h]; rfl
theorem op32_45 {w : Nat} (h : w / 512 % 128 = 45) : op32 w = some .lea2 := by
  unfold op32; rw [h]; rfl
theorem op32_46 {w : Nat} (h : w / 512 % 128 = 46) : op32 w = some .lea3 := by
  unfold op32; rw [h]; rfl
theorem op32_47 {w : Nat} (h : w / 512 % 128 = 47) : op32 w = some .lea4 := by
  unfold op32; rw [h]; rfl
theorem op32_48 {w : Nat} (h : w / 512 % 128 = 48) : op32 w = some .fadd := by
  unfold op32; rw [h]; rfl
theorem op32_49 {w : Nat} (h : w / 512 % 128 = 49) : op32 w = some .fsub := by
  unfold op32; rw [h]; rfl
theorem op32_50 {w : Nat} (h : w / 512 % 128 = 50) : op32 w = some .fmul := by
  unfold op32; rw [h]; rfl
theorem op32_51 {w : Nat} (h : w / 512 % 128 = 51) : op32 w = some .ffma := by
  unfold op32; rw [h]; rfl
theorem op32_52 {w : Nat} (h : w / 512 % 128 = 52) : op32 w = some .fmin := by
  unfold op32; rw [h]; rfl
theorem op32_53 {w : Nat} (h : w / 512 % 128 = 53) : op32 w = some .fmax := by
  unfold op32; rw [h]; rfl
theorem op32_54 {w : Nat} (h : w / 512 % 128 = 54) : op32 w = some .fcmpEq := by
  unfold op32; rw [h]; rfl
theorem op32_55 {w : Nat} (h : w / 512 % 128 = 55) : op32 w = some .fcmpNe := by
  unfold op32; rw [h]; rfl
theorem op32_56 {w : Nat} (h : w / 512 % 128 = 56) : op32 w = some .fcmpLt := by
  unfold op32; rw [h]; rfl
theorem op32_57 {w : Nat} (h : w / 512 % 128 = 57) : op32 w = some .fcmpLe := by
  unfold op32; rw [h]; rfl
theorem op32_58 {w : Nat} (h : w / 512 % 128 = 58) : op32 w = if w / 2147483648 = 0 then some .fsfu else none := by
  unfold op32; rw [h]; rfl
theorem op32_59 {w : Nat} (h : w / 512 % 128 = 59) : op32 w = some .hadd2F16 := by
  unfold op32; rw [h]; rfl
theorem op32_60 {w : Nat} (h : w / 512 % 128 = 60) : op32 w = some .hmul2F16 := by
  unfold op32; rw [h]; rfl
theorem op32_61 {w : Nat} (h : w / 512 % 128 = 61) : op32 w = some .hfma2F16 := by
  unfold op32; rw [h]; rfl
theorem op32_62 {w : Nat} (h : w / 512 % 128 = 62) : op32 w = some .hfma2Bf16 := by
  unfold op32; rw [h]; rfl
theorem op32_63 {w : Nat} (h : w / 512 % 128 = 63) : op32 w = some .hadd2Bf16 := by
  unfold op32; rw [h]; rfl
theorem op32_64 {w : Nat} (h : w / 512 % 128 = 64) : op32 w = if w / 2147483648 = 0 then some .cvt else none := by
  unfold op32; rw [h]; rfl
theorem op32_65 {w : Nat} (h : w / 512 % 128 = 65) : op32 w = if w / 2147483648 = 0 then some .cvtp else none := by
  unfold op32; rw [h]; rfl
theorem op32_66 {w : Nat} (h : w / 512 % 128 = 66) : op32 w = some .iaddi := by
  unfold op32; rw [h]; rfl
theorem op32_67 {w : Nat} (h : w / 512 % 128 = 67) : op32 w = some .andi := by
  unfold op32; rw [h]; rfl
theorem op32_68 {w : Nat} (h : w / 512 % 128 = 68) : op32 w = some .ori := by
  unfold op32; rw [h]; rfl
theorem op32_69 {w : Nat} (h : w / 512 % 128 = 69) : op32 w = some .xori := by
  unfold op32; rw [h]; rfl
theorem op32_70 {w : Nat} (h : w / 512 % 128 = 70) : op32 w = some .shli := by
  unfold op32; rw [h]; rfl
theorem op32_71 {w : Nat} (h : w / 512 % 128 = 71) : op32 w = some .shriN := by
  unfold op32; rw [h]; rfl
theorem op32_72 {w : Nat} (h : w / 512 % 128 = 72) : op32 w = some .shriI := by
  unfold op32; rw [h]; rfl
theorem op32_73 {w : Nat} (h : w / 512 % 128 = 73) : op32 w = some .movi := by
  unfold op32; rw [h]; rfl
theorem op32_74 {w : Nat} (h : w / 512 % 128 = 74) : op32 w = some .movhi := by
  unfold op32; rw [h]; rfl
theorem op32_75 {w : Nat} (h : w / 512 % 128 = 75) : op32 w = some .icmpiEq := by
  unfold op32; rw [h]; rfl
theorem op32_76 {w : Nat} (h : w / 512 % 128 = 76) : op32 w = some .icmpiLtI := by
  unfold op32; rw [h]; rfl
theorem op32_77 {w : Nat} (h : w / 512 % 128 = 77) : op32 w = some .fmovi := by
  unfold op32; rw [h]; rfl
theorem op32_80 {w : Nat} (h : w / 512 % 128 = 80) : op32 w = some .ld := by
  unfold op32; rw [h]; rfl
theorem op32_81 {w : Nat} (h : w / 512 % 128 = 81) : op32 w = some .st := by
  unfold op32; rw [h]; rfl
theorem op32_82 {w : Nat} (h : w / 512 % 128 = 82) : op32 w = some .atomAdd := by
  unfold op32; rw [h]; rfl
theorem op32_83 {w : Nat} (h : w / 512 % 128 = 83) : op32 w = some .atomFadd := by
  unfold op32; rw [h]; rfl
theorem op32_84 {w : Nat} (h : w / 512 % 128 = 84) : op32 w = some .atomMin := by
  unfold op32; rw [h]; rfl
theorem op32_85 {w : Nat} (h : w / 512 % 128 = 85) : op32 w = some .atomMax := by
  unfold op32; rw [h]; rfl
theorem op32_86 {w : Nat} (h : w / 512 % 128 = 86) : op32 w = some .atomAnd := by
  unfold op32; rw [h]; rfl
theorem op32_87 {w : Nat} (h : w / 512 % 128 = 87) : op32 w = some .atomOr := by
  unfold op32; rw [h]; rfl
theorem op32_88 {w : Nat} (h : w / 512 % 128 = 88) : op32 w = some .atomXor := by
  unfold op32; rw [h]; rfl
theorem op32_89 {w : Nat} (h : w / 512 % 128 = 89) : op32 w = some .atomExch := by
  unfold op32; rw [h]; rfl
theorem op32_90 {w : Nat} (h : w / 512 % 128 = 90) : op32 w = some .atomCas := by
  unfold op32; rw [h]; rfl
theorem op32_91 {w : Nat} (h : w / 512 % 128 = 91) : op32 w = if w / 65536 % 32 = 0 ∧ w / 16777216 = 0 then some .fenceFull else if w / 65536 % 32 = 0 ∧ w / 16777216 = 1 then some .fenceAcq else if w / 65536 % 32 = 0 ∧ w / 16777216 = 2 then some .fenceRel else if w / 65536 = 768 then some .fenceWack else none := by
  unfold op32; rw [h]; rfl
theorem op32_92 {w : Nat} (h : w / 512 % 128 = 92) : op32 w = if w / 65536 % 32 = 0 ∧ w / 16777216 = 0 then some .phase else none := by
  unfold op32; rw [h]; rfl
theorem op32_93 {w : Nat} (h : w / 512 % 128 = 93) : op32 w = if w / 65536 = 0 then some .fetchb else none := by
  unfold op32; rw [h]; rfl
theorem op32_94 {w : Nat} (h : w / 512 % 128 = 94) : op32 w = if w / 65536 % 32 = 0 ∧ w / 67108864 = 0 then some .copInv else if w / 65536 % 32 = 0 ∧ w / 67108864 = 1 then some .copWb else if w / 65536 % 32 = 0 ∧ w / 67108864 = 2 then some .copWbi else none := by
  unfold op32; rw [h]; rfl
theorem op32_96 {w : Nat} (h : w / 512 % 128 = 96) : op32 w = some .bra := by
  unfold op32; rw [h]; rfl
theorem op32_97 {w : Nat} (h : w / 512 % 128 = 97) : op32 w = if w / 65536 % 32 = 0 ∧ w / 67108864 = 0 then some .brx else none := by
  unfold op32; rw [h]; rfl
theorem op32_98 {w : Nat} (h : w / 512 % 128 = 98) : op32 w = some .call := by
  unfold op32; rw [h]; rfl
theorem op32_99 {w : Nat} (h : w / 512 % 128 = 99) : op32 w = if w / 65536 % 32 = 0 ∧ w / 67108864 = 0 then some .callx else none := by
  unfold op32; rw [h]; rfl
theorem op32_100 {w : Nat} (h : w / 512 % 128 = 100) : op32 w = if w / 65536 = 0 then some .ret else none := by
  unfold op32; rw [h]; rfl
theorem op32_101 {w : Nat} (h : w / 512 % 128 = 101) : op32 w = if w / 65536 = 0 then some .exit else none := by
  unfold op32; rw [h]; rfl
theorem op32_102 {w : Nat} (h : w / 512 % 128 = 102) : op32 w = some .loop := by
  unfold op32; rw [h]; rfl
theorem op32_103 {w : Nat} (h : w / 512 % 128 = 103) : op32 w = if w / 65536 = 0 then some .brk else none := by
  unfold op32; rw [h]; rfl
theorem op32_104 {w : Nat} (h : w / 512 % 128 = 104) : op32 w = if w / 65536 % 32 = 0 ∧ w / 268435456 = 0 then some .lcfg else none := by
  unfold op32; rw [h]; rfl
theorem op32_105 {w : Nat} (h : w / 512 % 128 = 105) : op32 w = if w / 65536 = 0 then some .cnv else if w / 2097152 = 1 then some .cnvMask else none := by
  unfold op32; rw [h]; rfl
theorem op32_106 {w : Nat} (h : w / 512 % 128 = 106) : op32 w = if w / 524288 % 4 = 0 then some .bar else none := by
  unfold op32; rw [h]; rfl
theorem op32_107 {w : Nat} (h : w / 512 % 128 = 107) : op32 w = if w / 65536 % 32 = 0 then some .trap else none := by
  unfold op32; rw [h]; rfl
theorem op32_108 {w : Nat} (h : w / 512 % 128 = 108) : op32 w = if w / 65536 % 32 = 0 then some .sysc else none := by
  unfold op32; rw [h]; rfl
theorem op32_109 {w : Nat} (h : w / 512 % 128 = 109) : op32 w = if w / 65536 % 32 = 0 then some .bkpt else none := by
  unfold op32; rw [h]; rfl
theorem op32_111 {w : Nat} (h : w / 512 % 128 = 111) : op32 w = if w / 65536 = 0 then some .yield else none := by
  unfold op32; rw [h]; rfl
theorem op32_112 {w : Nat} (h : w / 512 % 128 = 112) : op32 w = if w / 2097152 % 32 = 0 ∧ w / 2147483648 = 1 then some .mapset else none := by
  unfold op32; rw [h]; rfl
theorem op32_113 {w : Nat} (h : w / 512 % 128 = 113) : op32 w = if w / 2147483648 = 0 then some .mapchn else none := by
  unfold op32; rw [h]; rfl
theorem op32_114 {w : Nat} (h : w / 512 % 128 = 114) : op32 w = if w / 2147483648 = 1 then some .mapprt else none := by
  unfold op32; rw [h]; rfl
theorem op32_115 {w : Nat} (h : w / 512 % 128 = 115) : op32 w = if w / 2147483648 = 1 then some .maptrn else none := by
  unfold op32; rw [h]; rfl
theorem op32_116 {w : Nat} (h : w / 512 % 128 = 116) : op32 w = if w / 67108864 = 0 then some .mapflt else none := by
  unfold op32; rw [h]; rfl
theorem op32_119 {w : Nat} (h : w / 512 % 128 = 119) : op32 w = if w / 1048576 % 32 = 0 ∧ w / 1073741824 = 0 then some .hset else none := by
  unfold op32; rw [h]; rfl
theorem op32_120 {w : Nat} (h : w / 512 % 128 = 120) : op32 w = if w / 65536 % 512 = 0 ∧ w / 1073741824 = 0 then some .tcpy else none := by
  unfold op32; rw [h]; rfl
theorem op32_121 {w : Nat} (h : w / 512 % 128 = 121) : op32 w = if w / 65536 % 512 = 0 ∧ w / 1073741824 = 0 then some .tmma else none := by
  unfold op32; rw [h]; rfl
theorem op32_122 {w : Nat} (h : w / 512 % 128 = 122) : op32 w = if w / 65536 % 512 = 0 ∧ w / 1073741824 = 0 then some .tgat else none := by
  unfold op32; rw [h]; rfl
theorem op32_123 {w : Nat} (h : w / 512 % 128 = 123) : op32 w = if w / 65536 % 512 = 0 ∧ w / 1073741824 = 0 then some .tcol else none := by
  unfold op32; rw [h]; rfl
theorem op32_126 {w : Nat} (h : w / 512 % 128 = 126) : op32 w = if w / 1048576 = 0 then some .accZero else if w / 1048576 % 32 = 1 ∧ w / 1073741824 = 0 then some .accSetexp else if w / 1048576 % 32 = 2 ∧ w / 1073741824 = 0 then some .accRdrow else if w / 1048576 % 32 = 3 ∧ w / 1073741824 = 0 then some .accWrrow else if w / 1048576 = 4 then some .accClrst else none := by
  unfold op32; rw [h]; rfl
theorem op32_127 {w : Nat} (h : w / 512 % 128 = 127) : op32 w = opExt32 w := by
  unfold op32; rw [h]; rfl
theorem opExt32_0 {w : Nat} (h : w / 2097152 % 1024 = 0) : opExt32 w = if w / 2147483648 = 0 ∧ w / 65536 % 32 = 0 then some .nop else none := by
  unfold opExt32; rw [h]; rfl
theorem opExt32_1 {w : Nat} (h : w / 2097152 % 1024 = 1) : opExt32 w = some .idivI := by
  unfold opExt32; rw [h]; rfl
theorem opExt32_2 {w : Nat} (h : w / 2097152 % 1024 = 2) : opExt32 w = some .idivN := by
  unfold opExt32; rw [h]; rfl
theorem opExt32_3 {w : Nat} (h : w / 2097152 % 1024 = 3) : opExt32 w = some .iremI := by
  unfold opExt32; rw [h]; rfl
theorem opExt32_4 {w : Nat} (h : w / 2097152 % 1024 = 4) : opExt32 w = some .iremN := by
  unfold opExt32; rw [h]; rfl
theorem opExt32_5 {w : Nat} (h : w / 2097152 % 1024 = 5) : opExt32 w = some .rotl := by
  unfold opExt32; rw [h]; rfl
theorem opExt32_6 {w : Nat} (h : w / 2097152 % 1024 = 6) : opExt32 w = some .brev := by
  unfold opExt32; rw [h]; rfl
theorem opExt32_7 {w : Nat} (h : w / 2097152 % 1024 = 7) : opExt32 w = if w / 2147483648 = 0 then some .fcmpOrd else none := by
  unfold opExt32; rw [h]; rfl
theorem opExt32_8 {w : Nat} (h : w / 2097152 % 1024 = 8) : opExt32 w = if w / 2147483648 = 0 then some .fcmpUnord else none := by
  unfold opExt32; rw [h]; rfl
theorem opExt32_9 {w : Nat} (h : w / 2097152 % 1024 = 9) : opExt32 w = some .fclass := by
  unfold opExt32; rw [h]; rfl
theorem opExt32_10 {w : Nat} (h : w / 2097152 % 1024 = 10) : opExt32 w = some .frnd := by
  unfold opExt32; rw [h]; rfl
theorem opExt32_11 {w : Nat} (h : w / 2097152 % 1024 = 11) : opExt32 w = some .fexp := by
  unfold opExt32; rw [h]; rfl
theorem opExt32_64 {w : Nat} (h : w / 2097152 % 1024 = 64) : opExt32 w = if w / 2147483648 = 0 then some .q2v else none := by
  unfold opExt32; rw [h]; rfl
theorem opExt32_65 {w : Nat} (h : w / 2097152 % 1024 = 65) : opExt32 w = if w / 2147483648 = 0 ∧ w / 65536 % 32 = 0 then some .v2q else none := by
  unfold opExt32; rw [h]; rfl
theorem opExt32_66 {w : Nat} (h : w / 2097152 % 1024 = 66) : opExt32 w = some .qpop := by
  unfold opExt32; rw [h]; rfl
theorem opExt32_67 {w : Nat} (h : w / 2097152 % 1024 = 67) : opExt32 w = if w / 2147483648 = 0 then some .pfirst else none := by
  unfold opExt32; rw [h]; rfl
theorem opExt32_68 {w : Nat} (h : w / 2097152 % 1024 = 68) : opExt32 w = if w / 2147483648 = 0 then some .pany else none := by
  unfold opExt32; rw [h]; rfl
theorem opExt32_69 {w : Nat} (h : w / 2097152 % 1024 = 69) : opExt32 w = if w / 2147483648 = 0 then some .pall else none := by
  unfold opExt32; rw [h]; rfl
theorem opExt32_70 {w : Nat} (h : w / 2097152 % 1024 = 70) : opExt32 w = some .pmask := by
  unfold opExt32; rw [h]; rfl
theorem opExt32_71 {w : Nat} (h : w / 2097152 % 1024 = 71) : opExt32 w = if w / 2147483648 = 0 then some .xgetAt else none := by
  unfold opExt32; rw [h]; rfl
theorem opExt32_72 {w : Nat} (h : w / 2097152 % 1024 = 72) : opExt32 w = if w / 2147483648 = 0 then some .xgetFlip else none := by
  unfold opExt32; rw [h]; rfl
theorem opExt32_73 {w : Nat} (h : w / 2097152 % 1024 = 73) : opExt32 w = if w / 2147483648 = 0 then some .xgetStep else none := by
  unfold opExt32; rw [h]; rfl
theorem opExt32_74 {w : Nat} (h : w / 2097152 % 1024 = 74) : opExt32 w = if w / 2147483648 = 0 then some .xgetRot else none := by
  unfold opExt32; rw [h]; rfl
theorem opExt32_75 {w : Nat} (h : w / 2097152 % 1024 = 75) : opExt32 w = if w / 2147483648 = 0 ∧ w / 65536 % 32 = 0 then some .cnvq else none := by
  unfold opExt32; rw [h]; rfl
theorem opExt32_128 {w : Nat} (h : w / 2097152 % 1024 = 128) : opExt32 w = if w / 2147483648 = 0 ∧ w / 65536 % 32 = 0 then some .waitn else none := by
  unfold opExt32; rw [h]; rfl
theorem opExt32_129 {w : Nat} (h : w / 2097152 % 1024 = 129) : opExt32 w = if w / 2147483648 = 0 ∧ w / 65536 % 32 = 0 then some .setg else none := by
  unfold opExt32; rw [h]; rfl
theorem opExt32_130 {w : Nat} (h : w / 2097152 % 1024 = 130) : opExt32 w = if w / 2147483648 = 0 ∧ w / 65536 % 32 = 0 then some .clrg else none := by
  unfold opExt32; rw [h]; rfl
theorem opExt32_131 {w : Nat} (h : w / 2097152 % 1024 = 131) : opExt32 w = some .alw := by
  unfold opExt32; rw [h]; rfl
theorem opExt32_132 {w : Nat} (h : w / 2097152 % 1024 = 132) : opExt32 w = some .mapget := by
  unfold opExt32; rw [h]; rfl
theorem opExt32_133 {w : Nat} (h : w / 2097152 % 1024 = 133) : opExt32 w = if w / 2147483648 = 0 ∧ w / 65536 % 32 = 0 then some .mapput else none := by
  unfold opExt32; rw [h]; rfl
theorem opExt32_134 {w : Nat} (h : w / 2097152 % 1024 = 134) : opExt32 w = if w / 2147483648 = 0 then some .hget else none := by
  unfold opExt32; rw [h]; rfl
theorem opExt32_192 {w : Nat} (h : w / 2097152 % 1024 = 192) : opExt32 w = some .lget := by
  unfold opExt32; rw [h]; rfl
theorem opExt32_193 {w : Nat} (h : w / 2097152 % 1024 = 193) : opExt32 w = if w / 2147483648 = 0 ∧ w / 65536 % 32 = 0 then some .lput else none := by
  unfold opExt32; rw [h]; rfl
theorem opExt32_256 {w : Nat} (h : w / 2097152 % 1024 = 256) : opExt32 w = some .csrr := by
  unfold opExt32; rw [h]; rfl
theorem opExt32_257 {w : Nat} (h : w / 2097152 % 1024 = 257) : opExt32 w = if w / 2147483648 = 0 ∧ w / 65536 % 32 = 0 then some .csrw else none := by
  unfold opExt32; rw [h]; rfl
theorem opExt32_258 {w : Nat} (h : w / 2097152 % 1024 = 258) : opExt32 w = if w / 2147483648 = 0 ∧ w / 65536 % 32 = 0 then some .csrs else none := by
  unfold opExt32; rw [h]; rfl
theorem opExt32_259 {w : Nat} (h : w / 2097152 % 1024 = 259) : opExt32 w = if w / 2147483648 = 0 ∧ w / 65536 % 32 = 0 then some .csrc else none := by
  unfold opExt32; rw [h]; rfl
theorem opExt32_260 {w : Nat} (h : w / 2097152 % 1024 = 260) : opExt32 w = if w / 2147483648 = 0 ∧ w / 65536 % 32 = 0 then some .tret else none := by
  unfold opExt32; rw [h]; rfl
theorem opExt32_261 {w : Nat} (h : w / 2097152 % 1024 = 261) : opExt32 w = if w / 2147483648 = 0 ∧ w / 65536 % 32 = 0 then some .halt else none := by
  unfold opExt32; rw [h]; rfl
theorem opExt32_262 {w : Nat} (h : w / 2097152 % 1024 = 262) : opExt32 w = if w / 2147483648 = 0 ∧ w / 65536 % 32 = 0 then some .icinv else none := by
  unfold opExt32; rw [h]; rfl
theorem opExt32_263 {w : Nat} (h : w / 2097152 % 1024 = 263) : opExt32 w = if w / 2147483648 = 0 ∧ w / 65536 % 32 = 0 then some .tlbinvPage else none := by
  unfold opExt32; rw [h]; rfl
theorem opExt32_264 {w : Nat} (h : w / 2097152 % 1024 = 264) : opExt32 w = some .tlbprobe := by
  unfold opExt32; rw [h]; rfl
theorem opExt32_265 {w : Nat} (h : w / 2097152 % 1024 = 265) : opExt32 w = if w / 2147483648 = 0 ∧ w / 65536 % 32 = 0 then some .cresize else none := by
  unfold opExt32; rw [h]; rfl
theorem opExt32_266 {w : Nat} (h : w / 2097152 % 1024 = 266) : opExt32 w = if w / 2147483648 = 0 ∧ w / 65536 % 32 = 0 then some .migDev else none := by
  unfold opExt32; rw [h]; rfl
theorem opExt32_267 {w : Nat} (h : w / 2097152 % 1024 = 267) : opExt32 w = if w / 2147483648 = 0 ∧ w / 65536 % 32 = 0 then some .pf else none := by
  unfold opExt32; rw [h]; rfl
theorem opExt32_320 {w : Nat} (h : w / 2097152 % 1024 = 320) : opExt32 w = if w / 2147483648 = 0 then some .tspawn else none := by
  unfold opExt32; rw [h]; rfl
theorem opExt32_321 {w : Nat} (h : w / 2097152 % 1024 = 321) : opExt32 w = if w / 2147483648 = 0 ∧ w / 65536 % 32 = 0 then some .tsig else none := by
  unfold opExt32; rw [h]; rfl
theorem opExt32_322 {w : Nat} (h : w / 2097152 % 1024 = 322) : opExt32 w = if w / 2147483648 = 0 ∧ w / 65536 % 32 = 0 then some .evpost else none := by
  unfold opExt32; rw [h]; rfl
theorem opExt32_323 {w : Nat} (h : w / 2097152 % 1024 = 323) : opExt32 w = some .evget := by
  unfold opExt32; rw [h]; rfl
theorem opExt32_384 {w : Nat} (h : w / 2097152 % 1024 = 384) : opExt32 w = if w / 2147483648 = 0 ∧ w / 65536 % 32 = 0 then some .dbgmb else none := by
  unfold opExt32; rw [h]; rfl
theorem opExt32_385 {w : Nat} (h : w / 2097152 % 1024 = 385) : opExt32 w = if w / 2147483648 = 0 then some .dbgrd else none := by
  unfold opExt32; rw [h]; rfl
theorem opExt32_386 {w : Nat} (h : w / 2097152 % 1024 = 386) : opExt32 w = if w / 2147483648 = 0 ∧ w / 65536 % 32 = 0 then some .wpset else none := by
  unfold opExt32; rw [h]; rfl
theorem op64_0 {w v : Nat} (h : w / 512 % 128 = 0) : op64 w v = if v / 67108864 = 0 then some .iaddL else none := by
  unfold op64; rw [h]; rfl
theorem op64_1 {w v : Nat} (h : w / 512 % 128 = 1) : op64 w v = if v / 67108864 = 0 then some .isubL else none := by
  unfold op64; rw [h]; rfl
theorem op64_2 {w v : Nat} (h : w / 512 % 128 = 2) : op64 w v = if v / 67108864 = 0 then some .imulL else none := by
  unfold op64; rw [h]; rfl
theorem op64_3 {w v : Nat} (h : w / 512 % 128 = 3) : op64 w v = if v / 67108864 = 0 then some .imulhIL else none := by
  unfold op64; rw [h]; rfl
theorem op64_4 {w v : Nat} (h : w / 512 % 128 = 4) : op64 w v = if v / 67108864 = 0 then some .imulhNL else none := by
  unfold op64; rw [h]; rfl
theorem op64_5 {w v : Nat} (h : w / 512 % 128 = 5) : op64 w v = if v / 67108864 = 0 then some .imacL else none := by
  unfold op64; rw [h]; rfl
theorem op64_6 {w v : Nat} (h : w / 512 % 128 = 6) : op64 w v = if v / 67108864 = 0 then some .iminIL else none := by
  unfold op64; rw [h]; rfl
theorem op64_7 {w v : Nat} (h : w / 512 % 128 = 7) : op64 w v = if v / 67108864 = 0 then some .iminNL else none := by
  unfold op64; rw [h]; rfl
theorem op64_8 {w v : Nat} (h : w / 512 % 128 = 8) : op64 w v = if v / 67108864 = 0 then some .imaxIL else none := by
  unfold op64; rw [h]; rfl
theorem op64_9 {w v : Nat} (h : w / 512 % 128 = 9) : op64 w v = if v / 67108864 = 0 then some .imaxNL else none := by
  unfold op64; rw [h]; rfl
theorem op64_10 {w v : Nat} (h : w / 512 % 128 = 10) : op64 w v = if v / 67108864 = 0 then some .iabsdL else none := by
  unfold op64; rw [h]; rfl
theorem op64_11 {w v : Nat} (h : w / 512 % 128 = 11) : op64 w v = if v / 67108864 = 0 then some .andL else none := by
  unfold op64; rw [h]; rfl
theorem op64_12 {w v : Nat} (h : w / 512 % 128 = 12) : op64 w v = if v / 67108864 = 0 then some .orL else none := by
  unfold op64; rw [h]; rfl
theorem op64_13 {w v : Nat} (h : w / 512 % 128 = 13) : op64 w v = if v / 67108864 = 0 then some .xorL else none := by
  unfold op64; rw [h]; rfl
theorem op64_14 {w v : Nat} (h : w / 512 % 128 = 14) : op64 w v = if v / 67108864 = 0 then some .andnL else none := by
  unfold op64; rw [h]; rfl
theorem op64_15 {w v : Nat} (h : w / 512 % 128 = 15) : op64 w v = if w / 67108864 = 0 ∧ v / 67108864 = 0 then some .movL else none := by
  unfold op64; rw [h]; rfl
theorem op64_16 {w v : Nat} (h : w / 512 % 128 = 16) : op64 w v = if v / 67108864 = 0 then some .shlL else none := by
  unfold op64; rw [h]; rfl
theorem op64_17 {w v : Nat} (h : w / 512 % 128 = 17) : op64 w v = if v / 67108864 = 0 then some .shrNL else none := by
  unfold op64; rw [h]; rfl
theorem op64_18 {w v : Nat} (h : w / 512 % 128 = 18) : op64 w v = if v / 67108864 = 0 then some .shrIL else none := by
  unfold op64; rw [h]; rfl
theorem op64_19 {w v : Nat} (h : w / 512 % 128 = 19) : op64 w v = if w / 67108864 = 0 ∧ v / 67108864 = 0 then some .clzL else none := by
  unfold op64; rw [h]; rfl
theorem op64_20 {w v : Nat} (h : w / 512 % 128 = 20) : op64 w v = if w / 67108864 = 0 ∧ v / 67108864 = 0 then some .popcL else none := by
  unfold op64; rw [h]; rfl
theorem op64_21 {w v : Nat} (h : w / 512 % 128 = 21) : op64 w v = if v / 67108864 = 0 then some .bfxNL else none := by
  unfold op64; rw [h]; rfl
theorem op64_22 {w v : Nat} (h : w / 512 % 128 = 22) : op64 w v = if v / 67108864 = 0 then some .bfxIL else none := by
  unfold op64; rw [h]; rfl
theorem op64_23 {w v : Nat} (h : w / 512 % 128 = 23) : op64 w v = if v / 67108864 = 0 then some .bfiL else none := by
  unfold op64; rw [h]; rfl
theorem op64_24 {w v : Nat} (h : w / 512 % 128 = 24) : op64 w v = if v / 67108864 = 0 then some .permL else none := by
  unfold op64; rw [h]; rfl
theorem op64_25 {w v : Nat} (h : w / 512 % 128 = 25) : op64 w v = if v / 67108864 = 0 then some .icmpEqL else none := by
  unfold op64; rw [h]; rfl
theorem op64_26 {w v : Nat} (h : w / 512 % 128 = 26) : op64 w v = if v / 67108864 = 0 then some .icmpNeL else none := by
  unfold op64; rw [h]; rfl
theorem op64_27 {w v : Nat} (h : w / 512 % 128 = 27) : op64 w v = if v / 67108864 = 0 then some .icmpLtIL else none := by
  unfold op64; rw [h]; rfl
theorem op64_28 {w v : Nat} (h : w / 512 % 128 = 28) : op64 w v = if v / 67108864 = 0 then some .icmpLeIL else none := by
  unfold op64; rw [h]; rfl
theorem op64_29 {w v : Nat} (h : w / 512 % 128 = 29) : op64 w v = if v / 67108864 = 0 then some .icmpLtNL else none := by
  unfold op64; rw [h]; rfl
theorem op64_30 {w v : Nat} (h : w / 512 % 128 = 30) : op64 w v = if v / 67108864 = 0 then some .icmpLeNL else none := by
  unfold op64; rw [h]; rfl
theorem op64_32 {w v : Nat} (h : w / 512 % 128 = 32) : op64 w v = if v / 67108864 = 0 then some .laddL else none := by
  unfold op64; rw [h]; rfl
theorem op64_33 {w v : Nat} (h : w / 512 % 128 = 33) : op64 w v = if v / 67108864 = 0 then some .lsubL else none := by
  unfold op64; rw [h]; rfl
theorem op64_34 {w v : Nat} (h : w / 512 % 128 = 34) : op64 w v = if v / 67108864 = 0 then some .lmulL else none := by
  unfold op64; rw [h]; rfl
theorem op64_35 {w v : Nat} (h : w / 512 % 128 = 35) : op64 w v = if v / 67108864 = 0 then some .lmacL else none := by
  unfold op64; rw [h]; rfl
theorem op64_36 {w v : Nat} (h : w / 512 % 128 = 36) : op64 w v = if v / 67108864 = 0 then some .lshlL else none := by
  unfold op64; rw [h]; rfl
theorem op64_37 {w v : Nat} (h : w / 512 % 128 = 37) : op64 w v = if v / 67108864 = 0 then some .lshrNL else none := by
  unfold op64; rw [h]; rfl
theorem op64_38 {w v : Nat} (h : w / 512 % 128 = 38) : op64 w v = if v / 67108864 = 0 then some .lshrIL else none := by
  unfold op64; rw [h]; rfl
theorem op64_39 {w v : Nat} (h : w / 512 % 128 = 39) : op64 w v = if w / 67108864 = 0 ∧ v / 67108864 = 0 then some .lextIL else none := by
  unfold op64; rw [h]; rfl
theorem op64_40 {w v : Nat} (h : w / 512 % 128 = 40) : op64 w v = if w / 67108864 = 0 ∧ v / 67108864 = 0 then some .lextNL else none := by
  unfold op64; rw [h]; rfl
theorem op64_41 {w v : Nat} (h : w / 512 % 128 = 41) : op64 w v = if v / 67108864 = 0 then some .lcmpEqL else none := by
  unfold op64; rw [h]; rfl
theorem op64_42 {w v : Nat} (h : w / 512 % 128 = 42) : op64 w v = if v / 67108864 = 0 then some .lcmpNeL else none := by
  unfold op64; rw [h]; rfl
theorem op64_43 {w v : Nat} (h : w / 512 % 128 = 43) : op64 w v = if v / 67108864 = 0 then some .lcmpLtIL else none := by
  unfold op64; rw [h]; rfl
theorem op64_44 {w v : Nat} (h : w / 512 % 128 = 44) : op64 w v = if v / 67108864 = 0 then some .lcmpLtNL else none := by
  unfold op64; rw [h]; rfl
theorem op64_45 {w v : Nat} (h : w / 512 % 128 = 45) : op64 w v = if v / 67108864 = 0 then some .lea2L else none := by
  unfold op64; rw [h]; rfl
theorem op64_46 {w v : Nat} (h : w / 512 % 128 = 46) : op64 w v = if v / 67108864 = 0 then some .lea3L else none := by
  unfold op64; rw [h]; rfl
theorem op64_47 {w v : Nat} (h : w / 512 % 128 = 47) : op64 w v = if v / 67108864 = 0 then some .lea4L else none := by
  unfold op64; rw [h]; rfl
theorem op64_48 {w v : Nat} (h : w / 512 % 128 = 48) : op64 w v = if v / 67108864 = 0 then some .faddL else none := by
  unfold op64; rw [h]; rfl
theorem op64_49 {w v : Nat} (h : w / 512 % 128 = 49) : op64 w v = if v / 67108864 = 0 then some .fsubL else none := by
  unfold op64; rw [h]; rfl
theorem op64_50 {w v : Nat} (h : w / 512 % 128 = 50) : op64 w v = if v / 67108864 = 0 then some .fmulL else none := by
  unfold op64; rw [h]; rfl
theorem op64_51 {w v : Nat} (h : w / 512 % 128 = 51) : op64 w v = if v / 67108864 = 0 then some .ffmaL else none := by
  unfold op64; rw [h]; rfl
theorem op64_52 {w v : Nat} (h : w / 512 % 128 = 52) : op64 w v = if v / 67108864 = 0 then some .fminL else none := by
  unfold op64; rw [h]; rfl
theorem op64_53 {w v : Nat} (h : w / 512 % 128 = 53) : op64 w v = if v / 67108864 = 0 then some .fmaxL else none := by
  unfold op64; rw [h]; rfl
theorem op64_54 {w v : Nat} (h : w / 512 % 128 = 54) : op64 w v = if v / 67108864 = 0 then some .fcmpEqL else none := by
  unfold op64; rw [h]; rfl
theorem op64_55 {w v : Nat} (h : w / 512 % 128 = 55) : op64 w v = if v / 67108864 = 0 then some .fcmpNeL else none := by
  unfold op64; rw [h]; rfl
theorem op64_56 {w v : Nat} (h : w / 512 % 128 = 56) : op64 w v = if v / 67108864 = 0 then some .fcmpLtL else none := by
  unfold op64; rw [h]; rfl
theorem op64_57 {w v : Nat} (h : w / 512 % 128 = 57) : op64 w v = if v / 67108864 = 0 then some .fcmpLeL else none := by
  unfold op64; rw [h]; rfl
theorem op64_58 {w v : Nat} (h : w / 512 % 128 = 58) : op64 w v = if w / 2147483648 = 0 ∧ v / 67108864 = 0 then some .fsfuL else none := by
  unfold op64; rw [h]; rfl
theorem op64_59 {w v : Nat} (h : w / 512 % 128 = 59) : op64 w v = if v / 67108864 = 0 then some .hadd2F16L else none := by
  unfold op64; rw [h]; rfl
theorem op64_60 {w v : Nat} (h : w / 512 % 128 = 60) : op64 w v = if v / 67108864 = 0 then some .hmul2F16L else none := by
  unfold op64; rw [h]; rfl
theorem op64_61 {w v : Nat} (h : w / 512 % 128 = 61) : op64 w v = if v / 67108864 = 0 then some .hfma2F16L else none := by
  unfold op64; rw [h]; rfl
theorem op64_62 {w v : Nat} (h : w / 512 % 128 = 62) : op64 w v = if v / 67108864 = 0 then some .hfma2Bf16L else none := by
  unfold op64; rw [h]; rfl
theorem op64_63 {w v : Nat} (h : w / 512 % 128 = 63) : op64 w v = if v / 67108864 = 0 then some .hadd2Bf16L else none := by
  unfold op64; rw [h]; rfl
theorem op64_64 {w v : Nat} (h : w / 512 % 128 = 64) : op64 w v = if w / 2147483648 = 0 ∧ v / 67108864 = 0 then some .cvtL else none := by
  unfold op64; rw [h]; rfl
theorem op64_65 {w v : Nat} (h : w / 512 % 128 = 65) : op64 w v = if w / 2147483648 = 0 ∧ v / 67108864 = 0 then some .cvtpL else none := by
  unfold op64; rw [h]; rfl
theorem op64_66 {w v : Nat} (h : w / 512 % 128 = 66) : op64 w v = if w / 67108864 = 0 then some .iaddiL else none := by
  unfold op64; rw [h]; rfl
theorem op64_67 {w v : Nat} (h : w / 512 % 128 = 67) : op64 w v = if w / 67108864 = 0 then some .andiL else none := by
  unfold op64; rw [h]; rfl
theorem op64_68 {w v : Nat} (h : w / 512 % 128 = 68) : op64 w v = if w / 67108864 = 0 then some .oriL else none := by
  unfold op64; rw [h]; rfl
theorem op64_69 {w v : Nat} (h : w / 512 % 128 = 69) : op64 w v = if w / 67108864 = 0 then some .xoriL else none := by
  unfold op64; rw [h]; rfl
theorem op64_70 {w v : Nat} (h : w / 512 % 128 = 70) : op64 w v = if w / 67108864 = 0 then some .shliL else none := by
  unfold op64; rw [h]; rfl
theorem op64_71 {w v : Nat} (h : w / 512 % 128 = 71) : op64 w v = if w / 67108864 = 0 then some .shriNL else none := by
  unfold op64; rw [h]; rfl
theorem op64_72 {w v : Nat} (h : w / 512 % 128 = 72) : op64 w v = if w / 67108864 = 0 then some .shriIL else none := by
  unfold op64; rw [h]; rfl
theorem op64_73 {w v : Nat} (h : w / 512 % 128 = 73) : op64 w v = if w / 2097152 = 0 then some .moviL else none := by
  unfold op64; rw [h]; rfl
theorem op64_74 {w v : Nat} (h : w / 512 % 128 = 74) : op64 w v = if w / 2097152 = 0 then some .movhiL else none := by
  unfold op64; rw [h]; rfl
theorem op64_75 {w v : Nat} (h : w / 512 % 128 = 75) : op64 w v = if w / 67108864 = 0 then some .icmpiEqL else none := by
  unfold op64; rw [h]; rfl
theorem op64_76 {w v : Nat} (h : w / 512 % 128 = 76) : op64 w v = if w / 67108864 = 0 then some .icmpiLtIL else none := by
  unfold op64; rw [h]; rfl
theorem op64_77 {w v : Nat} (h : w / 512 % 128 = 77) : op64 w v = if w / 2097152 = 0 then some .fmoviL else none := by
  unfold op64; rw [h]; rfl
theorem op64_80 {w v : Nat} (h : w / 512 % 128 = 80) : op64 w v = some .ldL := by
  unfold op64; rw [h]; rfl
theorem op64_81 {w v : Nat} (h : w / 512 % 128 = 81) : op64 w v = some .stL := by
  unfold op64; rw [h]; rfl
theorem op64_82 {w v : Nat} (h : w / 512 % 128 = 82) : op64 w v = some .atomAddL := by
  unfold op64; rw [h]; rfl
theorem op64_83 {w v : Nat} (h : w / 512 % 128 = 83) : op64 w v = some .atomFaddL := by
  unfold op64; rw [h]; rfl
theorem op64_84 {w v : Nat} (h : w / 512 % 128 = 84) : op64 w v = some .atomMinL := by
  unfold op64; rw [h]; rfl
theorem op64_85 {w v : Nat} (h : w / 512 % 128 = 85) : op64 w v = some .atomMaxL := by
  unfold op64; rw [h]; rfl
theorem op64_86 {w v : Nat} (h : w / 512 % 128 = 86) : op64 w v = some .atomAndL := by
  unfold op64; rw [h]; rfl
theorem op64_87 {w v : Nat} (h : w / 512 % 128 = 87) : op64 w v = some .atomOrL := by
  unfold op64; rw [h]; rfl
theorem op64_88 {w v : Nat} (h : w / 512 % 128 = 88) : op64 w v = some .atomXorL := by
  unfold op64; rw [h]; rfl
theorem op64_89 {w v : Nat} (h : w / 512 % 128 = 89) : op64 w v = some .atomExchL := by
  unfold op64; rw [h]; rfl
theorem op64_90 {w v : Nat} (h : w / 512 % 128 = 90) : op64 w v = some .atomCasL := by
  unfold op64; rw [h]; rfl
theorem op64_94 {w v : Nat} (h : w / 512 % 128 = 94) : op64 w v = if w / 65536 % 32 = 0 ∧ w / 67108864 = 0 then some .copInvL else if w / 65536 % 32 = 0 ∧ w / 67108864 = 1 then some .copWbL else if w / 65536 % 32 = 0 ∧ w / 67108864 = 2 then some .copWbiL else none := by
  unfold op64; rw [h]; rfl
theorem op64_96 {w v : Nat} (h : w / 512 % 128 = 96) : op64 w v = if w / 65536 = 0 then some .braL else none := by
  unfold op64; rw [h]; rfl
theorem op64_97 {w v : Nat} (h : w / 512 % 128 = 97) : op64 w v = if w / 65536 % 32 = 0 ∧ w / 67108864 = 0 ∧ v / 67108864 = 0 then some .brxL else none := by
  unfold op64; rw [h]; rfl
theorem op64_98 {w v : Nat} (h : w / 512 % 128 = 98) : op64 w v = if w / 65536 = 0 then some .callL else none := by
  unfold op64; rw [h]; rfl
theorem op64_99 {w v : Nat} (h : w / 512 % 128 = 99) : op64 w v = if w / 65536 % 32 = 0 ∧ w / 67108864 = 0 ∧ v / 67108864 = 0 then some .callxL else none := by
  unfold op64; rw [h]; rfl
theorem op64_102 {w v : Nat} (h : w / 512 % 128 = 102) : op64 w v = if w / 4194304 = 0 then some .loopL else none := by
  unfold op64; rw [h]; rfl
theorem op64_110 {w v : Nat} (h : w / 512 % 128 = 110) : op64 w v = if w / 67108864 = 0 ∧ w / 65536 % 32 = 0 then some .balw else none := by
  unfold op64; rw [h]; rfl
theorem op64_117 {w v : Nat} (h : w / 512 % 128 = 117) : op64 w v = if v / 8 = 0 then some .mapchk else none := by
  unfold op64; rw [h]; rfl
theorem op64_118 {w v : Nat} (h : w / 512 % 128 = 118) : op64 w v = if v / 8 = 0 then some .bankq else none := by
  unfold op64; rw [h]; rfl
theorem op64_124 {w v : Nat} (h : w / 512 % 128 = 124) : op64 w v = if w / 1073741824 = 0 ∧ v / 512 = 0 then some .tld else none := by
  unfold op64; rw [h]; rfl
theorem op64_125 {w v : Nat} (h : w / 512 % 128 = 125) : op64 w v = if w / 1073741824 = 0 ∧ v / 512 = 0 then some .tst else none := by
  unfold op64; rw [h]; rfl
theorem op64_126 {w v : Nat} (h : w / 512 % 128 = 126) : op64 w v = if w / 1048576 = 0 then some .accZeroL else if w / 1048576 % 32 = 1 ∧ w / 1073741824 = 0 then some .accSetexpL else if w / 1048576 % 32 = 2 ∧ w / 1073741824 = 0 then some .accRdrowL else if w / 1048576 % 32 = 3 ∧ w / 1073741824 = 0 then some .accWrrowL else if w / 1048576 = 4 then some .accClrstL else none := by
  unfold op64; rw [h]; rfl
theorem op64_127 {w v : Nat} (h : w / 512 % 128 = 127) : op64 w v = opExt64 w v := by
  unfold op64; rw [h]; rfl
theorem opExt64_0 {w v : Nat} (h : w / 2097152 % 1024 = 0) : opExt64 w v = some .nopL := by
  unfold opExt64; rw [h]; rfl
theorem opExt64_1 {w v : Nat} (h : w / 2097152 % 1024 = 1) : opExt64 w v = some .idivIL := by
  unfold opExt64; rw [h]; rfl
theorem opExt64_2 {w v : Nat} (h : w / 2097152 % 1024 = 2) : opExt64 w v = some .idivNL := by
  unfold opExt64; rw [h]; rfl
theorem opExt64_3 {w v : Nat} (h : w / 2097152 % 1024 = 3) : opExt64 w v = some .iremIL := by
  unfold opExt64; rw [h]; rfl
theorem opExt64_4 {w v : Nat} (h : w / 2097152 % 1024 = 4) : opExt64 w v = some .iremNL := by
  unfold opExt64; rw [h]; rfl
theorem opExt64_5 {w v : Nat} (h : w / 2097152 % 1024 = 5) : opExt64 w v = some .rotlL := by
  unfold opExt64; rw [h]; rfl
theorem opExt64_6 {w v : Nat} (h : w / 2097152 % 1024 = 6) : opExt64 w v = some .brevL := by
  unfold opExt64; rw [h]; rfl
theorem opExt64_7 {w v : Nat} (h : w / 2097152 % 1024 = 7) : opExt64 w v = some .fcmpOrdL := by
  unfold opExt64; rw [h]; rfl
theorem opExt64_8 {w v : Nat} (h : w / 2097152 % 1024 = 8) : opExt64 w v = some .fcmpUnordL := by
  unfold opExt64; rw [h]; rfl
theorem opExt64_9 {w v : Nat} (h : w / 2097152 % 1024 = 9) : opExt64 w v = some .fclassL := by
  unfold opExt64; rw [h]; rfl
theorem opExt64_10 {w v : Nat} (h : w / 2097152 % 1024 = 10) : opExt64 w v = some .frndL := by
  unfold opExt64; rw [h]; rfl
theorem opExt64_11 {w v : Nat} (h : w / 2097152 % 1024 = 11) : opExt64 w v = some .fexpL := by
  unfold opExt64; rw [h]; rfl
theorem opExt64_64 {w v : Nat} (h : w / 2097152 % 1024 = 64) : opExt64 w v = some .q2vL := by
  unfold opExt64; rw [h]; rfl
theorem opExt64_65 {w v : Nat} (h : w / 2097152 % 1024 = 65) : opExt64 w v = some .v2qL := by
  unfold opExt64; rw [h]; rfl
theorem opExt64_66 {w v : Nat} (h : w / 2097152 % 1024 = 66) : opExt64 w v = some .qpopL := by
  unfold opExt64; rw [h]; rfl
theorem opExt64_67 {w v : Nat} (h : w / 2097152 % 1024 = 67) : opExt64 w v = some .pfirstL := by
  unfold opExt64; rw [h]; rfl
theorem opExt64_68 {w v : Nat} (h : w / 2097152 % 1024 = 68) : opExt64 w v = some .panyL := by
  unfold opExt64; rw [h]; rfl
theorem opExt64_69 {w v : Nat} (h : w / 2097152 % 1024 = 69) : opExt64 w v = some .pallL := by
  unfold opExt64; rw [h]; rfl
theorem opExt64_70 {w v : Nat} (h : w / 2097152 % 1024 = 70) : opExt64 w v = some .pmaskL := by
  unfold opExt64; rw [h]; rfl
theorem opExt64_71 {w v : Nat} (h : w / 2097152 % 1024 = 71) : opExt64 w v = some .xgetAtL := by
  unfold opExt64; rw [h]; rfl
theorem opExt64_72 {w v : Nat} (h : w / 2097152 % 1024 = 72) : opExt64 w v = some .xgetFlipL := by
  unfold opExt64; rw [h]; rfl
theorem opExt64_73 {w v : Nat} (h : w / 2097152 % 1024 = 73) : opExt64 w v = some .xgetStepL := by
  unfold opExt64; rw [h]; rfl
theorem opExt64_74 {w v : Nat} (h : w / 2097152 % 1024 = 74) : opExt64 w v = some .xgetRotL := by
  unfold opExt64; rw [h]; rfl
theorem opExt64_75 {w v : Nat} (h : w / 2097152 % 1024 = 75) : opExt64 w v = some .cnvqL := by
  unfold opExt64; rw [h]; rfl
theorem opExt64_128 {w v : Nat} (h : w / 2097152 % 1024 = 128) : opExt64 w v = some .waitnL := by
  unfold opExt64; rw [h]; rfl
theorem opExt64_129 {w v : Nat} (h : w / 2097152 % 1024 = 129) : opExt64 w v = some .setgL := by
  unfold opExt64; rw [h]; rfl
theorem opExt64_130 {w v : Nat} (h : w / 2097152 % 1024 = 130) : opExt64 w v = some .clrgL := by
  unfold opExt64; rw [h]; rfl
theorem opExt64_131 {w v : Nat} (h : w / 2097152 % 1024 = 131) : opExt64 w v = some .alwL := by
  unfold opExt64; rw [h]; rfl
theorem opExt64_132 {w v : Nat} (h : w / 2097152 % 1024 = 132) : opExt64 w v = some .mapgetL := by
  unfold opExt64; rw [h]; rfl
theorem opExt64_133 {w v : Nat} (h : w / 2097152 % 1024 = 133) : opExt64 w v = some .mapputL := by
  unfold opExt64; rw [h]; rfl
theorem opExt64_134 {w v : Nat} (h : w / 2097152 % 1024 = 134) : opExt64 w v = some .hgetL := by
  unfold opExt64; rw [h]; rfl
theorem opExt64_192 {w v : Nat} (h : w / 2097152 % 1024 = 192) : opExt64 w v = some .lgetL := by
  unfold opExt64; rw [h]; rfl
theorem opExt64_193 {w v : Nat} (h : w / 2097152 % 1024 = 193) : opExt64 w v = some .lputL := by
  unfold opExt64; rw [h]; rfl
theorem opExt64_256 {w v : Nat} (h : w / 2097152 % 1024 = 256) : opExt64 w v = some .csrrL := by
  unfold opExt64; rw [h]; rfl
theorem opExt64_257 {w v : Nat} (h : w / 2097152 % 1024 = 257) : opExt64 w v = some .csrwL := by
  unfold opExt64; rw [h]; rfl
theorem opExt64_258 {w v : Nat} (h : w / 2097152 % 1024 = 258) : opExt64 w v = some .csrsL := by
  unfold opExt64; rw [h]; rfl
theorem opExt64_259 {w v : Nat} (h : w / 2097152 % 1024 = 259) : opExt64 w v = some .csrcL := by
  unfold opExt64; rw [h]; rfl
theorem opExt64_260 {w v : Nat} (h : w / 2097152 % 1024 = 260) : opExt64 w v = some .tretL := by
  unfold opExt64; rw [h]; rfl
theorem opExt64_261 {w v : Nat} (h : w / 2097152 % 1024 = 261) : opExt64 w v = some .haltL := by
  unfold opExt64; rw [h]; rfl
theorem opExt64_262 {w v : Nat} (h : w / 2097152 % 1024 = 262) : opExt64 w v = some .icinvL := by
  unfold opExt64; rw [h]; rfl
theorem opExt64_263 {w v : Nat} (h : w / 2097152 % 1024 = 263) : opExt64 w v = if v / 65536 = 1 then some .tlbinvCtx else if v / 65536 = 2 then some .tlbinvAll else some .tlbinvPageL := by
  unfold opExt64; rw [h]; rfl
theorem opExt64_264 {w v : Nat} (h : w / 2097152 % 1024 = 264) : opExt64 w v = some .tlbprobeL := by
  unfold opExt64; rw [h]; rfl
theorem opExt64_265 {w v : Nat} (h : w / 2097152 % 1024 = 265) : opExt64 w v = some .cresizeL := by
  unfold opExt64; rw [h]; rfl
theorem opExt64_266 {w v : Nat} (h : w / 2097152 % 1024 = 266) : opExt64 w v = if v / 65536 = 1 then some .migHost else some .migDevL := by
  unfold opExt64; rw [h]; rfl
theorem opExt64_267 {w v : Nat} (h : w / 2097152 % 1024 = 267) : opExt64 w v = some .pfL := by
  unfold opExt64; rw [h]; rfl
theorem opExt64_320 {w v : Nat} (h : w / 2097152 % 1024 = 320) : opExt64 w v = some .tspawnL := by
  unfold opExt64; rw [h]; rfl
theorem opExt64_321 {w v : Nat} (h : w / 2097152 % 1024 = 321) : opExt64 w v = some .tsigL := by
  unfold opExt64; rw [h]; rfl
theorem opExt64_322 {w v : Nat} (h : w / 2097152 % 1024 = 322) : opExt64 w v = some .evpostL := by
  unfold opExt64; rw [h]; rfl
theorem opExt64_323 {w v : Nat} (h : w / 2097152 % 1024 = 323) : opExt64 w v = some .evgetL := by
  unfold opExt64; rw [h]; rfl
theorem opExt64_384 {w v : Nat} (h : w / 2097152 % 1024 = 384) : opExt64 w v = some .dbgmbL := by
  unfold opExt64; rw [h]; rfl
theorem opExt64_385 {w v : Nat} (h : w / 2097152 % 1024 = 385) : opExt64 w v = some .dbgrdL := by
  unfold opExt64; rw [h]; rfl
theorem opExt64_386 {w v : Nat} (h : w / 2097152 % 1024 = 386) : opExt64 w v = some .wpsetL := by
  unfold opExt64; rw [h]; rfl

end Sys2Proof
end

