-- ==== Sys2Proof/Laws/PerInstr.lean ====
section
/-! SUPPORT. Statements about every instruction, one lemma a constructor. -/

namespace Sys2Proof.Laws.RoundTrip

/-- The decoder reads a well-formed instruction back from the bits that the encoder gives it, whatever bits follow; an
event has no encoding. -/
def Statement (i : Instr) : Prop :=
  i.wellFormed = true → (encode i).1 ≠ 0 → ∀ r, decodeBits ((encode i).2 + 2 ^ (encode i).1 * r) = .ok i

theorem issueGroupSelection (core lane : Nat) (err : SoftErr) : Statement (.issueGroupSelection core lane err) := fun _ h => absurd rfl h
theorem fixedLatencyResult (core course : Nat) : Statement (.fixedLatencyResult core course) := fun _ h => absurd rfl h
theorem convergenceRelease (core course : Nat) : Statement (.convergenceRelease core course) := fun _ h => absurd rfl h
theorem barrierCompletion (scope place group num : Nat) : Statement (.barrierCompletion scope place group num) := fun _ h => absurd rfl h
theorem barrierTimeout (scope place group num : Nat) : Statement (.barrierTimeout scope place group num) := fun _ h => absurd rfl h
theorem convergenceTimeout (core course : Nat) : Statement (.convergenceTimeout core course) := fun _ h => absurd rfl h
theorem yieldExpiry (core course : Nat) : Statement (.yieldExpiry core course) := fun _ h => absurd rfl h
theorem courseWake (core course : Nat) : Statement (.courseWake core course) := fun _ h => absurd rfl h
theorem trapDelivery (core course : Nat) : Statement (.trapDelivery core course) := fun _ h => absurd rfl h
theorem taskDispatch (cluster : Nat) (pull : Bool) : Statement (.taskDispatch cluster pull) := fun _ h => absurd rfl h
theorem dispatchReservation (cluster prio : Nat) : Statement (.dispatchReservation cluster prio) := fun _ h => absurd rfl h
theorem stealRequest (cluster : Nat) : Statement (.stealRequest cluster) := fun _ h => absurd rfl h
theorem stealShipment (victim : Nat) : Statement (.stealShipment victim) := fun _ h => absurd rfl h
theorem shipmentArrival (thief : Nat) : Statement (.shipmentArrival thief) := fun _ h => absurd rfl h
theorem taskEnd (core slot : Nat) : Statement (.taskEnd core slot) := fun _ h => absurd rfl h
theorem overflowRecord (cluster : Nat) : Statement (.overflowRecord cluster) := fun _ h => absurd rfl h
theorem preempt (m : MsgHead) (idx tag : Nat) (z : Option Nat) (die clusters count : Nat) (byPrio : Bool) (sel : Nat) : Statement (.preempt m idx tag z die clusters count byPrio sel) := fun _ h => absurd rfl h
theorem preemptSave (core : Nat) : Statement (.preemptSave core) := fun _ h => absurd rfl h
theorem guardSlotHeadCheck (core cls : Nat) : Statement (.guardSlotHeadCheck core cls) := fun _ h => absurd rfl h
theorem kChunk (core : Nat) (turn : ClassTurn) : Statement (.kChunk core turn) := fun _ h => absurd rfl h
theorem writeBack (turn : TileTurn) : Statement (.writeBack turn) := fun _ h => absurd rfl h
theorem copyTransfer (core : Nat) (reads : EngReads) : Statement (.copyTransfer core reads) := fun _ h => absurd rfl h
theorem accExecute (turn : TileTurn) : Statement (.accExecute turn) := fun _ h => absurd rfl h
theorem commandRetire (core course cls : Nat) : Statement (.commandRetire core course cls) := fun _ h => absurd rfl h
theorem homeAccessPerform (id : Nat) (err : SoftErr) : Statement (.homeAccessPerform id err) := fun _ h => absurd rfl h
theorem sectorFill (die line : Nat) (err : SoftErr) : Statement (.sectorFill die line err) := fun _ h => absurd rfl h
theorem missStatusAllocate (id : Nat) : Statement (.missStatusAllocate id) := fun _ h => absurd rfl h
theorem loadReturn (id : Nat) (back : LineBack) : Statement (.loadReturn id back) := fun _ h => absurd rfl h
theorem hodDrain (core entry : Nat) : Statement (.hodDrain core entry) := fun _ h => absurd rfl h
theorem hodAgeLimit (core entry : Nat) : Statement (.hodAgeLimit core entry) := fun _ h => absurd rfl h
theorem phaseComplete (core course : Nat) : Statement (.phaseComplete core course) := fun _ h => absurd rfl h
theorem fenceComplete (core course : Nat) : Statement (.fenceComplete core course) := fun _ h => absurd rfl h
theorem releaseStoreProceed (id : Nat) : Statement (.releaseStoreProceed id) := fun _ h => absurd rfl h
theorem waitnComplete (core course : Nat) : Statement (.waitnComplete core course) := fun _ h => absurd rfl h
theorem icinvComplete (core course : Nat) : Statement (.icinvComplete core course) := fun _ h => absurd rfl h
theorem fetchbComplete (core course : Nat) : Statement (.fetchbComplete core course) := fun _ h => absurd rfl h
theorem cresizeComplete (die : Nat) : Statement (.cresizeComplete die) := fun _ h => absurd rfl h
theorem migrationStart (die : Nat) : Statement (.migrationStart die) := fun _ h => absurd rfl h
theorem migrationDeparture (die frame : Nat) : Statement (.migrationDeparture die frame) := fun _ h => absurd rfl h
theorem remotePacketArrival (rank die seq : Nat) (pred : Option Nat) (pa : Nat) (bytes : List (Nat × Byte × Byte)) (op : PacketOp) (seen : Arrival) : Statement (.remotePacketArrival rank die seq pred pa bytes op seen) := fun _ h => absurd rfl h
theorem acknowledgementArrival (die dest seq : Nat) (mark : Bool) (back : AtomBack) (tag : BitVec 32) : Statement (.acknowledgementArrival die dest seq mark back tag) := fun _ h => absurd rfl h
theorem closedVectorUpdate (core dest : Nat) : Statement (.closedVectorUpdate core dest) := fun _ h => absurd rfl h
theorem refusalArrival (die dest seq id : Nat) : Statement (.refusalArrival die dest seq id) := fun _ h => absurd rfl h
theorem restartRefusal (die dest : Nat) : Statement (.restartRefusal die dest) := fun _ h => absurd rfl h
theorem retransmission (die dest seq id : Nat) : Statement (.retransmission die dest seq id) := fun _ h => absurd rfl h
theorem destinationLost (die dest : Nat) : Statement (.destinationLost die dest) := fun _ h => absurd rfl h
theorem allowanceCollapse (die dest : Nat) : Statement (.allowanceCollapse die dest) := fun _ h => absurd rfl h
theorem expressStarvationToken (router out : Nat) : Statement (.expressStarvationToken router out) := fun _ h => absurd rfl h
theorem tierStarvationGrant (port tier : Nat) : Statement (.tierStarvationGrant port tier) := fun _ h => absurd rfl h
theorem linkTraining (port dest : Nat) (fast : Bool) : Statement (.linkTraining port dest fast) := fun _ h => absurd rfl h
theorem flitCrcReplay (link : Nat) (ok : Bool) : Statement (.flitCrcReplay link ok) := fun _ h => absurd rfl h
theorem linkRetrain (link : Nat) (ok fast : Bool) : Statement (.linkRetrain link ok fast) := fun _ h => absurd rfl h
theorem portUp (port : Nat) : Statement (.portUp port) := fun _ h => absurd rfl h
theorem ringCheck (rank ring : Nat) : Statement (.ringCheck rank ring) := fun _ h => absurd rfl h
theorem ringCheckAnswer (ring : Nat) (prev : Bool) : Statement (.ringCheckAnswer ring prev) := fun _ h => absurd rfl h
theorem ringSetupTimeout (ring : Nat) : Statement (.ringSetupTimeout ring) := fun _ h => absurd rfl h
theorem chunkStart (core : Nat) (how : ChunkFrom) (cid index : Nat) : Statement (.chunkStart core how cid index) := fun _ h => absurd rfl h
theorem partialArrival (ring cid index dtype cop bytes : Nat) (vals ranks : List Nat) (refused : Bool) : Statement (.partialArrival ring cid index dtype cop bytes vals ranks refused) := fun _ h => absurd rfl h
theorem resultArrival (ring cid index dtype cop bytes : Nat) (vals ranks : List Nat) (refused : Bool) : Statement (.resultArrival ring cid index dtype cop bytes vals ranks refused) := fun _ h => absurd rfl h
theorem throttleRequest (rank die step : Nat) : Statement (.throttleRequest rank die step) := fun _ h => absurd rfl h
theorem throttleStepUp : Statement .throttleStepUp := fun _ h => absurd rfl h
theorem hostLinkBringup : Statement .hostLinkBringup := fun _ h => absurd rfl h
theorem launch (m : MsgHead) (idx tag : Nat) (z : Option Nat) (addr : Nat) : Statement (.launch m idx tag z addr) := fun _ h => absurd rfl h
theorem release (m : MsgHead) (idx tag : Nat) (z : Option Nat) (graph node : Nat) : Statement (.release m idx tag z graph node) := fun _ h => absurd rfl h
theorem writeMemory (m : MsgHead) (idx tag : Nat) (z : Option Nat) (addr len : Nat) (data : List Byte) (refused : Bool) : Statement (.writeMemory m idx tag z addr len data refused) := fun _ h => absurd rfl h
theorem readMemory (m : MsgHead) (idx tag : Nat) (z : Option Nat) (addr len val : Nat) (refused : Bool) : Statement (.readMemory m idx tag z addr len val refused) := fun _ h => absurd rfl h
theorem queueControl (m : MsgHead) (idx tag : Nat) (z : Option Nat) (unit queue value : Nat) : Statement (.queueControl m idx tag z unit queue value) := fun _ h => absurd rfl h
theorem routeEntry (m : MsgHead) (idx tag : Nat) (z : Option Nat) (dest entry : Nat) : Statement (.routeEntry m idx tag z dest entry) := fun _ h => absurd rfl h
theorem ringSetup (m : MsgHead) (idx tag : Nat) (z : Option Nat) (ring addr : Nat) (far : List Nat) : Statement (.ringSetup m idx tag z ring addr far) := fun _ h => absurd rfl h
theorem bindResult (m : MsgHead) (idx tag : Nat) (z : Option Nat) (base index state fail target : Nat) : Statement (.bindResult m idx tag z base index state fail target) := fun _ h => absurd rfl h
theorem trapResume (m : MsgHead) (idx tag : Nat) (z : Option Nat) (die core course action : Nat) : Statement (.trapResume m idx tag z die core course action) := fun _ h => absurd rfl h
theorem codeTable (m : MsgHead) (idx tag : Nat) (z : Option Nat) (base count : Nat) : Statement (.codeTable m idx tag z base count) := fun _ h => absurd rfl h
theorem attest (m : MsgHead) (idx tag : Nat) (z : Option Nat) (addr : Nat) : Statement (.attest m idx tag z addr) := fun _ h => absurd rfl h
theorem ringBind (m : MsgHead) (idx tag : Nat) (z : Option Nat) (ring ctx root : Nat) : Statement (.ringBind m idx tag z ring ctx root) := fun _ h => absurd rfl h
theorem syscallReply (m : MsgHead) (call lo hi : Nat) (vals : List (Nat × Nat)) : Statement (.syscallReply m call lo hi vals) := fun _ h => absurd rfl h
theorem mailboxMessage (m : MsgHead) (core : Nat) (words : List Nat) : Statement (.mailboxMessage m core words) := fun _ h => absurd rfl h
theorem pageMessage (m : MsgHead) (ctx va : Nat) (bytes : List Byte) : Statement (.pageMessage m ctx va bytes) := fun _ h => absurd rfl h
theorem ownMessage (m : MsgHead) (ctx va : Nat) (own : Bool) : Statement (.ownMessage m ctx va own) := fun _ h => absurd rfl h
theorem nak (m : MsgHead) (first : Nat) : Statement (.nak m first) := fun _ h => absurd rfl h
theorem resync (m : MsgHead) (accepted sent oldest : Nat) : Statement (.resync m accepted sent oldest) := fun _ h => absurd rfl h
theorem resyncReply (m : MsgHead) (accepted sent oldest : Nat) : Statement (.resyncReply m accepted sent oldest) := fun _ h => absurd rfl h
theorem keepalive (m : MsgHead) : Statement (.keepalive m) := fun _ h => absurd rfl h
theorem hostRetransmit : Statement .hostRetransmit := fun _ h => absurd rfl h
theorem hostLinkLost : Statement .hostLinkLost := fun _ h => absurd rfl h
theorem codeTableEntryJump : Statement .codeTableEntryJump := fun _ h => absurd rfl h
theorem hardwareBind (ctx base index : Nat) : Statement (.hardwareBind ctx base index) := fun _ h => absurd rfl h
theorem dbgctlHalt (core course : Nat) : Statement (.dbgctlHalt core course) := fun _ h => absurd rfl h
theorem dbgctlUnhalt (core course : Nat) : Statement (.dbgctlUnhalt core course) := fun _ h => absurd rfl h
theorem dbgctlStep (core course : Nat) : Statement (.dbgctlStep core course) := fun _ h => absurd rfl h
theorem ilenWrite (core : Nat) (v : Word) : Statement (.ilenWrite core v) := fun _ h => absurd rfl h
theorem mailboxSend : Statement .mailboxSend := fun _ h => absurd rfl h
theorem dutyWrite (die : Nat) (v : Word) : Statement (.dutyWrite die v) := fun _ h => absurd rfl h
theorem registerWrite (r : PlainReg) (v : Word) : Statement (.registerWrite r v) := fun _ h => absurd rfl h
theorem boot (cert owner fw fw2 cfg : List Byte) : Statement (.boot cert owner fw fw2 cfg) := fun _ h => absurd rfl h
theorem sensorSample (n : Nat) (x : Int) : Statement (.sensorSample n x) := fun _ h => absurd rfl h
theorem throttleRepeat (die event : Nat) : Statement (.throttleRepeat die event) := fun _ h => absurd rfl h
theorem refreshBandEvaluation (stack : Nat) : Statement (.refreshBandEvaluation stack) := fun _ h => absurd rfl h
theorem telemetryRecord : Statement .telemetryRecord := fun _ h => absurd rfl h
theorem thermalTrip (cause : Nat) : Statement (.thermalTrip cause) := fun _ h => absurd rfl h
theorem moduleReboot : Statement .moduleReboot := fun _ h => absurd rfl h
theorem scrub (die l err : Nat) : Statement (.scrub die l err) := fun _ h => absurd rfl h
theorem hostMigrationRequest (m : MsgHead) (ctx va : Nat) : Statement (.hostMigrationRequest m ctx va) := fun _ h => absurd rfl h
theorem restartAnnouncement (rank die : Nat) : Statement (.restartAnnouncement rank die) := fun _ h => absurd rfl h
theorem partialCreditReturn (ring : Nat) : Statement (.partialCreditReturn ring) := fun _ h => absurd rfl h
theorem walkComplete (core : Nat) (turn : WalkTurn) : Statement (.walkComplete core turn) := fun _ h => absurd rfl h
theorem divideResult (id : Nat) : Statement (.divideResult id) := fun _ h => absurd rfl h
theorem chunkPeerLostTimeout (cid : Nat) (peer : ChunkPeer) : Statement (.chunkPeerLostTimeout cid peer) := fun _ h => absurd rfl h
theorem movC (x : CReg) : Statement (.movC x) := fun wf _ r =>
  have o := ops_CReg x 0 (w := enCReg x 0) (by decide) rfl
  decode16 (o := .movC) (i := .movC x) o.1 o.2.1 o.2.2.1 (by unfold op16; rw [if_neg o.2.2.2.1, o.2.2.2.2]; rfl)
    (congrArg Instr.movC (un_CReg x 0 (by decide) rfl)) rfl wf r
theorem iaddC (x : CReg) : Statement (.iaddC x) := fun wf _ r =>
  have o := ops_CReg x 1 (w := enCReg x 1) (by decide) rfl
  decode16 (o := .iaddC) (i := .iaddC x) o.1 o.2.1 o.2.2.1 (by unfold op16; rw [if_neg o.2.2.2.1, o.2.2.2.2]; rfl)
    (congrArg Instr.iaddC (un_CReg x 1 (by decide) rfl)) rfl wf r
theorem isubC (x : CReg) : Statement (.isubC x) := fun wf _ r =>
  have o := ops_CReg x 2 (w := enCReg x 2) (by decide) rfl
  decode16 (o := .isubC) (i := .isubC x) o.1 o.2.1 o.2.2.1 (by unfold op16; rw [if_neg o.2.2.2.1, o.2.2.2.2]; rfl)
    (congrArg Instr.isubC (un_CReg x 2 (by decide) rfl)) rfl wf r
theorem imulC (x : CReg) : Statement (.imulC x) := fun wf _ r =>
  have o := ops_CReg x 3 (w := enCReg x 3) (by decide) rfl
  decode16 (o := .imulC) (i := .imulC x) o.1 o.2.1 o.2.2.1 (by unfold op16; rw [if_neg o.2.2.2.1, o.2.2.2.2]; rfl)
    (congrArg Instr.imulC (un_CReg x 3 (by decide) rfl)) rfl wf r
theorem andC (x : CReg) : Statement (.andC x) := fun wf _ r =>
  have o := ops_CReg x 4 (w := enCReg x 4) (by decide) rfl
  decode16 (o := .andC) (i := .andC x) o.1 o.2.1 o.2.2.1 (by unfold op16; rw [if_neg o.2.2.2.1, o.2.2.2.2]; rfl)
    (congrArg Instr.andC (un_CReg x 4 (by decide) rfl)) rfl wf r
theorem orC (x : CReg) : Statement (.orC x) := fun wf _ r =>
  have o := ops_CReg x 5 (w := enCReg x 5) (by decide) rfl
  decode16 (o := .orC) (i := .orC x) o.1 o.2.1 o.2.2.1 (by unfold op16; rw [if_neg o.2.2.2.1, o.2.2.2.2]; rfl)
    (congrArg Instr.orC (un_CReg x 5 (by decide) rfl)) rfl wf r
theorem xorC (x : CReg) : Statement (.xorC x) := fun wf _ r =>
  have o := ops_CReg x 6 (w := enCReg x 6) (by decide) rfl
  decode16 (o := .xorC) (i := .xorC x) o.1 o.2.1 o.2.2.1 (by unfold op16; rw [if_neg o.2.2.2.1, o.2.2.2.2]; rfl)
    (congrArg Instr.xorC (un_CReg x 6 (by decide) rfl)) rfl wf r
theorem shlC (x : CReg) : Statement (.shlC x) := fun wf _ r =>
  have o := ops_CReg x 7 (w := enCReg x 7) (by decide) rfl
  decode16 (o := .shlC) (i := .shlC x) o.1 o.2.1 o.2.2.1 (by unfold op16; rw [if_neg o.2.2.2.1, o.2.2.2.2]; rfl)
    (congrArg Instr.shlC (un_CReg x 7 (by decide) rfl)) rfl wf r
theorem shrNC (x : CReg) : Statement (.shrNC x) := fun wf _ r =>
  have o := ops_CReg x 8 (w := enCReg x 8) (by decide) rfl
  decode16 (o := .shrNC) (i := .shrNC x) o.1 o.2.1 o.2.2.1 (by unfold op16; rw [if_neg o.2.2.2.1, o.2.2.2.2]; rfl)
    (congrArg Instr.shrNC (un_CReg x 8 (by decide) rfl)) rfl wf r
theorem shrIC (x : CReg) : Statement (.shrIC x) := fun wf _ r =>
  have o := ops_CReg x 9 (w := enCReg x 9) (by decide) rfl
  decode16 (o := .shrIC) (i := .shrIC x) o.1 o.2.1 o.2.2.1 (by unfold op16; rw [if_neg o.2.2.2.1, o.2.2.2.2]; rfl)
    (congrArg Instr.shrIC (un_CReg x 9 (by decide) rfl)) rfl wf r
theorem faddC (x : CReg) : Statement (.faddC x) := fun wf _ r =>
  have o := ops_CReg x 10 (w := enCReg x 10) (by decide) rfl
  decode16 (o := .faddC) (i := .faddC x) o.1 o.2.1 o.2.2.1 (by unfold op16; rw [if_neg o.2.2.2.1, o.2.2.2.2]; rfl)
    (congrArg Instr.faddC (un_CReg x 10 (by decide) rfl)) rfl wf r
theorem fsubC (x : CReg) : Statement (.fsubC x) := fun wf _ r =>
  have o := ops_CReg x 11 (w := enCReg x 11) (by decide) rfl
  decode16 (o := .fsubC) (i := .fsubC x) o.1 o.2.1 o.2.2.1 (by unfold op16; rw [if_neg o.2.2.2.1, o.2.2.2.2]; rfl)
    (congrArg Instr.fsubC (un_CReg x 11 (by decide) rfl)) rfl wf r
theorem fmulC (x : CReg) : Statement (.fmulC x) := fun wf _ r =>
  have o := ops_CReg x 12 (w := enCReg x 12) (by decide) rfl
  decode16 (o := .fmulC) (i := .fmulC x) o.1 o.2.1 o.2.2.1 (by unfold op16; rw [if_neg o.2.2.2.1, o.2.2.2.2]; rfl)
    (congrArg Instr.fmulC (un_CReg x 12 (by decide) rfl)) rfl wf r
theorem fmaxC (x : CReg) : Statement (.fmaxC x) := fun wf _ r =>
  have o := ops_CReg x 13 (w := enCReg x 13) (by decide) rfl
  decode16 (o := .fmaxC) (i := .fmaxC x) o.1 o.2.1 o.2.2.1 (by unfold op16; rw [if_neg o.2.2.2.1, o.2.2.2.2]; rfl)
    (congrArg Instr.fmaxC (un_CReg x 13 (by decide) rfl)) rfl wf r
theorem fminC (x : CReg) : Statement (.fminC x) := fun wf _ r =>
  have o := ops_CReg x 14 (w := enCReg x 14) (by decide) rfl
  decode16 (o := .fminC) (i := .fminC x) o.1 o.2.1 o.2.2.1 (by unfold op16; rw [if_neg o.2.2.2.1, o.2.2.2.2]; rfl)
    (congrArg Instr.fminC (un_CReg x 14 (by decide) rfl)) rfl wf r
theorem iaddi5C (x : CImm) : Statement (.iaddi5C x) := fun wf _ r =>
  decode16 (e := enCImm x) (o := .iaddi5C) (i := .iaddi5C x) (by have := x.i.isLt; have := x.d.isLt; simp only [enCImm]; omega) (by have := x.i.isLt; have := x.d.isLt; simp only [enCImm]; omega) (by have := x.i.isLt; have := x.d.isLt; simp only [enCImm]; omega)
    (by have k : enCImm x / 2 % 16 = 15 := (by have := x.i.isLt; have := x.d.isLt; simp only [enCImm]; omega)
        have h0 : enCImm x ≠ 32798 := (by have := x.i.isLt; have := x.d.isLt; simp only [enCImm]; omega)
        unfold op16; rw [if_neg h0, k]; exact if_pos (by have := x.i.isLt; have := x.d.isLt; simp only [enCImm]; omega))
    (congrArg Instr.iaddi5C (un_CImm x rfl)) rfl wf r
theorem nopC : Statement .nopC := fun wf _ r => decode16 (e := 32798) (o := .nopC) (i := .nopC) (by decide) (by decide) (by decide) rfl rfl rfl wf r
theorem iadd (x : R3) : Statement (.iadd x) := fun wf _ r =>
  have o := ops_R3 x 0 1 (w := enR3 x 0 1) (by decide) (by decide) rfl
  decode32 (o := .iadd) (i := .iadd x) o.1 o.2.1
    (op32_0 o.2.2)
    (congrArg Instr.iadd (un_R3 x 0 1 (by decide) (by decide) rfl)) rfl wf r
theorem iaddL (x : R3m) : Statement (.iaddL x) := fun wf _ r =>
  have o := ops_R3 x.r 0 3 (w := enR3 x.r 0 3) (by decide) (by decide) rfl
  decode64 (v := enModifier x.m) (o := .iaddL) (i := .iaddL x) o.1 (lt32_Modifier x.m) o.2.1
    (op64_0 o.2.2 |>.trans (if_pos (zero_Modifier x.m)))
    (mk2 (fun a b => Instr.iaddL ⟨a, b⟩) (un_R3 x.r 0 3 (by decide) (by decide) rfl) (un_Modifier x.m rfl)) rfl wf r
theorem isub (x : R3) : Statement (.isub x) := fun wf _ r =>
  have o := ops_R3 x 1 1 (w := enR3 x 1 1) (by decide) (by decide) rfl
  decode32 (o := .isub) (i := .isub x) o.1 o.2.1
    (op32_1 o.2.2)
    (congrArg Instr.isub (un_R3 x 1 1 (by decide) (by decide) rfl)) rfl wf r
theorem isubL (x : R3m) : Statement (.isubL x) := fun wf _ r =>
  have o := ops_R3 x.r 1 3 (w := enR3 x.r 1 3) (by decide) (by decide) rfl
  decode64 (v := enModifier x.m) (o := .isubL) (i := .isubL x) o.1 (lt32_Modifier x.m) o.2.1
    (op64_1 o.2.2 |>.trans (if_pos (zero_Modifier x.m)))
    (mk2 (fun a b => Instr.isubL ⟨a, b⟩) (un_R3 x.r 1 3 (by decide) (by decide) rfl) (un_Modifier x.m rfl)) rfl wf r
theorem imul (x : R3) : Statement (.imul x) := fun wf _ r =>
  have o := ops_R3 x 2 1 (w := enR3 x 2 1) (by decide) (by decide) rfl
  decode32 (o := .imul) (i := .imul x) o.1 o.2.1
    (op32_2 o.2.2)
    (congrArg Instr.imul (un_R3 x 2 1 (by decide) (by decide) rfl)) rfl wf r
theorem imulL (x : R3m) : Statement (.imulL x) := fun wf _ r =>
  have o := ops_R3 x.r 2 3 (w := enR3 x.r 2 3) (by decide) (by decide) rfl
  decode64 (v := enModifier x.m) (o := .imulL) (i := .imulL x) o.1 (lt32_Modifier x.m) o.2.1
    (op64_2 o.2.2 |>.trans (if_pos (zero_Modifier x.m)))
    (mk2 (fun a b => Instr.imulL ⟨a, b⟩) (un_R3 x.r 2 3 (by decide) (by decide) rfl) (un_Modifier x.m rfl)) rfl wf r
theorem imulhI (x : R3) : Statement (.imulhI x) := fun wf _ r =>
  have o := ops_R3 x 3 1 (w := enR3 x 3 1) (by decide) (by decide) rfl
  decode32 (o := .imulhI) (i := .imulhI x) o.1 o.2.1
    (op32_3 o.2.2)
    (congrArg Instr.imulhI (un_R3 x 3 1 (by decide) (by decide) rfl)) rfl wf r
theorem imulhIL (x : R3m) : Statement (.imulhIL x) := fun wf _ r =>
  have o := ops_R3 x.r 3 3 (w := enR3 x.r 3 3) (by decide) (by decide) rfl
  decode64 (v := enModifier x.m) (o := .imulhIL) (i := .imulhIL x) o.1 (lt32_Modifier x.m) o.2.1
    (op64_3 o.2.2 |>.trans (if_pos (zero_Modifier x.m)))
    (mk2 (fun a b => Instr.imulhIL ⟨a, b⟩) (un_R3 x.r 3 3 (by decide) (by decide) rfl) (un_Modifier x.m rfl)) rfl wf r
theorem imulhN (x : R3) : Statement (.imulhN x) := fun wf _ r =>
  have o := ops_R3 x 4 1 (w := enR3 x 4 1) (by decide) (by decide) rfl
  decode32 (o := .imulhN) (i := .imulhN x) o.1 o.2.1
    (op32_4 o.2.2)
    (congrArg Instr.imulhN (un_R3 x 4 1 (by decide) (by decide) rfl)) rfl wf r
theorem imulhNL (x : R3m) : Statement (.imulhNL x) := fun wf _ r =>
  have o := ops_R3 x.r 4 3 (w := enR3 x.r 4 3) (by decide) (by decide) rfl
  decode64 (v := enModifier x.m) (o := .imulhNL) (i := .imulhNL x) o.1 (lt32_Modifier x.m) o.2.1
    (op64_4 o.2.2 |>.trans (if_pos (zero_Modifier x.m)))
    (mk2 (fun a b => Instr.imulhNL ⟨a, b⟩) (un_R3 x.r 4 3 (by decide) (by decide) rfl) (un_Modifier x.m rfl)) rfl wf r
theorem imac (x : R3) : Statement (.imac x) := fun wf _ r =>
  have o := ops_R3 x 5 1 (w := enR3 x 5 1) (by decide) (by decide) rfl
  decode32 (o := .imac) (i := .imac x) o.1 o.2.1
    (op32_5 o.2.2)
    (congrArg Instr.imac (un_R3 x 5 1 (by decide) (by decide) rfl)) rfl wf r
theorem imacL (x : R3m) : Statement (.imacL x) := fun wf _ r =>
  have o := ops_R3 x.r 5 3 (w := enR3 x.r 5 3) (by decide) (by decide) rfl
  decode64 (v := enModifier x.m) (o := .imacL) (i := .imacL x) o.1 (lt32_Modifier x.m) o.2.1
    (op64_5 o.2.2 |>.trans (if_pos (zero_Modifier x.m)))
    (mk2 (fun a b => Instr.imacL ⟨a, b⟩) (un_R3 x.r 5 3 (by decide) (by decide) rfl) (un_Modifier x.m rfl)) rfl wf r
theorem iminI (x : R3) : Statement (.iminI x) := fun wf _ r =>
  have o := ops_R3 x 6 1 (w := enR3 x 6 1) (by decide) (by decide) rfl
  decode32 (o := .iminI) (i := .iminI x) o.1 o.2.1
    (op32_6 o.2.2)
    (congrArg Instr.iminI (un_R3 x 6 1 (by decide) (by decide) rfl)) rfl wf r
theorem iminIL (x : R3m) : Statement (.iminIL x) := fun wf _ r =>
  have o := ops_R3 x.r 6 3 (w := enR3 x.r 6 3) (by decide) (by decide) rfl
  decode64 (v := enModifier x.m) (o := .iminIL) (i := .iminIL x) o.1 (lt32_Modifier x.m) o.2.1
    (op64_6 o.2.2 |>.trans (if_pos (zero_Modifier x.m)))
    (mk2 (fun a b => Instr.iminIL ⟨a, b⟩) (un_R3 x.r 6 3 (by decide) (by decide) rfl) (un_Modifier x.m rfl)) rfl wf r
theorem iminN (x : R3) : Statement (.iminN x) := fun wf _ r =>
  have o := ops_R3 x 7 1 (w := enR3 x 7 1) (by decide) (by decide) rfl
  decode32 (o := .iminN) (i := .iminN x) o.1 o.2.1
    (op32_7 o.2.2)
    (congrArg Instr.iminN (un_R3 x 7 1 (by decide) (by decide) rfl)) rfl wf r
theorem iminNL (x : R3m) : Statement (.iminNL x) := fun wf _ r =>
  have o := ops_R3 x.r 7 3 (w := enR3 x.r 7 3) (by decide) (by decide) rfl
  decode64 (v := enModifier x.m) (o := .iminNL) (i := .iminNL x) o.1 (lt32_Modifier x.m) o.2.1
    (op64_7 o.2.2 |>.trans (if_pos (zero_Modifier x.m)))
    (mk2 (fun a b => Instr.iminNL ⟨a, b⟩) (un_R3 x.r 7 3 (by decide) (by decide) rfl) (un_Modifier x.m rfl)) rfl wf r
theorem imaxI (x : R3) : Statement (.imaxI x) := fun wf _ r =>
  have o := ops_R3 x 8 1 (w := enR3 x 8 1) (by decide) (by decide) rfl
  decode32 (o := .imaxI) (i := .imaxI x) o.1 o.2.1
    (op32_8 o.2.2)
    (congrArg Instr.imaxI (un_R3 x 8 1 (by decide) (by decide) rfl)) rfl wf r
theorem imaxIL (x : R3m) : Statement (.imaxIL x) := fun wf _ r =>
  have o := ops_R3 x.r 8 3 (w := enR3 x.r 8 3) (by decide) (by decide) rfl
  decode64 (v := enModifier x.m) (o := .imaxIL) (i := .imaxIL x) o.1 (lt32_Modifier x.m) o.2.1
    (op64_8 o.2.2 |>.trans (if_pos (zero_Modifier x.m)))
    (mk2 (fun a b => Instr.imaxIL ⟨a, b⟩) (un_R3 x.r 8 3 (by decide) (by decide) rfl) (un_Modifier x.m rfl)) rfl wf r
theorem imaxN (x : R3) : Statement (.imaxN x) := fun wf _ r =>
  have o := ops_R3 x 9 1 (w := enR3 x 9 1) (by decide) (by decide) rfl
  decode32 (o := .imaxN) (i := .imaxN x) o.1 o.2.1
    (op32_9 o.2.2)
    (congrArg Instr.imaxN (un_R3 x 9 1 (by decide) (by decide) rfl)) rfl wf r
theorem imaxNL (x : R3m) : Statement (.imaxNL x) := fun wf _ r =>
  have o := ops_R3 x.r 9 3 (w := enR3 x.r 9 3) (by decide) (by decide) rfl
  decode64 (v := enModifier x.m) (o := .imaxNL) (i := .imaxNL x) o.1 (lt32_Modifier x.m) o.2.1
    (op64_9 o.2.2 |>.trans (if_pos (zero_Modifier x.m)))
    (mk2 (fun a b => Instr.imaxNL ⟨a, b⟩) (un_R3 x.r 9 3 (by decide) (by decide) rfl) (un_Modifier x.m rfl)) rfl wf r
theorem iabsd (x : R3) : Statement (.iabsd x) := fun wf _ r =>
  have o := ops_R3 x 10 1 (w := enR3 x 10 1) (by decide) (by decide) rfl
  decode32 (o := .iabsd) (i := .iabsd x) o.1 o.2.1
    (op32_10 o.2.2)
    (congrArg Instr.iabsd (un_R3 x 10 1 (by decide) (by decide) rfl)) rfl wf r
theorem iabsdL (x : R3m) : Statement (.iabsdL x) := fun wf _ r =>
  have o := ops_R3 x.r 10 3 (w := enR3 x.r 10 3) (by decide) (by decide) rfl
  decode64 (v := enModifier x.m) (o := .iabsdL) (i := .iabsdL x) o.1 (lt32_Modifier x.m) o.2.1
    (op64_10 o.2.2 |>.trans (if_pos (zero_Modifier x.m)))
    (mk2 (fun a b => Instr.iabsdL ⟨a, b⟩) (un_R3 x.r 10 3 (by decide) (by decide) rfl) (un_Modifier x.m rfl)) rfl wf r
theorem and (x : R3) : Statement (.and x) := fun wf _ r =>
  have o := ops_R3 x 11 1 (w := enR3 x 11 1) (by decide) (by decide) rfl
  decode32 (o := .and) (i := .and x) o.1 o.2.1
    (op32_11 o.2.2)
    (congrArg Instr.and (un_R3 x 11 1 (by decide) (by decide) rfl)) rfl wf r
theorem andL (x : R3m) : Statement (.andL x) := fun wf _ r =>
  have o := ops_R3 x.r 11 3 (w := enR3 x.r 11 3) (by decide) (by decide) rfl
  decode64 (v := enModifier x.m) (o := .andL) (i := .andL x) o.1 (lt32_Modifier x.m) o.2.1
    (op64_11 o.2.2 |>.trans (if_pos (zero_Modifier x.m)))
    (mk2 (fun a b => Instr.andL ⟨a, b⟩) (un_R3 x.r 11 3 (by decide) (by decide) rfl) (un_Modifier x.m rfl)) rfl wf r
theorem or (x : R3) : Statement (.or x) := fun wf _ r =>
  have o := ops_R3 x 12 1 (w := enR3 x 12 1) (by decide) (by decide) rfl
  decode32 (o := .or) (i := .or x) o.1 o.2.1
    (op32_12 o.2.2)
    (congrArg Instr.or (un_R3 x 12 1 (by decide) (by decide) rfl)) rfl wf r
theorem orL (x : R3m) : Statement (.orL x) := fun wf _ r =>
  have o := ops_R3 x.r 12 3 (w := enR3 x.r 12 3) (by decide) (by decide) rfl
  decode64 (v := enModifier x.m) (o := .orL) (i := .orL x) o.1 (lt32_Modifier x.m) o.2.1
    (op64_12 o.2.2 |>.trans (if_pos (zero_Modifier x.m)))
    (mk2 (fun a b => Instr.orL ⟨a, b⟩) (un_R3 x.r 12 3 (by decide) (by decide) rfl) (un_Modifier x.m rfl)) rfl wf r
theorem xor (x : R3) : Statement (.xor x) := fun wf _ r =>
  have o := ops_R3 x 13 1 (w := enR3 x 13 1) (by decide) (by decide) rfl
  decode32 (o := .xor) (i := .xor x) o.1 o.2.1
    (op32_13 o.2.2)
    (congrArg Instr.xor (un_R3 x 13 1 (by decide) (by decide) rfl)) rfl wf r
theorem xorL (x : R3m) : Statement (.xorL x) := fun wf _ r =>
  have o := ops_R3 x.r 13 3 (w := enR3 x.r 13 3) (by decide) (by decide) rfl
  decode64 (v := enModifier x.m) (o := .xorL) (i := .xorL x) o.1 (lt32_Modifier x.m) o.2.1
    (op64_13 o.2.2 |>.trans (if_pos (zero_Modifier x.m)))
    (mk2 (fun a b => Instr.xorL ⟨a, b⟩) (un_R3 x.r 13 3 (by decide) (by decide) rfl) (un_Modifier x.m rfl)) rfl wf r
theorem andn (x : R3) : Statement (.andn x) := fun wf _ r =>
  have o := ops_R3 x 14 1 (w := enR3 x 14 1) (by decide) (by decide) rfl
  decode32 (o := .andn) (i := .andn x) o.1 o.2.1
    (op32_14 o.2.2)
    (congrArg Instr.andn (un_R3 x 14 1 (by decide) (by decide) rfl)) rfl wf r
theorem andnL (x : R3m) : Statement (.andnL x) := fun wf _ r =>
  have o := ops_R3 x.r 14 3 (w := enR3 x.r 14 3) (by decide) (by decide) rfl
  decode64 (v := enModifier x.m) (o := .andnL) (i := .andnL x) o.1 (lt32_Modifier x.m) o.2.1
    (op64_14 o.2.2 |>.trans (if_pos (zero_Modifier x.m)))
    (mk2 (fun a b => Instr.andnL ⟨a, b⟩) (un_R3 x.r 14 3 (by decide) (by decide) rfl) (un_Modifier x.m rfl)) rfl wf r
theorem mov (x : R1) : Statement (.mov x) := fun wf _ r =>
  have o := ops_R1 x 15 1 (w := enR1 x 15 1) (by decide) (by decide) rfl
  decode32 (o := .mov) (i := .mov x) o.1 o.2.1
    (op32_15 o.2.2 |>.trans (if_pos (by have := Bool.toNat_le x.h.n; have := x.h.g.isLt; have := x.h.s.isLt; have := x.a.isLt; have := x.d.isLt; simp only [enR1, enHdr]; omega)))
    (congrArg Instr.mov (un_R1 x 15 1 (by decide) (by decide) rfl)) rfl wf r
theorem movL (x : R1m) : Statement (.movL x) := fun wf _ r =>
  have o := ops_R1 x.r 15 3 (w := enR1 x.r 15 3) (by decide) (by decide) rfl
  decode64 (v := enModifier x.m) (o := .movL) (i := .movL x) o.1 (lt32_Modifier x.m) o.2.1
    (op64_15 o.2.2 |>.trans (if_pos (by have := Bool.toNat_le x.r.h.n; have := x.r.h.g.isLt; have := x.r.h.s.isLt; have := x.r.a.isLt; have := x.r.d.isLt; have := lt_Modifier x.m; simp only [enR1, enHdr]; omega)))
    (mk2 (fun a b => Instr.movL ⟨a, b⟩) (un_R1 x.r 15 3 (by decide) (by decide) rfl) (un_Modifier x.m rfl)) rfl wf r
theorem shl (x : R3) : Statement (.shl x) := fun wf _ r =>
  have o := ops_R3 x 16 1 (w := enR3 x 16 1) (by decide) (by decide) rfl
  decode32 (o := .shl) (i := .shl x) o.1 o.2.1
    (op32_16 o.2.2)
    (congrArg Instr.shl (un_R3 x 16 1 (by decide) (by decide) rfl)) rfl wf r
theorem shlL (x : R3m) : Statement (.shlL x) := fun wf _ r =>
  have o := ops_R3 x.r 16 3 (w := enR3 x.r 16 3) (by decide) (by decide) rfl
  decode64 (v := enModifier x.m) (o := .shlL) (i := .shlL x) o.1 (lt32_Modifier x.m) o.2.1
    (op64_16 o.2.2 |>.trans (if_pos (zero_Modifier x.m)))
    (mk2 (fun a b => Instr.shlL ⟨a, b⟩) (un_R3 x.r 16 3 (by decide) (by decide) rfl) (un_Modifier x.m rfl)) rfl wf r
theorem shrN (x : R3) : Statement (.shrN x) := fun wf _ r =>
  have o := ops_R3 x 17 1 (w := enR3 x 17 1) (by decide) (by decide) rfl
  decode32 (o := .shrN) (i := .shrN x) o.1 o.2.1
    (op32_17 o.2.2)
    (congrArg Instr.shrN (un_R3 x 17 1 (by decide) (by decide) rfl)) rfl wf r
theorem shrNL (x : R3m) : Statement (.shrNL x) := fun wf _ r =>
  have o := ops_R3 x.r 17 3 (w := enR3 x.r 17 3) (by decide) (by decide) rfl
  decode64 (v := enModifier x.m) (o := .shrNL) (i := .shrNL x) o.1 (lt32_Modifier x.m) o.2.1
    (op64_17 o.2.2 |>.trans (if_pos (zero_Modifier x.m)))
    (mk2 (fun a b => Instr.shrNL ⟨a, b⟩) (un_R3 x.r 17 3 (by decide) (by decide) rfl) (un_Modifier x.m rfl)) rfl wf r
theorem shrI (x : R3) : Statement (.shrI x) := fun wf _ r =>
  have o := ops_R3 x 18 1 (w := enR3 x 18 1) (by decide) (by decide) rfl
  decode32 (o := .shrI) (i := .shrI x) o.1 o.2.1
    (op32_18 o.2.2)
    (congrArg Instr.shrI (un_R3 x 18 1 (by decide) (by decide) rfl)) rfl wf r
theorem shrIL (x : R3m) : Statement (.shrIL x) := fun wf _ r =>
  have o := ops_R3 x.r 18 3 (w := enR3 x.r 18 3) (by decide) (by decide) rfl
  decode64 (v := enModifier x.m) (o := .shrIL) (i := .shrIL x) o.1 (lt32_Modifier x.m) o.2.1
    (op64_18 o.2.2 |>.trans (if_pos (zero_Modifier x.m)))
    (mk2 (fun a b => Instr.shrIL ⟨a, b⟩) (un_R3 x.r 18 3 (by decide) (by decide) rfl) (un_Modifier x.m rfl)) rfl wf r
theorem clz (x : R1) : Statement (.clz x) := fun wf _ r =>
  have o := ops_R1 x 19 1 (w := enR1 x 19 1) (by decide) (by decide) rfl
  decode32 (o := .clz) (i := .clz x) o.1 o.2.1
    (op32_19 o.2.2 |>.trans (if_pos (by have := Bool.toNat_le x.h.n; have := x.h.g.isLt; have := x.h.s.isLt; have := x.a.isLt; have := x.d.isLt; simp only [enR1, enHdr]; omega)))
    (congrArg Instr.clz (un_R1 x 19 1 (by decide) (by decide) rfl)) rfl wf r
theorem clzL (x : R1m) : Statement (.clzL x) := fun wf _ r =>
  have o := ops_R1 x.r 19 3 (w := enR1 x.r 19 3) (by decide) (by decide) rfl
  decode64 (v := enModifier x.m) (o := .clzL) (i := .clzL x) o.1 (lt32_Modifier x.m) o.2.1
    (op64_19 o.2.2 |>.trans (if_pos (by have := Bool.toNat_le x.r.h.n; have := x.r.h.g.isLt; have := x.r.h.s.isLt; have := x.r.a.isLt; have := x.r.d.isLt; have := lt_Modifier x.m; simp only [enR1, enHdr]; omega)))
    (mk2 (fun a b => Instr.clzL ⟨a, b⟩) (un_R1 x.r 19 3 (by decide) (by decide) rfl) (un_Modifier x.m rfl)) rfl wf r
theorem popc (x : R1) : Statement (.popc x) := fun wf _ r =>
  have o := ops_R1 x 20 1 (w := enR1 x 20 1) (by decide) (by decide) rfl
  decode32 (o := .popc) (i := .popc x) o.1 o.2.1
    (op32_20 o.2.2 |>.trans (if_pos (by have := Bool.toNat_le x.h.n; have := x.h.g.isLt; have := x.h.s.isLt; have := x.a.isLt; have := x.d.isLt; simp only [enR1, enHdr]; omega)))
    (congrArg Instr.popc (un_R1 x 20 1 (by decide) (by decide) rfl)) rfl wf r
theorem popcL (x : R1m) : Statement (.popcL x) := fun wf _ r =>
  have o := ops_R1 x.r 20 3 (w := enR1 x.r 20 3) (by decide) (by decide) rfl
  decode64 (v := enModifier x.m) (o := .popcL) (i := .popcL x) o.1 (lt32_Modifier x.m) o.2.1
    (op64_20 o.2.2 |>.trans (if_pos (by have := Bool.toNat_le x.r.h.n; have := x.r.h.g.isLt; have := x.r.h.s.isLt; have := x.r.a.isLt; have := x.r.d.isLt; have := lt_Modifier x.m; simp only [enR1, enHdr]; omega)))
    (mk2 (fun a b => Instr.popcL ⟨a, b⟩) (un_R1 x.r 20 3 (by decide) (by decide) rfl) (un_Modifier x.m rfl)) rfl wf r
theorem bfxN (x : R3) : Statement (.bfxN x) := fun wf _ r =>
  have o := ops_R3 x 21 1 (w := enR3 x 21 1) (by decide) (by decide) rfl
  decode32 (o := .bfxN) (i := .bfxN x) o.1 o.2.1
    (op32_21 o.2.2)
    (congrArg Instr.bfxN (un_R3 x 21 1 (by decide) (by decide) rfl)) rfl wf r
theorem bfxNL (x : R3m) : Statement (.bfxNL x) := fun wf _ r =>
  have o := ops_R3 x.r 21 3 (w := enR3 x.r 21 3) (by decide) (by decide) rfl
  decode64 (v := enModifier x.m) (o := .bfxNL) (i := .bfxNL x) o.1 (lt32_Modifier x.m) o.2.1
    (op64_21 o.2.2 |>.trans (if_pos (zero_Modifier x.m)))
    (mk2 (fun a b => Instr.bfxNL ⟨a, b⟩) (un_R3 x.r 21 3 (by decide) (by decide) rfl) (un_Modifier x.m rfl)) rfl wf r
theorem bfxI (x : R3) : Statement (.bfxI x) := fun wf _ r =>
  have o := ops_R3 x 22 1 (w := enR3 x 22 1) (by decide) (by decide) rfl
  decode32 (o := .bfxI) (i := .bfxI x) o.1 o.2.1
    (op32_22 o.2.2)
    (congrArg Instr.bfxI (un_R3 x 22 1 (by decide) (by decide) rfl)) rfl wf r
theorem bfxIL (x : R3m) : Statement (.bfxIL x) := fun wf _ r =>
  have o := ops_R3 x.r 22 3 (w := enR3 x.r 22 3) (by decide) (by decide) rfl
  decode64 (v := enModifier x.m) (o := .bfxIL) (i := .bfxIL x) o.1 (lt32_Modifier x.m) o.2.1
    (op64_22 o.2.2 |>.trans (if_pos (zero_Modifier x.m)))
    (mk2 (fun a b => Instr.bfxIL ⟨a, b⟩) (un_R3 x.r 22 3 (by decide) (by decide) rfl) (un_Modifier x.m rfl)) rfl wf r
theorem bfi (x : R3) : Statement (.bfi x) := fun wf _ r =>
  have o := ops_R3 x 23 1 (w := enR3 x 23 1) (by decide) (by decide) rfl
  decode32 (o := .bfi) (i := .bfi x) o.1 o.2.1
    (op32_23 o.2.2)
    (congrArg Instr.bfi (un_R3 x 23 1 (by decide) (by decide) rfl)) rfl wf r
theorem bfiL (x : R3m) : Statement (.bfiL x) := fun wf _ r =>
  have o := ops_R3 x.r 23 3 (w := enR3 x.r 23 3) (by decide) (by decide) rfl
  decode64 (v := enModifier x.m) (o := .bfiL) (i := .bfiL x) o.1 (lt32_Modifier x.m) o.2.1
    (op64_23 o.2.2 |>.trans (if_pos (zero_Modifier x.m)))
    (mk2 (fun a b => Instr.bfiL ⟨a, b⟩) (un_R3 x.r 23 3 (by decide) (by decide) rfl) (un_Modifier x.m rfl)) rfl wf r
theorem perm (x : R3) : Statement (.perm x) := fun wf _ r =>
  have o := ops_R3 x 24 1 (w := enR3 x 24 1) (by decide) (by decide) rfl
  decode32 (o := .perm) (i := .perm x) o.1 o.2.1
    (op32_24 o.2.2)
    (congrArg Instr.perm (un_R3 x 24 1 (by decide) (by decide) rfl)) rfl wf r
theorem permL (x : R3m) : Statement (.permL x) := fun wf _ r =>
  have o := ops_R3 x.r 24 3 (w := enR3 x.r 24 3) (by decide) (by decide) rfl
  decode64 (v := enModifier x.m) (o := .permL) (i := .permL x) o.1 (lt32_Modifier x.m) o.2.1
    (op64_24 o.2.2 |>.trans (if_pos (zero_Modifier x.m)))
    (mk2 (fun a b => Instr.permL ⟨a, b⟩) (un_R3 x.r 24 3 (by decide) (by decide) rfl) (un_Modifier x.m rfl)) rfl wf r
theorem icmpEq (x : R3) : Statement (.icmpEq x) := fun wf _ r =>
  have o := ops_R3 x 25 1 (w := enR3 x 25 1) (by decide) (by decide) rfl
  decode32 (o := .icmpEq) (i := .icmpEq x) o.1 o.2.1
    (op32_25 o.2.2)
    (congrArg Instr.icmpEq (un_R3 x 25 1 (by decide) (by decide) rfl)) rfl wf r
theorem icmpEqL (x : R3m) : Statement (.icmpEqL x) := fun wf _ r =>
  have o := ops_R3 x.r 25 3 (w := enR3 x.r 25 3) (by decide) (by decide) rfl
  decode64 (v := enModifier x.m) (o := .icmpEqL) (i := .icmpEqL x) o.1 (lt32_Modifier x.m) o.2.1
    (op64_25 o.2.2 |>.trans (if_pos (zero_Modifier x.m)))
    (mk2 (fun a b => Instr.icmpEqL ⟨a, b⟩) (un_R3 x.r 25 3 (by decide) (by decide) rfl) (un_Modifier x.m rfl)) rfl wf r
theorem icmpNe (x : R3) : Statement (.icmpNe x) := fun wf _ r =>
  have o := ops_R3 x 26 1 (w := enR3 x 26 1) (by decide) (by decide) rfl
  decode32 (o := .icmpNe) (i := .icmpNe x) o.1 o.2.1
    (op32_26 o.2.2)
    (congrArg Instr.icmpNe (un_R3 x 26 1 (by decide) (by decide) rfl)) rfl wf r
theorem icmpNeL (x : R3m) : Statement (.icmpNeL x) := fun wf _ r =>
  have o := ops_R3 x.r 26 3 (w := enR3 x.r 26 3) (by decide) (by decide) rfl
  decode64 (v := enModifier x.m) (o := .icmpNeL) (i := .icmpNeL x) o.1 (lt32_Modifier x.m) o.2.1
    (op64_26 o.2.2 |>.trans (if_pos (zero_Modifier x.m)))
    (mk2 (fun a b => Instr.icmpNeL ⟨a, b⟩) (un_R3 x.r 26 3 (by decide) (by decide) rfl) (un_Modifier x.m rfl)) rfl wf r
theorem icmpLtI (x : R3) : Statement (.icmpLtI x) := fun wf _ r =>
  have o := ops_R3 x 27 1 (w := enR3 x 27 1) (by decide) (by decide) rfl
  decode32 (o := .icmpLtI) (i := .icmpLtI x) o.1 o.2.1
    (op32_27 o.2.2)
    (congrArg Instr.icmpLtI (un_R3 x 27 1 (by decide) (by decide) rfl)) rfl wf r
theorem icmpLtIL (x : R3m) : Statement (.icmpLtIL x) := fun wf _ r =>
  have o := ops_R3 x.r 27 3 (w := enR3 x.r 27 3) (by decide) (by decide) rfl
  decode64 (v := enModifier x.m) (o := .icmpLtIL) (i := .icmpLtIL x) o.1 (lt32_Modifier x.m) o.2.1
    (op64_27 o.2.2 |>.trans (if_pos (zero_Modifier x.m)))
    (mk2 (fun a b => Instr.icmpLtIL ⟨a, b⟩) (un_R3 x.r 27 3 (by decide) (by decide) rfl) (un_Modifier x.m rfl)) rfl wf r
theorem icmpLeI (x : R3) : Statement (.icmpLeI x) := fun wf _ r =>
  have o := ops_R3 x 28 1 (w := enR3 x 28 1) (by decide) (by decide) rfl
  decode32 (o := .icmpLeI) (i := .icmpLeI x) o.1 o.2.1
    (op32_28 o.2.2)
    (congrArg Instr.icmpLeI (un_R3 x 28 1 (by decide) (by decide) rfl)) rfl wf r
theorem icmpLeIL (x : R3m) : Statement (.icmpLeIL x) := fun wf _ r =>
  have o := ops_R3 x.r 28 3 (w := enR3 x.r 28 3) (by decide) (by decide) rfl
  decode64 (v := enModifier x.m) (o := .icmpLeIL) (i := .icmpLeIL x) o.1 (lt32_Modifier x.m) o.2.1
    (op64_28 o.2.2 |>.trans (if_pos (zero_Modifier x.m)))
    (mk2 (fun a b => Instr.icmpLeIL ⟨a, b⟩) (un_R3 x.r 28 3 (by decide) (by decide) rfl) (un_Modifier x.m rfl)) rfl wf r
theorem icmpLtN (x : R3) : Statement (.icmpLtN x) := fun wf _ r =>
  have o := ops_R3 x 29 1 (w := enR3 x 29 1) (by decide) (by decide) rfl
  decode32 (o := .icmpLtN) (i := .icmpLtN x) o.1 o.2.1
    (op32_29 o.2.2)
    (congrArg Instr.icmpLtN (un_R3 x 29 1 (by decide) (by decide) rfl)) rfl wf r
theorem icmpLtNL (x : R3m) : Statement (.icmpLtNL x) := fun wf _ r =>
  have o := ops_R3 x.r 29 3 (w := enR3 x.r 29 3) (by decide) (by decide) rfl
  decode64 (v := enModifier x.m) (o := .icmpLtNL) (i := .icmpLtNL x) o.1 (lt32_Modifier x.m) o.2.1
    (op64_29 o.2.2 |>.trans (if_pos (zero_Modifier x.m)))
    (mk2 (fun a b => Instr.icmpLtNL ⟨a, b⟩) (un_R3 x.r 29 3 (by decide) (by decide) rfl) (un_Modifier x.m rfl)) rfl wf r
theorem icmpLeN (x : R3) : Statement (.icmpLeN x) := fun wf _ r =>
  have o := ops_R3 x 30 1 (w := enR3 x 30 1) (by decide) (by decide) rfl
  decode32 (o := .icmpLeN) (i := .icmpLeN x) o.1 o.2.1
    (op32_30 o.2.2)
    (congrArg Instr.icmpLeN (un_R3 x 30 1 (by decide) (by decide) rfl)) rfl wf r
theorem icmpLeNL (x : R3m) : Statement (.icmpLeNL x) := fun wf _ r =>
  have o := ops_R3 x.r 30 3 (w := enR3 x.r 30 3) (by decide) (by decide) rfl
  decode64 (v := enModifier x.m) (o := .icmpLeNL) (i := .icmpLeNL x) o.1 (lt32_Modifier x.m) o.2.1
    (op64_30 o.2.2 |>.trans (if_pos (zero_Modifier x.m)))
    (mk2 (fun a b => Instr.icmpLeNL ⟨a, b⟩) (un_R3 x.r 30 3 (by decide) (by decide) rfl) (un_Modifier x.m rfl)) rfl wf r
theorem qlopAnd (x : Ql) : Statement (.qlopAnd x) := fun wf _ r =>
  have o := ops_Ql x 31 1 0 (w := enQl x 31 1) (by decide) (by decide) (by decide) rfl
  decode32 (o := .qlopAnd) (i := .qlopAnd x) o.1 o.2.1
    (op32_31 o.2.2 |>.trans (if_pos (by have := Bool.toNat_le x.h.n; have := x.h.g.isLt; have := x.h.s.isLt; have := x.b.isLt; have := x.a.isLt; have := x.d.isLt; simp only [enQl, enHdr]; omega)))
    (congrArg Instr.qlopAnd (un_Ql x 31 1 0 (by decide) (by decide) (by decide) rfl)) rfl wf r
theorem qlopOr (x : Ql) : Statement (.qlopOr x) := fun wf _ r =>
  have o := ops_Ql x 31 1 1 (w := enQl x 31 1 + 1073741824) (by decide) (by decide) (by decide) rfl
  decode32 (o := .qlopOr) (i := .qlopOr x) o.1 o.2.1
    (op32_31 o.2.2 |>.trans (if_neg (by have := Bool.toNat_le x.h.n; have := x.h.g.isLt; have := x.h.s.isLt; have := x.b.isLt; have := x.a.isLt; have := x.d.isLt; omega)) |>.trans (if_pos (by have := Bool.toNat_le x.h.n; have := x.h.g.isLt; have := x.h.s.isLt; have := x.b.isLt; have := x.a.isLt; have := x.d.isLt; simp only [enQl, enHdr]; omega)))
    (congrArg Instr.qlopOr (un_Ql x 31 1 1 (by decide) (by decide) (by decide) rfl)) rfl wf r
theorem qlopXor (x : Ql) : Statement (.qlopXor x) := fun wf _ r =>
  have o := ops_Ql x 31 1 2 (w := enQl x 31 1 + 2147483648) (by decide) (by decide) (by decide) rfl
  decode32 (o := .qlopXor) (i := .qlopXor x) o.1 o.2.1
    (op32_31 o.2.2 |>.trans (if_neg (by have := Bool.toNat_le x.h.n; have := x.h.g.isLt; have := x.h.s.isLt; have := x.b.isLt; have := x.a.isLt; have := x.d.isLt; omega)) |>.trans (if_neg (by have := Bool.toNat_le x.h.n; have := x.h.g.isLt; have := x.h.s.isLt; have := x.b.isLt; have := x.a.isLt; have := x.d.isLt; omega)) |>.trans (if_pos (by have := Bool.toNat_le x.h.n; have := x.h.g.isLt; have := x.h.s.isLt; have := x.b.isLt; have := x.a.isLt; have := x.d.isLt; simp only [enQl, enHdr]; omega)))
    (congrArg Instr.qlopXor (un_Ql x 31 1 2 (by decide) (by decide) (by decide) rfl)) rfl wf r
theorem qlopAndn (x : Ql) : Statement (.qlopAndn x) := fun wf _ r =>
  have o := ops_Ql x 31 1 3 (w := enQl x 31 1 + 3221225472) (by decide) (by decide) (by decide) rfl
  decode32 (o := .qlopAndn) (i := .qlopAndn x) o.1 o.2.1
    (op32_31 o.2.2 |>.trans (if_neg (by have := Bool.toNat_le x.h.n; have := x.h.g.isLt; have := x.h.s.isLt; have := x.b.isLt; have := x.a.isLt; have := x.d.isLt; omega)) |>.trans (if_neg (by have := Bool.toNat_le x.h.n; have := x.h.g.isLt; have := x.h.s.isLt; have := x.b.isLt; have := x.a.isLt; have := x.d.isLt; omega)) |>.trans (if_neg (by have := Bool.toNat_le x.h.n; have := x.h.g.isLt; have := x.h.s.isLt; have := x.b.isLt; have := x.a.isLt; have := x.d.isLt; omega)) |>.trans (if_pos (by have := Bool.toNat_le x.h.n; have := x.h.g.isLt; have := x.h.s.isLt; have := x.b.isLt; have := x.a.isLt; have := x.d.isLt; simp only [enQl, enHdr]; omega)))
    (congrArg Instr.qlopAndn (un_Ql x 31 1 3 (by decide) (by decide) (by decide) rfl)) rfl wf r
theorem ladd (x : R3) : Statement (.ladd x) := fun wf _ r =>
  have o := ops_R3 x 32 1 (w := enR3 x 32 1) (by decide) (by decide) rfl
  decode32 (o := .ladd) (i := .ladd x) o.1 o.2.1
    (op32_32 o.2.2)
    (congrArg Instr.ladd (un_R3 x 32 1 (by decide) (by decide) rfl)) rfl wf r
theorem laddL (x : R3m) : Statement (.laddL x) := fun wf _ r =>
  have o := ops_R3 x.r 32 3 (w := enR3 x.r 32 3) (by decide) (by decide) rfl
  decode64 (v := enModifier x.m) (o := .laddL) (i := .laddL x) o.1 (lt32_Modifier x.m) o.2.1
    (op64_32 o.2.2 |>.trans (if_pos (zero_Modifier x.m)))
    (mk2 (fun a b => Instr.laddL ⟨a, b⟩) (un_R3 x.r 32 3 (by decide) (by decide) rfl) (un_Modifier x.m rfl)) rfl wf r
theorem lsub (x : R3) : Statement (.lsub x) := fun wf _ r =>
  have o := ops_R3 x 33 1 (w := enR3 x 33 1) (by decide) (by decide) rfl
  decode32 (o := .lsub) (i := .lsub x) o.1 o.2.1
    (op32_33 o.2.2)
    (congrArg Instr.lsub (un_R3 x 33 1 (by decide) (by decide) rfl)) rfl wf r
theorem lsubL (x : R3m) : Statement (.lsubL x) := fun wf _ r =>
  have o := ops_R3 x.r 33 3 (w := enR3 x.r 33 3) (by decide) (by decide) rfl
  decode64 (v := enModifier x.m) (o := .lsubL) (i := .lsubL x) o.1 (lt32_Modifier x.m) o.2.1
    (op64_33 o.2.2 |>.trans (if_pos (zero_Modifier x.m)))
    (mk2 (fun a b => Instr.lsubL ⟨a, b⟩) (un_R3 x.r 33 3 (by decide) (by decide) rfl) (un_Modifier x.m rfl)) rfl wf r
theorem lmul (x : R3) : Statement (.lmul x) := fun wf _ r =>
  have o := ops_R3 x 34 1 (w := enR3 x 34 1) (by decide) (by decide) rfl
  decode32 (o := .lmul) (i := .lmul x) o.1 o.2.1
    (op32_34 o.2.2)
    (congrArg Instr.lmul (un_R3 x 34 1 (by decide) (by decide) rfl)) rfl wf r
theorem lmulL (x : R3m) : Statement (.lmulL x) := fun wf _ r =>
  have o := ops_R3 x.r 34 3 (w := enR3 x.r 34 3) (by decide) (by decide) rfl
  decode64 (v := enModifier x.m) (o := .lmulL) (i := .lmulL x) o.1 (lt32_Modifier x.m) o.2.1
    (op64_34 o.2.2 |>.trans (if_pos (zero_Modifier x.m)))
    (mk2 (fun a b => Instr.lmulL ⟨a, b⟩) (un_R3 x.r 34 3 (by decide) (by decide) rfl) (un_Modifier x.m rfl)) rfl wf r
theorem lmac (x : R3) : Statement (.lmac x) := fun wf _ r =>
  have o := ops_R3 x 35 1 (w := enR3 x 35 1) (by decide) (by decide) rfl
  decode32 (o := .lmac) (i := .lmac x) o.1 o.2.1
    (op32_35 o.2.2)
    (congrArg Instr.lmac (un_R3 x 35 1 (by decide) (by decide) rfl)) rfl wf r
theorem lmacL (x : R3m) : Statement (.lmacL x) := fun wf _ r =>
  have o := ops_R3 x.r 35 3 (w := enR3 x.r 35 3) (by decide) (by decide) rfl
  decode64 (v := enModifier x.m) (o := .lmacL) (i := .lmacL x) o.1 (lt32_Modifier x.m) o.2.1
    (op64_35 o.2.2 |>.trans (if_pos (zero_Modifier x.m)))
    (mk2 (fun a b => Instr.lmacL ⟨a, b⟩) (un_R3 x.r 35 3 (by decide) (by decide) rfl) (un_Modifier x.m rfl)) rfl wf r
theorem lshl (x : R3) : Statement (.lshl x) := fun wf _ r =>
  have o := ops_R3 x 36 1 (w := enR3 x 36 1) (by decide) (by decide) rfl
  decode32 (o := .lshl) (i := .lshl x) o.1 o.2.1
    (op32_36 o.2.2)
    (congrArg Instr.lshl (un_R3 x 36 1 (by decide) (by decide) rfl)) rfl wf r
theorem lshlL (x : R3m) : Statement (.lshlL x) := fun wf _ r =>
  have o := ops_R3 x.r 36 3 (w := enR3 x.r 36 3) (by decide) (by decide) rfl
  decode64 (v := enModifier x.m) (o := .lshlL) (i := .lshlL x) o.1 (lt32_Modifier x.m) o.2.1
    (op64_36 o.2.2 |>.trans (if_pos (zero_Modifier x.m)))
    (mk2 (fun a b => Instr.lshlL ⟨a, b⟩) (un_R3 x.r 36 3 (by decide) (by decide) rfl) (un_Modifier x.m rfl)) rfl wf r
theorem lshrN (x : R3) : Statement (.lshrN x) := fun wf _ r =>
  have o := ops_R3 x 37 1 (w := enR3 x 37 1) (by decide) (by decide) rfl
  decode32 (o := .lshrN) (i := .lshrN x) o.1 o.2.1
    (op32_37 o.2.2)
    (congrArg Instr.lshrN (un_R3 x 37 1 (by decide) (by decide) rfl)) rfl wf r
theorem lshrNL (x : R3m) : Statement (.lshrNL x) := fun wf _ r =>
  have o := ops_R3 x.r 37 3 (w := enR3 x.r 37 3) (by decide) (by decide) rfl
  decode64 (v := enModifier x.m) (o := .lshrNL) (i := .lshrNL x) o.1 (lt32_Modifier x.m) o.2.1
    (op64_37 o.2.2 |>.trans (if_pos (zero_Modifier x.m)))
    (mk2 (fun a b => Instr.lshrNL ⟨a, b⟩) (un_R3 x.r 37 3 (by decide) (by decide) rfl) (un_Modifier x.m rfl)) rfl wf r
theorem lshrI (x : R3) : Statement (.lshrI x) := fun wf _ r =>
  have o := ops_R3 x 38 1 (w := enR3 x 38 1) (by decide) (by decide) rfl
  decode32 (o := .lshrI) (i := .lshrI x) o.1 o.2.1
    (op32_38 o.2.2)
    (congrArg Instr.lshrI (un_R3 x 38 1 (by decide) (by decide) rfl)) rfl wf r
theorem lshrIL (x : R3m) : Statement (.lshrIL x) := fun wf _ r =>
  have o := ops_R3 x.r 38 3 (w := enR3 x.r 38 3) (by decide) (by decide) rfl
  decode64 (v := enModifier x.m) (o := .lshrIL) (i := .lshrIL x) o.1 (lt32_Modifier x.m) o.2.1
    (op64_38 o.2.2 |>.trans (if_pos (zero_Modifier x.m)))
    (mk2 (fun a b => Instr.lshrIL ⟨a, b⟩) (un_R3 x.r 38 3 (by decide) (by decide) rfl) (un_Modifier x.m rfl)) rfl wf r
theorem lextI (x : R1) : Statement (.lextI x) := fun wf _ r =>
  have o := ops_R1 x 39 1 (w := enR1 x 39 1) (by decide) (by decide) rfl
  decode32 (o := .lextI) (i := .lextI x) o.1 o.2.1
    (op32_39 o.2.2 |>.trans (if_pos (by have := Bool.toNat_le x.h.n; have := x.h.g.isLt; have := x.h.s.isLt; have := x.a.isLt; have := x.d.isLt; simp only [enR1, enHdr]; omega)))
    (congrArg Instr.lextI (un_R1 x 39 1 (by decide) (by decide) rfl)) rfl wf r
theorem lextIL (x : R1m) : Statement (.lextIL x) := fun wf _ r =>
  have o := ops_R1 x.r 39 3 (w := enR1 x.r 39 3) (by decide) (by decide) rfl
  decode64 (v := enModifier x.m) (o := .lextIL) (i := .lextIL x) o.1 (lt32_Modifier x.m) o.2.1
    (op64_39 o.2.2 |>.trans (if_pos (by have := Bool.toNat_le x.r.h.n; have := x.r.h.g.isLt; have := x.r.h.s.isLt; have := x.r.a.isLt; have := x.r.d.isLt; have := lt_Modifier x.m; simp only [enR1, enHdr]; omega)))
    (mk2 (fun a b => Instr.lextIL ⟨a, b⟩) (un_R1 x.r 39 3 (by decide) (by decide) rfl) (un_Modifier x.m rfl)) rfl wf r
theorem lextN (x : R1) : Statement (.lextN x) := fun wf _ r =>
  have o := ops_R1 x 40 1 (w := enR1 x 40 1) (by decide) (by decide) rfl
  decode32 (o := .lextN) (i := .lextN x) o.1 o.2.1
    (op32_40 o.2.2 |>.trans (if_pos (by have := Bool.toNat_le x.h.n; have := x.h.g.isLt; have := x.h.s.isLt; have := x.a.isLt; have := x.d.isLt; simp only [enR1, enHdr]; omega)))
    (congrArg Instr.lextN (un_R1 x 40 1 (by decide) (by decide) rfl)) rfl wf r
theorem lextNL (x : R1m) : Statement (.lextNL x) := fun wf _ r =>
  have o := ops_R1 x.r 40 3 (w := enR1 x.r 40 3) (by decide) (by decide) rfl
  decode64 (v := enModifier x.m) (o := .lextNL) (i := .lextNL x) o.1 (lt32_Modifier x.m) o.2.1
    (op64_40 o.2.2 |>.trans (if_pos (by have := Bool.toNat_le x.r.h.n; have := x.r.h.g.isLt; have := x.r.h.s.isLt; have := x.r.a.isLt; have := x.r.d.isLt; have := lt_Modifier x.m; simp only [enR1, enHdr]; omega)))
    (mk2 (fun a b => Instr.lextNL ⟨a, b⟩) (un_R1 x.r 40 3 (by decide) (by decide) rfl) (un_Modifier x.m rfl)) rfl wf r
theorem lcmpEq (x : R3) : Statement (.lcmpEq x) := fun wf _ r =>
  have o := ops_R3 x 41 1 (w := enR3 x 41 1) (by decide) (by decide) rfl
  decode32 (o := .lcmpEq) (i := .lcmpEq x) o.1 o.2.1
    (op32_41 o.2.2)
    (congrArg Instr.lcmpEq (un_R3 x 41 1 (by decide) (by decide) rfl)) rfl wf r
theorem lcmpEqL (x : R3m) : Statement (.lcmpEqL x) := fun wf _ r =>
  have o := ops_R3 x.r 41 3 (w := enR3 x.r 41 3) (by decide) (by decide) rfl
  decode64 (v := enModifier x.m) (o := .lcmpEqL) (i := .lcmpEqL x) o.1 (lt32_Modifier x.m) o.2.1
    (op64_41 o.2.2 |>.trans (if_pos (zero_Modifier x.m)))
    (mk2 (fun a b => Instr.lcmpEqL ⟨a, b⟩) (un_R3 x.r 41 3 (by decide) (by decide) rfl) (un_Modifier x.m rfl)) rfl wf r
theorem lcmpNe (x : R3) : Statement (.lcmpNe x) := fun wf _ r =>
  have o := ops_R3 x 42 1 (w := enR3 x 42 1) (by decide) (by decide) rfl
  decode32 (o := .lcmpNe) (i := .lcmpNe x) o.1 o.2.1
    (op32_42 o.2.2)
    (congrArg Instr.lcmpNe (un_R3 x 42 1 (by decide) (by decide) rfl)) rfl wf r
theorem lcmpNeL (x : R3m) : Statement (.lcmpNeL x) := fun wf _ r =>
  have o := ops_R3 x.r 42 3 (w := enR3 x.r 42 3) (by decide) (by decide) rfl
  decode64 (v := enModifier x.m) (o := .lcmpNeL) (i := .lcmpNeL x) o.1 (lt32_Modifier x.m) o.2.1
    (op64_42 o.2.2 |>.trans (if_pos (zero_Modifier x.m)))
    (mk2 (fun a b => Instr.lcmpNeL ⟨a, b⟩) (un_R3 x.r 42 3 (by decide) (by decide) rfl) (un_Modifier x.m rfl)) rfl wf r
theorem lcmpLtI (x : R3) : Statement (.lcmpLtI x) := fun wf _ r =>
  have o := ops_R3 x 43 1 (w := enR3 x 43 1) (by decide) (by decide) rfl
  decode32 (o := .lcmpLtI) (i := .lcmpLtI x) o.1 o.2.1
    (op32_43 o.2.2)
    (congrArg Instr.lcmpLtI (un_R3 x 43 1 (by decide) (by decide) rfl)) rfl wf r
theorem lcmpLtIL (x : R3m) : Statement (.lcmpLtIL x) := fun wf _ r =>
  have o := ops_R3 x.r 43 3 (w := enR3 x.r 43 3) (by decide) (by decide) rfl
  decode64 (v := enModifier x.m) (o := .lcmpLtIL) (i := .lcmpLtIL x) o.1 (lt32_Modifier x.m) o.2.1
    (op64_43 o.2.2 |>.trans (if_pos (zero_Modifier x.m)))
    (mk2 (fun a b => Instr.lcmpLtIL ⟨a, b⟩) (un_R3 x.r 43 3 (by decide) (by decide) rfl) (un_Modifier x.m rfl)) rfl wf r
theorem lcmpLtN (x : R3) : Statement (.lcmpLtN x) := fun wf _ r =>
  have o := ops_R3 x 44 1 (w := enR3 x 44 1) (by decide) (by decide) rfl
  decode32 (o := .lcmpLtN) (i := .lcmpLtN x) o.1 o.2.1
    (op32_44 o.2.2)
    (congrArg Instr.lcmpLtN (un_R3 x 44 1 (by decide) (by decide) rfl)) rfl wf r
theorem lcmpLtNL (x : R3m) : Statement (.lcmpLtNL x) := fun wf _ r =>
  have o := ops_R3 x.r 44 3 (w := enR3 x.r 44 3) (by decide) (by decide) rfl
  decode64 (v := enModifier x.m) (o := .lcmpLtNL) (i := .lcmpLtNL x) o.1 (lt32_Modifier x.m) o.2.1
    (op64_44 o.2.2 |>.trans (if_pos (zero_Modifier x.m)))
    (mk2 (fun a b => Instr.lcmpLtNL ⟨a, b⟩) (un_R3 x.r 44 3 (by decide) (by decide) rfl) (un_Modifier x.m rfl)) rfl wf r
theorem lea2 (x : R3) : Statement (.lea2 x) := fun wf _ r =>
  have o := ops_R3 x 45 1 (w := enR3 x 45 1) (by decide) (by decide) rfl
  decode32 (o := .lea2) (i := .lea2 x) o.1 o.2.1
    (op32_45 o.2.2)
    (congrArg Instr.lea2 (un_R3 x 45 1 (by decide) (by decide) rfl)) rfl wf r
theorem lea2L (x : R3m) : Statement (.lea2L x) := fun wf _ r =>
  have o := ops_R3 x.r 45 3 (w := enR3 x.r 45 3) (by decide) (by decide) rfl
  decode64 (v := enModifier x.m) (o := .lea2L) (i := .lea2L x) o.1 (lt32_Modifier x.m) o.2.1
    (op64_45 o.2.2 |>.trans (if_pos (zero_Modifier x.m)))
    (mk2 (fun a b => Instr.lea2L ⟨a, b⟩) (un_R3 x.r 45 3 (by decide) (by decide) rfl) (un_Modifier x.m rfl)) rfl wf r
theorem lea3 (x : R3) : Statement (.lea3 x) := fun wf _ r =>
  have o := ops_R3 x 46 1 (w := enR3 x 46 1) (by decide) (by decide) rfl
  decode32 (o := .lea3) (i := .lea3 x) o.1 o.2.1
    (op32_46 o.2.2)
    (congrArg Instr.lea3 (un_R3 x 46 1 (by decide) (by decide) rfl)) rfl wf r
theorem lea3L (x : R3m) : Statement (.lea3L x) := fun wf _ r =>
  have o := ops_R3 x.r 46 3 (w := enR3 x.r 46 3) (by decide) (by decide) rfl
  decode64 (v := enModifier x.m) (o := .lea3L) (i := .lea3L x) o.1 (lt32_Modifier x.m) o.2.1
    (op64_46 o.2.2 |>.trans (if_pos (zero_Modifier x.m)))
    (mk2 (fun a b => Instr.lea3L ⟨a, b⟩) (un_R3 x.r 46 3 (by decide) (by decide) rfl) (un_Modifier x.m rfl)) rfl wf r
theorem lea4 (x : R3) : Statement (.lea4 x) := fun wf _ r =>
  have o := ops_R3 x 47 1 (w := enR3 x 47 1) (by decide) (by decide) rfl
  decode32 (o := .lea4) (i := .lea4 x) o.1 o.2.1
    (op32_47 o.2.2)
    (congrArg Instr.lea4 (un_R3 x 47 1 (by decide) (by decide) rfl)) rfl wf r
theorem lea4L (x : R3m) : Statement (.lea4L x) := fun wf _ r =>
  have o := ops_R3 x.r 47 3 (w := enR3 x.r 47 3) (by decide) (by decide) rfl
  decode64 (v := enModifier x.m) (o := .lea4L) (i := .lea4L x) o.1 (lt32_Modifier x.m) o.2.1
    (op64_47 o.2.2 |>.trans (if_pos (zero_Modifier x.m)))
    (mk2 (fun a b => Instr.lea4L ⟨a, b⟩) (un_R3 x.r 47 3 (by decide) (by decide) rfl) (un_Modifier x.m rfl)) rfl wf r
theorem fadd (x : R3) : Statement (.fadd x) := fun wf _ r =>
  have o := ops_R3 x 48 1 (w := enR3 x 48 1) (by decide) (by decide) rfl
  decode32 (o := .fadd) (i := .fadd x) o.1 o.2.1
    (op32_48 o.2.2)
    (congrArg Instr.fadd (un_R3 x 48 1 (by decide) (by decide) rfl)) rfl wf r
theorem faddL (x : R3m) : Statement (.faddL x) := fun wf _ r =>
  have o := ops_R3 x.r 48 3 (w := enR3 x.r 48 3) (by decide) (by decide) rfl
  decode64 (v := enModifier x.m) (o := .faddL) (i := .faddL x) o.1 (lt32_Modifier x.m) o.2.1
    (op64_48 o.2.2 |>.trans (if_pos (zero_Modifier x.m)))
    (mk2 (fun a b => Instr.faddL ⟨a, b⟩) (un_R3 x.r 48 3 (by decide) (by decide) rfl) (un_Modifier x.m rfl)) rfl wf r
theorem fsub (x : R3) : Statement (.fsub x) := fun wf _ r =>
  have o := ops_R3 x 49 1 (w := enR3 x 49 1) (by decide) (by decide) rfl
  decode32 (o := .fsub) (i := .fsub x) o.1 o.2.1
    (op32_49 o.2.2)
    (congrArg Instr.fsub (un_R3 x 49 1 (by decide) (by decide) rfl)) rfl wf r
theorem fsubL (x : R3m) : Statement (.fsubL x) := fun wf _ r =>
  have o := ops_R3 x.r 49 3 (w := enR3 x.r 49 3) (by decide) (by decide) rfl
  decode64 (v := enModifier x.m) (o := .fsubL) (i := .fsubL x) o.1 (lt32_Modifier x.m) o.2.1
    (op64_49 o.2.2 |>.trans (if_pos (zero_Modifier x.m)))
    (mk2 (fun a b => Instr.fsubL ⟨a, b⟩) (un_R3 x.r 49 3 (by decide) (by decide) rfl) (un_Modifier x.m rfl)) rfl wf r
theorem fmul (x : R3) : Statement (.fmul x) := fun wf _ r =>
  have o := ops_R3 x 50 1 (w := enR3 x 50 1) (by decide) (by decide) rfl
  decode32 (o := .fmul) (i := .fmul x) o.1 o.2.1
    (op32_50 o.2.2)
    (congrArg Instr.fmul (un_R3 x 50 1 (by decide) (by decide) rfl)) rfl wf r
theorem fmulL (x : R3m) : Statement (.fmulL x) := fun wf _ r =>
  have o := ops_R3 x.r 50 3 (w := enR3 x.r 50 3) (by decide) (by decide) rfl
  decode64 (v := enModifier x.m) (o := .fmulL) (i := .fmulL x) o.1 (lt32_Modifier x.m) o.2.1
    (op64_50 o.2.2 |>.trans (if_pos (zero_Modifier x.m)))
    (mk2 (fun a b => Instr.fmulL ⟨a, b⟩) (un_R3 x.r 50 3 (by decide) (by decide) rfl) (un_Modifier x.m rfl)) rfl wf r
theorem ffma (x : R3) : Statement (.ffma x) := fun wf _ r =>
  have o := ops_R3 x 51 1 (w := enR3 x 51 1) (by decide) (by decide) rfl
  decode32 (o := .ffma) (i := .ffma x) o.1 o.2.1
    (op32_51 o.2.2)
    (congrArg Instr.ffma (un_R3 x 51 1 (by decide) (by decide) rfl)) rfl wf r
theorem ffmaL (x : R3m) : Statement (.ffmaL x) := fun wf _ r =>
  have o := ops_R3 x.r 51 3 (w := enR3 x.r 51 3) (by decide) (by decide) rfl
  decode64 (v := enModifier x.m) (o := .ffmaL) (i := .ffmaL x) o.1 (lt32_Modifier x.m) o.2.1
    (op64_51 o.2.2 |>.trans (if_pos (zero_Modifier x.m)))
    (mk2 (fun a b => Instr.ffmaL ⟨a, b⟩) (un_R3 x.r 51 3 (by decide) (by decide) rfl) (un_Modifier x.m rfl)) rfl wf r
theorem fmin (x : R3) : Statement (.fmin x) := fun wf _ r =>
  have o := ops_R3 x 52 1 (w := enR3 x 52 1) (by decide) (by decide) rfl
  decode32 (o := .fmin) (i := .fmin x) o.1 o.2.1
    (op32_52 o.2.2)
    (congrArg Instr.fmin (un_R3 x 52 1 (by decide) (by decide) rfl)) rfl wf r
theorem fminL (x : R3m) : Statement (.fminL x) := fun wf _ r =>
  have o := ops_R3 x.r 52 3 (w := enR3 x.r 52 3) (by decide) (by decide) rfl
  decode64 (v := enModifier x.m) (o := .fminL) (i := .fminL x) o.1 (lt32_Modifier x.m) o.2.1
    (op64_52 o.2.2 |>.trans (if_pos (zero_Modifier x.m)))
    (mk2 (fun a b => Instr.fminL ⟨a, b⟩) (un_R3 x.r 52 3 (by decide) (by decide) rfl) (un_Modifier x.m rfl)) rfl wf r
theorem fmax (x : R3) : Statement (.fmax x) := fun wf _ r =>
  have o := ops_R3 x 53 1 (w := enR3 x 53 1) (by decide) (by decide) rfl
  decode32 (o := .fmax) (i := .fmax x) o.1 o.2.1
    (op32_53 o.2.2)
    (congrArg Instr.fmax (un_R3 x 53 1 (by decide) (by decide) rfl)) rfl wf r
theorem fmaxL (x : R3m) : Statement (.fmaxL x) := fun wf _ r =>
  have o := ops_R3 x.r 53 3 (w := enR3 x.r 53 3) (by decide) (by decide) rfl
  decode64 (v := enModifier x.m) (o := .fmaxL) (i := .fmaxL x) o.1 (lt32_Modifier x.m) o.2.1
    (op64_53 o.2.2 |>.trans (if_pos (zero_Modifier x.m)))
    (mk2 (fun a b => Instr.fmaxL ⟨a, b⟩) (un_R3 x.r 53 3 (by decide) (by decide) rfl) (un_Modifier x.m rfl)) rfl wf r
theorem fcmpEq (x : R3) : Statement (.fcmpEq x) := fun wf _ r =>
  have o := ops_R3 x 54 1 (w := enR3 x 54 1) (by decide) (by decide) rfl
  decode32 (o := .fcmpEq) (i := .fcmpEq x) o.1 o.2.1
    (op32_54 o.2.2)
    (congrArg Instr.fcmpEq (un_R3 x 54 1 (by decide) (by decide) rfl)) rfl wf r
theorem fcmpEqL (x : R3m) : Statement (.fcmpEqL x) := fun wf _ r =>
  have o := ops_R3 x.r 54 3 (w := enR3 x.r 54 3) (by decide) (by decide) rfl
  decode64 (v := enModifier x.m) (o := .fcmpEqL) (i := .fcmpEqL x) o.1 (lt32_Modifier x.m) o.2.1
    (op64_54 o.2.2 |>.trans (if_pos (zero_Modifier x.m)))
    (mk2 (fun a b => Instr.fcmpEqL ⟨a, b⟩) (un_R3 x.r 54 3 (by decide) (by decide) rfl) (un_Modifier x.m rfl)) rfl wf r
theorem fcmpNe (x : R3) : Statement (.fcmpNe x) := fun wf _ r =>
  have o := ops_R3 x 55 1 (w := enR3 x 55 1) (by decide) (by decide) rfl
  decode32 (o := .fcmpNe) (i := .fcmpNe x) o.1 o.2.1
    (op32_55 o.2.2)
    (congrArg Instr.fcmpNe (un_R3 x 55 1 (by decide) (by decide) rfl)) rfl wf r
theorem fcmpNeL (x : R3m) : Statement (.fcmpNeL x) := fun wf _ r =>
  have o := ops_R3 x.r 55 3 (w := enR3 x.r 55 3) (by decide) (by decide) rfl
  decode64 (v := enModifier x.m) (o := .fcmpNeL) (i := .fcmpNeL x) o.1 (lt32_Modifier x.m) o.2.1
    (op64_55 o.2.2 |>.trans (if_pos (zero_Modifier x.m)))
    (mk2 (fun a b => Instr.fcmpNeL ⟨a, b⟩) (un_R3 x.r 55 3 (by decide) (by decide) rfl) (un_Modifier x.m rfl)) rfl wf r
theorem fcmpLt (x : R3) : Statement (.fcmpLt x) := fun wf _ r =>
  have o := ops_R3 x 56 1 (w := enR3 x 56 1) (by decide) (by decide) rfl
  decode32 (o := .fcmpLt) (i := .fcmpLt x) o.1 o.2.1
    (op32_56 o.2.2)
    (congrArg Instr.fcmpLt (un_R3 x 56 1 (by decide) (by decide) rfl)) rfl wf r
theorem fcmpLtL (x : R3m) : Statement (.fcmpLtL x) := fun wf _ r =>
  have o := ops_R3 x.r 56 3 (w := enR3 x.r 56 3) (by decide) (by decide) rfl
  decode64 (v := enModifier x.m) (o := .fcmpLtL) (i := .fcmpLtL x) o.1 (lt32_Modifier x.m) o.2.1
    (op64_56 o.2.2 |>.trans (if_pos (zero_Modifier x.m)))
    (mk2 (fun a b => Instr.fcmpLtL ⟨a, b⟩) (un_R3 x.r 56 3 (by decide) (by decide) rfl) (un_Modifier x.m rfl)) rfl wf r
theorem fcmpLe (x : R3) : Statement (.fcmpLe x) := fun wf _ r =>
  have o := ops_R3 x 57 1 (w := enR3 x 57 1) (by decide) (by decide) rfl
  decode32 (o := .fcmpLe) (i := .fcmpLe x) o.1 o.2.1
    (op32_57 o.2.2)
    (congrArg Instr.fcmpLe (un_R3 x 57 1 (by decide) (by decide) rfl)) rfl wf r
theorem fcmpLeL (x : R3m) : Statement (.fcmpLeL x) := fun wf _ r =>
  have o := ops_R3 x.r 57 3 (w := enR3 x.r 57 3) (by decide) (by decide) rfl
  decode64 (v := enModifier x.m) (o := .fcmpLeL) (i := .fcmpLeL x) o.1 (lt32_Modifier x.m) o.2.1
    (op64_57 o.2.2 |>.trans (if_pos (zero_Modifier x.m)))
    (mk2 (fun a b => Instr.fcmpLeL ⟨a, b⟩) (un_R3 x.r 57 3 (by decide) (by decide) rfl) (un_Modifier x.m rfl)) rfl wf r
theorem fsfu (x : Rf) : Statement (.fsfu x) := fun wf _ r =>
  have o := ops_Rf x 58 1 (w := enRf x 58 1) (by decide) (by decide) rfl
  decode32 (o := .fsfu) (i := .fsfu x) o.1 o.2.1
    (op32_58 o.2.2 |>.trans (if_pos (by have := Bool.toNat_le x.h.n; have := x.h.g.isLt; have := x.h.s.isLt; have := x.f.isLt; have := x.a.isLt; have := x.d.isLt; simp only [enRf, enHdr]; omega)))
    (congrArg Instr.fsfu (un_Rf x 58 1 (by decide) (by decide) rfl)) rfl wf r
theorem fsfuL (x : Rfm) : Statement (.fsfuL x) := fun wf _ r =>
  have o := ops_Rf x.r 58 3 (w := enRf x.r 58 3) (by decide) (by decide) rfl
  decode64 (v := enModifier x.m) (o := .fsfuL) (i := .fsfuL x) o.1 (lt32_Modifier x.m) o.2.1
    (op64_58 o.2.2 |>.trans (if_pos (by have := Bool.toNat_le x.r.h.n; have := x.r.h.g.isLt; have := x.r.h.s.isLt; have := x.r.f.isLt; have := x.r.a.isLt; have := x.r.d.isLt; have := lt_Modifier x.m; simp only [enRf, enHdr]; omega)))
    (mk2 (fun a b => Instr.fsfuL ⟨a, b⟩) (un_Rf x.r 58 3 (by decide) (by decide) rfl) (un_Modifier x.m rfl)) rfl wf r
theorem hadd2F16 (x : R3) : Statement (.hadd2F16 x) := fun wf _ r =>
  have o := ops_R3 x 59 1 (w := enR3 x 59 1) (by decide) (by decide) rfl
  decode32 (o := .hadd2F16) (i := .hadd2F16 x) o.1 o.2.1
    (op32_59 o.2.2)
    (congrArg Instr.hadd2F16 (un_R3 x 59 1 (by decide) (by decide) rfl)) rfl wf r
theorem hadd2F16L (x : R3m) : Statement (.hadd2F16L x) := fun wf _ r =>
  have o := ops_R3 x.r 59 3 (w := enR3 x.r 59 3) (by decide) (by decide) rfl
  decode64 (v := enModifier x.m) (o := .hadd2F16L) (i := .hadd2F16L x) o.1 (lt32_Modifier x.m) o.2.1
    (op64_59 o.2.2 |>.trans (if_pos (zero_Modifier x.m)))
    (mk2 (fun a b => Instr.hadd2F16L ⟨a, b⟩) (un_R3 x.r 59 3 (by decide) (by decide) rfl) (un_Modifier x.m rfl)) rfl wf r
theorem hmul2F16 (x : R3) : Statement (.hmul2F16 x) := fun wf _ r =>
  have o := ops_R3 x 60 1 (w := enR3 x 60 1) (by decide) (by decide) rfl
  decode32 (o := .hmul2F16) (i := .hmul2F16 x) o.1 o.2.1
    (op32_60 o.2.2)
    (congrArg Instr.hmul2F16 (un_R3 x 60 1 (by decide) (by decide) rfl)) rfl wf r
theorem hmul2F16L (x : R3m) : Statement (.hmul2F16L x) := fun wf _ r =>
  have o := ops_R3 x.r 60 3 (w := enR3 x.r 60 3) (by decide) (by decide) rfl
  decode64 (v := enModifier x.m) (o := .hmul2F16L) (i := .hmul2F16L x) o.1 (lt32_Modifier x.m) o.2.1
    (op64_60 o.2.2 |>.trans (if_pos (zero_Modifier x.m)))
    (mk2 (fun a b => Instr.hmul2F16L ⟨a, b⟩) (un_R3 x.r 60 3 (by decide) (by decide) rfl) (un_Modifier x.m rfl)) rfl wf r
theorem hfma2F16 (x : R3) : Statement (.hfma2F16 x) := fun wf _ r =>
  have o := ops_R3 x 61 1 (w := enR3 x 61 1) (by decide) (by decide) rfl
  decode32 (o := .hfma2F16) (i := .hfma2F16 x) o.1 o.2.1
    (op32_61 o.2.2)
    (congrArg Instr.hfma2F16 (un_R3 x 61 1 (by decide) (by decide) rfl)) rfl wf r
theorem hfma2F16L (x : R3m) : Statement (.hfma2F16L x) := fun wf _ r =>
  have o := ops_R3 x.r 61 3 (w := enR3 x.r 61 3) (by decide) (by decide) rfl
  decode64 (v := enModifier x.m) (o := .hfma2F16L) (i := .hfma2F16L x) o.1 (lt32_Modifier x.m) o.2.1
    (op64_61 o.2.2 |>.trans (if_pos (zero_Modifier x.m)))
    (mk2 (fun a b => Instr.hfma2F16L ⟨a, b⟩) (un_R3 x.r 61 3 (by decide) (by decide) rfl) (un_Modifier x.m rfl)) rfl wf r
theorem hfma2Bf16 (x : R3) : Statement (.hfma2Bf16 x) := fun wf _ r =>
  have o := ops_R3 x 62 1 (w := enR3 x 62 1) (by decide) (by decide) rfl
  decode32 (o := .hfma2Bf16) (i := .hfma2Bf16 x) o.1 o.2.1
    (op32_62 o.2.2)
    (congrArg Instr.hfma2Bf16 (un_R3 x 62 1 (by decide) (by decide) rfl)) rfl wf r
theorem hfma2Bf16L (x : R3m) : Statement (.hfma2Bf16L x) := fun wf _ r =>
  have o := ops_R3 x.r 62 3 (w := enR3 x.r 62 3) (by decide) (by decide) rfl
  decode64 (v := enModifier x.m) (o := .hfma2Bf16L) (i := .hfma2Bf16L x) o.1 (lt32_Modifier x.m) o.2.1
    (op64_62 o.2.2 |>.trans (if_pos (zero_Modifier x.m)))
    (mk2 (fun a b => Instr.hfma2Bf16L ⟨a, b⟩) (un_R3 x.r 62 3 (by decide) (by decide) rfl) (un_Modifier x.m rfl)) rfl wf r
theorem hadd2Bf16 (x : R3) : Statement (.hadd2Bf16 x) := fun wf _ r =>
  have o := ops_R3 x 63 1 (w := enR3 x 63 1) (by decide) (by decide) rfl
  decode32 (o := .hadd2Bf16) (i := .hadd2Bf16 x) o.1 o.2.1
    (op32_63 o.2.2)
    (congrArg Instr.hadd2Bf16 (un_R3 x 63 1 (by decide) (by decide) rfl)) rfl wf r
theorem hadd2Bf16L (x : R3m) : Statement (.hadd2Bf16L x) := fun wf _ r =>
  have o := ops_R3 x.r 63 3 (w := enR3 x.r 63 3) (by decide) (by decide) rfl
  decode64 (v := enModifier x.m) (o := .hadd2Bf16L) (i := .hadd2Bf16L x) o.1 (lt32_Modifier x.m) o.2.1
    (op64_63 o.2.2 |>.trans (if_pos (zero_Modifier x.m)))
    (mk2 (fun a b => Instr.hadd2Bf16L ⟨a, b⟩) (un_R3 x.r 63 3 (by decide) (by decide) rfl) (un_Modifier x.m rfl)) rfl wf r
theorem cvt (x : Rf) : Statement (.cvt x) := fun wf _ r =>
  have o := ops_Rf x 64 1 (w := enRf x 64 1) (by decide) (by decide) rfl
  decode32 (o := .cvt) (i := .cvt x) o.1 o.2.1
    (op32_64 o.2.2 |>.trans (if_pos (by have := Bool.toNat_le x.h.n; have := x.h.g.isLt; have := x.h.s.isLt; have := x.f.isLt; have := x.a.isLt; have := x.d.isLt; simp only [enRf, enHdr]; omega)))
    (congrArg Instr.cvt (un_Rf x 64 1 (by decide) (by decide) rfl)) rfl wf r
theorem cvtL (x : Rfm) : Statement (.cvtL x) := fun wf _ r =>
  have o := ops_Rf x.r 64 3 (w := enRf x.r 64 3) (by decide) (by decide) rfl
  decode64 (v := enModifier x.m) (o := .cvtL) (i := .cvtL x) o.1 (lt32_Modifier x.m) o.2.1
    (op64_64 o.2.2 |>.trans (if_pos (by have := Bool.toNat_le x.r.h.n; have := x.r.h.g.isLt; have := x.r.h.s.isLt; have := x.r.f.isLt; have := x.r.a.isLt; have := x.r.d.isLt; have := lt_Modifier x.m; simp only [enRf, enHdr]; omega)))
    (mk2 (fun a b => Instr.cvtL ⟨a, b⟩) (un_Rf x.r 64 3 (by decide) (by decide) rfl) (un_Modifier x.m rfl)) rfl wf r
theorem cvtp (x : Rf) : Statement (.cvtp x) := fun wf _ r =>
  have o := ops_Rf x 65 1 (w := enRf x 65 1) (by decide) (by decide) rfl
  decode32 (o := .cvtp) (i := .cvtp x) o.1 o.2.1
    (op32_65 o.2.2 |>.trans (if_pos (by have := Bool.toNat_le x.h.n; have := x.h.g.isLt; have := x.h.s.isLt; have := x.f.isLt; have := x.a.isLt; have := x.d.isLt; simp only [enRf, enHdr]; omega)))
    (congrArg Instr.cvtp (un_Rf x 65 1 (by decide) (by decide) rfl)) rfl wf r
theorem cvtpL (x : Rfm) : Statement (.cvtpL x) := fun wf _ r =>
  have o := ops_Rf x.r 65 3 (w := enRf x.r 65 3) (by decide) (by decide) rfl
  decode64 (v := enModifier x.m) (o := .cvtpL) (i := .cvtpL x) o.1 (lt32_Modifier x.m) o.2.1
    (op64_65 o.2.2 |>.trans (if_pos (by have := Bool.toNat_le x.r.h.n; have := x.r.h.g.isLt; have := x.r.h.s.isLt; have := x.r.f.isLt; have := x.r.a.isLt; have := x.r.d.isLt; have := lt_Modifier x.m; simp only [enRf, enHdr]; omega)))
    (mk2 (fun a b => Instr.cvtpL ⟨a, b⟩) (un_Rf x.r 65 3 (by decide) (by decide) rfl) (un_Modifier x.m rfl)) rfl wf r
theorem iaddi (x : Im) : Statement (.iaddi x) := fun wf _ r =>
  have o := ops_Im x 66 1 (w := enIm x 66 1) (by decide) (by decide) rfl
  decode32 (o := .iaddi) (i := .iaddi x) o.1 o.2.1
    (op32_66 o.2.2)
    (congrArg Instr.iaddi (un_Im x 66 1 (by decide) (by decide) rfl)) rfl wf r
theorem iaddiL (x : Im64) : Statement (.iaddiL x) := fun wf _ r =>
  have o := ops_Im64 x 66 3 (w := enIm64 x 66 3) (by decide) (by decide) rfl
  decode64 (v := x.i.toNat) (o := .iaddiL) (i := .iaddiL x) o.1 (BitVec.isLt _) o.2.1
    (op64_66 o.2.2 |>.trans (if_pos (by have := Bool.toNat_le x.h.n; have := x.h.g.isLt; have := x.h.s.isLt; have := x.a.isLt; have := x.d.isLt; have := x.i.isLt; simp only [enIm64, enHdr]; omega)))
    (congrArg Instr.iaddiL (un_Im64 x 66 3 rfl (by decide) (by decide) rfl)) rfl wf r
theorem andi (x : Im) : Statement (.andi x) := fun wf _ r =>
  have o := ops_Im x 67 1 (w := enIm x 67 1) (by decide) (by decide) rfl
  decode32 (o := .andi) (i := .andi x) o.1 o.2.1
    (op32_67 o.2.2)
    (congrArg Instr.andi (un_Im x 67 1 (by decide) (by decide) rfl)) rfl wf r
theorem andiL (x : Im64) : Statement (.andiL x) := fun wf _ r =>
  have o := ops_Im64 x 67 3 (w := enIm64 x 67 3) (by decide) (by decide) rfl
  decode64 (v := x.i.toNat) (o := .andiL) (i := .andiL x) o.1 (BitVec.isLt _) o.2.1
    (op64_67 o.2.2 |>.trans (if_pos (by have := Bool.toNat_le x.h.n; have := x.h.g.isLt; have := x.h.s.isLt; have := x.a.isLt; have := x.d.isLt; have := x.i.isLt; simp only [enIm64, enHdr]; omega)))
    (congrArg Instr.andiL (un_Im64 x 67 3 rfl (by decide) (by decide) rfl)) rfl wf r
theorem ori (x : Im) : Statement (.ori x) := fun wf _ r =>
  have o := ops_Im x 68 1 (w := enIm x 68 1) (by decide) (by decide) rfl
  decode32 (o := .ori) (i := .ori x) o.1 o.2.1
    (op32_68 o.2.2)
    (congrArg Instr.ori (un_Im x 68 1 (by decide) (by decide) rfl)) rfl wf r
theorem oriL (x : Im64) : Statement (.oriL x) := fun wf _ r =>
  have o := ops_Im64 x 68 3 (w := enIm64 x 68 3) (by decide) (by decide) rfl
  decode64 (v := x.i.toNat) (o := .oriL) (i := .oriL x) o.1 (BitVec.isLt _) o.2.1
    (op64_68 o.2.2 |>.trans (if_pos (by have := Bool.toNat_le x.h.n; have := x.h.g.isLt; have := x.h.s.isLt; have := x.a.isLt; have := x.d.isLt; have := x.i.isLt; simp only [enIm64, enHdr]; omega)))
    (congrArg Instr.oriL (un_Im64 x 68 3 rfl (by decide) (by decide) rfl)) rfl wf r
theorem xori (x : Im) : Statement (.xori x) := fun wf _ r =>
  have o := ops_Im x 69 1 (w := enIm x 69 1) (by decide) (by decide) rfl
  decode32 (o := .xori) (i := .xori x) o.1 o.2.1
    (op32_69 o.2.2)
    (congrArg Instr.xori (un_Im x 69 1 (by decide) (by decide) rfl)) rfl wf r
theorem xoriL (x : Im64) : Statement (.xoriL x) := fun wf _ r =>
  have o := ops_Im64 x 69 3 (w := enIm64 x 69 3) (by decide) (by decide) rfl
  decode64 (v := x.i.toNat) (o := .xoriL) (i := .xoriL x) o.1 (BitVec.isLt _) o.2.1
    (op64_69 o.2.2 |>.trans (if_pos (by have := Bool.toNat_le x.h.n; have := x.h.g.isLt; have := x.h.s.isLt; have := x.a.isLt; have := x.d.isLt; have := x.i.isLt; simp only [enIm64, enHdr]; omega)))
    (congrArg Instr.xoriL (un_Im64 x 69 3 rfl (by decide) (by decide) rfl)) rfl wf r
theorem shli (x : Im) : Statement (.shli x) := fun wf _ r =>
  have o := ops_Im x 70 1 (w := enIm x 70 1) (by decide) (by decide) rfl
  decode32 (o := .shli) (i := .shli x) o.1 o.2.1
    (op32_70 o.2.2)
    (congrArg Instr.shli (un_Im x 70 1 (by decide) (by decide) rfl)) rfl wf r
theorem shliL (x : Im64) : Statement (.shliL x) := fun wf _ r =>
  have o := ops_Im64 x 70 3 (w := enIm64 x 70 3) (by decide) (by decide) rfl
  decode64 (v := x.i.toNat) (o := .shliL) (i := .shliL x) o.1 (BitVec.isLt _) o.2.1
    (op64_70 o.2.2 |>.trans (if_pos (by have := Bool.toNat_le x.h.n; have := x.h.g.isLt; have := x.h.s.isLt; have := x.a.isLt; have := x.d.isLt; have := x.i.isLt; simp only [enIm64, enHdr]; omega)))
    (congrArg Instr.shliL (un_Im64 x 70 3 rfl (by decide) (by decide) rfl)) rfl wf r
theorem shriN (x : Im) : Statement (.shriN x) := fun wf _ r =>
  have o := ops_Im x 71 1 (w := enIm x 71 1) (by decide) (by decide) rfl
  decode32 (o := .shriN) (i := .shriN x) o.1 o.2.1
    (op32_71 o.2.2)
    (congrArg Instr.shriN (un_Im x 71 1 (by decide) (by decide) rfl)) rfl wf r
theorem shriNL (x : Im64) : Statement (.shriNL x) := fun wf _ r =>
  have o := ops_Im64 x 71 3 (w := enIm64 x 71 3) (by decide) (by decide) rfl
  decode64 (v := x.i.toNat) (o := .shriNL) (i := .shriNL x) o.1 (BitVec.isLt _) o.2.1
    (op64_71 o.2.2 |>.trans (if_pos (by have := Bool.toNat_le x.h.n; have := x.h.g.isLt; have := x.h.s.isLt; have := x.a.isLt; have := x.d.isLt; have := x.i.isLt; simp only [enIm64, enHdr]; omega)))
    (congrArg Instr.shriNL (un_Im64 x 71 3 rfl (by decide) (by decide) rfl)) rfl wf r
theorem shriI (x : Im) : Statement (.shriI x) := fun wf _ r =>
  have o := ops_Im x 72 1 (w := enIm x 72 1) (by decide) (by decide) rfl
  decode32 (o := .shriI) (i := .shriI x) o.1 o.2.1
    (op32_72 o.2.2)
    (congrArg Instr.shriI (un_Im x 72 1 (by decide) (by decide) rfl)) rfl wf r
theorem shriIL (x : Im64) : Statement (.shriIL x) := fun wf _ r =>
  have o := ops_Im64 x 72 3 (w := enIm64 x 72 3) (by decide) (by decide) rfl
  decode64 (v := x.i.toNat) (o := .shriIL) (i := .shriIL x) o.1 (BitVec.isLt _) o.2.1
    (op64_72 o.2.2 |>.trans (if_pos (by have := Bool.toNat_le x.h.n; have := x.h.g.isLt; have := x.h.s.isLt; have := x.a.isLt; have := x.d.isLt; have := x.i.isLt; simp only [enIm64, enHdr]; omega)))
    (congrArg Instr.shriIL (un_Im64 x 72 3 rfl (by decide) (by decide) rfl)) rfl wf r
theorem movi (x : Km) : Statement (.movi x) := fun wf _ r =>
  have o := ops_Km x 73 1 (w := enKm x 73 1) (by decide) (by decide) rfl
  decode32 (o := .movi) (i := .movi x) o.1 o.2.1
    (op32_73 o.2.2)
    (congrArg Instr.movi (un_Km x 73 1 (by decide) (by decide) rfl)) rfl wf r
theorem moviL (x : Km64) : Statement (.moviL x) := fun wf _ r =>
  have o := ops_Km64 x 73 3 (w := enKm64 x 73 3) (by decide) (by decide) rfl
  decode64 (v := x.i.toNat) (o := .moviL) (i := .moviL x) o.1 (BitVec.isLt _) o.2.1
    (op64_73 o.2.2 |>.trans (if_pos (by have := Bool.toNat_le x.h.n; have := x.h.g.isLt; have := x.h.s.isLt; have := x.d.isLt; have := x.i.isLt; simp only [enKm64, enHdr]; omega)))
    (congrArg Instr.moviL (un_Km64 x 73 3 rfl (by decide) (by decide) rfl)) rfl wf r
theorem movhi (x : Km) : Statement (.movhi x) := fun wf _ r =>
  have o := ops_Km x 74 1 (w := enKm x 74 1) (by decide) (by decide) rfl
  decode32 (o := .movhi) (i := .movhi x) o.1 o.2.1
    (op32_74 o.2.2)
    (congrArg Instr.movhi (un_Km x 74 1 (by decide) (by decide) rfl)) rfl wf r
theorem movhiL (x : Km64) : Statement (.movhiL x) := fun wf _ r =>
  have o := ops_Km64 x 74 3 (w := enKm64 x 74 3) (by decide) (by decide) rfl
  decode64 (v := x.i.toNat) (o := .movhiL) (i := .movhiL x) o.1 (BitVec.isLt _) o.2.1
    (op64_74 o.2.2 |>.trans (if_pos (by have := Bool.toNat_le x.h.n; have := x.h.g.isLt; have := x.h.s.isLt; have := x.d.isLt; have := x.i.isLt; simp only [enKm64, enHdr]; omega)))
    (congrArg Instr.movhiL (un_Km64 x 74 3 rfl (by decide) (by decide) rfl)) rfl wf r
theorem icmpiEq (x : Im) : Statement (.icmpiEq x) := fun wf _ r =>
  have o := ops_Im x 75 1 (w := enIm x 75 1) (by decide) (by decide) rfl
  decode32 (o := .icmpiEq) (i := .icmpiEq x) o.1 o.2.1
    (op32_75 o.2.2)
    (congrArg Instr.icmpiEq (un_Im x 75 1 (by decide) (by decide) rfl)) rfl wf r
theorem icmpiEqL (x : Im64) : Statement (.icmpiEqL x) := fun wf _ r =>
  have o := ops_Im64 x 75 3 (w := enIm64 x 75 3) (by decide) (by decide) rfl
  decode64 (v := x.i.toNat) (o := .icmpiEqL) (i := .icmpiEqL x) o.1 (BitVec.isLt _) o.2.1
    (op64_75 o.2.2 |>.trans (if_pos (by have := Bool.toNat_le x.h.n; have := x.h.g.isLt; have := x.h.s.isLt; have := x.a.isLt; have := x.d.isLt; have := x.i.isLt; simp only [enIm64, enHdr]; omega)))
    (congrArg Instr.icmpiEqL (un_Im64 x 75 3 rfl (by decide) (by decide) rfl)) rfl wf r
theorem icmpiLtI (x : Im) : Statement (.icmpiLtI x) := fun wf _ r =>
  have o := ops_Im x 76 1 (w := enIm x 76 1) (by decide) (by decide) rfl
  decode32 (o := .icmpiLtI) (i := .icmpiLtI x) o.1 o.2.1
    (op32_76 o.2.2)
    (congrArg Instr.icmpiLtI (un_Im x 76 1 (by decide) (by decide) rfl)) rfl wf r
theorem icmpiLtIL (x : Im64) : Statement (.icmpiLtIL x) := fun wf _ r =>
  have o := ops_Im64 x 76 3 (w := enIm64 x 76 3) (by decide) (by decide) rfl
  decode64 (v := x.i.toNat) (o := .icmpiLtIL) (i := .icmpiLtIL x) o.1 (BitVec.isLt _) o.2.1
    (op64_76 o.2.2 |>.trans (if_pos (by have := Bool.toNat_le x.h.n; have := x.h.g.isLt; have := x.h.s.isLt; have := x.a.isLt; have := x.d.isLt; have := x.i.isLt; simp only [enIm64, enHdr]; omega)))
    (congrArg Instr.icmpiLtIL (un_Im64 x 76 3 rfl (by decide) (by decide) rfl)) rfl wf r
theorem fmovi (x : Km) : Statement (.fmovi x) := fun wf _ r =>
  have o := ops_Km x 77 1 (w := enKm x 77 1) (by decide) (by decide) rfl
  decode32 (o := .fmovi) (i := .fmovi x) o.1 o.2.1
    (op32_77 o.2.2)
    (congrArg Instr.fmovi (un_Km x 77 1 (by decide) (by decide) rfl)) rfl wf r
theorem fmoviL (x : Km64) : Statement (.fmoviL x) := fun wf _ r =>
  have o := ops_Km64 x 77 3 (w := enKm64 x 77 3) (by decide) (by decide) rfl
  decode64 (v := x.i.toNat) (o := .fmoviL) (i := .fmoviL x) o.1 (BitVec.isLt _) o.2.1
    (op64_77 o.2.2 |>.trans (if_pos (by have := Bool.toNat_le x.h.n; have := x.h.g.isLt; have := x.h.s.isLt; have := x.d.isLt; have := x.i.isLt; simp only [enKm64, enHdr]; omega)))
    (congrArg Instr.fmoviL (un_Km64 x 77 3 rfl (by decide) (by decide) rfl)) rfl wf r
theorem ld (x : Me) : Statement (.ld x) := fun wf _ r =>
  have o := ops_Me x 80 1 (w := enMe x 80 1) (by decide) (by decide) rfl
  decode32 (o := .ld) (i := .ld x) o.1 o.2.1
    (op32_80 o.2.2)
    (congrArg Instr.ld (un_Me x 80 1 (by decide) (by decide) rfl)) rfl wf r
theorem ldL (x : Me64) : Statement (.ldL x) := fun wf _ r =>
  have o := ops_Me x.r 80 3 (w := enMe x.r 80 3) (by decide) (by decide) rfl
  decode64 (v := x.i.toNat) (o := .ldL) (i := .ldL x) o.1 (BitVec.isLt _) o.2.1
    (op64_80 o.2.2)
    (mk2 (fun a b => Instr.ldL ⟨a, b⟩) (un_Me x.r 80 3 (by decide) (by decide) rfl) (ofNat_toNat32 x.i)) rfl wf r
theorem st (x : Me) : Statement (.st x) := fun wf _ r =>
  have o := ops_Me x 81 1 (w := enMe x 81 1) (by decide) (by decide) rfl
  decode32 (o := .st) (i := .st x) o.1 o.2.1
    (op32_81 o.2.2)
    (congrArg Instr.st (un_Me x 81 1 (by decide) (by decide) rfl)) rfl wf r
theorem stL (x : Me64) : Statement (.stL x) := fun wf _ r =>
  have o := ops_Me x.r 81 3 (w := enMe x.r 81 3) (by decide) (by decide) rfl
  decode64 (v := x.i.toNat) (o := .stL) (i := .stL x) o.1 (BitVec.isLt _) o.2.1
    (op64_81 o.2.2)
    (mk2 (fun a b => Instr.stL ⟨a, b⟩) (un_Me x.r 81 3 (by decide) (by decide) rfl) (ofNat_toNat32 x.i)) rfl wf r
theorem atomAdd (x : Me) : Statement (.atomAdd x) := fun wf _ r =>
  have o := ops_Me x 82 1 (w := enMe x 82 1) (by decide) (by decide) rfl
  decode32 (o := .atomAdd) (i := .atomAdd x) o.1 o.2.1
    (op32_82 o.2.2)
    (congrArg Instr.atomAdd (un_Me x 82 1 (by decide) (by decide) rfl)) rfl wf r
theorem atomAddL (x : Me64) : Statement (.atomAddL x) := fun wf _ r =>
  have o := ops_Me x.r 82 3 (w := enMe x.r 82 3) (by decide) (by decide) rfl
  decode64 (v := x.i.toNat) (o := .atomAddL) (i := .atomAddL x) o.1 (BitVec.isLt _) o.2.1
    (op64_82 o.2.2)
    (mk2 (fun a b => Instr.atomAddL ⟨a, b⟩) (un_Me x.r 82 3 (by decide) (by decide) rfl) (ofNat_toNat32 x.i)) rfl wf r
theorem atomFadd (x : Me) : Statement (.atomFadd x) := fun wf _ r =>
  have o := ops_Me x 83 1 (w := enMe x 83 1) (by decide) (by decide) rfl
  decode32 (o := .atomFadd) (i := .atomFadd x) o.1 o.2.1
    (op32_83 o.2.2)
    (congrArg Instr.atomFadd (un_Me x 83 1 (by decide) (by decide) rfl)) rfl wf r
theorem atomFaddL (x : Me64) : Statement (.atomFaddL x) := fun wf _ r =>
  have o := ops_Me x.r 83 3 (w := enMe x.r 83 3) (by decide) (by decide) rfl
  decode64 (v := x.i.toNat) (o := .atomFaddL) (i := .atomFaddL x) o.1 (BitVec.isLt _) o.2.1
    (op64_83 o.2.2)
    (mk2 (fun a b => Instr.atomFaddL ⟨a, b⟩) (un_Me x.r 83 3 (by decide) (by decide) rfl) (ofNat_toNat32 x.i)) rfl wf r
theorem atomMin (x : Me) : Statement (.atomMin x) := fun wf _ r =>
  have o := ops_Me x 84 1 (w := enMe x 84 1) (by decide) (by decide) rfl
  decode32 (o := .atomMin) (i := .atomMin x) o.1 o.2.1
    (op32_84 o.2.2)
    (congrArg Instr.atomMin (un_Me x 84 1 (by decide) (by decide) rfl)) rfl wf r
theorem atomMinL (x : Me64) : Statement (.atomMinL x) := fun wf _ r =>
  have o := ops_Me x.r 84 3 (w := enMe x.r 84 3) (by decide) (by decide) rfl
  decode64 (v := x.i.toNat) (o := .atomMinL) (i := .atomMinL x) o.1 (BitVec.isLt _) o.2.1
    (op64_84 o.2.2)
    (mk2 (fun a b => Instr.atomMinL ⟨a, b⟩) (un_Me x.r 84 3 (by decide) (by decide) rfl) (ofNat_toNat32 x.i)) rfl wf r
theorem atomMax (x : Me) : Statement (.atomMax x) := fun wf _ r =>
  have o := ops_Me x 85 1 (w := enMe x 85 1) (by decide) (by decide) rfl
  decode32 (o := .atomMax) (i := .atomMax x) o.1 o.2.1
    (op32_85 o.2.2)
    (congrArg Instr.atomMax (un_Me x 85 1 (by decide) (by decide) rfl)) rfl wf r
theorem atomMaxL (x : Me64) : Statement (.atomMaxL x) := fun wf _ r =>
  have o := ops_Me x.r 85 3 (w := enMe x.r 85 3) (by decide) (by decide) rfl
  decode64 (v := x.i.toNat) (o := .atomMaxL) (i := .atomMaxL x) o.1 (BitVec.isLt _) o.2.1
    (op64_85 o.2.2)
    (mk2 (fun a b => Instr.atomMaxL ⟨a, b⟩) (un_Me x.r 85 3 (by decide) (by decide) rfl) (ofNat_toNat32 x.i)) rfl wf r
theorem atomAnd (x : Me) : Statement (.atomAnd x) := fun wf _ r =>
  have o := ops_Me x 86 1 (w := enMe x 86 1) (by decide) (by decide) rfl
  decode32 (o := .atomAnd) (i := .atomAnd x) o.1 o.2.1
    (op32_86 o.2.2)
    (congrArg Instr.atomAnd (un_Me x 86 1 (by decide) (by decide) rfl)) rfl wf r
theorem atomAndL (x : Me64) : Statement (.atomAndL x) := fun wf _ r =>
  have o := ops_Me x.r 86 3 (w := enMe x.r 86 3) (by decide) (by decide) rfl
  decode64 (v := x.i.toNat) (o := .atomAndL) (i := .atomAndL x) o.1 (BitVec.isLt _) o.2.1
    (op64_86 o.2.2)
    (mk2 (fun a b => Instr.atomAndL ⟨a, b⟩) (un_Me x.r 86 3 (by decide) (by decide) rfl) (ofNat_toNat32 x.i)) rfl wf r
theorem atomOr (x : Me) : Statement (.atomOr x) := fun wf _ r =>
  have o := ops_Me x 87 1 (w := enMe x 87 1) (by decide) (by decide) rfl
  decode32 (o := .atomOr) (i := .atomOr x) o.1 o.2.1
    (op32_87 o.2.2)
    (congrArg Instr.atomOr (un_Me x 87 1 (by decide) (by decide) rfl)) rfl wf r
theorem atomOrL (x : Me64) : Statement (.atomOrL x) := fun wf _ r =>
  have o := ops_Me x.r 87 3 (w := enMe x.r 87 3) (by decide) (by decide) rfl
  decode64 (v := x.i.toNat) (o := .atomOrL) (i := .atomOrL x) o.1 (BitVec.isLt _) o.2.1
    (op64_87 o.2.2)
    (mk2 (fun a b => Instr.atomOrL ⟨a, b⟩) (un_Me x.r 87 3 (by decide) (by decide) rfl) (ofNat_toNat32 x.i)) rfl wf r
theorem atomXor (x : Me) : Statement (.atomXor x) := fun wf _ r =>
  have o := ops_Me x 88 1 (w := enMe x 88 1) (by decide) (by decide) rfl
  decode32 (o := .atomXor) (i := .atomXor x) o.1 o.2.1
    (op32_88 o.2.2)
    (congrArg Instr.atomXor (un_Me x 88 1 (by decide) (by decide) rfl)) rfl wf r
theorem atomXorL (x : Me64) : Statement (.atomXorL x) := fun wf _ r =>
  have o := ops_Me x.r 88 3 (w := enMe x.r 88 3) (by decide) (by decide) rfl
  decode64 (v := x.i.toNat) (o := .atomXorL) (i := .atomXorL x) o.1 (BitVec.isLt _) o.2.1
    (op64_88 o.2.2)
    (mk2 (fun a b => Instr.atomXorL ⟨a, b⟩) (un_Me x.r 88 3 (by decide) (by decide) rfl) (ofNat_toNat32 x.i)) rfl wf r
theorem atomExch (x : Me) : Statement (.atomExch x) := fun wf _ r =>
  have o := ops_Me x 89 1 (w := enMe x 89 1) (by decide) (by decide) rfl
  decode32 (o := .atomExch) (i := .atomExch x) o.1 o.2.1
    (op32_89 o.2.2)
    (congrArg Instr.atomExch (un_Me x 89 1 (by decide) (by decide) rfl)) rfl wf r
theorem atomExchL (x : Me64) : Statement (.atomExchL x) := fun wf _ r =>
  have o := ops_Me x.r 89 3 (w := enMe x.r 89 3) (by decide) (by decide) rfl
  decode64 (v := x.i.toNat) (o := .atomExchL) (i := .atomExchL x) o.1 (BitVec.isLt _) o.2.1
    (op64_89 o.2.2)
    (mk2 (fun a b => Instr.atomExchL ⟨a, b⟩) (un_Me x.r 89 3 (by decide) (by decide) rfl) (ofNat_toNat32 x.i)) rfl wf r
theorem atomCas (x : Me) : Statement (.atomCas x) := fun wf _ r =>
  have o := ops_Me x 90 1 (w := enMe x 90 1) (by decide) (by decide) rfl
  decode32 (o := .atomCas) (i := .atomCas x) o.1 o.2.1
    (op32_90 o.2.2)
    (congrArg Instr.atomCas (un_Me x 90 1 (by decide) (by decide) rfl)) rfl wf r
theorem atomCasL (x : Me64) : Statement (.atomCasL x) := fun wf _ r =>
  have o := ops_Me x.r 90 3 (w := enMe x.r 90 3) (by decide) (by decide) rfl
  decode64 (v := x.i.toNat) (o := .atomCasL) (i := .atomCasL x) o.1 (BitVec.isLt _) o.2.1
    (op64_90 o.2.2)
    (mk2 (fun a b => Instr.atomCasL ⟨a, b⟩) (un_Me x.r 90 3 (by decide) (by decide) rfl) (ofNat_toNat32 x.i)) rfl wf r
theorem fenceFull (x : Sc) : Statement (.fenceFull x) := fun wf _ r =>
  have o := ops_Sc x 91 1 0 (w := enSc x 91 1) (by decide) (by decide) (by decide) rfl
  decode32 (o := .fenceFull) (i := .fenceFull x) o.1 o.2.1
    (op32_91 o.2.2 |>.trans (if_pos (by have := Bool.toNat_le x.h.n; have := x.h.g.isLt; have := x.h.s.isLt; have := x.p.isLt; simp only [enSc, enHdr]; omega)))
    (congrArg Instr.fenceFull (un_Sc x 91 1 0 (by decide) (by decide) (by decide) rfl)) rfl wf r
theorem fenceAcq (x : Sc) : Statement (.fenceAcq x) := fun wf _ r =>
  have o := ops_Sc x 91 1 1 (w := enSc x 91 1 + 16777216) (by decide) (by decide) (by decide) rfl
  decode32 (o := .fenceAcq) (i := .fenceAcq x) o.1 o.2.1
    (op32_91 o.2.2 |>.trans (if_neg (by have := Bool.toNat_le x.h.n; have := x.h.g.isLt; have := x.h.s.isLt; have := x.p.isLt; omega)) |>.trans (if_pos (by have := Bool.toNat_le x.h.n; have := x.h.g.isLt; have := x.h.s.isLt; have := x.p.isLt; simp only [enSc, enHdr]; omega)))
    (congrArg Instr.fenceAcq (un_Sc x 91 1 1 (by decide) (by decide) (by decide) rfl)) rfl wf r
theorem fenceRel (x : Sc) : Statement (.fenceRel x) := fun wf _ r =>
  have o := ops_Sc x 91 1 2 (w := enSc x 91 1 + 33554432) (by decide) (by decide) (by decide) rfl
  decode32 (o := .fenceRel) (i := .fenceRel x) o.1 o.2.1
    (op32_91 o.2.2 |>.trans (if_neg (by have := Bool.toNat_le x.h.n; have := x.h.g.isLt; have := x.h.s.isLt; have := x.p.isLt; omega)) |>.trans (if_neg (by have := Bool.toNat_le x.h.n; have := x.h.g.isLt; have := x.h.s.isLt; have := x.p.isLt; omega)) |>.trans (if_pos (by have := Bool.toNat_le x.h.n; have := x.h.g.isLt; have := x.h.s.isLt; have := x.p.isLt; simp only [enSc, enHdr]; omega)))
    (congrArg Instr.fenceRel (un_Sc x 91 1 2 (by decide) (by decide) (by decide) rfl)) rfl wf r
theorem fenceWack (x : H0) : Statement (.fenceWack x) := fun wf _ r =>
  have o := ops_H0 x 91 1 24 (w := enH0 x 91 1 + 50331648) (by decide) (by decide) (by decide) rfl
  decode32 (o := .fenceWack) (i := .fenceWack x) o.1 o.2.1
    (op32_91 o.2.2 |>.trans (if_neg (by have := Bool.toNat_le x.h.n; have := x.h.g.isLt; have := x.h.s.isLt; omega)) |>.trans (if_neg (by have := Bool.toNat_le x.h.n; have := x.h.g.isLt; have := x.h.s.isLt; omega)) |>.trans (if_neg (by have := Bool.toNat_le x.h.n; have := x.h.g.isLt; have := x.h.s.isLt; omega)) |>.trans (if_pos (by have := Bool.toNat_le x.h.n; have := x.h.g.isLt; have := x.h.s.isLt; simp only [enH0, enHdr]; omega)))
    (congrArg Instr.fenceWack (un_H0 x 91 1 24 (by decide) (by decide) (by decide) rfl)) rfl wf r
theorem phase (x : Sc) : Statement (.phase x) := fun wf _ r =>
  have o := ops_Sc x 92 1 0 (w := enSc x 92 1) (by decide) (by decide) (by decide) rfl
  decode32 (o := .phase) (i := .phase x) o.1 o.2.1
    (op32_92 o.2.2 |>.trans (if_pos (by have := Bool.toNat_le x.h.n; have := x.h.g.isLt; have := x.h.s.isLt; have := x.p.isLt; simp only [enSc, enHdr]; omega)))
    (congrArg Instr.phase (un_Sc x 92 1 0 (by decide) (by decide) (by decide) rfl)) rfl wf r
theorem fetchb (x : H0) : Statement (.fetchb x) := fun wf _ r =>
  have o := ops_H0 x 93 1 0 (w := enH0 x 93 1) (by decide) (by decide) (by decide) rfl
  decode32 (o := .fetchb) (i := .fetchb x) o.1 o.2.1
    (op32_93 o.2.2 |>.trans (if_pos (by have := Bool.toNat_le x.h.n; have := x.h.g.isLt; have := x.h.s.isLt; simp only [enH0, enHdr]; omega)))
    (congrArg Instr.fetchb (un_H0 x 93 1 0 (by decide) (by decide) (by decide) rfl)) rfl wf r
theorem copInv (x : A1) : Statement (.copInv x) := fun wf _ r =>
  have o := ops_A1 x 94 1 0 (w := enA1 x 94 1) (by decide) (by decide) (by decide) rfl
  decode32 (o := .copInv) (i := .copInv x) o.1 o.2.1
    (op32_94 o.2.2 |>.trans (if_pos (by have := Bool.toNat_le x.h.n; have := x.h.g.isLt; have := x.h.s.isLt; have := x.a.isLt; simp only [enA1, enHdr]; omega)))
    (congrArg Instr.copInv (un_A1 x 94 1 0 (by decide) (by decide) (by decide) rfl)) rfl wf r
theorem copInvL (x : A1d) : Statement (.copInvL x) := fun wf _ r =>
  have o := ops_A1 x.r 94 3 0 (w := enA1 x.r 94 3) (by decide) (by decide) (by decide) rfl
  decode64 (v := x.i.toNat) (o := .copInvL) (i := .copInvL x) o.1 (BitVec.isLt _) o.2.1
    (op64_94 o.2.2 |>.trans (if_pos (by have := Bool.toNat_le x.r.h.n; have := x.r.h.g.isLt; have := x.r.h.s.isLt; have := x.r.a.isLt; have := x.i.isLt; simp only [enA1, enHdr]; omega)))
    (mk2 (fun a b => Instr.copInvL ⟨a, b⟩) (un_A1 x.r 94 3 0 (by decide) (by decide) (by decide) rfl) (ofNat_toNat32 x.i)) rfl wf r
theorem copWb (x : A1) : Statement (.copWb x) := fun wf _ r =>
  have o := ops_A1 x 94 1 1 (w := enA1 x 94 1 + 67108864) (by decide) (by decide) (by decide) rfl
  decode32 (o := .copWb) (i := .copWb x) o.1 o.2.1
    (op32_94 o.2.2 |>.trans (if_neg (by have := Bool.toNat_le x.h.n; have := x.h.g.isLt; have := x.h.s.isLt; have := x.a.isLt; omega)) |>.trans (if_pos (by have := Bool.toNat_le x.h.n; have := x.h.g.isLt; have := x.h.s.isLt; have := x.a.isLt; simp only [enA1, enHdr]; omega)))
    (congrArg Instr.copWb (un_A1 x 94 1 1 (by decide) (by decide) (by decide) rfl)) rfl wf r
theorem copWbL (x : A1d) : Statement (.copWbL x) := fun wf _ r =>
  have o := ops_A1 x.r 94 3 1 (w := enA1 x.r 94 3 + 67108864) (by decide) (by decide) (by decide) rfl
  decode64 (v := x.i.toNat) (o := .copWbL) (i := .copWbL x) o.1 (BitVec.isLt _) o.2.1
    (op64_94 o.2.2 |>.trans (if_neg (by have := Bool.toNat_le x.r.h.n; have := x.r.h.g.isLt; have := x.r.h.s.isLt; have := x.r.a.isLt; have := x.i.isLt; omega)) |>.trans (if_pos (by have := Bool.toNat_le x.r.h.n; have := x.r.h.g.isLt; have := x.r.h.s.isLt; have := x.r.a.isLt; have := x.i.isLt; simp only [enA1, enHdr]; omega)))
    (mk2 (fun a b => Instr.copWbL ⟨a, b⟩) (un_A1 x.r 94 3 1 (by decide) (by decide) (by decide) rfl) (ofNat_toNat32 x.i)) rfl wf r
theorem copWbi (x : A1) : Statement (.copWbi x) := fun wf _ r =>
  have o := ops_A1 x 94 1 2 (w := enA1 x 94 1 + 134217728) (by decide) (by decide) (by decide) rfl
  decode32 (o := .copWbi) (i := .copWbi x) o.1 o.2.1
    (op32_94 o.2.2 |>.trans (if_neg (by have := Bool.toNat_le x.h.n; have := x.h.g.isLt; have := x.h.s.isLt; have := x.a.isLt; omega)) |>.trans (if_neg (by have := Bool.toNat_le x.h.n; have := x.h.g.isLt; have := x.h.s.isLt; have := x.a.isLt; omega)) |>.trans (if_pos (by have := Bool.toNat_le x.h.n; have := x.h.g.isLt; have := x.h.s.isLt; have := x.a.isLt; simp only [enA1, enHdr]; omega)))
    (congrArg Instr.copWbi (un_A1 x 94 1 2 (by decide) (by decide) (by decide) rfl)) rfl wf r
theorem copWbiL (x : A1d) : Statement (.copWbiL x) := fun wf _ r =>
  have o := ops_A1 x.r 94 3 2 (w := enA1 x.r 94 3 + 134217728) (by decide) (by decide) (by decide) rfl
  decode64 (v := x.i.toNat) (o := .copWbiL) (i := .copWbiL x) o.1 (BitVec.isLt _) o.2.1
    (op64_94 o.2.2 |>.trans (if_neg (by have := Bool.toNat_le x.r.h.n; have := x.r.h.g.isLt; have := x.r.h.s.isLt; have := x.r.a.isLt; have := x.i.isLt; omega)) |>.trans (if_neg (by have := Bool.toNat_le x.r.h.n; have := x.r.h.g.isLt; have := x.r.h.s.isLt; have := x.r.a.isLt; have := x.i.isLt; omega)) |>.trans (if_pos (by have := Bool.toNat_le x.r.h.n; have := x.r.h.g.isLt; have := x.r.h.s.isLt; have := x.r.a.isLt; have := x.i.isLt; simp only [enA1, enHdr]; omega)))
    (mk2 (fun a b => Instr.copWbiL ⟨a, b⟩) (un_A1 x.r 94 3 2 (by decide) (by decide) (by decide) rfl) (ofNat_toNat32 x.i)) rfl wf r
theorem bra (x : I16) : Statement (.bra x) := fun wf _ r =>
  have o := ops_I16 x 96 1 (w := enI16 x 96 1) (by decide) (by decide) rfl
  decode32 (o := .bra) (i := .bra x) o.1 o.2.1
    (op32_96 o.2.2)
    (congrArg Instr.bra (un_I16 x 96 1 (by decide) (by decide) rfl)) rfl wf r
theorem braL (x : I16l) : Statement (.braL x) := fun wf _ r =>
  have o := ops_I16l x 96 3 (w := enI16l x 96 3) (by decide) (by decide) rfl
  decode64 (v := x.i.toNat) (o := .braL) (i := .braL x) o.1 (BitVec.isLt _) o.2.1
    (op64_96 o.2.2 |>.trans (if_pos (by have := Bool.toNat_le x.h.n; have := x.h.g.isLt; have := x.h.s.isLt; have := x.i.isLt; simp only [enI16l, enHdr]; omega)))
    (congrArg Instr.braL (un_I16l x 96 3 rfl (by decide) (by decide) rfl)) rfl wf r
theorem brx (x : A1) : Statement (.brx x) := fun wf _ r =>
  have o := ops_A1 x 97 1 0 (w := enA1 x 97 1) (by decide) (by decide) (by decide) rfl
  decode32 (o := .brx) (i := .brx x) o.1 o.2.1
    (op32_97 o.2.2 |>.trans (if_pos (by have := Bool.toNat_le x.h.n; have := x.h.g.isLt; have := x.h.s.isLt; have := x.a.isLt; simp only [enA1, enHdr]; omega)))
    (congrArg Instr.brx (un_A1 x 97 1 0 (by decide) (by decide) (by decide) rfl)) rfl wf r
theorem brxL (x : A1m) : Statement (.brxL x) := fun wf _ r =>
  have o := ops_A1 x.r 97 3 0 (w := enA1 x.r 97 3) (by decide) (by decide) (by decide) rfl
  decode64 (v := enModifier x.m) (o := .brxL) (i := .brxL x) o.1 (lt32_Modifier x.m) o.2.1
    (op64_97 o.2.2 |>.trans (if_pos (by have := Bool.toNat_le x.r.h.n; have := x.r.h.g.isLt; have := x.r.h.s.isLt; have := x.r.a.isLt; have := lt_Modifier x.m; simp only [enA1, enHdr]; omega)))
    (mk2 (fun a b => Instr.brxL ⟨a, b⟩) (un_A1 x.r 97 3 0 (by decide) (by decide) (by decide) rfl) (un_Modifier x.m rfl)) rfl wf r
theorem call (x : I16) : Statement (.call x) := fun wf _ r =>
  have o := ops_I16 x 98 1 (w := enI16 x 98 1) (by decide) (by decide) rfl
  decode32 (o := .call) (i := .call x) o.1 o.2.1
    (op32_98 o.2.2)
    (congrArg Instr.call (un_I16 x 98 1 (by decide) (by decide) rfl)) rfl wf r
theorem callL (x : I16l) : Statement (.callL x) := fun wf _ r =>
  have o := ops_I16l x 98 3 (w := enI16l x 98 3) (by decide) (by decide) rfl
  decode64 (v := x.i.toNat) (o := .callL) (i := .callL x) o.1 (BitVec.isLt _) o.2.1
    (op64_98 o.2.2 |>.trans (if_pos (by have := Bool.toNat_le x.h.n; have := x.h.g.isLt; have := x.h.s.isLt; have := x.i.isLt; simp only [enI16l, enHdr]; omega)))
    (congrArg Instr.callL (un_I16l x 98 3 rfl (by decide) (by decide) rfl)) rfl wf r
theorem callx (x : A1) : Statement (.callx x) := fun wf _ r =>
  have o := ops_A1 x 99 1 0 (w := enA1 x 99 1) (by decide) (by decide) (by decide) rfl
  decode32 (o := .callx) (i := .callx x) o.1 o.2.1
    (op32_99 o.2.2 |>.trans (if_pos (by have := Bool.toNat_le x.h.n; have := x.h.g.isLt; have := x.h.s.isLt; have := x.a.isLt; simp only [enA1, enHdr]; omega)))
    (congrArg Instr.callx (un_A1 x 99 1 0 (by decide) (by decide) (by decide) rfl)) rfl wf r
theorem callxL (x : A1m) : Statement (.callxL x) := fun wf _ r =>
  have o := ops_A1 x.r 99 3 0 (w := enA1 x.r 99 3) (by decide) (by decide) (by decide) rfl
  decode64 (v := enModifier x.m) (o := .callxL) (i := .callxL x) o.1 (lt32_Modifier x.m) o.2.1
    (op64_99 o.2.2 |>.trans (if_pos (by have := Bool.toNat_le x.r.h.n; have := x.r.h.g.isLt; have := x.r.h.s.isLt; have := x.r.a.isLt; have := lt_Modifier x.m; simp only [enA1, enHdr]; omega)))
    (mk2 (fun a b => Instr.callxL ⟨a, b⟩) (un_A1 x.r 99 3 0 (by decide) (by decide) (by decide) rfl) (un_Modifier x.m rfl)) rfl wf r
theorem ret (x : H0) : Statement (.ret x) := fun wf _ r =>
  have o := ops_H0 x 100 1 0 (w := enH0 x 100 1) (by decide) (by decide) (by decide) rfl
  decode32 (o := .ret) (i := .ret x) o.1 o.2.1
    (op32_100 o.2.2 |>.trans (if_pos (by have := Bool.toNat_le x.h.n; have := x.h.g.isLt; have := x.h.s.isLt; simp only [enH0, enHdr]; omega)))
    (congrArg Instr.ret (un_H0 x 100 1 0 (by decide) (by decide) (by decide) rfl)) rfl wf r
theorem exit (x : H0) : Statement (.exit x) := fun wf _ r =>
  have o := ops_H0 x 101 1 0 (w := enH0 x 101 1) (by decide) (by decide) (by decide) rfl
  decode32 (o := .exit) (i := .exit x) o.1 o.2.1
    (op32_101 o.2.2 |>.trans (if_pos (by have := Bool.toNat_le x.h.n; have := x.h.g.isLt; have := x.h.s.isLt; simp only [enH0, enHdr]; omega)))
    (congrArg Instr.exit (un_H0 x 101 1 0 (by decide) (by decide) (by decide) rfl)) rfl wf r
theorem loop (x : Lo) : Statement (.loop x) := fun wf _ r =>
  have o := ops_Lo x 102 1 (w := enLo x 102 1) (by decide) (by decide) rfl
  decode32 (o := .loop) (i := .loop x) o.1 o.2.1
    (op32_102 o.2.2)
    (congrArg Instr.loop (un_Lo x 102 1 (by decide) (by decide) rfl)) rfl wf r
theorem loopL (x : Lo64) : Statement (.loopL x) := fun wf _ r =>
  have o := ops_Lo64 x 102 3 (w := enLo64 x 102 3) (by decide) (by decide) rfl
  decode64 (v := x.e.toNat) (o := .loopL) (i := .loopL x) o.1 (BitVec.isLt _) o.2.1
    (op64_102 o.2.2 |>.trans (if_pos (by have := Bool.toNat_le x.h.n; have := x.h.g.isLt; have := x.h.s.isLt; have := Bool.toNat_le x.u; have := x.t.isLt; have := x.e.isLt; simp only [enLo64, enHdr]; omega)))
    (congrArg Instr.loopL (un_Lo64 x 102 3 rfl (by decide) (by decide) rfl)) rfl wf r
theorem brk (x : H0) : Statement (.brk x) := fun wf _ r =>
  have o := ops_H0 x 103 1 0 (w := enH0 x 103 1) (by decide) (by decide) (by decide) rfl
  decode32 (o := .brk) (i := .brk x) o.1 o.2.1
    (op32_103 o.2.2 |>.trans (if_pos (by have := Bool.toNat_le x.h.n; have := x.h.g.isLt; have := x.h.s.isLt; simp only [enH0, enHdr]; omega)))
    (congrArg Instr.brk (un_H0 x 103 1 0 (by decide) (by decide) (by decide) rfl)) rfl wf r
theorem lcfg (x : Lc) : Statement (.lcfg x) := fun wf _ r =>
  have o := ops_Lc x 104 1 (w := enLc x 104 1) (by decide) (by decide) rfl
  decode32 (o := .lcfg) (i := .lcfg x) o.1 o.2.1
    (op32_104 o.2.2 |>.trans (if_pos (by have := Bool.toNat_le x.h.n; have := x.h.g.isLt; have := x.h.s.isLt; have := x.k.isLt; have := x.z.isLt; simp only [enLc, enHdr]; omega)))
    (congrArg Instr.lcfg (un_Lc x 104 1 (by decide) (by decide) rfl)) rfl wf r
theorem cnv (x : H0) : Statement (.cnv x) := fun wf _ r =>
  have o := ops_H0 x 105 1 0 (w := enH0 x 105 1) (by decide) (by decide) (by decide) rfl
  decode32 (o := .cnv) (i := .cnv x) o.1 o.2.1
    (op32_105 o.2.2 |>.trans (if_pos (by have := Bool.toNat_le x.h.n; have := x.h.g.isLt; have := x.h.s.isLt; simp only [enH0, enHdr]; omega)))
    (congrArg Instr.cnv (un_H0 x 105 1 0 (by decide) (by decide) (by decide) rfl)) rfl wf r
theorem cnvMask (x : D1) : Statement (.cnvMask x) := fun wf _ r =>
  have o := ops_D1 x 105 1 1 (w := enD1 x 105 1 + 2097152) (by decide) (by decide) (by decide) rfl
  decode32 (o := .cnvMask) (i := .cnvMask x) o.1 o.2.1
    (op32_105 o.2.2 |>.trans (if_neg (by have := Bool.toNat_le x.h.n; have := x.h.g.isLt; have := x.h.s.isLt; have := x.d.isLt; omega)) |>.trans (if_pos (by have := Bool.toNat_le x.h.n; have := x.h.g.isLt; have := x.h.s.isLt; have := x.d.isLt; simp only [enD1, enHdr]; omega)))
    (congrArg Instr.cnvMask (un_D1 x 105 1 1 (by decide) (by decide) (by decide) rfl)) rfl wf r
theorem bar (x : Ba) : Statement (.bar x) := fun wf _ r =>
  have o := ops_Ba x 106 1 (w := enBa x 106 1) (by decide) (by decide) rfl
  decode32 (o := .bar) (i := .bar x) o.1 o.2.1
    (op32_106 o.2.2 |>.trans (if_pos (by have := Bool.toNat_le x.h.n; have := x.h.g.isLt; have := x.h.s.isLt; have := x.i.isLt; have := x.p.isLt; simp only [enBa, enHdr]; omega)))
    (congrArg Instr.bar (un_Ba x 106 1 (by decide) (by decide) rfl)) rfl wf r
theorem trap (x : N11) : Statement (.trap x) := fun wf _ r =>
  have o := ops_N11 x 107 1 (w := enN11 x 107 1) (by decide) (by decide) rfl
  decode32 (o := .trap) (i := .trap x) o.1 o.2.1
    (op32_107 o.2.2 |>.trans (if_pos (by have := Bool.toNat_le x.h.n; have := x.h.g.isLt; have := x.h.s.isLt; have := x.i.isLt; simp only [enN11, enHdr]; omega)))
    (congrArg Instr.trap (un_N11 x 107 1 (by decide) (by decide) rfl)) rfl wf r
theorem sysc (x : N11) : Statement (.sysc x) := fun wf _ r =>
  have o := ops_N11 x 108 1 (w := enN11 x 108 1) (by decide) (by decide) rfl
  decode32 (o := .sysc) (i := .sysc x) o.1 o.2.1
    (op32_108 o.2.2 |>.trans (if_pos (by have := Bool.toNat_le x.h.n; have := x.h.g.isLt; have := x.h.s.isLt; have := x.i.isLt; simp only [enN11, enHdr]; omega)))
    (congrArg Instr.sysc (un_N11 x 108 1 (by decide) (by decide) rfl)) rfl wf r
theorem bkpt (x : N11) : Statement (.bkpt x) := fun wf _ r =>
  have o := ops_N11 x 109 1 (w := enN11 x 109 1) (by decide) (by decide) rfl
  decode32 (o := .bkpt) (i := .bkpt x) o.1 o.2.1
    (op32_109 o.2.2 |>.trans (if_pos (by have := Bool.toNat_le x.h.n; have := x.h.g.isLt; have := x.h.s.isLt; have := x.i.isLt; simp only [enN11, enHdr]; omega)))
    (congrArg Instr.bkpt (un_N11 x 109 1 (by decide) (by decide) rfl)) rfl wf r
theorem balw (x : Bw) : Statement (.balw x) := fun wf _ r =>
  have o := ops_Bw x 110 3 (w := enBw x 110 3) (by decide) (by decide) rfl
  decode64 (v := x.i.toNat) (o := .balw) (i := .balw x) o.1 (BitVec.isLt _) o.2.1
    (op64_110 o.2.2 |>.trans (if_pos (by have := Bool.toNat_le x.h.n; have := x.h.g.isLt; have := x.h.s.isLt; have := x.a.isLt; have := x.i.isLt; simp only [enBw, enHdr]; omega)))
    (congrArg Instr.balw (un_Bw x 110 3 rfl (by decide) (by decide) rfl)) rfl wf r
theorem yield (x : H0) : Statement (.yield x) := fun wf _ r =>
  have o := ops_H0 x 111 1 0 (w := enH0 x 111 1) (by decide) (by decide) (by decide) rfl
  decode32 (o := .yield) (i := .yield x) o.1 o.2.1
    (op32_111 o.2.2 |>.trans (if_pos (by have := Bool.toNat_le x.h.n; have := x.h.g.isLt; have := x.h.s.isLt; simp only [enH0, enHdr]; omega)))
    (congrArg Instr.yield (un_H0 x 111 1 0 (by decide) (by decide) (by decide) rfl)) rfl wf r
theorem mapset (x : Ms) : Statement (.mapset x) := fun wf _ r =>
  have o := ops_Ms x 112 1 1 (w := enMs x 112 1 + 2147483648) (by decide) (by decide) (by decide) rfl
  decode32 (o := .mapset) (i := .mapset x) o.1 o.2.1
    (op32_112 o.2.2 |>.trans (if_pos (by have := Bool.toNat_le x.h.n; have := x.h.g.isLt; have := x.h.s.isLt; have := x.b.isLt; have := x.d.isLt; simp only [enMs, enHdr]; omega)))
    (congrArg Instr.mapset (un_Ms x 112 1 1 (by decide) (by decide) (by decide) rfl)) rfl wf r
theorem mapchn (x : M3) : Statement (.mapchn x) := fun wf _ r =>
  have o := ops_M3 x 113 1 0 (w := enM3 x 113 1) (by decide) (by decide) (by decide) rfl
  decode32 (o := .mapchn) (i := .mapchn x) o.1 o.2.1
    (op32_113 o.2.2 |>.trans (if_pos (by have := Bool.toNat_le x.h.n; have := x.h.g.isLt; have := x.h.s.isLt; have := x.b.isLt; have := x.a.isLt; have := x.d.isLt; simp only [enM3, enHdr]; omega)))
    (congrArg Instr.mapchn (un_M3 x 113 1 0 (by decide) (by decide) (by decide) rfl)) rfl wf r
theorem mapprt (x : M3) : Statement (.mapprt x) := fun wf _ r =>
  have o := ops_M3 x 114 1 1 (w := enM3 x 114 1 + 2147483648) (by decide) (by decide) (by decide) rfl
  decode32 (o := .mapprt) (i := .mapprt x) o.1 o.2.1
    (op32_114 o.2.2 |>.trans (if_pos (by have := Bool.toNat_le x.h.n; have := x.h.g.isLt; have := x.h.s.isLt; have := x.b.isLt; have := x.a.isLt; have := x.d.isLt; omega)))
    (congrArg Instr.mapprt (un_M3 x 114 1 1 (by decide) (by decide) (by decide) rfl)) rfl wf r
theorem maptrn (x : M3) : Statement (.maptrn x) := fun wf _ r =>
  have o := ops_M3 x 115 1 1 (w := enM3 x 115 1 + 2147483648) (by decide) (by decide) (by decide) rfl
  decode32 (o := .maptrn) (i := .maptrn x) o.1 o.2.1
    (op32_115 o.2.2 |>.trans (if_pos (by have := Bool.toNat_le x.h.n; have := x.h.g.isLt; have := x.h.s.isLt; have := x.b.isLt; have := x.a.isLt; have := x.d.isLt; omega)))
    (congrArg Instr.maptrn (un_M3 x 115 1 1 (by decide) (by decide) (by decide) rfl)) rfl wf r
theorem mapflt (x : R1) : Statement (.mapflt x) := fun wf _ r =>
  have o := ops_R1 x 116 1 (w := enR1 x 116 1) (by decide) (by decide) rfl
  decode32 (o := .mapflt) (i := .mapflt x) o.1 o.2.1
    (op32_116 o.2.2 |>.trans (if_pos (by have := Bool.toNat_le x.h.n; have := x.h.g.isLt; have := x.h.s.isLt; have := x.a.isLt; have := x.d.isLt; simp only [enR1, enHdr]; omega)))
    (congrArg Instr.mapflt (un_R1 x 116 1 (by decide) (by decide) rfl)) rfl wf r
theorem mapchk (x : Tq) : Statement (.mapchk x) := fun wf _ r =>
  have o := ops_Tq x 117 3 (w := enTq x 117 3) (by decide) (by decide) rfl
  decode64 (v := x.k.toNat) (o := .mapchk) (i := .mapchk x) o.1 (by have := Bool.toNat_le x.h.n; have := x.h.g.isLt; have := x.h.s.isLt; have := x.x.isLt; have := x.v.isLt; have := x.m.isLt; have := x.hd.isLt; have := x.k.isLt; omega) o.2.1
    (op64_117 o.2.2 |>.trans (if_pos (by have := Bool.toNat_le x.h.n; have := x.h.g.isLt; have := x.h.s.isLt; have := x.x.isLt; have := x.v.isLt; have := x.m.isLt; have := x.hd.isLt; have := x.k.isLt; omega)))
    (congrArg Instr.mapchk (un_Tq x 117 3 rfl (by decide) (by decide) rfl)) rfl wf r
theorem bankq (x : Tq) : Statement (.bankq x) := fun wf _ r =>
  have o := ops_Tq x 118 3 (w := enTq x 118 3) (by decide) (by decide) rfl
  decode64 (v := x.k.toNat) (o := .bankq) (i := .bankq x) o.1 (by have := Bool.toNat_le x.h.n; have := x.h.g.isLt; have := x.h.s.isLt; have := x.x.isLt; have := x.v.isLt; have := x.m.isLt; have := x.hd.isLt; have := x.k.isLt; omega) o.2.1
    (op64_118 o.2.2 |>.trans (if_pos (by have := Bool.toNat_le x.h.n; have := x.h.g.isLt; have := x.h.s.isLt; have := x.x.isLt; have := x.v.isLt; have := x.m.isLt; have := x.hd.isLt; have := x.k.isLt; omega)))
    (congrArg Instr.bankq (un_Tq x 118 3 rfl (by decide) (by decide) rfl)) rfl wf r
theorem hset (x : Vh) : Statement (.hset x) := fun wf _ r =>
  have o := ops_Vh x 119 1 0 (w := enVh x 119 1) (by decide) (by decide) (by decide) rfl
  decode32 (o := .hset) (i := .hset x) o.1 o.2.1
    (op32_119 o.2.2 |>.trans (if_pos (by have := Bool.toNat_le x.h.n; have := x.h.g.isLt; have := x.h.s.isLt; have := x.v.isLt; have := x.hd.isLt; simp only [enVh, enHdr]; omega)))
    (congrArg Instr.hset (un_Vh x 119 1 0 (by decide) (by decide) (by decide) rfl)) rfl wf r
theorem tcpy (x : V1) : Statement (.tcpy x) := fun wf _ r =>
  have o := ops_V1 x 120 1 0 (w := enV1 x 120 1) (by decide) (by decide) (by decide) rfl
  decode32 (o := .tcpy) (i := .tcpy x) o.1 o.2.1
    (op32_120 o.2.2 |>.trans (if_pos (by have := Bool.toNat_le x.h.n; have := x.h.g.isLt; have := x.h.s.isLt; have := x.v.isLt; simp only [enV1, enHdr]; omega)))
    (congrArg Instr.tcpy (un_V1 x 120 1 0 (by decide) (by decide) (by decide) rfl)) rfl wf r
theorem tmma (x : V1) : Statement (.tmma x) := fun wf _ r =>
  have o := ops_V1 x 121 1 0 (w := enV1 x 121 1) (by decide) (by decide) (by decide) rfl
  decode32 (o := .tmma) (i := .tmma x) o.1 o.2.1
    (op32_121 o.2.2 |>.trans (if_pos (by have := Bool.toNat_le x.h.n; have := x.h.g.isLt; have := x.h.s.isLt; have := x.v.isLt; simp only [enV1, enHdr]; omega)))
    (congrArg Instr.tmma (un_V1 x 121 1 0 (by decide) (by decide) (by decide) rfl)) rfl wf r
theorem tgat (x : V1) : Statement (.tgat x) := fun wf _ r =>
  have o := ops_V1 x 122 1 0 (w := enV1 x 122 1) (by decide) (by decide) (by decide) rfl
  decode32 (o := .tgat) (i := .tgat x) o.1 o.2.1
    (op32_122 o.2.2 |>.trans (if_pos (by have := Bool.toNat_le x.h.n; have := x.h.g.isLt; have := x.h.s.isLt; have := x.v.isLt; simp only [enV1, enHdr]; omega)))
    (congrArg Instr.tgat (un_V1 x 122 1 0 (by decide) (by decide) (by decide) rfl)) rfl wf r
theorem tcol (x : V1) : Statement (.tcol x) := fun wf _ r =>
  have o := ops_V1 x 123 1 0 (w := enV1 x 123 1) (by decide) (by decide) (by decide) rfl
  decode32 (o := .tcol) (i := .tcol x) o.1 o.2.1
    (op32_123 o.2.2 |>.trans (if_pos (by have := Bool.toNat_le x.h.n; have := x.h.g.isLt; have := x.h.s.isLt; have := x.v.isLt; simp only [enV1, enHdr]; omega)))
    (congrArg Instr.tcol (un_V1 x 123 1 0 (by decide) (by decide) (by decide) rfl)) rfl wf r
theorem tld (x : Tl) : Statement (.tld x) := fun wf _ r =>
  have o := ops_Tl x 124 3 (w := enTl x 124 3) (by decide) (by decide) rfl
  decode64 (v := (x.rh.toNat + 16 * x.rl.toNat)) (o := .tld) (i := .tld x) o.1 (by have := Bool.toNat_le x.h.n; have := x.h.g.isLt; have := x.h.s.isLt; have := x.v.isLt; have := x.m.isLt; have := x.hd.isLt; have := x.rh.isLt; have := x.rl.isLt; omega) o.2.1
    (op64_124 o.2.2 |>.trans (if_pos (by have := Bool.toNat_le x.h.n; have := x.h.g.isLt; have := x.h.s.isLt; have := x.v.isLt; have := x.m.isLt; have := x.hd.isLt; have := x.rh.isLt; have := x.rl.isLt; simp only [enTl, enHdr]; omega)))
    (congrArg Instr.tld (un_Tl x 124 3 rfl (by decide) (by decide) rfl)) rfl wf r
theorem tst (x : Tl) : Statement (.tst x) := fun wf _ r =>
  have o := ops_Tl x 125 3 (w := enTl x 125 3) (by decide) (by decide) rfl
  decode64 (v := (x.rh.toNat + 16 * x.rl.toNat)) (o := .tst) (i := .tst x) o.1 (by have := Bool.toNat_le x.h.n; have := x.h.g.isLt; have := x.h.s.isLt; have := x.v.isLt; have := x.m.isLt; have := x.hd.isLt; have := x.rh.isLt; have := x.rl.isLt; omega) o.2.1
    (op64_125 o.2.2 |>.trans (if_pos (by have := Bool.toNat_le x.h.n; have := x.h.g.isLt; have := x.h.s.isLt; have := x.v.isLt; have := x.m.isLt; have := x.hd.isLt; have := x.rh.isLt; have := x.rl.isLt; simp only [enTl, enHdr]; omega)))
    (congrArg Instr.tst (un_Tl x 125 3 rfl (by decide) (by decide) rfl)) rfl wf r
theorem accZero (x : Hh) : Statement (.accZero x) := fun wf _ r =>
  have o := ops_Hh x 126 1 0 (w := enHh x 126 1) (by decide) (by decide) (by decide) rfl
  decode32 (o := .accZero) (i := .accZero x) o.1 o.2.1
    (op32_126 o.2.2 |>.trans (if_pos (by have := Bool.toNat_le x.h.n; have := x.h.g.isLt; have := x.h.s.isLt; have := x.hd.isLt; simp only [enHh, enHdr]; omega)))
    (congrArg Instr.accZero (un_Hh x 126 1 0 (by decide) (by decide) (by decide) rfl)) rfl wf r
theorem accZeroL (x : Hh64) : Statement (.accZeroL x) := fun wf _ r =>
  have o := ops_Hh x.r 126 3 0 (w := enHh x.r 126 3) (by decide) (by decide) (by decide) rfl
  decode64 (v := x.i.toNat) (o := .accZeroL) (i := .accZeroL x) o.1 (BitVec.isLt _) o.2.1
    (op64_126 o.2.2 |>.trans (if_pos (by have := Bool.toNat_le x.r.h.n; have := x.r.h.g.isLt; have := x.r.h.s.isLt; have := x.r.hd.isLt; have := x.i.isLt; simp only [enHh, enHdr]; omega)))
    (mk2 (fun a b => Instr.accZeroL ⟨a, b⟩) (un_Hh x.r 126 3 0 (by decide) (by decide) (by decide) rfl) (ofNat_toNat32 x.i)) rfl wf r
theorem accSetexp (x : Vh) : Statement (.accSetexp x) := fun wf _ r =>
  have o := ops_Vh x 126 1 1 (w := enVh x 126 1 + 1048576) (by decide) (by decide) (by decide) rfl
  decode32 (o := .accSetexp) (i := .accSetexp x) o.1 o.2.1
    (op32_126 o.2.2 |>.trans (if_neg (by have := Bool.toNat_le x.h.n; have := x.h.g.isLt; have := x.h.s.isLt; have := x.v.isLt; have := x.hd.isLt; omega)) |>.trans (if_pos (by have := Bool.toNat_le x.h.n; have := x.h.g.isLt; have := x.h.s.isLt; have := x.v.isLt; have := x.hd.isLt; simp only [enVh, enHdr]; omega)))
    (congrArg Instr.accSetexp (un_Vh x 126 1 1 (by decide) (by decide) (by decide) rfl)) rfl wf r
theorem accSetexpL (x : Vh64) : Statement (.accSetexpL x) := fun wf _ r =>
  have o := ops_Vh x.r 126 3 1 (w := enVh x.r 126 3 + 1048576) (by decide) (by decide) (by decide) rfl
  decode64 (v := x.i.toNat) (o := .accSetexpL) (i := .accSetexpL x) o.1 (BitVec.isLt _) o.2.1
    (op64_126 o.2.2 |>.trans (if_neg (by have := Bool.toNat_le x.r.h.n; have := x.r.h.g.isLt; have := x.r.h.s.isLt; have := x.r.v.isLt; have := x.r.hd.isLt; have := x.i.isLt; omega)) |>.trans (if_pos (by have := Bool.toNat_le x.r.h.n; have := x.r.h.g.isLt; have := x.r.h.s.isLt; have := x.r.v.isLt; have := x.r.hd.isLt; have := x.i.isLt; simp only [enVh, enHdr]; omega)))
    (mk2 (fun a b => Instr.accSetexpL ⟨a, b⟩) (un_Vh x.r 126 3 1 (by decide) (by decide) (by decide) rfl) (ofNat_toNat32 x.i)) rfl wf r
theorem accRdrow (x : Vh) : Statement (.accRdrow x) := fun wf _ r =>
  have o := ops_Vh x 126 1 2 (w := enVh x 126 1 + 2097152) (by decide) (by decide) (by decide) rfl
  decode32 (o := .accRdrow) (i := .accRdrow x) o.1 o.2.1
    (op32_126 o.2.2 |>.trans (if_neg (by have := Bool.toNat_le x.h.n; have := x.h.g.isLt; have := x.h.s.isLt; have := x.v.isLt; have := x.hd.isLt; omega)) |>.trans (if_neg (by have := Bool.toNat_le x.h.n; have := x.h.g.isLt; have := x.h.s.isLt; have := x.v.isLt; have := x.hd.isLt; simp only [enVh, enHdr]; omega)) |>.trans (if_pos (by have := Bool.toNat_le x.h.n; have := x.h.g.isLt; have := x.h.s.isLt; have := x.v.isLt; have := x.hd.isLt; simp only [enVh, enHdr]; omega)))
    (congrArg Instr.accRdrow (un_Vh x 126 1 2 (by decide) (by decide) (by decide) rfl)) rfl wf r
theorem accRdrowL (x : Vh64) : Statement (.accRdrowL x) := fun wf _ r =>
  have o := ops_Vh x.r 126 3 2 (w := enVh x.r 126 3 + 2097152) (by decide) (by decide) (by decide) rfl
  decode64 (v := x.i.toNat) (o := .accRdrowL) (i := .accRdrowL x) o.1 (BitVec.isLt _) o.2.1
    (op64_126 o.2.2 |>.trans (if_neg (by have := Bool.toNat_le x.r.h.n; have := x.r.h.g.isLt; have := x.r.h.s.isLt; have := x.r.v.isLt; have := x.r.hd.isLt; have := x.i.isLt; omega)) |>.trans (if_neg (by have := Bool.toNat_le x.r.h.n; have := x.r.h.g.isLt; have := x.r.h.s.isLt; have := x.r.v.isLt; have := x.r.hd.isLt; have := x.i.isLt; simp only [enVh, enHdr]; omega)) |>.trans (if_pos (by have := Bool.toNat_le x.r.h.n; have := x.r.h.g.isLt; have := x.r.h.s.isLt; have := x.r.v.isLt; have := x.r.hd.isLt; have := x.i.isLt; simp only [enVh, enHdr]; omega)))
    (mk2 (fun a b => Instr.accRdrowL ⟨a, b⟩) (un_Vh x.r 126 3 2 (by decide) (by decide) (by decide) rfl) (ofNat_toNat32 x.i)) rfl wf r
theorem accWrrow (x : Vh) : Statement (.accWrrow x) := fun wf _ r =>
  have o := ops_Vh x 126 1 3 (w := enVh x 126 1 + 3145728) (by decide) (by decide) (by decide) rfl
  decode32 (o := .accWrrow) (i := .accWrrow x) o.1 o.2.1
    (op32_126 o.2.2 |>.trans (if_neg (by have := Bool.toNat_le x.h.n; have := x.h.g.isLt; have := x.h.s.isLt; have := x.v.isLt; have := x.hd.isLt; omega)) |>.trans (if_neg (by have := Bool.toNat_le x.h.n; have := x.h.g.isLt; have := x.h.s.isLt; have := x.v.isLt; have := x.hd.isLt; simp only [enVh, enHdr]; omega)) |>.trans (if_neg (by have := Bool.toNat_le x.h.n; have := x.h.g.isLt; have := x.h.s.isLt; have := x.v.isLt; have := x.hd.isLt; simp only [enVh, enHdr]; omega)) |>.trans (if_pos (by have := Bool.toNat_le x.h.n; have := x.h.g.isLt; have := x.h.s.isLt; have := x.v.isLt; have := x.hd.isLt; simp only [enVh, enHdr]; omega)))
    (congrArg Instr.accWrrow (un_Vh x 126 1 3 (by decide) (by decide) (by decide) rfl)) rfl wf r
theorem accWrrowL (x : Vh64) : Statement (.accWrrowL x) := fun wf _ r =>
  have o := ops_Vh x.r 126 3 3 (w := enVh x.r 126 3 + 3145728) (by decide) (by decide) (by decide) rfl
  decode64 (v := x.i.toNat) (o := .accWrrowL) (i := .accWrrowL x) o.1 (BitVec.isLt _) o.2.1
    (op64_126 o.2.2 |>.trans (if_neg (by have := Bool.toNat_le x.r.h.n; have := x.r.h.g.isLt; have := x.r.h.s.isLt; have := x.r.v.isLt; have := x.r.hd.isLt; have := x.i.isLt; omega)) |>.trans (if_neg (by have := Bool.toNat_le x.r.h.n; have := x.r.h.g.isLt; have := x.r.h.s.isLt; have := x.r.v.isLt; have := x.r.hd.isLt; have := x.i.isLt; simp only [enVh, enHdr]; omega)) |>.trans (if_neg (by have := Bool.toNat_le x.r.h.n; have := x.r.h.g.isLt; have := x.r.h.s.isLt; have := x.r.v.isLt; have := x.r.hd.isLt; have := x.i.isLt; simp only [enVh, enHdr]; omega)) |>.trans (if_pos (by have := Bool.toNat_le x.r.h.n; have := x.r.h.g.isLt; have := x.r.h.s.isLt; have := x.r.v.isLt; have := x.r.hd.isLt; have := x.i.isLt; simp only [enVh, enHdr]; omega)))
    (mk2 (fun a b => Instr.accWrrowL ⟨a, b⟩) (un_Vh x.r 126 3 3 (by decide) (by decide) (by decide) rfl) (ofNat_toNat32 x.i)) rfl wf r
theorem accClrst (x : Hh) : Statement (.accClrst x) := fun wf _ r =>
  have o := ops_Hh x 126 1 4 (w := enHh x 126 1 + 4194304) (by decide) (by decide) (by decide) rfl
  decode32 (o := .accClrst) (i := .accClrst x) o.1 o.2.1
    (op32_126 o.2.2 |>.trans (if_neg (by have := Bool.toNat_le x.h.n; have := x.h.g.isLt; have := x.h.s.isLt; have := x.hd.isLt; omega)) |>.trans (if_neg (by have := Bool.toNat_le x.h.n; have := x.h.g.isLt; have := x.h.s.isLt; have := x.hd.isLt; simp only [enHh, enHdr]; omega)) |>.trans (if_neg (by have := Bool.toNat_le x.h.n; have := x.h.g.isLt; have := x.h.s.isLt; have := x.hd.isLt; simp only [enHh, enHdr]; omega)) |>.trans (if_neg (by have := Bool.toNat_le x.h.n; have := x.h.g.isLt; have := x.h.s.isLt; have := x.hd.isLt; simp only [enHh, enHdr]; omega)) |>.trans (if_pos (by have := Bool.toNat_le x.h.n; have := x.h.g.isLt; have := x.h.s.isLt; have := x.hd.isLt; simp only [enHh, enHdr]; omega)))
    (congrArg Instr.accClrst (un_Hh x 126 1 4 (by decide) (by decide) (by decide) rfl)) rfl wf r
theorem accClrstL (x : Hh64) : Statement (.accClrstL x) := fun wf _ r =>
  have o := ops_Hh x.r 126 3 4 (w := enHh x.r 126 3 + 4194304) (by decide) (by decide) (by decide) rfl
  decode64 (v := x.i.toNat) (o := .accClrstL) (i := .accClrstL x) o.1 (BitVec.isLt _) o.2.1
    (op64_126 o.2.2 |>.trans (if_neg (by have := Bool.toNat_le x.r.h.n; have := x.r.h.g.isLt; have := x.r.h.s.isLt; have := x.r.hd.isLt; have := x.i.isLt; omega)) |>.trans (if_neg (by have := Bool.toNat_le x.r.h.n; have := x.r.h.g.isLt; have := x.r.h.s.isLt; have := x.r.hd.isLt; have := x.i.isLt; simp only [enHh, enHdr]; omega)) |>.trans (if_neg (by have := Bool.toNat_le x.r.h.n; have := x.r.h.g.isLt; have := x.r.h.s.isLt; have := x.r.hd.isLt; have := x.i.isLt; simp only [enHh, enHdr]; omega)) |>.trans (if_neg (by have := Bool.toNat_le x.r.h.n; have := x.r.h.g.isLt; have := x.r.h.s.isLt; have := x.r.hd.isLt; have := x.i.isLt; simp only [enHh, enHdr]; omega)) |>.trans (if_pos (by have := Bool.toNat_le x.r.h.n; have := x.r.h.g.isLt; have := x.r.h.s.isLt; have := x.r.hd.isLt; have := x.i.isLt; simp only [enHh, enHdr]; omega)))
    (mk2 (fun a b => Instr.accClrstL ⟨a, b⟩) (un_Hh x.r 126 3 4 (by decide) (by decide) (by decide) rfl) (ofNat_toNat32 x.i)) rfl wf r
theorem nop (x : H0) : Statement (.nop x) := fun wf _ r =>
  have o := ops_H0 x 127 1 0 (w := enH0 x 127 1) (by decide) (by decide) (by decide) rfl
  decode32 (o := .nop) (i := .nop x) o.1 o.2.1
    (op32_127 o.2.2 |>.trans (opExt32_0 (ext_H0 x 127 1 0 (by decide) (by decide) (by decide) rfl)) |>.trans (if_pos (zero_H0 x 127 1 0 (by decide) (by decide) (by decide) rfl)))
    (congrArg Instr.nop (un_H0 x 127 1 0 (by decide) (by decide) (by decide) rfl)) rfl wf r
theorem nopL (x : E64) : Statement (.nopL x) := fun wf _ r =>
  have o := ops_E64 x 127 3 0 (w := enE64 x 127 3) (by decide) (by decide) (by decide) rfl
  decode64 (v := enExt x) (o := .nopL) (i := .nopL x) o.1 (lt_Ext x) o.2.1
    (op64_127 o.2.2 |>.trans (opExt64_0 (ext_E64 x 127 3 0 (by decide) (by decide) (by decide) rfl)))
    (congrArg Instr.nopL (un_E64 x 127 3 0 rfl (by decide) (by decide) (by decide) rfl)) rfl wf r
theorem idivI (x : Ed) : Statement (.idivI x) := fun wf _ r =>
  have o := ops_Ed x 127 1 1 (w := enEd x 127 1 + 2097152) (by decide) (by decide) (by decide) rfl
  decode32 (o := .idivI) (i := .idivI x) o.1 o.2.1
    (op32_127 o.2.2 |>.trans (opExt32_1 (ext_Ed x 127 1 1 (by decide) (by decide) (by decide) rfl)))
    (congrArg Instr.idivI (un_Ed x 127 1 1 (by decide) (by decide) (by decide) rfl)) rfl wf r
theorem idivIL (x : E64) : Statement (.idivIL x) := fun wf _ r =>
  have o := ops_E64 x 127 3 1 (w := enE64 x 127 3 + 2097152) (by decide) (by decide) (by decide) rfl
  decode64 (v := enExt x) (o := .idivIL) (i := .idivIL x) o.1 (lt_Ext x) o.2.1
    (op64_127 o.2.2 |>.trans (opExt64_1 (ext_E64 x 127 3 1 (by decide) (by decide) (by decide) rfl)))
    (congrArg Instr.idivIL (un_E64 x 127 3 1 rfl (by decide) (by decide) (by decide) rfl)) rfl wf r
theorem idivN (x : Ed) : Statement (.idivN x) := fun wf _ r =>
  have o := ops_Ed x 127 1 2 (w := enEd x 127 1 + 4194304) (by decide) (by decide) (by decide) rfl
  decode32 (o := .idivN) (i := .idivN x) o.1 o.2.1
    (op32_127 o.2.2 |>.trans (opExt32_2 (ext_Ed x 127 1 2 (by decide) (by decide) (by decide) rfl)))
    (congrArg Instr.idivN (un_Ed x 127 1 2 (by decide) (by decide) (by decide) rfl)) rfl wf r
theorem idivNL (x : E64) : Statement (.idivNL x) := fun wf _ r =>
  have o := ops_E64 x 127 3 2 (w := enE64 x 127 3 + 4194304) (by decide) (by decide) (by decide) rfl
  decode64 (v := enExt x) (o := .idivNL) (i := .idivNL x) o.1 (lt_Ext x) o.2.1
    (op64_127 o.2.2 |>.trans (opExt64_2 (ext_E64 x 127 3 2 (by decide) (by decide) (by decide) rfl)))
    (congrArg Instr.idivNL (un_E64 x 127 3 2 rfl (by decide) (by decide) (by decide) rfl)) rfl wf r
theorem iremI (x : Ed) : Statement (.iremI x) := fun wf _ r =>
  have o := ops_Ed x 127 1 3 (w := enEd x 127 1 + 6291456) (by decide) (by decide) (by decide) rfl
  decode32 (o := .iremI) (i := .iremI x) o.1 o.2.1
    (op32_127 o.2.2 |>.trans (opExt32_3 (ext_Ed x 127 1 3 (by decide) (by decide) (by decide) rfl)))
    (congrArg Instr.iremI (un_Ed x 127 1 3 (by decide) (by decide) (by decide) rfl)) rfl wf r
theorem iremIL (x : E64) : Statement (.iremIL x) := fun wf _ r =>
  have o := ops_E64 x 127 3 3 (w := enE64 x 127 3 + 6291456) (by decide) (by decide) (by decide) rfl
  decode64 (v := enExt x) (o := .iremIL) (i := .iremIL x) o.1 (lt_Ext x) o.2.1
    (op64_127 o.2.2 |>.trans (opExt64_3 (ext_E64 x 127 3 3 (by decide) (by decide) (by decide) rfl)))
    (congrArg Instr.iremIL (un_E64 x 127 3 3 rfl (by decide) (by decide) (by decide) rfl)) rfl wf r
theorem iremN (x : Ed) : Statement (.iremN x) := fun wf _ r =>
  have o := ops_Ed x 127 1 4 (w := enEd x 127 1 + 8388608) (by decide) (by decide) (by decide) rfl
  decode32 (o := .iremN) (i := .iremN x) o.1 o.2.1
    (op32_127 o.2.2 |>.trans (opExt32_4 (ext_Ed x 127 1 4 (by decide) (by decide) (by decide) rfl)))
    (congrArg Instr.iremN (un_Ed x 127 1 4 (by decide) (by decide) (by decide) rfl)) rfl wf r
theorem iremNL (x : E64) : Statement (.iremNL x) := fun wf _ r =>
  have o := ops_E64 x 127 3 4 (w := enE64 x 127 3 + 8388608) (by decide) (by decide) (by decide) rfl
  decode64 (v := enExt x) (o := .iremNL) (i := .iremNL x) o.1 (lt_Ext x) o.2.1
    (op64_127 o.2.2 |>.trans (opExt64_4 (ext_E64 x 127 3 4 (by decide) (by decide) (by decide) rfl)))
    (congrArg Instr.iremNL (un_E64 x 127 3 4 rfl (by decide) (by decide) (by decide) rfl)) rfl wf r
theorem rotl (x : Ed) : Statement (.rotl x) := fun wf _ r =>
  have o := ops_Ed x 127 1 5 (w := enEd x 127 1 + 10485760) (by decide) (by decide) (by decide) rfl
  decode32 (o := .rotl) (i := .rotl x) o.1 o.2.1
    (op32_127 o.2.2 |>.trans (opExt32_5 (ext_Ed x 127 1 5 (by decide) (by decide) (by decide) rfl)))
    (congrArg Instr.rotl (un_Ed x 127 1 5 (by decide) (by decide) (by decide) rfl)) rfl wf r
theorem rotlL (x : E64) : Statement (.rotlL x) := fun wf _ r =>
  have o := ops_E64 x 127 3 5 (w := enE64 x 127 3 + 10485760) (by decide) (by decide) (by decide) rfl
  decode64 (v := enExt x) (o := .rotlL) (i := .rotlL x) o.1 (lt_Ext x) o.2.1
    (op64_127 o.2.2 |>.trans (opExt64_5 (ext_E64 x 127 3 5 (by decide) (by decide) (by decide) rfl)))
    (congrArg Instr.rotlL (un_E64 x 127 3 5 rfl (by decide) (by decide) (by decide) rfl)) rfl wf r
theorem brev (x : Ed) : Statement (.brev x) := fun wf _ r =>
  have o := ops_Ed x 127 1 6 (w := enEd x 127 1 + 12582912) (by decide) (by decide) (by decide) rfl
  decode32 (o := .brev) (i := .brev x) o.1 o.2.1
    (op32_127 o.2.2 |>.trans (opExt32_6 (ext_Ed x 127 1 6 (by decide) (by decide) (by decide) rfl)))
    (congrArg Instr.brev (un_Ed x 127 1 6 (by decide) (by decide) (by decide) rfl)) rfl wf r
theorem brevL (x : E64) : Statement (.brevL x) := fun wf _ r =>
  have o := ops_E64 x 127 3 6 (w := enE64 x 127 3 + 12582912) (by decide) (by decide) (by decide) rfl
  decode64 (v := enExt x) (o := .brevL) (i := .brevL x) o.1 (lt_Ext x) o.2.1
    (op64_127 o.2.2 |>.trans (opExt64_6 (ext_E64 x 127 3 6 (by decide) (by decide) (by decide) rfl)))
    (congrArg Instr.brevL (un_E64 x 127 3 6 rfl (by decide) (by decide) (by decide) rfl)) rfl wf r
theorem fcmpOrd (x : D1) : Statement (.fcmpOrd x) := fun wf _ r =>
  have o := ops_D1 x 127 1 7 (w := enD1 x 127 1 + 14680064) (by decide) (by decide) (by decide) rfl
  decode32 (o := .fcmpOrd) (i := .fcmpOrd x) o.1 o.2.1
    (op32_127 o.2.2 |>.trans (opExt32_7 (ext_D1 x 127 1 7 (by decide) (by decide) (by decide) rfl)) |>.trans (if_pos (zero_D1 x 127 1 7 (by decide) (by decide) (by decide) rfl)))
    (congrArg Instr.fcmpOrd (un_D1 x 127 1 7 (by decide) (by decide) (by decide) rfl)) rfl wf r
theorem fcmpOrdL (x : E64) : Statement (.fcmpOrdL x) := fun wf _ r =>
  have o := ops_E64 x 127 3 7 (w := enE64 x 127 3 + 14680064) (by decide) (by decide) (by decide) rfl
  decode64 (v := enExt x) (o := .fcmpOrdL) (i := .fcmpOrdL x) o.1 (lt_Ext x) o.2.1
    (op64_127 o.2.2 |>.trans (opExt64_7 (ext_E64 x 127 3 7 (by decide) (by decide) (by decide) rfl)))
    (congrArg Instr.fcmpOrdL (un_E64 x 127 3 7 rfl (by decide) (by decide) (by decide) rfl)) rfl wf r
theorem fcmpUnord (x : D1) : Statement (.fcmpUnord x) := fun wf _ r =>
  have o := ops_D1 x 127 1 8 (w := enD1 x 127 1 + 16777216) (by decide) (by decide) (by decide) rfl
  decode32 (o := .fcmpUnord) (i := .fcmpUnord x) o.1 o.2.1
    (op32_127 o.2.2 |>.trans (opExt32_8 (ext_D1 x 127 1 8 (by decide) (by decide) (by decide) rfl)) |>.trans (if_pos (zero_D1 x 127 1 8 (by decide) (by decide) (by decide) rfl)))
    (congrArg Instr.fcmpUnord (un_D1 x 127 1 8 (by decide) (by decide) (by decide) rfl)) rfl wf r
theorem fcmpUnordL (x : E64) : Statement (.fcmpUnordL x) := fun wf _ r =>
  have o := ops_E64 x 127 3 8 (w := enE64 x 127 3 + 16777216) (by decide) (by decide) (by decide) rfl
  decode64 (v := enExt x) (o := .fcmpUnordL) (i := .fcmpUnordL x) o.1 (lt_Ext x) o.2.1
    (op64_127 o.2.2 |>.trans (opExt64_8 (ext_E64 x 127 3 8 (by decide) (by decide) (by decide) rfl)))
    (congrArg Instr.fcmpUnordL (un_E64 x 127 3 8 rfl (by decide) (by decide) (by decide) rfl)) rfl wf r
theorem fclass (x : Ed) : Statement (.fclass x) := fun wf _ r =>
  have o := ops_Ed x 127 1 9 (w := enEd x 127 1 + 18874368) (by decide) (by decide) (by decide) rfl
  decode32 (o := .fclass) (i := .fclass x) o.1 o.2.1
    (op32_127 o.2.2 |>.trans (opExt32_9 (ext_Ed x 127 1 9 (by decide) (by decide) (by decide) rfl)))
    (congrArg Instr.fclass (un_Ed x 127 1 9 (by decide) (by decide) (by decide) rfl)) rfl wf r
theorem fclassL (x : E64) : Statement (.fclassL x) := fun wf _ r =>
  have o := ops_E64 x 127 3 9 (w := enE64 x 127 3 + 18874368) (by decide) (by decide) (by decide) rfl
  decode64 (v := enExt x) (o := .fclassL) (i := .fclassL x) o.1 (lt_Ext x) o.2.1
    (op64_127 o.2.2 |>.trans (opExt64_9 (ext_E64 x 127 3 9 (by decide) (by decide) (by decide) rfl)))
    (congrArg Instr.fclassL (un_E64 x 127 3 9 rfl (by decide) (by decide) (by decide) rfl)) rfl wf r
theorem frnd (x : Ed) : Statement (.frnd x) := fun wf _ r =>
  have o := ops_Ed x 127 1 10 (w := enEd x 127 1 + 20971520) (by decide) (by decide) (by decide) rfl
  decode32 (o := .frnd) (i := .frnd x) o.1 o.2.1
    (op32_127 o.2.2 |>.trans (opExt32_10 (ext_Ed x 127 1 10 (by decide) (by decide) (by decide) rfl)))
    (congrArg Instr.frnd (un_Ed x 127 1 10 (by decide) (by decide) (by decide) rfl)) rfl wf r
theorem frndL (x : E64) : Statement (.frndL x) := fun wf _ r =>
  have o := ops_E64 x 127 3 10 (w := enE64 x 127 3 + 20971520) (by decide) (by decide) (by decide) rfl
  decode64 (v := enExt x) (o := .frndL) (i := .frndL x) o.1 (lt_Ext x) o.2.1
    (op64_127 o.2.2 |>.trans (opExt64_10 (ext_E64 x 127 3 10 (by decide) (by decide) (by decide) rfl)))
    (congrArg Instr.frndL (un_E64 x 127 3 10 rfl (by decide) (by decide) (by decide) rfl)) rfl wf r
theorem fexp (x : Ed) : Statement (.fexp x) := fun wf _ r =>
  have o := ops_Ed x 127 1 11 (w := enEd x 127 1 + 23068672) (by decide) (by decide) (by decide) rfl
  decode32 (o := .fexp) (i := .fexp x) o.1 o.2.1
    (op32_127 o.2.2 |>.trans (opExt32_11 (ext_Ed x 127 1 11 (by decide) (by decide) (by decide) rfl)))
    (congrArg Instr.fexp (un_Ed x 127 1 11 (by decide) (by decide) (by decide) rfl)) rfl wf r
theorem fexpL (x : E64) : Statement (.fexpL x) := fun wf _ r =>
  have o := ops_E64 x 127 3 11 (w := enE64 x 127 3 + 23068672) (by decide) (by decide) (by decide) rfl
  decode64 (v := enExt x) (o := .fexpL) (i := .fexpL x) o.1 (lt_Ext x) o.2.1
    (op64_127 o.2.2 |>.trans (opExt64_11 (ext_E64 x 127 3 11 (by decide) (by decide) (by decide) rfl)))
    (congrArg Instr.fexpL (un_E64 x 127 3 11 rfl (by decide) (by decide) (by decide) rfl)) rfl wf r
theorem q2v (x : D1) : Statement (.q2v x) := fun wf _ r =>
  have o := ops_D1 x 127 1 64 (w := enD1 x 127 1 + 134217728) (by decide) (by decide) (by decide) rfl
  decode32 (o := .q2v) (i := .q2v x) o.1 o.2.1
    (op32_127 o.2.2 |>.trans (opExt32_64 (ext_D1 x 127 1 64 (by decide) (by decide) (by decide) rfl)) |>.trans (if_pos (zero_D1 x 127 1 64 (by decide) (by decide) (by decide) rfl)))
    (congrArg Instr.q2v (un_D1 x 127 1 64 (by decide) (by decide) (by decide) rfl)) rfl wf r
theorem q2vL (x : E64) : Statement (.q2vL x) := fun wf _ r =>
  have o := ops_E64 x 127 3 64 (w := enE64 x 127 3 + 134217728) (by decide) (by decide) (by decide) rfl
  decode64 (v := enExt x) (o := .q2vL) (i := .q2vL x) o.1 (lt_Ext x) o.2.1
    (op64_127 o.2.2 |>.trans (opExt64_64 (ext_E64 x 127 3 64 (by decide) (by decide) (by decide) rfl)))
    (congrArg Instr.q2vL (un_E64 x 127 3 64 rfl (by decide) (by decide) (by decide) rfl)) rfl wf r
theorem v2q (x : H0) : Statement (.v2q x) := fun wf _ r =>
  have o := ops_H0 x 127 1 65 (w := enH0 x 127 1 + 136314880) (by decide) (by decide) (by decide) rfl
  decode32 (o := .v2q) (i := .v2q x) o.1 o.2.1
    (op32_127 o.2.2 |>.trans (opExt32_65 (ext_H0 x 127 1 65 (by decide) (by decide) (by decide) rfl)) |>.trans (if_pos (zero_H0 x 127 1 65 (by decide) (by decide) (by decide) rfl)))
    (congrArg Instr.v2q (un_H0 x 127 1 65 (by decide) (by decide) (by decide) rfl)) rfl wf r
theorem v2qL (x : E64) : Statement (.v2qL x) := fun wf _ r =>
  have o := ops_E64 x 127 3 65 (w := enE64 x 127 3 + 136314880) (by decide) (by decide) (by decide) rfl
  decode64 (v := enExt x) (o := .v2qL) (i := .v2qL x) o.1 (lt_Ext x) o.2.1
    (op64_127 o.2.2 |>.trans (opExt64_65 (ext_E64 x 127 3 65 (by decide) (by decide) (by decide) rfl)))
    (congrArg Instr.v2qL (un_E64 x 127 3 65 rfl (by decide) (by decide) (by decide) rfl)) rfl wf r
theorem qpop (x : Ed) : Statement (.qpop x) := fun wf _ r =>
  have o := ops_Ed x 127 1 66 (w := enEd x 127 1 + 138412032) (by decide) (by decide) (by decide) rfl
  decode32 (o := .qpop) (i := .qpop x) o.1 o.2.1
    (op32_127 o.2.2 |>.trans (opExt32_66 (ext_Ed x 127 1 66 (by decide) (by decide) (by decide) rfl)))
    (congrArg Instr.qpop (un_Ed x 127 1 66 (by decide) (by decide) (by decide) rfl)) rfl wf r
theorem qpopL (x : E64) : Statement (.qpopL x) := fun wf _ r =>
  have o := ops_E64 x 127 3 66 (w := enE64 x 127 3 + 138412032) (by decide) (by decide) (by decide) rfl
  decode64 (v := enExt x) (o := .qpopL) (i := .qpopL x) o.1 (lt_Ext x) o.2.1
    (op64_127 o.2.2 |>.trans (opExt64_66 (ext_E64 x 127 3 66 (by decide) (by decide) (by decide) rfl)))
    (congrArg Instr.qpopL (un_E64 x 127 3 66 rfl (by decide) (by decide) (by decide) rfl)) rfl wf r
theorem pfirst (x : D1) : Statement (.pfirst x) := fun wf _ r =>
  have o := ops_D1 x 127 1 67 (w := enD1 x 127 1 + 140509184) (by decide) (by decide) (by decide) rfl
  decode32 (o := .pfirst) (i := .pfirst x) o.1 o.2.1
    (op32_127 o.2.2 |>.trans (opExt32_67 (ext_D1 x 127 1 67 (by decide) (by decide) (by decide) rfl)) |>.trans (if_pos (zero_D1 x 127 1 67 (by decide) (by decide) (by decide) rfl)))
    (congrArg Instr.pfirst (un_D1 x 127 1 67 (by decide) (by decide) (by decide) rfl)) rfl wf r
theorem pfirstL (x : E64) : Statement (.pfirstL x) := fun wf _ r =>
  have o := ops_E64 x 127 3 67 (w := enE64 x 127 3 + 140509184) (by decide) (by decide) (by decide) rfl
  decode64 (v := enExt x) (o := .pfirstL) (i := .pfirstL x) o.1 (lt_Ext x) o.2.1
    (op64_127 o.2.2 |>.trans (opExt64_67 (ext_E64 x 127 3 67 (by decide) (by decide) (by decide) rfl)))
    (congrArg Instr.pfirstL (un_E64 x 127 3 67 rfl (by decide) (by decide) (by decide) rfl)) rfl wf r
theorem pany (x : D1) : Statement (.pany x) := fun wf _ r =>
  have o := ops_D1 x 127 1 68 (w := enD1 x 127 1 + 142606336) (by decide) (by decide) (by decide) rfl
  decode32 (o := .pany) (i := .pany x) o.1 o.2.1
    (op32_127 o.2.2 |>.trans (opExt32_68 (ext_D1 x 127 1 68 (by decide) (by decide) (by decide) rfl)) |>.trans (if_pos (zero_D1 x 127 1 68 (by decide) (by decide) (by decide) rfl)))
    (congrArg Instr.pany (un_D1 x 127 1 68 (by decide) (by decide) (by decide) rfl)) rfl wf r
theorem panyL (x : E64) : Statement (.panyL x) := fun wf _ r =>
  have o := ops_E64 x 127 3 68 (w := enE64 x 127 3 + 142606336) (by decide) (by decide) (by decide) rfl
  decode64 (v := enExt x) (o := .panyL) (i := .panyL x) o.1 (lt_Ext x) o.2.1
    (op64_127 o.2.2 |>.trans (opExt64_68 (ext_E64 x 127 3 68 (by decide) (by decide) (by decide) rfl)))
    (congrArg Instr.panyL (un_E64 x 127 3 68 rfl (by decide) (by decide) (by decide) rfl)) rfl wf r
theorem pall (x : D1) : Statement (.pall x) := fun wf _ r =>
  have o := ops_D1 x 127 1 69 (w := enD1 x 127 1 + 144703488) (by decide) (by decide) (by decide) rfl
  decode32 (o := .pall) (i := .pall x) o.1 o.2.1
    (op32_127 o.2.2 |>.trans (opExt32_69 (ext_D1 x 127 1 69 (by decide) (by decide) (by decide) rfl)) |>.trans (if_pos (zero_D1 x 127 1 69 (by decide) (by decide) (by decide) rfl)))
    (congrArg Instr.pall (un_D1 x 127 1 69 (by decide) (by decide) (by decide) rfl)) rfl wf r
theorem pallL (x : E64) : Statement (.pallL x) := fun wf _ r =>
  have o := ops_E64 x 127 3 69 (w := enE64 x 127 3 + 144703488) (by decide) (by decide) (by decide) rfl
  decode64 (v := enExt x) (o := .pallL) (i := .pallL x) o.1 (lt_Ext x) o.2.1
    (op64_127 o.2.2 |>.trans (opExt64_69 (ext_E64 x 127 3 69 (by decide) (by decide) (by decide) rfl)))
    (congrArg Instr.pallL (un_E64 x 127 3 69 rfl (by decide) (by decide) (by decide) rfl)) rfl wf r
theorem pmask (x : Ed) : Statement (.pmask x) := fun wf _ r =>
  have o := ops_Ed x 127 1 70 (w := enEd x 127 1 + 146800640) (by decide) (by decide) (by decide) rfl
  decode32 (o := .pmask) (i := .pmask x) o.1 o.2.1
    (op32_127 o.2.2 |>.trans (opExt32_70 (ext_Ed x 127 1 70 (by decide) (by decide) (by decide) rfl)))
    (congrArg Instr.pmask (un_Ed x 127 1 70 (by decide) (by decide) (by decide) rfl)) rfl wf r
theorem pmaskL (x : E64) : Statement (.pmaskL x) := fun wf _ r =>
  have o := ops_E64 x 127 3 70 (w := enE64 x 127 3 + 146800640) (by decide) (by decide) (by decide) rfl
  decode64 (v := enExt x) (o := .pmaskL) (i := .pmaskL x) o.1 (lt_Ext x) o.2.1
    (op64_127 o.2.2 |>.trans (opExt64_70 (ext_E64 x 127 3 70 (by decide) (by decide) (by decide) rfl)))
    (congrArg Instr.pmaskL (un_E64 x 127 3 70 rfl (by decide) (by decide) (by decide) rfl)) rfl wf r
theorem xgetAt (x : D1) : Statement (.xgetAt x) := fun wf _ r =>
  have o := ops_D1 x 127 1 71 (w := enD1 x 127 1 + 148897792) (by decide) (by decide) (by decide) rfl
  decode32 (o := .xgetAt) (i := .xgetAt x) o.1 o.2.1
    (op32_127 o.2.2 |>.trans (opExt32_71 (ext_D1 x 127 1 71 (by decide) (by decide) (by decide) rfl)) |>.trans (if_pos (zero_D1 x 127 1 71 (by decide) (by decide) (by decide) rfl)))
    (congrArg Instr.xgetAt (un_D1 x 127 1 71 (by decide) (by decide) (by decide) rfl)) rfl wf r
theorem xgetAtL (x : E64) : Statement (.xgetAtL x) := fun wf _ r =>
  have o := ops_E64 x 127 3 71 (w := enE64 x 127 3 + 148897792) (by decide) (by decide) (by decide) rfl
  decode64 (v := enExt x) (o := .xgetAtL) (i := .xgetAtL x) o.1 (lt_Ext x) o.2.1
    (op64_127 o.2.2 |>.trans (opExt64_71 (ext_E64 x 127 3 71 (by decide) (by decide) (by decide) rfl)))
    (congrArg Instr.xgetAtL (un_E64 x 127 3 71 rfl (by decide) (by decide) (by decide) rfl)) rfl wf r
theorem xgetFlip (x : D1) : Statement (.xgetFlip x) := fun wf _ r =>
  have o := ops_D1 x 127 1 72 (w := enD1 x 127 1 + 150994944) (by decide) (by decide) (by decide) rfl
  decode32 (o := .xgetFlip) (i := .xgetFlip x) o.1 o.2.1
    (op32_127 o.2.2 |>.trans (opExt32_72 (ext_D1 x 127 1 72 (by decide) (by decide) (by decide) rfl)) |>.trans (if_pos (zero_D1 x 127 1 72 (by decide) (by decide) (by decide) rfl)))
    (congrArg Instr.xgetFlip (un_D1 x 127 1 72 (by decide) (by decide) (by decide) rfl)) rfl wf r
theorem xgetFlipL (x : E64) : Statement (.xgetFlipL x) := fun wf _ r =>
  have o := ops_E64 x 127 3 72 (w := enE64 x 127 3 + 150994944) (by decide) (by decide) (by decide) rfl
  decode64 (v := enExt x) (o := .xgetFlipL) (i := .xgetFlipL x) o.1 (lt_Ext x) o.2.1
    (op64_127 o.2.2 |>.trans (opExt64_72 (ext_E64 x 127 3 72 (by decide) (by decide) (by decide) rfl)))
    (congrArg Instr.xgetFlipL (un_E64 x 127 3 72 rfl (by decide) (by decide) (by decide) rfl)) rfl wf r
theorem xgetStep (x : D1) : Statement (.xgetStep x) := fun wf _ r =>
  have o := ops_D1 x 127 1 73 (w := enD1 x 127 1 + 153092096) (by decide) (by decide) (by decide) rfl
  decode32 (o := .xgetStep) (i := .xgetStep x) o.1 o.2.1
    (op32_127 o.2.2 |>.trans (opExt32_73 (ext_D1 x 127 1 73 (by decide) (by decide) (by decide) rfl)) |>.trans (if_pos (zero_D1 x 127 1 73 (by decide) (by decide) (by decide) rfl)))
    (congrArg Instr.xgetStep (un_D1 x 127 1 73 (by decide) (by decide) (by decide) rfl)) rfl wf r
theorem xgetStepL (x : E64) : Statement (.xgetStepL x) := fun wf _ r =>
  have o := ops_E64 x 127 3 73 (w := enE64 x 127 3 + 153092096) (by decide) (by decide) (by decide) rfl
  decode64 (v := enExt x) (o := .xgetStepL) (i := .xgetStepL x) o.1 (lt_Ext x) o.2.1
    (op64_127 o.2.2 |>.trans (opExt64_73 (ext_E64 x 127 3 73 (by decide) (by decide) (by decide) rfl)))
    (congrArg Instr.xgetStepL (un_E64 x 127 3 73 rfl (by decide) (by decide) (by decide) rfl)) rfl wf r
theorem xgetRot (x : D1) : Statement (.xgetRot x) := fun wf _ r =>
  have o := ops_D1 x 127 1 74 (w := enD1 x 127 1 + 155189248) (by decide) (by decide) (by decide) rfl
  decode32 (o := .xgetRot) (i := .xgetRot x) o.1 o.2.1
    (op32_127 o.2.2 |>.trans (opExt32_74 (ext_D1 x 127 1 74 (by decide) (by decide) (by decide) rfl)) |>.trans (if_pos (zero_D1 x 127 1 74 (by decide) (by decide) (by decide) rfl)))
    (congrArg Instr.xgetRot (un_D1 x 127 1 74 (by decide) (by decide) (by decide) rfl)) rfl wf r
theorem xgetRotL (x : E64) : Statement (.xgetRotL x) := fun wf _ r =>
  have o := ops_E64 x 127 3 74 (w := enE64 x 127 3 + 155189248) (by decide) (by decide) (by decide) rfl
  decode64 (v := enExt x) (o := .xgetRotL) (i := .xgetRotL x) o.1 (lt_Ext x) o.2.1
    (op64_127 o.2.2 |>.trans (opExt64_74 (ext_E64 x 127 3 74 (by decide) (by decide) (by decide) rfl)))
    (congrArg Instr.xgetRotL (un_E64 x 127 3 74 rfl (by decide) (by decide) (by decide) rfl)) rfl wf r
theorem cnvq (x : H0) : Statement (.cnvq x) := fun wf _ r =>
  have o := ops_H0 x 127 1 75 (w := enH0 x 127 1 + 157286400) (by decide) (by decide) (by decide) rfl
  decode32 (o := .cnvq) (i := .cnvq x) o.1 o.2.1
    (op32_127 o.2.2 |>.trans (opExt32_75 (ext_H0 x 127 1 75 (by decide) (by decide) (by decide) rfl)) |>.trans (if_pos (zero_H0 x 127 1 75 (by decide) (by decide) (by decide) rfl)))
    (congrArg Instr.cnvq (un_H0 x 127 1 75 (by decide) (by decide) (by decide) rfl)) rfl wf r
theorem cnvqL (x : E64) : Statement (.cnvqL x) := fun wf _ r =>
  have o := ops_E64 x 127 3 75 (w := enE64 x 127 3 + 157286400) (by decide) (by decide) (by decide) rfl
  decode64 (v := enExt x) (o := .cnvqL) (i := .cnvqL x) o.1 (lt_Ext x) o.2.1
    (op64_127 o.2.2 |>.trans (opExt64_75 (ext_E64 x 127 3 75 (by decide) (by decide) (by decide) rfl)))
    (congrArg Instr.cnvqL (un_E64 x 127 3 75 rfl (by decide) (by decide) (by decide) rfl)) rfl wf r
theorem waitn (x : H0) : Statement (.waitn x) := fun wf _ r =>
  have o := ops_H0 x 127 1 128 (w := enH0 x 127 1 + 268435456) (by decide) (by decide) (by decide) rfl
  decode32 (o := .waitn) (i := .waitn x) o.1 o.2.1
    (op32_127 o.2.2 |>.trans (opExt32_128 (ext_H0 x 127 1 128 (by decide) (by decide) (by decide) rfl)) |>.trans (if_pos (zero_H0 x 127 1 128 (by decide) (by decide) (by decide) rfl)))
    (congrArg Instr.waitn (un_H0 x 127 1 128 (by decide) (by decide) (by decide) rfl)) rfl wf r
theorem waitnL (x : E64) : Statement (.waitnL x) := fun wf _ r =>
  have o := ops_E64 x 127 3 128 (w := enE64 x 127 3 + 268435456) (by decide) (by decide) (by decide) rfl
  decode64 (v := enExt x) (o := .waitnL) (i := .waitnL x) o.1 (lt_Ext x) o.2.1
    (op64_127 o.2.2 |>.trans (opExt64_128 (ext_E64 x 127 3 128 (by decide) (by decide) (by decide) rfl)))
    (congrArg Instr.waitnL (un_E64 x 127 3 128 rfl (by decide) (by decide) (by decide) rfl)) rfl wf r
theorem setg (x : H0) : Statement (.setg x) := fun wf _ r =>
  have o := ops_H0 x 127 1 129 (w := enH0 x 127 1 + 270532608) (by decide) (by decide) (by decide) rfl
  decode32 (o := .setg) (i := .setg x) o.1 o.2.1
    (op32_127 o.2.2 |>.trans (opExt32_129 (ext_H0 x 127 1 129 (by decide) (by decide) (by decide) rfl)) |>.trans (if_pos (zero_H0 x 127 1 129 (by decide) (by decide) (by decide) rfl)))
    (congrArg Instr.setg (un_H0 x 127 1 129 (by decide) (by decide) (by decide) rfl)) rfl wf r
theorem setgL (x : E64) : Statement (.setgL x) := fun wf _ r =>
  have o := ops_E64 x 127 3 129 (w := enE64 x 127 3 + 270532608) (by decide) (by decide) (by decide) rfl
  decode64 (v := enExt x) (o := .setgL) (i := .setgL x) o.1 (lt_Ext x) o.2.1
    (op64_127 o.2.2 |>.trans (opExt64_129 (ext_E64 x 127 3 129 (by decide) (by decide) (by decide) rfl)))
    (congrArg Instr.setgL (un_E64 x 127 3 129 rfl (by decide) (by decide) (by decide) rfl)) rfl wf r
theorem clrg (x : H0) : Statement (.clrg x) := fun wf _ r =>
  have o := ops_H0 x 127 1 130 (w := enH0 x 127 1 + 272629760) (by decide) (by decide) (by decide) rfl
  decode32 (o := .clrg) (i := .clrg x) o.1 o.2.1
    (op32_127 o.2.2 |>.trans (opExt32_130 (ext_H0 x 127 1 130 (by decide) (by decide) (by decide) rfl)) |>.trans (if_pos (zero_H0 x 127 1 130 (by decide) (by decide) (by decide) rfl)))
    (congrArg Instr.clrg (un_H0 x 127 1 130 (by decide) (by decide) (by decide) rfl)) rfl wf r
theorem clrgL (x : E64) : Statement (.clrgL x) := fun wf _ r =>
  have o := ops_E64 x 127 3 130 (w := enE64 x 127 3 + 272629760) (by decide) (by decide) (by decide) rfl
  decode64 (v := enExt x) (o := .clrgL) (i := .clrgL x) o.1 (lt_Ext x) o.2.1
    (op64_127 o.2.2 |>.trans (opExt64_130 (ext_E64 x 127 3 130 (by decide) (by decide) (by decide) rfl)))
    (congrArg Instr.clrgL (un_E64 x 127 3 130 rfl (by decide) (by decide) (by decide) rfl)) rfl wf r
theorem alw (x : Ed) : Statement (.alw x) := fun wf _ r =>
  have o := ops_Ed x 127 1 131 (w := enEd x 127 1 + 274726912) (by decide) (by decide) (by decide) rfl
  decode32 (o := .alw) (i := .alw x) o.1 o.2.1
    (op32_127 o.2.2 |>.trans (opExt32_131 (ext_Ed x 127 1 131 (by decide) (by decide) (by decide) rfl)))
    (congrArg Instr.alw (un_Ed x 127 1 131 (by decide) (by decide) (by decide) rfl)) rfl wf r
theorem alwL (x : E64) : Statement (.alwL x) := fun wf _ r =>
  have o := ops_E64 x 127 3 131 (w := enE64 x 127 3 + 274726912) (by decide) (by decide) (by decide) rfl
  decode64 (v := enExt x) (o := .alwL) (i := .alwL x) o.1 (lt_Ext x) o.2.1
    (op64_127 o.2.2 |>.trans (opExt64_131 (ext_E64 x 127 3 131 (by decide) (by decide) (by decide) rfl)))
    (congrArg Instr.alwL (un_E64 x 127 3 131 rfl (by decide) (by decide) (by decide) rfl)) rfl wf r
theorem mapget (x : Ed) : Statement (.mapget x) := fun wf _ r =>
  have o := ops_Ed x 127 1 132 (w := enEd x 127 1 + 276824064) (by decide) (by decide) (by decide) rfl
  decode32 (o := .mapget) (i := .mapget x) o.1 o.2.1
    (op32_127 o.2.2 |>.trans (opExt32_132 (ext_Ed x 127 1 132 (by decide) (by decide) (by decide) rfl)))
    (congrArg Instr.mapget (un_Ed x 127 1 132 (by decide) (by decide) (by decide) rfl)) rfl wf r
theorem mapgetL (x : E64) : Statement (.mapgetL x) := fun wf _ r =>
  have o := ops_E64 x 127 3 132 (w := enE64 x 127 3 + 276824064) (by decide) (by decide) (by decide) rfl
  decode64 (v := enExt x) (o := .mapgetL) (i := .mapgetL x) o.1 (lt_Ext x) o.2.1
    (op64_127 o.2.2 |>.trans (opExt64_132 (ext_E64 x 127 3 132 (by decide) (by decide) (by decide) rfl)))
    (congrArg Instr.mapgetL (un_E64 x 127 3 132 rfl (by decide) (by decide) (by decide) rfl)) rfl wf r
theorem mapput (x : H0) : Statement (.mapput x) := fun wf _ r =>
  have o := ops_H0 x 127 1 133 (w := enH0 x 127 1 + 278921216) (by decide) (by decide) (by decide) rfl
  decode32 (o := .mapput) (i := .mapput x) o.1 o.2.1
    (op32_127 o.2.2 |>.trans (opExt32_133 (ext_H0 x 127 1 133 (by decide) (by decide) (by decide) rfl)) |>.trans (if_pos (zero_H0 x 127 1 133 (by decide) (by decide) (by decide) rfl)))
    (congrArg Instr.mapput (un_H0 x 127 1 133 (by decide) (by decide) (by decide) rfl)) rfl wf r
theorem mapputL (x : E64) : Statement (.mapputL x) := fun wf _ r =>
  have o := ops_E64 x 127 3 133 (w := enE64 x 127 3 + 278921216) (by decide) (by decide) (by decide) rfl
  decode64 (v := enExt x) (o := .mapputL) (i := .mapputL x) o.1 (lt_Ext x) o.2.1
    (op64_127 o.2.2 |>.trans (opExt64_133 (ext_E64 x 127 3 133 (by decide) (by decide) (by decide) rfl)))
    (congrArg Instr.mapputL (un_E64 x 127 3 133 rfl (by decide) (by decide) (by decide) rfl)) rfl wf r
theorem hget (x : D1) : Statement (.hget x) := fun wf _ r =>
  have o := ops_D1 x 127 1 134 (w := enD1 x 127 1 + 281018368) (by decide) (by decide) (by decide) rfl
  decode32 (o := .hget) (i := .hget x) o.1 o.2.1
    (op32_127 o.2.2 |>.trans (opExt32_134 (ext_D1 x 127 1 134 (by decide) (by decide) (by decide) rfl)) |>.trans (if_pos (zero_D1 x 127 1 134 (by decide) (by decide) (by decide) rfl)))
    (congrArg Instr.hget (un_D1 x 127 1 134 (by decide) (by decide) (by decide) rfl)) rfl wf r
theorem hgetL (x : E64) : Statement (.hgetL x) := fun wf _ r =>
  have o := ops_E64 x 127 3 134 (w := enE64 x 127 3 + 281018368) (by decide) (by decide) (by decide) rfl
  decode64 (v := enExt x) (o := .hgetL) (i := .hgetL x) o.1 (lt_Ext x) o.2.1
    (op64_127 o.2.2 |>.trans (opExt64_134 (ext_E64 x 127 3 134 (by decide) (by decide) (by decide) rfl)))
    (congrArg Instr.hgetL (un_E64 x 127 3 134 rfl (by decide) (by decide) (by decide) rfl)) rfl wf r
theorem lget (x : Ed) : Statement (.lget x) := fun wf _ r =>
  have o := ops_Ed x 127 1 192 (w := enEd x 127 1 + 402653184) (by decide) (by decide) (by decide) rfl
  decode32 (o := .lget) (i := .lget x) o.1 o.2.1
    (op32_127 o.2.2 |>.trans (opExt32_192 (ext_Ed x 127 1 192 (by decide) (by decide) (by decide) rfl)))
    (congrArg Instr.lget (un_Ed x 127 1 192 (by decide) (by decide) (by decide) rfl)) rfl wf r
theorem lgetL (x : E64) : Statement (.lgetL x) := fun wf _ r =>
  have o := ops_E64 x 127 3 192 (w := enE64 x 127 3 + 402653184) (by decide) (by decide) (by decide) rfl
  decode64 (v := enExt x) (o := .lgetL) (i := .lgetL x) o.1 (lt_Ext x) o.2.1
    (op64_127 o.2.2 |>.trans (opExt64_192 (ext_E64 x 127 3 192 (by decide) (by decide) (by decide) rfl)))
    (congrArg Instr.lgetL (un_E64 x 127 3 192 rfl (by decide) (by decide) (by decide) rfl)) rfl wf r
theorem lput (x : H0) : Statement (.lput x) := fun wf _ r =>
  have o := ops_H0 x 127 1 193 (w := enH0 x 127 1 + 404750336) (by decide) (by decide) (by decide) rfl
  decode32 (o := .lput) (i := .lput x) o.1 o.2.1
    (op32_127 o.2.2 |>.trans (opExt32_193 (ext_H0 x 127 1 193 (by decide) (by decide) (by decide) rfl)) |>.trans (if_pos (zero_H0 x 127 1 193 (by decide) (by decide) (by decide) rfl)))
    (congrArg Instr.lput (un_H0 x 127 1 193 (by decide) (by decide) (by decide) rfl)) rfl wf r
theorem lputL (x : E64) : Statement (.lputL x) := fun wf _ r =>
  have o := ops_E64 x 127 3 193 (w := enE64 x 127 3 + 404750336) (by decide) (by decide) (by decide) rfl
  decode64 (v := enExt x) (o := .lputL) (i := .lputL x) o.1 (lt_Ext x) o.2.1
    (op64_127 o.2.2 |>.trans (opExt64_193 (ext_E64 x 127 3 193 (by decide) (by decide) (by decide) rfl)))
    (congrArg Instr.lputL (un_E64 x 127 3 193 rfl (by decide) (by decide) (by decide) rfl)) rfl wf r
theorem csrr (x : Ed) : Statement (.csrr x) := fun wf _ r =>
  have o := ops_Ed x 127 1 256 (w := enEd x 127 1 + 536870912) (by decide) (by decide) (by decide) rfl
  decode32 (o := .csrr) (i := .csrr x) o.1 o.2.1
    (op32_127 o.2.2 |>.trans (opExt32_256 (ext_Ed x 127 1 256 (by decide) (by decide) (by decide) rfl)))
    (congrArg Instr.csrr (un_Ed x 127 1 256 (by decide) (by decide) (by decide) rfl)) rfl wf r
theorem csrrL (x : E64) : Statement (.csrrL x) := fun wf _ r =>
  have o := ops_E64 x 127 3 256 (w := enE64 x 127 3 + 536870912) (by decide) (by decide) (by decide) rfl
  decode64 (v := enExt x) (o := .csrrL) (i := .csrrL x) o.1 (lt_Ext x) o.2.1
    (op64_127 o.2.2 |>.trans (opExt64_256 (ext_E64 x 127 3 256 (by decide) (by decide) (by decide) rfl)))
    (congrArg Instr.csrrL (un_E64 x 127 3 256 rfl (by decide) (by decide) (by decide) rfl)) rfl wf r
theorem csrw (x : H0) : Statement (.csrw x) := fun wf _ r =>
  have o := ops_H0 x 127 1 257 (w := enH0 x 127 1 + 538968064) (by decide) (by decide) (by decide) rfl
  decode32 (o := .csrw) (i := .csrw x) o.1 o.2.1
    (op32_127 o.2.2 |>.trans (opExt32_257 (ext_H0 x 127 1 257 (by decide) (by decide) (by decide) rfl)) |>.trans (if_pos (zero_H0 x 127 1 257 (by decide) (by decide) (by decide) rfl)))
    (congrArg Instr.csrw (un_H0 x 127 1 257 (by decide) (by decide) (by decide) rfl)) rfl wf r
theorem csrwL (x : E64) : Statement (.csrwL x) := fun wf _ r =>
  have o := ops_E64 x 127 3 257 (w := enE64 x 127 3 + 538968064) (by decide) (by decide) (by decide) rfl
  decode64 (v := enExt x) (o := .csrwL) (i := .csrwL x) o.1 (lt_Ext x) o.2.1
    (op64_127 o.2.2 |>.trans (opExt64_257 (ext_E64 x 127 3 257 (by decide) (by decide) (by decide) rfl)))
    (congrArg Instr.csrwL (un_E64 x 127 3 257 rfl (by decide) (by decide) (by decide) rfl)) rfl wf r
theorem csrs (x : H0) : Statement (.csrs x) := fun wf _ r =>
  have o := ops_H0 x 127 1 258 (w := enH0 x 127 1 + 541065216) (by decide) (by decide) (by decide) rfl
  decode32 (o := .csrs) (i := .csrs x) o.1 o.2.1
    (op32_127 o.2.2 |>.trans (opExt32_258 (ext_H0 x 127 1 258 (by decide) (by decide) (by decide) rfl)) |>.trans (if_pos (zero_H0 x 127 1 258 (by decide) (by decide) (by decide) rfl)))
    (congrArg Instr.csrs (un_H0 x 127 1 258 (by decide) (by decide) (by decide) rfl)) rfl wf r
theorem csrsL (x : E64) : Statement (.csrsL x) := fun wf _ r =>
  have o := ops_E64 x 127 3 258 (w := enE64 x 127 3 + 541065216) (by decide) (by decide) (by decide) rfl
  decode64 (v := enExt x) (o := .csrsL) (i := .csrsL x) o.1 (lt_Ext x) o.2.1
    (op64_127 o.2.2 |>.trans (opExt64_258 (ext_E64 x 127 3 258 (by decide) (by decide) (by decide) rfl)))
    (congrArg Instr.csrsL (un_E64 x 127 3 258 rfl (by decide) (by decide) (by decide) rfl)) rfl wf r
theorem csrc (x : H0) : Statement (.csrc x) := fun wf _ r =>
  have o := ops_H0 x 127 1 259 (w := enH0 x 127 1 + 543162368) (by decide) (by decide) (by decide) rfl
  decode32 (o := .csrc) (i := .csrc x) o.1 o.2.1
    (op32_127 o.2.2 |>.trans (opExt32_259 (ext_H0 x 127 1 259 (by decide) (by decide) (by decide) rfl)) |>.trans (if_pos (zero_H0 x 127 1 259 (by decide) (by decide) (by decide) rfl)))
    (congrArg Instr.csrc (un_H0 x 127 1 259 (by decide) (by decide) (by decide) rfl)) rfl wf r
theorem csrcL (x : E64) : Statement (.csrcL x) := fun wf _ r =>
  have o := ops_E64 x 127 3 259 (w := enE64 x 127 3 + 543162368) (by decide) (by decide) (by decide) rfl
  decode64 (v := enExt x) (o := .csrcL) (i := .csrcL x) o.1 (lt_Ext x) o.2.1
    (op64_127 o.2.2 |>.trans (opExt64_259 (ext_E64 x 127 3 259 (by decide) (by decide) (by decide) rfl)))
    (congrArg Instr.csrcL (un_E64 x 127 3 259 rfl (by decide) (by decide) (by decide) rfl)) rfl wf r
theorem tret (x : H0) : Statement (.tret x) := fun wf _ r =>
  have o := ops_H0 x 127 1 260 (w := enH0 x 127 1 + 545259520) (by decide) (by decide) (by decide) rfl
  decode32 (o := .tret) (i := .tret x) o.1 o.2.1
    (op32_127 o.2.2 |>.trans (opExt32_260 (ext_H0 x 127 1 260 (by decide) (by decide) (by decide) rfl)) |>.trans (if_pos (zero_H0 x 127 1 260 (by decide) (by decide) (by decide) rfl)))
    (congrArg Instr.tret (un_H0 x 127 1 260 (by decide) (by decide) (by decide) rfl)) rfl wf r
theorem tretL (x : E64) : Statement (.tretL x) := fun wf _ r =>
  have o := ops_E64 x 127 3 260 (w := enE64 x 127 3 + 545259520) (by decide) (by decide) (by decide) rfl
  decode64 (v := enExt x) (o := .tretL) (i := .tretL x) o.1 (lt_Ext x) o.2.1
    (op64_127 o.2.2 |>.trans (opExt64_260 (ext_E64 x 127 3 260 (by decide) (by decide) (by decide) rfl)))
    (congrArg Instr.tretL (un_E64 x 127 3 260 rfl (by decide) (by decide) (by decide) rfl)) rfl wf r
theorem halt (x : H0) : Statement (.halt x) := fun wf _ r =>
  have o := ops_H0 x 127 1 261 (w := enH0 x 127 1 + 547356672) (by decide) (by decide) (by decide) rfl
  decode32 (o := .halt) (i := .halt x) o.1 o.2.1
    (op32_127 o.2.2 |>.trans (opExt32_261 (ext_H0 x 127 1 261 (by decide) (by decide) (by decide) rfl)) |>.trans (if_pos (zero_H0 x 127 1 261 (by decide) (by decide) (by decide) rfl)))
    (congrArg Instr.halt (un_H0 x 127 1 261 (by decide) (by decide) (by decide) rfl)) rfl wf r
theorem haltL (x : E64) : Statement (.haltL x) := fun wf _ r =>
  have o := ops_E64 x 127 3 261 (w := enE64 x 127 3 + 547356672) (by decide) (by decide) (by decide) rfl
  decode64 (v := enExt x) (o := .haltL) (i := .haltL x) o.1 (lt_Ext x) o.2.1
    (op64_127 o.2.2 |>.trans (opExt64_261 (ext_E64 x 127 3 261 (by decide) (by decide) (by decide) rfl)))
    (congrArg Instr.haltL (un_E64 x 127 3 261 rfl (by decide) (by decide) (by decide) rfl)) rfl wf r
theorem icinv (x : H0) : Statement (.icinv x) := fun wf _ r =>
  have o := ops_H0 x 127 1 262 (w := enH0 x 127 1 + 549453824) (by decide) (by decide) (by decide) rfl
  decode32 (o := .icinv) (i := .icinv x) o.1 o.2.1
    (op32_127 o.2.2 |>.trans (opExt32_262 (ext_H0 x 127 1 262 (by decide) (by decide) (by decide) rfl)) |>.trans (if_pos (zero_H0 x 127 1 262 (by decide) (by decide) (by decide) rfl)))
    (congrArg Instr.icinv (un_H0 x 127 1 262 (by decide) (by decide) (by decide) rfl)) rfl wf r
theorem icinvL (x : E64) : Statement (.icinvL x) := fun wf _ r =>
  have o := ops_E64 x 127 3 262 (w := enE64 x 127 3 + 549453824) (by decide) (by decide) (by decide) rfl
  decode64 (v := enExt x) (o := .icinvL) (i := .icinvL x) o.1 (lt_Ext x) o.2.1
    (op64_127 o.2.2 |>.trans (opExt64_262 (ext_E64 x 127 3 262 (by decide) (by decide) (by decide) rfl)))
    (congrArg Instr.icinvL (un_E64 x 127 3 262 rfl (by decide) (by decide) (by decide) rfl)) rfl wf r
theorem tlbinvPage (x : H0) : Statement (.tlbinvPage x) := fun wf _ r =>
  have o := ops_H0 x 127 1 263 (w := enH0 x 127 1 + 551550976) (by decide) (by decide) (by decide) rfl
  decode32 (o := .tlbinvPage) (i := .tlbinvPage x) o.1 o.2.1
    (op32_127 o.2.2 |>.trans (opExt32_263 (ext_H0 x 127 1 263 (by decide) (by decide) (by decide) rfl)) |>.trans (if_pos (zero_H0 x 127 1 263 (by decide) (by decide) (by decide) rfl)))
    (congrArg Instr.tlbinvPage (un_H0 x 127 1 263 (by decide) (by decide) (by decide) rfl)) rfl wf r
theorem tlbinvPageL (x : E64) : Statement (.tlbinvPageL x) := fun wf _ r =>
  have wi : (x.d == 0 && x.b == 0 && !x.bu && x.p == 0 && decide (x.i.toNat < 1) && !x.u) = true := (Bool.and_eq_true_iff.mp wf).1
  have wk : x.i.toNat = 0 := (Nat.lt_one_iff.mp (of_decide_eq_true (Bool.and_eq_true_iff.mp (Bool.and_eq_true_iff.mp wi).1).2))
  have o := ops_E64 x 127 3 263 (w := enE64 x 127 3 + 551550976) (by decide) (by decide) (by decide) rfl
  decode64 (v := enExt x) (o := .tlbinvPageL) (i := .tlbinvPageL x) o.1 (lt_Ext x) o.2.1
    (op64_127 o.2.2 |>.trans (opExt64_263 (ext_E64 x 127 3 263 (by decide) (by decide) (by decide) rfl)) |>.trans (if_neg fun h => absurd ((imm_Ext x).symm.trans h) (by rw [wk]; decide)) |>.trans (if_neg fun h => absurd ((imm_Ext x).symm.trans h) (by rw [wk]; decide)))
    (congrArg Instr.tlbinvPageL (un_E64 x 127 3 263 rfl (by decide) (by decide) (by decide) rfl)) rfl wf r
theorem tlbinvCtx (x : E64) : Statement (.tlbinvCtx x) := fun wf _ r =>
  have wi : (x.d == 0 && x.b == 0 && !x.bu && x.p == 0 && x.i == 1 && !x.u) = true := (Bool.and_eq_true_iff.mp wf).1
  have wk : x.i.toNat = 1 := (congrArg BitVec.toNat (eq_of_beq (Bool.and_eq_true_iff.mp (Bool.and_eq_true_iff.mp wi).1).2))
  have o := ops_E64 x 127 3 263 (w := enE64 x 127 3 + 551550976) (by decide) (by decide) (by decide) rfl
  decode64 (v := enExt x) (o := .tlbinvCtx) (i := .tlbinvCtx x) o.1 (lt_Ext x) o.2.1
    (op64_127 o.2.2 |>.trans (opExt64_263 (ext_E64 x 127 3 263 (by decide) (by decide) (by decide) rfl)) |>.trans (if_pos (imm_Ext x |>.trans wk)))
    (congrArg Instr.tlbinvCtx (un_E64 x 127 3 263 rfl (by decide) (by decide) (by decide) rfl)) rfl wf r
theorem tlbinvAll (x : E64) : Statement (.tlbinvAll x) := fun wf _ r =>
  have wi : (x.d == 0 && x.b == 0 && !x.bu && x.p == 0 && x.i == 2 && !x.u) = true := (Bool.and_eq_true_iff.mp wf).1
  have wk : x.i.toNat = 2 := (congrArg BitVec.toNat (eq_of_beq (Bool.and_eq_true_iff.mp (Bool.and_eq_true_iff.mp wi).1).2))
  have o := ops_E64 x 127 3 263 (w := enE64 x 127 3 + 551550976) (by decide) (by decide) (by decide) rfl
  decode64 (v := enExt x) (o := .tlbinvAll) (i := .tlbinvAll x) o.1 (lt_Ext x) o.2.1
    (op64_127 o.2.2 |>.trans (opExt64_263 (ext_E64 x 127 3 263 (by decide) (by decide) (by decide) rfl)) |>.trans (if_neg fun h => absurd ((imm_Ext x).symm.trans h) (by rw [wk]; decide)) |>.trans (if_pos (imm_Ext x |>.trans wk)))
    (congrArg Instr.tlbinvAll (un_E64 x 127 3 263 rfl (by decide) (by decide) (by decide) rfl)) rfl wf r
theorem tlbprobe (x : Ed) : Statement (.tlbprobe x) := fun wf _ r =>
  have o := ops_Ed x 127 1 264 (w := enEd x 127 1 + 553648128) (by decide) (by decide) (by decide) rfl
  decode32 (o := .tlbprobe) (i := .tlbprobe x) o.1 o.2.1
    (op32_127 o.2.2 |>.trans (opExt32_264 (ext_Ed x 127 1 264 (by decide) (by decide) (by decide) rfl)))
    (congrArg Instr.tlbprobe (un_Ed x 127 1 264 (by decide) (by decide) (by decide) rfl)) rfl wf r
theorem tlbprobeL (x : E64) : Statement (.tlbprobeL x) := fun wf _ r =>
  have o := ops_E64 x 127 3 264 (w := enE64 x 127 3 + 553648128) (by decide) (by decide) (by decide) rfl
  decode64 (v := enExt x) (o := .tlbprobeL) (i := .tlbprobeL x) o.1 (lt_Ext x) o.2.1
    (op64_127 o.2.2 |>.trans (opExt64_264 (ext_E64 x 127 3 264 (by decide) (by decide) (by decide) rfl)))
    (congrArg Instr.tlbprobeL (un_E64 x 127 3 264 rfl (by decide) (by decide) (by decide) rfl)) rfl wf r
theorem cresize (x : H0) : Statement (.cresize x) := fun wf _ r =>
  have o := ops_H0 x 127 1 265 (w := enH0 x 127 1 + 555745280) (by decide) (by decide) (by decide) rfl
  decode32 (o := .cresize) (i := .cresize x) o.1 o.2.1
    (op32_127 o.2.2 |>.trans (opExt32_265 (ext_H0 x 127 1 265 (by decide) (by decide) (by decide) rfl)) |>.trans (if_pos (zero_H0 x 127 1 265 (by decide) (by decide) (by decide) rfl)))
    (congrArg Instr.cresize (un_H0 x 127 1 265 (by decide) (by decide) (by decide) rfl)) rfl wf r
theorem cresizeL (x : E64) : Statement (.cresizeL x) := fun wf _ r =>
  have o := ops_E64 x 127 3 265 (w := enE64 x 127 3 + 555745280) (by decide) (by decide) (by decide) rfl
  decode64 (v := enExt x) (o := .cresizeL) (i := .cresizeL x) o.1 (lt_Ext x) o.2.1
    (op64_127 o.2.2 |>.trans (opExt64_265 (ext_E64 x 127 3 265 (by decide) (by decide) (by decide) rfl)))
    (congrArg Instr.cresizeL (un_E64 x 127 3 265 rfl (by decide) (by decide) (by decide) rfl)) rfl wf r
theorem migDev (x : H0) : Statement (.migDev x) := fun wf _ r =>
  have o := ops_H0 x 127 1 266 (w := enH0 x 127 1 + 557842432) (by decide) (by decide) (by decide) rfl
  decode32 (o := .migDev) (i := .migDev x) o.1 o.2.1
    (op32_127 o.2.2 |>.trans (opExt32_266 (ext_H0 x 127 1 266 (by decide) (by decide) (by decide) rfl)) |>.trans (if_pos (zero_H0 x 127 1 266 (by decide) (by decide) (by decide) rfl)))
    (congrArg Instr.migDev (un_H0 x 127 1 266 (by decide) (by decide) (by decide) rfl)) rfl wf r
theorem migDevL (x : E64) : Statement (.migDevL x) := fun wf _ r =>
  have wi : (x.d == 0 && x.b == 0 && !x.bu && x.p == 0 && decide (x.i.toNat < 1) && !x.u) = true := (Bool.and_eq_true_iff.mp wf).1
  have wk : x.i.toNat = 0 := (Nat.lt_one_iff.mp (of_decide_eq_true (Bool.and_eq_true_iff.mp (Bool.and_eq_true_iff.mp wi).1).2))
  have o := ops_E64 x 127 3 266 (w := enE64 x 127 3 + 557842432) (by decide) (by decide) (by decide) rfl
  decode64 (v := enExt x) (o := .migDevL) (i := .migDevL x) o.1 (lt_Ext x) o.2.1
    (op64_127 o.2.2 |>.trans (opExt64_266 (ext_E64 x 127 3 266 (by decide) (by decide) (by decide) rfl)) |>.trans (if_neg fun h => absurd ((imm_Ext x).symm.trans h) (by rw [wk]; decide)))
    (congrArg Instr.migDevL (un_E64 x 127 3 266 rfl (by decide) (by decide) (by decide) rfl)) rfl wf r
theorem migHost (x : E64) : Statement (.migHost x) := fun wf _ r =>
  have wi : (x.d == 0 && x.b == 0 && !x.bu && x.p == 0 && x.i == 1 && !x.u) = true := (Bool.and_eq_true_iff.mp wf).1
  have wk : x.i.toNat = 1 := (congrArg BitVec.toNat (eq_of_beq (Bool.and_eq_true_iff.mp (Bool.and_eq_true_iff.mp wi).1).2))
  have o := ops_E64 x 127 3 266 (w := enE64 x 127 3 + 557842432) (by decide) (by decide) (by decide) rfl
  decode64 (v := enExt x) (o := .migHost) (i := .migHost x) o.1 (lt_Ext x) o.2.1
    (op64_127 o.2.2 |>.trans (opExt64_266 (ext_E64 x 127 3 266 (by decide) (by decide) (by decide) rfl)) |>.trans (if_pos (imm_Ext x |>.trans wk)))
    (congrArg Instr.migHost (un_E64 x 127 3 266 rfl (by decide) (by decide) (by decide) rfl)) rfl wf r
theorem pf (x : H0) : Statement (.pf x) := fun wf _ r =>
  have o := ops_H0 x 127 1 267 (w := enH0 x 127 1 + 559939584) (by decide) (by decide) (by decide) rfl
  decode32 (o := .pf) (i := .pf x) o.1 o.2.1
    (op32_127 o.2.2 |>.trans (opExt32_267 (ext_H0 x 127 1 267 (by decide) (by decide) (by decide) rfl)) |>.trans (if_pos (zero_H0 x 127 1 267 (by decide) (by decide) (by decide) rfl)))
    (congrArg Instr.pf (un_H0 x 127 1 267 (by decide) (by decide) (by decide) rfl)) rfl wf r
theorem pfL (x : E64) : Statement (.pfL x) := fun wf _ r =>
  have o := ops_E64 x 127 3 267 (w := enE64 x 127 3 + 559939584) (by decide) (by decide) (by decide) rfl
  decode64 (v := enExt x) (o := .pfL) (i := .pfL x) o.1 (lt_Ext x) o.2.1
    (op64_127 o.2.2 |>.trans (opExt64_267 (ext_E64 x 127 3 267 (by decide) (by decide) (by decide) rfl)))
    (congrArg Instr.pfL (un_E64 x 127 3 267 rfl (by decide) (by decide) (by decide) rfl)) rfl wf r
theorem tspawn (x : D1) : Statement (.tspawn x) := fun wf _ r =>
  have o := ops_D1 x 127 1 320 (w := enD1 x 127 1 + 671088640) (by decide) (by decide) (by decide) rfl
  decode32 (o := .tspawn) (i := .tspawn x) o.1 o.2.1
    (op32_127 o.2.2 |>.trans (opExt32_320 (ext_D1 x 127 1 320 (by decide) (by decide) (by decide) rfl)) |>.trans (if_pos (zero_D1 x 127 1 320 (by decide) (by decide) (by decide) rfl)))
    (congrArg Instr.tspawn (un_D1 x 127 1 320 (by decide) (by decide) (by decide) rfl)) rfl wf r
theorem tspawnL (x : E64) : Statement (.tspawnL x) := fun wf _ r =>
  have o := ops_E64 x 127 3 320 (w := enE64 x 127 3 + 671088640) (by decide) (by decide) (by decide) rfl
  decode64 (v := enExt x) (o := .tspawnL) (i := .tspawnL x) o.1 (lt_Ext x) o.2.1
    (op64_127 o.2.2 |>.trans (opExt64_320 (ext_E64 x 127 3 320 (by decide) (by decide) (by decide) rfl)))
    (congrArg Instr.tspawnL (un_E64 x 127 3 320 rfl (by decide) (by decide) (by decide) rfl)) rfl wf r
theorem tsig (x : H0) : Statement (.tsig x) := fun wf _ r =>
  have o := ops_H0 x 127 1 321 (w := enH0 x 127 1 + 673185792) (by decide) (by decide) (by decide) rfl
  decode32 (o := .tsig) (i := .tsig x) o.1 o.2.1
    (op32_127 o.2.2 |>.trans (opExt32_321 (ext_H0 x 127 1 321 (by decide) (by decide) (by decide) rfl)) |>.trans (if_pos (zero_H0 x 127 1 321 (by decide) (by decide) (by decide) rfl)))
    (congrArg Instr.tsig (un_H0 x 127 1 321 (by decide) (by decide) (by decide) rfl)) rfl wf r
theorem tsigL (x : E64) : Statement (.tsigL x) := fun wf _ r =>
  have o := ops_E64 x 127 3 321 (w := enE64 x 127 3 + 673185792) (by decide) (by decide) (by decide) rfl
  decode64 (v := enExt x) (o := .tsigL) (i := .tsigL x) o.1 (lt_Ext x) o.2.1
    (op64_127 o.2.2 |>.trans (opExt64_321 (ext_E64 x 127 3 321 (by decide) (by decide) (by decide) rfl)))
    (congrArg Instr.tsigL (un_E64 x 127 3 321 rfl (by decide) (by decide) (by decide) rfl)) rfl wf r
theorem evpost (x : H0) : Statement (.evpost x) := fun wf _ r =>
  have o := ops_H0 x 127 1 322 (w := enH0 x 127 1 + 675282944) (by decide) (by decide) (by decide) rfl
  decode32 (o := .evpost) (i := .evpost x) o.1 o.2.1
    (op32_127 o.2.2 |>.trans (opExt32_322 (ext_H0 x 127 1 322 (by decide) (by decide) (by decide) rfl)) |>.trans (if_pos (zero_H0 x 127 1 322 (by decide) (by decide) (by decide) rfl)))
    (congrArg Instr.evpost (un_H0 x 127 1 322 (by decide) (by decide) (by decide) rfl)) rfl wf r
theorem evpostL (x : E64) : Statement (.evpostL x) := fun wf _ r =>
  have o := ops_E64 x 127 3 322 (w := enE64 x 127 3 + 675282944) (by decide) (by decide) (by decide) rfl
  decode64 (v := enExt x) (o := .evpostL) (i := .evpostL x) o.1 (lt_Ext x) o.2.1
    (op64_127 o.2.2 |>.trans (opExt64_322 (ext_E64 x 127 3 322 (by decide) (by decide) (by decide) rfl)))
    (congrArg Instr.evpostL (un_E64 x 127 3 322 rfl (by decide) (by decide) (by decide) rfl)) rfl wf r
theorem evget (x : Ed) : Statement (.evget x) := fun wf _ r =>
  have o := ops_Ed x 127 1 323 (w := enEd x 127 1 + 677380096) (by decide) (by decide) (by decide) rfl
  decode32 (o := .evget) (i := .evget x) o.1 o.2.1
    (op32_127 o.2.2 |>.trans (opExt32_323 (ext_Ed x 127 1 323 (by decide) (by decide) (by decide) rfl)))
    (congrArg Instr.evget (un_Ed x 127 1 323 (by decide) (by decide) (by decide) rfl)) rfl wf r
theorem evgetL (x : E64) : Statement (.evgetL x) := fun wf _ r =>
  have o := ops_E64 x 127 3 323 (w := enE64 x 127 3 + 677380096) (by decide) (by decide) (by decide) rfl
  decode64 (v := enExt x) (o := .evgetL) (i := .evgetL x) o.1 (lt_Ext x) o.2.1
    (op64_127 o.2.2 |>.trans (opExt64_323 (ext_E64 x 127 3 323 (by decide) (by decide) (by decide) rfl)))
    (congrArg Instr.evgetL (un_E64 x 127 3 323 rfl (by decide) (by decide) (by decide) rfl)) rfl wf r
theorem dbgmb (x : H0) : Statement (.dbgmb x) := fun wf _ r =>
  have o := ops_H0 x 127 1 384 (w := enH0 x 127 1 + 805306368) (by decide) (by decide) (by decide) rfl
  decode32 (o := .dbgmb) (i := .dbgmb x) o.1 o.2.1
    (op32_127 o.2.2 |>.trans (opExt32_384 (ext_H0 x 127 1 384 (by decide) (by decide) (by decide) rfl)) |>.trans (if_pos (zero_H0 x 127 1 384 (by decide) (by decide) (by decide) rfl)))
    (congrArg Instr.dbgmb (un_H0 x 127 1 384 (by decide) (by decide) (by decide) rfl)) rfl wf r
theorem dbgmbL (x : E64) : Statement (.dbgmbL x) := fun wf _ r =>
  have o := ops_E64 x 127 3 384 (w := enE64 x 127 3 + 805306368) (by decide) (by decide) (by decide) rfl
  decode64 (v := enExt x) (o := .dbgmbL) (i := .dbgmbL x) o.1 (lt_Ext x) o.2.1
    (op64_127 o.2.2 |>.trans (opExt64_384 (ext_E64 x 127 3 384 (by decide) (by decide) (by decide) rfl)))
    (congrArg Instr.dbgmbL (un_E64 x 127 3 384 rfl (by decide) (by decide) (by decide) rfl)) rfl wf r
theorem dbgrd (x : D1) : Statement (.dbgrd x) := fun wf _ r =>
  have o := ops_D1 x 127 1 385 (w := enD1 x 127 1 + 807403520) (by decide) (by decide) (by decide) rfl
  decode32 (o := .dbgrd) (i := .dbgrd x) o.1 o.2.1
    (op32_127 o.2.2 |>.trans (opExt32_385 (ext_D1 x 127 1 385 (by decide) (by decide) (by decide) rfl)) |>.trans (if_pos (zero_D1 x 127 1 385 (by decide) (by decide) (by decide) rfl)))
    (congrArg Instr.dbgrd (un_D1 x 127 1 385 (by decide) (by decide) (by decide) rfl)) rfl wf r
theorem dbgrdL (x : E64) : Statement (.dbgrdL x) := fun wf _ r =>
  have o := ops_E64 x 127 3 385 (w := enE64 x 127 3 + 807403520) (by decide) (by decide) (by decide) rfl
  decode64 (v := enExt x) (o := .dbgrdL) (i := .dbgrdL x) o.1 (lt_Ext x) o.2.1
    (op64_127 o.2.2 |>.trans (opExt64_385 (ext_E64 x 127 3 385 (by decide) (by decide) (by decide) rfl)))
    (congrArg Instr.dbgrdL (un_E64 x 127 3 385 rfl (by decide) (by decide) (by decide) rfl)) rfl wf r
theorem wpset (x : H0) : Statement (.wpset x) := fun wf _ r =>
  have o := ops_H0 x 127 1 386 (w := enH0 x 127 1 + 809500672) (by decide) (by decide) (by decide) rfl
  decode32 (o := .wpset) (i := .wpset x) o.1 o.2.1
    (op32_127 o.2.2 |>.trans (opExt32_386 (ext_H0 x 127 1 386 (by decide) (by decide) (by decide) rfl)) |>.trans (if_pos (zero_H0 x 127 1 386 (by decide) (by decide) (by decide) rfl)))
    (congrArg Instr.wpset (un_H0 x 127 1 386 (by decide) (by decide) (by decide) rfl)) rfl wf r
theorem wpsetL (x : E64) : Statement (.wpsetL x) := fun wf _ r =>
  have o := ops_E64 x 127 3 386 (w := enE64 x 127 3 + 809500672) (by decide) (by decide) (by decide) rfl
  decode64 (v := enExt x) (o := .wpsetL) (i := .wpsetL x) o.1 (lt_Ext x) o.2.1
    (op64_127 o.2.2 |>.trans (opExt64_386 (ext_E64 x 127 3 386 (by decide) (by decide) (by decide) rfl)))
    (congrArg Instr.wpsetL (un_E64 x 127 3 386 rfl (by decide) (by decide) (by decide) rfl)) rfl wf r

end Sys2Proof.Laws.RoundTrip
end

