-- ==== Sys2Proof/Safety.lean ====
section
/-! DEFINITION. What claims are stated in: when a group is in the lane, what it means that an instruction wrote a register
and left everything else alone, and the invariants of a run. -/

namespace Sys2Proof.Machine

/-! ## Invariants -/

/-- The canonical form of a list of cells: addresses strictly rising, and no byte that an unlisted address reads as. -/
def Memory.wf (m : List Host.Cell) : Bool := cellsWf 0 m

/-- Memory and scratchpad pools are in their canonical form. -/
def MemOk (s : State) : Prop := Memory.wf s.mem = true ∧ Memory.wf s.pool = true

/-- The course and the task of a group in the lane are resident. -/
def LaneOk (s : State) : Prop := ∀ g, s.issue = some g → (s.grp? g).isSome = true

/-! ## A group in the lane -/

/-- The group `G` is in the lane: its course and task are resident, and its slots are different slots of the course. -/
structure InLane (s : State) (G : Grp) : Prop where
  issue : s.issue = some G.g
  grp : s.grp? G.g = some G
  nodup : G.g.slots.Nodup
  range : ∀ i ∈ G.g.slots, i < G.cs.threads.length

/-- The value that an instruction of cycle `n` reads in a register of slot `i`, by its physical number (R25, R385). -/
def Course.regAt (c : Course) (i : Nat) (r : RegRef) (n : Nat) : Word :=
  match r with
  | .v k => (c.thread i).readV k n
  | .q p => pendRead (c.thread i).pend (.q p) n (boolWord (qGet (c.thread i).q p))
  | .c k => c.readC k n

/-- Whether a thread takes a write to an operand; a stage predicate takes none (R44). -/
def Thread.takes (t : Thread) : Rd → Bool
  | .q p => !t.isStage p
  | _ => true

/-- The cycle of slot `i`'s result: that of its thread, or of the group for a uniform register. -/
def Grp.start (G : Grp) (x : LaneI) (dst : Rd) (i : Nat) : Nat :=
  match dst with
  | .c _ => G.g.t
  | _ => G.cyc x i

/-- Whether the active thread `j` writes the register `r` as slot `i` sees it: a uniform register is the same for all. -/
def Grp.writesReg (G : Grp) (dst : Rd) (j i : Nat) (r : RegRef) : Prop :=
  r = (G.cs.thread j).ref dst ∧ (G.cs.thread j).takes dst = true ∧ (j = i ∨ ∃ k, r = .c k)

/-- Everything but the group's own course, the times of its lane and the lane itself is as before; the course becomes `c`. -/
structure OnlyCourse (s t : State) (G : Grp) (c : Course) : Prop where
  lane : t.issue = none
  course : t.course? G.g.core G.g.course = some c
  courses : ∀ n, n ≠ G.g.course → t.course? G.g.core n = s.course? G.g.core n
  core : { t.core G.g.core with courses := [], laneFree := [] } = { s.core G.g.core with courses := [], laneFree := [] }
  cores : ∀ k, k ≠ G.g.core → t.core k = s.core k
  rest : { t with cores := [], issue := none, nextOrd := 0 } = { s with cores := [], issue := none, nextOrd := 0 }

/-- What of a course no instruction with a register result changes: all but its threads, the pending uniform results, the
loop buffer, the body to be captured again and the stall times. -/
def Course.unmoved (c : Course) : Course :=
  { c with threads := [], cpend := [], csb := [], loopBuf := none, recapture := none, stallUntil := 0, stallUntilHi := 0 }

/-- Every thread of the group is past the instruction (R231), with what it waits for or has pending as may be; the other
threads and the rest of the course are as before. -/
structure Past (G : Grp) (len : Nat) (c : Course) : Prop where
  threads : ∀ i ∈ G.g.slots, ∃ p b, c.thread i = { (G.cs.thread i).complete len with pend := p, sb := b }
  others : ∀ i, i ∉ G.g.slots → c.thread i = G.cs.thread i
  rest : c.unmoved = G.cs.unmoved

/-- The instruction wrote `val i` to `dst` in every active thread `i`, readable `lat` cycles after the thread's own (R25, R26),
wrote no other register, and did nothing else but pass (the frame). -/
def Wrote (s t : State) (G : Grp) (x : LaneI) (lat : Nat) (dst : Rd) (val : Nat → Word) : Prop :=
  ∃ c, OnlyCourse s t G c ∧ Past G x.len c ∧
    (∀ j ∈ G.active x, ∀ i r, G.writesReg dst j i r → ∀ n,
      c.regAt i r n = if G.start x dst j + lat ≤ n then val j else G.cs.regAt i r n) ∧
    (∀ i r, (∀ j ∈ G.active x, ¬ G.writesReg dst j i r) → ∀ n, c.regAt i r n = G.cs.regAt i r n)

/-! ## Instructions of one result -/

/-- The group in the lane passes what every instruction of a shape is checked for first (R386, R231). -/
structure Runs (s : State) (G : Grp) (x : LaneI) : Prop where
  lane : InLane s G
  some : G.g.slots ≠ []
  ok : G.check x = none

/-- Whenever the group passes those checks, the instruction completes: `dst` takes `f` of the operands in every thread whose
guard is true, and nothing else changes. -/
def Computes (i : Instr) (x : LaneI) (lat : Nat) (dst : Rd) (f : (Rd → Word) → Word) : Prop :=
  ∀ s G, Runs s G x → ∃ t, exec i s = .next t ∧ Wrote s t G x lat dst fun j => f (G.read x j)

/-- The same where `ok` holds, for a result that thread `j` takes from the state and the whole group. -/
def Delivers (i : Instr) (x : LaneI) (lat : Nat) (dst : Rd) (ok : State → Grp → Prop) (val : State → Grp → Nat → Word) : Prop :=
  ∀ s G, Runs s G x → ok s G → ∃ t, exec i s = .next t ∧ Wrote s t G x lat dst (val s G)

/-- The group left the lane, its course is `c` but for its loop buffer, the body to be captured again and its stall times, and
nothing else changed. -/
def Left (s t : State) (G : Grp) (c : Course) : Prop :=
  ∃ b r x y, OnlyCourse s t G { c with loopBuf := b, recapture := r, stallUntil := x, stallUntilHi := y }

/-- The group left the lane with its threads as `f` leaves them; the rest of its course, but for its loop buffer and stall
times, is that of `d`, and everything else is as before. -/
def MovedAs (s t : State) (G : Grp) (d : Course) (f : Nat → Thread → Thread) : Prop :=
  ∃ c, Left s t G c ∧ (∀ i ∈ G.g.slots, c.thread i = f i (G.cs.thread i)) ∧ (∀ i, i ∉ G.g.slots → c.thread i = G.cs.thread i) ∧
    { c with threads := [] } = { d with threads := [] }

/-- The same where the rest of the course is as before too. -/
def Moved (s t : State) (G : Grp) (f : Nat → Thread → Thread) : Prop := MovedAs s t G G.cs f

/-- Whenever the group passes its checks and `ok` holds, the instruction completes and does to the threads what `f` says. -/
def Moves (i : Instr) (x : LaneI) (ok : State → Grp → Prop) (f : State → Grp → Nat → Thread → Thread) : Prop :=
  ∀ s G, Runs s G x → ok s G → ∃ t, exec i s = .next t ∧ Moved s t G (f s G)

/-- Every thread of the group passed the instruction of `len` bytes, over the state `u` that its effect leaves. -/
def Passed (u t : State) (G : Grp) (len : Nat) : Prop :=
  ∃ c, u.course? G.g.core G.g.course = some c ∧ Moved u t { G with cs := c } fun _ a => a.complete len

/-- Whenever the group passes its checks and `ok` holds, the instruction changes the course by `f` for each active thread in
ascending slot order (R26), every thread of the group passes, and nothing else changes. -/
def Alters (i : Instr) (x : LaneI) (ok : State → Grp → Prop) (f : State → Grp → Nat → Course → Course) : Prop :=
  ∀ s G, Runs s G x → ok s G → ∃ t, exec i s = .next t ∧
    Left s t G (G.completeAll x ((G.active x).foldl (fun c j => f s G j c) G.cs))

/-- The group left the lane with its threads changed as `R` allows; other threads, the uniform registers, the other courses,
memory and the scratchpad pools are as before. -/
structure Ran (s t : State) (G : Grp) (R : Nat → Thread → Thread → Prop) : Prop where
  lane : t.issue = none
  course : ∃ c, t.course? G.g.core G.g.course = some c ∧ (∀ i ∈ G.g.slots, R i (G.cs.thread i) (c.thread i)) ∧
    (∀ i, i ∉ G.g.slots → c.thread i = G.cs.thread i) ∧ c.c = G.cs.c ∧ c.cpend = G.cs.cpend
  courses : ∀ k n, k ≠ G.g.core ∨ n ≠ G.g.course → t.course? k n = s.course? k n
  mem : t.mem = s.mem
  pool : t.pool = s.pool

/-! ## Accesses -/

/-- What an access asks for; its number, its order and how far it has come aside. -/
def Access.asked (a : Access) : Access := { a with id := 0, ord := 0, after := [], wasHeld := false, hod := [], st := .left, val := 0 }

/-- A thread of an access begun: its registers await the result (R26), one that fills only some of its bits (`part`, R274)
beside those that fill others, and an acquire load holds back its later accesses (R250). -/
def Access.awaited (a : Access) (t : Thread) : Thread :=
  let t := match a.part with
    | none => a.dst.foldl (fun t d => t.awaitReg d a.id) t
    | some _ => { t with sb := t.sb ++ a.dst.map fun d => (d, a.id) }
  match a.kind with
  | .load true => { t with acqAfter := t.acqAfter ++ [a.id] }
  | _ => t

/-- The accesses `want` were begun, and the group passed; what a release store leaves with its thread to hold back its later
stores (R161) aside. Where no other module is their home, they are in flight after those that were, and memory, the scratchpad
pools and every other course are as before. -/
structure Issued (s t : State) (G : Grp) (len : Nat) (want : List Access) : Prop where
  lane : t.issue = none
  begun : ∃ new c, new.map Access.asked = want ∧ t.course? G.g.core G.g.course = some c ∧
    (∀ i ∈ G.g.slots, ∃ q, ((∀ a ∈ want, a.kind ≠ .store true) → q = (G.cs.thread i).relAfter) ∧ c.thread i =
      ({ (new.filter fun a => decide (a.slot = i)).foldl (fun t a => a.awaited t) (G.cs.thread i) with relAfter := q } : Thread).complete len) ∧
    (∀ i, i ∉ G.g.slots → c.thread i = G.cs.thread i) ∧ c.c = G.cs.c ∧ c.cpend = G.cs.cpend ∧
    ((∀ a ∈ want, a.loc.isRemote = false) → (∀ a ∈ s.inflight, a.id < s.nextId) →
      t.inflight = s.inflight ++ new ∧ t.mem = s.mem ∧ t.pool = s.pool ∧
      ∀ k n, k ≠ G.g.core ∨ n ≠ G.g.course → t.course? k n = s.course? k n)

/-- The access of one thread at an address and its home, of a width. -/
def Grp.access (G : Grp) (e : Nat × Word × Loc) (kind : AccKind) (w : BitVec 3) : Access :=
  { id := 0, core := G.g.core, course := G.g.course, slot := e.1, ord := 0, ipc := G.g.pc, va := e.2.1, kind := kind, w := w
    size := accSize w, loc := e.2.2 }

/-- Whenever the group passes its checks, the addresses `ea` pass those of R248 with the homes `ls`, and nothing holds the
access back, the instruction completes and begins `want` for each home. -/
def Begins (i : Instr) (l : LaneI) (space : BitVec 2) (n : Need) (size : Nat) (watch reads writes : Bool) (ea : (Rd → Word) → Word)
    (want : Grp → Nat × Word × Loc → List Access) : Prop :=
  ∀ s G ls, Runs s G l → s.memCheck G space n size size watch ((G.active l).map fun j => (j, ea (G.read l j))) = .ok ls →
    s.gate G reads writes size ls = none → ∃ t, exec i s = .next t ∧ Issued s t G l.len (ls.flatMap (want G))

/-- In every state of a module that runs where `ok` holds, the event takes a next state related by `R`, and the lanes keep the
group they hold (R22). -/
def Happens (i : Instr) (ok : State → Prop) (R : State → State → Prop) : Prop :=
  ∀ s, s.phase = .running → ok s → ∃ t, exec i s = .next t ∧ t.issue = s.issue ∧ R s t

/-- A course is resident and becomes `f` of it; every other course, memory and the scratchpad pools are as before. -/
def Turns (core course : Nat) (f : State → Course → Course) (s t : State) : Prop :=
  ∃ c, s.course? core course = some c ∧ t.course? core course = some (f s c) ∧
    (∀ k n, k ≠ core ∨ n ≠ course → t.course? k n = s.course? k n) ∧ t.mem = s.mem ∧ t.pool = s.pool

/-- The 32-bit form of format R (R176): a and d are thread registers, b is uniform where u is set. -/
def view4 (x : R3) : LaneI := { len := 4, h := x.h, rd := [.v x.a, src x.u x.b] }

/-- d := f(a, b) in the 32-bit form. -/
def GivesR (i : R3 → Instr) (f : Word → Word → Word) : Prop :=
  ∀ x, Computes (i x) (view4 x) 4 (.v x.d) fun rd => f (rd (.v x.a)) (rd (src x.u x.b))

/-- d := f(a, b, d) in the 32-bit form, which has no c (R179). -/
def GivesMac (i : R3 → Instr) (f : Word → Word → Word → Word) : Prop :=
  ∀ x, Computes (i x) { view4 x with rd := [.v x.d, .v x.a, src x.u x.b] } 4 (.v x.d) fun rd =>
    f (rd (.v x.a)) (rd (src x.u x.b)) (rd (.v x.d))

/-- d := f(a, b) in the 64-bit form, whose modifier word may make a, d and the instruction uniform (R178, R179). -/
def GivesRm (i : R3m → Instr) (f : Modifier → Word → Word → Word) : Prop :=
  ∀ x, Computes (i x) (laneR 8 x.r x.m false) 4 (src x.m.du x.r.d) fun rd =>
    f x.m (rd (src x.m.au x.r.a)) (rd (src x.r.u x.r.b))

/-- d := f(a, b, c) in the 64-bit form; without c (cp = 0) the old d stands for it (R179). -/
def GivesMacM (i : R3m → Instr) (f : Modifier → Word → Word → Word → Word) : Prop :=
  ∀ x, Computes (i x) (laneR 8 x.r x.m true) 4 (src x.m.du x.r.d) fun rd =>
    f x.m (rd (src x.m.au x.r.a)) (rd (src x.r.u x.r.b)) (rd (if x.m.cp then src x.m.cu x.m.c else src x.m.du x.r.d))

/-- d := f(a, b, c) in the 64-bit form; without c (cp = 0) it is 0 (R200, R201). -/
def GivesIns (i : R3m → Instr) (f : Word → Word → Word → Word) : Prop :=
  ∀ x, Computes (i x) (laneR 8 x.r x.m false) 4 (src x.m.du x.r.d) fun rd =>
    f (rd (src x.m.au x.r.a)) (rd (src x.r.u x.r.b)) (if x.m.cp then rd (src x.m.cu x.m.c) else 0)

/-- Both forms of an instruction of format R that takes no modifier of value. -/
def Gives (i : R3 → Instr) (j : R3m → Instr) (f : Word → Word → Word) : Prop := GivesR i f ∧ GivesRm j fun _ => f

/-- The predicate named by d := a relation of a and b, in the 32-bit form and the 64-bit form (R202). -/
def Decides (i : R3 → Instr) (f : Word → Word → Bool) : Prop :=
  ∀ x, Computes (i x) (view4 x) 4 (.q (BitVec.ofNat 4 x.d.toNat)) fun rd => boolWord (f (rd (.v x.a)) (rd (src x.u x.b)))
def DecidesM (i : R3m → Instr) (f : Modifier → Word → Word → Bool) : Prop :=
  ∀ x, Computes (i x) { laneR 8 x.r x.m false with uni := false } 4 (.q (BitVec.ofNat 4 x.r.d.toNat)) fun rd =>
    boolWord (f x.m (rd (src x.m.au x.r.a)) (rd (src x.r.u x.r.b)))

/-- d := f(a), in the 32-bit form and the 64-bit form (R183). -/
def GivesU (i : R1 → Instr) (f : Word → Word) : Prop :=
  ∀ x, Computes (i x) { len := 4, h := x.h, rd := [.v x.a] } 4 (.v x.d) fun rd => f (rd (.v x.a))
def GivesUm (i : R1m → Instr) (f : Word → Word) : Prop :=
  ∀ x, Computes (i x) { len := 8, h := x.r.h, uni := x.m.du, rd := [src x.m.au x.r.a] } 4 (src x.m.du x.r.d) fun rd =>
    f (rd (src x.m.au x.r.a))

/-- Both forms of a unary instruction. -/
def GivesBoth (i : R1 → Instr) (j : R1m → Instr) (f : Word → Word) : Prop := GivesU i f ∧ GivesUm j f

/-- d := f(code, a), of `per` cycles a thread and latency `lat` (R184, R196). -/
def GivesF (per lat : Nat) (i : Rf → Instr) (f : Nat → Modifier → Word → Word) : Prop :=
  ∀ x, Computes (i x) { len := 4, h := x.h, rd := [.v x.a], per := per } lat (.v x.d) fun rd => f x.f.toNat .zero (rd (.v x.a))
def GivesFm (per lat : Nat) (i : Rfm → Instr) (f : Nat → Modifier → Word → Word) : Prop :=
  ∀ x, Computes (i x) { len := 8, h := x.r.h, uni := x.m.du, rd := [src x.m.au x.r.a], per := per } lat (src x.m.du x.r.d) fun rd =>
    f x.r.f.toNat x.m (rd (src x.m.au x.r.a))

/-- d := f(a, n) with a constant, in the 32-bit form and the 64-bit form (R213). -/
def GivesI (i : Im → Instr) (f : Word → BitVec 6 → Word) : Prop :=
  ∀ x, Computes (i x) { len := 4, h := x.h, rd := [.v x.a] } 4 (.v x.d) fun rd => f (rd (.v x.a)) x.i
def GivesI64 (i : Im64 → Instr) (f : Word → BitVec 32 → Word) : Prop :=
  ∀ x, Computes (i x) { len := 8, h := x.h, rd := [.v x.a] } 4 (.v x.d) fun rd => f (rd (.v x.a)) x.i

/-- The predicate named by d := a relation of a and a constant. -/
def DecidesI (i : Im → Instr) (j : Im64 → Instr) (f : Word → Word → Bool) : Prop :=
  (∀ x, Computes (i x) { len := 4, h := x.h, rd := [.v x.a] } 4 (.q (BitVec.ofNat 4 x.d.toNat)) fun rd => boolWord (f (rd (.v x.a)) (imm6 x.i))) ∧
    ∀ x, Computes (j x) { len := 8, h := x.h, rd := [.v x.a] } 4 (.q (BitVec.ofNat 4 x.d.toNat)) fun rd => boolWord (f (rd (.v x.a)) (imm32 x.i))

/-- d := f(old d, n) with a constant; `r` the old d is read (R213). -/
def GivesK (r : Bool) (i : Km → Instr) (f : BitVec 11 → Word → Word) : Prop :=
  ∀ x, Computes (i x) { len := 4, h := x.h, rd := if r then [.v x.d] else [] } 4 (.v x.d) fun rd => f x.i (rd (.v x.d))
def GivesK64 (r : Bool) (i : Km64 → Instr) (f : BitVec 32 → Word → Word) : Prop :=
  ∀ x, Computes (i x) { len := 8, h := x.h, rd := if r then [.v x.d] else [] } 4 (.v x.d) fun rd => f x.i (rd (.v x.d))

/-- The compact d := f(d, a), a uniform where u is set (R181). -/
def GivesC (i : CReg → Instr) (f : Word → Word → Word) : Prop :=
  ∀ x, Computes (i x) { len := 2, h := openHdr, rd := [.v x.d, src x.u x.a] } 4 (.v x.d) fun rd => f (rd (.v x.d)) (rd (src x.u x.a))

/-- A secondary function of the operands `rd` (R185): the 32-bit form is the 64-bit form with a zero extension word. -/
def GivesE (i : Ed → Instr) (j : E64 → Instr) (rd : E64 → List Rd) (f : E64 → (Rd → Word) → Word) : Prop :=
  (∀ x, Computes (i x) (laneE 4 (extEd x) (rd (extEd x))) 4 (extD (extEd x)) (f (extEd x))) ∧
    ∀ x, Computes (j x) (laneE 8 x (rd x)) 4 (extD x) (f x)

/-- A secondary function whose destination is a predicate. -/
def DecidesE (i : D1 → Instr) (j : E64 → Instr) (f : E64 → (Rd → Word) → Bool) : Prop :=
  (∀ x, Computes (i x) { len := 4, h := x.h, rd := [extA (extD1 x), extB (extD1 x)] } 4 (extQ (extD1 x)) fun rd => boolWord (f (extD1 x) rd)) ∧
    ∀ x, Computes (j x) (laneE 8 x [extA x, extB x]) 4 (extQ x) fun rd => boolWord (f x rd)

/-- An access that can be performed at its home now: nothing earlier of its core is in its way, its bytes are there, and
none of them stands in an uncorrectable word (R142, R155, R156). -/
def State.AtHome (s : State) (a : Access) : Prop :=
  a.st = .left ∧ a.loc.isRemote = false ∧ s.behind a = false ∧ s.resizeWaits a.loc = false ∧ s.scratchGone a = false ∧
    a.loc.window = none ∧ s.needsFill a = false ∧ ∀ w ∈ wordsOf a.loc a.size, w ∉ s.badWords

/-- A line of memory has its place in a slice where an access needs one (R142). -/
def State.placed (s : State) (x : Loc) : State := match x with | .hbm d _ => s.ensureLine d x.lineNo | _ => s

/-- The thread's wait at an `icinv` or `fetchb` is over. -/
def icinvOver (s : State) (c : Course) (t : Thread) : Option (Nat × Nat × Nat) :=
  match t.wait with
  | .icinv lo size ws len => if t.live = true ∧ s.codeWaitDone c ws = true then some (lo, size, len) else none
  | _ => none
def fetchbOver (s : State) (c : Course) (t : Thread) : Option Nat :=
  match t.wait with
  | .fetchb ws len => if t.live = true ∧ s.codeWaitDone c ws = true then some len else none
  | _ => none
/-- The thread's phase is the oldest of its core and over. -/
def phaseOver (s : State) (core : Nat) (st : State) (t : Thread) : Option Nat :=
  match t.wait with
  | .fence true _ _ _ o _ => if s.oldestPhase core = some o then st.fenceDone true t else none
  | _ => none
/-- The class of a `waitn` that is over. -/
def waitnClass (c : Course) (t : Thread) : Option Nat :=
  match t.wait, c.waitnDone t with | .waitn k _ _, some _ => some k | _, _ => none

/-- An entry of a well-formed host message that comes next in order, of a message that is not refused whole (R356, R357). -/
def State.InTurn (s : State) (x : HostIn) : Prop :=
  s.hears = true ∧ headBad x.m = false ∧ x.m.seq = (s.takeHead x.m).host.current ∧ x.i = (s.takeHead x.m).host.next ∧
    (x.i = 0 → (s.takeHead x.m).refusedWhole x = false)

/-- The state in which the entry takes effect: the header is taken and the order moved on (R357). -/
def State.turnOf (s : State) (x : HostIn) : State :=
  let u := s.takeHead x.m
  let v : State := if x.i = 0 then ({ u with host := { u.host with expect := nextSeqNo u.host.expect, anyIn := true } } : State).hostRecovered else u
  { v with host := { v.host with next := if x.i + 1 < entryCount x then x.i + 1 else 0 } }

/-- Entries that came too early are accepted while they come next. -/
def State.andHeld (s : State) (w : State) : State := { w.acceptHeld w.host.heldIn.length with issue := s.issue }

/-- A command of a bound ring with its effect, its status and its value, which a completion record tells the host (R355). -/
def Commands (i : Instr) (x : HostIn) (ok : State → Nat → Prop) (f : State → Nat → CmdDone) : Prop :=
  ∀ s ctx, s.InTurn x → x.z = none → (s.turnOf x).phase = .running → (s.turnOf x).ringCtx.find x.m.ring = some ctx → ok (s.turnOf x) ctx →
    exec i s = .next (s.andHeld (((f (s.turnOf x) ctx).1.recordTo 0 65 3
      (completion (opcodeOf x.op) (f (s.turnOf x) ctx).2.1 x.tag (f (s.turnOf x) ctx).2.2)).entryDone x))

/-- A sequenced message that is no command (R353). -/
def Tells (i : Instr) (x : HostIn) (ok : State → Prop) (f : State → State) : Prop :=
  ∀ s, s.InTurn x → (s.turnOf x).phase = .running → ok (s.turnOf x) → exec i s = .next (s.andHeld ((f (s.turnOf x)).entryDone x))

/-- A message of the host that takes no sequence number (R357, R359). -/
def Controls (i : Instr) (m : MsgHead) (ok : State → Prop) (f : State → State) : Prop :=
  (∀ s, s.hears = true → headBad m = false → ok (s.takeHead m) → exec i s = .next { f (s.takeHead m) with issue := s.issue }) ∧
    ∀ s, s.hears = true → headBad m = true → exec i s = .next { s with host := { s.host with control := s.host.control ++
      [s.host.stamp s.time { ring := 0xFFFF, type := 0x09, seq := s.host.sendSeq, arg := leBytes 4 s.host.expect, payload := [] }] } }

end Sys2Proof.Machine
end

