-- ==== Sys2Proof/Certificates/Slice0/Obligations.lean ====
section
/-! DEFINITION. The statements for the provers: what the rules of the spec say the instructions and the machine do. -/

open Sys2Proof Sys2Proof.Machine

/-! ## Registers -/

/-- R197 with sat 0 and no modifier: the 32-bit forms of the integer arithmetic. -/
def Obligations.IntegerArithmetic : Prop :=
  GivesR .iadd (fun a b => zext32 (low32 a + low32 b)) ∧
  GivesR .isub (fun a b => zext32 (low32 a - low32 b)) ∧
  GivesR .imul (fun a b => zext32 (low32 a * low32 b)) ∧
  GivesR .imulhI (fun a b => zext32 (BitVec.ofInt 32 ((low32 a).toInt * (low32 b).toInt / 2 ^ 32))) ∧
  GivesR .imulhN (fun a b => BitVec.ofNat 64 ((low32 a).toNat * (low32 b).toNat / 2 ^ 32)) ∧
  GivesMac .imac (fun a b d => zext32 (low32 a * low32 b + low32 d)) ∧
  GivesR .iminI (fun a b => zext32 (if (low32 a).slt (low32 b) then low32 a else low32 b)) ∧
  GivesR .iminN (fun a b => zext32 (if (low32 a).ult (low32 b) then low32 a else low32 b)) ∧
  GivesR .imaxI (fun a b => zext32 (if (low32 a).slt (low32 b) then low32 b else low32 a)) ∧
  GivesR .imaxN (fun a b => zext32 (if (low32 a).ult (low32 b) then low32 b else low32 a)) ∧
  GivesR .iabsd (fun a b => BitVec.ofNat 64 (((low32 a).toInt - (low32 b).toInt).natAbs % 2 ^ 32)) ∧
  GivesR .ladd (fun a b => a + b) ∧
  GivesR .lsub (fun a b => a - b) ∧
  GivesR .lmul (fun a b => a * b) ∧
  GivesMac .lmac (fun a b d => a * b + d)

/-- R197 and R180 in the 64-bit forms: the exact result of the operands under their modifiers, ended by `finishInt`. -/
def Obligations.IntegerModified : Prop :=
  GivesRm .iaddL (intVal .bySat 32 (· + ·)) ∧
  GivesRm .isubL (intVal .bySat 32 (· - ·)) ∧
  GivesRm .imulL (intVal .bySat 32 (· * ·)) ∧
  GivesRm .imulhIL (intVal .signed 32 fun x y => x * y / 2 ^ 32) ∧
  GivesRm .imulhNL (intVal .unsigned 32 fun x y => x * y / 2 ^ 32) ∧
  GivesMacM .imacL (macVal 32) ∧
  GivesRm .iminIL (intVal .signed 32 min) ∧
  GivesRm .iminNL (intVal .unsigned 32 min) ∧
  GivesRm .imaxIL (intVal .signed 32 max) ∧
  GivesRm .imaxNL (intVal .unsigned 32 max) ∧
  GivesRm .iabsdL (intVal .bySat 32 fun x y => ((x - y).natAbs : Int)) ∧
  GivesRm .laddL (intVal .bySat 64 (· + ·)) ∧
  GivesRm .lsubL (intVal .bySat 64 (· - ·)) ∧
  GivesRm .lmulL (intVal .bySat 64 (· * ·)) ∧
  GivesMacM .lmacL (macVal 64)

/-- R43 and R180: how an exact integer result ends in a register of width 32 or 64: clamped to the signed range (sat 1), to
the unsigned range (sat 2), or wrapped (sat 0), with the bits above the width zero. -/
def Obligations.IntegerResult : Prop :=
  ∀ w, w = 32 ∨ w = 64 → ∀ m e,
    let v : Int := if m.negd then -e else e
    (m.sat = 1 → asInt w (finishInt w m e) = max (-(2 ^ (w - 1))) (min (2 ^ (w - 1) - 1) v)) ∧
    (m.sat = 2 → (asNat w (finishInt w m e) : Int) = max 0 (min (2 ^ w - 1) v)) ∧
    (m.sat = 0 → (asNat w (finishInt w m e) : Int) = v % 2 ^ w) ∧
    (finishInt w m e).toNat < 2 ^ w

/-- R198: logic on the low 32 bits, moves, counts and extensions, in both forms. -/
def Obligations.Logic : Prop :=
  Gives .and .andL (fun a b => zext32 (low32 a &&& low32 b)) ∧
  Gives .or .orL (fun a b => zext32 (low32 a ||| low32 b)) ∧
  Gives .xor .xorL (fun a b => zext32 (low32 a ^^^ low32 b)) ∧
  Gives .andn .andnL (fun a b => zext32 (low32 a &&& ~~~ low32 b)) ∧
  GivesBoth .mov .movL (fun a => zext32 (low32 a)) ∧
  GivesBoth .clz .clzL (fun a => BitVec.ofNat 64 (low32 a).clz.toNat) ∧
  GivesBoth .popc .popcL (fun a => BitVec.ofNat 64 (low32 a).cpop.toNat) ∧
  GivesBoth .lextI .lextIL (fun a => (low32 a).signExtend 64) ∧
  GivesBoth .lextN .lextNL (fun a => (low32 a).setWidth 64) ∧
  Gives .lea2 .lea2L (fun a b => a + b <<< 2) ∧
  Gives .lea3 .lea3L (fun a b => a + b <<< 3) ∧
  Gives .lea4 .lea4L (fun a b => a + b <<< 4)

/-- R199: a shift takes its count as the low 32 bits of b, whatever the width; from the width on, `shl` and `shr.n` give 0
and `shr.i` the sign in every bit. -/
def Obligations.Shifts : Prop :=
  Gives .shl .shlL (fun a b => zext32 (low32 a <<< (low32 b).toNat)) ∧
  Gives .shrN .shrNL (fun a b => zext32 (low32 a >>> (low32 b).toNat)) ∧
  Gives .shrI .shrIL (fun a b => zext32 ((low32 a).sshiftRight (low32 b).toNat)) ∧
  Gives .lshl .lshlL (fun a b => a <<< (low32 b).toNat) ∧
  Gives .lshrN .lshrNL (fun a b => a >>> (low32 b).toNat) ∧
  Gives .lshrI .lshrIL (fun a b => a.sshiftRight (low32 b).toNat) ∧
  GivesC .shlC (fun d a => zext32 (low32 d <<< (low32 a).toNat)) ∧ GivesC .shrNC (fun d a => zext32 (low32 d >>> (low32 a).toNat)) ∧
  GivesC .shrIC (fun d a => zext32 ((low32 d).sshiftRight (low32 a).toNat)) ∧
  ∀ p ∈ ([(.shli, .shliL, fun a n => a <<< n), (.shriN, .shriNL, fun a n => a >>> n), (.shriI, .shriIL, BitVec.sshiftRight)] :
      List ((Im → Instr) × (Im64 → Instr) × (W32 → Nat → W32))),
    GivesI p.1 (fun a n => zext32 (p.2.2 (low32 a) n.toNat)) ∧ GivesI64 p.2.1 fun a n => zext32 (p.2.2 (low32 a) (n.toNat % 64))

/-- R200 and R201: bit fields at the position and length that b gives, and the selection of bytes. -/
def Obligations.BitFields : Prop :=
  Gives .bfxN .bfxNL (fun a b => BitVec.ofNat 64 (fieldOf a b)) ∧
  Gives .bfxI .bfxIL (bfxI .zero) ∧
  GivesR .bfi (fun a b => bfiVal a b 0) ∧ GivesIns .bfiL bfiVal ∧
  GivesR .perm (fun a b => permVal a b 0) ∧ GivesIns .permL permVal ∧
  (∀ a b i, (bfxN .zero a b).getLsbD i = (decide (i < fieldLen b) && (low32 a).getLsbD (fieldPos b + i))) ∧
  (∀ a b i, i < 32 → (bfxI .zero a b).getLsbD i =
    (decide (0 < fieldLen b) && (low32 a).getLsbD (fieldPos b + min i (fieldLen b - 1)))) ∧
  (∀ a b c i, i < 32 → (bfiVal a b c).getLsbD i =
    if fieldPos b ≤ i ∧ i < fieldPos b + fieldLen b then (low32 a).getLsbD (i - fieldPos b) else c.getLsbD i)

/-- R202: the integer compares in both forms. -/
def Obligations.IntegerCompares : Prop :=
  let both := fun (i : R3 → Instr) (j : R3m → Instr) (f : Word → Word → Bool) => Decides i f ∧ DecidesM j fun _ => f
  both .icmpEq .icmpEqL (fun a b => low32 a == low32 b) ∧
  both .icmpNe .icmpNeL (fun a b => low32 a != low32 b) ∧
  both .icmpLtI .icmpLtIL (fun a b => (low32 a).slt (low32 b)) ∧
  both .icmpLeI .icmpLeIL (fun a b => (low32 a).sle (low32 b)) ∧
  both .icmpLtN .icmpLtNL (fun a b => (low32 a).ult (low32 b)) ∧
  both .icmpLeN .icmpLeNL (fun a b => (low32 a).ule (low32 b)) ∧
  both .lcmpEq .lcmpEqL (fun a b => a == b) ∧
  both .lcmpNe .lcmpNeL (fun a b => a != b) ∧
  both .lcmpLtI .lcmpLtIL (fun a b => a.slt b) ∧
  both .lcmpLtN .lcmpLtNL (fun a b => a.ult b)

/-- R202 and R203: the floating compares, whose operands take their modifiers first, and predicate logic. -/
def Obligations.FloatCompares : Prop :=
  let cmp := fun (i : R3 → Instr) (j : R3m → Instr) (f : Fp → Fp → Bool) =>
    Decides i (fun a b => f (f32.ofWord a) (f32.ofWord b)) ∧
    DecidesM j fun m a b => f ((f32.ofWord a).mods m.absa m.nega) ((f32.ofWord b).mods m.absb m.negb)
  cmp .fcmpEq .fcmpEqL Fp.eqv ∧
  cmp .fcmpNe .fcmpNeL (fun x y => !x.eqv y) ∧
  cmp .fcmpLt .fcmpLtL Fp.lt ∧
  cmp .fcmpLe .fcmpLeL Fp.le

/-- R203: `qlop` computes q_dq := q_aq op q_bq. -/
def Obligations.PredicateLogic : Prop :=
  let op := fun (i : Ql → Instr) (f : Bool → Bool → Bool) =>
    ∀ x, Computes (i x) { len := 4, h := x.h, rd := [.q x.a, .q x.b] } 4 (.q x.d) fun rd =>
      boolWord (f (rd (.q x.a) != 0) (rd (.q x.b) != 0))
  op .qlopAnd and ∧ op .qlopOr or ∧ op .qlopXor xor ∧ op .qlopAndn fun a b => a && !b

/-- R204 to R208: FP32 and packed half precision in both forms. -/
def Obligations.FloatArithmetic : Prop :=
  let both := fun (i : R3 → Instr) (j : R3m → Instr) (f : Modifier → Word → Word → Word) => GivesR i (f .zero) ∧ GivesRm j f
  let mac := fun (i : R3 → Instr) (j : R3m → Instr) (f : Modifier → Word → Word → Word → Word) => GivesMac i (f .zero) ∧ GivesMacM j f
  both .fadd .faddL (f32Val fun m x y => x.add m.rnd y) ∧
  both .fsub .fsubL (f32Val fun m x y => x.add m.rnd y.neg) ∧
  both .fmul .fmulL (f32Val fun _ x y => x.mul y) ∧
  mac .ffma .ffmaL f32Fma ∧
  both .fmin .fminL (f32Val fun _ x y => x.min y) ∧
  both .fmax .fmaxL (f32Val fun _ x y => x.max y) ∧
  both .hadd2F16 .hadd2F16L (packVal f16 fun m x y => x.add m.rnd y) ∧
  both .hmul2F16 .hmul2F16L (packVal f16 fun _ x y => x.mul y) ∧
  mac .hfma2F16 .hfma2F16L (packFma f16) ∧
  mac .hfma2Bf16 .hfma2Bf16L (packFma bf16) ∧
  both .hadd2Bf16 .hadd2Bf16L (packVal bf16 fun m x y => x.add m.rnd y)

/-- R207 and R209 to R212: special functions take 4 cycles a thread and 12 to be readable, conversions one and 4 (R196). -/
def Obligations.FunctionsAndConversions : Prop :=
  GivesF 4 12 .fsfu sfuVal ∧ GivesFm 4 12 .fsfuL sfuVal ∧
  GivesF 1 4 .cvt cvtVal ∧ GivesFm 1 4 .cvtL cvtVal ∧
  GivesF 1 4 .cvtp cvtpVal ∧ GivesFm 1 4 .cvtpL cvtpVal

/-- R213: the immediate instructions. A constant is sign-extended, a shift count is not. -/
def Obligations.Immediates : Prop :=
  let both := fun (i : Im → Instr) (j : Im64 → Instr) (f : W32 → W32 → W32) =>
    GivesI i (fun a n => zext32 (f (low32 a) (n.signExtend 32))) ∧ GivesI64 j fun a n => zext32 (f (low32 a) n)
  let shift := fun (i : Im → Instr) (j : Im64 → Instr) (f : W32 → Nat → W32) =>
    GivesI i (fun a n => zext32 (f (low32 a) n.toNat)) ∧ GivesI64 j fun a n => zext32 (f (low32 a) (n.toNat % 64))
  both .iaddi .iaddiL (· + ·) ∧ both .andi .andiL (· &&& ·) ∧ both .ori .oriL (· ||| ·) ∧ both .xori .xoriL (· ^^^ ·) ∧
  shift .shli .shliL (fun a n => a <<< n) ∧ shift .shriN .shriNL (fun a n => a >>> n) ∧
  shift .shriI .shriIL BitVec.sshiftRight ∧
  DecidesI .icmpiEq .icmpiEqL (fun a b => low32 a == low32 b) ∧ DecidesI .icmpiLtI .icmpiLtIL (fun a b => (low32 a).slt (low32 b)) ∧
  GivesK false .movi (fun n _ => n.signExtend 64) ∧ GivesK64 false .moviL (fun n _ => n.signExtend 64) ∧
  GivesK true .movhi (fun n d => (n.signExtend 32 : W32) ++ low32 d) ∧ GivesK64 true .movhiL (fun n d => n ++ low32 d) ∧
  GivesK false .fmovi (fun n _ => fmoviShort n) ∧ GivesK64 false .fmoviL (fun n _ => zext32 n)

/-- R181: the compact instructions compute d := d op a, in 2 bytes and without a guard. -/
def Obligations.Compact : Prop :=
  (∀ x, Computes (.movC x) { len := 2, h := openHdr, rd := [src x.u x.a] } 4 (.v x.d) fun rd => zext32 (low32 (rd (src x.u x.a)))) ∧
  GivesC .iaddC (fun d a => zext32 (low32 d + low32 a)) ∧ GivesC .isubC (fun d a => zext32 (low32 d - low32 a)) ∧
  GivesC .imulC (fun d a => zext32 (low32 d * low32 a)) ∧ GivesC .andC (fun d a => zext32 (low32 d &&& low32 a)) ∧
  GivesC .orC (fun d a => zext32 (low32 d ||| low32 a)) ∧ GivesC .xorC (fun d a => zext32 (low32 d ^^^ low32 a)) ∧
  GivesC .shlC (fun d a => zext32 (low32 d <<< (low32 a).toNat)) ∧ GivesC .shrNC (fun d a => zext32 (low32 d >>> (low32 a).toNat)) ∧
  GivesC .shrIC (fun d a => zext32 ((low32 d).sshiftRight (low32 a).toNat)) ∧
  GivesC .faddC (f32Val fpAdd .zero) ∧ GivesC .fsubC (f32Val fpSub .zero) ∧ GivesC .fmulC (f32Val fpMul .zero) ∧
  GivesC .fmaxC (f32Val fpMax .zero) ∧ GivesC .fminC (f32Val fpMin .zero) ∧
  ∀ x, Computes (.iaddi5C x) { len := 2, h := openHdr, rd := [.v x.d] } 4 (.v x.d) fun rd => zext32 (low32 (rd (.v x.d)) + x.i.signExtend 32)

/-- R214 and R216: the secondary integer and floating functions; bit 0 of the immediate chooses the width. -/
def Obligations.Secondary : Prop :=
  let un := fun x : E64 => [extA x]
  let bin := fun x : E64 => [extA x, extB x]
  GivesE .rotl .rotlL bin (fun x rd => if x.i.getLsbD 0 then (rd (extA x)).rotateLeft (low32 (rd (extB x))).toNat
    else zext32 ((low32 (rd (extA x))).rotateLeft (low32 (rd (extB x))).toNat)) ∧
  GivesE .brev .brevL un (fun x rd => if x.i.getLsbD 0 then (rd (extA x)).reverse else zext32 (low32 (rd (extA x))).reverse) ∧
  GivesE .fclass .fclassL un (fun x rd => fclassVal 0 (rd (extA x))) ∧
  GivesE .frnd .frndL un (fun x rd => frndVal x.i.toNat (rd (extA x))) ∧
  GivesE .fexp .fexpL bin (fun x rd => fexpVal 0 (rd (extA x)) (rd (extB x))) ∧
  DecidesE .fcmpOrd .fcmpOrdL (fun x rd => !(f32.ofWord (rd (extA x))).isNan && !(f32.ofWord (rd (extB x))).isNan) ∧
  DecidesE .fcmpUnord .fcmpUnordL (fun x rd => (f32.ofWord (rd (extA x))).isNan || (f32.ofWord (rd (extB x))).isNan)

/-! ## Threads of the group and control flow -/

/-- R387: `nop` changes no register; every thread passes it. -/
def Obligations.NopPasses : Prop :=
  let pass := fun (len : Nat) (_ : State) (_ : Grp) (_ : Nat) (t : Thread) => t.complete len
  Moves .nopC { len := 2, h := openHdr } (fun _ _ => True) (pass 2) ∧
  (∀ x, Moves (.nop x) { len := 4, h := x.h } (fun _ _ => True) (pass 4)) ∧
  ∀ x, Moves (.nopL x) { len := 8, h := x.h } (fun _ _ => True) (pass 8)

/-- R217 and R44: predicates 0 to 11 become bits 0 to 11 of a register, and back; a stage predicate takes no write. -/
def Obligations.PredicateWords : Prop :=
  let word := fun (l : LaneI) (_ : State) (G : Grp) (i : Nat) => (G.cs.thread i).predWord (G.cyc l i)
  let reads := (List.range 12).map fun i => Rd.q (BitVec.ofNat 4 i)
  (∀ t cyc i, i < 12 → (Thread.predWord t cyc).getLsbD i = t.readQ (BitVec.ofNat 4 i) cyc) ∧
  (∀ x, let l := laneE 4 (extD1 x) reads; Delivers (.q2v x) l 4 (.v x.d) (fun _ _ => True) (word l)) ∧
  (∀ x, let l := laneE 8 x reads; Delivers (.q2vL x) l 4 (.v x.d) (fun _ _ => True) (word l)) ∧
  let back := fun (l : LaneI) (a : Rd) (_ : State) (G : Grp) (i : Nat) (t : Thread) =>
    (if i ∈ G.active l then (List.range 12).foldl (fun t j =>
        t.result (.q (BitVec.ofNat 4 j)) (boolWord ((G.read l i a).getLsbD j)) (G.cyc l i + 4)) t else t).complete l.len
  (∀ x, Moves (.v2q x) (laneE 4 (extH0 x) [extA (extH0 x)]) (fun _ _ => True) (back (laneE 4 (extH0 x) [extA (extH0 x)]) (extA (extH0 x)))) ∧
  ∀ x, Moves (.v2qL x) (laneE 8 x [extA x]) (fun _ _ => True) (back (laneE 8 x [extA x]) (extA x))

/-- R219 and R220: what a predicate gather gives from the participants and those of them whose predicate is 1. On a control
core a thread is its own only participant (R20). -/
def Obligations.Gathers : Prop :=
  let parts := fun (l : LaneI) (G : Grp) (i : Nat) => if isCtl G.g.core then [i] else if l.uni then G.g.slots else G.active l
  let gather := fun (i : Instr) (len : Nat) (x : E64) (dst : Rd) (f : List Nat → List Nat → Word) =>
    let l := laneE len x [.q x.p] true
    Delivers i l 4 dst (fun _ _ => True) fun _ G j => f (parts l G j) ((parts l G j).filter fun k => G.read l k (.q x.p) != 0)
  let count := fun _ on : List Nat => BitVec.ofNat 64 on.length
  let any := fun _ on : List Nat => boolWord !on.isEmpty
  let all := fun parts on : List Nat => boolWord (on.length == parts.length)
  let mask := fun _ on : List Nat => BitVec.ofNat 64 (slotMask on)
  let first := fun (i : Instr) (len : Nat) (x : E64) =>
    let l := laneE len x [] true
    Delivers i l 4 (extQ x) (fun _ _ => True) fun _ G j => boolWord ((parts l G j).headD j == j)
  (∀ x, gather (.qpop x) 4 (extEd x) (extD (extEd x)) count) ∧ (∀ x, gather (.qpopL x) 8 x (extD x) count) ∧
  (∀ x, gather (.pany x) 4 (extD1 x) (extQ (extD1 x)) any) ∧ (∀ x, gather (.panyL x) 8 x (extQ x) any) ∧
  (∀ x, gather (.pall x) 4 (extD1 x) (extQ (extD1 x)) all) ∧ (∀ x, gather (.pallL x) 8 x (extQ x) all) ∧
  (∀ x, gather (.pmask x) 4 (extEd x) (extD (extEd x)) mask) ∧ (∀ x, gather (.pmaskL x) 8 x (extD x) mask) ∧
  (∀ x, first (.pfirst x) 4 (extD1 x)) ∧ ∀ x, first (.pfirstL x) 8 x

/-- R219: a register exchange takes a from the participant at the source index within the exchange set, and a thread's own a
where the index names no participant. -/
def Obligations.Exchanges : Prop :=
  let get := fun (i : Instr) (len : Nat) (x : E64) (index : Nat → Word → Nat → Int) =>
    let l := laneE len x [extA x, extB x] true
    Delivers i l 4 (.v x.d) (fun _ _ => x.u = false) fun _ G j =>
      let set := G.exchSet j
      let k := index (j - set.1) (G.read l j (extB x)) set.2
      G.read l (if isCtl G.g.core = false ∧ 0 ≤ k ∧ k < set.2 ∧ set.1 + k.toNat ∈ G.active l then set.1 + k.toNat else j) (extA x)
  let at_ := fun (_ : Nat) (b : Word) (_ : Nat) => ((low32 b).toNat : Int)
  let flip := fun (r : Nat) (b : Word) (_ : Nat) => ((r ^^^ (low32 b).toNat : Nat) : Int)
  let step := fun (r : Nat) (b : Word) (_ : Nat) => r + (low32 b).toInt
  let rot := fun (r : Nat) (b : Word) (n : Nat) => (((r + (low32 b).toNat) % n : Nat) : Int)
  (∀ x, get (.xgetAt x) 4 (extD1 x) at_) ∧ (∀ x, get (.xgetAtL x) 8 x at_) ∧
  (∀ x, get (.xgetFlip x) 4 (extD1 x) flip) ∧ (∀ x, get (.xgetFlipL x) 8 x flip) ∧
  (∀ x, get (.xgetStep x) 4 (extD1 x) step) ∧ (∀ x, get (.xgetStepL x) 8 x step) ∧
  (∀ x, get (.xgetRot x) 4 (extD1 x) rot) ∧ ∀ x, get (.xgetRotL x) 8 x rot

/-- R224 and R233: a taken branch leaves the levels it jumps out of and goes to its target; where the condition does not
hold a thread goes on. -/
def Obligations.Branches : Prop :=
  let goes := fun (i : Instr) (l : LaneI) (ok : State → Grp → Prop) (target : State → Grp → Nat → Option Word) =>
    Moves i l ok fun s G j t =>
      match (if j ∈ G.active l then target s G j else none) with
      | some g => t.branch g
      | none => t.complete l.len
  (∀ x, goes (.bra x) { len := 4, h := x.h } (fun _ _ => True) fun _ G _ => some (G.g.pc + 2 * x.i.signExtend 64)) ∧
  (∀ x, goes (.braL x) { len := 8, h := x.h } (fun _ _ => True) fun _ G _ => some (G.g.pc + 2 * x.i.signExtend 64)) ∧
  (∀ x, let l : LaneI := { len := 4, h := x.h, rd := [.v x.a] }
    goes (.brx x) l (fun _ G => ∀ j ∈ G.active l, (G.read l j (.v x.a)).getLsbD 0 = false) fun _ G j => some (G.read l j (.v x.a))) ∧
  (∀ x, let a := src x.m.au x.r.a; let l : LaneI := { len := 8, h := x.r.h, rd := [a] }
    goes (.brxL x) l (fun _ G => ∀ j ∈ G.active l, (G.read l j a).getLsbD 0 = false) fun _ G j => some (G.read l j a)) ∧
  ∀ x, let l : LaneI := { len := 8, h := x.h, rd := [.v x.a] }
    goes (.balw x) l (fun _ _ => True) fun s G j =>
      let dest := (G.read l j (.v x.a)).toNat % 512
      if (s.core G.g.core).closed.getLsbD dest = true ∧ dest ≠ s.rank then some (G.g.pc + 2 * x.i.signExtend 64) else none

/-- R226 with at most four entries: a call pushes the address after it and jumps, a return pops the newest entry and goes
there as a taken branch does. -/
def Obligations.CallsAndReturns : Prop :=
  let calls := fun (i : Instr) (l : LaneI) (odd : Bool) (target : Grp → Nat → Word) =>
    Moves i l (fun _ G => ∀ j ∈ G.active l, (G.cs.thread j).depth < 4 ∧ (odd = true → (target G j).getLsbD 0 = false) ∧
        ¬ (0 < (G.cs.thread j).lopen ∧ (G.cs.thread j).pc + BitVec.ofNat 64 l.len = (G.cs.thread j).level.lend + 2)) fun _ G j t =>
      if j ∈ G.active l then
        { t with rs := (if t.rs.length = 4 then t.rs.drop 1 else t.rs) ++ [G.g.pc + BitVec.ofNat 64 l.len], depth := t.depth + 1
                 pc := target G j }
      else t.complete l.len
  (∀ x, calls (.call x) { len := 4, h := x.h } false fun G _ => G.g.pc + 2 * x.i.signExtend 64) ∧
  (∀ x, calls (.callL x) { len := 8, h := x.h } false fun G _ => G.g.pc + 2 * x.i.signExtend 64) ∧
  (∀ x, let l : LaneI := { len := 4, h := x.h, rd := [.v x.a] }; calls (.callx x) l true fun G j => G.read l j (.v x.a)) ∧
  (∀ x, let a := src x.m.au x.r.a; let l : LaneI := { len := 8, h := x.r.h, rd := [a] }
    calls (.callxL x) l true fun G j => G.read l j a) ∧
  ∀ x, let l : LaneI := { len := 4, h := x.h }
    Moves (.ret x) l (fun _ G => ∀ j ∈ G.active l, 0 < (G.cs.thread j).depth ∧ (G.cs.thread j).depth ≤ 4) fun _ G j t =>
      if j ∈ G.active l then Thread.branch { t with rs := t.rs.dropLast, depth := t.depth - 1 } (t.rs.getLastD 0) else t.complete 4

/-- R228 and R233: `exit` ends the threads whose guard is true, `yield` passes, `brk` leaves the innermost body. -/
def Obligations.ExitYieldBreak : Prop :=
  (∀ x s G, let l : LaneI := { len := 4, h := x.h }
    Runs s G l → ∃ t, exec (.exit x) s = .next t ∧ Ran s t G fun i a b => b = if i ∈ G.active l then a.exit else a.complete 4) ∧
  (∀ x s G, let l : LaneI := { len := 4, h := x.h }
    Runs s G l → ∃ t c, exec (.yield x) s = .next t ∧ Left s t G c ∧ (∀ i ∈ G.g.slots, c.thread i = (G.cs.thread i).complete 4) ∧
      (∀ i, i ∉ G.g.slots → c.thread i = G.cs.thread i) ∧
      { c with threads := [] } = { G.cs with threads := [], yieldUntil := if G.active l = [] then G.cs.yieldUntil else some (G.g.t + 64) }) ∧
  ∀ x, let l : LaneI := { len := 4, h := x.h }
    Moves (.brk x) l (fun _ G => ∀ j ∈ G.active l, (G.cs.thread j).inBody = true) fun _ G j t =>
      if j ∈ G.active l then t.brk else t.complete 4

/-- R229, R230 and R232: a `loop` opens a level in every thread whose guard is true, with the ring and stages of the prefix
where an `lcfg` stands before it, or skips the body where the trip count is 0.
R234: the loop-control state is read at a selector, and written where the value is one that may be written. -/
def Obligations.Loops : Prop :=
  (
    let opens := fun (at_ : State) (i : Instr) (x : LaneI) (off len : Nat) (trip : Rd) (e : Nat) (pre : Grp → Nat → Option (Nat × Nat)) (s : State) (G : Grp) =>
      let own := G.g.pc + BitVec.ofNat 64 off
      let o : LoopOp := { own := own, first := own + BitVec.ofNat 64 len, last := own + BitVec.ofNat 64 (2 * e) }
      let trips := fun j => (G.read x j trip).toNat % 2 ^ 32
      (∀ j ∈ G.active x, (G.cs.thread j).loopFaults o (trips j) (((pre G j).map Prod.snd).getD 1) = []) →
      ∃ t, exec i at_ = .next t ∧ Ran s t G fun j a b => b = if j ∈ G.active x then a.openLoop o (trips j) (pre G j) else a.complete x.len
    (∀ x s G, let l : LaneI := { len := 4, h := x.h, rd := [src x.u x.t] }
      Runs s G l → opens s (.loop x) l 0 4 (src x.u x.t) x.e.toNat (fun _ _ => none) s G) ∧
    (∀ x s G, let l : LaneI := { len := 8, h := x.h, rd := [src x.u x.t] }
      Runs s G l → opens s (.loopL x) l 0 8 (src x.u x.t) x.e.toNat (fun _ _ => none) s G) ∧
    let pair := fun (x : Lc) (len : Nat) (h : Hdr) (trip : Rd) (e : Nat) (s s' : State) (G : Grp) =>
      let l : LaneI := { len := 4 + len, h := h, rd := [trip], more := guardRd x.h }
      h.guardOk = true → Runs s' G l →
        opens s (.lcfg x) l 4 len trip e
          (fun G j => if guardHolds x.h (G.cs.thread j) (G.regCyc l j) then some (x.z.toNat, x.k.toNat + 1) else none) s' G
    ∀ x s s' G b w v, s.issue = some G.g → s.fetch { G.g with pc := G.g.pc + 4 } = (.bits b, s') →
      (opBits b = some (.loop, w, v) → let y := unLo w; pair x 4 y.h (src y.u y.t) y.e.toNat s s' G) ∧
      (opBits b = some (.loopL, w, v) → let y := unLo64 w v; pair x 8 y.h (src y.u y.t) y.e.toNat s s' G)) ∧
  (
    let gets := fun (i : Instr) (len : Nat) (x : E64) =>
      Delivers i (laneE len x []) 4 (extD x) (fun _ _ => True) fun _ G j => (G.cs.thread j).loopGet (x.i.toNat % 32)
    let puts := fun (i : Instr) (len : Nat) (x : E64) =>
      let l := laneE len x [extA x]
      Moves i l (fun _ G => ∀ j ∈ G.active l, loopPutFault (x.i.toNat % 32) (G.read l j (extA x)) = none) fun _ G j t =>
        (if j ∈ G.active l then t.loopPut (x.i.toNat % 32) (G.read l j (extA x)) else t).complete len
    (∀ x, gets (.lget x) 4 (extEd x)) ∧ (∀ x, gets (.lgetL x) 8 x) ∧
    (∀ x, puts (.lput x) 4 (extH0 x)) ∧ (∀ x, puts (.lputL x) 8 x) ∧
    ∀ t sel a, sel ≤ 18 → loopPutFault sel a = none → (sel = 18 → a.toNat < 16) → (sel = 17 → a.toNat < 8) →
      (sel = 16 → a.toNat < 512) → (sel < 16 → sel % 4 < 2 → a.toNat < 2 ^ 32) → (Thread.loopPut t sel a).loopGet sel = a)

/-- R236 and R20: threads that reach a `cnv` wait for those they name, or go on at once on a control core; every wait that is
then over ends. -/
def Obligations.Convergence : Prop :=
  let waits := fun (i : Instr) (l : LaneI) (held : Grp → List Nat) (mask : Grp → Nat → Nat) (pred : Option (BitVec 4)) =>
    Moves i l (fun _ G => isCtl G.g.core = true ∨ held G = []) (fun _ _ _ t => t.complete l.len) ∧
    ∀ s G, Runs s G l → isCtl G.g.core = false → held G ≠ [] → ∃ (t : State) (c : Course) (due : Nat), exec i s = .next t ∧ Left s t G (c.converge G.tk.width s.now) ∧
      (∀ j ∈ held G, c.thread j =
        { G.cs.thread j with wait := .conv (mask G j &&& slotMask (unitSlots (G.cs.unit G.tk.width j))) pred due l.len, waitOrd := s.nextOrd }) ∧
      (∀ j ∈ G.g.slots, j ∉ held G → c.thread j = (G.cs.thread j).complete l.len) ∧
      (∀ j, j ∉ G.g.slots → c.thread j = G.cs.thread j) ∧ { c with threads := [] } = { G.cs with threads := [] }
  let byPred := fun (l : LaneI) (p : BitVec 4) (G : Grp) => (G.active l).filter fun j => G.read l j (.q p) != 0
  (∀ x, let l : LaneI := { len := 4, h := x.h }; waits (.cnv x) l (fun G => G.active l) (fun _ _ => 2 ^ 64 - 1) none) ∧
  (∀ x, let l : LaneI := { len := 4, h := x.h, rd := [.c x.d] }
    waits (.cnvMask x) l (fun G => G.active l) (fun G j => (G.read l j (.c x.d)).toNat) none) ∧
  (∀ x, let l : LaneI := { len := 4, h := x.h, rd := [.q 0] }; waits (.cnvq x) l (byPred l 0) (fun _ _ => 2 ^ 64 - 1) (some 0)) ∧
  ∀ x, let l : LaneI := { len := 8, h := x.h, rd := [.q x.p] }; waits (.cnvqL x) l (byPred l x.p) (fun _ _ => 2 ^ 64 - 1) (some x.p)

/-- R239: a guard slot of the course takes the predicate's value, or becomes unresolved. -/
def Obligations.GuardSlots : Prop :=
  let sets := fun (i : Instr) (l : LaneI) (n : Nat) (v : Grp → Nat → GSlot) =>
    ∀ s G, Runs s G l → ∃ t c, exec i s = .next t ∧ Left s t G c ∧ (∀ j ∈ G.g.slots, c.thread j = (G.cs.thread j).complete l.len) ∧
      (∀ j, j ∉ G.g.slots → c.thread j = G.cs.thread j) ∧
      { c with threads := [] } = { G.cs with threads := [], g := (G.active l).foldl (fun g j => g.set (n % 16) (v G j) (Nat.mod_lt n (by decide))) G.cs.g }
  let set := fun (i : Instr) (len : Nat) (x : E64) =>
    let l := laneE len x [.q x.p]
    sets i l x.i.toNat fun G j => if G.read l j (.q x.p) != 0 then .isTrue else .isFalse
  let clear := fun (i : Instr) (len : Nat) (x : E64) => sets i (laneE len x []) x.i.toNat fun _ _ => .unresolved
  (∀ x, set (.setg x) 4 (extH0 x)) ∧ (∀ x, set (.setgL x) 8 x) ∧ (∀ x, clear (.clrg x) 4 (extH0 x)) ∧ ∀ x, clear (.clrgL x) 8 x

/-! ## Special registers, layouts and handles -/

/-- R242, R51, R269 and R243: reads of the numbered registers, of a layout's words, and of the debug items.
R51 and R52: what the thread, course, task and place registers read. -/
def Obligations.SpecialReads : Prop :=
  (
    let csr := fun (i : Instr) (len : Nat) (x : E64) =>
      let l := laneE len x [] false (csrSup x.i.toNat)
      Delivers i l 4 (extD x) (fun _ _ => csrAssigned x.i.toNat = true) fun s G j =>
        s.csrRead G.g.core G.g.course j (G.cyc l j) G.cs G.tk x.i.toNat
    let word := fun (i : Instr) (len : Nat) (x : E64) =>
      Delivers i (laneE len x []) 4 (extD x) (fun _ _ => True) fun _ G _ =>
        BitVec.ofNat 64 (imageWord (G.tk.layout (x.i.toNat % 32)) (x.i.toNat / 32 % 16))
    let item := fun (i : Instr) (len : Nat) (x : E64) =>
      let l := laneE len x [] false true
      let k := x.i.toNat / 4096
      Delivers i l 4 (.v x.d) (fun _ _ => k < 6 ∨ (k = 6 ∧ x.i.toNat % 4096 % 32 ≤ 18)) fun s G j =>
        (s.core G.g.core).item k (x.i.toNat % 4096) (G.cyc l j)
    (∀ x, csr (.csrr x) 4 (extEd x)) ∧ (∀ x, csr (.csrrL x) 8 x) ∧ (∀ x, word (.mapget x) 4 (extEd x)) ∧ (∀ x, word (.mapgetL x) 8 x) ∧
    (∀ x, item (.dbgrd x) 4 (extD1 x)) ∧ ∀ x, item (.dbgrdL x) 8 x) ∧
  (
    ∀ (s : State) (core course slot cyc : Nat) (c : Course) (tk : Task),
      let read := s.csrRead core course slot cyc c tk
      read 0x000 = BitVec.ofNat 64 (c.thread slot).tid ∧ read 0x004 = BitVec.ofNat 64 tk.x ∧ read 0x005 = BitVec.ofNat 64 tk.y ∧
      read 0x006 = BitVec.ofNat 64 tk.z ∧ read 0x008 = BitVec.ofNat 64 (core % 132) ∧ read 0x00B = BitVec.ofNat 64 (core / 132) ∧
      read 0x00C = BitVec.ofNat 64 s.rank ∧ read 0x010 = BitVec.ofNat 64 cyc ∧ read 0x020 = c.tstat ∧ read 0x021 = tk.astat ∧
      read 0x022 = c.fstat ∧ read 0x023 = (c.thread slot).seqtag.setWidth 64 ∧ read 0x038 = tk.rsbase ∧
      read 0x040 = (s.core core).dbgctl ∧ read 0x0F0 = (s.die (core / 132)).duty ∧ read 0x0F1 = (s.core core).trapvec)

/-- R221, R265, R273, R271, R272 and R53: results that stand at once, handle pairs, and the inspection of layouts, which also
leaves its result in `tstat`; and what a register reads after such a result. That the results of `tlbprobe`, `alw` and `bankq`,
which R265 and R272 scoreboard, stand at once is the model's choice (log 13: DEDUCED). -/
def Obligations.Inspection : Prop :=
  let now := fun (i : Instr) (len : Nat) (x : E64) (val : State → Grp → Nat → Word) =>
    Alters i (laneE len x [extA x]) (fun _ _ => True) fun s G j c => G.writeNow (extD x) j (val s G j) c
  let alw := fun (len : Nat) (x : E64) (s : State) (G : Grp) (j : Nat) =>
    BitVec.ofNat 64 (s.allowance (coreDie G.g.core) ((G.read (laneE len x [extA x]) j (extA x)).toNat % 512))
  let probe := fun (len : Nat) (x : E64) (s : State) (G : Grp) (j : Nat) =>
    probeWord (s.probe G.g.core G.tk.ctx (G.read (laneE len x [extA x]) j (extA x))) (G.cs.thread j).sup
  let pair := fun (i : Instr) (l : LaneI) (d : Reg) (n : Nat) =>
    Alters i l (fun _ _ => d.getLsbD 0 = false) fun _ G j c =>
      G.deliver l 4 (.v (d + 1)) j ((G.tk.handle n >>> 64).setWidth 64) (G.deliver l 4 (.v d) j ((G.tk.handle n).setWidth 64) c)
  (∀ x, now (.alw x) 4 (extEd x) (alw 4 (extEd x))) ∧ (∀ x, now (.alwL x) 8 x (alw 8 x)) ∧
  (∀ x, now (.tlbprobe x) 4 (extEd x) (probe 4 (extEd x))) ∧ (∀ x, now (.tlbprobeL x) 8 x (probe 8 x)) ∧
  (∀ x, pair (.hget x) { len := 4, h := x.h } x.d 0) ∧ (∀ x, pair (.hgetL x) { len := 8, h := x.h } x.d (x.i.toNat % 16)) ∧
  (∀ x, let l : LaneI := { len := 8, h := x.h }
    Alters (.mapchk x) l (fun _ _ => True) fun _ G j c =>
      let r := chkResult (G.tk.layout x.m.toNat) x.k.toNat
      G.deliver l 4 (.v x.v) j (BitVec.ofNat 64 (2 ^ 16 * r.1 + r.2 % 2 ^ 16))
        { c with tstat := putField (putField c.tstat 56 2 r.1) 40 16 r.2 }) ∧
  (∀ x, let l : LaneI := { len := 8, h := x.h }
    Alters (.bankq x) l (fun _ G => x.x = 1 ∨ (1 ≤ hKind (G.tk.handle x.hd.toNat) ∧ hKind (G.tk.handle x.hd.toNat) ≤ 6)) fun _ G j c =>
      let d := bankResult (G.tk.layout x.m.toNat) x.k.toNat (if x.x = 1 then none else some (G.tk.handle x.hd.toNat))
      G.writeNow (.v x.v) j (BitVec.ofNat 64 d) { c with tstat := putField c.tstat 30 10 d }) ∧
  ∀ (G : Grp) (d : Rd) j val (c : Course) n, j < c.threads.length → (∀ q, d ≠ .q q) →
    (G.writeNow d j val c).regAt j ((c.thread j).ref d) n = val ∧
    ∀ i r, r ≠ (c.thread j).ref d ∨ (i ≠ j ∧ ∀ k, r ≠ .c k) → (G.writeNow d j val c).regAt i r n = c.regAt i r n

/-- R242, R58, R6 and R243: a register write takes effect for each active thread in ascending slot order, field by field. A
register without writable fields is left. -/
def Obligations.RegisterWrites : Prop :=
  let writes := fun (i : Instr) (len n : Nat) (how : CsrHow) (x : E64) => ∀ s G,
    let l := laneE len x [extA x] false (csrSup n)
    Runs s G l → csrAssigned n = true → (∀ f, csrFields n = some f → ∀ j ∈ G.active l, csrRz f how (G.read l j (extA x)) = false) →
    ∃ t, exec i s = .next t ∧
      match csrFields n with
      | none => Moved s t G fun _ a => a.complete len
      | some f => Passed ((G.active l).foldl (fun s j =>
          match s.course? G.g.core G.g.course, s.task? G.g.core G.cs.task with
          | some c, some tk => s.csrStore G.g.core G.g.course n
              (csrNew f how (s.csrRead G.g.core G.g.course j (G.cyc l j) c tk n) (G.read l j (extA x)))
          | _, _ => s) s) t G len
  (∀ x, writes (.csrw x) 4 0 .write (extH0 x)) ∧ (∀ x, writes (.csrwL x) 8 x.i.toNat .write x) ∧
  (∀ x, writes (.csrs x) 4 0 .set (extH0 x)) ∧ (∀ x, writes (.csrsL x) 8 x.i.toNat .set x) ∧
  (∀ x, writes (.csrc x) 4 0 .clear (extH0 x)) ∧ (∀ x, writes (.csrcL x) 8 x.i.toNat .clear x) ∧
  (∀ x, writes (.wpset x) 4 0x048 .write (extH0 x)) ∧ ∀ x, writes (.wpsetL x) 8 (0x048 + x.i.toNat % 4) .write x

/-- R51 and R53 to R57: a register of the numbered space reads what was stored in its fields; the other registers, memory
and the pools are as before. `fstat` loses its record with the bit that says it holds one. -/
def Obligations.RegisterStored : Prop :=
  ∀ (s : State) (core course slot cyc n : Nat) (c : Course) (tk : Task) (f : CsrFields) (v : Word),
    s.course? core course = some c → s.task? core c.task = some tk → csrFields n = some f → v &&& ~~~(f.rw ||| f.w1c ||| f.ro) = 0 →
    let t := s.csrStore core course n v
    t.mem = s.mem ∧ t.pool = s.pool ∧ t.issue = s.issue ∧
    ∃ c' tk', t.course? core course = some c' ∧ t.task? core c'.task = some tk' ∧ c'.threads = c.threads ∧ c'.c = c.c ∧
      t.csrRead core course slot cyc c' tk' n = (if n = 0x022 ∧ v.getLsbD 11 = false then v &&& ~~~0x1FF#64 else v) ∧
      ∀ m, m ≠ n → t.csrRead core course slot cyc c' tk' m = s.csrRead core course slot cyc c tk m

/-- R243, R241 and R146: the supervisor functions `halt`, `tret`, `cresize` and `dbgmb`. -/
def Obligations.SupervisorFunctions : Prop :=
  let halts := fun (i : Instr) (len : Nat) (h : Hdr) =>
    let l : LaneI := { len := len, h := h, priv := true }
    Moves i l (fun _ _ => True) fun _ G j a => (if j ∈ G.active l then { a with halted := true } else a).complete len
  let returns := fun (i : Instr) (len : Nat) (h : Hdr) => ∀ s G,
    let l : LaneI := { len := len, h := h, priv := true }
    Runs s G l → (∃ j, G.cs.trap = .handler j) → G.active l ≠ [] → s.writesPending G.g.core G.g.course = false →
    s.physNat (frameSlot G.g.core G.g.course + 0x18) 8 % 4 < 2 →
    ∃ u, Left s u G G.cs ∧ exec i s = .next { u.resume G.g.core G.g.course with issue := none }
  let resizes := fun (i : Instr) (len : Nat) (x : E64) => ∀ s G,
    let l := laneE len x [extA x] false true
    Runs s G l → (∀ j ∈ G.active l, (G.read l j (extA x)).toNat ≤ 15) →
    ∃ u, Moved s u G (fun j a => if j ∈ G.active l then { a with wait := .cresize (G.read l j (extA x)).toNat len } else a.complete len) ∧
      exec i s = .next { u.startResize (coreDie G.g.core) with issue := none }
  let posts := fun (i : Instr) (len : Nat) (x : E64) => ∀ s G,
    let l := laneE len x [extA x] false true
    Runs s G l → x.i.toNat % 16 < 15 → ∃ t u, exec i s = .next t ∧ Passed u t G len ∧
      u.core G.g.core = { s.core G.g.core with
        mbOut := (G.active l).foldl (fun w j => w.set (x.i.toNat % 16) (G.read l j (extA x)) (Nat.mod_lt _ (by decide))) (s.core G.g.core).mbOut } ∧
      (∀ k, k ≠ G.g.core → u.core k = s.core k) ∧ { u with cores := [] } = { s with cores := [] }
  (∀ x, halts (.halt x) 4 x.h) ∧ (∀ x, halts (.haltL x) 8 x.h) ∧ (∀ x, returns (.tret x) 4 x.h) ∧ (∀ x, returns (.tretL x) 8 x.h) ∧
  (∀ x, resizes (.cresize x) 4 (extH0 x)) ∧ (∀ x, resizes (.cresizeL x) 8 x) ∧
  (∀ x, posts (.dbgmb x) 4 (extH0 x)) ∧ (∀ x, posts (.dbgmbL x) 8 x) ∧
  ∀ (s : State) (d k n i w len : Nat) (r : List (Nat × Nat × Nat × Nat × Nat)), s.resizers d = (k, n, i, w, len) :: r → (s.die d).resize = none → w ≠ (s.die d).ways →
    s.startResize d = s.modDie d fun x => { x with resize := some w }

/-- R269 and R273: a layout word and a handle register are written for each active thread in ascending slot order; reserved
bits are written as zero (R6). -/
def Obligations.LayoutAndHandleWrites : Prop :=
  let writes := fun (i : Instr) (l : LaneI) (ok : Prop) (f : Grp → Nat → Task → Task) => ∀ s G, Runs s G l → ok →
    ∃ t, exec i s = .next t ∧ Ran s t G (fun _ a b => b = a.complete l.len) ∧
      t.task? G.g.core G.cs.task = some ((G.active l).foldl (fun tk j => f G j tk) G.tk) ∧
      ∀ k n, k ≠ G.g.core ∨ n ≠ G.cs.task → t.task? k n = s.task? k n
  let put := fun (i : Instr) (len : Nat) (x : E64) =>
    let l := laneE len x [extA x]
    let n := x.i.toNat % 32
    writes i l True fun G j tk => tk.setLayout n (putWord (tk.layout n) (x.i.toNat / 32 % 16) (G.read l j (extA x)).toNat)
  (∀ x, put (.mapput x) 4 (extH0 x)) ∧ (∀ x, put (.mapputL x) 8 x) ∧
  (∀ x, let l : LaneI := { len := 4, h := x.h, rd := [.v x.v, .v (x.v + 1)] }
    writes (.hset x) l (x.v.getLsbD 0 = false) fun G j tk =>
      tk.setHandle x.hd.toNat ((G.read l j (.v (x.v + 1)) ++ G.read l j (.v x.v) : BitVec 128) &&& ~~~(0xFFF#128 <<< 104))) ∧
  ∀ (m : BitVec 640) w v, w < 10 → v < 2 ^ 64 →
    imageWord (putWord m w v) w = (if w = 0 then v else if w = 9 then 0 else v % 2 ^ 50) ∧
    ∀ w', w' < 10 → w' ≠ w → imageWord (putWord m w v) w' = imageWord m w'

/-- R119 to R124 and R268 to R270: a layout operation writes `md` with the image it makes, for each active thread in ascending
slot order, from a record in the own pool where it takes one. -/
def Obligations.LayoutOperations : Prop :=
  let gives := fun (i : Instr) (l : LaneI) (md : Reg) (record : Option (Reg × Nat)) (f : Thread → List Byte → Task → Except Nat (BitVec 640)) =>
    ∀ s G ls tk,
      let off := match record with | some r => G.read l G.lowest (.c r.1) | none => 0
      let size := (record.map Prod.snd).getD 0
      let eas := if record.isSome then (G.active l).map fun j => (j, off) else []
      Runs s G l → s.recordCheck G size 8 true eas = .ok ls →
      (∀ e ∈ eas, s.recordBusy G.g.core G.g.course G.tk e.2.toNat size = false) →
      (G.active l).foldlM (fun tk j => (f (G.cs.thread j) (s.spBytes G.g.core G.tk off.toNat (if eas = [] then 0 else size)) tk).map
        (tk.setLayout md.toNat)) G.tk = .ok tk →
      ∃ t, exec i s = .next t ∧ Ran s t G (fun _ a b => b = a.complete l.len) ∧ t.task? G.g.core G.cs.task = some tk ∧
        ∀ k n, k ≠ G.g.core ∨ n ≠ G.cs.task → t.task? k n = s.task? k n
  (∀ x, gives (.mapset x) { len := 4, h := x.h, rd := [.c x.b] } x.d (some (x.b, 80)) fun _ bs _ =>
    if imageOk (BitVec.ofNat 640 (leNat bs)) then .ok (BitVec.ofNat 640 (leNat bs)) else .error 1) ∧
  (∀ x, gives (.mapchn x) { len := 4, h := x.h } x.d none fun _ _ tk => orRefuse (chainLayouts (tk.layout x.a.toNat) (tk.layout x.b.toNat))) ∧
  (∀ x, gives (.mapprt x) { len := 4, h := x.h, rd := [.c x.b] } x.d (some (x.b, 32)) fun t bs tk => tileOf t bs (tk.layout x.a.toNat)) ∧
  (∀ x, gives (.maptrn x) { len := 4, h := x.h, rd := [.c x.b] } x.d (some (x.b, 8)) fun _ bs tk =>
    let p := bs.map BitVec.toNat
    if (p.drop (layoutOf (tk.layout x.a.toNat)).ndims).any (fun y => decide (y ≠ 0)) then .error 1 else orRefuse (turnLayout (tk.layout x.a.toNat) p)) ∧
  ∀ x, gives (.mapflt x) { len := 4, h := x.h } x.d none fun _ _ tk => orRefuse (flatLayout (tk.layout x.a.toNat))

/-! ## Memory -/

/-- R249, R250, R253 and R177: a load begins one access for each thread, whose register awaits it; a load of 128 bits begins two,
of the low and the high half, for an even-odd pair. The return of an acquire load whose implied scope is `quad` or wider
(R161: any space but the own scratchpad) invalidates the lane load cache. -/
def Obligations.Loads : Prop :=
  let load := fun (i : Instr) (len : Nat) (x : Me) (disp : BitVec 32) =>
    let l : LaneI := { len := len, h := x.h, rd := [.v x.a] }
    Begins i l x.p { r := true } (accSize x.w) true true false (fun rd => effAddr x.w (rd (.v x.a)) disp) fun G e =>
      let reg := fun d : Reg => [RegRef.v ((G.cs.thread e.1).phys d)]
      let inval := x.o && decide (x.p ≠ 1)
      if x.w = 6 then
        [{ G.access e (.load x.o) 5 with dst := reg x.d, inval := inval },
          { G.access (e.1, e.2.1 + 8, e.2.2.plus 8) (.load x.o) 5 with dst := reg (x.d + 1), inval := inval }]
      else [{ G.access e (.load x.o) x.w with nib := (G.read l e.1 (.v x.a)).getLsbD 0, dst := reg x.d, inval := inval }]
  (∀ x, load (.ld x) 4 x 0) ∧ ∀ x, load (.ldL x) 8 x.r x.i

/-- R251 and R177: a store begins one access for each thread with its value; a store of 128 bits begins two. -/
def Obligations.Stores : Prop :=
  let store := fun (i : Instr) (len : Nat) (x : Me) (disp : BitVec 32) =>
    let l : LaneI := { len := len, h := x.h, rd := [.v x.d] ++ (if x.w = 6 then [.v (x.d + 1)] else []) ++ [.v x.a] }
    Begins i l x.p { w := true } (accSize x.w) true false true (fun rd => effAddr x.w (rd (.v x.a)) disp) fun G e =>
      let value := fun d : Reg => (G.read l e.1 (.v d)).setWidth 128
      if x.w = 6 then
        [{ G.access e (.store x.o) 5 with data := value x.d },
          { G.access (e.1, e.2.1 + 8, e.2.2.plus 8) (.store x.o) 5 with data := value (x.d + 1) }]
      else [{ G.access e (.store x.o) x.w with nib := (G.read l e.1 (.v x.a)).getLsbD 0, data := value x.d }]
  (∀ x, store (.st x) 4 x 0) ∧ ∀ x, store (.stL x) 8 x.r x.i

/-- R254 to R257: an atomic begins one access for each thread, whose register awaits the old value unless o is set;
`atom.cas` compares with d and writes the register after it. -/
def Obligations.Atomics : Prop :=
  let atom := fun (i : Instr) (len : Nat) (x : Me) (disp : BitVec 32) (op : AtomOp) =>
    let l : LaneI := { len := len, h := x.h, rd := [.v x.d] ++ (if op = .cas then [.v (x.d + 1)] else []) ++ [.v x.a] }
    Begins i l x.p { r := true, w := true } (accSize x.w) true (!x.o) true (fun rd => effAddr x.w (rd (.v x.a)) disp) fun G e =>
      [{ G.access e (.atom op x.o) x.w with
          data := (G.read l e.1 (.v (if op = .cas then x.d + 1 else x.d))).setWidth 128
          cmp := G.read l e.1 (.v x.d)
          dst := if x.o then [] else [.v ((G.cs.thread e.1).phys x.d)] }]
  let both := fun (i : Me → Instr) (j : Me64 → Instr) (op : AtomOp) => (∀ x, atom (i x) 4 x 0 op) ∧ ∀ x, atom (j x) 8 x.r x.i op
  both .atomAdd .atomAddL .add ∧ both .atomFadd .atomFaddL .fadd ∧ both .atomMin .atomMinL .min ∧ both .atomMax .atomMaxL .max ∧
  both .atomAnd .atomAndL .and ∧ both .atomOr .atomOrL .or ∧ both .atomXor .atomXorL .xor ∧ both .atomExch .atomExchL .exch ∧
  both .atomCas .atomCasL .cas

/-- R274 and R275: `tld` and `tst` begin one access (two of 8 bytes for an element of 128 bits) for each element of the tile
whose slot is a participant, in loop order, between the element's place in memory and its bits in that thread's registers.
With no participant they only pass. -/
def Obligations.TileAccesses : Prop :=
  let tile := fun (i : Instr) (x : Tl) (st : Bool) => ∀ s G,
    let l := tileLane x st G
    let core := G.g.core
    let hm := G.tk.handle x.hd.toNat
    let hr := G.tk.handle x.rh.toNat
    let bits := (layoutOf (G.tk.layout x.m.toNat)).bits
    let size := (bits + 7) / 8
    let need : Need := if st then { w := true } else { r := true }
    let addr := fun e : TileElem => (e.spot.map fun a => hBase hm + a.a).getD 0
    let reg := fun (q : Spot) (k : Nat) => BitVec.ofNat 5 ((8 * (q.a + 8 * hBase hr + k) + q.sub) / 64)
    Runs s G l →
    (G.active l = [] → ∃ t, exec i s = .next t ∧ Moved s t G fun _ a => a.complete 8) ∧
    ∀ j r origin ls, G.active l = j :: r → isCtl core = false → s.tileOrigin G l x st j = .ok origin →
      let els := tileElems (layoutOf (G.tk.layout x.m.toNat)) (layoutOf (G.tk.layout x.rl.toNat)) origin (G.active l)
      (∀ e ∈ els, s.tileFault core G.tk hm hr bits st e = none ∧ (8 ≤ bits → addr e % (bits / 8) = 0)) →
      (∀ e ∈ els, ∀ a, e.spot = some a → ∀ o, s.handlePlace core G.tk hm a.a a.csel = .pool core o → (s.core core).watch o size need = none) →
      s.homeCheck G need false (els.map fun e => (e.slot, BitVec.ofNat 64 (addr e), e.spot.map fun a => s.handlePlace core G.tk hm a.a a.csel)) = .ok ls →
      (∀ e ∈ els, ∀ q, e.reg = some q → ∀ p ∈ (G.cs.thread e.slot).sb, ∀ k ∈ elemPieces bits, p.1 ≠ .v (BitVec.ofNat 5 (hBase hr + (q.a + k) / 8))) →
      s.gate G (!st) st size ls = none →
      ∃ t, exec i s = .next t ∧ Issued s t G 8 ((els.zip ls).flatMap fun p => (elemPieces bits).flatMap fun k =>
        match p.1.spot, p.1.reg with
        | some a, some q =>
          let pos := (8 * (q.a + 8 * hBase hr + k) + q.sub) % 64
          [{ G.access (p.1.slot, p.2.2.1 + BitVec.ofNat 64 k, p.2.2.2.plus k) (if st then .store false else .load false) (elemWidth bits) with
              nib := decide (a.sub ≠ 0)
              data := if st then BitVec.ofNat 128 (((G.cs.thread p.1.slot).readV (reg q k) (G.cyc l p.1.slot)).toNat / 2 ^ pos) else 0
              dst := if st then [] else [.v (reg q k)]
              part := if st then none else some (pos, min bits 64)
              also := slotMask (G.active l), tile := decide (hKind hm = 5) }]
        | _, _ => [])
  (∀ x, tile (.tld x) x false) ∧ ∀ x, tile (.tst x) x true

/-- R261 to R264: what ends at issue. The core's load cache loses the four parts of a line; a fill of a line's four sectors
starts; a frame's page is asked to be moved; translations leave the two levels of the TLB.
R261: a write-back of a line begins an access of the line of 256 bytes for each thread; one of die scratch ends at once. -/
def Obligations.CacheAndTranslationHints : Prop :=
  (
    let inval := fun (i : Instr) (len : Nat) (x : A1) (disp : BitVec 32) => ∀ s G ls,
      let l : LaneI := { len := len, h := x.h, rd := [.v x.a] }
      Runs s G l → s.memCheck G 0 { r := true } 1 1 false ((G.active l).map fun j => (j, G.read l j (.v x.a) + disp.signExtend 64)) = .ok ls →
      ∃ t, exec i s = .next t ∧ Ran s t G (fun _ a b => b = a.complete len) ∧
        (∀ y ∈ (t.core G.g.core).lcache, ∀ e ∈ ls, ∀ k ∈ [0, 64, 128, 192], y.loc ≠ ((e.2.2.align 256).plus k).align 64) ∧
        (t.core G.g.core).lcache = (s.core G.g.core).lcache.filter fun y =>
          !(ls.any fun e => [0, 64, 128, 192].any fun k => decide (y.loc = ((e.2.2.align 256).plus k).align 64))
    let hint := fun (i : Instr) (len : Nat) (x : E64) (f : Grp → (Nat → Word) → State → Nat → State) => ∀ s G,
      let l := laneE len x [extA x]
      Runs s G l → ∃ t, exec i s = .next t ∧ Passed ((G.active l).foldl (f G fun j => G.read l j (extA x)) s) t G len
    let leaf := fun (G : Grp) (va : Word) (s : State) (f : TlbEntry → State) =>
      match s.probe G.g.core G.tk.ctx va with
      | some (.leaf e) => f e
      | _ => s
    let fill := fun (G : Grp) (va : Nat → Word) (s : State) (j : Nat) => leaf G (va j) s fun e =>
      match s.targetOf e (va57 (va j)) with
      | .home (.hbm d a) =>
        if e.permits { r := true } (G.cs.thread j).sup && !e.hostOwned && decide (e.phys (va57 (va j)) < 2 ^ 56) then
          [0, 64, 128, 192].foldl (fun s k => s.missFor (.hbm d (a / 256 * 256 + k))) s else s
      | _ => s
    let move := fun (toHost : Bool) (G : Grp) (va : Nat → Word) (s : State) (j : Nat) => leaf G (va j) s fun e =>
      let frame := leafBase e.pte.toNat e.size
      if pteBit e.pte.toNat 9 && (pteBit e.pte.toNat 8 != toHost) && !((s.die (frameDie frame)).migr.any fun m => decide (m.frame = frame)) then
        s.askMigration (frameDie frame) { frame := frame, toHost := toHost, assisted := false, ctx := G.tk.ctx, va := va57 (va j), pte := 0 }
      else s
    let drops := fun (i : Instr) (len : Nat) (x : E64) (hit : Nat → Nat → TlbEntry → Bool) => ∀ s G,
      let l := laneE len x [extA x] false true
      let gone := fun e : TlbEntry => (G.active l).any fun j => hit G.tk.ctx (va57 (G.read l j (extA x))) e
      Runs s G l → ∃ t, exec i s = .next t ∧ Ran s t G (fun _ a b => b = a.complete len) ∧
        (t.core G.g.core).tlb = (s.core G.g.core).tlb.filter (fun e => !gone e) ∧
        (t.die (coreDie G.g.core)).tlb = (s.die (coreDie G.g.core)).tlb.filter fun e => !gone e
    (∀ x, inval (.copInv x) 4 x 0) ∧ (∀ x, inval (.copInvL x) 8 x.r x.i) ∧
    (∀ x, hint (.pf x) 4 (extH0 x) fill) ∧ (∀ x, hint (.pfL x) 8 x fill) ∧
    (∀ x, hint (.migDev x) 4 (extH0 x) (move false)) ∧ (∀ x, hint (.migDevL x) 8 x (move false)) ∧ (∀ x, hint (.migHost x) 8 x (move true)) ∧
    (∀ x, drops (.tlbinvPage x) 4 (extH0 x) fun ctx va e => e.covers ctx va) ∧ (∀ x, drops (.tlbinvPageL x) 8 x fun ctx va e => e.covers ctx va) ∧
    (∀ x, drops (.tlbinvCtx x) 8 x fun ctx _ e => decide (e.ctx = ctx)) ∧ ∀ x, drops (.tlbinvAll x) 8 x fun _ _ _ => true) ∧
  (
    let back := fun (i : Instr) (len : Nat) (x : A1) (disp : BitVec 32) (op : Nat) =>
      let l : LaneI := { len := len, h := x.h, rd := [.v x.a] }
      Begins i l 0 { r := true } 1 false false true (fun rd => rd (.v x.a) + disp.signExtend 64) fun G e =>
        match e.2.2 with
        | .scratch _ _ => []
        | x => [{ G.access (e.1, e.2.1, x.align 256) (.cop op) 0 with size := 256 }]
    (∀ x, back (.copWb x) 4 x 0 1) ∧ (∀ x, back (.copWbL x) 8 x.r x.i 1) ∧ (∀ x, back (.copWbi x) 4 x 0 2) ∧
    ∀ x, back (.copWbiL x) 8 x.r x.i 2)

/-- R215 and R196: the divisions. Each active thread's quotient or remainder is on its way, ready a quarter of the width in
cycles after the thread's own, and its register awaits it. -/
def Obligations.Divisions : Prop :=
  let div := fun (i : Instr) (len : Nat) (x : E64) (f : ∀ n, BitVec n → BitVec n → BitVec n) => ∀ s G,
    let w := if x.i.getLsbD 0 then 64 else 32
    let l : LaneI := { laneE len x [extA x, extB x] with per := w / 4 }
    let a := fun j => G.read l j (extA x)
    let b := fun j => G.read l j (extB x)
    let results := (G.active l).zipIdx.map fun p : Nat × Nat =>
      ({ id := s.nextId + p.2, core := G.g.core, course := G.g.course, slot := p.1, dst := (G.cs.thread p.1).ref (extD x)
         val := if x.i.getLsbD 0 then f 64 (a p.1) (b p.1) else zext32 (f 32 (low32 (a p.1)) (low32 (b p.1)))
         ready := G.cyc l p.1 + w / 4 } : DivRes)
    Runs s G l → ∃ t, exec i s = .next t ∧
      Left { s with nextId := s.nextId + (G.active l).length, divs := s.divs ++ results } t G
        (G.completeAll l ((G.active l).zipIdx.foldl (fun c p => G.awaitDst (extD x) p.1 (s.nextId + p.2) c) G.cs))
  let both := fun (i : Ed → Instr) (j : E64 → Instr) (f : ∀ n, BitVec n → BitVec n → BitVec n) =>
    (∀ x, div (i x) 4 (extEd x) f) ∧ ∀ x, div (j x) 8 x f
  both .idivI .idivIL (fun n a b => if b = 0 then BitVec.allOnes n else a.sdiv b) ∧
  both .idivN .idivNL (fun n a b => if b = 0 then BitVec.allOnes n else a / b) ∧
  both .iremI .iremIL (fun _ a b => if b = 0 then a else a.srem b) ∧
  both .iremN .iremNL (fun _ a b => if b = 0 then a else a % b)

/-! ## Ordering -/

/-- R160 and R258: a fence at scope `thread`, or of no active thread, only passes. A release fence passes and holds back the
threads' later writes; another fence passes where there is nothing to wait for, with its effect on the core's load cache,
and else its threads wait. That an acquire fence holds its threads entirely, and that a fence waits for the accesses that are held
as well as for those that have left the lane, are the model's choices (log 74: DEDUCED). -/
def Obligations.Fences : Prop :=
  let fence := fun (i : Instr) (h : Hdr) (k : FenceKind) (named : Nat) => ∀ s G,
    let l : LaneI := { len := 4, h := h }
    let core := G.g.core
    let scope := if isCtl core = true ∧ named = 3 then 2 else named
    let ws := s.fenceAwaits core G.g.course k scope
    let pod := decide (scope = 7 ∨ k = .wack)
    let u := if pod = true ∧ k ≠ .acq then s.dueFor core (ws.map Await.id) else s
    let inval := decide (3 ≤ scope ∧ (k = .acq ∨ k = .full))
    let marked := if pod then G.cs.recordLost else G.cs
    Runs s G l → ∃ t, exec i s = .next t ∧
      if (scope = 0 ∧ k ≠ .wack) ∨ G.active l = [] then Moved s t G fun _ a => a.complete 4
      else if k = .rel then
        MovedAs u t G marked fun j a => (if j ∈ G.active l then { a with relAfter := a.relAfter ++ ws } else a).complete 4
      else if ws = [] then MovedAs (if inval then u.invalLane core else u) t G marked fun _ a => a.complete 4
      else Moved u t G fun j a => if j ∈ G.active l then { a with wait := .fence false ws inval pod s.nextOrd 4 } else a.complete 4
  (∀ x, fence (.fenceFull x) x.h .full x.p.toNat) ∧ (∀ x, fence (.fenceAcq x) x.h .acq x.p.toNat) ∧
  (∀ x, fence (.fenceRel x) x.h .rel x.p.toNat) ∧ ∀ x, fence (.fenceWack x) x.h .wack 0

/-- R158, R168, R170, R243, R259 and R260: `phase`, `waitn`, `fetchb` and `icinv` pass where what they wait for is over, and
else hold their threads. That `phase` waits for held accesses too, and what an invalidation of code drops, are the model's
choices (logs 74: DEDUCED, 75: DESIGN CHOICE). -/
def Obligations.Waits : Prop :=
  (∀ x s G, let l : LaneI := { len := 4, h := x.h }
    let core := G.g.core
    let scope := if isCtl core = true ∧ x.p.toNat = 3 then 2 else x.p.toNat
    let ws := s.phaseAwaits core G.g.course scope
    let u := if scope = 7 then s.dueAll core else s
    Runs s G l → ∃ t, exec (.phase x) s = .next t ∧
      if scope = 0 ∨ G.active l = [] then Moved s t G fun _ a => a.complete 4
      else if ws = [] ∧ u.oldestPhase core = none then
        MovedAs (if 3 ≤ scope then u.invalLane core else u) t G (if scope = 7 then G.cs.recordLost else G.cs) fun _ a => a.complete 4
      else Moved u t G fun j a =>
        if j ∈ G.active l then { a with wait := .fence true ws (decide (3 ≤ scope)) (decide (scope = 7)) u.nextOrd 4 } else a.complete 4) ∧
  (let waitn := fun (i : Instr) (len : Nat) (x : E64) => ∀ s G,
    let l : LaneI := { len := len, h := x.h }
    let k := x.i.toNat % 4
    let n := x.i.toNat / 4 % 64
    Runs s G l → ∃ t, exec i s = .next t ∧
      if G.active l = [] ∨ n = 63 then Moved s t G fun _ a => a.complete len
      else if G.cs.cnt.toList.getD k 0 ≤ n then Passed (s.acquireClass G.g.core G.g.course k) t G len
      else Moved s t G fun j a => if j ∈ G.active l then { a with wait := .waitn k n len } else a.complete len
   (∀ x, waitn (.waitn x) 4 (extH0 x)) ∧ ∀ x, waitn (.waitnL x) 8 x) ∧
  (∀ x s G, let l : LaneI := { len := 4, h := x.h }
    let ws := (s.courseWrites G.g.core G.g.course 7).filter fun w => !s.visible w
    Runs s G l → ∃ t, exec (.fetchb x) s = .next t ∧
      if G.active l = [] then Moved s t G fun _ a => a.complete 4
      else if s.codeWaitDone G.cs ws then MovedAs s t G G.cs.dropCode fun _ a => a.complete 4
      else Moved s t G fun j a => if j ∈ G.active l then { a with wait := .fetchb ws 4 } else a.complete 4) ∧
  let icinv := fun (i : Instr) (len : Nat) (x : E64) => ∀ s G,
    let l := laneE len x [extA x, extB x]
    let ws := (s.courseWrites G.g.core G.g.course 7).filter fun w => !s.visible w
    let lo := fun j => va57 (G.read l j (extA x))
    let size := fun j => (G.read l j (extB x)).toNat
    Runs s G l → ∃ t, exec i s = .next t ∧
      if G.active l = [] ∨ s.codeWaitDone G.cs ws = true then
        Passed ((G.active l).foldl (fun s j => s.invalCode G.g.core G.tk.ctx (lo j) (size j)) s) t G len
      else Moved s t G fun j a => if j ∈ G.active l then { a with wait := .icinv (lo j) (size j) ws len } else a.complete len
  (∀ x, icinv (.icinv x) 4 (extH0 x)) ∧ ∀ x, icinv (.icinvL x) 8 x

/-! ## Traps and barriers -/

/-- R61, R242, R243, R264 and R386: in task mode a supervisor function, and an access to a supervisor register, traps with code
0x11 in the lowest thread of the group in task mode. Where no check of R386 applies, none fails. That the trap is taken whatever
the threads' guards is the model's reading of R386 against R174, R245 and R266 (log 138: DEDUCED). -/
def Obligations.Privilege : Prop :=
  let traps := fun (i : Instr) (_ : LaneI) => ∀ s G, InLane s G → (∃ j ∈ G.g.slots, (G.cs.thread j).sup = false) →
    let j := (G.g.slots.filter fun j => !(G.cs.thread j).sup).headD 0
    exec i s = .next { s.trapNow G { code := 0x11, ipc := G.g.pc, tmask := 2 ^ j } with issue := none }
  let form := fun (len : Nat) (x : E64) (rd : List Rd) => laneE len x rd false true
  (∀ x, traps (.halt x) { len := 4, h := x.h, priv := true }) ∧ (∀ x, traps (.haltL x) { len := 8, h := x.h, priv := true }) ∧
  (∀ x, traps (.tret x) { len := 4, h := x.h, priv := true }) ∧ (∀ x, traps (.tretL x) { len := 8, h := x.h, priv := true }) ∧
  (∀ x, traps (.cresize x) (form 4 (extH0 x) [extA (extH0 x)])) ∧ (∀ x, traps (.cresizeL x) (form 8 x [extA x])) ∧
  (∀ x, traps (.dbgmb x) (form 4 (extH0 x) [extA (extH0 x)])) ∧ (∀ x, traps (.dbgmbL x) (form 8 x [extA x])) ∧
  (∀ x, traps (.dbgrd x) (form 4 (extD1 x) [])) ∧ (∀ x, traps (.dbgrdL x) (form 8 x [])) ∧
  (∀ x, traps (.wpset x) (form 4 (extH0 x) [extA (extH0 x)])) ∧ (∀ x, traps (.wpsetL x) (form 8 x [extA x])) ∧
  (∀ x, traps (.tlbinvPage x) (form 4 (extH0 x) [extA (extH0 x)])) ∧ (∀ x, traps (.tlbinvPageL x) (form 8 x [extA x])) ∧
  (∀ x, traps (.tlbinvCtx x) (form 8 x [extA x])) ∧ (∀ x, traps (.tlbinvAll x) (form 8 x [extA x])) ∧
  (∀ x, csrSup x.i.toNat = true → traps (.csrrL x) (form 8 x []) ∧ traps (.csrwL x) (form 8 x [extA x]) ∧
    traps (.csrsL x) (form 8 x [extA x]) ∧ traps (.csrcL x) (form 8 x [extA x])) ∧
  ∀ (G : Grp) (l : LaneI), (l.priv = true → ∀ j ∈ G.g.slots, (G.cs.thread j).sup = true) → G.tk.uchk = false → G.tk.sbchk = false →
    (∀ j ∈ (if l.uni = true ∧ G.active l ≠ [] then G.g.slots else G.active l), (G.cs.thread j).crosses l.len = false) → G.check l = none

/-- R240, R56 and R360: `trap` and `bkpt` take their trap in the lowest active thread, `bkpt` only while debugging is enabled;
`sysc` parks the course on a new call where the host is its route, and else takes trap 0x61. That the trap names the lowest active thread alone, where R240 has it taken in each thread, is the model's
choice, from R386 (log 22: DEDUCED). -/
def Obligations.TrapInstructions : Prop :=
  let raises := fun (i : Instr) (h : Hdr) (ok : State → Grp → Prop) (code num : Nat) => ∀ s G,
    let l : LaneI := { len := 4, h := h }
    Runs s G l → ok s G → ∃ t, exec i s = .next t ∧
      (G.active l = [] → Moved s t G fun _ a => a.complete 4) ∧
      ∀ j r, G.active l = j :: r →
        t = { s.trapNow G { code := code, num := num, ipc := G.g.pc, tmask := 2 ^ j } with issue := none }
  (∀ x, raises (.trap x) x.h (fun _ _ => True) 0x60 x.i.toNat) ∧
  (∀ x, raises (.bkpt x) x.h (fun s G => (s.core G.g.core).dbgctl.getLsbD 0 = true) 0x50 x.i.toNat) ∧
  (∀ x s G, Runs s G { len := 4, h := x.h } → (s.core G.g.core).dbgctl.getLsbD 0 = false →
    ∃ t, exec (.bkpt x) s = .next t ∧ Moved s t G fun _ a => a.complete 4) ∧
  (∀ x, raises (.sysc x) x.h (fun s G => s.route G.g.core false 0x61 ≠ 3) 0x61 x.i.toNat) ∧
  ∀ x s G, let l : LaneI := { len := 4, h := x.h }
    Runs s G l → G.active l ≠ [] → s.route G.g.core false 0x61 = 3 → ∃ t c, exec (.sysc x) s = .next t ∧
      t.course? G.g.core G.g.course = some c ∧ c.park = some (.sysc s.nextCall (slotMask G.g.slots) 4) ∧ c.syscall = s.nextCall ∧
      (∀ j, (c.thread j).pc = (G.cs.thread j).pc ∧ (c.thread j).v = (G.cs.thread j).v) ∧ t.nextCall = s.nextCall % (2 ^ 32 - 1) + 1 ∧
      t.calls = s.calls ++ [{ id := s.nextCall, die := G.tk.ref.die, graph := G.tk.ref.graph, node := G.tk.ref.node
                              index := G.tk.ref.index, pos := G.cs.pos, mask := slotMask (G.active l) }]

/-- R377, R379, R380, R384 and R388: taking a trap whose course has no result pending and no store or atomic on its way, which
the frame's release would await. The frame is written to the course's
slot of the trap block, and the route decides: the task ends, the handler thread starts at `trapvec` in supervisor mode with
the frame's address and first word in v0 and v1, or the course waits for a control core or the host, which a record tells. -/
def Obligations.TrapEntry : Prop :=
  ∀ (s : State) (core course : Nat) (c : Course) (tk : Task) (x : Cause),
    s.course? core course = some c → s.task? core c.task = some tk → c.trap = .none → s.courseStores core course = [] →
    let c0 := { c with trap := .stopping, cause := x, nested := false, susp := none, again := none }
    let u := s.setCourse core course c0
    c.quiet x s.now (u.heldIds core) = true →
    let settled := c0.settleAll s.now
    let d : Course := { settled.leaveCode with saved := settled.threads }
    let route := u.route core false x.code
    let slot := frameSlot core course
    let block := trapBase (coreDie core)
    let w := (u.setCourse core course d).physStore slot (trapFrame u core course d tk x route)
    let word0 := BitVec.ofNat 64 (frameWord0 x route c.held c.heldLost false)
    let record := fun ty => w.event tk.ref.graph tk.ref.node 0 ty (coreDie core) (coreIn core) tk.ref.index (trapDetail x core course false)
    let first := ((maskSlots x.tmask 64).filter fun j => (d.thread j).live).headD (d.allLive.headD 0)
    let frame := BitVec.ofNat 64 (w.physNat block 8 + (slot - block))
    let start := fun t : Thread => { t with
      pc := (w.core core).trapvec, sup := true, wait := .ready, lopen := 0, ring := 0, base := 0, stages := 1, rs := [], depth := 0
      v := regSet (regSet t.v 0 frame) 1 word0, sb := t.sb.filter fun e => decide (e.1 ≠ .v 0 ∧ e.1 ≠ .v 1) }
    s.stopCourse core course x =
      if route = 0 then (w.endTask core c.task 2).postEvent (w.trapCluster core) (record 0x06)
      else if route = 1 then w.setCourse core course { d.modThread first start with trap := .handler first }
      else
        let v := w.setCourse core course { d with trap := .waiting }
        if route = 2 then (if (v.die (coreDie core)).duty.getLsbD 3 then v.hostEvent (record 0x06) else v.postEvent (v.trapCluster core) (record 0x06))
        else v.hostEvent (record 0x0A)

/-- R237 and R238: `bar` holds its active threads in barrier wait behind their earlier accesses, and each arrives as soon as
those are visible. -/
def Obligations.Barriers : Prop :=
  ∀ x s G, let l : LaneI := { len := 4, h := x.h }
    let scope := if isCtl G.g.core = true ∧ x.p.toNat = 3 then 2 else x.p.toNat
    let ws := s.fenceAwaits G.g.core G.g.course .rel scope
    let v := if scope = 7 ∧ G.active l ≠ [] then s.dueFor G.g.core (ws.map Await.id) else s
    let key := fun j => barKeyOf G.g.core G.g.course j G.cs G.tk x.p.toNat x.i.toNat
    Runs s G l → x.i.toNat ≤ 63 → (x.p = 1 → x.i.toNat ≤ 7) →
    ∃ u, exec (.bar x) s = .next { u.arriveCourse G.g.core G.g.course with issue := none } ∧
      Moved v u G fun j a =>
        if j ∈ G.active l then { a with relAfter := a.relAfter ++ ws, wait := .barrier (key j) (s.bar (key j)).seq false, waitOrd := s.nextOrd }
        else a.complete 4

/-! ## Engines and tasks -/

/-- R276, R277, R295 and R440: where nothing is refused and there is room, each active thread's command enters the queue of its
class, in ascending slot order; the course's counter rises by their number, and a command of the matrix engine takes its
place in that engine's order, before those of a higher lane that reached it in the same cycle and have not begun (R107). Only `acc.rdrow` has a result, which its register awaits. -/
def Obligations.EngineCommands : Prop :=
  let queues := fun (i : Instr) (len cls : Nat) (s : State) (G : Grp) (cmds : List Cmd) (wait : Nat → Thread → Thread) =>
    isCtl G.g.core = false → cmds.length ≤ 63 → ((s.core G.g.core).queue cls).length + cmds.length ≤ queueDepth cls →
    G.cs.count cls + cmds.length ≤ 63 → ∃ t c, exec i s = .next t ∧ t.issue = none ∧ t.course? G.g.core G.g.course = some c ∧
      (let new := cmds.zipIdx.map fun p => { p.1 with id := s.nextId + p.2 }
       let ahead := (s.core G.g.core).queues.toList.flatten.any fun y => decide (y.cycle = G.g.t ∧ laneOf G.g.core G.g.course < y.lane ∧ y.st = .queued)
       (∀ k, (t.core G.g.core).queue k = if k = cls then new.foldl (fun q x =>
         if cls = 1 ∨ cls = 2 then insertAt (fun y => y.yields x) x q else q ++ [x]) ((s.core G.g.core).queue k) else (s.core G.g.core).queue k) ∧
       (s.core G.g.core).morder.Sublist (t.core G.g.core).morder ∧
       ((cls = 1 ∨ cls = 2 → ahead = false) → (t.core G.g.core).queue cls = (s.core G.g.core).queue cls ++ new ∧
         (t.core G.g.core).morder = (s.core G.g.core).morder ++ if cls = 1 ∨ cls = 2 then new.map Cmd.id else [])) ∧
      (∀ k, c.count k = G.cs.count k + if k = cls then cmds.length else 0) ∧
      (∀ j ∈ G.g.slots, c.thread j = wait j ((G.cs.thread j).complete len)) ∧ (∀ j, j ∉ G.g.slots → c.thread j = G.cs.thread j) ∧
      c.c = G.cs.c ∧ c.cpend = G.cs.cpend ∧ t.mem = s.mem ∧ t.pool = s.pool ∧
      ∀ k n, k ≠ G.g.core ∨ n ≠ G.g.course → t.course? k n = s.course? k n
  let issues := fun (i : Instr) (x : V1) (cls : Nat) => ∀ s G (bs : Nat → Nat × List Nat),
    let l : LaneI := { len := 4, h := x.h, rd := [.v x.v] }
    Runs s G l → s.issueBusy G.g.core G.g.course = false →
    (∀ j ∈ G.active l, s.readBlock G.g.core G.tk cls (G.read l j (.v x.v)) = .ok (bs j) ∧
      s.blockFault G.g.core G.tk (G.cs.thread j) cls (bs j).2 = none) →
    queues i 4 cls s G ((G.active l).map fun j => s.makeCmd G cls j (bs j).1 (bs j).2) fun _ t => t
  let acc := fun (i : Instr) (len : Nat) (h : Hdr) (hd : BitVec 4) (v : Reg) (sub imm : Nat) => ∀ s G,
    let takes := decide (sub = 1 ∨ sub = 3)
    let l : LaneI := { len := len, h := h, rd := if takes then [.v v] else [] }
    let hv := G.tk.handle hd.toNat
    Runs s G l → hKind hv = 6 → s.handleFault G.g.core G.tk hv 0 65536 0 (if sub = 2 then { r := true } else { w := true }) = none →
    queues i len 1 s G
      ((G.active l).map fun j =>
        { id := 0, kind := .accOp sub imm (if takes then G.read l j (.v v) else 0) (if sub = 2 then some (.v ((G.cs.thread j).phys v)) else none)
          cls := 1, course := G.g.course, slot := j, task := G.cs.task, ipc := G.g.pc, sup := (G.cs.thread j).sup, ord := s.nextOrd
          cycle := G.g.t, lane := laneOf G.g.core G.g.course
          ops := [{ handle := hv, homes := s.handleHomes G.g.core G.tk hv }], tile := some (hBase hv / 65536) })
      fun j t => if sub = 2 ∧ j ∈ G.active l then t.awaitReg (.v ((G.cs.thread j).phys v)) (s.nextId + (G.active l).idxOf j) else t
  (∀ x, issues (.tcpy x) x 0) ∧ (∀ x, issues (.tmma x) x 1) ∧ (∀ x, issues (.tgat x) x 2) ∧ (∀ x, issues (.tcol x) x 3) ∧
  (∀ x, acc (.accZero x) 4 x.h x.hd 0 0 0) ∧ (∀ x, acc (.accZeroL x) 8 x.r.h x.r.hd 0 0 0) ∧
  (∀ x, acc (.accSetexp x) 4 x.h x.hd x.v 1 0) ∧ (∀ x, acc (.accSetexpL x) 8 x.r.h x.r.hd x.r.v 1 x.i.toNat) ∧
  (∀ x, acc (.accRdrow x) 4 x.h x.hd x.v 2 0) ∧ (∀ x, acc (.accRdrowL x) 8 x.r.h x.r.hd x.r.v 2 x.i.toNat) ∧
  (∀ x, acc (.accWrrow x) 4 x.h x.hd x.v 3 0) ∧ (∀ x, acc (.accWrrowL x) 8 x.r.h x.r.hd x.r.v 3 x.i.toNat) ∧
  (∀ x, acc (.accClrst x) 4 x.h x.hd 0 4 0) ∧ ∀ x, acc (.accClrstL x) 8 x.r.h x.r.hd 0 4 0

/-- R244: launches, releases and event records, for each active thread in ascending slot order, once the earlier accesses that
the instruction releases are visible. Whether another destination refuses the reads of a launch's check is a free value; that the
result of `tspawn`, which R244 scoreboards, stands at once, and that `tspawn` and `evpost` hold at issue, are the model's choices
(logs 131: DESIGN CHOICE, 13 and 82: DEDUCED). -/
def Obligations.TaskEvents : Prop :=
  let clear := fun (s : State) (G : Grp) (l : LaneI) (scope : Nat) =>
    G.active l ≠ [] → s.allVisible (s.fenceAwaits G.g.core G.g.course .rel scope) = true
  let spawns := fun (i : Instr) (len : Nat) (x : E64) => ∀ s G,
    let l := laneE len x [extA x]
    Runs s G l → clear s G l 7 → ∃ t, exec i s = .next t ∧ Passed ((G.active l).foldl (fun s j =>
      let sup := (G.cs.thread j).sup
      let r := s.fresh.2.submit (coreDie G.g.core) { core := G.g.core, ctx := G.tk.ctx, sup := sup, far := if s.fresh.1 % 2 = 1 then .refused else .given }
        (!sup) (G.read l j (extA x)).toNat 64
      let v : Word := match r.1 with
        | .ok seq => BitVec.ofNat 64 seq
        | .error code => 0xFFFFFFFF00000000 + BitVec.ofNat 64 code
      r.2.modCourse G.g.core G.g.course (G.writeNow (extD x) j v)) s) t G len
  let signals := fun (i : Instr) (len : Nat) (x : E64) => ∀ s G,
    let l := laneE len x [extA x] false true
    Runs s G l → ∃ t, exec i s = .next t ∧ Passed ((G.active l).foldl (fun s j =>
      let a := (G.read l j (extA x)).toNat
      s.releaseNode (coreDie G.g.core) (a / 2 ^ 32) (a % 2 ^ 16)) s) t G len
  let posts := fun (i : Instr) (len : Nat) (x : E64) => ∀ s G ls u,
    let l := laneE len x [extA x]
    let recs := (G.active l).map fun j => (j, s.spBytes G.g.core G.tk (G.read l j (extA x)).toNat 32)
    let cl := coreCluster G.g.core
    Runs s G l → s.recordCheck G 32 8 false ((G.active l).map fun j => (j, G.read l j (extA x))) = .ok ls →
    (∀ j ∈ G.active l, s.recordBusy G.g.core G.g.course G.tk (G.read l j (extA x)).toNat 32 = false) →
    (∀ r ∈ recs, (G.cs.thread r.1).sup = true ∨ 0x80 ≤ recNat r.2 0 1) → clear s G l 4 → (s.cluster cl).evWait = [] →
    recs.foldlM (fun s r => let w := fun k => BitVec.ofNat 64 (recNat r.2 (8 * k) 8); s.takeEvent cl ⟨w 0, w 1, w 2, w 3⟩) s = some u →
    ∃ t, exec i s = .next t ∧ Passed u t G len
  let gets := fun (i : Instr) (len : Nat) (x : E64) => ∀ s G,
    let l := laneE len x [] false true
    Runs s G l → ∃ t, exec i s = .next t ∧ Passed ((G.active l).foldl (fun s j =>
      let r := s.readEvent G.g.core
      r.2.modCourse G.g.core G.g.course (G.deliver l 4 (extD x) j r.1)) s) t G len
  (∀ x, spawns (.tspawn x) 4 (extD1 x)) ∧ (∀ x, spawns (.tspawnL x) 8 x) ∧ (∀ x, signals (.tsig x) 4 (extH0 x)) ∧ (∀ x, signals (.tsigL x) 8 x) ∧
  (∀ x, posts (.evpost x) 4 (extH0 x)) ∧ (∀ x, posts (.evpostL x) 8 x) ∧ (∀ x, gets (.evget x) 4 (extEd x)) ∧ (∀ x, gets (.evgetL x) 8 x) ∧
  (∀ (s : State) core, (s.cluster (coreCluster core)).events = [] → s.readEvent core = (0, s)) ∧
  ∀ (s : State) core e r, (s.cluster (coreCluster core)).events = e :: r → (s.core core).evCursor ≤ 3 →
    (s.readEvent core).1 = [e.w0, e.w1, e.w2, e.w3].getD (s.core core).evCursor 0 ∧
    ((s.readEvent core).2.core core).evCursor = ((s.core core).evCursor + 1) % 4

/-! ## Events -/

/-- R22: a free lane takes the course it chooses, and its group enters the lane: the chosen threads at the lowest program
counter, unless one of them has waited for 1,024 groups. R23: a group that has had its cycles in the lane and waited there for a
check goes on once that has passed. A group whose instruction must still be fetched does not enter: its course waits, and no
other changes (log 144: DEDUCED). -/
def Obligations.Selection : Prop :=
  (∀ core lane s p, s.phase = .running → s.issue = none → s.toReissue core lane = none → s.laneIdle core lane = true →
    let u : State := { ((s.units core lane).map fun x => x.1).foldl (fun s n => s.meetAllDbg core n) s with issue := none }
    u.choose core lane = some p → p.slots ≠ [] → ∀ c, u.course? core p.course = some c → (u.task? core c.task).isSome = true →
    let wakes := fun c : Course => if c.park.isSome && !c.parkUnder then c.wake else c
    let v := u.modCourse core p.course wakes
    let d := wakes c
    let g : Issue := { core := core, course := p.course, slots := groupOf d p.slots, pc := (d.thread ((groupOf d p.slots).headD 0)).pc, t := u.now }
    (v.fetchWaits g = none → ∃ t, exec (.issueGroupSelection core lane .none) s = .next t ∧ t.issue = some g) ∧
    ∀ w, v.fetchWaits g = some w → exec (.issueGroupSelection core lane .none) s = .next { w with issue := none }) ∧
  (∀ core lane err s g G, s.phase = .running → s.issue = none → s.toReissue core lane = some g → s.grp? g = some G →
    exec (.issueGroupSelection core lane err) s =
      .next { s.setCourse g.core g.course { G.cs with again := none } with issue := some g }) ∧
  ∀ (c : Course) ready, ready ≠ [] → (∀ i ∈ ready, (c.thread i).age < 1024) → groupOf c ready ≠ [] ∧
    ∀ i, i ∈ groupOf c ready ↔ i ∈ ready ∧ ∀ j ∈ ready, (c.thread i).pc.toNat ≤ (c.thread j).pc.toNat

/-- R25, R31, R82, R215, R228, R379 and R395: events of one course. A result that is readable by now is in its register, but that
of a course whose group waits with its reads in the past keeps it apart; a quotient reaches the register that awaits it; waits at a `cnv`, yields and parking end; a `cnv` that has waited too long
raises 0x31; a trap is taken once nothing is pending and the course's stores and atomics are performed. -/
def Obligations.CourseEvents : Prop :=
  (∀ core course, Happens (.fixedLatencyResult core course) (fun s => (s.course? core course).isSome) fun s t =>
    Turns core course (fun s c => if c.again.isSome then c else c.settleAll s.now) s t ∧
    ∀ (c : Course) i r n, s.now ≤ n → (∀ q, r ≠ .q q) → i < c.threads.length → (c.settleAll s.now).regAt i r n = c.regAt i r n ∧
      ∀ p ∈ ((c.settleAll s.now).thread i).pend, s.now < p.ready) ∧
  (∀ id d r, Happens (.divideResult id) (fun s => findAt (fun d => decide (d.id = id ∧ d.ready ≤ s.now)) s.divs = some d ∧ d.dst = .v r ∧
      ∃ c, s.course? d.core d.course = some c ∧ d.slot < c.threads.length ∧ (d.dst, id) ∈ (c.thread d.slot).sb) fun s t =>
    t.divs = s.divs.filter (fun x => decide (x.id ≠ id)) ∧ ∃ c, t.course? d.core d.course = some c ∧
      (d.dst, id) ∉ (c.thread d.slot).sb ∧ ∀ n, c.regAt d.slot d.dst n = d.val) ∧
  (∀ core course, Happens (.convergenceRelease core course) (fun s => (s.course? core course).isSome) fun s t =>
    Turns core course (fun s c => c.converge (((s.task? core c.task).map Task.width).getD 0) s.now) s t) ∧
  (∀ core course i, Happens (.convergenceTimeout core course)
    (fun s => ∃ c, s.course? core course = some c ∧ c.trap = .none ∧ c.convLate (((s.task? core c.task).map Task.width).getD 0) s.now = some i) fun s t =>
      ∃ c d x, s.course? core course = some c ∧ t.course? core course = some d ∧ d.deferred = c.deferred ++ [x] ∧
        x.code = 0x31 ∧ x.ipc = (c.thread i).pc) ∧
  (∀ core course at_, Happens (.yieldExpiry core course) (fun s => ∃ c, s.course? core course = some c ∧ c.yieldUntil = some at_ ∧ at_ ≤ s.now) fun s t =>
    Turns core course (fun _ c => { c with yieldUntil := none }) s t) ∧
  (∀ core course at_, Happens (.courseWake core course)
    (fun s => ∃ c, s.course? core course = some c ∧ c.park.isSome = true ∧ c.wakeAt = some at_ ∧ at_ ≤ s.now) fun s t =>
      Turns core course (fun _ c => c.wake) s t ∧ ∀ c : Course, c.wake.park = none ∧ c.wake.wakeAt = none ∧
        ((∀ n g len, c.park ≠ some (.sysc n g len)) → c.wake.threads = c.threads)) ∧
  (∀ core course, Happens (.trapDelivery core course)
    (fun s => ∃ c, s.course? core course = some c ∧ c.trap = .stopping ∧ c.quiet c.cause s.now (s.heldIds core) = true ∧ s.courseStores core course = [] ∧
      (s.task? core c.task).isSome) fun s t =>
      t = { s.takeTrap core course with issue := s.issue }) ∧
  ∀ (s : State) core course c x, s.course? core course = some c → c.trap = .none →
    s.stopCourse core course x =
      (s.setCourse core course { c with trap := .stopping, cause := x, nested := false, susp := none, again := none }).takeTrap core course

/-- R71, R72, R74, R75, R77, R80, R84, R238, R324 and R395: barriers, and tasks on their way from a pool through a cluster's queues
into cores, and out of them. A reservation takes the cores with the most free granules, an idle cluster asks the nearest one
with tasks it may have, and that one ships whole gangs, of at most 8 tasks, from its queue; a refused shipment goes back to that queue. Which arrived threads share a
time-out's fault, when a completed barrier's threads go on, which gang is tried next, which gangs are shipped and that cores may be
reserved twice are the model's readings (logs 28, 29, 84, 85, 88, 128 and 161). -/
def Obligations.TaskFlow : Prop :=
  (∀ k : BarKey, Happens (.barrierCompletion k.scope k.place k.group k.num)
    (fun s => let u := (memberCourses (s.participants k)).foldl (fun s p => s.arriveCourse p.1 p.2) s
      u.participants k ≠ [] ∧ (u.bar k).arrived ≠ [] ∧ ∀ m ∈ u.participants k, m.who ∈ (u.bar k).arrived)
    fun s t => ∃ u v, u = (memberCourses (s.participants k)).foldl (fun s p => s.arriveCourse p.1 p.2) s ∧
      v = u.setBar { u.bar k with seq := ((u.bar k).seq + 1) % 2 ^ 16, arrived := [], due := none } ∧
      t = { (memberCourses (u.participants k)).foldl (fun s p =>
        (s.modCourse p.1 p.2 fun c => { c with threads := c.threads.map fun t => s.acquireAfter p.1 p.2 k t }).fenceComplete p.1 p.2) v with issue := s.issue }) ∧
  (∀ (k : BarKey) d, Happens (.barrierTimeout k.scope k.place k.group k.num)
    (fun s => (s.bar k).due = some d ∧ d ≤ s.now ∧ ∃ m ∈ s.participants k, m.who ∉ (s.bar k).arrived)
    fun s t => t.bar k = { s.bar k with arrived := [], due := none } ∧
      (∀ core course c i, (core, course) ∈ memberCourses ((s.participants k).filter fun m => (s.bar k).arrived.contains m.who) →
        s.course? core course = some c → c.trap = .none → (c.allLive.filter fun i => (c.thread i).waitsAt k).head? = some i →
        ∃ x, t.course? core course = some { c with deferred := c.deferred ++ [x] } ∧
          x.code = 0x30 ∧ x.num = k.num ∧ x.scope = k.scope ∧ x.ipc = (c.thread i).pc ∧ x.bseq = (s.bar k).seq ∧
          x.tmask = slotMask (c.allLive.filter fun i => (c.thread i).waitsAt k) ∧
          ∀ m, m ∈ x.missing ↔ ∃ y ∈ s.participants k, y.who ∉ (s.bar k).arrived ∧ m = (y.core, y.course, y.slot)) ∧
      ((∀ m ∈ s.participants k, ∀ c, s.course? m.core m.course = some c → c.trap = .none) → t.mem = s.mem ∧ t.pool = s.pool)) ∧
  (∀ cl n r, Happens (.taskDispatch cl true) (fun s => s.poolHead (cl / 4) = some (n, r) ∧ n < 8 ∧ r.length ≤ queueRoom 512 (s.cluster cl).queues (n / 2))
    fun s t => let c := s.cluster cl
      t = { (((s.modDie (cl / 4) fun x => { x with pool := if h : n < 8 then x.pool.set n ((x.pool.toList.getD n []).drop r.length) else x.pool }).setCluster cl
        (c.setQ (n / 2) (c.prioQ (n / 2) ++ r))).refill (cl / 4) 4096).noteIdle cl with issue := s.issue }) ∧
  (∀ cl p at_ ms seats g n, Happens (.taskDispatch cl false)
    (fun s => (s.takeInbox cl).nextDispatch cl = some (p, at_, ms, seats) ∧ ms.head?.bind (s.takeInbox cl).refNode = some (g, n) ∧
      (s.takeInbox cl).slotPage g n seats = none)
    fun s t => let u := s.takeInbox cl
      let old := u.cluster cl
      ∃ c : Cluster, (∀ q, c.prioQ q = if q = p then (old.prioQ p).filter fun r => !ms.contains r else old.prioQ q) ∧
      (∀ q < 4, c.passedAt q = if q = p ∧ at_ = 0 then 0
        else old.passedAt q + if (p < q ∨ (q = p ∧ at_ ≠ 0)) ∧ c.prioQ q ≠ [] then 1 else 0) ∧
      c.reserved = (if at_ = 0 then old.reserved.filter fun r => !ms.contains r.2 else old.reserved) ∧
      { c with disp := old.disp, passed := old.passed, reserved := [] } = { old with reserved := [] } ∧
      t = { ((u.setCluster cl c).placeMembers g n seats).noteIdle cl with issue := s.issue }) ∧
  (∀ cl p r q, Happens (.dispatchReservation cl p)
    (fun s => (s.cluster cl).prioQ p = r :: q ∧ 256 ≤ (s.cluster cl).passedAt p ∧ ∀ x ∈ (s.cluster cl).reserved, x.2 ≠ r)
    fun s t => let cores := coresOf cl (((s.refNode r).map fun x => x.2.ctl).getD false)
      let ks := s.reserveCores cl r
      let free := fun k : Nat => ((s.core k).freeGranules k).length
      ks.length = min (s.gangSize r) cores.length ∧ ks.Nodup ∧ (∀ k ∈ ks, k ∈ cores) ∧
      (∀ k ∈ ks, ∀ j ∈ cores, j ∉ ks → free j < free k ∨ (free j = free k ∧ k < j)) ∧
      t = { s.setCluster cl { s.cluster cl with reserved := (s.cluster cl).reserved ++ ks.map fun k => (k, r) } with issue := s.issue }) ∧
  (∀ cl v, Happens (.stealRequest cl) (fun s => s.mayAsk cl = true ∧ s.stealVictim cl = some v)
    fun s t =>
      let has := fun w : Nat => w < 16 ∧ w ≠ cl ∧ ∃ q ∈ (s.cluster w).disp.toList, ∃ r ∈ q, s.unstartedFor (cl / 4) r = true
      has v ∧ (∀ w, has w → clusterHops cl v < clusterHops cl w ∨ (clusterHops cl v = clusterHops cl w ∧ v ≤ w)) ∧
      t = { (s.modCluster cl fun c => { c with lastSteal := some s.now }).modCluster v fun c => { c with stealFrom := c.stealFrom ++ [cl] }
        with issue := s.issue }) ∧
  (∀ v thief rest, Happens (.stealShipment v) (fun s => (s.cluster v).stealFrom = thief :: rest ∧ thief ≠ v)
    fun s t => let old := s.cluster v
      let p := old.topPrio
      let ship := s.shipment v (thief / 4)
      let c := { old.setQ p ((old.prioQ p).filter fun r => !ship.contains r) with
                 stealFrom := rest, reserved := old.reserved.filter fun r => !ship.contains r.2 }
      let u := (s.setCluster v (if (old.prioQ p).head?.any ship.contains then c.setPassed p 0 else c)).noteIdle v
      t = { (if ship = [] then u else u.modCluster thief fun x => { x with shipments := x.shipments ++ [(v, ship)] }) with issue := s.issue }) ∧
  (∀ (s : State) v die, let ship := s.shipment v die
    ship.length ≤ 8 ∧ ship.Sublist ((s.cluster v).prioQ (s.cluster v).topPrio) ∧ ∀ r ∈ ship, s.mayShip die r = true) ∧
  (∀ thief v rs rest, Happens (.shipmentArrival thief) (fun s => (s.cluster thief).shipments = (v, rs) :: rest)
    fun s t => let c := { s.cluster thief with shipments := rest }
      t = if rs.length ≤ queueRoom 512 c.queues 4 then
          { ((s.setCluster thief { c with inbox := c.inbox ++ rs }).takeInbox thief).noteIdle thief with issue := s.issue }
        else
          let p := (rs.head?.bind s.refNode).elim 0 fun x => x.2.prio
          if rs.length ≤ queueRoom 512 (s.cluster v).queues p then
            { ((s.setCluster thief c).modCluster v fun x => x.setQ p (x.prioQ p ++ rs)).noteIdle v with issue := s.issue }
          else s) ∧
  (∀ core slot tk, Happens (.taskEnd core slot)
    (fun s => s.task? core slot = some tk ∧ (∀ n ∈ tk.courses, ((s.course? core n).getD {}).allLive = []) ∧ (s.core core).taskCmds slot = [] ∧
      s.taskAccesses core tk = [] ∧ s.recordRoom (4 * tk.ref.die) = true)
    fun s t => (s.freeTask core slot tk).task? core slot = none ∧
      t = { (State.taskCounted (if ((s.graph? tk.ref.die tk.ref.graph).map Graph.taskrec).getD false then
          (s.freeTask core slot tk).postEvent (4 * tk.ref.die)
            (s.event tk.ref.graph tk.ref.node (s.endStatus core tk) 0x01 (coreDie core) (coreIn core) tk.ref.index 0)
        else s.freeTask core slot tk) tk.ref).fireChunk core tk with issue := s.issue }) ∧
  (∀ cl, Happens (.overflowRecord cl) (fun s => (s.cluster cl).ovPending = true ∧ (s.cluster cl).evRoom = true)
    fun s t => ∃ more, (t.cluster cl).events = (s.cluster cl).events ++ s.event 0 0xFFFF 0 0x07 (cl / 4) 0xFF (s.cluster cl).ovCount 0 :: more) ∧
  ∀ core p, Happens (.preemptSave core)
    (fun s => let ks := (s.closure 128 [core]).filter p.cores.contains
      (s.die (coreDie core)).preempt = some p ∧ core ∈ p.cores ∧ (∀ k ∈ ks, (ks.foldl State.arriveCore s).coreQuiet k = true) ∧
      (∀ c ∈ ks.flatMap (fun k => (s.core k).courses.map Prod.snd), c.delivering = false ∧ c.trapped = false) ∧
      let w := ks.foldl State.arriveCore s
      ∀ x ∈ w.tasksOn ks, w.savePage x.1 (w.tasksOn ks).length x.2.2 = none)
    fun s t => let ks := (s.closure 128 [core]).filter p.cores.contains
      let u := ks.foldl State.settleCore (ks.foldl State.arriveCore s)
      let r := u.saveAll (byGang (u.tasksOn ks))
      t = { r.1.preemptDone (coreDie core) p ks (ks.filter fun k => !r.2.contains k) (ks.filter r.2.contains) with issue := s.issue }

/-- R104, R167, R281, R286, R292 and R295: the engines. The head command reads its guard slot; a multiplication adds its next 16
products; a tile is written back; a copy moves; an `acc` is performed on its tile; an ended command retires, and its course's
counter falls by one. The model's choices in it: what a tile's write adds to the sequence counters (log 52: DESIGN CHOICE), which
elements a stopped write-back or copy has written and what a copy onto itself reads (logs 55 and 56: DESIGN CHOICE), when a copy's
flag is written (log 57: DEDUCED), and the permute cycles of a copy, a collective and a stopped chunk (logs 118: DEDUCED, 150 and
155: DESIGN CHOICE). -/
def Obligations.EngineEvents : Prop :=
  (∀ core cls x n c, Happens (.guardSlotHeadCheck core cls)
    (fun s => (s.core core).headCmd cls = some x ∧ x.gen = some n ∧ s.course? core x.course = some c)
    fun s t => t = { (if c.slotAt n = .isTrue then s.setCmd core { x with gen := none }
      else if c.slotAt n = .isFalse then s.setCmd core { x with discarded := true } else s) with issue := s.issue }) ∧
  (∀ core cls far x tile oa ob oc a b, Happens (.kChunk core ⟨cls, far, .none⟩)
    (fun s => let v := { s.viewOf core x with far := far }
      s.runnable core cls = some x ∧ (x.kind = .mma ∨ x.kind = .gather) ∧ x.tile = some tile ∧ x.ops = [oa, ob, oc] ∧
      s.chunkA v x oa x.kdone = .ok a ∧ s.chunkB v x ob x.kdone = .ok b ∧ s.accBad core ((s.task? core x.task).getD {}).accG tile = none)
    fun s t => let fixed := (blkWord x.words 1).testBit 15
      let v := { s.viewOf core x with far := far }
      let u := (((s.operandServed v x oa true x.kdone).operandServed v x ob false x.kdone).pastFar).farGiven (coreDie core) x.id
      let r := (u.stampTile core).chunkRows core x tile fixed a b
      let y := { x with st := .running, kdone := x.kdone + 16, perm := x.perm + oa.cost + ob.cost + oc.cost, saturated := x.saturated || (fixed && r.2) }
      t = { r.1.setCmd core (if blkBits x.words 1 12 0 ≤ x.kdone + 16 then y.finishMma else y) with issue := s.issue }) ∧
  (∀ core x tile o o', Happens (.writeBack ⟨core, .none⟩)
    (fun s => s.runnable core 1 = some x ∧ x.kind = .writeBack ∧ x.tile = some tile ∧ x.ops = [o, o'] ∧
      s.accBad core ((s.task? core x.task).getD {}).accG tile = none ∧
      firstStop (s.writeBackPlan (s.viewOf core x) x o ((List.range 64).map fun i =>
        (s.accRow core ((s.task? core x.task).getD {}).accG tile i, ((s.task? core x.task).getD {}).row tile i))).1 = none)
    fun s t => let tk := (s.task? core x.task).getD {}
      let plan := s.writeBackPlan (s.viewOf core x) x o ((List.range 64).map fun i => (s.accRow core tk.accG tile i, tk.row tile i))
      let r := (s.chooseWrites plan.1).2.engWrites (s.chooseWrites plan.1).1
      let u := r.1.clampRows core x.task tile plan.2
      t = { (if (blkWord x.words 1).testBit 22 then (u.resetTile core x.task tile).stampTile core else u).setSending core
        { x with st := .performed, todo := r.2, perm := x.perm + o.cost, wroteFar := x.wroteFar || o.far tk.rank } with issue := s.issue }) ∧
  (∀ core far x a b, Happens (.copyTransfer core ⟨far, .none⟩)
    (fun s => s.nextCopy core = some x ∧ x.ops = [a, b] ∧ x.st ≠ .running ∧
      ∀ e ∈ copyElems x a b,
        s.copyStop (s.copyView { s.viewOf core x with far := far } b (copyElems x a b)) a b (layoutOf a.layout).bits (layoutOf b.layout).bits e = none)
    fun s t => let v := s.copyView { s.viewOf core x with far := far } b (copyElems x a b)
      let o := (s.farGiven (coreDie core) x.id).shuffle (copyElems x a b)
      let r := o.2.copyAll v x a b o.1
      let q := r.1.sendLines core { x with
        todo := r.2, perm := x.copyCost.1 * x.copyCost.2, wroteFar := x.wroteFar || b.far ((s.task? core x.task).getD {}).rank }
      t = { q.1.copyFlag core q.2 with issue := s.issue }) ∧
  (∀ core x sub imm val dst tile tk, Happens (.accExecute ⟨core, .none⟩)
    (fun s => s.runnable core 1 = some x ∧ x.kind = .accOp sub imm val dst ∧ x.tile = some tile ∧ s.task? core x.task = some tk ∧
      sub ≤ 4 ∧ s.accBad core tk.accG tile = none)
    fun s t => let row := fun i => s.accRow core tk.accG tile i
      let done := { x with st := .performed }
      (sub = 0 → t = { ((s.resetTile core x.task tile).stampTile core).setCmd core done with issue := s.issue }) ∧
      (sub = 1 → t = { (((List.range (imm / 64 % 64 + 1)).map (· + imm % 64)).foldl (fun s i =>
        s.putRow core x.task tile i (setExp (val.setWidth 12).toInt (((s.task? core x.task).getD {}).row tile i) (s.accRow core tk.accG tile i))) s).setCmd core done
          with issue := s.issue }) ∧
      (sub = 2 → ∀ d, dst = some d → t = { (s.modCourse core x.course fun c => c.modBoth x.slot fun t =>
        t.arrive d x.id (rowWord (tk.row tile (imm % 64)) (row (imm % 64)))).setCmd core done with issue := s.issue }) ∧
      (sub = 3 → t = { (s.putRow core x.task tile (imm % 64) (wrRow val (tk.row tile (imm % 64)) (row (imm % 64)))).setCmd core done with issue := s.issue }) ∧
      (sub = 4 → t = { (s.setTask core x.task ((List.range 64).foldl (fun t i => t.setRow tile i { t.row tile i with inv := false, ovf := false }) tk)).setCmd core done
        with issue := s.issue })) ∧
  ∀ core course cls x c, Happens (.commandRetire core course cls)
    (fun s => ((s.core core).queue cls).find? (fun x => decide (x.course = course)) = some x ∧ cls < 4 ∧ x.ended = true ∧ x.writes = [] ∧ x.todo = [] ∧
      x.fault = none ∧ s.course? core course = some c)
    fun s t => (t.core core).queue cls = ((s.core core).queue cls).filter (fun y => decide (y.id ≠ x.id)) ∧
      (t.core core).morder = (s.core core).morder.filter (· ≠ x.id) ∧
      ∃ d, t.course? core course = some d ∧ d.count cls = c.count cls - 1 ∧ d.threads = c.threads ∧
        d.tstat = putField c.tstat 0 16 (min (if x.discarded then 0 else x.perm) 0xFFFF)

/-- R142, R144, R146, R155, R157, R158, R160, R165, R168, R170, R252, R259, R260 and R328: memory accesses on their way to
their homes and back, and the ends of waits for them. What the fences' ends wait for, and what a walk that meets an uncorrectable
word raises, are the model's choices (logs 74: DEDUCED, 152: DESIGN CHOICE). -/
def Obligations.MemoryEvents : Prop :=
  (∀ id a, Happens (.homeAccessPerform id .none) (fun s => s.access? id = some a ∧ s.AtHome a) fun s t =>
    t = { (s.placed a.loc).performAt a with issue := s.issue }) ∧
  (∀ (s : State) (a : Access), let old := s.locRead a.loc a.size
    (∀ q, a.kind = .load q → a.cacheable = false → s.performAt a = s.setAccess { a with st := .performed, val := BitVec.ofNat 128 (leNat old) }) ∧
    (∀ r core o, a.kind = .store r → a.loc = .pool core o → (s.performAt a).access? a.id = none ∧ (s.performAt a).mem = s.mem ∧
      (s.performAt a).pool = cellsWrite s.pool a.loc.key (storeBytes a.w a.nib a.size a.data.toNat old)) ∧
    (∀ op core o, a.kind = .atom op false → a.loc = .pool core o → s.access? a.id = some a → (s.performAt a).mem = s.mem ∧
      (s.performAt a).pool = (if op = .cas ∧ leNat old ≠ a.cmp.toNat % 2 ^ (8 * a.size) then s.pool
        else cellsWrite s.pool a.loc.key (leBytes a.size (atomNew op a.w (leNat old) a.data.toNat a.cmp.toNat))) ∧
      ∃ b, (s.performAt a).access? a.id = some b ∧ b.st = .performed ∧ b.val = BitVec.ofNat 128 (leNat old))) ∧
  (∀ die line m, Happens (.sectorFill die line .none) (fun s => findAt (fun m => decide (m.die = die ∧ m.line = line) && !m.waits) s.misses = some m) fun s t =>
    t.misses = startMiss s.now die (lineSlice line) (s.misses.erase m) ∧
      ∃ l, t.line? die line = some l ∧ ∀ k, m.sectors.getLsbD k = true → l.valid.getLsbD k = true) ∧
  (∀ id a, Happens (.missStatusAllocate id) (fun s => s.access? id = some a ∧ a.st = .left ∧ s.behind a = false ∧ s.needsFill a = true ∧
      (∀ m ∈ s.misses, ¬ (m.die = a.loc.dieOf ∧ m.line = a.loc.lineNo))) fun s t =>
    let used := (s.misses.filter fun m => decide (m.die = a.loc.dieOf ∧ lineSlice m.line = lineSlice a.loc.lineNo) && !m.waits).length
    t = { s with misses := s.misses ++
      [{ die := a.loc.dieOf, line := a.loc.lineNo, sectors := 1#4 <<< sectorOf a.loc, born := s.now, waits := decide (64 ≤ used) }] }) ∧
  (∀ id a m, Happens (.missStatusAllocate id) (fun s => s.access? id = some a ∧ a.st = .left ∧ s.behind a = false ∧ s.needsFill a = true ∧
      s.misses = [m] ∧ m.die = a.loc.dieOf ∧ m.line = a.loc.lineNo ∧ m.sectors.getLsbD (sectorOf a.loc) = false) fun s t =>
    t = { s with misses := if m.waits = true ∨ s.now ≤ m.born + 16 then [{ m with sectors := m.sectors ||| (1#4 <<< sectorOf a.loc) }]
      else [m, { die := m.die, line := m.line, sectors := 1#4 <<< sectorOf a.loc, born := s.now }] }) ∧
  (∀ id val bad a d, Happens (.loadReturn id ⟨val, bad⟩)
    (fun s => s.access? id = some a ∧ a.kind = .load false ∧ a.st = .performed ∧ a.code = false ∧ a.bad = false ∧ a.dst = [d] ∧ a.part = none) fun s t =>
    let u : State := s.dropAccess id
    let v := ({ u with packets := s.packets.filter fun p => !(p.isLoad && p.accs.contains id) } : State).pump (coreDie a.core)
    t = { (if a.inval then v.invalLane a.core else v).modCourse a.core a.course
        fun c => c.modBoth a.slot fun t =>
          let t := t.arrive d id (extendAs a.w a.nib a.val.toNat)
          { t with acqAfter := t.acqAfter.filter (· ≠ id) } with issue := s.issue }) ∧
  (∀ core n e, Happens (.hodDrain core n) (fun s => (s.core core).hod.find? (fun e => decide (e.id = n)) = some e ∧ e.due = true) fun s t =>
    t = { s.drain core n with issue := s.issue }) ∧
  (∀ core n e, Happens (.hodAgeLimit core n) (fun s => (s.core core).hod.find? (fun e => decide (e.id = n)) = some e ∧
      e.born + max 64 ((s.die (coreDie core)).hodage.toNat % 65536) ≤ s.now) fun s t => t = { s.drain core n with issue := s.issue }) ∧
  (∀ (s : State) core n e, (s.core core).hod.find? (fun e => decide (e.id = n)) = some e →
    ((s.core core).hod.filter fun x => decide (x.dest = e.dest ∧ x.line = e.line ∧ x.id ≤ n)) = [e] → s.drain core n =
      (s.modCore core fun c => { c with hod := c.hod.filter fun x => decide (x.id ≠ e.id) }).sendWrite
        { die := coreDie core, dest := e.dest, seq := 0, pred := none, line := e.line, atomic := e.atom.isSome, accs := e.accs, hod := some (core, e.id), bytes := e.bytes }) ∧
  (∀ (s : State) core course c f, s.course? core course = some c → ∃ d, (s.releaseThreads core course f).course? core course = some d ∧
    ∀ i < c.threads.length, d.thread i = match f s (c.thread i) with | some len => (c.thread i).release len | none => c.thread i) ∧
  (∀ core course, Happens (.phaseComplete core course)
    (fun s => ∃ c, s.course? core course = some c ∧ ∃ t ∈ c.threads, (phaseOver s core s t).isSome = true) fun s t =>
      t = { (s.fenceEffects core course true).releaseThreads core course (phaseOver s core) with issue := s.issue }) ∧
  (∀ core course, Happens (.fenceComplete core course) (fun s => (s.course? core course).isSome = true) fun s t =>
    t = { ((((s.fenceEffects core course false).releaseThreads core course fun st t => st.fenceDone false t).modCourse core course fun c =>
      { c with threads := c.threads.map fun t => { t with relAfter := t.relAfter.filter fun w => !s.visible w } }).releaseCourse core course)
        with issue := s.issue }) ∧
  (∀ id a, Happens (.releaseStoreProceed id) (fun s => s.access? id = some a ∧ a.st = .held ∧ ∀ w ∈ a.after, s.visible w = true) fun s t =>
    t = { s.leave { a with after := [] } with issue := s.issue }) ∧
  (∀ core course c, Happens (.waitnComplete core course) (fun s => s.course? core course = some c) fun s t =>
    t = { ((c.threads.filterMap (waitnClass c)).foldl (fun s k => s.acquireClass core course k) s).releaseThreads core course (fun _ t => c.waitnDone t)
      with issue := s.issue }) ∧
  (∀ core course c tk, Happens (.icinvComplete core course) (fun s => s.course? core course = some c ∧ s.task? core c.task = some tk) fun s t =>
    t = { ((c.threads.filterMap (icinvOver s c)).foldl (fun s r => s.invalCode core tk.ctx r.1 r.2.1) s).releaseThreads core course
      (fun _ t => (icinvOver s c t).map fun r => r.2.2) with issue := s.issue }) ∧
  (∀ core course c, Happens (.fetchbComplete core course)
    (fun s => s.course? core course = some c ∧ ∃ t ∈ c.threads, (fetchbOver s c t).isSome = true) fun s t =>
    t = { (s.releaseThreads core course fun _ t => fetchbOver s c t).modCourse core course Course.dropCode with issue := s.issue }) ∧
  (∀ die w', Happens (.cresizeComplete die) (fun s => (s.die die).resize = some w') fun s t => let w := (s.die die).ways
    (t.die die).ways = w' ∧ t.pool = s.pool ∧
      t.mem = s.mem.filter fun c => decide (c.1 < 2 ^ 40 + die * 2 ^ 30 + min w w' * 0x2000000 ∨ 2 ^ 40 + die * 2 ^ 30 + max w w' * 0x2000000 ≤ c.1)) ∧
  (∀ die m e at_, Happens (.migrationStart die)
    (fun s => m.stage ≠ 2 ∧ (s.die die).migr.length < 64 ∧ ((s.die die).migrQ.find? fun m => !(s.die die).migr.any fun y => decide (y.frame = m.frame)) = some m ∧
      State.sharedPage (s.modDie die fun x => { x with migrQ := x.migrQ.erase m }) m.ctx m.va = some (e, at_) ∧
      leafBase e.pte.toNat e.size = m.frame ∧ pteBit e.pte.toNat 8 ≠ m.toHost ∧ s.host.lost = false) fun s t =>
    let m' := { m with pte := at_, stage := 1 }
    let u := s.modDie die fun x => { x with migrQ := x.migrQ.erase m }
    let v := if m.assisted = true ∨ m.toHost = false then u.hostEvent (u.moveRecord die m') else u
    t = { (if m.toHost = true ∧ m.assisted = false then
        let w := (v.setOwn at_ true).dropPage m.frame m.ctx m.va
        w.modDie die fun x => { x with migr := x.migr ++ [{ m' with awaits := w.pageWrites (w.pageLines e m.va) }] }
      else v.modDie die fun x => { x with migr := x.migr ++ [m'] }) with issue := s.issue }) ∧
  (∀ die frame m e, Happens (.migrationDeparture die frame)
    (fun s => findAt (fun m => decide (m.frame = frame) && m.toHost && (!m.assisted || decide (m.stage = 2))) (s.die die).migr = some m ∧
      (∀ w ∈ m.awaits, s.visible w = true) ∧ s.walk m.ctx m.va = .leaf e) fun s t =>
    let msg : Msg := { ring := 68, type := 7, seq := 0, arg := leBytes 8 (m.va / 4096 * 4096) ++ leBytes 2 m.ctx ++ List.replicate 22 0, payload := s.pageBytes (s.pageLines e m.va) }
    t = { (if m.assisted then s else ({ s with host := { s.host with waiting := s.host.waiting ++ [msg] } } : State).pumpRing 68).freeMove die frame
      with issue := s.issue }) ∧
  (∀ die m, Happens (.migrationStart die)
    (fun s => m.stage = 2 ∧ (s.die die).migr.length < 64 ∧ ((s.die die).migrQ.find? fun m => !(s.die die).migr.any fun y => decide (y.frame = m.frame)) = some m)
    fun s t => t = { (s.modDie die fun x => { x with migrQ := x.migrQ.erase m }).modDie die fun x => { x with migr := x.migr ++ [m] } with issue := s.issue }) ∧
  ∀ core course c ctx va slot kind, Happens (.walkComplete core ⟨course, .none⟩)
    (fun s => s.course? core course = some c ∧ c.susp = some (.walk ctx va slot kind)) fun s t =>
    let u := (s.modCourse core course fun c => { c with susp := none }).walkServed ctx va
    t = { (match u.walk ctx va with
      | .leaf e => (u.fillLL (coreDie core) e).fillL1 core e
      | .bad w => (u.errorEvent w 1 ((s.task? core c.task).map fun t => (core, t))).stopCourse core course
          { code := 0x70, faddr := canon57 va, ipc := if kind = 1 then canon57 va else (c.thread slot).pc, tmask := 2 ^ slot, ord := u.nextOrd }
      | _ => u.stopCourse core course { walkCause kind slot va (c.thread slot).pc with ord := u.nextOrd }) with issue := s.issue }

/-- R9, R321, R323, R325, R327, R329 to R340, R343, R421 to R424 and R439: packets between destinations, the links that carry
them, and the chunks of collectives. The model's choices in it: the neighbour that a ring's time-out names (log 64: DESIGN CHOICE),
counts for starvation tokens, tier grants and replays (logs 91 and 120: DESIGN CHOICE), the restart refusal to a sender that has not
announced itself (log 92: DEDUCED), the members whose loss ends a chunk (log 119: DEDUCED), and the answer about an uncorrectable
word (log 149: DESIGN CHOICE). -/
def Obligations.FabricEvents : Prop :=
  (∀ rank die seq pred pa bytes op queue x, let r : Remote := ⟨rank, die, seq, pred, pa, bytes, op, decide (64 < queue)⟩
    Happens (.remotePacketArrival rank die seq pred pa bytes op ⟨queue, false, .none⟩)
      (fun s => (rank, die) ∈ (s.settleFor pa).senders ∧ (s.settleFor pa).homeOf r = some x) fun s0 t =>
      let s := s0.settleFor pa
      let kept := s.keepOf x.slice rank die
      let go := fun u : State => u.retest x.dieOf rank die (u.die x.dieOf).heldPk.length
      (∀ k, kept.find? (fun k => decide (k.seq = seq)) = some k →
        t = { go (s.answer { rank := rank, die := die, seq := seq, result := k.result, stamp := k.stamp, mark := r.mark, bad := k.bad }) with issue := s0.issue }) ∧
      ((∀ k ∈ kept, k.seq ≠ seq) → (∀ p, pred = some p → ∃ k ∈ kept, k.seq = p) → s.packetBad x r = none → ∃ y, y = s.performPacket x r ∧
        t = { go ((y.1.keep { slice := x.slice, rank := rank, die := die, seq := seq, result := y.2.1, stamp := y.2.2 }).answer
          { rank := rank, die := die, seq := seq, result := y.2.1, stamp := y.2.2, mark := r.mark }) with issue := s0.issue }) ∧
      (∀ w, (∀ k ∈ kept, k.seq ≠ seq) → (∀ p, pred = some p → ∃ k ∈ kept, k.seq = p) → s.packetBad x r = some w →
        t = { go (((s.errorEvent w (match op with | .atomic _ _ _ _ false => 1 | _ => 3) none).keep
          { slice := x.slice, rank := rank, die := die, seq := seq, result := 0, stamp := 0, bad := true }).answer
            { rank := rank, die := die, seq := seq, mark := r.mark, bad := true }) with issue := s0.issue }) ∧
      ((∀ k ∈ kept, k.seq ≠ seq) → (∃ p, pred = some p ∧ ∀ k ∈ kept, k.seq ≠ p) →
        t = { s.modDie x.dieOf (fun d => { d with heldPk := d.heldPk ++ [r] }) with issue := s0.issue })) ∧
  (∀ rank die seq pred pa bytes op queue damaged err, Happens (.remotePacketArrival rank die seq pred pa bytes op ⟨queue, damaged, err⟩)
    (fun s => damaged = true ∨ (rank, die) ∉ (s.settleFor pa).senders) fun s t => ∃ l, (rank, die) ∉ l ∧
      t = { ({ s.settleFor pa with senders := l } : State).answer { rank := rank, die := die, seq := seq, restart := true } with issue := s.issue }) ∧
  (∀ rank die seq pred pa bytes op queue err, Happens (.remotePacketArrival rank die seq pred pa bytes op ⟨queue, false, err⟩)
    (fun s => (rank, die) ∈ (s.settleFor pa).senders ∧ (s.settleFor pa).homeOf ⟨rank, die, seq, pred, pa, bytes, op, decide (64 < queue)⟩ = none) fun s t =>
      t = { (s.settleFor pa).answer { rank := rank, die := die, seq := seq, refused := true } with issue := s.issue }) ∧
  (∀ d dest seq mark val tag p, Happens (.acknowledgementArrival d dest seq mark ⟨val, false⟩ tag)
    (fun s => (s.packets.find? fun p => decide (p.die = d ∧ p.dest = dest) && p.restart) = none ∧ s.packet? d dest seq = some p) fun s t => t = { (p.accs.foldl (fun s id => match s.access? id with
        | some a => (match a.kind with
          | .atom _ false => s.setAccess { a with st := .performed, val := val, tag := tag, bad := false }
          | _ => s)
        | none => s) (s.ackAllow d dest mark)).answered p with issue := s.issue }) ∧
  (∀ (s : State) d dest mark, let x := s.allowOf d dest
    let y := (s.ackAllow d dest mark).allowOf d dest
    y.o = x.o - 1 ∧ (mark = true ∧ x.h = false → y.w = max 1 (x.w / 2) ∧ y.a = 0 ∧ y.h = true) ∧
      (mark = false ∨ x.h = true → y.w = (if x.w ≤ x.a + 1 ∧ x.h = false then min 256 (x.w + 1) else x.w) ∧
        y.a = (if x.w ≤ x.a + 1 then 0 else x.a + 1) ∧ y.h = (if x.w ≤ x.a + 1 then false else x.h))) ∧
  (∀ core dest, dest < 512 → Happens (.closedVectorUpdate core dest) (fun _ => True) fun s t =>
    ∀ i < 512, (t.core core).closed.getLsbD i = if i = dest then s.isClosed (coreDie core) dest else (s.core core).closed.getLsbD i) ∧
  (∀ d dest seq p, Happens (.refusalArrival d dest seq 0) (fun s => s.packet? d dest seq = some p) fun s t =>
    ∃ u, u = (s.ackAllow d dest false).stopWriters [p] none 0x10 2 ∧
      t = { ((p.accs.filterMap u.access?).foldl State.refuseAccess u).answered p with issue := s.issue }) ∧
  (∀ d dest id a q o, id ≠ 0 → Happens (.refusalArrival d dest 0 id)
    (fun s => s.access? id = some a ∧ a.kind = .load q ∧ a.loc = .remote dest o ∧ coreDie a.core = d ∧ a.st = .sent) fun s t =>
      t = { (({ s with packets := s.packets.filter fun p => !(p.isLoad && p.accs.contains id) } : State).refuseAccess a).pump d with issue := s.issue }) ∧
  (∀ d dest, Happens (.restartRefusal d dest) (fun s => ∃ p ∈ s.packets, p.die = d ∧ p.dest = dest ∧ p.isLoad = false) fun s t =>
    t = { s.declareLost d dest with issue := s.issue }) ∧
  (∀ d dest, Happens (.destinationLost d dest) (fun s => ∃ p ∈ s.packets, p.die = d ∧ p.dest = dest ∧ p.first + 2 * msTicks ≤ s.time) fun s t =>
    t = { s.declareLost d dest with issue := s.issue }) ∧
  (∀ d dest seq p, Happens (.retransmission d dest seq 0)
    (fun s => s.packets = [p] ∧ p.die = d ∧ p.dest = dest ∧ p.isLoad = false ∧ p.seq = seq ∧ p.last + 50 * usTicks ≤ s.time ∧ p.tries < 8) fun s t =>
      t = { s with packets := [{ p with last := s.time, tries := p.tries + 1, pred := predOf [] p.line
                                        copyPort := if p.tries % 2 = 0 then (s.routes.get dest 0).toNat / 2 ^ 8 % 32 else routePort (s.routes.get dest 0) }] }) ∧
  (∀ d dest n, Happens (.allowanceCollapse d dest)
    (fun s => (s.allowOf d dest).since = some n ∧ n + 2 ^ 24 ≤ s.now ∧ (s.allowOf d dest).told = false) fun s t =>
      t = { (s.setAllow d dest { s.allowOf d dest with told := true }).sysEvent d 0x05 dest (s.now - n) with issue := s.issue }) ∧
  (∀ router out, Happens (.expressStarvationToken router out) (fun _ => True) fun s t => let n := s.express.get (8 * router + out) 0
    t = { s with express := s.express.set (8 * router + out) (if 8 ≤ n then 0 else n + 1) }) ∧
  (∀ port tier, Happens (.tierStarvationGrant port tier)
    (fun s => (tier ≠ 1 ∧ tier ≠ 2) ∨ s.tierWaits port tier = false) fun s t => t = s) ∧
  (∀ port, Happens (.tierStarvationGrant port 1)
    (fun s => s.tierWaits port 1 = true ∧ (64 ≤ (s.ports.get port {}).starved.1 ∨ s.tierWaits port 0 = true)) fun s t => let p := s.ports.get port {}
    t = { s with ports := s.ports.set port { p with starved := (if 64 ≤ p.starved.1 then 0 else p.starved.1 + 1, p.starved.2) } }) ∧
  (∀ (s : State) port, s.tierWaits port 2 = false) ∧
  (∀ port dest fast, Happens (.linkTraining port dest fast) (fun _ => True) fun s t =>
    t = { s with ports := s.ports.set port { s.ports.get port {} with up := true, dest := dest, fast := fast } }) ∧
  (∀ n, Happens (.flitCrcReplay n false) (fun _ => True) fun s t => let l := s.links.get n {}
    t = { s with links := s.links.set n { l with failed := l.failed + 1 } }) ∧
  (∀ n, Happens (.flitCrcReplay n true) (fun _ => True) fun s t => ∃ u, u = (s.countError (linkDie n) (linkKind n) false).2 ∧
    t = { u with links := u.links.set n { s.links.get n {} with failed := 0 }, issue := s.issue }) ∧
  (∀ n fast, n < 64 → Happens (.linkRetrain n true fast) (fun s => 16 ≤ (s.links.get n {}).failed ∧ (s.links.get n {}).isDown = false) fun s t =>
    ∃ u, u = (s.countError (linkDie n) (linkKind n) true).2 ∧
    t = { ({ u with links := u.links.set n { s.links.get n {} with failed := 0 }, ports := u.ports.set n { u.ports.get n {} with fast := fast } } : State).sysEvent
      (linkDie n) 0x01 n (if fast then 212500 else 106250) with issue := s.issue }) ∧
  (∀ n fast, n < 64 → Happens (.linkRetrain n false fast) (fun s => 16 ≤ (s.links.get n {}).failed ∧ (s.links.get n {}).isDown = false) fun s t =>
    let u := (s.countError (linkDie n) (linkKind n) true).2
    let times := u.time :: (s.links.get n {}).retrains.filter fun t => decide (u.time ≤ t + 1000 * msTicks)
    let v : State := { u with links := u.links.set n { s.links.get n {} with retrains := times, isDown := decide (3 ≤ times.length) } }
    t = { (if 3 ≤ times.length then v.portDown n else v) with issue := s.issue }) ∧
  (∀ (s : State) p dest, dest < 512 → let e := s.routes.get dest 0
    ((s.portDown p).routes.get dest 0 = if routePort e = p then e ||| 0x2000 else e) ∧ ((s.portDown p).ports.get p {}).up = false) ∧
  (∀ p, Happens (.portUp p) (fun _ => True) fun s t => t = { ({ s with
    ports := s.ports.set p { s.ports.get p {} with up := true }
    links := s.links.set p {}
    routes := s.routes.map fun (r : Nat × BitVec 16) => (r.1, if routePort r.2 = p then r.2 &&& 0xDFFF else r.2) } : State).writeStatus none with issue := s.issue }) ∧
  (∀ rank die, Happens (.restartAnnouncement rank die) (fun _ => True) fun s t => (rank, die) ∈ t.senders ∧
    (∀ d, ∀ k ∈ (t.die d).kept, ¬ (k.rank = rank ∧ k.die = die)) ∧ t.answers = s.answers ++ [{ rank := rank, die := die, seq := 0 }]) ∧
  (∀ rank ring, Happens (.ringCheck rank ring) (fun _ => True) fun s t => t = { s with answers := s.answers ++ [{ rank := rank, die := 0, seq := ring }] }) ∧
  (∀ ring c, Happens (.ringCheckAnswer ring true) (fun s => s.ringChecks.find? (fun c => decide (c.ring = ring)) = some c ∧ c.nextOk = true) fun s t =>
    t = { ({ s with ringChecks := s.ringChecks.filter (fun c => decide (c.ring ≠ ring)), rings := s.rings.set ring (c.entry ||| 0x400000000000) } : State).sysEvent
      0 0x0B ring (ringN c.entry) with issue := s.issue }) ∧
  (∀ ring c, Happens (.ringSetupTimeout ring) (fun s => s.ringChecks.find? (fun c => decide (c.ring = ring)) = some c ∧ c.born + 2 * msTicks ≤ s.time) fun s t =>
    t = { ({ s with ringChecks := s.ringChecks.filter (fun c => decide (c.ring ≠ ring))
                    rings := s.rings.set ring (s.rings.get ring 0 &&& ~~~0x400000000000#64) } : State).sysEvent
        0 0x0A ring (if c.prevOk then ringNext c.entry else ringPrev c.entry) with issue := s.issue }) ∧
  (∀ core cid index far c, Happens (.chunkStart core ⟨true, far, .none⟩ cid index)
    (fun s => (s.settleChunks.chunks.find? fun c => decide (c.cid = cid ∧ c.index = index ∧ c.cmd = none) && !c.started && c.status.isNone) = some c) fun s t =>
      t = { ({ s.settleChunks with chunks := s.settleChunks.chunks.erase c } : State).startChunk c far with issue := s.issue }) ∧
  (∀ core cid index far x, Happens (.chunkStart core ⟨false, far, .none⟩ cid index)
    (fun s => let u := s.settleChunks
      ((u.core core).queue 3).find? (fun x => !x.ended && decide (x.st = .queued)) = some x ∧ x.gen = none ∧ u.cmdReady x = true ∧
        ∀ e, u.newId.2.readChunk (u.cmdChunk core x) far ≠ .error e) fun s t =>
      let c := s.settleChunks.cmdChunk core x
      let u := s.settleChunks.newId.2
      let begins := ringValid (u.rings.get c.ring 0) = true ∧ u.chunkOfId c.cid c.index = none
      t = { (u.setCmd core (if begins then { x with st := .running, perm := c.cost c.contrib } else { x with st := .running })).startChunk c far with
        issue := s.issue }) ∧
  (∀ ring cid index dtype cop bytes vals ranks refused c, let p : Partial := { ring := ring, cid := cid, index := index, dtype := dtype, cop := cop, bytes := bytes, vals := vals, ranks := ranks, refused := refused }
    Happens (.partialArrival ring cid index dtype cop bytes vals ranks refused)
      (fun s => s.chunkOfId cid index = some c ∧ c.status = none ∧ (ring = c.ring → s.rank ∉ c.ranks)) fun s t =>
      t = { (s.creditBack ring).addPartial c p with issue := s.issue }) ∧
  (∀ ring cid index dtype cop bytes vals ranks refused, let p : Partial := { ring := ring, cid := cid, index := index, dtype := dtype, cop := cop, bytes := bytes, vals := vals, ranks := ranks, refused := refused }
    Happens (.partialArrival ring cid index dtype cop bytes vals ranks refused)
      (fun s => ∀ c, s.chunkOfId cid index = some c → c.status ≠ none ∨ (ring = c.ring ∧ s.rank ∈ c.ranks)) fun s t =>
      t = if (s.partials.filter fun q => decide (q.ring = ring) && !q.ready).length < 32 then { s with partials := s.partials ++ [p] } else s) ∧
  (∀ ring cid index dtype cop bytes vals ranks c, let p : Partial := { ring := ring, cid := cid, index := index, dtype := dtype, cop := cop, bytes := bytes, vals := vals, ranks := ranks, refused := false }
    Happens (.resultArrival ring cid index dtype cop bytes vals ranks false) (fun s => s.chunkOfId cid index = some c ∧ c.status = none ∧ c.got = none) fun s t =>
      let e := if ring = c.ring then c.entry else s.rings.get ring 0
      let n := ringN e
      t = { ((if ringPos e = (index % n + n - 2) % n then s else s.sendResult p).takeResult c vals ranks) with issue := s.issue }) ∧
  (∀ ring p, Happens (.partialCreditReturn ring) (fun s => s.partials.find? (fun p => decide (p.ring = ring) && p.ready) = some p) fun s t =>
    t = { ({ s with ringCredits := s.ringCredits.set ring (min 32 (s.ringCredits.get ring 32 + 1)), partials := s.partials.erase p } : State).sendPartial p
      with issue := s.issue }) ∧
  (∀ cid index m c, Happens (.chunkPeerLostTimeout cid ⟨index, m⟩) (fun s => s.chunkOfId cid index = some c ∧ c.status = none ∧
      m ∈ c.members ∧ m ≠ s.rank ∧ (c.progress + 2 * msTicks ≤ s.time ∨ (s.routes.get m 0).toNat / 2 ^ 14 = 2)) fun s t =>
    t = { s.completeChunk c 1 with issue := s.issue }) ∧
  ∀ cid index m, Happens (.chunkPeerLostTimeout cid ⟨index, m⟩) (fun s => ∀ c, s.chunkOfId cid index = some c → m ∉ c.members ∨ m = s.rank) fun s t => t = s

/-- R66, R76, R79, R84, R325, R337, R355, R356, R365, R370, R390 and R423: the commands of the host, and what their completion
records say. The model's choices in it: the member list of a ring (log 63: DESIGN CHOICE), the numbers of queue units (log 83: DESIGN
CHOICE), die 0 for the host's commands and the fields of refusal records (log 96: DEDUCED), writes to another module (log 102: DESIGN
CHOICE), the report's form (log 103: DESIGN CHOICE), a route entry as written (log 111: DEDUCED), the free value in a launch's check
(log 131: DESIGN CHOICE), bind results (log 132: DESIGN CHOICE), and the ring of completion records (log 136: DEDUCED). -/
def Obligations.HostCommands : Prop :=
  (∀ m i tag z addr g, Commands (.launch m i tag z addr) ⟨m, i, tag, z, .launch addr⟩
    (fun u ctx => u.fresh.2.resizesFirst.checkLaunch (hostView ctx (decide (u.fresh.1 % 2 = 1))) false addr 1 = .ok g) fun u ctx =>
      let h := hostView ctx (decide (u.fresh.1 % 2 = 1))
      let w := u.fresh.2.resizesFirst
      let v := ((w.launchRanges h addr g).foldl (fun s r => s.engServed h (glAt r.1) 0 r.2 0) w).pastFar
      let seq := (v.die 0).nextLaunch
      ((v.modDie 0 fun x => { x with nextLaunch := (seq + 1) % 2 ^ 32, graphs := x.graphs ++ [{ g with seq := seq, die := 0 }] }).startReady 0 seq, 0, seq)) ∧
  (∀ m i tag z addr e, Commands (.launch m i tag z addr) ⟨m, i, tag, z, .launch addr⟩
    (fun u ctx => u.fresh.2.resizesFirst.checkLaunch (hostView ctx (decide (u.fresh.1 % 2 = 1))) false addr 1 = .error e) fun u ctx =>
      let v := u.fresh.2.resizesFirst.pastFar
      (v.postEvent 0 (v.event 0 0xFFFF e 0x04 0 0xFF 0 0), 1, e)) ∧
  (∀ m i tag z graph node, Commands (.release m i tag z graph node) ⟨m, i, tag, z, .release graph node⟩ (fun _ _ => True) fun u ctx =>
    (u.releaseNode 0 graph node, 0, 0)) ∧
  (∀ m i tag z die clusters count byPrio sel, die < 4 → 0 < clusters → clusters < 16 → 0 < count →
    Commands (.preempt m i tag z die clusters count byPrio sel) ⟨m, i, tag, z, .preempt die clusters count byPrio sel⟩ (fun _ _ => True) fun u ctx =>
      (u.requestPreempt die { clusters := clusters, count := count, graph := if byPrio then none else some sel, below := if byPrio then sel else 0 }, 0, 0)) ∧
  (∀ m i tag z addr len data ps, 0 < len → len ≤ 40 → Commands (.writeMemory m i tag z addr len data false) ⟨m, i, tag, z, .write addr len data false⟩
    (fun u ctx => u.resizesFirst.engPieces (hostView ctx false) (glAt addr) 0 0 (padTo len data) = .ok ps) fun u ctx =>
      (u.resizesFirst.unitStore 128 ctx addr (padTo len data), 0, 0)) ∧
  (∀ m i tag z addr len data ps, 0 < len → len ≤ 40 → Commands (.writeMemory m i tag z addr len data true) ⟨m, i, tag, z, .write addr len data true⟩
    (fun u ctx => u.resizesFirst.engPieces (hostView ctx true) (glAt addr) 0 0 (padTo len data) = .ok ps ∧ ∃ p ∈ ps, p.1.isRemote = true) fun u ctx =>
      ((u.resizesFirst.engWrites [ps.filter fun p => !p.1.isRemote]).1, 1, 0)) ∧
  (∀ m i tag z addr len val bs, 0 < len → len ≤ 8 → Commands (.readMemory m i tag z addr len val false) ⟨m, i, tag, z, .read addr len val false⟩
    (fun u ctx => u.resizesFirst.engRead (hostView ctx false) (glAt addr) 0 len 0 = .ok bs) fun u ctx =>
      (u.resizesFirst.engServed (hostView ctx false) (glAt addr) 0 len 0, 0,
        if u.resizesFirst.readsFar ctx addr len then val % 2 ^ (8 * len) else leNat bs)) ∧
  (∀ m i tag z unit queue value q, unit < 4 → Commands (.queueControl m i tag z unit queue value) ⟨m, i, tag, z, .queueControl unit queue value⟩
    (fun u _ => queueWrite 4096 (u.die unit).poolCtl.toList queue value = some q) fun u _ =>
      ((u.modDie unit fun x => { x with poolCtl := if h : queue < 8 then x.poolCtl.set queue q else x.poolCtl }).refill unit 4096, 0, 0)) ∧
  (∀ m i tag z unit queue value, unit < 4 → Commands (.queueControl m i tag z unit queue value) ⟨m, i, tag, z, .queueControl unit queue value⟩
    (fun u _ => queueWrite 4096 (u.die unit).poolCtl.toList queue value = none) fun u _ => (u, 0, 1)) ∧
  (∀ m i tag z dest entry, dest < 512 → entry / 2 ^ 14 % 4 ≠ 3 →
    Commands (.routeEntry m i tag z dest entry) ⟨m, i, tag, z, .route dest entry⟩ (fun _ _ => True) fun u _ =>
      let old := (u.routes.get dest 0).toNat / 2 ^ 14
      let new := entry % 2 ^ 16 / 2 ^ 14
      let v : State := { u with routes := u.routes.set dest (u.routeWord (u.routes.get dest 0) (entry % 2 ^ 16)) }
      (if new = 1 ∧ old ≠ 1 then (v.restore dest (old = 2)).writeStatus none else if new = 2 ∧ old ≠ 2 then v.lostEverywhere dest else v.writeStatus none, 0, 0)) ∧
  (∀ (s : State) old entry, entry < 2 ^ 16 → let w := s.routeWord old entry
    routePort w = entry % 32 ∧ routeAlt w = (s.links.get (entry % 32) {}).isDown ∧ w.toNat / 2 ^ 8 % 32 = entry / 2 ^ 8 % 32 ∧
      w.toNat / 2 ^ 14 = if old.toNat / 2 ^ 14 = 2 ∧ entry / 2 ^ 14 ≠ 1 then 2 else entry / 2 ^ 14) ∧
  (∀ m i tag z ring addr far members, ring < 256 → Commands (.ringSetup m i tag z ring addr far) ⟨m, i, tag, z, .ringSetup ring addr far⟩
    (fun u ctx => u.resizesFirst.memberList ctx addr far = some members ∧
      ((u.resizesFirst.engServed (hostView ctx false) (glAt addr) 0 (2 + 2 * members.length) 0).pastFar).membersOk members = true) fun u ctx =>
      let v := ((u.resizesFirst.engServed (hostView ctx false) (glAt addr) 0 (2 + 2 * members.length) 0).pastFar).listRing ring members
      (if (v.die 0).duty.getLsbD 4 then v.hostEvent (v.event 0 0xFFFF 0 0x0B 0 0xFF (ring + 2 ^ 16 * ctx) (BitVec.ofNat 64 addr)) else v.ringSetup ring members, 0, 0)) ∧
  (∀ m i tag z base index state fail target w, Commands (.bindResult m i tag z base index state fail target) ⟨m, i, tag, z, .bindResult base index state fail target⟩
    (fun u ctx => u.entryWord (((findAt (fun b => decide (b.ctx = ctx ∧ b.base = base ∧ b.index = index)) u.binds).map Bind.die).getD 0) ctx base index 0 = some w ∧
      w % 4 = 1 ∧ (state = 2 ∨ state = 3)) fun u ctx =>
      let d := (((findAt (fun b => decide (b.ctx = ctx ∧ b.base = base ∧ b.index = index)) u.binds).map Bind.die).getD 0)
      (if state = 2 then u.bindDone d ctx base index target none else u.bindFails d ctx base index fail, 0, 0)) ∧
  (∀ m i tag z die core course action, die < 4 → core < 132 → course < 128 → action ≤ 1 →
    Commands (.trapResume m i tag z die core course action) ⟨m, i, tag, z, .trapResume die core course action⟩ (fun _ _ => True) fun u _ =>
        ((u.physStore (trapBase die + 0x10000 + 0x8800 * (128 * core + course) + 0x18) (leBytes 8 (action + 1))).frameAction
          (132 * die + core) course (action + 1), 0, 0)) ∧
  (∀ m i tag z base count, base % 4096 = 0 → count ≤ 65536 → Commands (.codeTable m i tag z base count) ⟨m, i, tag, z, .codeTable base count⟩ (fun _ _ => True) fun u ctx =>
    ({ u with codeTables := u.codeTables.filter (fun t => decide (t.ctx ≠ ctx)) ++ [{ ctx := ctx, base := base, count := count }] }, 0, 0)) ∧
  (∀ m i tag z addr nonce, Commands (.attest m i tag z addr) ⟨m, i, tag, z, .attest addr⟩
    (fun u ctx => let v := (u.resizesFirst.engServed (hostView ctx false) (glAt addr) 0 64 0).pastFar
      u.plat.cert ≠ [] ∧ u.resizesFirst.glBytes (hostView ctx false) addr 64 = some nonce ∧ (v.fresh.2.hostWrite ctx addr (v.report nonce) false).2.1 = 0) fun u ctx =>
      let v := (u.resizesFirst.engServed (hostView ctx false) (glAt addr) 0 64 0).pastFar
      ((v.fresh.2.hostWrite ctx addr (v.report nonce) false).1, 0, addr)) ∧
  (∀ m i tag z ring ctx root, m.ring = 0 → 0 < ring → ring ≤ 63 → 0 < ctx → ctx ≤ 65535 → root % 4096 = 0 →
    Commands (.ringBind m i tag z ring ctx root) ⟨m, i, tag, z, .ringBind ring ctx root⟩
      (fun u _ => (∃ p ∈ u.ringCtx, p.2 = ctx) → u.contexts.get ctx 0 = root) fun u _ =>
        ({ u with ringCtx := u.ringCtx.set ring ctx, contexts := u.contexts.set ctx root }, 0, 0)) ∧
  ∀ (s : State) (x : HostIn), s.InTurn x → isCommand x.op = true → (x.z.isSome = true ∨ (s.turnOf x).ringCtx.find x.m.ring = none) →
    { s.hostIn x with issue := s.issue } =
      s.andHeld (((s.turnOf x).recordTo 0 65 3 (completion ((x.z.map fun n => n % 256).getD (opcodeOf x.op))
        (if x.z.isSome then (s.turnOf x).badStatus x else 1) x.tag 0)).entryDone x)

/-- R151 to R153, R243, R353, R354, R357, R359, R361 and R425: the host link, its order of messages, and the messages that are no
commands. The model's choices in it: refusals and credits of messages (logs 97 and 135: DESIGN CHOICE), the loss of the link while
something is unacknowledged (log 99: DESIGN CHOICE), the core of a mailbox message (log 100: DEDUCED) and the rate of the link (log
141: DESIGN CHOICE). -/
def Obligations.HostMessages : Prop :=
  (∀ m call lo hi vals c core n, Tells (.syscallReply m call lo hi vals) ⟨m, 0, 0, none, .reply call lo hi vals⟩
    (fun u => u.calls.find? (fun c => decide (c.id = call) && !c.answered) = some c ∧ u.callCourse c = some (core, n)) fun u =>
      let put := fun (q : Course) (v : Nat × Nat × Nat) =>
        if c.mask.testBit v.1 then (q.putBoth v.1 (.v 0) (BitVec.ofNat 64 v.2.1)).putBoth v.1 (.v 1) (BitVec.ofNat 64 v.2.2) else q
      let w := u.modCourse core n fun q => { (replyVals lo hi vals).foldl put q with wakeAt := some (u.now + 32) }
      { w with calls := w.calls.filter fun x => decide (x.id ≠ call) }) ∧
  (∀ m core words, isCtl core = true → Tells (.mailboxMessage m core words) ⟨m, 0, 0, none, .mailbox core words⟩ (fun _ => True) fun u =>
    u.modCore core fun k => { k with mbIn := Vector.ofFn fun i : Fin 16 => BitVec.ofNat 64 (words.getD i.val 0) }) ∧
  (∀ m ctx va bytes e at_ d y, Tells (.pageMessage m ctx va bytes) ⟨m, 0, 0, none, .page ctx va bytes⟩
    (fun u => u.sharedPage ctx va = some (e, at_) ∧ u.inbound (leafBase e.pte.toNat e.size) = some (d, y)) fun u =>
      let ls := u.pageLines e va
      let v := ls.zipIdx.foldl (fun s p => s.engStore p.1 ((List.range 256).map fun i => bytes.getD (256 * p.2 + i) 0)) u
      if y.assisted then v else ((((v.setOwn at_ false).dropPage y.frame ctx va).pageArrives ls).freeMove d y.frame).wakeMove d y) ∧
  (∀ m ctx va bytes e at_, Tells (.pageMessage m ctx va bytes) ⟨m, 0, 0, none, .page ctx va bytes⟩
    (fun u => u.sharedPage ctx va = some (e, at_) ∧ u.inbound (leafBase e.pte.toNat e.size) = none ∧
      (u.die (frameDie (leafBase e.pte.toNat e.size))).duty.getLsbD 1 = true) fun u =>
      (u.pageLines e va).zipIdx.foldl (fun s p => s.engStore p.1 ((List.range 256).map fun i => bytes.getD (256 * p.2 + i) 0)) u) ∧
  (∀ m ctx va own e at_, Tells (.ownMessage m ctx va own) ⟨m, 0, 0, none, .own ctx va own⟩
    (fun u => u.sharedPage ctx va = some (e, at_) ∧ findAt (fun m => decide (m.frame = leafBase e.pte.toNat e.size))
      (State.die ((u.setOwn at_ own).dropPage (leafBase e.pte.toNat e.size) ctx va) (frameDie (leafBase e.pte.toNat e.size))).migr = none) fun u =>
      let frame := leafBase e.pte.toNat e.size
      let v := (u.setOwn at_ own).dropPage frame ctx va
      if own then v.departs (frameDie frame) { frame := frame, toHost := true, assisted := true, ctx := ctx, va := va, pte := at_ } (u.pageLines e va)
      else v.pageArrives (u.pageLines e va)) ∧
  (∀ m ctx va e at_ y, Tells (.ownMessage m ctx va false) ⟨m, 0, 0, none, .own ctx va false⟩
    (fun u => u.sharedPage ctx va = some (e, at_) ∧ findAt (fun m => decide (m.frame = leafBase e.pte.toNat e.size))
      (State.die ((u.setOwn at_ false).dropPage (leafBase e.pte.toNat e.size) ctx va) (frameDie (leafBase e.pte.toNat e.size))).migr = some y ∧
      y.toHost = false ∧ y.assisted = true) fun u =>
      let frame := leafBase e.pte.toNat e.size
      (((((u.setOwn at_ false).dropPage frame ctx va).pageArrives (u.pageLines e va)).freeMove (frameDie frame) frame).wakeMove (frameDie frame) y)) ∧
  (∀ m ctx va e at_ y, Tells (.ownMessage m ctx va false) ⟨m, 0, 0, none, .own ctx va false⟩
    (fun u => u.sharedPage ctx va = some (e, at_) ∧ findAt (fun m => decide (m.frame = leafBase e.pte.toNat e.size))
      (State.die ((u.setOwn at_ false).dropPage (leafBase e.pte.toNat e.size) ctx va) (frameDie (leafBase e.pte.toNat e.size))).migr = some y ∧
      y.toHost = true) fun u =>
      ((u.setOwn at_ false).dropPage (leafBase e.pte.toNat e.size) ctx va).pageArrives (u.pageLines e va)) ∧
  (∀ m ctx va e at_, Tells (.hostMigrationRequest m ctx va) ⟨m, 0, 0, none, .wantPage ctx va⟩ (fun u => u.sharedPage ctx va = some (e, at_)) fun u =>
    u.askMigration (frameDie (leafBase e.pte.toNat e.size))
      { frame := leafBase e.pte.toNat e.size, toHost := true, assisted := false, ctx := ctx, va := va, pte := 0 }) ∧
  (∀ m first, Controls (.nak m first) m (fun _ => True) fun u => u.sendAgain fun x =>
    ackCovers x.seq first && !m.sack.testBit ((x.seq + 2 ^ 32 - (m.ack + 2) % 2 ^ 32) % 2 ^ 32)) ∧
  (∀ m accepted sent oldest, Controls (.resync m accepted sent oldest) m
    (fun u => accepted = 0 ∨ ackCovers (nextSeqNo accepted) u.host.oldest = true) fun u =>
      let v := (u.control 0x0B 0xFFFF u.host.resyncArg).sendAgain fun x => decide (accepted = 0) || !ackCovers accepted x.seq
      State.pumpAll { v with host := deviceRings.foldl (fun h r => h.setCredit r (ringDepth r)) v.host }) ∧
  (∀ m accepted sent oldest, Controls (.resyncReply m accepted sent oldest) m (fun u => u.host.resync = true ∨ ackCovers u.host.expect oldest = true) fun u =>
    let h := { u.host with resync := false, expect := if u.host.resync then oldest else u.host.expect, next := if u.host.resync then 0 else u.host.next }
    State.pumpAll { u with host := deviceRings.foldl (fun h r => h.setCredit r (ringDepth r)) h }) ∧
  (∀ m, Controls (.keepalive m) m (fun _ => True) fun u => u) ∧
  (∀ s : State, s.phase = .running ∨ s.phase = .recovery → s.host.up = false →
    ∃ rate ∈ (if s.phase = .recovery then [400] else [400, 800, 1600]), exec .hostLinkBringup s = .next
    (let u := s.fresh.2
     let h := { s.host with up := true, lost := false, rate := rate, sendSeq := 1, expect := 1, anyIn := false, anyOut := false, next := 0
                            unacked := [], heldIn := [], credits := deviceRings.foldl (fun (t : Tab Nat) r => t.set r (ringDepth r)) [], lastAck := s.time }
     { State.pumpAll (if s.host.resync then State.control { u with host := h } 0x0A 0xFFFF h.resyncArg else { u with host := h }) with issue := s.issue })) ∧
  (∀ (s : State) a y r, s.phase = .running ∨ s.phase = .recovery → s.host.unacked = (a, y) :: r → max s.host.lastAck a + 500 * usTicks ≤ s.time →
    exec .hostRetransmit s = .next { s.sendAgain (fun x => decide (x.seq = y.seq)) with issue := s.issue }) ∧
  (∀ s : State, s.phase = .running ∨ s.phase = .recovery → s.host.up = true → s.host.unacked ≠ [] → s.host.lastAck + 100 * msTicks ≤ s.time →
    exec .hostLinkLost s = .next { s.hostLoss with issue := s.issue }) ∧
  ∀ (s : State) (x : HostIn), s.hears = true → let v := s.takeHead x.m
    let ahead := (x.m.seq + 2 ^ 32 - v.host.expect) % 2 ^ 32
    (headBad x.m = true → s.hostIn x = if x.i = 0 then s.sendNak else s) ∧
    (headBad x.m = false → ¬ (x.m.seq = v.host.current ∧ x.i = v.host.next) →
      s.hostIn x = if ahead ≤ 255 ∧ (ahead ≠ 0 ∨ v.host.next ≠ 0) then
          let held := fun i : Nat => v.host.heldIn.any fun y => decide (y.m.seq = x.m.seq ∧ y.i = i)
          let barred := if x.i = 0 then v.refusedWhole x else !held 0 && decide (x.m.seq ≠ v.host.current)
          let w : State := if held x.i || barred then v else { v with host := { v.host with heldIn := v.host.heldIn ++ [x] } }
          if x.i = 0 then w.sendNak else w
        else if x.i = 0 then v.sendKeepalive 0xFFFF else v) ∧
    (headBad x.m = false → x.m.seq = v.host.current → x.i = v.host.next → x.i = 0 → v.refusedWhole x = true → s.hostIn x = v.sendNak)

/-- R5, R6, R15, R16, R56, R344, R364, R365, R372, R373, R375, R376, R409, R426 to R429: code tables, debug writes, register
writes, and the platform: boot, sensors, throttling, telemetry, trips, reboots and scrubbing. The model's choices in it: the contexts in which `ilen` acts (log 34: PRESUMED),
bindings and the entry's trap (logs 106 and 107: DEDUCED), the boot's order (log 108: DEDUCED), trips and reboots (log 109: DEDUCED),
writes of plain registers (log 110: DESIGN CHOICE), throttle requests (log 121: DEDUCED), samples and averages (log 123: DEDUCED), and
the translated code (log 139: DESIGN CHOICE). -/
def Obligations.PlatformEvents : Prop :=
  (∀ (s : State) G t index e x w, s.phase = .running → s.entryGroup = some (G, t, index, 0) → s.tlbFind G.g.core G.tk.ctx (va57 G.g.pc) = some e →
    e.permits { r := true } (G.cs.thread G.lowest).sup = true → s.targetOf e (va57 G.g.pc) = .home x → e.hostOwned = false →
    s.resizeWaits x = false → s.badIn x 16 = none →
    ∃ u, u = (s.invalLane G.g.core).served x 16 ∧ (w = leNat (u.locRead x 8) →
      (w % 4 = 2 → exec .codeTableEntryJump s = .next (u.leaveSteered G { len := 0, h := openHdr }
        fun _ th => some (th.branch (BitVec.ofNat 64 (leNat (u.locRead (x.plus 8) 8)))))) ∧
      (w % 4 = 3 → exec .codeTableEntryJump s = .next (u.trapNow G
        { code := 0x40, sub := w / 2 ^ 8 % 256, faddr := BitVec.ofNat 64 (t.base + 64 * index), ipc := G.g.pc, tmask := slotMask G.g.slots })) ∧
      (w % 4 = 1 → exec .codeTableEntryJump s = .next (u.parkAt G (.codeEntry t.base index))) ∧
      (w % 4 = 0 → e.permits { r := true, w := true } (G.cs.thread G.lowest).sup = true →
        exec .codeTableEntryJump s = .next (((u.engStore x (leBytes 8 (w + 1))).parkAt G (.codeEntry t.base index)).raiseBind G t index)) ∧
      (w % 4 = 0 → e.permits { r := true, w := true } (G.cs.thread G.lowest).sup = false →
        exec .codeTableEntryJump s = .next (u.trapNow G { code := 0x11, sub := 6, faddr := G.g.pc, ipc := G.g.pc, tmask := 2 ^ G.lowest })))) ∧
  (∀ ctx base index b src w3 m next last ps, Happens (.hardwareBind ctx base index)
    (fun s => findAt (fun b => decide (b.ctx = ctx ∧ b.base = base ∧ b.index = index) && !b.assisted) s.binds = some b ∧
      s.entryWord b.die ctx base index 2 = some src ∧ s.entryWord b.die ctx base index 3 = some w3 ∧
      s.moduleFault b src (w3 % 2 ^ 32) (w3 / 2 ^ 32) = .ok m ∧ s.codeSpace.find ctx = some (next, last) ∧
      next + (translate m (w3 % 2 ^ 32) base next).length ≤ last ∧
      s.engPieces (unitView b.die ctx) (glAt next) 0 0 (translate m (w3 % 2 ^ 32) base next) = .ok ps) fun s t =>
    let code := translate m (w3 % 2 ^ 32) base next
    let u := s.unitStore (132 * b.die + 128) ctx next code
    t = { ({ u with codeSpace := u.codeSpace.set ctx (next + code.length, last) } : State).bindDone b.die ctx base index next (some code.length)
      with issue := s.issue }) ∧
  (∀ ctx base index b src w3 n, Happens (.hardwareBind ctx base index)
    (fun s => findAt (fun b => decide (b.ctx = ctx ∧ b.base = base ∧ b.index = index) && !b.assisted) s.binds = some b ∧
      s.entryWord b.die ctx base index 2 = some src ∧ s.entryWord b.die ctx base index 3 = some w3 ∧
      s.moduleFault b src (w3 % 2 ^ 32) (w3 / 2 ^ 32) = .error n) fun s t => t = { s.bindFails b.die ctx base index n with issue := s.issue }) ∧
  (∀ core course v i, ((i = .dbgctlHalt core course ∧ v.getLsbD 1 = true ∧ (v.getLsbD 2 && v.getLsbD 0) = false) ∨ (i = .dbgctlUnhalt core course ∧ v.getLsbD 1 = false) ∨
      (i = .dbgctlStep core course ∧ v.getLsbD 0 = true ∧ v.getLsbD 1 = true ∧ v.getLsbD 2 = true)) →
    Happens i (fun s => (s.course? core course).bind (fun c => c.dbg.head?) = some v ∧ s.issue = none ∧ s.laneIdle core (laneOf core course) = true) fun s t =>
      t = { s.meetDbg core course with issue := s.issue }) ∧
  (∀ core v, Happens (.ilenWrite core v) (fun _ => True) fun s t => ∃ u : State, u = ((s.core core).tasks.map fun t => t.2.ctx).eraseDups.foldl
      (fun s' ctx => s'.invalCode core ctx (s.core core).iaddr.toNat v.toNat) s ∧
    t = { u.modCore core fun k => { k with ilen := v, courses := k.courses.map fun c => (c.1, { c.2 with prefetch := none }) } with issue := s.issue }) ∧
  (Happens .mailboxSend (fun _ => True) fun s t => t = { s with host := s.host.pump s.time 67 s.host.waiting.length }) ∧
  (∀ d v, d < 4 → Happens (.dutyWrite d v) (fun _ => True) fun s t => t = { s.modDie d fun x => { x with duty := v &&& 0x1F } with issue := s.issue }) ∧
  (∀ d v, d < 4 → Happens (.registerWrite (.hodage d) v) (fun _ => True) fun s t => t = { s.modDie d fun x => { x with hodage := v &&& 0xFFFF } with issue := s.issue }) ∧
  (∀ k v, k < 528 → Happens (.registerWrite (.trapvec k) v) (fun _ => True) fun s t =>
    t = { s.modCore k fun c => { c with trapvec := v &&& ~~~1#64 } with issue := s.issue }) ∧
  (∀ i v, i < 256 → Happens (.registerWrite (.ring i) v) (fun _ => True) fun s t => t = { s with rings := s.rings.set i (v &&& 0x7FFFFFFFFFFF) }) ∧
  (∀ (s : State) cert owner fw fw2 cfg a b c d, s.phase = .booting → a = s.checkRecord 4 (recordSigned [Config.rootKey] cert) cert →
    b = (if a.2 then { a.1 with plat := { a.1.plat with cert := cert } } else a.1).checkRecord 2 (recordSigned [Config.rootKey] owner) owner →
    c = (if b.2 then { b.1 with plat := { b.1.plat with owner := some (Config.operatorKey owner) } } else b.1).checkRecord 1
      (recordSigned [Config.firmwareKey] fw) fw →
    d = c.1.checkRecord 1 (recordSigned [Config.firmwareKey] fw2) fw2 →
    (c.2 = true → exec (.boot cert owner fw fw2 cfg) s = .next { c.1.configure cfg with issue := none }) ∧
    (c.2 = false → d.2 = true → exec (.boot cert owner fw fw2 cfg) s = .next { d.1.configure cfg with issue := none }) ∧
    (c.2 = false → d.2 = false → exec (.boot cert owner fw fw2 cfg) s = .next
      { ({ d.1 with phase := .recovery, ident0 := true, ringCtx := d.1.ringCtx.set 0 0
                    host := { d.1.host with rate := if d.1.host.up then 400 else d.1.host.rate }
                    plat := { d.1.plat with cfg := cfg } } : State).writeStatus none with issue := none })) ∧
  (∀ (s : State) kind signed bs, bs ≠ [] → recordReason s.plat.minVersion kind signed bs = 0 →
    s.checkRecord kind signed bs = ({ s with plat := { s.plat with
      accepted := s.plat.accepted ++ [(kind, recNat bs 4 4, bs.take (recNat bs 24 4 + 132))]
      minVersion := if (recNat bs 1 1).testBit 0 then recNat bs 4 4 else s.plat.minVersion } }, true)) ∧
  (∀ (s : State) kind signed bs, bs ≠ [] → recordReason s.plat.minVersion kind signed bs ≠ 0 →
    s.checkRecord kind signed bs = (({ s with plat := { s.plat with cfgref := s.plat.cfgref + 1 } } : State).sysEvent 0 0x09 kind
      (recordReason s.plat.minVersion kind signed bs), false)) ∧
  (∀ v kind signed bs, recordReason v kind signed bs = 0 ↔ signed = true ∧ max 64 (recNat bs 24 4) ≤ bs.length ∧ recNat bs 0 1 = kind ∧
    v ≤ recNat bs 4 4 ∧ recNat bs 8 16 = Config.partNumber) ∧
  (∀ (s : State) n x, n < 29 → (∀ y, (s.plat.sensors.get n []).head? = some y → y.1 + samplePeriod n ≤ s.time) →
    ∃ p : Platform, p.sensors = s.plat.sensors.set n ((s.time, x) :: (s.plat.sensors.get n []).filter fun y => decide (s.time < y.1 + msTicks)) ∧
      exec (.sensorSample n x) s = .next { (if s.phase = .off then { s with plat := p }
        else ([0, 1, 2, 3].foldl (fun (s : State) d => [0, 1, 2, 3, 4].foldl (fun (s : State) e => s.throttleEvent d e) s) { s with plat := p }).settleStep) with issue := s.issue }) ∧
  (∀ rank die step, Happens (.throttleRequest rank die step) (fun s => rank ≠ s.rank ∧ s.isLost rank = false ∧ s.stepGroup none ≠ []) fun s t =>
    let u := (s.putRequest rank die 5 step).settleStep
    t = { (if (u.die 0).step ≠ (s.die 0).step ∨ (32 ≤ step ∧ (s.otherRequests rank die 5).length < s.requests.length) then u.sendStep (some rank) rank die step
      else u) with issue := s.issue }) ∧
  (∀ rank die step, Happens (.throttleRequest rank die step) (fun s => rank = s.rank ∨ s.isLost rank = true ∨ s.stepGroup none = []) fun s t => t = s) ∧
  (Happens .throttleStepUp (fun s => (s.die 0).step < s.lowestStep ∧ s.plat.lastUp + msTicks ≤ s.time) fun s t =>
    let u := s.applyStep ((s.die 0).step + 1)
    t = { u with plat := { u.plat with lastUp := s.time }, issue := s.issue }) ∧
  (∀ die event r, event < 2 → Happens (.throttleRepeat die event)
    (fun s => s.request? die event = some r ∧ r.born + (if event = 0 then 100 * usTicks else msTicks) ≤ s.time ∧ s.raised die event = true) fun s t =>
      t = { (s.ownRequest die event (min r.step (max 16 ((s.die 0).step - 1)))).settleStep with issue := s.issue }) ∧
  (∀ die, Happens (.throttleRepeat die 2) (fun _ => True) fun s t =>
    t = { ([0, 1, 2, 3].foldl (fun (u : State) d => match u.request? d 2 with
      | some r => if r.born + msTicks ≤ u.time ∧ u.raised d 2 = true then u.ownRequest d 2 (min r.step (max 16 ((s.die 0).step - 1))) else u
      | none => u) s).settleStep with issue := s.issue }) ∧
  (∀ stack v, stack < 8 → Happens (.refreshBandEvaluation stack)
    (fun s => s.sensor (8 + stack) = some v ∧ ∀ y, s.plat.bandAt.find stack = some y → y + msTicks ≤ s.time) fun s t =>
    let n := nextBand (s.plat.band.get stack 0) v
    let u : State := { s with plat := { s.plat with bandAt := s.plat.bandAt.set stack s.time } }
    t = { (if n = s.plat.band.get stack 0 then u else ({ u with plat := { u.plat with band := u.plat.band.set stack n } } : State).postEvent (4 * (stack / 2))
      (u.event 0 0xFFFF 0 0x0D (stack / 2) 0xFF (stack % 2 + 16 * n) (BitVec.ofInt 64 v))) with issue := s.issue }) ∧
  (∀ ctx addr, Happens .telemetryRecord (fun s => s.plat.tele = some (ctx, addr) ∧ s.plat.lastTele + msTicks ≤ s.time) fun s t =>
    ∃ u : State, u = { s with plat := { s.plat with lastTele := s.time } } ∧ t = { u.unitStore 128 ctx addr s.telemetryBytes with issue := s.issue }) ∧
  (∀ (s : State) cause v, s.phase ≠ .off → s.tripValue cause = some v → ∃ t, exec (.thermalTrip cause) s = .next t ∧ t.phase = .off ∧ t.mem = [] ∧ t.pool = [] ∧
    t.cores = [] ∧ t.issue = none ∧ t.plat.tripped = true ∧ t.plat.minVersion = s.plat.minVersion ∧ t.time = s.time) ∧
  (∀ (s : State) n, s.phase = .off → s.plat.okSince = some n → n + 10000 * msTicks ≤ s.time → exec .moduleReboot s = .next
    { agenda := s.agenda, freeCtr := s.freeCtr, rank := s.rank, host := { resync := true }
      plat := { minVersion := s.plat.minVersion, sensors := s.plat.sensors.map fun x => (x.1, (x.2.take 1).map fun y => (0, y.2)) } }) ∧
  (∀ die l, Happens (.scrub die l 1) (fun _ => True) fun s t => ∃ u, u = s.errorAt 3 (.hbm die (l / 8 * 8)) 0 none ∧ t = { u with issue := s.issue }) ∧
  ∀ die l, Happens (.scrub die l 2) (fun _ => True) fun s t => let x := Loc.hbm die (l / 8 * 8)
    ∃ u, u = (s.markBad x 3).errorAt 3 x 2 none ∧ x ∈ (s.markBad x 3).badWords ∧ t = { u with issue := s.issue }

/-- R172 to R187: the decoder reads every well-formed instruction back from the bits that the encoder gives it, whatever bits
follow, with every operand at every value that its encoding admits. An event has no encoding. -/
def Obligations.DecodeOfEncode : Prop :=
  ∀ i : Instr, i.wellFormed = true → (encode i).1 ≠ 0 →
    ((encode i).1 = 16 ∨ (encode i).1 = 32 ∨ (encode i).1 = 64) ∧ ∀ r, decodeBits ((encode i).2 + 2 ^ (encode i).1 * r) = .ok i

/-- R172, R174, R176, R178, R181 to R183, R185, R186 and R187: words written out from the encoding tables decode to the
instructions that they stand for, and reserved ones to the trap that the spec names. -/
def Obligations.DecodingOfWords : Prop :=
  let u : Hdr := { n := false, g := 15, s := 0 }
  decodeBits 0x8860 = .ok (.movC { u := true, a := 2, d := 3 }) ∧
  decodeBits 0x801E = .ok .nopC ∧
  decodeBits 0x0C410159 = .ok (.iadd { h := { n := true, g := 5, s := 2 }, u := false, b := 3, a := 2, d := 1 }) ∧
  decodeBits 0x000000050C4100F3 = .ok (.iaddL { r := { h := u, u := false, b := 3, a := 2, d := 1 }, m := { Modifier.zero with nega := true, sat := 1 } }) ∧
  decodeBits 0x98A460F1 = .ok (.fadd { h := u, u := true, b := 6, a := 5, d := 4 }) ∧
  decodeBits 0x8C413EF1 = .ok (.qlopXor { h := u, b := 3, a := 2, d := 1 }) ∧
  decodeBits 0xFD0784F1 = .ok (.iaddi { h := u, i := 0x3F, a := 8, d := 7 }) ∧
  decodeBits 0x1041A0F1 = .ok (.ld { h := u, o := false, p := 0, w := 4, a := 2, d := 1 }) ∧
  decodeBits 0xD528A2F1 = .ok (.st { h := u, o := true, p := 2, w := 5, a := 9, d := 8 }) ∧
  decodeBits 0x0160B6F1 = .ok (.fenceAcq { h := u, p := 3 }) ∧
  decodeBits 0xFFFEC0F1 = .ok (.bra { h := u, i := 0xFFFE }) ∧
  decodeBits 0x0143CCF1 = .ok (.loop { h := u, e := 5, u := false, t := 3 }) ∧
  decodeBits 0x0540D6F1 = .ok (.trap { h := u, i := 0x2A }) ∧
  decodeBits 0x0A00F2F1 = .ok (.tmma { h := u, v := 5 }) ∧
  decodeBits 0x0003FCF1 = .ok (.accZero { h := u, hd := 3 }) ∧
  decodeBits 0x000100E60024FEF3 = .ok (.idivIL { h := u, u := false, d := 4, i := 1, p := 0, bu := false, au := false, b := 7, a := 6 }) ∧
  decodeBits 0x000500002002FEF3 = .ok (.csrrL { h := u, u := false, d := 2, i := 5, p := 0, bu := false, au := false, b := 0, a := 0 }) ∧
  decodeBits 0x0C419CF1 = .error .illegal ∧ decodeBits 0x0C4100C1 = .error .reservedGuard ∧ decodeBits 0x0C4101F1 = .error .reservedGuard

/-- The module never stops: whatever state it is in, one step gives a next state, if the course and the task of a group in the
lane are resident, and they are resident in the next state again. No fault and no refusal is ever reached. `LaneOk` and the
order of events are the model's. -/
def Obligations.EveryStepGoesOn : Prop :=
  ∀ s, LaneOk s → ∃ t, step s = .next t ∧ LaneOk t

/-- R76, R328, R329, R344, R357 and R427: the state after reset. Nothing runs and nothing is stored; queues, limits and
numbers have the values that the spec gives them. The schedule's fields are the model's, and so are the zeros that memory and the
registers without a reset value of the spec read as (logs 5 and 6: DESIGN CHOICE). -/
def Obligations.ResetState : Prop :=
  let s := State.reset
  LaneOk s ∧ MemOk s ∧ s.phase = .booting ∧ s.issue = none ∧ s.inflight = [] ∧ s.packets = [] ∧ s.chunks = [] ∧ s.host.up = false ∧
  (∀ k n, s.course? k n = none ∧ s.task? k n = none) ∧
  (∀ d, (s.die d).hodage = 2048 ∧ (s.die d).step = 32 ∧ (s.die d).nextLaunch = 1 ∧ (s.die d).duty = 0 ∧ (s.die d).graphs = [] ∧
    ∀ i : Fin 8, (s.die d).poolCtl[i] = { cap := 4096, min := 512 }) ∧
  (∀ c, (s.cluster c).evCtl = { cap := 1024, min := 1024 } ∧ ∀ i : Fin 5, (s.cluster c).dispCtl[i] = { cap := 512, min := 102 }) ∧
  (∀ d dest, (s.allowOf d dest).w = 256 ∧ (s.allowOf d dest).o = 0) ∧ s.host.sendSeq = 1 ∧ s.host.expect = 1 ∧
  ∀ (x : Loc) n, s.locRead x n = List.replicate n 0

/-- R29, R173, R187 and R364: a group in the lane fetches at its program counter and runs the instruction that the bits
there decode to, and the lane is empty then; bits that are no instruction take the trap of R187; without a group the next
event of the schedule comes about. The schedule is the model's. -/
def Obligations.StepRunsDecoded : Prop :=
  (∀ s g s' x i, s.issue = some g → s.entryGroup = none → s.fetch g = (.bits x, s') → decodeBits x = .ok i →
    step s = afterGroup g (exec i s') ∧ ∀ t, exec i s' = .next t → step s = .next { t.afterIssue g with issue := none }) ∧
  (∀ s g s' x e, s.issue = some g → s.entryGroup = none → s.fetch g = (.bits x, s') → decodeBits x = .error e →
    step s = afterGroup g (s'.withGroup fun G => s'.trapNow G { code := match e with | .illegal => 0x01 | .reservedGuard => 0x02
                                                                sub := match e with | .illegal => 0 | .reservedGuard => x / 16 % 16
                                                                ipc := G.g.pc, tmask := 2 ^ G.lowest })) ∧
  (∀ s g s' c, s.issue = some g → s.entryGroup = none → s.fetch g = (.trap c, s') → step s = afterGroup g (s'.withGroup fun G => s'.trapNow G c)) ∧
  (∀ s g s', s.issue = some g → s.entryGroup = none → s.fetch g = (.wait, s') →
    step s = .next (State.modCourse { s' with issue := none } g.core g.course Course.rearm)) ∧
  (∀ s g x, s.issue = some g → s.entryGroup = some x → step s = afterGroup g (exec .codeTableEntryJump s)) ∧
  (∀ s n e rest, s.issue = none → s.agenda = (n, e) :: rest → step s = exec e (State.advance { s with agenda := rest } n)) ∧
  ∀ s, s.issue = none → s.agenda = [] → step s = exec s.nextEvent (State.advance { s with cursor := s.cursor + 1 } 1)

/-- R3 and R155: bytes written at a home are read back there, every other byte of memory and of the pools stays, the form of
both is kept, and two memories that read alike are equal. -/
def Obligations.MemoryReadsBack : Prop :=
  (∀ (s : State) x bs, x.isRemote = false → (s.locWrite x bs).locRead x bs.length = bs) ∧
  (∀ (s : State) x bs k, (∀ core o, x ≠ .pool core o) → x.isRemote = false → (s.locWrite x bs).pool = s.pool ∧
    cellGet (s.locWrite x bs).mem k = if x.key ≤ k ∧ k < x.key + bs.length then bs.getD (k - x.key) 0 else cellGet s.mem k) ∧
  (∀ (s : State) core o bs k, let x := Loc.pool core o
    (s.locWrite x bs).mem = s.mem ∧
      cellGet (s.locWrite x bs).pool k = if x.key ≤ k ∧ k < x.key + bs.length then bs.getD (k - x.key) 0 else cellGet s.pool k) ∧
  (∀ s x bs, MemOk s → MemOk (s.locWrite x bs)) ∧ (∀ s vl a bs, MemOk s → MemOk (s.physWrite vl a bs)) ∧
  ∀ m n, Memory.wf m = true → Memory.wf n = true → (∀ k, cellGet m k = cellGet n k) → m = n
end

