-- ==== Sys2Proof/Laws/State.lean ====
section
/-! SUPPORT. One lemma for each field of the state under each update of a part of it. -/

namespace Sys2Proof.Machine

/-! ### `State.setCore` -/

@[simp] theorem State.setCore_phase (s : State) (k : Nat) (c : Core) : (s.setCore k c).phase = s.phase := rfl
@[simp] theorem State.setCore_now (s : State) (k : Nat) (c : Core) : (s.setCore k c).now = s.now := rfl
@[simp] theorem State.setCore_time (s : State) (k : Nat) (c : Core) : (s.setCore k c).time = s.time := rfl
@[simp] theorem State.setCore_agenda (s : State) (k : Nat) (c : Core) : (s.setCore k c).agenda = s.agenda := rfl
@[simp] theorem State.setCore_cursor (s : State) (k : Nat) (c : Core) : (s.setCore k c).cursor = s.cursor := rfl
@[simp] theorem State.setCore_freeCtr (s : State) (k : Nat) (c : Core) : (s.setCore k c).freeCtr = s.freeCtr := rfl
@[simp] theorem State.setCore_issue (s : State) (k : Nat) (c : Core) : (s.setCore k c).issue = s.issue := rfl
@[simp] theorem State.setCore_nextId (s : State) (k : Nat) (c : Core) : (s.setCore k c).nextId = s.nextId := rfl
@[simp] theorem State.setCore_nextOrd (s : State) (k : Nat) (c : Core) : (s.setCore k c).nextOrd = s.nextOrd := rfl
@[simp] theorem State.setCore_mem (s : State) (k : Nat) (c : Core) : (s.setCore k c).mem = s.mem := rfl
@[simp] theorem State.setCore_pool (s : State) (k : Nat) (c : Core) : (s.setCore k c).pool = s.pool := rfl
@[simp] theorem State.setCore_clusters (s : State) (k : Nat) (c : Core) : (s.setCore k c).clusters = s.clusters := rfl
@[simp] theorem State.setCore_dies (s : State) (k : Nat) (c : Core) : (s.setCore k c).dies = s.dies := rfl
@[simp] theorem State.setCore_bars (s : State) (k : Nat) (c : Core) : (s.setCore k c).bars = s.bars := rfl
@[simp] theorem State.setCore_inflight (s : State) (k : Nat) (c : Core) : (s.setCore k c).inflight = s.inflight := rfl
@[simp] theorem State.setCore_badWords (s : State) (k : Nat) (c : Core) : (s.setCore k c).badWords = s.badWords := rfl
@[simp] theorem State.setCore_badUnit (s : State) (k : Nat) (c : Core) : (s.setCore k c).badUnit = s.badUnit := rfl
@[simp] theorem State.setCore_lines (s : State) (k : Nat) (c : Core) : (s.setCore k c).lines = s.lines := rfl
@[simp] theorem State.setCore_floors (s : State) (k : Nat) (c : Core) : (s.setCore k c).floors = s.floors := rfl
@[simp] theorem State.setCore_misses (s : State) (k : Nat) (c : Core) : (s.setCore k c).misses = s.misses := rfl
@[simp] theorem State.setCore_contexts (s : State) (k : Nat) (c : Core) : (s.setCore k c).contexts = s.contexts := rfl
@[simp] theorem State.setCore_ident0 (s : State) (k : Nat) (c : Core) : (s.setCore k c).ident0 = s.ident0 := rfl
@[simp] theorem State.setCore_rank (s : State) (k : Nat) (c : Core) : (s.setCore k c).rank = s.rank := rfl
@[simp] theorem State.setCore_routes (s : State) (k : Nat) (c : Core) : (s.setCore k c).routes = s.routes := rfl
@[simp] theorem State.setCore_ports (s : State) (k : Nat) (c : Core) : (s.setCore k c).ports = s.ports := rfl
@[simp] theorem State.setCore_links (s : State) (k : Nat) (c : Core) : (s.setCore k c).links = s.links := rfl
@[simp] theorem State.setCore_express (s : State) (k : Nat) (c : Core) : (s.setCore k c).express = s.express := rfl
@[simp] theorem State.setCore_requests (s : State) (k : Nat) (c : Core) : (s.setCore k c).requests = s.requests := rfl
@[simp] theorem State.setCore_stepMsgs (s : State) (k : Nat) (c : Core) : (s.setCore k c).stepMsgs = s.stepMsgs := rfl
@[simp] theorem State.setCore_rings (s : State) (k : Nat) (c : Core) : (s.setCore k c).rings = s.rings := rfl
@[simp] theorem State.setCore_ringLists (s : State) (k : Nat) (c : Core) : (s.setCore k c).ringLists = s.ringLists := rfl
@[simp] theorem State.setCore_ringSent (s : State) (k : Nat) (c : Core) : (s.setCore k c).ringSent = s.ringSent := rfl
@[simp] theorem State.setCore_ringChecks (s : State) (k : Nat) (c : Core) : (s.setCore k c).ringChecks = s.ringChecks := rfl
@[simp] theorem State.setCore_chunks (s : State) (k : Nat) (c : Core) : (s.setCore k c).chunks = s.chunks := rfl
@[simp] theorem State.setCore_partials (s : State) (k : Nat) (c : Core) : (s.setCore k c).partials = s.partials := rfl
@[simp] theorem State.setCore_wire (s : State) (k : Nat) (c : Core) : (s.setCore k c).wire = s.wire := rfl
@[simp] theorem State.setCore_senders (s : State) (k : Nat) (c : Core) : (s.setCore k c).senders = s.senders := rfl
@[simp] theorem State.setCore_answers (s : State) (k : Nat) (c : Core) : (s.setCore k c).answers = s.answers := rfl
@[simp] theorem State.setCore_ringCredits (s : State) (k : Nat) (c : Core) : (s.setCore k c).ringCredits = s.ringCredits := rfl
@[simp] theorem State.setCore_creditsBack (s : State) (k : Nat) (c : Core) : (s.setCore k c).creditsBack = s.creditsBack := rfl
@[simp] theorem State.setCore_collSeq (s : State) (k : Nat) (c : Core) : (s.setCore k c).collSeq = s.collSeq := rfl
@[simp] theorem State.setCore_packets (s : State) (k : Nat) (c : Core) : (s.setCore k c).packets = s.packets := rfl
@[simp] theorem State.setCore_host (s : State) (k : Nat) (c : Core) : (s.setCore k c).host = s.host := rfl
@[simp] theorem State.setCore_divs (s : State) (k : Nat) (c : Core) : (s.setCore k c).divs = s.divs := rfl
@[simp] theorem State.setCore_calls (s : State) (k : Nat) (c : Core) : (s.setCore k c).calls = s.calls := rfl
@[simp] theorem State.setCore_nextCall (s : State) (k : Nat) (c : Core) : (s.setCore k c).nextCall = s.nextCall := rfl
@[simp] theorem State.setCore_codeTables (s : State) (k : Nat) (c : Core) : (s.setCore k c).codeTables = s.codeTables := rfl
@[simp] theorem State.setCore_ringCtx (s : State) (k : Nat) (c : Core) : (s.setCore k c).ringCtx = s.ringCtx := rfl
@[simp] theorem State.setCore_codeSpace (s : State) (k : Nat) (c : Core) : (s.setCore k c).codeSpace = s.codeSpace := rfl
@[simp] theorem State.setCore_binds (s : State) (k : Nat) (c : Core) : (s.setCore k c).binds = s.binds := rfl
@[simp] theorem State.setCore_plat (s : State) (k : Nat) (c : Core) : (s.setCore k c).plat = s.plat := rfl

/-! ### `State.modCore` -/

@[simp] theorem State.modCore_phase (s : State) (k : Nat) (f : Core → Core) : (s.modCore k f).phase = s.phase := rfl
@[simp] theorem State.modCore_now (s : State) (k : Nat) (f : Core → Core) : (s.modCore k f).now = s.now := rfl
@[simp] theorem State.modCore_time (s : State) (k : Nat) (f : Core → Core) : (s.modCore k f).time = s.time := rfl
@[simp] theorem State.modCore_agenda (s : State) (k : Nat) (f : Core → Core) : (s.modCore k f).agenda = s.agenda := rfl
@[simp] theorem State.modCore_cursor (s : State) (k : Nat) (f : Core → Core) : (s.modCore k f).cursor = s.cursor := rfl
@[simp] theorem State.modCore_freeCtr (s : State) (k : Nat) (f : Core → Core) : (s.modCore k f).freeCtr = s.freeCtr := rfl
@[simp] theorem State.modCore_issue (s : State) (k : Nat) (f : Core → Core) : (s.modCore k f).issue = s.issue := rfl
@[simp] theorem State.modCore_nextId (s : State) (k : Nat) (f : Core → Core) : (s.modCore k f).nextId = s.nextId := rfl
@[simp] theorem State.modCore_nextOrd (s : State) (k : Nat) (f : Core → Core) : (s.modCore k f).nextOrd = s.nextOrd := rfl
@[simp] theorem State.modCore_mem (s : State) (k : Nat) (f : Core → Core) : (s.modCore k f).mem = s.mem := rfl
@[simp] theorem State.modCore_pool (s : State) (k : Nat) (f : Core → Core) : (s.modCore k f).pool = s.pool := rfl
@[simp] theorem State.modCore_clusters (s : State) (k : Nat) (f : Core → Core) : (s.modCore k f).clusters = s.clusters := rfl
@[simp] theorem State.modCore_dies (s : State) (k : Nat) (f : Core → Core) : (s.modCore k f).dies = s.dies := rfl
@[simp] theorem State.modCore_bars (s : State) (k : Nat) (f : Core → Core) : (s.modCore k f).bars = s.bars := rfl
@[simp] theorem State.modCore_inflight (s : State) (k : Nat) (f : Core → Core) : (s.modCore k f).inflight = s.inflight := rfl
@[simp] theorem State.modCore_badWords (s : State) (k : Nat) (f : Core → Core) : (s.modCore k f).badWords = s.badWords := rfl
@[simp] theorem State.modCore_badUnit (s : State) (k : Nat) (f : Core → Core) : (s.modCore k f).badUnit = s.badUnit := rfl
@[simp] theorem State.modCore_lines (s : State) (k : Nat) (f : Core → Core) : (s.modCore k f).lines = s.lines := rfl
@[simp] theorem State.modCore_floors (s : State) (k : Nat) (f : Core → Core) : (s.modCore k f).floors = s.floors := rfl
@[simp] theorem State.modCore_misses (s : State) (k : Nat) (f : Core → Core) : (s.modCore k f).misses = s.misses := rfl
@[simp] theorem State.modCore_contexts (s : State) (k : Nat) (f : Core → Core) : (s.modCore k f).contexts = s.contexts := rfl
@[simp] theorem State.modCore_ident0 (s : State) (k : Nat) (f : Core → Core) : (s.modCore k f).ident0 = s.ident0 := rfl
@[simp] theorem State.modCore_rank (s : State) (k : Nat) (f : Core → Core) : (s.modCore k f).rank = s.rank := rfl
@[simp] theorem State.modCore_routes (s : State) (k : Nat) (f : Core → Core) : (s.modCore k f).routes = s.routes := rfl
@[simp] theorem State.modCore_ports (s : State) (k : Nat) (f : Core → Core) : (s.modCore k f).ports = s.ports := rfl
@[simp] theorem State.modCore_links (s : State) (k : Nat) (f : Core → Core) : (s.modCore k f).links = s.links := rfl
@[simp] theorem State.modCore_express (s : State) (k : Nat) (f : Core → Core) : (s.modCore k f).express = s.express := rfl
@[simp] theorem State.modCore_requests (s : State) (k : Nat) (f : Core → Core) : (s.modCore k f).requests = s.requests := rfl
@[simp] theorem State.modCore_stepMsgs (s : State) (k : Nat) (f : Core → Core) : (s.modCore k f).stepMsgs = s.stepMsgs := rfl
@[simp] theorem State.modCore_rings (s : State) (k : Nat) (f : Core → Core) : (s.modCore k f).rings = s.rings := rfl
@[simp] theorem State.modCore_ringLists (s : State) (k : Nat) (f : Core → Core) : (s.modCore k f).ringLists = s.ringLists := rfl
@[simp] theorem State.modCore_ringSent (s : State) (k : Nat) (f : Core → Core) : (s.modCore k f).ringSent = s.ringSent := rfl
@[simp] theorem State.modCore_ringChecks (s : State) (k : Nat) (f : Core → Core) : (s.modCore k f).ringChecks = s.ringChecks := rfl
@[simp] theorem State.modCore_chunks (s : State) (k : Nat) (f : Core → Core) : (s.modCore k f).chunks = s.chunks := rfl
@[simp] theorem State.modCore_partials (s : State) (k : Nat) (f : Core → Core) : (s.modCore k f).partials = s.partials := rfl
@[simp] theorem State.modCore_wire (s : State) (k : Nat) (f : Core → Core) : (s.modCore k f).wire = s.wire := rfl
@[simp] theorem State.modCore_senders (s : State) (k : Nat) (f : Core → Core) : (s.modCore k f).senders = s.senders := rfl
@[simp] theorem State.modCore_answers (s : State) (k : Nat) (f : Core → Core) : (s.modCore k f).answers = s.answers := rfl
@[simp] theorem State.modCore_ringCredits (s : State) (k : Nat) (f : Core → Core) : (s.modCore k f).ringCredits = s.ringCredits := rfl
@[simp] theorem State.modCore_creditsBack (s : State) (k : Nat) (f : Core → Core) : (s.modCore k f).creditsBack = s.creditsBack := rfl
@[simp] theorem State.modCore_collSeq (s : State) (k : Nat) (f : Core → Core) : (s.modCore k f).collSeq = s.collSeq := rfl
@[simp] theorem State.modCore_packets (s : State) (k : Nat) (f : Core → Core) : (s.modCore k f).packets = s.packets := rfl
@[simp] theorem State.modCore_host (s : State) (k : Nat) (f : Core → Core) : (s.modCore k f).host = s.host := rfl
@[simp] theorem State.modCore_divs (s : State) (k : Nat) (f : Core → Core) : (s.modCore k f).divs = s.divs := rfl
@[simp] theorem State.modCore_calls (s : State) (k : Nat) (f : Core → Core) : (s.modCore k f).calls = s.calls := rfl
@[simp] theorem State.modCore_nextCall (s : State) (k : Nat) (f : Core → Core) : (s.modCore k f).nextCall = s.nextCall := rfl
@[simp] theorem State.modCore_codeTables (s : State) (k : Nat) (f : Core → Core) : (s.modCore k f).codeTables = s.codeTables := rfl
@[simp] theorem State.modCore_ringCtx (s : State) (k : Nat) (f : Core → Core) : (s.modCore k f).ringCtx = s.ringCtx := rfl
@[simp] theorem State.modCore_codeSpace (s : State) (k : Nat) (f : Core → Core) : (s.modCore k f).codeSpace = s.codeSpace := rfl
@[simp] theorem State.modCore_binds (s : State) (k : Nat) (f : Core → Core) : (s.modCore k f).binds = s.binds := rfl
@[simp] theorem State.modCore_plat (s : State) (k : Nat) (f : Core → Core) : (s.modCore k f).plat = s.plat := rfl

/-! ### `State.setDie` -/

@[simp] theorem State.setDie_phase (s : State) (d : Nat) (x : Die) : (s.setDie d x).phase = s.phase := rfl
@[simp] theorem State.setDie_now (s : State) (d : Nat) (x : Die) : (s.setDie d x).now = s.now := rfl
@[simp] theorem State.setDie_time (s : State) (d : Nat) (x : Die) : (s.setDie d x).time = s.time := rfl
@[simp] theorem State.setDie_agenda (s : State) (d : Nat) (x : Die) : (s.setDie d x).agenda = s.agenda := rfl
@[simp] theorem State.setDie_cursor (s : State) (d : Nat) (x : Die) : (s.setDie d x).cursor = s.cursor := rfl
@[simp] theorem State.setDie_freeCtr (s : State) (d : Nat) (x : Die) : (s.setDie d x).freeCtr = s.freeCtr := rfl
@[simp] theorem State.setDie_issue (s : State) (d : Nat) (x : Die) : (s.setDie d x).issue = s.issue := rfl
@[simp] theorem State.setDie_nextId (s : State) (d : Nat) (x : Die) : (s.setDie d x).nextId = s.nextId := rfl
@[simp] theorem State.setDie_nextOrd (s : State) (d : Nat) (x : Die) : (s.setDie d x).nextOrd = s.nextOrd := rfl
@[simp] theorem State.setDie_mem (s : State) (d : Nat) (x : Die) : (s.setDie d x).mem = s.mem := rfl
@[simp] theorem State.setDie_pool (s : State) (d : Nat) (x : Die) : (s.setDie d x).pool = s.pool := rfl
@[simp] theorem State.setDie_cores (s : State) (d : Nat) (x : Die) : (s.setDie d x).cores = s.cores := rfl
@[simp] theorem State.setDie_clusters (s : State) (d : Nat) (x : Die) : (s.setDie d x).clusters = s.clusters := rfl
@[simp] theorem State.setDie_bars (s : State) (d : Nat) (x : Die) : (s.setDie d x).bars = s.bars := rfl
@[simp] theorem State.setDie_inflight (s : State) (d : Nat) (x : Die) : (s.setDie d x).inflight = s.inflight := rfl
@[simp] theorem State.setDie_badWords (s : State) (d : Nat) (x : Die) : (s.setDie d x).badWords = s.badWords := rfl
@[simp] theorem State.setDie_badUnit (s : State) (d : Nat) (x : Die) : (s.setDie d x).badUnit = s.badUnit := rfl
@[simp] theorem State.setDie_lines (s : State) (d : Nat) (x : Die) : (s.setDie d x).lines = s.lines := rfl
@[simp] theorem State.setDie_floors (s : State) (d : Nat) (x : Die) : (s.setDie d x).floors = s.floors := rfl
@[simp] theorem State.setDie_misses (s : State) (d : Nat) (x : Die) : (s.setDie d x).misses = s.misses := rfl
@[simp] theorem State.setDie_contexts (s : State) (d : Nat) (x : Die) : (s.setDie d x).contexts = s.contexts := rfl
@[simp] theorem State.setDie_ident0 (s : State) (d : Nat) (x : Die) : (s.setDie d x).ident0 = s.ident0 := rfl
@[simp] theorem State.setDie_rank (s : State) (d : Nat) (x : Die) : (s.setDie d x).rank = s.rank := rfl
@[simp] theorem State.setDie_routes (s : State) (d : Nat) (x : Die) : (s.setDie d x).routes = s.routes := rfl
@[simp] theorem State.setDie_ports (s : State) (d : Nat) (x : Die) : (s.setDie d x).ports = s.ports := rfl
@[simp] theorem State.setDie_links (s : State) (d : Nat) (x : Die) : (s.setDie d x).links = s.links := rfl
@[simp] theorem State.setDie_express (s : State) (d : Nat) (x : Die) : (s.setDie d x).express = s.express := rfl
@[simp] theorem State.setDie_requests (s : State) (d : Nat) (x : Die) : (s.setDie d x).requests = s.requests := rfl
@[simp] theorem State.setDie_stepMsgs (s : State) (d : Nat) (x : Die) : (s.setDie d x).stepMsgs = s.stepMsgs := rfl
@[simp] theorem State.setDie_rings (s : State) (d : Nat) (x : Die) : (s.setDie d x).rings = s.rings := rfl
@[simp] theorem State.setDie_ringLists (s : State) (d : Nat) (x : Die) : (s.setDie d x).ringLists = s.ringLists := rfl
@[simp] theorem State.setDie_ringSent (s : State) (d : Nat) (x : Die) : (s.setDie d x).ringSent = s.ringSent := rfl
@[simp] theorem State.setDie_ringChecks (s : State) (d : Nat) (x : Die) : (s.setDie d x).ringChecks = s.ringChecks := rfl
@[simp] theorem State.setDie_chunks (s : State) (d : Nat) (x : Die) : (s.setDie d x).chunks = s.chunks := rfl
@[simp] theorem State.setDie_partials (s : State) (d : Nat) (x : Die) : (s.setDie d x).partials = s.partials := rfl
@[simp] theorem State.setDie_wire (s : State) (d : Nat) (x : Die) : (s.setDie d x).wire = s.wire := rfl
@[simp] theorem State.setDie_senders (s : State) (d : Nat) (x : Die) : (s.setDie d x).senders = s.senders := rfl
@[simp] theorem State.setDie_answers (s : State) (d : Nat) (x : Die) : (s.setDie d x).answers = s.answers := rfl
@[simp] theorem State.setDie_ringCredits (s : State) (d : Nat) (x : Die) : (s.setDie d x).ringCredits = s.ringCredits := rfl
@[simp] theorem State.setDie_creditsBack (s : State) (d : Nat) (x : Die) : (s.setDie d x).creditsBack = s.creditsBack := rfl
@[simp] theorem State.setDie_collSeq (s : State) (d : Nat) (x : Die) : (s.setDie d x).collSeq = s.collSeq := rfl
@[simp] theorem State.setDie_packets (s : State) (d : Nat) (x : Die) : (s.setDie d x).packets = s.packets := rfl
@[simp] theorem State.setDie_host (s : State) (d : Nat) (x : Die) : (s.setDie d x).host = s.host := rfl
@[simp] theorem State.setDie_divs (s : State) (d : Nat) (x : Die) : (s.setDie d x).divs = s.divs := rfl
@[simp] theorem State.setDie_calls (s : State) (d : Nat) (x : Die) : (s.setDie d x).calls = s.calls := rfl
@[simp] theorem State.setDie_nextCall (s : State) (d : Nat) (x : Die) : (s.setDie d x).nextCall = s.nextCall := rfl
@[simp] theorem State.setDie_codeTables (s : State) (d : Nat) (x : Die) : (s.setDie d x).codeTables = s.codeTables := rfl
@[simp] theorem State.setDie_ringCtx (s : State) (d : Nat) (x : Die) : (s.setDie d x).ringCtx = s.ringCtx := rfl
@[simp] theorem State.setDie_codeSpace (s : State) (d : Nat) (x : Die) : (s.setDie d x).codeSpace = s.codeSpace := rfl
@[simp] theorem State.setDie_binds (s : State) (d : Nat) (x : Die) : (s.setDie d x).binds = s.binds := rfl
@[simp] theorem State.setDie_plat (s : State) (d : Nat) (x : Die) : (s.setDie d x).plat = s.plat := rfl

/-! ### `State.modDie` -/

@[simp] theorem State.modDie_phase (s : State) (d : Nat) (f : Die → Die) : (s.modDie d f).phase = s.phase := rfl
@[simp] theorem State.modDie_now (s : State) (d : Nat) (f : Die → Die) : (s.modDie d f).now = s.now := rfl
@[simp] theorem State.modDie_time (s : State) (d : Nat) (f : Die → Die) : (s.modDie d f).time = s.time := rfl
@[simp] theorem State.modDie_agenda (s : State) (d : Nat) (f : Die → Die) : (s.modDie d f).agenda = s.agenda := rfl
@[simp] theorem State.modDie_cursor (s : State) (d : Nat) (f : Die → Die) : (s.modDie d f).cursor = s.cursor := rfl
@[simp] theorem State.modDie_freeCtr (s : State) (d : Nat) (f : Die → Die) : (s.modDie d f).freeCtr = s.freeCtr := rfl
@[simp] theorem State.modDie_issue (s : State) (d : Nat) (f : Die → Die) : (s.modDie d f).issue = s.issue := rfl
@[simp] theorem State.modDie_nextId (s : State) (d : Nat) (f : Die → Die) : (s.modDie d f).nextId = s.nextId := rfl
@[simp] theorem State.modDie_nextOrd (s : State) (d : Nat) (f : Die → Die) : (s.modDie d f).nextOrd = s.nextOrd := rfl
@[simp] theorem State.modDie_mem (s : State) (d : Nat) (f : Die → Die) : (s.modDie d f).mem = s.mem := rfl
@[simp] theorem State.modDie_pool (s : State) (d : Nat) (f : Die → Die) : (s.modDie d f).pool = s.pool := rfl
@[simp] theorem State.modDie_cores (s : State) (d : Nat) (f : Die → Die) : (s.modDie d f).cores = s.cores := rfl
@[simp] theorem State.modDie_clusters (s : State) (d : Nat) (f : Die → Die) : (s.modDie d f).clusters = s.clusters := rfl
@[simp] theorem State.modDie_bars (s : State) (d : Nat) (f : Die → Die) : (s.modDie d f).bars = s.bars := rfl
@[simp] theorem State.modDie_inflight (s : State) (d : Nat) (f : Die → Die) : (s.modDie d f).inflight = s.inflight := rfl
@[simp] theorem State.modDie_badWords (s : State) (d : Nat) (f : Die → Die) : (s.modDie d f).badWords = s.badWords := rfl
@[simp] theorem State.modDie_badUnit (s : State) (d : Nat) (f : Die → Die) : (s.modDie d f).badUnit = s.badUnit := rfl
@[simp] theorem State.modDie_lines (s : State) (d : Nat) (f : Die → Die) : (s.modDie d f).lines = s.lines := rfl
@[simp] theorem State.modDie_floors (s : State) (d : Nat) (f : Die → Die) : (s.modDie d f).floors = s.floors := rfl
@[simp] theorem State.modDie_misses (s : State) (d : Nat) (f : Die → Die) : (s.modDie d f).misses = s.misses := rfl
@[simp] theorem State.modDie_contexts (s : State) (d : Nat) (f : Die → Die) : (s.modDie d f).contexts = s.contexts := rfl
@[simp] theorem State.modDie_ident0 (s : State) (d : Nat) (f : Die → Die) : (s.modDie d f).ident0 = s.ident0 := rfl
@[simp] theorem State.modDie_rank (s : State) (d : Nat) (f : Die → Die) : (s.modDie d f).rank = s.rank := rfl
@[simp] theorem State.modDie_routes (s : State) (d : Nat) (f : Die → Die) : (s.modDie d f).routes = s.routes := rfl
@[simp] theorem State.modDie_ports (s : State) (d : Nat) (f : Die → Die) : (s.modDie d f).ports = s.ports := rfl
@[simp] theorem State.modDie_links (s : State) (d : Nat) (f : Die → Die) : (s.modDie d f).links = s.links := rfl
@[simp] theorem State.modDie_express (s : State) (d : Nat) (f : Die → Die) : (s.modDie d f).express = s.express := rfl
@[simp] theorem State.modDie_requests (s : State) (d : Nat) (f : Die → Die) : (s.modDie d f).requests = s.requests := rfl
@[simp] theorem State.modDie_stepMsgs (s : State) (d : Nat) (f : Die → Die) : (s.modDie d f).stepMsgs = s.stepMsgs := rfl
@[simp] theorem State.modDie_rings (s : State) (d : Nat) (f : Die → Die) : (s.modDie d f).rings = s.rings := rfl
@[simp] theorem State.modDie_ringLists (s : State) (d : Nat) (f : Die → Die) : (s.modDie d f).ringLists = s.ringLists := rfl
@[simp] theorem State.modDie_ringSent (s : State) (d : Nat) (f : Die → Die) : (s.modDie d f).ringSent = s.ringSent := rfl
@[simp] theorem State.modDie_ringChecks (s : State) (d : Nat) (f : Die → Die) : (s.modDie d f).ringChecks = s.ringChecks := rfl
@[simp] theorem State.modDie_chunks (s : State) (d : Nat) (f : Die → Die) : (s.modDie d f).chunks = s.chunks := rfl
@[simp] theorem State.modDie_partials (s : State) (d : Nat) (f : Die → Die) : (s.modDie d f).partials = s.partials := rfl
@[simp] theorem State.modDie_wire (s : State) (d : Nat) (f : Die → Die) : (s.modDie d f).wire = s.wire := rfl
@[simp] theorem State.modDie_senders (s : State) (d : Nat) (f : Die → Die) : (s.modDie d f).senders = s.senders := rfl
@[simp] theorem State.modDie_answers (s : State) (d : Nat) (f : Die → Die) : (s.modDie d f).answers = s.answers := rfl
@[simp] theorem State.modDie_ringCredits (s : State) (d : Nat) (f : Die → Die) : (s.modDie d f).ringCredits = s.ringCredits := rfl
@[simp] theorem State.modDie_creditsBack (s : State) (d : Nat) (f : Die → Die) : (s.modDie d f).creditsBack = s.creditsBack := rfl
@[simp] theorem State.modDie_collSeq (s : State) (d : Nat) (f : Die → Die) : (s.modDie d f).collSeq = s.collSeq := rfl
@[simp] theorem State.modDie_packets (s : State) (d : Nat) (f : Die → Die) : (s.modDie d f).packets = s.packets := rfl
@[simp] theorem State.modDie_host (s : State) (d : Nat) (f : Die → Die) : (s.modDie d f).host = s.host := rfl
@[simp] theorem State.modDie_divs (s : State) (d : Nat) (f : Die → Die) : (s.modDie d f).divs = s.divs := rfl
@[simp] theorem State.modDie_calls (s : State) (d : Nat) (f : Die → Die) : (s.modDie d f).calls = s.calls := rfl
@[simp] theorem State.modDie_nextCall (s : State) (d : Nat) (f : Die → Die) : (s.modDie d f).nextCall = s.nextCall := rfl
@[simp] theorem State.modDie_codeTables (s : State) (d : Nat) (f : Die → Die) : (s.modDie d f).codeTables = s.codeTables := rfl
@[simp] theorem State.modDie_ringCtx (s : State) (d : Nat) (f : Die → Die) : (s.modDie d f).ringCtx = s.ringCtx := rfl
@[simp] theorem State.modDie_codeSpace (s : State) (d : Nat) (f : Die → Die) : (s.modDie d f).codeSpace = s.codeSpace := rfl
@[simp] theorem State.modDie_binds (s : State) (d : Nat) (f : Die → Die) : (s.modDie d f).binds = s.binds := rfl
@[simp] theorem State.modDie_plat (s : State) (d : Nat) (f : Die → Die) : (s.modDie d f).plat = s.plat := rfl

/-! ### `State.setCluster` -/

@[simp] theorem State.setCluster_phase (s : State) (n : Nat) (x : Cluster) : (s.setCluster n x).phase = s.phase := rfl
@[simp] theorem State.setCluster_now (s : State) (n : Nat) (x : Cluster) : (s.setCluster n x).now = s.now := rfl
@[simp] theorem State.setCluster_time (s : State) (n : Nat) (x : Cluster) : (s.setCluster n x).time = s.time := rfl
@[simp] theorem State.setCluster_agenda (s : State) (n : Nat) (x : Cluster) : (s.setCluster n x).agenda = s.agenda := rfl
@[simp] theorem State.setCluster_cursor (s : State) (n : Nat) (x : Cluster) : (s.setCluster n x).cursor = s.cursor := rfl
@[simp] theorem State.setCluster_freeCtr (s : State) (n : Nat) (x : Cluster) : (s.setCluster n x).freeCtr = s.freeCtr := rfl
@[simp] theorem State.setCluster_issue (s : State) (n : Nat) (x : Cluster) : (s.setCluster n x).issue = s.issue := rfl
@[simp] theorem State.setCluster_nextId (s : State) (n : Nat) (x : Cluster) : (s.setCluster n x).nextId = s.nextId := rfl
@[simp] theorem State.setCluster_nextOrd (s : State) (n : Nat) (x : Cluster) : (s.setCluster n x).nextOrd = s.nextOrd := rfl
@[simp] theorem State.setCluster_mem (s : State) (n : Nat) (x : Cluster) : (s.setCluster n x).mem = s.mem := rfl
@[simp] theorem State.setCluster_pool (s : State) (n : Nat) (x : Cluster) : (s.setCluster n x).pool = s.pool := rfl
@[simp] theorem State.setCluster_cores (s : State) (n : Nat) (x : Cluster) : (s.setCluster n x).cores = s.cores := rfl
@[simp] theorem State.setCluster_dies (s : State) (n : Nat) (x : Cluster) : (s.setCluster n x).dies = s.dies := rfl
@[simp] theorem State.setCluster_bars (s : State) (n : Nat) (x : Cluster) : (s.setCluster n x).bars = s.bars := rfl
@[simp] theorem State.setCluster_inflight (s : State) (n : Nat) (x : Cluster) : (s.setCluster n x).inflight = s.inflight := rfl
@[simp] theorem State.setCluster_badWords (s : State) (n : Nat) (x : Cluster) : (s.setCluster n x).badWords = s.badWords := rfl
@[simp] theorem State.setCluster_badUnit (s : State) (n : Nat) (x : Cluster) : (s.setCluster n x).badUnit = s.badUnit := rfl
@[simp] theorem State.setCluster_lines (s : State) (n : Nat) (x : Cluster) : (s.setCluster n x).lines = s.lines := rfl
@[simp] theorem State.setCluster_floors (s : State) (n : Nat) (x : Cluster) : (s.setCluster n x).floors = s.floors := rfl
@[simp] theorem State.setCluster_misses (s : State) (n : Nat) (x : Cluster) : (s.setCluster n x).misses = s.misses := rfl
@[simp] theorem State.setCluster_contexts (s : State) (n : Nat) (x : Cluster) : (s.setCluster n x).contexts = s.contexts := rfl
@[simp] theorem State.setCluster_ident0 (s : State) (n : Nat) (x : Cluster) : (s.setCluster n x).ident0 = s.ident0 := rfl
@[simp] theorem State.setCluster_rank (s : State) (n : Nat) (x : Cluster) : (s.setCluster n x).rank = s.rank := rfl
@[simp] theorem State.setCluster_routes (s : State) (n : Nat) (x : Cluster) : (s.setCluster n x).routes = s.routes := rfl
@[simp] theorem State.setCluster_ports (s : State) (n : Nat) (x : Cluster) : (s.setCluster n x).ports = s.ports := rfl
@[simp] theorem State.setCluster_links (s : State) (n : Nat) (x : Cluster) : (s.setCluster n x).links = s.links := rfl
@[simp] theorem State.setCluster_express (s : State) (n : Nat) (x : Cluster) : (s.setCluster n x).express = s.express := rfl
@[simp] theorem State.setCluster_requests (s : State) (n : Nat) (x : Cluster) : (s.setCluster n x).requests = s.requests := rfl
@[simp] theorem State.setCluster_stepMsgs (s : State) (n : Nat) (x : Cluster) : (s.setCluster n x).stepMsgs = s.stepMsgs := rfl
@[simp] theorem State.setCluster_rings (s : State) (n : Nat) (x : Cluster) : (s.setCluster n x).rings = s.rings := rfl
@[simp] theorem State.setCluster_ringLists (s : State) (n : Nat) (x : Cluster) : (s.setCluster n x).ringLists = s.ringLists := rfl
@[simp] theorem State.setCluster_ringSent (s : State) (n : Nat) (x : Cluster) : (s.setCluster n x).ringSent = s.ringSent := rfl
@[simp] theorem State.setCluster_ringChecks (s : State) (n : Nat) (x : Cluster) : (s.setCluster n x).ringChecks = s.ringChecks := rfl
@[simp] theorem State.setCluster_chunks (s : State) (n : Nat) (x : Cluster) : (s.setCluster n x).chunks = s.chunks := rfl
@[simp] theorem State.setCluster_partials (s : State) (n : Nat) (x : Cluster) : (s.setCluster n x).partials = s.partials := rfl
@[simp] theorem State.setCluster_wire (s : State) (n : Nat) (x : Cluster) : (s.setCluster n x).wire = s.wire := rfl
@[simp] theorem State.setCluster_senders (s : State) (n : Nat) (x : Cluster) : (s.setCluster n x).senders = s.senders := rfl
@[simp] theorem State.setCluster_answers (s : State) (n : Nat) (x : Cluster) : (s.setCluster n x).answers = s.answers := rfl
@[simp] theorem State.setCluster_ringCredits (s : State) (n : Nat) (x : Cluster) : (s.setCluster n x).ringCredits = s.ringCredits := rfl
@[simp] theorem State.setCluster_creditsBack (s : State) (n : Nat) (x : Cluster) : (s.setCluster n x).creditsBack = s.creditsBack := rfl
@[simp] theorem State.setCluster_collSeq (s : State) (n : Nat) (x : Cluster) : (s.setCluster n x).collSeq = s.collSeq := rfl
@[simp] theorem State.setCluster_packets (s : State) (n : Nat) (x : Cluster) : (s.setCluster n x).packets = s.packets := rfl
@[simp] theorem State.setCluster_host (s : State) (n : Nat) (x : Cluster) : (s.setCluster n x).host = s.host := rfl
@[simp] theorem State.setCluster_divs (s : State) (n : Nat) (x : Cluster) : (s.setCluster n x).divs = s.divs := rfl
@[simp] theorem State.setCluster_calls (s : State) (n : Nat) (x : Cluster) : (s.setCluster n x).calls = s.calls := rfl
@[simp] theorem State.setCluster_nextCall (s : State) (n : Nat) (x : Cluster) : (s.setCluster n x).nextCall = s.nextCall := rfl
@[simp] theorem State.setCluster_codeTables (s : State) (n : Nat) (x : Cluster) : (s.setCluster n x).codeTables = s.codeTables := rfl
@[simp] theorem State.setCluster_ringCtx (s : State) (n : Nat) (x : Cluster) : (s.setCluster n x).ringCtx = s.ringCtx := rfl
@[simp] theorem State.setCluster_codeSpace (s : State) (n : Nat) (x : Cluster) : (s.setCluster n x).codeSpace = s.codeSpace := rfl
@[simp] theorem State.setCluster_binds (s : State) (n : Nat) (x : Cluster) : (s.setCluster n x).binds = s.binds := rfl
@[simp] theorem State.setCluster_plat (s : State) (n : Nat) (x : Cluster) : (s.setCluster n x).plat = s.plat := rfl

/-! ### `State.modCluster` -/

@[simp] theorem State.modCluster_phase (s : State) (n : Nat) (f : Cluster → Cluster) : (s.modCluster n f).phase = s.phase := rfl
@[simp] theorem State.modCluster_now (s : State) (n : Nat) (f : Cluster → Cluster) : (s.modCluster n f).now = s.now := rfl
@[simp] theorem State.modCluster_time (s : State) (n : Nat) (f : Cluster → Cluster) : (s.modCluster n f).time = s.time := rfl
@[simp] theorem State.modCluster_agenda (s : State) (n : Nat) (f : Cluster → Cluster) : (s.modCluster n f).agenda = s.agenda := rfl
@[simp] theorem State.modCluster_cursor (s : State) (n : Nat) (f : Cluster → Cluster) : (s.modCluster n f).cursor = s.cursor := rfl
@[simp] theorem State.modCluster_freeCtr (s : State) (n : Nat) (f : Cluster → Cluster) : (s.modCluster n f).freeCtr = s.freeCtr := rfl
@[simp] theorem State.modCluster_issue (s : State) (n : Nat) (f : Cluster → Cluster) : (s.modCluster n f).issue = s.issue := rfl
@[simp] theorem State.modCluster_nextId (s : State) (n : Nat) (f : Cluster → Cluster) : (s.modCluster n f).nextId = s.nextId := rfl
@[simp] theorem State.modCluster_nextOrd (s : State) (n : Nat) (f : Cluster → Cluster) : (s.modCluster n f).nextOrd = s.nextOrd := rfl
@[simp] theorem State.modCluster_mem (s : State) (n : Nat) (f : Cluster → Cluster) : (s.modCluster n f).mem = s.mem := rfl
@[simp] theorem State.modCluster_pool (s : State) (n : Nat) (f : Cluster → Cluster) : (s.modCluster n f).pool = s.pool := rfl
@[simp] theorem State.modCluster_cores (s : State) (n : Nat) (f : Cluster → Cluster) : (s.modCluster n f).cores = s.cores := rfl
@[simp] theorem State.modCluster_dies (s : State) (n : Nat) (f : Cluster → Cluster) : (s.modCluster n f).dies = s.dies := rfl
@[simp] theorem State.modCluster_bars (s : State) (n : Nat) (f : Cluster → Cluster) : (s.modCluster n f).bars = s.bars := rfl
@[simp] theorem State.modCluster_inflight (s : State) (n : Nat) (f : Cluster → Cluster) : (s.modCluster n f).inflight = s.inflight := rfl
@[simp] theorem State.modCluster_badWords (s : State) (n : Nat) (f : Cluster → Cluster) : (s.modCluster n f).badWords = s.badWords := rfl
@[simp] theorem State.modCluster_badUnit (s : State) (n : Nat) (f : Cluster → Cluster) : (s.modCluster n f).badUnit = s.badUnit := rfl
@[simp] theorem State.modCluster_lines (s : State) (n : Nat) (f : Cluster → Cluster) : (s.modCluster n f).lines = s.lines := rfl
@[simp] theorem State.modCluster_floors (s : State) (n : Nat) (f : Cluster → Cluster) : (s.modCluster n f).floors = s.floors := rfl
@[simp] theorem State.modCluster_misses (s : State) (n : Nat) (f : Cluster → Cluster) : (s.modCluster n f).misses = s.misses := rfl
@[simp] theorem State.modCluster_contexts (s : State) (n : Nat) (f : Cluster → Cluster) : (s.modCluster n f).contexts = s.contexts := rfl
@[simp] theorem State.modCluster_ident0 (s : State) (n : Nat) (f : Cluster → Cluster) : (s.modCluster n f).ident0 = s.ident0 := rfl
@[simp] theorem State.modCluster_rank (s : State) (n : Nat) (f : Cluster → Cluster) : (s.modCluster n f).rank = s.rank := rfl
@[simp] theorem State.modCluster_routes (s : State) (n : Nat) (f : Cluster → Cluster) : (s.modCluster n f).routes = s.routes := rfl
@[simp] theorem State.modCluster_ports (s : State) (n : Nat) (f : Cluster → Cluster) : (s.modCluster n f).ports = s.ports := rfl
@[simp] theorem State.modCluster_links (s : State) (n : Nat) (f : Cluster → Cluster) : (s.modCluster n f).links = s.links := rfl
@[simp] theorem State.modCluster_express (s : State) (n : Nat) (f : Cluster → Cluster) : (s.modCluster n f).express = s.express := rfl
@[simp] theorem State.modCluster_requests (s : State) (n : Nat) (f : Cluster → Cluster) : (s.modCluster n f).requests = s.requests := rfl
@[simp] theorem State.modCluster_stepMsgs (s : State) (n : Nat) (f : Cluster → Cluster) : (s.modCluster n f).stepMsgs = s.stepMsgs := rfl
@[simp] theorem State.modCluster_rings (s : State) (n : Nat) (f : Cluster → Cluster) : (s.modCluster n f).rings = s.rings := rfl
@[simp] theorem State.modCluster_ringLists (s : State) (n : Nat) (f : Cluster → Cluster) : (s.modCluster n f).ringLists = s.ringLists := rfl
@[simp] theorem State.modCluster_ringSent (s : State) (n : Nat) (f : Cluster → Cluster) : (s.modCluster n f).ringSent = s.ringSent := rfl
@[simp] theorem State.modCluster_ringChecks (s : State) (n : Nat) (f : Cluster → Cluster) : (s.modCluster n f).ringChecks = s.ringChecks := rfl
@[simp] theorem State.modCluster_chunks (s : State) (n : Nat) (f : Cluster → Cluster) : (s.modCluster n f).chunks = s.chunks := rfl
@[simp] theorem State.modCluster_partials (s : State) (n : Nat) (f : Cluster → Cluster) : (s.modCluster n f).partials = s.partials := rfl
@[simp] theorem State.modCluster_wire (s : State) (n : Nat) (f : Cluster → Cluster) : (s.modCluster n f).wire = s.wire := rfl
@[simp] theorem State.modCluster_senders (s : State) (n : Nat) (f : Cluster → Cluster) : (s.modCluster n f).senders = s.senders := rfl
@[simp] theorem State.modCluster_answers (s : State) (n : Nat) (f : Cluster → Cluster) : (s.modCluster n f).answers = s.answers := rfl
@[simp] theorem State.modCluster_ringCredits (s : State) (n : Nat) (f : Cluster → Cluster) : (s.modCluster n f).ringCredits = s.ringCredits := rfl
@[simp] theorem State.modCluster_creditsBack (s : State) (n : Nat) (f : Cluster → Cluster) : (s.modCluster n f).creditsBack = s.creditsBack := rfl
@[simp] theorem State.modCluster_collSeq (s : State) (n : Nat) (f : Cluster → Cluster) : (s.modCluster n f).collSeq = s.collSeq := rfl
@[simp] theorem State.modCluster_packets (s : State) (n : Nat) (f : Cluster → Cluster) : (s.modCluster n f).packets = s.packets := rfl
@[simp] theorem State.modCluster_host (s : State) (n : Nat) (f : Cluster → Cluster) : (s.modCluster n f).host = s.host := rfl
@[simp] theorem State.modCluster_divs (s : State) (n : Nat) (f : Cluster → Cluster) : (s.modCluster n f).divs = s.divs := rfl
@[simp] theorem State.modCluster_calls (s : State) (n : Nat) (f : Cluster → Cluster) : (s.modCluster n f).calls = s.calls := rfl
@[simp] theorem State.modCluster_nextCall (s : State) (n : Nat) (f : Cluster → Cluster) : (s.modCluster n f).nextCall = s.nextCall := rfl
@[simp] theorem State.modCluster_codeTables (s : State) (n : Nat) (f : Cluster → Cluster) : (s.modCluster n f).codeTables = s.codeTables := rfl
@[simp] theorem State.modCluster_ringCtx (s : State) (n : Nat) (f : Cluster → Cluster) : (s.modCluster n f).ringCtx = s.ringCtx := rfl
@[simp] theorem State.modCluster_codeSpace (s : State) (n : Nat) (f : Cluster → Cluster) : (s.modCluster n f).codeSpace = s.codeSpace := rfl
@[simp] theorem State.modCluster_binds (s : State) (n : Nat) (f : Cluster → Cluster) : (s.modCluster n f).binds = s.binds := rfl
@[simp] theorem State.modCluster_plat (s : State) (n : Nat) (f : Cluster → Cluster) : (s.modCluster n f).plat = s.plat := rfl

/-! ### `State.setCourse` -/

@[simp] theorem State.setCourse_phase (s : State) (k n : Nat) (c : Course) : (s.setCourse k n c).phase = s.phase := rfl
@[simp] theorem State.setCourse_now (s : State) (k n : Nat) (c : Course) : (s.setCourse k n c).now = s.now := rfl
@[simp] theorem State.setCourse_time (s : State) (k n : Nat) (c : Course) : (s.setCourse k n c).time = s.time := rfl
@[simp] theorem State.setCourse_agenda (s : State) (k n : Nat) (c : Course) : (s.setCourse k n c).agenda = s.agenda := rfl
@[simp] theorem State.setCourse_cursor (s : State) (k n : Nat) (c : Course) : (s.setCourse k n c).cursor = s.cursor := rfl
@[simp] theorem State.setCourse_freeCtr (s : State) (k n : Nat) (c : Course) : (s.setCourse k n c).freeCtr = s.freeCtr := rfl
@[simp] theorem State.setCourse_issue (s : State) (k n : Nat) (c : Course) : (s.setCourse k n c).issue = s.issue := rfl
@[simp] theorem State.setCourse_nextId (s : State) (k n : Nat) (c : Course) : (s.setCourse k n c).nextId = s.nextId := rfl
@[simp] theorem State.setCourse_nextOrd (s : State) (k n : Nat) (c : Course) : (s.setCourse k n c).nextOrd = s.nextOrd := rfl
@[simp] theorem State.setCourse_mem (s : State) (k n : Nat) (c : Course) : (s.setCourse k n c).mem = s.mem := rfl
@[simp] theorem State.setCourse_pool (s : State) (k n : Nat) (c : Course) : (s.setCourse k n c).pool = s.pool := rfl
@[simp] theorem State.setCourse_clusters (s : State) (k n : Nat) (c : Course) : (s.setCourse k n c).clusters = s.clusters := rfl
@[simp] theorem State.setCourse_dies (s : State) (k n : Nat) (c : Course) : (s.setCourse k n c).dies = s.dies := rfl
@[simp] theorem State.setCourse_bars (s : State) (k n : Nat) (c : Course) : (s.setCourse k n c).bars = s.bars := rfl
@[simp] theorem State.setCourse_inflight (s : State) (k n : Nat) (c : Course) : (s.setCourse k n c).inflight = s.inflight := rfl
@[simp] theorem State.setCourse_badWords (s : State) (k n : Nat) (c : Course) : (s.setCourse k n c).badWords = s.badWords := rfl
@[simp] theorem State.setCourse_badUnit (s : State) (k n : Nat) (c : Course) : (s.setCourse k n c).badUnit = s.badUnit := rfl
@[simp] theorem State.setCourse_lines (s : State) (k n : Nat) (c : Course) : (s.setCourse k n c).lines = s.lines := rfl
@[simp] theorem State.setCourse_floors (s : State) (k n : Nat) (c : Course) : (s.setCourse k n c).floors = s.floors := rfl
@[simp] theorem State.setCourse_misses (s : State) (k n : Nat) (c : Course) : (s.setCourse k n c).misses = s.misses := rfl
@[simp] theorem State.setCourse_contexts (s : State) (k n : Nat) (c : Course) : (s.setCourse k n c).contexts = s.contexts := rfl
@[simp] theorem State.setCourse_ident0 (s : State) (k n : Nat) (c : Course) : (s.setCourse k n c).ident0 = s.ident0 := rfl
@[simp] theorem State.setCourse_rank (s : State) (k n : Nat) (c : Course) : (s.setCourse k n c).rank = s.rank := rfl
@[simp] theorem State.setCourse_routes (s : State) (k n : Nat) (c : Course) : (s.setCourse k n c).routes = s.routes := rfl
@[simp] theorem State.setCourse_ports (s : State) (k n : Nat) (c : Course) : (s.setCourse k n c).ports = s.ports := rfl
@[simp] theorem State.setCourse_links (s : State) (k n : Nat) (c : Course) : (s.setCourse k n c).links = s.links := rfl
@[simp] theorem State.setCourse_express (s : State) (k n : Nat) (c : Course) : (s.setCourse k n c).express = s.express := rfl
@[simp] theorem State.setCourse_requests (s : State) (k n : Nat) (c : Course) : (s.setCourse k n c).requests = s.requests := rfl
@[simp] theorem State.setCourse_stepMsgs (s : State) (k n : Nat) (c : Course) : (s.setCourse k n c).stepMsgs = s.stepMsgs := rfl
@[simp] theorem State.setCourse_rings (s : State) (k n : Nat) (c : Course) : (s.setCourse k n c).rings = s.rings := rfl
@[simp] theorem State.setCourse_ringLists (s : State) (k n : Nat) (c : Course) : (s.setCourse k n c).ringLists = s.ringLists := rfl
@[simp] theorem State.setCourse_ringSent (s : State) (k n : Nat) (c : Course) : (s.setCourse k n c).ringSent = s.ringSent := rfl
@[simp] theorem State.setCourse_ringChecks (s : State) (k n : Nat) (c : Course) : (s.setCourse k n c).ringChecks = s.ringChecks := rfl
@[simp] theorem State.setCourse_chunks (s : State) (k n : Nat) (c : Course) : (s.setCourse k n c).chunks = s.chunks := rfl
@[simp] theorem State.setCourse_partials (s : State) (k n : Nat) (c : Course) : (s.setCourse k n c).partials = s.partials := rfl
@[simp] theorem State.setCourse_wire (s : State) (k n : Nat) (c : Course) : (s.setCourse k n c).wire = s.wire := rfl
@[simp] theorem State.setCourse_senders (s : State) (k n : Nat) (c : Course) : (s.setCourse k n c).senders = s.senders := rfl
@[simp] theorem State.setCourse_answers (s : State) (k n : Nat) (c : Course) : (s.setCourse k n c).answers = s.answers := rfl
@[simp] theorem State.setCourse_ringCredits (s : State) (k n : Nat) (c : Course) : (s.setCourse k n c).ringCredits = s.ringCredits := rfl
@[simp] theorem State.setCourse_creditsBack (s : State) (k n : Nat) (c : Course) : (s.setCourse k n c).creditsBack = s.creditsBack := rfl
@[simp] theorem State.setCourse_collSeq (s : State) (k n : Nat) (c : Course) : (s.setCourse k n c).collSeq = s.collSeq := rfl
@[simp] theorem State.setCourse_packets (s : State) (k n : Nat) (c : Course) : (s.setCourse k n c).packets = s.packets := rfl
@[simp] theorem State.setCourse_host (s : State) (k n : Nat) (c : Course) : (s.setCourse k n c).host = s.host := rfl
@[simp] theorem State.setCourse_divs (s : State) (k n : Nat) (c : Course) : (s.setCourse k n c).divs = s.divs := rfl
@[simp] theorem State.setCourse_calls (s : State) (k n : Nat) (c : Course) : (s.setCourse k n c).calls = s.calls := rfl
@[simp] theorem State.setCourse_nextCall (s : State) (k n : Nat) (c : Course) : (s.setCourse k n c).nextCall = s.nextCall := rfl
@[simp] theorem State.setCourse_codeTables (s : State) (k n : Nat) (c : Course) : (s.setCourse k n c).codeTables = s.codeTables := rfl
@[simp] theorem State.setCourse_ringCtx (s : State) (k n : Nat) (c : Course) : (s.setCourse k n c).ringCtx = s.ringCtx := rfl
@[simp] theorem State.setCourse_codeSpace (s : State) (k n : Nat) (c : Course) : (s.setCourse k n c).codeSpace = s.codeSpace := rfl
@[simp] theorem State.setCourse_binds (s : State) (k n : Nat) (c : Course) : (s.setCourse k n c).binds = s.binds := rfl
@[simp] theorem State.setCourse_plat (s : State) (k n : Nat) (c : Course) : (s.setCourse k n c).plat = s.plat := rfl

/-! ### `State.setTask` -/

@[simp] theorem State.setTask_phase (s : State) (k n : Nat) (x : Task) : (s.setTask k n x).phase = s.phase := rfl
@[simp] theorem State.setTask_now (s : State) (k n : Nat) (x : Task) : (s.setTask k n x).now = s.now := rfl
@[simp] theorem State.setTask_time (s : State) (k n : Nat) (x : Task) : (s.setTask k n x).time = s.time := rfl
@[simp] theorem State.setTask_agenda (s : State) (k n : Nat) (x : Task) : (s.setTask k n x).agenda = s.agenda := rfl
@[simp] theorem State.setTask_cursor (s : State) (k n : Nat) (x : Task) : (s.setTask k n x).cursor = s.cursor := rfl
@[simp] theorem State.setTask_freeCtr (s : State) (k n : Nat) (x : Task) : (s.setTask k n x).freeCtr = s.freeCtr := rfl
@[simp] theorem State.setTask_issue (s : State) (k n : Nat) (x : Task) : (s.setTask k n x).issue = s.issue := rfl
@[simp] theorem State.setTask_nextId (s : State) (k n : Nat) (x : Task) : (s.setTask k n x).nextId = s.nextId := rfl
@[simp] theorem State.setTask_nextOrd (s : State) (k n : Nat) (x : Task) : (s.setTask k n x).nextOrd = s.nextOrd := rfl
@[simp] theorem State.setTask_mem (s : State) (k n : Nat) (x : Task) : (s.setTask k n x).mem = s.mem := rfl
@[simp] theorem State.setTask_pool (s : State) (k n : Nat) (x : Task) : (s.setTask k n x).pool = s.pool := rfl
@[simp] theorem State.setTask_clusters (s : State) (k n : Nat) (x : Task) : (s.setTask k n x).clusters = s.clusters := rfl
@[simp] theorem State.setTask_dies (s : State) (k n : Nat) (x : Task) : (s.setTask k n x).dies = s.dies := rfl
@[simp] theorem State.setTask_bars (s : State) (k n : Nat) (x : Task) : (s.setTask k n x).bars = s.bars := rfl
@[simp] theorem State.setTask_inflight (s : State) (k n : Nat) (x : Task) : (s.setTask k n x).inflight = s.inflight := rfl
@[simp] theorem State.setTask_badWords (s : State) (k n : Nat) (x : Task) : (s.setTask k n x).badWords = s.badWords := rfl
@[simp] theorem State.setTask_badUnit (s : State) (k n : Nat) (x : Task) : (s.setTask k n x).badUnit = s.badUnit := rfl
@[simp] theorem State.setTask_lines (s : State) (k n : Nat) (x : Task) : (s.setTask k n x).lines = s.lines := rfl
@[simp] theorem State.setTask_floors (s : State) (k n : Nat) (x : Task) : (s.setTask k n x).floors = s.floors := rfl
@[simp] theorem State.setTask_misses (s : State) (k n : Nat) (x : Task) : (s.setTask k n x).misses = s.misses := rfl
@[simp] theorem State.setTask_contexts (s : State) (k n : Nat) (x : Task) : (s.setTask k n x).contexts = s.contexts := rfl
@[simp] theorem State.setTask_ident0 (s : State) (k n : Nat) (x : Task) : (s.setTask k n x).ident0 = s.ident0 := rfl
@[simp] theorem State.setTask_rank (s : State) (k n : Nat) (x : Task) : (s.setTask k n x).rank = s.rank := rfl
@[simp] theorem State.setTask_routes (s : State) (k n : Nat) (x : Task) : (s.setTask k n x).routes = s.routes := rfl
@[simp] theorem State.setTask_ports (s : State) (k n : Nat) (x : Task) : (s.setTask k n x).ports = s.ports := rfl
@[simp] theorem State.setTask_links (s : State) (k n : Nat) (x : Task) : (s.setTask k n x).links = s.links := rfl
@[simp] theorem State.setTask_express (s : State) (k n : Nat) (x : Task) : (s.setTask k n x).express = s.express := rfl
@[simp] theorem State.setTask_requests (s : State) (k n : Nat) (x : Task) : (s.setTask k n x).requests = s.requests := rfl
@[simp] theorem State.setTask_stepMsgs (s : State) (k n : Nat) (x : Task) : (s.setTask k n x).stepMsgs = s.stepMsgs := rfl
@[simp] theorem State.setTask_rings (s : State) (k n : Nat) (x : Task) : (s.setTask k n x).rings = s.rings := rfl
@[simp] theorem State.setTask_ringLists (s : State) (k n : Nat) (x : Task) : (s.setTask k n x).ringLists = s.ringLists := rfl
@[simp] theorem State.setTask_ringSent (s : State) (k n : Nat) (x : Task) : (s.setTask k n x).ringSent = s.ringSent := rfl
@[simp] theorem State.setTask_ringChecks (s : State) (k n : Nat) (x : Task) : (s.setTask k n x).ringChecks = s.ringChecks := rfl
@[simp] theorem State.setTask_chunks (s : State) (k n : Nat) (x : Task) : (s.setTask k n x).chunks = s.chunks := rfl
@[simp] theorem State.setTask_partials (s : State) (k n : Nat) (x : Task) : (s.setTask k n x).partials = s.partials := rfl
@[simp] theorem State.setTask_wire (s : State) (k n : Nat) (x : Task) : (s.setTask k n x).wire = s.wire := rfl
@[simp] theorem State.setTask_senders (s : State) (k n : Nat) (x : Task) : (s.setTask k n x).senders = s.senders := rfl
@[simp] theorem State.setTask_answers (s : State) (k n : Nat) (x : Task) : (s.setTask k n x).answers = s.answers := rfl
@[simp] theorem State.setTask_ringCredits (s : State) (k n : Nat) (x : Task) : (s.setTask k n x).ringCredits = s.ringCredits := rfl
@[simp] theorem State.setTask_creditsBack (s : State) (k n : Nat) (x : Task) : (s.setTask k n x).creditsBack = s.creditsBack := rfl
@[simp] theorem State.setTask_collSeq (s : State) (k n : Nat) (x : Task) : (s.setTask k n x).collSeq = s.collSeq := rfl
@[simp] theorem State.setTask_packets (s : State) (k n : Nat) (x : Task) : (s.setTask k n x).packets = s.packets := rfl
@[simp] theorem State.setTask_host (s : State) (k n : Nat) (x : Task) : (s.setTask k n x).host = s.host := rfl
@[simp] theorem State.setTask_divs (s : State) (k n : Nat) (x : Task) : (s.setTask k n x).divs = s.divs := rfl
@[simp] theorem State.setTask_calls (s : State) (k n : Nat) (x : Task) : (s.setTask k n x).calls = s.calls := rfl
@[simp] theorem State.setTask_nextCall (s : State) (k n : Nat) (x : Task) : (s.setTask k n x).nextCall = s.nextCall := rfl
@[simp] theorem State.setTask_codeTables (s : State) (k n : Nat) (x : Task) : (s.setTask k n x).codeTables = s.codeTables := rfl
@[simp] theorem State.setTask_ringCtx (s : State) (k n : Nat) (x : Task) : (s.setTask k n x).ringCtx = s.ringCtx := rfl
@[simp] theorem State.setTask_codeSpace (s : State) (k n : Nat) (x : Task) : (s.setTask k n x).codeSpace = s.codeSpace := rfl
@[simp] theorem State.setTask_binds (s : State) (k n : Nat) (x : Task) : (s.setTask k n x).binds = s.binds := rfl
@[simp] theorem State.setTask_plat (s : State) (k n : Nat) (x : Task) : (s.setTask k n x).plat = s.plat := rfl

/-! ### `State.modCourse` -/

@[simp] theorem State.modCourse_phase (s : State) (k n : Nat) (f : Course → Course) : (s.modCourse k n f).phase = s.phase := by unfold State.modCourse; split <;> rfl
@[simp] theorem State.modCourse_now (s : State) (k n : Nat) (f : Course → Course) : (s.modCourse k n f).now = s.now := by unfold State.modCourse; split <;> rfl
@[simp] theorem State.modCourse_time (s : State) (k n : Nat) (f : Course → Course) : (s.modCourse k n f).time = s.time := by unfold State.modCourse; split <;> rfl
@[simp] theorem State.modCourse_agenda (s : State) (k n : Nat) (f : Course → Course) : (s.modCourse k n f).agenda = s.agenda := by unfold State.modCourse; split <;> rfl
@[simp] theorem State.modCourse_cursor (s : State) (k n : Nat) (f : Course → Course) : (s.modCourse k n f).cursor = s.cursor := by unfold State.modCourse; split <;> rfl
@[simp] theorem State.modCourse_freeCtr (s : State) (k n : Nat) (f : Course → Course) : (s.modCourse k n f).freeCtr = s.freeCtr := by unfold State.modCourse; split <;> rfl
@[simp] theorem State.modCourse_issue (s : State) (k n : Nat) (f : Course → Course) : (s.modCourse k n f).issue = s.issue := by unfold State.modCourse; split <;> rfl
@[simp] theorem State.modCourse_nextId (s : State) (k n : Nat) (f : Course → Course) : (s.modCourse k n f).nextId = s.nextId := by unfold State.modCourse; split <;> rfl
@[simp] theorem State.modCourse_nextOrd (s : State) (k n : Nat) (f : Course → Course) : (s.modCourse k n f).nextOrd = s.nextOrd := by unfold State.modCourse; split <;> rfl
@[simp] theorem State.modCourse_mem (s : State) (k n : Nat) (f : Course → Course) : (s.modCourse k n f).mem = s.mem := by unfold State.modCourse; split <;> rfl
@[simp] theorem State.modCourse_pool (s : State) (k n : Nat) (f : Course → Course) : (s.modCourse k n f).pool = s.pool := by unfold State.modCourse; split <;> rfl
@[simp] theorem State.modCourse_clusters (s : State) (k n : Nat) (f : Course → Course) : (s.modCourse k n f).clusters = s.clusters := by unfold State.modCourse; split <;> rfl
@[simp] theorem State.modCourse_dies (s : State) (k n : Nat) (f : Course → Course) : (s.modCourse k n f).dies = s.dies := by unfold State.modCourse; split <;> rfl
@[simp] theorem State.modCourse_bars (s : State) (k n : Nat) (f : Course → Course) : (s.modCourse k n f).bars = s.bars := by unfold State.modCourse; split <;> rfl
@[simp] theorem State.modCourse_inflight (s : State) (k n : Nat) (f : Course → Course) : (s.modCourse k n f).inflight = s.inflight := by unfold State.modCourse; split <;> rfl
@[simp] theorem State.modCourse_badWords (s : State) (k n : Nat) (f : Course → Course) : (s.modCourse k n f).badWords = s.badWords := by unfold State.modCourse; split <;> rfl
@[simp] theorem State.modCourse_badUnit (s : State) (k n : Nat) (f : Course → Course) : (s.modCourse k n f).badUnit = s.badUnit := by unfold State.modCourse; split <;> rfl
@[simp] theorem State.modCourse_lines (s : State) (k n : Nat) (f : Course → Course) : (s.modCourse k n f).lines = s.lines := by unfold State.modCourse; split <;> rfl
@[simp] theorem State.modCourse_floors (s : State) (k n : Nat) (f : Course → Course) : (s.modCourse k n f).floors = s.floors := by unfold State.modCourse; split <;> rfl
@[simp] theorem State.modCourse_misses (s : State) (k n : Nat) (f : Course → Course) : (s.modCourse k n f).misses = s.misses := by unfold State.modCourse; split <;> rfl
@[simp] theorem State.modCourse_contexts (s : State) (k n : Nat) (f : Course → Course) : (s.modCourse k n f).contexts = s.contexts := by unfold State.modCourse; split <;> rfl
@[simp] theorem State.modCourse_ident0 (s : State) (k n : Nat) (f : Course → Course) : (s.modCourse k n f).ident0 = s.ident0 := by unfold State.modCourse; split <;> rfl
@[simp] theorem State.modCourse_rank (s : State) (k n : Nat) (f : Course → Course) : (s.modCourse k n f).rank = s.rank := by unfold State.modCourse; split <;> rfl
@[simp] theorem State.modCourse_routes (s : State) (k n : Nat) (f : Course → Course) : (s.modCourse k n f).routes = s.routes := by unfold State.modCourse; split <;> rfl
@[simp] theorem State.modCourse_ports (s : State) (k n : Nat) (f : Course → Course) : (s.modCourse k n f).ports = s.ports := by unfold State.modCourse; split <;> rfl
@[simp] theorem State.modCourse_links (s : State) (k n : Nat) (f : Course → Course) : (s.modCourse k n f).links = s.links := by unfold State.modCourse; split <;> rfl
@[simp] theorem State.modCourse_express (s : State) (k n : Nat) (f : Course → Course) : (s.modCourse k n f).express = s.express := by unfold State.modCourse; split <;> rfl
@[simp] theorem State.modCourse_requests (s : State) (k n : Nat) (f : Course → Course) : (s.modCourse k n f).requests = s.requests := by unfold State.modCourse; split <;> rfl
@[simp] theorem State.modCourse_stepMsgs (s : State) (k n : Nat) (f : Course → Course) : (s.modCourse k n f).stepMsgs = s.stepMsgs := by unfold State.modCourse; split <;> rfl
@[simp] theorem State.modCourse_rings (s : State) (k n : Nat) (f : Course → Course) : (s.modCourse k n f).rings = s.rings := by unfold State.modCourse; split <;> rfl
@[simp] theorem State.modCourse_ringLists (s : State) (k n : Nat) (f : Course → Course) : (s.modCourse k n f).ringLists = s.ringLists := by unfold State.modCourse; split <;> rfl
@[simp] theorem State.modCourse_ringSent (s : State) (k n : Nat) (f : Course → Course) : (s.modCourse k n f).ringSent = s.ringSent := by unfold State.modCourse; split <;> rfl
@[simp] theorem State.modCourse_ringChecks (s : State) (k n : Nat) (f : Course → Course) : (s.modCourse k n f).ringChecks = s.ringChecks := by unfold State.modCourse; split <;> rfl
@[simp] theorem State.modCourse_chunks (s : State) (k n : Nat) (f : Course → Course) : (s.modCourse k n f).chunks = s.chunks := by unfold State.modCourse; split <;> rfl
@[simp] theorem State.modCourse_partials (s : State) (k n : Nat) (f : Course → Course) : (s.modCourse k n f).partials = s.partials := by unfold State.modCourse; split <;> rfl
@[simp] theorem State.modCourse_wire (s : State) (k n : Nat) (f : Course → Course) : (s.modCourse k n f).wire = s.wire := by unfold State.modCourse; split <;> rfl
@[simp] theorem State.modCourse_senders (s : State) (k n : Nat) (f : Course → Course) : (s.modCourse k n f).senders = s.senders := by unfold State.modCourse; split <;> rfl
@[simp] theorem State.modCourse_answers (s : State) (k n : Nat) (f : Course → Course) : (s.modCourse k n f).answers = s.answers := by unfold State.modCourse; split <;> rfl
@[simp] theorem State.modCourse_ringCredits (s : State) (k n : Nat) (f : Course → Course) : (s.modCourse k n f).ringCredits = s.ringCredits := by unfold State.modCourse; split <;> rfl
@[simp] theorem State.modCourse_creditsBack (s : State) (k n : Nat) (f : Course → Course) : (s.modCourse k n f).creditsBack = s.creditsBack := by unfold State.modCourse; split <;> rfl
@[simp] theorem State.modCourse_collSeq (s : State) (k n : Nat) (f : Course → Course) : (s.modCourse k n f).collSeq = s.collSeq := by unfold State.modCourse; split <;> rfl
@[simp] theorem State.modCourse_packets (s : State) (k n : Nat) (f : Course → Course) : (s.modCourse k n f).packets = s.packets := by unfold State.modCourse; split <;> rfl
@[simp] theorem State.modCourse_host (s : State) (k n : Nat) (f : Course → Course) : (s.modCourse k n f).host = s.host := by unfold State.modCourse; split <;> rfl
@[simp] theorem State.modCourse_divs (s : State) (k n : Nat) (f : Course → Course) : (s.modCourse k n f).divs = s.divs := by unfold State.modCourse; split <;> rfl
@[simp] theorem State.modCourse_calls (s : State) (k n : Nat) (f : Course → Course) : (s.modCourse k n f).calls = s.calls := by unfold State.modCourse; split <;> rfl
@[simp] theorem State.modCourse_nextCall (s : State) (k n : Nat) (f : Course → Course) : (s.modCourse k n f).nextCall = s.nextCall := by unfold State.modCourse; split <;> rfl
@[simp] theorem State.modCourse_codeTables (s : State) (k n : Nat) (f : Course → Course) : (s.modCourse k n f).codeTables = s.codeTables := by unfold State.modCourse; split <;> rfl
@[simp] theorem State.modCourse_ringCtx (s : State) (k n : Nat) (f : Course → Course) : (s.modCourse k n f).ringCtx = s.ringCtx := by unfold State.modCourse; split <;> rfl
@[simp] theorem State.modCourse_codeSpace (s : State) (k n : Nat) (f : Course → Course) : (s.modCourse k n f).codeSpace = s.codeSpace := by unfold State.modCourse; split <;> rfl
@[simp] theorem State.modCourse_binds (s : State) (k n : Nat) (f : Course → Course) : (s.modCourse k n f).binds = s.binds := by unfold State.modCourse; split <;> rfl
@[simp] theorem State.modCourse_plat (s : State) (k n : Nat) (f : Course → Course) : (s.modCourse k n f).plat = s.plat := by unfold State.modCourse; split <;> rfl

/-! ### `State.modTask` -/

@[simp] theorem State.modTask_phase (s : State) (k n : Nat) (f : Task → Task) : (s.modTask k n f).phase = s.phase := by unfold State.modTask; split <;> rfl
@[simp] theorem State.modTask_now (s : State) (k n : Nat) (f : Task → Task) : (s.modTask k n f).now = s.now := by unfold State.modTask; split <;> rfl
@[simp] theorem State.modTask_time (s : State) (k n : Nat) (f : Task → Task) : (s.modTask k n f).time = s.time := by unfold State.modTask; split <;> rfl
@[simp] theorem State.modTask_agenda (s : State) (k n : Nat) (f : Task → Task) : (s.modTask k n f).agenda = s.agenda := by unfold State.modTask; split <;> rfl
@[simp] theorem State.modTask_cursor (s : State) (k n : Nat) (f : Task → Task) : (s.modTask k n f).cursor = s.cursor := by unfold State.modTask; split <;> rfl
@[simp] theorem State.modTask_freeCtr (s : State) (k n : Nat) (f : Task → Task) : (s.modTask k n f).freeCtr = s.freeCtr := by unfold State.modTask; split <;> rfl
@[simp] theorem State.modTask_issue (s : State) (k n : Nat) (f : Task → Task) : (s.modTask k n f).issue = s.issue := by unfold State.modTask; split <;> rfl
@[simp] theorem State.modTask_nextId (s : State) (k n : Nat) (f : Task → Task) : (s.modTask k n f).nextId = s.nextId := by unfold State.modTask; split <;> rfl
@[simp] theorem State.modTask_nextOrd (s : State) (k n : Nat) (f : Task → Task) : (s.modTask k n f).nextOrd = s.nextOrd := by unfold State.modTask; split <;> rfl
@[simp] theorem State.modTask_mem (s : State) (k n : Nat) (f : Task → Task) : (s.modTask k n f).mem = s.mem := by unfold State.modTask; split <;> rfl
@[simp] theorem State.modTask_pool (s : State) (k n : Nat) (f : Task → Task) : (s.modTask k n f).pool = s.pool := by unfold State.modTask; split <;> rfl
@[simp] theorem State.modTask_clusters (s : State) (k n : Nat) (f : Task → Task) : (s.modTask k n f).clusters = s.clusters := by unfold State.modTask; split <;> rfl
@[simp] theorem State.modTask_dies (s : State) (k n : Nat) (f : Task → Task) : (s.modTask k n f).dies = s.dies := by unfold State.modTask; split <;> rfl
@[simp] theorem State.modTask_bars (s : State) (k n : Nat) (f : Task → Task) : (s.modTask k n f).bars = s.bars := by unfold State.modTask; split <;> rfl
@[simp] theorem State.modTask_inflight (s : State) (k n : Nat) (f : Task → Task) : (s.modTask k n f).inflight = s.inflight := by unfold State.modTask; split <;> rfl
@[simp] theorem State.modTask_badWords (s : State) (k n : Nat) (f : Task → Task) : (s.modTask k n f).badWords = s.badWords := by unfold State.modTask; split <;> rfl
@[simp] theorem State.modTask_badUnit (s : State) (k n : Nat) (f : Task → Task) : (s.modTask k n f).badUnit = s.badUnit := by unfold State.modTask; split <;> rfl
@[simp] theorem State.modTask_lines (s : State) (k n : Nat) (f : Task → Task) : (s.modTask k n f).lines = s.lines := by unfold State.modTask; split <;> rfl
@[simp] theorem State.modTask_floors (s : State) (k n : Nat) (f : Task → Task) : (s.modTask k n f).floors = s.floors := by unfold State.modTask; split <;> rfl
@[simp] theorem State.modTask_misses (s : State) (k n : Nat) (f : Task → Task) : (s.modTask k n f).misses = s.misses := by unfold State.modTask; split <;> rfl
@[simp] theorem State.modTask_contexts (s : State) (k n : Nat) (f : Task → Task) : (s.modTask k n f).contexts = s.contexts := by unfold State.modTask; split <;> rfl
@[simp] theorem State.modTask_ident0 (s : State) (k n : Nat) (f : Task → Task) : (s.modTask k n f).ident0 = s.ident0 := by unfold State.modTask; split <;> rfl
@[simp] theorem State.modTask_rank (s : State) (k n : Nat) (f : Task → Task) : (s.modTask k n f).rank = s.rank := by unfold State.modTask; split <;> rfl
@[simp] theorem State.modTask_routes (s : State) (k n : Nat) (f : Task → Task) : (s.modTask k n f).routes = s.routes := by unfold State.modTask; split <;> rfl
@[simp] theorem State.modTask_ports (s : State) (k n : Nat) (f : Task → Task) : (s.modTask k n f).ports = s.ports := by unfold State.modTask; split <;> rfl
@[simp] theorem State.modTask_links (s : State) (k n : Nat) (f : Task → Task) : (s.modTask k n f).links = s.links := by unfold State.modTask; split <;> rfl
@[simp] theorem State.modTask_express (s : State) (k n : Nat) (f : Task → Task) : (s.modTask k n f).express = s.express := by unfold State.modTask; split <;> rfl
@[simp] theorem State.modTask_requests (s : State) (k n : Nat) (f : Task → Task) : (s.modTask k n f).requests = s.requests := by unfold State.modTask; split <;> rfl
@[simp] theorem State.modTask_stepMsgs (s : State) (k n : Nat) (f : Task → Task) : (s.modTask k n f).stepMsgs = s.stepMsgs := by unfold State.modTask; split <;> rfl
@[simp] theorem State.modTask_rings (s : State) (k n : Nat) (f : Task → Task) : (s.modTask k n f).rings = s.rings := by unfold State.modTask; split <;> rfl
@[simp] theorem State.modTask_ringLists (s : State) (k n : Nat) (f : Task → Task) : (s.modTask k n f).ringLists = s.ringLists := by unfold State.modTask; split <;> rfl
@[simp] theorem State.modTask_ringSent (s : State) (k n : Nat) (f : Task → Task) : (s.modTask k n f).ringSent = s.ringSent := by unfold State.modTask; split <;> rfl
@[simp] theorem State.modTask_ringChecks (s : State) (k n : Nat) (f : Task → Task) : (s.modTask k n f).ringChecks = s.ringChecks := by unfold State.modTask; split <;> rfl
@[simp] theorem State.modTask_chunks (s : State) (k n : Nat) (f : Task → Task) : (s.modTask k n f).chunks = s.chunks := by unfold State.modTask; split <;> rfl
@[simp] theorem State.modTask_partials (s : State) (k n : Nat) (f : Task → Task) : (s.modTask k n f).partials = s.partials := by unfold State.modTask; split <;> rfl
@[simp] theorem State.modTask_wire (s : State) (k n : Nat) (f : Task → Task) : (s.modTask k n f).wire = s.wire := by unfold State.modTask; split <;> rfl
@[simp] theorem State.modTask_senders (s : State) (k n : Nat) (f : Task → Task) : (s.modTask k n f).senders = s.senders := by unfold State.modTask; split <;> rfl
@[simp] theorem State.modTask_answers (s : State) (k n : Nat) (f : Task → Task) : (s.modTask k n f).answers = s.answers := by unfold State.modTask; split <;> rfl
@[simp] theorem State.modTask_ringCredits (s : State) (k n : Nat) (f : Task → Task) : (s.modTask k n f).ringCredits = s.ringCredits := by unfold State.modTask; split <;> rfl
@[simp] theorem State.modTask_creditsBack (s : State) (k n : Nat) (f : Task → Task) : (s.modTask k n f).creditsBack = s.creditsBack := by unfold State.modTask; split <;> rfl
@[simp] theorem State.modTask_collSeq (s : State) (k n : Nat) (f : Task → Task) : (s.modTask k n f).collSeq = s.collSeq := by unfold State.modTask; split <;> rfl
@[simp] theorem State.modTask_packets (s : State) (k n : Nat) (f : Task → Task) : (s.modTask k n f).packets = s.packets := by unfold State.modTask; split <;> rfl
@[simp] theorem State.modTask_host (s : State) (k n : Nat) (f : Task → Task) : (s.modTask k n f).host = s.host := by unfold State.modTask; split <;> rfl
@[simp] theorem State.modTask_divs (s : State) (k n : Nat) (f : Task → Task) : (s.modTask k n f).divs = s.divs := by unfold State.modTask; split <;> rfl
@[simp] theorem State.modTask_calls (s : State) (k n : Nat) (f : Task → Task) : (s.modTask k n f).calls = s.calls := by unfold State.modTask; split <;> rfl
@[simp] theorem State.modTask_nextCall (s : State) (k n : Nat) (f : Task → Task) : (s.modTask k n f).nextCall = s.nextCall := by unfold State.modTask; split <;> rfl
@[simp] theorem State.modTask_codeTables (s : State) (k n : Nat) (f : Task → Task) : (s.modTask k n f).codeTables = s.codeTables := by unfold State.modTask; split <;> rfl
@[simp] theorem State.modTask_ringCtx (s : State) (k n : Nat) (f : Task → Task) : (s.modTask k n f).ringCtx = s.ringCtx := by unfold State.modTask; split <;> rfl
@[simp] theorem State.modTask_codeSpace (s : State) (k n : Nat) (f : Task → Task) : (s.modTask k n f).codeSpace = s.codeSpace := by unfold State.modTask; split <;> rfl
@[simp] theorem State.modTask_binds (s : State) (k n : Nat) (f : Task → Task) : (s.modTask k n f).binds = s.binds := by unfold State.modTask; split <;> rfl
@[simp] theorem State.modTask_plat (s : State) (k n : Nat) (f : Task → Task) : (s.modTask k n f).plat = s.plat := by unfold State.modTask; split <;> rfl

/-! ### `State.leaveLane` -/

@[simp] theorem State.leaveLane_phase (s : State) (g : Issue) (o e : Nat) (c : Course) : (s.leaveLane g o e c).phase = s.phase := rfl
@[simp] theorem State.leaveLane_now (s : State) (g : Issue) (o e : Nat) (c : Course) : (s.leaveLane g o e c).now = s.now := rfl
@[simp] theorem State.leaveLane_time (s : State) (g : Issue) (o e : Nat) (c : Course) : (s.leaveLane g o e c).time = s.time := rfl
@[simp] theorem State.leaveLane_agenda (s : State) (g : Issue) (o e : Nat) (c : Course) : (s.leaveLane g o e c).agenda = s.agenda := rfl
@[simp] theorem State.leaveLane_cursor (s : State) (g : Issue) (o e : Nat) (c : Course) : (s.leaveLane g o e c).cursor = s.cursor := rfl
@[simp] theorem State.leaveLane_freeCtr (s : State) (g : Issue) (o e : Nat) (c : Course) : (s.leaveLane g o e c).freeCtr = s.freeCtr := rfl
@[simp] theorem State.leaveLane_nextId (s : State) (g : Issue) (o e : Nat) (c : Course) : (s.leaveLane g o e c).nextId = s.nextId := rfl
@[simp] theorem State.leaveLane_mem (s : State) (g : Issue) (o e : Nat) (c : Course) : (s.leaveLane g o e c).mem = s.mem := rfl
@[simp] theorem State.leaveLane_pool (s : State) (g : Issue) (o e : Nat) (c : Course) : (s.leaveLane g o e c).pool = s.pool := rfl
@[simp] theorem State.leaveLane_clusters (s : State) (g : Issue) (o e : Nat) (c : Course) : (s.leaveLane g o e c).clusters = s.clusters := rfl
@[simp] theorem State.leaveLane_dies (s : State) (g : Issue) (o e : Nat) (c : Course) : (s.leaveLane g o e c).dies = s.dies := rfl
@[simp] theorem State.leaveLane_bars (s : State) (g : Issue) (o e : Nat) (c : Course) : (s.leaveLane g o e c).bars = s.bars := rfl
@[simp] theorem State.leaveLane_inflight (s : State) (g : Issue) (o e : Nat) (c : Course) : (s.leaveLane g o e c).inflight = s.inflight := rfl
@[simp] theorem State.leaveLane_badWords (s : State) (g : Issue) (o e : Nat) (c : Course) : (s.leaveLane g o e c).badWords = s.badWords := rfl
@[simp] theorem State.leaveLane_badUnit (s : State) (g : Issue) (o e : Nat) (c : Course) : (s.leaveLane g o e c).badUnit = s.badUnit := rfl
@[simp] theorem State.leaveLane_lines (s : State) (g : Issue) (o e : Nat) (c : Course) : (s.leaveLane g o e c).lines = s.lines := rfl
@[simp] theorem State.leaveLane_floors (s : State) (g : Issue) (o e : Nat) (c : Course) : (s.leaveLane g o e c).floors = s.floors := rfl
@[simp] theorem State.leaveLane_misses (s : State) (g : Issue) (o e : Nat) (c : Course) : (s.leaveLane g o e c).misses = s.misses := rfl
@[simp] theorem State.leaveLane_contexts (s : State) (g : Issue) (o e : Nat) (c : Course) : (s.leaveLane g o e c).contexts = s.contexts := rfl
@[simp] theorem State.leaveLane_ident0 (s : State) (g : Issue) (o e : Nat) (c : Course) : (s.leaveLane g o e c).ident0 = s.ident0 := rfl
@[simp] theorem State.leaveLane_rank (s : State) (g : Issue) (o e : Nat) (c : Course) : (s.leaveLane g o e c).rank = s.rank := rfl
@[simp] theorem State.leaveLane_routes (s : State) (g : Issue) (o e : Nat) (c : Course) : (s.leaveLane g o e c).routes = s.routes := rfl
@[simp] theorem State.leaveLane_ports (s : State) (g : Issue) (o e : Nat) (c : Course) : (s.leaveLane g o e c).ports = s.ports := rfl
@[simp] theorem State.leaveLane_links (s : State) (g : Issue) (o e : Nat) (c : Course) : (s.leaveLane g o e c).links = s.links := rfl
@[simp] theorem State.leaveLane_express (s : State) (g : Issue) (o e : Nat) (c : Course) : (s.leaveLane g o e c).express = s.express := rfl
@[simp] theorem State.leaveLane_requests (s : State) (g : Issue) (o e : Nat) (c : Course) : (s.leaveLane g o e c).requests = s.requests := rfl
@[simp] theorem State.leaveLane_stepMsgs (s : State) (g : Issue) (o e : Nat) (c : Course) : (s.leaveLane g o e c).stepMsgs = s.stepMsgs := rfl
@[simp] theorem State.leaveLane_rings (s : State) (g : Issue) (o e : Nat) (c : Course) : (s.leaveLane g o e c).rings = s.rings := rfl
@[simp] theorem State.leaveLane_ringLists (s : State) (g : Issue) (o e : Nat) (c : Course) : (s.leaveLane g o e c).ringLists = s.ringLists := rfl
@[simp] theorem State.leaveLane_ringSent (s : State) (g : Issue) (o e : Nat) (c : Course) : (s.leaveLane g o e c).ringSent = s.ringSent := rfl
@[simp] theorem State.leaveLane_ringChecks (s : State) (g : Issue) (o e : Nat) (c : Course) : (s.leaveLane g o e c).ringChecks = s.ringChecks := rfl
@[simp] theorem State.leaveLane_chunks (s : State) (g : Issue) (o e : Nat) (c : Course) : (s.leaveLane g o e c).chunks = s.chunks := rfl
@[simp] theorem State.leaveLane_partials (s : State) (g : Issue) (o e : Nat) (c : Course) : (s.leaveLane g o e c).partials = s.partials := rfl
@[simp] theorem State.leaveLane_wire (s : State) (g : Issue) (o e : Nat) (c : Course) : (s.leaveLane g o e c).wire = s.wire := rfl
@[simp] theorem State.leaveLane_senders (s : State) (g : Issue) (o e : Nat) (c : Course) : (s.leaveLane g o e c).senders = s.senders := rfl
@[simp] theorem State.leaveLane_answers (s : State) (g : Issue) (o e : Nat) (c : Course) : (s.leaveLane g o e c).answers = s.answers := rfl
@[simp] theorem State.leaveLane_ringCredits (s : State) (g : Issue) (o e : Nat) (c : Course) : (s.leaveLane g o e c).ringCredits = s.ringCredits := rfl
@[simp] theorem State.leaveLane_creditsBack (s : State) (g : Issue) (o e : Nat) (c : Course) : (s.leaveLane g o e c).creditsBack = s.creditsBack := rfl
@[simp] theorem State.leaveLane_collSeq (s : State) (g : Issue) (o e : Nat) (c : Course) : (s.leaveLane g o e c).collSeq = s.collSeq := rfl
@[simp] theorem State.leaveLane_packets (s : State) (g : Issue) (o e : Nat) (c : Course) : (s.leaveLane g o e c).packets = s.packets := rfl
@[simp] theorem State.leaveLane_host (s : State) (g : Issue) (o e : Nat) (c : Course) : (s.leaveLane g o e c).host = s.host := rfl
@[simp] theorem State.leaveLane_divs (s : State) (g : Issue) (o e : Nat) (c : Course) : (s.leaveLane g o e c).divs = s.divs := rfl
@[simp] theorem State.leaveLane_calls (s : State) (g : Issue) (o e : Nat) (c : Course) : (s.leaveLane g o e c).calls = s.calls := rfl
@[simp] theorem State.leaveLane_nextCall (s : State) (g : Issue) (o e : Nat) (c : Course) : (s.leaveLane g o e c).nextCall = s.nextCall := rfl
@[simp] theorem State.leaveLane_codeTables (s : State) (g : Issue) (o e : Nat) (c : Course) : (s.leaveLane g o e c).codeTables = s.codeTables := rfl
@[simp] theorem State.leaveLane_ringCtx (s : State) (g : Issue) (o e : Nat) (c : Course) : (s.leaveLane g o e c).ringCtx = s.ringCtx := rfl
@[simp] theorem State.leaveLane_codeSpace (s : State) (g : Issue) (o e : Nat) (c : Course) : (s.leaveLane g o e c).codeSpace = s.codeSpace := rfl
@[simp] theorem State.leaveLane_binds (s : State) (g : Issue) (o e : Nat) (c : Course) : (s.leaveLane g o e c).binds = s.binds := rfl
@[simp] theorem State.leaveLane_plat (s : State) (g : Issue) (o e : Nat) (c : Course) : (s.leaveLane g o e c).plat = s.plat := rfl

@[simp] theorem State.leaveLane_issue (s : State) (g : Issue) (o e : Nat) (c : Course) : (s.leaveLane g o e c).issue = none := rfl
@[simp] theorem State.leaveLane_nextOrd (s : State) (g : Issue) (o e : Nat) (c : Course) :
    (s.leaveLane g o e c).nextOrd = s.nextOrd + 1 := rfl

end Sys2Proof.Machine
end

