-- ==== Sys2Proof/Laws/Memory.lean ====
section
/-! SUPPORT. Tables and byte memory: a read after a write, what a write leaves alone, and that every operation on the
listed cells keeps the canonical form. -/

namespace Sys2Proof.Machine

/-! ### Tables -/

@[simp] theorem Tab.get_set {α : Type} (t : Tab α) (k j : Nat) (a d : α) :
    (Tab.set t k a).get j d = if j = k then a else t.get j d := by
  induction t with
  | nil => simp only [Tab.set, Tab.get]; grind
  | cons p r ih => simp only [Tab.set]; grind [Tab.get]

@[simp] theorem Tab.find_set {α : Type} (t : Tab α) (k j : Nat) (a : α) :
    (Tab.set t k a).find j = if j = k then some a else t.find j := by
  induction t with
  | nil => simp only [Tab.set, Tab.find]; grind
  | cons p r ih => simp only [Tab.set]; grind [Tab.find]

@[simp] theorem State.core_setCore (s : State) (k j : Nat) (c : Core) :
    (s.setCore k c).core j = if j = k then c else s.core j := by simp [State.core, State.setCore]
@[simp] theorem State.core_modCore (s : State) (k j : Nat) (f : Core → Core) :
    (s.modCore k f).core j = if j = k then f (s.core k) else s.core j := by simp [State.modCore]
@[simp] theorem State.die_setDie (s : State) (k j : Nat) (x : Die) :
    (s.setDie k x).die j = if j = k then x else s.die j := by simp [State.die, State.setDie]
@[simp] theorem State.die_modDie (s : State) (k j : Nat) (f : Die → Die) :
    (s.modDie k f).die j = if j = k then f (s.die k) else s.die j := by simp [State.modDie]
@[simp] theorem State.cluster_setCluster (s : State) (k j : Nat) (x : Cluster) :
    (s.setCluster k x).cluster j = if j = k then x else s.cluster j := by simp [State.cluster, State.setCluster]
@[simp] theorem State.cluster_modCluster (s : State) (k j : Nat) (f : Cluster → Cluster) :
    (s.modCluster k f).cluster j = if j = k then f (s.cluster k) else s.cluster j := by simp [State.modCluster]

theorem State.course?_setCourse (s : State) (k n j m : Nat) (c : Course) :
    (s.setCourse k n c).course? j m = if j = k ∧ m = n then some c else s.course? j m := by
  simp only [State.course?, State.setCourse]
  by_cases h : j = k <;> simp [h]

@[simp] theorem State.course?_setCourse_self (s : State) (k n : Nat) (c : Course) :
    (s.setCourse k n c).course? k n = some c := by simp [State.course?_setCourse]

@[simp] theorem State.task?_setCourse (s : State) (k n j m : Nat) (c : Course) :
    (s.setCourse k n c).task? j m = s.task? j m := by
  simp only [State.task?, State.setCourse, State.core_modCore]
  by_cases h : j = k <;> simp [h]

theorem State.task?_setTask (s : State) (k n j m : Nat) (t : Task) :
    (s.setTask k n t).task? j m = if j = k ∧ m = n then some t else s.task? j m := by
  simp only [State.task?, State.setTask, State.core_modCore]
  by_cases h : j = k
  · subst h
    simp
  · simp [h]

@[simp] theorem State.task?_setTask_self (s : State) (k n : Nat) (t : Task) : (s.setTask k n t).task? k n = some t := by
  simp [State.task?_setTask]

@[simp] theorem State.course?_setTask (s : State) (k n j m : Nat) (t : Task) : (s.setTask k n t).course? j m = s.course? j m := by
  simp only [State.course?, State.setTask, State.core_modCore]
  split
  · next h => subst h; rfl
  · rfl

theorem State.task?_modTask (s : State) (k n j m : Nat) (f : Task → Task) :
    (s.modTask k n f).task? j m = if j = k ∧ m = n then (s.task? j m).map f else s.task? j m := by
  unfold State.modTask
  split
  · next t h =>
    rw [State.task?_setTask]
    split
    · next e => rw [e.1, e.2, h]; rfl
    · rfl
  · next h =>
    split
    · next e => rw [e.1, e.2, h]; rfl
    · rfl

@[simp] theorem State.course?_modTask (s : State) (k n j m : Nat) (f : Task → Task) : (s.modTask k n f).course? j m = s.course? j m := by
  unfold State.modTask
  split <;> simp

theorem State.course?_modCourse (s : State) (k n j m : Nat) (f : Course → Course) :
    (s.modCourse k n f).course? j m = if j = k ∧ m = n then (s.course? j m).map f else s.course? j m := by
  unfold State.modCourse
  split
  · next c h =>
    rw [State.course?_setCourse]
    split
    · next e => rw [e.1, e.2, h]; rfl
    · rfl
  · next h =>
    split
    · next e => rw [e.1, e.2, h]; rfl
    · rfl

@[simp] theorem State.task?_modCourse (s : State) (k n j m : Nat) (f : Course → Course) : (s.modCourse k n f).task? j m = s.task? j m := by
  unfold State.modCourse
  split <;> simp

/-- Taking a group out of its lane leaves its course as given, and every other course. -/
theorem State.course?_leaveLane (s : State) (g : Issue) (o e : Nat) (c : Course) :
    ∃ x y, (s.leaveLane g o e c).course? g.core g.course = some { c.trimLoop with stallUntil := x, stallUntilHi := y } := by
  unfold State.leaveLane
  simp only [State.course?, State.setCourse]
  split
  · exact ⟨c.trimLoop.stallUntil, g.t + o + e, by simp [State.core, State.modCore, State.setCore]⟩
  · exact ⟨g.t + o + e, c.trimLoop.stallUntilHi, by simp [State.core, State.modCore, State.setCore]⟩

/-! ### Byte memory -/

/-- Whether an address is listed. -/
def cellHas : List Host.Cell → Nat → Bool
  | [], _ => false
  | (j, _) :: r, k => decide (j = k) || cellHas r k

theorem cellGet_append (l r : List Host.Cell) (k : Nat) :
    cellGet (l ++ r) k = if cellHas l k then cellGet l k else cellGet r k := by
  induction l with
  | nil => simp [cellHas]
  | cons p l ih => grind [cellGet, cellHas]

theorem cellHas_append (l r : List Host.Cell) (k : Nat) : cellHas (l ++ r) k = (cellHas l k || cellHas r k) := by
  induction l with
  | nil => simp [cellHas]
  | cons p l ih => grind [cellHas]

theorem cellGet_filter (p : Nat → Bool) (m : List Host.Cell) (k : Nat) :
    cellGet (m.filter fun c => p c.1) k = if p k then cellGet m k else 0 := by
  induction m with
  | nil => simp [cellGet]
  | cons c m ih => grind [cellGet]

theorem cellHas_filter (p : Nat → Bool) (m : List Host.Cell) (k : Nat) :
    cellHas (m.filter fun c => p c.1) k = (p k && cellHas m k) := by
  induction m with
  | nil => simp [cellHas]
  | cons c m ih => grind [cellHas]

theorem cellGet_of_not_has (m : List Host.Cell) (k : Nat) (h : cellHas m k = false) : cellGet m k = 0 := by
  induction m with
  | nil => rfl
  | cons c m ih => grind [cellGet, cellHas]

theorem cellGet_cellsOf (bs : List Byte) (a k : Nat) :
    cellGet (cellsOf a bs) k = if a ≤ k then bs.getD (k - a) 0 else 0 := by
  induction bs generalizing a with
  | nil => simp [cellsOf, cellGet]
  | cons b bs ih =>
    simp only [cellsOf]
    by_cases h : k = a
    · subst h
      split
      · rw [ih, if_neg (by omega)]; simp_all
      · simp [cellGet]
    · by_cases h1 : a ≤ k
      · have : k - a = (k - (a + 1)) + 1 := by omega
        split <;> simp [cellGet, ih, Ne.symm h, show a + 1 ≤ k by omega, this]
      · split <;> simp [cellGet, ih, Ne.symm h, show ¬ a + 1 ≤ k by omega]

theorem cellHas_cellsOf (bs : List Byte) (a k : Nat) (h : k < a ∨ a + bs.length ≤ k) : cellHas (cellsOf a bs) k = false := by
  induction bs generalizing a with
  | nil => rfl
  | cons b bs ih =>
    simp only [List.length_cons] at h
    have := ih (a + 1) (by omega)
    simp only [cellsOf]
    split
    · exact this
    · simp only [cellHas, this, Bool.or_false, decide_eq_false_iff_not]; omega

/-- A read after a write: the written bytes, and every other byte as before. -/
theorem cellGet_cellsWrite (m : List Host.Cell) (a : Nat) (bs : List Byte) (k : Nat) :
    cellGet (cellsWrite m a bs) k = if a ≤ k ∧ k < a + bs.length then bs.getD (k - a) 0 else cellGet m k := by
  unfold cellsWrite
  rw [cellGet_append, cellGet_append, cellHas_append, cellHas_filter (fun i => decide (i < a)),
    cellGet_filter (fun i => decide (i < a)), cellGet_filter (fun i => decide (a + bs.length ≤ i))]
  have nl := cellGet_of_not_has m k
  by_cases h1 : k < a
  · rw [cellHas_cellsOf bs a k (.inl h1), cellGet_cellsOf]
    grind
  · by_cases h2 : k < a + bs.length
    · have := cellGet_of_not_has (cellsOf a bs) k
      rw [cellGet_cellsOf] at this ⊢
      grind
    · rw [cellHas_cellsOf bs a k (.inr (by omega))]
      grind

theorem cellsWf_mono (m : List Host.Cell) (a b : Nat) (h : a ≤ b) (w : cellsWf b m = true) : cellsWf a m = true := by
  cases m with
  | nil => rfl
  | cons c m =>
    obtain ⟨j, x⟩ := c
    simp only [cellsWf, Bool.and_eq_true, decide_eq_true_eq] at w ⊢
    exact ⟨⟨by omega, w.1.2⟩, w.2⟩

theorem cellsWf_filter (p : Host.Cell → Bool) (m : List Host.Cell) (a : Nat) (w : cellsWf a m = true) :
    cellsWf a (m.filter p) = true := by
  induction m generalizing a with
  | nil => rfl
  | cons c m ih =>
    obtain ⟨j, x⟩ := c
    simp only [cellsWf, Bool.and_eq_true, decide_eq_true_eq] at w
    rw [List.filter_cons]
    split
    · simp only [cellsWf, Bool.and_eq_true, decide_eq_true_eq]; exact ⟨⟨w.1.1, w.1.2⟩, ih _ w.2⟩
    · exact cellsWf_mono _ a (j + 1) (by omega) (ih _ w.2)

theorem cellsWf_append (l r : List Host.Cell) (a n : Nat) (hl : cellsWf a l = true) (hn : ∀ c ∈ l, c.1 < n)
    (hr : cellsWf n r = true) (h : a ≤ n) : cellsWf a (l ++ r) = true := by
  induction l generalizing a with
  | nil => exact cellsWf_mono r a n h hr
  | cons c l ih =>
    obtain ⟨j, x⟩ := c
    simp only [cellsWf, Bool.and_eq_true, decide_eq_true_eq, List.cons_append] at hl ⊢
    have := hn (j, x) (by simp)
    exact ⟨hl.1, ih _ hl.2 (fun c hc => hn c (by simp [hc])) (by simp at this; omega)⟩

theorem cellsWf_cellsOf (bs : List Byte) (a : Nat) : cellsWf a (cellsOf a bs) = true := by
  induction bs generalizing a with
  | nil => rfl
  | cons b bs ih =>
    simp only [cellsOf]
    split
    · exact cellsWf_mono _ a (a + 1) (by omega) (ih _)
    · next h => simp [cellsWf, ih]; exact h

theorem cellsOf_lt (bs : List Byte) (a : Nat) : ∀ c ∈ cellsOf a bs, c.1 < a + bs.length := by
  induction bs generalizing a with
  | nil => simp [cellsOf]
  | cons b bs ih =>
    intro c hc
    simp only [cellsOf] at hc
    simp only [List.length_cons]
    split at hc
    · have := ih _ c hc; omega
    · rcases List.mem_cons.mp hc with rfl | hc
      · simp only; omega
      · have := ih _ c hc; omega

theorem cellsWf_filter_ge (m : List Host.Cell) (a n : Nat) (w : cellsWf a m = true) :
    cellsWf n (m.filter fun c => decide (n ≤ c.1)) = true := by
  induction m generalizing a with
  | nil => rfl
  | cons c m ih =>
    obtain ⟨j, x⟩ := c
    simp only [cellsWf, Bool.and_eq_true, decide_eq_true_eq] at w
    rw [List.filter_cons]
    split
    · next h =>
      simp only [decide_eq_true_eq] at h
      simp only [cellsWf, Bool.and_eq_true, decide_eq_true_eq]
      exact ⟨⟨h, w.1.2⟩, cellsWf_filter _ m _ w.2⟩
    · exact ih _ w.2

/-- A write keeps the canonical form. -/
theorem cellsWf_cellsWrite (m : List Host.Cell) (a : Nat) (bs : List Byte) (w : cellsWf 0 m = true) :
    cellsWf 0 (cellsWrite m a bs) = true := by
  unfold cellsWrite
  refine cellsWf_append _ _ 0 (a + bs.length) (cellsWf_append _ _ 0 a (cellsWf_filter _ m 0 w) ?_ (cellsWf_cellsOf bs a) (Nat.zero_le _))
    ?_ (cellsWf_filter_ge m 0 _ w) (Nat.zero_le _)
  · intro c hc; simpa using (List.mem_filter.mp hc).2
  · intro c hc
    rcases List.mem_append.mp hc with hc | hc
    · have := (List.mem_filter.mp hc).2; simp at this; omega
    · exact cellsOf_lt bs a c hc

theorem MemOk.locWrite {s : State} (h : MemOk s) (x : Loc) (bs : List Byte) : MemOk (s.locWrite x bs) := by
  cases x <;> simp only [State.locWrite] <;> first | exact h | exact ⟨h.1, cellsWf_cellsWrite _ _ _ h.2⟩ | exact ⟨cellsWf_cellsWrite _ _ _ h.1, h.2⟩

theorem MemOk.physWrite {s : State} (h : MemOk s) (vl : Bool) (a : Nat) (bs : List Byte) : MemOk (s.physWrite vl a bs) := by
  unfold State.physWrite
  generalize linePieces _ a bs = l
  induction l generalizing s with
  | nil => exact h
  | cons p l ih =>
    simp only [List.foldl_cons]
    apply ih
    split
    · exact h.locWrite _ _
    · exact h

/-- A line that takes its place in a slice changes the lines, their floors and the next free value at most (R142, R164). -/
theorem ensureLine_rest (s : State) (d line : Nat) :
    ∃ l f n, s.ensureLine d line = { s with lines := l, floors := f, freeCtr := n } := by
  unfold State.ensureLine
  split
  · exact ⟨_, _, _, rfl⟩
  · dsimp only
    split
    · exact ⟨_, _, _, rfl⟩
    · split
      · exact ⟨_, _, _, rfl⟩
      · split <;> exact ⟨_, _, _, rfl⟩

theorem served_rest (s : State) (x : Loc) (n : Nat) : ∃ l f k, s.served x n = { s with lines := l, floors := f, freeCtr := k } := by
  cases x with
  | hbm d a =>
    obtain ⟨l, f, k, h⟩ := ensureLine_rest s d (Loc.hbm d a).lineNo
    simp only [State.served, h]
    split <;> exact ⟨_, _, _, rfl⟩
  | _ => exact ⟨_, _, _, rfl⟩

theorem MemOk.reset : MemOk State.reset := ⟨rfl, rfl⟩

end Sys2Proof.Machine
end

