-- ==== Sys2Proof/Laws/Lane.lean ====
section
/-! SUPPORT. What the driver of lane instructions can do: the group leaves the lane, its threads pass, results are pending. -/

namespace Sys2Proof.Machine

/-! ### The driver -/

theorem withGroup_eq {s : State} {G : Grp} (h : InLane s G) (f : Grp → State) :
    s.withGroup f = .next { f G with issue := none } := by
  simp only [State.withGroup, h.issue, h.grp]

theorem withGroup_ok {s : State} (h : LaneOk s) (f : Grp → State) (hi : s.issue ≠ none) :
    ∃ t, s.withGroup f = .next t ∧ t.issue = none := by
  unfold State.withGroup
  split
  · contradiction
  · next g hg =>
    have := h g hg
    split
    · simp_all
    · exact ⟨_, rfl, rfl⟩

theorem lane_eq {s : State} {G : Grp} (h : InLane s G) {x : LaneI} {chk : Grp → Option Cause} (hc : G.check x = none)
    (hk : chk G = none) (f : Grp → Nat → Course → Course) :
    s.lane x chk f = .next { s.finish G x ((G.active x).foldl (fun c i => f G i c) G.cs) with issue := none } := by
  simp [State.lane, withGroup_eq h, hc, hk]

theorem lane_trap {s : State} {G : Grp} (h : InLane s G) {x : LaneI} {c : Cause} (hc : G.check x = some c)
    (chk : Grp → Option Cause) (f : Grp → Nat → Course → Course) :
    s.lane x chk f = .next { s.trapNow G c with issue := none } := by
  simp [State.lane, withGroup_eq h, hc]

/-! ### Threads of a course -/

theorem Course.thread_setThread (c : Course) (i j : Nat) (t : Thread) :
    (c.setThread i t).thread j = if i = j ∧ i < c.threads.length then t else c.thread j := by
  simp only [Course.thread, Course.setThread, List.getD_eq_getElem?_getD, List.getElem?_set]
  grind

@[simp] theorem Course.length_setThread (c : Course) (i : Nat) (t : Thread) :
    (c.setThread i t).threads.length = c.threads.length := by simp [Course.setThread]
@[simp] theorem Course.length_modThread (c : Course) (i : Nat) (f : Thread → Thread) :
    (c.modThread i f).threads.length = c.threads.length := by simp [Course.modThread]

theorem Course.thread_modThread (c : Course) (i j : Nat) (f : Thread → Thread) (h : i < c.threads.length) :
    (c.modThread i f).thread j = if j = i then f (c.thread j) else c.thread j := by
  rw [Course.modThread, Course.thread_setThread]; grind

/-- One change for each of some slots. -/
theorem foldMod_thread (f : Nat → Thread → Thread) (l : List Nat) (c : Course) (hn : l.Nodup)
    (hr : ∀ i ∈ l, i < c.threads.length) (j : Nat) :
    (l.foldl (fun c i => c.modThread i (f i)) c).thread j = if j ∈ l then f j (c.thread j) else c.thread j := by
  induction l generalizing c with
  | nil => simp
  | cons a l ih =>
    have hn' := List.nodup_cons.mp hn
    rw [List.foldl_cons, ih _ hn'.2 (fun i hi => by simpa using hr i (by simp [hi])),
      Course.thread_modThread _ _ _ _ (hr a (by simp))]
    grind

theorem foldMod_length (f : Nat → Thread → Thread) (l : List Nat) (c : Course) :
    (l.foldl (fun c i => c.modThread i (f i)) c).threads.length = c.threads.length := by
  induction l generalizing c with
  | nil => rfl
  | cons a l ih => rw [List.foldl_cons, ih]; simp

theorem foldMod_rest (f : Nat → Thread → Thread) (l : List Nat) (c : Course) :
    ∃ ts, l.foldl (fun c i => c.modThread i (f i)) c = { c with threads := ts } := by
  induction l generalizing c with
  | nil => exact ⟨c.threads, rfl⟩
  | cons a l ih =>
    obtain ⟨ts, h⟩ := ih (c.modThread a (f a))
    exact ⟨ts, by rw [List.foldl_cons, h]; rfl⟩

/-- A thread with other pending results and awaited registers. -/
def Thread.withPend (t : Thread) (p : List Pend) (b : List (RegRef × Nat)) : Thread := { t with pend := p, sb := b }

theorem closeLevel_frame (t : Thread) (p : List Pend) (b : List (RegRef × Nat)) :
    (t.withPend p b).closeLevel = t.closeLevel.withPend p b := by
  by_cases h : t.pipelined = true
  · have e : t.closeLevel = _ := if_pos h
    rw [e]; exact if_pos h
  · have e : t.closeLevel = _ := if_neg h
    rw [e]; exact if_neg h

theorem backEdge_frame (k : Nat) (t : Thread) (p : List Pend) (b : List (RegRef × Nat)) :
    Thread.backEdge k (t.withPend p b) = (Thread.backEdge k t).withPend p b := by
  induction k generalizing t with
  | zero => rfl
  | succ k ih =>
    by_cases h1 : t.lopen = 0
    · have e : Thread.backEdge (k + 1) t = _ := if_pos h1
      rw [e]; exact if_pos h1
    · by_cases h2 : t.level.cnt.toNat ≤ 1
      · by_cases h3 : 0 < t.closeLevel.lopen ∧ t.level.lend + 2 = ({ t.closeLevel with pc := t.level.lend + 2 } : Thread).level.lend + 2
        · have e : Thread.backEdge (k + 1) t = _ := (if_neg h1).trans ((if_pos h2).trans (if_pos h3))
          rw [e, ← ih]
          refine (if_neg h1).trans ((if_pos h2).trans ?_)
          rw [closeLevel_frame]
          exact if_pos h3
        · have e : Thread.backEdge (k + 1) t = _ := (if_neg h1).trans ((if_pos h2).trans (if_neg h3))
          rw [e]
          refine (if_neg h1).trans ((if_pos h2).trans ?_)
          rw [closeLevel_frame]
          exact if_neg h3
      · have e : Thread.backEdge (k + 1) t = _ := (if_neg h1).trans (if_neg h2)
        rw [e]; exact (if_neg h1).trans (if_neg h2)

/-- Passing an instruction leaves pending results and awaited registers alone. -/
theorem complete_frame (t : Thread) (n : Nat) (p : List Pend) (b : List (RegRef × Nat)) :
    (t.withPend p b).complete n = (t.complete n).withPend p b := by
  by_cases h : (t.atEnd n) = true
  · have e : t.complete n = _ := if_pos h
    rw [e, ← backEdge_frame]; exact if_pos h
  · have e : t.complete n = _ := if_neg h
    rw [e]; exact if_neg h

/-- The registers of a thread with what is pending for them. -/
def Thread.regs (t : Thread) : Vector Word 32 × BitVec 12 × List Pend × List (RegRef × Nat) := (t.v, t.q, t.pend, t.sb)

theorem closeLevel_regs (t : Thread) : t.closeLevel.regs = t.regs := by unfold Thread.closeLevel; split <;> rfl

theorem backEdge_regs (k : Nat) (t : Thread) : (Thread.backEdge k t).regs = t.regs := by
  induction k generalizing t with
  | zero => rfl
  | succ k ih =>
    rw [Thread.backEdge]
    split
    · rfl
    · dsimp only
      split
      · split
        · rw [ih]; exact closeLevel_regs t
        · exact closeLevel_regs t
      · rfl

/-- Passing an instruction changes no register. -/
theorem complete_regs (t : Thread) (n : Nat) : (t.complete n).regs = t.regs := by
  unfold Thread.complete
  split
  · exact backEdge_regs 4 t
  · rfl

/-- Every thread of the group completes. -/
theorem completeAll_thread (G : Grp) (x : LaneI) (c : Course) (hn : G.g.slots.Nodup) (hr : ∀ i ∈ G.g.slots, i < c.threads.length)
    (j : Nat) : (G.completeAll x c).thread j = if j ∈ G.g.slots then (c.thread j).complete x.len else c.thread j :=
  foldMod_thread (fun _ t => t.complete x.len) _ c hn hr j

theorem completeAll_rest (G : Grp) (x : LaneI) (c : Course) : ∃ ts, G.completeAll x c = { c with threads := ts } :=
  foldMod_rest (fun _ t => t.complete x.len) _ c

@[simp] theorem trimLoop_thread (c : Course) (i : Nat) : c.trimLoop.thread i = c.thread i := by
  rfl

theorem trimLoop_rest (c : Course) : ∃ b r, c.trimLoop = { c with loopBuf := b, recapture := r } := ⟨_, _, rfl⟩

theorem active_sub (G : Grp) (x : LaneI) (hu : x.uni = true → G.lowest ∈ G.g.slots) : ∀ i ∈ G.active x, i ∈ G.g.slots := by
  unfold Grp.active
  intro i hi
  split at hi
  · split at hi
    · simp only [List.mem_singleton] at hi; subst hi; exact hu (by assumption)
    · simp at hi
  · exact (List.mem_filter.mp hi).1

theorem active_nodup (G : Grp) (x : LaneI) (h : G.g.slots.Nodup) : (G.active x).Nodup := by
  unfold Grp.active
  split
  · split <;> simp
  · exact h.filter _

/-- Leaving the lane changes the group's course to the one given, but for its times and a released loop buffer, and nothing
beside it. -/
theorem onlyCourse_leave {s : State} {G : Grp} (o e : Nat) (c : Course) :
    ∃ x y b r, OnlyCourse s { s.leaveLane G.g o e c with issue := none } G
      { c with loopBuf := b, recapture := r, stallUntil := x, stallUntilHi := y } := by
  obtain ⟨b, r, hb⟩ := trimLoop_rest c
  obtain ⟨x, y, hc⟩ := State.course?_leaveLane s G.g o e c
  rw [hb] at hc
  refine ⟨x, y, b, r, ⟨rfl, hc, ?_, ?_, ?_, ?_⟩⟩
  · intro n hn
    simp [State.leaveLane, State.course?, State.setCourse, State.core, State.modCore, State.setCore, hn]
  · simp [State.leaveLane, State.setCourse, State.core, State.modCore, State.setCore]
  · intro k hk
    simp [State.leaveLane, State.setCourse, State.core, State.modCore, State.setCore, hk]
  · rfl

/-! ### Reading registers -/

/-- The value of a register of one thread at a cycle. -/
def Thread.regAt (t : Thread) (r : RegRef) (n : Nat) : Word :=
  match r with
  | .v k => pendRead t.pend (.v k) n (regGet t.v k)
  | .q p => pendRead t.pend (.q p) n (boolWord (qGet t.q p))
  | .c _ => 0

theorem Thread.regAt_congr {t u : Thread} (h : t.regs = u.regs) (r : RegRef) (n : Nat) : t.regAt r n = u.regAt r n := by
  simp only [Thread.regs, Prod.mk.injEq] at h
  cases r <;> simp [Thread.regAt, h]

theorem Course.regAt_thread (c : Course) (i : Nat) (r : RegRef) (n : Nat) (h : ∀ k, r ≠ .c k) :
    c.regAt i r n = (c.thread i).regAt r n := by
  cases r with
  | c k => exact absurd rfl (h k)
  | _ => rfl

theorem pendRead_snoc (ps : List Pend) (p : Pend) (r : RegRef) (n : Nat) (x : Word) :
    pendRead (ps ++ [p]) r n x = if p.dst = r ∧ p.ready ≤ n then p.val else pendRead ps r n x := by
  simp [pendRead, List.foldl_append]

/-- A result of a thread is read from its cycle on; no other register is touched (R25). -/
theorem Thread.regAt_result (t : Thread) (dst : Rd) (hd : ∀ k, dst ≠ .c k) (x : Word) (ready : Nat) (r : RegRef) (n : Nat) :
    (t.result (t.ref dst) x ready).regAt r n =
      if r = t.ref dst ∧ t.takes dst = true ∧ ready ≤ n then x else t.regAt r n := by
  cases dst with
  | c k => exact absurd rfl (hd k)
  | v k =>
    cases r <;> simp [Thread.result, Thread.ref, Thread.regAt, Thread.takes, pendRead_snoc, eq_comm]
  | q p =>
    by_cases hs : t.isStage p = true
    · cases r <;> simp [Thread.result, Thread.ref, Thread.takes, hs]
    · cases r <;> simp [Thread.result, Thread.ref, Thread.regAt, Thread.takes, hs, pendRead_snoc, eq_comm]

theorem Thread.result_withPend (t : Thread) (r : RegRef) (x : Word) (ready : Nat) : ∃ p b, t.result r x ready = t.withPend p b := by
  cases r with
  | q p =>
    by_cases h : t.isStage p = true
    · exact ⟨t.pend, t.sb, by simp [Thread.result, h, Thread.withPend]⟩
    · exact ⟨_, t.sb, by simp [Thread.result, h, Thread.withPend]; rfl⟩
  | _ => exact ⟨_, _, rfl⟩

/-! ### One result -/

/-- What the course is once the results are delivered, for a destination in the threads. -/
theorem deliver_threads {G : Grp} {x : LaneI} (hn : (G.active x).Nodup) (hr : ∀ i ∈ G.active x, i < G.cs.threads.length) (lat : Nat)
    (dst : Rd) (hd : ∀ k, dst ≠ .c k) (val : Nat → Word) :
    ∃ ts, (G.active x).foldl (fun c i => G.deliver x lat dst i (val i) c) G.cs = { G.cs with threads := ts } ∧
      ts.length = G.cs.threads.length ∧
      ∀ j, ({ G.cs with threads := ts } : Course).thread j =
        if j ∈ G.active x then (G.cs.thread j).result ((G.cs.thread j).ref dst) (val j) (G.cyc x j + lat) else G.cs.thread j := by
  let f : Nat → Thread → Thread := fun i t => t.result (t.ref dst) (val i) (G.cyc x i + lat)
  have e : (fun (c : Course) i => G.deliver x lat dst i (val i) c) = fun c i => c.modThread i (f i) := by
    funext c i
    cases dst with
    | c k => exact absurd rfl (hd k)
    | _ => rfl
  rw [e]
  obtain ⟨ts, h⟩ := foldMod_rest f (G.active x) G.cs
  have hl := foldMod_length f (G.active x) G.cs
  rw [h] at hl
  refine ⟨ts, h, hl, fun j => ?_⟩
  rw [← h, foldMod_thread f _ _ hn hr]

/-- AN INSTRUCTION OF ONE RESULT: it completes, every active thread's register takes the value, and nothing else changes. -/
theorem lane_wrote {s : State} {G : Grp} (h : InLane s G) {x : LaneI} (hl : G.g.slots ≠ []) (hc : G.check x = none) (lat : Nat)
    (dst : Rd) (hu : ∀ k, dst = .c k → x.uni = true) {chk : Grp → Option Cause} (hk : chk G = none) (val : Grp → Nat → Word) :
    ∃ t, s.lane x chk (fun G i c => G.deliver x lat dst i (val G i) c) = .next t ∧ Wrote s t G x lat dst (val G) := by
  have hlow : G.lowest ∈ G.g.slots := by
    unfold Grp.lowest
    cases hs : G.g.slots with
    | nil => exact absurd hs hl
    | cons a l => simp
  have hsub := active_sub G x (fun _ => hlow)
  have hnd := active_nodup G x h.nodup
  have hra : ∀ i ∈ G.active x, i < G.cs.threads.length := fun i hi => h.range i (hsub i hi)
  refine ⟨_, lane_eq h hc hk _, ?_⟩
  simp only [State.finish]
  generalize hC : (G.active x).foldl (fun c i => G.deliver x lat dst i (val G i) c) G.cs = C
  by_cases hd : ∃ k, dst = .c k
  · obtain ⟨k, rfl⟩ := hd
    have hact : G.active x = [] ∨ G.active x = [G.lowest] := by
      unfold Grp.active; rw [if_pos (hu k rfl)]; split <;> simp
    obtain ⟨ts, hts⟩ := completeAll_rest G x C
    have hCt : C.threads = G.cs.threads := by
      subst hC; rcases hact with e | e <;> rw [e] <;> rfl
    have hth : ∀ j, (G.completeAll x C).thread j = if j ∈ G.g.slots then (G.cs.thread j).complete x.len else G.cs.thread j := by
      intro j
      have := completeAll_thread G x C h.nodup (by rw [hCt]; exact h.range) j
      simpa [Course.thread, hCt] using this
    obtain ⟨a, b, lb, rc, hoc⟩ := onlyCourse_leave (s := s) (G := G) (if x.uni then 1 else x.per * G.g.slots.length)
      (stallCycles x.h + G.edgeCost x) (G.completeAll x C)
    refine ⟨_, hoc, ⟨?_, ?_, ?_⟩, ?_, ?_⟩
    · intro i hi
      refine ⟨((G.cs.thread i).complete x.len).pend, ((G.cs.thread i).complete x.len).sb, ?_⟩
      exact (hth i).trans (by rw [if_pos hi])
    · intro i hi; exact (hth i).trans (if_neg hi)
    · rw [hts]; subst hC; rcases hact with e | e <;> rw [e] <;> rfl
    · intro j hj i r ⟨hr, _, _⟩ n
      subst hC
      rcases hact with e | e
      · rw [e] at hj; simp at hj
      · rw [e] at hj; simp only [List.mem_singleton] at hj; subst hj
        rw [hts, hr, e]
        simp [Course.regAt, Course.readC, Thread.ref, Grp.deliver, Course.resultC, pendRead_snoc, Grp.start]
        rfl
    · intro i r hr n
      by_cases hrc : ∃ m, r = .c m
      · obtain ⟨m, rfl⟩ := hrc
        subst hC
        rw [hts]
        rcases hact with e | e
        · rw [e]; rfl
        · have := hr G.lowest (by rw [e]; simp)
          have hm : m ≠ k := by
            intro hm; subst hm; exact this ⟨rfl, rfl, .inr ⟨_, rfl⟩⟩
          rw [e]
          simp [Course.regAt, Course.readC, Grp.deliver, Course.resultC, pendRead_snoc, Ne.symm hm]
      · have hrc : ∀ m, r ≠ .c m := fun m e => hrc ⟨m, e⟩
        rw [Course.regAt_thread _ _ _ _ hrc, Course.regAt_thread _ _ _ _ hrc]
        refine Thread.regAt_congr ?_ r n
        refine (congrArg Thread.regs (hth i)).trans ?_
        split
        · exact complete_regs _ _
        · rfl
  · have hd : ∀ k, dst ≠ .c k := fun k e => hd ⟨k, e⟩
    obtain ⟨us, hus, hlen, hthr⟩ := deliver_threads hnd hra lat dst hd (val G)
    rw [hC] at hus
    rw [hus]
    obtain ⟨ts, hts⟩ := completeAll_rest G x { G.cs with threads := us }
    have hth : ∀ j, (G.completeAll x { G.cs with threads := us }).thread j =
        let t := if j ∈ G.active x then (G.cs.thread j).result ((G.cs.thread j).ref dst) (val G j) (G.cyc x j + lat) else G.cs.thread j
        if j ∈ G.g.slots then t.complete x.len else G.cs.thread j := by
      intro j
      rw [completeAll_thread G x _ h.nodup (by intro i hi; simpa [hlen] using h.range i hi) j, hthr]
      by_cases h1 : j ∈ G.g.slots
      · simp [h1]
      · have : j ∉ G.active x := fun e => h1 (hsub j e)
        simp [h1, this]
    obtain ⟨a, b, lb, rc, hoc⟩ := onlyCourse_leave (s := s) (G := G) (if x.uni then 1 else x.per * G.g.slots.length)
      (stallCycles x.h + G.edgeCost x) (G.completeAll x { G.cs with threads := us })
    have hregs : ∀ i, ((G.completeAll x { G.cs with threads := us }).thread i).regs =
        (if i ∈ G.active x then (G.cs.thread i).result ((G.cs.thread i).ref dst) (val G i) (G.cyc x i + lat) else G.cs.thread i).regs := by
      intro i
      rw [hth i]
      by_cases h1 : i ∈ G.g.slots
      · simp only [h1, if_true]; exact complete_regs _ _
      · have : i ∉ G.active x := fun e => h1 (hsub i e)
        simp [h1, this]
    refine ⟨_, hoc, ⟨?_, ?_, ?_⟩, ?_, ?_⟩
    · intro i hi
      by_cases ha : i ∈ G.active x
      · obtain ⟨p, b, hpb⟩ := Thread.result_withPend (G.cs.thread i) ((G.cs.thread i).ref dst) (val G i) (G.cyc x i + lat)
        refine ⟨p, b, (hth i).trans ?_⟩
        simp only [hi, ha, if_true, hpb]
        exact complete_frame _ _ _ _
      · refine ⟨((G.cs.thread i).complete x.len).pend, ((G.cs.thread i).complete x.len).sb, (hth i).trans ?_⟩
        simp [hi, ha]
    · intro i hi; exact (hth i).trans (by simp [hi])
    · rw [hts]; rfl
    · intro j hj i r ⟨hr, htk, hji⟩ n
      have hrc : ∀ m, r ≠ .c m := by
        intro m e; rw [hr] at e
        cases dst with
        | c k => exact hd k rfl
        | v k => simp [Thread.ref] at e
        | q p => simp [Thread.ref] at e
      have hji : j = i := by
        rcases hji with e | ⟨m, e⟩
        · exact e
        · exact absurd e (hrc m)
      subst hji
      rw [Course.regAt_thread _ _ _ _ hrc, Course.regAt_thread _ _ _ _ hrc]
      refine (Thread.regAt_congr (hregs j) r n).trans ?_
      rw [if_pos hj, Thread.regAt_result _ _ hd, hr]
      have hst : G.start x dst j = G.cyc x j := by cases dst with
        | c k => exact absurd rfl (hd k)
        | _ => rfl
      simp [htk, hst]
    · intro i r hr n
      by_cases hrc : ∃ m, r = .c m
      · obtain ⟨m, rfl⟩ := hrc
        rw [hts]; rfl
      · have hrc : ∀ m, r ≠ .c m := fun m e => hrc ⟨m, e⟩
        rw [Course.regAt_thread _ _ _ _ hrc, Course.regAt_thread _ _ _ _ hrc]
        refine (Thread.regAt_congr (hregs i) r n).trans ?_
        split
        · next ha =>
          rw [Thread.regAt_result _ _ hd]
          have := hr i ha
          rw [if_neg]
          rintro ⟨e1, e2, _⟩
          exact this ⟨e1, e2, .inl rfl⟩
        · rfl

/-- The same for the driver of one result (R26). -/
theorem alu_wrote {s : State} {G : Grp} (h : InLane s G) {x : LaneI} (hl : G.g.slots ≠ []) (hc : G.check x = none) (lat : Nat)
    (dst : Rd) (hu : ∀ k, dst = .c k → x.uni = true) (f : (Rd → Word) → Word) :
    ∃ t, s.alu x lat dst f = .next t ∧ Wrote s t G x lat dst (fun i => f (G.read x i)) :=
  lane_wrote h hl hc lat dst hu rfl fun G i => f (G.read x i)

end Sys2Proof.Machine
end

