-- ==== Sys2Proof/Laws/Values.lean ====
section
/-! SUPPORT. Instructions of one result: what completes them, and the values of the plain ones as words. -/

namespace Sys2Proof.Machine

/-- An instruction whose meaning is the driver of one result computes it. -/
theorem computes_alu {i : Instr} {x : LaneI} {lat : Nat} {dst : Rd} {f : (Rd → Word) → Word}
    (h : ∀ s, exec i s = s.alu x lat dst f) (hu : ∀ k, dst = .c k → x.uni = true) : Computes i x lat dst f := by
  intro s G r
  rw [h]
  exact alu_wrote r.lane r.some r.ok lat dst hu f

theorem computes_congr {i : Instr} {x : LaneI} {lat : Nat} {dst : Rd} {f g : (Rd → Word) → Word}
    (h : Computes i x lat dst f) (e : ∀ rd, f rd = g rd) : Computes i x lat dst g := by
  have : f = g := funext e
  exact this ▸ h

theorem src_uni {u : Bool} {r k : Reg} (h : src u r = .c k) : u = true := by
  cases u <;> simp_all [src]

/-! ### The shapes of the formats -/

theorem gives_opR {i : R3 → Instr} {f : Modifier → Word → Word → Word} {g : Word → Word → Word}
    (h : ∀ x s, exec (i x) s = opR 4 x .zero f s) (e : ∀ a b, f .zero a b = g a b) : GivesR i g := fun x =>
  computes_congr (computes_alu (h x) nofun) fun _ => e _ _

theorem gives_opMac {i : R3 → Instr} {f : Modifier → Word → Word → Word → Word} {g : Word → Word → Word → Word}
    (h : ∀ x s, exec (i x) s = opMac 4 x .zero f s) (e : ∀ a b c, f .zero a b c = g a b c) : GivesMac i g := fun x =>
  computes_congr (computes_alu (h x) nofun) fun _ => e _ _ _

theorem gives_opRm {i : R3m → Instr} {f g : Modifier → Word → Word → Word}
    (h : ∀ x s, exec (i x) s = opR 8 x.r x.m f s) (e : ∀ m a b, f m a b = g m a b) : GivesRm i g := fun x =>
  computes_congr (computes_alu (h x) fun _ => src_uni) fun _ => e _ _ _

theorem gives_opMacM {i : R3m → Instr} {f g : Modifier → Word → Word → Word → Word}
    (h : ∀ x s, exec (i x) s = opMac 8 x.r x.m f s) (e : ∀ m a b c, f m a b c = g m a b c) : GivesMacM i g := fun x =>
  computes_congr (computes_alu (h x) fun _ => src_uni) fun _ => e _ _ _ _

theorem gives_both {i : R3 → Instr} {j : R3m → Instr} {f : Modifier → Word → Word → Word} {g : Word → Word → Word}
    (h : ∀ x s, exec (i x) s = opR 4 x .zero f s) (k : ∀ x s, exec (j x) s = opR 8 x.r x.m f s) (e : ∀ m a b, f m a b = g a b) :
    Gives i j g := ⟨gives_opR h (e .zero), gives_opRm k e⟩

theorem gives_ins {i : R3 → Instr} {f : Word → Word → Word → Word} (h : ∀ x s, exec (i x) s = opIns 4 x .zero f s) :
    GivesR i fun a b => f a b 0 := fun x => computes_congr (computes_alu (h x) nofun) fun _ => rfl

theorem gives_insM {i : R3m → Instr} {f : Word → Word → Word → Word} (h : ∀ x s, exec (i x) s = opIns 8 x.r x.m f s) :
    GivesIns i f := fun x =>
  computes_congr (computes_alu (h x) fun _ => src_uni) fun _ => by cases hc : x.m.cp <;> simp [srcA, srcB, srcC, hc]

theorem gives_opU {i : R1 → Instr} {j : R1m → Instr} {f g : Word → Word} (h : ∀ x s, exec (i x) s = opU 4 x .zero f s)
    (k : ∀ x s, exec (j x) s = opU 8 x.r x.m f s) (e : ∀ a, f a = g a) : GivesBoth i j g :=
  ⟨fun x => computes_congr (computes_alu (h x) nofun) fun _ => e _,
    fun x => computes_congr (computes_alu (k x) fun _ => src_uni) fun _ => e _⟩

theorem decides_opCmp {i : R3 → Instr} {f : Modifier → Word → Word → Bool} {g : Word → Word → Bool}
    (h : ∀ x s, exec (i x) s = opCmp 4 x .zero f s) (e : ∀ a b, f .zero a b = g a b) : Decides i g := fun x =>
  computes_congr (computes_alu (h x) nofun) fun _ => congrArg boolWord (e _ _)

theorem decides_opCmpM {i : R3m → Instr} {f g : Modifier → Word → Word → Bool}
    (h : ∀ x s, exec (i x) s = opCmp 8 x.r x.m f s) (e : ∀ m a b, f m a b = g m a b) : DecidesM i g := fun x =>
  computes_congr (computes_alu (h x) nofun) fun _ => congrArg boolWord (e _ _ _)

theorem gives_opF {per lat : Nat} {i : Rf → Instr} {f : Nat → Modifier → Word → Word}
    (h : ∀ x s, exec (i x) s = opF 4 per lat x .zero f s) : GivesF per lat i f := fun x => computes_alu (h x) nofun

theorem gives_opFm {per lat : Nat} {i : Rfm → Instr} {f : Nat → Modifier → Word → Word}
    (h : ∀ x s, exec (i x) s = opF 8 per lat x.r x.m f s) : GivesFm per lat i f := fun x => computes_alu (h x) fun _ => src_uni

theorem gives_opI {i : Im → Instr} {f g : Word → BitVec 6 → Word}
    (h : ∀ x s, exec (i x) s = opI 4 x.h x.a x.d (fun a => f a x.i) s) (e : ∀ a n, f a n = g a n) : GivesI i g := fun x =>
  computes_congr (computes_alu (h x) nofun) fun _ => e _ _

theorem gives_opI64 {i : Im64 → Instr} {f g : Word → BitVec 32 → Word}
    (h : ∀ x s, exec (i x) s = opI 8 x.h x.a x.d (fun a => f a x.i) s) (e : ∀ a n, f a n = g a n) : GivesI64 i g := fun x =>
  computes_congr (computes_alu (h x) nofun) fun _ => e _ _

theorem decides_opIq {i : Im → Instr} {j : Im64 → Instr} {f g : Word → Word → Bool}
    (h : ∀ x s, exec (i x) s = opIq 4 x.h x.a x.d (fun a => f a (imm6 x.i)) s)
    (k : ∀ x s, exec (j x) s = opIq 8 x.h x.a x.d (fun a => f a (imm32 x.i)) s) (e : ∀ a n, f a n = g a n) : DecidesI i j g :=
  ⟨fun x => computes_congr (computes_alu (h x) nofun) fun rd => congrArg boolWord (e (rd (.v x.a)) (imm6 x.i)),
    fun x => computes_congr (computes_alu (k x) nofun) fun rd => congrArg boolWord (e (rd (.v x.a)) (imm32 x.i))⟩

theorem gives_opK {r : Bool} {i : Km → Instr} {f g : BitVec 11 → Word → Word}
    (h : ∀ x s, exec (i x) s = opK 4 x.h x.d r (f x.i) s) (e : ∀ n d, f n d = g n d) : GivesK r i g := fun x =>
  computes_congr (computes_alu (h x) nofun) fun _ => e _ _

theorem gives_opK64 {r : Bool} {i : Km64 → Instr} {f g : BitVec 32 → Word → Word}
    (h : ∀ x s, exec (i x) s = opK 8 x.h x.d r (f x.i) s) (e : ∀ n d, f n d = g n d) : GivesK64 r i g := fun x =>
  computes_congr (computes_alu (h x) nofun) fun _ => e _ _

theorem gives_opC {i : CReg → Instr} {f : Modifier → Word → Word → Word} {g : Word → Word → Word}
    (h : ∀ x s, exec (i x) s = opC x f s) (e : ∀ d a, f .zero d a = g d a) : GivesC i g := fun x =>
  computes_congr (f := fun rd => f .zero (rd (.v x.d)) (rd (src x.u x.a)))
    (computes_alu (fun s => (h x s).trans rfl) nofun) fun _ => e _ _

theorem gives_opE1 {i : Ed → Instr} {j : E64 → Instr} {f : Nat → Word → Word} {g : E64 → (Rd → Word) → Word}
    (h : ∀ x s, exec (i x) s = opE1 4 (extEd x) f s) (k : ∀ x s, exec (j x) s = opE1 8 x f s)
    (e : ∀ x rd, f x.i.toNat (rd (extA x)) = g x rd) : GivesE i j (fun x => [extA x]) g :=
  ⟨fun x => computes_congr (computes_alu (h x) fun _ => src_uni) fun _ => e _ _,
    fun x => computes_congr (computes_alu (k x) fun _ => src_uni) fun _ => e _ _⟩

theorem gives_opE2 {i : Ed → Instr} {j : E64 → Instr} {f : Nat → Word → Word → Word} {g : E64 → (Rd → Word) → Word}
    (h : ∀ x s, exec (i x) s = opE2 4 (extEd x) f s) (k : ∀ x s, exec (j x) s = opE2 8 x f s)
    (e : ∀ x rd, f x.i.toNat (rd (extA x)) (rd (extB x)) = g x rd) : GivesE i j (fun x => [extA x, extB x]) g :=
  ⟨fun x => computes_congr (computes_alu (h x) fun _ => src_uni) fun _ => e _ _,
    fun x => computes_congr (computes_alu (k x) fun _ => src_uni) fun _ => e _ _⟩

theorem decides_opEq {i : D1 → Instr} {j : E64 → Instr} {f : Word → Word → Bool}
    (h : ∀ x s, exec (i x) s = opEq 4 (extD1 x) f s) (k : ∀ x s, exec (j x) s = opEq 8 x f s) :
    DecidesE i j fun x rd => f (rd (extA x)) (rd (extB x)) :=
  ⟨fun x => computes_alu (h x) nofun, fun x => computes_alu (k x) nofun⟩

/-! ### Integers -/

@[simp] theorem readInt_zero (w : Nat) (x : Word) : readInt .bySat w .zero x = asInt w x := rfl

theorem finishInt_zero (w : Nat) (e : Int) : finishInt w .zero e = BitVec.ofNat 64 (e % 2 ^ w).toNat := rfl

theorem ofNat_emod32 (e : Int) : BitVec.ofNat 64 (e % 2 ^ 32).toNat = zext32 (BitVec.ofInt 32 e) := by
  apply BitVec.eq_of_toNat_eq
  simp [zext32, BitVec.toNat_ofInt]

theorem ofNat_emod64 (e : Int) : BitVec.ofNat 64 (e % 2 ^ 64).toNat = BitVec.ofInt 64 e := by
  apply BitVec.eq_of_toNat_eq
  simp [BitVec.toNat_ofInt]
  omega

theorem intVal_zero32 (k : Reading) (f : Int → Int → Int) (a b : Word) :
    intVal k 32 f .zero a b = zext32 (BitVec.ofInt 32 (f (readInt k 32 .zero a) (readInt k 32 .zero b))) := by
  rw [← ofNat_emod32]; rfl

theorem intVal_zero64 (k : Reading) (f : Int → Int → Int) (a b : Word) :
    intVal k 64 f .zero a b = BitVec.ofInt 64 (f (readInt k 64 .zero a) (readInt k 64 .zero b)) := by
  rw [← ofNat_emod64]; rfl

theorem asInt32 (a : Word) : asInt 32 a = (low32 a).toInt := rfl
theorem asInt64 (a : Word) : asInt 64 a = a.toInt := rfl
theorem asNat32 (a : Word) : (asNat 32 a : Int) = (low32 a).toNat := by simp [asNat, low32]
theorem asNat64 (a : Word) : asNat 64 a = a.toNat := Nat.mod_eq_of_lt a.isLt

theorem ofInt_toInt_min (w : Nat) (x y : BitVec w) :
    BitVec.ofInt w (min x.toInt y.toInt) = if x.slt y then x else y := by
  simp only [BitVec.slt, decide_eq_true_eq]
  split <;> rename_i h
  · rw [Int.min_eq_left (by omega), BitVec.ofInt_toInt]
  · rw [Int.min_eq_right (by omega), BitVec.ofInt_toInt]

theorem ofInt_toInt_max (w : Nat) (x y : BitVec w) :
    BitVec.ofInt w (max x.toInt y.toInt) = if x.slt y then y else x := by
  simp only [BitVec.slt, decide_eq_true_eq]
  split <;> rename_i h
  · rw [Int.max_eq_right (by omega), BitVec.ofInt_toInt]
  · rw [Int.max_eq_left (by omega), BitVec.ofInt_toInt]

theorem ofInt_toNat_min (w : Nat) (x y : BitVec w) :
    BitVec.ofInt w (min (x.toNat : Int) y.toNat) = if x.ult y then x else y := by
  simp only [BitVec.ult, decide_eq_true_eq]
  split <;> rename_i h
  · rw [Int.min_eq_left (by omega)]; simp
  · rw [Int.min_eq_right (by omega)]; simp

theorem ofInt_toNat_max (w : Nat) (x y : BitVec w) :
    BitVec.ofInt w (max (x.toNat : Int) y.toNat) = if x.ult y then y else x := by
  simp only [BitVec.ult, decide_eq_true_eq]
  split <;> rename_i h
  · rw [Int.max_eq_right (by omega)]; simp
  · rw [Int.max_eq_left (by omega)]; simp

end Sys2Proof.Machine
end

