-- ==== Sys2Proof/Laws/Moves.lean ====
section
/-! SUPPORT. Instructions that do something to the threads of their group: what is left to show of each, the frame being
shown here once. -/

namespace Sys2Proof.Machine

theorem InLane.resident {s : State} {G : Grp} (h : InLane s G) :
    s.course? G.g.core G.g.course = some G.cs ∧ s.task? G.g.core G.cs.task = some G.tk := by
  have := h.grp
  unfold State.grp? at this
  split at this
  · simp at this
  · next c hc =>
    split at this
    · simp at this
    · next t ht =>
      simp only [Option.some.injEq] at this
      have h1 : c = G.cs := congrArg Grp.cs this
      have h2 : t = G.tk := congrArg Grp.tk this
      subst h1 h2
      exact ⟨hc, ht⟩

theorem InLane.course {s : State} {G : Grp} (h : InLane s G) : s.course? G.g.core G.g.course = some G.cs := h.resident.1

theorem lowest_mem {G : Grp} (h : G.g.slots ≠ []) : G.lowest ∈ G.g.slots := by
  unfold Grp.lowest
  cases hs : G.g.slots with
  | nil => exact absurd hs h
  | cons a l => simp

theorem Runs.sub {s : State} {G : Grp} {x : LaneI} (r : Runs s G x) : ∀ i ∈ G.active x, i ∈ G.g.slots :=
  active_sub G x fun _ => lowest_mem r.some

theorem Runs.exec_lane {s : State} {G : Grp} {x : LaneI} (r : Runs s G x) {chk : Grp → Option Cause} (h : chk G = none)
    (f : Grp → Nat → Course → Course) :
    s.lane x chk f = .next (s.finish G x ((G.active x).foldl (fun c i => f G i c) G.cs)) := by
  rw [lane_eq r.lane r.ok h]; rfl

theorem withGroup_next {s : State} {G : Grp} (h : InLane s G) (f : Grp → State) (hn : (f G).issue = none) :
    s.withGroup f = .next (f G) := by
  rw [withGroup_eq h]
  congr 1
  generalize f G = t at *
  cases t
  simp_all

theorem withGroup_to {s t : State} {G : Grp} (h : InLane s G) {f : Grp → State} (e : f G = t) (hn : t.issue = none) :
    s.withGroup f = .next t := by
  subst e
  exact withGroup_next h f hn

theorem moved_congr {s t : State} {G : Grp} {f g : Nat → Thread → Thread} (h : Moved s t G f)
    (e : ∀ i ∈ G.g.slots, f i (G.cs.thread i) = g i (G.cs.thread i)) : Moved s t G g := by
  obtain ⟨c, a, b, d, k⟩ := h
  exact ⟨c, a, fun i hi => (b i hi).trans (e i hi), d, k⟩

theorem left_leave (s : State) (G : Grp) (o e : Nat) (c : Course) : Left s (s.leaveLane G.g o e c) G c := by
  obtain ⟨x, y, b, r, h⟩ := onlyCourse_leave (s := s) (G := G) o e c
  exact ⟨_, _, _, _, h⟩

/-- A group that leaves the lane with its course's threads as `f` says. -/
theorem moved_leave {s : State} {G : Grp} (o e : Nat) (c : Course) {f : Nat → Thread → Thread}
    (h1 : ∀ i ∈ G.g.slots, c.thread i = f i (G.cs.thread i)) (h2 : ∀ i, i ∉ G.g.slots → c.thread i = G.cs.thread i)
    (h3 : { c with threads := [] } = { G.cs with threads := [] }) : Moved s (s.leaveLane G.g o e c) G f := by
  obtain ⟨x, y, b, r, h⟩ := onlyCourse_leave (s := s) (G := G) o e c
  exact ⟨c, ⟨_, _, _, _, h⟩, h1, h2, h3⟩

theorem foldMod_else (f : Nat → Thread → Thread) (l : List Nat) (c : Course) :
    { l.foldl (fun c i => c.modThread i (f i)) c with threads := [] } = { c with threads := [] } := by
  obtain ⟨ts, h⟩ := foldMod_rest f l c
  rw [h]

/-- The lane's end for an instruction that changes the active threads one by one. -/
theorem moved_finish {s : State} {G : Grp} {x : LaneI} (r : Runs s G x) (g : Nat → Thread → Thread) :
    Moved s (s.finish G x ((G.active x).foldl (fun c i => c.modThread i (g i)) G.cs)) G
      fun i t => (if i ∈ G.active x then g i t else t).complete x.len := by
  have hlen := foldMod_length g (G.active x) G.cs
  have hra : ∀ i ∈ G.active x, i < G.cs.threads.length := fun i hi => r.lane.range i (r.sub i hi)
  have hc := completeAll_thread G x ((G.active x).foldl (fun c i => c.modThread i (g i)) G.cs) r.lane.nodup
    (by intro i hi; rw [hlen]; exact r.lane.range i hi)
  have ht := foldMod_thread g (G.active x) G.cs (active_nodup G x r.lane.nodup) hra
  refine moved_leave _ _ _ (fun i hi => ?_) (fun i hi => ?_) ?_
  · rw [hc, if_pos hi, ht]
  · rw [hc, if_neg hi, ht, if_neg fun e => hi (r.sub i e)]
  · obtain ⟨ts, h⟩ := completeAll_rest G x ((G.active x).foldl (fun c i => c.modThread i (g i)) G.cs)
    rw [h]
    exact foldMod_else g _ _

/-- Threads set one by one. -/
theorem foldSet_thread (ps : List (Nat × Thread)) (c : Course) (hn : (ps.map Prod.fst).Nodup)
    (hr : ∀ p ∈ ps, p.1 < c.threads.length) (j : Nat) :
    (ps.foldl (fun c p => c.setThread p.1 p.2) c).thread j = ((ps.find? fun p => decide (p.1 = j)).map Prod.snd).getD (c.thread j) := by
  induction ps generalizing c with
  | nil => rfl
  | cons a l ih =>
    rw [List.map_cons, List.nodup_cons] at hn
    rw [List.foldl_cons, ih _ hn.2 (fun p hp => by simpa using hr p (by simp [hp])), Course.thread_setThread, List.find?_cons]
    have ha := hr a (by simp)
    by_cases e : a.1 = j
    · subst e
      have : (l.find? fun p => decide (p.1 = a.1)) = none := by
        rw [List.find?_eq_none]
        intro p hp h
        exact hn.1 (List.mem_map.mpr ⟨p, hp, by simpa using h⟩)
      simp [this, ha]
    · simp [e]

theorem foldSet_length (ps : List (Nat × Thread)) (c : Course) :
    (ps.foldl (fun c p => c.setThread p.1 p.2) c).threads.length = c.threads.length := by
  induction ps generalizing c with
  | nil => rfl
  | cons a l ih => rw [List.foldl_cons, ih]; simp

theorem foldSet_rest (ps : List (Nat × Thread)) (c : Course) :
    { ps.foldl (fun c p => c.setThread p.1 p.2) c with threads := [] } = { c with threads := [] } := by
  induction ps generalizing c with
  | nil => rfl
  | cons a l ih => rw [List.foldl_cons, ih]; rfl

/-- The steered threads of a group: `f` where it gives a thread to an active one, completion elsewhere. -/
theorem moved_steered {s : State} {G : Grp} {x : LaneI} (r : Runs s G x) (f : Nat → Thread → Option Thread) :
    Moved s (s.leaveSteered G x f) G fun i t => if i ∈ G.active x then (f i t).getD (t.complete x.len) else t.complete x.len := by
  unfold State.leaveSteered
  extract_lets taken stay c1 c2 far
  have hnd := active_nodup G x r.lane.nodup
  have hfst : taken.map Prod.fst = (G.active x).filter fun i => (f i (G.cs.thread i)).isSome := by
    simp only [taken]
    clear hnd r
    induction G.active x with
    | nil => rfl
    | cons a l ih => rw [List.filterMap_cons]; cases h : f a (G.cs.thread a) <;> simp [h, ih]
  have htn : (taken.map Prod.fst).Nodup := by rw [hfst]; exact hnd.filter _
  have hsub : ∀ p ∈ taken, p.1 ∈ G.active x ∧ f p.1 (G.cs.thread p.1) = some p.2 := by
    intro p hp
    simp only [taken, List.mem_filterMap, Option.map_eq_some_iff] at hp
    obtain ⟨i, hi, t, ht, rfl⟩ := hp
    exact ⟨hi, ht⟩
  have hr : ∀ p ∈ taken, p.1 < G.cs.threads.length := fun p hp => r.lane.range _ (r.sub _ (hsub p hp).1)
  have h1 := foldSet_thread taken G.cs htn hr
  have hlen : c1.threads.length = G.cs.threads.length := foldSet_length _ _
  have hstay : ∀ i, i ∈ stay ↔ i ∈ G.g.slots ∧ ∀ p ∈ taken, p.1 ≠ i := by
    intro i; simp [stay, List.all_eq_true]
  have h2 := foldMod_thread (fun _ t => t.complete x.len) stay c1 (r.lane.nodup.filter _)
    (by intro i hi; rw [hlen]; exact r.lane.range i ((hstay i).mp hi).1)
  have find_none : ∀ i, (∀ p ∈ taken, p.1 ≠ i) → (taken.find? fun p => decide (p.1 = i)) = none := by
    intro i h; rw [List.find?_eq_none]; intro p hp e; exact h p hp (by simpa using e)
  refine moved_leave _ _ _ (fun i hi => ?_) (fun i hi => ?_) ?_
  · rw [h2, h1]
    by_cases hs : i ∈ stay
    · rw [if_pos hs, find_none i ((hstay i).mp hs).2]
      have : i ∈ G.active x → f i (G.cs.thread i) = none := by
        intro ha
        cases h : f i (G.cs.thread i) with
        | none => rfl
        | some t =>
          have : (i, t) ∈ taken := List.mem_filterMap.mpr ⟨i, ha, by simp [h]⟩
          exact absurd rfl (((hstay i).mp hs).2 _ this)
      by_cases ha : i ∈ G.active x
      · simp [ha, this ha]
      · simp [ha]
    · rw [if_neg hs]
      have : ∃ p ∈ taken, p.1 = i := Classical.byContradiction fun h => hs ((hstay i).mpr ⟨hi, fun p hp e => h ⟨p, hp, e⟩⟩)
      obtain ⟨p, hp, rfl⟩ := this
      cases hf : taken.find? fun q => decide (q.1 = p.1) with
      | none => exact absurd (List.find?_eq_none.mp hf p hp) (by simp)
      | some q =>
        have hq := List.find?_some hf
        have hm := hsub q (List.mem_of_find?_eq_some hf)
        have e : q.1 = p.1 := by simpa using hq
        rw [e] at hm
        simp [hm.1, hm.2]
  · rw [h2, h1, if_neg (fun h => hi ((hstay i).mp h).1), find_none i (fun p hp e => hi (e ▸ r.sub _ (hsub p hp).1))]
    rfl
  · exact (foldMod_else _ stay c1).trans (foldSet_rest taken G.cs)

/-! ### What stays -/

/-- Every course but one, memory and the scratchpad pools are as before. -/
structure Stays (s t : State) (k n : Nat) : Prop where
  courses : ∀ j m, j ≠ k ∨ m ≠ n → t.course? j m = s.course? j m
  mem : t.mem = s.mem
  pool : t.pool = s.pool

theorem Stays.rfl {s : State} {k n : Nat} : Stays s s k n := ⟨fun _ _ _ => Eq.refl _, Eq.refl _, Eq.refl _⟩
theorem Stays.trans {s t u : State} {k n : Nat} (a : Stays s t k n) (b : Stays t u k n) : Stays s u k n :=
  ⟨fun j m h => (b.courses j m h).trans (a.courses j m h), b.mem.trans a.mem, b.pool.trans a.pool⟩

theorem stays_setCourse (s : State) (k n : Nat) (c : Course) : Stays s (s.setCourse k n c) k n :=
  ⟨fun j m h => by rw [State.course?_setCourse, if_neg]; rintro ⟨rfl, rfl⟩; simp at h, rfl, rfl⟩

theorem stays_modCourse (s : State) (k n : Nat) (f : Course → Course) : Stays s (s.modCourse k n f) k n := by
  unfold State.modCourse
  split
  · exact stays_setCourse _ _ _ _
  · exact .rfl

theorem course?_modCore (s : State) (k : Nat) (f : Core → Core) (hf : ∀ x, (f x).courses = x.courses) (j m : Nat) :
    (s.modCore k f).course? j m = s.course? j m := by
  simp only [State.course?, State.core_modCore]
  split
  · next h => rw [hf, h]
  · rfl

theorem stays_modCore (s : State) (k n i : Nat) (f : Core → Core) (hf : ∀ x, (f x).courses = x.courses) : Stays s (s.modCore i f) k n :=
  ⟨fun j m _ => course?_modCore s i f hf j m, rfl, rfl⟩

/-- What the leaving group's course is, and all that stays. -/
theorem leaveLane_keeps (s : State) (G : Grp) (o e : Nat) (c : Course) :
    (∃ x y b r, (s.leaveLane G.g o e c).course? G.g.core G.g.course =
      some { c with loopBuf := b, recapture := r, stallUntil := x, stallUntilHi := y }) ∧
      Stays s (s.leaveLane G.g o e c) G.g.core G.g.course := by
  obtain ⟨x, y, b, r, h⟩ := onlyCourse_leave (s := s) (G := G) o e c
  refine ⟨⟨x, y, b, r, h.course⟩, ⟨fun j m hj => ?_, rfl, rfl⟩⟩
  by_cases hk : j = G.g.core
  · subst hk; exact h.courses m (by simpa using hj)
  · have := h.cores j hk
    unfold State.course?
    exact congrArg (fun x : Core => x.courses.find m) this

/-- A group has run when its course ends so and the rest stays. -/
theorem ran_of {s t : State} {G : Grp} {R : Nat → Thread → Thread → Prop} (h : t.issue = none) (k : Stays s t G.g.core G.g.course)
    {c : Course} (hc : t.course? G.g.core G.g.course = some c) (h1 : ∀ i ∈ G.g.slots, R i (G.cs.thread i) (c.thread i))
    (h2 : ∀ i, i ∉ G.g.slots → c.thread i = G.cs.thread i) (h3 : c.c = G.cs.c ∧ c.cpend = G.cs.cpend) : Ran s t G R :=
  ⟨h, ⟨c, hc, h1, h2, h3.1, h3.2⟩, k.courses, k.mem, k.pool⟩

/-- Active threads changed one by one, the others of the group completing. -/
theorem split_threads {s : State} {G : Grp} {x : LaneI} (r : Runs s G x) (act : List Nat) (hs : ∀ i ∈ act, i ∈ G.g.slots)
    (hn : act.Nodup) (f : Nat → Thread → Thread) (len : Nat) :
    let c := act.foldl (fun c i => c.modThread i (f i))
      ((G.g.slots.filter fun i => !act.contains i).foldl (fun c i => c.modThread i fun t => t.complete len) G.cs)
    (∀ i, c.thread i = if i ∈ act then f i (G.cs.thread i) else if i ∈ G.g.slots then (G.cs.thread i).complete len else G.cs.thread i) ∧
      c.threads.length = G.cs.threads.length ∧ { c with threads := [] } = { G.cs with threads := [] } := by
  intro c
  have h0 := foldMod_thread (fun _ t => t.complete len) (G.g.slots.filter fun i => !act.contains i) G.cs (r.lane.nodup.filter _)
    fun i hi => r.lane.range i (List.mem_filter.mp hi).1
  have hl := foldMod_length (fun _ t => t.complete len) (G.g.slots.filter fun i => !act.contains i) G.cs
  have h1 := foldMod_thread f act _ hn (fun i hi => by rw [hl]; exact r.lane.range i (hs i hi))
  refine ⟨fun i => ?_, (foldMod_length _ _ _).trans hl, (foldMod_else _ _ _).trans (foldMod_else _ _ _)⟩
  rw [h1, h0]
  by_cases ha : i ∈ act
  · simp [ha]
  · simp [ha]

/-! ### Shapes -/

theorem set_self (l : List Thread) (a : Nat) (d : Thread) : l.set a (l.getD a d) = l := by
  apply List.ext_getElem?
  intro j
  rw [List.getElem?_set, List.getD_eq_getElem?_getD]
  split
  · next e => subst e; split
              · next h => simp [List.getElem?_eq_getElem h]
              · next h => simp [List.getElem?_eq_none (Nat.le_of_not_lt h)]
  · rfl

theorem modThread_id (c : Course) (i : Nat) : c.modThread i (fun t => t) = c := by
  unfold Course.modThread Course.setThread
  rw [show c.thread i = c.threads.getD i {} from rfl, set_self]

theorem foldl_const {α β} (l : List α) (b : β) : l.foldl (fun c _ => c) b = b := by induction l <;> simp_all

theorem movedAs_leave {s : State} {G : Grp} (o e : Nat) (c d : Course) {f : Nat → Thread → Thread}
    (h1 : ∀ i ∈ G.g.slots, c.thread i = f i (G.cs.thread i)) (h2 : ∀ i, i ∉ G.g.slots → c.thread i = G.cs.thread i)
    (h3 : { c with threads := [] } = { d with threads := [] }) : MovedAs s (s.leaveLane G.g o e c) G d f := by
  obtain ⟨x, y, b, r, h⟩ := onlyCourse_leave (s := s) (G := G) o e c
  exact ⟨c, ⟨_, _, _, _, h⟩, h1, h2, h3⟩

/-- A group that passes over a state `u`, with the active threads changed by `g` and the rest of its course that of `d`. -/
theorem movedAs_finish {s u : State} {G : Grp} {x : LaneI} (r : Runs s G x) (d : Course) (hd : d.threads = G.cs.threads) (g : Nat → Thread → Thread) :
    MovedAs u (u.finish G x ((G.active x).foldl (fun c i => c.modThread i (g i)) d)) G d
      fun i t => (if i ∈ G.active x then g i t else t).complete x.len := by
  have hlen := foldMod_length g (G.active x) d
  have hra : ∀ i ∈ G.active x, i < d.threads.length := fun i hi => by rw [hd]; exact r.lane.range i (r.sub i hi)
  have ht : ∀ i, d.thread i = G.cs.thread i := fun i => by simp [Course.thread, hd]
  have h1 := foldMod_thread g (G.active x) d (active_nodup G x r.lane.nodup) hra
  have h2 := completeAll_thread G x ((G.active x).foldl (fun c i => c.modThread i (g i)) d) r.lane.nodup (by rw [hlen, hd]; exact r.lane.range)
  refine movedAs_leave _ _ _ _ (fun i hi => ?_) (fun i hi => ?_) ?_
  · rw [h2, if_pos hi, h1, ht]
  · rw [h2, if_neg hi, h1, if_neg (fun h => hi (r.sub i h)), ht]
  · obtain ⟨ts, h⟩ := completeAll_rest G x ((G.active x).foldl (fun c i => c.modThread i (g i)) d)
    rw [h]
    exact foldMod_else g _ d

theorem movedAs_pass {s u : State} {G : Grp} {x : LaneI} (r : Runs s G x) (d : Course) (hd : d.threads = G.cs.threads) :
    MovedAs u (u.finish G x d) G d fun _ t => t.complete x.len := by
  have := movedAs_finish (u := u) r d hd (fun _ t => t)
  have e : ((G.active x).foldl (fun c i => c.modThread i (fun t => t)) d) = d := by
    generalize G.active x = l
    induction l with
    | nil => rfl
    | cons a l ih => rw [List.foldl_cons, modThread_id, ih]
  rw [e] at this
  simpa using this

/-- A group whose threads `slots` wait and whose others pass. -/
theorem moved_hold {s u : State} {G : Grp} {x : LaneI} (r : Runs s G x) (w : Nat → Thread → Thread) (o e : Nat) :
    Moved u (u.leaveLane G.g o e ((G.active x).foldl (fun c i => c.modThread i (w i))
      ((G.g.slots.filter fun i => !(G.active x).contains i).foldl (fun c i => c.modThread i fun t => t.complete x.len) G.cs))) G
      fun i t => if i ∈ G.active x then w i t else t.complete x.len := by
  obtain ⟨h1, h2, h3⟩ := split_threads r (G.active x) r.sub (active_nodup G x r.lane.nodup) w x.len
  exact movedAs_leave _ _ _ _ (fun i hi => (h1 i).trans (by simp [hi])) (fun i hi => (h1 i).trans (by rw [if_neg (fun h => hi (r.sub i h)), if_neg hi])) h3

theorem moves_none {i : Instr} {x : LaneI} (h : ∀ s, exec i s = s.lane x noCheck fun _ _ c => c) :
    Moves i x (fun _ _ => True) fun _ _ _ t => t.complete x.len := by
  intro s G r _
  refine ⟨_, (h s).trans (r.exec_lane rfl _), ?_⟩
  have := moved_finish r (fun _ t => t)
  have e : ((G.active x).foldl (fun c i => c.modThread i (fun t => t)) G.cs) = G.cs := by
    generalize G.active x = l
    induction l with
    | nil => rfl
    | cons a l ih =>
      rw [List.foldl_cons]
      rw [modThread_id, ih]
  rw [e] at this
  rw [foldl_const]
  simpa using this

theorem moves_lane {i : Instr} {x : LaneI} {ok : State → Grp → Prop} {chk : State → Grp → Option Cause} {g : State → Grp → Nat → Thread → Thread}
    (h : ∀ s, exec i s = s.lane x (chk s) fun G i c => c.modThread i (g s G i)) (hk : ∀ s G, ok s G → chk s G = none) :
    Moves i x ok fun s G i t => (if i ∈ G.active x then g s G i t else t).complete x.len := by
  intro s G r o
  exact ⟨_, (h s).trans (r.exec_lane (hk s G o) _), moved_finish r (g s G)⟩

theorem alters {i : Instr} {x : LaneI} {ok : State → Grp → Prop} {f : State → Grp → Nat → Course → Course} {chk : State → Grp → Option Cause}
    (h : ∀ s, exec i s = s.lane x (chk s) (f s)) (hk : ∀ s G, ok s G → chk s G = none) : Alters i x ok f := by
  intro s G r o
  exact ⟨_, (h s).trans (r.exec_lane (hk s G o) _), left_leave _ _ _ _ _⟩

/-- A group whose course kept its threads passes, over whatever else its instruction did. -/
theorem passed_finish {s u : State} {G : Grp} {x : LaneI} (r : Runs s G x) {c : Course} (h : u.course? G.g.core G.g.course = some c) (ht : c.threads = G.cs.threads) :
    Passed u (u.finish G x ((u.course? G.g.core G.g.course).getD G.cs)) G x.len := by
  refine ⟨c, h, ?_⟩
  rw [h]
  have := completeAll_thread G x c r.lane.nodup (by rw [ht]; exact r.lane.range)
  refine moved_leave (G := { G with cs := c }) _ _ _ (fun i hi => ?_) (fun i hi => ?_) ?_
  · exact (this i).trans (if_pos hi)
  · exact (this i).trans (if_neg hi)
  · obtain ⟨ts, h⟩ := completeAll_rest G x c
    show { G.completeAll x c with threads := [] } = _
    rw [h]

theorem task?_leaveLane (s : State) (g : Issue) (o e : Nat) (c : Course) (j m : Nat) : (s.leaveLane g o e c).task? j m = s.task? j m := by
  have : ∀ (u : State), (u.modCore g.core fun x => { x with laneFree := x.laneFree.set (laneOf g.core g.course) (max (x.laneFree.get (laneOf g.core g.course) 0) (g.t + o)) }).task? j m = u.task? j m := by
    intro u; simp only [State.task?, State.core_modCore]; split
    · next h => subst h; rfl
    · rfl
  unfold State.leaveLane
  extract_lets hi c1 c2 s1 s2
  exact (this s1).trans (State.task?_setCourse _ _ _ _ _ _)

theorem stays_setTask (s : State) (k n j m : Nat) (t : Task) : Stays s (s.setTask j m t) k n :=
  ⟨fun _ _ _ => by simp, rfl, rfl⟩

/-- A group that passes with its task changed. -/
theorem ran_finishTask {s : State} {G : Grp} {x : LaneI} (r : Runs s G x) (tk : Task) :
    Ran s (s.finishTask G x tk) G (fun _ a b => b = a.complete x.len) ∧ (s.finishTask G x tk).task? G.g.core G.cs.task = some tk ∧
      ∀ k n, k ≠ G.g.core ∨ n ≠ G.cs.task → (s.finishTask G x tk).task? k n = s.task? k n := by
  have hth := completeAll_thread G x G.cs r.lane.nodup r.lane.range
  obtain ⟨ts, hc⟩ := completeAll_rest G x G.cs
  obtain ⟨⟨a, b, lb, rc, hu⟩, ku⟩ := leaveLane_keeps (s.setTask G.g.core G.cs.task tk) G (if x.uni then 1 else x.per * G.g.slots.length) (stallCycles x.h + G.edgeCost x) (G.completeAll x G.cs)
  refine ⟨ran_of rfl ((stays_setTask s _ _ _ _ _).trans ku) hu (fun i hi => (hth i).trans (if_pos hi)) (fun i hi => (hth i).trans (if_neg hi)) (by dsimp only; rw [hc]; exact ⟨rfl, rfl⟩), ?_, fun k n h => ?_⟩
  · exact (task?_leaveLane _ _ _ _ _ _ _).trans (State.task?_setTask_self _ _ _ _)
  · refine (task?_leaveLane _ _ _ _ _ _ _).trans ((State.task?_setTask _ _ _ _ _ _).trans (if_neg (by rintro ⟨rfl, rfl⟩; simp at h)))

theorem delivers {i : Instr} {x : LaneI} {lat : Nat} {dst : Rd} {ok : State → Grp → Prop} {val : State → Grp → Nat → Word} {chk : State → Grp → Option Cause}
    (h : ∀ s, exec i s = s.lane x (chk s) fun G i c => G.deliver x lat dst i (val s G i) c) (hk : ∀ s G, ok s G → chk s G = none) (hu : ∀ k, dst = .c k → x.uni = true) : Delivers i x lat dst ok val := by
  intro s G r o
  rw [h]
  exact lane_wrote r.lane r.some r.ok lat dst hu (hk s G o) (val s)

theorem delivers_congr {i : Instr} {x : LaneI} {lat : Nat} {dst : Rd} {ok ok' : State → Grp → Prop} {val val' : State → Grp → Nat → Word}
    (h : Delivers i x lat dst ok val) (e : ∀ s G, ok' s G → val s G = val' s G) (k : ∀ s G, ok' s G → ok s G): Delivers i x lat dst ok' val' := by
  intro s G r o
  rw [← e s G o]; exact h s G r (k s G o)

end Sys2Proof.Machine
end

