-- ==== Sys2Proof/Laws/Step.lean ====
section
/-! SUPPORT. What a step can do to the lane: a group in it leaves with its instruction, and only a selection puts one there. -/

namespace Sys2Proof.Machine

/-! ### Fetching leaves the group in its lane -/

/-- The lane is as it was, and every course that was resident with its task still is. -/
def Keeps (s t : State) : Prop := t.issue = s.issue ∧ ∀ g, (s.grp? g).isSome = true → (t.grp? g).isSome = true

theorem Keeps.rfl {s : State} : Keeps s s := ⟨Eq.refl _, fun _ h => h⟩
theorem Keeps.trans {s t u : State} (h : Keeps s t) (k : Keeps t u) : Keeps s u := ⟨k.1.trans h.1, fun g x => k.2 g (h.2 g x)⟩

theorem Keeps.laneOk {s t : State} (k : Keeps s t) (h : LaneOk s) : LaneOk t := fun g hg => k.2 g (h g (k.1 ▸ hg))

theorem grp?_isSome (s : State) (g : Issue) :
    (s.grp? g).isSome = ((s.course? g.core g.course).any fun c => (s.task? g.core c.task).isSome) := by
  unfold State.grp?
  split
  · simp_all
  · split <;> simp_all

/-- A change of a core that keeps its courses and tasks keeps the lane. -/
theorem keeps_modCore (s : State) (k : Nat) (f : Core → Core) (hc : ∀ x, (f x).courses = x.courses) (ht : ∀ x, (f x).tasks = x.tasks) :
    Keeps s (s.modCore k f) := by
  refine ⟨rfl, fun g h => ?_⟩
  rw [grp?_isSome] at h ⊢
  simp only [State.course?, State.task?, State.core_modCore] at h ⊢
  grind

/-- A change of a course that keeps its task keeps the lane. -/
theorem keeps_modCourse (s : State) (k n : Nat) (f : Course → Course) (hf : ∀ c, (f c).task = c.task) : Keeps s (s.modCourse k n f) := by
  unfold State.modCourse
  split
  · next c hc =>
    refine ⟨rfl, fun g h => ?_⟩
    rw [grp?_isSome] at h ⊢
    simp only [State.course?_setCourse, State.task?_setCourse] at h ⊢
    by_cases e : g.core = k ∧ g.course = n
    · rw [e.1, e.2] at h ⊢
      simp_all
    · rw [if_neg e]; exact h
  · exact .rfl

theorem keeps_served (s : State) (x : Loc) (n : Nat) : Keeps s (s.served x n) := by
  obtain ⟨_, _, _, h⟩ := served_rest s x n
  rw [h]
  exact ⟨Eq.refl _, fun _ h => h⟩

theorem keeps_codeLine (s : State) (g : Issue) (va : Nat) (x : Loc) : Keeps s (s.codeLine g va x).2 := by
  have hf : ∀ u : State, Keeps u (State.codeLine.fromCache g va x u).2 := by
    intro u
    refine Keeps.trans (t := if (u.core g.core).icache.any (fun l => decide (l.1 = lineKey x)) then u else u.served x.line16 16) ?_
      (Keeps.trans (keeps_modCore _ _ _ (fun y => ?_) (fun y => ?_)) (keeps_modCourse _ _ _ _ fun c => Eq.refl _))
    · split
      · exact .rfl
      · exact keeps_served _ _ _
    all_goals split <;> rfl
  unfold State.codeLine
  split
  · split
    · exact .rfl
    · exact hf s
  · exact hf s

theorem keeps_makeRoom {α : Type} (s : State) (l : List α) (n : Nat) : Keeps s (s.makeRoom l n).2 := by
  unfold State.makeRoom
  split
  · exact .rfl
  · exact ⟨Eq.refl _, fun _ h => h⟩

theorem keeps_fillL1 (s : State) (k : Nat) (e : TlbEntry) : Keeps s (s.fillL1 k e) := by
  unfold State.fillL1
  split
  · exact .rfl
  · have h := keeps_makeRoom s ((s.core k).tlb.filter fun x => !x.samePage e) 64
    generalize s.makeRoom ((s.core k).tlb.filter fun x => !x.samePage e) 64 = r at h ⊢
    exact h.trans (keeps_modCore r.2 k (fun c => { c with tlb := r.1 ++ [e] }) (fun _ => Eq.refl _) fun _ => Eq.refl _)

/-- A fetch that does not wait keeps the lane. -/
theorem keeps_fetchParcel (s : State) (g : Issue) (ctx : Nat) (sup : Bool) (va : Word)
    (h : (s.fetchParcel g ctx sup va).1 ≠ .wait) : Keeps s (s.fetchParcel g ctx sup va).2 := by
  unfold State.fetchParcel at h ⊢
  split
  · exact .rfl
  · split
    · simp_all
    · next e he =>
      split
      · exact .rfl
      · split
        · simp_all
        · dsimp only
          have k1 := keeps_fillL1 s g.core e
          split
          · exact k1
          · split
            · simp_all
            · split
              · exact k1
              · exact k1.trans (keeps_codeLine _ _ _ _)
          · split
            · exact k1
            · split
              · exact k1
              · simp_all

theorem keeps_parcelFor (s : State) (g : Issue) (ctx : Nat) (c : Course) (va : Word)
    (h : (s.parcelFor g ctx c va).1 ≠ .wait) : Keeps s (s.parcelFor g ctx c va).2 := by
  unfold State.parcelFor at h ⊢
  split
  · exact .rfl
  · next k hk =>
    have h1 := keeps_fetchParcel s g ctx (c.thread (g.slots.headD 0)).sup va
    rw [hk] at h
    dsimp only at h
    split
    · next y s' hy =>
      rw [hy] at h1
      exact (h1 (by simp)).trans (keeps_modCourse _ _ _ _ fun _ => Eq.refl _)
    · next hy =>
      split at h
      · next hz => exact absurd hz (hy _ _)
      · exact h1 h
  · next hk =>
    rw [hk] at h
    exact keeps_fetchParcel _ _ _ _ _ h

theorem keeps_fetchFrom (s : State) (g : Issue) (ctx : Nat) (c : Course) (n : Nat) (va : Word)
    (h : (s.fetchFrom g ctx c n va).1 ≠ .wait) : Keeps s (s.fetchFrom g ctx c n va).2 := by
  induction n generalizing s va with
  | zero => exact .rfl
  | succ n ih =>
    have k1 := keeps_parcelFor s g ctx c va
    rw [State.fetchFrom] at h ⊢
    rcases hr : s.parcelFor g ctx c va with ⟨_ | _ | _, r⟩ <;> rw [hr] at h k1 <;> dsimp only at h k1 ⊢
    · have k2 := ih r (va + 2)
      rcases hy : r.fetchFrom g ctx c n (va + 2) with ⟨_ | _ | _, y⟩ <;> rw [hy] at h k2 <;> dsimp only at h k2 ⊢
      · exact (k1 (by simp)).trans (k2 (by simp))
      · exact (k1 (by simp)).trans (k2 (by simp))
      · exact absurd rfl h
    · exact k1 h
    · exact absurd rfl h

theorem keeps_captureFrom (s : State) (g : Issue) (ctx : Nat) (sup : Bool) (n : Nat) (va : Word) :
    Keeps s (s.captureFrom g ctx sup n va).2 := by
  induction n generalizing s va with
  | zero => exact .rfl
  | succ n ih =>
    have h1 := keeps_fetchParcel s g ctx sup va
    rw [State.captureFrom]
    split
    · next y s' hy =>
      rw [hy] at h1
      exact (h1 (by simp)).trans (ih _ _)
    · exact ih _ _

theorem keeps_captureNow (s : State) (g : Issue) (ctx : Nat) : Keeps s (s.captureNow g ctx) := by
  unfold State.captureNow
  split
  · exact .rfl
  · split
    · exact .rfl
    · exact (keeps_captureFrom _ _ _ _ _ _).trans (keeps_modCourse _ _ _ _ fun _ => Eq.refl _)

theorem keeps_fetch (s : State) (g : Issue) (h : (s.fetch g).1 ≠ .wait) : Keeps s (s.fetch g).2 := by
  unfold State.fetch at h ⊢
  split
  · exact .rfl
  · next G hG =>
    rw [hG] at h
    dsimp only at h
    split
    · exact .rfl
    · next hp =>
      rw [if_neg hp] at h
      have k0 := keeps_captureNow s g G.tk.ctx
      generalize s.captureNow g G.tk.ctx = u at h k0 ⊢
      have k1 := keeps_fetchFrom u g G.tk.ctx ((u.course? g.core g.course).getD G.cs) 1 g.pc
      rcases hy : u.fetchFrom g G.tk.ctx ((u.course? g.core g.course).getD G.cs) 1 g.pc with ⟨_ | _ | _, y⟩ <;> rw [hy] at h k1 <;>
        simp only [hy] at h k1 ⊢
      · exact k0.trans ((k1 (by simp)).trans (keeps_fetchFrom _ _ _ _ _ _ h))
      · exact k0.trans (k1 h)
      · exact absurd rfl h

/-! ### Every arm answers a next state -/

/-- The outcome is a next state; if no group was in a lane, the one that may be there now is resident. -/
def Goes (s : State) (o : Outcome) : Prop := ∃ t, o = .next t ∧ (s.issue = none → LaneOk t)

theorem laneOk_of_none {s : State} (h : s.issue = none) : LaneOk s := fun g hg => by simp [h] at hg

theorem goes_withGroup {s : State} (h : LaneOk s) (f : Grp → State) : Goes s (s.withGroup f) := by
  cases hi : s.issue with
  | none => exact ⟨s, by simp [State.withGroup, hi], fun _ => h⟩
  | some g =>
    obtain ⟨t, ht, hn⟩ := withGroup_ok h f (by simp [hi])
    exact ⟨t, ht, fun _ => laneOk_of_none hn⟩

theorem goes_beside {s : State} (f : State → State) : Goes s (s.beside f) := ⟨_, rfl, fun h => laneOk_of_none h⟩

theorem goes_next {s t : State} (h : s.issue = none → LaneOk t) : Goes s (.next t) := ⟨t, rfl, h⟩

theorem goes_entryJump (s : State) : Goes s (execCodeTableEntryJump s) := by
  refine goes_next fun h => laneOk_of_none ?_
  split
  · simp [State.entryJump, State.entryGroup, h]
  · exact h

/-- A group that takes the trap of its fetch goes on. -/
theorem goes_fetchTrapped {s : State} (h : LaneOk s) (g : Issue) (c : Cause) : Goes s (s.fetchTrapped g c) := by
  obtain ⟨t, ht, _⟩ := goes_withGroup h fun G => s.trapNow G c
  refine ⟨{ ((s.fetchBad g c).elim t fun w => t.errorEvent w 1 (s.groupTask g)) with issue := none }, ?_, fun _ => laneOk_of_none rfl⟩
  unfold State.fetchTrapped
  rw [ht]

theorem goes_lcfg {s : State} (h : LaneOk s) (x : Lc) : Goes s (execLcfg x s) := by
  unfold execLcfg
  split
  · next hi => exact goes_next fun _ => laneOk_of_none hi
  · next g hg =>
    have k := keeps_fetch s { g with pc := g.pc + 4 }
    have goes : ∀ s' o, Goes s' o → Goes s o := fun _ _ ⟨t, ht, _⟩ => ⟨t, ht, fun hn => by simp [hg] at hn⟩
    dsimp only
    rcases hf : s.fetch { g with pc := g.pc + 4 } with ⟨b | c | _, s'⟩ <;> rw [hf] at k <;> dsimp only at k ⊢
    · have hk := k (by simp)
      have hl := hk.laneOk h
      refine goes s' _ ?_
      split
      · split <;> exact goes_withGroup hl _
      · split <;> exact goes_withGroup hl _
      · exact goes_withGroup hl _
    · have hk := k (by simp)
      exact goes s' _ (goes_fetchTrapped (hk.laneOk h) _ _)
    · exact goes_next fun hn => by simp [hg] at hn

/-! ### Selection -/

theorem foldl_task {α : Type} (f : Course → α → Course) (hf : ∀ c a, (f c a).task = c.task) (l : List α) (c : Course) :
    (l.foldl f c).task = c.task := by
  induction l generalizing c with
  | nil => rfl
  | cons a l ih => rw [List.foldl_cons, ih, hf]

theorem find_map_snd {α : Type} (f : Nat × α → Nat × α) (hf : ∀ p, (f p).1 = p.1) (t : Tab α) (n : Nat) :
    Tab.find (t.map f) n = (Tab.find t n).map fun a => (f (n, a)).2 := by
  induction t with
  | nil => rfl
  | cons p t ih =>
    obtain ⟨j, a⟩ := p
    have h1 := hf (j, a)
    simp only [List.map_cons]
    rcases hp : f (j, a) with ⟨j', b⟩
    rw [hp] at h1
    simp only at h1
    subst h1
    simp only [Tab.find]
    split
    · next e => subst e; simp [hp]
    · exact ih

/-- A course set, then a change of every course of the core that keeps tasks: the set course is resident with its task. -/
theorem some_setCourse_map (s : State) (core n : Nat) (c : Course) (f : Nat × Course → Nat × Course) (hf : ∀ p, (f p).1 = p.1)
    (ht : ∀ p, (f p).2.task = p.2.task) (g : Issue) (hg : g.core = core ∧ g.course = n) (hk : (s.task? core c.task).isSome = true) :
    (((s.setCourse core n c).modCore core fun k => { k with courses := k.courses.map f }).grp? g).isSome = true := by
  rw [grp?_isSome]
  simp only [State.course?, State.task?, State.core_modCore, hg.1, hg.2, if_true]
  rw [find_map_snd f hf]
  simp only [State.setCourse, State.core_modCore, if_true, Tab.find_set, Option.map_some, Option.any_some, ht]
  exact hk

theorem laneOk_form (s : State) (core lane : Nat) (p : Cand) : LaneOk (s.form core lane p) := by
  unfold State.form
  split
  · next c tk hc ht =>
    dsimp only
    split
    · exact laneOk_of_none rfl
    intro g hg
    simp only [Option.some.injEq] at hg
    subst hg
    rw [hc] at ht
    simp only [Option.bind_some] at ht
    refine some_setCourse_map s core p.course _ _ ?_ ?_ _ ⟨rfl, rfl⟩ ?_
    · intro q; split <;> rfl
    · intro q; split <;> rfl
    · have e : ∀ (c0 : Course), c0.task = c.task → (s.task? core c0.task).isSome = true := fun c0 e => by rw [e, ht]; rfl
      apply e
      let age := fun (c0 : Course) (i : Nat) =>
        c0.modThread i fun t => { t with age := if (groupOf c p.slots).contains i then 0 else min (t.age + 1) 65535 }
      have := foldl_task age (fun _ _ => rfl) p.slots c
      split <;> split <;> exact this
  · exact laneOk_of_none rfl

theorem laneOk_reissue (s : State) (g : Issue) : LaneOk (s.reissue g) := by
  unfold State.reissue
  split
  · next G hG =>
    intro g' hg
    simp only [Option.some.injEq] at hg
    subst hg
    have := hG
    unfold State.grp? at this
    split at this
    · simp at this
    · next c hc =>
      split at this
      · simp at this
      · next tk ht =>
        simp only [Option.some.injEq] at this
        subst this
        rw [grp?_isSome]
        show (((s.setCourse g.core g.course { c with again := none }).course? g.core g.course).any fun d =>
          ((s.setCourse g.core g.course { c with again := none }).task? g.core d.task).isSome) = true
        simp [ht]
  · exact laneOk_of_none rfl

theorem laneOk_select (s : State) (core lane : Nat) (err : SoftErr) (h : s.issue = none) : LaneOk (s.select core lane err) := by
  unfold State.select
  split
  · exact laneOk_of_none h
  split
  · exact laneOk_reissue _ _
  split
  · exact laneOk_of_none h
  · dsimp only
    split
    · exact laneOk_of_none rfl
    · split
      · exact laneOk_of_none rfl
      · split
        · exact laneOk_of_none rfl
        · exact laneOk_form _ _ _ _

/-! ### Every instruction -/

theorem goes_exec {s : State} (h : LaneOk s) (i : Instr) : Goes s (exec i s) := by
  cases i with
  | issueGroupSelection _ _ _ => exact goes_next fun hn => laneOk_select s _ _ _ hn
  | fixedLatencyResult _ _ => exact ⟨_, rfl, fun h => laneOk_of_none h⟩
  | convergenceRelease _ _ => exact ⟨_, rfl, fun h => laneOk_of_none h⟩
  | barrierCompletion _ _ _ _ => exact ⟨_, rfl, fun h => laneOk_of_none h⟩
  | barrierTimeout _ _ _ _ => exact ⟨_, rfl, fun h => laneOk_of_none h⟩
  | convergenceTimeout _ _ => exact ⟨_, rfl, fun h => laneOk_of_none h⟩
  | yieldExpiry _ _ => exact ⟨_, rfl, fun h => laneOk_of_none h⟩
  | courseWake _ _ => exact ⟨_, rfl, fun h => laneOk_of_none h⟩
  | trapDelivery _ _ => exact ⟨_, rfl, fun h => laneOk_of_none h⟩
  | taskDispatch _ _ => exact ⟨_, rfl, fun h => laneOk_of_none h⟩
  | dispatchReservation _ _ => exact ⟨_, rfl, fun h => laneOk_of_none h⟩
  | stealRequest _ => exact ⟨_, rfl, fun h => laneOk_of_none h⟩
  | stealShipment _ => exact ⟨_, rfl, fun h => laneOk_of_none h⟩
  | shipmentArrival _ => exact ⟨_, rfl, fun h => laneOk_of_none h⟩
  | taskEnd _ _ => exact ⟨_, rfl, fun h => laneOk_of_none h⟩
  | overflowRecord _ => exact ⟨_, rfl, fun h => laneOk_of_none h⟩
  | preempt _ _ _ _ _ _ _ _ _ => exact ⟨_, rfl, fun h => laneOk_of_none h⟩
  | preemptSave _ => exact ⟨_, rfl, fun h => laneOk_of_none h⟩
  | guardSlotHeadCheck _ _ => exact ⟨_, rfl, fun h => laneOk_of_none h⟩
  | kChunk _ _ => exact ⟨_, rfl, fun h => laneOk_of_none h⟩
  | writeBack _ => exact ⟨_, rfl, fun h => laneOk_of_none h⟩
  | copyTransfer _ _ => exact ⟨_, rfl, fun h => laneOk_of_none h⟩
  | accExecute _ => exact ⟨_, rfl, fun h => laneOk_of_none h⟩
  | commandRetire _ _ _ => exact ⟨_, rfl, fun h => laneOk_of_none h⟩
  | homeAccessPerform _ _ => exact ⟨_, rfl, fun h => laneOk_of_none h⟩
  | sectorFill _ _ _ => exact ⟨_, rfl, fun h => laneOk_of_none h⟩
  | missStatusAllocate _ => exact ⟨_, rfl, fun h => laneOk_of_none h⟩
  | loadReturn _ _ => exact ⟨_, rfl, fun h => laneOk_of_none h⟩
  | hodDrain _ _ => exact ⟨_, rfl, fun h => laneOk_of_none h⟩
  | hodAgeLimit _ _ => exact ⟨_, rfl, fun h => laneOk_of_none h⟩
  | phaseComplete _ _ => exact ⟨_, rfl, fun h => laneOk_of_none h⟩
  | fenceComplete _ _ => exact ⟨_, rfl, fun h => laneOk_of_none h⟩
  | releaseStoreProceed _ => exact ⟨_, rfl, fun h => laneOk_of_none h⟩
  | waitnComplete _ _ => exact ⟨_, rfl, fun h => laneOk_of_none h⟩
  | icinvComplete _ _ => exact ⟨_, rfl, fun h => laneOk_of_none h⟩
  | fetchbComplete _ _ => exact ⟨_, rfl, fun h => laneOk_of_none h⟩
  | cresizeComplete _ => exact ⟨_, rfl, fun h => laneOk_of_none h⟩
  | migrationStart _ => exact ⟨_, rfl, fun h => laneOk_of_none h⟩
  | migrationDeparture _ _ => exact ⟨_, rfl, fun h => laneOk_of_none h⟩
  | remotePacketArrival _ _ _ _ _ _ _ _ => exact ⟨_, rfl, fun h => laneOk_of_none h⟩
  | acknowledgementArrival _ _ _ _ _ _ => exact ⟨_, rfl, fun h => laneOk_of_none h⟩
  | closedVectorUpdate _ _ => exact ⟨_, rfl, fun h => laneOk_of_none h⟩
  | refusalArrival _ _ _ _ => exact ⟨_, rfl, fun h => laneOk_of_none h⟩
  | restartRefusal _ _ => exact ⟨_, rfl, fun h => laneOk_of_none h⟩
  | retransmission _ _ _ _ => exact ⟨_, rfl, fun h => laneOk_of_none h⟩
  | destinationLost _ _ => exact ⟨_, rfl, fun h => laneOk_of_none h⟩
  | allowanceCollapse _ _ => exact ⟨_, rfl, fun h => laneOk_of_none h⟩
  | expressStarvationToken _ _ => exact ⟨_, rfl, fun h => laneOk_of_none h⟩
  | tierStarvationGrant _ _ => exact ⟨_, rfl, fun h => laneOk_of_none h⟩
  | linkTraining _ _ _ => exact ⟨_, rfl, fun h => laneOk_of_none h⟩
  | flitCrcReplay _ _ => exact ⟨_, rfl, fun h => laneOk_of_none h⟩
  | linkRetrain _ _ _ => exact ⟨_, rfl, fun h => laneOk_of_none h⟩
  | portUp _ => exact ⟨_, rfl, fun h => laneOk_of_none h⟩
  | ringCheck _ _ => exact ⟨_, rfl, fun h => laneOk_of_none h⟩
  | ringCheckAnswer _ _ => exact ⟨_, rfl, fun h => laneOk_of_none h⟩
  | ringSetupTimeout _ => exact ⟨_, rfl, fun h => laneOk_of_none h⟩
  | chunkStart _ _ _ _ => exact ⟨_, rfl, fun h => laneOk_of_none h⟩
  | partialArrival _ _ _ _ _ _ _ _ _ => exact ⟨_, rfl, fun h => laneOk_of_none h⟩
  | resultArrival _ _ _ _ _ _ _ _ _ => exact ⟨_, rfl, fun h => laneOk_of_none h⟩
  | throttleRequest _ _ _ => exact ⟨_, rfl, fun h => laneOk_of_none h⟩
  | throttleStepUp => exact ⟨_, rfl, fun h => laneOk_of_none h⟩
  | hostLinkBringup => exact ⟨_, rfl, fun h => laneOk_of_none h⟩
  | launch _ _ _ _ _ => exact ⟨_, rfl, fun h => laneOk_of_none h⟩
  | release _ _ _ _ _ _ => exact ⟨_, rfl, fun h => laneOk_of_none h⟩
  | writeMemory _ _ _ _ _ _ _ _ => exact ⟨_, rfl, fun h => laneOk_of_none h⟩
  | readMemory _ _ _ _ _ _ _ _ => exact ⟨_, rfl, fun h => laneOk_of_none h⟩
  | queueControl _ _ _ _ _ _ _ => exact ⟨_, rfl, fun h => laneOk_of_none h⟩
  | routeEntry _ _ _ _ _ _ => exact ⟨_, rfl, fun h => laneOk_of_none h⟩
  | ringSetup _ _ _ _ _ _ _ => exact ⟨_, rfl, fun h => laneOk_of_none h⟩
  | bindResult _ _ _ _ _ _ _ _ _ => exact ⟨_, rfl, fun h => laneOk_of_none h⟩
  | trapResume _ _ _ _ _ _ _ _ => exact ⟨_, rfl, fun h => laneOk_of_none h⟩
  | codeTable _ _ _ _ _ _ => exact ⟨_, rfl, fun h => laneOk_of_none h⟩
  | attest _ _ _ _ _ => exact ⟨_, rfl, fun h => laneOk_of_none h⟩
  | ringBind _ _ _ _ _ _ _ => exact ⟨_, rfl, fun h => laneOk_of_none h⟩
  | syscallReply _ _ _ _ _ => exact ⟨_, rfl, fun h => laneOk_of_none h⟩
  | mailboxMessage _ _ _ => exact ⟨_, rfl, fun h => laneOk_of_none h⟩
  | pageMessage _ _ _ _ => exact ⟨_, rfl, fun h => laneOk_of_none h⟩
  | ownMessage _ _ _ _ => exact ⟨_, rfl, fun h => laneOk_of_none h⟩
  | nak _ _ => exact ⟨_, rfl, fun h => laneOk_of_none h⟩
  | resync _ _ _ _ => exact ⟨_, rfl, fun h => laneOk_of_none h⟩
  | resyncReply _ _ _ _ => exact ⟨_, rfl, fun h => laneOk_of_none h⟩
  | keepalive _ => exact ⟨_, rfl, fun h => laneOk_of_none h⟩
  | hostRetransmit => exact ⟨_, rfl, fun h => laneOk_of_none h⟩
  | hostLinkLost => exact ⟨_, rfl, fun h => laneOk_of_none h⟩
  | codeTableEntryJump => exact goes_entryJump s
  | hardwareBind _ _ _ => exact ⟨_, rfl, fun h => laneOk_of_none h⟩
  | dbgctlHalt _ _ => exact ⟨_, rfl, fun h => laneOk_of_none h⟩
  | dbgctlUnhalt _ _ => exact ⟨_, rfl, fun h => laneOk_of_none h⟩
  | dbgctlStep _ _ => exact ⟨_, rfl, fun h => laneOk_of_none h⟩
  | ilenWrite _ _ => exact ⟨_, rfl, fun h => laneOk_of_none h⟩
  | mailboxSend => exact ⟨_, rfl, fun h => laneOk_of_none h⟩
  | dutyWrite _ _ => exact ⟨_, rfl, fun h => laneOk_of_none h⟩
  | registerWrite _ _ => exact ⟨_, rfl, fun h => laneOk_of_none h⟩
  | boot _ _ _ _ _ => exact goes_next fun _ => laneOk_of_none rfl
  | sensorSample _ _ => exact ⟨_, rfl, fun h => laneOk_of_none h⟩
  | throttleRepeat _ _ => exact ⟨_, rfl, fun h => laneOk_of_none h⟩
  | refreshBandEvaluation _ => exact ⟨_, rfl, fun h => laneOk_of_none h⟩
  | telemetryRecord => exact ⟨_, rfl, fun h => laneOk_of_none h⟩
  | thermalTrip _ => exact goes_next fun _ => laneOk_of_none rfl
  | moduleReboot => exact goes_next fun _ => laneOk_of_none rfl
  | scrub _ _ _ => exact ⟨_, rfl, fun h => laneOk_of_none h⟩
  | movC _ => exact goes_withGroup h _
  | iaddC _ => exact goes_withGroup h _
  | isubC _ => exact goes_withGroup h _
  | imulC _ => exact goes_withGroup h _
  | andC _ => exact goes_withGroup h _
  | orC _ => exact goes_withGroup h _
  | xorC _ => exact goes_withGroup h _
  | shlC _ => exact goes_withGroup h _
  | shrNC _ => exact goes_withGroup h _
  | shrIC _ => exact goes_withGroup h _
  | faddC _ => exact goes_withGroup h _
  | fsubC _ => exact goes_withGroup h _
  | fmulC _ => exact goes_withGroup h _
  | fmaxC _ => exact goes_withGroup h _
  | fminC _ => exact goes_withGroup h _
  | iaddi5C _ => exact goes_withGroup h _
  | nopC => exact goes_withGroup h _
  | iadd _ => exact goes_withGroup h _
  | iaddL _ => exact goes_withGroup h _
  | isub _ => exact goes_withGroup h _
  | isubL _ => exact goes_withGroup h _
  | imul _ => exact goes_withGroup h _
  | imulL _ => exact goes_withGroup h _
  | imulhI _ => exact goes_withGroup h _
  | imulhIL _ => exact goes_withGroup h _
  | imulhN _ => exact goes_withGroup h _
  | imulhNL _ => exact goes_withGroup h _
  | imac _ => exact goes_withGroup h _
  | imacL _ => exact goes_withGroup h _
  | iminI _ => exact goes_withGroup h _
  | iminIL _ => exact goes_withGroup h _
  | iminN _ => exact goes_withGroup h _
  | iminNL _ => exact goes_withGroup h _
  | imaxI _ => exact goes_withGroup h _
  | imaxIL _ => exact goes_withGroup h _
  | imaxN _ => exact goes_withGroup h _
  | imaxNL _ => exact goes_withGroup h _
  | iabsd _ => exact goes_withGroup h _
  | iabsdL _ => exact goes_withGroup h _
  | and _ => exact goes_withGroup h _
  | andL _ => exact goes_withGroup h _
  | or _ => exact goes_withGroup h _
  | orL _ => exact goes_withGroup h _
  | xor _ => exact goes_withGroup h _
  | xorL _ => exact goes_withGroup h _
  | andn _ => exact goes_withGroup h _
  | andnL _ => exact goes_withGroup h _
  | mov _ => exact goes_withGroup h _
  | movL _ => exact goes_withGroup h _
  | shl _ => exact goes_withGroup h _
  | shlL _ => exact goes_withGroup h _
  | shrN _ => exact goes_withGroup h _
  | shrNL _ => exact goes_withGroup h _
  | shrI _ => exact goes_withGroup h _
  | shrIL _ => exact goes_withGroup h _
  | clz _ => exact goes_withGroup h _
  | clzL _ => exact goes_withGroup h _
  | popc _ => exact goes_withGroup h _
  | popcL _ => exact goes_withGroup h _
  | bfxN _ => exact goes_withGroup h _
  | bfxNL _ => exact goes_withGroup h _
  | bfxI _ => exact goes_withGroup h _
  | bfxIL _ => exact goes_withGroup h _
  | bfi _ => exact goes_withGroup h _
  | bfiL _ => exact goes_withGroup h _
  | perm _ => exact goes_withGroup h _
  | permL _ => exact goes_withGroup h _
  | icmpEq _ => exact goes_withGroup h _
  | icmpEqL _ => exact goes_withGroup h _
  | icmpNe _ => exact goes_withGroup h _
  | icmpNeL _ => exact goes_withGroup h _
  | icmpLtI _ => exact goes_withGroup h _
  | icmpLtIL _ => exact goes_withGroup h _
  | icmpLeI _ => exact goes_withGroup h _
  | icmpLeIL _ => exact goes_withGroup h _
  | icmpLtN _ => exact goes_withGroup h _
  | icmpLtNL _ => exact goes_withGroup h _
  | icmpLeN _ => exact goes_withGroup h _
  | icmpLeNL _ => exact goes_withGroup h _
  | qlopAnd _ => exact goes_withGroup h _
  | qlopOr _ => exact goes_withGroup h _
  | qlopXor _ => exact goes_withGroup h _
  | qlopAndn _ => exact goes_withGroup h _
  | ladd _ => exact goes_withGroup h _
  | laddL _ => exact goes_withGroup h _
  | lsub _ => exact goes_withGroup h _
  | lsubL _ => exact goes_withGroup h _
  | lmul _ => exact goes_withGroup h _
  | lmulL _ => exact goes_withGroup h _
  | lmac _ => exact goes_withGroup h _
  | lmacL _ => exact goes_withGroup h _
  | lshl _ => exact goes_withGroup h _
  | lshlL _ => exact goes_withGroup h _
  | lshrN _ => exact goes_withGroup h _
  | lshrNL _ => exact goes_withGroup h _
  | lshrI _ => exact goes_withGroup h _
  | lshrIL _ => exact goes_withGroup h _
  | lextI _ => exact goes_withGroup h _
  | lextIL _ => exact goes_withGroup h _
  | lextN _ => exact goes_withGroup h _
  | lextNL _ => exact goes_withGroup h _
  | lcmpEq _ => exact goes_withGroup h _
  | lcmpEqL _ => exact goes_withGroup h _
  | lcmpNe _ => exact goes_withGroup h _
  | lcmpNeL _ => exact goes_withGroup h _
  | lcmpLtI _ => exact goes_withGroup h _
  | lcmpLtIL _ => exact goes_withGroup h _
  | lcmpLtN _ => exact goes_withGroup h _
  | lcmpLtNL _ => exact goes_withGroup h _
  | lea2 _ => exact goes_withGroup h _
  | lea2L _ => exact goes_withGroup h _
  | lea3 _ => exact goes_withGroup h _
  | lea3L _ => exact goes_withGroup h _
  | lea4 _ => exact goes_withGroup h _
  | lea4L _ => exact goes_withGroup h _
  | fadd _ => exact goes_withGroup h _
  | faddL _ => exact goes_withGroup h _
  | fsub _ => exact goes_withGroup h _
  | fsubL _ => exact goes_withGroup h _
  | fmul _ => exact goes_withGroup h _
  | fmulL _ => exact goes_withGroup h _
  | ffma _ => exact goes_withGroup h _
  | ffmaL _ => exact goes_withGroup h _
  | fmin _ => exact goes_withGroup h _
  | fminL _ => exact goes_withGroup h _
  | fmax _ => exact goes_withGroup h _
  | fmaxL _ => exact goes_withGroup h _
  | fcmpEq _ => exact goes_withGroup h _
  | fcmpEqL _ => exact goes_withGroup h _
  | fcmpNe _ => exact goes_withGroup h _
  | fcmpNeL _ => exact goes_withGroup h _
  | fcmpLt _ => exact goes_withGroup h _
  | fcmpLtL _ => exact goes_withGroup h _
  | fcmpLe _ => exact goes_withGroup h _
  | fcmpLeL _ => exact goes_withGroup h _
  | fsfu _ => exact goes_withGroup h _
  | fsfuL _ => exact goes_withGroup h _
  | hadd2F16 _ => exact goes_withGroup h _
  | hadd2F16L _ => exact goes_withGroup h _
  | hmul2F16 _ => exact goes_withGroup h _
  | hmul2F16L _ => exact goes_withGroup h _
  | hfma2F16 _ => exact goes_withGroup h _
  | hfma2F16L _ => exact goes_withGroup h _
  | hfma2Bf16 _ => exact goes_withGroup h _
  | hfma2Bf16L _ => exact goes_withGroup h _
  | hadd2Bf16 _ => exact goes_withGroup h _
  | hadd2Bf16L _ => exact goes_withGroup h _
  | cvt _ => exact goes_withGroup h _
  | cvtL _ => exact goes_withGroup h _
  | cvtp _ => exact goes_withGroup h _
  | cvtpL _ => exact goes_withGroup h _
  | iaddi _ => exact goes_withGroup h _
  | iaddiL _ => exact goes_withGroup h _
  | andi _ => exact goes_withGroup h _
  | andiL _ => exact goes_withGroup h _
  | ori _ => exact goes_withGroup h _
  | oriL _ => exact goes_withGroup h _
  | xori _ => exact goes_withGroup h _
  | xoriL _ => exact goes_withGroup h _
  | shli _ => exact goes_withGroup h _
  | shliL _ => exact goes_withGroup h _
  | shriN _ => exact goes_withGroup h _
  | shriNL _ => exact goes_withGroup h _
  | shriI _ => exact goes_withGroup h _
  | shriIL _ => exact goes_withGroup h _
  | movi _ => exact goes_withGroup h _
  | moviL _ => exact goes_withGroup h _
  | movhi _ => exact goes_withGroup h _
  | movhiL _ => exact goes_withGroup h _
  | icmpiEq _ => exact goes_withGroup h _
  | icmpiEqL _ => exact goes_withGroup h _
  | icmpiLtI _ => exact goes_withGroup h _
  | icmpiLtIL _ => exact goes_withGroup h _
  | fmovi _ => exact goes_withGroup h _
  | fmoviL _ => exact goes_withGroup h _
  | ld _ => exact goes_withGroup h _
  | ldL _ => exact goes_withGroup h _
  | st _ => exact goes_withGroup h _
  | stL _ => exact goes_withGroup h _
  | atomAdd _ => exact goes_withGroup h _
  | atomAddL _ => exact goes_withGroup h _
  | atomFadd _ => exact goes_withGroup h _
  | atomFaddL _ => exact goes_withGroup h _
  | atomMin _ => exact goes_withGroup h _
  | atomMinL _ => exact goes_withGroup h _
  | atomMax _ => exact goes_withGroup h _
  | atomMaxL _ => exact goes_withGroup h _
  | atomAnd _ => exact goes_withGroup h _
  | atomAndL _ => exact goes_withGroup h _
  | atomOr _ => exact goes_withGroup h _
  | atomOrL _ => exact goes_withGroup h _
  | atomXor _ => exact goes_withGroup h _
  | atomXorL _ => exact goes_withGroup h _
  | atomExch _ => exact goes_withGroup h _
  | atomExchL _ => exact goes_withGroup h _
  | atomCas _ => exact goes_withGroup h _
  | atomCasL _ => exact goes_withGroup h _
  | fenceFull _ => exact goes_withGroup h _
  | fenceAcq _ => exact goes_withGroup h _
  | fenceRel _ => exact goes_withGroup h _
  | fenceWack _ => exact goes_withGroup h _
  | phase _ => exact goes_withGroup h _
  | fetchb _ => exact goes_withGroup h _
  | copInv _ => exact goes_withGroup h _
  | copInvL _ => exact goes_withGroup h _
  | copWb _ => exact goes_withGroup h _
  | copWbL _ => exact goes_withGroup h _
  | copWbi _ => exact goes_withGroup h _
  | copWbiL _ => exact goes_withGroup h _
  | bra _ => exact goes_withGroup h _
  | braL _ => exact goes_withGroup h _
  | brx _ => exact goes_withGroup h _
  | brxL _ => exact goes_withGroup h _
  | call _ => exact goes_withGroup h _
  | callL _ => exact goes_withGroup h _
  | callx _ => exact goes_withGroup h _
  | callxL _ => exact goes_withGroup h _
  | ret _ => exact goes_withGroup h _
  | exit _ => exact goes_withGroup h _
  | loop _ => exact goes_withGroup h _
  | loopL _ => exact goes_withGroup h _
  | brk _ => exact goes_withGroup h _
  | lcfg _ => exact goes_lcfg h _
  | cnv _ => exact goes_withGroup h _
  | cnvMask _ => exact goes_withGroup h _
  | bar _ => exact goes_withGroup h _
  | trap _ => exact goes_withGroup h _
  | sysc _ => exact goes_withGroup h _
  | bkpt _ => exact goes_withGroup h _
  | balw _ => exact goes_withGroup h _
  | yield _ => exact goes_withGroup h _
  | mapset _ => exact goes_withGroup h _
  | mapchn _ => exact goes_withGroup h _
  | mapprt _ => exact goes_withGroup h _
  | maptrn _ => exact goes_withGroup h _
  | mapflt _ => exact goes_withGroup h _
  | mapchk _ => exact goes_withGroup h _
  | bankq _ => exact goes_withGroup h _
  | hset _ => exact goes_withGroup h _
  | tcpy _ => exact goes_withGroup h _
  | tmma _ => exact goes_withGroup h _
  | tgat _ => exact goes_withGroup h _
  | tcol _ => exact goes_withGroup h _
  | tld _ => exact goes_withGroup h _
  | tst _ => exact goes_withGroup h _
  | accZero _ => exact goes_withGroup h _
  | accZeroL _ => exact goes_withGroup h _
  | accSetexp _ => exact goes_withGroup h _
  | accSetexpL _ => exact goes_withGroup h _
  | accRdrow _ => exact goes_withGroup h _
  | accRdrowL _ => exact goes_withGroup h _
  | accWrrow _ => exact goes_withGroup h _
  | accWrrowL _ => exact goes_withGroup h _
  | accClrst _ => exact goes_withGroup h _
  | accClrstL _ => exact goes_withGroup h _
  | nop _ => exact goes_withGroup h _
  | nopL _ => exact goes_withGroup h _
  | idivI _ => exact goes_withGroup h _
  | idivIL _ => exact goes_withGroup h _
  | idivN _ => exact goes_withGroup h _
  | idivNL _ => exact goes_withGroup h _
  | iremI _ => exact goes_withGroup h _
  | iremIL _ => exact goes_withGroup h _
  | iremN _ => exact goes_withGroup h _
  | iremNL _ => exact goes_withGroup h _
  | rotl _ => exact goes_withGroup h _
  | rotlL _ => exact goes_withGroup h _
  | brev _ => exact goes_withGroup h _
  | brevL _ => exact goes_withGroup h _
  | fcmpOrd _ => exact goes_withGroup h _
  | fcmpOrdL _ => exact goes_withGroup h _
  | fcmpUnord _ => exact goes_withGroup h _
  | fcmpUnordL _ => exact goes_withGroup h _
  | fclass _ => exact goes_withGroup h _
  | fclassL _ => exact goes_withGroup h _
  | frnd _ => exact goes_withGroup h _
  | frndL _ => exact goes_withGroup h _
  | fexp _ => exact goes_withGroup h _
  | fexpL _ => exact goes_withGroup h _
  | q2v _ => exact goes_withGroup h _
  | q2vL _ => exact goes_withGroup h _
  | v2q _ => exact goes_withGroup h _
  | v2qL _ => exact goes_withGroup h _
  | qpop _ => exact goes_withGroup h _
  | qpopL _ => exact goes_withGroup h _
  | pfirst _ => exact goes_withGroup h _
  | pfirstL _ => exact goes_withGroup h _
  | pany _ => exact goes_withGroup h _
  | panyL _ => exact goes_withGroup h _
  | pall _ => exact goes_withGroup h _
  | pallL _ => exact goes_withGroup h _
  | pmask _ => exact goes_withGroup h _
  | pmaskL _ => exact goes_withGroup h _
  | xgetAt _ => exact goes_withGroup h _
  | xgetAtL _ => exact goes_withGroup h _
  | xgetFlip _ => exact goes_withGroup h _
  | xgetFlipL _ => exact goes_withGroup h _
  | xgetStep _ => exact goes_withGroup h _
  | xgetStepL _ => exact goes_withGroup h _
  | xgetRot _ => exact goes_withGroup h _
  | xgetRotL _ => exact goes_withGroup h _
  | cnvq _ => exact goes_withGroup h _
  | cnvqL _ => exact goes_withGroup h _
  | waitn _ => exact goes_withGroup h _
  | waitnL _ => exact goes_withGroup h _
  | setg _ => exact goes_withGroup h _
  | setgL _ => exact goes_withGroup h _
  | clrg _ => exact goes_withGroup h _
  | clrgL _ => exact goes_withGroup h _
  | alw _ => exact goes_withGroup h _
  | alwL _ => exact goes_withGroup h _
  | mapget _ => exact goes_withGroup h _
  | mapgetL _ => exact goes_withGroup h _
  | mapput _ => exact goes_withGroup h _
  | mapputL _ => exact goes_withGroup h _
  | hget _ => exact goes_withGroup h _
  | hgetL _ => exact goes_withGroup h _
  | lget _ => exact goes_withGroup h _
  | lgetL _ => exact goes_withGroup h _
  | lput _ => exact goes_withGroup h _
  | lputL _ => exact goes_withGroup h _
  | csrr _ => exact goes_withGroup h _
  | csrrL _ => exact goes_withGroup h _
  | csrw _ => exact goes_withGroup h _
  | csrwL _ => exact goes_withGroup h _
  | csrs _ => exact goes_withGroup h _
  | csrsL _ => exact goes_withGroup h _
  | csrc _ => exact goes_withGroup h _
  | csrcL _ => exact goes_withGroup h _
  | tret _ => exact goes_withGroup h _
  | tretL _ => exact goes_withGroup h _
  | halt _ => exact goes_withGroup h _
  | haltL _ => exact goes_withGroup h _
  | icinv _ => exact goes_withGroup h _
  | icinvL _ => exact goes_withGroup h _
  | tlbinvPage _ => exact goes_withGroup h _
  | tlbinvPageL _ => exact goes_withGroup h _
  | tlbinvCtx _ => exact goes_withGroup h _
  | tlbinvAll _ => exact goes_withGroup h _
  | tlbprobe _ => exact goes_withGroup h _
  | tlbprobeL _ => exact goes_withGroup h _
  | cresize _ => exact goes_withGroup h _
  | cresizeL _ => exact goes_withGroup h _
  | migDev _ => exact goes_withGroup h _
  | migDevL _ => exact goes_withGroup h _
  | migHost _ => exact goes_withGroup h _
  | pf _ => exact goes_withGroup h _
  | pfL _ => exact goes_withGroup h _
  | tspawn _ => exact goes_withGroup h _
  | tspawnL _ => exact goes_withGroup h _
  | tsig _ => exact goes_withGroup h _
  | tsigL _ => exact goes_withGroup h _
  | evpost _ => exact goes_withGroup h _
  | evpostL _ => exact goes_withGroup h _
  | evget _ => exact goes_withGroup h _
  | evgetL _ => exact goes_withGroup h _
  | dbgmb _ => exact goes_withGroup h _
  | dbgmbL _ => exact goes_withGroup h _
  | dbgrd _ => exact goes_withGroup h _
  | dbgrdL _ => exact goes_withGroup h _
  | wpset _ => exact goes_withGroup h _
  | wpsetL _ => exact goes_withGroup h _
  | hostMigrationRequest _ _ _ => exact ⟨_, rfl, fun h => laneOk_of_none h⟩
  | restartAnnouncement _ _ => exact ⟨_, rfl, fun h => laneOk_of_none h⟩
  | partialCreditReturn _ => exact ⟨_, rfl, fun h => laneOk_of_none h⟩
  | walkComplete _ _ => exact ⟨_, rfl, fun h => laneOk_of_none h⟩
  | divideResult _ => exact ⟨_, rfl, fun h => laneOk_of_none h⟩
  | chunkPeerLostTimeout _ _ => exact ⟨_, rfl, fun h => laneOk_of_none h⟩

/-! ### Every step -/

/-- THE MACHINE NEVER STOPS: a step from a state whose lane holds nothing or a resident group answers such a state. -/
theorem step_laneOk {s : State} (h : LaneOk s) : ∃ t, step s = .next t ∧ LaneOk t := by
  have after : ∀ (g : Issue) (s' : State) (o : Outcome), Goes s' o → ∃ t, afterGroup g o = .next t ∧ LaneOk t :=
    fun g _ _ ⟨t, ht, _⟩ => ⟨{ t.afterIssue g with issue := none }, by rw [ht]; rfl, laneOk_of_none rfl⟩
  unfold step
  split
  · next g hg =>
    unfold runIssue
    split
    · exact after g s _ (goes_exec h _)
    · have k := keeps_fetch s g
      rcases hf : s.fetch g with ⟨x | c | _, s'⟩ <;> rw [hf] at k <;> dsimp only at k ⊢
      · have hl := (k (by simp)).laneOk h
        refine after g s' _ ?_
        unfold run
        split
        · exact goes_exec hl _
        · exact goes_withGroup hl _
      · exact after g s' _ (goes_fetchTrapped ((k (by simp)).laneOk h) _ _)
      · refine ⟨_, rfl, laneOk_of_none ?_⟩
        unfold State.modCourse
        split <;> rfl
  · next hn =>
    have go : ∀ s' e, s'.issue = none → ∃ t, exec e s' = .next t ∧ LaneOk t := fun s' e hi => by
      obtain ⟨t, ht, hl⟩ := goes_exec (laneOk_of_none hi) e
      exact ⟨t, ht, hl hi⟩
    split
    · exact go _ _ hn
    · exact go _ _ hn

end Sys2Proof.Machine
end

