-- ==== Sys2Proof/Laws/Events.lean ====
section
/-! SUPPORT. Events: what an event of a running module does, and results that become readable. -/

namespace Sys2Proof.Machine

/-- The shape of an event that a module has while it runs. -/
theorem happens {i : Instr} {ok : State → Prop} {R : State → State → Prop} (f : State → State) (e : ∀ s, exec i s = s.whileRunning f)
    (h : ∀ s, s.phase = .running → ok s → R s { f s with issue := s.issue }) : Happens i ok R := by
  intro s hp ho
  have : s.whileRunning f = .next { f s with issue := s.issue } := by
    unfold State.whileRunning State.beside
    dsimp only
    rw [hp]; rfl
  exact ⟨_, (e s).trans this, rfl, h s hp ho⟩

/-- The same, with the next state named before it is looked into. -/
theorem happensAt {i : Instr} {ok : State → Prop} {R : State → State → Prop} (f : State → State) (e : ∀ s, exec i s = s.whileRunning f)
    (h : ∀ s, s.phase = .running → ok s → ∀ u, u = f s → R s { u with issue := s.issue }) : Happens i ok R :=
  happens f e fun s hp ho => h s hp ho _ rfl

theorem turns_mod {core course : Nat} {g : State → Course → Course} (s : State) {u : State} (hu : ∃ h : Course → Course, u = s.modCourse core course h ∧ ∀ c, s.course? core course = some c → h c = g s c) (h : (s.course? core course).isSome) :
    Turns core course g s { u with issue := s.issue } := by
  obtain ⟨f, rfl, hf⟩ := hu
  obtain ⟨c, hc⟩ := Option.isSome_iff_exists.mp h
  have st := stays_modCourse s core course f
  refine ⟨c, hc, ?_, st.courses, st.mem, st.pool⟩
  show (s.modCourse core course f).course? core course = _
  rw [State.course?_modCourse, hc]; simp [hf c hc]

theorem pendRead_rest (ps : List Pend) (r : RegRef) (now n : Nat) (x : Word) (hn : now ≤ n) :
    pendRead (pendRest ps now) r n (ps.foldl (fun x p => if p.dst = r ∧ p.ready ≤ now then p.val else x) x) = pendRead ps r n x := by
  have indep : ∀ (ps : List Pend) (a b : Word), ps.any (fun y => decide (y.dst = r ∧ y.ready ≤ n)) = true → pendRead ps r n a = pendRead ps r n b := by
    intro ps
    induction ps with
    | nil => intro a b h; simp at h
    | cons p ps ih =>
      intro a b h
      unfold pendRead
      rw [List.foldl_cons, List.foldl_cons]
      by_cases hp : p.dst = r ∧ p.ready ≤ n
      · rw [if_pos hp, if_pos hp]
      · rw [if_neg hp, if_neg hp]
        refine ih a b ?_
        simpa [hp] using h
  have none_ : ∀ (ps : List Pend) (a : Word), ps.any (fun y => decide (y.dst = r ∧ y.ready ≤ now)) = false → ps.foldl (fun x p => if p.dst = r ∧ p.ready ≤ now then p.val else x) a = a := by
    intro ps
    induction ps with
    | nil => intro a h; rfl
    | cons p ps ih =>
      intro a h
      simp only [List.any_cons, Bool.or_eq_false_iff, decide_eq_false_iff_not] at h
      rw [List.foldl_cons, if_neg h.1]; exact ih a h.2
  induction ps generalizing x with
  | nil => rfl
  | cons p ps ih =>
    rw [List.foldl_cons, pendRest]
    have e : ∀ y, pendRead (p :: ps) r n y = pendRead ps r n (if p.dst = r ∧ p.ready ≤ n then p.val else y) := fun _ => rfl
    rw [e]
    by_cases h1 : p.ready ≤ now
    · rw [if_pos (.inl h1), ih]
      congr 1
      simp [h1, Nat.le_trans h1 hn]
    · by_cases h2 : ps.any (fun y => decide (y.dst = p.dst ∧ y.ready ≤ now)) = true
      · rw [if_pos (.inr h2), if_neg (fun h => h1 h.2), ih]
        by_cases h3 : p.dst = r
        · refine indep _ _ _ ?_
          rw [List.any_eq_true] at h2 ⊢
          obtain ⟨y, hy, h2⟩ := h2
          refine ⟨y, hy, ?_⟩
          simp only [decide_eq_true_eq] at h2 ⊢
          exact ⟨h2.1.trans h3, Nat.le_trans h2.2 hn⟩
        · rw [if_neg (fun h => h3 h.1)]
      · rw [if_neg (by rintro (h | h); exact h1 h; exact h2 h), if_neg (fun h => h1 h.2)]
        show pendRead (pendRest ps now) r n (if p.dst = r ∧ p.ready ≤ n then p.val else _) = _
        by_cases h3 : p.dst = r ∧ p.ready ≤ n
        · rw [if_pos h3, if_pos h3, ← ih p.val, none_ ps p.val]
          rw [h3.1] at h2; simpa using h2
        · rw [if_neg h3, if_neg h3, ih]

theorem rest_ready (ps : List Pend) (now : Nat) : ∀ p ∈ pendRest ps now, now < p.ready := by
  induction ps with
  | nil => intro p h; cases h
  | cons a l ih =>
    intro p h
    rw [pendRest] at h
    split at h
    · exact ih p h
    · rename_i hn
      rcases List.mem_cons.mp h with rfl | h
      · have := fun k => hn (.inl k); omega
      · exact ih p h

theorem regSet_get (v : Vector Word 32) (a b : Reg) (x : Word) : regGet (regSet v a x) b = if a = b then x else regGet v b := by
  unfold regGet regSet
  simp only [Vector.getElem_set]
  by_cases h : a = b
  · subst h; simp
  · rw [if_neg (fun e => h (BitVec.eq_of_toNat_eq e)), if_neg h]

theorem settle_v (ps : List Pend) (now : Nat) (t : Thread) (k : Reg) :
    regGet ((ps.foldl (fun x p => if p.ready ≤ now then x.put p.dst p.val else x) t).v) k = ps.foldl (fun x p => if p.dst = .v k ∧ p.ready ≤ now then p.val else x) (regGet t.v k) := by
  induction ps generalizing t with
  | nil => rfl
  | cons p ps ih =>
    rw [List.foldl_cons, List.foldl_cons, ih]
    congr 1
    by_cases h : p.ready ≤ now
    · simp only [h, if_true, and_true]
      unfold Thread.put
      cases hd : p.dst with
      | v m => dsimp only; rw [regSet_get]; by_cases e : m = k <;> simp [e]
      | q m => simp
      | c m => simp
    · simp [h]

theorem settle_c (ps : List Pend) (now : Nat) (v : Vector Word 32) (k : Reg) :
    regGet (ps.foldl (fun x p => if p.ready ≤ now then (match p.dst with | .c n => regSet x n p.val | _ => x) else x) v) k = ps.foldl (fun x p => if p.dst = .c k ∧ p.ready ≤ now then p.val else x) (regGet v k) := by
  induction ps generalizing v with
  | nil => rfl
  | cons p ps ih =>
    rw [List.foldl_cons, List.foldl_cons, ih]
    congr 1
    by_cases h : p.ready ≤ now
    · simp only [h, if_true, and_true]
      cases hd : p.dst with
      | c m => dsimp only; rw [regSet_get]; by_cases e : m = k <;> simp [e]
      | q m => simp
      | v m => simp
    · simp [h]

theorem settleAll_thread (c : Course) (now i : Nat) (hi : i < c.threads.length) : (c.settleAll now).thread i = (c.thread i).settle now := by
  unfold Course.settleAll Course.thread
  simp [List.getD_eq_getElem?_getD, hi]

theorem settleAll_reg (c : Course) (now i : Nat) (r : RegRef) (n : Nat) (hn : now ≤ n) (hq : ∀ q, r ≠ .q q) (hi : i < c.threads.length) :
    (c.settleAll now).regAt i r n = c.regAt i r n := by
  unfold Course.regAt
  cases r with
  | q p => exact absurd rfl (hq p)
  | v k =>
    dsimp only
    rw [settleAll_thread c now i hi]
    unfold Thread.readV Thread.settle
    dsimp only
    rw [settle_v, pendRead_rest _ _ _ _ _ hn]
  | c k =>
    dsimp only
    unfold Course.readC Course.settleAll Course.settleC
    dsimp only
    exact (congrArg (pendRead (pendRest c.cpend now) (.c k) n) (settle_c c.cpend now c.c k)).trans (pendRead_rest _ _ _ _ _ hn)

/-! ### Clusters -/

theorem prioQ_setQ (c : Cluster) (p : Nat) (q : List TaskRef) (k : Nat) (h : p < 4) : (c.setQ p q).prioQ k = if k = p then q else c.prioQ k := by
  simp only [Cluster.prioQ, Cluster.setQ, h, dif_pos, Vector.toList_set, List.getD_eq_getElem?_getD, List.getElem?_set]
  by_cases e : k = p
  · subst e; simp [h]
  · simp [e, Ne.symm e]

theorem prioQ_big (c : Cluster) (k : Nat) (h : 4 ≤ k) : c.prioQ k = [] := by
  simp [Cluster.prioQ, List.getD_eq_getElem?_getD, h]

/-! ### Tables, queues and records -/

theorem findAt_spec {α : Type} (p : α → Bool) (l : List α) (x : α) (h : findAt p l = some x) : p x = true := by
  induction l with
  | nil => cases h
  | cons a l ih =>
    unfold findAt at h
    split at h
    · cases h; assumption
    · exact ih h

theorem bar_key (s : State) (k : BarKey) : (s.bar k).key = k := by
  unfold State.bar
  cases h : findAt (fun b => decide (b.key = k)) s.bars with
  | none => rfl
  | some b => have := findAt_spec _ _ _ h; simpa using this

theorem bar_setBar (s : State) (b : Bar) (k : BarKey) (h : b.key = k) : (s.setBar b).bar k = b := by
  subst h
  unfold State.bar State.setBar findAt
  simp

theorem bars_foldl {α : Type} (f : State → α → State) (h : ∀ s a, (f s a).bars = s.bars ∧ (f s a).mem = s.mem ∧ (f s a).pool = s.pool) (l : List α) (s : State) :
    (l.foldl f s).bars = s.bars ∧ (l.foldl f s).mem = s.mem ∧ (l.foldl f s).pool = s.pool := by
  induction l generalizing s with
  | nil => exact ⟨rfl, rfl, rfl⟩
  | cons a l ih => obtain ⟨x, y, z⟩ := ih (f s a); obtain ⟨p, q, r⟩ := h s a; exact ⟨x.trans p, y.trans q, z.trans r⟩

theorem modCourse_rest (s : State) (k n : Nat) (f : Course → Course) :
    (s.modCourse k n f).bars = s.bars ∧ (s.modCourse k n f).mem = s.mem ∧ (s.modCourse k n f).pool = s.pool := by
  unfold State.modCourse
  split <;> exact ⟨rfl, rfl, rfl⟩

theorem mem_insertBy {α : Type} (le : α → α → Bool) (a x : α) (l : List α) : x ∈ insertBy le a l ↔ x = a ∨ x ∈ l := by
  induction l with
  | nil => simp [insertBy]
  | cons b l ih => unfold insertBy; split <;> simp [ih]; grind

theorem mem_sortBy {α : Type} (le : α → α → Bool) (x : α) (l : List α) : x ∈ sortBy le l ↔ x ∈ l := by
  induction l with
  | nil => simp [sortBy]
  | cons b l ih => simp [sortBy, mem_insertBy, ih]

theorem nextDispatch_lt (s : State) (cl p a : Nat) (ms seats) (h : s.nextDispatch cl = some (p, a, ms, seats)) : p < 4 := by
  unfold State.nextDispatch at h
  obtain ⟨x, hx, hm⟩ := List.exists_of_findSome?_eq_some h
  have : x.1 = p := by
    split at hm
    · rw [Option.map_eq_some_iff] at hm; obtain ⟨q, _, e⟩ := hm; injection e
    · cases hm
  rw [← this]
  unfold State.gangOrder at hx
  simp only [List.mem_flatMap, List.mem_map] at hx
  obtain ⟨p', hp', y, hy, rfl⟩ := hx
  simp at hp' ⊢; omega

theorem prioQ_passed (l : List Nat) (f : Cluster → Nat → Nat) (c : Cluster) (k : Nat) : (l.foldl (fun c q => c.setPassed q (f c q)) c).prioQ k = c.prioQ k := by
  induction l generalizing c with
  | nil => rfl
  | cons a l ih => rw [List.foldl_cons, ih]; rfl

theorem noteIdle_cluster (s : State) (cl k : Nat) : ∃ o, (s.noteIdle cl).cluster k = { s.cluster k with idleSince := o } := by
  unfold State.noteIdle State.modCluster
  rw [State.cluster_setCluster]
  split
  · subst k; dsimp only; split <;> exact ⟨_, rfl⟩
  · exact ⟨(s.cluster k).idleSince, rfl⟩

theorem tab_find_erase {α : Type} (t : Tab α) (k : Nat) : (t.erase k).find k = none := by
  induction t with
  | nil => rfl
  | cons p r ih =>
    unfold Tab.erase at ih ⊢
    rw [List.filter_cons]
    split
    · rename_i h; simp only [Tab.find]; split
      · simp_all
      · exact ih
    · exact ih

theorem clusters_fold {α : Type} {f : State → α → State} (h : ∀ s a, (f s a).clusters = s.clusters) (l : List α) (s : State) :
    (l.foldl f s).clusters = s.clusters := by
  induction l generalizing s with
  | nil => rfl
  | cons a l ih => rw [List.foldl_cons, ih, h]

theorem physStore_clusters (s : State) (a : Nat) (bs : List Byte) : (s.physStore a bs).clusters = s.clusters := by
  have stamp : ∀ (s : State) x, (s.stamp x).2.clusters = s.clusters := by
    intro s x
    unfold State.stamp
    split
    · rfl
    · rfl
    · dsimp only
      obtain ⟨l, f, n, h⟩ := ensureLine_rest s x.dieOf x.lineNo
      rw [h]; rfl
  have all : ∀ (s : State) x n, (s.stampAll x n).clusters = s.clusters := by
    intro s x n
    unfold State.stampAll
    split
    · exact clusters_fold (fun s i => stamp s _) _ _
    · exact stamp s _
  have mark : ∀ (s : State) x n, (s.markWritten x n).clusters = s.clusters := by
    intro s x n
    unfold State.markWritten
    split
    · split <;> rfl
    · rfl
  refine clusters_fold (fun s p => ?_) _ _
  split
  · rw [mark, all]
    unfold State.locWrite
    split <;> rfl
  · rfl

theorem cluster_eq {s t : State} (h : t.clusters = s.clusters) (k : Nat) : t.cluster k = s.cluster k := by
  unfold State.cluster; rw [h]

theorem toOverflow_events (s : State) (cl : Nat) (bs : List Byte) : ((s.toOverflow cl bs).cluster cl).events = (s.cluster cl).events := by
  unfold State.toOverflow
  dsimp only
  rw [State.cluster_setCluster, if_pos rfl]

theorem overflowQueued_events (s : State) (cl : Nat) : ∃ more, ((s.overflowQueued cl).cluster cl).events = (s.cluster cl).events ++ more := by
  unfold State.overflowQueued
  dsimp only
  split
  · rw [State.cluster_setCluster, if_pos rfl]; exact ⟨_, rfl⟩
  · exact ⟨[], (List.append_nil _).symm⟩

theorem takeEvent_events (s u : State) (cl : Nat) (e : Event) (h : s.takeEvent cl e = some u) : ∃ more, (u.cluster cl).events = (s.cluster cl).events ++ more := by
  obtain ⟨m, hm⟩ := overflowQueued_events s cl
  unfold State.takeEvent at h
  dsimp only at h
  split at h
  · cases h; rw [State.cluster_setCluster, if_pos rfl]; exact ⟨m ++ [e], by dsimp only; rw [hm, List.append_assoc]⟩
  · split at h
    · cases h; rw [toOverflow_events]; exact ⟨m, hm⟩
    · cases h

theorem foldl_events {α : Type} (cl : Nat) (f : State → α → State) (h : ∀ s a, ∃ more, ((f s a).cluster cl).events = (s.cluster cl).events ++ more) (l : List α) (s : State) :
    ∃ more, ((l.foldl f s).cluster cl).events = (s.cluster cl).events ++ more := by
  induction l generalizing s with
  | nil => exact ⟨[], (List.append_nil _).symm⟩
  | cons a l ih =>
    obtain ⟨m, e⟩ := ih (f s a)
    obtain ⟨m', e'⟩ := h s a
    exact ⟨m' ++ m, by rw [List.foldl_cons, e, e', List.append_assoc]⟩

theorem drain_events (s : State) (cl : Nat) : ∃ more, ((s.drainEvents cl).cluster cl).events = (s.cluster cl).events ++ more := by
  obtain ⟨m, hm⟩ := overflowQueued_events s cl
  unfold State.drainEvents
  extract_lets s1
  have ap : ∀ n : List Event, (s.cluster cl).events ++ (m ++ n) = (s1.cluster cl).events ++ n := fun n => by rw [hm, List.append_assoc]
  refine Exists.imp' (m ++ ·) (fun n hn => hn.trans (ap n).symm) (foldl_events cl _ (fun s e => ?_) _ s1)
  split
  · split
    · rename_i s' h
      obtain ⟨m', e'⟩ := takeEvent_events _ _ _ _ h
      refine ⟨m', ?_⟩
      rw [State.cluster_modCluster, if_pos rfl]
      exact e'
    · exact ⟨[], (List.append_nil _).symm⟩
  · exact ⟨[], (List.append_nil _).symm⟩

theorem find_map {α : Type} (f : Nat → α → α) (t : Tab α) (k : Nat) : Tab.find (t.map fun p => (p.1, f p.1 p.2)) k = (t.find k).map (f k) := by
  induction t with
  | nil => rfl
  | cons p r ih => simp only [List.map_cons, Tab.find]; split <;> simp_all

theorem wakeParked_eq (s : State) (core course cls : Nat) : ∃ g : Nat → Course → Course,
    s.wakeParked core course cls = s.modCore core (fun k => { k with courses := k.courses.map fun p => (p.1, g p.1 p.2) }) ∧
    ∀ n c, (g n c).cnt = c.cnt ∧ (g n c).threads = c.threads ∧ (g n c).tstat = c.tstat := by
  refine ⟨fun (n : Nat) (c : Course) =>
    match c.park with
    | some (.queueFull k) => if k = cls then { c with wakeAt := some (c.wakeAt.getD (s.now + 32)) } else c
    | some (.counterFull k) => if k = cls ∧ n = course then { c with wakeAt := some (c.wakeAt.getD (s.now + 32)) } else c
    | _ => c, rfl, fun n c => ?_⟩
  dsimp only
  split
  · split <;> exact ⟨rfl, rfl, rfl⟩
  · split <;> exact ⟨rfl, rfl, rfl⟩
  · exact ⟨rfl, rfl, rfl⟩

/-! ### Memory -/

theorem eqn {i : Instr} {ok : State → Prop} {g : State → State} (f : State → State) (e : ∀ s, exec i s = s.whileRunning f)
    (h : ∀ s, s.phase = .running → ok s → f s = g s) : Happens i ok fun s t => t = { g s with issue := s.issue } :=
  happens f e fun s hp ho => congrArg (fun u : State => { u with issue := s.issue }) (h s hp ho)

theorem foldl_modThread (f : Thread → Option Nat) (l : List Nat) (c : Course) (hl : l.Nodup) (hb : ∀ i ∈ l, i < c.threads.length) :
    ∀ i, (l.foldl (fun c i => match f (c.thread i) with | some len => c.modThread i fun t => t.release len | none => c) c).thread i =
      if i ∈ l then (match f (c.thread i) with | some len => (c.thread i).release len | none => c.thread i) else c.thread i := by
  induction l generalizing c with
  | nil => intro i; simp
  | cons a l ih =>
    intro i
    rw [List.foldl_cons]
    rw [List.nodup_cons] at hl
    have ha := hb a List.mem_cons_self
    have key : ∀ j, (match f (c.thread a) with | some len => c.modThread a fun t => t.release len | none => c).thread j =
        if j = a then (match f (c.thread a) with | some len => (c.thread a).release len | none => c.thread a) else c.thread j := by
      intro j
      cases f (c.thread a) with
      | none => dsimp only; split <;> simp_all
      | some len => dsimp only; rw [Course.thread_modThread _ _ _ _ ha]; by_cases e : j = a <;> simp [e]
    have hlen : (match f (c.thread a) with | some len => c.modThread a fun t => t.release len | none => c).threads.length = c.threads.length := by
      cases f (c.thread a) <;> simp
    rw [ih _ hl.2 (fun j hj => by rw [hlen]; exact hb j (List.mem_cons_of_mem _ hj)), key]
    by_cases e : i = a
    · subst e
      rw [if_neg hl.1, if_pos rfl, if_pos List.mem_cons_self]
    · rw [if_neg e]
      by_cases m : i ∈ l <;> simp [m, e]

theorem line?_setLine (s : State) (l : LineMeta) : (s.setLine l).line? l.die l.line = some l := by
  unfold State.line? State.setLine
  rw [List.find?_append]
  have : (s.lines.filter fun x => decide (¬ (x.die = l.die ∧ x.line = l.line))).find? (fun x => decide (x.die = l.die ∧ x.line = l.line)) = none := by
    rw [List.find?_eq_none]; intro x hx; rw [List.mem_filter] at hx; have := hx.2; grind
  rw [this]; simp

theorem ensureLine_line (s : State) (d line : Nat) : (∃ l, (s.ensureLine d line).line? d line = some l ∧ l.die = d ∧ l.line = line) := by
  have found : ∀ (s : State) l, s.line? d line = some l → l.die = d ∧ l.line = line := fun s l h => by
    have := List.find?_some h; simpa using this
  have new : ∀ (s : State) (l : LineMeta), l.die = d → l.line = line → ∃ l', (s.setLine l).line? d line = some l' ∧ l'.die = d ∧ l'.line = line := by
    rintro s l rfl rfl; exact ⟨l, line?_setLine s l, rfl, rfl⟩
  unfold State.ensureLine
  split
  · rename_i l h; exact new _ _ (found s l h).1 (found s l h).2
  · dsimp only
    split
    · exact new _ _ rfl rfl
    · split
      · exact new _ _ rfl rfl
      · split <;> exact new _ _ rfl rfl

theorem ensureLine_misses (s : State) (d line : Nat) : (s.ensureLine d line).misses = s.misses := by
  unfold State.ensureLine
  split
  · rfl
  · dsimp only; split
    · rfl
    · split
      · rfl
      · split <;> rfl

theorem access?_drop (s : State) (id : Nat) : (s.dropAccess id).access? id = none := by
  unfold State.access? State.dropAccess
  rw [List.find?_eq_none]
  intro x hx
  rw [List.mem_filter] at hx
  simpa using hx.2

theorem access?_set (s : State) (a b : Access) (h : s.access? b.id = some a) : (s.setAccess b).access? b.id = some b := by
  unfold State.access? State.setAccess at *
  dsimp only
  generalize s.inflight = l at h
  induction l with
  | nil => cases h
  | cons x l ih =>
    rw [List.map_cons, List.find?_cons]
    rw [List.find?_cons] at h
    by_cases e : x.id = b.id
    · simp [e]
    · simp [e] at h ⊢
      simpa using ih (by simpa using h)

theorem startResize_rest (l : List (Nat × Nat × Nat × Nat × Nat)) (d : Nat) (s : State) :
    (State.startResize.go d s l).mem = s.mem ∧ (State.startResize.go d s l).pool = s.pool ∧ ((State.startResize.go d s l).die d).ways = (s.die d).ways := by
  induction l generalizing s with
  | nil => exact ⟨rfl, rfl, rfl⟩
  | cons a l ih =>
    obtain ⟨k, n, i, w, len⟩ := a
    unfold State.startResize.go
    split
    · exact ⟨rfl, rfl, rfl⟩
    · split
      · obtain ⟨a, b, c⟩ := ih (s.modCourse k n fun c => c.endWait s.now i len)
        have st : (s.modCourse k n fun c => c.endWait s.now i len).mem = s.mem ∧ (s.modCourse k n fun c => c.endWait s.now i len).pool = s.pool ∧
          (s.modCourse k n fun c => c.endWait s.now i len).die d = s.die d := by
          unfold State.modCourse; split <;> exact ⟨rfl, rfl, rfl⟩
        exact ⟨a.trans st.1, b.trans st.2.1, c.trans (congrArg Die.ways st.2.2)⟩
      · refine ⟨rfl, rfl, ?_⟩
        rw [State.die_modDie, if_pos rfl]

theorem rest_foldl {α : Type} (f : State → α → State) (h : ∀ s a, (f s a).mem = s.mem ∧ (f s a).pool = s.pool ∧ (f s a).dies = s.dies) (l : List α) (s : State) :
    (l.foldl f s).mem = s.mem ∧ (l.foldl f s).pool = s.pool ∧ (l.foldl f s).dies = s.dies := by
  induction l generalizing s with
  | nil => exact ⟨rfl, rfl, rfl⟩
  | cons a l ih => obtain ⟨x, y, z⟩ := ih (f s a); obtain ⟨p, q, r⟩ := h s a; exact ⟨x.trans p, y.trans q, z.trans r⟩

theorem dropWays_rest (s : State) (d w : Nat) : (s.dropWays d w).mem = s.mem ∧ (s.dropWays d w).pool = s.pool ∧ (s.dropWays d w).dies = s.dies :=
  rest_foldl State.evictLine (fun _ _ => ⟨rfl, rfl, rfl⟩) _ s

theorem dropScratch_rest (s : State) (d w : Nat) : (s.dropScratch d w).mem = s.mem ∧ (s.dropScratch d w).pool = s.pool ∧ (s.dropScratch d w).dies = s.dies :=
  rest_foldl State.evictLine (fun _ _ => ⟨rfl, rfl, rfl⟩) _ s

end Sys2Proof.Machine
end

