-- ==== Sys2Proof/Laws/Fetch.lean ====
section
/-! SUPPORT. A fetch that answers bits changes only caches and the parcels kept at hand. -/

namespace Sys2Proof.Machine

/-- The rest stays, and the course keeps its threads and uniform registers. -/
structure Looked (s t : State) (k n : Nat) : Prop extends Stays s t k n where
  issue : t.issue = s.issue
  course : ∃ f : Course → Course, (∀ c, (f c).threads = c.threads ∧ (f c).c = c.c ∧ (f c).cpend = c.cpend) ∧
    t.course? k n = (s.course? k n).map f

theorem Looked.rfl {s : State} {k n : Nat} : Looked s s k n :=
  ⟨.rfl, Eq.refl _, id, fun _ => ⟨Eq.refl _, Eq.refl _, Eq.refl _⟩, by simp⟩

theorem Looked.trans {s t u : State} {k n : Nat} (a : Looked s t k n) (b : Looked t u k n) : Looked s u k n := by
  obtain ⟨f, hf, ef⟩ := a.course
  obtain ⟨g, hg, eg⟩ := b.course
  refine ⟨a.toStays.trans b.toStays, b.issue.trans a.issue, g ∘ f, fun c => ?_, ?_⟩
  · have h1 := hg (f c); have h2 := hf c
    exact ⟨h1.1.trans h2.1, h1.2.1.trans h2.2.1, h1.2.2.trans h2.2.2⟩
  · rw [eg, ef, Option.map_map]

theorem looked_modCore (s : State) (k n i : Nat) (f : Core → Core) (hf : ∀ x, (f x).courses = x.courses) : Looked s (s.modCore i f) k n :=
  ⟨stays_modCore s k n i f hf, Eq.refl _, id, fun _ => ⟨Eq.refl _, Eq.refl _, Eq.refl _⟩, by simp [course?_modCore s i f hf]⟩

theorem looked_modCourse (s : State) (k n : Nat) (f : Course → Course)
    (hf : ∀ c, (f c).threads = c.threads ∧ (f c).c = c.c ∧ (f c).cpend = c.cpend) : Looked s (s.modCourse k n f) k n := by
  refine ⟨stays_modCourse s k n f, ?_, f, hf, ?_⟩
  · unfold State.modCourse; split <;> rfl
  · unfold State.modCourse
    split
    · next c hc => simp [hc]
    · next hc => simp [hc]

/-- A change of the state that keeps its cores, memory, pools and lane. -/
theorem looked_of_cores {s t : State} (k n : Nat) (hc : t.cores = s.cores) (hm : t.mem = s.mem) (hp : t.pool = s.pool) (hi : t.issue = s.issue) :
    Looked s t k n := by
  have e : ∀ j m, t.course? j m = s.course? j m := fun j m => by simp [State.course?, State.core, hc]
  exact ⟨⟨fun j m _ => e j m, hm, hp⟩, hi, id, fun _ => ⟨Eq.refl _, Eq.refl _, Eq.refl _⟩, by simp [e]⟩

theorem looked_makeRoom {α : Type} (s : State) (k n : Nat) (l : List α) (m : Nat) : Looked s (s.makeRoom l m).2 k n := by
  unfold State.makeRoom
  split
  · exact .rfl
  · exact looked_of_cores k n (Eq.refl _) (Eq.refl _) (Eq.refl _) (Eq.refl _)

theorem looked_served (s : State) (k n : Nat) (x : Loc) (m : Nat) : Looked s (s.served x m) k n := by
  obtain ⟨_, _, _, h⟩ := served_rest s x m
  rw [h]
  exact looked_of_cores k n (Eq.refl _) (Eq.refl _) (Eq.refl _) (Eq.refl _)

theorem looked_fillL1 (s : State) (k n i : Nat) (e : TlbEntry) : Looked s (s.fillL1 i e) k n := by
  unfold State.fillL1
  split
  · exact .rfl
  · have h := looked_makeRoom s k n ((s.core i).tlb.filter fun x => !x.samePage e) 64
    generalize s.makeRoom ((s.core i).tlb.filter fun x => !x.samePage e) 64 = r at h ⊢
    exact h.trans (looked_modCore r.2 k n i (fun c => { c with tlb := r.1 ++ [e] }) fun _ => Eq.refl _)

theorem looked_codeLine (s : State) (g : Issue) (va : Nat) (x : Loc) : Looked s (s.codeLine g va x).2 g.core g.course := by
  have hf : ∀ u : State, Looked u (State.codeLine.fromCache g va x u).2 g.core g.course := by
    intro u
    refine Looked.trans (t := if (u.core g.core).icache.any (fun l => decide (l.1 = lineKey x)) then u else u.served x.line16 16) ?_
      (Looked.trans (looked_modCore _ _ _ _ _ fun y => ?_) (looked_modCourse _ _ _ _ fun c => ⟨Eq.refl _, Eq.refl _, Eq.refl _⟩))
    · split
      · exact .rfl
      · exact looked_served _ _ _ _ _
    · split <;> rfl
  unfold State.codeLine
  split
  · split
    · exact .rfl
    · exact hf s
  · exact hf s

theorem looked_fetchParcel (s : State) (g : Issue) (ctx : Nat) (sup : Bool) (va : Word) {x : Nat}
    (h : (s.fetchParcel g ctx sup va).1 = .bits x) : Looked s (s.fetchParcel g ctx sup va).2 g.core g.course := by
  unfold State.fetchParcel at h ⊢
  split
  · exact .rfl
  · split
    · simp_all
    · next e he =>
      split
      · exact .rfl
      · split
        · simp_all
        · dsimp only
          have k1 := looked_fillL1 s g.core g.course g.core e
          split
          · exact k1
          · split
            · simp_all
            · split
              · simp_all
              · exact k1.trans (looked_codeLine _ _ _ _)
          · split
            · exact k1
            · split
              · exact k1
              · simp_all

theorem looked_parcelFor (s : State) (g : Issue) (ctx : Nat) (c : Course) (va : Word) {x : Nat}
    (h : (s.parcelFor g ctx c va).1 = .bits x) : Looked s (s.parcelFor g ctx c va).2 g.core g.course := by
  unfold State.parcelFor at h ⊢
  split
  · exact .rfl
  · next k hk =>
    have h1 := @looked_fetchParcel s g ctx (c.thread (g.slots.headD 0)).sup va
    rw [hk] at h
    dsimp only at h
    split
    · next y s' hy =>
      rw [hy] at h1
      exact (h1 rfl).trans (looked_modCourse _ _ _ _ fun _ => ⟨Eq.refl _, Eq.refl _, Eq.refl _⟩)
    · next hy =>
      split at h
      · next hz => exact absurd hz (hy _ _)
      · exact h1 h
  · next hk =>
    rw [hk] at h
    exact looked_fetchParcel _ _ _ _ _ h

theorem looked_captureFrom (s : State) (g : Issue) (ctx : Nat) (sup : Bool) (n : Nat) (va : Word) :
    Looked s (s.captureFrom g ctx sup n va).2 g.core g.course := by
  induction n generalizing s va with
  | zero => exact .rfl
  | succ n ih =>
    have h1 := @looked_fetchParcel s g ctx sup va
    rw [State.captureFrom]
    split
    · next y s' hy =>
      rw [hy] at h1
      exact (h1 rfl).trans (ih _ _)
    · exact ih _ _

theorem looked_captureNow (s : State) (g : Issue) (ctx : Nat) : Looked s (s.captureNow g ctx) g.core g.course := by
  unfold State.captureNow
  split
  · exact .rfl
  · split
    · exact .rfl
    · exact (looked_captureFrom _ _ _ _ _ _).trans (looked_modCourse _ _ _ _ fun _ => ⟨Eq.refl _, Eq.refl _, Eq.refl _⟩)

theorem looked_capture (s : State) (g : Issue) (ctx : Nat) (o : LoopOp) : Looked s (s.capture g ctx o) g.core g.course := by
  unfold State.capture
  split
  · exact .rfl
  · dsimp only
    split
    · exact .rfl
    · exact (looked_modCourse s g.core g.course (fun c => { c with recapture := some (o.first, o.last) })
        fun _ => ⟨Eq.refl _, Eq.refl _, Eq.refl _⟩).trans (looked_captureNow _ _ _)

end Sys2Proof.Machine
end

