-- ==== Sys2Proof/Laws/Issue.lean ====
section
/-! SUPPORT. Accesses begun by the memory instructions: what starting them can do. -/

namespace Sys2Proof.Machine

/-- What starting accesses to homes of the module leaves as it is. -/
structure Unhurt (s t : State) : Prop where
  courses : ∀ k n, t.course? k n = s.course? k n
  mem : t.mem = s.mem
  pool : t.pool = s.pool

theorem Unhurt.rfl {s : State} : Unhurt s s := ⟨fun _ _ => Eq.refl _, Eq.refl _, Eq.refl _⟩
theorem Unhurt.trans {s t u : State} (a : Unhurt s t) (b : Unhurt t u) : Unhurt s u :=
  ⟨fun k n => (b.courses k n).trans (a.courses k n), b.mem.trans a.mem, b.pool.trans a.pool⟩
theorem Unhurt.stays {s t : State} (a : Unhurt s t) (k n : Nat) : Stays s t k n := ⟨fun j m _ => a.courses j m, a.mem, a.pool⟩

theorem unhurt_modCore (s : State) (k : Nat) (f : Core → Core) (hf : ∀ x, (f x).courses = x.courses) : Unhurt s (s.modCore k f) :=
  ⟨fun j m => course?_modCore s k f hf j m, Eq.refl _, Eq.refl _⟩

/-- An access starts on a state: what its step of a fold does. -/
structure BegunBy (s t : State) (a : Access) : Prop where
  near : Unhurt s t
  next : t.nextId = s.nextId
  inflight : (∀ x ∈ s.inflight, x.id ≠ a.id) → ∃ b, t.inflight = s.inflight ++ [b] ∧ b.asked = a.asked ∧ b.id = a.id

theorem filter_fresh {l : List Access} {n : Nat} (h : ∀ x ∈ l, x.id ≠ n) : l.filter (fun x => decide (x.id ≠ n)) = l := by
  rw [List.filter_eq_self]; intro x hx; simp [h x hx]

theorem map_fresh {l : List Access} {a b : Access} (h : ∀ x ∈ l, x.id ≠ a.id) (he : b.id = a.id) :
    (l ++ [b]).map (fun x => if x.id = a.id then a else x) = l ++ [a] := by
  rw [List.map_append]
  congr 1
  · exact (List.map_congr_left (fun x hx => if_neg (h x hx))).trans (List.map_id l)
  · simp [he]

theorem begins_leave (s : State) (a0 : Access) (hl : a0.loc.isRemote = false) : BegunBy s (s.leave a0) a0 := by
  let a : Access := { a0 with st := .left }
  let s1 : State := { s.dropAccess a.id with inflight := (s.dropAccess a.id).inflight ++ [a] }
  have n1 : Unhurt s s1 := ⟨fun _ _ => rfl, rfl, rfl⟩
  have i1 : (∀ x ∈ s.inflight, x.id ≠ a0.id) → s1.inflight = s.inflight ++ [a] := by
    intro h; show (s.inflight.filter _) ++ [a] = _; rw [filter_fresh h]
  have b1 : BegunBy s s1 a0 := ⟨n1, rfl, fun h => ⟨a, i1 h, rfl, rfl⟩⟩
  have upd : ∀ f n, BegunBy s (s1.updateLine a.core a.loc f n) a0 := fun f n =>
    ⟨n1.trans (by unfold State.updateLine; exact unhurt_modCore _ _ _ fun _ => rfl), rfl, fun h => ⟨a, i1 h, rfl, rfl⟩⟩
  have inv : BegunBy s (s1.invalLine a.core a.loc) a0 :=
    ⟨n1.trans (by unfold State.invalLine; exact unhurt_modCore _ _ _ fun _ => rfl), rfl, fun h => ⟨a, i1 h, rfl, rfl⟩⟩
  have val : ∀ v, BegunBy s (s1.setAccess { a with st := .performed, val := v }) a0 := fun v =>
    ⟨n1.trans ⟨fun _ _ => rfl, rfl, rfl⟩, rfl, fun h => ⟨{ a with st := .performed, val := v }, by
      show s1.inflight.map _ = _
      rw [i1 h]; exact map_fresh (a := { a with st := .performed, val := v }) h rfl, rfl, rfl⟩⟩
  have hrem : ∀ d o, a0.loc ≠ .remote d o := by intro d o h; rw [h] at hl; cases hl
  unfold State.leave
  extract_lets x y z old
  split
  all_goals first | (exact absurd ‹_› (hrem _ _)) | skip
  · split
    · exact b1
    · exact upd _ _
  · exact upd _ _
  · split
    · exact b1
    · exact inv
  · exact inv
  · exact b1
  · unfold State.leaveLoad
    extract_lets hit
    split
    · exact absurd ‹_› (hrem _ _)
    · clear_value hit
      cases hit with
      | some l => exact val _
      | none => exact b1

theorem begins_issue (s : State) (a : Access) (hl : a.loc.isRemote = false) : BegunBy s (s.issueAccess a) a := by
  unfold State.issueAccess
  extract_lets after
  split
  · have := begins_leave s { a with after := [] } hl
    exact ⟨this.near, this.next, this.inflight⟩
  · exact ⟨⟨fun _ _ => rfl, rfl, rfl⟩, rfl, fun _ => ⟨_, rfl, rfl, rfl⟩⟩

/-! ### What a thread's accesses do to the course and the state -/

/-- What awaiting some accesses leaves of a thread. -/
abbrev awaitAll (new : List Access) (j : Nat) (t : Thread) : Thread := (new.filter fun a => decide (a.slot = j)).foldl (fun t a => a.awaited t) t

/-- A slot of a release store among `want`. -/
abbrev relSlot (want : List Access) (j : Nat) : Prop := ∃ a ∈ want, a.kind = .store true ∧ a.slot = j

/-- A course whose threads await `new`; the release stores' waits change only at the slots `free`. -/
structure Awaits (new : List Access) (free : Nat → Prop) (c d : Course) : Prop where
  length : d.threads.length = c.threads.length
  uni : d.c = c.c ∧ d.cpend = c.cpend
  threads : (∀ a ∈ new, a.slot < c.threads.length) → ∀ j, ∃ q, (¬ free j → q = (c.thread j).relAfter) ∧
    d.thread j = { awaitAll new j (c.thread j) with relAfter := q }

/-- A change of a course and a state begins the accesses `want`. -/
def Opens (f : Course × State → Course × State) (want : List Access) : Prop :=
  ∀ r, ∃ new, new.map Access.asked = want ∧ Awaits new (relSlot want) r.1 (f r).1 ∧
    ((∀ a ∈ want, a.loc.isRemote = false) → (∀ a ∈ r.2.inflight, a.id < r.2.nextId) →
      Unhurt r.2 (f r).2 ∧ (f r).2.inflight = r.2.inflight ++ new ∧ ∀ a ∈ (f r).2.inflight, a.id < (f r).2.nextId)

theorem awaited_rel (a : Access) (t : Thread) (q : List Await) : a.awaited { t with relAfter := q } = { a.awaited t with relAfter := q } := by
  have e : ∀ (l : List RegRef) (t : Thread), l.foldl (fun t d => t.awaitReg d a.id) { t with relAfter := q } =
      { l.foldl (fun t d => t.awaitReg d a.id) t with relAfter := q } := by
    intro l
    induction l with
    | nil => intro t; rfl
    | cons d l ih => intro t; rw [List.foldl_cons, List.foldl_cons, ← ih]; rfl
  unfold Access.awaited
  cases a.part with
  | none => dsimp only; rw [e]; split <;> rfl
  | some p => dsimp only; split <;> rfl

theorem awaited_keeps (a : Access) (t : Thread) : (a.awaited t).relAfter = t.relAfter := by
  have e : ∀ (l : List RegRef) (t : Thread), (l.foldl (fun t d => t.awaitReg d a.id) t).relAfter = t.relAfter := by
    intro l
    induction l with
    | nil => intro t; rfl
    | cons d l ih => intro t; rw [List.foldl_cons, ih]; rfl
  unfold Access.awaited
  cases a.part with
  | none => dsimp only; split <;> exact e _ _
  | some p => dsimp only; split <;> rfl

theorem foldl_rel (l : List Access) (t : Thread) (q : List Await) :
    l.foldl (fun t a => a.awaited t) { t with relAfter := q } = { l.foldl (fun t a => a.awaited t) t with relAfter := q } := by
  induction l generalizing t with
  | nil => rfl
  | cons a l ih => rw [List.foldl_cons, List.foldl_cons, awaited_rel, ih]

theorem foldl_keeps (l : List Access) (t : Thread) : (l.foldl (fun t a => a.awaited t) t).relAfter = t.relAfter := by
  induction l generalizing t with
  | nil => rfl
  | cons a l ih => rw [List.foldl_cons, ih, awaited_keeps]

theorem Awaits.rfl {P : Nat → Prop} (c : Course) : Awaits [] P c c :=
  ⟨Eq.refl _, ⟨Eq.refl _, Eq.refl _⟩, fun _ j => ⟨(c.thread j).relAfter, fun _ => Eq.refl _, Eq.refl _⟩⟩

theorem Awaits.trans {v w : List Access} {P Q R : Nat → Prop} {a b c : Course} (x : Awaits v P a b) (y : Awaits w Q b c)
    (hp : ∀ j, P j → R j) (hq : ∀ j, Q j → R j) :
    Awaits (v ++ w) R a c := by
  refine ⟨y.length.trans x.length, ⟨y.uni.1.trans x.uni.1, y.uni.2.trans x.uni.2⟩, fun h j => ?_⟩
  obtain ⟨q1, e1, h1⟩ := x.threads (fun a ha => h a (by simp [ha])) j
  obtain ⟨q2, e2, h2⟩ := y.threads (fun a ha => by rw [x.length]; exact h a (by simp [ha])) j
  refine ⟨q2, fun r => ?_, ?_⟩
  · rw [e2 fun k => r (hq j k), h1]; exact e1 fun k => r (hp j k)
  · rw [h2, h1]
    show { awaitAll w j { awaitAll v j (a.thread j) with relAfter := q1 } with relAfter := q2 } = _
    rw [awaitAll, foldl_rel]
    simp only [awaitAll, List.filter_append, List.foldl_append]

theorem opens_id : Opens (fun r => r) [] := fun r => ⟨[], rfl, .rfl _, fun _ h => ⟨.rfl, by simp, h⟩⟩

theorem opens_comp {f g : Course × State → Course × State} {v w : List Access} (hf : Opens f v) (hg : Opens g w) :
    Opens (fun r => g (f r)) (v ++ w) := by
  intro r
  obtain ⟨n1, a1, b1, c1⟩ := hf r
  obtain ⟨n2, a2, b2, c2⟩ := hg (f r)
  refine ⟨n1 ++ n2, by rw [List.map_append, a1, a2], b1.trans b2 (fun _ ⟨a, ha, h⟩ => ⟨a, by simp [ha], h⟩) (fun _ ⟨a, ha, h⟩ => ⟨a, by simp [ha], h⟩), fun hl hi => ?_⟩
  obtain ⟨x1, y1, z1⟩ := c1 (fun a ha => hl a (by simp [ha])) hi
  obtain ⟨x2, y2, z2⟩ := c2 (fun a ha => hl a (by simp [ha])) z1
  exact ⟨x1.trans x2, by rw [y2, y1, List.append_assoc], z2⟩

theorem opens_fold {α : Type} {f : Course × State → α → Course × State} {want : α → List Access} (h : ∀ e, Opens (fun r => f r e) (want e))
    (l : List α) : Opens (fun r => l.foldl f r) (l.flatMap want) := by
  induction l with
  | nil => exact opens_id
  | cons a l ih => exact opens_comp (h a) ih

/-- Accesses begun after a change that touches no access, and before one that a release store leaves. -/
theorem opens_around {f : Course × State → Course × State} {want : List Access} (pre post : Course × State → Course × State) (hf : Opens f want)
    (hp : ∀ r, Unhurt r.2 (pre r).2 ∧ (pre r).2.inflight = r.2.inflight ∧ (pre r).2.nextId = r.2.nextId)
    (hc : ∀ r, Awaits [] (relSlot want) r.1 (pre r).1)
    (hq : ∀ r, (post r).2 = r.2 ∧ Awaits [] (relSlot want) r.1 (post r).1) : Opens (fun r => post (f (pre r))) want := by
  intro r
  obtain ⟨new, a, b, c⟩ := hf (pre r)
  obtain ⟨p1, p2, p3⟩ := hp r
  obtain ⟨q1, q2⟩ := hq (f (pre r))
  refine ⟨new, a, ?_, fun h1 h2 => ?_⟩
  · have := (hc r).trans (b.trans q2 (fun _ => id) fun _ => id) (fun _ => id) fun _ => id
    simpa using this
  · obtain ⟨x, y, z⟩ := c h1 (by rw [p2, p3]; exact h2)
    rw [q1]
    exact ⟨p1.trans x, y.trans (by rw [p2]), z⟩

theorem awaited_congr {a b : Access} (h : a.id = b.id) (e : a.asked = b.asked) : a.awaited = b.awaited := by
  have h1 : a.dst = b.dst := (by have := congrArg Access.dst e; exact this)
  have h2 : a.kind = b.kind := (by have := congrArg Access.kind e; exact this)
  have h3 : a.part = b.part := (by have := congrArg Access.part e; exact this)
  funext t
  simp only [Access.awaited, h, h1, h2, h3]

theorem awaits_one (c : Course) (a : Access) (P : Nat → Prop) : Awaits [a] P c (c.modThread a.slot a.awaited) := by
  refine ⟨by simp, ⟨rfl, rfl⟩, fun h j => ⟨(c.thread j).relAfter, fun _ => rfl, ?_⟩⟩
  rw [Course.thread_modThread _ _ _ _ (h a (by simp))]
  by_cases e : j = a.slot
  · subst e
    have := awaited_keeps a (c.thread a.slot)
    simp only [awaitAll, List.filter_cons, decide_true, if_true, List.filter_nil, List.foldl_cons, List.foldl_nil]
    rw [← this]
  · simp [awaitAll, e, Ne.symm e]

/-- One access begun, with the number that the state gives it. -/
theorem opens_access {f : Course × State → Course × State} {pre : State → State} {mk : State → Access} {want : Access}
    (hp : ∀ s, Unhurt s (pre s) ∧ (pre s).inflight = s.inflight ∧ (pre s).nextId = s.nextId)
    (hm : ∀ s, (mk s).id = s.nextId ∧ (mk s).asked = want)
    (hf : ∀ r, f r = (r.1.modThread want.slot (mk (pre r.2)).awaited, (pre r.2).newId.2.issueAccess (mk (pre r.2)))) : Opens f [want] := by
  intro r
  obtain ⟨p1, p2, p3⟩ := hp r.2
  obtain ⟨m1, m2⟩ := hm (pre r.2)
  have hc : (f r).1 = r.1.modThread want.slot (mk (pre r.2)).awaited := by rw [hf r]
  have hs : (f r).2 = (pre r.2).newId.2.issueAccess (mk (pre r.2)) := by rw [hf r]
  generalize mk (pre r.2) = a at m1 m2 hc hs
  generalize hs1 : (pre r.2).newId.2 = s1 at hs
  have aslot : a.slot = want.slot := (by have := congrArg Access.slot m2; exact this)
  have aloc : a.loc = want.loc := (by have := congrArg Access.loc m2; exact this)
  have i1 : s1.inflight = r.2.inflight := by subst hs1; exact p2
  have n1 : s1.nextId = r.2.nextId + 1 := by subst hs1; exact congrArg (· + 1) p3
  have u1 : Unhurt (pre r.2) s1 := by subst hs1; exact ⟨fun _ _ => rfl, rfl, rfl⟩
  by_cases hl : want.loc.isRemote = false ∧ ∀ a ∈ r.2.inflight, a.id < r.2.nextId
  · have bg := begins_issue s1 a (aloc ▸ hl.1)
    have hfr : ∀ y ∈ s1.inflight, y.id ≠ a.id := by
      intro y hy
      have := hl.2 y (i1 ▸ hy)
      rw [m1, p3]; omega
    obtain ⟨b, e1, e2, e3⟩ := bg.inflight hfr
    have hslot : b.slot = want.slot := (by have := congrArg Access.slot (e2.trans m2); exact this)
    refine ⟨[b], by simp [e2, m2], ?_, fun _ _ => ⟨?_, ?_, ?_⟩⟩
    · rw [hc, ← hslot, ← awaited_congr e3 e2]
      exact awaits_one _ _ _
    · rw [hs]
      exact (p1.trans u1).trans bg.near
    · rw [hs, e1, i1]
    · rw [hs, e1, i1]
      intro y hy
      rw [bg.next, n1]
      rcases List.mem_append.mp hy with hy | hy
      · have := hl.2 y hy; omega
      · simp only [List.mem_singleton] at hy
        rw [hy, e3, m1, p3]
        omega
  · refine ⟨[a], by simp [m2], ?_, fun h1 h2 => absurd ⟨h1 _ (List.mem_singleton.mpr rfl), h2⟩ hl⟩
    rw [hc, ← aslot]
    exact awaits_one _ _ _

theorem opens_start (G : Grp) (i : Nat) (va : Word) (x : Loc) (kind : AccKind) (w : BitVec 3) (nib : Bool) (data : BitVec 128) (cmp : Word)
    (dst : List RegRef) (after : List Await) (inval : Bool := false) :
    Opens (fun r => startAccess G r.2 r.1 i va x kind w nib data cmp dst after inval)
      [{ id := 0, core := G.g.core, course := G.g.course, slot := i, ord := 0, ipc := G.g.pc, va := va, kind := kind, w := w, nib := nib
         size := (match kind with | .cop _ => 256 | _ => accSize w), loc := x, data := data, cmp := cmp, dst := dst, inval := inval }] := by
  refine opens_access (pre := id) (fun s => ⟨.rfl, rfl, rfl⟩) (mk := fun s =>
    { id := s.nextId, core := G.g.core, course := G.g.course, slot := i, ord := s.nextOrd, ipc := G.g.pc, va := va, kind := kind
      w := w, nib := nib, size := (match kind with | .cop _ => 256 | _ => accSize w), loc := x, data := data, cmp := cmp, dst := dst, after := after
      inval := inval }) (fun s => ⟨rfl, rfl⟩) fun r => ?_
  refine Prod.ext ?_ rfl
  unfold startAccess
  dsimp only
  congr 1
  funext t
  simp only [Access.awaited, State.newId]
  cases kind with
  | load q => cases q <;> rfl
  | store q => rfl
  | atom o n => rfl
  | cop o => rfl

/-- A group whose accesses began passes. -/
theorem issued_finish {s u : State} {G : Grp} {x : LaneI} (r : Runs s G x) (hu : Unhurt s u) (hi : u.inflight = s.inflight) (hn : u.nextId = s.nextId)
    {f : Course → State → Course × State} {want : List Access} (hf : Opens (fun r => f r.1 r.2) want) (hs : ∀ a ∈ want, a.slot ∈ G.g.slots) :
    Issued s (u.finishMem G x f) G x.len want := by
  let v := u.modCourse G.g.core G.g.course fun c => { c with lostDests := [] }
  have hv : v.inflight = u.inflight ∧ v.nextId = u.nextId := by
    show (u.modCourse _ _ _).inflight = _ ∧ (u.modCourse _ _ _).nextId = _
    unfold State.modCourse; split <;> exact ⟨rfl, rfl⟩
  have sv : Stays u v G.g.core G.g.course := stays_modCourse _ _ _ _
  obtain ⟨new, e1, e2, e3⟩ := hf (G.cs, v)
  dsimp only at e2 e3
  have hslots : ∀ a ∈ new, a.slot ∈ G.g.slots := by
    intro a ha
    have := hs a.asked (by rw [← e1]; exact List.mem_map_of_mem ha)
    exact this
  unfold State.finishMem
  extract_lets q marks
  let c' : Course := { q.1 with lostDests := q.1.lostDests ++ marks.filter fun d => !q.1.lostDests.contains d }
  have hlen : c'.threads.length = G.cs.threads.length := e2.length
  have hth := completeAll_thread G x c' r.lane.nodup (by rw [hlen]; exact r.lane.range)
  have hth2 := e2.threads (fun a ha => r.lane.range _ (hslots a ha))
  obtain ⟨ts', hc'⟩ := completeAll_rest G x c'
  obtain ⟨⟨a, b, lb, rc, hcs⟩, ku⟩ := leaveLane_keeps q.2 G (if x.uni then 1 else x.per * G.g.slots.length) (stallCycles x.h + G.edgeCost x) (G.completeAll x c')
  have hcc : (G.completeAll x c').c = G.cs.c ∧ (G.completeAll x c').cpend = G.cs.cpend := by
    rw [hc']
    exact e2.uni
  refine ⟨rfl, new, _, e1, hcs, fun i hi => ?_, fun i hi => ((hth i).trans (if_neg hi)).trans ?_, hcc.1, hcc.2, fun g1 g2 => ?_⟩
  · obtain ⟨k, hk, ht⟩ := hth2 i
    refine ⟨k, fun h => hk fun ⟨a, ha, e, _⟩ => h a ha e, ((hth i).trans (if_pos hi)).trans ?_⟩
    exact congrArg (fun t : Thread => t.complete x.len) ht
  · obtain ⟨k, hk, ht⟩ := hth2 i
    refine Eq.trans (b := q.1.thread i) rfl (ht.trans ?_)
    have hnone : (new.filter fun a => decide (a.slot = i)) = [] := by
      rw [List.filter_eq_nil_iff]
      intro a ha; simp only [decide_eq_true_eq]; intro h; exact hi (h ▸ hslots a ha)
    have hk' := hk fun ⟨a, ha, _, hj⟩ => hi (hj ▸ hs a ha)
    show ({ awaitAll new i (G.cs.thread i) with relAfter := k } : Thread) = G.cs.thread i
    rw [awaitAll, hnone, hk']; rfl
  · obtain ⟨k1, k2, _⟩ := e3 g1 (by rw [hv.1, hv.2, hi, hn]; exact g2)
    have kk := (((hu.stays G.g.core G.g.course).trans sv).trans (k1.stays G.g.core G.g.course)).trans ku
    exact ⟨(show q.2.inflight = _ from k2).trans (by rw [hv.1, hi]), kk.mem, kk.pool, kk.courses⟩

/-! ### The shape of the memory instructions -/

theorem unhurt_fillL1 (s : State) (k : Nat) (e : TlbEntry) : Unhurt s (s.fillL1 k e) ∧ (s.fillL1 k e).inflight = s.inflight ∧ (s.fillL1 k e).nextId = s.nextId := by
  unfold State.fillL1
  split
  · exact ⟨.rfl, rfl, rfl⟩
  · have : ∀ {α : Type} (l : List α) n, Unhurt s (s.makeRoom l n).2 ∧ (s.makeRoom l n).2.inflight = s.inflight ∧ (s.makeRoom l n).2.nextId = s.nextId := by
      intro α l n
      unfold State.makeRoom
      split
      · exact ⟨.rfl, rfl, rfl⟩
      · exact ⟨⟨fun _ _ => rfl, rfl, rfl⟩, rfl, rfl⟩
    have h := this ((s.core k).tlb.filter fun x => !x.samePage e) 64
    generalize s.makeRoom ((s.core k).tlb.filter fun x => !x.samePage e) 64 = r at h ⊢
    exact ⟨h.1.trans (unhurt_modCore r.2 k (fun c => { c with tlb := r.1 ++ [e] }) fun _ => rfl), h.2.1, h.2.2⟩

theorem unhurt_fold {α : Type} {f : State → α → State} (h : ∀ s a, Unhurt s (f s a) ∧ (f s a).inflight = s.inflight ∧ (f s a).nextId = s.nextId) (l : List α) (s : State) :
    Unhurt s (l.foldl f s) ∧ (l.foldl f s).inflight = s.inflight ∧ (l.foldl f s).nextId = s.nextId := by
  induction l generalizing s with
  | nil => exact ⟨.rfl, rfl, rfl⟩
  | cons a l ih =>
    obtain ⟨a1, a2, a3⟩ := h s a
    obtain ⟨b1, b2, b3⟩ := ih (f s a)
    exact ⟨a1.trans b1, b2.trans a2, b3.trans a3⟩

theorem unhurt_touch (s : State) (G : Grp) (p : BitVec 2) (l : List (Nat × Word)) :
    Unhurt s (s.touchTlb G p l) ∧ (s.touchTlb G p l).inflight = s.inflight ∧ (s.touchTlb G p l).nextId = s.nextId := by
  unfold State.touchTlb
  refine unhurt_fold (fun s e => ?_) l s
  split
  · split
    · exact unhurt_fillL1 _ _ _
    · exact ⟨.rfl, rfl, rfl⟩
  · exact ⟨.rfl, rfl, rfl⟩

theorem homeCheck_mem {s : State} {G : Grp} {n : Need} {w : Bool} {l : List (Nat × Word × Option Place)} {ls : List (Nat × Word × Loc)} (h : s.homeCheck G n w l = .ok ls) :
    ∀ e ∈ ls, ∃ p ∈ l, p.1 = e.1 := by
  unfold State.homeCheck at h
  extract_lets core missing virt at h
  generalize hm : missing = mi at h
  cases mi with
  | some m =>
    exfalso
    dsimp only at h
    subst h
    obtain ⟨e, _, he⟩ := List.exists_of_findSome?_eq_some hm
    repeat' split at he
    all_goals simp at he
  | none =>
    dsimp only at h
    split at h
    · cases h
    · split at h
      · cases h
      · injection h with h
        subst h
        intro e he
        obtain ⟨p, hp, he⟩ := List.mem_filterMap.mp he
        refine ⟨p, hp, ?_⟩
        repeat' split at he
        all_goals simp at he
        all_goals (rw [← he])

theorem memCheck_mem {s : State} {G : Grp} {p : BitVec 2} {n : Need} {size al : Nat} {w : Bool} {eas : List (Nat × Word)} {ls : List (Nat × Word × Loc)} (h : s.memCheck G p n size al w eas = .ok ls) :
    ∀ e ∈ ls, ∃ x ∈ eas, x.1 = e.1 := by
  unfold State.memCheck at h
  dsimp only at h
  split at h
  · cases h
  · split at h
    · cases h
    · split at h
      · cases h
      · intro e he
        obtain ⟨q, hq, e1⟩ := homeCheck_mem h e he
        obtain ⟨x, hx, rfl⟩ := List.mem_map.mp hq
        exact ⟨x, hx, e1⟩

theorem begins_memOp {i : Instr} {l : LaneI} {p : BitVec 2} {n : Need} {size : Nat} {watch reads writes : Bool} {ea : (Rd → Word) → Word}
    {f : State → Grp → Nat → Word → Loc → Course × State → Course × State} {want : Grp → Nat × Word × Loc → List Access}
    (h : ∀ s, exec i s = s.memOp l p n size size watch reads writes ea (f s))
    (ho : ∀ s G e, Opens (f s G e.1 e.2.1 e.2.2) (want G e)) (hs : ∀ G e, ∀ a ∈ want G e, a.slot = e.1) :
    Begins i l p n size watch reads writes ea want := by
  intro s G ls r hm hg
  have ht := unhurt_touch s G p ((G.active l).map fun j => (j, ea (G.read l j)))
  refine ⟨_, (h s).trans (withGroup_to r.lane (t := (s.touchTlb G p ((G.active l).map fun j => (j, ea (G.read l j)))).finishMem G l fun c u =>
      ls.foldl (fun r e => f s G e.1 e.2.1 e.2.2 r) (c, u)) ?_ rfl), issued_finish r ht.1 ht.2.1 ht.2.2 (opens_fold (ho s G) ls) ?_⟩
  · rw [r.ok]
    dsimp only
    rw [hm]
    dsimp only
    rw [hg]
  · intro a ha
    obtain ⟨e, he, ha⟩ := List.mem_flatMap.mp ha
    obtain ⟨x, hx, hxe⟩ := memCheck_mem hm e he
    obtain ⟨j, hj, rfl⟩ := List.mem_map.mp hx
    rw [hs G e a ha, ← hxe]
    exact r.sub j hj

end Sys2Proof.Machine
end

