-- ==== Sys2Proof/Tests/Slice0.lean ====
section
/-! SUPPORT. The model's own tests: decoding of words from the encoding tables, ill-formed terms refused, a state that meets
the hypotheses of each statement, and single instructions with results taken from the rules of the spec. -/

/- Each test below that the kernel evaluates waits for it; in turn, they need no more than one thread. -/
set_option Elab.async false

namespace Sys2Proof.Tests
open Sys2Proof Sys2Proof.Machine

/-! ## Decoding: for each family, words written out from the encoding tables (R174, R176, R178, R181, R183 to R187) -/

abbrev uh : Hdr := { n := false, g := 15, s := 0 }

theorem test_decode_compact : decodeBits 0x8860 = .ok (.movC { u := true, a := 2, d := 3 }) := rfl
theorem test_decode_nop : decodeBits 0x801E = .ok .nopC := rfl
theorem test_decode_integer : decodeBits 0x0C410159 = .ok (.iadd { h := { n := true, g := 5, s := 2 }, u := false, b := 3, a := 2, d := 1 }) := rfl
theorem test_decode_modifier : decodeBits 0x000000050C4100F3 =
    .ok (.iaddL { r := { h := uh, u := false, b := 3, a := 2, d := 1 }, m := { Modifier.zero with nega := true, sat := 1 } }) := rfl
theorem test_decode_floating : decodeBits 0x98A460F1 = .ok (.fadd { h := uh, u := true, b := 6, a := 5, d := 4 }) := rfl
theorem test_decode_predicate : decodeBits 0x8C413EF1 = .ok (.qlopXor { h := uh, b := 3, a := 2, d := 1 }) := rfl
theorem test_decode_immediate : decodeBits 0xFD0784F1 = .ok (.iaddi { h := uh, i := 0x3F, a := 8, d := 7 }) := rfl
theorem test_decode_load : decodeBits 0x1041A0F1 = .ok (.ld { h := uh, o := false, p := 0, w := 4, a := 2, d := 1 }) := rfl
theorem test_decode_store : decodeBits 0xD528A2F1 = .ok (.st { h := uh, o := true, p := 2, w := 5, a := 9, d := 8 }) := rfl
theorem test_decode_fence : decodeBits 0x0160B6F1 = .ok (.fenceAcq { h := uh, p := 3 }) := rfl
theorem test_decode_branch : decodeBits 0xFFFEC0F1 = .ok (.bra { h := uh, i := 0xFFFE }) := rfl
theorem test_decode_loop : decodeBits 0x0143CCF1 = .ok (.loop { h := uh, e := 5, u := false, t := 3 }) := rfl
theorem test_decode_lcfg : decodeBits 0x0480D0F1 = .ok (.lcfg { h := uh, k := 1, z := 4 }) := rfl
theorem test_decode_trap : decodeBits 0x0540D6F1 = .ok (.trap { h := uh, i := 0x2A }) := rfl
theorem test_decode_engine : decodeBits 0x0A00F2F1 = .ok (.tmma { h := uh, v := 5 }) := rfl
theorem test_decode_accumulator : decodeBits 0x0003FCF1 = .ok (.accZero { h := uh, hd := 3 }) := rfl
theorem test_decode_secondary : decodeBits 0x000100E60024FEF3 =
    .ok (.idivIL { h := uh, u := false, d := 4, i := 1, p := 0, bu := false, au := false, b := 7, a := 6 }) := rfl
theorem test_decode_system : decodeBits 0x000500002002FEF3 =
    .ok (.csrrL { h := uh, u := false, d := 2, i := 5, p := 0, bu := false, au := false, b := 0, a := 0 }) := rfl
theorem test_decode_illegal : decodeBits 0x0C419CF1 = .error .illegal := rfl
theorem test_decode_reserved_guard : decodeBits 0x0C4100C1 = .error .reservedGuard ∧ decodeBits 0x0C4101F1 = .error .reservedGuard := ⟨rfl, rfl⟩

/-! ## Well-formedness: for each check, a term that it refuses -/

abbrev wr : R3 := { h := uh, u := false, b := 0, a := 0, d := 0 }
abbrev wm (m : Modifier) : R3m := { r := wr, m := m }
abbrev we (i : BitVec 16) : E64 := { h := uh, u := false, d := 0, i := i, p := 0, bu := false, au := false, b := 0, a := 0 }
abbrev wme (w : BitVec 3) (d : Reg) : Me := { h := uh, o := false, p := 0, w := w, a := 0, d := d }
abbrev z : Modifier := Modifier.zero

theorem test_wf_guard_reserved : ∀ g ∈ [12, 13, 14], (Instr.iadd { wr with h := { uh with g := g } }).wellFormed = false := by decide
theorem test_wf_guard_sense : (Instr.iadd { wr with h := { uh with n := true } }).wellFormed = false := by decide
theorem test_wf_modifier_c : (Instr.iaddL (wm { z with cp := true })).wellFormed = false ∧ (Instr.imacL (wm { z with c := 1 })).wellFormed = false ∧
    (Instr.imacL (wm { z with cu := true })).wellFormed = false := by decide
theorem test_wf_class_i : (Instr.iaddL (wm { z with rnd := 1 })).wellFormed = false ∧ (Instr.iaddL (wm { z with k := 1 })).wellFormed = false ∧
    (Instr.iaddL (wm { z with sat := 3 })).wellFormed = false := by decide
theorem test_wf_class_l : (Instr.andL (wm { z with sat := 1 })).wellFormed = false ∧ (Instr.andL (wm { z with negd := true })).wellFormed = false ∧
    (Instr.andL (wm { z with nega := true })).wellFormed = false ∧ (Instr.andL (wm { z with absb := true })).wellFormed = false := by decide
theorem test_wf_class_c : (Instr.icmpEqL (wm { z with du := true })).wellFormed = false ∧ (Instr.icmpEqL (wm { z with negb := true })).wellFormed = false ∧
    (Instr.fcmpEqL (wm { z with sat := 1 })).wellFormed = false := by decide
theorem test_wf_class_x : (Instr.brxL { r := { h := uh, a := 0 }, m := { z with absa := true } }).wellFormed = false := by decide
theorem test_wf_predicate : (Instr.icmpEq { wr with d := 12 }).wellFormed = false ∧ (Instr.qlopAnd { h := uh, b := 12, a := 0, d := 0 }).wellFormed = false ∧
    (Instr.panyL { we 0 with p := 12 }).wellFormed = false ∧ (Instr.pfirst { h := uh, d := 12 }).wellFormed = false := by decide
theorem test_wf_codes : (Instr.fsfu { h := uh, f := 8, a := 0, d := 0 }).wellFormed = false ∧ (Instr.cvt { h := uh, f := 18, a := 0, d := 0 }).wellFormed = false ∧
    (Instr.cvt { h := uh, f := 31, a := 0, d := 0 }).wellFormed = false ∧ (Instr.cvtp { h := uh, f := 8, a := 0, d := 0 }).wellFormed = false := by decide
theorem test_wf_code_fields : (Instr.fsfuL { r := { h := uh, f := 1, a := 0, d := 0 }, m := { z with rnd := 1 } }).wellFormed = false ∧
    (Instr.cvtL { r := { h := uh, f := 4, a := 0, d := 0 }, m := { z with sat := 2 } }).wellFormed = false := by decide
theorem test_wf_shift_count : (Instr.shliL { h := uh, i := 64, a := 0, d := 0 }).wellFormed = false := by decide
theorem test_wf_pair : (Instr.ld (wme 6 1)).wellFormed = false ∧ (Instr.st (wme 6 31)).wellFormed = false ∧ (Instr.atomCas (wme 5 1)).wellFormed = false := by decide
theorem test_wf_atomic_width : (Instr.atomAdd (wme 6 0)).wellFormed = false ∧ (Instr.atomFadd (wme 5 0)).wellFormed = false := by decide
theorem test_wf_lcfg_ring : (Instr.lcfg { h := uh, k := 0, z := 1 }).wellFormed = false ∧ (Instr.lcfg { h := uh, k := 0, z := 17 }).wellFormed = false := by decide
theorem test_wf_bar_scope : (Instr.bar { h := uh, i := 0, p := 0 }).wellFormed = false := by decide
theorem test_wf_accumulator : (Instr.accZeroL { r := { h := uh, hd := 0 }, i := 1 }).wellFormed = false ∧
    (Instr.accSetexpL { r := { h := uh, v := 0, hd := 0 }, i := 64 + 63 }).wellFormed = false ∧
    (Instr.accRdrowL { r := { h := uh, v := 0, hd := 0 }, i := 64 }).wellFormed = false := by decide
theorem test_wf_extension : (Instr.idivIL (we 2)).wellFormed = false ∧ (Instr.frndL (we 4)).wellFormed = false ∧ (Instr.csrrL (we 4096)).wellFormed = false ∧
    (Instr.mapgetL (we 320)).wellFormed = false ∧ (Instr.lgetL (we 19)).wellFormed = false ∧ (Instr.tlbinvCtx (we 0)).wellFormed = false ∧
    (Instr.waitnL (we 256)).wellFormed = false ∧ (Instr.wpsetL (we 4)).wellFormed = false := by decide
theorem test_wf_extension_unused : (Instr.idivIL { we 0 with p := 1 }).wellFormed = false ∧ (Instr.brevL { we 0 with b := 1 }).wellFormed = false ∧
    (Instr.brevL { we 0 with bu := true }).wellFormed = false ∧ (Instr.csrwL { we 0 with d := 1 }).wellFormed = false ∧
    (Instr.csrrL { we 0 with a := 1 }).wellFormed = false ∧ (Instr.csrrL { we 0 with au := true }).wellFormed = false ∧
    (Instr.csrwL { we 0 with u := true }).wellFormed = false := by decide
theorem test_wf_layout_query : (Instr.mapchk { h := uh, v := 0, m := 0, hd := 0, x := 0, k := 6 }).wellFormed = false ∧
    (Instr.mapchk { h := uh, v := 0, m := 0, hd := 1, x := 0, k := 0 }).wellFormed = false ∧
    (Instr.bankq { h := uh, v := 0, m := 0, hd := 1, x := 1, k := 0 }).wellFormed = false := by decide

/-! ## States of the tests -/

/-- A live thread in supervisor mode. -/
def th0 : Thread := { live := true, sup := true, pc := 0x1000 }

/-- A course of thread `t`, alone. -/
def one (t : Thread) : Course := { threads := [t] }

/-- A task of one course, with one granule of scratchpad. -/
def tk0 : Task := { courses := [0], spG := [0], pvsz := 64 }

/-- The group of course 0 of core `k`, whose slot 0 is in the lane. -/
def grpOn (k : Nat) (c : Course) (t : Task) : Grp := { g := { core := k, course := 0, slots := [0], pc := 0x1000, t := 0 }, cs := c, tk := t }

/-- A module that runs, with that group in the lane of core `k`. -/
def laneOn (k : Nat) (c : Course) (t : Task) (x : Core) (s : State) : State :=
  { s with phase := .running, issue := some (grpOn k c t).g, cores := [(k, { x with courses := [(0, c)], tasks := [(0, t)] })] }

/-- Such a group passes the checks of any instruction that stays in its body, in supervisor mode. -/
theorem runs_on (k : Nat) (c : Course) (t : Task) (x : Core) (s : State) (l : LaneI) (h0 : c.task = 0) (hl : c.threads ≠ [])
    (hs : (c.thread 0).sup = true) (hu : t.uchk = false) (hb : t.sbchk = false) (ho : (c.thread 0).crosses l.len = false) :
    Runs (laneOn k c t x s) (grpOn k c t) l := by
  refine ⟨⟨rfl, ?_, by simp [grpOn], ?_⟩, by simp [grpOn], ?_⟩
  · simp [State.grp?, State.course?, State.task?, State.core, laneOn, grpOn, Tab.get, Tab.find, h0]
  · simp [grpOn]; exact List.length_pos_iff.2 hl
  · simp only [Grp.check, Grp.preCheck, Grp.crossing, grpOn, hu, hb]
    have : ∀ i ∈ Grp.active (grpOn k c t) l, i = 0 := by
      intro i hi
      unfold Grp.active at hi
      split at hi
      · split at hi <;> simp_all [grpOn, Grp.lowest]
      · simp [grpOn] at hi; exact hi.1
    have f : ∀ r, (∀ i ∈ r, i = 0) →
        List.findSome? (fun i => if (c.thread i).crosses l.len = true then some ({ code := 4, sub := 7, ipc := 0x1000, tmask := 2 ^ i } : Cause) else none) r = none := by
      intro r hr
      rw [List.findSome?_eq_none_iff]
      intro i hi
      rw [hr i hi, ho]; rfl
    simp only [List.filter_cons, List.filter_nil, hs, Bool.not_true, List.isEmpty_nil, Bool.and_false, Bool.false_eq_true, if_false]
    have g : ∀ (b : Bool) (i : Nat), i ∈ (if b = true then [0] else Grp.active (grpOn k c t) l) → i = 0 := fun b i hi => by
      cases b
      · exact this i hi
      · simpa using hi
    exact f _ (g _)

/-- The same for a thread outside every loop. -/
theorem runs_free (k : Nat) (c : Course) (t : Task) (x : Core) (s : State) (l : LaneI) (h : c.task = 0 ∧ c.threads ≠ [] ∧ (c.thread 0).sup = true ∧
    t.uchk = false ∧ t.sbchk = false ∧ (c.thread 0).lopen = 0) : Runs (laneOn k c t x s) (grpOn k c t) l :=
  runs_on k c t x s l h.1 h.2.1 h.2.2.1 h.2.2.2.1 h.2.2.2.2.1 (by simp [Thread.crosses, Thread.inBody, h.2.2.2.2.2])

abbrev st0 : State := laneOn 0 (one th0) tk0 {} {}
abbrev G0 : Grp := grpOn 0 (one th0) tk0
abbrev stC : State := laneOn 128 (one th0) tk0 {} {}
abbrev GC : Grp := grpOn 128 (one th0) tk0

theorem runs0 (l : LaneI) : Runs st0 G0 l := runs_free _ _ _ _ _ l (by decide)
theorem runsC (l : LaneI) : Runs stC GC l := runs_free _ _ _ _ _ l (by decide)

/-! ## Hypotheses that can be met: for each statement with hypotheses, a state and operands that meet them -/

abbrev r3 : R3 := { h := openHdr, u := false, b := 31, a := 31, d := 0 }
abbrev r3m : R3m := { r := r3, m := Modifier.zero }
/-- A register operand of the secondary space: a is register 1. -/
abbrev e64 : E64 := { h := openHdr, u := false, d := 0, i := 0, p := 0, bu := false, au := false, b := 2, a := 1 }

theorem meets_IntegerArithmetic : Runs st0 G0 (view4 r3) := runs0 _
theorem meets_IntegerModified : Runs st0 G0 (laneR 8 r3m.r r3m.m true) := runs0 _
theorem meets_IntegerResult : ((32 = 32 ∨ 32 = 64) ∧ (64 = 32 ∨ 64 = 64)) ∧ ∀ n : BitVec 2, { Modifier.zero with sat := n }.sat = n := ⟨⟨.inl rfl, .inr rfl⟩, fun _ => rfl⟩
theorem meets_Logic : Runs st0 G0 { len := 8, h := openHdr, uni := true, rd := [.c 31] } := runs0 _
theorem meets_Shifts : Runs st0 G0 (laneR 8 r3m.r r3m.m false) := runs0 _
theorem meets_BitFields : Runs st0 G0 (view4 r3) := runs0 _
theorem meets_IntegerCompares : Runs st0 G0 (view4 r3) := runs0 _
theorem meets_FloatCompares : Runs st0 G0 (view4 r3) := runs0 _
theorem meets_PredicateLogic : Runs st0 G0 { len := 4, h := openHdr, rd := [.q 0, .q 11] } := runs0 _
theorem meets_FloatArithmetic : Runs st0 G0 { view4 r3 with rd := [.v 0, .v 31, .v 31] } := runs0 _
theorem meets_FunctionsAndConversions : Runs st0 G0 { len := 4, h := openHdr, rd := [.v 31], per := 4 } := runs0 _
theorem meets_Immediates : Runs st0 G0 { len := 8, h := openHdr, rd := [.v 31] } := runs0 _
theorem meets_Compact : Runs st0 G0 { len := 2, h := openHdr, rd := [.v 3, src true 7] } := runs0 _
theorem meets_Secondary : Runs st0 G0 (laneE 8 e64 [extA e64, extB e64]) := runs0 _
theorem meets_NopPasses : Runs st0 G0 { len := 2, h := openHdr } := runs0 _
theorem meets_PredicateWords : Runs st0 G0 (laneE 8 e64 [extA e64]) := runs0 _
theorem meets_Exchanges : Runs st0 G0 (laneE 8 e64 [extA e64, extB e64] true) := runs0 _
theorem meets_GuardSlots : Runs st0 G0 (laneE 8 e64 [.q e64.p]) := runs0 _
theorem meets_Divisions : Runs st0 G0 { laneE 8 e64 [extA e64, extB e64] with per := 8 } := runs0 _
theorem meets_Fences : Runs st0 G0 { len := 4, h := openHdr } ∧ Runs stC GC { len := 4, h := openHdr } := ⟨runs0 _, runsC _⟩
theorem meets_Waits : Runs st0 G0 { len := 4, h := openHdr } ∧ Runs st0 G0 (laneE 8 e64 [extA e64, extB e64]) := ⟨runs0 _, runs0 _⟩

theorem meets_Branches : Runs st0 G0 { len := 4, h := openHdr, rd := [.v 1] } ∧
    ∀ j ∈ G0.active { len := 4, h := openHdr, rd := [.v 1] }, (G0.read { len := 4, h := openHdr, rd := [.v 1] } j (.v 1)).getLsbD 0 = false :=
  ⟨runs0 _, by decide⟩

/-- A thread with three entries on its return stack, and one with four. -/
abbrev th3 : Thread := { th0 with depth := 3, rs := [2, 4, 6] }
abbrev th4 : Thread := { th0 with depth := 4, rs := [2, 4, 6, 8] }

theorem meets_CallsAndReturns : let l : LaneI := { len := 8, h := openHdr, rd := [.v 1] }
    (Runs (laneOn 0 (one th3) tk0 {} {}) (grpOn 0 (one th3) tk0) l ∧ ∀ j ∈ (grpOn 0 (one th3) tk0).active l,
      ((one th3).thread j).depth < 4 ∧ ((grpOn 0 (one th3) tk0).read l j (.v 1)).getLsbD 0 = false ∧
      ¬ (((one th3).thread j).inBody = true ∧ ((one th3).thread j).pc + BitVec.ofNat 64 l.len = ((one th3).thread j).level.lend + 2)) ∧
    Runs (laneOn 0 (one th4) tk0 {} {}) (grpOn 0 (one th4) tk0) l ∧
      ∀ j ∈ (grpOn 0 (one th4) tk0).active l, 0 < ((one th4).thread j).depth ∧ ((one th4).thread j).depth ≤ 4 :=
  ⟨⟨runs_free _ _ _ _ _ _ (by decide), by decide⟩, runs_free _ _ _ _ _ _ (by decide), by decide⟩

/-- A thread in the body of a loop from 0x1000 to 0x1010. -/
abbrev thL : Thread := { th0 with lopen := 1, lv := Vector.replicate 4 { cnt := 2, str := 0x1000, lend := 0x1010 } }

theorem meets_ExitYieldBreak : let l : LaneI := { len := 4, h := openHdr }
    Runs (laneOn 0 (one thL) tk0 {} {}) (grpOn 0 (one thL) tk0) l ∧
      ∀ j ∈ (grpOn 0 (one thL) tk0).active l, ((one thL).thread j).inBody = true :=
  ⟨runs_on _ _ _ _ _ _ rfl (by decide) rfl rfl rfl (by decide), by decide⟩

theorem meets_Convergence : let l : LaneI := { len := 4, h := openHdr }
    (Runs stC GC l ∧ isCtl GC.g.core = true) ∧ Runs st0 G0 l ∧ isCtl G0.g.core = false ∧ G0.active l ≠ [] :=
  ⟨⟨runsC _, by decide⟩, runs0 _, by decide, by decide⟩

theorem meets_SpecialReads : Runs st0 G0 (laneE 8 e64 [] false true) ∧ csrAssigned 0 = true ∧ csrAssigned 0x0F1 = true ∧
    ((5 < 6 ∨ 5 = 6 ∧ 0 % 32 ≤ 18) ∧ ((6 : Nat) < 6 ∨ 6 = 6 ∧ 18 % 32 ≤ 18)) := ⟨runs0 _, by decide, by decide, by decide⟩

/-- A task whose handles are accumulator tile 0, readable and writable. -/
abbrev tkA : Task := { tk0 with h := Vector.replicate 16 0x60300000000100000000000000000000, accG := [0, 1, 2, 3] }

theorem meets_Inspection : Runs st0 G0 (laneE 8 e64 [extA e64]) ∧ (30 : Reg).getLsbD 0 = false ∧
    (1 ≤ hKind (tkA.handle 15) ∧ hKind (tkA.handle 15) ≤ 6) ∧
    0 < G0.cs.threads.length ∧ ∀ q, Rd.v 31 ≠ .q q := ⟨runs0 _, by decide, by decide +kernel, by decide, by simp⟩

theorem meets_RegisterWrites : Runs st0 G0 (laneE 8 e64 [extA e64] false (csrSup 0x0F1)) ∧ csrAssigned 0x0F1 = true ∧
    (∀ f, csrFields 0x0F1 = some f → ∀ j ∈ G0.active (laneE 8 e64 [extA e64]), csrRz f .write (G0.read (laneE 8 e64 [extA e64]) j (extA e64)) = false) ∧
    csrAssigned 0x010 = true ∧ csrFields 0x010 = none := by
  refine ⟨runs0 _, by decide, ?_, by decide, by decide⟩
  intro f hf; cases hf; decide

theorem meets_RegisterStored : st0.course? 0 0 = some (one th0) ∧ st0.task? 0 (one th0).task = some tk0 ∧
    csrFields 0x022 = some ⟨0, 0xC00, 0x1FF⟩ ∧ (0xDFF : Word) &&& ~~~(0 ||| 0xC00 ||| 0x1FF) = 0 ∧
    csrFields 0x0F1 = some ⟨0xFFFFFFFFFFFFFFFE, 0, 0⟩ ∧ (0xFFFFFFFFFFFFFFFE : Word) &&& ~~~(0xFFFFFFFFFFFFFFFE ||| 0 ||| 0) = 0 :=
  ⟨rfl, rfl, rfl, by decide, rfl, by decide⟩

/-- A course whose thread 0 runs the handler of a trap. -/
abbrev cH : Course := { one th0 with trap := .handler 0 }
/-- A thread that has asked for 3 ways. -/
abbrev thW : Thread := { th0 with wait := .cresize 3 4 }

theorem meets_SupervisorFunctions :
    (let l : LaneI := { len := 4, h := openHdr, priv := true }; let s := laneOn 0 cH tk0 {} {}; let G := grpOn 0 cH tk0
     Runs s G l ∧ (∃ j, G.cs.trap = .handler j) ∧ G.active l ≠ [] ∧ s.writesPending G.g.core G.g.course = false ∧
      s.physNat (frameSlot G.g.core G.g.course + 0x18) 8 % 4 < 2) ∧
    (let t : Thread := { th0 with v := Vector.replicate 32 15 }; let G := grpOn 0 (one t) tk0; let l := laneE 8 e64 [extA e64] false true
     Runs (laneOn 0 (one t) tk0 {} {}) G l ∧ ∀ j ∈ G.active l, (G.read l j (extA e64)).toNat ≤ 15) ∧
    (Runs st0 G0 (laneE 8 e64 [extA e64] false true) ∧ (14 : BitVec 16).toNat % 16 < 15) ∧
    (let s := laneOn 0 (one thW) tk0 {} {}
     s.resizers 0 = (0, 0, 0, 3, 4) :: [] ∧ (s.die 0).resize = none ∧ 3 ≠ (s.die 0).ways) :=
  ⟨⟨runs_free _ _ _ _ _ _ (by decide), ⟨0, rfl⟩, by decide, by decide, by decide⟩, ⟨runs_free _ _ _ _ _ _ (by decide), by decide⟩,
    ⟨runs0 _, by decide⟩, by decide⟩

theorem meets_LayoutAndHandleWrites : Runs st0 G0 (laneE 8 e64 [extA e64]) ∧ Runs st0 G0 { len := 4, h := openHdr, rd := [.v 30, .v 31] } ∧
    (30 : Reg).getLsbD 0 = false ∧ (0 < 10 ∧ 9 < 10 ∧ 2 ^ 64 - 1 < 2 ^ 64) := ⟨runs0 _, runs0 _, by decide, by decide⟩

/-- An answer of the memory checks is accepted with these homes. -/
def MemEnd.homes : MemEnd → Option (List (Nat × Word × Loc))
  | .ok l => some l
  | _ => none

theorem homes_ok {m : MemEnd} {l : List (Nat × Word × Loc)} (h : MemEnd.homes m = some l) : m = .ok l := by
  cases m <;> simp_all [MemEnd.homes]

theorem except_ok {α : Type} {m : Except Nat α} (h : m.toBool = true) : ∃ a, m = .ok a := by
  cases m
  · simp [Except.toBool] at h
  · exact ⟨_, rfl⟩

/-- A layout of one dimension of one 32-bit element, in memory and in registers of thread 0. -/
abbrev memL : BitVec 640 := 0x100010000000000000411
abbrev regL : BitVec 640 := 0x30000000000010000000000000411
/-- A task with these layouts, a handle of 64 bytes of its scratchpad and one of register 0. -/
abbrev tkT : Task := { tk0 with
  m := (Vector.replicate 32 memL).set 1 regL, h := (Vector.replicate 16 0x20300000000000400000000000000000).set 1 0x10300000000000080000000000000000 }

theorem meets_LayoutOperations : let G := grpOn 0 (one th0) tkT; let l : LaneI := { len := 4, h := openHdr }
    Runs (laneOn 0 (one th0) tkT {} {}) G l ∧ (laneOn 0 (one th0) tkT {} {}).recordCheck G 0 8 true [] = .ok [] ∧
    (∃ tk, (G.active l).foldlM (fun tk _ => (orRefuse (flatLayout (tk.layout 0))).map (tk.setLayout 31)) G.tk = .ok tk) ∧
    (laneOn 0 (one th0) tkT {} {}).recordCheck G 80 8 true [(0, 16304)] = .ok [(0, 16304, .pool 0 16304)] ∧
    (laneOn 0 (one th0) tkT {} {}).recordBusy 0 0 tkT 16304 80 = false :=
  ⟨runs_free _ _ _ _ _ _ (by decide), homes_ok (by decide +kernel), except_ok (by decide +kernel), homes_ok (by decide +kernel), by decide⟩

theorem meets_Loads : let l : LaneI := { len := 4, h := openHdr, rd := [.v 1] }
    Runs st0 G0 l ∧ st0.memCheck G0 1 { r := true } 16 16 true ((G0.active l).map fun j => (j, effAddr 6 (G0.read l j (.v 1)) 16368)) = .ok [(0, 16368, .pool 0 16368)] ∧
      (st0.gate G0 true false 16 [(0, 16368, .pool 0 16368)]).isNone = true := ⟨runs0 _, homes_ok (by decide +kernel), by decide⟩

theorem meets_Stores : let l : LaneI := { len := 4, h := openHdr, rd := [.v 0, .v 1] }
    Runs st0 G0 l ∧ st0.memCheck G0 1 { w := true } 1 1 true ((G0.active l).map fun j => (j, effAddr 2 (G0.read l j (.v 1)) 16383)) = .ok [(0, 16383, .pool 0 16383)] ∧
      (st0.gate G0 false true 1 [(0, 16383, .pool 0 16383)]).isNone = true := ⟨runs0 _, homes_ok (by decide +kernel), by decide⟩

theorem meets_Atomics : let l : LaneI := { len := 4, h := openHdr, rd := [.v 0, .v 1] }
    Runs st0 G0 l ∧ st0.memCheck G0 1 { r := true, w := true } 8 8 true ((G0.active l).map fun j => (j, effAddr 5 (G0.read l j (.v 1)) 0)) = .ok [(0, 0, .pool 0 0)] ∧
      (st0.gate G0 true true 8 [(0, 0, .pool 0 0)]).isNone = true := ⟨runs0 _, homes_ok (by decide +kernel), by decide⟩

theorem meets_TileAccesses : let x : Tl := { h := openHdr, v := 1, m := 0, hd := 0, rh := 1, rl := 1 }
    let s := laneOn 0 (one th0) tkT {} {}; let G := grpOn 0 (one th0) tkT; let l := tileLane x false G
    let els := tileElems (layoutOf memL) (layoutOf regL) [0] [0]
    Runs s G l ∧ G.active l = [0] ∧ isCtl 0 = false ∧ (s.tileOrigin G l x false 0).toOption = some [0] ∧
    els.length = 1 ∧
    (∀ e ∈ els, s.tileFault 0 tkT (tkT.handle 0) (tkT.handle 1) 32 false e = none ∧ (e.spot.map fun a => hBase (tkT.handle 0) + a.a).getD 0 % 4 = 0) ∧
    (∀ e ∈ els, ∀ a ∈ e.spot, ∀ o, s.handlePlace 0 tkT (tkT.handle 0) a.a a.csel = .pool 0 o → (s.core 0).watch o 4 { r := true } = none) ∧
    MemEnd.homes (s.homeCheck G { r := true } false (els.map fun e =>
      (e.slot, 0, e.spot.map fun a => s.handlePlace 0 tkT (tkT.handle 0) a.a a.csel))) = some [(0, 0, .pool 0 0)] ∧
    (s.gate G true false 4 [(0, 0, .pool 0 0)]).isNone = true := by
  refine ⟨runs_free _ _ _ _ _ _ (by decide), by decide, by decide, by decide +kernel, by decide +kernel, by decide +kernel, ?_, by decide +kernel, by decide⟩
  intro e he a ha o ho
  rfl

/-- A thread that is not in supervisor mode. -/
abbrev thU : Thread := { th0 with sup := false }

theorem meets_CacheAndTranslationHints : let l : LaneI := { len := 4, h := openHdr, rd := [.v 1] }
    let s1 := laneOn 0 (one th0) tk0 { tlb := [placeEntry] } {}
    Runs s1 G0 l ∧ MemEnd.homes (s1.memCheck G0 0 { r := true } 1 1 false ((G0.active l).map fun j => (j, G0.read l j (.v 1) + 255))) = some [(0, 255, .hbm 0 255)] ∧
      (s1.gate G0 false true 1 [(0, 255, .hbm 0 255)]).isNone = true := ⟨runs_free _ _ _ _ _ _ (by decide), by decide +kernel, by decide⟩

/-- Module 0 with `lcfg` (ring 4, two stages) and `loop` (trip count in v3, body of five parcels) where core 0 fetches. -/
abbrev stLoop : State := State.reset.withFetchWord 64 0x0143CCF10480D0F1
abbrev gLoop : Issue := { core := 0, course := 0, slots := [0], pc := 0x10000, t := 0 }

theorem fetch_loop : (match stLoop.fetch { gLoop with pc := gLoop.pc + 4 } with
    | (.bits b, s') => decide (b = 0x0143CCF1 ∧ (opBits b).map (fun x => (x.2.1, x.2.2)) = some (0x0143CCF1, 0)) && (opBits b == some (.loop, 0x0143CCF1, 0)) && (match s'.grp? gLoop with
      | some G => (G.check { len := 8, h := openHdr, rd := [.v 3] }).isNone && decide (s'.issue = some gLoop ∧ G.cs.threads.length = 1)
      | none => false)
    | _ => false) = true := by decide +kernel

theorem meets_Loops : (∃ s s' G b, s.issue = some G.g ∧ State.fetch s { G.g with pc := G.g.pc + 4 } = (.bits b, s') ∧ opBits b = some (.loop, 0x0143CCF1, 0) ∧
      Runs s' G { len := 8, h := openHdr, rd := [.v 3] } ∧ ¬ (12 ≤ (15 : BitVec 4).toNat ∧ (15 : BitVec 4).toNat ≤ 14)) ∧
    (let l : LaneI := { len := 8, h := openHdr, rd := [.v 3] }; let o : LoopOp := { own := 0x1000, first := 0x1008, last := 0x1008 }
      Runs st0 G0 l ∧ ∀ j ∈ G0.active l, (G0.cs.thread j).loopFaults o (2 ^ 32 - 1) 1 = []) ∧
    Runs st0 G0 (laneE 8 e64 [extA e64]) ∧ loopPutFault 18 15 = none ∧ loopPutFault 17 4 = none ∧ loopPutFault 16 (16 * 16 + 15) = none ∧
      loopPutFault 0 (2 ^ 32 - 1) = none := by
  refine ⟨?_, ⟨runs0 _, by decide +kernel⟩, runs0 _, by decide, by decide, by decide, by decide⟩
  have h := fetch_loop
  split at h
  · rename_i b s' e
    simp only [Bool.and_eq_true, decide_eq_true_eq, beq_iff_eq] at h
    obtain ⟨⟨-, h1⟩, h2⟩ := h
    split at h2
    · rename_i G hg
      simp only [Bool.and_eq_true, decide_eq_true_eq] at h2
      have hG : G.g = gLoop := by
        unfold State.grp? at hg
        split at hg
        · cases hg
        · split at hg
          · cases hg
          · cases hg; rfl
      refine ⟨stLoop, s', G, b, by rw [hG]; rfl, by rw [hG]; exact e, h1, ⟨⟨by rw [hG]; exact h2.2.1, by rw [hG]; exact hg, by rw [hG]; decide, ?_⟩, by rw [hG]; decide, ?_⟩, by decide⟩
      · rw [hG, h2.2.2]; decide
      · exact Option.isNone_iff_eq_none.1 h2.1
    · cases h2
  · cases h

theorem lane_on (k : Nat) (c : Course) (t : Task) (x : Core) (s : State) (h0 : c.task = 0) (hl : c.threads ≠ []) :
    InLane (laneOn k c t x s) (grpOn k c t) := by
  refine ⟨rfl, ?_, by simp [grpOn], ?_⟩
  · simp [State.grp?, State.course?, State.task?, State.core, laneOn, grpOn, Tab.get, Tab.find, h0]
  · simp [grpOn]; exact List.length_pos_iff.2 hl

theorem meets_Privilege : InLane (laneOn 0 (one thU) tk0 {} {}) (grpOn 0 (one thU) tk0) ∧ (∃ j ∈ [0], ((one thU).thread j).sup = false) ∧
    csrSup 0x040 = true ∧ csrSup 0x0F1 = true ∧
    ((∀ j ∈ G0.g.slots, (G0.cs.thread j).sup = true) ∧ G0.tk.uchk = false ∧ G0.tk.sbchk = false ∧
      ∀ j ∈ G0.active { len := 8, h := openHdr }, (G0.cs.thread j).crosses 8 = false) :=
  ⟨lane_on _ _ _ _ _ rfl (by decide), ⟨0, by decide⟩, by decide, by decide, by decide⟩

/-- A state in which the trap configuration of die 0 gives cause code `c` the route `r` (R383). -/
abbrev routed (c : Nat) (r : Byte) : State := ({} : State).physWrite false (trapBase 0 + 0x100 + c) [r]

theorem meets_TrapInstructions : Runs st0 G0 { len := 4, h := openHdr } ∧ (st0.core 0).dbgctl.getLsbD 0 = false ∧
    (Runs (laneOn 0 (one th0) tk0 { dbgctl := 1 } {}) G0 { len := 4, h := openHdr } ∧ ((laneOn 0 (one th0) tk0 { dbgctl := 1 } {}).core 0).dbgctl.getLsbD 0 = true) ∧
    st0.route 0 false 0x61 ≠ 3 ∧ G0.active { len := 4, h := openHdr } = [0] ∧
    Runs (laneOn 0 (one th0) tk0 {} (routed 0x61 3)) G0 { len := 4, h := openHdr } ∧ (laneOn 0 (one th0) tk0 {} (routed 0x61 3)).route 0 false 0x61 = 3 :=
  ⟨runs0 _, by decide, ⟨runs_free _ _ _ _ _ _ (by decide), by decide⟩, by decide +kernel, by decide, runs_free _ _ _ _ _ _ (by decide), by decide +kernel⟩

theorem meets_TrapEntry : (∀ r : Fin 4, let s := laneOn 0 (one th0) tk0 { trapvec := 0x2000 } (routed 0x60 (BitVec.ofNat 8 r.val))
    s.course? 0 0 = some (one th0) ∧ s.task? 0 0 = some tk0 ∧ s.courseStores 0 0 = [] ∧ s.heldIds 0 = []) ∧ (one th0).trap = .none ∧
      (one th0).quiet { code := 0x60, tmask := 1 } 0 [] = true ∧
    ∀ r : Fin 4, (laneOn 0 (one th0) tk0 { trapvec := 0x2000 } (routed 0x60 (BitVec.ofNat 8 r.val))).route 0 false 0x60 = r.val :=
  ⟨fun _ => ⟨rfl, rfl, rfl, rfl⟩, rfl, by decide, by decide +kernel⟩

theorem meets_Barriers : Runs st0 G0 { len := 4, h := openHdr } ∧ (63 : BitVec 11).toNat ≤ 63 ∧ ((1 : BitVec 3) = 1 → (7 : BitVec 11).toNat ≤ 7) :=
  ⟨runs0 _, by decide, by decide⟩

/-- A copy block of one raw element, from layout 0 under handle 0 to itself (R285). -/
abbrev copyBlock : List Nat := [0x100000000000701, 0, 0x70000, 0, 0, 0, 0x70000, 0, 0, 0, 1, 0, 0, 0]
abbrev sCopy : State := ({} : State).locWrite (.pool 0 64) (copyBlock.flatMap (leBytes 8))

theorem meets_EngineCommands :
    (let s := laneOn 0 (one th0) tkT {} sCopy; let G := grpOn 0 (one th0) tkT
      Runs s G { len := 4, h := openHdr, rd := [.v 1] } ∧ s.issueBusy 0 0 = false ∧ (s.readBlock 0 tkT 0 64).toOption = some (64, copyBlock) ∧
      (s.blockFault 0 tkT th0 0 copyBlock).isNone = true ∧ isCtl 0 = false ∧ ((s.core 0).queue 0).length + 1 ≤ queueDepth 0 ∧ G.cs.count 0 + 1 ≤ 63) ∧
    (let s := laneOn 0 (one th0) tkA {} {}; let G := grpOn 0 (one th0) tkA
      Runs s G { len := 8, h := openHdr, rd := [.v 1] } ∧ hKind (tkA.handle 15) = 6 ∧ s.handleFault 0 tkA (tkA.handle 15) 0 65536 0 { w := true } = none ∧
      s.handleFault 0 tkA (tkA.handle 15) 0 65536 0 { r := true } = none ∧ ((s.core 0).queue 1).length + 1 ≤ queueDepth 1) :=
  ⟨⟨runs_free _ _ _ _ _ _ (by decide), by decide, by decide +kernel, by decide +kernel, by decide⟩,
    runs_free _ _ _ _ _ _ (by decide), by decide +kernel, by decide +kernel, by decide +kernel, by decide⟩

/-- A module with one record in the queue of cluster 0, of which core 0 has read three words. -/
abbrev stEv : State := { cores := [(0, { evCursor := 3 })], clusters := [(0, { events := [⟨1, 2, 3, 4⟩] })] }

theorem meets_TaskEvents : Runs st0 G0 (laneE 8 e64 [extA e64]) ∧ G0.active (laneE 8 e64 [extA e64]) ≠ [] ∧
    st0.allVisible (st0.fenceAwaits 0 0 .rel 7) = true ∧ st0.recordCheck G0 32 8 false [(0, 0)] = .ok [(0, 0, .pool 0 0)] ∧
    st0.recordBusy 0 0 tk0 0 32 = false ∧ ((G0.cs.thread 0).sup = true ∨ 0x80 ≤ 0) ∧ (st0.cluster 0).evWait = [] ∧
    (∃ u, st0.takeEvent 0 ⟨0, 0, 0, 0⟩ = some u) ∧ (st0.cluster 0).events = [] ∧
    (stEv.cluster (coreCluster 0)).events = ⟨1, 2, 3, 4⟩ :: [] ∧ (stEv.core 0).evCursor ≤ 3 :=
  ⟨runs0 _, by decide, by decide, homes_ok (by decide +kernel), by decide, by decide, rfl, ⟨_, rfl⟩, rfl, rfl, by decide⟩

/-- A module that runs with a course of thread `t` on core 0 and nothing in a lane. -/
abbrev idle (c : Course) : State := { laneOn 0 c tk0 { tlb := [placeEntry] } {} with issue := none, now := 8 }

/-- A group that goes on once its check has passed, and a core whose TLB holds nothing. -/
abbrev again0 : Issue := { core := 0, course := 0, slots := [0], pc := 0x1000, t := 1 }
abbrev cold (c : Course) : State := { laneOn 0 c tk0 {} {} with issue := none, now := 8 }

theorem meets_Selection : (∃ p c, (idle (one th0)).phase = .running ∧ (idle (one th0)).toReissue 0 0 = none ∧ (idle (one th0)).laneIdle 0 0 = true ∧
      (let u : State := { (((idle (one th0)).units 0 0).map fun x => x.1).foldl (fun s n => s.meetAllDbg 0 n) (idle (one th0)) with issue := none }
       (u.choose 0 0).map Cand.course = some 0 ∧ u.choose 0 0 = some p ∧ p.slots ≠ [] ∧ u.course? 0 0 = some c ∧ (u.task? 0 c.task).isSome = true ∧
         (u.fetchWaits { again0 with t := u.now }).isNone = true ∧ ((cold (one th0)).fetchWaits { again0 with t := u.now }).isSome = true)) ∧
    (let s := idle { one th0 with again := some again0 }; s.toReissue 0 0 = some again0 ∧ (s.grp? again0).isSome = true) ∧
    ∀ i ∈ [0], ((one { th0 with age := 1023 }).thread i).age < 1024 := by
  refine ⟨⟨{ course := 0, unit := (0, 1), slots := [0], last := none }, one th0, by decide, by rfl, by decide, by decide +kernel, ?_, by decide, ?_, by decide +kernel⟩, ⟨by rfl, by decide⟩, by decide⟩
  · rfl
  · rfl

/-! ## Events: for each, a state in which it comes about -/

/-- A quotient on its way to v1 of thread 0. -/
abbrev res0 : DivRes := { id := 7, core := 0, course := 0, slot := 0, dst := .v 1, val := 9, ready := 8 }
abbrev stDiv : State := { idle (one { th0 with sb := [(.v 1, 7)] }) with divs := [res0] }
/-- A thread that has waited too long for another one. -/
abbrev cConv : Course := { threads := [{ th0 with wait := .conv 3 none 8 4 }, th0] }

theorem meets_CourseEvents : ((idle (one th0)).phase = .running ∧ ((idle (one th0)).course? 0 0).isSome = true) ∧
    (stDiv.phase = .running ∧ findAt (fun d => decide (d.id = 7 ∧ d.ready ≤ stDiv.now)) stDiv.divs = some res0 ∧
      ∃ c, stDiv.course? 0 0 = some c ∧ 0 < c.threads.length ∧ (RegRef.v 1, 7) ∈ (c.thread 0).sb) ∧
    ((idle cConv).course? 0 0 = some cConv ∧ cConv.trap = .none ∧ cConv.convLate 0 (idle cConv).now = some 0) ∧
    (∃ c, (idle { one th0 with yieldUntil := some 8 }).course? 0 0 = some c ∧ c.yieldUntil = some 8 ∧ 8 ≤ (idle (one th0)).now) ∧
    (∃ c, (idle { one th0 with park := some (.closed 511), wakeAt := some 8 }).course? 0 0 = some c ∧ c.park.isSome = true ∧ c.wakeAt = some 8) ∧
    (∃ c, (idle { one th0 with trap := .stopping }).course? 0 0 = some c ∧ c.trap = .stopping ∧ c.quiet c.cause 8 [] = true ∧
      (idle { one th0 with trap := .stopping }).heldIds 0 = [] ∧ (idle { one th0 with trap := .stopping }).courseStores 0 0 = [] ∧ ((idle { one th0 with trap := .stopping }).task? 0 c.task).isSome = true) ∧
    (∃ c, (idle (one th0)).course? 0 0 = some c ∧ c.trap = .none) :=
  ⟨⟨rfl, rfl⟩, ⟨rfl, rfl, _, rfl, by decide, by decide⟩, ⟨rfl, rfl, by decide⟩, ⟨_, rfl, rfl, by decide⟩, ⟨_, rfl, rfl, rfl⟩,
    ⟨_, rfl, rfl, by decide, rfl, rfl, rfl⟩, _, rfl, rfl⟩

/-- A graph of one node of one task, and its task. -/
abbrev gr : Graph := { seq := 1, dies := 15, nodes := [{}] }
abbrev ref0 : TaskRef := { die := 0, graph := 1, node := 0, index := 0 }
abbrev onDie (d : Die) : State := { phase := .running, dies := [(0, { d with graphs := [gr] })], now := 1024 }
abbrev queued (c : Cluster) : Cluster := { c with disp := (Vector.replicate 4 []).set 0 [ref0] }
/-- Thread 0 in barrier 63 of its task, and arrived. -/
abbrev key0 : BarKey := barKeyOf 0 0 0 (one th0) tk0 1 7
abbrev thB : Thread := { th0 with wait := .barrier key0 0 true }
abbrev stBar : State := { idle (one thB) with bars := [{ key := key0, arrived := [(0, 0)], due := some 8 }] }
/-- A task whose threads have exited. -/
abbrev stLate : State := { idle { threads := [thB, { th0 with tid := 1 }] } with bars := [{ key := key0, arrived := [(0, 0)], due := some 8 }] }
abbrev stEnd : State := { idle (one {}) with dies := [(0, { graphs := [gr] })] }

theorem dispatch_ex {s : State} {cl : Nat} (h : (((s.takeInbox cl).nextDispatch cl).bind fun x => (x.2.2.1.head?.bind (s.takeInbox cl).refNode).bind fun y =>
      if ((s.takeInbox cl).slotPage y.1 y.2 x.2.2.2).isNone then some () else none).isSome = true) :
    ∃ p at_ ms seats g n, (s.takeInbox cl).nextDispatch cl = some (p, at_, ms, seats) ∧ ms.head?.bind (s.takeInbox cl).refNode = some (g, n) ∧
      (s.takeInbox cl).slotPage g n seats = none := by
  cases e : (s.takeInbox cl).nextDispatch cl with
  | none => simp [e] at h
  | some x =>
    simp only [e, Option.bind_some] at h
    cases e' : x.2.2.1.head?.bind (s.takeInbox cl).refNode with
    | none => simp [e'] at h
    | some y =>
      simp only [e', Option.bind_some] at h
      refine ⟨x.1, x.2.1, x.2.2.1, x.2.2.2, y.1, y.2, rfl, e', ?_⟩
      cases e2 : (s.takeInbox cl).slotPage y.1 y.2 x.2.2.2 with
      | none => rfl
      | some _ => simp [e2] at h

theorem meets_TaskFlow :
    (let u := (memberCourses (stBar.participants key0)).foldl (fun s p => s.arriveCourse p.1 p.2) stBar;
      u.participants key0 ≠ [] ∧ (u.bar key0).arrived ≠ [] ∧ ∀ m ∈ u.participants key0, m.who ∈ (u.bar key0).arrived) ∧
    (let s : State := { stBar with bars := [{ key := key0, due := some 8 }] };
      (s.bar key0).due = some 8 ∧ 8 ≤ s.now ∧ ∃ m ∈ s.participants key0, m.who ∉ (s.bar key0).arrived) ∧
    ((stLate.bar key0).due = some 8 ∧ 8 ≤ stLate.now ∧ (∃ m ∈ stLate.participants key0, m.who ∉ (stLate.bar key0).arrived) ∧
      (0, 0) ∈ memberCourses ((stLate.participants key0).filter fun m => (stLate.bar key0).arrived.contains m.who) ∧
      ∃ c, stLate.course? 0 0 = some c ∧ c.trap = .none ∧ (c.allLive.filter fun i => (c.thread i).waitsAt key0).head? = some 0) ∧
    (let s := onDie { pool := (Vector.replicate 8 []).set 7 [ref0] };
      s.poolHead 0 = some (7, [ref0]) ∧ 7 < 8 ∧ [ref0].length ≤ queueRoom 512 (s.cluster 0).queues 3) ∧
    (let s : State := { onDie {} with clusters := [(0, queued {})] };
      ∃ p at_ ms seats g n, (s.takeInbox 0).nextDispatch 0 = some (p, at_, ms, seats) ∧ ms.head?.bind (s.takeInbox 0).refNode = some (g, n) ∧
        (s.takeInbox 0).slotPage g n seats = none) ∧
    (let s : State := { onDie {} with clusters := [(0, queued { passed := Vector.replicate 4 256 })] };
      (s.cluster 0).prioQ 0 = ref0 :: [] ∧ 256 ≤ (s.cluster 0).passedAt 0 ∧ ∀ x ∈ (s.cluster 0).reserved, x.2 ≠ ref0) ∧
    (let s : State := { onDie {} with clusters := [(0, { idleSince := some 768 }), (15, queued {})] };
      s.mayAsk 0 = true ∧ s.stealVictim 0 = some 15) ∧
    (let s : State := { onDie {} with clusters := [(0, { stealFrom := [15] })] }; (s.cluster 0).stealFrom = 15 :: [] ∧ 15 ≠ 0) ∧
    (let s : State := { onDie {} with clusters := [(0, { shipments := [(15, [ref0])] })] }; (s.cluster 0).shipments = (15, [ref0]) :: []) ∧
    (let s : State := { onDie {} with clusters := [(0, { dispCtl := Vector.replicate 5 { cap := 0, min := 0 }, shipments := [(15, [ref0])] })] };
      queueRoom 512 (s.cluster 0).queues 4 = 0 ∧ [ref0].length ≤ queueRoom 512 (s.cluster 15).queues 0) ∧
    (stEnd.task? 0 0 = some tk0 ∧ (∀ n ∈ tk0.courses, ((stEnd.course? 0 n).getD {}).allLive = []) ∧ (stEnd.core 0).taskCmds 0 = [] ∧
      stEnd.taskAccesses 0 tk0 = [] ∧ stEnd.recordRoom 0 = true) ∧
    (let s : State := { onDie {} with clusters := [(0, { ovPending := true })] }; (s.cluster 0).ovPending = true ∧ (s.cluster 0).evRoom = true) ∧
    (let p : Preempt := { clusters := 1, count := 1, graph := none, below := 3, cores := [0] };
      let s := onDie { preempt := some p };
      let ks := (s.closure 128 [0]).filter p.cores.contains;
      (s.die (coreDie 0)).preempt = some p ∧ 0 ∈ p.cores ∧ (∀ k ∈ ks, (ks.foldl State.arriveCore s).coreQuiet k = true) ∧
      (∀ c ∈ ks.flatMap (fun k => (s.core k).courses.map Prod.snd), c.delivering = false ∧ c.trapped = false) ∧
      let w := ks.foldl State.arriveCore s
      ∀ x ∈ w.tasksOn ks, (w.savePage x.1 (w.tasksOn ks).length x.2.2).isNone = true) := by
  refine ⟨by decide, ⟨by decide, by decide, by decide⟩, ⟨by decide, by decide, by decide, by decide, _, rfl, by decide⟩, ⟨by rfl, by decide⟩, dispatch_ex (by decide +kernel), ⟨by rfl, by decide +kernel⟩, by decide +kernel, ⟨by rfl, by decide⟩, by rfl, by decide +kernel, ⟨by rfl, by decide +kernel⟩,
    by decide, by rfl, by decide, by decide +kernel, by decide +kernel, by decide +kernel⟩

/-- A core whose engine queue `n` holds the command `x`. -/
abbrev engOn (n : Fin 4) (x : Cmd) : State :=
  { laneOn 0 (one th0) tkT { queues := (Vector.replicate 4 []).set n [x] } {} with issue := none, now := 8 }
/-- A command of a class. -/
abbrev cmd (cls : Nat) (kind : CmdKind) : Cmd := { id := 7, kind := kind, cls := cls, course := 0, slot := 0, task := 0, tile := some 0 }
/-- A tile operand of one 16-bit element in two dimensions: whatever lies outside it reads as zero and is not written. -/
abbrev opM : Operand := { desc := [0x40000], handle := tkT.handle 0, layout := 0x1000000000000000100000000000013220 / 16, origin := [0, 0], homes := [(0, [0])] }
abbrev opT : Operand := { opM with desc := [0x70000], layout := memL, origin := [0] }
abbrev cMma : Cmd := { cmd 1 .mma with words := [0, 16 + 2 * 2 ^ 13], ops := [opM, opM, opM] }
abbrev cBack : Cmd := { cmd 1 .writeBack with ops := [opM, opM] }
abbrev cCopy : Cmd := { cmd 0 .copy with words := copyBlock, ops := [opT, opT] }

theorem except_any {ε α : Type} {m : Except ε α} (h : m.toBool = true) : ∃ a, m = .ok a := by
  cases m
  · simp [Except.toBool] at h
  · exact ⟨_, rfl⟩

theorem meets_EngineEvents :
    (let x := { cmd 0 .copy with gen := some 15 };
      ((engOn 0 x).core 0).headCmd 0 = some x ∧ x.gen = some 15 ∧ (engOn 0 x).course? 0 x.course = some (one th0)) ∧
    (let s := engOn 1 cMma;
      s.runnable 0 1 = some cMma ∧ cMma.tile = some 0 ∧ (∃ a, s.chunkA (s.viewOf 0 cMma) cMma opM 0 = .ok a) ∧
      (∃ b, s.chunkB (s.viewOf 0 cMma) cMma opM 0 = .ok b) ∧ s.accBad 0 ((s.task? 0 0).getD {}).accG 0 = none) ∧
    (let s := engOn 1 cBack;
      s.runnable 0 1 = some cBack ∧ (firstStop (s.writeBackPlan (s.viewOf 0 cBack) cBack opM ((List.range 64).map fun i =>
        (s.accRow 0 ((s.task? 0 0).getD {}).accG 0 i, ((s.task? 0 0).getD {}).row 0 i))).1).isNone = true) ∧
    (let s := engOn 0 cCopy;
      s.nextCopy 0 = some cCopy ∧ cCopy.st ≠ .running ∧ (copyElems cCopy opT opT).length = 1 ∧
      (copyElems cCopy opT opT).all (fun e => (s.copyStop (s.copyView (s.viewOf 0 cCopy) opT (copyElems cCopy opT opT)) opT opT 32 32 e).isNone) = true) ∧
    (∀ sub : Fin 5, let x := cmd 1 (.accOp sub.val 63 0 (some (.v 1))); let s := engOn 1 x
      s.runnable 0 1 = some x ∧ s.task? 0 0 = some tkT ∧ s.accBad 0 tkT.accG 0 = none) ∧
    (let x := { cmd 3 .col with st := .performed }; let s := engOn 3 x;
      ((s.core 0).queue 3).find? (fun y => decide (y.course = 0)) = some x ∧ x.ended = true ∧ x.writes = [] ∧ x.todo = [] ∧ x.fault = none ∧
        s.course? 0 0 = some (one th0)) := by
  refine ⟨⟨by rfl, by rfl, by rfl⟩, ⟨by rfl, by rfl, except_any (by decide +kernel), except_any (by decide +kernel), by decide +kernel⟩, ⟨by rfl, by decide +kernel⟩,
    ⟨by rfl, by decide, by decide +kernel, by decide +kernel⟩, ?_, ⟨by rfl, by decide, by rfl, by rfl, by rfl, by rfl⟩⟩
  have h : (engOn 1 (cmd 1 (.accOp 0 63 0 (some (.v 1))))).accBad 0 tkT.accG 0 = none := by decide +kernel
  exact fun sub => ⟨rfl, rfl, h⟩

/-- An access of thread 0 of core 0, and modules where it is in flight. -/
abbrev acc0 : Access := { id := 7, core := 0, course := 0, slot := 0, ord := 0, ipc := 0, va := 0, kind := .load false, w := 4, size := 8, loc := .pool 0 16376 }
abbrev withAcc (a : Access) (t : Thread) : State := { idle (one t) with inflight := [a] }
/-- An entry of the hierarchy's output that is due. -/
abbrev hod0 : HodEntry := { id := 7, dest := 1, line := 0, bytes := [], due := true }
abbrev stHod : State := { phase := .running, now := 2048, cores := [(0, { hod := [hod0] })] }
/-- A context 1 whose table at 0x1000 maps the page at 0x1000 to the frame 0x2000, shared, owned by the host where `own` is set. -/
abbrev stPage (own : Bool) : State :=
  ({ phase := .running, contexts := [(1, 0x1000)] } : State).physWrite false 0x1000 (leBytes 8 0x1001 ++ leBytes 8 (if own then 0x232F else 0x222F))
abbrev leaf0 (own : Bool) : TlbEntry := { ctx := 1, page := 0x1000, size := 0x1000, pte := if own then 0x232F else 0x222F }
abbrev mig (toHost : Bool) : Migr := { frame := 0x2000, toHost := toHost, assisted := false, ctx := 1, va := 0x1000, pte := 0 }
abbrev waiting (w : Wait) : State := idle (one { th0 with wait := w })

theorem meets_MemoryEvents :
    ((withAcc acc0 th0).access? 7 = some acc0 ∧ (withAcc acc0 th0).AtHome acc0) ∧
    (let a := { acc0 with kind := .atom .cas false }; (withAcc a th0).access? a.id = some a) ∧
    (let m : Miss := { die := 3, line := 9, sectors := 8, born := 0 }; findAt (fun m => decide (m.die = 3 ∧ m.line = 9) && !m.waits) [m] = some m) ∧
    (let a := { acc0 with loc := .hbm 3 0 }; let s := withAcc a th0;
      s.access? 7 = some a ∧ a.st = .left ∧ s.behind a = false ∧ s.needsFill a = true ∧ s.misses = [] ∧ ({ s with misses := [{ die := 3, line := 0, sectors := 8, born := 0 }] } : State).needsFill a = true ∧
        (8#4).getLsbD (sectorOf a.loc) = false) ∧
    (let a := { acc0 with st := .performed, dst := [.v 1] }; (withAcc a th0).access? 7 = some a ∧ a.code = false ∧ a.bad = false ∧ a.part = none) ∧
    ((stHod.core 0).hod.find? (fun e => decide (e.id = 7)) = some hod0 ∧ hod0.due = true ∧
      hod0.born + max 64 ((stHod.die (coreDie 0)).hodage.toNat % 65536) ≤ stHod.now ∧
      ((stHod.core 0).hod.filter fun x => decide (x.dest = hod0.dest ∧ x.line = hod0.line ∧ x.id ≤ 7)) = [hod0]) ∧
    (∃ c, (waiting (.fence true [] true true 1 4)).course? 0 0 = some c ∧ ∃ t ∈ c.threads, (phaseOver (waiting (.fence true [] true true 1 4)) 0 (waiting (.fence true [] true true 1 4)) t).isSome = true) ∧
    (let a := { acc0 with st := .held, after := [] }; (withAcc a th0).access? 7 = some a ∧ ∀ w ∈ a.after, (withAcc a th0).visible w = true) ∧
    (∃ c tk, (waiting (.icinv 0 1 [] 4)).course? 0 0 = some c ∧ (waiting (.icinv 0 1 [] 4)).task? 0 c.task = some tk) ∧
    (∃ c, (waiting (.fetchb [] 4)).course? 0 0 = some c ∧ ∃ t ∈ c.threads, (fetchbOver (waiting (.fetchb [] 4)) c t).isSome = true) ∧
    (let s : State := { phase := .running, dies := [(3, { resize := some 15 })] }; (s.die 3).resize = some 15) ∧
    (let s : State := { stPage false with dies := [(0, { migrQ := [mig true] })] };
      (mig true).stage ≠ 2 ∧ (s.die 0).migr.length < 64 ∧ ((s.die 0).migrQ.find? fun m => !(s.die 0).migr.any fun y => decide (y.frame = m.frame)) = some (mig true) ∧
      State.sharedPage (s.modDie 0 fun x => { x with migrQ := x.migrQ.erase (mig true) }) 1 0x1000 = some (leaf0 false, 0x1008) ∧
      leafBase (leaf0 false).pte.toNat 0x1000 = 0x2000 ∧ pteBit (leaf0 false).pte.toNat 8 ≠ true ∧ s.host.lost = false) ∧
    (let m : Migr := { mig true with stage := 2 }; let s : State := { stPage true with dies := [(0, { migrQ := [m] })] };
      m.stage = 2 ∧ (s.die 0).migr.length < 64 ∧ ((s.die 0).migrQ.find? fun m => !(s.die 0).migr.any fun y => decide (y.frame = m.frame)) = some m) ∧
    (let s : State := { stPage true with dies := [(0, { migr := [mig true] })] };
      findAt (fun m => decide (m.frame = 0x2000) && m.toHost && (!m.assisted || decide (m.stage = 2))) (s.die 0).migr = some (mig true) ∧ (∀ w ∈ (mig true).awaits, s.visible w = true) ∧
      s.walk 1 0x1000 = .leaf (leaf0 true)) ∧
    (∃ c, (idle { one th0 with susp := some (.walk 0 0x1000 0 1) }).course? 0 0 = some c ∧ c.susp = some (.walk 0 0x1000 0 1)) :=
  ⟨⟨rfl, by unfold State.AtHome; decide +kernel⟩, rfl, by decide, ⟨rfl, rfl, by decide +kernel⟩, ⟨rfl, by decide⟩, by decide, ⟨_, rfl, _, List.mem_singleton.2 rfl, by decide⟩, ⟨rfl, by decide⟩,
    ⟨_, _, rfl, rfl⟩, ⟨_, rfl, _, List.mem_singleton.2 rfl, by decide⟩, by decide, by decide +kernel, by decide, ⟨by decide, by decide, by decide +kernel⟩, ⟨_, rfl, rfl⟩⟩

/-- A packet sent to module 1, and a packet from module 1's die 2 for the line at 0. -/
abbrev pk : Packet := { die := 0, dest := 1, seq := 5, pred := none, line := 0, accs := [] }
abbrev sent (p : Packet) : State := { phase := .running, packets := [p], time := 2 * msTicks }
abbrev inPk (pred : Option Nat) (pa : Nat) : Remote := ⟨1, 2, 5, pred, pa, [], .write, false⟩
abbrev hears (kept : List Kept) : State := { phase := .running, senders := [(1, 2)], dies := [(0, { kept := kept })] }
abbrev rc : RingCheck := { ring := 255, entry := 0, nextOk := true, born := 0 }
abbrev ch : Chunk := { cid := 1, index := 2, ring := 0, dtype := 0, cop := 0, bytes := 16, started := true }
abbrev cCol : Cmd := { cmd 3 .col with words := copyBlock, ops := [opT, opT] }

theorem meets_FabricEvents :
    ((1, 2) ∈ ((hears []).settleFor 0).senders ∧ ((hears []).settleFor 0) = hears [] ∧ (hears []).homeOf (inPk none 0) = some (.hbm 0 0) ∧ (hears []).keepOf (Loc.slice (.hbm 0 0)) 1 2 = [] ∧
      ((hears [{ slice := Loc.slice (.hbm 0 0), rank := 1, die := 2, seq := 5, result := 0, stamp := 0 }]).keepOf (Loc.slice (.hbm 0 0)) 1 2).find? (fun k => decide (k.seq = 5)) =
        some { slice := Loc.slice (.hbm 0 0), rank := 1, die := 2, seq := 5, result := 0, stamp := 0 } ∧
      (hears []).packetBad (.hbm 0 0) (inPk none 0) = none ∧
      ({ hears [] with badWords := [.hbm 0 0] } : State).packetBad (.hbm 0 0) { inPk none 0 with bytes := [(7, 0x0F, 1)] } = some (.hbm 0 0) ∧
      (∃ p, some 4 = some p ∧ ∀ k ∈ (hears []).keepOf (Loc.slice (.hbm 0 0)) 1 2, k.seq ≠ p)) ∧
    ((3, 2) ∉ ((hears []).settleFor 0).senders ∧ ((hears []).settleFor (2 ^ 50)).homeOf (inPk none (2 ^ 50)) = none) ∧
    (((sent pk).packets.find? fun p => decide (p.die = 0 ∧ p.dest = 1) && p.restart) = none ∧ (sent pk).packet? 0 1 5 = some pk) ∧
    (let a := { acc0 with loc := .remote 1 0, st := .sent }; (withAcc a th0).access? 7 = some a ∧ coreDie a.core = 0) ∧
    (∃ p ∈ (sent pk).packets, p.die = 0 ∧ p.dest = 1 ∧ p.isLoad = false ∧ p.first + 2 * msTicks ≤ (sent pk).time) ∧
    ((sent { pk with tries := 7 }).packets = [{ pk with tries := 7 }] ∧ pk.last + 50 * usTicks ≤ (sent pk).time ∧ 7 < 8) ∧
    (let s : State := { phase := .running, now := 2 ^ 24, dies := [(0, { allow := [(1, { since := some 0 })] })] };
      (s.allowOf 0 1).since = some 0 ∧ 0 + 2 ^ 24 ≤ s.now ∧ (s.allowOf 0 1).told = false) ∧
    (let s : State := { phase := .running, links := [(63, { failed := 16 })] }; 16 ≤ (s.links.get 63 {}).failed ∧ (s.links.get 63 {}).isDown = false ∧ 63 < 64) ∧
    (let s : State := { phase := .running, ringChecks := [rc], time := 2 * msTicks };
      s.ringChecks.find? (fun c => decide (c.ring = 255)) = some rc ∧ rc.nextOk = true ∧ rc.born + 2 * msTicks ≤ s.time) ∧
    (let c := { ch with started := false }; let s : State := { phase := .running, chunks := [c] };
      (s.settleChunks.chunks.find? fun c => decide (c.cid = 1 ∧ c.index = 2 ∧ c.cmd = none) && !c.started && c.status.isNone) = some c) ∧
    (let u := (engOn 3 cCol).settleChunks;
      (u.core 0).queue 3 = [cCol] ∧ cCol.ended = false ∧ cCol.st = .queued ∧ cCol.gen = none ∧ u.cmdReady cCol = true ∧
        (u.newId.2.readChunk (u.cmdChunk 0 cCol) .given).toBool = true) ∧
    (let s : State := { phase := .running, chunks := [ch], time := 2 * msTicks };
      s.chunkOfId 1 2 = some ch ∧ ch.status = none ∧ ch.got = none ∧ 0 ∉ ch.ranks ∧ s.chunkOfId 1 3 = none) ∧
    (let c := { ch with ranks := [0] }; let s : State := { phase := .running, chunks := [c] }; s.chunkOfId 1 2 = some c ∧ s.rank ∈ c.ranks) ∧
    (let c := { ch with members := [511, 0] }; let s : State := { phase := .running, chunks := [c], time := 2 * msTicks };
      s.chunkOfId 1 2 = some c ∧ 511 ∈ c.members ∧ 511 ≠ s.rank ∧ c.progress + 2 * msTicks ≤ s.time ∧ 510 ∉ c.members) ∧
    (let s : State := { sent pk with packets := [pk, { pk with isLoad := true }] };
      s.tierWaits 0 1 = true ∧ (64 ≤ (s.ports.get 0 {}).starved.1 ∨ s.tierWaits 0 0 = true) ∧ (sent { pk with isLoad := true }).tierWaits 0 1 = false) ∧
    (let p : Partial := { ring := 0, cid := 1, index := 2, dtype := 0, cop := 0, bytes := 16, vals := [], ranks := [], refused := false, ready := true };
      ([p].find? (fun p => decide (p.ring = 0) && p.ready)) = some p) :=
  ⟨⟨by decide +kernel, by decide +kernel, by decide +kernel, by decide +kernel, by decide +kernel, by decide +kernel, by decide +kernel, 4, rfl, by decide +kernel⟩, ⟨by decide +kernel, by decide +kernel⟩, ⟨by rfl, by rfl⟩, ⟨rfl, by decide⟩, ⟨_, List.mem_singleton.2 rfl, by decide⟩,
    ⟨rfl, by decide⟩, by decide +kernel, by decide, ⟨by rfl, by decide⟩, by decide +kernel, by decide +kernel, by decide +kernel, by decide +kernel, by decide +kernel, by decide +kernel, by rfl⟩

/-- A module whose host link is up; ring 5 carries commands of context 0, which maps local memory to itself. -/
abbrev hst (s : State) : State := { s with phase := .running, host := { up := true }, ident0 := true, ringCtx := [(5, 0)] }
abbrev hm : MsgHead := { ver := 1, ring := 5, seq := 1, ack := 0, len := 64, ctx := 0, credit := 0, sack := 0, spare := false }
/-- The first entry of the first message. -/
abbrev hin (op : HostOp) : HostIn := ⟨hm, 0, 9, none, op⟩

/-- The entry is the next in order, and its ring is bound to context 0. -/
abbrev turn (s : State) (x : HostIn) : Prop := s.InTurn x ∧ (s.turnOf x).phase = .running ∧ (s.turnOf x).ringCtx.find x.m.ring = some 0

/-- A launch record at 0x4000 of one node at 0x4040: a task of one course (R62, R63). -/
abbrev stLaunch : State := hst (({} : State).physWrite false 0x4000 ([0x0800000000000401, 0xF0001, 0x4040, 0, 0, 0, 0, 0,
  0x10000, 0x0041000100010001, 0, 0, 0, 0, 0, 0xFFFF].flatMap (leBytes 8))|>.physWrite false 0x6000 [2, 0, 0x7F, 1, 0, 0])
/-- A code table entry at 0x8000 in state 1, whose module at 0x9000 has one segment of one `nop` (R363, R366). -/
abbrev stBind (src : Nat) (s : State) : State := ((hst { s with
    dies := [(0, { graphs := [{ gr with nodes := [{ courses := 1 }] }] })], codeTables := [{ ctx := 0, base := 0x8000, count := 1 }]
    binds := [{ base := 0x8000, index := 0, ctx := 0, die := 0, owner := 0, graph := 1, assisted := false }]
    codeSpace := [(0, 0x10000, 0x20000)] }).physWrite false 0x8000 ([1, 0, src, 0].flatMap (leBytes 8))).physWrite false 0x9000
      ([0x100000000010001, 0x100000001, 0, 0, 0, 0, 0, 0, 0x2000100000000, 0].flatMap (leBytes 8) ++ [0x1E, 0x80])

/-- Context 1 of ring 5, whose page at 0x1000 is a frame of module 1. -/
abbrev stFar : State := { hst (({ contexts := [(1, 0x1000)], routes := [(1, 2 ^ 14)] } : State).physWrite false 0x1000
  (leBytes 8 0x1001 ++ leBytes 8 (2 ^ 56 + 2 ^ 47 + 0x2F))) with ringCtx := [(5, 1)] }

abbrev bytes40 : List Byte := List.replicate 40 255
/-- A module that holds an identity certificate. -/
abbrev stCert : State := hst { plat := { cert := [1] } }
abbrev cWait : Course := { one th0 with trap := .waiting }

theorem meets_HostCommands :
    (∀ op ∈ ([.launch 0x4000, .launch 1, .release 1 0, .preempt 3 15 1 true 3, .write 0x7FFFFFFFD8 40 bytes40 false, .read 0 8 0 false, .queueControl 3 7 0,
      .route 511 (2 ^ 14), .ringSetup 255 0x6000 [], .codeTable 0x1000 65536] : List HostOp), turn stLaunch (hin op)) ∧
    (∀ r, ((stLaunch.turnOf (hin (.launch 0x4000))).fresh.2.resizesFirst.checkLaunch (hostView 0 r) false 0x4000 1).toBool = true) ∧
    (∀ r, ((stLaunch.turnOf (hin (.launch 1))).fresh.2.resizesFirst.checkLaunch (hostView 0 r) false 0x5000 1).toOption = none) ∧
    ((stLaunch.turnOf (hin (.write 0x7FFFFFFFD8 40 bytes40 false))).resizesFirst.engPieces (hostView 0 false) (glAt 0x7FFFFFFFD8) 0 0 (padTo 40 bytes40)).toBool = true ∧
    (let x : HostIn := ⟨{ hm with ctx := 1 }, 0, 9, none, .write 0x1000 40 bytes40 true⟩;
      stFar.InTurn x ∧ (stFar.turnOf x).phase = .running ∧ (stFar.turnOf x).ringCtx.find 5 = some 1 ∧
        (match (stFar.turnOf x).resizesFirst.engPieces (hostView 1 true) (glAt 0x1000) 0 0 (padTo 40 bytes40) with
          | .ok ps => ps.any fun p => p.1.isRemote | .error _ => false) = true) ∧
    ((stLaunch.turnOf (hin (.read 0 8 0 false))).resizesFirst.engRead (hostView 0 false) (glAt 0) 0 8 0).toBool = true ∧
    (queueWrite 4096 (stLaunch.die 3).poolCtl.toList 7 (2 ^ 16 * 4096 + 512) = some { cap := 4096, min := 512 } ∧
      queueWrite 4096 (stLaunch.die 3).poolCtl.toList 7 (2 ^ 16 * 511 + 512) = none) ∧
    (511 < 512 ∧ 2 ^ 14 / 2 ^ 14 % 4 ≠ 3) ∧
    (((stLaunch.turnOf (hin (.ringSetup 255 0x6000 []))).resizesFirst.memberList 0 0x6000 []) = some [383, 0] ∧ stLaunch.membersOk [383, 0] = true) ∧
    (turn (stBind 0x9000 {}) (hin (.bindResult 0x8000 0 2 0 0)) ∧ ((stBind 0x9000 {}).turnOf (hin (.bindResult 0x8000 0 2 0 0))).entryWord 0 0 0x8000 0 0 = some 1) ∧
    turn (hst (idle cWait)) (hin (.trapResume 0 0 0 1)) ∧
    (let u := stCert.turnOf (hin (.attest 0x1000));
      turn stCert (hin (.attest 0x1000)) ∧ u.plat.cert ≠ [] ∧ u.resizesFirst.glBytes (hostView 0 false) 0x1000 64 = some (List.replicate 64 0) ∧
        (let v := (u.resizesFirst.engServed (hostView 0 false) (glAt 0x1000) 0 64 0).pastFar;
          (v.fresh.2.hostWrite 0 0x1000 (v.report (List.replicate 64 0)) false).2.1 = 0)) ∧
    (let x : HostIn := ⟨{ hm with ring := 0 }, 0, 9, none, .ringBind 63 65535 0x1000⟩; let s : State := { stLaunch with ringCtx := [(0, 0)] };
      turn s x ∧ 0 < 63 ∧ 63 ≤ 63 ∧ 0 < 65535 ∧ 65535 ≤ 65535 ∧ 0x1000 % 4096 = 0 ∧ ¬ ∃ p ∈ (s.turnOf x).ringCtx, p.2 = 65535) ∧
    (stLaunch.InTurn { hin (.launch 0) with z := some 0x0E } ∧ isCommand (.launch 0) = true) := by
  unfold turn State.InTurn
  refine ⟨by decide +kernel, by decide +kernel, by decide +kernel, by decide +kernel, by decide +kernel, by decide +kernel, by decide +kernel, by decide, by decide +kernel, by decide +kernel, by decide +kernel,
    by decide +kernel, by decide +kernel, by decide +kernel⟩

abbrev call0 : SysCall := { id := 1, die := 0, graph := 0, node := 0, index := 0, pos := 0, mask := 1 }
abbrev stCall : State := hst { idle (one th0) with calls := [call0] }
abbrev msg0 : Msg := { ring := 65, type := 3, seq := 1, payload := [] }

theorem meets_HostMessages :
    (turn stCall (hin (.reply 1 0 0 [])) ∧ (stCall.turnOf (hin (.reply 1 0 0 []))).calls.find? (fun c => decide (c.id = 1) && !c.answered) = some call0 ∧
      (stCall.turnOf (hin (.reply 1 0 0 []))).callCourse call0 = some (0, 0)) ∧
    (turn (hst {}) (hin (.mailbox 131 [])) ∧ isCtl 131 = true) ∧
    (let u := (hst { stPage true with dies := [(0, { migr := [mig false] })] }).turnOf (hin (.page 1 0x1000 []));
      turn (hst { stPage true with dies := [(0, { migr := [mig false] })] }) (hin (.page 1 0x1000 [])) ∧
      u.sharedPage 1 0x1000 = some (leaf0 true, 0x1008) ∧ u.inbound (leafBase (leaf0 true).pte.toNat (leaf0 true).size) = some (0, mig false)) ∧
    (let s := hst { stPage true with dies := [(0, { duty := 2 })] }; let u := s.turnOf (hin (.page 1 0x1000 []));
      turn s (hin (.page 1 0x1000 [])) ∧ u.sharedPage 1 0x1000 = some (leaf0 true, 0x1008) ∧ u.inbound 0x2000 = none ∧ (u.die 0).duty.getLsbD 1 = true) ∧
    (let u := (hst (stPage false)).turnOf (hin (.own 1 0x1000 true));
      turn (hst (stPage false)) (hin (.own 1 0x1000 true)) ∧ u.sharedPage 1 0x1000 = some (leaf0 false, 0x1008) ∧
      findAt (fun m => decide (m.frame = leafBase (leaf0 false).pte.toNat (leaf0 false).size)) (State.die ((u.setOwn 0x1008 true).dropPage 0x2000 1 0x1000) 0).migr = none) ∧
    (let y : Migr := { mig false with assisted := true };
      let s := hst { stPage true with dies := [(0, { migr := [y] })] }; let u := s.turnOf (hin (.own 1 0x1000 false));
      turn s (hin (.own 1 0x1000 false)) ∧ u.sharedPage 1 0x1000 = some (leaf0 true, 0x1008) ∧
      findAt (fun m => decide (m.frame = leafBase (leaf0 true).pte.toNat (leaf0 true).size)) (State.die ((u.setOwn 0x1008 false).dropPage 0x2000 1 0x1000) 0).migr = some y) ∧
    (let s := hst { stPage true with dies := [(0, { migr := [mig true] })] }; let u := s.turnOf (hin (.own 1 0x1000 false));
      turn s (hin (.own 1 0x1000 false)) ∧ u.sharedPage 1 0x1000 = some (leaf0 true, 0x1008) ∧
      findAt (fun m => decide (m.frame = leafBase (leaf0 true).pte.toNat (leaf0 true).size)) (State.die ((u.setOwn 0x1008 false).dropPage 0x2000 1 0x1000) 0).migr = some (mig true) ∧
      (mig true).toHost = true) ∧
    (turn (hst (stPage false)) (hin (.wantPage 1 0x1000)) ∧ ((hst (stPage false)).turnOf (hin (.wantPage 1 0x1000))).sharedPage 1 0x1000 = some (leaf0 false, 0x1008)) ∧
    ((hst {}).hears = true ∧ headBad hm = false ∧ headBad { hm with ver := 3 } = true ∧ (0 = 0 ∨ ackCovers (nextSeqNo 0) ((hst {}).takeHead hm).host.oldest = true) ∧
      (({ hst {} with host := { up := true, resync := true } } : State).takeHead hm).host.resync = true) ∧
    ((hst {}).phase = .running ∧ ({} : State).host.up = false) ∧
    (let s : State := { phase := .recovery, host := { up := true, unacked := [(0, msg0)] }, time := 100 * msTicks };
      s.host.unacked = (0, msg0) :: [] ∧ max s.host.lastAck 0 + 500 * usTicks ≤ s.time ∧ s.host.lastAck + 100 * msTicks ≤ s.time) ∧
    ({ hm with seq := 256 }.seq ≠ ((hst {}).takeHead { hm with seq := 256 }).host.current ∧
      ((hst {}).takeHead { hm with ctx := 1 }).refusedWhole { hin (.launch 0) with m := { hm with ctx := 1 } } = true) := by
  unfold turn State.InTurn
  exact ⟨by decide +kernel, by decide +kernel, by decide +kernel, by decide +kernel, by decide +kernel, by decide +kernel, by decide +kernel, by decide +kernel, by decide +kernel, by decide, by decide +kernel, by decide +kernel⟩

/-- A group at entry 0 of the code table at 0x1000, whose state is `r`. -/
abbrev stEntry (r : Nat) : State := laneOn 0 (one th0) tk0 { tlb := [placeEntry] }
  (({ codeTables := [{ ctx := 0, base := 0x1000, count := 1 }] } : State).physWrite false 0x1000 (leBytes 8 r))
/-- A course that waits for writes of `dbgctl`. -/
abbrev cDbg (v : Word) : Course := { one th0 with dbg := [v] }

theorem meets_PlatformEvents :
    (∀ r : Nat, (stEntry r).phase = .running ∧ (stEntry r).entryGroup = some (G0, { ctx := 0, base := 0x1000, count := 1 }, 0, 0) ∧
      (stEntry r).tlbFind 0 0 (va57 0x1000) = some placeEntry ∧ placeEntry.permits { r := true } true = true ∧ placeEntry.hostOwned = false ∧ placeEntry.permits { r := true, w := true } true = true) ∧
    (∀ r : Fin 4, (stEntry r.val).targetOf placeEntry (va57 0x1000) = .home (.hbm 0 (hbmLoc false 0x1000)) ∧
      (stEntry r.val).resizeWaits (.hbm 0 (hbmLoc false 0x1000)) = false ∧ (stEntry r.val).badIn (.hbm 0 (hbmLoc false 0x1000)) 16 = none ∧
      leNat ((((stEntry r.val).invalLane 0).served (.hbm 0 (hbmLoc false 0x1000)) 16).locRead (.hbm 0 (hbmLoc false 0x1000)) 8) % 4 = r.val) ∧
    (let s := stBind 0x9000 {};
      findAt (fun b => decide (b.ctx = 0 ∧ b.base = 0x8000 ∧ b.index = 0) && !b.assisted) s.binds = some { base := 0x8000, index := 0, ctx := 0, die := 0, owner := 0, graph := 1, assisted := false } ∧
      s.entryWord 0 0 0x8000 0 2 = some 0x9000 ∧ s.entryWord 0 0 0x8000 0 3 = some 0 ∧
      (match s.moduleFault { base := 0x8000, index := 0, ctx := 0, die := 0, owner := 0, graph := 1, assisted := false } 0x9000 0 0 with
        | .ok m => decide (0x10000 + (translate m 0 0x8000 0x10000).length ≤ 0x20000) &&
            (s.engPieces (unitView 0 0) (glAt 0x10000) 0 0 (translate m 0 0x8000 0x10000)).toBool
        | .error _ => false) = true ∧
      s.codeSpace.find 0 = some (0x10000, 0x20000)) ∧
    ((match (stBind 0xA000 {}).moduleFault { base := 0x8000, index := 0, ctx := 0, die := 0, owner := 0, graph := 1, assisted := false } 0xA000 0 0 with
      | .error n => n | .ok _ => 0) = 1) ∧
    (∀ v : Word, ((idle (cDbg v)).course? 0 0).bind (fun c => c.dbg.head?) = some v ∧ (idle (cDbg v)).issue = none ∧ (idle (cDbg v)).laneIdle 0 (laneOf 0 0) = true) ∧
    (3 < 4 ∧ 527 < 528 ∧ 255 < 256) ∧
    ((State.reset.checkRecord 1 false []).2 = false ∧ State.reset.phase = .booting) ∧
    (Config.partNumber = 0 → recordReason 0 0 true (List.replicate 64 0) = 0) ∧ recordReason 1 1 false [0] ≠ 0 ∧
    ((1 : Nat) ≠ ({} : State).rank ∧ ({} : State).isLost 1 = false ∧ ({ rings := [(0, 0x400008040402)] } : State).stepGroup none ≠ [] ∧ ({} : State).stepGroup none = []) ∧
    (let s : State := { phase := .running, dies := [(0, { step := 31 })], time := msTicks }; (s.die 0).step < s.lowestStep ∧ s.plat.lastUp + msTicks ≤ s.time) ∧
    (let r : StepReq := { rank := 0, die := 0, event := 1, step := 16, born := 0 };
      let s : State := { phase := .running, requests := [r], time := msTicks, plat := { sensors := [(27, [(0, 2 ^ 30)])] } };
      s.request? 0 1 = some r ∧ r.born + msTicks ≤ s.time ∧ s.raised 0 1 = true) ∧
    (let s : State := { phase := .running, plat := { sensors := [(15, [(0, 1760)])] } }; s.sensor (8 + 7) = some 1760 ∧ s.plat.bandAt.find 7 = none) ∧
    (28 < 29 ∧ (({} : State).plat.sensors.get 28 []).head? = none) ∧
    (let s : State := { phase := .running, plat := { tele := some (0, 0) }, time := msTicks }; s.plat.tele = some (0, 0) ∧ s.plat.lastTele + msTicks ≤ s.time) ∧
    (let s : State := { phase := .running, plat := { sensors := [(7, [(0, 1760)])] } }; s.phase ≠ .off ∧ s.tripValue 1 = some 1760) ∧
    (let s : State := { phase := .off, plat := { okSince := some 0 }, time := 10000 * msTicks }; s.phase = .off ∧ s.plat.okSince = some 0 ∧ 0 + 10000 * msTicks ≤ s.time) := by
  refine ⟨fun _ => ⟨rfl, rfl, rfl, by decide, by decide, by decide⟩, by decide +kernel, by decide +kernel, by decide +kernel, fun _ => ⟨rfl, rfl, rfl⟩, by decide, ⟨rfl, rfl⟩, ?_, by decide, by decide, by decide +kernel,
    by decide +kernel, by decide +kernel, by decide +kernel, by decide +kernel, by decide +kernel⟩
  intro h
  unfold recordReason
  rw [h]; decide

theorem meets_DecodeOfEncode : (Instr.nopC).wellFormed = true ∧ (encode .nopC).1 ≠ 0 ∧
    (Instr.iaddL { r := { h := { n := true, g := 11, s := 3 }, u := true, b := 31, a := 31, d := 31 }, m := Modifier.zero }).wellFormed = true ∧
    (encode (.iaddL { r := { h := { n := true, g := 11, s := 3 }, u := true, b := 31, a := 31, d := 31 }, m := Modifier.zero })).1 ≠ 0 := by decide +kernel

theorem meets_EveryStepGoesOn : LaneOk State.reset ∧ LaneOk st0 := by
  refine ⟨fun g h => (by cases h), fun g h => ?_⟩
  cases h; rfl

theorem fetched {s : State} {g : Issue} {x : Fetched} (h : (s.fetch g).1 = x) : ∃ s', s.fetch g = (x, s') := ⟨_, Prod.ext h rfl⟩

theorem meets_StepRunsDecoded :
    (let s := State.reset.withFetchWord 32 0x0C410159;
      s.issue = some gLoop ∧ s.entryGroup = none ∧ (∃ s', s.fetch gLoop = (.bits 0x0C410159, s')) ∧
      decodeBits 0x0C410159 = .ok (.iadd { h := { n := true, g := 5, s := 2 }, u := false, b := 3, a := 2, d := 1 })) ∧
    (let s := State.reset.withFetchWord 32 0x0C4100C1; (∃ s', s.fetch gLoop = (.bits 0x0C4100C1, s')) ∧ decodeBits 0x0C4100C1 = .error .reservedGuard) ∧
    (let g : Issue := { gLoop with pc := 1 }; let s : State := { State.reset.withFetchWord 32 0 with issue := some g };
      s.issue = some g ∧ s.entryGroup = none ∧ ∃ s', s.fetch g = (.trap (fetchTrap g 0x13 0 1), s')) ∧
    (st0.issue = some G0.g ∧ st0.entryGroup = none ∧ ∃ s', st0.fetch G0.g = (.wait, s')) ∧
    ((stEntry 2).entryGroup.isSome = true) ∧
    ({ agenda := [(3, .mailboxSend)] } : State).agenda = (3, .mailboxSend) :: [] ∧ (State.reset.issue = none ∧ State.reset.agenda = []) :=
  ⟨⟨rfl, rfl, fetched (by decide +kernel), rfl⟩, ⟨fetched (by decide +kernel), rfl⟩, ⟨rfl, rfl, fetched (by decide +kernel)⟩, ⟨rfl, rfl, fetched (by decide +kernel)⟩, by decide +kernel, rfl, rfl, rfl⟩

theorem meets_MemoryReadsBack : (Loc.hbm 3 (2 ^ 37 - 8)).isRemote = false ∧ (∀ core o, Loc.hbm 3 (2 ^ 37 - 8) ≠ .pool core o) ∧ MemOk stLaunch ∧
    Memory.wf [(0, 1), (2 ^ 40, 255)] = true := by
  refine ⟨rfl, by simp, by unfold MemOk; decide +kernel, by decide⟩

/-! ## One instruction on a small state -/

/-- What register v3 of thread 0 holds once an instruction of values a (v1) and b (v2) has run. -/
def v3After (a b : Word) (i : Instr) : Option Word :=
  let t : Thread := { th0 with v := regSet (regSet (Vector.replicate 32 0) 1 a) 2 b }
  match exec i (laneOn 0 (one t) tk0 {} {}) with
  | .next s => (s.course? 0 0).map fun c => c.regAt 0 (.v 3) 1000
  | _ => none

/-- Registers d = v3, a = v1, b = v2. -/
abbrev ops : R3 := { h := openHdr, u := false, b := 2, a := 1, d := 3 }

-- R197: a sum wraps at 32 bits and clears the upper half.
theorem test_iadd_wraps : v3After 0x5FFFFFFFF 1 (.iadd ops) = some 0 := by decide +kernel
-- R197: the upper half of the product of -1 and 2 is -1.
theorem test_imulh_signed : v3After 0xFFFFFFFF 2 (.imulhI ops) = some 0xFFFFFFFF := by decide +kernel
-- R199: a count of 32 leaves nothing of a logical shift, and the sign of an arithmetic one.
theorem test_shl_by_width : v3After 1 32 (.shl ops) = some 0 := by decide +kernel
theorem test_shr_by_width : v3After 0x80000000 32 (.shrI ops) = some 0xFFFFFFFF := by decide +kernel
-- R200: a field of 4 bits at position 28.
theorem test_bfx : v3After 0x90000000 0x41C (.bfxN ops) = some 9 := by decide +kernel
-- R204: 1.0 + 2.0 = 3.0 in FP32.
theorem test_fadd : v3After 0x3F800000 0x40000000 (.fadd ops) = some 0x40400000 := by decide +kernel

/-- Where thread 0 is, and how its course stands in a trap, once an instruction has run. -/
def after (c : Course) (i : Instr) : Option (Word × Nat × Bool) :=
  match exec i (laneOn 0 c tk0 {} {}) with
  | .next s => some (match s.course? 0 0 with | some c => ((c.thread 0).pc, c.cause.code, (s.task? 0 0).isSome) | none => (0, 0, false))
  | _ => none

-- R369: the SHA-512 of "abc", as FIPS 180-4 gives it, and the base point of P-521, as FIPS 186 gives it, on its curve.
theorem test_sha512_abc : (sha512 [0x61, 0x62, 0x63]).take 8 = [0xDD, 0xAF, 0x35, 0xA1, 0x93, 0x61, 0x7A, 0xBA] := by decide +kernel
theorem test_p521_base : onCurve curveG = true := by decide +kernel
-- R224: an offset of -1 parcels from 0x1000.
theorem test_bra_back : after (one th0) (.bra { h := openHdr, i := 0xFFFF }) = some (0xFFE, 0, true) := by decide +kernel
-- R229, R367: a counted loop on v2 over one `nop.c` becomes `loop v2` over it and the three behind it, whose last parcel is seven
-- parcels on, and then `exit` (words of R181 and R224).
theorem test_translate_loop :
    translate ([0x0100000000000102, 0x100000001, 0, 0, 0, 0, 0, 0, 0x200B000100000000, 0].flatMap (leBytes 8) ++ [0x1E, 0x80]) 0 0x8000 0x10000 =
      [0xF3, 0xCC, 0x02, 0, 7, 0, 0, 0, 0x1E, 0x80, 0x1E, 0x80, 0x1E, 0x80, 0x1E, 0x80, 0xF1, 0xCA, 0, 0] := by decide +kernel
-- R243: a supervisor function in task mode is trap 0x11.
theorem test_halt_task_mode : (after (one thU) (.halt { h := openHdr })).map (fun x => x.2.1) = some 0x11 := by decide +kernel
-- R254: an atomic that names no register of its own leaves one access on its way.
theorem test_atom_issues : (match exec (.atomAdd { h := openHdr, o := true, p := 1, w := 4, a := 1, d := 2 }) st0 with
    | .next s => s.inflight.length | _ => 0) = 1 := by decide +kernel

end Sys2Proof.Tests
end

section
/-! Byte memory as it is read and written at a home: a run of bytes reads back as written (R3, R155), and the canonical form
makes memories that read alike equal. -/

namespace Sys2Proof.Machine

/-! ### Runs of bytes -/

@[simp] theorem length_cellsRead (m : List Host.Cell) (a n : Nat) : (cellsRead m a n).length = n := by
  induction n generalizing a with
  | zero => rfl
  | succ n ih => simp [cellsRead, ih]

@[simp] theorem getElem_cellsRead (m : List Host.Cell) (a n i : Nat) (h : i < (cellsRead m a n).length) :
    (cellsRead m a n)[i] = cellGet m (a + i) := by
  induction n generalizing a i with
  | zero => simp [cellsRead] at h
  | succ n ih =>
    cases i with
    | zero => simp [cellsRead]
    | succ i => simp [cellsRead, ih, Nat.add_assoc, Nat.add_comm 1 i]

/-- The bytes of a run read back as they were written. -/
@[simp] theorem cellsRead_cellsWrite (m : List Host.Cell) (a : Nat) (bs : List Byte) :
    cellsRead (cellsWrite m a bs) a bs.length = bs := by
  refine List.ext_getElem (by simp) fun i _ hi => ?_
  rw [getElem_cellsRead, cellGet_cellsWrite, if_pos (by omega), Nat.add_sub_cancel_left, List.getD_eq_getElem?_getD,
    List.getElem?_eq_getElem hi, Option.getD_some]

/-! ### The canonical form -/

theorem cellsWf_cons {lo a : Nat} {b : Byte} {r : List Host.Cell} :
    cellsWf lo ((a, b) :: r) = true ↔ lo ≤ a ∧ b ≠ 0 ∧ cellsWf (a + 1) r = true := by
  simp [cellsWf, and_assoc]

/-- Below the least address a canonical list may hold, it reads 0. -/
theorem cellGet_of_lt {lo : Nat} {m : List Host.Cell} (w : cellsWf lo m = true) {k : Nat} (hk : k < lo) : cellGet m k = 0 := by
  induction m generalizing lo with
  | nil => rfl
  | cons c r ih =>
    obtain ⟨a, b⟩ := c
    obtain ⟨ha, -, wr⟩ := cellsWf_cons.mp w
    rw [cellGet, if_neg (by omega), ih wr (by omega)]

/-- Where two lists read alike, a canonical one does not begin above the other's first byte. -/
theorem head_le_of_cellGet_eq {a a' : Nat} {b b' : Byte} {r r' : List Host.Cell} (hb : b ≠ 0) (wr : cellsWf (a + 1) r = true)
    (hb' : b' ≠ 0) (h : ∀ k, cellGet ((a, b) :: r) k = cellGet ((a', b') :: r') k) : a ≤ a' := by
  refine Nat.le_of_not_lt fun lt => hb' ?_
  have zero : cellGet ((a, b) :: r) a' = 0 := cellGet_of_lt (cellsWf_cons.mpr ⟨Nat.le_refl a, hb, wr⟩) lt
  rw [h a', cellGet, if_pos rfl] at zero
  exact zero

/-- Canonical lists that read alike are equal. -/
theorem cellsWf_ext {lo : Nat} {m n : List Host.Cell} (wm : cellsWf lo m = true) (wn : cellsWf lo n = true)
    (h : ∀ k, cellGet m k = cellGet n k) : m = n := by
  induction m generalizing lo n with
  | nil =>
    cases n with
    | nil => rfl
    | cons c r =>
      obtain ⟨hb : c.2 ≠ 0, -⟩ := (cellsWf_cons.mp wn).2
      exact absurd (h c.1).symm (by simpa [cellGet] using hb)
  | cons c r ih =>
    obtain ⟨a, b⟩ := c
    obtain ⟨-, hb, wr⟩ := cellsWf_cons.mp wm
    cases n with
    | nil => exact absurd (h a) (by simpa [cellGet] using hb)
    | cons c' r' =>
      obtain ⟨a', b'⟩ := c'
      obtain ⟨-, hb', wr'⟩ := cellsWf_cons.mp wn
      have head : a = a' := Nat.le_antisymm (head_le_of_cellGet_eq hb wr hb' h)
        (head_le_of_cellGet_eq hb' wr' hb fun k => (h k).symm)
      subst head
      have byte : b = b' := by simpa [cellGet] using h a
      have tail : ∀ k, cellGet r k = cellGet r' k := fun k => by
        by_cases hk : k < a + 1
        · rw [cellGet_of_lt wr hk, cellGet_of_lt wr' hk]
        · simpa [cellGet, show a ≠ k by omega] using h k
      rw [byte, ih wr wr' tail]

/-! ### Bytes at a home -/

theorem State.locWrite_pool (s : State) (core o : Nat) (bs : List Byte) :
    s.locWrite (.pool core o) bs = { s with pool := cellsWrite s.pool (Loc.pool core o).key bs } := rfl

/-- A write at a home of the module outside the pools changes the module's memory only. -/
theorem State.locWrite_of_not_pool (s : State) (x : Loc) (bs : List Byte) (hp : ∀ core o, x ≠ .pool core o)
    (hr : x.isRemote = false) : s.locWrite x bs = { s with mem := cellsWrite s.mem x.key bs } := by
  cases x with
  | hbm d l => rfl
  | scratch d o => rfl
  | pool core o => exact absurd rfl (hp core o)
  | remote d o => cases hr

theorem State.locRead_locWrite (s : State) (x : Loc) (bs : List Byte) (hr : x.isRemote = false) :
    (s.locWrite x bs).locRead x bs.length = bs := by
  cases x with
  | hbm d l => exact cellsRead_cellsWrite _ _ _
  | scratch d o => exact cellsRead_cellsWrite _ _ _
  | pool core o => exact cellsRead_cellsWrite _ _ _
  | remote d o => cases hr

/-- Settles O60: a read after a write at each kind of home, what the write leaves alone, the canonical form it keeps, and
the extensionality of that form. -/
theorem memoryReadsBack : Obligations.MemoryReadsBack := by
  refine ⟨State.locRead_locWrite, fun s x bs k hp hr => ?_, fun s core o bs k => ?_,
    fun _ x bs h => h.locWrite x bs, fun _ vl a bs h => h.physWrite vl a bs, fun _ _ => cellsWf_ext⟩
  · rw [State.locWrite_of_not_pool s x bs hp hr]
    exact ⟨rfl, cellGet_cellsWrite _ _ _ _⟩
  · dsimp only
    rw [State.locWrite_pool]
    exact ⟨rfl, cellGet_cellsWrite _ _ _ _⟩

end Sys2Proof.Machine
end

section
/-! The step of the module: it never stops, and what it does with a group whose fetch ends in a trap. -/

namespace Sys2Proof.Machine

/-- Settles O57: the lane's invariant is what each arm of the dispatch needs to answer a next state, and each one keeps it. -/
theorem everyStepGoesOn : Obligations.EveryStepGoesOn := fun _ h => step_laneOk h

/-! ### A fetch that ends in a trap -/

theorem step_of_fetch_trap {s s' : State} {g : Issue} {c : Cause} (hg : s.issue = some g) (he : s.entryGroup = none)
    (hf : s.fetch g = (.trap c, s')) : step s = afterGroup g (s'.fetchTrapped g c) := by
  unfold step runIssue
  simp only [hg, he, hf]

/-- A module whose group in the lane stands at a word of code that holds an uncorrectable error: core 0 fetches at address
0x10000, which is this offset of die 0's HBM. -/
def badCodeState : State := { State.reset.withFetchWord 32 0 with badWords := [.hbm 0 placeAddr] }

/-- The group in the lane of that module. -/
def badCodeGroup : Issue := { core := 0, course := 0, slots := [0], pc := BitVec.ofNat 64 placeAddr, t := 0 }

theorem badCodeState_fetch : badCodeState.fetch badCodeGroup =
    (.trap (fetchTrap badCodeGroup 0x70 0 badCodeGroup.pc), (badCodeState.fetch badCodeGroup).2) :=
  Prod.ext (by decide +kernel) rfl

/-- The count of uncorrectable errors in the HBM of die 0, in its trap control block (R413). -/
def hbmErrors : Outcome → Nat
  | .next t => t.physNat (trapBase 0 + 0x8000 + 16 * 3 + 8) 8
  | _ => 0

/-- Taking the trap of its fetch, the group has the error counted (R410, R412). -/
theorem hbmErrors_fetchTrapped : hbmErrors (afterGroup badCodeGroup ((badCodeState.fetch badCodeGroup).2.fetchTrapped badCodeGroup
    (fetchTrap badCodeGroup 0x70 0 badCodeGroup.pc))) = 1 := by decide +kernel

/-- The trap alone counts nothing. -/
theorem hbmErrors_trapNow : hbmErrors (afterGroup badCodeGroup ((badCodeState.fetch badCodeGroup).2.withGroup fun G =>
    (badCodeState.fetch badCodeGroup).2.trapNow G (fetchTrap badCodeGroup 0x70 0 badCodeGroup.pc))) = 0 := by decide +kernel

/-- Refutes O59, in its clause on a fetch that ends in a trap: where an uncorrectable word of code raised it, the step also
counts and records the error (R410, R412), which the trap alone does not. What a step does there is `step_of_fetch_trap`. -/
theorem not_stepRunsDecoded : ¬ Obligations.StepRunsDecoded := by
  rintro ⟨-, -, trapped, -⟩
  have lane : badCodeState.issue = some badCodeGroup := rfl
  have noEntry : badCodeState.entryGroup = none := rfl
  have same := (step_of_fetch_trap lane noEntry badCodeState_fetch).symm.trans (trapped _ _ _ _ lane noEntry badCodeState_fetch)
  have count := congrArg hbmErrors same
  rw [hbmErrors_fetchTrapped, hbmErrors_trapNow] at count
  exact absurd count (by decide)

end Sys2Proof.Machine
end

section
/-! The selection of an issue group (R22, R23): which threads form it, and what a selection does in a free lane. -/

namespace Sys2Proof.Machine

/-! ### The threads of the group -/

/-- The lowest program counter among some threads, 2^64 among none. -/
def Course.lowestPc (c : Course) (ready : List Nat) : Nat := ready.foldl (fun m i => min m (c.thread i).pc.toNat) (2 ^ 64)

theorem groupOf_of_young {c : Course} {ready : List Nat} (young : ∀ i ∈ ready, (c.thread i).age < 1024) :
    groupOf c ready = ready.filter fun i => decide ((c.thread i).pc.toNat = c.lowestPc ready) := by
  have noneOld : (ready.filter fun i => decide (1024 ≤ (c.thread i).age)) = [] :=
    List.filter_eq_nil_iff.mpr fun i hi => by simpa using young i hi
  unfold groupOf Course.lowestPc
  rw [noneOld]

/-- Some thread stands at the lowest program counter, and none below it. -/
theorem lowestPc_spec (c : Course) {ready : List Nat} (nonempty : ready ≠ []) :
    (∃ i ∈ ready, (c.thread i).pc.toNat = c.lowestPc ready) ∧ ∀ i ∈ ready, c.lowestPc ready ≤ (c.thread i).pc.toNat := by
  have least : (2 ^ 64 :: ready.map fun i => (c.thread i).pc.toNat).min? = some (c.lowestPc ready) := by
    rw [List.min?_cons', List.foldl_map]; rfl
  obtain ⟨mem, le⟩ := List.min?_eq_some_iff.mp least
  have below : ∀ i ∈ ready, c.lowestPc ready ≤ (c.thread i).pc.toNat := fun i hi => le _ (by grind)
  refine ⟨?_, below⟩
  rcases List.mem_cons.mp mem with top | mem
  · obtain ⟨i, hi⟩ := List.exists_mem_of_ne_nil _ nonempty
    have := below i hi
    have := (c.thread i).pc.isLt
    omega
  · simpa using mem

theorem mem_groupOf_iff {c : Course} {ready : List Nat} (young : ∀ i ∈ ready, (c.thread i).age < 1024) (i : Nat) :
    i ∈ groupOf c ready ↔ i ∈ ready ∧ ∀ j ∈ ready, (c.thread i).pc.toNat ≤ (c.thread j).pc.toNat := by
  rw [groupOf_of_young young, List.mem_filter, decide_eq_true_iff]
  refine and_congr_right fun hi => ?_
  obtain ⟨⟨k, hk, at_⟩, below⟩ := lowestPc_spec c (List.ne_nil_of_mem hi)
  exact ⟨fun h j hj => h ▸ below j hj, fun h => Nat.le_antisymm (at_ ▸ h k hk) (below i hi)⟩

theorem groupOf_ne_nil {c : Course} {ready : List Nat} (nonempty : ready ≠ []) (young : ∀ i ∈ ready, (c.thread i).age < 1024) :
    groupOf c ready ≠ [] := by
  obtain ⟨⟨i, hi, at_⟩, -⟩ := lowestPc_spec c nonempty
  rw [groupOf_of_young young]
  exact List.ne_nil_of_mem (List.mem_filter.mpr ⟨hi, decide_eq_true at_⟩)

/-! ### The selection -/

@[simp] theorem Course.wake_task (c : Course) : c.wake.task = c.task := by
  unfold Course.wake
  split
  · exact foldl_task (fun (c' : Course) i => if (c'.thread i).live then c'.endWait _ i _ else c') (fun c' i => by split <;> rfl) _ c
  · rfl

/-- A course as its selection finds it: one whose parking is over leaves it. -/
def Course.atSelection (c : Course) : Course := if c.park.isSome && !c.parkUnder then c.wake else c

theorem Course.atSelection_task (c : Course) : c.atSelection.task = c.task := by
  unfold Course.atSelection
  split
  · exact c.wake_task
  · rfl

/-- The module as a lane's selection finds it: the courses of the lane have met the writes of `dbgctl` that wait for them. -/
def State.met (s : State) (core lane : Nat) : State :=
  { ((s.units core lane).map fun x => x.1).foldl (fun s n => s.meetAllDbg core n) s with issue := none }

/-- A group of the lane whose check has passed goes on, whatever error comes with the event. -/
theorem select_of_toReissue {s : State} {core lane : Nat} {g : Issue} (err : SoftErr) (hp : s.phase = .running) (hi : s.issue = none)
    (hg : s.toReissue core lane = some g) : s.select core lane err = s.reissue g := by
  unfold State.select
  simp [hp, hi, hg]

/-- A free lane forms the group of the candidate it chooses. -/
theorem select_of_choose {s : State} {core lane : Nat} {p : Cand} (hp : s.phase = .running) (hi : s.issue = none)
    (hg : s.toReissue core lane = none) (hl : s.laneIdle core lane = true) (hc : (s.met core lane).choose core lane = some p)
    (hs : p.slots ≠ []) :
    s.select core lane .none = ((s.met core lane).modCourse core p.course Course.atSelection).form core lane p := by
  unfold State.select
  rw [if_neg (by simp [hi, hp])]
  split
  · next g hg' => exact absurd (hg.symm.trans hg') (by simp)
  · rw [if_neg (by simp [hl])]
    extract_lets u
    split
    · next hc' => exact absurd (hc.symm.trans hc') (by simp)
    · next q hc' =>
      obtain rfl : p = q := Option.some.inj (hc.symm.trans hc')
      exact if_neg (by simpa using hs)

/-- A group whose instruction can be had enters the lane. -/
theorem form_issue {s : State} {core lane : Nat} {p : Cand} {c : Course} {tk : Task} (hc : s.course? core p.course = some c)
    (ht : s.task? core c.task = some tk) (hw : s.fetchWaits (s.groupFor core p c) = none) :
    (s.form core lane p).issue = some (s.groupFor core p c) := by
  unfold State.form
  simp only [hc, Option.bind_some, ht, hw]

/-- A group whose instruction must still be fetched leaves the lane empty and its course to wait. -/
theorem form_waits {s w : State} {core lane : Nat} {p : Cand} {c : Course} {tk : Task} (hc : s.course? core p.course = some c)
    (ht : s.task? core c.task = some tk) (hw : s.fetchWaits (s.groupFor core p c) = some w) :
    s.form core lane p = { w with issue := none } := by
  unfold State.form
  simp only [hc, Option.bind_some, ht, hw]

/-- Settles O46: the group is the one that `State.form` makes of the chosen candidate, the group that goes on the one that
`State.reissue` puts back, and `groupOf` picks the least program counter. -/
theorem selection : Obligations.Selection := by
  refine ⟨?_, ?_, fun c ready nonempty young => ⟨groupOf_ne_nil nonempty young, mem_groupOf_iff young⟩⟩
  · intro core lane s p hp hi hg hl u hch hs c hc ht wakes v d g
    have formed : exec (.issueGroupSelection core lane .none) s = .next (v.form core lane p) :=
      congrArg Host.Outcome.next (select_of_choose hp hi hg hl hch hs)
    have course : v.course? core p.course = some d := by
      rw [State.course?_modCourse, if_pos ⟨rfl, rfl⟩, hc]; rfl
    obtain ⟨tk, task⟩ : ∃ tk, v.task? core d.task = some tk := by
      rw [State.task?_modCourse, show d.task = c.task from c.atSelection_task]
      exact Option.isSome_iff_exists.mp ht
    have group : v.groupFor core p d = g := by
      show ({ core := core, course := p.course, slots := _, pc := _, t := v.now } : Issue) = _
      rw [State.modCourse_now]
    refine ⟨fun hw => ⟨_, formed, ?_⟩, fun w hw => formed.trans (congrArg _ ?_)⟩
    · exact (form_issue course task (group ▸ hw)).trans (congrArg some group)
    · exact form_waits course task (group ▸ hw)
  · intro core lane err s g G hp hi hg hG
    have goesOn : s.reissue g = { s.setCourse g.core g.course { G.cs with again := none } with issue := some g } := by
      unfold State.reissue; rw [hG]
    exact congrArg Host.Outcome.next ((select_of_toReissue err hp hi hg).trans goesOn)

end Sys2Proof.Machine
end

section
/-! Events of one course (R25, R31, R82, R215, R228, R379, R395). -/

namespace Sys2Proof.Machine

/-! ### Results -/

/-- The results that are readable by now leave their lists, and no register reads otherwise from now on. -/
theorem settleAll_reads {c : Course} {now i n : Nat} {r : RegRef} (hn : now ≤ n) (hq : ∀ q, r ≠ .q q) (hi : i < c.threads.length) :
    (c.settleAll now).regAt i r n = c.regAt i r n ∧ ∀ p ∈ ((c.settleAll now).thread i).pend, now < p.ready := by
  refine ⟨settleAll_reg c now i r n hn hq hi, ?_⟩
  rw [settleAll_thread c now i hi]
  exact rest_ready (c.thread i).pend now

/-- A register with no result pending reads what is stored. -/
theorem pendRead_of_forall_ne {ps : List Pend} {r : RegRef} (h : ∀ p ∈ ps, p.dst ≠ r) (n : Nat) (x : Word) : pendRead ps r n x = x := by
  induction ps with
  | nil => rfl
  | cons p ps ih =>
    show pendRead ps r n (if p.dst = r ∧ p.ready ≤ n then p.val else x) = x
    rw [if_neg fun e => h p List.mem_cons_self e.1]
    exact ih fun y hy => h y (List.mem_cons_of_mem _ hy)

/-- A value stored at once over what is pending reads from then on. -/
theorem Thread.readV_write (t : Thread) (r : Reg) (x : Word) (n : Nat) : (t.write (.v r) x).readV r n = x := by
  show pendRead (t.pend.filter fun p => p.dst ≠ .v r) (.v r) n (regGet (regSet t.v r x) r) = x
  rw [pendRead_of_forall_ne fun p hp => by simpa using (List.mem_filter.mp hp).2, regSet_get, if_pos rfl]

/-- The register that awaits a result takes it, and awaits it no more. -/
theorem Thread.arrive_awaited {t : Thread} {r : Reg} {id : Nat} (h : (RegRef.v r, id) ∈ t.sb) (x : Word) :
    (.v r, id) ∉ (t.arrive (.v r) id x).sb ∧ ∀ n, (t.arrive (.v r) id x).readV r n = x := by
  unfold Thread.arrive
  rw [if_pos (by simpa using h)]
  exact ⟨by simp, t.readV_write r x⟩

@[simp] theorem Course.thread_modBoth (c : Course) (i j : Nat) (f : Thread → Thread) : (c.modBoth i f).thread j = (c.modThread i f).thread j := by
  unfold Course.modBoth
  dsimp only
  split <;> rfl

theorem divideResult_eq {s : State} {id : Nat} {d : DivRes} {r : Reg}
    (hd : findAt (fun d => decide (d.id = id ∧ d.ready ≤ s.now)) s.divs = some d) (hr : d.dst = .v r) :
    s.divideResult id = ({ s with divs := s.divs.filter fun x => decide (x.id ≠ id) } : State).modCourse d.core d.course
      fun c => c.modBoth d.slot fun t => t.arrive d.dst id d.val := by
  unfold State.divideResult
  simp only [hd, hr]

/-- A course whose thread awaits a quotient in a register, once it has come. -/
theorem Course.modBoth_arrive {c : Course} {i id : Nat} {r : Reg} (hi : i < c.threads.length) (hb : (RegRef.v r, id) ∈ (c.thread i).sb) (x : Word) :
    (.v r, id) ∉ ((c.modBoth i fun t => t.arrive (.v r) id x).thread i).sb ∧
      ∀ n, (c.modBoth i fun t => t.arrive (.v r) id x).regAt i (.v r) n = x := by
  have arrived : (c.modBoth i fun t => t.arrive (.v r) id x).thread i = (c.thread i).arrive (.v r) id x := by
    rw [Course.thread_modBoth, Course.thread_modThread _ _ _ _ hi, if_pos rfl]
  unfold Course.regAt
  rw [arrived]
  exact Thread.arrive_awaited hb x

/-! ### Convergence -/

theorem convergenceRelease_eq {s : State} {core course : Nat} {c : Course} (hc : s.course? core course = some c) :
    s.convergenceRelease core course =
      s.modCourse core course fun d => d.converge (((s.task? core c.task).map Task.width).getD 0) s.now := by
  unfold State.convergenceRelease
  rw [hc]
  rfl

/-- A condition of a course that is in no trap waits for its next selection (R378). -/
theorem defer_of_untrapped {s : State} {core course : Nat} {c : Course} (hc : s.course? core course = some c) (ht : c.trap = .none) (x : Cause) :
    s.defer core course x = s.setCourse core course { c with deferred := c.deferred ++ [x] } := by
  unfold State.defer State.modCourse State.noteHeld
  simp [hc, ht]

/-- The same after a change of some of its threads. -/
theorem defer_foldMod {s : State} {core course : Nat} {c : Course} (hc : s.course? core course = some c) (ht : c.trap = .none)
    (f : Thread → Thread) (l : List Nat) (x : Cause) :
    ∃ d, ((s.modCourse core course fun c => l.foldl (fun c j => c.modThread j f) c).defer core course x).course? core course = some d ∧
      d.deferred = c.deferred ++ [x] := by
  obtain ⟨ts, changed⟩ := foldMod_rest (fun _ => f) l c
  have resident : (s.modCourse core course fun c => l.foldl (fun c j => c.modThread j f) c).course? core course =
      some { c with threads := ts } := by
    rw [State.course?_modCourse, if_pos ⟨rfl, rfl⟩, hc, Option.map_some, changed]
  rw [defer_of_untrapped resident ht]
  exact ⟨_, State.course?_setCourse_self _ _ _ _, rfl⟩

/-- The course whose convergence wait has lasted too long receives 0x31 at the `cnv` (R395). -/
theorem convergenceTimeout_defers {s : State} {core course i : Nat} {c : Course} (hc : s.course? core course = some c)
    (ht : c.trap = .none) (hl : c.convLate (((s.task? core c.task).map Task.width).getD 0) s.now = some i) :
    ∃ d x, (s.convergenceTimeout core course).course? core course = some d ∧ d.deferred = c.deferred ++ [x] ∧ x.code = 0x31 ∧
      x.ipc = (c.thread i).pc := by
  unfold State.convergenceTimeout
  rw [hc]
  dsimp only
  rw [hl]
  exact (defer_foldMod hc ht _ _ _).imp fun d h => ⟨_, h.1, h.2, rfl, rfl⟩

/-! ### Parking and traps -/

theorem testEntry_of_wakeAt {s : State} {core course at_ : Nat} {c : Course} (hc : s.course? core course = some c)
    (hw : c.wakeAt = some at_) : s.testEntry core course = s := by
  unfold State.testEntry
  simp [hc, hw]

theorem Course.wake_threads {c : Course} (h : ∀ n g len, c.park ≠ some (.sysc n g len)) : c.wake.threads = c.threads := by
  unfold Course.wake
  split
  · next hp => exact absurd hp (h _ _ _)
  · rfl

theorem stopCourse_of_untrapped {s : State} {core course : Nat} {c : Course} (hc : s.course? core course = some c) (ht : c.trap = .none)
    (x : Cause) : s.stopCourse core course x =
      (s.setCourse core course { c with trap := .stopping, cause := x, nested := false, susp := none, again := none }).takeTrap core course := by
  unfold State.stopCourse State.modCourse
  simp [hc, ht]

/-- An event that is a change of one resident course, known by what the change makes of it. -/
theorem turns_modCourse {s : State} {core course : Nat} {c : Course} {f : Course → Course} {g : State → Course → Course}
    (hc : s.course? core course = some c) (hf : f c = g s c) :
    Turns core course g s { s.modCourse core course f with issue := s.issue } := by
  refine turns_mod s ⟨f, rfl, fun d hd => ?_⟩ (by simp [hc])
  obtain rfl : c = d := Option.some.inj (hc.symm.trans hd)
  exact hf

/-- Settles O47: the clauses in the order of the statement, each the change that its event makes of a course, as said above. -/
theorem courseEvents : Obligations.CourseEvents := by
  refine ⟨fun core course => ?_, fun id d r => ?_, fun core course => ?_, fun core course i => ?_, fun core course at_ => ?_,
    fun core course at_ => ?_, fun core course => ?_, fun s core course c x hc ht => stopCourse_of_untrapped hc ht x⟩
  · -- a result that is readable by now
    refine happens _ (fun _ => rfl) fun s _ resident => ⟨turns_mod s ⟨_, rfl, fun _ _ => rfl⟩ resident, ?_⟩
    exact fun c i r n hn hq hi => settleAll_reads hn hq hi
  · -- a quotient
    refine happensAt _ (fun _ => rfl) ?_
    rintro s - ⟨hd, hr, c, hc, hi, hb⟩ u rfl
    rw [divideResult_eq hd hr]
    refine ⟨State.modCourse_divs _ _ _ _, _, (State.course?_modCourse _ _ _ _ _ _).trans ((if_pos ⟨rfl, rfl⟩).trans (congrArg _ hc)), ?_⟩
    rw [hr] at hb ⊢
    exact Course.modBoth_arrive hi hb d.val
  · -- the end of a wait at a `cnv`
    refine happens _ (fun _ => rfl) fun s _ resident => ?_
    obtain ⟨c, hc⟩ := Option.isSome_iff_exists.mp resident
    rw [convergenceRelease_eq hc]
    exact turns_modCourse hc rfl
  · -- the time-out of a `cnv`
    refine happens _ (fun _ => rfl) ?_
    rintro s - ⟨c, hc, ht, hl⟩
    obtain ⟨d, x, hd, more, code, ipc⟩ := convergenceTimeout_defers hc ht hl
    exact ⟨c, d, x, hc, hd, more, code, ipc⟩
  · -- the end of a yield
    refine happens _ (fun _ => rfl) ?_
    rintro s - ⟨c, hc, hy, le⟩
    exact turns_modCourse hc (by simp only [hy, if_pos le])
  · -- the end of parking
    refine happens _ (fun _ => rfl) ?_
    rintro s - ⟨c, hc, parked, hw, le⟩
    obtain ⟨p, hp⟩ := Option.isSome_iff_exists.mp parked
    rw [testEntry_of_wakeAt hc hw]
    exact ⟨turns_modCourse hc (by simp only [hp, hw, if_pos le]), fun c => ⟨rfl, rfl, Course.wake_threads⟩⟩
  · -- the delivery of a trap
    exact eqn _ (fun _ => rfl) fun _ _ _ => rfl

end Sys2Proof.Machine
end

section
/-! The end of an exact integer result (R43, R180): what a register of width 32 or 64 reads as a signed and as an unsigned
number once an integer was wrapped into it. -/

namespace Sys2Proof.Machine

theorem int_two_pow_pos (w : Nat) : (0 : Int) < 2 ^ w := Int.pow_pos (by decide)

theorem emod_two_pow_nonneg (w : Nat) (r : Int) : 0 ≤ r % 2 ^ w := Int.emod_nonneg _ (Int.ne_of_gt (int_two_pow_pos w))

theorem toNat_emod_lt (w : Nat) (r : Int) : (r % 2 ^ w).toNat < 2 ^ w := by
  rw [Int.toNat_lt (emod_two_pow_nonneg w r)]
  exact_mod_cast Int.emod_lt_of_pos r (int_two_pow_pos w)

/-- An integer that is wrapped into the low `w` bits leaves the bits above them zero. -/
theorem toNat_ofNat_emod {w : Nat} (hw : w ≤ 64) (r : Int) : (BitVec.ofNat 64 (r % 2 ^ w).toNat).toNat = (r % 2 ^ w).toNat := by
  rw [BitVec.toNat_ofNat, Nat.mod_eq_of_lt (Nat.lt_of_lt_of_le (toNat_emod_lt w r) (Nat.pow_le_pow_right (by decide) hw))]

theorem asNat_ofNat_emod {w : Nat} (hw : w ≤ 64) (r : Int) : (asNat w (BitVec.ofNat 64 (r % 2 ^ w).toNat) : Int) = r % 2 ^ w := by
  rw [asNat, toNat_ofNat_emod hw]
  push_cast
  rw [Int.toNat_of_nonneg (emod_two_pow_nonneg w r), Int.emod_emod]

/-- Read as a signed number, a wrapped integer is the one of the signed range that it is congruent to. -/
theorem asInt_ofNat_emod {w : Nat} (hw : w = 32 ∨ w = 64) (r : Int) : asInt w (BitVec.ofNat 64 (r % 2 ^ w).toNat) = r.bmod (2 ^ w) := by
  obtain rfl | rfl := hw
  · rw [ofNat_emod32, asInt32, show low32 (zext32 (BitVec.ofInt 32 r)) = BitVec.ofInt 32 r by simp [low32, zext32], BitVec.toInt_ofInt]
  · rw [ofNat_emod64, asInt64, BitVec.toInt_ofInt]

/-! ### The three ways a result ends -/

theorem finishInt_wrap {m : Modifier} (h : m.sat = 0) (w : Nat) (e : Int) :
    finishInt w m e = BitVec.ofNat 64 ((if m.negd then -e else e) % 2 ^ w).toNat := by
  simp [finishInt, h]

theorem finishInt_signed {m : Modifier} (h : m.sat = 1) (w : Nat) (e : Int) :
    finishInt w m e = BitVec.ofNat 64 (max (-(2 ^ (w - 1))) (min (2 ^ (w - 1) - 1) (if m.negd then -e else e)) % 2 ^ w).toNat := by
  simp [finishInt, h]

theorem finishInt_unsigned {m : Modifier} (h : m.sat = 2) (w : Nat) (e : Int) :
    finishInt w m e = BitVec.ofNat 64 (max 0 (min (2 ^ w - 1) (if m.negd then -e else e)) % 2 ^ w).toNat := by
  simp [finishInt, h]

theorem finishInt_lt {w : Nat} (hw : w ≤ 64) (m : Modifier) (e : Int) : (finishInt w m e).toNat < 2 ^ w := by
  rw [finishInt, toNat_ofNat_emod hw]
  exact toNat_emod_lt w _

/-- A number of the signed range is its own representative there. -/
theorem bmod_clamp {w : Nat} (hw : 0 < w) (v : Int) :
    (max (-(2 ^ (w - 1))) (min (2 ^ (w - 1) - 1) v)).bmod (2 ^ w) = max (-(2 ^ (w - 1))) (min (2 ^ (w - 1) - 1) v) := by
  obtain ⟨k, rfl⟩ := Nat.exists_eq_succ_of_ne_zero (Nat.ne_of_gt hw)
  have hpos := int_two_pow_pos k
  apply Int.bmod_eq_of_le_mul_two <;> push_cast <;> simp only [Nat.succ_eq_add_one, Int.pow_succ] <;> omega

theorem emod_clamp (w : Nat) (v : Int) : max 0 (min (2 ^ w - 1) v) % 2 ^ w = max 0 (min (2 ^ w - 1) v) := by
  have hpos := int_two_pow_pos w
  exact Int.emod_eq_of_lt (by omega) (by omega)

/-- Settles O3: each way a result ends is a wrap of a number, and a clamped number is in the range where wrapping changes
nothing. -/
theorem integerResult : Obligations.IntegerResult := by
  intro w hw m e v
  have hle : w ≤ 64 := by omega
  refine ⟨fun h => ?signed, fun h => ?unsigned, fun h => ?wrapped, finishInt_lt hle m e⟩
  case signed => rw [finishInt_signed h, asInt_ofNat_emod hw, bmod_clamp (by omega)]
  case unsigned => rw [finishInt_unsigned h, asNat_ofNat_emod hle, emod_clamp]
  case wrapped => rw [finishInt_wrap h, asNat_ofNat_emod hle]

end Sys2Proof.Machine
end

section
/-! The numbered registers (R51 to R57): which field of the state each of them reads, and that a store into one of those
fields is seen by that register and by no other. -/

namespace Sys2Proof.Machine

section Fields
variable (s : State) (core course slot cyc n : Nat) (c : Course) (tk : Task) (v : Word) (b : Bool) (m : Nat)

/-! ### A read after a field of the course or the task took a value -/

theorem csrRead_tstat : s.csrRead core course slot cyc { c with tstat := v } tk m =
    if m = 0x020 then v else s.csrRead core course slot cyc c tk m := by
  by_cases h : m = 0x020 <;> simp [State.csrRead, Course.thread, h]

theorem csrRead_fstat : s.csrRead core course slot cyc { c with fstat := v } tk m =
    if m = 0x022 then v else s.csrRead core course slot cyc c tk m := by
  by_cases h : m = 0x022 <;> simp [State.csrRead, Course.thread, h]

theorem csrRead_astat : s.csrRead core course slot cyc c { tk with astat := v } m =
    if m = 0x021 then v else s.csrRead core course slot cyc c tk m := by
  by_cases h : m = 0x021 <;> simp [State.csrRead, h]

theorem csrRead_uchk : s.csrRead core course slot cyc c { tk with uchk := b } m =
    if m = 0x030 then boolWord b else s.csrRead core course slot cyc c tk m := by
  by_cases h : m = 0x030 <;> simp [State.csrRead, h]

theorem csrRead_sbchk : s.csrRead core course slot cyc c { tk with sbchk := b } m =
    if m = 0x031 then boolWord b else s.csrRead core course slot cyc c tk m := by
  by_cases h : m = 0x031 <;> simp [State.csrRead, h]

theorem csrRead_rsbase : s.csrRead core course slot cyc c { tk with rsbase := v } m =
    if m = 0x038 then v else s.csrRead core course slot cyc c tk m := by
  by_cases h : m = 0x038 <;> simp [State.csrRead, h]

/-! ### A read after a field of the core or the die took a value -/

@[simp] theorem die_modCore (f : Core → Core) (d : Nat) : (s.modCore n f).die d = s.die d := rfl
@[simp] theorem core_modDie (f : Die → Die) (k : Nat) : (s.modDie n f).core k = s.core k := rfl

theorem csrRead_dbgctl : (s.modCore core fun k => { k with dbgctl := v }).csrRead core course slot cyc c tk m =
    if m = 0x040 then v else s.csrRead core course slot cyc c tk m := by
  by_cases h : m = 0x040 <;> simp [State.csrRead, h]

theorem csrRead_trapvec : (s.modCore core fun k => { k with trapvec := v }).csrRead core course slot cyc c tk m =
    if m = 0x0F1 then v else s.csrRead core course slot cyc c tk m := by
  by_cases h : m = 0x0F1 <;> simp [State.csrRead, h]

theorem csrRead_duty : (s.modDie (coreDie core) fun d => { d with duty := v }).csrRead core course slot cyc c tk m =
    if m = 0x0F0 then v else s.csrRead core course slot cyc c tk m := by
  by_cases h : m = 0x0F0 <;> simp [State.csrRead, h]

/-- The watchpoint registers stand one after another from 0x048 on. -/
theorem csrRead_wp (hn : n < 4) : s.csrRead core course slot cyc c tk (0x048 + n) = (s.core core).wp[n] := by
  obtain rfl | rfl | rfl | rfl : n = 0 ∨ n = 1 ∨ n = 2 ∨ n = 3 := by omega
  all_goals simp [State.csrRead]

theorem csrRead_writeWp (hn : n < 4) : (s.writeWp core n v).csrRead core course slot cyc c tk m =
    if m = 0x048 + n then v else s.csrRead core course slot cyc c tk m := by
  by_cases h : m = 0x048 + n
  · subst h
    simp [csrRead_wp, State.writeWp, hn]
  · by_cases hw : 0x048 ≤ m ∧ m ≤ 0x04B
    · have hne : n ≠ m - 0x048 := by omega
      simp [State.csrRead, State.writeWp, hn, h, hne]
    · simp [State.csrRead, State.writeWp, h, hw]

/-! ### A read after a course or a task of the core changed -/

theorem csrRead_modCourse (f : Course → Course) :
    (s.modCourse core n f).csrRead core course slot cyc c tk m = s.csrRead core course slot cyc c tk m := by
  unfold State.modCourse
  split <;> simp [State.csrRead, State.setCourse]

theorem csrRead_modTask (f : Task → Task) :
    (s.modTask core n f).csrRead core course slot cyc c tk m = s.csrRead core course slot cyc c tk m := by
  unfold State.modTask
  split <;> simp [State.csrRead, State.setTask]

/-- A write of `dbgctl` also tells the target course, which no register shows. -/
theorem csrRead_writeDbgctl : (s.writeDbgctl core v).csrRead core course slot cyc c tk m =
    if m = 0x040 then v else s.csrRead core course slot cyc c tk m := by
  rw [← csrRead_dbgctl, State.writeDbgctl]
  split
  · exact csrRead_modCourse ..
  · rfl
end Fields

/-! ### Storing -/

/-- Of a resident course and its task, register `n` now reads `v` and the others read as before; the course's threads, its
uniform registers, memory, the pools and the lane stay. -/
structure Puts (s t : State) (core course slot cyc n : Nat) (c : Course) (tk : Task) (v : Word) : Prop where
  mem : t.mem = s.mem
  pool : t.pool = s.pool
  issue : t.issue = s.issue
  reads : ∃ c' tk', t.course? core course = some c' ∧ t.task? core c'.task = some tk' ∧ c'.threads = c.threads ∧ c'.c = c.c ∧
    ∀ m, t.csrRead core course slot cyc c' tk' m = if m = n then v else s.csrRead core course slot cyc c tk m

section Stores
variable {s : State} {core course slot cyc n : Nat} {c : Course} {tk : Task} {v : Word}
  (hc : s.course? core course = some c) (ht : s.task? core c.task = some tk)
include hc ht

theorem puts_modCourse {f : Course → Course} (task : (f c).task = c.task) (threads : (f c).threads = c.threads) (uni : (f c).c = c.c)
    (read : ∀ m, s.csrRead core course slot cyc (f c) tk m = if m = n then v else s.csrRead core course slot cyc c tk m) :
    Puts s (s.modCourse core course f) core course slot cyc n c tk v :=
  ⟨by simp, by simp, by simp, f c, tk, by simp [State.course?_modCourse, hc], by simp [task, ht], threads, uni, fun m => by
    rw [csrRead_modCourse, read]⟩

theorem puts_modTask {f : Task → Task}
    (read : ∀ m, s.csrRead core course slot cyc c (f tk) m = if m = n then v else s.csrRead core course slot cyc c tk m) :
    Puts s (s.modTask core c.task f) core course slot cyc n c tk v :=
  ⟨by simp, by simp, by simp, c, f tk, by simp [hc], by simp [State.task?_modTask, ht], rfl, rfl, fun m => by
    rw [csrRead_modTask, read]⟩

theorem puts_modCore {f : Core → Core} (courses : ∀ k, (f k).courses = k.courses) (tasks : ∀ k, (f k).tasks = k.tasks)
    (read : ∀ m, (s.modCore core f).csrRead core course slot cyc c tk m = if m = n then v else s.csrRead core course slot cyc c tk m) :
    Puts s (s.modCore core f) core course slot cyc n c tk v :=
  ⟨rfl, rfl, rfl, c, tk, (course?_modCore s core f courses core course).trans hc, by
    simpa [State.task?, tasks] using ht, rfl, rfl, read⟩

theorem puts_modDie {d : Nat} {f : Die → Die}
    (read : ∀ m, (s.modDie d f).csrRead core course slot cyc c tk m = if m = n then v else s.csrRead core course slot cyc c tk m) :
    Puts s (s.modDie d f) core course slot cyc n c tk v :=
  ⟨rfl, rfl, rfl, c, tk, hc, ht, rfl, rfl, read⟩
end Stores

section Registers
variable {s t : State} {core course slot cyc n : Nat} {c : Course} {tk : Task} {v : Word}

/-- What waits for a course's next selection is shown by no register. -/
theorem Puts.tell (h : Puts s t core course slot cyc n c tk v) (k : Nat) (w : Word) :
    Puts s (t.modCourse core k fun c => { c with dbg := c.dbg ++ [w] }) core course slot cyc n c tk v := by
  obtain ⟨mem, pool, issue, c', tk', hc, ht, threads, uni, read⟩ := h
  by_cases hk : course = k
  · subst hk
    exact ⟨by simp [mem], by simp [pool], by simp [issue], { c' with dbg := c'.dbg ++ [w] }, tk', by simp [State.course?_modCourse, hc],
      by simp [ht], threads, uni, fun m => (csrRead_modCourse ..).trans (read m)⟩
  · exact ⟨by simp [mem], by simp [pool], by simp [issue], c', tk', by simp [State.course?_modCourse, hc, hk], by simp [ht],
      threads, uni, fun m => (csrRead_modCourse ..).trans (read m)⟩

variable (hc : s.course? core course = some c) (ht : s.task? core c.task = some tk)
include hc ht

theorem puts_writeDbgctl : Puts s (s.writeDbgctl core v) core course slot cyc 0x040 c tk v := by
  have h := puts_modCore hc ht (slot := slot) (cyc := cyc) (f := fun k => { k with dbgctl := v }) (fun _ => rfl) (fun _ => rfl)
    fun m => csrRead_dbgctl s core course slot cyc c tk v m
  simp only [State.writeDbgctl]
  split
  · exact h.tell _ v
  · exact h

theorem puts_writeWp {i : Nat} (hi : i < 4) : Puts s (s.writeWp core i v) core course slot cyc (0x048 + i) c tk v :=
  puts_modCore hc ht (fun _ => rfl) (fun _ => rfl) fun m => csrRead_writeWp s core course slot cyc i c tk v m hi

end Registers

/-! ### The numbered registers -/

/-- The registers that software writes, and of the check registers that their one bit is bit 0. -/
theorem csrFields_cases {n : Nat} {f : CsrFields} (h : csrFields n = some f) :
    n = 0x020 ∨ n = 0x021 ∨ n = 0x022 ∨ ((n = 0x030 ∨ n = 0x031) ∧ f = ⟨1, 0, 0⟩) ∨ n = 0x038 ∨ n = 0x040 ∨
      (∃ i < 4, n = 0x048 + i) ∨ n = 0x0F0 ∨ n = 0x0F1 := by
  by_cases hw : 0x048 ≤ n ∧ n ≤ 0x04B
  · have hi : ∃ i < 4, n = 0x048 + i := ⟨n - 0x048, by omega, by omega⟩
    simp only [hi, true_or, or_true]
  · simp only [csrFields, hw, if_false] at h
    grind

/-- A word with no bit above bit 0 is that bit as a word. -/
theorem boolWord_getLsbD_zero {v : Word} (h : v &&& ~~~1#64 = 0#64) : boolWord (v.getLsbD 0) = v := by
  apply BitVec.eq_of_getLsbD_eq
  intro i hi
  cases i with
  | zero => cases v.getLsbD 0 <;> simp [boolWord]
  | succ i =>
    have hz : v.getLsbD (i + 1) = false := by
      have hb := congrArg (·.getLsbD (i + 1)) h
      simp only [BitVec.getLsbD_and, BitVec.getLsbD_not, BitVec.getLsbD_one, BitVec.getLsbD_zero] at hb
      grind
    rw [hz]
    cases v.getLsbD 0 <;> simp [boolWord, BitVec.getLsbD_one]

/-- The value a register keeps of what is stored: `fstat` without its record where bit 11 does not say that it holds one
(R55). -/
def csrKept (n : Nat) (v : Word) : Word := if n = 0x022 ∧ v.getLsbD 11 = false then v &&& ~~~0x1FF#64 else v

theorem csrKept_fstat (v : Word) : csrKept 0x022 v = if v.getLsbD 11 then v else v &&& ~~~0x1FF#64 := by
  cases h : v.getLsbD 11 <;> simp only [csrKept, h] <;> rfl

theorem csrKept_of_ne {n : Nat} (h : n ≠ 0x022) (v : Word) : csrKept n v = v := if_neg fun e => h e.1

theorem csrStore_trapvec (s : State) (core course : Nat) (v : Word) :
    s.csrStore core course 0x0F1 v = s.modCore core fun k => { k with trapvec := v } := rfl

theorem csrStore_wp (s : State) (core course : Nat) {i : Nat} (hi : i < 4) (v : Word) :
    s.csrStore core course (0x048 + i) v = s.writeWp core i v := by
  obtain rfl | rfl | rfl | rfl : i = 0 ∨ i = 1 ∨ i = 2 ∨ i = 3 := by omega
  all_goals rfl

/-- Each register has one field, in the course, the task, the core or the die, and a store is a write of that field. -/
theorem csrStore_puts {s : State} {core course n : Nat} {c : Course} {tk : Task} {f : CsrFields} {v : Word}
    (hc : s.course? core course = some c) (ht : s.task? core c.task = some tk) (hf : csrFields n = some f)
    (hv : v &&& ~~~(f.rw ||| f.w1c ||| f.ro) = 0) (slot cyc : Nat) :
    Puts s (s.csrStore core course n v) core course slot cyc n c tk (csrKept n v) := by
  obtain rfl | rfl | rfl | ⟨hn, rfl⟩ | rfl | rfl | ⟨i, hi, rfl⟩ | rfl | rfl := csrFields_cases hf
  · -- `tstat`
    exact puts_modCourse hc ht rfl rfl rfl fun m => csrRead_tstat ..
  · -- `astat`
    simp only [State.csrStore, hc]
    exact puts_modTask hc ht fun m => csrRead_astat ..
  · -- `fstat`
    rw [csrKept_fstat]
    exact puts_modCourse hc ht rfl rfl rfl fun m => csrRead_fstat ..
  · -- `uchk` and `sbchk`
    have hb := boolWord_getLsbD_zero (v := v) (by simpa using hv)
    obtain rfl | rfl := hn
    · simp only [State.csrStore, hc]
      exact puts_modTask hc ht fun m => (csrRead_uchk ..).trans (by rw [hb]; rfl)
    · simp only [State.csrStore, hc]
      exact puts_modTask hc ht fun m => (csrRead_sbchk ..).trans (by rw [hb]; rfl)
  · -- `rsbase`
    simp only [State.csrStore, hc]
    exact puts_modTask hc ht fun m => csrRead_rsbase ..
  · -- `dbgctl`
    exact puts_writeDbgctl hc ht
  · -- the watchpoints
    rw [csrStore_wp _ _ _ hi, csrKept_of_ne (by omega)]
    exact puts_writeWp hc ht hi
  · -- the duty of the die
    exact puts_modDie hc ht fun m => csrRead_duty ..
  · -- `trapvec`
    rw [csrStore_trapvec, csrKept_of_ne (by decide)]
    exact puts_modCore hc ht (fun _ => rfl) (fun _ => rfl) fun m => csrRead_trapvec ..

/-- Settles O28: every store puts what the register keeps of the value, and what `fstat` keeps of it is the statement's. -/
theorem registerStored : Obligations.RegisterStored := by
  intro s core course slot cyc n c tk f v hc ht hf hv t
  obtain ⟨mem, pool, issue, c', tk', hc', ht', threads, uni, read⟩ := csrStore_puts hc ht hf hv slot cyc
  refine ⟨mem, pool, issue, c', tk', hc', ht', threads, uni, ?_, fun m hm => ?_⟩
  · rw [read, if_pos rfl, csrKept]
  · rw [read, if_neg hm]

end Sys2Proof.Machine
end

section
/-! The module after reset: every table of it is empty, so that each numbered thing holds the value that its structure gives it. -/

namespace Sys2Proof.Machine

theorem cellsRead_nil (a n : Nat) : cellsRead [] a n = List.replicate n 0 := by
  induction n generalizing a with
  | zero => rfl
  | succ n ih => exact congrArg _ (ih _)

/-- A home in an empty memory and an empty pool reads as zeros. -/
theorem State.locRead_of_empty {s : State} (hm : s.mem = []) (hp : s.pool = []) (x : Loc) (n : Nat) :
    s.locRead x n = List.replicate n 0 := by
  cases x with
  | hbm d l => exact (congrArg (cellsRead · _ n) hm).trans (cellsRead_nil _ _)
  | scratch d o => exact (congrArg (cellsRead · _ n) hm).trans (cellsRead_nil _ _)
  | pool core o => exact (congrArg (cellsRead · _ n) hp).trans (cellsRead_nil _ _)
  | remote d o => rfl

theorem State.die_reset (d : Nat) : State.reset.die d = {} := rfl
theorem State.cluster_reset (c : Nat) : State.reset.cluster c = {} := rfl

/-- Settles O58: the scalar fields, then courses and tasks, dies, clusters, allowances, the host link and the homes. -/
theorem resetState : Obligations.ResetState := by
  refine ⟨fun _ held => (nomatch held), MemOk.reset, rfl, rfl, rfl, rfl, rfl, rfl, fun _ _ => ⟨rfl, rfl⟩, fun d => ?_, fun c => ?_,
    fun _ _ => ⟨rfl, rfl⟩, rfl, rfl, State.locRead_of_empty rfl rfl⟩
  · rw [State.die_reset]
    exact ⟨rfl, rfl, rfl, rfl, rfl, fun i => Vector.getElem_replicate i.isLt⟩
  · rw [State.cluster_reset]
    exact ⟨rfl, fun i => Vector.getElem_replicate i.isLt⟩

end Sys2Proof.Machine
end

section
/-! Host commands (R355, R356): an entry of a message in its turn runs its command, and a completion record tells the host how
it ended. Each command has an equation for each way that its statement names. -/

namespace Sys2Proof.Machine

/-! ### The turn of an entry -/

/-- A message in its turn takes effect, its ring's free entries are advertised, and what was held for it follows. -/
theorem State.InTurn.hostIn_eq {s : State} {x : HostIn} (h : s.InTurn x) :
    { s.hostIn x with issue := s.issue } = s.andHeld (((s.turnOf x).entryEffect x).entryDone x) := by
  obtain ⟨hears, head, seq, entry, notRefused⟩ := h
  have accepted : s.hostIn x = ((s.takeHead x.m).acceptEntry x).acceptHeld ((s.takeHead x.m).acceptEntry x).host.heldIn.length := by
    unfold State.hostIn
    have : ¬ (x.i = 0 ∧ (s.takeHead x.m).refusedWhole x = true) := fun r => by simp [notRefused r.1] at r
    simp only [hears, head, Bool.not_true, Bool.false_eq_true, if_false, if_pos (And.intro seq entry), if_neg this]
  rw [accepted]
  rfl

theorem State.entryEffect_command {x : HostIn} (h : isCommand x.op = true) (u : State) : u.entryEffect x = u.command x := by
  unfold State.entryEffect
  rw [if_pos h]

/-- A command of a bound ring while the module runs. -/
theorem State.command_bound {u : State} {x : HostIn} {ctx : Nat} (hz : x.z = none) (hp : u.phase = .running)
    (hr : u.ringCtx.find x.m.ring = some ctx) :
    u.command x = (u.runCommand x.m.ring ctx x.op).1.recordTo 0 65 3
      (completion (opcodeOf x.op) (u.runCommand x.m.ring ctx x.op).2.1 x.tag (u.runCommand x.m.ring ctx x.op).2.2) := by
  unfold State.command entryOpcode
  simp [hz, hp, hr]

/-- A malformed entry, or one of a ring that is bound to no context, has no effect but its completion record. -/
theorem State.command_refused {u : State} {x : HostIn} (h : x.z.isSome = true ∨ u.ringCtx.find x.m.ring = none) :
    u.command x = u.recordTo 0 65 3 (completion ((x.z.map fun n => n % 256).getD (opcodeOf x.op))
      (if x.z.isSome then u.badStatus x else 1) x.tag 0) := by
  unfold State.command entryOpcode
  by_cases hz : x.z.isSome = true
  · simp only [hz, if_true]
  · simp only [hz, Bool.false_eq_true, if_false, h.resolve_left hz]

/-- An instruction that brings a command does what the command does, told by its completion record. -/
theorem commands {i : Instr} {x : HostIn} {ok : State → Nat → Prop} {f : State → Nat → CmdDone}
    (e : ∀ s, exec i s = s.beside fun s => s.hostIn x) (hc : isCommand x.op = true)
    (h : ∀ u ctx, ok u ctx → u.runCommand x.m.ring ctx x.op = f u ctx) : Commands i x ok f := by
  intro s ctx turn hz running bound holds
  rw [e, State.beside, turn.hostIn_eq, State.entryEffect_command hc, State.command_bound hz running bound, h _ ctx holds]

/-! ### Launches -/

theorem State.submit_accepted {s : State} {d va align : Nat} {v : EngView} {task : Bool} {g : Graph}
    (h : s.resizesFirst.checkLaunch v task va align = .ok g) :
    let u := ((s.resizesFirst.launchRanges v va g).foldl (fun s r => s.engServed v (glAt r.1) 0 r.2 0) s.resizesFirst).pastFar
    let seq := (u.die d).nextLaunch
    s.submit d v task va align =
      (.ok seq, (u.modDie d fun x => { x with nextLaunch := (seq + 1) % 2 ^ 32, graphs := x.graphs ++ [{ g with seq := seq, die := d }] }).startReady d seq) := by
  unfold State.submit
  simp only [h]

theorem State.submit_refused {s : State} {d va align c : Nat} {v : EngView} {task : Bool}
    (h : s.resizesFirst.checkLaunch v task va align = .error c) : s.submit d v task va align = (.error c, s.resizesFirst.pastFar) := by
  unfold State.submit
  simp only [h]

/-! ### Memory -/

theorem State.hostWrite_here {s : State} {ctx addr : Nat} {bs : List Byte} {ps : List (Loc × List Byte)}
    (h : s.resizesFirst.engPieces (hostView ctx false) (glAt addr) 0 0 bs = .ok ps) :
    s.hostWrite ctx addr bs false = (s.resizesFirst.unitStore 128 ctx addr bs, 0, 0) := by
  unfold State.hostWrite
  simp only [h, Bool.false_and, Bool.false_eq_true, if_false]

/-- Where another destination refuses its bytes, those for the module's own homes are written (R439). -/
theorem State.hostWrite_refused {s : State} {ctx addr : Nat} {bs : List Byte} {ps : List (Loc × List Byte)}
    (h : s.resizesFirst.engPieces (hostView ctx true) (glAt addr) 0 0 bs = .ok ps) (far : ∃ p ∈ ps, p.1.isRemote = true) :
    s.hostWrite ctx addr bs true = ((s.resizesFirst.engWrites [ps.filter fun p => !p.1.isRemote]).1, 1, 0) := by
  unfold State.hostWrite
  simp only [h, Bool.true_and, List.any_eq_true.mpr far, if_true]

theorem State.hostRead_here {s : State} {ctx addr n val : Nat} {bs : List Byte}
    (h : s.resizesFirst.engRead (hostView ctx false) (glAt addr) 0 n 0 = .ok bs) :
    s.hostRead ctx addr n val false = (s.resizesFirst.engServed (hostView ctx false) (glAt addr) 0 n 0, 0,
      if s.resizesFirst.readsFar ctx addr n then val % 2 ^ (8 * n) else leNat bs) := by
  unfold State.hostRead
  simp only [h]

/-! ### Queues and routes -/

theorem toNat_div_mod (x : BitVec 16) (k n : Nat) : x.toNat / 2 ^ k % 2 ^ n = (x.extractLsb' k n).toNat := by
  rw [BitVec.extractLsb'_toNat, Nat.shiftRight_eq_div_pow]

theorem and_full5 (x : BitVec 5) : x &&& 31#5 = x := BitVec.and_allOnes
theorem and_full2 (x : BitVec 2) : x &&& 3#2 = x := BitVec.and_allOnes

/-- The reserved bits of a route entry stay 0, and bit 13 is that of its primary port's link (R325). -/
theorem routeEntry_fields (b : BitVec 16) (down : Bool) :
    let e := (b &&& 0xDF1F) ||| (if down then 0x2000 else 0)
    e.extractLsb' 0 5 = b.extractLsb' 0 5 ∧ e.getLsbD 13 = down ∧ e.extractLsb' 8 5 = b.extractLsb' 8 5 ∧
      e.extractLsb' 14 2 = b.extractLsb' 14 2 := by
  cases down <;> simp [BitVec.extractLsb'_or, BitVec.extractLsb'_and, and_full5, and_full2]

/-- The state of a lost destination leaves the other fields of its route word (R423). -/
theorem routeLost_fields (e : BitVec 16) :
    let w := (e &&& 0x3FFF) ||| 0x8000
    w.extractLsb' 0 5 = e.extractLsb' 0 5 ∧ w.getLsbD 13 = e.getLsbD 13 ∧ w.extractLsb' 8 5 = e.extractLsb' 8 5 ∧
      w.extractLsb' 14 2 = 2 := by
  simp [BitVec.extractLsb'_or, BitVec.extractLsb'_and, and_full5]

theorem State.routeWord_fields (s : State) (old : BitVec 16) {entry : Nat} (h : entry < 2 ^ 16) :
    let w := s.routeWord old entry
    routePort w = entry % 32 ∧ routeAlt w = (s.links.get (entry % 32) {}).isDown ∧ w.toNat / 2 ^ 8 % 32 = entry / 2 ^ 8 % 32 ∧
      w.toNat / 2 ^ 14 = if old.toNat / 2 ^ 14 = 2 ∧ entry / 2 ^ 14 ≠ 1 then 2 else entry / 2 ^ 14 := by
  obtain ⟨b, rfl⟩ : ∃ b : BitVec 16, b.toNat = entry := ⟨BitVec.ofNat 16 entry, (BitVec.toNat_ofNat ..).trans (Nat.mod_eq_of_lt h)⟩
  have first : ∀ x : BitVec 16, x.toNat % 32 = (x.extractLsb' 0 5).toNat := fun x => by simp [BitVec.extractLsb'_toNat]
  have second : ∀ x : BitVec 16, x.toNat / 2 ^ 8 % 32 = (x.extractLsb' 8 5).toNat := fun x => toNat_div_mod x 8 5
  have state : ∀ x : BitVec 16, x.toNat / 2 ^ 14 = (x.extractLsb' 14 2).toNat := fun x => by
    rw [← toNat_div_mod]; have := x.isLt; omega
  unfold State.routeWord routePort routeAlt
  simp only [BitVec.ofNat_toNat, BitVec.setWidth_eq]
  generalize (s.links.get (b.toNat % 32) {}).isDown = down
  obtain ⟨port, alt, other, kept⟩ := routeEntry_fields b down
  generalize (b &&& 0xDF1F) ||| (if down then 0x2000 else 0) = e at *
  obtain ⟨port', alt', other', lost⟩ := routeLost_fields e
  split
  · exact ⟨by rw [first, port', port, first], alt'.trans alt, by rw [second, other', other, second], by rw [state, lost]; rfl⟩
  · exact ⟨by rw [first, port, first], alt, by rw [second, other, second], by rw [state, kept, state]⟩

/-! ### The other commands -/

theorem State.setupRing_checked {s : State} {ctx ring addr : Nat} {far members : List Nat} (hr : ring < 256)
    (hl : s.resizesFirst.memberList ctx addr far = some members)
    (ho : ((s.resizesFirst.engServed (hostView ctx false) (glAt addr) 0 (2 + 2 * members.length) 0).pastFar).membersOk members = true) :
    let v := ((s.resizesFirst.engServed (hostView ctx false) (glAt addr) 0 (2 + 2 * members.length) 0).pastFar).listRing ring members
    s.setupRing ctx ring addr far =
      (if (v.die 0).duty.getLsbD 4 then v.hostEvent (v.event 0 0xFFFF 0 0x0B 0 0xFF (ring + 2 ^ 16 * ctx) (BitVec.ofNat 64 addr)) else v.ringSetup ring members, 0, 0) := by
  unfold State.setupRing
  have : ¬ (256 ≤ ring ∨ ((s.resizesFirst.engServed (hostView ctx false) (glAt addr) 0 (2 + 2 * members.length) 0).pastFar).membersOk members = false) := by
    rintro (big | bad)
    · omega
    · exact Bool.noConfusion (ho.symm.trans bad)
  simp only [hl, if_neg this]
  split <;> rfl

theorem State.bindResult_open {s : State} {ctx base index state fail target w : Nat}
    (hw : s.entryWord (((findAt (fun b => decide (b.ctx = ctx ∧ b.base = base ∧ b.index = index)) s.binds).map Bind.die).getD 0) ctx base index 0 = some w)
    (h1 : w % 4 = 1) (hs : state = 2 ∨ state = 3) :
    let d := ((findAt (fun b => decide (b.ctx = ctx ∧ b.base = base ∧ b.index = index)) s.binds).map Bind.die).getD 0
    s.bindResult ctx base index state fail target =
      (if state = 2 then s.bindDone d ctx base index target none else s.bindFails d ctx base index fail, 0) := by
  unfold State.bindResult
  have : ¬ (w % 4 ≠ 1 ∨ (state ≠ 2 ∧ state ≠ 3)) := by omega
  simp only [hw, if_neg this]
  split <;> rfl

/-- The action reaches word 3 of the frame slot of the course, on the core that the die's number and its own make. -/
theorem State.trapResumeCmd_eq (s : State) {die core course action : Nat} (hd : die < 4) (hk : core < 132) (hc : course < 128)
    (ha : action ≤ 1) : s.trapResumeCmd die core course action =
      ((s.physStore (trapBase die + 0x10000 + 0x8800 * (128 * core + course) + 0x18) (leBytes 8 (action + 1))).frameAction
        (132 * die + core) course (action + 1), 0, 0) := by
  have within : ¬ (4 ≤ die ∨ 132 ≤ core ∨ 128 ≤ course ∨ 1 < action) := by omega
  have slot : frameSlot (132 * die + core) course = trapBase die + 0x10000 + 0x8800 * (128 * core + course) := by
    rw [frameSlot, show (132 * die + core) / 132 = die by omega, show (132 * die + core) % 132 = core by omega]
  unfold State.trapResumeCmd
  simp only [if_neg within, slot]

theorem State.attestTo_signed {s : State} {ctx addr : Nat} {nonce : List Byte} (hc : s.plat.cert ≠ [])
    (hn : s.resizesFirst.glBytes (hostView ctx false) addr 64 = some nonce) :
    let v := (s.resizesFirst.engServed (hostView ctx false) (glAt addr) 0 64 0).pastFar
    (v.fresh.2.hostWrite ctx addr (v.report nonce) false).2.1 = 0 →
      s.attestTo ctx addr = ((v.fresh.2.hostWrite ctx addr (v.report nonce) false).1, 0, addr) := by
  intro v hw
  unfold State.attestTo
  simp only [if_neg hc, hn]
  exact if_pos hw

theorem State.bindRing_free (s : State) {ring ctx root : Nat} (h0 : 0 < ring) (h1 : ring ≤ 63) (h2 : 0 < ctx) (h3 : ctx ≤ 65535)
    (h4 : root % 4096 = 0) (h5 : (∃ p ∈ s.ringCtx, p.2 = ctx) → s.contexts.get ctx 0 = root) :
    s.bindRing 0 ring ctx root = ({ s with ringCtx := s.ringCtx.set ring ctx, contexts := s.contexts.set ctx root }, 0, 0) := by
  have unused : ¬ ((s.ringCtx.any fun x => decide (x.2 = ctx)) = true ∧ s.contexts.get ctx 0 ≠ root) := by
    simpa using h5
  unfold State.bindRing
  refine if_neg ?_
  simp only [not_or]
  exact ⟨by simp, by omega, by omega, by omega, by omega, by omega, unused⟩

/-- Settles O52: every command in the order of the statement, by its equation above; the last clause is that of an entry that
is malformed or whose ring is bound to no context. -/
theorem hostCommands : Obligations.HostCommands := by
  refine ⟨fun m i tag z addr g => ?launched, fun m i tag z addr e => ?refusedLaunch, fun m i tag z graph node => ?release,
    fun m i tag z die clusters count byPrio sel _ _ _ _ => ?preempt, fun m i tag z addr len data ps _ _ => ?write,
    fun m i tag z addr len data ps _ _ => ?refusedWrite, fun m i tag z addr len val bs _ _ => ?read, fun m i tag z unit queue value q hu => ?queue,
    fun m i tag z unit queue value hu => ?ignoredQueue, fun m i tag z dest entry hd he => ?route, fun s old _ => s.routeWord_fields old,
    fun m i tag z ring addr far members hr => ?ringSetup, fun m i tag z base index state fail target w => ?bindResult,
    fun m i tag z die core course action hd hk hc ha => ?trapResume, fun m i tag z base count hb hn => ?codeTable,
    fun m i tag z addr nonce => ?attest, fun m i tag z ring ctx root hm h0 h1 h2 h3 h4 => ?ringBind, fun s x turn hc h => ?refused⟩
  case launched =>
    refine commands (fun _ => rfl) rfl fun u ctx h => ?_
    simp only [State.runCommand, State.submit_accepted h]
  case refusedLaunch =>
    refine commands (fun _ => rfl) rfl fun u ctx h => ?_
    simp only [State.runCommand, State.submit_refused h]
  case release => exact commands (fun _ => rfl) rfl fun _ _ _ => rfl
  case preempt => exact commands (fun _ => rfl) rfl fun _ _ _ => if_neg (by omega)
  case write =>
    exact commands (fun _ => rfl) rfl fun _ _ h => (if_neg (by omega)).trans (State.hostWrite_here h)
  case refusedWrite =>
    exact commands (fun _ => rfl) rfl fun _ _ h => (if_neg (by omega)).trans (State.hostWrite_refused h.1 h.2)
  case read =>
    exact commands (fun _ => rfl) rfl fun _ _ h => (if_neg (by omega)).trans (State.hostRead_here h)
  case queue =>
    refine commands (fun _ => rfl) rfl fun u ctx h => ?_
    simp only [State.runCommand, State.setQueueCtl, if_pos hu, h]
  case ignoredQueue =>
    refine commands (fun _ => rfl) rfl fun u ctx h => ?_
    simp only [State.runCommand, State.setQueueCtl, if_pos hu, h]
  case route => exact commands (fun _ => rfl) rfl fun _ _ _ => if_neg (by omega)
  case ringSetup => exact commands (fun _ => rfl) rfl fun _ _ h => State.setupRing_checked hr h.1 h.2
  case bindResult =>
    refine commands (fun _ => rfl) rfl fun u ctx h => ?_
    simp only [State.runCommand, State.bindResult_open h.1 h.2.1 h.2.2]
  case trapResume => exact commands (fun _ => rfl) rfl fun u _ _ => u.trapResumeCmd_eq hd hk hc ha
  case codeTable => exact commands (fun _ => rfl) rfl fun _ _ _ => if_neg (by omega)
  case attest => exact commands (fun _ => rfl) rfl fun _ _ h => State.attestTo_signed h.1 h.2.1 h.2.2
  case ringBind =>
    refine commands (fun _ => rfl) rfl fun u _ h => ?_
    dsimp only [State.runCommand]
    rw [hm]
    exact u.bindRing_free h0 h1 h2 h3 h4 h
  case refused => rw [turn.hostIn_eq, State.entryEffect_command hc, State.command_refused h]

end Sys2Proof.Machine
end

section
/-! Barriers, and tasks on their way from a pool through a cluster's queues into cores, and out of them (R71 to R84, R238,
R324, R395). -/

namespace Sys2Proof.Machine

/-! ### Lists -/

theorem insertBy_perm {α : Type} (le : α → α → Bool) (a : α) (l : List α) : (insertBy le a l).Perm (a :: l) := by
  induction l with
  | nil => exact .refl _
  | cons b l ih =>
    rw [insertBy]
    split
    · exact .refl _
    · exact (ih.cons b).trans (.swap a b l)

theorem sortBy_perm {α : Type} (le : α → α → Bool) (l : List α) : (sortBy le l).Perm l := by
  induction l with
  | nil => exact .refl _
  | cons a l ih => exact (insertBy_perm le a _).trans (ih.cons a)

section
variable {α : Type} {le : α → α → Bool} (total : ∀ a b, le a b = true ∨ le b a = true)
  (trans : ∀ a b c, le a b = true → le b c = true → le a c = true)
include total trans

theorem insertBy_pairwise (a : α) {l : List α} (h : l.Pairwise fun a b => le a b = true) :
    (insertBy le a l).Pairwise fun a b => le a b = true := by
  induction l with
  | nil => exact List.pairwise_singleton _ _
  | cons b l ih =>
    obtain ⟨first, rest⟩ := List.pairwise_cons.mp h
    rw [insertBy]
    split
    · next before =>
      refine List.pairwise_cons.mpr ⟨fun x hx => ?_, h⟩
      rcases List.mem_cons.mp hx with rfl | hx
      · exact before
      · exact trans _ _ _ before (first x hx)
    · next notBefore =>
      refine List.pairwise_cons.mpr ⟨fun x hx => ?_, ih rest⟩
      rcases (mem_insertBy le a x l).mp hx with rfl | hx
      · exact (total x b).resolve_left notBefore
      · exact first x hx

theorem sortBy_pairwise (l : List α) : (sortBy le l).Pairwise fun a b => le a b = true := by
  induction l with
  | nil => exact .nil
  | cons a l ih => exact insertBy_pairwise total trans a ih

end

/-- What is left of a sorted list after its first part stands behind every member of that part. -/
theorem rel_of_mem_take {α : Type} {r : α → α → Prop} {l : List α} (h : l.Pairwise r) {n : Nat} {a b : α} (ha : a ∈ l.take n)
    (hb : b ∈ l) (hn : b ∉ l.take n) : r a b := by
  rw [← List.take_append_drop n l] at h hb
  exact (List.pairwise_append.mp h).2.2 a ha b ((List.mem_append.mp hb).resolve_left hn)

theorem nodup_eraseDups {α : Type} [BEq α] [LawfulBEq α] (l : List α) : l.eraseDups.Nodup := by
  induction h : l.length using Nat.strongRecOn generalizing l with
  | ind n ih =>
    cases l with
    | nil => exact List.nodup_nil
    | cons a l =>
      rw [List.eraseDups_cons, List.nodup_cons]
      refine ⟨fun again => ?_, ih _ (h ▸ Nat.lt_succ_of_le (List.length_filter_le _ l)) _ rfl⟩
      simpa using (List.mem_filter.mp (List.mem_eraseDups.mp again)).2

/-! ### A store of a unit keeps barriers and courses -/

/-- The barriers and the courses are as they were. -/
def SameCourses (s t : State) : Prop := t.bars = s.bars ∧ ∀ k n, t.course? k n = s.course? k n

theorem SameCourses.refl (s : State) : SameCourses s s := ⟨rfl, fun _ _ => rfl⟩

theorem SameCourses.trans {s t u : State} (a : SameCourses s t) (b : SameCourses t u) : SameCourses s u :=
  ⟨b.1.trans a.1, fun k n => (b.2 k n).trans (a.2 k n)⟩

theorem sameCourses_of_cores {s t : State} (hb : t.bars = s.bars) (hc : t.cores = s.cores) : SameCourses s t :=
  ⟨hb, fun k n => by unfold State.course? State.core; rw [hc]⟩

theorem sameCourses_foldl {α : Type} {f : State → α → State} (h : ∀ s a, SameCourses s (f s a)) (l : List α) (s : State) :
    SameCourses s (l.foldl f s) := by
  induction l generalizing s with
  | nil => exact .refl s
  | cons a l ih => exact (h s a).trans (ih _)

theorem sameCourses_locWrite (s : State) (x : Loc) (bs : List Byte) : SameCourses s (s.locWrite x bs) := by
  unfold State.locWrite
  split <;> exact sameCourses_of_cores rfl rfl

theorem sameCourses_stamp (s : State) (x : Loc) : SameCourses s (s.stamp x).2 := by
  unfold State.stamp
  split
  · exact ⟨rfl, course?_modCore s _ _ fun _ => rfl⟩
  · exact .refl s
  · dsimp only
    obtain ⟨l, f, n, h⟩ := ensureLine_rest s x.dieOf x.lineNo
    rw [h]
    exact sameCourses_of_cores rfl rfl

theorem sameCourses_stampAll (s : State) (x : Loc) (n : Nat) : SameCourses s (s.stampAll x n) := by
  unfold State.stampAll
  split
  · exact sameCourses_foldl (fun s _ => sameCourses_stamp s _) _ s
  · exact sameCourses_stamp s _

theorem sameCourses_markWritten (s : State) (x : Loc) (n : Nat) : SameCourses s (s.markWritten x n) := by
  unfold State.markWritten
  split
  · split
    · exact sameCourses_of_cores rfl rfl
    · exact .refl s
  · exact .refl s

theorem sameCourses_physStore (s : State) (a : Nat) (bs : List Byte) : SameCourses s (s.physStore a bs) := by
  refine sameCourses_foldl (fun s p => ?_) _ s
  split
  · exact ((sameCourses_locWrite s _ _).trans (sameCourses_stampAll _ _ _)).trans (sameCourses_markWritten _ _ _)
  · exact .refl s

/-! ### Conditions outside an issue group (R378) -/

theorem sameCourses_noteHeld (s : State) (core course : Nat) : SameCourses s (s.noteHeld core course) := by
  unfold State.noteHeld
  split
  · exact .refl s
  · dsimp only
    split
    · exact .refl s
    · exact .refl s
    · split
      · exact .refl s
      · exact ((sameCourses_physStore s _ _).trans (sameCourses_physStore _ _ _)).trans (sameCourses_physStore _ _ _)

@[simp] theorem defer_bars (s : State) (core course : Nat) (x : Cause) : (s.defer core course x).bars = s.bars :=
  (sameCourses_noteHeld _ _ _).1.trans (modCourse_rest s _ _ _).1

theorem course?_defer_of_ne {s : State} {core course k n : Nat} (h : (k, n) ≠ (core, course)) (x : Cause) :
    (s.defer core course x).course? k n = s.course? k n := by
  refine ((sameCourses_noteHeld _ _ _).2 k n).trans ?_
  rw [State.course?_modCourse, if_neg fun e => h (Prod.ext e.1 e.2)]

/-! ### The completion of a barrier (R238) -/

theorem State.barrierCompletion_all {s u : State} {k : BarKey}
    (hu : (memberCourses (s.participants k)).foldl (fun s p => s.arriveCourse p.1 p.2) s = u) (some_ : u.participants k ≠ [])
    (arrived : (u.bar k).arrived ≠ []) (all : ∀ m ∈ u.participants k, m.who ∈ (u.bar k).arrived) :
    s.barrierCompletion k = (memberCourses (u.participants k)).foldl (fun s p =>
      (s.modCourse p.1 p.2 fun c => { c with threads := c.threads.map fun t => s.acquireAfter p.1 p.2 k t }).fenceComplete p.1 p.2)
        (u.setBar { u.bar k with seq := ((u.bar k).seq + 1) % 2 ^ 16, arrived := [], due := none }) := by
  have complete : ((u.bar k).arrived.isEmpty || (u.participants k).isEmpty || !(u.participants k).all fun m => (u.bar k).arrived.contains m.who) = false := by
    simpa [some_, arrived] using all
  subst hu
  exact if_neg (Bool.eq_false_iff.mp complete)

/-! ### The time-out of a barrier (R395) -/

/-- The cause that a course with a thread at a barrier that is timed out receives, if it has one. -/
def Course.timeoutCause (c : Course) (k : BarKey) (seq : Nat) (gone : List (Nat × Nat × Nat)) : Option Cause :=
  let at_ := c.allLive.filter fun i => (c.thread i).waitsAt k
  at_.head?.map fun i =>
    { code := 0x30, num := k.num, scope := k.scope, ipc := (c.thread i).pc, tmask := slotMask at_, bseq := seq
      ord := at_.foldl (fun m j => min m (c.thread j).waitOrd) (c.thread i).waitOrd, missing := gone }

/-- One course of a barrier that is timed out. -/
def State.timeoutCourse (k : BarKey) (seq : Nat) (gone : List (Nat × Nat × Nat)) (s : State) (p : Nat × Nat) : State :=
  match (s.course? p.1 p.2).bind fun c => c.timeoutCause k seq gone with
  | some x => s.defer p.1 p.2 x
  | none => s

/-- The participants of a barrier that have not arrived, in pod order (R381). -/
def State.missingAt (s : State) (k : BarKey) : List (Nat × Nat × Nat) :=
  sortBy missingOrder (((s.participants k).filter fun m => !(s.bar k).arrived.contains m.who).map fun m => (m.core, m.course, m.slot))

theorem State.barrierTimeout_due {s : State} {k : BarKey} {d : Nat} (hd : (s.bar k).due = some d) (now : d ≤ s.now)
    (hm : ∃ m ∈ s.participants k, m.who ∉ (s.bar k).arrived) :
    s.barrierTimeout k = (memberCourses ((s.participants k).filter fun m => (s.bar k).arrived.contains m.who)).foldl
      (State.timeoutCourse k (s.bar k).seq (s.missingAt k)) (s.setBar { s.bar k with arrived := [], due := none }) := by
  have late : ¬ (s.now < d ∨ ((s.participants k).all fun m => (s.bar k).arrived.contains m.who) = true) := by
    obtain ⟨m, hm, absent⟩ := hm
    simp only [List.all_eq_true, not_or, Nat.not_lt]
    exact ⟨now, fun all => absent (by simpa using all m hm)⟩
  unfold State.barrierTimeout
  simp only [hd, if_neg late]
  congr 1
  funext s p
  unfold State.timeoutCourse Course.timeoutCause
  cases s.course? p.1 p.2 with
  | none => rfl
  | some c =>
    dsimp only [Option.bind_some]
    cases (c.allLive.filter fun i => (c.thread i).waitsAt k).head? <;> rfl

theorem bar_of_bars {s t : State} {k : BarKey} (h : t.bars = s.bars) : t.bar k = s.bar k := by
  unfold State.bar
  rw [h]

section
variable (k : BarKey) (seq : Nat) (gone : List (Nat × Nat × Nat))

@[simp] theorem timeoutCourse_bars (s : State) (p : Nat × Nat) : (State.timeoutCourse k seq gone s p).bars = s.bars := by
  unfold State.timeoutCourse
  split
  · exact defer_bars ..
  · rfl

theorem timeoutCourses_bars (l : List (Nat × Nat)) (s : State) : (l.foldl (State.timeoutCourse k seq gone) s).bars = s.bars := by
  induction l generalizing s with
  | nil => rfl
  | cons p l ih => rw [List.foldl_cons, ih, timeoutCourse_bars]

theorem course?_timeoutCourse_of_ne {s : State} {p : Nat × Nat} {core course : Nat} (h : (core, course) ≠ p) :
    (State.timeoutCourse k seq gone s p).course? core course = s.course? core course := by
  unfold State.timeoutCourse
  split
  · exact course?_defer_of_ne h _
  · rfl

theorem course?_timeoutCourses_of_not_mem {l : List (Nat × Nat)} {core course : Nat} (h : (core, course) ∉ l) (s : State) :
    (l.foldl (State.timeoutCourse k seq gone) s).course? core course = s.course? core course := by
  induction l generalizing s with
  | nil => rfl
  | cons p l ih =>
    obtain ⟨hp, hl⟩ := List.ne_and_not_mem_of_not_mem_cons h
    rw [List.foldl_cons, ih hl, course?_timeoutCourse_of_ne _ _ _ hp]

/-- Each course that takes part meets its condition once, whatever the order of the courses. -/
theorem course?_timeoutCourses {l : List (Nat × Nat)} (once : l.Nodup) {core course : Nat} (hl : (core, course) ∈ l) {s : State}
    {c : Course} {x : Cause} (hc : s.course? core course = some c) (ht : c.trap = .none) (hx : c.timeoutCause k seq gone = some x) :
    (l.foldl (State.timeoutCourse k seq gone) s).course? core course = some { c with deferred := c.deferred ++ [x] } := by
  induction l generalizing s with
  | nil => cases hl
  | cons p l ih =>
    obtain ⟨hp, once⟩ := List.nodup_cons.mp once
    rw [List.foldl_cons]
    by_cases e : (core, course) = p
    · subst e
      rw [course?_timeoutCourses_of_not_mem _ _ _ hp]
      unfold State.timeoutCourse
      simp only [hc, Option.bind_some, hx, defer_of_untrapped hc ht]
      exact State.course?_setCourse_self _ _ _ _
    · exact ih once ((List.mem_cons.mp hl).resolve_left e) ((course?_timeoutCourse_of_ne _ _ _ e).trans hc)

/-- A course in no trap takes its condition without a record in memory. -/
theorem timeoutCourse_untrapped {s : State} {p : Nat × Nat} (h : ∀ c, s.course? p.1 p.2 = some c → c.trap = .none) :
    (State.timeoutCourse k seq gone s p).mem = s.mem ∧ (State.timeoutCourse k seq gone s p).pool = s.pool ∧
      ∀ c, (State.timeoutCourse k seq gone s p).course? p.1 p.2 = some c → c.trap = .none := by
  unfold State.timeoutCourse
  cases hc : s.course? p.1 p.2 with
  | none => exact ⟨rfl, rfl, h⟩
  | some c =>
    dsimp only [Option.bind_some]
    split
    · rw [defer_of_untrapped hc (h c hc)]
      refine ⟨rfl, rfl, fun d hd => ?_⟩
      rw [State.course?_setCourse_self] at hd
      exact Option.some.inj hd ▸ h c hc
    · exact ⟨rfl, rfl, h⟩

theorem timeoutCourses_untrapped {l : List (Nat × Nat)} {s : State} (h : ∀ p ∈ l, ∀ c, s.course? p.1 p.2 = some c → c.trap = .none) :
    (l.foldl (State.timeoutCourse k seq gone) s).mem = s.mem ∧ (l.foldl (State.timeoutCourse k seq gone) s).pool = s.pool := by
  induction l generalizing s with
  | nil => exact ⟨rfl, rfl⟩
  | cons p l ih =>
    obtain ⟨mem, pool, trap⟩ := timeoutCourse_untrapped k seq gone (h p List.mem_cons_self)
    obtain ⟨mem', pool'⟩ := ih (s := State.timeoutCourse k seq gone s p) fun q hq c hc => by
      by_cases e : q = p
      · exact trap c (e ▸ hc)
      · exact h q (List.mem_cons_of_mem _ hq) c ((course?_timeoutCourse_of_ne k seq gone e).symm.trans hc)
    exact ⟨mem'.trans mem, pool'.trans pool⟩

end

theorem timeoutCause_of_head {c : Course} {k : BarKey} {i : Nat} (h : (c.allLive.filter fun i => (c.thread i).waitsAt k).head? = some i)
    (seq : Nat) (gone : List (Nat × Nat × Nat)) : ∃ x, c.timeoutCause k seq gone = some x ∧ x.code = 0x30 ∧ x.num = k.num ∧ x.scope = k.scope ∧
      x.ipc = (c.thread i).pc ∧ x.bseq = seq ∧ x.tmask = slotMask (c.allLive.filter fun i => (c.thread i).waitsAt k) ∧ x.missing = gone := by
  unfold Course.timeoutCause
  dsimp only
  rw [h]
  exact ⟨_, rfl, rfl, rfl, rfl, rfl, rfl, rfl, rfl⟩

theorem mem_missingAt {s : State} {k : BarKey} {m : Nat × Nat × Nat} :
    m ∈ s.missingAt k ↔ ∃ y ∈ s.participants k, y.who ∉ (s.bar k).arrived ∧ m = (y.core, y.course, y.slot) := by
  unfold State.missingAt
  rw [mem_sortBy]
  simp [and_assoc, @eq_comm _ m]

theorem memberCourses_nodup (l : List Member) : (memberCourses l).Nodup := nodup_eraseDups _

theorem mem_memberCourses {l : List Member} {p : Nat × Nat} : p ∈ memberCourses l ↔ ∃ m ∈ l, (m.core, m.course) = p := by
  unfold memberCourses
  rw [List.mem_eraseDups, List.mem_map]

section
variable {s : State} {k : BarKey} {d : Nat} (due : (s.bar k).due = some d) (now : d ≤ s.now)
  (late : ∃ m ∈ s.participants k, m.who ∉ (s.bar k).arrived)
include due now late

theorem bar_barrierTimeout : (s.barrierTimeout k).bar k = { s.bar k with arrived := [], due := none } := by
  rw [State.barrierTimeout_due due now late, bar_of_bars (timeoutCourses_bars k _ _ _ _)]
  exact bar_setBar s _ k (bar_key s k)

/-- A course with an arrived thread takes one condition, which names its threads at the barrier and the missing ones. -/
theorem course?_barrierTimeout {core course i : Nat} {c : Course}
    (hp : (core, course) ∈ memberCourses ((s.participants k).filter fun m => (s.bar k).arrived.contains m.who))
    (hc : s.course? core course = some c) (ht : c.trap = .none)
    (hi : (c.allLive.filter fun i => (c.thread i).waitsAt k).head? = some i) :
    ∃ x, (s.barrierTimeout k).course? core course = some { c with deferred := c.deferred ++ [x] } ∧
      x.code = 0x30 ∧ x.num = k.num ∧ x.scope = k.scope ∧ x.ipc = (c.thread i).pc ∧ x.bseq = (s.bar k).seq ∧
      x.tmask = slotMask (c.allLive.filter fun i => (c.thread i).waitsAt k) ∧
      ∀ m, m ∈ x.missing ↔ ∃ y ∈ s.participants k, y.who ∉ (s.bar k).arrived ∧ m = (y.core, y.course, y.slot) := by
  obtain ⟨x, hx, code, num, scope, ipc, bseq, tmask, missing⟩ := timeoutCause_of_head hi (s.bar k).seq (s.missingAt k)
  rw [State.barrierTimeout_due due now late]
  refine ⟨x, course?_timeoutCourses k _ _ (memberCourses_nodup _) hp (s := s.setBar _) hc ht hx, code, num, scope, ipc, bseq, tmask, fun m => ?_⟩
  rw [missing, mem_missingAt]

theorem barrierTimeout_untrapped (h : ∀ m ∈ s.participants k, ∀ c, s.course? m.core m.course = some c → c.trap = .none) :
    (s.barrierTimeout k).mem = s.mem ∧ (s.barrierTimeout k).pool = s.pool := by
  rw [State.barrierTimeout_due due now late]
  refine timeoutCourses_untrapped k _ _ fun p hp c hc => ?_
  obtain ⟨m, hm, rfl⟩ := mem_memberCourses.mp hp
  exact h m (List.mem_filter.mp hm).1 c hc

end

/-! ### A gang leaves its queue (R71, R72) -/

theorem passedAt_setPassed (c : Cluster) {p : Nat} (h : p < 4) (n q : Nat) :
    (c.setPassed p n).passedAt q = if q = p then n else c.passedAt q := by
  simp only [Cluster.passedAt, Cluster.setPassed, h, dif_pos, Vector.toList_set, List.getD_eq_getElem?_getD, List.getElem?_set]
  by_cases e : q = p
  · subst e; simp [h]
  · simp [e, Ne.symm e]

/-- The heads that a gang passes as it leaves place `at_` of priority `p`. -/
def Cluster.headsPassed (c : Cluster) (p at_ : Nat) : List Nat :=
  [3, 2, 1, 0].filter fun q => decide (p < q ∨ (q = p ∧ at_ ≠ 0)) && !(c.prioQ q).isEmpty

/-- Each of some heads has been passed once more. -/
def Cluster.countPassed (l : List Nat) (c : Cluster) : Cluster := l.foldl (fun c q => c.setPassed q (c.passedAt q + 1)) c

/-- A cluster once a gang has left place `at_` of its queue of priority `p`. -/
def Cluster.dispatched (c : Cluster) (p at_ : Nat) (ms : List TaskRef) : Cluster :=
  let c := c.setQ p ((c.prioQ p).filter fun r => !ms.contains r)
  let c := c.countPassed (c.headsPassed p at_)
  if at_ = 0 then { c.setPassed p 0 with reserved := c.reserved.filter fun r => !ms.contains r.2 } else c

@[simp] theorem prioQ_countPassed (l : List Nat) (c : Cluster) (q : Nat) : (c.countPassed l).prioQ q = c.prioQ q :=
  prioQ_passed l (fun c q => c.passedAt q + 1) c q

theorem countPassed_rest (l : List Nat) (c : Cluster) : ∃ v, c.countPassed l = { c with passed := v } := by
  induction l generalizing c with
  | nil => exact ⟨_, rfl⟩
  | cons a l ih =>
    obtain ⟨v, h⟩ := ih (c.setPassed a (c.passedAt a + 1))
    exact ⟨v, h⟩

theorem passedAt_countPassed {l : List Nat} (once : l.Nodup) (hl : ∀ q ∈ l, q < 4) (c : Cluster) (q : Nat) :
    (c.countPassed l).passedAt q = c.passedAt q + if q ∈ l then 1 else 0 := by
  induction l generalizing c with
  | nil => rfl
  | cons a l ih =>
    obtain ⟨ha, once⟩ := List.nodup_cons.mp once
    refine (ih once (fun q hq => hl q (List.mem_cons_of_mem _ hq)) _).trans ?_
    rw [passedAt_setPassed _ (hl a List.mem_cons_self)]
    by_cases e : q = a
    · subst e; simp [ha]
    · simp [e]

theorem mem_headsPassed {c : Cluster} {p at_ q : Nat} (hq : q < 4) :
    q ∈ c.headsPassed p at_ ↔ (p < q ∨ (q = p ∧ at_ ≠ 0)) ∧ c.prioQ q ≠ [] := by
  have : q ∈ [3, 2, 1, 0] := by simp only [List.mem_cons, List.not_mem_nil, or_false]; omega
  simp [Cluster.headsPassed, List.mem_filter, this]

theorem headsPassed_nodup (c : Cluster) (p at_ : Nat) : (c.headsPassed p at_).Nodup := List.Pairwise.filter _ (by decide : [3, 2, 1, 0].Nodup)

theorem lt_of_mem_headsPassed {c : Cluster} {p at_ q : Nat} (h : q ∈ c.headsPassed p at_) : q < 4 := by
  have := (List.mem_filter.mp h).1
  simp only [List.mem_cons, List.not_mem_nil, or_false] at this
  omega

section
variable {p at_ : Nat} (c : Cluster) (ms : List TaskRef)

theorem prioQ_dispatched (hp : p < 4) (q : Nat) :
    (c.dispatched p at_ ms).prioQ q = if q = p then (c.prioQ p).filter fun r => !ms.contains r else c.prioQ q := by
  rw [← prioQ_setQ c p _ q hp]
  unfold Cluster.dispatched
  dsimp only
  split
  · exact prioQ_countPassed _ _ q
  · exact prioQ_countPassed _ _ q

theorem passedAt_dispatched (hp : p < 4) {q : Nat} (hq : q < 4) :
    (c.dispatched p at_ ms).passedAt q = if q = p ∧ at_ = 0 then 0
      else c.passedAt q + if (p < q ∨ (q = p ∧ at_ ≠ 0)) ∧ (c.dispatched p at_ ms).prioQ q ≠ [] then 1 else 0 := by
  have counted : ∀ d : Cluster, (d.countPassed (d.headsPassed p at_)).passedAt q = d.passedAt q +
      if (p < q ∨ (q = p ∧ at_ ≠ 0)) ∧ d.prioQ q ≠ [] then 1 else 0 := fun d => by
    rw [passedAt_countPassed (headsPassed_nodup d p at_) fun q h => lt_of_mem_headsPassed h]
    simp only [mem_headsPassed hq]
  rw [prioQ_dispatched c ms hp, ← prioQ_setQ c p _ q hp]
  unfold Cluster.dispatched
  dsimp only
  by_cases h0 : at_ = 0
  · rw [if_pos h0]
    refine (passedAt_setPassed _ hp 0 q).trans ?_
    by_cases e : q = p
    · rw [if_pos e, if_pos ⟨e, h0⟩]
    · rw [if_neg e, if_neg fun h => e h.1]
      exact counted _
  · rw [if_neg h0, if_neg fun h => h0 h.2]
    exact counted _

theorem reserved_dispatched :
    (c.dispatched p at_ ms).reserved = if at_ = 0 then c.reserved.filter fun r => !ms.contains r.2 else c.reserved := by
  obtain ⟨v, h⟩ := countPassed_rest ((c.setQ p ((c.prioQ p).filter fun r => !ms.contains r)).headsPassed p at_)
    (c.setQ p ((c.prioQ p).filter fun r => !ms.contains r))
  unfold Cluster.dispatched
  dsimp only
  rw [h]
  split <;> rfl

/-- The dispatch of a gang touches nothing but the queues, the counts and the reservations. -/
theorem dispatched_rest : { c.dispatched p at_ ms with disp := c.disp, passed := c.passed, reserved := [] } = { c with reserved := [] } := by
  obtain ⟨v, h⟩ := countPassed_rest ((c.setQ p ((c.prioQ p).filter fun r => !ms.contains r)).headsPassed p at_)
    (c.setQ p ((c.prioQ p).filter fun r => !ms.contains r))
  unfold Cluster.dispatched
  dsimp only
  rw [h]
  split <;> rfl

end

theorem State.dispatch_pull {s : State} {cl n : Nat} {r : List TaskRef} (h : s.poolHead (cl / 4) = some (n, r))
    (room : r.length ≤ queueRoom 512 (s.cluster cl).queues (n / 2)) :
    s.dispatch cl true = (((s.modDie (cl / 4) fun x => { x with pool := if h : n < 8 then x.pool.set n ((x.pool.toList.getD n []).drop r.length) else x.pool }).setCluster cl
      ((s.cluster cl).setQ (n / 2) ((s.cluster cl).prioQ (n / 2) ++ r))).refill (cl / 4) 4096).noteIdle cl := by
  unfold State.dispatch State.pullGang
  simp only [if_true, h, if_neg (Nat.not_lt.mpr room)]

theorem State.dispatch_gang {s : State} {cl p at_ : Nat} {ms : List TaskRef} {seats : List (TaskRef × Seat)} {g : Graph} {n : Node}
    (h : (s.takeInbox cl).nextDispatch cl = some (p, at_, ms, seats)) (hg : ms.head?.bind (s.takeInbox cl).refNode = some (g, n))
    (hp : (s.takeInbox cl).slotPage g n seats = none) :
    s.dispatch cl false = ((((s.takeInbox cl).setCluster cl (((s.takeInbox cl).cluster cl).dispatched p at_ ms)).placeMembers g n seats).noteIdle cl) := by
  unfold State.dispatch
  simp only [Bool.false_eq_true, if_false, h, hg, hp]
  rfl

/-! ### Reservations (R72) -/

theorem coresOf_nodup (cl : Nat) (ctl : Bool) : (coresOf cl ctl).Nodup := by
  unfold coresOf
  split
  · exact List.pairwise_singleton _ _
  · exact List.Pairwise.map _ (fun a b h e => h (by omega)) List.nodup_range

/-- The cores with the most free granules come first, then the lowest numbers. -/
theorem freest_pairwise (free : Nat → Nat) (l : List Nat) :
    (sortBy (fun a b => decide (free b < free a ∨ (free a = free b ∧ a ≤ b))) l).Pairwise
      fun a b => free b < free a ∨ (free a = free b ∧ a ≤ b) :=
  (sortBy_pairwise (fun a b => by simp only [decide_eq_true_eq]; omega) (fun a b c => by simp only [decide_eq_true_eq]; omega) l).imp fun h => of_decide_eq_true h

theorem reserveCores_spec (s : State) (cl : Nat) (r : TaskRef) :
    let cores := coresOf cl (((s.refNode r).map fun x => x.2.ctl).getD false)
    let ks := s.reserveCores cl r
    let free := fun k : Nat => ((s.core k).freeGranules k).length
    ks.length = min (s.gangSize r) cores.length ∧ ks.Nodup ∧ (∀ k ∈ ks, k ∈ cores) ∧
      ∀ k ∈ ks, ∀ j ∈ cores, j ∉ ks → free j < free k ∨ (free j = free k ∧ k < j) := by
  intro cores ks free
  have sorted := freest_pairwise free cores
  have perm := sortBy_perm (fun a b => decide (free b < free a ∨ (free a = free b ∧ a ≤ b))) cores
  refine ⟨(List.length_take ..).trans (congrArg _ perm.length_eq), (perm.nodup_iff.mpr (coresOf_nodup _ _)).sublist (List.take_sublist _ _),
    fun k hk => perm.subset (List.mem_of_mem_take hk), fun k hk j hj hn => ?_⟩
  have ne : k ≠ j := fun e => hn (e ▸ hk)
  rcases rel_of_mem_take sorted hk (perm.symm.subset hj) hn with more | ⟨same, le⟩
  · exact .inl more
  · exact .inr ⟨same.symm, Nat.lt_of_le_of_ne le ne⟩

theorem State.reserve_due {s : State} {cl p : Nat} {r : TaskRef} {q : List TaskRef} (hq : (s.cluster cl).prioQ p = r :: q)
    (passed : 256 ≤ (s.cluster cl).passedAt p) (new : ∀ x ∈ (s.cluster cl).reserved, x.2 ≠ r) :
    s.reserve cl p = s.setCluster cl { s.cluster cl with reserved := (s.cluster cl).reserved ++ (s.reserveCores cl r).map fun k => (k, r) } := by
  have due : ¬ ((s.cluster cl).passedAt p < 256 ∨ ((s.cluster cl).reserved.any fun x => decide (x.2 = r)) = true) := by
    rintro (h | h)
    · omega
    · obtain ⟨x, hx, e⟩ := List.any_eq_true.mp h
      exact new x hx (of_decide_eq_true e)
  unfold State.reserve
  simp only [hq, if_neg due]

/-! ### Work donation (R74, R324) -/

/-- Whether a cluster other than `cl` has a queued task that may run on its die. -/
def State.mayGive (s : State) (cl w : Nat) : Prop :=
  w < 16 ∧ w ≠ cl ∧ ∃ q ∈ (s.cluster w).disp.toList, ∃ r ∈ q, s.unstartedFor (cl / 4) r = true

theorem nearest_pairwise (hops : Nat → Nat) (l : List Nat) :
    (sortBy (fun a b => decide (hops a < hops b ∨ (hops a = hops b ∧ a ≤ b))) l).Pairwise
      fun a b => hops a < hops b ∨ (hops a = hops b ∧ a ≤ b) :=
  (sortBy_pairwise (fun a b => by simp only [decide_eq_true_eq]; omega) (fun a b c => by simp only [decide_eq_true_eq]; omega) l).imp fun h => of_decide_eq_true h

theorem stealVictim_spec {s : State} {cl v : Nat} (h : s.stealVictim cl = some v) :
    s.mayGive cl v ∧ ∀ w, s.mayGive cl w → clusterHops cl v < clusterHops cl w ∨ (clusterHops cl v = clusterHops cl w ∧ v ≤ w) := by
  unfold State.stealVictim at h
  generalize hl : ((List.range 16).filter fun v => decide (v ≠ cl) && (s.cluster v).disp.toList.any fun q => q.any (s.unstartedFor (cl / 4))) = l at h
  have mem : ∀ w, w ∈ l ↔ s.mayGive cl w := fun w => by
    rw [← hl]
    simp only [State.mayGive, List.mem_filter, List.mem_range, Bool.and_eq_true, decide_eq_true_eq, List.any_eq_true]
  obtain ⟨rest, sorted⟩ := List.head?_eq_some_iff.mp h
  have inSorted : ∀ w, w ∈ v :: rest ↔ s.mayGive cl w := fun w => by rw [← sorted, mem_sortBy, mem]
  refine ⟨(inSorted v).mp List.mem_cons_self, fun w hw => ?_⟩
  have order := nearest_pairwise (clusterHops cl) l
  rw [sorted, List.pairwise_cons] at order
  rcases List.mem_cons.mp ((inSorted w).mpr hw) with rfl | hw
  · exact .inr ⟨rfl, Nat.le_refl _⟩
  · exact order.1 w hw

theorem State.stealRequest_asks {s : State} {cl v : Nat} (may : s.mayAsk cl = true) (h : s.stealVictim cl = some v) :
    s.stealRequest cl =
      (s.modCluster cl fun c => { c with lastSteal := some s.now }).modCluster v fun c => { c with stealFrom := c.stealFrom ++ [cl] } := by
  unfold State.stealRequest
  simp only [may, Bool.not_true, Bool.false_eq_true, if_false, h]

theorem gangSize_pos (s : State) (r : TaskRef) : 0 < s.gangSize r := Nat.lt_of_lt_of_le Nat.zero_lt_one (Nat.le_max_left _ _)

/-- The gangs of a queue are the queue, cut up. -/
theorem gangs_flatten (s : State) {n : Nat} {q : List TaskRef} (h : q.length ≤ n) : (s.gangs n q).flatten = q := by
  induction n generalizing q with
  | zero => rw [List.length_eq_zero_iff.mp (Nat.le_zero.mp h)]; rfl
  | succ n ih =>
    cases q with
    | nil => rfl
    | cons r q =>
      have := gangSize_pos s r
      rw [State.gangs, List.flatten_cons, ih (by simp only [List.length_cons, List.length_drop] at h ⊢; omega), List.take_append_drop]

/-- What is shipped, with whatever is shipped already, are whole gangs in the order of the queue. -/
theorem shipFrom_sublist (ok : List TaskRef → Bool) (n : Nat) (gs : List (List TaskRef)) (acc : List TaskRef) :
    (shipFrom ok n gs acc).Sublist (gs.reverse.flatten ++ acc) := by
  induction n generalizing gs acc with
  | zero => exact List.sublist_append_right _ _
  | succ n ih =>
    cases gs with
    | nil => exact .refl _
    | cons g gs =>
      rw [shipFrom, List.reverse_cons, List.flatten_append, List.flatten_singleton, List.append_assoc]
      split
      · exact ih gs (g ++ acc)
      · exact (ih gs acc).trans ((List.Sublist.refl _).append (List.sublist_append_right _ _))

theorem shipFrom_gangs_sublist (s : State) (ok : List TaskRef → Bool) (n : Nat) (q : List TaskRef) :
    (shipFrom ok n (s.gangs q.length q).reverse []).Sublist q := by
  have ships := shipFrom_sublist ok n (s.gangs q.length q).reverse []
  rwa [List.reverse_reverse, List.append_nil, gangs_flatten s (Nat.le_refl _)] at ships

theorem shipFrom_length (ok : List TaskRef → Bool) (n : Nat) (gs : List (List TaskRef)) {acc : List TaskRef} (h : acc.length ≤ 8) :
    (shipFrom ok n gs acc).length ≤ 8 := by
  induction n generalizing gs acc with
  | zero => exact h
  | succ n ih =>
    cases gs with
    | nil => exact h
    | cons g gs =>
      rw [shipFrom]
      split
      · next fits =>
        refine ih gs ?_
        simp only [Bool.and_eq_true, decide_eq_true_eq] at fits
        exact List.length_append ▸ fits.2
      · exact ih gs h

theorem shipFrom_all {ok : List TaskRef → Bool} {P : TaskRef → Prop} (hok : ∀ g, ok g = true → ∀ r ∈ g, P r) (n : Nat)
    (gs : List (List TaskRef)) {acc : List TaskRef} (h : ∀ r ∈ acc, P r) : ∀ r ∈ shipFrom ok n gs acc, P r := by
  induction n generalizing gs acc with
  | zero => exact h
  | succ n ih =>
    cases gs with
    | nil => exact h
    | cons g gs =>
      rw [shipFrom]
      split
      · next fits =>
        exact ih gs fun r hr => (List.mem_append.mp hr).elim (hok g (Bool.and_eq_true _ _ ▸ fits).1 r) (h r)
      · exact ih gs h

theorem shipment_spec (s : State) (v die : Nat) :
    (s.shipment v die).length ≤ 8 ∧ (s.shipment v die).Sublist ((s.cluster v).prioQ (s.cluster v).topPrio) ∧
      ∀ r ∈ s.shipment v die, s.mayShip die r = true := by
  unfold State.shipment
  exact ⟨shipFrom_length _ _ _ (Nat.zero_le _), shipFrom_gangs_sublist s _ _ _,
    shipFrom_all (fun g hg => List.all_eq_true.mp hg) _ _ (List.forall_mem_nil _)⟩

theorem State.stealShipment_head {s : State} {v thief : Nat} {rest : List Nat} (h : (s.cluster v).stealFrom = thief :: rest) :
    let old := s.cluster v
    let p := old.topPrio
    let ship := s.shipment v (thief / 4)
    let c := { old.setQ p ((old.prioQ p).filter fun r => !ship.contains r) with
               stealFrom := rest, reserved := old.reserved.filter fun r => !ship.contains r.2 }
    let u := (s.setCluster v (if (old.prioQ p).head?.any ship.contains then c.setPassed p 0 else c)).noteIdle v
    s.stealShipment v = if ship = [] then u else u.modCluster thief fun x => { x with shipments := x.shipments ++ [(v, ship)] } := by
  unfold State.stealShipment
  simp only [h, List.isEmpty_iff]

theorem State.shipmentArrival_head {s : State} {thief v : Nat} {rs : List TaskRef} {rest : List (Nat × List TaskRef)}
    (h : (s.cluster thief).shipments = (v, rs) :: rest) :
    let c := { s.cluster thief with shipments := rest }
    let p := (rs.head?.bind s.refNode).elim 0 fun x => x.2.prio
    s.shipmentArrival thief =
      if rs.length ≤ queueRoom 512 c.queues 4 then ((s.setCluster thief { c with inbox := c.inbox ++ rs }).takeInbox thief).noteIdle thief
      else if rs.length ≤ queueRoom 512 (s.cluster v).queues p then
        ((s.setCluster thief c).modCluster v fun x => x.setQ p (x.prioQ p ++ rs)).noteIdle v
      else s := by
  unfold State.shipmentArrival
  rw [h]

/-! ### Records of the overflow ring (R80) -/

theorem State.overflowQueued_due {s : State} {cl : Nat} (h : ((s.cluster cl).ovPending && (s.cluster cl).evRoom) = true) :
    s.overflowQueued cl = s.setCluster cl { s.cluster cl with
      events := (s.cluster cl).events ++ [s.event 0 0xFFFF 0 0x07 (cl / 4) 0xFF (s.cluster cl).ovCount 0], ovPending := false, ovCount := 0
      ovHead := if (s.cluster cl).ovSize = 0 then 0 else ((s.cluster cl).ovHead + (s.cluster cl).ovCount) % (s.cluster cl).ovSize } := by
  unfold State.overflowQueued
  exact if_pos h

theorem State.overflowQueued_not_due {s : State} {cl : Nat} (h : (s.cluster cl).ovPending = false) : s.overflowQueued cl = s := by
  unfold State.overflowQueued
  exact if_neg (by simp [h])

/-- Once the record that is due stands in the queue, the records that wait follow it. -/
theorem drainEvents_due {s : State} {cl : Nat} (hp : (s.cluster cl).ovPending = true) (hr : (s.cluster cl).evRoom = true) :
    ∃ more, ((s.drainEvents cl).cluster cl).events =
      (s.cluster cl).events ++ s.event 0 0xFFFF 0 0x07 (cl / 4) 0xFF (s.cluster cl).ovCount 0 :: more := by
  have queued := State.overflowQueued_due (s := s) (cl := cl) (by rw [hp, hr]; rfl)
  have once : (s.overflowQueued cl).overflowQueued cl = s.overflowQueued cl :=
    State.overflowQueued_not_due (by rw [queued, State.cluster_setCluster, if_pos rfl])
  have same : s.drainEvents cl = (s.overflowQueued cl).drainEvents cl := by
    unfold State.drainEvents
    rw [once]
  obtain ⟨more, h⟩ := drain_events (s.overflowQueued cl) cl
  refine ⟨more, ?_⟩
  rw [same, h, queued, State.cluster_setCluster, if_pos rfl, List.append_assoc, List.singleton_append]

/-! ### The end of a task and its pre-emption (R77, R84) -/

theorem task?_freeTask (s : State) (core slot : Nat) (tk : Task) : (s.freeTask core slot tk).task? core slot = none := by
  have erased : ((s.modCore core fun k =>
      { k with tasks := k.tasks.erase slot, courses := k.courses.filter fun c => !tk.courses.contains c.1 }).core core).tasks =
      (s.core core).tasks.erase slot := by
    rw [State.core_modCore, if_pos rfl]
  exact (congrArg (Tab.find · slot) erased).trans (tab_find_erase _ slot)

theorem State.taskEnd_done {s : State} {core slot : Nat} {tk : Task} (ht : s.task? core slot = some tk)
    (exited : ∀ n ∈ tk.courses, ((s.course? core n).getD {}).allLive = []) (retired : (s.core core).taskCmds slot = [])
    (acked : s.taskAccesses core tk = []) (room : s.recordRoom (4 * tk.ref.die) = true) :
    s.taskEnd core slot = (State.taskCounted (if ((s.graph? tk.ref.die tk.ref.graph).map Graph.taskrec).getD false then
        (s.freeTask core slot tk).postEvent (4 * tk.ref.die)
          (s.event tk.ref.graph tk.ref.node (s.endStatus core tk) 0x01 (coreDie core) (coreIn core) tk.ref.index 0)
      else s.freeTask core slot tk) tk.ref).fireChunk core tk := by
  have quiet : (tk.courses.all fun n => ((s.course? core n).getD {}).allLive.isEmpty) = true :=
    List.all_eq_true.mpr fun n hn => List.isEmpty_iff.mpr (exited n hn)
  unfold State.taskEnd
  simp only [ht, quiet, retired, acked, room, List.isEmpty_nil, Bool.not_true, Bool.or_self, Bool.and_false, Bool.false_eq_true, if_false]

/-- The cores `ks` of a pre-emption that hold the gangs of one core, whose threads have done in `w` what they were about to do,
are saved once all of them are quiet, no course of theirs is in a trap and no page is waited for. -/
theorem State.preemptSave_quiet {s w : State} {core : Nat} {p : Preempt} {ks : List Nat} (hk : (s.closure 128 [core]).filter p.cores.contains = ks)
    (hw : ks.foldl State.arriveCore s = w) (hp : (s.die (coreDie core)).preempt = some p) (hc : core ∈ p.cores)
    (quiet : ∀ k ∈ ks, w.coreQuiet k = true)
    (untrapped : ∀ c ∈ ks.flatMap (fun k => (s.core k).courses.map Prod.snd), c.delivering = false ∧ c.trapped = false)
    (paged : ∀ x ∈ w.tasksOn ks, w.savePage x.1 (w.tasksOn ks).length x.2.2 = none) :
    let u := ks.foldl State.settleCore w
    let r := u.saveAll (byGang (u.tasksOn ks))
    s.preemptSave core = r.1.preemptDone (coreDie core) p ks (ks.filter fun k => !r.2.contains k) (ks.filter r.2.contains) := by
  intro u r
  have delivering : (ks.flatMap fun k => (s.core k).courses.map Prod.snd).any Course.delivering = false :=
    List.any_eq_false.mpr fun c hc => Bool.eq_false_iff.mp (untrapped c hc).1
  have trapped : (ks.flatMap fun k => (s.core k).courses.map Prod.snd).any Course.trapped = false :=
    List.any_eq_false.mpr fun c hc => Bool.eq_false_iff.mp (untrapped c hc).2
  have noPage : ((w.tasksOn ks).findSome? fun t => (w.savePage t.1 (w.tasksOn ks).length t.2.2).map
      fun p => ((w.graph? t.2.2.ref.die t.2.2.ref.graph).elim 0 Graph.ctx, p)) = none :=
    List.findSome?_eq_none_iff.mpr fun x hx => by rw [paged x hx]; rfl
  have vacated : (ks.filter fun k => !(ks.filter r.2.contains).contains k) = ks.filter fun k => !r.2.contains k :=
    List.filter_congr fun k hk => by simp [hk]
  unfold State.preemptSave
  simp only [hp, List.contains_iff_mem.mpr hc, hk, delivering, trapped, hw, List.all_eq_true.mpr quiet, noPage, Bool.not_true,
    Bool.false_eq_true, if_false]
  exact congrArg (fun l => r.1.preemptDone (coreDie core) p ks l (ks.filter r.2.contains)) vacated

/-- Two states that are equal are so beside any group in the lane. -/
theorem issue_congr {u v : State} {g : Option Issue} (h : u = v) : ({ u with issue := g } : State) = { v with issue := g } :=
  congrArg (fun u : State => { u with issue := g }) h

/-- Settles O48: the clauses in the order of the statement, each the equation of its event above. -/
theorem taskFlow : Obligations.TaskFlow := by
  refine ⟨fun k => ?completion, fun k d => ?timeout, fun cl n r => ?pull, fun cl p at_ ms seats g n => ?dispatch, fun cl p r q => ?reservation,
    fun cl v => ?request, fun v thief rest => ?shipment, fun s v die => shipment_spec s v die, fun thief v rs rest => ?arrival,
    fun core slot tk => ?taskEnd, fun cl => ?overflow, fun core p => ?preempt⟩
  case completion =>
    refine happens _ (fun _ => rfl) fun s _ ⟨some_, arrived, all⟩ => ⟨_, _, rfl, rfl, ?_⟩
    exact issue_congr (State.barrierCompletion_all rfl some_ arrived all)
  case timeout =>
    refine happensAt (fun s => s.barrierTimeout k) (fun _ => rfl) ?_
    rintro s - ⟨due, now, late⟩ u rfl
    exact ⟨bar_barrierTimeout due now late, fun core course c i => course?_barrierTimeout due now late, barrierTimeout_untrapped due now late⟩
  case pull => exact eqn _ (fun _ => rfl) fun s _ ⟨head, _, room⟩ => State.dispatch_pull head room
  case dispatch =>
    refine happens _ (fun _ => rfl) fun s _ ⟨next, node, page⟩ => ?_
    have hp := nextDispatch_lt _ _ _ _ _ _ next
    refine ⟨((s.takeInbox cl).cluster cl).dispatched p at_ ms, prioQ_dispatched _ ms hp, fun q => passedAt_dispatched _ ms hp,
      reserved_dispatched _ ms, dispatched_rest _ ms, ?_⟩
    exact issue_congr (State.dispatch_gang next node page)
  case reservation =>
    refine happens _ (fun _ => rfl) fun s _ ⟨head, passed, new⟩ => ?_
    obtain ⟨length, nodup, mem, order⟩ := reserveCores_spec s cl r
    exact ⟨length, nodup, mem, order, issue_congr (State.reserve_due head passed new)⟩
  case request =>
    refine happens _ (fun _ => rfl) fun s _ ⟨may, victim⟩ => ?_
    obtain ⟨has, nearest⟩ := stealVictim_spec victim
    exact ⟨has, nearest, issue_congr (State.stealRequest_asks may victim)⟩
  case shipment =>
    exact eqn _ (fun _ => rfl) fun s _ ⟨asked, _⟩ => State.stealShipment_head asked
  case arrival =>
    refine happens _ (fun _ => rfl) fun s _ asked => ?_
    dsimp only
    rw [State.shipmentArrival_head asked]
    split
    · rfl
    · split <;> rfl
  case taskEnd =>
    refine happens _ (fun _ => rfl) fun s _ ⟨ht, exited, retired, acked, room⟩ => ⟨task?_freeTask s core slot tk, ?_⟩
    exact issue_congr (State.taskEnd_done ht exited retired acked room)
  case overflow =>
    refine happens _ (fun _ => rfl) fun s _ ⟨pending, room⟩ => ?_
    have drained : s.overflowRecord cl = s.drainEvents cl := if_pos (by rw [pending, room]; rfl)
    dsimp only
    rw [drained]
    exact drainEvents_due pending room
  case preempt =>
    exact eqn _ (fun _ => rfl) fun s _ ⟨asked, mine, quiet, untrapped, paged⟩ => State.preemptSave_quiet rfl rfl asked mine quiet untrapped paged

end Sys2Proof.Machine
end

section
/-! The engines (R104, R167, R281, R286, R292, R295): what each event does with the command whose turn it is, where nothing
stops it. -/

namespace Sys2Proof.Machine

/-! ### Guard slots (R281) -/

/-- The head command of a class that names slot `n` of its course follows what the slot says. -/
theorem State.headCheck_eq {s : State} {core cls n : Nat} {x : Cmd} {c : Course} (head : (s.core core).headCmd cls = some x)
    (guarded : x.gen = some n) (hc : s.course? core x.course = some c) :
    s.headCheck core cls = if c.slotAt n = .isTrue then s.setCmd core { x with gen := none }
      else if c.slotAt n = .isFalse then s.setCmd core { x with discarded := true } else s := by
  simp only [State.headCheck, head, guarded, hc, Option.getD_some]
  cases c.slotAt n <;> rfl

/-! ### Turns that meet no error -/

theorem State.engError_none (s : State) (core : Nat) (x : Cmd) (stops : State → Option EngStop) : s.engError core x .none stops = s := rfl

theorem State.accError_none (s : State) (core : Nat) (x : Cmd) (tk : Task) (tile : Nat) : s.accError core x tk tile .none = s := rfl

/-! ### Multiplication (R104) -/

/-- A chunk whose operands can be read and whose tile has no uncorrectable word reads their rows. -/
theorem State.chunkReads_ok {s : State} {v : EngView} {x : Cmd} {oa ob : Operand} {tile : Nat} {a b : List (List Elt)}
    (hA : s.chunkA v x oa x.kdone = .ok a) (hB : s.chunkB v x ob x.kdone = .ok b)
    (clean : s.accBad v.core ((s.task? v.core x.task).getD {}).accG tile = none) : s.chunkReads v x oa ob tile = .ok (a, b) := by
  rw [State.chunkReads, hA, hB, clean]

/-- The next 16 products of each row go into the tile; with the last of them the command is performed. -/
theorem State.kChunk_adds {s : State} {core cls tile : Nat} {far : FarAnswer} {x : Cmd} {oa ob oc : Operand} {a b : List (List Elt)}
    (run : s.runnable core cls = some x) (kind : x.kind = .mma ∨ x.kind = .gather) (at_ : x.tile = some tile) (ops : x.ops = [oa, ob, oc])
    (hA : s.chunkA { s.viewOf core x with far := far } x oa x.kdone = .ok a)
    (hB : s.chunkB { s.viewOf core x with far := far } x ob x.kdone = .ok b)
    (clean : s.accBad core ((s.task? core x.task).getD {}).accG tile = none) :
    s.kChunk core cls far .none =
      let fixed := (blkWord x.words 1).testBit 15
      let v := { s.viewOf core x with far := far }
      let u := (((s.operandServed v x oa true x.kdone).operandServed v x ob false x.kdone).pastFar).farGiven (coreDie core) x.id
      let r := (u.stampTile core).chunkRows core x tile fixed a b
      let y := { x with st := .running, kdone := x.kdone + 16, perm := x.perm + oa.cost + ob.cost + oc.cost
                        saturated := x.saturated || (fixed && r.2) }
      r.1.setCmd core (if blkBits x.words 1 12 0 ≤ x.kdone + 16 then y.finishMma else y) := by
  have reads : s.chunkReads { s.viewOf core x with far := far } x oa ob tile = .ok (a, b) := State.chunkReads_ok hA hB clean
  obtain kind | kind := kind <;> simp only [State.kChunk, run, kind, at_, ops, State.engError_none, reads]

/-! ### Write-back (R292) -/

/-- A tile of which no write is stopped is written, and reset where the command asks for it. -/
theorem State.writeBack_all {s : State} {core tile : Nat} {x : Cmd} {o o' : Operand} {tk : Task} {plan : List (Except EngStop EngWrite) × List Bool}
    (task : tk = (s.task? core x.task).getD {})
    (planned : plan = s.writeBackPlan (s.viewOf core x) x o ((List.range 64).map fun i => (s.accRow core tk.accG tile i, tk.row tile i)))
    (run : s.runnable core 1 = some x) (kind : x.kind = .writeBack) (at_ : x.tile = some tile) (ops : x.ops = [o, o'])
    (clean : s.accBad core tk.accG tile = none) (free : firstStop plan.1 = none) :
    s.writeBack core .none =
      let r := (s.chooseWrites plan.1).2.engWrites (s.chooseWrites plan.1).1
      let u := r.1.clampRows core x.task tile plan.2
      (if (blkWord x.words 1).testBit 22 then (u.resetTile core x.task tile).stampTile core else u).setSending core
        { x with st := .performed, todo := r.2, perm := x.perm + o.cost, wroteFar := x.wroteFar || o.far tk.rank } := by
  subst task planned
  simp only [State.writeBack, run, kind, at_, ops, State.accError_none, clean, free]

/-! ### Copies (R286) -/

/-- A copy that begins and of which nothing stops an element moves all of them, sends the lines of other destinations and
writes its flag. -/
theorem State.copyTransfer_all {s : State} {core : Nat} {far : FarAnswer} {x : Cmd} {a b : Operand} {v : EngView}
    (view : v = s.copyView { s.viewOf core x with far := far } b (copyElems x a b))
    (next : s.nextCopy core = some x) (ops : x.ops = [a, b]) (begins : x.st ≠ .running)
    (free : ∀ e ∈ copyElems x a b, s.copyStop v a b (layoutOf a.layout).bits (layoutOf b.layout).bits e = none) :
    s.copyTransfer core far .none =
      let o := (s.farGiven (coreDie core) x.id).shuffle (copyElems x a b)
      let r := o.2.copyAll v x a b o.1
      let q := r.1.sendLines core { x with
        todo := r.2, perm := x.copyCost.1 * x.copyCost.2, wroteFar := x.wroteFar || b.far ((s.task? core x.task).getD {}).rank }
      q.1.copyFlag core q.2 := by
  subst view
  have none_ : ((copyElems x a b).map (s.copyStop (s.copyView { s.viewOf core x with far := far } b (copyElems x a b)) a b
      (layoutOf a.layout).bits (layoutOf b.layout).bits)).filterMap id = [] := by
    simpa [List.filterMap_eq_nil_iff] using free
  simp only [State.copyTransfer, next, ops, if_neg begins, State.engError_none, none_, List.getElem?_nil]

/-! ### The operations of `acc` (R295) -/

/-- What sub-operation `sub` of `acc` does to the tile and the threads. -/
def State.accOp (s : State) (core : Nat) (x : Cmd) (tk : Task) (tile sub imm : Nat) (val : Word) (dst : Option RegRef) : State :=
  match sub with
  | 0 => (s.resetTile core x.task tile).stampTile core
  | 1 => ((List.range (imm / 64 % 64 + 1)).map (· + imm % 64)).foldl (fun s i =>
      s.putRow core x.task tile i (setExp (val.setWidth 12).toInt (((s.task? core x.task).getD {}).row tile i) (s.accRow core tk.accG tile i))) s
  | 2 => s.modCourse core x.course fun c => c.modBoth x.slot fun t =>
      match dst with
      | some d => t.arrive d x.id (rowWord (tk.row tile (imm % 64)) (s.accRow core tk.accG tile (imm % 64)))
      | none => t
  | 3 => s.putRow core x.task tile (imm % 64) (wrRow val (tk.row tile (imm % 64)) (s.accRow core tk.accG tile (imm % 64)))
  | _ => s.setTask core x.task ((List.range 64).foldl (fun t i => t.setRow tile i { t.row tile i with inv := false, ovf := false }) tk)

/-- An `acc` on a tile with no uncorrectable word is performed. -/
theorem State.accExecute_clean {s : State} {core sub imm tile : Nat} {x : Cmd} {val : Word} {dst : Option RegRef} {tk : Task}
    (run : s.runnable core 1 = some x) (kind : x.kind = .accOp sub imm val dst) (at_ : x.tile = some tile)
    (ht : s.task? core x.task = some tk) (clean : s.accBad core tk.accG tile = none) :
    s.accExecute core .none = (s.accOp core x tk tile sub imm val dst).setCmd core { x with st := .performed } := by
  simp only [State.accExecute, run, kind, at_, ht, State.accError_none, ite_self, clean, Option.isSome_none, Bool.and_false,
    Bool.false_eq_true, if_false]
  match sub with
  | 0 | 1 | 2 | 3 | _ + 4 => rfl

/-! ### Retirement (R167) -/

/-- A core whose queue of a class and whose matrix order no longer hold a command. -/
def Core.without (k : Core) (cls id : Nat) : Core :=
  { k with queues := (k.setQueue cls ((k.queue cls).filter fun y => decide (y.id ≠ id))).queues, morder := k.morder.filter (· ≠ id) }

theorem Core.queue_without (k : Core) {cls : Nat} (h : cls < 4) (id : Nat) :
    (k.without cls id).queue cls = (k.queue cls).filter fun y => decide (y.id ≠ id) := by
  simp [Core.without, Core.setQueue, Core.queue, h]

/-- A course once a command of a class has retired: its counter and `tstat` tell of it. -/
def Course.retired (c : Course) (cls : Nat) (x : Cmd) : Course :=
  { (c.setCount cls (c.count cls - 1)) with
    tstat := putField c.tstat 0 16 (min (if x.discarded then 0 else x.perm) 0xFFFF)
    farDone := if h : cls < 4 then (if x.wroteFar then c.farDone.set cls true else c.farDone) else c.farDone }

theorem Course.count_retired (c : Course) {cls : Nat} (h : cls < 4) (x : Cmd) : (c.retired cls x).count cls = c.count cls - 1 := by
  simp [Course.retired, Course.setCount, Course.count, h]

/-- A change of a course leaves the queues of its core and the matrix order. -/
theorem State.queues_modCourse (s : State) (core course k : Nat) (f : Course → Course) :
    ((s.modCourse core course f).core k).queues = (s.core k).queues ∧ ((s.modCourse core course f).core k).morder = (s.core k).morder := by
  unfold State.modCourse
  split
  · rw [State.setCourse, State.core_modCore]
    split
    · next h => subst h; exact ⟨rfl, rfl⟩
    · exact ⟨rfl, rfl⟩
  · exact ⟨rfl, rfl⟩

/-- Waking the parked courses leaves the queues and the matrix order. -/
theorem State.queues_wakeParked (s : State) (core course cls : Nat) :
    ((s.wakeParked core course cls).core core).queues = (s.core core).queues ∧
      ((s.wakeParked core course cls).core core).morder = (s.core core).morder := by
  simp [State.wakeParked]

/-- Waking the parked courses leaves of each its counters, its threads and `tstat`. -/
theorem State.course?_wakeParked {s : State} {core n : Nat} {c : Course} (h : s.course? core n = some c) (m cls : Nat) :
    ∃ d, (s.wakeParked core m cls).course? core n = some d ∧ d.cnt = c.cnt ∧ d.threads = c.threads ∧ d.tstat = c.tstat := by
  obtain ⟨g, woken, kept⟩ := wakeParked_eq s core m cls
  refine ⟨g n c, ?_, kept n c⟩
  rw [State.course?] at h
  rw [woken, State.course?, State.core_modCore, if_pos rfl, find_map, h, Option.map_some]

section Retire
variable {s : State} {core course cls : Nat} {x : Cmd}
  (oldest : ((s.core core).queue cls).find? (fun x => decide (x.course = course)) = some x) (ended : x.ended = true)
  (acked : x.writes = []) (sent : x.todo = []) (sound : x.fault = none)
include oldest ended acked sent sound

/-- A command of a course and class that has ended with its writes acknowledged and no fault retires. -/
theorem State.retire_ended :
    s.retire core course cls =
      ((s.modCore core fun k => k.without cls x.id).modCourse core course fun c => c.retired cls x).wakeParked core course cls := by
  simp only [State.retire, oldest, ended, acked, sent, sound, Bool.not_true, List.isEmpty_nil, Bool.or_self, Bool.false_eq_true, if_false]
  rfl

theorem State.queues_retire :
    ((s.retire core course cls).core core).queues = ((s.core core).without cls x.id).queues ∧
      ((s.retire core course cls).core core).morder = ((s.core core).without cls x.id).morder := by
  rw [State.retire_ended oldest ended acked sent sound, (State.queues_wakeParked ..).1, (State.queues_wakeParked ..).2,
    (State.queues_modCourse ..).1, (State.queues_modCourse ..).2, State.core_modCore, if_pos rfl]
  exact ⟨rfl, rfl⟩

theorem State.course?_retire {c : Course} (hc : s.course? core course = some c) :
    ∃ d, (s.retire core course cls).course? core course = some d ∧ d.cnt = (c.retired cls x).cnt ∧ d.threads = c.threads ∧
      d.tstat = (c.retired cls x).tstat := by
  rw [State.retire_ended oldest ended acked sent sound]
  refine State.course?_wakeParked (c := c.retired cls x) ?_ course cls
  rw [State.course?_modCourse, if_pos ⟨rfl, rfl⟩, course?_modCore _ _ (fun k => k.without cls x.id) (fun _ => rfl), hc, Option.map_some]

end Retire

/-- Settles O49: the clauses in the order of the statement, each the equation of its event above. -/
theorem engineEvents : Obligations.EngineEvents := by
  refine ⟨fun core cls x n c => ?guard, fun core cls far x tile oa ob oc a b => ?chunk, fun core x tile o o' => ?back,
    fun core far x a b => ?copy, fun core x sub imm val dst tile tk => ?acc, fun core course cls x c => ?retire⟩
  case guard => exact eqn _ (fun _ => rfl) fun s _ ⟨head, guarded, hc⟩ => State.headCheck_eq head guarded hc
  case chunk =>
    exact eqn _ (fun _ => rfl) fun s _ ⟨run, kind, at_, ops, hA, hB, clean⟩ => State.kChunk_adds run kind at_ ops hA hB clean
  case back =>
    exact eqn _ (fun _ => rfl) fun s _ ⟨run, kind, at_, ops, clean, free⟩ => State.writeBack_all rfl rfl run kind at_ ops clean free
  case copy => exact eqn _ (fun _ => rfl) fun s _ ⟨next, ops, begins, free⟩ => State.copyTransfer_all rfl next ops begins free
  case acc =>
    refine happens (fun s => s.accExecute core .none) (fun _ => rfl) ?_
    rintro s - ⟨run, kind, at_, ht, -, clean⟩
    rw [State.accExecute_clean run kind at_ ht clean]
    refine ⟨?zero, ?setexp, ?rdrow, ?wrrow, ?clrst⟩
    case rdrow => rintro rfl d rfl; rfl
    all_goals rintro rfl; rfl
  case retire =>
    refine happens (fun s => s.retire core course cls) (fun _ => rfl) ?_
    rintro s - ⟨oldest, hcls, ended, acked, sent, sound, hc⟩
    obtain ⟨queues, morder⟩ := State.queues_retire oldest ended acked sent sound
    obtain ⟨d, hd, cnt, threads, tstat⟩ := State.course?_retire oldest ended acked sent sound hc
    refine ⟨?_, morder, d, hd, ?_, threads, tstat⟩
    · exact (congrArg (fun q => q.toList.getD cls []) queues).trans (Core.queue_without _ hcls x.id)
    · exact (congrArg (fun v => v.toList.getD cls 0) cnt).trans (Course.count_retired c hcls x)

end Sys2Proof.Machine
end

section
/-! Layout operations (R119 to R124, R268 to R270): where the record is checked and at hand and no thread refuses, the group passes
with the task that the images, made one after another, leave. -/

namespace Sys2Proof.Machine

/-- A fold that carries its refusal along, over steps that go on as those of `g` do, ends where the monadic fold of `g` ends;
the refusals may be of another type. -/
theorem foldl_ok_of_foldlM {α σ ε δ : Type} {g : σ → α → Except ε σ} {step : Except δ σ → α → Except δ σ}
    (ok : ∀ a i b, g a i = .ok b → step (.ok a) i = .ok b) (l : List α) (a b : σ) (h : l.foldlM g a = .ok b) :
    l.foldl step (.ok a) = .ok b := by
  induction l generalizing a with
  | nil => exact congrArg Except.ok (Except.ok.inj h)
  | cons i l ih =>
    cases hg : g a i with
    | error e => rw [List.foldlM_cons, hg] at h; nomatch h
    | ok c =>
      rw [List.foldlM_cons, hg] at h
      rw [List.foldl_cons, ok a i c hg]
      exact ih c h

/-- The offset of an operation's record, which the lowest thread's uniform register gives. -/
def Grp.recordOff (G : Grp) (x : LaneI) (rec_ : Option (Reg × Nat)) : Word :=
  match rec_ with
  | some r => G.read x G.lowest (.c r.1)
  | none => 0

/-- The size of an operation's record. -/
def recordSize (rec_ : Option (Reg × Nat)) : Nat := (rec_.map Prod.snd).getD 0

/-- The reads of the record, one for each active thread. -/
def Grp.recordReads (G : Grp) (x : LaneI) (rec_ : Option (Reg × Nat)) : List (Nat × Word) :=
  if rec_.isSome then (G.active x).map fun j => (j, G.recordOff x rec_) else []

/-- The bytes of the record, none where no thread reads it. -/
def State.recordBytes (s : State) (G : Grp) (x : LaneI) (rec_ : Option (Reg × Nat)) : List Byte :=
  s.spBytes G.g.core G.tk (G.recordOff x rec_).toNat (if G.recordReads x rec_ = [] then 0 else recordSize rec_)

/-- The task with the image that thread `j` makes in layout `md`, or the reason of its refusal. -/
def Grp.putImage (G : Grp) (md : Reg) (f : Thread → List Byte → Task → Except Nat (BitVec 640)) (bs : List Byte) (tk : Task) (j : Nat) :
    Except Nat Task :=
  (f (G.cs.thread j) bs tk).map (tk.setLayout md.toNat)

/-- A layout operation whose record passes its checks and awaits no write, and which no thread refuses, passes with the task
that the last image leaves. -/
theorem State.layoutOp_next {s : State} {G : Grp} {x : LaneI} {md : Reg} {rec_ : Option (Reg × Nat)}
    {f : Thread → List Byte → Task → Except Nat (BitVec 640)} {ls : List (Nat × Word × Loc)} {tk : Task} (r : Runs s G x)
    (checked : s.recordCheck G (recordSize rec_) 8 true (G.recordReads x rec_) = .ok ls)
    (idle : ∀ e ∈ G.recordReads x rec_, s.recordBusy G.g.core G.g.course G.tk e.2.toNat (recordSize rec_) = false)
    (made : (G.active x).foldlM (G.putImage md f (s.recordBytes G x rec_)) G.tk = .ok tk) :
    s.layoutOp x md rec_ f = .next (s.finishTask G x tk) := by
  refine withGroup_to r.lane ?_ rfl
  rw [r.ok]
  extract_lets act core off size eas bs one
  have passed : s.recordCheck G size 8 true eas = .ok ls := checked
  have free : ¬ (eas.any fun e => s.recordBusy core G.g.course G.tk e.2.toNat size) = true := fun h =>
    have ⟨e, he, busy⟩ := List.any_eq_true.mp h
    Bool.false_ne_true ((idle e he).symm.trans busy)
  have bytes : s.recordBytes G x rec_ = bs := by
    simp only [bs, List.isEmpty_iff]
    rfl
  have folded : act.foldl one (.ok G.tk) = .ok tk := by
    refine foldl_ok_of_foldlM (fun a j b h => ?_) _ _ _ (bytes ▸ made)
    simp only [one]
    unfold Grp.putImage at h
    cases hf : f (G.cs.thread j) bs a with
    | ok m => rw [hf] at h; exact congrArg Except.ok (Except.ok.inj h)
    | error e => rw [hf] at h; nomatch h
  rw [passed]
  dsimp only
  rw [if_neg free, folded]

/-- Settles O31: each of the instructions is a `State.layoutOp` of the statement's record and image. -/
theorem layoutOperations : Obligations.LayoutOperations := by
  unfold Obligations.LayoutOperations
  intro gives
  have of_layoutOp {i x md rec_ f} (h : ∀ s, exec i s = s.layoutOp x md rec_ f) : gives i x md rec_ f :=
    fun s _ _ _ r checked idle made => ⟨_, (h s).trans (State.layoutOp_next r checked idle made), ran_finishTask r _⟩
  -- with `gives` opaque, each goal fixes the record and the image before the instruction is unfolded
  clear_value gives
  exact ⟨fun _ => of_layoutOp fun _ => rfl, fun _ => of_layoutOp fun _ => rfl, fun _ => of_layoutOp fun _ => rfl,
    fun _ => of_layoutOp fun _ => rfl, fun _ => of_layoutOp fun _ => rfl⟩

end Sys2Proof.Machine
end

section
/-! Memory accesses on their way to their homes and back, and the ends of waits for them (R142 to R170, R252, R259, R260, R328):
an equation for each event where its statement says that it happens. -/

namespace Sys2Proof.Machine

/-! ### An access at its home (R142, R155) -/

theorem State.badIn_eq_none {s : State} {x : Loc} {n : Nat} (h : ∀ w ∈ wordsOf x n, w ∉ s.badWords) : s.badIn x n = none := by
  unfold State.badIn
  split
  · rfl
  · exact List.find?_eq_none.mpr fun w hw => by simpa using h w hw

theorem State.badWords_placed (s : State) (x : Loc) : (s.placed x).badWords = s.badWords := by
  cases x with
  | hbm d a =>
    obtain ⟨l, f, n, h⟩ := ensureLine_rest s d (Loc.hbm d a).lineNo
    show (s.ensureLine d (Loc.hbm d a).lineNo).badWords = s.badWords
    rw [h]
  | _ => rfl

theorem State.perform_atHome {s : State} {id : Nat} {a : Access} (ha : s.access? id = some a) (home : s.AtHome a) :
    s.perform id .none = (s.placed a.loc).performAt a := by
  obtain ⟨left, near, first, ways, kept, noWindow, filled, sound⟩ := home
  have clean : (s.placed a.loc).badIn a.loc a.size = none := State.badIn_eq_none (by rwa [State.badWords_placed])
  have performed : (match (if a.readsHome then (s.placed a.loc).badIn a.loc a.size else none) with
      | some w => (s.placed a.loc).accessBad a w
      | none => (s.placed a.loc).performAt a) = (s.placed a.loc).performAt a := by
    rw [clean, ite_self]
  unfold State.perform
  rw [ha]
  simp only [left, near, first, ways, kept, noWindow, filled, State.meetError, ne_eq, not_true_eq_false, if_false, Bool.false_eq_true]
  exact performed

theorem State.performAt_load {s : State} {a : Access} {q : Bool} (hk : a.kind = .load q) (hc : a.cacheable = false) :
    s.performAt a = s.setAccess { a with st := .performed, val := BitVec.ofNat 128 (leNat (s.locRead a.loc a.size)) } := by
  unfold State.performAt
  simp only [hk, hc, Bool.false_and, Bool.false_eq_true, if_false]

/-- A store at a pool writes its bytes there, and is no longer on its way. -/
theorem State.performAt_store_pool {s : State} {a : Access} {r : Bool} {core o : Nat} (hk : a.kind = .store r) (hl : a.loc = .pool core o) :
    (s.performAt a).access? a.id = none ∧ (s.performAt a).mem = s.mem ∧
      (s.performAt a).pool = cellsWrite s.pool a.loc.key (storeBytes a.w a.nib a.size a.data.toNat (s.locRead a.loc a.size)) := by
  unfold State.performAt
  simp only [hk, hl]
  exact ⟨access?_drop _ _, rfl, rfl⟩

@[simp] theorem State.frameWritten_pool (s : State) (core o n : Nat) : s.frameWritten (.pool core o) n = s := rfl

/-- The state in which an atomic has written what its operation gives: a compare that fails writes nothing. -/
def State.atomWritten (s : State) (a : Access) (op : AtomOp) : State :=
  if op = .cas ∧ leNat (s.locRead a.loc a.size) ≠ a.cmp.toNat % 2 ^ (8 * a.size) then s
  else s.homeWrite a.loc (leBytes a.size (atomNew op a.w (leNat (s.locRead a.loc a.size)) a.data.toNat a.cmp.toNat))

theorem State.atomWritten_pool {s : State} {a : Access} {core o : Nat} (hl : a.loc = .pool core o) (op : AtomOp) :
    let old := s.locRead a.loc a.size
    (s.atomWritten a op).mem = s.mem ∧ (s.atomWritten a op).inflight = s.inflight ∧
      (s.atomWritten a op).pool = if op = .cas ∧ leNat old ≠ a.cmp.toNat % 2 ^ (8 * a.size) then s.pool
        else cellsWrite s.pool a.loc.key (leBytes a.size (atomNew op a.w (leNat old) a.data.toNat a.cmp.toNat)) := by
  unfold State.atomWritten
  rw [hl]
  dsimp only
  split <;> exact ⟨rfl, rfl, rfl⟩

/-- An atomic that awaits its result holds the value before, once it has written at a pool. -/
theorem State.performAt_atom_pool {s : State} {a : Access} {op : AtomOp} {core o : Nat} (hk : a.kind = .atom op false)
    (hl : a.loc = .pool core o) (ha : s.access? a.id = some a) :
    (s.performAt a).mem = (s.atomWritten a op).mem ∧ (s.performAt a).pool = (s.atomWritten a op).pool ∧
      ∃ b, (s.performAt a).access? a.id = some b ∧ b.st = .performed ∧ b.val = BitVec.ofNat 128 (leNat (s.locRead a.loc a.size)) := by
  have written : (if (!decide (op = .cas ∧ leNat (s.locRead a.loc a.size) ≠ a.cmp.toNat % 2 ^ (8 * a.size))) = true then
      s.homeWrite a.loc (leBytes a.size (atomNew op a.w (leNat (s.locRead a.loc a.size)) a.data.toNat a.cmp.toNat)) else s) =
        s.atomWritten a op := by
    unfold State.atomWritten
    simp only [Bool.not_eq_true', decide_eq_false_iff_not, ite_not]
  have kept : (s.atomWritten a op).access? a.id = some a :=
    (congrArg (List.find? fun x : Access => decide (x.id = a.id)) (State.atomWritten_pool hl op).2.1).trans ha
  unfold State.performAt
  simp only [hk]
  rw [written]
  generalize s.atomWritten a op = v at kept
  simp only [hl, State.frameWritten_pool, ite_self, Bool.false_eq_true, if_false]
  by_cases here : core = a.core
  · rw [if_pos here]
    exact ⟨rfl, rfl, _, access?_set _ a _ kept, rfl, rfl⟩
  · rw [if_neg here]
    exact ⟨rfl, rfl, _, access?_set _ a _ kept, rfl, rfl⟩

/-! ### Sectors on their way from memory (R144, R146) -/

theorem State.missFor_absent {s : State} {x : Loc} (h : ∀ m ∈ s.misses, ¬ (m.die = x.dieOf ∧ m.line = x.lineNo)) :
    let used := (s.misses.filter fun m => decide (m.die = x.dieOf ∧ lineSlice m.line = lineSlice x.lineNo) && !m.waits).length
    s.missFor x = { s with misses := s.misses ++
      [{ die := x.dieOf, line := x.lineNo, sectors := 1#4 <<< sectorOf x, born := s.now, waits := decide (64 ≤ used) }] } := by
  have none_mine : ∀ p : Miss → Bool, s.misses.any (fun m => decide (m.die = x.dieOf ∧ m.line = x.lineNo) && p m) = false := fun p =>
    List.any_eq_false.mpr fun m hm => by simp [h m hm]
  unfold State.missFor
  simp only [none_mine, Bool.false_eq_true, if_false]

/-- The only miss is one of the line, without the sector: the sector joins it while it is young, and has its own miss after that. -/
theorem State.missFor_other_sector {s : State} {x : Loc} {m : Miss} (hm : s.misses = [m]) (hd : m.die = x.dieOf) (hl : m.line = x.lineNo)
    (hs : m.sectors.getLsbD (sectorOf x) = false) :
    s.missFor x = { s with misses := if m.waits = true ∨ s.now ≤ m.born + 16 then [{ m with sectors := m.sectors ||| (1#4 <<< sectorOf x) }]
      else [m, { die := m.die, line := m.line, sectors := 1#4 <<< sectorOf x, born := s.now }] } := by
  have few (p : Miss → Bool) : ¬ 64 ≤ ([m].filter p).length :=
    Nat.not_le.mpr (Nat.lt_of_le_of_lt (List.length_filter_le p [m]) (by decide : 1 < 64))
  have noSector : s.misses.any (fun n => decide (n.die = x.dieOf ∧ n.line = x.lineNo) && n.sectors.getLsbD (sectorOf x)) = false := by
    simp [hm, hs]
  have joins : s.misses.any (fun n => decide (n.die = x.dieOf ∧ n.line = x.lineNo) && (n.waits || decide (s.now ≤ n.born + 16))) =
      decide (m.waits = true ∨ s.now ≤ m.born + 16) := by
    simp [hm, hd, hl]
  unfold State.missFor
  simp only [noSector, joins, decide_eq_true_eq, Bool.false_eq_true, if_false]
  by_cases young : m.waits = true ∨ s.now ≤ m.born + 16
  · simp [young, hm, hd, hl]
  · simp only [if_neg young, hm, few, hd, hl, decide_false, List.cons_append, List.nil_append]

theorem State.missAllocate_eq {s : State} {id : Nat} {a : Access} (ha : s.access? id = some a) (left : a.st = .left)
    (first : s.behind a = false) (fill : s.needsFill a = true) : s.missAllocate id = s.missFor a.loc := by
  unfold State.missAllocate
  rw [ha]
  exact if_pos ⟨left, first, fill⟩

/-- A fill takes its miss out of the list and makes its sectors valid. -/
theorem State.sectorFill_found {s : State} {die line : Nat} {m : Miss}
    (h : findAt (fun m => decide (m.die = die ∧ m.line = line) && !m.waits) s.misses = some m) :
    (s.sectorFill die line .none).misses = startMiss s.now die (lineSlice line) (s.misses.erase m) ∧
      ∃ l, (s.sectorFill die line .none).line? die line = some l ∧ ∀ k, m.sectors.getLsbD k = true → l.valid.getLsbD k = true := by
  obtain ⟨l, hl, rfl, rfl⟩ := ensureLine_line s die line
  obtain ⟨ls, fs, n, rest⟩ := ensureLine_rest s l.die l.line
  have filled : s.sectorFill l.die l.line .none = { (s.ensureLine l.die l.line).setLine { l with valid := l.valid ||| m.sectors } with
      misses := startMiss s.now l.die (lineSlice l.line) (s.misses.erase m) } := by
    unfold State.sectorFill
    simp only [h, hl]
    rw [rest]
    rfl
  rw [filled]
  have valid : ∀ k, m.sectors.getLsbD k = true → (l.valid ||| m.sectors).getLsbD k = true := fun k hk => by rw [BitVec.getLsbD_or, hk, Bool.or_true]
  exact ⟨rfl, _, line?_setLine (s.ensureLine l.die l.line) { l with valid := l.valid ||| m.sectors }, valid⟩

/-! ### A load's return (R157, R158) -/

theorem State.loadReturn_register {s : State} {id : Nat} {a : Access} {d : RegRef} (ha : s.access? id = some a) (hk : a.kind = .load false)
    (hst : a.st = .performed) (hcode : a.code = false) (hbad : a.bad = false) (hd : a.dst = [d]) (hp : a.part = none) (val : BitVec 512) (bad : Bool) :
    let u : State := s.dropAccess id
    let v := ({ u with packets := s.packets.filter fun p => !(p.isLoad && p.accs.contains id) } : State).pump (coreDie a.core)
    s.loadReturn id val bad = (if a.inval then v.invalLane a.core else v).modCourse a.core a.course
      fun c => c.modBoth a.slot fun t =>
        let t := t.arrive d id (extendAs a.w a.nib a.val.toNat)
        { t with acqAfter := t.acqAfter.filter (· ≠ id) } := by
  intro u v
  unfold State.loadReturn
  simp only [ha, hk, hst, hcode, hbad, hd, hp, decide_true, Bool.not_true, Bool.false_eq_true, reduceCtorEq, decide_false, Bool.and_false,
    Bool.or_false, if_false, if_true, List.foldl_cons, List.foldl_nil]
  rfl

/-! ### The hierarchy's output (R165) -/

theorem State.hodDrain_due {s : State} {core n : Nat} {e : HodEntry} (h : (s.core core).hod.find? (fun e => decide (e.id = n)) = some e)
    (due : e.due = true) : s.hodDrain core n = s.drain core n := by
  unfold State.hodDrain
  rw [h]
  exact if_pos due

theorem State.hodAge_old {s : State} {core n : Nat} {e : HodEntry} (h : (s.core core).hod.find? (fun e => decide (e.id = n)) = some e)
    (old : e.born + max 64 ((s.die (coreDie core)).hodage.toNat % 65536) ≤ s.now) : s.hodAge core n = s.drain core n := by
  unfold State.hodAge
  rw [h]
  exact if_pos old

theorem State.drain_one {s : State} {core n : Nat} {e : HodEntry} (h : (s.core core).hod.find? (fun e => decide (e.id = n)) = some e)
    (alone : ((s.core core).hod.filter fun x => decide (x.dest = e.dest ∧ x.line = e.line ∧ x.id ≤ n)) = [e]) :
    s.drain core n = s.drainOne core e := by
  unfold State.drain
  rw [h]
  dsimp only
  rw [alone]
  rfl

/-! ### The ends of waits (R160, R168, R252, R259, R260) -/

/-- What the end of a wait does to the threads does not depend on the cycles for which it stalls the course. -/
theorem threads_foldl_endWait (f : Thread → Option Nat) (now : Nat) (l : List Nat) {c d : Course} (h : c.threads = d.threads) :
    (l.foldl (fun c i => match f (c.thread i) with | some len => c.endWait now i len | none => c) c).threads =
      (l.foldl (fun c i => match f (c.thread i) with | some len => c.modThread i fun t => t.release len | none => c) d).threads := by
  induction l generalizing c d with
  | nil => exact h
  | cons i l ih =>
    refine ih ?_
    have same : c.thread i = d.thread i := congrArg (fun ts : List Thread => ts.getD i {}) h
    dsimp only
    rw [same]
    cases f (d.thread i) with
    | none => exact h
    | some len =>
      show c.threads.set i ((c.thread i).release len) = d.threads.set i ((d.thread i).release len)
      rw [same, h]

theorem State.course?_releaseThreads {s : State} {core course : Nat} {c : Course} (hc : s.course? core course = some c)
    (f : State → Thread → Option Nat) : ∃ d, (s.releaseThreads core course f).course? core course = some d ∧
      ∀ i < c.threads.length, d.thread i = match f s (c.thread i) with | some len => (c.thread i).release len | none => c.thread i := by
  unfold State.releaseThreads
  rw [State.course?_modCourse, if_pos ⟨rfl, rfl⟩, hc]
  refine ⟨_, rfl, fun i hi => ?_⟩
  have threads := threads_foldl_endWait (f s) s.now (List.range c.threads.length) (rfl : c.threads = c.threads)
  have released := foldl_modThread (f s) (List.range c.threads.length) c List.nodup_range (fun i h => List.mem_range.mp h) i
  rw [if_pos (List.mem_range.mpr hi)] at released
  exact (congrArg (fun ts : List Thread => ts.getD i {}) threads).trans released

theorem State.phaseComplete_over {s : State} {core course : Nat} {c : Course} (hc : s.course? core course = some c)
    (h : ∃ t ∈ c.threads, (phaseOver s core s t).isSome = true) :
    s.phaseComplete core course = (s.fenceEffects core course true).releaseThreads core course (phaseOver s core) := by
  unfold State.phaseComplete
  rw [hc]
  exact if_pos (List.any_eq_true.mpr h)

theorem State.releaseProceed_visible {s : State} {id : Nat} {a : Access} (ha : s.access? id = some a) (held : a.st = .held)
    (h : ∀ w ∈ a.after, s.visible w = true) : s.releaseProceed id = s.leave { a with after := [] } := by
  unfold State.releaseProceed State.releaseHeld
  rw [ha]
  exact if_pos ⟨held, List.all_eq_true.mpr h⟩

theorem State.waitnComplete_eq {s : State} {core course : Nat} {c : Course} (hc : s.course? core course = some c) :
    s.waitnComplete core course = ((c.threads.filterMap (waitnClass c)).foldl (fun s k => s.acquireClass core course k) s).releaseThreads
      core course (fun _ t => c.waitnDone t) := by
  unfold State.waitnComplete
  rw [hc]
  rfl

theorem State.icinvComplete_eq {s : State} {core course : Nat} {c : Course} {tk : Task} (hc : s.course? core course = some c)
    (ht : s.task? core c.task = some tk) :
    s.icinvComplete core course = ((c.threads.filterMap (icinvOver s c)).foldl (fun s r => s.invalCode core tk.ctx r.1 r.2.1) s).releaseThreads
      core course (fun _ t => (icinvOver s c t).map fun r => r.2.2) := by
  unfold State.icinvComplete
  rw [hc]
  dsimp only
  rw [ht]
  rfl

theorem State.fetchbComplete_over {s : State} {core course : Nat} {c : Course} (hc : s.course? core course = some c)
    (h : ∃ t ∈ c.threads, (fetchbOver s c t).isSome = true) : s.fetchbComplete core course =
      (s.releaseThreads core course fun _ t => fetchbOver s c t).modCourse core course Course.dropCode := by
  unfold State.fetchbComplete
  rw [hc]
  exact if_pos (List.any_eq_true.mpr h)

/-! ### The division of a die's lines between cache and scratch (R170) -/

/-- The state without the lines that leave their places when the division of a die becomes `w'`. -/
def State.linesLeft (s : State) (die w' : Nat) : State :=
  (if (s.die die).ways < w' then s.dropWays die (16 - w') else s).dropScratch die (min (s.die die).ways w')

theorem State.linesLeft_rest (s : State) (die w' : Nat) : (s.linesLeft die w').mem = s.mem ∧ (s.linesLeft die w').pool = s.pool := by
  obtain ⟨mem, pool, -⟩ := dropScratch_rest (if (s.die die).ways < w' then s.dropWays die (16 - w') else s) die (min (s.die die).ways w')
  obtain ⟨mem', pool', -⟩ := dropWays_rest s die (16 - w')
  unfold State.linesLeft
  rw [mem, pool]
  split
  · exact ⟨mem', pool'⟩
  · exact ⟨rfl, rfl⟩

/-- The state with the new division of a die: the cells between the two divisions are empty, and the courses that wait for it go on. -/
def State.redivided (s : State) (die w' : Nat) : State :=
  let w := (s.die die).ways
  let lo := 2 ^ 40 + die * 2 ^ 30 + min w w' * 0x2000000
  let hi := 2 ^ 40 + die * 2 ^ 30 + max w w' * 0x2000000
  let u := s.linesLeft die w'
  let v := ({ u with mem := u.mem.filter fun c => decide (c.1 < lo ∨ hi ≤ c.1) } : State).modDie die fun x => { x with ways := w', resize := none }
  let wake := fun c : Course => if c.susp = some (.ways die) then { c with susp := none } else c
  { v with cores := v.cores.map fun k => (k.1, { k.2 with courses := k.2.courses.map fun c => (c.1, wake c.2) }) }

theorem State.ways_redivided (s : State) (die w' : Nat) : ((s.redivided die w').die die).ways = w' := by
  show (((State.modDie _ die fun x => { x with ways := w', resize := none }).die die).ways) = w'
  rw [State.die_modDie, if_pos rfl]

/-- The thread that asked for the division goes on, and the next change starts. -/
theorem State.cresizeDone_eq {s : State} {die w' : Nat} (h : (s.die die).resize = some w') :
    s.cresizeDone die = match ((s.redivided die w').resizers die).find? fun r => decide (r.2.2.2.1 = w') with
      | some (k, n, i, _, len) => ((s.redivided die w').modCourse k n fun c => c.endWait (s.redivided die w').now i len).startResize die
      | none => (s.redivided die w').startResize die := by
  unfold State.cresizeDone
  rw [h]
  rfl

/-- A finished change of the division is that change, but for courses, before the next one starts. -/
theorem State.cresizeDone_startsNext {s : State} {die w' : Nat} (h : (s.die die).resize = some w') :
    ∃ v : State, s.cresizeDone die = v.startResize die ∧ v.dies = (s.redivided die w').dies ∧ v.pool = (s.redivided die w').pool ∧
      v.mem = (s.redivided die w').mem := by
  rw [State.cresizeDone_eq h]
  split
  · exact ⟨_, rfl, State.modCourse_dies _ _ _ _, State.modCourse_pool _ _ _ _, State.modCourse_mem _ _ _ _⟩
  · exact ⟨_, rfl, rfl, rfl, rfl⟩

theorem State.cresizeDone_rest {s : State} {die w' : Nat} (h : (s.die die).resize = some w') :
    let w := (s.die die).ways
    ((s.cresizeDone die).die die).ways = w' ∧ (s.cresizeDone die).pool = s.pool ∧ (s.cresizeDone die).mem =
      s.mem.filter fun c => decide (c.1 < 2 ^ 40 + die * 2 ^ 30 + min w w' * 0x2000000 ∨ 2 ^ 40 + die * 2 ^ 30 + max w w' * 0x2000000 ≤ c.1) := by
  intro w
  obtain ⟨v, done, dies, pool, mem⟩ := State.cresizeDone_startsNext h
  obtain ⟨mem', pool', ways'⟩ := startResize_rest (v.resizers die) die v
  obtain ⟨mem₀, pool₀⟩ := s.linesLeft_rest die w'
  rw [done]
  have ways : (v.die die).ways = w' := (congrArg (fun ds => (Tab.get ds die {}).ways) dies).trans (s.ways_redivided die w')
  exact ⟨ways'.trans ways, pool'.trans (pool.trans pool₀), mem'.trans (mem.trans (congrArg _ mem₀))⟩

/-! ### Pages that move (R151 to R154) -/

theorem State.migrationStart_moves {s : State} {die at_ : Nat} {m : Migr} {e : TlbEntry} (new : m.stage ≠ 2) (room : (s.die die).migr.length < 64)
    (next : ((s.die die).migrQ.find? fun m => !(s.die die).migr.any fun y => decide (y.frame = m.frame)) = some m)
    (page : State.sharedPage (s.modDie die fun x => { x with migrQ := x.migrQ.erase m }) m.ctx m.va = some (e, at_))
    (frame : leafBase e.pte.toNat e.size = m.frame) (side : pteBit e.pte.toNat 8 ≠ m.toHost) (up : s.host.lost = false) :
    let m' := { m with pte := at_, stage := 1 }
    let u := s.modDie die fun x => { x with migrQ := x.migrQ.erase m }
    let v := if m.assisted = true ∨ m.toHost = false then u.hostEvent (u.moveRecord die m') else u
    s.migrationStart die = if m.toHost = true ∧ m.assisted = false then
        let w := (v.setOwn at_ true).dropPage m.frame m.ctx m.va
        w.modDie die fun x => { x with migr := x.migr ++ [{ m' with awaits := w.pageWrites (w.pageLines e m.va) }] }
      else v.modDie die fun x => { x with migr := x.migr ++ [m'] } := by
  intro m' u v
  unfold State.migrationStart
  dsimp only
  rw [if_neg (Nat.not_le.mpr room), next]
  dsimp only
  rw [if_neg new, page]
  dsimp only
  rw [if_neg (not_or.mpr ⟨not_not_intro frame, side⟩), if_neg (by simp [up])]

theorem State.migrationStart_again {s : State} {die : Nat} {m : Migr} (again : m.stage = 2) (room : (s.die die).migr.length < 64)
    (next : ((s.die die).migrQ.find? fun m => !(s.die die).migr.any fun y => decide (y.frame = m.frame)) = some m) :
    s.migrationStart die =
      (s.modDie die fun x => { x with migrQ := x.migrQ.erase m }).modDie die fun x => { x with migr := x.migr ++ [m] } := by
  unfold State.migrationStart
  dsimp only
  rw [if_neg (Nat.not_le.mpr room), next]
  exact if_pos again

theorem State.migrationDeparture_written {s : State} {die frame : Nat} {m : Migr} {e : TlbEntry}
    (found : findAt (fun m => decide (m.frame = frame) && m.toHost && (!m.assisted || decide (m.stage = 2))) (s.die die).migr = some m)
    (seen : ∀ w ∈ m.awaits, s.visible w = true) (walk : s.walk m.ctx m.va = .leaf e) :
    let msg : Msg := { ring := 68, type := 7, seq := 0, arg := leBytes 8 (m.va / 4096 * 4096) ++ leBytes 2 m.ctx ++ List.replicate 22 0
                       payload := s.pageBytes (s.pageLines e m.va) }
    s.migrationDeparture die frame =
      (if m.assisted then s else ({ s with host := { s.host with waiting := s.host.waiting ++ [msg] } } : State).pumpRing 68).freeMove die frame := by
  intro msg
  have visible : s.allVisible m.awaits = true := List.all_eq_true.mpr seen
  unfold State.migrationDeparture
  rw [found]
  simp only [visible, walk, Bool.not_true, Bool.false_eq_true, if_false]
  split <;> rfl

/-! ### The end of a walk (R147 to R149) -/

theorem State.walkComplete_eq {s : State} {core course ctx va slot kind : Nat} {c : Course} (hc : s.course? core course = some c)
    (hs : c.susp = some (.walk ctx va slot kind)) :
    let u := (s.modCourse core course fun c => { c with susp := none }).walkServed ctx va
    s.walkComplete core course .none = match u.walk ctx va with
      | .leaf e => (u.fillLL (coreDie core) e).fillL1 core e
      | .bad w => (u.errorEvent w 1 ((s.task? core c.task).map fun t => (core, t))).stopCourse core course
          { code := 0x70, faddr := canon57 va, ipc := if kind = 1 then canon57 va else (c.thread slot).pc, tmask := 2 ^ slot, ord := u.nextOrd }
      | _ => u.stopCourse core course { walkCause kind slot va (c.thread slot).pc with ord := u.nextOrd } := by
  unfold State.walkComplete
  rw [hc]
  dsimp only
  rw [hs]
  rfl

/-- Settles O50: the clauses in the order of the statement, each the equation of its event above. -/
theorem memoryEvents : Obligations.MemoryEvents := by
  refine ⟨fun id a => ?perform, fun s a => ⟨fun q hk hc => ?load, fun r core o hk hl => ?store, fun op core o hk hl ha => ?atom⟩,
    fun die line m => ?fill, fun id a => ?miss, fun id a m => ?sector, fun id val bad a d => ?back, fun core n e => ?drain,
    fun core n e => ?age, fun s core n e h alone => State.drain_one h alone, fun s core course c f hc => State.course?_releaseThreads hc f,
    fun core course => ?phase, fun core course => ?fence, fun id a => ?release, fun core course c => ?waitn, fun core course c tk => ?icinv,
    fun core course c => ?fetchb, fun die w' => ?cresize, fun die m e at_ => ?start, fun die frame m e => ?departure, fun die m => ?again,
    fun core course c ctx va slot kind => ?walk⟩
  case perform => exact eqn _ (fun _ => rfl) fun s _ ⟨ha, home⟩ => State.perform_atHome ha home
  case load => exact State.performAt_load hk hc
  case store => exact State.performAt_store_pool hk hl
  case atom =>
    obtain ⟨mem, -, pool⟩ := State.atomWritten_pool (s := s) hl op
    obtain ⟨mem', pool', held⟩ := State.performAt_atom_pool hk hl ha
    exact ⟨mem'.trans mem, pool'.trans pool, held⟩
  case fill =>
    refine happensAt (fun s => s.sectorFill die line .none) (fun _ => rfl) ?_
    rintro s - found u rfl
    exact State.sectorFill_found found
  case miss =>
    refine happens (fun s => s.missAllocate id) (fun _ => rfl) fun s _ ⟨ha, left, first, fill, absent⟩ => ?_
    exact (issue_congr ((State.missAllocate_eq ha left first fill).trans (State.missFor_absent absent))).trans rfl
  case sector =>
    refine happens (fun s => s.missAllocate id) (fun _ => rfl) fun s _ ⟨ha, left, first, fill, hm, hd, hl, hs⟩ => ?_
    exact (issue_congr ((State.missAllocate_eq ha left first fill).trans (State.missFor_other_sector hm hd hl hs))).trans rfl
  case back =>
    exact eqn _ (fun _ => rfl) fun s _ ⟨ha, hk, hst, hcode, hbad, hd, hp⟩ => State.loadReturn_register ha hk hst hcode hbad hd hp val bad
  case drain => exact eqn _ (fun _ => rfl) fun s _ ⟨found, due⟩ => State.hodDrain_due found due
  case age => exact eqn _ (fun _ => rfl) fun s _ ⟨found, old⟩ => State.hodAge_old found old
  case phase => exact eqn _ (fun _ => rfl) fun s _ ⟨c, hc, ended⟩ => State.phaseComplete_over hc ended
  case fence => exact eqn _ (fun _ => rfl) fun _ _ _ => rfl
  case release => exact eqn _ (fun _ => rfl) fun s _ ⟨ha, held, seen⟩ => State.releaseProceed_visible ha held seen
  case waitn => exact eqn _ (fun _ => rfl) fun s _ hc => State.waitnComplete_eq hc
  case icinv => exact eqn _ (fun _ => rfl) fun s _ ⟨hc, ht⟩ => State.icinvComplete_eq hc ht
  case fetchb => exact eqn _ (fun _ => rfl) fun s _ ⟨hc, ended⟩ => State.fetchbComplete_over hc ended
  case cresize =>
    refine happensAt (fun s => s.cresizeDone die) (fun _ => rfl) ?_
    rintro s - h u rfl
    exact State.cresizeDone_rest h
  case start =>
    exact eqn _ (fun _ => rfl) fun s _ ⟨new, room, next, page, frame, side, up⟩ => State.migrationStart_moves new room next page frame side up
  case departure => exact eqn _ (fun _ => rfl) fun s _ ⟨found, seen, walk⟩ => State.migrationDeparture_written found seen walk
  case again => exact eqn _ (fun _ => rfl) fun s _ ⟨stage, room, next⟩ => State.migrationStart_again stage room next
  case walk => exact eqn _ (fun _ => rfl) fun s _ ⟨hc, hs⟩ => State.walkComplete_eq hc hs

end Sys2Proof.Machine
end

section
/-! The host link (R151 to R153, R243, R353 to R361, R425): the order of its messages, the messages that are no commands, and the
loss of what is not acknowledged. -/

namespace Sys2Proof.Machine

/-! ### Messages that are no commands (R353) -/

/-- An instruction that brings a message which is no command has the message's effect `g` in its turn. -/
theorem tells {i : Instr} {x : HostIn} {ok : State → Prop} {f g : State → State} (e : ∀ s, exec i s = s.beside fun s => s.hostIn x)
    (handled : ∀ u, u.entryEffect x = if u.phase != Phase.running then u else g u) (h : ∀ u, ok u → g u = f u) : Tells i x ok f := by
  intro s turn running holds
  have effect_ : (s.turnOf x).entryEffect x = f (s.turnOf x) := by
    rw [handled, running, ← h _ holds]
    rfl
  rw [e, State.beside, turn.hostIn_eq, effect_]

theorem State.syscallReply_resident {s : State} {call core n : Nat} {c : SysCall}
    (hc : s.calls.find? (fun c => decide (c.id = call) && !c.answered) = some c) (at_ : s.callCourse c = some (core, n)) (lo hi : Nat)
    (vals : List (Nat × Nat)) :
    let put := fun (q : Course) (v : Nat × Nat × Nat) =>
      if c.mask.testBit v.1 then (q.putBoth v.1 (.v 0) (BitVec.ofNat 64 v.2.1)).putBoth v.1 (.v 1) (BitVec.ofNat 64 v.2.2) else q
    let w := s.modCourse core n fun q => { (replyVals lo hi vals).foldl put q with wakeAt := some (s.now + 32) }
    s.syscallReply call lo hi vals = { w with calls := w.calls.filter fun x => decide (x.id ≠ call) } := by
  intro put w
  unfold State.syscallReply
  rw [hc]
  dsimp only
  rw [at_]

/-! ### Pages (R151 to R153) -/

theorem State.pageMessage_inbound {s : State} {ctx va at_ d : Nat} {e : TlbEntry} {y : Migr} (page : s.sharedPage ctx va = some (e, at_))
    (moving : s.inbound (leafBase e.pte.toNat e.size) = some (d, y)) (bytes : List Byte) :
    let ls := s.pageLines e va
    let v := s.fillPage ls bytes
    s.pageMessage ctx va bytes =
      if y.assisted then v else ((((v.setOwn at_ false).dropPage y.frame ctx va).pageArrives ls).freeMove d y.frame).wakeMove d y := by
  unfold State.pageMessage
  rw [page]
  dsimp only
  rw [moving]

theorem State.pageMessage_assisted {s : State} {ctx va at_ : Nat} {e : TlbEntry} (page : s.sharedPage ctx va = some (e, at_))
    (still : s.inbound (leafBase e.pte.toNat e.size) = none)
    (mode : (s.die (frameDie (leafBase e.pte.toNat e.size))).duty.getLsbD 1 = true) (bytes : List Byte) :
    s.pageMessage ctx va bytes = s.fillPage (s.pageLines e va) bytes := by
  unfold State.pageMessage
  rw [page]
  dsimp only
  rw [still]
  exact if_pos mode

section Own
variable {s : State} {ctx va at_ : Nat} {own : Bool} {e : TlbEntry}

/-- The state in which the table entry and the translations of a page have taken its new owner. -/
def State.ownTaken (s : State) (e : TlbEntry) (at_ ctx va : Nat) (own : Bool) : State :=
  (s.setOwn at_ own).dropPage (leafBase e.pte.toNat e.size) ctx va

theorem State.ownMessage_still (page : s.sharedPage ctx va = some (e, at_))
    (still : findAt (fun m => decide (m.frame = leafBase e.pte.toNat e.size))
      (State.die (s.ownTaken e at_ ctx va own) (frameDie (leafBase e.pte.toNat e.size))).migr = none) :
    let frame := leafBase e.pte.toNat e.size
    s.ownMessage ctx va own =
      if own then (s.ownTaken e at_ ctx va own).departs (frameDie frame)
        { frame := frame, toHost := true, assisted := true, ctx := ctx, va := va, pte := at_ } (s.pageLines e va)
      else (s.ownTaken e at_ ctx va own).pageArrives (s.pageLines e va) := by
  unfold State.ownMessage
  rw [page]
  dsimp only
  unfold State.ownTaken at still
  rw [still]
  rfl

/-- The page arrives during the move that the host has made for the module. -/
theorem State.ownMessage_arrives {y : Migr} (page : s.sharedPage ctx va = some (e, at_))
    (moving : findAt (fun m => decide (m.frame = leafBase e.pte.toNat e.size))
      (State.die (s.ownTaken e at_ ctx va false) (frameDie (leafBase e.pte.toNat e.size))).migr = some y)
    (inwards : y.toHost = false) (assisted : y.assisted = true) :
    let frame := leafBase e.pte.toNat e.size
    s.ownMessage ctx va false =
      (((s.ownTaken e at_ ctx va false).pageArrives (s.pageLines e va)).freeMove (frameDie frame) frame).wakeMove (frameDie frame) y := by
  unfold State.ownMessage
  rw [page]
  dsimp only
  unfold State.ownTaken at moving
  rw [moving]
  simp only [inwards, assisted, Bool.false_eq_true, if_false, if_true]
  rfl

/-- A page that is on its way out comes back at once. -/
theorem State.ownMessage_returns {y : Migr} (page : s.sharedPage ctx va = some (e, at_))
    (moving : findAt (fun m => decide (m.frame = leafBase e.pte.toNat e.size))
      (State.die (s.ownTaken e at_ ctx va false) (frameDie (leafBase e.pte.toNat e.size))).migr = some y)
    (outwards : y.toHost = true) : s.ownMessage ctx va false = (s.ownTaken e at_ ctx va false).pageArrives (s.pageLines e va) := by
  unfold State.ownMessage
  rw [page]
  dsimp only
  unfold State.ownTaken at moving
  rw [moving]
  simp only [outwards, Bool.false_eq_true, if_false, if_true]
  rfl

end Own

theorem State.hostWants_shared {s : State} {ctx va at_ : Nat} {e : TlbEntry} (page : s.sharedPage ctx va = some (e, at_)) :
    s.hostWants ctx va = s.askMigration (frameDie (leafBase e.pte.toNat e.size))
      { frame := leafBase e.pte.toNat e.size, toHost := true, assisted := false, ctx := ctx, va := va, pte := 0 } := by
  unfold State.hostWants
  rw [page]

/-! ### Messages without a sequence number (R357, R359) -/

/-- A well-formed one takes effect once its header is taken; a malformed one is answered by a NAK. -/
theorem controls {i : Instr} {m : MsgHead} {ok : State → Prop} {f g : State → State} (e : ∀ s, exec i s = s.beside fun s => s.controlIn m g)
    (h : ∀ u, ok u → g u = f u) : Controls i m ok f := by
  refine ⟨fun s hears well holds => ?_, fun s hears bad => ?_⟩
  · have taken : s.controlIn m g = f (s.takeHead m) := by
      unfold State.controlIn
      simp only [hears, well, Bool.not_true, Bool.false_eq_true, if_false]
      exact h _ holds
    rw [e, State.beside, taken]
  · have refused : s.controlIn m g = s.sendNak := by
      unfold State.controlIn
      simp only [hears, bad, Bool.not_true, Bool.false_eq_true, if_false, if_true]
    rw [e, State.beside, refused]
    rfl

/-! ### The link itself (R354, R361, R425) -/

/-- An event that a module has while it runs or recovers. -/
theorem State.whileHosted_eq {s : State} (h : s.phase = .running ∨ s.phase = .recovery) (f : State → State) :
    s.whileHosted f = .next { f s with issue := s.issue } := by
  unfold State.whileHosted State.beside
  rcases h with h | h <;> simp [h]

theorem getD_mod_mem {α : Type} {l : List α} (h : l ≠ []) (n : Nat) (a : α) : l.getD (n % l.length) a ∈ l := by
  have inside : n % l.length < l.length := Nat.mod_lt n (List.length_pos_iff.mpr h)
  rw [List.getD_eq_getElem?_getD, List.getElem?_eq_getElem inside, Option.getD_some]
  exact List.getElem_mem inside

theorem hostRates_eq (p : Phase) : hostRates p = if p = .recovery then [400] else [400, 800, 1600] := by
  unfold hostRates
  simp only [beq_iff_eq]

theorem hostRates_ne_nil (p : Phase) : hostRates p ≠ [] := by
  unfold hostRates
  split <;> exact List.cons_ne_nil _ _

/-- A link that comes up has one of the rates of its phase, and starts both orders afresh. -/
theorem State.hostBringup_down {s : State} (down : s.host.up = false) :
    ∃ rate ∈ hostRates s.phase, s.hostBringup =
      let u := s.fresh.2
      let h := { s.host with up := true, lost := false, rate := rate, sendSeq := 1, expect := 1, anyIn := false, anyOut := false, next := 0
                             unacked := [], heldIn := [], credits := deviceRings.foldl (fun (t : Tab Nat) r => t.set r (ringDepth r)) [], lastAck := s.time }
      State.pumpAll (if s.host.resync then State.control { u with host := h } 0x0A 0xFFFF h.resyncArg else { u with host := h }) := by
  refine ⟨_, getD_mod_mem (hostRates_ne_nil s.phase) s.fresh.1 400, ?_⟩
  exact if_neg (by rw [down]; exact Bool.false_ne_true)

theorem State.hostRetransmit_due {s : State} {a : Nat} {y : Msg} {r : List (Nat × Msg)} (first : s.host.unacked = (a, y) :: r)
    (due : max s.host.lastAck a + 500 * usTicks ≤ s.time) : s.hostRetransmit = s.sendAgain fun x => decide (x.seq = y.seq) := by
  unfold State.hostRetransmit
  rw [first]
  exact if_pos due

theorem State.hostLinkLost_due {s : State} (up : s.host.up = true) (some_ : s.host.unacked ≠ [])
    (late : s.host.lastAck + 100 * msTicks ≤ s.time) : s.hostLinkLost = s.hostLoss := by
  unfold State.hostLinkLost
  simp [up, some_, late]

/-! ### The order of messages (R357) -/

section Order
variable {s : State} {x : HostIn} (hears : s.hears = true)
include hears

theorem State.hostIn_headBad (bad : headBad x.m = true) : s.hostIn x = if x.i = 0 then s.sendNak else s := by
  unfold State.hostIn
  simp only [hears, bad, Bool.not_true, Bool.false_eq_true, if_false, if_true]

/-- An entry out of order is held where it comes early, and is passed over where it has been. -/
theorem State.hostIn_outOfOrder (well : headBad x.m = false)
    (order : ¬ (x.m.seq = (s.takeHead x.m).host.current ∧ x.i = (s.takeHead x.m).host.next)) :
    let v := s.takeHead x.m
    let ahead := (x.m.seq + 2 ^ 32 - v.host.expect) % 2 ^ 32
    s.hostIn x = if ahead ≤ 255 ∧ (ahead ≠ 0 ∨ v.host.next ≠ 0) then
        let held := fun i : Nat => v.host.heldIn.any fun y => decide (y.m.seq = x.m.seq ∧ y.i = i)
        let barred := if x.i = 0 then v.refusedWhole x else !held 0 && decide (x.m.seq ≠ v.host.current)
        let w : State := if held x.i || barred then v else { v with host := { v.host with heldIn := v.host.heldIn ++ [x] } }
        if x.i = 0 then w.sendNak else w
      else if x.i = 0 then v.sendKeepalive 0xFFFF else v := by
  unfold State.hostIn
  simp only [hears, well, Bool.not_true, Bool.false_eq_true, if_false, if_neg order]

/-- The message whose turn it is, but which is refused whole. -/
theorem State.hostIn_refused (well : headBad x.m = false) (seq : x.m.seq = (s.takeHead x.m).host.current)
    (entry : x.i = (s.takeHead x.m).host.next) (first : x.i = 0) (refused : (s.takeHead x.m).refusedWhole x = true) :
    s.hostIn x = (s.takeHead x.m).sendNak := by
  unfold State.hostIn
  simp only [hears, well, Bool.not_true, Bool.false_eq_true, if_false, if_pos (And.intro seq entry), if_pos (And.intro first refused)]

end Order

/-- Settles O53: each message and each event by its equation above, then the order of messages. -/
theorem hostMessages : Obligations.HostMessages := by
  refine ⟨fun m call lo hi vals c core n => ?reply, fun m core words ctl => ?mailbox, fun m ctx va bytes e at_ d y => ?page,
    fun m ctx va bytes e at_ => ?assistedPage, fun m ctx va own e at_ => ?own, fun m ctx va e at_ y => ?ownArrives,
    fun m ctx va e at_ y => ?ownReturns, fun m ctx va e at_ => ?request, fun m first => ?nak, fun m accepted sent oldest => ?resync,
    fun m accepted sent oldest => ?resyncReply, fun m => ?keepalive, fun s hosted down => ?bringup, fun s a y r hosted first due => ?retransmit,
    fun s hosted up some_ late => ?lost, fun s x hears => ⟨State.hostIn_headBad hears, State.hostIn_outOfOrder hears, State.hostIn_refused hears⟩⟩
  case reply =>
    exact tells (g := fun u => u.syscallReply call lo hi vals) (fun _ => rfl) (fun _ => rfl) fun u ⟨hc, at_⟩ =>
      State.syscallReply_resident hc at_ lo hi vals
  case mailbox => exact tells (g := fun u => u.mailboxIn core words) (fun _ => rfl) (fun _ => rfl) fun _ _ => if_pos ctl
  case page =>
    exact tells (g := fun u => u.pageMessage ctx va bytes) (fun _ => rfl) (fun _ => rfl) fun u ⟨page, moving⟩ =>
      State.pageMessage_inbound page moving bytes
  case assistedPage =>
    exact tells (g := fun u => u.pageMessage ctx va bytes) (fun _ => rfl) (fun _ => rfl) fun u ⟨page, still, mode⟩ =>
      State.pageMessage_assisted page still mode bytes
  case own =>
    exact tells (g := fun u => u.ownMessage ctx va own) (fun _ => rfl) (fun _ => rfl) fun u ⟨page, still⟩ => State.ownMessage_still page still
  case ownArrives =>
    exact tells (g := fun u => u.ownMessage ctx va false) (fun _ => rfl) (fun _ => rfl) fun u ⟨page, moving, inwards, assisted⟩ =>
      State.ownMessage_arrives page moving inwards assisted
  case ownReturns =>
    exact tells (g := fun u => u.ownMessage ctx va false) (fun _ => rfl) (fun _ => rfl) fun u ⟨page, moving, outwards⟩ =>
      State.ownMessage_returns page moving outwards
  case request =>
    exact tells (g := fun u => u.hostWants ctx va) (fun _ => rfl) (fun _ => rfl) fun u page => State.hostWants_shared page
  case nak => exact controls (fun _ => rfl) fun _ _ => rfl
  case resync =>
    refine controls (fun _ => rfl) fun u covered => if_neg ?_
    rintro ⟨nonzero, gap⟩
    simp [covered.resolve_left nonzero] at gap
  case resyncReply =>
    refine controls (fun _ => rfl) fun u covered => if_neg ?_
    rcases covered with h | h <;> simp [h]
  case keepalive => exact controls (g := id) (fun _ => rfl) fun _ _ => rfl
  case bringup =>
    obtain ⟨rate, mem, up⟩ := State.hostBringup_down down
    exact ⟨rate, hostRates_eq s.phase ▸ mem, (State.whileHosted_eq hosted _).trans (congrArg _ (issue_congr up))⟩
  case retransmit =>
    exact (State.whileHosted_eq hosted _).trans (congrArg _ (issue_congr (State.hostRetransmit_due first due)))
  case lost =>
    exact (State.whileHosted_eq hosted _).trans (congrArg _ (issue_congr (State.hostLinkLost_due up some_ late)))

end Sys2Proof.Machine
end

section
/-! Fences, phases and the instructions that wait for commands and code (R158, R160, R168, R170, R243, R258 to R260): each passes,
or holds its active threads while the others of its group pass. -/

namespace Sys2Proof.Machine

/-! ### Groups that pass or wait -/

/-- The group has left the lane in a state of which `R` holds. -/
def State.Ends (t : State) (R : State → Prop) : Prop := t.issue = none ∧ R t

/-- An instruction ends as its effect on the group in the lane does. -/
theorem exec_of_ends {s : State} {G : Grp} {i : Instr} {f : Grp → State} {R : State → Prop} (h : InLane s G)
    (runs : exec i s = s.withGroup f) (ends : (f G).Ends R) : ∃ t, exec i s = .next t ∧ R t :=
  ⟨f G, runs.trans (withGroup_next h f ends.1), ends.2⟩

/-- A choice of the instruction that is also the statement's. -/
theorem State.ends_ite {c d : Prop} [Decidable c] [Decidable d] {t u : State} {P Q : State → Prop} (same : c ↔ d)
    (yes : d → t.Ends P) (no : ¬ d → u.Ends Q) : (if c then t else u).Ends fun v => if d then P v else Q v := by
  by_cases h : d
  · simp only [if_pos (same.mpr h), if_pos h]
    exact yes h
  · simp only [if_neg fun k => h (same.mp k), if_neg h]
    exact no h

/-- The active threads wait for `w`, and the others of the group pass. -/
theorem moved_waitOrPass {s u : State} {G : Grp} {x : LaneI} (r : Runs s G x) (w : Wait) :
    Moved u (u.waitOrPass G x (G.active x) (some w) G.cs) G fun j a => if j ∈ G.active x then { a with wait := w } else a.complete x.len :=
  moved_hold r (fun _ a => { a with wait := w }) _ _

/-- A group passes over a state that has kept its course. -/
theorem passed_of_course? {s u : State} {G : Grp} {x : LaneI} (r : Runs s G x) (kept : u.course? G.g.core G.g.course = some G.cs) :
    Passed u (u.finish G x G.cs) G x.len := ⟨G.cs, kept, movedAs_pass r G.cs rfl⟩

/-! ### What an invalidation keeps -/

@[simp] theorem State.course?_invalLane (s : State) (core k n : Nat) : (s.invalLane core).course? k n = s.course? k n :=
  course?_modCore (s.staleLoads core fun _ => true) core (fun c => { c with lcache := [] }) (fun _ => rfl) k n

@[simp] theorem State.course?_invalCode (s : State) (core ctx lo size k n : Nat) :
    (s.invalCode core ctx lo size).course? k n = s.course? k n := by
  unfold State.invalCode
  split
  · rfl
  · split <;> exact course?_modCore s core _ (by intro; rfl) k n

/-- Invalidations of code, one after the other, keep every course. -/
theorem State.course?_foldl_invalCode (core ctx : Nat) (lo size : Nat → Nat) (l : List Nat) (s : State) (k n : Nat) :
    (l.foldl (fun s j => s.invalCode core ctx (lo j) (size j)) s).course? k n = s.course? k n := by
  induction l generalizing s with
  | nil => rfl
  | cons j l ih => rw [List.foldl_cons, ih, State.course?_invalCode]

/-- The acquire of a class changes no thread of its course. -/
theorem State.acquireClass_threads {s : State} {core course : Nat} {c : Course} (hc : s.course? core course = some c) (cls : Nat) :
    ∃ d, (s.acquireClass core course cls).course? core course = some d ∧ d.threads = c.threads := by
  unfold State.acquireClass
  rw [hc]
  dsimp only
  split
  · have kept := (State.course?_invalLane s core core course).trans hc
    exact ⟨_, (State.course?_modCourse _ _ _ _ _ _).trans ((if_pos ⟨rfl, rfl⟩).trans (congrArg (Option.map _) kept)), rfl⟩
  · exact ⟨c, hc, rfl⟩

/-! ### Ordering -/

/-- Recording lost destinations changes no thread of a course. -/
theorem threads_ite_recordLost (p : Prop) [Decidable p] (c : Course) : (if p then c.recordLost else c).threads = c.threads :=
  (apply_ite Course.threads p _ _).trans (ite_self _)

/-- Settles O38: every fence is an `opFence`, which ends in one of four ways: with nothing to order, as a release, with nothing to
wait for, or with its threads held. -/
theorem fences : Obligations.Fences := by
  unfold Obligations.Fences
  intro fence
  have of_opFence {i h k named} (runs : ∀ s, exec i s = opFence h k named s) : fence i h k named := by
    intro s G l core scope ws pod u inval marked r
    refine exec_of_ends r.lane (runs s) ?_
    rw [r.ok]
    dsimp -zeta only
    -- what the instruction says as a conjunction of Booleans, the statement says as one of propositions
    extract_lets +lift _ _ _ _ u' inval' _
    have due : u' = u :=
      ite_congr (propext (Bool.and_eq_true_iff.trans (and_congr_right fun _ => decide_eq_true_iff))) (fun _ => rfl) fun _ => rfl
    have drops : inval' = inval := (Bool.decide_and ..).symm
    have ord : u.nextOrd = s.nextOrd := (apply_ite State.nextOrd _ _ _).trans (ite_self _)
    have kept : marked.threads = G.cs.threads := threads_ite_recordLost _ _
    rw [due, drops, ord]
    refine State.ends_ite (or_congr_right List.isEmpty_iff) (fun _ => ⟨rfl, movedAs_pass r _ rfl⟩) fun _ => ?_
    refine State.ends_ite Iff.rfl (fun _ => ⟨rfl, movedAs_finish r marked kept _⟩) fun _ => ?_
    exact State.ends_ite List.isEmpty_iff (fun _ => ⟨rfl, movedAs_pass r marked kept⟩) fun _ => ⟨rfl, moved_waitOrPass r _⟩
  exact ⟨fun _ => of_opFence fun _ => rfl, fun _ => of_opFence fun _ => rfl, fun _ => of_opFence fun _ => rfl,
    fun _ => of_opFence fun _ => rfl⟩

/-- Settles O39: each instruction passes where nothing is to wait for, ends a wait that is over at once, or holds its threads. -/
theorem waits : Obligations.Waits := by
  unfold Obligations.Waits
  refine ⟨?phase, ?waitn, ?fetchb, ?icinv⟩
  case phase =>
    intro x s G l core scope ws u r
    refine exec_of_ends r.lane rfl ?_
    rw [r.ok]
    refine State.ends_ite (or_congr_right List.isEmpty_iff) (fun _ => ⟨rfl, movedAs_pass r _ rfl⟩) fun _ => ?_
    refine State.ends_ite (and_congr List.isEmpty_iff Option.isNone_iff_eq_none) (fun _ => ⟨rfl, ?_⟩) fun _ => ?_
    · exact movedAs_pass r _ (threads_ite_recordLost _ _)
    · exact ⟨rfl, moved_waitOrPass r _⟩
  case waitn =>
    intro waitn
    have of_opWaitn {i len x} (runs : ∀ s, exec i s = opWaitn len x s) : waitn i len x := by
      intro s G l k n r
      refine exec_of_ends r.lane (runs s) ?_
      rw [r.ok]
      refine State.ends_ite (or_congr_left List.isEmpty_iff) (fun _ => ⟨rfl, movedAs_pass r _ rfl⟩) fun _ => ?_
      refine State.ends_ite Iff.rfl (fun _ => ⟨rfl, ?_⟩) fun _ => ⟨rfl, moved_waitOrPass r _⟩
      obtain ⟨c, course, threads⟩ := State.acquireClass_threads r.lane.course k
      exact passed_finish r course threads
    exact ⟨fun _ => of_opWaitn fun _ => rfl, fun _ => of_opWaitn fun _ => rfl⟩
  case fetchb =>
    intro x s G l ws r
    refine exec_of_ends r.lane rfl ?_
    rw [r.ok]
    refine State.ends_ite List.isEmpty_iff (fun _ => ⟨rfl, movedAs_pass r _ rfl⟩) fun _ => ?_
    exact State.ends_ite Iff.rfl (fun _ => ⟨rfl, movedAs_pass r G.cs.dropCode rfl⟩) fun _ => ⟨rfl, moved_waitOrPass r _⟩
  case icinv =>
    intro icinv
    have of_opIcinv {i len x} (runs : ∀ s, exec i s = opIcinv len x s) : icinv i len x := by
      intro s G l ws lo size r
      refine exec_of_ends r.lane (runs s) ?_
      rw [r.ok]
      refine State.ends_ite (or_congr_left List.isEmpty_iff) (fun _ => ⟨rfl, passed_of_course? r ?_⟩) fun _ => ⟨rfl, moved_hold r _ _ _⟩
      exact (State.course?_foldl_invalCode ..).trans r.lane.course
    exact ⟨fun _ => of_opIcinv fun _ => rfl, fun _ => of_opIcinv fun _ => rfl⟩

end Sys2Proof.Machine
end

section
/-! The decoder on what the encoder gives: every well-formed instruction is read back (R172 to R187), and so are words written
out from the tables. -/

namespace Sys2Proof.Laws.RoundTrip

/-- The decoder reads every instruction back: the statement of each constructor is the lemma of its name. -/
theorem decodeBits_encode (i : Instr) : Statement i :=
  Instr.rec (motive := Statement)
    issueGroupSelection fixedLatencyResult convergenceRelease barrierCompletion barrierTimeout convergenceTimeout yieldExpiry
    courseWake trapDelivery taskDispatch dispatchReservation stealRequest stealShipment shipmentArrival taskEnd overflowRecord
    preempt preemptSave guardSlotHeadCheck kChunk writeBack copyTransfer accExecute commandRetire homeAccessPerform sectorFill
    missStatusAllocate loadReturn hodDrain hodAgeLimit phaseComplete fenceComplete releaseStoreProceed waitnComplete
    icinvComplete fetchbComplete cresizeComplete migrationStart migrationDeparture remotePacketArrival acknowledgementArrival
    closedVectorUpdate refusalArrival restartRefusal retransmission destinationLost allowanceCollapse expressStarvationToken
    tierStarvationGrant linkTraining flitCrcReplay linkRetrain portUp ringCheck ringCheckAnswer ringSetupTimeout chunkStart
    partialArrival resultArrival throttleRequest throttleStepUp hostLinkBringup launch release writeMemory readMemory
    queueControl routeEntry ringSetup bindResult trapResume codeTable attest ringBind syscallReply mailboxMessage pageMessage
    ownMessage nak resync resyncReply keepalive hostRetransmit hostLinkLost codeTableEntryJump hardwareBind dbgctlHalt
    dbgctlUnhalt dbgctlStep ilenWrite mailboxSend dutyWrite registerWrite boot sensorSample throttleRepeat refreshBandEvaluation
    telemetryRecord thermalTrip moduleReboot scrub hostMigrationRequest restartAnnouncement partialCreditReturn walkComplete
    divideResult chunkPeerLostTimeout movC iaddC isubC imulC andC orC xorC shlC shrNC shrIC faddC fsubC fmulC fmaxC fminC
    iaddi5C nopC iadd iaddL isub isubL imul imulL imulhI imulhIL imulhN imulhNL imac imacL iminI iminIL iminN iminNL imaxI
    imaxIL imaxN imaxNL iabsd iabsdL and andL or orL xor xorL andn andnL mov movL shl shlL shrN shrNL shrI shrIL clz clzL popc
    popcL bfxN bfxNL bfxI bfxIL bfi bfiL perm permL icmpEq icmpEqL icmpNe icmpNeL icmpLtI icmpLtIL icmpLeI icmpLeIL icmpLtN
    icmpLtNL icmpLeN icmpLeNL qlopAnd qlopOr qlopXor qlopAndn ladd laddL lsub lsubL lmul lmulL lmac lmacL lshl lshlL lshrN
    lshrNL lshrI lshrIL lextI lextIL lextN lextNL lcmpEq lcmpEqL lcmpNe lcmpNeL lcmpLtI lcmpLtIL lcmpLtN lcmpLtNL lea2 lea2L
    lea3 lea3L lea4 lea4L fadd faddL fsub fsubL fmul fmulL ffma ffmaL fmin fminL fmax fmaxL fcmpEq fcmpEqL fcmpNe fcmpNeL fcmpLt
    fcmpLtL fcmpLe fcmpLeL fsfu fsfuL hadd2F16 hadd2F16L hmul2F16 hmul2F16L hfma2F16 hfma2F16L hfma2Bf16 hfma2Bf16L hadd2Bf16
    hadd2Bf16L cvt cvtL cvtp cvtpL iaddi iaddiL andi andiL ori oriL xori xoriL shli shliL shriN shriNL shriI shriIL movi moviL
    movhi movhiL icmpiEq icmpiEqL icmpiLtI icmpiLtIL fmovi fmoviL ld ldL st stL atomAdd atomAddL atomFadd atomFaddL atomMin
    atomMinL atomMax atomMaxL atomAnd atomAndL atomOr atomOrL atomXor atomXorL atomExch atomExchL atomCas atomCasL fenceFull
    fenceAcq fenceRel fenceWack phase fetchb copInv copInvL copWb copWbL copWbi copWbiL bra braL brx brxL call callL callx
    callxL ret exit loop loopL brk lcfg cnv cnvMask bar trap sysc bkpt balw yield mapset mapchn mapprt maptrn mapflt mapchk
    bankq hset tcpy tmma tgat tcol tld tst accZero accZeroL accSetexp accSetexpL accRdrow accRdrowL accWrrow accWrrowL accClrst
    accClrstL nop nopL idivI idivIL idivN idivNL iremI iremIL iremN iremNL rotl rotlL brev brevL fcmpOrd fcmpOrdL fcmpUnord
    fcmpUnordL fclass fclassL frnd frndL fexp fexpL q2v q2vL v2q v2qL qpop qpopL pfirst pfirstL pany panyL pall pallL pmask
    pmaskL xgetAt xgetAtL xgetFlip xgetFlipL xgetStep xgetStepL xgetRot xgetRotL cnvq cnvqL waitn waitnL setg setgL clrg clrgL
    alw alwL mapget mapgetL mapput mapputL hget hgetL lget lgetL lput lputL csrr csrrL csrw csrwL csrs csrsL csrc csrcL tret
    tretL halt haltL icinv icinvL tlbinvPage tlbinvPageL tlbinvCtx tlbinvAll tlbprobe tlbprobeL cresize cresizeL migDev migDevL
    migHost pf pfL tspawn tspawnL tsig tsigL evpost evpostL evget evgetL dbgmb dbgmbL dbgrd dbgrdL wpset wpsetL i

end Sys2Proof.Laws.RoundTrip

namespace Sys2Proof

/-- An encoding has 16, 32 or 64 bits, and an event has none (R172): the size stands first in each row of the encoder. -/
theorem encode_size (i : Instr) : (encode i).1 ∈ [0, 16, 32, 64] := by
  cases i <;> exact List.elem_iff.mp rfl

/-- Settles O55: the bits by the sizes that the encoder gives, the decoding by the lemma of each constructor. -/
theorem decodeOfEncode : Obligations.DecodeOfEncode := by
  unfold Obligations.DecodeOfEncode
  intro i wf encodes
  refine ⟨?_, Laws.RoundTrip.decodeBits_encode i wf encodes⟩
  have size := encode_size i
  simp only [List.mem_cons, List.not_mem_nil, or_false] at size
  exact size.resolve_left encodes

/-- A word that is the encoding of a well-formed instruction decodes to it. -/
theorem decodeBits_of_encode {i : Instr} {x : Nat} (wf : i.wellFormed = true) (encodes : (encode i).1 ≠ 0) (hx : (encode i).2 = x) :
    decodeBits x = .ok i := by
  have read := Laws.RoundTrip.decodeBits_encode i wf encodes 0
  rwa [Nat.mul_zero, Nat.add_zero, hx] at read

/-- Bits of no operation are illegal (R187). -/
theorem decodeBits_of_opBits_none {x : Nat} (h : opBits x = none) : decodeBits x = .error .illegal := by
  simp only [decodeBits, h]

/-- A reserved guard is reported where the fields are right (R187). -/
theorem decodeBits_of_guard {x w v : Nat} {o : Op} (h : opBits x = some (o, w, v)) (fields : (ofOp o w v).fieldsOk = true)
    (guard : (ofOp o w v).guardOk = false) : decodeBits x = .error .reservedGuard := by
  simp [decodeBits, h, fields, guard]

/-- Settles O56: each word is the encoding of its instruction, but for one of a reserved opcode and two of reserved guards. -/
theorem decodingOfWords : Obligations.DecodingOfWords := by
  unfold Obligations.DecodingOfWords
  dsimp only
  refine ⟨?_, ?_, ?_, ?_, ?_, ?_, ?_, ?_, ?_, ?_, ?_, ?_, ?_, ?_, ?_, ?_, ?_, ?opcode, ?guard12, ?sense⟩
  case opcode => exact decodeBits_of_opBits_none rfl
  case guard12 => exact decodeBits_of_guard (o := .iadd) rfl rfl rfl
  case sense => exact decodeBits_of_guard (o := .iadd) rfl rfl rfl
  all_goals exact decodeBits_of_encode rfl (by decide) (by decide)

end Sys2Proof
end

section
/-! The compact instructions (R181): each is the driver of one result, with its value written on the low halves of the
registers. -/

namespace Sys2Proof.Machine

/-! ### Values of width 32 as words -/

/-- Under no modifier, an operation that wraps like words of 32 bits is the operation on the low halves. -/
theorem intVal_of_ofInt {f : Int → Int → Int} {g : W32 → W32 → W32}
    (wraps : ∀ x y, BitVec.ofInt 32 (f x y) = g (BitVec.ofInt 32 x) (BitVec.ofInt 32 y)) (a b : Word) :
    intVal .bySat 32 f .zero a b = zext32 (g (low32 a) (low32 b)) := by
  rw [intVal_zero32, wraps, readInt_zero, readInt_zero, asInt32, asInt32, BitVec.ofInt_toInt, BitVec.ofInt_toInt]

theorem ofInt_sub {w : Nat} (x y : Int) : BitVec.ofInt w (x - y) = BitVec.ofInt w x - BitVec.ofInt w y := by
  rw [Int.sub_eq_add_neg, BitVec.ofInt_add, BitVec.ofInt_neg, BitVec.sub_eq_add_neg]

/-- A constant that is sign-extended to a register has that sign in its low half. -/
theorem low32_signExtend {w : Nat} (n : BitVec w) : low32 (n.signExtend 64) = n.signExtend 32 :=
  BitVec.eq_of_getLsbD_eq fun i hi => by
    simp only [low32, BitVec.getLsbD_setWidth, BitVec.getLsbD_signExtend]; grind

theorem asNat32_toNat (a : Word) : asNat 32 a = (low32 a).toNat := Int.ofNat_inj.mp (asNat32 a)

theorem shlBy_eq (a : Word) (n : Nat) : shlBy 32 a n = zext32 (low32 a <<< n) := by
  unfold shlBy
  split
  · rw [asNat32_toNat, ← Nat.shiftLeft_eq, ← BitVec.toNat_shiftLeft]
    exact BitVec.ofNat_toNat ..
  · next h => rw [BitVec.shiftLeft_eq_zero (Nat.le_of_not_lt h)]; rfl

theorem shrNBy_eq (a : Word) (n : Nat) : shrNBy 32 a n = zext32 (low32 a >>> n) := by
  unfold shrNBy
  split
  · rw [asNat32_toNat, ← Nat.shiftRight_eq_div_pow, ← BitVec.toNat_ushiftRight]
    exact BitVec.ofNat_toNat ..
  · next h => rw [BitVec.ushiftRight_eq_zero (Nat.le_of_not_lt h)]; rfl

/-- From a count of the width less one on, every bit is the sign (R199). -/
theorem sshiftRight_min (x : W32) (n : Nat) : x.sshiftRight (min n 31) = x.sshiftRight n := by
  refine BitVec.eq_of_getLsbD_eq fun i hi => ?_
  simp only [BitVec.getLsbD_sshiftRight, BitVec.msb_eq_getLsbD_last]
  grind

theorem shrIBy_eq (a : Word) (n : Nat) : shrIBy 32 a n = zext32 ((low32 a).sshiftRight n) := by
  unfold shrIBy
  have quotient : (low32 a).toInt / 2 ^ min n 31 = ((low32 a).sshiftRight (min n 31)).toInt := by
    rw [BitVec.toInt_sshiftRight, Int.shiftRight_eq_div_pow, Int.natCast_pow, Int.cast_ofNat_Int]
  rw [ofNat_emod32, asInt32, quotient, BitVec.ofInt_toInt, sshiftRight_min]

/-! ### The instructions -/

/-- Settles O13: every instruction is the driver of one result; the integer ones by their values as words, shifts by a
register's low 32 bits, the floating ones as they stand. -/
theorem compact : Obligations.Compact := by
  unfold Obligations.Compact
  refine ⟨?mov, ?iadd, ?isub, ?imul, ?and, ?or, ?xor, ?shl, ?shrN, ?shrI, ?fadd, ?fsub, ?fmul, ?fmax, ?fmin, ?iaddi5⟩
  case mov => exact fun _ => computes_alu (fun _ => rfl) nofun
  case iadd => exact gives_opC (fun _ _ => rfl) (intVal_of_ofInt BitVec.ofInt_add)
  case isub => exact gives_opC (fun _ _ => rfl) (intVal_of_ofInt ofInt_sub)
  case imul => exact gives_opC (fun _ _ => rfl) (intVal_of_ofInt BitVec.ofInt_mul)
  case and => exact gives_opC (fun _ _ => rfl) fun _ _ => rfl
  case or => exact gives_opC (fun _ _ => rfl) fun _ _ => rfl
  case xor => exact gives_opC (fun _ _ => rfl) fun _ _ => rfl
  case shl => exact gives_opC (fun _ _ => rfl) fun d a => asNat32_toNat a ▸ shlBy_eq d _
  case shrN => exact gives_opC (fun _ _ => rfl) fun d a => asNat32_toNat a ▸ shrNBy_eq d _
  case shrI => exact gives_opC (fun _ _ => rfl) fun d a => asNat32_toNat a ▸ shrIBy_eq d _
  case fadd => exact gives_opC (fun _ _ => rfl) fun _ _ => rfl
  case fsub => exact gives_opC (fun _ _ => rfl) fun _ _ => rfl
  case fmul => exact gives_opC (fun _ _ => rfl) fun _ _ => rfl
  case fmax => exact gives_opC (fun _ _ => rfl) fun _ _ => rfl
  case fmin => exact gives_opC (fun _ _ => rfl) fun _ _ => rfl
  case iaddi5 =>
    intro x
    refine computes_congr (f := fun rd => intVal .bySat 32 (· + ·) .zero (rd (.v x.d)) (x.i.signExtend 64))
      (computes_alu (fun _ => rfl) nofun) fun rd => ?_
    rw [intVal_of_ofInt BitVec.ofInt_add, low32_signExtend]

end Sys2Proof.Machine
end

section
/-! Integer arithmetic (R197): with no modifier each form is the operation on words; with modifiers it is the exact one that
`finishInt` ends. -/

namespace Sys2Proof.Machine

/-! ### Values as words -/

/-- Under no modifier, an operation that wraps like words of 64 bits is the operation on the registers. -/
theorem intVal_of_ofInt64 {f : Int → Int → Int} {g : Word → Word → Word}
    (wraps : ∀ x y, BitVec.ofInt 64 (f x y) = g (BitVec.ofInt 64 x) (BitVec.ofInt 64 y)) (a b : Word) :
    intVal .bySat 64 f .zero a b = g a b := by
  rw [intVal_zero64, wraps, readInt_zero, readInt_zero, asInt64, asInt64, BitVec.ofInt_toInt, BitVec.ofInt_toInt]

theorem macVal_zero (w : Nat) (a b c : Word) :
    macVal w .zero a b c = BitVec.ofNat 64 ((asInt w a * asInt w b + asInt w c) % 2 ^ w).toNat := rfl

theorem macVal_zero32 (a b c : Word) : macVal 32 .zero a b c = zext32 (low32 a * low32 b + low32 c) := by
  simp only [macVal_zero, ofNat_emod32, asInt32, BitVec.ofInt_add, BitVec.ofInt_mul, BitVec.ofInt_toInt]

theorem macVal_zero64 (a b c : Word) : macVal 64 .zero a b c = a * b + c := by
  simp only [macVal_zero, ofNat_emod64, asInt64, BitVec.ofInt_add, BitVec.ofInt_mul, BitVec.ofInt_toInt]

/-- A result that is a natural number ends as that number modulo the width. -/
theorem finishInt_natCast (w n : Nat) : finishInt w .zero n = BitVec.ofNat 64 (n % 2 ^ w) := by
  rw [finishInt_zero]
  exact_mod_cast congrArg (BitVec.ofNat 64) (Int.toNat_natCast (n % 2 ^ w))

/-- The high half of a product of unsigned numbers of 32 bits is itself of 32 bits. -/
theorem imulhN_zero (a b : Word) :
    intVal .unsigned 32 highHalf .zero a b = BitVec.ofNat 64 ((low32 a).toNat * (low32 b).toNat / 2 ^ 32) := by
  have half : (low32 a).toNat * (low32 b).toNat / 2 ^ 32 < 2 ^ 32 :=
    Nat.div_lt_of_lt_mul (Nat.mul_lt_mul'' (low32 a).isLt (low32 b).isLt)
  rw [← Nat.mod_eq_of_lt half, ← finishInt_natCast, ← asNat32_toNat, ← asNat32_toNat]
  exact congrArg (finishInt 32 .zero) (by simp [readInt, modInt, highHalf, Modifier.zero])

/-- Settles O1: every form is the driver of one result under no modifier, and its value is the one written on words. -/
theorem integerArithmetic : Obligations.IntegerArithmetic := by
  unfold Obligations.IntegerArithmetic
  refine ⟨?iadd, ?isub, ?imul, ?imulhI, ?imulhN, ?imac, ?iminI, ?iminN, ?imaxI, ?imaxN, ?iabsd, ?ladd, ?lsub, ?lmul, ?lmac⟩
  case iadd => exact gives_opR (fun _ _ => rfl) (intVal_of_ofInt BitVec.ofInt_add)
  case isub => exact gives_opR (fun _ _ => rfl) (intVal_of_ofInt ofInt_sub)
  case imul => exact gives_opR (fun _ _ => rfl) (intVal_of_ofInt BitVec.ofInt_mul)
  case imulhI => exact gives_opR (fun _ _ => rfl) (intVal_zero32 .signed highHalf)
  case imulhN => exact gives_opR (fun _ _ => rfl) imulhN_zero
  case imac => exact gives_opMac (fun _ _ => rfl) macVal_zero32
  case iminI =>
    exact gives_opR (fun _ _ => rfl) fun a b => (intVal_zero32 .signed min a b).trans (congrArg zext32 (ofInt_toInt_min ..))
  case iminN =>
    refine gives_opR (fun _ _ => rfl) fun a b => (intVal_zero32 .unsigned min a b).trans ?_
    rw [readInt, readInt, asNat32, asNat32, ofInt_toNat_min]
  case imaxI =>
    exact gives_opR (fun _ _ => rfl) fun a b => (intVal_zero32 .signed max a b).trans (congrArg zext32 (ofInt_toInt_max ..))
  case imaxN =>
    refine gives_opR (fun _ _ => rfl) fun a b => (intVal_zero32 .unsigned max a b).trans ?_
    rw [readInt, readInt, asNat32, asNat32, ofInt_toNat_max]
  case iabsd => exact gives_opR (fun _ _ => rfl) fun a b => finishInt_natCast 32 ((low32 a).toInt - (low32 b).toInt).natAbs
  case ladd => exact gives_opR (fun _ _ => rfl) (intVal_of_ofInt64 BitVec.ofInt_add)
  case lsub => exact gives_opR (fun _ _ => rfl) (intVal_of_ofInt64 ofInt_sub)
  case lmul => exact gives_opR (fun _ _ => rfl) (intVal_of_ofInt64 BitVec.ofInt_mul)
  case lmac => exact gives_opMac (fun _ _ => rfl) macVal_zero64

/-- Settles O2: every form is the driver of one result, of the value that the statement writes. -/
theorem integerModified : Obligations.IntegerModified := by
  unfold Obligations.IntegerModified
  refine ⟨?iadd, ?isub, ?imul, ?imulhI, ?imulhN, ?imac, ?iminI, ?iminN, ?imaxI, ?imaxN, ?iabsd, ?ladd, ?lsub, ?lmul, ?lmac⟩
  case imac => exact gives_opMacM (fun _ _ => rfl) fun _ _ _ _ => rfl
  case lmac => exact gives_opMacM (fun _ _ => rfl) fun _ _ _ _ => rfl
  all_goals exact gives_opRm (fun _ _ => rfl) fun _ _ _ => rfl

end Sys2Proof.Machine
end

section
/-! Logic, shifts and bit fields (R198 to R201): their values as operations on words and as single bits. -/

namespace Sys2Proof.Machine

/-! ### Counts and scaled sums -/

theorem clzVal_eq (a : Word) : clzVal a = BitVec.ofNat 64 (low32 a).clz.toNat := by
  unfold clzVal
  rw [asNat32_toNat]
  by_cases h : low32 a = 0
  · rw [BitVec.clz_eq_iff_eq_zero.mpr h, h]
    rfl
  · have nonzero : (low32 a).toNat ≠ 0 := fun e => h (BitVec.eq_of_toNat_eq e)
    have low := BitVec.two_pow_sub_clz_le_toNat_of_ne_zero (by decide) h
    have high := BitVec.toNat_lt_two_pow_sub_clz (x := low32 a)
    have few : (low32 a).clz.toNat < 32 := BitVec.clz_lt_iff_ne_zero.mpr h
    have log : (low32 a).toNat.log2 = 31 - (low32 a).clz.toNat :=
      (Nat.log2_eq_iff nonzero).mpr ⟨low, by rwa [show 31 - (low32 a).clz.toNat + 1 = 32 - (low32 a).clz.toNat by omega]⟩
    rw [if_neg nonzero, log]
    congr 1
    omega

theorem cpopNatRec_eq_length {w : Nat} (x : BitVec w) (n : Nat) :
    x.cpopNatRec n 0 = ((List.range n).filter fun i => x.getLsbD i).length := by
  induction n with
  | zero => rfl
  | succ n ih =>
    rw [BitVec.cpopNatRec_succ, BitVec.cpopNatRec_eq, ih, List.range_succ, List.filter_append, List.length_append]
    cases h : x.getLsbD n <;> simp [h]

theorem popcVal_eq (a : Word) : popcVal a = BitVec.ofNat 64 (low32 a).cpop.toNat := by
  have bits : (List.range 32).filter (fun i => a.getLsbD i) = (List.range 32).filter fun i => (low32 a).getLsbD i :=
    List.filter_congr fun i hi => by simp [low32, List.mem_range.mp hi]
  rw [popcVal, bits, BitVec.toNat_cpop, cpopNatRec_eq_length]

theorem leaVal_two_pow (k : Nat) (m : Modifier) (a b : Word) : leaVal (2 ^ k) m a b = a + b <<< k := by
  have scale : BitVec.ofNat 64 (2 ^ k) = BitVec.twoPow 64 k := BitVec.eq_of_toNat_eq (by rw [BitVec.toNat_ofNat, BitVec.toNat_twoPow])
  rw [leaVal, BitVec.shiftLeft_eq_mul_twoPow, scale]

/-- Settles O4: every form is the driver of one result; logic and moves stand as written, counts and scaled sums by their
lemmas. -/
theorem logic : Obligations.Logic := by
  unfold Obligations.Logic
  refine ⟨?and, ?or, ?xor, ?andn, ?mov, ?clz, ?popc, ?lextI, ?lextN, ?lea2, ?lea3, ?lea4⟩
  case and => exact gives_both (fun _ _ => rfl) (fun _ _ => rfl) fun _ _ _ => rfl
  case or => exact gives_both (fun _ _ => rfl) (fun _ _ => rfl) fun _ _ _ => rfl
  case xor => exact gives_both (fun _ _ => rfl) (fun _ _ => rfl) fun _ _ _ => rfl
  case andn => exact gives_both (fun _ _ => rfl) (fun _ _ => rfl) fun _ _ _ => rfl
  case mov => exact gives_opU (f := fun a => zext32 (low32 a)) (fun _ _ => rfl) (fun _ _ => rfl) fun _ => rfl
  case clz => exact gives_opU (fun _ _ => rfl) (fun _ _ => rfl) clzVal_eq
  case popc => exact gives_opU (fun _ _ => rfl) (fun _ _ => rfl) popcVal_eq
  case lextI => exact gives_opU (fun _ _ => rfl) (fun _ _ => rfl) fun _ => rfl
  case lextN => exact gives_opU (f := fun a => zext32 (low32 a)) (fun _ _ => rfl) (fun _ _ => rfl) fun _ => rfl
  case lea2 => exact gives_both (fun _ _ => rfl) (fun _ _ => rfl) (leaVal_two_pow 2)
  case lea3 => exact gives_both (fun _ _ => rfl) (fun _ _ => rfl) (leaVal_two_pow 3)
  case lea4 => exact gives_both (fun _ _ => rfl) (fun _ _ => rfl) (leaVal_two_pow 4)

/-! ### Shifts -/

theorem shlBy64_eq (a : Word) (n : Nat) : shlBy 64 a n = a <<< n := by
  unfold shlBy
  split
  · rw [asNat64, ← Nat.shiftLeft_eq, ← BitVec.toNat_shiftLeft]
    exact BitVec.ofNat_toNat ..
  · next h => exact (BitVec.shiftLeft_eq_zero (Nat.le_of_not_lt h)).symm

theorem shrNBy64_eq (a : Word) (n : Nat) : shrNBy 64 a n = a >>> n := by
  unfold shrNBy
  split
  · rw [asNat64, ← Nat.shiftRight_eq_div_pow, ← BitVec.toNat_ushiftRight]
    exact BitVec.ofNat_toNat ..
  · next h => exact (BitVec.ushiftRight_eq_zero (Nat.le_of_not_lt h)).symm

/-- From a count of the width less one on, every bit is the sign (R199), at any width. -/
theorem sshiftRight_min_width {w : Nat} (x : BitVec w) (n : Nat) : x.sshiftRight (min n (w - 1)) = x.sshiftRight n := by
  refine BitVec.eq_of_getLsbD_eq fun i hi => ?_
  simp only [BitVec.getLsbD_sshiftRight, BitVec.msb_eq_getLsbD_last]
  grind

theorem shrIBy64_eq (a : Word) (n : Nat) : shrIBy 64 a n = a.sshiftRight n := by
  unfold shrIBy
  have quotient : a.toInt / 2 ^ min n 63 = (a.sshiftRight (min n 63)).toInt := by
    rw [BitVec.toInt_sshiftRight, Int.shiftRight_eq_div_pow, Int.natCast_pow, Int.cast_ofNat_Int]
  rw [ofNat_emod64, asInt64, quotient, BitVec.ofInt_toInt, sshiftRight_min_width]

/-- The count of a shift by a register is the low 32 bits of the register. -/
theorem shiftVal_eq {f g : Word → Nat → Word} (e : ∀ a n, f a n = g a n) (m : Modifier) (a b : Word) :
    shiftVal f m a b = g a (low32 b).toNat := by
  rw [shiftVal, asNat32_toNat, e]

/-- A shift by a constant: 6 bits of it count in either form (R213). -/
theorem gives_shiftI {i : Im → Instr} {j : Im64 → Instr} {f : Word → Nat → Word} {g : W32 → Nat → W32}
    (h : ∀ x s, exec (i x) s = opI 4 x.h x.a x.d (fun a => f a x.i.toNat) s)
    (k : ∀ x s, exec (j x) s = opI 8 x.h x.a x.d (fun a => f a (x.i.toNat % 64)) s) (e : ∀ a n, f a n = zext32 (g (low32 a) n)) :
    GivesI i (fun a n => zext32 (g (low32 a) n.toNat)) ∧ GivesI64 j fun a n => zext32 (g (low32 a) (n.toNat % 64)) :=
  ⟨gives_opI (f := fun a n => f a n.toNat) h fun _ _ => e _ _, gives_opI64 (f := fun a n => f a (n.toNat % 64)) k fun _ _ => e _ _⟩

/-- Settles O5: every form is the driver of one result whose value is the shift of words by the same count, at whatever count. -/
theorem shifts : Obligations.Shifts := by
  unfold Obligations.Shifts
  refine ⟨?shl, ?shrN, ?shrI, ?lshl, ?lshrN, ?lshrI, ?shlC, ?shrNC, ?shrIC, ?immediate⟩
  case shl => exact gives_both (fun _ _ => rfl) (fun _ _ => rfl) (shiftVal_eq shlBy_eq)
  case shrN => exact gives_both (fun _ _ => rfl) (fun _ _ => rfl) (shiftVal_eq shrNBy_eq)
  case shrI => exact gives_both (fun _ _ => rfl) (fun _ _ => rfl) (shiftVal_eq shrIBy_eq)
  case lshl => exact gives_both (fun _ _ => rfl) (fun _ _ => rfl) (shiftVal_eq shlBy64_eq)
  case lshrN => exact gives_both (fun _ _ => rfl) (fun _ _ => rfl) (shiftVal_eq shrNBy64_eq)
  case lshrI => exact gives_both (fun _ _ => rfl) (fun _ _ => rfl) (shiftVal_eq shrIBy64_eq)
  case shlC => exact gives_opC (fun _ _ => rfl) (shiftVal_eq shlBy_eq .zero)
  case shrNC => exact gives_opC (fun _ _ => rfl) (shiftVal_eq shrNBy_eq .zero)
  case shrIC => exact gives_opC (fun _ _ => rfl) (shiftVal_eq shrIBy_eq .zero)
  case immediate =>
    refine List.forall_mem_cons.mpr ⟨?shli, List.forall_mem_cons.mpr ⟨?shriN, List.forall_mem_singleton.mpr ?shriI⟩⟩
    case shli => exact gives_shiftI (fun _ _ => rfl) (fun _ _ => rfl) shlBy_eq
    case shriN => exact gives_shiftI (fun _ _ => rfl) (fun _ _ => rfl) shrNBy_eq
    case shriI => exact gives_shiftI (fun _ _ => rfl) (fun _ _ => rfl) shrIBy_eq

/-! ### Bit fields -/

theorem fieldLen_le (b : Word) : fieldLen b ≤ 32 := Nat.min_le_right ..

theorem testBit_asNat32 (a : Word) (i : Nat) : (asNat 32 a).testBit i = (low32 a).getLsbD i := by
  rw [asNat32_toNat, BitVec.testBit_toNat]

/-- Bit i of a field is bit p + i of a, up to the field's length (R200). -/
theorem testBit_fieldOf (a b : Word) (i : Nat) :
    (fieldOf a b).testBit i = (decide (i < fieldLen b) && (low32 a).getLsbD (fieldPos b + i)) := by
  rw [fieldOf, Nat.testBit_mod_two_pow, Nat.testBit_div_two_pow, testBit_asNat32, Nat.add_comm i]

theorem fieldOf_lt (a b : Word) : fieldOf a b < 2 ^ fieldLen b := Nat.mod_lt _ (Nat.two_pow_pos _)

theorem getLsbD_bfxN (m : Modifier) (a b : Word) (i : Nat) :
    (bfxN m a b).getLsbD i = (decide (i < fieldLen b) && (low32 a).getLsbD (fieldPos b + i)) := by
  have len := fieldLen_le b
  rw [bfxN, BitVec.getLsbD_ofNat, testBit_fieldOf]
  grind

/-- Ones from bit n to bit 31 above a number of n bits. -/
theorem testBit_extend_ones {n f i : Nat} (hn : n ≤ 32) (hf : f < 2 ^ n) (hi : i < 32) :
    (f + 2 ^ 32 - 2 ^ n).testBit i = if i < n then f.testBit i else true := by
  have ones : f + 2 ^ 32 - 2 ^ n = 2 ^ n * (2 ^ (32 - n) - 1) + f := by
    rw [Nat.mul_sub, Nat.mul_one, ← Nat.pow_add, Nat.add_sub_cancel' hn, Nat.add_comm,
      Nat.sub_add_comm (Nat.pow_le_pow_right (by decide) hn)]
  rw [ones, Nat.testBit_two_pow_mul_add _ hf, Nat.testBit_two_pow_sub_one]
  split
  · rfl
  · exact decide_eq_true (by omega)

/-- The signed field repeats its highest bit up to bit 31 (R200). -/
theorem getLsbD_bfxI (m : Modifier) (a b : Word) {i : Nat} (hi : i < 32) :
    (bfxI m a b).getLsbD i = (decide (0 < fieldLen b) && (low32 a).getLsbD (fieldPos b + min i (fieldLen b - 1))) := by
  have len := fieldLen_le b
  unfold bfxI
  split
  · next empty => simp [empty]
  · next some =>
    have sign := testBit_fieldOf a b (fieldLen b - 1)
    have bit := testBit_fieldOf a b i
    rw [BitVec.getLsbD_ofNat, apply_ite (fun n : Nat => n.testBit i), testBit_extend_ones len (fieldOf_lt a b) hi]
    grind

/-- An insertion takes the bits of the field from a and the others from c (R200). -/
theorem getLsbD_bfiVal (a b c : Word) {i : Nat} (hi : i < 32) : (bfiVal a b c).getLsbD i =
    if fieldPos b ≤ i ∧ i < fieldPos b + fieldLen b then (low32 a).getLsbD (i - fieldPos b) else c.getLsbD i := by
  have mask : ((2 ^ fieldLen b - 1) * 2 ^ fieldPos b % 2 ^ 32).testBit i = decide (fieldPos b ≤ i ∧ i < fieldPos b + fieldLen b) := by
    rw [Nat.testBit_mod_two_pow, Nat.testBit_mul_two_pow, Nat.testBit_two_pow_sub_one]
    grind
  have put : (asNat 32 a * 2 ^ fieldPos b % 2 ^ 32).testBit i = (decide (fieldPos b ≤ i) && (low32 a).getLsbD (i - fieldPos b)) := by
    rw [Nat.testBit_mod_two_pow, Nat.testBit_mul_two_pow, testBit_asNat32]
    grind
  have old : (low32 c).getLsbD i = c.getLsbD i := by simp [low32, hi]
  simp only [bfiVal, zext32, BitVec.getLsbD_setWidth, BitVec.getLsbD_or, BitVec.getLsbD_and, BitVec.getLsbD_not, BitVec.getLsbD_ofNat,
    mask, put, old]
  grind

/-- Settles O6: every form is the driver of one result; the bits of a field by the lemmas above. -/
theorem bitFields : Obligations.BitFields := by
  unfold Obligations.BitFields
  refine ⟨?bfxN, ?bfxI, ?bfi, ?bfiL, ?perm, ?permL, getLsbD_bfxN .zero,
    fun a b _ => getLsbD_bfxI .zero a b, fun a b c _ => getLsbD_bfiVal a b c⟩
  case bfxN => exact gives_both (fun _ _ => rfl) (fun _ _ => rfl) fun _ _ _ => rfl
  case bfxI => exact gives_both (fun _ _ => rfl) (fun _ _ => rfl) fun _ _ _ => rfl
  case bfi => exact gives_ins fun _ _ => rfl
  case bfiL => exact gives_insM fun _ _ => rfl
  case perm => exact gives_ins fun _ _ => rfl
  case permL => exact gives_insM fun _ _ => rfl

end Sys2Proof.Machine
end

section
/-! Compares and predicate logic (R202, R203): each writes the predicate of its relation. -/

namespace Sys2Proof.Machine

/-! ### Relations of width 32 and 64 as relations of words -/

/-- The Boolean test of words is the decision of their equality. -/
theorem beq_eq_decide_eq {α : Type} [DecidableEq α] [BEq α] [LawfulBEq α] (a b : α) : (a == b) = decide (a = b) :=
  Bool.eq_iff_iff.mpr (by rw [beq_iff_eq, decide_eq_true_iff])

theorem relEq_32 (m : Modifier) (a b : Word) : relEq 32 m a b = (low32 a == low32 b) := by
  simp only [relEq, asNat32_toNat, BitVec.toNat_inj, beq_eq_decide_eq]

theorem relNe_32 (m : Modifier) (a b : Word) : relNe 32 m a b = (low32 a != low32 b) := by
  simp only [relNe, asNat32_toNat, ne_eq, BitVec.toNat_inj, bne, beq_eq_decide_eq, decide_not]

theorem relLtN_32 (m : Modifier) (a b : Word) : relLtN 32 m a b = (low32 a).ult (low32 b) := by
  rw [relLtN, asNat32_toNat, asNat32_toNat, BitVec.ult_eq_decide]

theorem relLeN_32 (m : Modifier) (a b : Word) : relLeN 32 m a b = (low32 a).ule (low32 b) := by
  rw [relLeN, asNat32_toNat, asNat32_toNat, BitVec.ule_eq_decide]

theorem relLtI_32 (m : Modifier) (a b : Word) : relLtI 32 m a b = (low32 a).slt (low32 b) := by
  rw [relLtI, asInt32, asInt32, BitVec.slt_eq_decide]

theorem relLeI_32 (m : Modifier) (a b : Word) : relLeI 32 m a b = (low32 a).sle (low32 b) := by
  rw [relLeI, asInt32, asInt32, BitVec.sle_eq_decide]

theorem relEq_64 (m : Modifier) (a b : Word) : relEq 64 m a b = (a == b) := by
  simp only [relEq, asNat64, BitVec.toNat_inj, beq_eq_decide_eq]

theorem relNe_64 (m : Modifier) (a b : Word) : relNe 64 m a b = (a != b) := by
  simp only [relNe, asNat64, ne_eq, BitVec.toNat_inj, bne, beq_eq_decide_eq, decide_not]

theorem relLtI_64 (m : Modifier) (a b : Word) : relLtI 64 m a b = a.slt b := by
  rw [relLtI, asInt64, asInt64, BitVec.slt_eq_decide]

theorem relLtN_64 (m : Modifier) (a b : Word) : relLtN 64 m a b = a.ult b := by
  rw [relLtN, asNat64, asNat64, BitVec.ult_eq_decide]

/-- Both forms of a compare that takes no modifier of value. -/
theorem decides_both {i : R3 → Instr} {j : R3m → Instr} {f : Modifier → Word → Word → Bool} {g : Word → Word → Bool}
    (h : ∀ x s, exec (i x) s = opCmp 4 x .zero f s) (k : ∀ x s, exec (j x) s = opCmp 8 x.r x.m f s)
    (e : ∀ m a b, f m a b = g a b) : Decides i g ∧ DecidesM j fun _ => g :=
  ⟨decides_opCmp h (e .zero), decides_opCmpM k e⟩

/-- Settles O7: both forms of a compare are the driver of one predicate, and its relation is that of the words. -/
theorem integerCompares : Obligations.IntegerCompares := by
  unfold Obligations.IntegerCompares
  refine ⟨?eq, ?ne, ?ltI, ?leI, ?ltN, ?leN, ?leq, ?lne, ?lltI, ?lltN⟩
  case eq => exact decides_both (fun _ _ => rfl) (fun _ _ => rfl) relEq_32
  case ne => exact decides_both (fun _ _ => rfl) (fun _ _ => rfl) relNe_32
  case ltI => exact decides_both (fun _ _ => rfl) (fun _ _ => rfl) relLtI_32
  case leI => exact decides_both (fun _ _ => rfl) (fun _ _ => rfl) relLeI_32
  case ltN => exact decides_both (fun _ _ => rfl) (fun _ _ => rfl) relLtN_32
  case leN => exact decides_both (fun _ _ => rfl) (fun _ _ => rfl) relLeN_32
  case leq => exact decides_both (fun _ _ => rfl) (fun _ _ => rfl) relEq_64
  case lne => exact decides_both (fun _ _ => rfl) (fun _ _ => rfl) relNe_64
  case lltI => exact decides_both (fun _ _ => rfl) (fun _ _ => rfl) relLtI_64
  case lltN => exact decides_both (fun _ _ => rfl) (fun _ _ => rfl) relLtN_64

/-! ### Floating compares -/

/-- The 32-bit form compares the numbers as they are, the 64-bit form under their modifiers. -/
theorem decides_relF {i : R3 → Instr} {j : R3m → Instr} {f : Fp → Fp → Bool}
    (h : ∀ x s, exec (i x) s = opCmp 4 x .zero (relF f) s) (k : ∀ x s, exec (j x) s = opCmp 8 x.r x.m (relF f) s) :
    Decides i (fun a b => f (f32.ofWord a) (f32.ofWord b)) ∧
      DecidesM j fun m a b => f ((f32.ofWord a).mods m.absa m.nega) ((f32.ofWord b).mods m.absb m.negb) :=
  ⟨decides_opCmp h fun _ _ => rfl, decides_opCmpM k fun _ _ _ => rfl⟩

/-- Settles O8: both forms of a compare are the driver of one predicate, of the relation of the modified operands. -/
theorem floatCompares : Obligations.FloatCompares := by
  unfold Obligations.FloatCompares
  refine ⟨?eq, ?ne, ?lt, ?le⟩
  case eq => exact decides_relF (fun _ _ => rfl) fun _ _ => rfl
  case ne => exact decides_relF (f := fpNe) (fun _ _ => rfl) fun _ _ => rfl
  case lt => exact decides_relF (fun _ _ => rfl) fun _ _ => rfl
  case le => exact decides_relF (fun _ _ => rfl) fun _ _ => rfl

/-! ### Predicate logic -/

theorem computes_opQ {i : Ql → Instr} {f : Bool → Bool → Bool} (h : ∀ x s, exec (i x) s = opQ x f s) (x : Ql) :
    Computes (i x) { len := 4, h := x.h, rd := [.q x.a, .q x.b] } 4 (.q x.d) fun rd =>
      boolWord (f (rd (.q x.a) != 0) (rd (.q x.b) != 0)) :=
  computes_congr (computes_alu (h x) nofun) fun rd => by simp only [ne_eq, decide_not, bne, beq_eq_decide_eq]

/-- Settles O9: each is the driver of one predicate, of its operation on the two that it reads. -/
theorem predicateLogic : Obligations.PredicateLogic := by
  unfold Obligations.PredicateLogic
  refine ⟨?and, ?or, ?xor, ?andn⟩
  case and => exact computes_opQ fun _ _ => rfl
  case or => exact computes_opQ fun _ _ => rfl
  case xor => exact computes_opQ (f := (· != ·)) fun _ _ => rfl
  case andn => exact computes_opQ (f := fun a b => a && !b) fun _ _ => rfl

end Sys2Proof.Machine
end

section
/-! Floating arithmetic, conversions, immediates and the secondary functions (R204 to R216). -/

namespace Sys2Proof.Machine

/-! ### Floating arithmetic and conversions -/

/-- Both forms of a floating operation of two operands. -/
theorem gives_float {i : R3 → Instr} {j : R3m → Instr} {f : Modifier → Word → Word → Word}
    (h : ∀ x s, exec (i x) s = opR 4 x .zero f s) (k : ∀ x s, exec (j x) s = opR 8 x.r x.m f s) : GivesR i (f .zero) ∧ GivesRm j f :=
  ⟨gives_opR h fun _ _ => rfl, gives_opRm k fun _ _ _ => rfl⟩

/-- Both forms of a fused multiply-add. -/
theorem gives_fused {i : R3 → Instr} {j : R3m → Instr} {f : Modifier → Word → Word → Word → Word}
    (h : ∀ x s, exec (i x) s = opMac 4 x .zero f s) (k : ∀ x s, exec (j x) s = opMac 8 x.r x.m f s) :
    GivesMac i (f .zero) ∧ GivesMacM j f :=
  ⟨gives_opMac h fun _ _ _ => rfl, gives_opMacM k fun _ _ _ _ => rfl⟩

/-- Settles O10: both forms of each are the driver of one result, of the statement's value. -/
theorem floatArithmetic : Obligations.FloatArithmetic := by
  unfold Obligations.FloatArithmetic
  refine ⟨?fadd, ?fsub, ?fmul, ?ffma, ?fmin, ?fmax, ?hadd2F16, ?hmul2F16, ?hfma2F16, ?hfma2Bf16, ?hadd2Bf16⟩
  case fadd => exact gives_float (fun _ _ => rfl) fun _ _ => rfl
  case fsub => exact gives_float (fun _ _ => rfl) fun _ _ => rfl
  case fmul => exact gives_float (fun _ _ => rfl) fun _ _ => rfl
  case ffma => exact gives_fused (fun _ _ => rfl) fun _ _ => rfl
  case fmin => exact gives_float (fun _ _ => rfl) fun _ _ => rfl
  case fmax => exact gives_float (fun _ _ => rfl) fun _ _ => rfl
  case hadd2F16 => exact gives_float (fun _ _ => rfl) fun _ _ => rfl
  case hmul2F16 => exact gives_float (fun _ _ => rfl) fun _ _ => rfl
  case hfma2F16 => exact gives_fused (fun _ _ => rfl) fun _ _ => rfl
  case hfma2Bf16 => exact gives_fused (fun _ _ => rfl) fun _ _ => rfl
  case hadd2Bf16 => exact gives_float (fun _ _ => rfl) fun _ _ => rfl

/-- Settles O11: each is the driver of one result with its own cycles and latency (R196). -/
theorem functionsAndConversions : Obligations.FunctionsAndConversions := by
  unfold Obligations.FunctionsAndConversions
  refine ⟨?fsfu, ?fsfuL, ?cvt, ?cvtL, ?cvtp, ?cvtpL⟩
  case fsfu => exact gives_opF fun _ _ => rfl
  case fsfuL => exact gives_opFm fun _ _ => rfl
  case cvt => exact gives_opF fun _ _ => rfl
  case cvtL => exact gives_opFm fun _ _ => rfl
  case cvtp => exact gives_opF fun _ _ => rfl
  case cvtpL => exact gives_opFm fun _ _ => rfl

/-! ### Immediates -/

theorem low32_imm6 (n : BitVec 6) : low32 (imm6 n) = n.signExtend 32 := low32_signExtend n

theorem low32_imm32 (n : BitVec 32) : low32 (imm32 n) = n := (low32_signExtend n).trans (BitVec.signExtend_eq n)

/-- An operation with a sign-extended constant, where it is an operation on low halves. -/
theorem gives_constI {i : Im → Instr} {j : Im64 → Instr} {f : Modifier → Word → Word → Word} {g : W32 → W32 → W32}
    (h : ∀ x s, exec (i x) s = opI 4 x.h x.a x.d (fun a => f .zero a (imm6 x.i)) s)
    (k : ∀ x s, exec (j x) s = opI 8 x.h x.a x.d (fun a => f .zero a (imm32 x.i)) s)
    (e : ∀ a b, f .zero a b = zext32 (g (low32 a) (low32 b))) :
    GivesI i (fun a n => zext32 (g (low32 a) (n.signExtend 32))) ∧ GivesI64 j fun a n => zext32 (g (low32 a) n) :=
  ⟨gives_opI (f := fun a n => f .zero a (imm6 n)) h fun _ _ => by rw [e, low32_imm6],
    gives_opI64 (f := fun a n => f .zero a (imm32 n)) k fun _ _ => by rw [e, low32_imm32]⟩

/-- `movhi` puts the low half of its constant above the low half of the register (R213). -/
theorem setHigh_eq (n d : Word) : setHigh n d = low32 n ++ low32 d := by
  refine BitVec.eq_of_toNat_eq ?_
  have high : n.toNat % 2 ^ 32 < 2 ^ 32 := Nat.mod_lt _ (by decide)
  have low : d.toNat % 2 ^ 32 < 2 ^ 32 := Nat.mod_lt _ (by decide)
  rw [BitVec.toNat_append, ← Nat.shiftLeft_add_eq_or_of_lt (low32 d).isLt, Nat.shiftLeft_eq]
  simp only [setHigh, low32, BitVec.toNat_ofNat, BitVec.toNat_setWidth]
  omega

/-- Settles O12: every form is the driver of one result; constants are sign-extended to the register, and counts are not. -/
theorem immediates : Obligations.Immediates := by
  unfold Obligations.Immediates
  refine ⟨?iaddi, ?andi, ?ori, ?xori, ?shli, ?shriN, ?shriI, ?icmpiEq, ?icmpiLtI, ?movi, ?moviL, ?movhi, ?movhiL, ?fmovi, ?fmoviL⟩
  case iaddi => exact gives_constI (f := intVal .bySat 32 (· + ·)) (fun _ _ => rfl) (fun _ _ => rfl) (intVal_of_ofInt BitVec.ofInt_add)
  case andi => exact gives_constI (f := bitVal (· &&& ·)) (fun _ _ => rfl) (fun _ _ => rfl) fun _ _ => rfl
  case ori => exact gives_constI (f := bitVal (· ||| ·)) (fun _ _ => rfl) (fun _ _ => rfl) fun _ _ => rfl
  case xori => exact gives_constI (f := bitVal (· ^^^ ·)) (fun _ _ => rfl) (fun _ _ => rfl) fun _ _ => rfl
  case shli => exact gives_shiftI (fun _ _ => rfl) (fun _ _ => rfl) shlBy_eq
  case shriN => exact gives_shiftI (fun _ _ => rfl) (fun _ _ => rfl) shrNBy_eq
  case shriI => exact gives_shiftI (fun _ _ => rfl) (fun _ _ => rfl) shrIBy_eq
  case icmpiEq => exact decides_opIq (fun _ _ => rfl) (fun _ _ => rfl) (relEq_32 .zero)
  case icmpiLtI => exact decides_opIq (fun _ _ => rfl) (fun _ _ => rfl) (relLtI_32 .zero)
  case movi => exact gives_opK (f := fun n _ => imm11 n) (fun _ _ => rfl) fun _ _ => rfl
  case moviL => exact gives_opK64 (f := fun n _ => imm32 n) (fun _ _ => rfl) fun _ _ => rfl
  case movhi =>
    exact gives_opK (f := fun n => setHigh (imm11 n)) (fun _ _ => rfl) fun n d =>
      (setHigh_eq (imm11 n) d).trans (congrArg (· ++ low32 d) (low32_signExtend n))
  case movhiL =>
    exact gives_opK64 (f := fun n => setHigh (imm32 n)) (fun _ _ => rfl) fun n d =>
      (setHigh_eq (imm32 n) d).trans (congrArg (· ++ low32 d) (low32_imm32 n))
  case fmovi => exact gives_opK (f := fun n _ => fmoviShort n) (fun _ _ => rfl) fun _ _ => rfl
  case fmoviL => exact gives_opK64 (f := fun n _ => zext32 n) (fun _ _ => rfl) fun _ _ => rfl

/-! ### Secondary functions -/

/-- Bit 0 of the immediate chooses the width (R214). -/
theorem extWidth_toNat {w : Nat} (i : BitVec w) : extWidth i.toNat = if i.getLsbD 0 then 64 else 32 := by
  rw [extWidth, ← BitVec.testBit_toNat, Nat.testBit_zero]
  simp only [decide_eq_true_eq]

/-- A rotation of a word of any width as the sum of its two parts, which overlap in no bit. -/
theorem toNat_rotateLeft_add {w : Nat} (hw : 0 < w) (x : BitVec w) (r : Nat) :
    (x.rotateLeft r).toNat = x.toNat * 2 ^ (r % w) % 2 ^ w + x.toNat / 2 ^ (w - r % w) := by
  have hr : r % w < w := Nat.mod_lt r hw
  have split : 2 ^ w = 2 ^ (w - r % w) * 2 ^ (r % w) := by rw [← Nat.pow_add, Nat.sub_add_cancel (Nat.le_of_lt hr)]
  have high : x.toNat * 2 ^ (r % w) % 2 ^ w = x.toNat % 2 ^ (w - r % w) * 2 ^ (r % w) := by rw [split, Nat.mul_mod_mul_right]
  have low : x.toNat / 2 ^ (w - r % w) < 2 ^ (r % w) := Nat.div_lt_of_lt_mul (split ▸ x.isLt)
  rw [BitVec.toNat_rotateLeft, Nat.shiftLeft_eq, Nat.shiftRight_eq_div_pow, high, ← Nat.shiftLeft_eq, Nat.shiftLeft_add_eq_or_of_lt low]

theorem rotlVal_32 {i : Nat} (h : extWidth i = 32) (a b : Word) :
    rotlVal i a b = zext32 ((low32 a).rotateLeft (low32 b).toNat) := by
  unfold rotlVal
  simp only [h]
  rw [asNat32_toNat, asNat32_toNat, ← toNat_rotateLeft_add (by decide)]
  exact BitVec.ofNat_toNat ..

theorem rotlVal_64 {i : Nat} (h : extWidth i = 64) (a b : Word) : rotlVal i a b = a.rotateLeft (low32 b).toNat := by
  unfold rotlVal
  simp only [h]
  rw [asNat32_toNat, asNat64, ← toNat_rotateLeft_add (by decide)]
  exact BitVec.ofNat_toNat ..

/-- The number whose bits 0 to n - 1 are given. -/
def bitSum (p : Nat → Bool) (n : Nat) : Nat := (List.range n).foldl (fun r j => r + bitN (p j) j) 0

theorem bitN_eq_mul (b : Bool) (n : Nat) : bitN b n = 2 ^ n * b.toNat := by cases b <;> simp [bitN]

theorem bitSum_succ (p : Nat → Bool) (n : Nat) : bitSum p (n + 1) = 2 ^ n * (p n).toNat + bitSum p n := by
  unfold bitSum
  rw [List.range_succ, List.foldl_append, Nat.add_comm, ← bitN_eq_mul]
  rfl

theorem bitSum_lt (p : Nat → Bool) (n : Nat) : bitSum p n < 2 ^ n := by
  induction n with
  | zero => exact Nat.one_pos
  | succ n ih =>
    have top : 2 ^ n * (p n).toNat ≤ 2 ^ n * 1 := Nat.mul_le_mul_left _ (Bool.toNat_le _)
    rw [bitSum_succ, Nat.pow_succ]
    omega

theorem testBit_bitSum (p : Nat → Bool) (n i : Nat) : (bitSum p n).testBit i = (decide (i < n) && p i) := by
  induction n with
  | zero => exact Nat.zero_testBit i
  | succ n ih =>
    rw [bitSum_succ, Nat.testBit_two_pow_mul_add _ (bitSum_lt p n), ih]
    rcases Nat.lt_trichotomy i n with below | rfl | above
    · simp [below, Nat.lt_succ_of_lt below]
    · cases p i <;> simp
    · have high : (p n).toNat < 2 ^ (i - n) := Nat.lt_of_le_of_lt (Bool.toNat_le _) (Nat.one_lt_two_pow (by omega))
      simp [Nat.testBit_lt_two_pow high, show ¬ i < n by omega, show ¬ i < n + 1 by omega]

/-- The lowest bit apart. -/
theorem bitSum_succ_low (p : Nat → Bool) (n : Nat) : bitSum p (n + 1) = (p 0).toNat + 2 * bitSum (fun j => p (j + 1)) n := by
  induction n with
  | zero => rw [bitSum_succ, Nat.pow_zero, Nat.one_mul]; rfl
  | succ n ih => rw [bitSum_succ, ih, bitSum_succ, Nat.pow_succ, Nat.mul_right_comm]; omega

/-- Bits given from the highest position of a width downwards. -/
theorem foldl_bitN_down (p : Nat → Bool) {w n : Nat} (h : n ≤ w) :
    (List.range n).foldl (fun r j => r + bitN (p j) (w - 1 - j)) 0 = 2 ^ (w - n) * bitSum (fun j => p (n - 1 - j)) n := by
  induction n with
  | zero => rfl
  | succ n ih =>
    have shift : (fun j => p (n + 1 - 1 - (j + 1))) = fun j => p (n - 1 - j) := funext fun j => congrArg p (by omega)
    have scale : 2 ^ (w - n) = 2 ^ (w - (n + 1)) * 2 := by rw [← Nat.pow_succ]; congr 1; omega
    rw [List.range_succ, List.foldl_append, ih (Nat.le_of_succ_le h), bitSum_succ_low, shift, Nat.mul_add, ← Nat.mul_assoc, ← scale,
      Nat.add_comm, show w - (n + 1) = w - 1 - n by omega, Nat.add_sub_cancel, Nat.sub_zero, ← bitN_eq_mul]
    rfl

theorem extWidth_cases (i : Nat) : extWidth i = 64 ∨ extWidth i = 32 := by
  unfold extWidth
  split
  · exact .inl rfl
  · exact .inr rfl

/-- The bits of a reversed word, counted from the other end. -/
theorem getLsbD_brevVal (i : Nat) (a : Word) (k : Nat) :
    (brevVal i a).getLsbD k = (decide (k < extWidth i) && a.getLsbD (extWidth i - 1 - k)) := by
  have width : extWidth i ≤ 64 := by have := extWidth_cases i; omega
  have sum := foldl_bitN_down (fun j => a.getLsbD j) (Nat.le_refl (extWidth i))
  rw [Nat.sub_self, Nat.pow_zero, Nat.one_mul] at sum
  rw [brevVal, sum, BitVec.getLsbD_ofNat, testBit_bitSum]
  grind

theorem brevVal_32 {i : Nat} (h : extWidth i = 32) (a : Word) : brevVal i a = zext32 (low32 a).reverse := by
  refine BitVec.eq_of_getLsbD_eq fun k _ => ?_
  simp only [getLsbD_brevVal, h, zext32, low32, BitVec.getLsbD_setWidth, BitVec.getLsbD_reverse, BitVec.getMsbD]
  grind

theorem brevVal_64 {i : Nat} (h : extWidth i = 64) (a : Word) : brevVal i a = a.reverse := by
  refine BitVec.eq_of_getLsbD_eq fun k _ => ?_
  rw [getLsbD_brevVal, h, BitVec.getLsbD_reverse, BitVec.getMsbD]

/-- A value that its width bit chooses. -/
theorem eq_ite_of_extWidth {w : Nat} {i : BitVec w} {v long short : Word} (h64 : extWidth i.toNat = 64 → v = long)
    (h32 : extWidth i.toNat = 32 → v = short) : v = if i.getLsbD 0 then long else short := by
  rw [extWidth_toNat] at h64 h32
  split
  · next h => exact h64 (if_pos h)
  · next h => exact h32 (if_neg h)

/-- Settles O14: both forms of each are the driver of one result; rotations and reversals by their width, the floating functions
as they stand. -/
theorem secondary : Obligations.Secondary := by
  unfold Obligations.Secondary
  refine ⟨?rotl, ?brev, ?fclass, ?frnd, ?fexp, ?ord, ?unord⟩
  case rotl =>
    exact gives_opE2 (f := rotlVal) (fun _ _ => rfl) (fun _ _ => rfl) fun _ _ =>
      eq_ite_of_extWidth (fun h => rotlVal_64 h _ _) fun h => rotlVal_32 h _ _
  case brev =>
    exact gives_opE1 (f := brevVal) (fun _ _ => rfl) (fun _ _ => rfl) fun _ _ =>
      eq_ite_of_extWidth (fun h => brevVal_64 h _) fun h => brevVal_32 h _
  case fclass => exact gives_opE1 (f := fclassVal) (fun _ _ => rfl) (fun _ _ => rfl) fun _ _ => rfl
  case frnd => exact gives_opE1 (f := frndVal) (fun _ _ => rfl) (fun _ _ => rfl) fun _ _ => rfl
  case fexp => exact gives_opE2 (f := fexpVal) (fun _ _ => rfl) (fun _ _ => rfl) fun _ _ => rfl
  case ord => exact decides_opEq (f := fpOrd) (fun _ _ => rfl) fun _ _ => rfl
  case unord => exact decides_opEq (f := fpUnord) (fun _ _ => rfl) fun _ _ => rfl

end Sys2Proof.Machine
end

section
/-! Predicates as words, gathers and exchanges (R217 to R220): results that a thread takes from the predicates and registers of
its group. -/

namespace Sys2Proof.Machine

/-! ### Predicates as words -/

/-- Bit i of a thread's predicate word is predicate i as it reads then (R217). -/
theorem getLsbD_predWord (t : Thread) (cyc : Nat) {i : Nat} (hi : i < 12) :
    (t.predWord cyc).getLsbD i = t.readQ (BitVec.ofNat 4 i) cyc := by
  have word : t.predWord cyc = BitVec.ofNat 64 (bitSum (fun j => t.readQ (BitVec.ofNat 4 j) cyc) 12) := rfl
  rw [word, BitVec.getLsbD_ofNat, testBit_bitSum]
  simp only [hi, show i < 64 by omega, decide_true, Bool.true_and]

/-- Two changes of one thread are one. -/
theorem modThread_modThread (c : Course) (i : Nat) (f g : Thread → Thread) :
    (c.modThread i f).modThread i g = c.modThread i fun t => g (f t) := by
  by_cases h : i < c.threads.length
  · unfold Course.modThread
    rw [Course.thread_setThread, if_pos ⟨rfl, h⟩]
    simp [Course.setThread]
  · have out : ∀ t, c.setThread i t = c := fun t => by simp [Course.setThread, List.set_eq_of_length_le (Nat.le_of_not_lt h)]
    simp only [Course.modThread, out]

theorem foldl_modThread_same (i : Nat) (g : Nat → Thread → Thread) (l : List Nat) (c : Course) :
    l.foldl (fun c j => c.modThread i (g j)) c = c.modThread i fun t => l.foldl (fun t j => g j t) t := by
  induction l generalizing c with
  | nil => exact (modThread_id c i).symm
  | cons a l ih => rw [List.foldl_cons, ih, modThread_modThread]; rfl

/-- Results for several predicates of one thread are one change of the thread. -/
theorem foldl_deliver_q (G : Grp) (x : LaneI) (i : Nat) (q : Nat → BitVec 4) (val : Nat → Word) (l : List Nat) (c : Course) :
    l.foldl (fun c j => G.deliver x 4 (.q (q j)) i (val j) c) c =
      c.modThread i fun t => l.foldl (fun t j => t.result (.q (q j)) (val j) (G.cyc x i + 4)) t :=
  foldl_modThread_same i (fun j t => t.result (.q (q j)) (val j) (G.cyc x i + 4)) l c

theorem delivers_opQ2v {i : Instr} {len : Nat} {x : E64} (h : ∀ s, exec i s = opQ2v len x s) :
    let l := laneE len x ((List.range 12).map fun i => Rd.q (BitVec.ofNat 4 i))
    Delivers i l 4 (.v x.d) (fun _ _ => True) fun _ G j => (G.cs.thread j).predWord (G.cyc l j) :=
  delivers (chk := fun _ => noCheck) h (fun _ _ _ => rfl) nofun

theorem moves_opV2q {i : Instr} {len : Nat} {x : E64} (h : ∀ s, exec i s = opV2q len x s) :
    let l := laneE len x [extA x]
    Moves i l (fun _ _ => True) fun _ G j t =>
      (if j ∈ G.active l then (List.range 12).foldl (fun t k =>
        t.result (.q (BitVec.ofNat 4 k)) (boolWord ((G.read l j (extA x)).getLsbD k)) (G.cyc l j + 4)) t else t).complete l.len :=
  moves_lane (chk := fun _ => noCheck) (fun s => (h s).trans (by simp only [opV2q, foldl_deliver_q])) fun _ _ _ => rfl

/-- Settles O16: a word of predicates by its bits; `q2v` is one result, and `v2q` one change of each active thread. -/
theorem predicateWords : Obligations.PredicateWords := by
  unfold Obligations.PredicateWords
  refine ⟨fun t cyc _ => getLsbD_predWord t cyc, ?q2v, ?q2vL, ?v2q, ?v2qL⟩
  case q2v => exact fun _ => delivers_opQ2v fun _ => rfl
  case q2vL => exact fun _ => delivers_opQ2v fun _ => rfl
  case v2q => exact fun _ => moves_opV2q fun _ => rfl
  case v2qL => exact fun _ => moves_opV2q fun _ => rfl

/-! ### Gathers -/

/-- The participants of an exchange or gather that the thread of a slot sees (R20, R218). -/
def Grp.parts (G : Grp) (l : LaneI) (i : Nat) : List Nat := if isCtl G.g.core then [i] else if l.uni then G.g.slots else G.active l

theorem delivers_opX {i : Instr} {x : LaneI} {dst : Rd} {f : Grp → List Nat → Nat → Word} {val : State → Grp → Nat → Word}
    {ok : State → Grp → Prop} (h : ∀ s, exec i s = opX x dst f s) (hu : ∀ k, dst = .c k → x.uni = true)
    (e : ∀ s G j, ok s G → f G (G.parts x j) j = val s G j) : Delivers i x 4 dst ok val :=
  delivers_congr (delivers (ok := ok) (chk := fun _ => noCheck) (val := fun _ G j => f G (G.parts x j) j) h (fun _ _ _ => rfl) hu)
    (fun s G o => funext fun j => e s G j o) fun _ _ o => o

theorem Grp.withPred_eq (G : Grp) (l : LaneI) (p : BitVec 4) (parts : List Nat) :
    G.withPred l p parts = parts.filter fun k => G.read l k (.q p) != 0 := by
  simp only [Grp.withPred, ne_eq, decide_not, bne, beq_eq_decide_eq]

theorem delivers_opGather {i : Instr} {len : Nat} {x : E64} {dst : Rd} {f : List Nat → List Nat → Word}
    (h : ∀ s, exec i s = opGather len x dst f s) (hu : ∀ k, dst = .c k → x.u = true) :
    let l := laneE len x [.q x.p] true
    Delivers i l 4 dst (fun _ _ => True) fun _ G j => f (G.parts l j) ((G.parts l j).filter fun k => G.read l k (.q x.p) != 0) :=
  delivers_opX (f := fun G parts _ => f parts (G.withPred (laneE len x [.q x.p] true) x.p parts)) h hu fun _ G _ _ => by
    rw [G.withPred_eq]

theorem delivers_pfirst {i : Instr} {len : Nat} {x : E64}
    (h : ∀ s, exec i s = opX (laneE len x [] true) (extQ x) (fun _ parts j => boolWord (decide (parts.headD j = j))) s) :
    let l := laneE len x [] true
    Delivers i l 4 (extQ x) (fun _ _ => True) fun _ G j => boolWord ((G.parts l j).headD j == j) :=
  delivers_opX (f := fun _ parts j => boolWord (decide (parts.headD j = j))) h nofun fun _ _ _ _ => by rw [beq_eq_decide_eq]

/-- Settles O17: each is a result from the participants and those of them whose predicate is 1. -/
theorem gathers : Obligations.Gathers := by
  unfold Obligations.Gathers
  intro parts gather count any all mask first
  have of_opGather {i len x dst f} (h : ∀ s, exec i s = opGather len x dst f s) (hu : ∀ k, dst = .c k → x.u = true) :
      gather i len x dst f := delivers_opGather h hu
  have of_pfirst {i len x}
      (h : ∀ s, exec i s = opX (laneE len x [] true) (extQ x) (fun _ parts j => boolWord (decide (parts.headD j = j))) s) :
      first i len x := delivers_pfirst h
  refine ⟨?qpop, ?qpopL, ?pany, ?panyL, ?pall, ?pallL, ?pmask, ?pmaskL, ?pfirst, ?pfirstL⟩
  case qpop => exact fun _ => of_opGather (fun _ => rfl) fun _ => src_uni
  case qpopL => exact fun _ => of_opGather (fun _ => rfl) fun _ => src_uni
  case pany => exact fun _ => of_opGather (fun _ => rfl) nofun
  case panyL => exact fun _ => of_opGather (fun _ => rfl) nofun
  case pall => exact fun _ => of_opGather (fun _ => rfl) nofun
  case pallL => exact fun _ => of_opGather (fun _ => rfl) nofun
  case pmask => exact fun _ => of_opGather (fun _ => rfl) fun _ => src_uni
  case pmaskL => exact fun _ => of_opGather (fun _ => rfl) fun _ => src_uni
  case pfirst => exact fun _ => of_pfirst fun _ => rfl
  case pfirstL => exact fun _ => of_pfirst fun _ => rfl

/-! ### Exchanges -/

/-- The thread that slot j reads in an exchange among `parts`: the participant at the index within its exchange set, or itself
(R219). -/
def Grp.source (G : Grp) (parts : List Nat) (j : Nat) (k : Int) : Nat :=
  if isCtl G.g.core = false ∧ 0 ≤ k ∧ k < (G.exchSet j).2 ∧ (G.exchSet j).1 + k.toNat ∈ parts then (G.exchSet j).1 + k.toNat else j

/-- The value that slot j takes in an exchange. -/
def Grp.exchanged (G : Grp) (l : LaneI) (x : E64) (index : Nat → Word → Nat → Int) (parts : List Nat) (j : Nat) : Word :=
  G.read l (G.source parts j (index (j - (G.exchSet j).1) (G.read l j (extB x)) (G.exchSet j).2)) (extA x)

theorem opXget_eq (len : Nat) (x : E64) (index : Nat → Word → Nat → Int) (s : State) :
    opXget len x index s =
      opX (laneE len x [extA x, extB x] true) (.v x.d) (fun G => G.exchanged (laneE len x [extA x, extB x] true) x index) s := by
  simp only [opXget]
  congr 1
  funext G parts j
  simp only [Grp.exchanged, Grp.source]
  by_cases hc : isCtl G.g.core = false
  · simp only [hc, List.contains_iff_mem, Bool.not_false, and_true, true_and]
    split <;> rfl
  · simp [hc]

/-- A control core exchanges nothing, so that its participants do not matter (R20). -/
theorem Grp.exchanged_parts (G : Grp) {l : LaneI} (hu : l.uni = false) (x : E64) (index : Nat → Word → Nat → Int) (j : Nat) :
    G.exchanged l x index (G.parts l j) j = G.exchanged l x index (G.active l) j := by
  unfold Grp.exchanged Grp.source Grp.parts
  by_cases hc : isCtl G.g.core = false
  · simp [hc, hu]
  · simp [hc]

theorem delivers_opXget {i : Instr} {len : Nat} {x : E64} {index : Nat → Word → Nat → Int} (h : ∀ s, exec i s = opXget len x index s) :
    let l := laneE len x [extA x, extB x] true
    Delivers i l 4 (.v x.d) (fun _ _ => x.u = false) fun _ G j => G.exchanged l x index (G.active l) j :=
  delivers_opX (fun s => (h s).trans (opXget_eq ..)) nofun fun _ G j hu => G.exchanged_parts hu x index j

/-- Settles O18: each is a result read in the thread that the index names, and the indices are numbers of words. -/
theorem exchanges : Obligations.Exchanges := by
  unfold Obligations.Exchanges
  intro get at_ flip step rot
  have of_opXget {i len x index} (h : ∀ s, exec i s = opXget len x index s) : get i len x index := delivers_opXget h
  have at_eq : (fun _ b _ => (asNat 32 b : Int)) = at_ := by funext _ b _; exact asNat32 b
  have flip_eq : (fun r b _ => ((r ^^^ asNat 32 b : Nat) : Int)) = flip := by funext r b _; rw [asNat32_toNat]
  have rot_eq : (fun r b n => (((r + asNat 32 b) % n : Nat) : Int)) = rot := by funext r b n; rw [asNat32_toNat]
  have step_eq : (fun (r : Nat) b _ => r + asInt 32 b) = step := by funext r b _; rw [asInt32]
  clear_value get
  rw [← at_eq, ← flip_eq, ← step_eq, ← rot_eq]
  refine ⟨?at_, ?atL, ?flip, ?flipL, ?step, ?stepL, ?rot, ?rotL⟩
  all_goals exact fun _ => of_opXget fun _ => rfl

end Sys2Proof.Machine
end

section
/-! Inspection (R221, R265, R271 to R273) and the divisions (R215): results that stand at once, pairs of registers, and results
on their way. -/

namespace Sys2Proof.Machine

/-! ### Results that stand at once -/

/-- What is pending for a register is gone, so that it reads as stored. -/
theorem pendRead_filter_same (ps : List Pend) (r : RegRef) (n : Nat) (x : Word) :
    pendRead (ps.filter fun p => p.dst ≠ r) r n x = x :=
  pendRead_of_forall_ne (fun p hp => by simpa using (List.mem_filter.mp hp).2) n x

/-- What is pending for another register may be dropped. -/
theorem pendRead_filter_ne {r d : RegRef} (h : r ≠ d) (ps : List Pend) (n : Nat) (x : Word) :
    pendRead (ps.filter fun p => p.dst ≠ d) r n x = pendRead ps r n x := by
  induction ps generalizing x with
  | nil => rfl
  | cons p ps ih =>
    by_cases hp : p.dst = d
    · rw [List.filter_cons_of_neg (by simp [hp]), ih]
      simp [pendRead, hp, Ne.symm h]
    · rw [List.filter_cons_of_pos (by simp [hp])]
      exact ih _

/-- A thread register that was written reads as written, and every other register of the thread as before. -/
theorem Thread.regAt_writeV (t : Thread) (k : Reg) (val : Word) (sb : List (RegRef × Nat)) (r : RegRef) (n : Nat) :
    ({ t.write (.v k) val with sb := sb } : Thread).regAt r n = if r = .v k then val else t.regAt r n := by
  by_cases h : r = .v k
  · subst h
    rw [if_pos rfl]
    exact t.readV_write k val n
  · rw [if_neg h]
    cases r with
    | v m =>
      have hm : k ≠ m := fun e => h (e ▸ rfl)
      show pendRead (t.pend.filter fun p => p.dst ≠ .v k) (.v m) n (regGet (regSet t.v k val) m) = _
      rw [pendRead_filter_ne h, regSet_get, if_neg hm]
      rfl
    | q m => exact pendRead_filter_ne h ..
    | c m => rfl

/-- A uniform register that was written reads as written, and every other uniform register as before. -/
theorem readC_writeNow (G : Grp) (k : Reg) (j : Nat) (val : Word) (c : Course) (m : Reg) (n : Nat) :
    (G.writeNow (.c k) j val c).readC m n = if m = k then val else c.readC m n := by
  show pendRead (c.cpend.filter fun p => p.dst ≠ .c k) (.c m) n (regGet (regSet c.c k val) m) = _
  rw [regSet_get]
  by_cases h : m = k
  · subst h
    rw [if_pos rfl, if_pos rfl, pendRead_filter_same]
  · rw [if_neg h, if_neg (Ne.symm h), pendRead_filter_ne (by simpa using h)]
    rfl

theorem regAt_writeNow_v (G : Grp) (k : Reg) {j : Nat} {c : Course} (hj : j < c.threads.length) (val : Word) (i : Nat) {r : RegRef}
    (hr : ∀ m, r ≠ .c m) (n : Nat) :
    (G.writeNow (.v k) j val c).regAt i r n = if r = (c.thread j).ref (.v k) ∧ i = j then val else c.regAt i r n := by
  have write : G.writeNow (.v k) j val c = c.modThread j fun t =>
      { t.write (t.ref (.v k)) val with sb := t.sb.filter fun e => decide (e.1 ≠ t.ref (.v k)) } := rfl
  rw [Course.regAt_thread _ _ _ _ hr, Course.regAt_thread _ _ _ _ hr, write, Course.thread_modThread _ _ _ _ hj]
  by_cases hi : i = j
  · subst hi
    rw [if_pos rfl]
    exact (Thread.regAt_writeV ..).trans (by simp [Thread.ref])
  · rw [if_neg hi, if_neg fun h => hi h.2]

/-- What every register reads once a result stands. -/
theorem regAt_writeNow (G : Grp) {d : Rd} {j : Nat} {c : Course} (hj : j < c.threads.length) (hd : ∀ q, d ≠ .q q) (val : Word)
    (i : Nat) (r : RegRef) (n : Nat) :
    (G.writeNow d j val c).regAt i r n = if r = (c.thread j).ref d ∧ (i = j ∨ ∃ k, r = .c k) then val else c.regAt i r n := by
  cases d with
  | q q => exact absurd rfl (hd q)
  | c k =>
    cases r with
    | c m => exact (readC_writeNow G k j val c m n).trans (by simp [Thread.ref, Course.regAt])
    | _ => rfl
  | v k =>
    cases r with
    | c m => rfl
    | v m => exact (regAt_writeNow_v G k hj val i (by simp) n).trans (by simp)
    | q m => exact (regAt_writeNow_v G k hj val i (by simp) n).trans (by simp)

/-- An even register names a pair (R273). -/
theorem oddPair_of_even {d : Reg} (h : d.getLsbD 0 = false) (l : LaneI) (G : Grp) : oddPair l d G = none := by
  rw [oddPair, if_neg (by rw [h]; decide)]

/-- Settles O26: each changes the course thread by thread as the statement says; what the registers read then is above. -/
theorem inspection : Obligations.Inspection := by
  unfold Obligations.Inspection
  refine ⟨?alw, ?alwL, ?tlbprobe, ?tlbprobeL, ?hget, ?hgetL, ?mapchk, ?bankq, ?reads⟩
  case hget =>
    exact fun x => alters (chk := fun _ => oddPair { len := 4, h := x.h } x.d) (fun _ => rfl) fun _ G even => oddPair_of_even even _ G
  case hgetL =>
    exact fun x => alters (chk := fun _ => oddPair { len := 8, h := x.h } x.d) (fun _ => rfl) fun _ G even => oddPair_of_even even _ G
  case bankq =>
    intro x
    refine alters (fun _ => rfl) fun s G ok => ?_
    by_cases h : x.x = 1
    · simp only [if_pos h]
    · simp only [if_neg h, if_pos (ok.resolve_left h)]
  case reads =>
    intro G d j val c n hj hd
    refine ⟨?_, fun i r other => ?_⟩
    · rw [regAt_writeNow G hj hd, if_pos ⟨rfl, .inl rfl⟩]
    · rw [regAt_writeNow G hj hd, if_neg]
      rintro ⟨same, here⟩
      obtain ⟨away, thread⟩ := other.resolve_left fun ne => ne same
      exact here.elim away fun ⟨k, hk⟩ => thread k hk
  -- the others have no check of their own
  all_goals exact fun _ => alters (chk := fun _ => noCheck) (fun _ => rfl) fun _ _ _ => rfl

/-! ### Quotients and remainders as words -/

section Width
variable {w : Nat} (hw : w = 32 ∨ w = 64)
include hw

theorem asInt_eq_toInt (a : Word) : asInt w a = (a.setWidth w).toInt := by
  obtain rfl | rfl := hw
  · rfl
  · rw [asInt64, BitVec.setWidth_eq]

theorem ofNat_emod_eq (r : Int) : BitVec.ofNat 64 (r % 2 ^ w).toNat = (BitVec.ofInt w r).setWidth 64 := by
  obtain rfl | rfl := hw
  · exact ofNat_emod32 r
  · rw [BitVec.setWidth_eq]; exact ofNat_emod64 r

theorem ofNat_max_eq : BitVec.ofNat 64 (2 ^ w - 1) = (BitVec.allOnes w).setWidth 64 := by
  obtain rfl | rfl := hw <;> rfl
end Width

theorem asNat_eq_toNat (w : Nat) (a : Word) : asNat w a = (a.setWidth w).toNat := (BitVec.toNat_setWidth ..).symm

theorem toNat_eq_zero_iff {w : Nat} (b : BitVec w) : b.toNat = 0 ↔ b = 0 := by rw [← BitVec.toNat_inj]; rfl

theorem toInt_eq_zero_iff {w : Nat} (b : BitVec w) : b.toInt = 0 ↔ b = 0 := by
  rw [← BitVec.toInt_inj, show (0 : BitVec w).toInt = 0 from BitVec.toInt_zero]

/-- The quotient that leaves the signed range wraps (R215). -/
theorem ofInt_tdiv {w : Nat} (a b : BitVec w) : BitVec.ofInt w (a.toInt.tdiv b.toInt) = a.sdiv b :=
  BitVec.eq_of_toInt_eq (by rw [BitVec.toInt_ofInt, BitVec.toInt_sdiv])

theorem ofInt_tmod {w : Nat} (a b : BitVec w) : BitVec.ofInt w (a.toInt.tmod b.toInt) = a.srem b := by
  rw [← BitVec.toInt_srem, BitVec.ofInt_toInt]

/-- A function of words of a width, read in the registers. -/
def atWidth (f : ∀ n, BitVec n → BitVec n → BitVec n) (w : Nat) (a b : Word) : Word := (f w (a.setWidth w) (b.setWidth w)).setWidth 64

theorem remN_eq (w : Nat) (a b : Word) : remN w a b = atWidth (fun _ a b => if b = 0 then a else a % b) w a b := by
  unfold remN atWidth
  rw [asNat_eq_toNat, asNat_eq_toNat, ← BitVec.toNat_umod, BitVec.ofNat_toNat, BitVec.ofNat_toNat]
  simp only [toNat_eq_zero_iff, apply_ite (BitVec.setWidth 64)]

section Division
variable {w : Nat} (hw : w = 32 ∨ w = 64) (a b : Word)
include hw

theorem divI_eq : divI w a b = atWidth (fun n a b => if b = 0 then BitVec.allOnes n else a.sdiv b) w a b := by
  unfold divI atWidth
  rw [asInt_eq_toInt hw, asInt_eq_toInt hw, ofNat_emod_eq hw, ofNat_max_eq hw, ofInt_tdiv]
  simp only [toInt_eq_zero_iff, apply_ite (BitVec.setWidth 64)]

theorem divN_eq : divN w a b = atWidth (fun n a b => if b = 0 then BitVec.allOnes n else a / b) w a b := by
  unfold divN atWidth
  rw [asNat_eq_toNat, asNat_eq_toNat, ofNat_max_eq hw, ← BitVec.toNat_udiv, BitVec.ofNat_toNat]
  simp only [toNat_eq_zero_iff, apply_ite (BitVec.setWidth 64)]

theorem remI_eq : remI w a b = atWidth (fun _ a b => if b = 0 then a else a.srem b) w a b := by
  unfold remI atWidth
  rw [asInt_eq_toInt hw, asInt_eq_toInt hw, asNat_eq_toNat, ofNat_emod_eq hw, ofInt_tmod, BitVec.ofNat_toNat]
  simp only [toInt_eq_zero_iff, apply_ite (BitVec.setWidth 64)]
end Division

/-- A function of the width that bit 0 of the immediate chooses. -/
theorem atWidth_extWidth {k : Nat} (f : ∀ n, BitVec n → BitVec n → BitVec n) (i : BitVec k) (a b : Word) :
    atWidth f (extWidth i.toNat) a b = if i.getLsbD 0 then f 64 a b else zext32 (f 32 (low32 a) (low32 b)) :=
  eq_ite_of_extWidth (fun h => by rw [h]; simp only [atWidth, BitVec.setWidth_eq]) fun h => by rw [h]; rfl

/-! ### Results on their way -/

/-- The lane's view of a division: a quarter of the width in cycles for each thread (R196). -/
def divLane (len : Nat) (x : E64) : LaneI := { laneE len x [extA x, extB x] with per := extWidth x.i.toNat / 4 }

/-- The result of the thread of a slot, on its way under a number. -/
def Grp.divResult (G : Grp) (len : Nat) (x : E64) (f : Nat → Word → Word → Word) (i id : Nat) : DivRes :=
  { id := id, core := G.g.core, course := G.g.course, slot := i, dst := (G.cs.thread i).ref (extD x)
    val := f (extWidth x.i.toNat) (G.read (divLane len x) i (extA x)) (G.read (divLane len x) i (extB x))
    ready := G.cyc (divLane len x) i + extWidth x.i.toNat / 4 }

/-- Results that are numbered one by one are numbered by their places. -/
theorem foldl_number (await : Nat → Nat → Course → Course) (res : Nat → Nat → DivRes) (l : List Nat) (n k : Nat) (c : Course) (s : State)
    (h : s.nextId = n + k) :
    l.foldl (fun (a : Course × State) i =>
        (await i a.2.nextId a.1, { a.2 with nextId := a.2.nextId + 1, divs := a.2.divs ++ [res i a.2.nextId] })) (c, s) =
      ((l.zipIdx k).foldl (fun c p => await p.1 (n + p.2) c) c,
        { s with nextId := n + k + l.length, divs := s.divs ++ (l.zipIdx k).map fun p => res p.1 (n + p.2) }) := by
  induction l generalizing k c s with
  | nil => simp [← h]
  | cons i l ih =>
    rw [List.foldl_cons, ih (k + 1) _ _ (by simp [h, Nat.add_assoc]), List.zipIdx_cons]
    simp [h, Nat.add_assoc, Nat.add_comm 1]

theorem opDiv_next {s : State} {G : Grp} {len : Nat} {x : E64} (f : Nat → Word → Word → Word) (r : Runs s G (divLane len x)) :
    opDiv len x f s = .next (({ s with
        nextId := s.nextId + (G.active (divLane len x)).length
        divs := s.divs ++ (G.active (divLane len x)).zipIdx.map fun p => G.divResult len x f p.1 (s.nextId + p.2) } : State).finish G
      (divLane len x) ((G.active (divLane len x)).zipIdx.foldl (fun c p => G.awaitDst (extD x) p.1 (s.nextId + p.2) c) G.cs)) := by
  refine withGroup_to r.lane ?_ rfl
  have numbered := foldl_number (G.awaitDst (extD x)) (G.divResult len x f) (G.active (divLane len x)) s.nextId 0 G.cs s rfl
  show (match G.check (divLane len x) with | some c => _ | none => _) = _
  rw [r.ok]
  exact congrArg (fun r : Course × State => r.2.finish G (divLane len x) r.1) numbered

/-- Settles O37: each is an `opDiv`, which numbers the results of the active threads in slot order; the values by the width. -/
theorem divisions : Obligations.Divisions := by
  unfold Obligations.Divisions
  intro div both
  have of_opDiv {i len x v f} (h : ∀ s, exec i s = opDiv len x v s)
      (e : ∀ w, w = 32 ∨ w = 64 → ∀ a b, v w a b = atWidth f w a b) : div i len x f := by
    intro s G w l a b results r
    have width : extWidth x.i.toNat = w := extWidth_toNat x.i
    have lane : divLane len x = l := congrArg (fun w => ({ laneE len x [extA x, extB x] with per := w / 4 } : LaneI)) width
    have value : ∀ a b, v w a b = if x.i.getLsbD 0 then f 64 a b else zext32 (f 32 (low32 a) (low32 b)) := fun a b => by
      rw [← width, e _ (extWidth_cases _).symm, atWidth_extWidth]
    have same : (G.active (divLane len x)).zipIdx.map (fun p => G.divResult len x v p.1 (s.nextId + p.2)) = results := by
      rw [lane]
      exact List.map_congr_left fun p _ => by rw [Grp.divResult, lane, width, value]
    refine ⟨_, (h s).trans (opDiv_next v (lane ▸ r)), ?_⟩
    rw [same, lane]
    exact left_leave ..
  have of_both {i j v f} (h : ∀ x s, exec (i x) s = opDiv 4 (extEd x) v s) (k : ∀ x s, exec (j x) s = opDiv 8 x v s)
      (e : ∀ w, w = 32 ∨ w = 64 → ∀ a b, v w a b = atWidth f w a b) : both i j f :=
    ⟨fun x => of_opDiv (h x) e, fun x => of_opDiv (k x) e⟩
  clear_value both
  refine ⟨?idivI, ?idivN, ?iremI, ?iremN⟩
  case idivI => exact of_both (fun _ _ => rfl) (fun _ _ => rfl) fun _ => divI_eq
  case idivN => exact of_both (fun _ _ => rfl) (fun _ _ => rfl) fun _ => divN_eq
  case iremI => exact of_both (fun _ _ => rfl) (fun _ _ => rfl) fun _ => remI_eq
  case iremN => exact of_both (fun _ _ => rfl) (fun _ _ => rfl) fun w _ => remN_eq w

end Sys2Proof.Machine
end

section
/-! Branches, calls, returns, ends of threads and loops (R224, R226, R228 to R234): each steers the active threads of the group to a
thread of its own, and the others pass. -/

namespace Sys2Proof.Machine

/-! ### Groups that are steered -/

/-- A group is steered to `g` of each active thread, and its others pass. -/
theorem moved_steer {s : State} {G : Grp} {x : LaneI} (r : Runs s G x) (g : Nat → Thread → Thread) :
    Moved s (s.leaveSteered G x fun i t => if (G.active x).contains i then some (g i t) else none) G
      fun i t => if i ∈ G.active x then g i t else t.complete x.len :=
  moved_congr (moved_steered r _) fun i _ => by
    by_cases h : i ∈ G.active x <;> simp [h]

/-! ### Branches -/

/-- A branch whose targets are even where they must be steers its group. -/
theorem opBranch_next {s : State} {G : Grp} {x : LaneI} {target : Grp → Nat → Option Word} {odd : Bool} (r : Runs s G x)
    (even : odd = true → ∀ i ∈ G.active x, ∀ g, target G i = some g → g.getLsbD 0 = false) :
    opBranch x target odd s = .next (s.leaveSteered G x fun i t => (target G i).map t.branch) := by
  refine withGroup_to r.lane ?_ rfl
  rw [r.ok]
  dsimp only
  rw [List.findSome?_eq_none_iff.mpr fun i hi => ?_]
  cases h : target G i with
  | none => rfl
  | some g =>
    refine if_neg fun bad => ?_
    obtain ⟨ho, hg⟩ := Bool.and_eq_true_iff.mp bad
    exact Bool.false_ne_true ((even ho i hi g h).symm.trans hg)

theorem seenClosed_iff (s : State) (core dest : Nat) :
    s.seenClosed core dest = true ↔ (s.core core).closed.getLsbD dest = true ∧ dest ≠ s.rank := by
  simp [State.seenClosed]

/-- Settles O19: every branch is an `opBranch`, which steers its group by the targets. -/
theorem branches : Obligations.Branches := by
  unfold Obligations.Branches
  intro goes
  have of_opBranch {i l ok target odd} {tgt : State → Grp → Nat → Option Word} (runs : ∀ s, exec i s = opBranch l (tgt s) odd s) (same : ∀ s G j, tgt s G j = target s G j)
      (even : odd = true → ∀ s G, ok s G → ∀ j ∈ Grp.active G l, ∀ g : Word, target s G j = some g → g.getLsbD 0 = false) :
      goes i l ok target := by
    intro s G r o
    refine ⟨_, (runs s).trans (opBranch_next r fun h i hi g e => even h s G o i hi g ((same s G i).symm.trans e)),
      moved_congr (moved_steered r _) fun j _ => ?_⟩
    dsimp only
    rw [same]
    by_cases h : j ∈ G.active l
    · rw [if_pos h, if_pos h]
      cases target s G j <;> rfl
    · rw [if_neg h, if_neg h]
  clear_value goes
  refine ⟨?bra, ?braL, ?brx, ?brxL, ?balw⟩
  case bra => exact fun _ => of_opBranch (odd := false) (fun _ => rfl) (fun _ _ _ => rfl) nofun
  case braL => exact fun _ => of_opBranch (odd := false) (fun _ => rfl) (fun _ _ _ => rfl) nofun
  case brx => exact fun _ => of_opBranch (odd := true) (fun _ => rfl) (fun _ _ _ => rfl) fun _ _ _ even j hj _ e =>
    Option.some.inj e ▸ even j hj
  case brxL => exact fun _ => of_opBranch (odd := true) (fun _ => rfl) (fun _ _ _ => rfl) fun _ _ _ even j hj _ e =>
    Option.some.inj e ▸ even j hj
  case balw => exact fun _ => of_opBranch (odd := false) (fun _ => rfl) (fun _ _ _ => if_congr (seenClosed_iff ..) rfl rfl) nofun

/-! ### Calls and returns -/

theorem memCheck_nil (s : State) (G : Grp) (space : BitVec 2) (n : Need) (size align : Nat) (watch : Bool) :
    s.memCheck G space n size align watch [] = .ok [] := rfl

theorem gate_nil (s : State) (G : Grp) (reads writes : Bool) (size : Nat) : s.gate G reads writes size [] = none := by
  simp [State.gate]

/-- Fewer than four entries spill none, and up to four fill none (R226). -/
theorem spillAt_of_lt {tk : Task} {t : Thread} (h : t.depth < 4) : spillAt tk t = none := if_neg (Nat.not_le.mpr h)
theorem fillAt_of_le {tk : Task} {t : Thread} (h : t.depth ≤ 4) : fillAt tk t = none := if_neg (by omega)

theorem atEnd_iff (t : Thread) (len : Nat) : t.atEnd len = true ↔ 0 < t.lopen ∧ t.pc + BitVec.ofNat 64 len = t.level.lend + 2 := by
  simp [Thread.atEnd]

/-- A call with fewer than four entries pushes and jumps. -/
theorem opCall_next {s : State} {G : Grp} {x : LaneI} {target : Grp → Nat → Word} {odd : Bool} (r : Runs s G x)
    (room : ∀ j ∈ G.active x, (G.cs.thread j).depth < 4) (inside : ∀ j ∈ G.active x, ¬ (G.cs.thread j).atEnd x.len = true)
    (even : odd = true → ∀ j ∈ G.active x, (target G j).getLsbD 0 = false) :
    opCall x target odd s = .next (s.leaveSteered G x fun i t =>
      if (G.active x).contains i then some { t.push (G.g.pc + BitVec.ofNat 64 x.len) with pc := target G i } else none) := by
  refine withGroup_to r.lane ?_ rfl
  extract_lets act ends handler stack first spills
  have none_first : first = none := by
    simp only [first, Option.or_eq_none_iff, List.findSome?_eq_none_iff]
    refine ⟨r.ok, fun j hj => if_neg (inside j hj), fun j hj => if_neg fun bad => ?_, fun j hj => ?_⟩
    · obtain ⟨ho, hg⟩ := Bool.and_eq_true_iff.mp bad
      exact Bool.false_ne_true ((even ho j hj).symm.trans hg)
    · have := room j hj
      exact (if_neg (by omega)).trans (if_neg (by omega))
  have no_spill : spills = [] :=
    List.filterMap_eq_nil_iff.mpr fun j hj => by rw [spillAt_of_lt (room j hj)]; rfl
  rw [none_first]
  dsimp only
  rw [no_spill, memCheck_nil]
  dsimp only
  rw [gate_nil]
  show State.leaveSteered s { G with cs := { G.cs with lostDests := ((s.course? G.g.core G.g.course).map Course.lostDests).getD [] } } x _ = _
  rw [r.lane.course]
  rfl

/-- A return with one to four entries pops the newest and branches to it. -/
theorem opRet_next {s : State} {G : Grp} {h : Hdr} (r : Runs s G { len := 4, h := h })
    (some_ : ∀ j ∈ G.active { len := 4, h := h }, 0 < (G.cs.thread j).depth ∧ (G.cs.thread j).depth ≤ 4) :
    opRet h s = .next (s.leaveSteered G { len := 4, h := h } fun i t =>
      if (G.active { len := 4, h := h }).contains i then some ((t.pop none).branch (t.rs.getLastD 0)) else none) := by
  refine withGroup_to r.lane ?_ rfl
  extract_lets act first fills
  have none_first : first = none := by
    simp only [first, Option.or_eq_none_iff, List.findSome?_eq_none_iff]
    exact ⟨r.ok, fun j hj => if_neg (Nat.ne_of_gt (some_ j hj).1)⟩
  have no_fill : fills = [] :=
    List.filterMap_eq_nil_iff.mpr fun j hj => by rw [fillAt_of_le (some_ j hj).2]; rfl
  rw [none_first]
  dsimp only
  rw [no_fill, memCheck_nil]
  rfl

/-- Settles O20: with at most four entries nothing is spilled or filled, so that calls and returns only steer their group. -/
theorem callsAndReturns : Obligations.CallsAndReturns := by
  unfold Obligations.CallsAndReturns
  intro calls
  have of_opCall {i l odd target} (runs : ∀ s, exec i s = opCall l target odd s) : calls i l odd target := by
    intro s G r ok
    refine ⟨_, (runs s).trans (opCall_next r (fun j hj => (ok j hj).1) (fun j hj => ?_) fun ho j hj => (ok j hj).2.1 ho), moved_steer r _⟩
    exact fun ends => (ok j hj).2.2 ((atEnd_iff ..).mp ends)
  clear_value calls
  refine ⟨?call, ?callL, ?callx, ?callxL, ?ret⟩
  case ret => exact fun x s G r ok => ⟨_, opRet_next r ok, moved_steer r _⟩
  all_goals exact fun _ => of_opCall fun _ => rfl

/-! ### Ends of threads, yields and breaks -/

/-- Threads that end change nothing of their course but themselves, and of the state nothing but their core's queues (R228). -/
theorem exitThreads_keeps {s : State} {core course : Nat} {c : Course} (hc : s.course? core course = some c) (slots : List Nat) :
    (s.exitThreads core course slots).course? core course = some (slots.foldl (fun c i => c.modThread i Thread.exit) c) ∧
      Stays s (s.exitThreads core course slots) core course ∧ (s.exitThreads core course slots).issue = s.issue := by
  simp only [State.exitThreads, hc]
  split
  · refine ⟨?_, (stays_setCourse ..).trans (stays_modCore _ _ _ _ _ fun _ => rfl), rfl⟩
    exact (course?_modCore _ _ (fun k => { k with queues := dropHeld _ course k.queues }) (fun _ => rfl) _ _).trans (State.course?_setCourse_self ..)
  · exact ⟨State.course?_setCourse_self .., stays_setCourse .., rfl⟩

/-- Changes of threads see nothing of their course but its threads. -/
theorem foldMod_threads {c d : Course} (h : c.threads = d.threads) (f : Nat → Thread → Thread) (l : List Nat) :
    (l.foldl (fun c i => c.modThread i (f i)) c).threads = (l.foldl (fun c i => c.modThread i (f i)) d).threads := by
  induction l generalizing c d with
  | nil => exact h
  | cons a l ih => exact ih (by simp only [Course.modThread, Course.setThread, Course.thread, h])

theorem Course.thread_congr {c d : Course} (h : c.threads = d.threads) (i : Nat) : c.thread i = d.thread i := by
  simp only [Course.thread, h]

/-- The threads of a group whose guard is true end once the group has left the lane, and its others pass (R228). -/
theorem ran_exit {s : State} {G : Grp} {x : LaneI} (r : Runs s G x) (o e : Nat) :
    Ran s ((s.leaveLane G.g o e ((G.g.slots.filter fun i => !(G.active x).contains i).foldl
      (fun c i => c.modThread i fun t => t.complete x.len) G.cs)).exitThreads G.g.core G.g.course (G.active x)) G
      fun i a b => b = if i ∈ G.active x then a.exit else a.complete x.len := by
  obtain ⟨threads, _, _⟩ := split_threads r (G.active x) r.sub (active_nodup G x r.lane.nodup) (fun _ t => t.exit) x.len
  have passed := foldMod_else (fun _ t => t.complete x.len) (G.g.slots.filter fun i => !(G.active x).contains i) G.cs
  have uni := congrArg Course.c passed
  have pend := congrArg Course.cpend passed
  generalize (G.g.slots.filter fun i => !(G.active x).contains i).foldl (fun c i => c.modThread i fun t => t.complete x.len) G.cs = c
    at threads uni pend
  obtain ⟨⟨a, b, lb, rc, left⟩, stays⟩ := leaveLane_keeps s G o e c
  obtain ⟨course, stays', issue⟩ := exitThreads_keeps left (G.active x)
  obtain ⟨ts, ended⟩ := foldMod_rest (fun _ => Thread.exit) (G.active x) { c with loopBuf := lb, recapture := rc, stallUntil := a, stallUntilHi := b }
  have same := Course.thread_congr (foldMod_threads (c := { c with loopBuf := lb, recapture := rc, stallUntil := a, stallUntilHi := b })
    (d := c) rfl (fun _ => Thread.exit) (G.active x))
  refine ran_of issue (stays.trans stays') course (fun i hi => ?_) (fun i hi => ?_) ?_
  · rw [same, threads, if_pos hi]
  · rw [same, threads, if_neg fun h => hi (r.sub i h), if_neg hi]
  · rw [ended]
    exact ⟨uni, pend⟩

/-- Settles O21: `exit` and `brk` change the active threads, `yield` a field of the course. -/
theorem exitYieldBreak : Obligations.ExitYieldBreak := by
  unfold Obligations.ExitYieldBreak
  refine ⟨?exit, ?yield, ?brk⟩
  case exit =>
    intro x s G l r
    have ran := ran_exit r G.g.slots.length (stallCycles x.h + G.edgeCostOf l (G.g.slots.filter fun i => !(G.active l).contains i))
    exact exec_of_ends r.lane rfl (by rw [r.ok]; exact ⟨ran.lane, ran⟩)
  case yield =>
    intro x s G l r
    let d : Course := if (G.active l).isEmpty then G.cs else { G.cs with yieldUntil := some (G.g.t + 64) }
    have threads : d.threads = G.cs.threads := (apply_ite Course.threads _ _ _).trans (ite_self _)
    obtain ⟨c, left, slots, others, rest⟩ := movedAs_pass (u := s) r d threads
    refine ⟨_, c, withGroup_to r.lane (t := s.finish G l d) (by rw [r.ok]) rfl, left, slots, others, rest.trans ?_⟩
    by_cases none_ : G.active l = []
    · simp only [d, none_, List.isEmpty_nil, if_true]
    · simp only [d, none_, List.isEmpty_iff, if_false]
  case brk =>
    intro x l s G r inside
    have first : (G.active l).findSome? (fun i =>
        if (G.cs.thread i).inBody then none else some ({ code := 0x04, sub := 6, ipc := G.g.pc, tmask := 2 ^ i } : Cause)) = none :=
      List.findSome?_eq_none_iff.mpr fun j hj => if_pos (inside j hj)
    exact ⟨_, withGroup_to r.lane (by dsimp only; rw [r.ok, first]; rfl) rfl, moved_steer r _⟩

/-! ### Loops -/

/-- The ring size and stage count that the `lcfg` of a loop gives a thread (R230). -/
def Grp.loopPrefix (G : Grp) (x : LaneI) (pre : Option (Hdr × Nat × Nat)) (i : Nat) : Option (Nat × Nat) :=
  match pre with
  | some p => if guardHolds p.1 (G.cs.thread i) (G.regCyc x i) then some p.2 else none
  | none => none

/-- The course once the active threads have become `f` of them and the others of the group have passed. -/
def Grp.steered (G : Grp) (x : LaneI) (f : Nat → Thread → Thread) : Course :=
  (G.g.slots.filter fun i => !(G.active x).contains i).foldl (fun c i => c.modThread i fun t => t.complete x.len)
    ((G.active x).foldl (fun c i => c.modThread i (f i)) G.cs)

theorem Grp.steered_thread {s : State} {G : Grp} {x : LaneI} (r : Runs s G x) (f : Nat → Thread → Thread) (i : Nat) :
    (G.steered x f).thread i = if i ∈ G.active x then f i (G.cs.thread i)
      else if i ∈ G.g.slots then (G.cs.thread i).complete x.len else G.cs.thread i := by
  unfold Grp.steered
  rw [foldMod_thread _ _ _ (r.lane.nodup.filter _) fun j hj => by
      rw [foldMod_length]
      exact r.lane.range j (List.mem_filter.mp hj).1,
    foldMod_thread _ _ _ (active_nodup G x r.lane.nodup) fun j hj => r.lane.range j (r.sub j hj)]
  by_cases h : i ∈ G.active x <;> simp [h]

theorem Grp.steered_uni (G : Grp) (x : LaneI) (f : Nat → Thread → Thread) :
    (G.steered x f).c = G.cs.c ∧ (G.steered x f).cpend = G.cs.cpend := by
  have rest : { G.steered x f with threads := [] } = { G.cs with threads := [] } := (foldMod_else _ _ _).trans (foldMod_else _ _ _)
  have uni := congrArg Course.c rest
  have pend := congrArg Course.cpend rest
  exact ⟨uni, pend⟩

/-- A group leaves the lane steered, over a look at the code that its course is at (R235). -/
theorem ran_capture {s : State} {G : Grp} {x : LaneI} (r : Runs s G x) (f : Nat → Thread → Thread) (o : LoopOp) (a b : Nat) :
    let u := (s.setCourse G.g.core G.g.course (G.steered x f).trimLoop).capture G.g G.tk.ctx o
    Ran s (u.leaveLane G.g a b ((u.course? G.g.core G.g.course).getD (G.steered x f))) G
      fun i t t' => t' = if i ∈ G.active x then f i t else t.complete x.len := by
  intro u
  have looked := looked_capture (s.setCourse G.g.core G.g.course (G.steered x f).trimLoop) G.g G.tk.ctx o
  obtain ⟨look, keeps, seen⟩ := looked.course
  rw [State.course?_setCourse_self] at seen
  obtain ⟨threads, uni, pend⟩ := keeps (G.steered x f).trimLoop
  obtain ⟨⟨a', b', lb, rc, left⟩, stays⟩ := leaveLane_keeps u G a b ((u.course? G.g.core G.g.course).getD (G.steered x f))
  have thread : ∀ i, (look (G.steered x f).trimLoop).thread i = (G.steered x f).thread i := Course.thread_congr threads
  have course : u.course? G.g.core G.g.course = some (look (G.steered x f).trimLoop) := seen
  rw [course, Option.getD_some] at left stays ⊢
  refine ran_of rfl ((stays_setCourse ..).trans (looked.toStays.trans stays)) left (fun i hi => ?_) (fun i hi => ?_) ⟨?_, ?_⟩
  · refine (thread i).trans ((G.steered_thread r f i).trans ?_)
    rw [if_pos hi]
  · refine (thread i).trans ((G.steered_thread r f i).trans ?_)
    rw [if_neg fun h => hi (r.sub i h), if_neg hi]
  · exact uni.trans (G.steered_uni x f).1
  · exact pend.trans (G.steered_uni x f).2

/-- A loop whose conditions hold in its active threads opens a level in each of them, or skips its body, and the others pass. -/
theorem opLoop_ran {s : State} {G : Grp} {x : LaneI} (r : Runs s G x) (own : Word) (len : Nat) (trip : Rd) (e : Nat)
    (pre : Option (Hdr × Nat × Nat)) :
    let o : LoopOp := { own := own, first := own + BitVec.ofNat 64 len, last := own + BitVec.ofNat 64 (2 * e) }
    let trips := fun i => (G.read x i trip).toNat % 2 ^ 32
    (∀ i ∈ G.active x, (G.cs.thread i).loopFaults o (trips i) (((G.loopPrefix x pre i).map Prod.snd).getD 1) = []) →
    ∃ t, opLoop x own len trip e pre s = .next t ∧
      Ran s t G fun i a b => b = if i ∈ G.active x then a.openLoop o (trips i) (G.loopPrefix x pre i) else a.complete x.len := by
  intro o trips holds
  have ran := fun a b => ran_capture r (fun i t => t.openLoop o (trips i) (G.loopPrefix x pre i)) o a b
  refine ⟨_, withGroup_to r.lane ?_ rfl, ran G.g.slots.length
    (stallCycles x.h + G.edgeCostOf x (G.g.slots.filter fun i => !(G.active x).contains i))⟩
  extract_lets prefixOf faults bad
  have none_bad : bad = none := List.findSome?_eq_none_iff.mpr fun sub _ => by
    have : (G.active x).find? (fun i => (faults i).contains sub) = none :=
      List.find?_eq_none.mpr fun i hi => by
        have none_ : faults i = [] := holds i hi
        rw [none_]
        exact Bool.false_ne_true
    rw [this]
    rfl
  rw [r.ok, none_bad]
  rfl

theorem Runs.pc_eq {s : State} {G : Grp} {x : LaneI} (r : Runs s G x) :
    (s.issue.map Issue.pc).getD 0 = G.g.pc + BitVec.ofNat 64 0 := by
  rw [r.lane.issue]
  exact (BitVec.add_zero _).symm

/-- An `lcfg` whose `loop` is at hand with a guard that is no reserved one issues with it (R230). -/
theorem execLcfg_pair {s s' : State} {g : Issue} {b : Nat} {x : Lc} (issue : s.issue = some g)
    (fetched : s.fetch { g with pc := g.pc + 4 } = (.bits b, s')) :
    (∀ w v, opBits b = some (.loop, w, v) → (unLo w).h.guardOk = true → execLcfg x s =
      opLoop { len := 8, h := (unLo w).h, rd := [src (unLo w).u (unLo w).t], more := guardRd x.h } (g.pc + 4) 4 (src (unLo w).u (unLo w).t)
        (unLo w).e.toNat (some (x.h, x.z.toNat, x.k.toNat + 1)) s') ∧
    ∀ w v, opBits b = some (.loopL, w, v) → (unLo64 w v).h.guardOk = true → execLcfg x s =
      opLoop { len := 12, h := (unLo64 w v).h, rd := [src (unLo64 w v).u (unLo64 w v).t], more := guardRd x.h } (g.pc + 4) 8
        (src (unLo64 w v).u (unLo64 w v).t) (unLo64 w v).e.toNat (some (x.h, x.z.toNat, x.k.toNat + 1)) s' := by
  unfold execLcfg
  rw [issue]
  dsimp only
  rw [fetched]
  dsimp only
  refine ⟨fun w v bits ok => ?_, fun w v bits ok => ?_⟩
  · rw [bits]
    dsimp only
    rw [ok]
    rfl
  · rw [bits]
    dsimp only
    rw [ok]
    rfl

/-! ### The loop-control state -/

theorem setLevel_getD (t : Thread) {j : Nat} (h : j < 4) (l d : Level) : (t.setLevel j l).lv.toList.getD j d = l := by
  simp [Thread.setLevel, h, List.getD_eq_getElem?_getD]

/-- A contiguous mask of levels is that of its count (R46). -/
theorem lopenMask_lopenCount {m : Nat} (h : [0, 1, 3, 7, 15].contains m = true) : lopenMask (lopenCount m) = m := by
  simp only [List.contains_iff_mem, List.mem_cons, List.not_mem_nil, or_false] at h
  obtain rfl | rfl | rfl | rfl | rfl := h <;> rfl

theorem setWidth_setWidth_of_lt {a : Word} (h : a.toNat < 2 ^ 32) : (a.setWidth 32).setWidth 64 = a := by
  apply BitVec.eq_of_toNat_eq
  simp only [BitVec.toNat_setWidth]
  omega

/-- What is written at a selector is read there (R234). -/
theorem loopGet_loopPut (t : Thread) {sel : Nat} {a : Word} (hs : sel ≤ 18) (ok : loopPutFault sel a = none)
    (h18 : sel = 18 → a.toNat < 16) (h17 : sel = 17 → a.toNat < 8) (h16 : sel = 16 → a.toNat < 512)
    (h32 : sel < 16 → sel % 4 < 2 → a.toNat < 2 ^ 32) : (t.loopPut sel a).loopGet sel = a := by
  by_cases low : sel < 16
  · simp only [Thread.loopPut, Thread.loopGet, low, if_true, setLevel_getD t (show sel / 4 < 4 by omega)]
    obtain h | h | h | h : sel % 4 = 0 ∨ sel % 4 = 1 ∨ sel % 4 = 2 ∨ sel % 4 = 3 := by omega
    · simp [h, setWidth_setWidth_of_lt (h32 low (by omega))]
    · simp [h, setWidth_setWidth_of_lt (h32 low (by omega))]
    · simp [h]
    · simp [h]
  · obtain rfl | rfl | rfl : sel = 16 ∨ sel = 17 ∨ sel = 18 := by omega
    · have := h16 rfl
      apply BitVec.eq_of_toNat_eq
      simp [Thread.loopPut, Thread.loopGet]
      omega
    · have := h17 rfl
      apply BitVec.eq_of_toNat_eq
      simp [Thread.loopPut, Thread.loopGet]
      omega
    · have small := h18 rfl
      have mask : [0, 1, 3, 7, 15].contains (a.toNat % 16) = true := by
        refine Classical.byContradiction fun bad => ?_
        rw [loopPutFault, if_neg (by decide), if_neg (by decide), if_pos rfl, if_neg bad] at ok
        cases ok
      show BitVec.ofNat 64 (lopenMask (lopenCount (a.toNat % 16))) = a
      rw [lopenMask_lopenCount mask, Nat.mod_eq_of_lt small, BitVec.ofNat_toNat, BitVec.setWidth_eq]

theorem moves_opLput {i : Instr} {len : Nat} {x : E64} (h : ∀ s, exec i s = opLput len x s) :
    let l := laneE len x [extA x]
    Moves i l (fun _ G => ∀ j ∈ G.active l, loopPutFault (x.i.toNat % 32) (G.read l j (extA x)) = none) fun _ G j t =>
      (if j ∈ G.active l then t.loopPut (x.i.toNat % 32) (G.read l j (extA x)) else t).complete len :=
  moves_lane h fun _ G ok => List.findSome?_eq_none_iff.mpr fun j hj => by rw [ok j hj]; rfl

/-- Settles O22: a `loop`, with or without its `lcfg`, is an `opLoop`; the loop-control state is read and written as it stands in the
threads. -/
theorem loops : Obligations.Loops := by
  unfold Obligations.Loops
  refine ⟨?opens, ?state⟩
  case opens =>
    intro opens
    refine ⟨?loop, ?loopL, ?lcfg⟩
    case loop =>
      intro x s G l r holds
      show ∃ t, opLoop l ((s.issue.map Issue.pc).getD 0) 4 (src x.u x.t) x.e.toNat none s = .next t ∧ _
      rw [r.pc_eq]
      exact opLoop_ran r _ _ _ _ none holds
    case loopL =>
      intro x s G l r holds
      show ∃ t, opLoop l ((s.issue.map Issue.pc).getD 0) 8 (src x.u x.t) x.e.toNat none s = .next t ∧ _
      rw [r.pc_eq]
      exact opLoop_ran r _ _ _ _ none holds
    case lcfg =>
      intro pair x s s' G b w v issue fetched
      obtain ⟨loop, loopL⟩ := execLcfg_pair (x := x) issue fetched
      refine ⟨fun bits => ?_, fun bits => ?_⟩
      · intro y ok r holds
        obtain ⟨t, runs, ran⟩ := opLoop_ran r _ _ _ _ (some (x.h, x.z.toNat, x.k.toNat + 1)) holds
        exact ⟨t, (loop w v bits ok).trans runs, ran⟩
      · intro y ok r holds
        obtain ⟨t, runs, ran⟩ := opLoop_ran r _ _ _ _ (some (x.h, x.z.toNat, x.k.toNat + 1)) holds
        exact ⟨t, (loopL w v bits ok).trans runs, ran⟩
  case state =>
    intro gets puts
    have of_opLget {i len x} (runs : ∀ s, exec i s = opLget len x s) : gets i len x :=
      delivers (chk := fun _ => noCheck) runs (fun _ _ _ => rfl) fun _ => src_uni
    have of_opLput {i len x} (runs : ∀ s, exec i s = opLput len x s) : puts i len x := moves_opLput runs
    exact ⟨fun _ => of_opLget fun _ => rfl, fun _ => of_opLget fun _ => rfl, fun _ => of_opLput fun _ => rfl, fun _ => of_opLput fun _ => rfl,
      fun t _ _ => loopGet_loopPut t⟩

end Sys2Proof.Machine
end

section
/-! Convergence, guard slots and barriers (R31, R236 to R239): groups whose threads wait for one another, and what a course notes of
its predicates. -/

namespace Sys2Proof.Machine

/-! ### Convergence -/

theorem Course.unit_congr {c d : Course} (h : c.threads.length = d.threads.length) (w slot : Nat) : c.unit w slot = d.unit w slot := by
  simp only [Course.unit, h]

/-- What a thread held at a `cnv` waits for (R31, R236). -/
def Grp.convWait (G : Grp) (mask : Nat → Nat) (pred : Option (BitVec 4)) (due len ord : Nat) (i : Nat) (t : Thread) : Thread :=
  { t with wait := .conv (mask i &&& slotMask (unitSlots (G.cs.unit G.tk.width i))) pred due len, waitOrd := ord }

/-- The course with the threads of `slots` held at a `cnv` and the others of the group past it. -/
def Grp.held (G : Grp) (x : LaneI) (slots : List Nat) (wait : Nat → Thread → Thread) : Course :=
  slots.foldl (fun c i => c.modThread i (wait i))
    ((G.g.slots.filter fun i => !slots.contains i).foldl (fun c i => c.modThread i fun t => t.complete x.len) G.cs)

/-- Changes of a thread that see no more of their course than the length that it keeps are changes by number. -/
theorem foldl_modThread_unit (l : List Nat) (c d : Course) (h : c.threads.length = d.threads.length) (w : Nat) (f : Nat × Nat → Nat → Thread → Thread) :
    l.foldl (fun c i => c.modThread i (f (c.unit w i) i)) c = l.foldl (fun c i => c.modThread i (f (d.unit w i) i)) c := by
  induction l generalizing c with
  | nil => rfl
  | cons i l ih =>
    rw [List.foldl_cons, List.foldl_cons, Course.unit_congr h, ih]
    rw [Course.length_modThread, h]

/-- The end of an instruction that holds some of its threads at a `cnv`, and no control core. -/
theorem enterConv_eq (s : State) (G : Grp) (x : LaneI) {slots : List Nat} (mask : Nat → Nat) (pred : Option (BitVec 4))
    (core : isCtl G.g.core = false) (some_ : slots ≠ []) :
    let due := s.convDue (coreDie G.g.core)
    s.enterConv G x slots mask pred = s.leaveLane G.g G.g.slots.length
      (stallCycles x.h + G.edgeCostOf x (G.g.slots.filter fun i => !slots.contains i))
      ((G.held x slots (G.convWait mask pred due x.len s.nextOrd)).converge G.tk.width s.now) := by
  intro due
  unfold State.enterConv
  rw [if_neg (by simp [core, some_])]
  extract_lets pass c
  have length : c.threads.length = G.cs.threads.length := foldMod_length (fun _ t => t.complete x.len) pass G.cs
  have held := foldl_modThread_unit slots c G.cs length G.tk.width fun u i t =>
    { t with wait := .conv (mask i &&& slotMask (unitSlots u)) pred due x.len, waitOrd := s.nextOrd }
  exact congrArg (fun c : Course => s.leaveLane G.g G.g.slots.length (stallCycles x.h + G.edgeCostOf x pass) (c.converge G.tk.width s.now)) held

/-- On a control core, or with no thread to hold, a `cnv` is passed at once (R20). -/
theorem enterConv_pass (s : State) (G : Grp) (x : LaneI) {slots : List Nat} (mask : Nat → Nat) (pred : Option (BitVec 4))
    (h : isCtl G.g.core = true ∨ slots = []) : s.enterConv G x slots mask pred = s.finish G x G.cs :=
  if_pos (h.imp_right List.isEmpty_iff.mpr)

theorem enterConv_issue (s : State) (G : Grp) (x : LaneI) (slots : List Nat) (mask : Nat → Nat) (pred : Option (BitVec 4)) :
    (s.enterConv G x slots mask pred).issue = none := by
  unfold State.enterConv
  split <;> rfl

/-- Settles O23: every `cnv` ends in `enterConv`, which passes the group or holds threads of it before it looks which waits are over. -/
theorem convergence : Obligations.Convergence := by
  unfold Obligations.Convergence
  intro waits byPred
  have of_enterConv {i l held mask pred}
      (runs : ∀ s G, InLane s G → G.check l = none → exec i s = .next (s.enterConv G l (held G) (mask G) pred))
      (sub : ∀ G, (held G).Sublist (G.active l)) : waits i l held mask pred := by
    refine ⟨fun s G r ok => ?_, fun s G r core some_ => ?_⟩
    · exact ⟨_, (runs s G r.lane r.ok).trans (congrArg _ (enterConv_pass s G l _ pred ok)), movedAs_pass r G.cs rfl⟩
    · have inside : ∀ j ∈ held G, j ∈ G.g.slots := fun j hj => r.sub j ((sub G).subset hj)
      obtain ⟨threads, _, rest⟩ := split_threads r (held G) inside ((active_nodup G l r.lane.nodup).sublist (sub G))
        (G.convWait (mask G) pred (s.convDue (coreDie G.g.core)) l.len s.nextOrd) l.len
      refine ⟨_, _, _, (runs s G r.lane r.ok).trans (congrArg _ (enterConv_eq s G l (mask G) pred core some_)), left_leave ..,
        fun j hj => (threads j).trans (if_pos hj), fun j hj out => ?_, fun j out => ?_, rest⟩
      · rw [Grp.held, threads, if_neg out, if_pos hj]
      · rw [Grp.held, threads, if_neg fun h => out (inside j h), if_neg out]
  have of_opCnv {i l mask} (runs : ∀ s, exec i s = opCnv l mask s) : waits i l (fun G => G.active l) mask none :=
    of_enterConv (fun s G h ok => (runs s).trans (withGroup_to h (by rw [ok]) (enterConv_issue ..))) fun _ => .refl _
  have of_opCnvq {i len h p} (runs : ∀ s, exec i s = opCnvq len h p s) :
      waits i { len := len, h := h, rd := [.q p] } (byPred { len := len, h := h, rd := [.q p] } p) (fun _ _ => 2 ^ 64 - 1) (some p) := by
    refine of_enterConv (fun s G h ok => (runs s).trans (withGroup_to h ?_ (enterConv_issue ..))) fun G => List.filter_sublist
    rw [ok]
    exact congrArg (fun held => s.enterConv G _ held _ _) (G.withPred_eq _ p _)
  clear_value waits
  exact ⟨fun _ => of_opCnv fun _ => rfl, fun _ => of_opCnv fun _ => rfl, fun _ => of_opCnvq fun _ => rfl, fun _ => of_opCnvq fun _ => rfl⟩

/-! ### Guard slots -/

theorem foldl_setSlot (n : Nat) (v : Nat → GSlot) (l : List Nat) (c : Course) :
    l.foldl (fun c j => c.setSlot (n % 16) (v j)) c =
      { c with g := l.foldl (fun g j => g.set (n % 16) (v j) (Nat.mod_lt n (by decide))) c.g } := by
  induction l generalizing c with
  | nil => rfl
  | cons j l ih =>
    rw [List.foldl_cons, ih]
    simp only [Course.setSlot, Nat.mod_lt n (show 16 > 0 by decide), dif_pos, List.foldl_cons]

/-- Settles O24: each sets the slot of its course for each active thread, and the threads pass. -/
theorem guardSlots : Obligations.GuardSlots := by
  unfold Obligations.GuardSlots
  intro sets set clear
  have of_lane {i l} {n : Nat} {v : Grp → Nat → GSlot} (runs : ∀ s, exec i s = s.lane l noCheck fun G j c => c.setSlot (n % 16) (v G j)) :
      sets i l n v := by
    intro s G r
    have next := (runs s).trans (r.exec_lane rfl _)
    rw [foldl_setSlot] at next
    obtain ⟨c, left, slots, others, rest⟩ := movedAs_pass (u := s) r
      { G.cs with g := (G.active l).foldl (fun g j => g.set (n % 16) (v G j) (Nat.mod_lt n (by decide))) G.cs.g } rfl
    exact ⟨_, c, next, left, slots, others, rest⟩
  have of_opSetg {i len x} (runs : ∀ s, exec i s = opSetg len x s) : set i len x :=
    of_lane fun s => (runs s).trans (by simp only [opSetg, ne_eq, bne_iff_ne])
  have of_opClrg {i len x} (runs : ∀ s, exec i s = opClrg len x s) : clear i len x := of_lane runs
  clear_value sets set clear
  exact ⟨fun _ => of_opSetg fun _ => rfl, fun _ => of_opSetg fun _ => rfl, fun _ => of_opClrg fun _ => rfl, fun _ => of_opClrg fun _ => rfl⟩

/-! ### Barriers -/

/-- An instruction whose effect leaves no group in the lane by its last step. -/
theorem withGroup_cleared {s t : State} {G : Grp} {o : Outcome} {f : Grp → State} (h : InLane s G) (runs : o = s.withGroup f)
    (effect : f G = t) : o = .next { t with issue := none } := by
  rw [runs, withGroup_eq h, effect]

/-- Settles O43: `bar` holds its active threads, and then looks which of its course's threads arrive. -/
theorem barriers : Obligations.Barriers := by
  unfold Obligations.Barriers
  intro x s G l scope ws v key r number course
  have bad : ¬ ((x.p.toNat = 1 ∧ 7 < x.i.toNat) ∨ 63 < x.i.toNat) := by
    rintro (⟨hp, hi⟩ | hi)
    · exact absurd (course (BitVec.eq_of_toNat_eq hp)) (by omega)
    · omega
  have due : (if scope = 7 ∧ (G.active l).isEmpty = false then s.dueFor G.g.core (ws.map Await.id) else s) = v :=
    if_congr (and_congr_right fun _ => by simp) rfl rfl
  have bar : ∀ k, v.bar k = s.bar k := fun k => by simp only [v]; split <;> rfl
  have ord : v.nextOrd = s.nextOrd := (apply_ite State.nextOrd _ _ _).trans (ite_self _)
  let stay := G.g.slots.filter fun i => !(G.active l).contains i
  let hold := fun (j : Nat) (a : Thread) => { a with relAfter := a.relAfter ++ ws, wait := .barrier (key j) (s.bar (key j)).seq false, waitOrd := s.nextOrd }
  refine ⟨v.leaveLane G.g G.g.slots.length (stallCycles x.h + G.edgeCostOf l stay)
    ((G.active l).foldl (fun c i => c.modThread i (hold i)) (stay.foldl (fun c i => c.modThread i fun t => t.complete l.len) G.cs)), ?_, moved_hold r hold _ _⟩
  refine withGroup_cleared r.lane rfl ?_
  rw [r.ok]
  extract_lets act bad' core scope' ws' u stay' passed held
  have none_bad : bad' = none := if_neg bad
  have waits : u = v := due
  rw [none_bad, waits]
  simp only [held, waits, bar, ord]
  rfl

end Sys2Proof.Machine
end

section
/-! Writes of the numbered registers, and the supervisor functions (R6, R58, R146, R241 to R243): effects for each active thread in
ascending slot order, over which the group then passes. -/

namespace Sys2Proof.Machine

/-! ### Courses that keep their slots -/

/-- The same courses are resident, with as many slots as before. -/
def KeepsSlots (s t : State) : Prop :=
  ∀ k n, (t.course? k n).map (fun c => c.threads.length) = (s.course? k n).map fun c => c.threads.length

theorem KeepsSlots.refl (s : State) : KeepsSlots s s := fun _ _ => rfl

theorem KeepsSlots.trans {s t u : State} (a : KeepsSlots s t) (b : KeepsSlots t u) : KeepsSlots s u := fun k n => (b k n).trans (a k n)

theorem keepsSlots_of_course? {s t : State} (h : ∀ k n, t.course? k n = s.course? k n) : KeepsSlots s t := fun k n => by rw [h]

theorem keepsSlots_of_cores {s t : State} (h : t.cores = s.cores) : KeepsSlots s t :=
  keepsSlots_of_course? fun k n => by simp only [State.course?, State.core, h]

theorem keepsSlots_modCore (s : State) (k : Nat) {f : Core → Core} (hf : ∀ x, (f x).courses = x.courses) : KeepsSlots s (s.modCore k f) :=
  keepsSlots_of_course? (course?_modCore s k f hf)

theorem keepsSlots_modCourse (s : State) (k n : Nat) {f : Course → Course} (hf : ∀ c, (f c).threads.length = c.threads.length) :
    KeepsSlots s (s.modCourse k n f) := fun j m => by
  rw [State.course?_modCourse]
  split
  · rw [Option.map_map]
    exact congrArg (fun g => (s.course? j m).map g) (funext hf)
  · rfl

theorem keepsSlots_modTask (s : State) (k n : Nat) (f : Task → Task) : KeepsSlots s (s.modTask k n f) :=
  keepsSlots_of_course? fun _ _ => State.course?_modTask ..

theorem keepsSlots_foldl {α : Type} {f : State → α → State} (h : ∀ s a, KeepsSlots s (f s a)) (l : List α) (s : State) :
    KeepsSlots s (l.foldl f s) := by
  induction l generalizing s with
  | nil => exact .refl s
  | cons a l ih => exact (h s a).trans (ih _)

/-- A group passes over a state in which its course has the slots that it had. -/
theorem passed_over {s u : State} {G : Grp} {x : LaneI} (r : Runs s G x) (h : KeepsSlots s u) :
    Passed u (u.finish G x ((u.course? G.g.core G.g.course).getD G.cs)) G x.len := by
  have slots := h G.g.core G.g.course
  rw [r.lane.course, Option.map_some, Option.map_eq_some_iff] at slots
  obtain ⟨c, course, length⟩ := slots
  refine ⟨c, course, ?_⟩
  rw [course, Option.getD_some]
  have threads := completeAll_thread G x c r.lane.nodup fun i hi => by
    rw [length]
    exact r.lane.range i hi
  obtain ⟨ts, rest⟩ := completeAll_rest G x c
  refine moved_leave (G := { G with cs := c }) _ _ _ (fun i hi => (threads i).trans (if_pos hi)) (fun i hi => (threads i).trans (if_neg hi)) ?_
  show { G.completeAll x c with threads := [] } = { c with threads := [] }
  rw [rest]

/-! ### Writes of registers -/

theorem keepsSlots_writeDbgctl (s : State) (core : Nat) (v : Word) : KeepsSlots s (s.writeDbgctl core v) := by
  have written := keepsSlots_modCore s core (f := fun k => { k with dbgctl := v }) fun _ => rfl
  unfold State.writeDbgctl
  dsimp only
  split
  · exact written.trans (keepsSlots_modCourse _ _ _ fun _ => rfl)
  · exact written

/-- No register holds a course's threads. -/
theorem keepsSlots_csrStore (s : State) (core course n : Nat) (v : Word) : KeepsSlots s (s.csrStore core course n v) := by
  unfold State.csrStore
  extract_lets task
  have of_task : ∀ f, KeepsSlots s (task f) := fun f => by
    simp only [task]
    split
    · exact keepsSlots_modTask _ _ _ _
    · exact .refl s
  have of_course : ∀ f : Course → Course, (∀ c, (f c).threads = c.threads) → KeepsSlots s (s.modCourse core course f) := fun f hf =>
    keepsSlots_modCourse s core course fun c => by rw [hf]
  split
  · exact of_course _ fun _ => rfl
  split
  · exact of_task _
  split
  · exact of_course _ fun _ => rfl
  split
  · exact of_task _
  split
  · exact of_task _
  split
  · exact of_task _
  split
  · exact keepsSlots_writeDbgctl s core v
  split
  · exact keepsSlots_of_cores rfl
  split
  · exact keepsSlots_modCore s core fun _ => rfl
  · exact keepsSlots_modCore s core fun _ => rfl

section Writes
variable {s : State} {G : Grp} {len n : Nat} {how : CsrHow} {x : E64} (r : Runs s G (laneE len x [extA x] false (csrSup n)))
  (assigned : csrAssigned n = true)
include r assigned

/-- A write to a register without writable fields passes its group (R51). -/
theorem opCsr_readOnly (fields : csrFields n = none) : opCsr len n how x s = .next (s.finish G (laneE len x [extA x] false (csrSup n)) G.cs) := by
  refine withGroup_to r.lane ?_ rfl
  extract_lets bad
  have none_bad : bad = none := List.findSome?_eq_none_iff.mpr fun j _ => by
    rw [assigned, fields]
    rfl
  rw [r.ok, none_bad, fields]
  rfl

/-- A write that sets no RZ bit stores, thread by thread, what its fields become (R6, R58). -/
theorem opCsr_next {f : CsrFields} (fields : csrFields n = some f)
    (rz : ∀ j ∈ G.active (laneE len x [extA x] false (csrSup n)), csrRz f how (G.read (laneE len x [extA x] false (csrSup n)) j (extA x)) = false) :
    opCsr len n how x s = .next (s.finishWrites G (laneE len x [extA x] false (csrSup n)) fun s j =>
      match s.course? G.g.core G.g.course, s.task? G.g.core G.cs.task with
      | some c, some tk => s.csrStore G.g.core G.g.course n (csrNew f how
          (s.csrRead G.g.core G.g.course j (G.cyc (laneE len x [extA x] false (csrSup n)) j) c tk n)
          (G.read (laneE len x [extA x] false (csrSup n)) j (extA x)))
      | _, _ => s) := by
  refine withGroup_to r.lane ?_ rfl
  extract_lets bad
  have none_bad : bad = none := List.findSome?_eq_none_iff.mpr fun j hj => by
    rw [assigned, fields]
    exact if_neg (Bool.eq_false_iff.mp (rz j hj))
  rw [r.ok, none_bad, fields]
  rfl
end Writes

/-- Settles O27: every write is an `opCsr`; no store touches the slots of a course. -/
theorem registerWrites : Obligations.RegisterWrites := by
  unfold Obligations.RegisterWrites
  intro writes
  have of_opCsr {i len n how x} (runs : ∀ s, exec i s = opCsr len n how x s) : writes i len n how x := by
    intro s G l r assigned rz
    cases fields : csrFields n with
    | none => exact ⟨_, (runs s).trans (opCsr_readOnly r assigned fields), movedAs_pass r G.cs rfl⟩
    | some f =>
      refine ⟨_, (runs s).trans (opCsr_next r assigned fields (rz f fields)), passed_over r (keepsSlots_foldl (fun u j => ?_) _ s)⟩
      split
      · exact keepsSlots_csrStore _ _ _ _ _
      · exact .refl u
  clear_value writes
  refine ⟨?csrw, ?csrwL, ?csrs, ?csrsL, ?csrc, ?csrcL, ?wpset, ?wpsetL⟩
  all_goals exact fun _ => of_opCsr fun _ => rfl

/-! ### Supervisor functions -/

/-- A handler that returns, with its own stores performed and no other action asked for, resumes its course (R241, R391). -/
theorem opTret_resumes {s : State} {G : Grp} {len : Nat} {h : Hdr} (r : Runs s G { len := len, h := h, priv := true })
    (handler : ∃ j, G.cs.trap = .handler j) (some_ : G.active { len := len, h := h, priv := true } ≠ [])
    (stored : s.writesPending G.g.core G.g.course = false) (action : s.physNat (frameSlot G.g.core G.g.course + 0x18) 8 % 4 < 2) :
    opTret len h s = .next { (s.leaveLane G.g 1 0 G.cs).resume G.g.core G.g.course with issue := none } := by
  obtain ⟨j, trap⟩ := handler
  refine withGroup_cleared r.lane rfl ?_
  extract_lets act inHandler bad core action' u v ends
  have none_bad : bad = none := by simp only [bad, inHandler, trap, if_true]
  have none_asked : action' ≠ 2 ∧ action' ≠ 3 := ⟨Nat.ne_of_lt action, Nat.ne_of_lt (Nat.lt_succ_of_lt action)⟩
  have goes_on : ends = false := by simp [ends, none_asked]
  have plain : v = u := if_neg none_asked.2
  rw [r.ok, none_bad, goes_on, plain, stored]
  exact if_neg (mt List.isEmpty_iff.mp some_)

/-- Threads that wait for their `cresize`, before the next one starts (R146). -/
theorem opCresize_waits {s : State} {G : Grp} {len : Nat} {x : E64} (r : Runs s G (laneE len x [extA x] false true))
    (small : ∀ j ∈ G.active (laneE len x [extA x] false true), (G.read (laneE len x [extA x] false true) j (extA x)).toNat ≤ 15) :
    let l := laneE len x [extA x] false true
    ∃ u, Moved s u G (fun j a => if j ∈ G.active l then { a with wait := .cresize (G.read l j (extA x)).toNat len } else a.complete len) ∧
      opCresize len x s = .next { u.startResize (coreDie G.g.core) with issue := none } := by
  intro l
  refine ⟨_, moved_hold r (fun j a => { a with wait := .cresize (G.read l j (extA x)).toNat len }) G.g.slots.length
      (stallCycles x.h + G.edgeCostOf l (G.g.slots.filter fun i => !(G.active l).contains i)),
    withGroup_cleared r.lane rfl ?_⟩
  extract_lets act bad
  have none_bad : bad = none := List.findSome?_eq_none_iff.mpr fun j hj => if_neg (Nat.not_lt.mpr (small j hj))
  rw [r.ok, none_bad]
  rfl

/-- Changes of one core, one after the other. -/
theorem foldl_modCore {α : Type} (k : Nat) (f : α → Core → Core) (l : List α) (s : State) :
    (l.foldl (fun s a => s.modCore k (f a)) s).core k = l.foldl (fun c a => f a c) (s.core k) ∧
      (∀ j, j ≠ k → (l.foldl (fun s a => s.modCore k (f a)) s).core j = s.core j) ∧
      { l.foldl (fun s a => s.modCore k (f a)) s with cores := [] } = { s with cores := [] } := by
  induction l generalizing s with
  | nil => exact ⟨rfl, fun _ _ => rfl, rfl⟩
  | cons a l ih =>
    obtain ⟨core, cores, rest⟩ := ih (s.modCore k (f a))
    refine ⟨core.trans ?_, fun j hj => (cores j hj).trans ?_, rest⟩
    · rw [State.core_modCore, if_pos rfl]
      rfl
    · rw [State.core_modCore, if_neg hj]

/-- Word `n` of the outbound mailbox takes a value (R243). -/
def Core.post (n : Nat) (v : Word) (k : Core) : Core := { k with mbOut := if h : n < 16 then k.mbOut.set n v else k.mbOut }

theorem foldl_post {α : Type} {n : Nat} (h : n < 16) (v : α → Word) (l : List α) (k : Core) :
    l.foldl (fun k a => k.post n (v a)) k = { k with mbOut := l.foldl (fun w a => w.set n (v a)) k.mbOut } := by
  induction l generalizing k with
  | nil => rfl
  | cons a l ih =>
    have once : k.post n (v a) = { k with mbOut := k.mbOut.set n (v a) } := by rw [Core.post, dif_pos h]
    rw [List.foldl_cons, once, ih]
    rfl

theorem Core.courses_post (n : Nat) (v : Word) (k : Core) : (k.post n v).courses = k.courses := rfl

/-- A `dbgmb` to a word below 15 fills the word, thread by thread (R243). -/
theorem opDbgmb_next {s : State} {G : Grp} {len : Nat} {x : E64} (r : Runs s G (laneE len x [extA x] false true)) (short : x.i.toNat % 16 < 15) :
    let l := laneE len x [extA x] false true
    opDbgmb len x s = .next (s.finishWrites G l fun s j => s.modCore G.g.core (Core.post (x.i.toNat % 16) (G.read l j (extA x)))) := by
  intro l
  refine withGroup_to r.lane ?_ rfl
  have low : x.i.toNat % 16 ≠ 15 := Nat.ne_of_lt short
  simp only [r.ok, low, false_and, if_false]
  rfl

/-- The first change of a die's division that waits begins, where it is one (R146). -/
theorem startResize_begins {s : State} {d k n i w len : Nat} {r : List (Nat × Nat × Nat × Nat × Nat)}
    (first : s.resizers d = (k, n, i, w, len) :: r) (free : (s.die d).resize = none) (other : w ≠ (s.die d).ways) :
    s.startResize d = s.modDie d fun x => { x with resize := some w } := by
  unfold State.startResize
  rw [first, State.startResize.go, free]
  exact if_neg other

/-- Settles O29: `halt` changes its threads, `tret` resumes its course, `cresize` waits, and `dbgmb` fills the outbound mailbox. -/
theorem supervisorFunctions : Obligations.SupervisorFunctions := by
  unfold Obligations.SupervisorFunctions
  intro halts returns resizes posts
  have of_opHalt {i len h} (runs : ∀ s, exec i s = opHalt len h s) : halts i len h :=
    moves_lane (chk := fun _ => noCheck) runs fun _ _ _ => rfl
  have of_opTret {i len h} (runs : ∀ s, exec i s = opTret len h s) : returns i len h := by
    intro s G l r handler some_ stored action
    exact ⟨_, left_leave .., (runs s).trans (opTret_resumes r handler some_ stored action)⟩
  have of_opCresize {i len x} (runs : ∀ s, exec i s = opCresize len x s) : resizes i len x := by
    intro s G l r small
    obtain ⟨u, moved, next⟩ := opCresize_waits r small
    exact ⟨u, moved, (runs s).trans next⟩
  have of_opDbgmb {i len x} (runs : ∀ s, exec i s = opDbgmb len x s) : posts i len x := by
    intro s G l r short
    obtain ⟨core, cores, rest⟩ := foldl_modCore G.g.core (fun j => Core.post (x.i.toNat % 16) (G.read l j (extA x))) (G.active l) s
    exact ⟨_, _, (runs s).trans (opDbgmb_next r short), passed_over r (keepsSlots_foldl (fun u j => keepsSlots_modCore _ _ fun k => Core.courses_post _ _ k) _ s),
      core.trans (foldl_post (Nat.mod_lt _ (by decide)) ..), cores, rest⟩
  clear_value halts returns resizes posts
  refine ⟨?halt, ?haltL, ?tret, ?tretL, ?cresize, ?cresizeL, ?dbgmb, ?dbgmbL, ?start⟩
  case halt => exact fun _ => of_opHalt fun _ => rfl
  case haltL => exact fun _ => of_opHalt fun _ => rfl
  case tret => exact fun _ => of_opTret fun _ => rfl
  case tretL => exact fun _ => of_opTret fun _ => rfl
  case cresize => exact fun _ => of_opCresize fun _ => rfl
  case cresizeL => exact fun _ => of_opCresize fun _ => rfl
  case dbgmb => exact fun _ => of_opDbgmb fun _ => rfl
  case dbgmbL => exact fun _ => of_opDbgmb fun _ => rfl
  case start => exact fun s d k n i w len r first free other => startResize_begins first free other

end Sys2Proof.Machine
end

section
/-! Records kept in event queues, overflow rings and for the host (R80, R354) touch no course; `trap`, `bkpt` and `sysc` (R240, R360). -/

namespace Sys2Proof.Machine

/-! ### What a record leaves unchanged -/

/-- The cores are as they were but for the counters of their banks (R164), and no call begins or ends. -/
structure Records (s t : State) : Prop where
  calls : t.calls = s.calls
  core : ∀ k, ∃ tags, t.core k = { s.core k with bankTag := tags }

namespace Records

theorem refl (s : State) : Records s s := ⟨rfl, fun k => ⟨(s.core k).bankTag, rfl⟩⟩

theorem trans {s t u : State} (a : Records s t) (b : Records t u) : Records s u :=
  ⟨b.calls.trans a.calls, fun k => by
    obtain ⟨_, ht⟩ := a.core k
    obtain ⟨tags, hu⟩ := b.core k
    exact ⟨tags, by rw [hu, ht]⟩⟩

theorem of_cores {s t : State} (calls : t.calls = s.calls) (cores : t.cores = s.cores) : Records s t :=
  ⟨calls, fun k => ⟨(s.core k).bankTag, by rw [State.core, cores]; rfl⟩⟩

theorem foldl {α : Type} {f : State → α → State} (h : ∀ s a, Records s (f s a)) (l : List α) (s : State) : Records s (l.foldl f s) := by
  induction l generalizing s with
  | nil => exact refl s
  | cons a l ih => exact (h s a).trans (ih _)

theorem course? {s t : State} (h : Records s t) (k n : Nat) : t.course? k n = s.course? k n := by
  obtain ⟨tags, core⟩ := h.core k
  rw [State.course?, core]
  rfl

theorem evCursor {s t : State} (h : Records s t) (k : Nat) : (t.core k).evCursor = (s.core k).evCursor := by
  obtain ⟨tags, core⟩ := h.core k
  rw [core]

theorem stamp (s : State) (x : Loc) : Records s (s.stamp x).2 := by
  unfold State.stamp
  split
  case h_1 k a =>
    refine ⟨rfl, fun j => ?_⟩
    rw [State.core_modCore]
    split
    case isTrue same => exact ⟨_, by rw [same]⟩
    case isFalse => exact (refl s).core j
  case h_2 => exact refl s
  case h_3 =>
    dsimp only
    obtain ⟨l, f, n, h⟩ := ensureLine_rest s x.dieOf x.lineNo
    rw [h]
    exact of_cores rfl rfl

theorem stampAll (s : State) (x : Loc) (n : Nat) : Records s (s.stampAll x n) := by
  unfold State.stampAll
  split
  · exact foldl (fun s _ => stamp s _) _ s
  · exact stamp s _

theorem locWrite (s : State) (x : Loc) (bs : List Byte) : Records s (s.locWrite x bs) := by
  unfold State.locWrite
  split <;> exact of_cores rfl rfl

theorem markWritten (s : State) (x : Loc) (n : Nat) : Records s (s.markWritten x n) := by
  unfold State.markWritten
  split
  · split
    · exact of_cores rfl rfl
    · exact refl s
  · exact refl s

theorem physStore (s : State) (a : Nat) (bs : List Byte) : Records s (s.physStore a bs) := by
  refine foldl (fun s p => ?_) _ s
  split
  · exact ((locWrite s _ _).trans (stampAll _ _ _)).trans (markWritten _ _ _)
  · exact refl s

theorem setCluster (s : State) (cl : Nat) (c : Cluster) : Records s (s.setCluster cl c) := of_cores rfl rfl
theorem modCluster (s : State) (cl : Nat) (f : Cluster → Cluster) : Records s (s.modCluster cl f) := of_cores rfl rfl

theorem overflowQueued (s : State) (cl : Nat) : Records s (s.overflowQueued cl) := by
  unfold State.overflowQueued
  dsimp only
  split
  · exact setCluster _ _ _
  · exact refl s

theorem toOverflow (s : State) (cl : Nat) (bs : List Byte) : Records s (s.toOverflow cl bs) :=
  (physStore s _ _).trans (setCluster _ _ _)

theorem takeEvent {s u : State} {cl : Nat} {e : Event} (taken : s.takeEvent cl e = some u) : Records s u := by
  unfold State.takeEvent at taken
  dsimp only at taken
  split at taken
  · cases taken
    exact (overflowQueued s cl).trans (setCluster _ _ _)
  · split at taken
    · cases taken
      exact (overflowQueued s cl).trans (toOverflow _ _ _)
    · cases taken

theorem postEvent (s : State) (cl : Nat) (e : Event) : Records s (s.postEvent cl e) := by
  unfold State.postEvent
  split
  · split
    case h_1 u taken => exact takeEvent taken
    case h_2 => exact modCluster _ _ _
  · exact modCluster _ _ _

theorem drainEvents (s : State) (cl : Nat) : Records s (s.drainEvents cl) := by
  refine (overflowQueued s cl).trans (foldl (fun s e => ?_) _ _)
  split
  · split
    case h_1 u taken => exact (takeEvent taken).trans (modCluster _ _ _)
    case h_2 => exact refl s
  · exact refl s

theorem freeHostEvents (s : State) : Records s s.freeHostEvents := by
  refine foldl (fun s cl => ?_) _ s
  dsimp only
  split
  · exact (modCluster s _ _).trans (drainEvents _ _)
  · exact refl s

theorem pumpRing (s : State) (ring : Nat) : Records s (s.pumpRing ring) := by
  have pumped : Records s { s with host := s.host.pump s.time ring s.host.waiting.length } := of_cores rfl rfl
  unfold State.pumpRing
  dsimp only
  split
  · exact pumped.trans (freeHostEvents _)
  · exact pumped

theorem toHost (s : State) (ring type : Nat) (bs : List Byte) : Records s (s.toHost ring type bs) := by
  have waits : ∀ h, Records s { s with host := h } := fun _ => of_cores rfl rfl
  exact (waits _).trans (pumpRing _ _)

/-- A record for the host is sent, waits, or goes to a cluster's overflow ring. -/
theorem recordTo (s : State) (cl ring type : Nat) (bs : List Byte) : Records s (s.recordTo cl ring type bs) := by
  have queued := overflowQueued s cl
  have waits : ∀ (u : State) (h : HostLink), Records u { u with host := h } := fun _ _ => of_cores rfl rfl
  unfold State.recordTo
  extract_lets m n wait u c
  split
  · exact toHost s ring type bs
  split
  · exact queued.trans (waits u _)
  split
  · exact queued.trans ((waits u _).trans (modCluster _ _ _))
  split
  · exact queued.trans (foldl (fun u i => toOverflow u _ _) _ u)
  · exact queued.trans (waits u _)

end Records

/-! ### Traps that instructions raise -/

/-- An instruction that raises a trap passes where none of its threads is active, and else traps in the lowest active one (R240). -/
theorem raises_trap {s : State} {G : Grp} {l : LaneI} {o : Outcome} {f : Grp → State} {code num : Nat} (r : Runs s G l) (runs : o = s.withGroup f)
    (effect : f G = s.raise G l code num) :
    ∃ t, o = .next t ∧ (G.active l = [] → Moved s t G fun _ a => a.complete l.len) ∧
      ∀ j rest, G.active l = j :: rest → t = { s.trapNow G { code := code, num := num, ipc := G.g.pc, tmask := 2 ^ j } with issue := none } := by
  cases active : G.active l with
  | nil =>
    have passes : f G = s.finish G l G.cs := by rw [effect, State.raise, active]; rfl
    exact ⟨_, runs.trans (withGroup_to r.lane passes rfl), fun _ => movedAs_pass r G.cs rfl, nofun⟩
  | cons i rest =>
    have traps : f G = s.trapNow G { code := code, num := num, ipc := G.g.pc, tmask := 2 ^ i } := by rw [effect, State.raise, active]; rfl
    refine ⟨_, withGroup_cleared r.lane runs traps, nofun, fun j _ same => ?_⟩
    rw [(List.cons.inj same).1]

theorem State.calls_modCourse (s : State) (k n : Nat) (f : Course → Course) :
    (s.modCourse k n f).calls = s.calls ∧ (s.modCourse k n f).nextCall = s.nextCall := by
  unfold State.modCourse
  split <;> exact ⟨rfl, rfl⟩

/-- A system call parks its course on a new call, of which the host is told (R360). -/
theorem sysCall_parks (s : State) (G : Grp) (mask n : Nat) :
    (∃ c, (s.sysCall G mask n).course? G.g.core G.g.course = some c ∧ c.park = some (.sysc s.nextCall (slotMask G.g.slots) 4) ∧
      c.syscall = s.nextCall ∧ c.threads = G.cs.threads) ∧
    (s.sysCall G mask n).nextCall = s.nextCall % (2 ^ 32 - 1) + 1 ∧
    (s.sysCall G mask n).calls = s.calls ++ [{ id := s.nextCall, die := G.tk.ref.die, graph := G.tk.ref.graph, node := G.tk.ref.node
                                               index := G.tk.ref.index, pos := G.cs.pos, mask := mask }] := by
  unfold State.sysCall
  extract_lets id recorded call u
  have told : recorded.calls = s.calls := (Records.recordTo s _ _ _ _).calls
  let parked : Course := { ({ G.cs with syscall := id, syscApplied := false } : Course).rearm with
    park := some (.sysc id (slotMask G.g.slots) 4), wakeAt := none }
  obtain ⟨⟨x, y, b, c, course⟩, -⟩ := leaveLane_keeps u G 1 0 parked
  have parks := (State.course?_modCourse (u.leaveLane G.g 1 0 parked) G.g.core G.g.course _ _ fun c => { c with stepping := G.cs.stepping }).trans
    ((if_pos ⟨rfl, rfl⟩).trans (congrArg (Option.map _) course))
  exact ⟨⟨_, parks, rfl, rfl, rfl⟩, (State.calls_modCourse ..).2, (State.calls_modCourse ..).1.trans (congrArg (· ++ [call]) told)⟩

/-- Settles O41: all three go through `State.raise`, but for the system call that goes to the host. -/
theorem trapInstructions : Obligations.TrapInstructions := by
  unfold Obligations.TrapInstructions
  intro raises
  have trap x : raises (.trap x) x.h (fun _ _ => True) 0x60 x.i.toNat := fun s G r _ =>
    raises_trap r rfl (by rw [r.ok])
  have bkpt x : raises (.bkpt x) x.h (fun s G => (s.core G.g.core).dbgctl.getLsbD 0 = true) 0x50 x.i.toNat := fun s G r enabled =>
    raises_trap r rfl (by rw [r.ok]; exact if_pos enabled)
  have sysc x : raises (.sysc x) x.h (fun s G => s.route G.g.core false 0x61 ≠ 3) 0x61 x.i.toNat := fun s G r route => by
    refine raises_trap r rfl ?_
    rw [r.ok]
    by_cases none_ : G.active { len := 4, h := x.h } = []
    · have passes : s.raise G { len := 4, h := x.h } 0x61 x.i.toNat = s.finish G { len := 4, h := x.h } G.cs := by
        rw [State.raise, none_]
        rfl
      exact (if_pos (List.isEmpty_iff.mpr none_)).trans passes.symm
    · exact (if_neg (mt List.isEmpty_iff.mp none_)).trans (if_neg route)
  clear_value raises
  refine ⟨trap, bkpt, fun x s G r off => ?off, sysc, ?call⟩
  case off =>
    refine ⟨_, withGroup_to r.lane ?_ rfl, movedAs_pass r G.cs rfl⟩
    rw [r.ok]
    exact if_neg (by rw [off]; exact Bool.false_ne_true)
  case call =>
    intro x s G l r some_ route
    obtain ⟨⟨c, course, park, call, threads⟩, next, calls⟩ := sysCall_parks s G (slotMask (G.active l)) x.i.toNat
    refine ⟨_, c, withGroup_cleared r.lane rfl ?_, course, park, call, fun j => ?_, next, calls⟩
    · rw [r.ok]
      exact (if_neg (mt List.isEmpty_iff.mp some_)).trans (if_pos route)
    · have same : c.thread j = G.cs.thread j := by rw [Course.thread, threads]; rfl
      exact ⟨congrArg Thread.pc same, congrArg Thread.v same⟩

end Sys2Proof.Machine
end

section
/-! Launches, releases and event records by instructions (R80, R244): effects for each active thread in ascending slot order. -/

namespace Sys2Proof.Machine

/-! ### The pools of a die touch no core -/

theorem cores_foldl {α : Type} {f : State → α → State} (h : ∀ s a, (f s a).cores = s.cores) (l : List α) (s : State) :
    (l.foldl f s).cores = s.cores := by
  induction l generalizing s with
  | nil => rfl
  | cons a l ih => exact (ih _).trans (h s a)

theorem cores_placeGang {s u : State} {die : Nat} {r : Nat × Nat × Nat} (placed : s.placeGang die r = some u) : u.cores = s.cores := by
  unfold State.placeGang at placed
  split at placed
  · split at placed
    · cases placed
    · dsimp only at placed
      split at placed
      · cases placed
      · cases placed
        rfl
  · cases placed

theorem cores_insertResumed (s : State) (die prio : Nat) (r : TaskRef) : (s.insertResumed die prio r).cores = s.cores := rfl

theorem cores_placeResumed {s u : State} {die : Nat} {r : Nat × Nat × Nat} (placed : s.placeResumed die r = some u) : u.cores = s.cores := by
  unfold State.placeResumed at placed
  split at placed
  · cases placed
  · dsimp only at placed
    split at placed
    · cases placed
    · cases placed
      exact cores_foldl (fun s m => cores_insertResumed s _ _ _) _ _

theorem cores_refill (s : State) (die fuel : Nat) : (s.refill die fuel).cores = s.cores := by
  induction fuel generalizing s with
  | zero => rfl
  | succ fuel ih =>
    unfold State.refill
    split
    case h_1 u placed =>
      refine (ih u).trans ?_
      rcases Option.or_eq_some_iff.mp placed with placed | ⟨-, placed⟩
      · obtain ⟨r, -, placed⟩ := List.exists_of_findSome?_eq_some placed
        exact cores_placeResumed placed
      · obtain ⟨r, -, placed⟩ := List.exists_of_findSome?_eq_some placed
        exact cores_placeGang placed
    case h_2 => rfl

theorem cores_nodeReady (s : State) (d seq n : Nat) : (s.nodeReady d seq n).cores = s.cores :=
  cores_foldl (fun s die => cores_refill s die 4096) _ _

theorem cores_startReady (s : State) (d seq : Nat) : (s.startReady d seq).cores = s.cores := by
  unfold State.startReady
  split
  · rfl
  · refine cores_foldl (fun s n => ?_) _ s
    split
    · exact cores_nodeReady s d seq n.2
    · rfl

theorem cores_served (s : State) (x : Loc) (n : Nat) : (s.served x n).cores = s.cores := by
  obtain ⟨l, f, k, h⟩ := served_rest s x n
  rw [h]

theorem cores_engServed (s : State) (v : EngView) (o : Operand) (a n csel : Nat) : (s.engServed v o a n csel).cores = s.cores := by
  refine cores_foldl (fun s p => ?_) _ s
  split
  · exact cores_served s _ _
  · rfl

/-! ### A launch and a release keep the slots of every course -/

theorem Course.length_endWait (c : Course) (now i len : Nat) : (c.endWait now i len).threads.length = c.threads.length :=
  Course.length_modThread c i fun t => t.release len

theorem keepsSlots_startResize (s : State) (d : Nat) : KeepsSlots s (s.startResize d) := by
  unfold State.startResize
  generalize s.resizers d = waiting
  induction waiting generalizing s with
  | nil => exact .refl s
  | cons r rest ih =>
    obtain ⟨k, n, i, w, len⟩ := r
    unfold State.startResize.go
    split
    · exact .refl s
    split
    · exact (keepsSlots_modCourse s k n fun c => c.length_endWait s.now i len).trans (ih _)
    · exact keepsSlots_of_cores rfl

theorem get_map {α : Type} (f : α → α) {d : α} (h : f d = d) (t : Tab α) (k : Nat) :
    Tab.get (t.map fun p => (p.1, f p.2)) k d = f (t.get k d) := by
  induction t with
  | nil => exact h.symm
  | cons p t ih =>
    simp only [List.map_cons, Tab.get]
    split
    · rfl
    · exact ih

/-- A change of every course, each with as many slots as before. -/
theorem keepsSlots_mapCourses (s : State) {f : Course → Course} (hf : ∀ c, (f c).threads.length = c.threads.length) :
    KeepsSlots s { s with cores := s.cores.map fun k => (k.1, { k.2 with courses := k.2.courses.map fun c => (c.1, f c.2) }) } := fun k n => by
  have core := get_map (fun x : Core => { x with courses := x.courses.map fun c => (c.1, f c.2) }) (d := {}) rfl s.cores k
  rw [State.course?, State.core, core, find_map fun _ => f, Option.map_map]
  exact congrArg (fun g => (s.course? k n).map g) (funext hf)

theorem cores_evictLine (s : State) (l : LineMeta) : (s.evictLine l).cores = s.cores := rfl

theorem cores_dropWays (s : State) (d w : Nat) : (s.dropWays d w).cores = s.cores := cores_foldl cores_evictLine _ s

theorem cores_dropScratch (s : State) (d w : Nat) : (s.dropScratch d w).cores = s.cores := cores_foldl cores_evictLine _ s

theorem keepsSlots_redivided (s : State) (d w : Nat) : KeepsSlots s (s.redivided d w) := by
  have left : (s.linesLeft d w).cores = s.cores := by
    unfold State.linesLeft
    split
    · exact (cores_dropScratch _ d _).trans (cores_dropWays s d _)
    · exact cores_dropScratch s d _
  unfold State.redivided
  extract_lets ways lo hi u v wake
  exact (keepsSlots_of_cores left : KeepsSlots s v).trans (keepsSlots_mapCourses v fun c => by simp only [wake]; split <;> rfl)

theorem keepsSlots_cresizeDone (s : State) (d : Nat) : KeepsSlots s (s.cresizeDone d) := by
  cases asked : (s.die d).resize with
  | none =>
    unfold State.cresizeDone
    rw [asked]
    exact .refl s
  | some w =>
    rw [State.cresizeDone_eq asked]
    refine (keepsSlots_redivided s d w).trans ?_
    split
    · exact (keepsSlots_modCourse _ _ _ fun c => c.length_endWait _ _ _).trans (keepsSlots_startResize _ _)
    · exact keepsSlots_startResize _ _

theorem keepsSlots_resizesFirst (s : State) : KeepsSlots s s.resizesFirst := by
  unfold State.resizesFirst
  exact keepsSlots_foldl (fun s d => keepsSlots_foldl (fun s _ => keepsSlots_cresizeDone s d) _ s) _ s

theorem cores_modDie (s : State) (d : Nat) (f : Die → Die) : (s.modDie d f).cores = s.cores := rfl
theorem cores_pastFar (s : State) : s.pastFar.cores = s.cores := rfl

theorem keepsSlots_submit (s : State) (d : Nat) (v : EngView) (task : Bool) (va align : Nat) : KeepsSlots s (s.submit d v task va align).2 := by
  unfold State.submit
  extract_lets u
  refine KeepsSlots.trans (t := u) (keepsSlots_resizesFirst s) ?_
  clear_value u
  split
  case h_1 => exact keepsSlots_of_cores rfl
  case h_2 g checked =>
    have served := cores_foldl (fun (u : State) (r : Nat × Nat) => cores_engServed u v (glAt r.1) 0 r.2 0) (u.launchRanges v va g) u
    refine keepsSlots_of_cores ?_
    dsimp only
    rw [cores_startReady, cores_modDie, cores_pastFar]
    exact served

theorem keepsSlots_of_records {s t : State} (h : Records s t) : KeepsSlots s t := keepsSlots_of_course? h.course?

theorem keepsSlots_releaseError (s : State) (d seq node code : Nat) : KeepsSlots s (s.releaseError d seq node code) :=
  keepsSlots_of_records (.postEvent s _ _)

theorem keepsSlots_decrement (s : State) (d seq n : Nat) (report : Bool) : KeepsSlots s (s.decrement d seq n report) := by
  unfold State.decrement
  split
  · exact .refl s
  split
  · split
    · exact keepsSlots_releaseError s d seq n _
    · exact .refl s
  dsimp only
  split
  · exact keepsSlots_of_cores (cores_nodeReady _ _ _ _)
  · exact keepsSlots_of_cores rfl

theorem keepsSlots_releaseNode (s : State) (d seq n : Nat) : KeepsSlots s (s.releaseNode d seq n) := by
  unfold State.releaseNode
  split
  · exact keepsSlots_releaseError s d seq n _
  split
  · exact keepsSlots_decrement s _ seq n true
  · exact keepsSlots_releaseError s _ seq n _

/-! ### Event queues -/

theorem evWait_overflowQueued (s : State) (cl : Nat) : ((s.overflowQueued cl).cluster cl).evWait = (s.cluster cl).evWait := by
  unfold State.overflowQueued
  dsimp only
  split
  · rw [State.cluster_setCluster, if_pos rfl]
  · rfl

theorem evWait_toOverflow (s : State) (cl : Nat) (bs : List Byte) : ((s.toOverflow cl bs).cluster cl).evWait = (s.cluster cl).evWait := by
  unfold State.toOverflow
  dsimp only
  rw [State.cluster_setCluster, if_pos rfl]

theorem evWait_takeEvent {s u : State} {cl : Nat} {e : Event} (taken : s.takeEvent cl e = some u) :
    (u.cluster cl).evWait = (s.cluster cl).evWait := by
  unfold State.takeEvent at taken
  dsimp only at taken
  refine Eq.trans ?_ (evWait_overflowQueued s cl)
  split at taken
  · cases taken
    rw [State.cluster_setCluster, if_pos rfl]
  · split at taken
    · cases taken
      exact evWait_toOverflow _ _ _
    · cases taken

/-- A record enters only behind those that wait with their producers (R80). -/
def State.takeBehind (cl : Nat) (e : Event) (s : State) : Option State := if (s.cluster cl).evWait.isEmpty then s.takeEvent cl e else none

/-- Where no record waits with its producer, records that can be taken one after the other enter so. -/
theorem foldl_takeBehind {α : Type} {cl : Nat} {event : α → Event} {l : List α} {s u : State} (empty : (s.cluster cl).evWait = [])
    (taken : l.foldlM (fun s r => s.takeEvent cl (event r)) s = some u) :
    l.foldl (fun (o : Option State) r => o.bind (State.takeBehind cl (event r))) (some s) = some u ∧ Records s u := by
  induction l generalizing s with
  | nil =>
    cases taken
    exact ⟨rfl, .refl _⟩
  | cons r l ih =>
    obtain ⟨t, first, rest⟩ := Option.bind_eq_some_iff.mp taken
    obtain ⟨enter, records⟩ := ih ((evWait_takeEvent first).trans empty) rest
    have behind : State.takeBehind cl (event r) s = some t := (if_pos (List.isEmpty_iff.mpr empty)).trans first
    exact ⟨by rw [List.foldl_cons, Option.bind_some, behind, enter], (Records.takeEvent first).trans records⟩

theorem keepsSlots_readEvent (s : State) (core : Nat) : KeepsSlots s (s.readEvent core).2 := by
  have cached : KeepsSlots s (s.invalLane core) := keepsSlots_of_course? fun k n => State.course?_invalLane s core k n
  unfold State.readEvent
  extract_lets cl
  split
  · exact .refl s
  dsimp only
  split
  · refine (cached.trans ?_).trans (keepsSlots_of_records (.drainEvents _ _))
    exact (keepsSlots_of_cores rfl).trans (keepsSlots_modCore _ core fun _ => rfl)
  · exact cached.trans (keepsSlots_modCore _ core fun _ => rfl)

theorem readEvent_nil {s : State} {core : Nat} (none_ : (s.cluster (coreCluster core)).events = []) : s.readEvent core = (0, s) := by
  unfold State.readEvent
  dsimp only
  rw [none_]

/-- A read of the head event takes its next word, and the cursor moves on (R80). -/
theorem readEvent_cons {s : State} {core : Nat} {e : Event} {r : List Event} (head : (s.cluster (coreCluster core)).events = e :: r)
    (cursor : (s.core core).evCursor ≤ 3) :
    (s.readEvent core).1 = [e.w0, e.w1, e.w2, e.w3].getD (s.core core).evCursor 0 ∧
      ((s.readEvent core).2.core core).evCursor = ((s.core core).evCursor + 1) % 4 := by
  unfold State.readEvent
  dsimp only
  rw [head]
  dsimp only
  have words : (s.core core).evCursor = 0 ∨ (s.core core).evCursor = 1 ∨ (s.core core).evCursor = 2 ∨ (s.core core).evCursor = 3 := by omega
  have moved : ∀ (u : State) (w : Nat), ((u.modCore core fun k => { k with evCursor := w }).core core).evCursor = w := fun u w => by
    rw [State.core_modCore, if_pos rfl]
  rcases words with at_ | at_ | at_ | at_ <;> rw [at_]
  · exact ⟨rfl, moved _ _⟩
  · exact ⟨rfl, moved _ _⟩
  · exact ⟨rfl, moved _ _⟩
  · exact ⟨rfl, ((Records.drainEvents _ _).evCursor core).trans (moved _ _)⟩

/-! ### Launches, releases and records by instructions -/

/-- A release that the earlier accesses of its scope do not hold up: no thread is active, or all of them are visible. -/
theorem releaseWait_none {α : Type} {s : State} {G : Grp} {act : List α} {scope : Nat}
    (clear : act ≠ [] → s.allVisible (s.fenceAwaits G.g.core G.g.course .rel scope) = true) :
    (if act.isEmpty = true then none else s.releaseWait G.g.core G.g.course scope) = none := by
  split
  case isTrue => rfl
  case isFalse some_ => exact if_pos (clear (mt List.isEmpty_iff.mpr some_))

/-- An instruction with an effect for each active thread passes over those effects (R26). -/
theorem eachThread_passes {s : State} {G : Grp} {l : LaneI} {o : Outcome} {scope : Option Nat} {f : Grp → State → Nat → State} (r : Runs s G l)
    (runs : o = s.eachThread l noCheck scope f)
    (clear : ∀ k, scope = some k → G.active l ≠ [] → s.allVisible (s.fenceAwaits G.g.core G.g.course .rel k) = true)
    (keeps : ∀ u j, KeepsSlots u (f G u j)) : ∃ t, o = .next t ∧ Passed ((G.active l).foldl (f G) s) t G l.len := by
  refine ⟨_, runs.trans (withGroup_to r.lane ?_ rfl), passed_over r (keepsSlots_foldl keeps _ s)⟩
  rw [r.ok]
  have goes_on : (if (G.active l).isEmpty = true then none else scope.bind fun k => s.releaseWait G.g.core G.g.course k) = none := by
    cases scope with
    | none => exact ite_self none
    | some k => exact releaseWait_none (clear k rfl)
  extract_lets act wait u
  have waits : wait = none := goes_on
  rw [noCheck, waits]
  rfl

theorem keepsSlots_writeNow (G : Grp) (s : State) (k n j : Nat) (dst : Rd) (v : Word) : KeepsSlots s (s.modCourse k n (G.writeNow dst j v)) :=
  keepsSlots_modCourse s k n fun c => by
    unfold Grp.writeNow
    split
    · rfl
    · exact Course.length_modThread c j _

theorem keepsSlots_deliver (G : Grp) (s : State) (l : LaneI) (lat k n j : Nat) (dst : Rd) (v : Word) :
    KeepsSlots s (s.modCourse k n (G.deliver l lat dst j v)) :=
  keepsSlots_modCourse s k n fun c => by
    unfold Grp.deliver
    split
    · rfl
    · exact Course.length_modThread c j _

/-- A thread of a group launches, and is told the launch's number or its refusal (R244). -/
def Grp.spawned (G : Grp) (l : LaneI) (x : E64) (s : State) (j : Nat) : State :=
  let sup := (G.cs.thread j).sup
  let r := s.fresh.2.submit (coreDie G.g.core) { core := G.g.core, ctx := G.tk.ctx, sup := sup, far := if s.fresh.1 % 2 = 1 then .refused else .given }
    (!sup) (G.read l j (extA x)).toNat 64
  let v : Word := match r.1 with
    | .ok seq => BitVec.ofNat 64 seq
    | .error code => 0xFFFFFFFF00000000 + BitVec.ofNat 64 code
  r.2.modCourse G.g.core G.g.course (G.writeNow (extD x) j v)

theorem opTspawn_eq (len : Nat) (x : E64) (s : State) :
    opTspawn len x s = s.eachThread (laneE len x [extA x]) noCheck (some 7) fun G => G.spawned (laneE len x [extA x]) x := by
  refine congrArg (s.eachThread (laneE len x [extA x]) noCheck (some 7)) (funext fun G => funext fun s => funext fun j => ?_)
  unfold Grp.spawned
  extract_lets t d n r v sup r' v'
  have same : v = v' := by
    simp only [v, v', r', sup]
    cases r.1
    case ok => rfl
    case error => exact BitVec.ofNat_add _ _
  rw [same]

theorem keepsSlots_spawned (G : Grp) (l : LaneI) (x : E64) (s : State) (j : Nat) : KeepsSlots s (G.spawned l x s j) := by
  have free : KeepsSlots s s.fresh.2 := keepsSlots_of_cores rfl
  exact free.trans ((keepsSlots_submit s.fresh.2 _ _ _ _ _).trans (keepsSlots_writeNow G _ _ _ j (extD x) _))

/-- The event that the 32 bytes of a record hold (R80). -/
def eventOf (bs : List Byte) : Event :=
  let w := fun k => BitVec.ofNat 64 (recNat bs (8 * k) 8)
  ⟨w 0, w 1, w 2, w 3⟩

/-- Records that can be read and taken, one after the other, enter the event queue of the core's cluster (R244). -/
theorem opEvpost_passes {s u : State} {G : Grp} {len : Nat} {x : E64} {ls : List (Nat × Word × Loc)} (r : Runs s G (laneE len x [extA x]))
    (check : s.recordCheck G 32 8 false ((G.active (laneE len x [extA x])).map fun j => (j, G.read (laneE len x [extA x]) j (extA x))) = .ok ls)
    (idle : ∀ j ∈ G.active (laneE len x [extA x]),
      s.recordBusy G.g.core G.g.course G.tk (G.read (laneE len x [extA x]) j (extA x)).toNat 32 = false)
    {recs : List (Nat × List Byte)}
    (read : recs = (G.active (laneE len x [extA x])).map fun j => (j, s.spBytes G.g.core G.tk (G.read (laneE len x [extA x]) j (extA x)).toNat 32))
    (may : ∀ r ∈ recs, (G.cs.thread r.1).sup = true ∨ 0x80 ≤ recNat r.2 0 1)
    (clear : G.active (laneE len x [extA x]) ≠ [] → s.allVisible (s.fenceAwaits G.g.core G.g.course .rel 4) = true)
    (empty : (s.cluster (coreCluster G.g.core)).evWait = [])
    (taken : recs.foldlM (fun s r => s.takeEvent (coreCluster G.g.core) (eventOf r.2)) s = some u) :
    opEvpost len x s = .next (u.finish G (laneE len x [extA x]) G.cs) := by
  refine withGroup_to r.lane ?_ rfl
  rw [r.ok]
  extract_lets core eas recs' cl word one
  have same : recs' = recs := (List.map_map ..).trans read.symm
  have free : (eas.any fun e => s.recordBusy core G.g.course G.tk e.2.toNat 32) = false := by
    rw [List.any_map, List.any_eq_false]
    exact fun j active => Bool.eq_false_iff.mp (idle j active)
  have allowed : (recs.find? fun r => !(G.cs.thread r.1).sup && decide (recNat r.2 0 1 < 0x80)) = none := by
    refine List.find?_eq_none.mpr fun r hr => ?_
    rcases may r hr with sup | high
    · simp [sup]
    · simp [high]
  have goes_on : (if eas.isEmpty = true then none else s.releaseWait core G.g.course 4) = none :=
    releaseWait_none fun some_ => clear (mt List.map_eq_nil_iff.mpr some_)
  obtain ⟨enter, -⟩ := foldl_takeBehind empty taken
  have entered : recs.foldl one (some s) = some u := enter
  rw [check, same, free, allowed, goes_on, entered]
  rfl

/-- Settles O45: each effect keeps the slots of the course, over which its group then passes. -/
theorem taskEvents : Obligations.TaskEvents := by
  unfold Obligations.TaskEvents
  intro clear spawns signals posts gets
  have of_opTspawn {i len x} (runs : ∀ s, exec i s = opTspawn len x s) : spawns i len x := by
    intro s G l r visible
    exact eachThread_passes r ((runs s).trans (opTspawn_eq len x s)) (fun k scope => by cases scope; exact visible) (keepsSlots_spawned G l x)
  have of_opTsig {i len x} (runs : ∀ s, exec i s = opTsig len x s) : signals i len x := by
    intro s G l r
    exact eachThread_passes r (runs s) (fun k scope => nomatch scope) fun u j => keepsSlots_releaseNode u _ _ _
  have of_opEvpost {i len x} (runs : ∀ s, exec i s = opEvpost len x s) : posts i len x := by
    intro s G ls u l recs cl r check idle may visible empty taken
    have enters := foldl_takeBehind (event := fun r : Nat × List Byte => eventOf r.2) empty taken
    have course : u.course? G.g.core G.g.course = some G.cs := (enters.2.course? _ _).trans r.lane.course
    exact ⟨_, (runs s).trans (opEvpost_passes r check idle rfl may visible empty taken), passed_of_course? r course⟩
  have of_opEvget {i len x} (runs : ∀ s, exec i s = opEvget len x s) : gets i len x := by
    intro s G l r
    exact eachThread_passes r (runs s) (fun k scope => nomatch scope) fun u j =>
      (keepsSlots_readEvent u _).trans (keepsSlots_deliver G _ l 4 _ _ j (extD x) _)
  clear_value spawns signals posts gets
  refine ⟨?tspawn, ?tspawnL, ?tsig, ?tsigL, ?evpost, ?evpostL, ?evget, ?evgetL, fun s core => readEvent_nil, fun s core e r => readEvent_cons⟩
  case tspawn => exact fun _ => of_opTspawn fun _ => rfl
  case tspawnL => exact fun _ => of_opTspawn fun _ => rfl
  case tsig => exact fun _ => of_opTsig fun _ => rfl
  case tsigL => exact fun _ => of_opTsig fun _ => rfl
  case evpost => exact fun _ => of_opEvpost fun _ => rfl
  case evpostL => exact fun _ => of_opEvpost fun _ => rfl
  case evget => exact fun _ => of_opEvget fun _ => rfl
  case evgetL => exact fun _ => of_opEvget fun _ => rfl

end Sys2Proof.Machine
end

section
/-! Writes of layout words and of handle registers (R6, R269, R273), and `nop` (R387). -/

namespace Sys2Proof.Machine

/-- Settles O15: all three forms are the driver with no effect of their own. -/
theorem nopPasses : Obligations.NopPasses :=
  ⟨moves_none fun _ => rfl, fun _ => moves_none fun _ => rfl, fun _ => moves_none fun _ => rfl⟩

/-! ### Words of an image -/

/-- The digits, in base `b`, of a number given by what stands above its digit `i`, that digit, and what stands below. -/
theorem digit_of_split {b i hi v lo : Nat} (hv : v < b) (hlo : lo < b ^ i) (j : Nat) :
    (hi * b ^ (i + 1) + v * b ^ i + lo) / b ^ j % b = if j < i then lo / b ^ j % b else if j = i then v else hi / b ^ (j - i - 1) % b := by
  have pos : 0 < b := Nat.zero_lt_of_lt hv
  rcases Nat.lt_trichotomy j i with below | rfl | above
  · obtain ⟨k, rfl⟩ := Nat.exists_eq_add_of_lt below
    rw [if_pos below, show hi * b ^ (j + k + 1 + 1) + v * b ^ (j + k + 1) + lo = lo + b ^ j * (b * (hi * b ^ (k + 1) + v * b ^ k)) by ring,
      Nat.add_mul_div_left _ _ (Nat.pow_pos pos), Nat.add_mul_mod_self_left]
  · rw [if_neg (Nat.lt_irrefl j), if_pos rfl, show hi * b ^ (j + 1) + v * b ^ j + lo = lo + b ^ j * (v + b * hi) by ring,
      Nat.add_mul_div_left _ _ (Nat.pow_pos pos), Nat.div_eq_of_lt hlo, Nat.zero_add, Nat.add_mul_mod_self_left, Nat.mod_eq_of_lt hv]
  · obtain ⟨k, rfl⟩ := Nat.exists_eq_add_of_lt above
    have small : v * b ^ i + lo < b ^ (i + 1) := by
      calc v * b ^ i + lo < v * b ^ i + b ^ i := by omega
        _ = (v + 1) * b ^ i := by ring
        _ ≤ b * b ^ i := Nat.mul_le_mul_right _ hv
        _ = b ^ (i + 1) := by ring
    rw [if_neg (by omega), if_neg (by omega), show i + k + 1 - i - 1 = k by omega, show i + k + 1 = i + 1 + k by omega, Nat.add_assoc,
      Nat.pow_add b (i + 1) k, ← Nat.div_div_eq_div_mul, Nat.add_comm, Nat.mul_comm hi, Nat.add_mul_div_left _ _ (Nat.pow_pos pos),
      Nat.div_eq_of_lt small, Nat.zero_add]

/-- A number is what stands above its digit `i`, that digit, and what stands below. -/
theorem split_at (n b i : Nat) : n = n / b ^ (i + 1) * b ^ (i + 1) + n / b ^ i % b * b ^ i + n % b ^ i := by
  have low := Nat.div_add_mod' n (b ^ i)
  have next := Nat.div_add_mod' (n / b ^ i) b
  rw [Nat.div_div_eq_div_mul, ← Nat.pow_succ] at next
  calc n = (n / b ^ (i + 1) * b + n / b ^ i % b) * b ^ i + n % b ^ i := by rw [next, low]
    _ = _ := by ring

theorem digit_replace {n b i v j : Nat} (hv : v < b) :
    (n / b ^ (i + 1) * b ^ (i + 1) + v * b ^ i + n % b ^ i) / b ^ j % b = if j = i then v else n / b ^ j % b := by
  have pos : 0 < b := Nat.zero_lt_of_lt hv
  have low : n % b ^ i < b ^ i := Nat.mod_lt _ (Nat.pow_pos pos)
  have old := digit_of_split (hi := n / b ^ (i + 1)) (Nat.mod_lt (n / b ^ i) pos) low j
  rw [← split_at] at old
  rw [digit_of_split hv low, old]
  by_cases same : j = i
  · rw [if_neg (by omega), if_pos same, if_pos same]
  · rw [if_neg same, if_neg same, if_neg same]

/-- What a word of an image holds once a value was written to it: its reserved bits are zero (R6). -/
def keptOf (w v : Nat) : Nat := if w = 0 then v else if w ≤ 8 then v % 2 ^ 50 else 0

theorem keptOf_lt {w v : Nat} (h : v < 2 ^ 64) : keptOf w v < 2 ^ 64 := by
  unfold keptOf
  split_ifs <;> omega

theorem keptOf_eq {w : Nat} (v : Nat) (h : w < 10) : keptOf w v = if w = 0 then v else if w = 9 then 0 else v % 2 ^ 50 := by
  unfold keptOf
  split_ifs <;> omega

theorem imageWord_digit (m : BitVec 640) (k : Nat) : imageWord m k = m.toNat / (2 ^ 64) ^ k % 2 ^ 64 := by
  rw [imageWord, Nat.pow_mul]

/-- A number with digit `w` replaced has no more digits than before. -/
theorem replaced_lt {n b k w v : Nat} (hn : n < b ^ k) (hw : w < k) (hv : v < b) :
    n / b ^ (w + 1) * b ^ (w + 1) + v * b ^ w + n % b ^ w < b ^ k := by
  obtain ⟨j, rfl⟩ := Nat.exists_eq_add_of_lt hw
  have pos : 0 < b := Nat.zero_lt_of_lt hv
  have whole : b ^ (w + j + 1) = b ^ (w + 1) * b ^ j := by ring
  have above : n / b ^ (w + 1) < b ^ j := Nat.div_lt_of_lt_mul (whole ▸ hn)
  have low : n % b ^ w < b ^ w := Nat.mod_lt _ (Nat.pow_pos pos)
  calc n / b ^ (w + 1) * b ^ (w + 1) + v * b ^ w + n % b ^ w < n / b ^ (w + 1) * b ^ (w + 1) + v * b ^ w + b ^ w := Nat.add_lt_add_left low _
    _ = n / b ^ (w + 1) * b ^ (w + 1) + (v + 1) * b ^ w := by ring
    _ ≤ n / b ^ (w + 1) * b ^ (w + 1) + b * b ^ w := Nat.add_le_add_left (Nat.mul_le_mul_right _ hv) _
    _ = b ^ (w + 1) * (n / b ^ (w + 1) + 1) := by ring
    _ ≤ b ^ (w + j + 1) := whole ▸ Nat.mul_le_mul_left _ above

theorem toNat_lt_words {k n : Nat} (words : 64 * k = n) (m : BitVec n) : m.toNat < (2 ^ 64) ^ k := by
  rw [← Nat.pow_mul, words]
  exact m.isLt

theorem toNat_ofNat_words {k n x : Nat} (words : 64 * k = n) (small : x < (2 ^ 64) ^ k) : (BitVec.ofNat n x).toNat = x := by
  rw [← Nat.pow_mul, words] at small
  exact Nat.mod_eq_of_lt small

/-- A word of an image replaced: the words above and below stay where they were. -/
theorem toNat_putWord (m : BitVec 640) {w v : Nat} (hw : w < 10) (hv : v < 2 ^ 64) :
    (putWord m w v).toNat = m.toNat / (2 ^ 64) ^ (w + 1) * (2 ^ 64) ^ (w + 1) + keptOf w v * (2 ^ 64) ^ w + m.toNat % (2 ^ 64) ^ w := by
  have raw : putWord m w v = BitVec.ofNat 640 (m.toNat - imageWord m w * (2 ^ 64) ^ w + keptOf w v * (2 ^ 64) ^ w) := by
    rw [← Nat.pow_mul]
    rfl
  have cut : ∀ {n hi old low new : Nat}, n = hi + old + low → n - old + new = hi + new + low := by omega
  rw [raw, imageWord_digit, cut (split_at m.toNat (2 ^ 64) w)]
  exact toNat_ofNat_words (k := 10) rfl (replaced_lt (toNat_lt_words (k := 10) rfl m) hw (keptOf_lt hv))

theorem imageWord_putWord (m : BitVec 640) {w v w' : Nat} (hw : w < 10) (hv : v < 2 ^ 64) :
    imageWord (putWord m w v) w' = if w' = w then keptOf w v else imageWord m w' := by
  rw [imageWord_digit, imageWord_digit, toNat_putWord m hw hv, digit_replace (keptOf_lt hv)]

/-! ### Writes of a task's registers -/

/-- A write of a task's registers that nothing refuses passes its group, the task as the writes leave it. -/
theorem taskWrites_ran {s : State} {G : Grp} {l : LaneI} {chk : Grp → Option Cause} (r : Runs s G l) (ok : chk G = none) (f : Grp → Nat → Task → Task) :
    ∃ t, s.taskWrites l chk f = .next t ∧ Ran s t G (fun _ a b => b = a.complete l.len) ∧
      t.task? G.g.core G.cs.task = some ((G.active l).foldl (fun tk j => f G j tk) G.tk) ∧
      ∀ k n, k ≠ G.g.core ∨ n ≠ G.cs.task → t.task? k n = s.task? k n := by
  refine ⟨_, withGroup_to r.lane ?_ rfl, ran_finishTask r _⟩
  rw [r.ok, ok]
  rfl

/-- The pair of an even register is refused by no thread. -/
theorem oddPair_even {l : LaneI} {r : Reg} (even : r.getLsbD 0 = false) (G : Grp) : oddPair l r G = none := by
  rw [oddPair, even]
  rfl

/-- `hset` writes the two words of its pair, the higher register's above (R273). -/
theorem exec_hset (x : Vh) (s : State) :
    let l : LaneI := { len := 4, h := x.h, rd := [.v x.v, .v (x.v + 1)] }
    exec (.hset x) s = s.taskWrites l (oddPair l x.v) fun G j tk =>
      tk.setHandle x.hd.toNat ((G.read l j (.v (x.v + 1)) ++ G.read l j (.v x.v) : BitVec 128) &&& ~~~(0xFFF#128 <<< 104)) := by
  have pair : ∀ hi lo : Word, (hi ++ lo : BitVec 128) = hi.setWidth 128 <<< 64 ||| lo.setWidth 128 := fun hi lo => by
    rw [← BitVec.setWidth_append_eq_shiftLeft_setWidth_or, BitVec.setWidth_eq]
  simp only [pair]
  rfl

/-- Settles O30: every write is a `State.taskWrites`; a word written reads back, the other words of the image as before. -/
theorem layoutAndHandleWrites : Obligations.LayoutAndHandleWrites := by
  unfold Obligations.LayoutAndHandleWrites
  intro writes put
  refine ⟨fun x s G r _ => ?mapput, fun x s G r _ => ?mapputL, fun x s G r even => ?hset, fun m w v hw hv => ?words⟩
  case mapput => exact taskWrites_ran r rfl _
  case mapputL => exact taskWrites_ran r rfl _
  case hset =>
    rw [exec_hset]
    exact taskWrites_ran r (oddPair_even even G) _
  case words =>
    refine ⟨?same, fun w' hw' other => ?other⟩
    case same => rw [imageWord_putWord m hw hv, if_pos rfl, keptOf_eq v hw]
    case other => rw [imageWord_putWord m hw hv, if_neg other]

end Sys2Proof.Machine
end

section
/-! Loads, stores and atomics (R247 to R257): each begins one access or two for each thread, which `begins_memOp` makes the effect of
the whole group. -/

namespace Sys2Proof.Machine

/-! ### One access or two -/

/-- A load, a store or an atomic begins the access that `Grp.access` describes. -/
theorem opens_startAccess (G : Grp) (e : Nat × Word × Loc) {kind : AccKind} (w : BitVec 3) (nib : Bool) (data : BitVec 128) (cmp : Word)
    (dst : List RegRef) (after : List Await) (inval : Bool) (narrow : ∀ o, kind ≠ .cop o) :
    Opens (fun r => startAccess G r.2 r.1 e.1 e.2.1 e.2.2 kind w nib data cmp dst after inval)
      [{ G.access e kind w with nib := nib, data := data, cmp := cmp, dst := dst, inval := inval }] := by
  have opened := opens_start G e.1 e.2.1 e.2.2 kind w nib data cmp dst after inval
  cases kind with
  | load | store | atom => exact opened
  | cop o => exact absurd rfl (narrow o)

/-- An instruction that begins two accesses for 128 bits, and one otherwise. -/
theorem opens_pair {f g h : Course × State → Course × State} {a b c : Access} (w : BitVec 3) (hf : Opens f [a]) (hg : Opens g [b]) (hh : Opens h [c]) :
    Opens (fun r => if w = 6 then g (f r) else h r) (if w = 6 then [a, b] else [c]) := by
  by_cases wide : w = 6
  · simpa only [if_pos wide, List.singleton_append] using opens_comp hf hg
  · simpa only [if_neg wide] using hh

/-! ### Loads -/

/-- A scope of `quad` or wider is implied by every space but the own scratchpad (R161). -/
theorem three_le_impliedScope (p : BitVec 2) : decide (3 ≤ impliedScope p) = decide (p ≠ 1) := by
  revert p
  decide

/-- The accesses of a load (R249, R253). -/
def Grp.loadAccesses (G : Grp) (l : LaneI) (x : Me) (e : Nat × Word × Loc) : List Access :=
  let reg := fun d : Reg => [RegRef.v ((G.cs.thread e.1).phys d)]
  let inval := x.o && decide (x.p ≠ 1)
  if x.w = 6 then
    [{ G.access e (.load x.o) 5 with dst := reg x.d, inval := inval },
      { G.access (e.1, e.2.1 + 8, e.2.2.plus 8) (.load x.o) 5 with dst := reg (x.d + 1), inval := inval }]
  else [{ G.access e (.load x.o) x.w with nib := (G.read l e.1 (.v x.a)).getLsbD 0, dst := reg x.d, inval := inval }]

/-- What a load does for one thread (R249, R253). -/
def loadEach (l : LaneI) (x : Me) (G : Grp) (i : Nat) (va : Word) (loc : Loc) (r : Course × State) : Course × State :=
  let reg := fun d : Reg => [RegRef.v ((G.cs.thread i).phys d)]
  let inval := x.o && decide (3 ≤ impliedScope x.p)
  if x.w = 6 then
    let r := startAccess G r.2 r.1 i va loc (.load x.o) 5 false 0 0 (reg x.d) [] inval
    startAccess G r.2 r.1 i (va + 8) (loc.plus 8) (.load x.o) 5 false 0 0 (reg (x.d + 1)) [] inval
  else startAccess G r.2 r.1 i va loc (.load x.o) x.w ((G.read l i (.v x.a)).getLsbD 0) 0 0 (reg x.d) [] inval

theorem slot_of_mem_loadAccesses {G : Grp} {l : LaneI} {x : Me} {e : Nat × Word × Loc} : ∀ a ∈ G.loadAccesses l x e, a.slot = e.1 := by
  unfold Grp.loadAccesses
  split <;> simp [Grp.access]

theorem opens_loadEach (l : LaneI) (x : Me) (G : Grp) (e : Nat × Word × Loc) :
    Opens (loadEach l x G e.1 e.2.1 e.2.2) (G.loadAccesses l x e) := by
  have reads : ∀ o, AccKind.load x.o ≠ .cop o := nofun
  let reg := fun d : Reg => [RegRef.v ((G.cs.thread e.1).phys d)]
  let inval := x.o && decide (3 ≤ impliedScope x.p)
  have opened := opens_pair x.w (opens_startAccess G e 5 false 0 0 (reg x.d) [] inval reads)
    (opens_startAccess G (e.1, e.2.1 + 8, e.2.2.plus 8) 5 false 0 0 (reg (x.d + 1)) [] inval reads)
    (opens_startAccess G e x.w ((G.read l e.1 (.v x.a)).getLsbD 0) 0 0 (reg x.d) [] inval reads)
  unfold Grp.loadAccesses
  rw [← three_le_impliedScope]
  exact opened

theorem opLd_eq (len : Nat) (x : Me) (disp : BitVec 32) (s : State) :
    let l : LaneI := { len := len, h := x.h, rd := [.v x.a] }
    opLd len x disp s = s.memOp l x.p { r := true } (accSize x.w) (accSize x.w) true true false (fun rd => effAddr x.w (rd (.v x.a)) disp) (loadEach l x) :=
  rfl

theorem begins_opLd {i : Instr} {len : Nat} {x : Me} {disp : BitVec 32} (runs : ∀ s, exec i s = opLd len x disp s) :
    let l : LaneI := { len := len, h := x.h, rd := [.v x.a] }
    Begins i l x.p { r := true } (accSize x.w) true true false (fun rd => effAddr x.w (rd (.v x.a)) disp) (Grp.loadAccesses · l x) :=
  begins_memOp (fun s => (runs s).trans (opLd_eq len x disp s)) (fun _ G e => opens_loadEach _ x G e) fun _ _ => slot_of_mem_loadAccesses

/-- Settles O32: both forms are an `opLd`. -/
theorem loads : Obligations.Loads :=
  ⟨fun _ => begins_opLd fun _ => rfl, fun _ => begins_opLd fun _ => rfl⟩

/-! ### Stores -/

/-- What becomes due as a store leaves at scope `pod` (R158) is no access. -/
theorem unhurt_dueFor (s : State) (core : Nat) (ids : List Nat) :
    Unhurt s (s.dueFor core ids) ∧ (s.dueFor core ids).inflight = s.inflight ∧ (s.dueFor core ids).nextId = s.nextId :=
  ⟨unhurt_modCore s core _ fun _ => rfl, rfl, rfl⟩

/-- What a release store leaves with its thread holds only that thread's later stores back (R161). -/
theorem awaits_releasing (c : Course) (i : Nat) (after : List Await) {P : Nat → Prop} (own : P i) : Awaits [] P c (c.releasing i after) := by
  refine ⟨Course.length_modThread .., ⟨rfl, rfl⟩, fun _ j => ?_⟩
  have thread := Course.thread_setThread c i j
  unfold Course.releasing Course.modThread
  rw [thread]
  split
  · next same =>
    obtain ⟨rfl, -⟩ := same
    exact ⟨_, fun other => absurd own other, rfl⟩
  · exact ⟨(c.thread j).relAfter, fun _ => rfl, rfl⟩

theorem awaits_recordLost (c : Course) {P : Nat → Prop} : Awaits [] P c c.recordLost :=
  ⟨rfl, ⟨rfl, rfl⟩, fun _ j => ⟨(c.thread j).relAfter, fun _ => rfl, rfl⟩⟩

/-- What a store does with its course and the state before its accesses begin (R158, R161). -/
def beforeStore (x : Me) (core i : Nat) (after : List Await) (r : Course × State) : Course × State :=
  (if x.o then r.1.releasing i after else r.1,
    if x.o && decide (impliedScope x.p = 7) then r.2.dueFor core (after.map Await.id) else r.2)

theorem unhurt_beforeStore (x : Me) (core i : Nat) (after : List Await) (r : Course × State) :
    let b := beforeStore x core i after r
    Unhurt r.2 b.2 ∧ b.2.inflight = r.2.inflight ∧ b.2.nextId = r.2.nextId := by
  dsimp only [beforeStore]
  split
  · exact unhurt_dueFor ..
  · exact ⟨.rfl, rfl, rfl⟩

/-- What it does with its course once they have begun (R422). -/
def afterStore (x : Me) (r : Course × State) : Course × State :=
  (if x.o && decide (impliedScope x.p = 7) then r.1.recordLost else r.1, r.2)

/-- The accesses of a store (R251, R253). -/
def Grp.storeAccesses (G : Grp) (l : LaneI) (x : Me) (e : Nat × Word × Loc) : List Access :=
  let value := fun d : Reg => (G.read l e.1 (.v d)).setWidth 128
  if x.w = 6 then
    [{ G.access e (.store x.o) 5 with data := value x.d },
      { G.access (e.1, e.2.1 + 8, e.2.2.plus 8) (.store x.o) 5 with data := value (x.d + 1) }]
  else [{ G.access e (.store x.o) x.w with nib := (G.read l e.1 (.v x.a)).getLsbD 0, data := value x.d }]

theorem slot_of_mem_storeAccesses {G : Grp} {l : LaneI} {x : Me} {e : Nat × Word × Loc} : ∀ a ∈ G.storeAccesses l x e, a.slot = e.1 := by
  unfold Grp.storeAccesses
  split <;> simp [Grp.access]

/-- A store is a release at its own slot where it is one at all. -/
theorem relSlot_storeAccesses (G : Grp) (l : LaneI) {x : Me} (e : Nat × Word × Loc) (rel : x.o = true) :
    relSlot (G.storeAccesses l x e) e.1 := by
  unfold relSlot Grp.storeAccesses
  split <;> simp [Grp.access, rel]

theorem opens_store {f : Course × State → Course × State} (G : Grp) (l : LaneI) (x : Me) (e : Nat × Word × Loc) (after : List Await)
    (hf : Opens f (G.storeAccesses l x e)) : Opens (fun r => afterStore x (f (beforeStore x G.g.core e.1 after r))) (G.storeAccesses l x e) := by
  refine opens_around (beforeStore x G.g.core e.1 after) (afterStore x) hf (fun r => ?due) (fun r => ?held) fun r => ⟨rfl, ?lost⟩
  case due =>
    exact unhurt_beforeStore ..
  case held =>
    unfold beforeStore
    cases rel : x.o
    · exact .rfl _
    · exact awaits_releasing _ _ _ (relSlot_storeAccesses G l e rel)
  case lost =>
    unfold afterStore
    split
    · exact awaits_recordLost _
    · exact .rfl _

/-- What a store does for one thread (R251, R253). -/
def storeEach (l : LaneI) (x : Me) (s : State) (G : Grp) (i : Nat) (va : Word) (loc : Loc) (r : Course × State) : Course × State :=
  let after := s.orderAfter G i x.o x.p
  let value := fun d : Reg => (G.read l i (.v d)).setWidth 128
  let one := fun r : Course × State =>
    if x.w = 6 then
      let r := startAccess G r.2 r.1 i va loc (.store x.o) 5 false (value x.d) 0 [] after
      startAccess G r.2 r.1 i (va + 8) (loc.plus 8) (.store x.o) 5 false (value (x.d + 1)) 0 [] after
    else startAccess G r.2 r.1 i va loc (.store x.o) x.w ((G.read l i (.v x.a)).getLsbD 0) (value x.d) 0 [] after
  afterStore x (one (beforeStore x G.g.core i after r))

theorem opens_storeEach (l : LaneI) (x : Me) (s : State) (G : Grp) (e : Nat × Word × Loc) :
    Opens (storeEach l x s G e.1 e.2.1 e.2.2) (G.storeAccesses l x e) := by
  have writes : ∀ o, AccKind.store x.o ≠ .cop o := nofun
  let after := s.orderAfter G e.1 x.o x.p
  let value := fun d : Reg => (G.read l e.1 (.v d)).setWidth 128
  exact opens_store G l x e after (opens_pair x.w
    (opens_startAccess G e 5 false (value x.d) 0 [] after false writes)
    (opens_startAccess G (e.1, e.2.1 + 8, e.2.2.plus 8) 5 false (value (x.d + 1)) 0 [] after false writes)
    (opens_startAccess G e x.w ((G.read l e.1 (.v x.a)).getLsbD 0) (value x.d) 0 [] after false writes))

theorem opSt_eq (len : Nat) (x : Me) (disp : BitVec 32) (s : State) :
    let l : LaneI := { len := len, h := x.h, rd := [.v x.d] ++ (if x.w = 6 then [.v (x.d + 1)] else []) ++ [.v x.a] }
    opSt len x disp s = s.memOp l x.p { w := true } (accSize x.w) (accSize x.w) true false true (fun rd => effAddr x.w (rd (.v x.a)) disp)
      (storeEach l x s) :=
  rfl

theorem begins_opSt {i : Instr} {len : Nat} {x : Me} {disp : BitVec 32} (runs : ∀ s, exec i s = opSt len x disp s) :
    let l : LaneI := { len := len, h := x.h, rd := [.v x.d] ++ (if x.w = 6 then [.v (x.d + 1)] else []) ++ [.v x.a] }
    Begins i l x.p { w := true } (accSize x.w) true false true (fun rd => effAddr x.w (rd (.v x.a)) disp) (Grp.storeAccesses · l x) :=
  begins_memOp (fun s => (runs s).trans (opSt_eq len x disp s)) (fun s G e => opens_storeEach _ x s G e) fun _ _ => slot_of_mem_storeAccesses

/-- Settles O33: both forms are an `opSt`. -/
theorem stores : Obligations.Stores :=
  ⟨fun _ => begins_opSt fun _ => rfl, fun _ => begins_opSt fun _ => rfl⟩

/-! ### Atomics -/

theorem begins_opAtom {i : Instr} {len : Nat} {x : Me} {disp : BitVec 32} {op : AtomOp} (runs : ∀ s, exec i s = opAtom len x disp op s) :
    let l : LaneI := { len := len, h := x.h, rd := [.v x.d] ++ (if op = .cas then [.v (x.d + 1)] else []) ++ [.v x.a] }
    Begins i l x.p { r := true, w := true } (accSize x.w) true (!x.o) true (fun rd => effAddr x.w (rd (.v x.a)) disp) fun G e =>
      [{ G.access e (.atom op x.o) x.w with
          data := (G.read l e.1 (.v (if op = .cas then x.d + 1 else x.d))).setWidth 128
          cmp := G.read l e.1 (.v x.d)
          dst := if x.o then [] else [.v ((G.cs.thread e.1).phys x.d)] }] := by
  intro l
  refine begins_memOp (l := l) (f := fun s G i va loc r => startAccess G r.2 r.1 i va loc (.atom op x.o) x.w false
    ((G.read l i (.v (if op = .cas then x.d + 1 else x.d))).setWidth 128) (G.read l i (.v x.d))
    (if x.o then [] else [.v ((G.cs.thread i).phys x.d)]) (s.orderAfter G i false x.p)) (fun s => (runs s).trans ?same)
    (fun s G e => ?opens) fun G e a mem => List.mem_singleton.mp mem ▸ rfl
  case same =>
    unfold opAtom
    by_cases cas : op = .cas
    · subst cas
      rfl
    · simp only [l, cas, decide_false, if_false, Bool.false_eq_true]
      rfl
  case opens => exact opens_startAccess G e x.w false _ _ _ _ false nofun

/-- Settles O34: every form is an `opAtom`. -/
theorem atomics : Obligations.Atomics := by
  unfold Obligations.Atomics
  intro atom both
  have of_opAtom {i : Me → Instr} {j : Me64 → Instr} {op : AtomOp} (runs : ∀ x s, exec (i x) s = opAtom 4 x 0 op s)
      (runsL : ∀ x s, exec (j x) s = opAtom 8 x.r x.i op s) : both i j op :=
    ⟨fun x => begins_opAtom (runs x), fun x => begins_opAtom (runsL x)⟩
  clear_value both
  refine ⟨?add, ?fadd, ?min, ?max, ?and, ?or, ?xor, ?exch, ?cas⟩
  all_goals exact of_opAtom (fun _ _ => rfl) fun _ _ => rfl

end Sys2Proof.Machine
end

section
/-! Cache, prefetch, placement and translation operations that end at issue, and write-backs of lines (R261 to R264). -/

namespace Sys2Proof.Machine

/-! ### Groups that pass over what they did -/

/-- A group that passes with a course of the threads and the uniform registers it had, whatever its instruction did beside it. -/
theorem ran_finish {s u : State} {G : Grp} {x : LaneI} (r : Runs s G x) (near : Stays s u G.g.core G.g.course) {d : Course}
    (threads : d.threads = G.cs.threads) (uni : d.c = G.cs.c) (pend : d.cpend = G.cs.cpend) :
    Ran s (u.finish G x d) G fun _ a b => b = a.complete x.len := by
  obtain ⟨c, ⟨b, rc, x', y', only⟩, group, others, rest⟩ := movedAs_pass (u := u) r d threads
  have left := (leaveLane_keeps u G (if x.uni then 1 else x.per * G.g.slots.length) (stallCycles x.h + G.edgeCost x) (G.completeAll x d)).2
  exact ran_of only.lane (near.trans left) only.course group others ⟨(congrArg Course.c rest).trans uni, (congrArg Course.cpend rest).trans pend⟩

/-- A group that passes keeps its core, but for its courses and the time its lane is free. -/
theorem core_finish (u : State) (G : Grp) (x : LaneI) (d : Course) :
    { (u.finish G x d).core G.g.core with courses := [], laneFree := [] } = { u.core G.g.core with courses := [], laneFree := [] } := by
  obtain ⟨_, _, _, _, only⟩ := onlyCourse_leave (s := u) (G := G) (if x.uni then 1 else x.per * G.g.slots.length)
    (stallCycles x.h + G.edgeCost x) (G.completeAll x d)
  exact only.core

/-! ### Entries removed one after another -/

/-- Entries removed step by step are those that some step removes. -/
theorem foldl_filter {α β : Type} (p : β → α → Bool) (l : List β) (es : List α) :
    l.foldl (fun es b => es.filter fun e => !p b e) es = es.filter fun e => !l.any fun b => p b e := by
  induction l generalizing es with
  | nil => simp
  | cons b l ih => simp [ih, List.filter_filter, Bool.and_comm]

/-! ### Invalidation of lines (R261) -/

/-- The 64-byte parts of a line of 256 bytes. -/
def State.invalWhole (s : State) (core : Nat) (x : Loc) : State :=
  [0, 64, 128, 192].foldl (fun s k => s.invalLine core ((x.align 256).plus k)) s

def State.invalAll (s : State) (core : Nat) (ls : List (Nat × Word × Loc)) : State := ls.foldl (fun s e => s.invalWhole core e.2.2) s

theorem unhurt_invalLine (s : State) (core : Nat) (x : Loc) :
    Unhurt s (s.invalLine core x) ∧ (s.invalLine core x).inflight = s.inflight ∧ (s.invalLine core x).nextId = s.nextId :=
  ⟨unhurt_modCore s core _ fun _ => rfl, rfl, rfl⟩

theorem unhurt_invalAll (s : State) (core : Nat) (ls : List (Nat × Word × Loc)) : Unhurt s (s.invalAll core ls) :=
  (unhurt_fold (fun s _ => unhurt_fold (fun s _ => unhurt_invalLine s core _) _ s) ls s).1

theorem lcache_invalLine (s : State) (core : Nat) (x : Loc) :
    ((s.invalLine core x).core core).lcache = (s.core core).lcache.filter fun y => !decide (y.loc = x.align 64) := by
  rw [State.invalLine, State.core_modCore, if_pos rfl]
  simp only [ne_eq, decide_not]

theorem lcache_invalWhole (s : State) (core : Nat) (x : Loc) :
    ((s.invalWhole core x).core core).lcache = (s.core core).lcache.filter fun y =>
      !([0, 64, 128, 192].any fun k => decide (y.loc = ((x.align 256).plus k).align 64)) := by
  rw [← foldl_filter]
  exact (List.foldl_hom (fun s : State => (s.core core).lcache) fun s k => (lcache_invalLine s core _).symm).symm

theorem lcache_invalAll (s : State) (core : Nat) (ls : List (Nat × Word × Loc)) :
    ((s.invalAll core ls).core core).lcache = (s.core core).lcache.filter fun y =>
      !(ls.any fun e => [0, 64, 128, 192].any fun k => decide (y.loc = ((e.2.2.align 256).plus k).align 64)) := by
  rw [← foldl_filter]
  exact (List.foldl_hom (fun s : State => (s.core core).lcache) fun s e => (lcache_invalWhole s core _).symm).symm

theorem lcache_modCourse (s : State) (k n j : Nat) (f : Course → Course) : ((s.modCourse k n f).core j).lcache = (s.core j).lcache := by
  unfold State.modCourse
  split
  · rw [State.setCourse, State.core_modCore]
    split
    · next same => rw [same]
    · rfl
  · rfl

/-- A translation that a core takes leaves its load cache. -/
theorem lcache_fillL1 (s : State) (core : Nat) (e : TlbEntry) : ((s.fillL1 core e).core core).lcache = (s.core core).lcache := by
  unfold State.fillL1 State.makeRoom
  split
  · rfl
  · rw [State.core_modCore, if_pos rfl]
    split <;> rfl

theorem lcache_touchTlb (s : State) (G : Grp) (space : BitVec 2) (eas : List (Nat × Word)) :
    ((s.touchTlb G space eas).core G.g.core).lcache = (s.core G.g.core).lcache := by
  unfold State.touchTlb
  induction eas generalizing s with
  | nil => rfl
  | cons e eas ih =>
    rw [List.foldl_cons, ih]
    split
    · split
      · exact lcache_fillL1 ..
      · rfl
    · rfl

theorem foldl_snd {α β γ : Type} (g : β → α → β) (l : List α) (c : γ) (s : β) :
    l.foldl (fun (r : γ × β) e => (r.1, g r.2 e)) (c, s) = (c, l.foldl g s) := by
  induction l generalizing s with
  | nil => rfl
  | cons e l ih => exact ih (g s e)

/-- What reads nothing and writes nothing is never stopped between its checks and its accesses. -/
theorem gate_neither (s : State) (G : Grp) (size : Nat) (ls : List (Nat × Word × Loc)) : s.gate G false false size ls = none := by
  unfold State.gate
  extract_lets lost closed
  have no_lost : lost = none := List.findSome?_eq_none_iff.mpr fun e _ => by split <;> rfl
  have no_closed : closed = none := List.findSome?_eq_none_iff.mpr fun e _ => by split <;> rfl
  rw [no_lost, no_closed]
  rfl

def copLane (len : Nat) (x : A1) : LaneI := { len := len, h := x.h, rd := [.v x.a] }

def Grp.copAddrs (G : Grp) (len : Nat) (x : A1) (disp : BitVec 32) : List (Nat × Word) :=
  (G.active (copLane len x)).map fun j => (j, G.read (copLane len x) j (.v x.a) + disp.signExtend 64)

theorem opCop_inv {s : State} {G : Grp} {len : Nat} {x : A1} {disp : BitVec 32} {ls : List (Nat × Word × Loc)} (r : Runs s G (copLane len x))
    (ok : s.memCheck G 0 { r := true } 1 1 false (G.copAddrs len x disp) = .ok ls) :
    opCop len x disp 0 s = .next ((s.touchTlb G 0 (G.copAddrs len x disp)).finishMem G (copLane len x) fun c u => (c, u.invalAll G.g.core ls)) := by
  refine withGroup_to r.lane ?_ rfl
  have check : G.check { len := len, h := x.h, rd := [.v x.a] } = none := r.ok
  rw [check]
  unfold Grp.copAddrs copLane at ok
  simp only [ok, ne_eq, not_true_eq_false, decide_false, gate_neither, if_true]
  exact congrArg (State.finishMem _ G _) (funext fun c => funext fun u =>
    foldl_snd (fun s (e : Nat × Word × Loc) => s.invalWhole G.g.core e.2.2) ls c u)

/-- Invalidated lines leave the load cache; the group passes (R261). -/
theorem opCop_invalidates {s : State} {G : Grp} {len : Nat} {x : A1} {disp : BitVec 32} {ls : List (Nat × Word × Loc)} (r : Runs s G (copLane len x))
    (ok : s.memCheck G 0 { r := true } 1 1 false (G.copAddrs len x disp) = .ok ls) :
    ∃ t, opCop len x disp 0 s = .next t ∧ Ran s t G (fun _ a b => b = a.complete len) ∧
      (t.core G.g.core).lcache = (s.core G.g.core).lcache.filter fun y =>
        !(ls.any fun e => [0, 64, 128, 192].any fun k => decide (y.loc = ((e.2.2.align 256).plus k).align 64)) := by
  have touched := (unhurt_touch s G 0 (G.copAddrs len x disp)).1
  have cleared := stays_modCourse (s.touchTlb G 0 (G.copAddrs len x disp)) G.g.core G.g.course fun c => { c with lostDests := [] }
  refine ⟨_, opCop_inv r ok, ran_finish r (((touched.stays ..).trans cleared).trans ((unhurt_invalAll _ _ ls).stays ..)) rfl rfl rfl, ?_⟩
  refine (congrArg Core.lcache (core_finish ..)).trans ((lcache_invalAll ..).trans ?_)
  rw [lcache_modCourse, lcache_touchTlb]

/-! ### Hints (R262, R263) -/

/-- What `pf` does for slot `j`: the fill of a line of device memory that its thread may read. -/
def State.prefetch (G : Grp) (va : Nat → Word) (s : State) (j : Nat) : State :=
  match s.probe G.g.core G.tk.ctx (va j) with
  | some (.leaf e) =>
    match s.targetOf e (va57 (va j)) with
    | .home (.hbm d a) =>
      if e.permits { r := true } (G.cs.thread j).sup && !e.hostOwned && decide (e.phys (va57 (va j)) < 2 ^ 56) then
        [0, 64, 128, 192].foldl (fun s k => s.missFor (.hbm d (a / 256 * 256 + k))) s else s
    | _ => s
  | _ => s

/-- What `mig` does for slot `j`: a request to move the page, unless it is there or on its way. -/
def State.placeHint (toHost : Bool) (G : Grp) (va : Nat → Word) (s : State) (j : Nat) : State :=
  match s.probe G.g.core G.tk.ctx (va j) with
  | some (.leaf e) =>
    let frame := leafBase e.pte.toNat e.size
    if pteBit e.pte.toNat 9 && (pteBit e.pte.toNat 8 != toHost) && !((s.die (frameDie frame)).migr.any fun m => decide (m.frame = frame)) then
      s.askMigration (frameDie frame) { frame := frame, toHost := toHost, assisted := false, ctx := G.tk.ctx, va := va57 (va j), pte := 0 }
    else s
  | _ => s

/-- Whatever leaves the courses keeps those of a fold. -/
theorem course?_foldl {α : Type} {f : State → α → State} (keeps : ∀ s a k n, (f s a).course? k n = s.course? k n) (l : List α) (s : State) (k n : Nat) :
    (l.foldl f s).course? k n = s.course? k n := by
  induction l generalizing s with
  | nil => rfl
  | cons a l ih => exact (ih (f s a)).trans (keeps s a k n)

theorem course?_missFor (s : State) (x : Loc) (k n : Nat) : (s.missFor x).course? k n = s.course? k n := by
  unfold State.missFor
  extract_lets
  split
  · rfl
  · split <;> rfl

theorem course?_prefetch (G : Grp) (va : Nat → Word) (s : State) (j k n : Nat) : (s.prefetch G va j).course? k n = s.course? k n := by
  unfold State.prefetch
  split
  · split
    · split
      · exact course?_foldl (fun s a => course?_missFor s _) _ s k n
      · rfl
    · rfl
  · rfl

theorem course?_placeHint (toHost : Bool) (G : Grp) (va : Nat → Word) (s : State) (j k n : Nat) :
    (s.placeHint toHost G va j).course? k n = s.course? k n := by
  unfold State.placeHint
  split
  · dsimp only
    split <;> rfl
  · rfl

theorem opPf_eq {s : State} {G : Grp} {len : Nat} {x : E64} (r : Runs s G (laneE len x [extA x])) :
    opPf len x s = .next (((G.active (laneE len x [extA x])).foldl (State.prefetch G fun j => G.read (laneE len x [extA x]) j (extA x)) s).finish G
      (laneE len x [extA x]) G.cs) := by
  refine withGroup_to r.lane ?_ rfl
  rw [r.ok]
  refine congrArg (State.finish · G _ G.cs) (congrArg (List.foldl · s _) (funext fun s => funext fun j => ?_))
  unfold State.prefetch
  dsimp only
  generalize s.probe G.g.core G.tk.ctx (G.read (laneE len x [extA x]) j (extA x)) = found
  rcases found with _ | (e | _ | _ | _)
  case some.leaf =>
    have swap : ∀ {t : State}, (if (!e.permits { r := true } (G.cs.thread j).sup || e.hostOwned ||
        decide (2 ^ 56 ≤ e.phys (va57 (G.read (laneE len x [extA x]) j (extA x))))) = true then s else t) =
        if (e.permits { r := true } (G.cs.thread j).sup && !e.hostOwned &&
          decide (e.phys (va57 (G.read (laneE len x [extA x]) j (extA x))) < 2 ^ 56)) = true then t else s := by
      intro t
      rw [← ite_not]
      congr 1
      simp [Bool.and_eq_true, and_assoc]
    dsimp only
    rw [swap]
    generalize s.targetOf e (va57 (G.read (laneE len x [extA x]) j (extA x))) = target
    rcases target with (_ | _ | _ | _) | _ | _
    case home.hbm => rfl
    all_goals exact ite_self _
  all_goals rfl

theorem opPf_passes {s : State} {G : Grp} {len : Nat} {x : E64} (r : Runs s G (laneE len x [extA x])) :
    ∃ t, opPf len x s = .next t ∧
      Passed ((G.active (laneE len x [extA x])).foldl (State.prefetch G fun j => G.read (laneE len x [extA x]) j (extA x)) s) t G len :=
  ⟨_, opPf_eq r, passed_of_course? r ((course?_foldl (fun s j => course?_prefetch G _ s j) _ s _ _).trans r.lane.course)⟩

theorem opMig_eq {s : State} {G : Grp} {len : Nat} {x : E64} (toHost : Bool) (r : Runs s G (laneE len x [extA x])) :
    opMig len x toHost s = .next (((G.active (laneE len x [extA x])).foldl (State.placeHint toHost G fun j => G.read (laneE len x [extA x]) j (extA x)) s).finish
      G (laneE len x [extA x]) G.cs) := by
  refine withGroup_to r.lane ?_ rfl
  rw [r.ok]
  refine congrArg (State.finish · G _ G.cs) (congrArg (List.foldl · s _) (funext fun s => funext fun j => ?_))
  unfold State.placeHint
  dsimp only
  generalize s.probe G.g.core G.tk.ctx (G.read (laneE len x [extA x]) j (extA x)) = found
  rcases found with _ | (e | _ | _ | _)
  case some.leaf =>
    dsimp only
    rw [← ite_not]
    congr 1
    simp [and_assoc]
  all_goals rfl

theorem opMig_passes {s : State} {G : Grp} {len : Nat} {x : E64} (toHost : Bool) (r : Runs s G (laneE len x [extA x])) :
    ∃ t, opMig len x toHost s = .next t ∧
      Passed ((G.active (laneE len x [extA x])).foldl (State.placeHint toHost G fun j => G.read (laneE len x [extA x]) j (extA x)) s) t G len :=
  ⟨_, opMig_eq toHost r, passed_of_course? r ((course?_foldl (fun s j => course?_placeHint toHost G _ s j) _ s _ _).trans r.lane.course)⟩

/-! ### Translations removed (R264) -/

/-- What `tlbinv` does for slot `j`. -/
def State.dropTranslations (hit : Nat → Nat → TlbEntry → Bool) (G : Grp) (va : Nat → Word) (s : State) (j : Nat) : State :=
  let keep := fun es : List TlbEntry => es.filter fun e => !hit G.tk.ctx (va57 (va j)) e
  (s.modCore G.g.core fun c => { c with tlb := keep c.tlb }).modDie (coreDie G.g.core) fun d => { d with tlb := keep d.tlb }

theorem stays_dropTranslations (hit : Nat → Nat → TlbEntry → Bool) (G : Grp) (va : Nat → Word) (s : State) (j : Nat) :
    Stays s (s.dropTranslations hit G va j) G.g.core G.g.course := by
  obtain ⟨courses, mem, pool⟩ := stays_modCore s G.g.core G.g.course G.g.core
    (fun c => { c with tlb := c.tlb.filter fun e => !hit G.tk.ctx (va57 (va j)) e }) fun _ => rfl
  exact ⟨courses, mem, pool⟩

theorem stays_foldl {α : Type} {f : State → α → State} {k n : Nat} (step : ∀ s a, Stays s (f s a) k n) (l : List α) (s : State) : Stays s (l.foldl f s) k n := by
  induction l generalizing s with
  | nil => exact .rfl
  | cons a l ih => exact (step s a).trans (ih _)

theorem core_dropTranslations (hit : Nat → Nat → TlbEntry → Bool) (G : Grp) (va : Nat → Word) (s : State) (j : Nat) :
    ((s.dropTranslations hit G va j).core G.g.core).tlb = (s.core G.g.core).tlb.filter fun e => !hit G.tk.ctx (va57 (va j)) e := by
  rw [State.dropTranslations, core_modDie, State.core_modCore, if_pos rfl]

theorem die_dropTranslations (hit : Nat → Nat → TlbEntry → Bool) (G : Grp) (va : Nat → Word) (s : State) (j : Nat) :
    ((s.dropTranslations hit G va j).die (coreDie G.g.core)).tlb =
      (s.die (coreDie G.g.core)).tlb.filter fun e => !hit G.tk.ctx (va57 (va j)) e := by
  rw [State.dropTranslations, State.die_modDie, if_pos rfl]
  rfl

theorem opTlbinv_eq {s : State} {G : Grp} {len : Nat} {x : E64} (hit : Nat → Nat → TlbEntry → Bool) (r : Runs s G (laneE len x [extA x] false true)) :
    opTlbinv len x hit s = .next (((G.active (laneE len x [extA x] false true)).foldl
      (State.dropTranslations hit G fun j => G.read (laneE len x [extA x] false true) j (extA x)) s).finish G (laneE len x [extA x] false true) G.cs) := by
  refine withGroup_to r.lane ?_ rfl
  rw [r.ok]
  rfl

theorem opTlbinv_drops {s : State} {G : Grp} {len : Nat} {x : E64} (hit : Nat → Nat → TlbEntry → Bool) (r : Runs s G (laneE len x [extA x] false true)) :
    let l := laneE len x [extA x] false true
    let gone := fun e : TlbEntry => (G.active l).any fun j => hit G.tk.ctx (va57 (G.read l j (extA x))) e
    ∃ t, opTlbinv len x hit s = .next t ∧ Ran s t G (fun _ a b => b = a.complete len) ∧
      (t.core G.g.core).tlb = (s.core G.g.core).tlb.filter (fun e => !gone e) ∧
      (t.die (coreDie G.g.core)).tlb = (s.die (coreDie G.g.core)).tlb.filter fun e => !gone e := by
  intro l gone
  refine ⟨_, opTlbinv_eq hit r, ran_finish r (stays_foldl (stays_dropTranslations hit G _) _ s) rfl rfl rfl, ?l1, ?last⟩
  case l1 =>
    refine (congrArg Core.tlb (core_finish ..)).trans ?_
    rw [← foldl_filter]
    exact (List.foldl_hom (fun s : State => (s.core G.g.core).tlb) fun s j =>
      (core_dropTranslations hit G (G.read l · (extA x)) s j).symm).symm
  case last =>
    rw [← foldl_filter]
    exact (List.foldl_hom (fun s : State => (s.die (coreDie G.g.core)).tlb) fun s j =>
      (die_dropTranslations hit G (G.read l · (extA x)) s j).symm).symm

/-! ### Write-backs (R261) -/

/-- What a write-back does for one thread: die scratch has no copies to write back. -/
def writeBackEach (op : Nat) (s : State) (G : Grp) (i : Nat) (va : Word) (loc : Loc) (r : Course × State) : Course × State :=
  match loc.align 256 with
  | .scratch _ _ => r
  | _ => startAccess G r.2 r.1 i va (loc.align 256) (.cop op) 0 false 0 0 [] (s.orderAfter G i false 0)

/-- The access of a write-back. -/
def Grp.writeBack (G : Grp) (op : Nat) (e : Nat × Word × Loc) : List Access :=
  match e.2.2 with
  | .scratch _ _ => []
  | x => [{ G.access (e.1, e.2.1, x.align 256) (.cop op) 0 with size := 256 }]

theorem opens_writeBackEach (op : Nat) (s : State) (G : Grp) (e : Nat × Word × Loc) : Opens (writeBackEach op s G e.1 e.2.1 e.2.2) (G.writeBack op e) := by
  obtain ⟨i, va, loc⟩ := e
  cases loc with
  | scratch d a => exact opens_id
  | pool k a => exact opens_start G i va ((Loc.pool k a).align 256) (.cop op) 0 false 0 0 [] (s.orderAfter G i false 0)
  | hbm d a => exact opens_start G i va ((Loc.hbm d a).align 256) (.cop op) 0 false 0 0 [] (s.orderAfter G i false 0)
  | remote d a => exact opens_start G i va ((Loc.remote d a).align 256) (.cop op) 0 false 0 0 [] (s.orderAfter G i false 0)

theorem slot_of_mem_writeBack {G : Grp} {op : Nat} {e : Nat × Word × Loc} : ∀ a ∈ G.writeBack op e, a.slot = e.1 := by
  unfold Grp.writeBack
  split <;> simp [Grp.access]

theorem opCop_writesBack (len : Nat) (x : A1) (disp : BitVec 32) {op : Nat} (writes : op ≠ 0) (s : State) :
    opCop len x disp op s = s.memOp (copLane len x) 0 { r := true } 1 1 false false true (fun rd => rd (.v x.a) + disp.signExtend 64)
      (writeBackEach op s) := by
  simp only [opCop, writes, ne_eq, not_false_eq_true, decide_true, if_false]
  rfl

theorem begins_opCop {i : Instr} {len : Nat} {x : A1} {disp : BitVec 32} {op : Nat} (runs : ∀ s, exec i s = opCop len x disp op s) (writes : op ≠ 0) :
    Begins i (copLane len x) 0 { r := true } 1 false false true (fun rd => rd (.v x.a) + disp.signExtend 64) (Grp.writeBack · op) :=
  begins_memOp (fun s => (runs s).trans (opCop_writesBack len x disp writes s)) (fun s G e => opens_writeBackEach op s G e) fun _ _ => slot_of_mem_writeBack

/-- Settles O36: each form is a `cop`, a hint, a `tlbinv` or a write-back. -/
theorem cacheAndTranslationHints : Obligations.CacheAndTranslationHints := by
  unfold Obligations.CacheAndTranslationHints
  refine ⟨?ends, ?back⟩
  case back =>
    exact ⟨fun _ => begins_opCop (fun _ => rfl) (by decide), fun _ => begins_opCop (fun _ => rfl) (by decide),
      fun _ => begins_opCop (fun _ => rfl) (by decide), fun _ => begins_opCop (fun _ => rfl) (by decide)⟩
  case ends =>
    intro inval hint leaf fill move drops
    have of_opCop {i : Instr} {len : Nat} {x : A1} {disp : BitVec 32} (runs : ∀ s, exec i s = opCop len x disp 0 s) : inval i len x disp := by
      intro s G ls l r ok
      obtain ⟨t, took, ran, lines⟩ := opCop_invalidates r ok
      refine ⟨t, (runs s).trans took, ran, fun y held e he k hk same => ?_, lines⟩
      rw [lines, List.mem_filter] at held
      simp only [Bool.not_eq_true', List.any_eq_false] at held
      exact held.2 e he (List.any_eq_true.mpr ⟨k, hk, decide_eq_true same⟩)
    have fills : fill = State.prefetch := rfl
    have moves : move = State.placeHint := rfl
    clear_value fill move
    have of_opPf {i : Instr} {len : Nat} {x : E64} (runs : ∀ s, exec i s = opPf len x s) : hint i len x fill := fun s G r => by
      obtain ⟨t, took, passed⟩ := opPf_passes r
      rw [fills]
      exact ⟨t, (runs s).trans took, passed⟩
    have of_opMig {i : Instr} {len : Nat} {x : E64} {toHost : Bool} (runs : ∀ s, exec i s = opMig len x toHost s) : hint i len x (move toHost) := fun s G r => by
      obtain ⟨t, took, passed⟩ := opMig_passes toHost r
      rw [moves]
      exact ⟨t, (runs s).trans took, passed⟩
    have of_opTlbinv {i : Instr} {len : Nat} {x : E64} {hit : Nat → Nat → TlbEntry → Bool} (runs : ∀ s, exec i s = opTlbinv len x hit s) :
        drops i len x hit := fun s G r => by
      obtain ⟨t, took, dropped⟩ := opTlbinv_drops hit r
      exact ⟨t, (runs s).trans took, dropped⟩
    clear_value inval hint drops
    exact ⟨fun _ => of_opCop fun _ => rfl, fun _ => of_opCop fun _ => rfl, fun _ => of_opPf fun _ => rfl, fun _ => of_opPf fun _ => rfl,
      fun _ => of_opMig fun _ => rfl, fun _ => of_opMig fun _ => rfl, fun _ => of_opMig fun _ => rfl,
      fun _ => of_opTlbinv fun _ => rfl, fun _ => of_opTlbinv fun _ => rfl, fun _ => of_opTlbinv fun _ => rfl, fun _ => of_opTlbinv fun _ => rfl⟩

end Sys2Proof.Machine
end

section
/-! Taking a trap (R377, R379, R380, R384, R388). -/

namespace Sys2Proof.Machine

/-- Settles O42: nothing holds the trap back, no trap of a handler is under way, and `takeTrap` goes the way of its route. -/
theorem trapEntry : Obligations.TrapEntry := by
  unfold Obligations.TrapEntry
  intro s core course c tk x resident task untrapped drained c0 u quiet
  have stopping : u.course? core course = some c0 := State.course?_setCourse_self ..
  have its : u.task? core c0.task = some tk := (State.task?_setCourse ..).trans task
  have calm : (!c0.quiet x s.now (u.heldIds core)) = false := by
    rw [Bool.not_eq_false']
    exact quiet
  have performed : (u.courseStores core course).isEmpty = true := List.isEmpty_iff.mpr drained
  rw [stopCourse_of_untrapped resident untrapped]
  show u.takeTrap core course = _
  unfold State.takeTrap
  rw [stopping]
  dsimp only
  rw [its]
  refine (if_neg (ne_true_of_eq_false calm)).trans ((if_neg ?stores).trans ((if_neg ?nested).trans rfl))
  case stores =>
    rw [performed]
    exact Bool.false_ne_true
  case nested => exact Bool.false_ne_true

end Sys2Proof.Machine
end

section
/-! Commands of the engines (R107, R276, R277, R295, R440): what a queue and the matrix engine's order hold once the commands of a
group have entered. -/

namespace Sys2Proof.Machine

/-! ### Queues and counters -/

theorem getD_set {α : Type} (v : Vector α 4) {i : Nat} (h : i < 4) (a d : α) (j : Nat) :
    (v.set i a h).toList.getD j d = if j = i then a else v.toList.getD j d := by
  rw [List.getD_eq_getElem?_getD, List.getD_eq_getElem?_getD, Vector.toList_set, List.getElem?_set]
  by_cases same : j = i
  · subst same
    rw [if_pos rfl, if_pos rfl, if_pos (by simpa using h)]
    rfl
  · rw [if_neg (Ne.symm same), if_neg same]

theorem Core.queue_setQueue (k : Core) {cls : Nat} (h : cls < 4) (q : List Cmd) (j : Nat) :
    (k.setQueue cls q).queue j = if j = cls then q else k.queue j := by
  unfold Core.queue Core.setQueue
  rw [dif_pos h]
  exact getD_set _ h ..

theorem Course.count_setCount (c : Course) {cls : Nat} (h : cls < 4) (n j : Nat) :
    (c.setCount cls n).count j = if j = cls then n else c.count j := by
  unfold Course.count Course.setCount
  rw [dif_pos h]
  exact getD_set _ h ..

/-- What is in a queue after it was set was in the new queue or in one of the old ones. -/
theorem Core.mem_queues_setQueue {k : Core} {cls : Nat} {q : List Cmd} {y : Cmd} (h : y ∈ (k.setQueue cls q).queues.toList.flatten) :
    y ∈ q ∨ y ∈ k.queues.toList.flatten := by
  unfold Core.setQueue at h
  split at h
  · obtain ⟨l, hl, hy⟩ := List.mem_flatten.mp h
    rw [Vector.toList_set] at hl
    rcases List.mem_or_eq_of_mem_set hl with old | rfl
    · exact .inr (List.mem_flatten.mpr ⟨l, old, hy⟩)
    · exact .inl hy
  · exact .inr h

theorem Core.mem_queues_of_queue {k : Core} {cls : Nat} {y : Cmd} (h : y ∈ k.queue cls) : y ∈ k.queues.toList.flatten := by
  unfold Core.queue at h
  rw [List.getD_eq_getElem?_getD] at h
  cases found : k.queues.toList[cls]? with
  | none => simp [found] at h
  | some q =>
    rw [found] at h
    exact List.mem_flatten.mpr ⟨q, List.mem_of_getElem? found, h⟩

theorem mem_insertAt {α : Type} {p : α → Bool} {x y : α} {l : List α} : y ∈ insertAt p x l ↔ y = x ∨ y ∈ l := by
  induction l with
  | nil => simp [insertAt]
  | cons a l ih =>
    unfold insertAt
    split
    · exact List.mem_cons
    · rw [List.mem_cons, ih, List.mem_cons, or_left_comm]

theorem sublist_insertAt {α : Type} (p : α → Bool) (x : α) (l : List α) : l.Sublist (insertAt p x l) := by
  induction l with
  | nil => exact List.nil_sublist _
  | cons a l ih =>
    unfold insertAt
    split
    · exact List.sublist_cons_self ..
    · exact ih.cons_cons a

/-- With nothing to come before, an element goes to the end. -/
theorem insertAt_of_none {α : Type} {p : α → Bool} (x : α) {l : List α} (h : ∀ y ∈ l, p y = false) : insertAt p x l = l ++ [x] := by
  induction l with
  | nil => rfl
  | cons a l ih =>
    unfold insertAt
    rw [if_neg (ne_true_of_eq_false (h a (List.mem_cons_self ..))), ih fun y hy => h y (List.mem_cons_of_mem _ hy)]
    rfl

/-! ### One command enters -/

/-- A queue with one command more (R107). -/
def placed (q : List Cmd) (x : Cmd) : List Cmd := if x.cls = 1 ∨ x.cls = 2 then insertAt (fun y => y.yields x) x q else q ++ [x]

/-- Whether the command numbered `id` goes behind `x` in the matrix engine's order. -/
def Core.goesBehind (k : Core) (x : Cmd) (id : Nat) : Bool :=
  ((k.queues.toList.flatten.find? fun y => decide (y.id = id)).map fun y => y.yields x).getD false

/-- The matrix engine's order with one command more. -/
def Core.ordered (k : Core) (x : Cmd) : List Nat := if x.cls = 1 ∨ x.cls = 2 then insertAt (k.goesBehind x) x.id k.morder else k.morder

theorem mem_placed {q : List Cmd} {x y : Cmd} : y ∈ placed q x ↔ y = x ∨ y ∈ q := by
  unfold placed
  split
  · exact mem_insertAt
  · simp [or_comm]

/-- The command as it stands in its queue. -/
def Cmd.numbered (x : Cmd) (n : Nat) : Cmd := { x with id := n }

/-- A core with one command more. -/
def Core.entered (k : Core) (x : Cmd) : Core := { k.setQueue x.cls (placed (k.queue x.cls) x) with morder := k.ordered x }

theorem enqueue_eq (s : State) (core : Nat) (x : Cmd) :
    s.enqueue core x = (({ s with nextId := s.nextId + 1 }).modCore core fun k => k.entered (x.numbered s.nextId)).modCourse core x.course
      fun c => c.setCount x.cls (c.count x.cls + 1) := rfl

theorem core_enqueue (s : State) (core : Nat) (x : Cmd) :
    ((s.enqueue core x).core core).queues = ((s.core core).entered (x.numbered s.nextId)).queues ∧
      ((s.enqueue core x).core core).morder = ((s.core core).entered (x.numbered s.nextId)).morder := by
  rw [enqueue_eq, (State.queues_modCourse ..).1, (State.queues_modCourse ..).2, State.core_modCore, if_pos rfl]
  exact ⟨rfl, rfl⟩

theorem nextId_modCourse (s : State) (k n : Nat) (f : Course → Course) : (s.modCourse k n f).nextId = s.nextId := by
  unfold State.modCourse
  split <;> rfl

theorem nextId_enqueue (s : State) (core : Nat) (x : Cmd) : (s.enqueue core x).nextId = s.nextId + 1 := nextId_modCourse ..

theorem course?_entered (s : State) (core i k n : Nat) (x : Cmd) :
    (({ s with nextId := i }).modCore core fun c => c.entered x).course? k n = s.course? k n :=
  course?_modCore { s with nextId := i } core (fun c => c.entered x) (fun _ => rfl) k n

theorem stays_enqueue (s : State) (core : Nat) (x : Cmd) : Stays s (s.enqueue core x) core x.course := by
  rw [enqueue_eq]
  exact Stays.trans ⟨fun _ _ _ => course?_entered .., rfl, rfl⟩ (stays_modCourse ..)

theorem course?_enqueue {s : State} {core : Nat} {x : Cmd} {c : Course} (h : s.course? core x.course = some c) :
    (s.enqueue core x).course? core x.course = some (c.setCount x.cls (c.count x.cls + 1)) := by
  rw [enqueue_eq, State.course?_modCourse, if_pos ⟨rfl, rfl⟩, course?_entered, h]
  rfl

/-! ### The commands of a group enter -/

/-- The commands as they stand in their queue, numbered from `n`. -/
def numberedFrom (n : Nat) : List Cmd → List Cmd
  | [] => []
  | x :: xs => x.numbered n :: numberedFrom (n + 1) xs

theorem numberedFrom_eq (xs : List Cmd) (n m : Nat) : numberedFrom (n + m) xs = (xs.zipIdx m).map fun p => { p.1 with id := n + p.2 } := by
  induction xs generalizing m with
  | nil => rfl
  | cons x xs ih =>
    rw [List.zipIdx_cons, List.map_cons, ← ih (m + 1)]
    rfl

theorem mem_numberedFrom {xs : List Cmd} {n : Nat} {y : Cmd} (h : y ∈ numberedFrom n xs) : ∃ x ∈ xs, ∃ m, y = x.numbered m := by
  induction xs generalizing n with
  | nil => cases h
  | cons x xs ih =>
    rcases List.mem_cons.mp h with rfl | later
    · exact ⟨x, List.mem_cons_self .., n, rfl⟩
    · obtain ⟨z, hz, same⟩ := ih later
      exact ⟨z, List.mem_cons_of_mem _ hz, same⟩

/-- Commands of one class, course, cycle and lane. -/
structure Cmd.Of (x : Cmd) (cls course cycle lane : Nat) : Prop where
  cls : x.cls = cls
  course : x.course = course
  cycle : x.cycle = cycle
  lane : x.lane = lane

theorem queue_enqueue {x : Cmd} (small : x.cls < 4) (s : State) (core k : Nat) : ((s.enqueue core x).core core).queue k =
    if k = x.cls then placed ((s.core core).queue x.cls) (x.numbered s.nextId) else (s.core core).queue k :=
  (congrArg (fun q : Vector (List Cmd) 4 => q.toList.getD k []) (core_enqueue s core x).1).trans ((s.core core).queue_setQueue small _ k)

/-! ### Commands that nothing has to go behind -/

/-- No waiting command of a higher lane reached the matrix engine in the cycle (R107). -/
def Core.Clear (k : Core) (cls cycle lane : Nat) : Prop :=
  cls = 1 ∨ cls = 2 → ∀ y ∈ k.queues.toList.flatten, ¬ (y.cycle = cycle ∧ lane < y.lane ∧ y.st = .queued)

theorem Core.Clear.yields {k : Core} {cls course cycle lane : Nat} {x y : Cmd} (clear : k.Clear cls cycle lane) (of : x.Of cls course cycle lane)
    (matrix : x.cls = 1 ∨ x.cls = 2) (hy : y ∈ k.queues.toList.flatten) : y.yields x = false := by
  obtain ⟨rfl, -, rfl, rfl⟩ := of
  exact decide_eq_false (clear matrix y hy)

theorem Core.Clear.placed {k : Core} {cls course cycle lane : Nat} {x : Cmd} (clear : k.Clear cls cycle lane) (of : x.Of cls course cycle lane) (j : Nat) :
    placed (k.queue j) x = k.queue j ++ [x] := by
  unfold Machine.placed
  split
  · next matrix => exact insertAt_of_none _ fun y hy => clear.yields of matrix (Core.mem_queues_of_queue hy)
  · rfl

theorem Core.Clear.ordered {k : Core} {cls course cycle lane : Nat} {x : Cmd} (clear : k.Clear cls cycle lane) (of : x.Of cls course cycle lane) :
    k.ordered x = k.morder ++ if cls = 1 ∨ cls = 2 then [x.id] else [] := by
  unfold Core.ordered
  rw [of.cls]
  split
  · next matrix =>
    refine insertAt_of_none _ fun id _ => ?_
    unfold Core.goesBehind
    cases found : k.queues.toList.flatten.find? fun y => decide (y.id = id) with
    | none => rfl
    | some y => exact clear.yields of (of.cls ▸ matrix) (List.mem_of_find?_eq_some found)
  · exact (List.append_nil _).symm

/-- A command that entered is of the lane itself, so that none of a higher lane waits after it. -/
theorem Core.Clear.entered {k : Core} {cls course cycle lane : Nat} {x : Cmd} (clear : k.Clear cls cycle lane) (of : x.Of cls course cycle lane) :
    (k.entered x).Clear cls cycle lane := by
  intro matrix y hy
  rcases Core.mem_queues_setQueue hy with there | old
  · rcases mem_placed.mp there with rfl | old
    · rintro ⟨-, behind, -⟩
      exact absurd (of.lane ▸ behind) (Nat.lt_irrefl _)
    · exact clear matrix y (Core.mem_queues_of_queue old)
  · exact clear matrix y old

section
variable {core cls course cycle lane : Nat} {cmds : List Cmd} (same : ∀ x ∈ cmds, x.Of cls course cycle lane)
include same

theorem stays_enqueueAll (s : State) : Stays s (cmds.foldl (State.enqueue · core) s) core course := by
  induction cmds generalizing s with
  | nil => exact .rfl
  | cons x xs ih =>
    have first := stays_enqueue s core x
    rw [(same x (List.mem_cons_self ..)).course] at first
    exact first.trans (ih (fun y hy => same y (List.mem_cons_of_mem _ hy)) _)

/-- The course only counts them. -/
theorem course?_enqueueAll (small : cls < 4) {s : State} {c : Course} (h : s.course? core course = some c) :
    ∃ d, (cmds.foldl (State.enqueue · core) s).course? core course = some d ∧ d.threads = c.threads ∧ d.c = c.c ∧ d.cpend = c.cpend ∧
      ∀ k, d.count k = c.count k + if k = cls then cmds.length else 0 := by
  induction cmds generalizing s c with
  | nil => exact ⟨c, h, rfl, rfl, rfl, fun k => by simp⟩
  | cons x xs ih =>
    obtain ⟨rfl, rfl, -, -⟩ := same x (List.mem_cons_self ..)
    obtain ⟨d, course, threads, uni, pend, counts⟩ := ih (fun y hy => same y (List.mem_cons_of_mem _ hy)) (course?_enqueue h)
    refine ⟨d, course, threads, uni, pend, fun k => ?_⟩
    rw [counts, Course.count_setCount c small, List.length_cons]
    by_cases own : k = x.cls
    · subst own
      simp only [if_true]
      omega
    · simp only [own, if_false]

theorem queue_enqueueAll (small : cls < 4) (s : State) (k : Nat) : ((cmds.foldl (State.enqueue · core) s).core core).queue k =
    if k = cls then (numberedFrom s.nextId cmds).foldl placed ((s.core core).queue k) else (s.core core).queue k := by
  induction cmds generalizing s with
  | nil => simp [numberedFrom]
  | cons x xs ih =>
    obtain ⟨rfl, -⟩ := same x (List.mem_cons_self ..)
    rw [List.foldl_cons, ih (fun y hy => same y (List.mem_cons_of_mem _ hy)), queue_enqueue small, nextId_enqueue]
    by_cases own : k = x.cls
    · subst own
      simp only [if_true]
      rfl
    · simp only [own, if_false]

theorem morder_sublist_enqueueAll (s : State) :
    (s.core core).morder.Sublist ((cmds.foldl (State.enqueue · core) s).core core).morder := by
  induction cmds generalizing s with
  | nil => exact List.Sublist.refl _
  | cons x xs ih =>
    refine List.Sublist.trans ?_ (ih (fun y hy => same y (List.mem_cons_of_mem _ hy)) (s.enqueue core x))
    rw [(core_enqueue s core x).2]
    show List.Sublist _ ((s.core core).ordered (x.numbered s.nextId))
    unfold Core.ordered
    split
    · exact sublist_insertAt ..
    · exact List.Sublist.refl _

/-- Commands that nothing has to go behind enter at the end of their queue and of the matrix engine's order. -/
theorem inOrder_enqueueAll (small : cls < 4) (s : State) (clear : (s.core core).Clear cls cycle lane) :
    let k := (cmds.foldl (State.enqueue · core) s).core core
    let new := numberedFrom s.nextId cmds
    k.queue cls = (s.core core).queue cls ++ new ∧ k.morder = (s.core core).morder ++ if cls = 1 ∨ cls = 2 then new.map Cmd.id else [] := by
  induction cmds generalizing s with
  | nil => simp [numberedFrom]
  | cons x xs ih =>
    have of : (x.numbered s.nextId).Of cls course cycle lane := by
      obtain ⟨h1, h2, h3, h4⟩ := same x (List.mem_cons_self ..)
      exact ⟨h1, h2, h3, h4⟩
    obtain ⟨queues, morder⟩ := core_enqueue s core x
    have queue : ((s.enqueue core x).core core).queue cls = (s.core core).queue cls ++ [x.numbered s.nextId] := by
      have own : x.cls = cls := of.cls
      rw [queue_enqueue (own ▸ small), own, if_pos rfl, clear.placed of]
    have order : ((s.enqueue core x).core core).morder = (s.core core).morder ++ if cls = 1 ∨ cls = 2 then [s.nextId] else [] :=
      morder.trans (clear.ordered of)
    have still : ((s.enqueue core x).core core).Clear cls cycle lane := by
      unfold Core.Clear
      rw [queues]
      exact clear.entered of
    obtain ⟨later, after⟩ := ih (fun y hy => same y (List.mem_cons_of_mem _ hy)) (s.enqueue core x) still
    rw [nextId_enqueue] at later after
    refine ⟨later.trans ?_, after.trans ?_⟩
    · rw [queue, List.append_assoc]
      rfl
    · rw [order, List.append_assoc]
      split <;> rfl

end

/-! ### The group passes -/

/-- What the queues and the matrix engine's order of a core become as `new` enter class `cls` (R107). -/
structure TookIn (k k' : Core) (cls cycle lane : Nat) (new : List Cmd) : Prop where
  queue : ∀ j, k'.queue j = if j = cls then new.foldl placed (k.queue j) else k.queue j
  order : k.morder.Sublist k'.morder
  last : k.Clear cls cycle lane → k'.queue cls = k.queue cls ++ new ∧ k'.morder = k.morder ++ if cls = 1 ∨ cls = 2 then new.map Cmd.id else []

theorem TookIn.congr {k k' k'' : Core} {cls cycle lane : Nat} {new : List Cmd} (h : TookIn k k' cls cycle lane new)
    (queues : k''.queues = k'.queues) (morder : k''.morder = k'.morder) : TookIn k k'' cls cycle lane new := by
  have same : ∀ j, k''.queue j = k'.queue j := fun j => congrArg (fun q : Vector (List Cmd) 4 => q.toList.getD j []) queues
  obtain ⟨queue, order, last⟩ := h
  refine ⟨fun j => (same j).trans (queue j), morder ▸ order, fun clear => ?_⟩
  rw [same, morder]
  exact last clear

/-- The commands of a group entered, its course counts them, and its threads did `f`. -/
structure Entered (s t : State) (G : Grp) (cls : Nat) (cmds : List Cmd) (f : Nat → Thread → Thread) (c : Course) : Prop where
  lane : t.issue = none
  course : t.course? G.g.core G.g.course = some c
  took : TookIn (s.core G.g.core) (t.core G.g.core) cls G.g.t (laneOf G.g.core G.g.course) (numberedFrom s.nextId cmds)
  counts : ∀ k, c.count k = G.cs.count k + if k = cls then cmds.length else 0
  length : c.threads.length = G.cs.threads.length
  threads : ∀ j ∈ G.g.slots, c.thread j = f j (G.cs.thread j)
  others : ∀ j, j ∉ G.g.slots → c.thread j = G.cs.thread j
  uni : c.c = G.cs.c
  pend : c.cpend = G.cs.cpend
  stays : Stays s t G.g.core G.g.course

theorem entered_finish {s : State} {G : Grp} {l : LaneI} {cls : Nat} {cmds : List Cmd} (r : Runs s G l) (small : cls < 4)
    (same : ∀ x ∈ cmds, x.Of cls G.g.course G.g.t (laneOf G.g.core G.g.course)) :
    let u := cmds.foldl (State.enqueue · G.g.core) s
    ∃ c, Entered s (u.finish G l ((u.course? G.g.core G.g.course).getD G.cs)) G cls cmds (fun _ t => t.complete l.len) c := by
  intro u
  obtain ⟨d, course, threads, uni, pend, counts⟩ := course?_enqueueAll same small r.lane.course
  rw [show u.course? G.g.core G.g.course = some d from course, Option.getD_some]
  have done := completeAll_thread G l d r.lane.nodup fun i hi => threads ▸ r.lane.range i hi
  have length : (G.completeAll l d).threads.length = d.threads.length := foldMod_length ..
  obtain ⟨ts, rest⟩ := completeAll_rest G l d
  let busy := if l.uni then 1 else l.per * G.g.slots.length
  obtain ⟨x, y, b, rc, only⟩ := onlyCourse_leave (s := u) (G := G) busy (stallCycles l.h + G.edgeCost l) (G.completeAll l d)
  have stays := (leaveLane_keeps u G busy (stallCycles l.h + G.edgeCost l) (G.completeAll l d)).2
  have own : ∀ i, d.thread i = G.cs.thread i := fun i => Course.thread_congr threads i
  refine ⟨_, only.lane, only.course, ?took, fun k => ?counts, length.trans (congrArg List.length threads), fun j hj => ?threads, fun j hj => ?others,
    ?uni, ?pend, (stays_enqueueAll same s).trans stays⟩
  case took =>
    have queues := congrArg Core.queues (core_finish u G l d)
    have morder := congrArg Core.morder (core_finish u G l d)
    exact TookIn.congr ⟨queue_enqueueAll same small s, morder_sublist_enqueueAll same s, inOrder_enqueueAll same small s⟩ queues morder
  case counts =>
    rw [rest]
    exact counts k
  case threads => exact (done j).trans ((if_pos hj).trans (congrArg (Thread.complete · l.len) (own j)))
  case others => exact (done j).trans ((if_neg hj).trans (own j))
  case uni =>
    rw [rest]
    exact uni
  case pend =>
    rw [rest]
    exact pend

/-- A group with room for its commands enters them (R276). -/
theorem queueAll_room {s : State} {G : Grp} {l : LaneI} {cls : Nat} {cmds : List Cmd} (few : cmds.length ≤ 63)
    (room : ((s.core G.g.core).queue cls).length + cmds.length ≤ queueDepth cls) (counted : G.cs.count cls + cmds.length ≤ 63) (sub : Nat) (block : Word) :
    let u := cmds.foldl (State.enqueue · G.g.core) s
    s.queueAll G l cls sub block cmds = u.finish G l ((u.course? G.g.core G.g.course).getD G.cs) := by
  unfold State.queueAll
  dsimp only
  rw [if_neg (by omega), if_neg]
  simp only [Bool.or_eq_true, decide_eq_true_eq]
  omega

/-! ### Commands of the issue instructions (R276) -/

theorem mapM_ok {α β ε : Type} {f : α → Except ε β} {g : α → β} {l : List α} (h : ∀ a ∈ l, f a = .ok (g a)) : l.mapM f = .ok (l.map g) := by
  induction l with
  | nil => rfl
  | cons a l ih =>
    rw [List.mapM_cons, h a (List.mem_cons_self ..), ih fun b hb => h b (List.mem_cons_of_mem _ hb)]
    rfl

theorem of_makeCmd (s : State) (G : Grp) (cls i off : Nat) (ws : List Nat) :
    (s.makeCmd G cls i off ws).Of cls G.g.course G.g.t (laneOf G.g.core G.g.course) := ⟨rfl, rfl, rfl, rfl⟩

/-- A group none of whose threads issues a command passes. -/
theorem entered_none {s : State} {G : Grp} {l : LaneI} (r : Runs s G l) {cls : Nat} (small : cls < 4) :
    ∃ c, Entered s (s.finish G l G.cs) G cls [] (fun _ t => t.complete l.len) c := by
  have passed := entered_finish (cmds := []) r small fun x hx => absurd hx List.not_mem_nil
  dsimp only [List.foldl_nil] at passed
  rwa [r.lane.course] at passed

def issueLane (x : V1) : LaneI := { len := 4, h := x.h, rd := [.v x.v] }

/-- The command that each thread issues from its block. -/
def State.issued (s : State) (G : Grp) (cls : Nat) (bs : Nat → Nat × List Nat) : List Nat → List Cmd :=
  List.map fun j => s.makeCmd G cls j (bs j).1 (bs j).2

theorem opIssue_enters {s : State} {G : Grp} {x : V1} {cls : Nat} {bs : Nat → Nat × List Nat} (r : Runs s G (issueLane x)) (small : cls < 4)
    (vector : isCtl G.g.core = false) (idle : s.issueBusy G.g.core G.g.course = false)
    (blocks : ∀ j ∈ G.active (issueLane x), s.readBlock G.g.core G.tk cls (G.read (issueLane x) j (.v x.v)) = .ok (bs j) ∧
      s.blockFault G.g.core G.tk (G.cs.thread j) cls (bs j).2 = none)
    (few : (s.issued G cls bs (G.active (issueLane x))).length ≤ 63)
    (room : ((s.core G.g.core).queue cls).length + (s.issued G cls bs (G.active (issueLane x))).length ≤ queueDepth cls)
    (counted : G.cs.count cls + (s.issued G cls bs (G.active (issueLane x))).length ≤ 63) :
    ∃ t c, opIssue x cls s = .next t ∧ Entered s t G cls (s.issued G cls bs (G.active (issueLane x))) (fun _ t => t.complete 4) c := by
  have same : ∀ y ∈ s.issued G cls bs (G.active (issueLane x)), y.Of cls G.g.course G.g.t (laneOf G.g.core G.g.course) := fun y hy => by
    obtain ⟨j, -, rfl⟩ := List.mem_map.mp hy
    exact of_makeCmd ..
  have check : G.check { len := 4, h := x.h, rd := [.v x.v] } = none := r.ok
  cases act : G.active (issueLane x) with
  | nil =>
    obtain ⟨c, entered⟩ := entered_none r small
    refine ⟨_, c, withGroup_to r.lane ?_ rfl, entered⟩
    rw [check]
    dsimp only
    rw [show G.active { len := 4, h := x.h, rd := [.v x.v] } = [] from act]
    rfl
  | cons j0 js =>
    rw [act] at same few room counted blocks
    obtain ⟨c, entered⟩ := entered_finish r small same
    refine ⟨_, c, withGroup_to r.lane ?_ rfl, entered⟩
    rw [check]
    dsimp only
    rw [show G.active { len := 4, h := x.h, rd := [.v x.v] } = j0 :: js from act]
    dsimp only [List.head?_cons]
    rw [vector, idle, mapM_ok (g := fun j => s.makeCmd G cls j (bs j).1 (bs j).2)]
    · exact queueAll_room few room counted ..
    · intro j hj
      obtain ⟨read, fine⟩ := blocks j hj
      unfold issueLane at read
      rw [read]
      dsimp only
      rw [fine]

/-! ### Accumulator operations (R295) -/

/-- A thread's register awaits the row that the command numbered `n` reads. -/
def awaitRow (G : Grp) (v : Reg) (j n : Nat) (t : Thread) : Thread := t.awaitReg (.v ((G.cs.thread j).phys v)) n

/-- The rows of some threads are awaited, where their commands are numbered by `num` and in the queue. -/
def State.awaitRows (G : Grp) (v : Reg) (num : Nat → Nat) (act : List Nat) (s : State) : State :=
  act.foldl (fun s j => if ((s.core G.g.core).queue 1).any (fun y => decide (y.id = num j)) then
    s.modCourse G.g.core G.g.course fun c => c.modThread j (awaitRow G v j (num j)) else s) s

theorem issue_modCourse (s : State) (k n : Nat) (f : Course → Course) : (s.modCourse k n f).issue = s.issue := by
  unfold State.modCourse
  split <;> rfl

theorem awaitRows_spec {G : Grp} {v : Reg} {num : Nat → Nat} {act : List Nat} {s : State} {c : Course} (h : s.course? G.g.core G.g.course = some c)
    (there : ∀ j ∈ act, ((s.core G.g.core).queue 1).any (fun y => decide (y.id = num j)) = true) :
    let t := s.awaitRows G v num act
    t.issue = s.issue ∧ (t.core G.g.core).queues = (s.core G.g.core).queues ∧ (t.core G.g.core).morder = (s.core G.g.core).morder ∧
      Stays s t G.g.core G.g.course ∧ t.course? G.g.core G.g.course = some (act.foldl (fun c j => c.modThread j (awaitRow G v j (num j))) c) := by
  induction act generalizing s c with
  | nil => exact ⟨rfl, rfl, rfl, .rfl, h⟩
  | cons j js ih =>
    let u := s.modCourse G.g.core G.g.course fun c => c.modThread j (awaitRow G v j (num j))
    have first : s.awaitRows G v num (j :: js) = u.awaitRows G v num js :=
      congrArg (State.awaitRows G v num js) (if_pos (there j (List.mem_cons_self ..)))
    obtain ⟨queues, morder⟩ := State.queues_modCourse s G.g.core G.g.course G.g.core fun c => c.modThread j (awaitRow G v j (num j))
    have course : u.course? G.g.core G.g.course = some (c.modThread j (awaitRow G v j (num j))) := by
      rw [State.course?_modCourse, if_pos ⟨rfl, rfl⟩, h]
      rfl
    have later : ∀ i ∈ js, ((u.core G.g.core).queue 1).any (fun y => decide (y.id = num i)) = true := fun i hi => by
      rw [Core.queue, queues]
      exact there i (List.mem_cons_of_mem _ hi)
    obtain ⟨lane, queues', morder', stays, course'⟩ := ih course later
    rw [first]
    exact ⟨lane.trans (issue_modCourse ..), queues'.trans queues, morder'.trans morder, (stays_modCourse ..).trans stays, course'⟩

theorem Entered.congr {s t : State} {G : Grp} {cls : Nat} {cmds : List Cmd} {f g : Nat → Thread → Thread} {c : Course} (h : Entered s t G cls cmds f c)
    (same : ∀ j ∈ G.g.slots, f j (G.cs.thread j) = g j (G.cs.thread j)) : Entered s t G cls cmds g c :=
  { h with threads := fun j hj => (h.threads j hj).trans (same j hj) }

theorem Entered.awaitRows {s t : State} {G : Grp} {cls : Nat} {cmds : List Cmd} {f : Nat → Thread → Thread} {c : Course} (h : Entered s t G cls cmds f c)
    (v : Reg) {num : Nat → Nat} {act : List Nat} (nodup : act.Nodup) (sub : ∀ j ∈ act, j ∈ G.g.slots) (range : ∀ j ∈ G.g.slots, j < G.cs.threads.length)
    (there : ∀ j ∈ act, ((t.core G.g.core).queue 1).any (fun y => decide (y.id = num j)) = true) :
    ∃ d, Entered s (t.awaitRows G v num act) G cls cmds (fun j a => if j ∈ act then awaitRow G v j (num j) (f j a) else f j a) d := by
  obtain ⟨lane, course, took, counts, length, threads, others, uni, pend, stays⟩ := h
  obtain ⟨lane', queues, morder, stays', course'⟩ := awaitRows_spec (v := v) course there
  have done := foldMod_thread (fun j => awaitRow G v j (num j)) act c nodup fun i hi => length ▸ range i (sub i hi)
  have long := foldMod_length (fun j => awaitRow G v j (num j)) act c
  obtain ⟨ts, rest⟩ := foldMod_rest (fun j => awaitRow G v j (num j)) act c
  refine ⟨_, lane'.trans lane, course', took.congr queues morder, ?counts, long.trans length, fun j hj => ?threads, fun j hj => ?others, ?uni, ?pend,
    stays.trans stays'⟩
  case counts =>
    rw [rest]
    exact counts
  case threads => rw [done, threads j hj]
  case others => rw [done, if_neg fun there => hj (sub j there), others j hj]
  case uni =>
    rw [rest]
    exact uni
  case pend =>
    rw [rest]
    exact pend

theorem mem_foldl_placed {new q : List Cmd} {y : Cmd} : y ∈ new.foldl placed q ↔ y ∈ new ∨ y ∈ q := by
  induction new generalizing q with
  | nil => simp
  | cons x xs ih => rw [List.foldl_cons, ih, mem_placed, List.mem_cons, or_left_comm, or_assoc]

/-- The command of one of some threads has the number of its place among them. -/
theorem exists_numberedFrom {f : Nat → Cmd} {act : List Nat} {j : Nat} (h : j ∈ act) (n : Nat) :
    ∃ y ∈ numberedFrom n (act.map f), y.id = n + act.idxOf j := by
  have at_ : (f j, act.idxOf j) ∈ (act.map f).zipIdx := by
    rw [List.mk_mem_zipIdx_iff_getElem?, List.getElem?_map, List.getElem?_idxOf h]
    rfl
  exact ⟨_, numberedFrom_eq (act.map f) n 0 ▸ List.mem_map_of_mem at_, rfl⟩

/-- A fold over the numbered images of distinct elements, as one over the elements. -/
theorem foldl_zipIdx_map {β γ : Type} {l : List Nat} (nodup : l.Nodup) (f : Nat → β) (g : γ → β × Nat → γ) (init : γ) :
    (l.map f).zipIdx.foldl g init = l.foldl (fun c i => g c (f i, l.idxOf i)) init := by
  have place : ∀ p ∈ l.zipIdx, p.2 = l.idxOf p.1 := fun p hp => by
    obtain ⟨lt, at_⟩ := List.getElem?_eq_some_iff.mp (List.mem_zipIdx_iff_getElem?.mp hp)
    rw [← at_, nodup.idxOf_getElem]
  calc (l.map f).zipIdx.foldl g init = l.zipIdx.foldl (fun c p => g c (f p.1, p.2)) init := by
        rw [List.zipIdx_map, List.foldl_map]
        rfl
    _ = l.zipIdx.foldl (fun c p => g c (f p.1, l.idxOf p.1)) init := List.foldl_ext _ _ _ fun c p hp => by rw [place p hp]
    _ = (l.zipIdx.map Prod.fst).foldl (fun c i => g c (f i, l.idxOf i)) init := by rw [List.foldl_map]
    _ = _ := by rw [List.zipIdx_map_fst]

/-- The lane of an accumulator operation. -/
def accLane (len : Nat) (h : Hdr) (v : Reg) (sub : Nat) : LaneI := { len := len, h := h, rd := if decide (sub = 1 ∨ sub = 3) then [.v v] else [] }

/-- Its command for one thread. -/
def State.accCmd (s : State) (G : Grp) (l : LaneI) (hd : BitVec 4) (v : Reg) (sub imm j : Nat) : Cmd :=
  { id := 0
    kind := .accOp sub imm (if decide (sub = 1 ∨ sub = 3) then G.read l j (.v v) else 0) (if sub = 2 then some (.v ((G.cs.thread j).phys v)) else none)
    cls := 1, course := G.g.course, slot := j, task := G.cs.task, ipc := G.g.pc, sup := (G.cs.thread j).sup, ord := s.nextOrd
    cycle := G.g.t, lane := laneOf G.g.core G.g.course
    ops := [{ handle := G.tk.handle hd.toNat, homes := s.handleHomes G.g.core G.tk (G.tk.handle hd.toNat) }]
    tile := some (hBase (G.tk.handle hd.toNat) / 65536) }

def State.accCmds (s : State) (G : Grp) (len : Nat) (h : Hdr) (hd : BitVec 4) (v : Reg) (sub imm : Nat) : List Cmd :=
  (G.active (accLane len h v sub)).map (s.accCmd G (accLane len h v sub) hd v sub imm)

/-- Its commands are queued; a row read awaits them. -/
def State.accQueued (s : State) (G : Grp) (len : Nat) (h : Hdr) (hd : BitVec 4) (v : Reg) (sub imm : Nat) : State :=
  s.queueAll G (accLane len h v sub) 1 (12 + 16 * 4) 0 (s.accCmds G len h hd v sub imm)

theorem opAcc_none {s : State} {G : Grp} {len : Nat} {h : Hdr} {hd : BitVec 4} {v : Reg} {sub imm : Nat} (r : Runs s G (accLane len h v sub))
    (none : G.active (accLane len h v sub) = []) : opAcc len h hd v sub imm s = .next (s.finish G (accLane len h v sub) G.cs) := by
  unfold accLane at r none
  refine withGroup_to r.lane ?_ rfl
  rw [r.ok]
  dsimp only
  rw [none]
  rfl

theorem opAcc_some {s t : State} {G : Grp} {len : Nat} {h : Hdr} {hd : BitVec 4} {v : Reg} {sub imm : Nat} (r : Runs s G (accLane len h v sub))
    (some : G.active (accLane len h v sub) ≠ []) (vector : isCtl G.g.core = false) (kind : hKind (G.tk.handle hd.toNat) = 6)
    (fine : s.handleFault G.g.core G.tk (G.tk.handle hd.toNat) 0 65536 0 (if sub = 2 then { r := true } else { w := true }) = none)
    (lane : t.issue = none) (ends : t = if sub = 2 then (s.accQueued G len h hd v sub imm).awaitRows G v
      (s.nextId + (G.active (accLane len h v sub)).idxOf ·) (G.active (accLane len h v sub)) else s.accQueued G len h hd v sub imm) :
    opAcc len h hd v sub imm s = .next t := by
  refine withGroup_to r.lane ?_ lane
  obtain ⟨j0, js, act⟩ := List.exists_cons_of_ne_nil some
  have first : (G.active { len := len, h := h, rd := if decide (sub = 1 ∨ sub = 3) then [.v v] else [] }).head? = .some j0 := congrArg List.head? act
  have check : G.check { len := len, h := h, rd := if decide (sub = 1 ∨ sub = 3) then [.v v] else [] } = none := r.ok
  rw [ends, check]
  dsimp only
  rw [first]
  dsimp only
  rw [if_neg (ne_true_of_eq_false vector), if_neg (not_not_intro kind), fine, Option.map_none]
  dsimp only
  refine if_congr Iff.rfl ?_ rfl
  exact foldl_zipIdx_map (active_nodup G _ r.lane.nodup) ..

theorem opAcc_enters {s : State} {G : Grp} {len : Nat} {h : Hdr} {hd : BitVec 4} {v : Reg} {sub imm : Nat} (r : Runs s G (accLane len h v sub))
    (vector : isCtl G.g.core = false) (kind : hKind (G.tk.handle hd.toNat) = 6)
    (fine : s.handleFault G.g.core G.tk (G.tk.handle hd.toNat) 0 65536 0 (if sub = 2 then { r := true } else { w := true }) = none)
    (few : (s.accCmds G len h hd v sub imm).length ≤ 63)
    (room : ((s.core G.g.core).queue 1).length + (s.accCmds G len h hd v sub imm).length ≤ queueDepth 1)
    (counted : G.cs.count 1 + (s.accCmds G len h hd v sub imm).length ≤ 63) :
    ∃ t c, opAcc len h hd v sub imm s = .next t ∧ Entered s t G 1 (s.accCmds G len h hd v sub imm) (fun j a =>
      if sub = 2 ∧ j ∈ G.active (accLane len h v sub) then awaitRow G v j (s.nextId + (G.active (accLane len h v sub)).idxOf j) (a.complete len)
      else a.complete len) c := by
  by_cases none : G.active (accLane len h v sub) = []
  · obtain ⟨c, entered⟩ := entered_none r (cls := 1) (by decide)
    have cmds : s.accCmds G len h hd v sub imm = [] := List.map_eq_nil_iff.mpr none
    rw [cmds, none]
    exact ⟨_, c, opAcc_none r none, entered.congr fun j _ => (if_neg fun h => List.not_mem_nil h.2).symm⟩
  · have same : ∀ y ∈ s.accCmds G len h hd v sub imm, y.Of 1 G.g.course G.g.t (laneOf G.g.core G.g.course) := fun y hy => by
      obtain ⟨j, -, rfl⟩ := List.mem_map.mp hy
      exact ⟨rfl, rfl, rfl, rfl⟩
    obtain ⟨c, entered⟩ := entered_finish r (by decide) same
    rw [← queueAll_room (l := accLane len h v sub) few room counted (12 + 16 * 4) 0] at entered
    by_cases reads : sub = 2
    · have there : ∀ j ∈ G.active (accLane len h v sub), (((s.accQueued G len h hd v sub imm).core G.g.core).queue 1).any
          (fun y => decide (y.id = s.nextId + (G.active (accLane len h v sub)).idxOf j)) = true := fun j hj => by
        obtain ⟨y, new, number⟩ := exists_numberedFrom (f := s.accCmd G (accLane len h v sub) hd v sub imm) hj s.nextId
        rw [State.accQueued, entered.took.queue, if_pos rfl]
        exact List.any_eq_true.mpr ⟨y, mem_foldl_placed.mpr (.inl new), decide_eq_true number⟩
      obtain ⟨d, waits⟩ := entered.awaitRows v (active_nodup G _ r.lane.nodup) r.sub r.lane.range there
      exact ⟨_, d, opAcc_some r none vector kind fine waits.lane (if_pos reads).symm, waits.congr fun j _ => by simp only [reads, true_and]; rfl⟩
    · exact ⟨_, c, opAcc_some r none vector kind fine entered.lane (if_neg reads).symm, entered.congr fun j _ => (if_neg fun h => reads h.1).symm⟩

/-! ### The statement's queue -/

/-- A lane's commands enter before those of a higher lane alone, as the statement counts them. -/
theorem TookIn.stated {k k' : Core} {cls course cycle lane n : Nat} {cmds : List Cmd} (h : TookIn k k' cls cycle lane (numberedFrom n cmds))
    (same : ∀ x ∈ cmds, x.Of cls course cycle lane) :
    let new := cmds.zipIdx.map fun p => { p.1 with id := n + p.2 }
    let ahead := k.queues.toList.flatten.any fun y => decide (y.cycle = cycle ∧ lane < y.lane ∧ y.st = .queued)
    (∀ j, k'.queue j = if j = cls then new.foldl (fun q x => if cls = 1 ∨ cls = 2 then insertAt (fun y => y.yields x) x q else q ++ [x]) (k.queue j)
      else k.queue j) ∧
    k.morder.Sublist k'.morder ∧
    ((cls = 1 ∨ cls = 2 → ahead = false) → k'.queue cls = k.queue cls ++ new ∧
      k'.morder = k.morder ++ if cls = 1 ∨ cls = 2 then new.map Cmd.id else []) := by
  intro new ahead
  have numbered : numberedFrom n cmds = new := numberedFrom_eq cmds n 0
  have class_of : ∀ x ∈ new, x.cls = cls := fun x hx => by
    obtain ⟨y, hy, m, rfl⟩ := mem_numberedFrom (numbered ▸ hx)
    exact (same y hy).cls
  obtain ⟨queue, order, last⟩ := h
  rw [numbered] at queue last
  refine ⟨fun j => (queue j).trans ?_, order, fun clear => last fun matrix y hy waits => ?_⟩
  · refine if_congr Iff.rfl (List.foldl_ext _ _ _ fun q x hx => ?_) rfl
    rw [placed, class_of x hx]
  · exact absurd (clear matrix) (ne_false_of_eq_true (List.any_eq_true.mpr ⟨y, hy, decide_eq_true waits⟩))

/-- Settles O44: the commands of an issue instruction and of an accumulator operation enter their queue; a row read is awaited. -/
theorem engineCommands : Obligations.EngineCommands := by
  unfold Obligations.EngineCommands
  intro queues issues acc
  have of_entered {i : Instr} {len cls : Nat} {s : State} {G : Grp} {cmds : List Cmd} {wait : Nat → Thread → Thread}
      (same : ∀ x ∈ cmds, x.Of cls G.g.course G.g.t (laneOf G.g.core G.g.course))
      (enters : isCtl G.g.core = false → cmds.length ≤ 63 → ((s.core G.g.core).queue cls).length + cmds.length ≤ queueDepth cls →
        G.cs.count cls + cmds.length ≤ 63 → ∃ t c, exec i s = .next t ∧ Entered s t G cls cmds (fun j a => wait j (a.complete len)) c) :
      queues i len cls s G cmds wait := by
    intro vector few room counted
    obtain ⟨t, c, ran, lane, course, took, counts, -, threads, others, uni, pend, stays⟩ := enters vector few room counted
    exact ⟨t, c, ran, lane, course, took.stated same, counts, threads, others, uni, pend, stays.mem, stays.pool, stays.courses⟩
  clear_value queues
  have of_opIssue {i : Instr} {x : V1} {cls : Nat} (small : cls < 4) (runs : ∀ s, exec i s = opIssue x cls s) : issues i x cls := by
    intro s G bs l r idle blocks
    refine of_entered (fun y hy => ?_) fun vector few room counted => ?_
    · obtain ⟨j, -, rfl⟩ := List.mem_map.mp hy
      exact of_makeCmd ..
    · rw [runs]
      exact opIssue_enters r small vector idle blocks few room counted
  have of_opAcc {i : Instr} {len : Nat} {h : Hdr} {hd : BitVec 4} {v : Reg} {sub imm : Nat} (runs : ∀ s, exec i s = opAcc len h hd v sub imm s) :
      acc i len h hd v sub imm := by
    intro s G takes l hv r kind fine
    refine of_entered (fun y hy => ?_) fun vector few room counted => ?_
    · obtain ⟨j, -, rfl⟩ := List.mem_map.mp hy
      exact ⟨rfl, rfl, rfl, rfl⟩
    · rw [runs]
      exact opAcc_enters r vector kind fine few room counted
  clear_value issues acc
  refine ⟨?tcpy, ?tmma, ?tgat, ?tcol, ?accs⟩
  case tcpy => exact fun _ => of_opIssue (by decide) fun _ => rfl
  case tmma => exact fun _ => of_opIssue (by decide) fun _ => rfl
  case tgat => exact fun _ => of_opIssue (by decide) fun _ => rfl
  case tcol => exact fun _ => of_opIssue (by decide) fun _ => rfl
  case accs =>
    exact ⟨fun _ => of_opAcc fun _ => rfl, fun _ => of_opAcc fun _ => rfl, fun _ => of_opAcc fun _ => rfl, fun _ => of_opAcc fun _ => rfl,
      fun _ => of_opAcc fun _ => rfl, fun _ => of_opAcc fun _ => rfl, fun _ => of_opAcc fun _ => rfl, fun _ => of_opAcc fun _ => rfl,
      fun _ => of_opAcc fun _ => rfl, fun _ => of_opAcc fun _ => rfl⟩

end Sys2Proof.Machine
end

section
/-! Tile accesses (R274, R275): an access or two for each element of a tile whose slot is a participant. -/

namespace Sys2Proof.Machine

/-! ### What they touch -/

theorem unhurt_touchVirt (s : State) (G : Grp) (l : List (Nat × Word × Option Place)) :
    Unhurt s (s.touchVirt G l) ∧ (s.touchVirt G l).inflight = s.inflight ∧ (s.touchVirt G l).nextId = s.nextId := by
  unfold State.touchVirt
  refine unhurt_fold (fun s e => ?_) l s
  split
  · split
    · exact unhurt_fillL1 ..
    · exact ⟨.rfl, rfl, rfl⟩
  · exact ⟨.rfl, rfl, rfl⟩

theorem slot_of_mem_tileElems {mem regs : Layout} {origin parts : List Nat} {e : TileElem} (h : e ∈ tileElems mem regs origin parts) : e.slot ∈ parts := by
  obtain ⟨y, -, made⟩ := List.mem_filterMap.mp h
  split at made
  · cases made
  · next p _ =>
    by_cases part : parts.contains p.tsel.toNat = true
    · rw [if_pos part] at made
      obtain rfl := Option.some.inj made
      exact List.contains_iff_mem.mp part
    · rw [if_neg part] at made
      cases made

/-! ### The accesses of an element -/

/-- The bit at which a piece of an element lies in the registers of a thread. -/
def tilePos (hr : BitVec 128) (q : Spot) (k : Nat) : Nat := 8 * (q.a + 8 * hBase hr + k) + q.sub

/-- Its register. -/
def tileReg (hr : BitVec 128) (q : Spot) (k : Nat) : Reg := BitVec.ofNat 5 (tilePos hr q k / 64)

/-- The access of a piece of an element (R274). -/
def Grp.tilePiece (G : Grp) (l : LaneI) (st : Bool) (hm hr : BitVec 128) (bits : Nat) (p : TileElem × Nat × Word × Loc) (k : Nat) : List Access :=
  match p.1.spot, p.1.reg with
  | some a, some q =>
    let pos := tilePos hr q k % 64
    [{ G.access (p.1.slot, p.2.2.1 + BitVec.ofNat 64 k, p.2.2.2.plus k) (if st then .store false else .load false) (elemWidth bits) with
        nib := decide (a.sub ≠ 0)
        data := if st then BitVec.ofNat 128 (((G.cs.thread p.1.slot).readV (tileReg hr q k) (G.cyc l p.1.slot)).toNat / 2 ^ pos) else 0
        dst := if st then [] else [.v (tileReg hr q k)]
        part := if st then none else some (pos, min bits 64)
        also := slotMask (G.active l), tile := decide (hKind hm = 5) }]
  | _, _ => []

theorem slot_of_mem_tilePiece {G : Grp} {l : LaneI} {st : Bool} {hm hr : BitVec 128} {bits k : Nat} {p : TileElem × Nat × Word × Loc} {a : Access}
    (h : a ∈ G.tilePiece l st hm hr bits p k) : a.slot = p.1.slot := by
  unfold Grp.tilePiece at h
  split at h
  · rw [List.mem_singleton.mp h]
    rfl
  · cases h

/-- An element with its registers counted from the handle's first. -/
def TileElem.based (e : TileElem) (hr : BitVec 128) : TileElem := { e with reg := e.reg.map fun q => { q with a := q.a + 8 * hBase hr } }

theorem opens_tileAccess (G : Grp) (l : LaneI) (st : Bool) (hm hr : BitVec 128) (bits : Nat) (after : List Await) (p : TileElem × Nat × Word × Loc) (k : Nat) :
    Opens (tileAccess G l (decide (hKind hm = 5)) (slotMask (G.active l)) after bits st (p.1.based hr) p.2.2.1 p.2.2.2 k) (G.tilePiece l st hm hr bits p k) := by
  obtain ⟨⟨slot, spot, reg⟩, n, va, loc⟩ := p
  cases spot with
  | none => exact opens_id
  | some a =>
    cases reg with
    | none => exact opens_id
    | some q =>
      refine opens_access (pre := id) (fun s => ⟨.rfl, rfl, rfl⟩) (mk := fun s =>
        { id := s.newId.1, core := G.g.core, course := G.g.course, slot := slot, ord := s.nextOrd, ipc := G.g.pc
          va := va + BitVec.ofNat 64 k, kind := (if st then .store false else .load false), w := elemWidth bits
          nib := decide (a.sub ≠ 0), size := accSize (elemWidth bits), loc := loc.plus k
          data := (if st then BitVec.ofNat 128 (((G.cs.thread slot).readV (tileReg hr q k) (G.cyc l slot)).toNat / 2 ^ (tilePos hr q k % 64)) else 0)
          dst := (if st then [] else [.v (tileReg hr q k)]), after := after
          part := (if st then none else some (tilePos hr q k % 64, min bits 64)), also := slotMask (G.active l), tile := decide (hKind hm = 5) })
        (fun s => ⟨rfl, rfl⟩) fun r => Prod.ext ?_ rfl
      cases st with
      | true => exact (modThread_id _ _).symm
      | false => rfl

/-! ### The instruction -/

/-- The elements of the tile whose slots are participants. -/
def Grp.tileEls (G : Grp) (x : Tl) (st : Bool) (origin : List Nat) : List TileElem :=
  tileElems (layoutOf (G.tk.layout x.m.toNat)) (layoutOf (G.tk.layout x.rl.toNat)) origin (G.active (tileLane x st G))

def Grp.tileBits (G : Grp) (x : Tl) : Nat := (layoutOf (G.tk.layout x.m.toNat)).bits

def Grp.tileAddr (G : Grp) (x : Tl) (e : TileElem) : Nat := (e.spot.map fun a => hBase (G.tk.handle x.hd.toNat) + a.a).getD 0

def tileNeed (st : Bool) : Need := if st then { w := true } else { r := true }

/-- The place of an element in memory. -/
def State.tilePlace (s : State) (G : Grp) (x : Tl) (e : TileElem) : Nat × Word × Option Place :=
  (e.slot, BitVec.ofNat 64 (G.tileAddr x e), e.spot.map fun a => s.handlePlace G.g.core G.tk (G.tk.handle x.hd.toNat) a.a a.csel)

/-- Nothing refuses the tile's accesses or holds them back (R275). -/
structure TileClear (s : State) (G : Grp) (x : Tl) (st : Bool) (j : Nat) (origin : List Nat) (ls : List (Nat × Word × Loc)) : Prop where
  vector : isCtl G.g.core = false
  start : s.tileOrigin G (tileLane x st G) x st j = .ok origin
  fine : ∀ e ∈ G.tileEls x st origin, s.tileFault G.g.core G.tk (G.tk.handle x.hd.toNat) (G.tk.handle x.rh.toNat) (G.tileBits x) st e = none ∧
    (8 ≤ G.tileBits x → G.tileAddr x e % (G.tileBits x / 8) = 0)
  unwatched : ∀ e ∈ G.tileEls x st origin, ∀ a, e.spot = some a → ∀ o,
    s.handlePlace G.g.core G.tk (G.tk.handle x.hd.toNat) a.a a.csel = .pool G.g.core o →
    (s.core G.g.core).watch o ((G.tileBits x + 7) / 8) (tileNeed st) = none
  homes : s.homeCheck G (tileNeed st) false ((G.tileEls x st origin).map (s.tilePlace G x)) = .ok ls
  ready : ∀ e ∈ G.tileEls x st origin, ∀ q, e.reg = some q → ∀ p ∈ (G.cs.thread e.slot).sb, ∀ k ∈ elemPieces (G.tileBits x),
    p.1 ≠ .v (BitVec.ofNat 5 (hBase (G.tk.handle x.rh.toNat) + (q.a + k) / 8))
  open_ : s.gate G (!st) st ((G.tileBits x + 7) / 8) ls = none

/-- What begins the accesses of a tile. -/
def tileRun (G : Grp) (x : Tl) (st : Bool) (origin : List Nat) (ls : List (Nat × Word × Loc)) (r : Course × State) : Course × State :=
  let after := if st then (G.active (tileLane x st G)).flatMap fun i => (G.cs.thread i).relAfter else []
  ((G.tileEls x st origin).zip ls).foldl (fun r p => (elemPieces (G.tileBits x)).foldl (fun r k =>
    tileAccess G (tileLane x st G) (decide (hKind (G.tk.handle x.hd.toNat) = 5)) (slotMask (G.active (tileLane x st G))) after (G.tileBits x) st
      (p.1.based (G.tk.handle x.rh.toNat)) p.2.2.1 p.2.2.2 k r) r) r

theorem opens_tileRun (G : Grp) (x : Tl) (st : Bool) (origin : List Nat) (ls : List (Nat × Word × Loc)) : Opens (tileRun G x st origin ls)
    (((G.tileEls x st origin).zip ls).flatMap fun p => (elemPieces (G.tileBits x)).flatMap
      (G.tilePiece (tileLane x st G) st (G.tk.handle x.hd.toNat) (G.tk.handle x.rh.toNat) (G.tileBits x) p)) :=
  opens_fold (fun p => opens_fold (fun k => opens_tileAccess G _ st _ _ _ _ p k) _) _

theorem opTile_none {s : State} {G : Grp} {x : Tl} {st : Bool} (r : Runs s G (tileLane x st G)) (none : G.active (tileLane x st G) = []) :
    opTile x st s = .next (s.finish G (tileLane x st G) G.cs) := by
  refine withGroup_to r.lane ?_ rfl
  dsimp only
  rw [r.ok]
  dsimp only
  rw [none]
  rfl

theorem opTile_begins {s : State} {G : Grp} {x : Tl} {st : Bool} {j : Nat} {js origin : List Nat} {ls : List (Nat × Word × Loc)}
    (r : Runs s G (tileLane x st G)) (act : G.active (tileLane x st G) = j :: js) (clear : TileClear s G x st j origin ls) :
    opTile x st s = .next ((s.touchVirt G ((G.tileEls x st origin).map (s.tilePlace G x))).finishMem G (tileLane x st G) fun c u =>
      tileRun G x st origin ls (c, u)) := by
  obtain ⟨vector, at_, fine, unwatched, homes, ready, open_⟩ := clear
  refine withGroup_to r.lane ?_ rfl
  have first : (G.active (tileLane x st G)).head? = some j := by
    rw [act]
    rfl
  dsimp only
  rw [r.ok]
  dsimp only
  rw [first]
  dsimp only
  rw [if_neg (ne_true_of_eq_false vector), at_]
  dsimp only
  split
  · next c bad =>
    exfalso
    rcases Option.or_eq_some_iff.mp bad with fault | ⟨-, fault⟩
    · obtain ⟨e, he, fault⟩ := List.exists_of_findSome?_eq_some fault
      exact Option.some_ne_none c (fault.symm.trans (congrArg (Option.map _) (fine e he).1))
    · obtain ⟨e, he, fault⟩ := List.exists_of_findSome?_eq_some fault
      exact Option.some_ne_none c (fault.symm.trans (if_neg fun odd => odd.2 ((fine e he).2 odd.1)))
  · split
    · next c watched =>
      exfalso
      obtain ⟨p, hp, hit⟩ := List.exists_of_findSome?_eq_some watched
      obtain ⟨e, he, rfl⟩ := List.mem_map.mp hp
      dsimp only at hit
      split at hit
      · next k o place =>
        obtain ⟨a, spot, pool⟩ := Option.map_eq_some_iff.mp place
        by_cases own : k = G.g.core
        · subst own
          exact Option.some_ne_none c (hit.symm.trans ((if_pos rfl).trans (congrArg (Option.map _) (unwatched e he a spot o pool))))
        · exact Option.some_ne_none c (hit.symm.trans (if_neg own))
      · cases hit
    · unfold tileNeed State.tilePlace Grp.tileAddr Grp.tileEls at homes
      unfold Grp.tileBits at open_
      rw [homes]
      dsimp only
      rw [if_neg ?awaited, open_]
      · rfl
      case awaited =>
        rw [List.any_eq_true]
        rintro ⟨e, he, waits⟩
        split at waits
        · next q reg =>
          obtain ⟨p, hp, waits⟩ := List.any_eq_true.mp waits
          obtain ⟨k, hk, same⟩ := List.any_eq_true.mp waits
          exact ready e he q reg p hp k hk (of_decide_eq_true same)
        · cases waits

theorem tile_begins {i : Instr} {x : Tl} {st : Bool} {s : State} {G : Grp} {j : Nat} {js origin : List Nat} {ls : List (Nat × Word × Loc)}
    (runs : ∀ s, exec i s = opTile x st s) (r : Runs s G (tileLane x st G)) (act : G.active (tileLane x st G) = j :: js)
    (clear : TileClear s G x st j origin ls) :
    ∃ t, exec i s = .next t ∧ Issued s t G 8 (((G.tileEls x st origin).zip ls).flatMap fun p => (elemPieces (G.tileBits x)).flatMap
      (G.tilePiece (tileLane x st G) st (G.tk.handle x.hd.toNat) (G.tk.handle x.rh.toNat) (G.tileBits x) p)) := by
  obtain ⟨near, inflight, nextId⟩ := unhurt_touchVirt s G ((G.tileEls x st origin).map (s.tilePlace G x))
  refine ⟨_, (runs s).trans (opTile_begins r act clear), issued_finish r near inflight nextId (opens_tileRun G x st origin ls) fun a ha => ?_⟩
  obtain ⟨p, hp, ha⟩ := List.mem_flatMap.mp ha
  obtain ⟨k, -, ha⟩ := List.mem_flatMap.mp ha
  rw [slot_of_mem_tilePiece ha]
  exact r.sub _ (slot_of_mem_tileElems (List.of_mem_zip hp).1)

/-- Settles O35: both forms are an `opTile`. -/
theorem tileAccesses : Obligations.TileAccesses := by
  unfold Obligations.TileAccesses
  intro tile
  have of_opTile {i : Instr} {x : Tl} {st : Bool} (runs : ∀ s, exec i s = opTile x st s) : tile i x st := by
    intro s G l core hm hr bits size need addr reg r
    refine ⟨fun none => ⟨_, (runs s).trans (opTile_none r none), movedAs_pass r G.cs rfl⟩, fun j js origin ls act vector start => ?_⟩
    intro els fine unwatched homes ready open_
    exact tile_begins runs r act ⟨vector, start, fine, unwatched, homes, ready, open_⟩
  clear_value tile
  exact ⟨fun _ => of_opTile fun _ => rfl, fun _ => of_opTile fun _ => rfl⟩

end Sys2Proof.Machine
end

section
/-! What a record for the host or for a cluster leaves of the clock, the platform and the fabric. -/

namespace Sys2Proof.Machine

/-- Time, the platform, the routes and the ports are as they were. -/
structure Told (s t : State) : Prop where
  time : t.time = s.time
  plat : t.plat = s.plat
  routes : t.routes = s.routes
  ports : t.ports = s.ports

namespace Told

theorem refl (s : State) : Told s s := ⟨rfl, rfl, rfl, rfl⟩

theorem trans {s t u : State} (a : Told s t) (b : Told t u) : Told s u :=
  ⟨b.time.trans a.time, b.plat.trans a.plat, b.routes.trans a.routes, b.ports.trans a.ports⟩

theorem foldl {α : Type} {f : State → α → State} (h : ∀ s a, Told s (f s a)) (l : List α) (s : State) : Told s (l.foldl f s) := by
  induction l generalizing s with
  | nil => exact refl s
  | cons a l ih => exact (h s a).trans (ih _)

theorem stamp (s : State) (x : Loc) : Told s (s.stamp x).2 := by
  unfold State.stamp
  split
  case h_1 => exact ⟨rfl, rfl, rfl, rfl⟩
  case h_2 => exact refl s
  case h_3 =>
    dsimp only
    obtain ⟨l, f, n, h⟩ := ensureLine_rest s x.dieOf x.lineNo
    rw [h]
    exact ⟨rfl, rfl, rfl, rfl⟩

theorem stampAll (s : State) (x : Loc) (n : Nat) : Told s (s.stampAll x n) := by
  unfold State.stampAll
  split
  · exact foldl (fun s _ => stamp s _) _ s
  · exact stamp s _

theorem locWrite (s : State) (x : Loc) (bs : List Byte) : Told s (s.locWrite x bs) := by
  unfold State.locWrite
  split <;> exact ⟨rfl, rfl, rfl, rfl⟩

theorem markWritten (s : State) (x : Loc) (n : Nat) : Told s (s.markWritten x n) := by
  unfold State.markWritten
  split
  · split
    · exact ⟨rfl, rfl, rfl, rfl⟩
    · exact refl s
  · exact refl s

theorem physStore (s : State) (a : Nat) (bs : List Byte) : Told s (s.physStore a bs) := by
  refine foldl (fun s p => ?_) _ s
  split
  · exact ((locWrite s _ _).trans (stampAll _ _ _)).trans (markWritten _ _ _)
  · exact refl s

theorem setCluster (s : State) (cl : Nat) (c : Cluster) : Told s (s.setCluster cl c) := ⟨rfl, rfl, rfl, rfl⟩
theorem modCluster (s : State) (cl : Nat) (f : Cluster → Cluster) : Told s (s.modCluster cl f) := ⟨rfl, rfl, rfl, rfl⟩
theorem setHost (s : State) (h : HostLink) : Told s { s with host := h } := ⟨rfl, rfl, rfl, rfl⟩

theorem overflowQueued (s : State) (cl : Nat) : Told s (s.overflowQueued cl) := by
  unfold State.overflowQueued
  dsimp only
  split
  · exact setCluster _ _ _
  · exact refl s

theorem toOverflow (s : State) (cl : Nat) (bs : List Byte) : Told s (s.toOverflow cl bs) :=
  (physStore s _ _).trans (setCluster _ _ _)

theorem takeEvent {s u : State} {cl : Nat} {e : Event} (taken : s.takeEvent cl e = some u) : Told s u := by
  unfold State.takeEvent at taken
  dsimp only at taken
  split at taken
  · cases taken
    exact (overflowQueued s cl).trans (setCluster _ _ _)
  · split at taken
    · cases taken
      exact (overflowQueued s cl).trans (toOverflow _ _ _)
    · cases taken

theorem postEvent (s : State) (cl : Nat) (e : Event) : Told s (s.postEvent cl e) := by
  unfold State.postEvent
  split
  · split
    case h_1 u taken => exact takeEvent taken
    case h_2 => exact modCluster _ _ _
  · exact modCluster _ _ _

theorem drainEvents (s : State) (cl : Nat) : Told s (s.drainEvents cl) := by
  refine (overflowQueued s cl).trans (foldl (fun s e => ?_) _ _)
  split
  · split
    case h_1 u taken => exact (takeEvent taken).trans (modCluster _ _ _)
    case h_2 => exact refl s
  · exact refl s

theorem freeHostEvents (s : State) : Told s s.freeHostEvents := by
  refine foldl (fun s cl => ?_) _ s
  dsimp only
  split
  · exact (modCluster s _ _).trans (drainEvents _ _)
  · exact refl s

theorem pumpRing (s : State) (ring : Nat) : Told s (s.pumpRing ring) := by
  unfold State.pumpRing
  dsimp only
  split
  · exact (setHost s _).trans (freeHostEvents _)
  · exact setHost s _

theorem toHost (s : State) (ring type : Nat) (bs : List Byte) : Told s (s.toHost ring type bs) := (setHost s _).trans (pumpRing _ _)

theorem recordTo (s : State) (cl ring type : Nat) (bs : List Byte) : Told s (s.recordTo cl ring type bs) := by
  have queued := overflowQueued s cl
  unfold State.recordTo
  extract_lets m n wait u c
  split
  · exact toHost s ring type bs
  split
  · exact queued.trans (setHost u _)
  split
  · exact queued.trans ((setHost u _).trans (modCluster _ _ _))
  split
  · exact queued.trans (foldl (fun u i => toOverflow u _ _) _ u)
  · exact queued.trans (setHost u _)

theorem hostEvent (s : State) (e : Event) : Told s (s.hostEvent e) := recordTo ..

theorem sysEvent (s : State) (d code index detail : Nat) : Told s (s.sysEvent d code index detail) := by
  unfold State.sysEvent
  dsimp only
  split
  · exact (postEvent s _ _).trans (hostEvent _ _)
  · exact postEvent s _ _

end Told

/-! ### Events of a module that runs or recovers -/

theorem hosts {i : Instr} {ok : State → Prop} {R : State → State → Prop} (f : State → State) (e : ∀ s, exec i s = s.whileHosted f)
    (h : ∀ s, s.phase = .running → ok s → R s { f s with issue := s.issue }) : Happens i ok R := fun s running met =>
  ⟨_, (e s).trans (State.whileHosted_eq (.inl running) f), rfl, h s running met⟩

theorem hostsEqn {i : Instr} {ok : State → Prop} {g : State → State} (f : State → State) (e : ∀ s, exec i s = s.whileHosted f)
    (h : ∀ s, s.phase = .running → ok s → f s = g s) : Happens i ok fun s t => t = { g s with issue := s.issue } :=
  hosts f e fun s running met => congrArg (fun u : State => { u with issue := s.issue }) (h s running met)

end Sys2Proof.Machine
end

section
/-! The platform's events: code tables, debug and register writes, boot, sensors, throttling, telemetry, trips, reboots and scrubbing
(R5, R6, R15, R16, R56, R344, R364, R365, R372 to R376, R409, R426 to R429). -/

namespace Sys2Proof.Machine

/-! ### Code tables (R364, R365) -/

section
variable {s u : State} {G : Grp} {t : CodeTable} {index w0 target : Nat} {writable : Bool} {cas : State → State}

theorem actOnEntry_bound (h : w0 % 4 = 2) (won : Bool) : s.actOnEntry G t index w0 target writable cas won =
    s.leaveSteered G { len := 0, h := openHdr } fun _ th => some (th.branch (BitVec.ofNat 64 target)) := if_pos h

theorem actOnEntry_failed (h : w0 % 4 = 3) (won : Bool) : s.actOnEntry G t index w0 target writable cas won =
    s.trapNow G { code := 0x40, sub := w0 / 2 ^ 8 % 256, faddr := BitVec.ofNat 64 (t.base + 64 * index), ipc := G.g.pc, tmask := slotMask G.g.slots } :=
  (if_neg (by omega)).trans (if_pos h)

theorem actOnEntry_binding (h : w0 % 4 = 1) (won : Bool) :
    s.actOnEntry G t index w0 target writable cas won = s.parkAt G (.codeEntry t.base index) :=
  (if_neg (by omega)).trans ((if_neg (by omega)).trans (if_pos h))

theorem actOnEntry_barred (h : w0 % 4 = 0) (won : Bool) : s.actOnEntry G t index w0 target false cas won =
    s.trapNow G { code := 0x11, sub := 6, faddr := G.g.pc, ipc := G.g.pc, tmask := 2 ^ G.lowest } :=
  (if_neg (by omega)).trans ((if_neg (by omega)).trans ((if_neg (by omega)).trans (if_pos rfl)))

theorem actOnEntry_unbound (h : w0 % 4 = 0) :
    s.actOnEntry G t index w0 target true cas true = ((cas s).parkAt G (.codeEntry t.base index)).raiseBind G t index :=
  (if_neg (by omega)).trans ((if_neg (by omega)).trans ((if_neg (by omega)).trans ((if_neg Bool.false_ne_true).trans (if_pos rfl))))

end

/-- A jump through an entry of the module's own memory acts on the entry (R364). -/
theorem entryJump_home {s : State} {G : Grp} {t : CodeTable} {index : Nat} {e : TlbEntry} {x : Loc} (group : s.entryGroup = some (G, t, index, 0))
    (found : s.tlbFind G.g.core G.tk.ctx (va57 G.g.pc) = some e) (readable : e.permits { r := true } (G.cs.thread G.lowest).sup = true)
    (home : s.targetOf e (va57 G.g.pc) = .home x) (own : e.hostOwned = false) (still : s.resizeWaits x = false) (good : s.badIn x 16 = none) :
    let u := (s.invalLane G.g.core).served x 16
    s.entryJump = u.actOnEntry G t index (leNat (u.locRead x 8)) (leNat (u.locRead (x.plus 8) 8))
      (e.permits { r := true, w := true } (G.cs.thread G.lowest).sup) (fun s => s.engStore x (leBytes 8 (leNat (u.locRead x 8) + 1))) true := by
  unfold State.entryJump
  rw [group]
  dsimp only
  rw [if_neg (not_not_intro rfl), found]
  dsimp only
  rw [readable, Bool.not_true, if_neg Bool.false_ne_true, home]
  dsimp only
  rw [own, if_neg Bool.false_ne_true, still, if_neg Bool.false_ne_true, good]

theorem exec_entryJump {s : State} (running : s.phase = .running) : exec .codeTableEntryJump s = .next s.entryJump := by
  show (.next (if s.phase == Phase.running then s.entryJump else s) : Outcome) = _
  rw [running]
  rfl

section
variable {s : State} {ctx base index src w3 : Nat} {b : Bind}

theorem hardwareBind_binds {next last : Nat} {m : List Byte} {ps : EngWrite}
    (bind : findAt (fun b => decide (b.ctx = ctx ∧ b.base = base ∧ b.index = index) && !b.assisted) s.binds = some b)
    (word2 : s.entryWord b.die ctx base index 2 = some src) (word3 : s.entryWord b.die ctx base index 3 = some w3)
    (module : s.moduleFault b src (w3 % 2 ^ 32) (w3 / 2 ^ 32) = .ok m) (space : s.codeSpace.find ctx = some (next, last))
    (room : next + (translate m (w3 % 2 ^ 32) base next).length ≤ last)
    (writes : s.engPieces (unitView b.die ctx) (glAt next) 0 0 (translate m (w3 % 2 ^ 32) base next) = .ok ps) :
    let code := translate m (w3 % 2 ^ 32) base next
    let u := s.unitStore (132 * b.die + 128) ctx next code
    s.hardwareBind ctx base index =
      ({ u with codeSpace := u.codeSpace.set ctx (next + code.length, last) } : State).bindDone b.die ctx base index next (some code.length) := by
  unfold State.hardwareBind
  rw [bind]
  dsimp only
  rw [word2, word3]
  dsimp only
  rw [module, space]
  dsimp only
  rw [if_neg (by omega), writes]

theorem hardwareBind_fails {n : Nat}
    (bind : findAt (fun b => decide (b.ctx = ctx ∧ b.base = base ∧ b.index = index) && !b.assisted) s.binds = some b)
    (word2 : s.entryWord b.die ctx base index 2 = some src) (word3 : s.entryWord b.die ctx base index 3 = some w3)
    (refused : s.moduleFault b src (w3 % 2 ^ 32) (w3 / 2 ^ 32) = .error n) : s.hardwareBind ctx base index = s.bindFails b.die ctx base index n := by
  unfold State.hardwareBind
  rw [bind]
  dsimp only
  rw [word2, word3]
  dsimp only
  rw [refused]

end

/-! ### Debug and register writes (R5, R16, R56, R429) -/

/-- A debug write takes effect while the lane is empty (R56). -/
theorem dbgEvent_meets {s : State} {core course : Nat} {v : Word} (first : (s.course? core course).bind (fun c => c.dbg.head?) = some v)
    (empty : s.issue = none) (idle : s.laneIdle core (laneOf core course) = true) {p : Word → Bool} (taken : p v = true) :
    s.dbgEvent core course p = s.meetDbg core course := by
  unfold State.dbgEvent
  rw [first]
  dsimp only
  rw [empty, idle, taken]
  rfl

/-! ### Boot (R427, R428) -/

theorem recordReason_eq_zero (v kind : Nat) (signed : Bool) (bs : List Byte) :
    recordReason v kind signed bs = 0 ↔ signed = true ∧ max 64 (recNat bs 24 4) ≤ bs.length ∧ recNat bs 0 1 = kind ∧
      v ≤ recNat bs 4 4 ∧ recNat bs 8 16 = Config.partNumber := by
  unfold recordReason
  rw [← Nat.not_lt (a := bs.length), ← Nat.not_lt (a := recNat bs 4 4)]
  split_ifs with short odd old other
  · simp [short]
  · simp only [false_iff]
    rintro ⟨rfl, -, rfl, -⟩
    simp at odd
  · simp [old]
  · simp [other]
  · simp only [Bool.or_eq_true, Bool.not_eq_true', bne_iff_ne, not_or, Bool.not_eq_false, ne_eq, not_not] at odd other
    exact iff_of_true rfl ⟨odd.1, short, odd.2, old, other⟩

theorem checkRecord_accepts {s : State} {kind : Nat} {signed : Bool} {bs : List Byte} (some : bs ≠ [])
    (fine : recordReason s.plat.minVersion kind signed bs = 0) : s.checkRecord kind signed bs = ({ s with plat := { s.plat with
      accepted := s.plat.accepted ++ [(kind, recNat bs 4 4, bs.take (recNat bs 24 4 + 132))]
      minVersion := if (recNat bs 1 1).testBit 0 then recNat bs 4 4 else s.plat.minVersion } }, true) :=
  (if_neg some).trans (if_pos fine)

theorem checkRecord_refuses {s : State} {kind : Nat} {signed : Bool} {bs : List Byte} (some : bs ≠ [])
    (bad : recordReason s.plat.minVersion kind signed bs ≠ 0) :
    s.checkRecord kind signed bs = (({ s with plat := { s.plat with cfgref := s.plat.cfgref + 1 } } : State).sysEvent 0 0x09 kind
      (recordReason s.plat.minVersion kind signed bs), false) :=
  (if_neg some).trans (if_neg bad)

/-- The state after the identity certificate was looked at, the owner record, and the first firmware record (R427). -/
def State.bootChecks (s : State) (cert owner fw : List Byte) : State × Bool :=
  let a := s.checkRecord 4 (recordSigned [Config.rootKey] cert) cert
  let b := (if a.2 then { a.1 with plat := { a.1.plat with cert := cert } } else a.1).checkRecord 2 (recordSigned [Config.rootKey] owner) owner
  (if b.2 then { b.1 with plat := { b.1.plat with owner := some (Config.operatorKey owner) } } else b.1).checkRecord 1
    (recordSigned [Config.firmwareKey] fw) fw

/-- What a boot does once a firmware record was accepted or both were refused. -/
def bootEnd (cfg : List Byte) (r : State × Bool) : State :=
  if r.2 then r.1.configure cfg
  else
    ({ r.1 with phase := .recovery, ident0 := true, ringCtx := r.1.ringCtx.set 0 0
                host := { r.1.host with rate := if r.1.host.up then 400 else r.1.host.rate }
                plat := { r.1.plat with cfg := cfg } } : State).writeStatus none

theorem boot_eq {s : State} (booting : s.phase = .booting) (cert owner fw fw2 cfg : List Byte) :
    s.boot cert owner fw fw2 cfg = bootEnd cfg (if (s.bootChecks cert owner fw).2 then s.bootChecks cert owner fw
      else (s.bootChecks cert owner fw).1.checkRecord 1 (recordSigned [Config.firmwareKey] fw2) fw2) := by
  unfold State.boot
  rw [booting]
  rfl

/-! ### Sensors and throttling (R372 to R376) -/

theorem sample_due {s : State} {n : Nat} {x : Int} (sensor : n < 29)
    (due : ∀ y, (s.plat.sensors.get n []).head? = some y → y.1 + samplePeriod n ≤ s.time) :
    ∃ p : Platform, p.sensors = s.plat.sensors.set n ((s.time, x) :: (s.plat.sensors.get n []).filter fun y => decide (s.time < y.1 + msTicks)) ∧
      s.sample n x = if s.phase = .off then { s with plat := p }
        else ([0, 1, 2, 3].foldl (fun (s : State) d => [0, 1, 2, 3, 4].foldl (fun (s : State) e => s.throttleEvent d e) s) { s with plat := p }).settleStep := by
  have late : ((s.plat.sensors.get n []).head?.map fun y => decide (s.time < y.1 + samplePeriod n)).getD false = false := by
    cases first : (s.plat.sensors.get n []).head? with
    | none => rfl
    | some y => exact decide_eq_false (Nat.not_lt.mpr (due y first))
  have phase : ∀ (p : Platform) (a b : State), (if ({ s with plat := p } : State).phase == Phase.off then a else b) = if s.phase = .off then a else b := fun p a b =>
    if_congr beq_iff_eq rfl rfl
  unfold State.sample
  dsimp only
  rw [if_neg (not_or.mpr ⟨Nat.not_le.mpr sensor, ne_true_of_eq_false late⟩)]
  exact ⟨_, rfl, phase _ _ _⟩

theorem throttleRepeat_one {s : State} {die event : Nat} {r : StepReq} (single : event < 2) (asked : s.request? die event = some r)
    (due : r.born + (if event = 0 then 100 * usTicks else msTicks) ≤ s.time) (raised : s.raised die event = true) :
    s.throttleRepeat die event = (s.ownRequest die event (min r.step (max 16 ((s.die 0).step - 1)))).settleStep := by
  have one : (if event = 2 then [0, 1, 2, 3] else [die]) = [die] := if_neg (by omega)
  unfold State.throttleRepeat
  rw [one]
  dsimp only [List.foldl_cons, List.foldl_nil]
  rw [asked]
  exact congrArg State.settleStep (if_pos ⟨by omega, due, raised⟩)

theorem throttleRepeat_all (s : State) (die : Nat) : s.throttleRepeat die 2 =
    ([0, 1, 2, 3].foldl (fun (u : State) d => match u.request? d 2 with
      | some r => if r.born + msTicks ≤ u.time ∧ u.raised d 2 = true then u.ownRequest d 2 (min r.step (max 16 ((s.die 0).step - 1))) else u
      | none => u) s).settleStep := by
  unfold State.throttleRepeat
  refine congrArg State.settleStep (congrArg (List.foldl · s _) (funext fun u => funext fun d => ?_))
  cases u.request? d 2 with
  | none => rfl
  | some r => exact if_congr (and_iff_right (Nat.le_refl 2)) rfl rfl

theorem refreshBand_due {s : State} {stack : Nat} {v : Int} (small : stack < 8) (sensor : s.sensor (8 + stack) = some v)
    (due : ∀ y, s.plat.bandAt.find stack = some y → y + msTicks ≤ s.time) :
    let n := nextBand (s.plat.band.get stack 0) v
    let u : State := { s with plat := { s.plat with bandAt := s.plat.bandAt.set stack s.time } }
    s.refreshBand stack = if n = s.plat.band.get stack 0 then u
      else ({ u with plat := { u.plat with band := u.plat.band.set stack n } } : State).postEvent (4 * (stack / 2))
        (u.event 0 0xFFFF 0 0x0D (stack / 2) 0xFF (stack % 2 + 16 * n) (BitVec.ofInt 64 v)) := by
  have late : ((s.plat.bandAt.find stack).map fun y => decide (s.time < y + msTicks)).getD false = false := by
    cases last : s.plat.bandAt.find stack with
    | none => rfl
    | some y => rw [Option.map_some, Option.getD_some, decide_eq_false (Nat.not_lt.mpr (due y last))]
  unfold State.refreshBand
  rw [sensor]
  dsimp only
  rw [if_neg (not_or.mpr ⟨Nat.not_le.mpr small, ne_true_of_eq_false late⟩)]

theorem stepUp_due {s : State} (due : (s.die 0).step < s.lowestStep ∧ s.plat.lastUp + msTicks ≤ s.time) :
    s.stepUp = { s.applyStep ((s.die 0).step + 1) with plat := { (s.applyStep ((s.die 0).step + 1)).plat with lastUp := s.time } } := by
  unfold State.stepUp
  dsimp only
  rw [if_pos due]

theorem throttleRequest_other {s : State} {rank die step : Nat} (other : rank ≠ s.rank ∧ s.isLost rank = false ∧ s.stepGroup none ≠ []) :
    let u := (s.putRequest rank die 5 step).settleStep
    s.throttleRequest rank die step =
      if (u.die 0).step ≠ (s.die 0).step ∨ (32 ≤ step ∧ (s.otherRequests rank die 5).length < s.requests.length) then u.sendStep (some rank) rank die step
      else u := by
  obtain ⟨other, kept, group⟩ := other
  unfold State.throttleRequest
  dsimp only
  rw [if_neg (not_or.mpr ⟨other, not_or.mpr ⟨ne_true_of_eq_false kept, group⟩⟩)]

theorem throttleRequest_none {s : State} {rank die step : Nat} (none : rank = s.rank ∨ s.isLost rank = true ∨ s.stepGroup none = []) :
    s.throttleRequest rank die step = s := by
  unfold State.throttleRequest
  dsimp only
  rw [if_pos none]

theorem telemetryRecord_due {s : State} {ctx addr : Nat} (at_ : s.plat.tele = some (ctx, addr)) (due : s.plat.lastTele + msTicks ≤ s.time) :
    s.telemetryRecord = ({ s with plat := { s.plat with lastTele := s.time } } : State).unitStore 128 ctx addr s.telemetryBytes := by
  unfold State.telemetryRecord
  rw [at_]
  dsimp only
  rw [if_pos due]

/-! ### Trips and reboots (R426), and scrubbing (R409) -/

/-- A module that trips tells the host, if it can, and forgets all but its clock, its identity and its platform's limits. -/
theorem thermalTrip_trips {s : State} {cause : Nat} {v : Int} (on : s.phase ≠ .off) (trips : s.tripValue cause = some v) :
    ∃ t, exec (.thermalTrip cause) s = .next t ∧ t.phase = .off ∧ t.mem = [] ∧ t.pool = [] ∧ t.cores = [] ∧ t.issue = none ∧ t.plat.tripped = true ∧
      t.plat.minVersion = s.plat.minVersion ∧ t.time = s.time := by
  let e := s.event 0 0xFFFF 0x08 0x0F 0 0xFF cause (BitVec.ofInt 64 v)
  let told := if s.host.up && !s.host.lost then s.hostEvent e else s
  have keeps : Told s told := by
    unfold told
    split
    · exact Told.hostEvent s e
    · exact Told.refl s
  have off : s.thermalTrip cause = { phase := .off, now := told.now, time := told.time, agenda := told.agenda, freeCtr := told.freeCtr, rank := told.rank
                                     host := { told.host with up := false }
                                     plat := { minVersion := told.plat.minVersion, sensors := told.plat.sensors, tripped := true } } := by
    unfold State.thermalTrip
    rw [if_neg (by simpa using on), trips]
  have limit : told.plat.minVersion = s.plat.minVersion := by rw [keeps.plat]
  refine ⟨_, rfl, ?_⟩
  rw [off]
  exact ⟨rfl, rfl, rfl, rfl, rfl, rfl, limit, keeps.time⟩

theorem moduleReboot_reboots {s : State} {n : Nat} (off : s.phase = .off) (since : s.plat.okSince = some n) (long : n + 10000 * msTicks ≤ s.time) :
    s.moduleReboot = { agenda := s.agenda, freeCtr := s.freeCtr, rank := s.rank, host := { resync := true }
                       plat := { minVersion := s.plat.minVersion, sensors := s.plat.sensors.map fun x => (x.1, (x.2.take 1).map fun y => (0, y.2)) } } := by
  unfold State.moduleReboot
  rw [since]
  dsimp only
  rw [off, decide_eq_true long]
  rfl

theorem scrub_corrected (s : State) (die l : Nat) : s.scrub die l 1 = s.errorAt 3 (.hbm die (l / 8 * 8)) 0 none := by
  unfold State.scrub
  dsimp only
  rw [if_pos (rfl : 1 = 1)]

theorem scrub_bad (s : State) (die l : Nat) :
    s.scrub die l 2 = (s.markBad (.hbm die (l / 8 * 8)) 3).errorAt 3 (.hbm die (l / 8 * 8)) 2 none := by
  unfold State.scrub
  dsimp only
  rw [if_neg (by decide : ¬ 2 = 1), if_pos (rfl : 2 = 2)]

theorem exec_scrub {s u : State} {die l err : Nat} (running : s.phase = .running) (scrubs : s.scrub die l err = u) :
    ∃ t, exec (.scrub die l err) s = .next t ∧ t.issue = s.issue ∧ t = { u with issue := s.issue } := by
  have runs : exec (.scrub die l err) s = s.whileHosted (State.scrub · die l err) := rfl
  subst scrubs
  exact ⟨_, runs.trans (State.whileHosted_eq (.inl running) _), rfl, rfl⟩

theorem mem_markBad (s : State) (x : Loc) (kind : Nat) : x ∈ (s.markBad x kind).badWords := by
  unfold State.markBad
  split
  · next there => exact List.contains_iff_mem.mp there
  · exact List.mem_append_right _ (List.mem_singleton_self x)

/-! ### The statement -/

/-- Settles O54: each event by what its step does where the statement's premises hold. -/
theorem platformEvents : Obligations.PlatformEvents := by
  unfold Obligations.PlatformEvents
  refine ⟨?jump, ?binds, ?fails, ?dbg, ?ilen, ?mailbox, ?duty, ?hodage, ?trapvec, ?ring, ?boot, ?accepts, ?refuses, ?reason, ?sample, ?request, ?noRequest,
    ?stepUp, ?repeatOne, ?repeatAll, ?band, ?telemetry, ?trip, ?reboot, ?corrected, ?bad⟩
  case jump =>
    intro s G t index e x w running group found readable home own still good
    refine ⟨_, rfl, fun word => ?_⟩
    have jumps := entryJump_home group found readable home own still good
    dsimp only at jumps
    rw [← word] at jumps
    rw [exec_entryJump running, jumps]
    refine ⟨fun h => ?_, fun h => ?_, fun h => ?_, fun h writable => ?_, fun h barred => ?_⟩
    · rw [actOnEntry_bound h]
    · rw [actOnEntry_failed h]
    · rw [actOnEntry_binding h]
    · rw [writable, actOnEntry_unbound h]
    · rw [barred, actOnEntry_barred h]
  case binds =>
    exact fun ctx base index b src w3 m next last ps => eqn _ (fun _ => rfl) fun s _ ⟨bind, word2, word3, module, space, room, writes⟩ =>
      hardwareBind_binds bind word2 word3 module space room writes
  case fails =>
    exact fun ctx base index b src w3 n => eqn _ (fun _ => rfl) fun s _ ⟨bind, word2, word3, refused⟩ => hardwareBind_fails bind word2 word3 refused
  case dbg =>
    rintro core course v i (⟨rfl, halt, step⟩ | ⟨rfl, halt⟩ | ⟨rfl, enabled, halt, step⟩)
    · exact eqn _ (fun _ => rfl) fun s _ ⟨first, empty, idle⟩ => dbgEvent_meets first empty idle (by rw [halt, step]; rfl)
    · exact eqn _ (fun _ => rfl) fun s _ ⟨first, empty, idle⟩ => dbgEvent_meets first empty idle (by rw [halt]; rfl)
    · exact eqn _ (fun _ => rfl) fun s _ ⟨first, empty, idle⟩ => dbgEvent_meets first empty idle (by rw [enabled, halt, step]; rfl)
  case ilen => exact fun core v => happens _ (fun _ => rfl) fun s _ _ => ⟨_, rfl, rfl⟩
  case mailbox => exact happens _ (fun _ => rfl) fun s _ _ => rfl
  case duty => exact fun d v small => eqn _ (fun _ => rfl) fun s _ _ => if_pos small
  case hodage => exact fun d v small => eqn _ (fun _ => rfl) fun s _ _ => if_pos small
  case trapvec => exact fun k v small => eqn _ (fun _ => rfl) fun s _ _ => if_pos small
  case ring =>
    exact fun i v small => happens _ (fun _ => rfl) fun s _ _ => congrArg (fun u : State => { u with issue := s.issue })
      (if_pos small : s.writePlain (.ring i) v = { s with rings := s.rings.set i (v &&& 0x7FFFFFFFFFFF) })
  case boot =>
    rintro s cert owner fw fw2 cfg a b c d booting rfl rfl checked rfl
    obtain rfl : c = s.bootChecks cert owner fw := checked
    have boots : exec (.boot cert owner fw fw2 cfg) s = .next { s.boot cert owner fw fw2 cfg with issue := none } := rfl
    rw [boots, boot_eq booting]
    refine ⟨fun first => ?_, fun first second => ?_, fun first second => ?_⟩
    · rw [if_pos first, bootEnd, if_pos first]
    · rw [if_neg (ne_true_of_eq_false first), bootEnd, if_pos second]
    · rw [if_neg (ne_true_of_eq_false first), bootEnd, if_neg (ne_true_of_eq_false second)]
  case accepts => exact fun s kind signed bs some fine => checkRecord_accepts some fine
  case refuses => exact fun s kind signed bs some bad => checkRecord_refuses some bad
  case reason => exact recordReason_eq_zero
  case sample =>
    intro s n x sensor due
    obtain ⟨p, sensors, sampled⟩ := sample_due (x := x) sensor due
    exact ⟨p, sensors, congrArg (fun u : State => (.next { u with issue := s.issue } : Outcome)) sampled⟩
  case request => exact fun rank die step => hostsEqn _ (fun _ => rfl) fun s _ other => throttleRequest_other other
  case noRequest =>
    refine fun rank die step => hosts _ (fun _ => rfl) fun s _ none => ?_
    rw [throttleRequest_none none]
  case stepUp =>
    refine hosts _ (fun _ => rfl) fun s _ due => ?_
    rw [stepUp_due due]
  case repeatOne =>
    exact fun die event r single => hostsEqn _ (fun _ => rfl) fun s _ ⟨asked, due, raised⟩ => throttleRepeat_one single asked due raised
  case repeatAll => exact fun die => hostsEqn _ (fun _ => rfl) fun s _ _ => throttleRepeat_all s die
  case band => exact fun stack v small => hostsEqn _ (fun _ => rfl) fun s _ ⟨sensor, due⟩ => refreshBand_due small sensor due
  case telemetry =>
    refine fun ctx addr => hosts _ (fun _ => rfl) fun s _ ⟨at_, due⟩ => ⟨_, rfl, ?_⟩
    rw [telemetryRecord_due at_ due]
  case trip => exact fun s cause v on trips => thermalTrip_trips on trips
  case reboot =>
    exact fun s n off since long => congrArg (fun u : State => (.next { u with issue := none } : Outcome)) (moduleReboot_reboots off since long)
  case corrected =>
    intro die l s running _
    obtain ⟨t, took, lane, scrubbed⟩ := exec_scrub running (scrub_corrected s die l)
    exact ⟨t, took, lane, _, rfl, scrubbed⟩
  case bad =>
    intro die l s running _
    obtain ⟨t, took, lane, scrubbed⟩ := exec_scrub running (scrub_bad s die l)
    exact ⟨t, took, lane, _, rfl, mem_markBad .., scrubbed⟩

end Sys2Proof.Machine
end

section
/-! Packets between destinations (R9, R329 to R336, R422, R423, R439). -/

namespace Sys2Proof.Machine

/-! ### Packets that arrive -/

section
variable {s : State} {x : Loc} {r : Remote}

theorem takePacket_repeated {k : Kept} (known : (s.keepOf x.slice r.rank r.die).find? (fun k => decide (k.seq = r.seq)) = some k) :
    s.takePacket x r = (s.answer { rank := r.rank, die := r.die, seq := r.seq, result := k.result, stamp := k.stamp, mark := r.mark, bad := k.bad }, true) := by
  unfold State.takePacket
  dsimp only
  rw [known]

theorem find?_seq_none {l : List Kept} {n : Nat} (new : ∀ k ∈ l, k.seq ≠ n) : l.find? (fun k => decide (k.seq = n)) = none :=
  List.find?_eq_none.mpr fun k hk => by simpa using new k hk

/-- Whether the packet's predecessor is not yet known at its home (R332). -/
def State.outOfTurn (s : State) (x : Loc) (r : Remote) : Bool :=
  match r.pred with
  | some p => !(s.keepOf x.slice r.rank r.die).any fun k => decide (k.seq = p)
  | none => false

theorem outOfTurn_false (follows : ∀ p, r.pred = some p → ∃ k ∈ s.keepOf x.slice r.rank r.die, k.seq = p) : s.outOfTurn x r = false := by
  unfold State.outOfTurn
  split
  · next p pred =>
    obtain ⟨k, hk, same⟩ := follows p pred
    rw [List.any_eq_true.mpr ⟨k, hk, decide_eq_true same⟩]
    rfl
  · rfl

theorem outOfTurn_true {p : Nat} (pred : r.pred = some p) (gap : ∀ k ∈ s.keepOf x.slice r.rank r.die, k.seq ≠ p) : s.outOfTurn x r = true := by
  unfold State.outOfTurn
  rw [pred]
  dsimp only
  rw [Bool.not_eq_true', List.any_eq_false]
  exact fun k hk same => gap k hk (of_decide_eq_true same)

theorem takePacket_new (new : ∀ k ∈ s.keepOf x.slice r.rank r.die, k.seq ≠ r.seq) : s.takePacket x r =
    if s.outOfTurn x r then (s, false)
    else match s.packetBad x r with
      | some w => (((s.errorEvent w (match r.op with | .atomic _ _ _ _ false => 1 | _ => 3) none).keep
          { slice := x.slice, rank := r.rank, die := r.die, seq := r.seq, result := 0, stamp := 0, bad := true }).answer
            { rank := r.rank, die := r.die, seq := r.seq, mark := r.mark, bad := true }, true)
      | none => (((s.performPacket x r).1.keep { slice := x.slice, rank := r.rank, die := r.die, seq := r.seq
                                                 result := (s.performPacket x r).2.1, stamp := (s.performPacket x r).2.2 }).answer
          { rank := r.rank, die := r.die, seq := r.seq, result := (s.performPacket x r).2.1, stamp := (s.performPacket x r).2.2, mark := r.mark }, true) := by
  unfold State.takePacket
  dsimp only
  rw [find?_seq_none new]
  unfold State.outOfTurn
  dsimp only
  congr 1
  cases s.packetBad x r <;> rfl

end

/-- What a packet at its home does: it is taken, or waits for its predecessor (R332, R333). -/
def State.packetTaken (s : State) (x : Loc) (r : Remote) : State :=
  let y := s.takePacket x r
  if y.2 then y.1.retest x.dieOf r.rank r.die (y.1.die x.dieOf).heldPk.length else y.1.modDie x.dieOf fun d => { d with heldPk := d.heldPk ++ [r] }

/-- Every held packet of a sender is tested again at a home. -/
def State.retested (s : State) (x : Loc) (r : Remote) : State := s.retest x.dieOf r.rank r.die (s.die x.dieOf).heldPk.length

section
variable {s : State} {x : Loc} {r : Remote}

theorem packetTaken_repeated {k : Kept} (known : (s.keepOf x.slice r.rank r.die).find? (fun k => decide (k.seq = r.seq)) = some k) :
    s.packetTaken x r =
      (s.answer { rank := r.rank, die := r.die, seq := r.seq, result := k.result, stamp := k.stamp, mark := r.mark, bad := k.bad }).retested x r := by
  unfold State.packetTaken
  dsimp only
  rw [takePacket_repeated known, if_pos rfl]
  rfl

variable (new : ∀ k ∈ s.keepOf x.slice r.rank r.die, k.seq ≠ r.seq)
include new

theorem packetTaken_held {p : Nat} (pred : r.pred = some p) (gap : ∀ k ∈ s.keepOf x.slice r.rank r.die, k.seq ≠ p) :
    s.packetTaken x r = s.modDie x.dieOf fun d => { d with heldPk := d.heldPk ++ [r] } := by
  unfold State.packetTaken
  dsimp only
  rw [takePacket_new new, outOfTurn_true pred gap, if_pos rfl, if_neg Bool.false_ne_true]

variable (follows : ∀ p, r.pred = some p → ∃ k ∈ s.keepOf x.slice r.rank r.die, k.seq = p)
include follows

theorem packetTaken_performed (fine : s.packetBad x r = none) : s.packetTaken x r =
    (((s.performPacket x r).1.keep { slice := x.slice, rank := r.rank, die := r.die, seq := r.seq
                                     result := (s.performPacket x r).2.1, stamp := (s.performPacket x r).2.2 }).answer
      { rank := r.rank, die := r.die, seq := r.seq, result := (s.performPacket x r).2.1, stamp := (s.performPacket x r).2.2, mark := r.mark }).retested x r := by
  unfold State.packetTaken
  dsimp only
  rw [takePacket_new new, outOfTurn_false follows, if_neg Bool.false_ne_true, fine, if_pos rfl]
  rfl

theorem packetTaken_bad {w : Loc} (bad : s.packetBad x r = some w) : s.packetTaken x r =
    (((s.errorEvent w (match r.op with | .atomic _ _ _ _ false => 1 | _ => 3) none).keep
      { slice := x.slice, rank := r.rank, die := r.die, seq := r.seq, result := 0, stamp := 0, bad := true }).answer
        { rank := r.rank, die := r.die, seq := r.seq, mark := r.mark, bad := true }).retested x r := by
  unfold State.packetTaken
  dsimp only
  rw [takePacket_new new, outOfTurn_false follows, if_neg Bool.false_ne_true, bad, if_pos rfl]
  rfl

end

theorem remoteArrival_home {s : State} {r : Remote} {queue : Nat} {x : Loc} (known : (r.rank, r.die) ∈ (s.settleFor r.pa).senders)
    (home : (s.settleFor r.pa).homeOf r = some x) : s.remoteArrival r ⟨queue, false, .none⟩ = (s.settleFor r.pa).packetTaken x r := by
  unfold State.remoteArrival
  dsimp only
  rw [if_neg Bool.false_ne_true, List.contains_iff_mem.mpr known, Bool.not_true, if_neg Bool.false_ne_true, home]
  rfl

theorem remoteArrival_refused {s : State} {r : Remote} {queue : Nat} {err : SoftErr} (known : (r.rank, r.die) ∈ (s.settleFor r.pa).senders)
    (homeless : (s.settleFor r.pa).homeOf r = none) : s.remoteArrival r ⟨queue, false, err⟩ =
      (s.settleFor r.pa).answer { rank := r.rank, die := r.die, seq := r.seq, refused := true } := by
  unfold State.remoteArrival
  dsimp only
  rw [if_neg Bool.false_ne_true, List.contains_iff_mem.mpr known, Bool.not_true, if_neg Bool.false_ne_true, homeless]

/-- A damaged packet, or one of a sender that has not announced itself, is answered by a restart refusal (R423). -/
theorem remoteArrival_restart {s : State} {r : Remote} {queue : Nat} {damaged : Bool} {err : SoftErr}
    (odd : damaged = true ∨ (r.rank, r.die) ∉ (s.settleFor r.pa).senders) :
    ∃ l, (r.rank, r.die) ∉ l ∧ s.remoteArrival r ⟨queue, damaged, err⟩ =
      ({ s.settleFor r.pa with senders := l } : State).answer { rank := r.rank, die := r.die, seq := r.seq, restart := true } := by
  let l := if damaged then (s.settleFor r.pa).senders.filter fun x => decide (x ≠ (r.rank, r.die)) else (s.settleFor r.pa).senders
  have gone : (r.rank, r.die) ∉ l := by
    unfold l
    cases damaged with
    | true => simp
    | false => exact odd.resolve_left Bool.false_ne_true
  have unknown : l.contains (r.rank, r.die) = false := by
    rw [← Bool.not_eq_true, List.contains_iff_mem]
    exact gone
  refine ⟨l, gone, ?_⟩
  unfold State.remoteArrival
  dsimp only
  cases damaged <;> exact if_pos (by rw [Bool.not_eq_true']; exact unknown)

end Sys2Proof.Machine
end

section
/-! Acknowledgements, refusals and losses of packets (R330, R334, R335, R422, R439). -/

namespace Sys2Proof.Machine

/-! ### Acknowledgements and the allowance (R330) -/

theorem ackArrival_answers {s : State} {d dest seq : Nat} {mark : Bool} {val : BitVec 128} {tag : BitVec 32} {p : Packet}
    (steady : (s.packets.find? fun p => decide (p.die = d ∧ p.dest = dest) && p.restart) = none) (sent : s.packet? d dest seq = some p) :
    s.ackArrival d dest seq mark val tag false = (p.accs.foldl (fun s id => match s.access? id with
      | some a => (match a.kind with
        | .atom _ false => s.setAccess { a with st := .performed, val := val, tag := tag, bad := false }
        | _ => s)
      | none => s) (s.ackAllow d dest mark)).answered p := by
  unfold State.ackArrival
  rw [steady]
  dsimp only
  rw [sent]
  refine congrArg (State.answered · p) (congrArg (List.foldl · _ _) (funext fun u => funext fun id => ?_))
  cases u.access? id with
  | none => rfl
  | some a =>
    dsimp only
    generalize a.kind = kind
    cases kind with
    | load | store | cop => rfl
    | atom op o => cases o <;> rfl

/-- What an acknowledgement makes of an allowance, but for how long it has been at 1 (R330). -/
def Allow.acked (x : Allow) (mark : Bool) : Allow :=
  let x : Allow := { x with o := x.o - 1, a := x.a + 1 }
  if mark && !x.h then { x with w := max 1 (x.w / 2), a := 0, h := true }
  else if x.w ≤ x.a then { (if x.h then { x with h := false } else { x with w := min 256 (x.w + 1) }) with a := 0 }
  else x

/-- Since when an allowance has been at 1, and whether that was told (R422). -/
def Allow.timed (x : Allow) (now : Nat) : Allow :=
  if x.w = 1 then { x with since := some (x.since.getD now) } else if 16 ≤ x.w then { x with since := none, told := false } else { x with since := none }

theorem Allow.timed_same (x : Allow) (now : Nat) :
    (x.timed now).o = x.o ∧ (x.timed now).w = x.w ∧ (x.timed now).a = x.a ∧ (x.timed now).h = x.h := by
  unfold Allow.timed
  split
  · exact ⟨rfl, rfl, rfl, rfl⟩
  · split <;> exact ⟨rfl, rfl, rfl, rfl⟩

theorem allowOf_ackAllow (s : State) (d dest : Nat) (mark : Bool) :
    (s.ackAllow d dest mark).allowOf d dest = ((s.allowOf d dest).acked mark).timed s.now := by
  have acks : s.ackAllow d dest mark = s.setAllow d dest (((s.allowOf d dest).acked mark).timed s.now) := rfl
  rw [acks, State.allowOf, State.setAllow, State.die_modDie, if_pos rfl, Tab.get_set, if_pos rfl]

theorem Allow.acked_halves {x : Allow} {mark : Bool} (marked : mark = true ∧ x.h = false) :
    (x.acked mark).o = x.o - 1 ∧ (x.acked mark).w = max 1 (x.w / 2) ∧ (x.acked mark).a = 0 ∧ (x.acked mark).h = true := by
  obtain ⟨rfl, held⟩ := marked
  unfold Allow.acked
  rw [held]
  exact ⟨rfl, rfl, rfl, rfl⟩

theorem Allow.acked_grows {x : Allow} {mark : Bool} (plain : mark = false ∨ x.h = true) :
    (x.acked mark).o = x.o - 1 ∧ (x.acked mark).w = (if x.w ≤ x.a + 1 ∧ x.h = false then min 256 (x.w + 1) else x.w) ∧
      (x.acked mark).a = (if x.w ≤ x.a + 1 then 0 else x.a + 1) ∧ (x.acked mark).h = (if x.w ≤ x.a + 1 then false else x.h) := by
  have no_cut : ¬ (mark && !x.h) = true := by
    rcases plain with rfl | held
    · exact Bool.false_ne_true
    · rw [held, Bool.not_true, Bool.and_false]
      exact Bool.false_ne_true
  unfold Allow.acked
  rw [if_neg no_cut]
  by_cases round : x.w ≤ x.a + 1
  · cases x.h <;> simp [round]
  · simp [round]

/-! ### Closed destinations (R334) -/

theorem getLsbD_one_shiftLeft {i k : Nat} (inside : i < 512) : (1#512 <<< k).getLsbD i = decide (i = k) := by
  rw [BitVec.getLsbD_shiftLeft, BitVec.getLsbD_one, decide_eq_true inside]
  by_cases below : i < k
  · simp [below, Nat.ne_of_lt below]
  · simp only [below, decide_false, Bool.not_false, Bool.and_true, Bool.true_and]
    exact decide_eq_decide.mpr (by omega)

/-- One bit written. -/
theorem getLsbD_written (v : BitVec 512) (b : Bool) {i k : Nat} (inside : i < 512) :
    (if b then v ||| (1#512 <<< k) else v &&& ~~~(1#512 <<< k)).getLsbD i = if i = k then b else v.getLsbD i := by
  cases b with
  | true =>
    rw [if_pos rfl, BitVec.getLsbD_or, getLsbD_one_shiftLeft inside]
    split <;> simp [*]
  | false =>
    rw [if_neg Bool.false_ne_true, BitVec.getLsbD_and, BitVec.getLsbD_not, getLsbD_one_shiftLeft inside, decide_eq_true inside]
    split <;> simp [*]

theorem closed_closedUpdate (s : State) (core dest i : Nat) (inside : i < 512) :
    ((s.closedUpdate core dest).core core).closed.getLsbD i =
      if i = dest then s.isClosed (coreDie core) dest else (s.core core).closed.getLsbD i := by
  unfold State.closedUpdate
  dsimp only
  rw [State.core_modCore, if_pos rfl]
  exact getLsbD_written _ _ inside

/-! ### Refusals, losses and copies -/

theorem refusalArrival_packet {s : State} {d dest seq : Nat} {p : Packet} (sent : s.packet? d dest seq = some p) :
    let u := (s.ackAllow d dest false).stopWriters [p] none 0x10 2
    s.refusalArrival d dest seq 0 = ((p.accs.filterMap u.access?).foldl State.refuseAccess u).answered p := by
  unfold State.refusalArrival
  rw [if_neg (not_not_intro rfl), sent]

theorem refusalArrival_load {s : State} {d dest id o : Nat} {a : Access} {q : Bool} (numbered : id ≠ 0) (access : s.access? id = some a)
    (kind : a.kind = .load q) (loc : a.loc = .remote dest o) (die : coreDie a.core = d) (sent : a.st = .sent) :
    s.refusalArrival d dest 0 id =
      (({ s with packets := s.packets.filter fun p => !(p.isLoad && p.accs.contains id) } : State).refuseAccess a).pump d := by
  unfold State.refusalArrival
  rw [if_pos numbered, access]
  dsimp only
  rw [kind, loc]
  dsimp only
  rw [if_pos ⟨rfl, die, sent⟩]

theorem restartRefusal_lost {s : State} {d dest : Nat} (outstanding : ∃ p ∈ s.packets, p.die = d ∧ p.dest = dest ∧ p.isLoad = false) :
    s.restartRefusal d dest = s.declareLost d dest := by
  obtain ⟨p, hp, die, dest, store⟩ := outstanding
  exact if_pos (List.any_eq_true.mpr ⟨p, hp, by rw [store]; simpa using ⟨die, dest⟩⟩)

theorem destinationLost_lost {s : State} {d dest : Nat} (late : ∃ p ∈ s.packets, p.die = d ∧ p.dest = dest ∧ p.first + 2 * msTicks ≤ s.time) :
    s.destinationLost d dest = s.declareLost d dest := by
  obtain ⟨p, hp, late⟩ := late
  exact if_pos (List.any_eq_true.mpr ⟨p, hp, decide_eq_true late⟩)

theorem retransmit_one {s : State} {d dest seq : Nat} {p : Packet} (only : s.packets = [p]) (die : p.die = d) (place : p.dest = dest)
    (store : p.isLoad = false) (number : p.seq = seq) (due : p.last + 50 * usTicks ≤ s.time) (few : p.tries < 8) :
    s.retransmit d dest seq 0 = { s with packets := [{ p with
      last := s.time, tries := p.tries + 1, pred := predOf [] p.line
      copyPort := if p.tries % 2 = 0 then (s.routes.get dest 0).toNat / 2 ^ 8 % 32 else routePort (s.routes.get dest 0) }] } := by
  have hit : (decide (p.die = d ∧ p.dest = dest) && (if (0 : Nat) ≠ 0 then p.isLoad && p.accs.contains 0 else !p.isLoad && decide (p.seq = seq)) &&
      decide (p.last + 50 * usTicks ≤ s.time ∧ p.tries < 8)) = true := by
    rw [decide_eq_true (And.intro die place), decide_eq_true (And.intro due few), if_neg (not_not_intro rfl), store, decide_eq_true number]
    rfl
  have alone : ([p].takeWhile fun q => decide (q ≠ p)) = [] := List.takeWhile_cons_of_neg (by simp)
  unfold State.retransmit
  dsimp only
  rw [only, List.map_singleton, if_pos hit, store, if_neg Bool.false_ne_true, alone, List.filter_nil]

theorem collapse_told {s : State} {d dest n : Nat} (since : (s.allowOf d dest).since = some n) (long : n + 2 ^ 24 ≤ s.now) (new : (s.allowOf d dest).told = false) :
    s.collapse d dest = (s.setAllow d dest { s.allowOf d dest with told := true }).sysEvent d 0x05 dest (s.now - n) := by
  unfold State.collapse
  dsimp only
  rw [since]
  dsimp only
  rw [if_pos ⟨long, new⟩]

end Sys2Proof.Machine
end

section
/-! Starvation counters, links and ports (R321, R325 to R327, R421). -/

namespace Sys2Proof.Machine

/-! ### Tiers (R327) -/

theorem tierGrant_none {s : State} {port tier : Nat} (idle : (tier ≠ 1 ∧ tier ≠ 2) ∨ s.tierWaits port tier = false) : s.tierGrant port tier = s := by
  have closed : (decide (tier = 1 ∨ tier = 2) && s.tierWaits port tier) = false := by
    rcases idle with ⟨one, two⟩ | still
    · rw [decide_eq_false (not_or.mpr ⟨one, two⟩), Bool.false_and]
    · rw [still, Bool.and_false]
  unfold State.tierGrant
  dsimp only
  rw [closed, Bool.false_and, Bool.not_false, if_pos rfl]

theorem tierGrant_one {s : State} {port : Nat} (waits : s.tierWaits port 1 = true)
    (starved : 64 ≤ (s.ports.get port {}).starved.1 ∨ s.tierWaits port 0 = true) :
    s.tierGrant port 1 = { s with ports := s.ports.set port { s.ports.get port {} with
      starved := (if 64 ≤ (s.ports.get port {}).starved.1 then 0 else (s.ports.get port {}).starved.1 + 1, (s.ports.get port {}).starved.2) } } := by
  have turn : (decide (64 ≤ (s.ports.get port {}).starved.1) || (List.range 1).any (s.tierWaits port)) = true := by
    rw [Bool.or_eq_true, decide_eq_true_iff, List.range_one, List.any_cons, List.any_nil, Bool.or_false]
    exact starved
  unfold State.tierGrant
  dsimp only
  rw [if_pos rfl, turn, waits]
  exact if_neg Bool.false_ne_true

/-- A packet's tier is 0 or 1, so nothing waits in tier 2. -/
theorem tierWaits_two (s : State) (port : Nat) : s.tierWaits port 2 = false := by
  have tier (p : Packet) : p.tier ≠ 2 := by
    unfold Packet.tier
    split <;> decide
  have packets : (s.packets.any fun p => decide (p.tier = 2 ∧ (if p.tries = 0 then p.port else p.copyPort) = port)) = false :=
    List.any_eq_false.mpr fun p _ => by simp [tier p]
  unfold State.tierWaits
  rw [packets]
  rfl

/-! ### Links (R421) -/

theorem crcReplay_ok {s u : State} {n : Nat} (counted : u = (s.countError (linkDie n) (linkKind n) false).2) :
    s.crcReplay n true = { u with links := u.links.set n { s.links.get n {} with failed := 0 } } := by
  unfold State.crcReplay
  dsimp only
  rw [if_pos rfl, ← counted]

section
variable {s : State} {n : Nat} (bad : 16 ≤ (s.links.get n {}).failed) (up : (s.links.get n {}).isDown = false) (port : n < 64)
include bad up port

theorem linkRetrain_ok {u : State} (counted : u = (s.countError (linkDie n) (linkKind n) true).2) (fast : Bool) : s.linkRetrain n true fast =
    ({ u with links := u.links.set n { s.links.get n {} with failed := 0 }, ports := u.ports.set n { u.ports.get n {} with fast := fast } } : State).sysEvent
      (linkDie n) 0x01 n (if fast then 212500 else 106250) := by
  unfold State.linkRetrain
  dsimp only
  rw [if_neg (not_or.mpr ⟨Nat.not_lt.mpr bad, Bool.eq_false_iff.mp up⟩), if_pos rfl, if_pos port, if_pos port, if_pos port, ← counted]

theorem linkRetrain_failed (fast : Bool) : s.linkRetrain n false fast =
    let u := (s.countError (linkDie n) (linkKind n) true).2
    let times := u.time :: (s.links.get n {}).retrains.filter fun t => decide (u.time ≤ t + 1000 * msTicks)
    let v : State := { u with links := u.links.set n { s.links.get n {} with retrains := times, isDown := decide (3 ≤ times.length) } }
    if 3 ≤ times.length then v.portDown n else v := by
  unfold State.linkRetrain
  dsimp only
  rw [if_neg (not_or.mpr ⟨Nat.not_lt.mpr bad, Bool.eq_false_iff.mp up⟩), if_neg Bool.false_ne_true, decide_eq_true port, Bool.and_true]
  simp only [decide_eq_true_eq]

end

/-! ### Ports and routes (R325, R421) -/

/-- Whether a route goes to a port that is down (R325). -/
def routeMoves (p : Nat) (e : BitVec 16) : Bool := decide (routePort e = p) && !routeAlt e

/-- The routes of a table, those to a port moved to their alternates. -/
def reroute (p : Nat) (t : Tab (BitVec 16)) (d : Nat) : Tab (BitVec 16) := if routeMoves p (t.get d 0) then t.set d (t.get d 0 ||| 0x2000) else t

theorem get_reroute (p : Nat) (t : Tab (BitVec 16)) (d k : Nat) :
    (reroute p t d).get k 0 = if k = d ∧ routeMoves p (t.get k 0) = true then t.get k 0 ||| 0x2000 else t.get k 0 := by
  unfold reroute
  by_cases moves : routeMoves p (t.get d 0) = true
  · rw [if_pos moves, Tab.get_set]
    by_cases same : k = d
    · rw [same, if_pos rfl, if_pos ⟨rfl, moves⟩]
    · rw [if_neg same, if_neg fun both => same both.1]
  · rw [if_neg moves, if_neg]
    rintro ⟨rfl, here⟩
    exact moves here

theorem get_foldl_reroute (p : Nat) {l : List Nat} (once : l.Nodup) (t : Tab (BitVec 16)) (k : Nat) :
    (l.foldl (reroute p) t).get k 0 = if k ∈ l ∧ routeMoves p (t.get k 0) = true then t.get k 0 ||| 0x2000 else t.get k 0 := by
  induction l generalizing t with
  | nil => simp
  | cons d l ih =>
    obtain ⟨new, once⟩ := List.nodup_cons.mp once
    rw [List.foldl_cons, ih once, get_reroute]
    by_cases same : k = d
    · subst same
      simp [new]
    · simp [same]

/-- A route at its alternate has the bit set already. -/
theorem or_alternate {e : BitVec 16} (alt : routeAlt e = true) : e ||| 0x2000 = e := by
  refine BitVec.eq_of_getLsbD_eq fun i inside => ?_
  have bits : ∀ i < 16, (0x2000 : BitVec 16).getLsbD i = decide (i = 13) := by decide
  rw [BitVec.getLsbD_or, bits i inside]
  by_cases thirteen : i = 13
  · rw [thirteen, show e.getLsbD 13 = true from alt, Bool.true_or]
  · rw [decide_eq_false thirteen, Bool.or_false]

theorem if_routeMoves (p : Nat) (e : BitVec 16) : (if routeMoves p e then e ||| 0x2000 else e) = if routePort e = p then e ||| 0x2000 else e := by
  unfold routeMoves
  by_cases here : routePort e = p
  · cases alt : routeAlt e with
    | false => simp [here]
    | true => rw [or_alternate alt, ite_self, ite_self]
  · simp [here]

theorem Told.writeStatus (s : State) (last : Option Nat) : Told s (s.writeStatus last) := Told.foldl (fun s _ => Told.physStore s _ _) _ s

theorem portDown_told (s : State) (p : Nat) :
    Told { s with routes := (List.range 512).foldl (reroute p) s.routes, ports := s.ports.set p { s.ports.get p {} with up := false } } (s.portDown p) := by
  unfold State.portDown
  dsimp only
  exact (Told.writeStatus _ none).trans (Told.sysEvent _ _ _ _ _)

theorem portDown_routes (s : State) (p : Nat) {dest : Nat} (inside : dest < 512) :
    (s.portDown p).routes.get dest 0 = if routePort (s.routes.get dest 0) = p then s.routes.get dest 0 ||| 0x2000 else s.routes.get dest 0 := by
  rw [(portDown_told s p).routes, get_foldl_reroute p List.nodup_range, ← if_routeMoves]
  simp only [List.mem_range.mpr inside, true_and]

theorem portDown_port (s : State) (p : Nat) : ((s.portDown p).ports.get p {}).up = false := by
  rw [(portDown_told s p).ports, Tab.get_set, if_pos rfl]

end Sys2Proof.Machine
end

section
/-! Restarts of the numbering, rings and the chunks of collectives (R336 to R340, R343, R423, R424). -/

namespace Sys2Proof.Machine

/-! ### Restart announcements (R423) -/

theorem mem_senders_restartAnnounced (s : State) (rank die : Nat) : (rank, die) ∈ (s.restartAnnounced rank die).senders := by
  change (rank, die) ∈ if s.senders.contains (rank, die) then s.senders else s.senders ++ [(rank, die)]
  split
  · next known => exact List.contains_iff_mem.mp known
  · exact List.mem_append_right _ (List.mem_singleton.mpr rfl)

theorem kept_restartAnnounced (s : State) (rank die d : Nat) :
    ((s.restartAnnounced rank die).die d).kept = (s.die d).kept.filter fun k => !decide (k.rank = rank ∧ k.die = die) :=
  congrArg Die.kept (get_map (fun d : Die => { d with
    kept := d.kept.filter fun k => !decide (k.rank = rank ∧ k.die = die)
    heldPk := d.heldPk.filter fun k => !decide (k.rank = rank ∧ k.die = die) }) (d := {}) rfl s.dies d)

theorem not_kept_restartAnnounced {s : State} {rank die d : Nat} {k : Kept} (kept : k ∈ ((s.restartAnnounced rank die).die d).kept) :
    ¬ (k.rank = rank ∧ k.die = die) := by
  rw [kept_restartAnnounced, List.mem_filter, Bool.not_eq_true', decide_eq_false_iff_not] at kept
  exact kept.2

/-! ### Rings (R336, R424) -/

section
variable {s : State} {ring : Nat} {c : RingCheck} (found : s.ringChecks.find? (fun c => decide (c.ring = ring)) = some c)
include found

theorem ringAnswered_both (ahead : c.nextOk = true) : s.ringAnswered ring true =
    ({ s with ringChecks := s.ringChecks.filter (fun c => decide (c.ring ≠ ring)), rings := s.rings.set ring (c.entry ||| 0x400000000000) } : State).sysEvent
      0 0x0B ring (ringN c.entry) := by
  unfold State.ringAnswered
  rw [found]
  dsimp only
  rw [if_pos rfl, ahead]
  exact if_pos rfl

theorem ringTimeout_late (late : c.born + 2 * msTicks ≤ s.time) : s.ringTimeout ring =
    ({ s with ringChecks := s.ringChecks.filter (fun c => decide (c.ring ≠ ring))
              rings := s.rings.set ring (s.rings.get ring 0 &&& ~~~0x400000000000#64) } : State).sysEvent
      0 0x0A ring (if c.prevOk then ringNext c.entry else ringPrev c.entry) := by
  unfold State.ringTimeout
  rw [found]
  dsimp only
  rw [if_neg (Nat.not_lt.mpr late)]

end

/-! ### Chunks that start (R338) -/

theorem chunkStart_bound {s : State} {c : Chunk} {cid index : Nat} (core : Nat) (far : FarAnswer)
    (found : (s.settleChunks.chunks.find? fun c => decide (c.cid = cid ∧ c.index = index ∧ c.cmd = none) && !c.started && c.status.isNone) = some c) :
    s.chunkStart core ⟨true, far, .none⟩ cid index = ({ s.settleChunks with chunks := s.settleChunks.chunks.erase c } : State).startChunk c far := by
  unfold State.chunkStart
  dsimp only
  rw [if_pos rfl, found]
  rfl

theorem ok_of_ne_error {α β : Type} {x : Except α β} (fine : ∀ e, x ≠ .error e) : ∃ a, x = .ok a := by
  cases x with
  | error e => exact absurd rfl (fine e)
  | ok a => exact ⟨a, rfl⟩

/-- The chunk of a command starts; it begins only where its ring is valid and no chunk of its number is in flight. -/
theorem chunkStart_cmd {s : State} {core : Nat} {x : Cmd} (far : FarAnswer) (cid index : Nat)
    (found : ((s.settleChunks.core core).queue 3).find? (fun x => !x.ended && decide (x.st = .queued)) = some x) (whole : x.gen = none)
    (ready : s.settleChunks.cmdReady x = true)
    (readable : ∀ e, s.settleChunks.newId.2.readChunk (s.settleChunks.cmdChunk core x) far ≠ .error e) :
    s.chunkStart core ⟨false, far, .none⟩ cid index =
      let c := s.settleChunks.cmdChunk core x
      let u := s.settleChunks.newId.2
      let begins := ringValid (u.rings.get c.ring 0) = true ∧ u.chunkOfId c.cid c.index = none
      (u.setCmd core (if begins then { x with st := .running, perm := c.cost c.contrib } else { x with st := .running })).startChunk c far := by
  obtain ⟨vals, read⟩ := ok_of_ne_error readable
  unfold State.chunkStart State.engError State.readError
  dsimp only
  rw [if_neg Bool.false_ne_true, found]
  dsimp only
  rw [whole, ready, Option.isSome_none, Bool.not_true, Bool.or_false, if_neg Bool.false_ne_true, read]
  generalize ringValid _ = valid
  generalize State.chunkOfId _ _ _ = other
  cases valid with
  | false => rw [if_neg fun both => Bool.false_ne_true both.1]
  | true =>
    cases other with
    | some _ => rw [if_neg fun both => Option.some_ne_none _ both.2]; rfl
    | none => rw [if_pos ⟨rfl, rfl⟩]; rfl

/-! ### Partials and results (R338 to R340) -/

theorem partialArrival_taken {s : State} {p : Partial} {c : Chunk} (found : s.chunkOfId p.cid p.index = some c) (flying : c.status = none)
    (new : p.ring = c.ring → s.rank ∉ c.ranks) : s.partialArrival p = (s.creditBack p.ring).addPartial c p := by
  have fresh : ¬ (c.status.isSome || (decide (p.ring = c.ring) && c.ranks.contains s.rank)) = true := by
    simpa [flying] using new
  unfold State.partialArrival
  dsimp only
  rw [found]
  exact if_neg fresh

theorem partialArrival_kept {s : State} {p : Partial}
    (early : ∀ c, s.chunkOfId p.cid p.index = some c → c.status ≠ none ∨ (p.ring = c.ring ∧ s.rank ∈ c.ranks)) : s.partialArrival p =
      if (s.partials.filter fun q => decide (q.ring = p.ring) && !q.ready).length < 32 then { s with partials := s.partials ++ [p] } else s := by
  unfold State.partialArrival
  dsimp only
  cases found : s.chunkOfId p.cid p.index with
  | none => rfl
  | some c =>
    refine if_pos ?_
    rw [Bool.or_eq_true, Bool.and_eq_true, decide_eq_true_iff, List.contains_iff_mem, Option.isSome_iff_ne_none]
    exact early c found

theorem resultArrival_taken {s : State} {p : Partial} {c : Chunk} (found : s.chunkOfId p.cid p.index = some c) (flying : c.status = none)
    (first : c.got = none) (fine : p.refused = false) : s.resultArrival p =
      (if ringPos (s.entryFor c p) = (p.index % ringN (s.entryFor c p) + ringN (s.entryFor c p) - 2) % ringN (s.entryFor c p)
        then s else s.sendResult p).takeResult c p.vals p.ranks := by
  unfold State.resultArrival
  rw [found]
  dsimp only
  rw [flying, first, fine, if_neg (by decide), if_neg Bool.false_ne_true]

theorem partialCredit_sends {s : State} {ring : Nat} {p : Partial} (waits : s.partials.find? (fun p => decide (p.ring = ring) && p.ready) = some p) :
    s.partialCredit ring =
      ({ s with ringCredits := s.ringCredits.set ring (min 32 (s.ringCredits.get ring 32 + 1)), partials := s.partials.erase p } : State).sendPartial p := by
  unfold State.partialCredit
  dsimp only
  rw [waits]

/-! ### Lost members (R335, R343) -/

theorem chunkLost_completes {s : State} {cid index m : Nat} {c : Chunk} (found : s.chunkOfId cid index = some c) (flying : c.status = none)
    (member : m ∈ c.members) (other : m ≠ s.rank) (due : c.progress + 2 * msTicks ≤ s.time ∨ (s.routes.get m 0).toNat / 2 ^ 14 = 2) :
    s.chunkLost cid index m = s.completeChunk c 1 := by
  have ends : (s.isLost m || decide (c.progress + 2 * msTicks ≤ s.time)) = true := by
    unfold State.isLost
    rw [Bool.or_eq_true, decide_eq_true_iff, decide_eq_true_iff]
    exact due.symm
  unfold State.chunkLost
  rw [found]
  dsimp only
  rw [flying, List.contains_iff_mem.mpr member, decide_eq_true other, ends]
  exact if_neg Bool.false_ne_true

theorem chunkLost_other {s : State} {cid index m : Nat} (stranger : ∀ c, s.chunkOfId cid index = some c → m ∉ c.members ∨ m = s.rank) :
    s.chunkLost cid index m = s := by
  unfold State.chunkLost
  cases found : s.chunkOfId cid index with
  | none => rfl
  | some c =>
    have absent : (c.members.contains m && decide (m ≠ s.rank)) = false := by
      rw [Bool.and_eq_false_imp, List.contains_iff_mem, decide_eq_false_iff_not, not_not]
      exact (stranger c found).resolve_left ∘ not_not_intro
    dsimp only
    rw [absent, Bool.false_and, Bool.not_false, Bool.or_true, if_pos rfl]

end Sys2Proof.Machine
end

section
/-! The events of the fabric (R9, R321 to R343, R421 to R424, R439). -/

namespace Sys2Proof.Machine

/-- Settles O51: each event by the lemma about its function, the packet at its home by what `takePacket` does with it. -/
theorem fabricEvents : Obligations.FabricEvents := by
  unfold Obligations.FabricEvents
  refine ⟨?home, ?restart, ?refused, ?ack, ?allowance, ?closed, ?refusedStore, ?refusedLoad, ?restartRefusal, ?lost, ?copy, ?collapse, ?express,
    ?noGrant, ?grant, ?noTier, ?training, ?replayFailed, ?replayed, ?retrained, ?retrainFailed, ?portDown, ?portUp, ?announced, ?ringCheck, ?ringAnswered,
    ?ringTimeout, ?boundChunk, ?cmdChunk, ?partialTaken, ?partialKept, ?result, ?credit, ?peerLost, ?stranger⟩
  case home =>
    intro rank die seq pred pa bytes op queue x
    refine happensAt _ (fun _ => rfl) fun s0 _ ⟨known, home⟩ u hu => ?_
    rw [remoteArrival_home known home] at hu
    subst hu
    have issued {v w : State} (same : v = w) : ({ v with issue := s0.issue } : State) = { w with issue := s0.issue } :=
      congrArg (fun u : State => { u with issue := s0.issue }) same
    refine ⟨fun k known => ?_, fun new follows fine => ⟨_, rfl, ?_⟩, fun w new follows bad => ?_, fun new ⟨p, hp, gap⟩ => ?_⟩
    · exact issued (packetTaken_repeated (r := ⟨rank, die, seq, pred, pa, bytes, op, decide (64 < queue)⟩) known)
    · exact issued (packetTaken_performed (r := ⟨rank, die, seq, pred, pa, bytes, op, decide (64 < queue)⟩) new follows fine)
    · exact issued (packetTaken_bad (r := ⟨rank, die, seq, pred, pa, bytes, op, decide (64 < queue)⟩) new follows bad)
    · exact issued (packetTaken_held (r := ⟨rank, die, seq, pred, pa, bytes, op, decide (64 < queue)⟩) new hp gap)
  case restart =>
    intro rank die seq pred pa bytes op queue damaged err
    refine happensAt _ (fun _ => rfl) fun s _ odd u hu => ?_
    obtain ⟨l, gone, arrival⟩ := remoteArrival_restart (r := ⟨rank, die, seq, pred, pa, bytes, op, decide (64 < queue)⟩) odd
    exact ⟨l, gone, congrArg (fun u : State => { u with issue := s.issue }) (hu.trans arrival)⟩
  case refused =>
    exact fun rank die seq pred pa bytes op queue err => eqn _ (fun _ => rfl) fun s _ ⟨known, homeless⟩ =>
      remoteArrival_refused (r := ⟨rank, die, seq, pred, pa, bytes, op, decide (64 < queue)⟩) known homeless
  case ack => exact fun d dest seq mark val tag p => eqn _ (fun _ => rfl) fun s _ ⟨steady, sent⟩ => ackArrival_answers steady sent
  case allowance =>
    intro s d dest mark x y
    have after : y = (x.acked mark).timed s.now := allowOf_ackAllow s d dest mark
    obtain ⟨o, w, a, h⟩ := Allow.timed_same (x.acked mark) s.now
    rw [after, o, w, a, h]
    refine ⟨?_, fun marked => (Allow.acked_halves marked).2, fun plain => (Allow.acked_grows plain).2⟩
    by_cases marked : mark = true ∧ x.h = false
    · exact (Allow.acked_halves marked).1
    · have plain : mark = false ∨ x.h = true := by grind
      exact (Allow.acked_grows plain).1
  case closed =>
    exact fun core dest _ => happensAt _ (fun _ => rfl) fun s _ _ u hu i inside => by
      rw [hu]
      exact closed_closedUpdate s core dest i inside
  case refusedStore =>
    exact fun d dest seq p => happensAt _ (fun _ => rfl) fun s _ sent u hu =>
      ⟨_, rfl, congrArg (fun u : State => { u with issue := s.issue }) (hu.trans (refusalArrival_packet sent))⟩
  case refusedLoad =>
    exact fun d dest id a q o numbered => eqn _ (fun _ => rfl) fun s _ ⟨access, kind, loc, die, sent⟩ =>
      refusalArrival_load numbered access kind loc die sent
  case restartRefusal => exact fun d dest => eqn _ (fun _ => rfl) fun s _ outstanding => restartRefusal_lost outstanding
  case lost => exact fun d dest => eqn _ (fun _ => rfl) fun s _ late => destinationLost_lost late
  case copy =>
    exact fun d dest seq p => happensAt _ (fun _ => rfl) fun s _ ⟨only, die, place, store, number, due, few⟩ u hu => by
      rw [hu, retransmit_one only die place store number due few]
  case collapse => exact fun d dest n => eqn _ (fun _ => rfl) fun s _ ⟨since, long, new⟩ => collapse_told since long new
  case express => exact fun router out => happens _ (fun _ => rfl) fun s _ _ => rfl
  case noGrant =>
    exact fun port tier => happensAt _ (fun _ => rfl) fun s _ idle u hu => by rw [hu, tierGrant_none idle]
  case grant =>
    exact fun port => happensAt _ (fun _ => rfl) fun s _ ⟨waits, starved⟩ u hu => by rw [hu, tierGrant_one waits starved]
  case noTier => exact tierWaits_two
  case training => exact fun port dest fast => hosts _ (fun _ => rfl) fun s _ _ => rfl
  case replayFailed => exact fun n => hosts _ (fun _ => rfl) fun s _ _ => rfl
  case replayed =>
    refine fun n => hosts _ (fun _ => rfl) fun s _ _ => ?_
    obtain ⟨u, counted⟩ : ∃ u, u = (s.countError (linkDie n) (linkKind n) false).2 := ⟨_, rfl⟩
    exact ⟨u, counted, by rw [crcReplay_ok counted]⟩
  case retrained =>
    refine fun n fast port => hosts _ (fun _ => rfl) fun s _ ⟨bad, up⟩ => ?_
    obtain ⟨u, counted⟩ : ∃ u, u = (s.countError (linkDie n) (linkKind n) true).2 := ⟨_, rfl⟩
    exact ⟨u, counted, by rw [linkRetrain_ok bad up port counted fast]⟩
  case retrainFailed => exact fun n fast port => hostsEqn _ (fun _ => rfl) fun s _ ⟨bad, up⟩ => linkRetrain_failed bad up port fast
  case portDown => exact fun s p dest inside => ⟨portDown_routes s p inside, portDown_port s p⟩
  case portUp => exact fun p => hosts _ (fun _ => rfl) fun s _ _ => rfl
  case announced =>
    exact fun rank die => happensAt _ (fun _ => rfl) fun s _ _ u hu => by
      subst hu
      exact ⟨mem_senders_restartAnnounced s rank die, fun d k kept => not_kept_restartAnnounced kept, rfl⟩
  case ringCheck => exact fun rank ring => happens _ (fun _ => rfl) fun s _ _ => rfl
  case ringAnswered => exact fun ring c => eqn _ (fun _ => rfl) fun s _ ⟨found, ahead⟩ => ringAnswered_both found ahead
  case ringTimeout => exact fun ring c => eqn _ (fun _ => rfl) fun s _ ⟨found, late⟩ => ringTimeout_late found late
  case boundChunk => exact fun core cid index far c => eqn _ (fun _ => rfl) fun s _ found => chunkStart_bound core far found
  case cmdChunk =>
    exact fun core cid index far x => eqn _ (fun _ => rfl) fun s _ ⟨found, whole, ready, readable⟩ =>
      chunkStart_cmd far cid index found whole ready readable
  case partialTaken =>
    exact fun ring cid index dtype cop bytes vals ranks refused c => eqn _ (fun _ => rfl) fun s _ ⟨found, flying, new⟩ =>
      partialArrival_taken found flying new
  case partialKept =>
    intro ring cid index dtype cop bytes vals ranks refused p
    refine happensAt _ (fun _ => rfl) fun s _ early u hu => ?_
    rw [hu, partialArrival_kept (p := p) early]
    split <;> rfl
  case result =>
    exact fun ring cid index dtype cop bytes vals ranks c => eqn _ (fun _ => rfl) fun s _ ⟨found, flying, first⟩ =>
      resultArrival_taken found flying first rfl
  case credit => exact fun ring p => eqn _ (fun _ => rfl) fun s _ waits => partialCredit_sends waits
  case peerLost =>
    exact fun cid index m c => eqn _ (fun _ => rfl) fun s _ ⟨found, flying, member, other, due⟩ => chunkLost_completes found flying member other due
  case stranger =>
    exact fun cid index m => happensAt _ (fun _ => rfl) fun s _ strange u hu => by rw [hu, chunkLost_other strange]

end Sys2Proof.Machine
end
